-- ==== Sys2Proof/Word.lean ====
section
/-! DEFINITION. The word types of the device: bytes, registers, 64 B lines. -/

namespace Sys2Proof

/-- One byte of memory. -/
abbrev Byte := BitVec 8

/-- A 64-bit Quill or control register (06 R154). -/
abbrev Word := BitVec 64

/-- The number of a scalar or vector register, 0 to 31 (06 R154, R163; 07 R194). -/
abbrev Reg := BitVec 5

/-- A 64 B line, byte 0 in bits 7 to 0 (00 R5). -/
abbrev Line := BitVec 512

end Sys2Proof
end

