-- ==== Sys2Proof/Syntax.lean ====
section
/-! DEFINITION. The commands of the block: the rows of spec/opcode_table.json. -/

namespace Sys2Proof

/-- The register blocks that Eunto alone reaches (11, 12, 13, 14, 15, 19). -/
inductive DevBlock where
  | mem | cmp | brm | cad | krl | dma
  deriving DecidableEq, Repr

/-- Where a register write comes in: BAR0 of a function, its configuration space, a tile's control window, a slice's registers, or a
block that Eunto reaches (00 R5, R6; 06 R158; 10 R301; 16 R472, R477). -/
inductive RegPort where
  | bar0 (f : Nat)
  | config (f : Nat)
  | tile (t : Nat)
  | orc (h : Nat)
  | eunto (b : DevBlock)
  deriving DecidableEq, Repr


/-- One command of the block: one constructor per row of spec/opcode_table.json, in its order.
The operands name the unit the command happens at and carry what comes from outside the block. -/
inductive Instr where
  -- rings
  /-- DOORBELL (R490). A driver write of a producer count to a queue doorbell; the device computes d and announces slots for fetch. -/
  | doorbell (f q : Nat) (p : BitVec 32)
  /-- SUBMISSION_FETCH (R490). The ring engine reads one 64 B slot as a snapshot and takes the entry if OWN is 1, clearing OWN and advancing c. -/
  | submissionFetch (f q : Nat)
  /-- OWN_RECHECK (R490). 10 ticks after a slot read OWN 0, the slot is read again, and the queue enters ERROR_OWN if OWN is still 0. -/
  | ownRecheck (f q : Nat)
  /-- DELAYED_START (R588). The head delayed command of a tenant starts once use falls below guarantee or the device idles, recording QTIME. -/
  | delayedStart (f : Nat)
  /-- DELAY_TIMEOUT (R588). A delayed command that waited DELAY_MAX ticks completes REFUSED_CAPACITY with no side effect. -/
  | delayTimeout (f : Nat)
  /-- NOP (R501). The NOP ring command completes with no effect. -/
  | nop (w : Nat)
  /-- QUERY_RUN (R502). The QUERY_RUN ring command copies its parameter block and makes the query resident, expanding its ready pipelines. -/
  | queryRun (w : Nat)
  /-- QUERY_CANCEL (R503). The QUERY_CANCEL ring command cancels the matching resident queries of the function and completes after them. -/
  | queryCancel (w : Nat)
  /-- COLUMN_WRITE (R504). The COLUMN_WRITE ring command replaces rows of a column object, or drops it, segment by segment. -/
  | columnWrite (w : Nat)
  /-- COLUMN_APPEND (R505). The COLUMN_APPEND ring command appends rows to a column object, creating it if asked. -/
  | columnAppend (w : Nat)
  /-- COLUMN_READ (R506). The COLUMN_READ ring command writes rows of an object as natural values to a destination. -/
  | columnRead (w : Nat)
  /-- FLUSH (R512). The FLUSH ring command completes once every earlier command of its queue has completed. -/
  | flush (w : Nat)
  /-- DMA_COPY (R507). The DMA_COPY ring command runs a copy on one of the function's DMA channels. -/
  | dmaCopy (w : Nat)
  /-- COMPRESS (R508). The COMPRESS ring command builds a job and submits it to an assigned compression channel. -/
  | compress (w : Nat)
  /-- DECOMPRESS (R508). The DECOMPRESS ring command builds a job and submits it to an assigned compression channel. -/
  | decompress (w : Nat)
  /-- DIGEST (R509). The DIGEST ring command opens a message on a digest engine and feeds it by a DMA transfer. -/
  | digest (w : Nat)
  /-- EXTENT_RETURN (R45). An old extent returns to the allocation once every task that started before the publishing store has finished. -/
  | extentReturn (f : Nat)
  /-- COMPLETION_WRITE (R494). The device writes a completion entry into an owned slot with OWN 0 and advances t. -/
  | completionWrite (f q : Nat)
  /-- COMPLETION_RECHECK (R494). Waiting completions recheck their slot at each doorbell of the pair and every 1,000 ticks. -/
  | completionRecheck (f q : Nat)
  /-- COALESCE_EXPIRY (R495). At the end of a coalescing interval a held-back completion message is sent. -/
  | coalesceExpiry (f q : Nat)
  /-- MSIX_UNMASK (R483). Unmasking a vector sends the message pending in its PBA bit once. -/
  | msixUnmask (f v : Nat)
  -- dispatch
  /-- PIPELINE_EXPAND (R116). A pipeline whose dependencies have completed expands into morsel groups and ONCE tasks. -/
  | pipelineExpand (f qid p : Nat)
  /-- EXPANSION_RESUME (R220). A paused expansion resumes in morsel order once the next group's resources are free. -/
  | expansionResume (f qid p : Nat)
  /-- REFILL (R231). When a tenant has 64 free on-chip entries, up to 64 spilled entries move on chip in one burst. -/
  | refill (f : Nat)
  /-- WAITTASK (R233). The runtime-mode instruction that blocks the core until a task is assigned, an interrupt, a timeout or an unbind. -/
  | waittask (t : Nat) (rd ra : Reg)
  /-- TASK_ASSIGN (R232). The dispatcher hands the head of the tenant's chosen ready list to a core in WAITTASK, writing rd. -/
  | taskAssign (t : Nat)
  /-- WAITTASK_TIMEOUT (R233). A WAITTASK with a timeout ends with rd 0 after ra Cadence ticks. -/
  | waittaskTimeout (t : Nat)
  /-- DISP_DONE (R232). A DSP_DONE write with disposition DONE sends the task's Pips, updates stage counts and frees the descriptor. -/
  | dispDone (t : Nat) (d : BitVec 64)
  /-- DISP_FAILED (R232). A DSP_DONE write with disposition FAILED fails the task's query under R117. -/
  | dispFailed (t : Nat) (d : BitVec 64)
  /-- DISP_CANCELLED (R232). A DSP_DONE write with disposition CANCELLED frees the descriptor and sends nothing. -/
  | dispCancelled (t : Nat) (d : BitVec 64)
  /-- DISP_YIELD (R232). A DSP_DONE write with disposition YIELD appends the task at the tail of its priority. -/
  | dispYield (t : Nat) (d : BitVec 64)
  /-- PIP_ARRIVE (R223). A Pip reaches the matching store or descriptor, sets its PRESENT bit, and readies the task when all inputs and flags are present. -/
  | pipArrive (f n : Nat)
  /-- EVENT_PULSE (R227). An engine or Cadence pulse sets a tenant's allocated flag, or is ignored and counted. -/
  | eventPulse (f flag : Nat)
  /-- DSP_FLAGALLOC (R228). A read of DSP_FLAGALLOC allocates the lowest free flag or returns 0xFF. -/
  | dspFlagalloc (t : Nat) (rd : Reg)
  /-- DSP_FLAGSET (R227). A write of DSP_FLAGSET sets the tenant's allocated flags named in the mask. -/
  | dspFlagset (t : Nat) (mask : BitVec 64)
  /-- TILE_REBIND (R234). The dispatcher rebinds a free tile to another tenant with ready tasks, raising REBIND. -/
  | tileRebind (t f : Nat)
  /-- TILE_LEND (R234). A guaranteed tile idle in WAITTASK for 1,000 ticks is lent to a tenant with ready tasks. -/
  | tileLend (t f : Nat)
  /-- TILE_RECLAIM (R234). A lent tile reclaimed by its guarantee holder rebinds at the end of its current task. -/
  | tileReclaim (t : Nat)
  /-- BIND_ACK (R235). A write of DSP_BIND.ACK completes a rebinding and lets the new tenant's tasks be assigned. -/
  | bindAck (t : Nat)
  /-- BIND_ACK_TIMEOUT (R235). A tile that does not ACK within the bound is fenced. -/
  | bindAckTimeout (t : Nat)
  -- stroke
  /-- START (R54). A write of STK_CTL.START begins a Stroke run: header check, constant preparation, segment and zone pruning. -/
  | start (t : Nat)
  /-- STROKE_PASS (R64). One pass over a plane updates every undecided row's comparison state from the live blocks' lines. -/
  | strokePass (t : Nat)
  /-- RUN_END (R66). A run ends: results are looked up, validity applied, the selection written and DONE set. -/
  | runEnd (t : Nat)
  /-- STK_ABORT (R81). A write of STK_CTL.ABORT ends the run at the next line with ERR 5 and squashes its held entries. -/
  | stkAbort (t : Nat)
  /-- RESET_EST (R89). A write of STK_SPEC.RESET_EST loads the estimator from HINT. -/
  | resetEst (t : Nat)
  /-- BLOTTER_RELEASE (R72). Confirmed entries are released in row order once the run has ended and region code has finished. -/
  | blotterRelease (t : Nat)
  -- operators
  /-- SCAN (R109). The SCAN operator applies its scan-list predicates and projects the selected rows of a morsel. -/
  | scan (t : Nat)
  /-- FILTER (R108). The FILTER operator keeps the input rows that satisfy its predicate. -/
  | filter (t : Nat)
  /-- PROJECT (R108). The PROJECT operator copies, reorders or loads fields for the same rows. -/
  | project (t : Nat)
  /-- COMPUTE (R110). The COMPUTE operator calls a kernel in task mode and takes its row count from G1. -/
  | compute (t : Nat)
  /-- HASH_BUILD (R128). The HASH_BUILD operator writes row records into partition chunks by fetch-add. -/
  | hashBuild (t : Nat)
  /-- HASH_PROBE (R130). The HASH_PROBE operator walks bucket chains and outputs rows by join kind. -/
  | hashProbe (t : Nat)
  /-- AGG_HASH (R137). The AGG_HASH operator finds or inserts groups and updates accumulators by atomics. -/
  | aggHash (t : Nat)
  /-- AGG_PLANE (R139). The AGG_PLANE operator runs plane aggregates and combines them into one accumulator line. -/
  | aggPlane (t : Nat)
  /-- SORT_RADIX (R148). The SORT_RADIX operator sorts a batch by LSD radix into one run. -/
  | sortRadix (t : Nat)
  /-- MERGE (R150). The MERGE operator produces one output morsel of the merged runs. -/
  | merge (t : Nat)
  /-- TOPK (R151). The TOPK operator passes on at most K rows under the query threshold. -/
  | topk (t : Nat)
  /-- LIMIT (R111). The LIMIT operator passes on the first n rows in morsel order. -/
  | limit (t : Nat)
  /-- EXCHANGE (R450). The EXCHANGE send stage stages a morsel's rows into per-destination slices of its round. -/
  | exchange (t : Nat)
  /-- OP_COMPRESS (R113). The COMPRESS operator compresses each field of a morsel into frames. -/
  | opCompress (t : Nat)
  /-- OP_DECOMPRESS (R113). The DECOMPRESS operator decodes frames into a batch. -/
  | opDecompress (t : Nat)
  /-- OP_DIGEST (R112). The DIGEST operator feeds a morsel's fields to its message in morsel order. -/
  | opDigest (t : Nat)
  /-- LOOKUP_BRAMBLE (R383). The LOOKUP_BRAMBLE operator keeps, drops or annotates rows by a Bramble search. -/
  | lookupBramble (t : Nat)
  /-- EMIT (R114). The EMIT operator writes whole records to a buffer or appends to column objects. -/
  | emit (t : Nat)
  /-- INDEX_TASK (R129). After all build tasks, an index task sizes, zeroes and fills the bucket array of a resident partition. -/
  | indexTask (t : Nat)
  /-- FINALISATION_TASK (R138). After all AGG_HASH tasks, a finalisation task handles spill and writes a partition's result rows. -/
  | finalisationTask (t : Nat)
  /-- SPILL_SUBPARTITION (R144). After all probe tasks, each spilled sub-partition is loaded, indexed and probed in turn. -/
  | spillSubpartition (t : Nat)
  -- quill
  /-- ADD (R166). rd := ra + rb. -/
  | add (t : Nat) (rd ra rb : Reg)
  /-- SUB (R166). rd := ra − rb. -/
  | sub (t : Nat) (rd ra rb : Reg)
  /-- AND (R166). rd := ra and rb. -/
  | and (t : Nat) (rd ra rb : Reg)
  /-- OR (R166). rd := ra or rb. -/
  | or (t : Nat) (rd ra rb : Reg)
  /-- XOR (R166). rd := ra xor rb. -/
  | xor (t : Nat) (rd ra rb : Reg)
  /-- SLL (R166). Logical left shift by rb[5:0]. -/
  | sll (t : Nat) (rd ra rb : Reg)
  /-- SRL (R166). Logical right shift by rb[5:0]. -/
  | srl (t : Nat) (rd ra rb : Reg)
  /-- SRA (R166). Arithmetic right shift by rb[5:0]. -/
  | sra (t : Nat) (rd ra rb : Reg)
  /-- SLT (R166). Signed set-less-than. -/
  | slt (t : Nat) (rd ra rb : Reg)
  /-- SLTU (R166). Unsigned set-less-than. -/
  | sltu (t : Nat) (rd ra rb : Reg)
  /-- MIN (R166). Signed minimum of ra and rb. -/
  | min (t : Nat) (rd ra rb : Reg)
  /-- MAX (R166). Signed maximum of ra and rb. -/
  | max (t : Nat) (rd ra rb : Reg)
  /-- MINU (R166). Unsigned minimum of ra and rb. -/
  | minu (t : Nat) (rd ra rb : Reg)
  /-- MAXU (R166). Unsigned maximum of ra and rb. -/
  | maxu (t : Nat) (rd ra rb : Reg)
  /-- CLZ (R166). Count of leading zero bits. -/
  | clz (t : Nat) (rd ra : Reg)
  /-- CTZ (R166). Count of trailing zero bits. -/
  | ctz (t : Nat) (rd ra : Reg)
  /-- POPC (R166). Count of one bits. -/
  | popc (t : Nat) (rd ra : Reg)
  /-- ADDW (R166). 32-bit add, sign-extended. -/
  | addw (t : Nat) (rd ra rb : Reg)
  /-- SUBW (R166). 32-bit subtract, sign-extended. -/
  | subw (t : Nat) (rd ra rb : Reg)
  /-- NIBGET (R166). Extracts Nib rb[3:0] of ra. -/
  | nibget (t : Nat) (rd ra rb : Reg)
  /-- JR (R166). Register jump with one delay slot. -/
  | jr (t : Nat) (ra : Reg)
  /-- JALR (R166). Register jump and link to pc + 8. -/
  | jalr (t : Nat) (rd ra : Reg)
  /-- MUL (R167). Low 64 bits of the product. -/
  | mul (t : Nat) (rd ra rb : Reg)
  /-- MULH (R167). High 64 bits of the signed product. -/
  | mulh (t : Nat) (rd ra rb : Reg)
  /-- MULHU (R167). High 64 bits of the unsigned product. -/
  | mulhu (t : Nat) (rd ra rb : Reg)
  /-- DIV (R167). Signed division, raising DIVZERO on a zero divisor. -/
  | div (t : Nat) (rd ra rb : Reg)
  /-- DIVU (R167). Unsigned division. -/
  | divu (t : Nat) (rd ra rb : Reg)
  /-- REM (R167). Signed remainder. -/
  | rem (t : Nat) (rd ra rb : Reg)
  /-- REMU (R167). Unsigned remainder. -/
  | remu (t : Nat) (rd ra rb : Reg)
  /-- ADDI (R168). Add sign-extended immediate. -/
  | addi (t : Nat) (rd ra : Reg) (imm : BitVec 16)
  /-- ANDI (R168). And zero-extended immediate. -/
  | andi (t : Nat) (rd ra : Reg) (imm : BitVec 16)
  /-- ORI (R168). Or zero-extended immediate. -/
  | ori (t : Nat) (rd ra : Reg) (imm : BitVec 16)
  /-- XORI (R168). Xor zero-extended immediate. -/
  | xori (t : Nat) (rd ra : Reg) (imm : BitVec 16)
  /-- SLTI (R168). Signed compare with immediate. -/
  | slti (t : Nat) (rd ra : Reg) (imm : BitVec 16)
  /-- SLTIU (R168). Unsigned compare with sign-extended immediate. -/
  | sltiu (t : Nat) (rd ra : Reg) (imm : BitVec 16)
  /-- LUI (R168). Loads a shifted immediate. -/
  | lui (t : Nat) (rd : Reg) (imm : BitVec 16)
  /-- SLLI (R168). Left shift by immediate. -/
  | slli (t : Nat) (rd ra : Reg) (imm : BitVec 16)
  /-- SRLI (R168). Logical right shift by immediate. -/
  | srli (t : Nat) (rd ra : Reg) (imm : BitVec 16)
  /-- SRAI (R168). Arithmetic right shift by immediate. -/
  | srai (t : Nat) (rd ra : Reg) (imm : BitVec 16)
  /-- LD (R169). Scalar load of 1–8 bytes with alignment, region and Blot checks; a miss blocks until the line arrives. -/
  | ld (t : Nat) (size : BitVec 2) (u : Bool) (rd ra : Reg) (off : BitVec 12)
  /-- ST (R169). Scalar store of 1–8 bytes with alignment, region and held checks. -/
  | st (t : Nat) (size : BitVec 2) (rd ra : Reg) (off : BitVec 12)
  /-- FADD (R132). Atomic fetch-add on an 8 B word held E or D. -/
  | fadd (t : Nat) (rd ra rb : Reg)
  /-- UMIN (R132). Atomic unsigned minimum. -/
  | umin (t : Nat) (rd ra rb : Reg)
  /-- UMAX (R132). Atomic unsigned maximum. -/
  | umax (t : Nat) (rd ra rb : Reg)
  /-- NADD (R132). Atomic saturating Nib-wise add. -/
  | nadd (t : Nat) (rd ra rb : Reg)
  /-- CAS (R132). Atomic compare-and-swap with expected value from rd. -/
  | cas (t : Nat) (rd ra rb : Reg)
  /-- CACHE_PF (R250). Non-blocking prefetch of a line into L1D. -/
  | cachePf (t : Nat) (ra : Reg) (off : BitVec 12)
  /-- CACHE_CLEAN (R261). Writes back a dirty line and keeps it. -/
  | cacheClean (t : Nat) (ra : Reg) (off : BitVec 12)
  /-- CACHE_CLEANINV (R261). Writes back a dirty line and invalidates it, subject to locking. -/
  | cacheCleaninv (t : Nat) (ra : Reg) (off : BitVec 12)
  /-- CACHE_INV (R261). Runtime-only invalidate without writeback, sending VICT_DROP for a D line. -/
  | cacheInv (t : Nat) (ra : Reg) (off : BitVec 12)
  /-- BR (R172). Unconditional branch with delay slot. -/
  | br (t : Nat) (disp : BitVec 20)
  /-- CALL (R172). Branch and link G31 := pc + 8. -/
  | call (t : Nat) (disp : BitVec 20)
  /-- BEQZ (R172). Branch when ra = 0. -/
  | beqz (t : Nat) (annul : Bool) (ra : Reg) (disp : BitVec 20)
  /-- BNEZ (R172). Branch when ra ≠ 0. -/
  | bnez (t : Nat) (annul : Bool) (ra : Reg) (disp : BitVec 20)
  /-- BLTZ (R172). Branch when ra < 0. -/
  | bltz (t : Nat) (annul : Bool) (ra : Reg) (disp : BitVec 20)
  /-- BGEZ (R172). Branch when ra ≥ 0. -/
  | bgez (t : Nat) (annul : Bool) (ra : Reg) (disp : BitVec 20)
  /-- BGTZ (R172). Branch when ra > 0. -/
  | bgtz (t : Nat) (annul : Bool) (ra : Reg) (disp : BitVec 20)
  /-- BLEZ (R172). Branch when ra ≤ 0. -/
  | blez (t : Nat) (annul : Bool) (ra : Reg) (disp : BitVec 20)
  /-- MFCR (R173). Reads a control register. -/
  | mfcr (t : Nat) (rd : Reg) (cr : BitVec 12)
  /-- MTCR (R173). Writes a control register under its field types. -/
  | mtcr (t : Nat) (ra : Reg) (cr : BitVec 12)
  /-- SETCR (R173). Sets bits of a control register, returning the old value. -/
  | setcr (t : Nat) (rd ra : Reg) (cr : BitVec 12)
  /-- CLRCR (R173). Clears bits of a control register, returning the old value. -/
  | clrcr (t : Nat) (rd ra : Reg) (cr : BitVec 12)
  /-- SYSCALL (R174). Raises the SYSCALL exception with SVC n12; SYSCALL 0 returns from a kernel. -/
  | syscall (t : Nat) (svc : BitVec 12)
  /-- RFE (R182). Returns from exception: pc := QEPC, mode and IE restored, EXL cleared. -/
  | rfe (t : Nat)
  /-- FENCE (R174). Orders earlier loads or stores, optionally to global observation in host memory. -/
  | fence (t : Nat) (n : BitVec 12)
  /-- ISYNC (R174). Discards fetched instructions and refetches from pc + 4. -/
  | isync (t : Nat)
  /-- INTERRUPT (R184). An enabled pending source is taken between instructions and enters runtime mode. -/
  | interrupt (t : Nat)
  -- vector
  /-- SETVL (R198). Sets VTYPE.EW and VL := min(ra, VLMAX). -/
  | setvl (t : Nat) (rd ra : Reg) (ew : BitVec 3)
  /-- VADD (R202). Element-wise add. -/
  | vadd (t : Nat) (m x : Bool) (vd va vb : Reg)
  /-- VSUB (R202). Element-wise subtract. -/
  | vsub (t : Nat) (m x : Bool) (vd va vb : Reg)
  /-- VAND (R202). Element-wise and. -/
  | vand (t : Nat) (m x : Bool) (vd va vb : Reg)
  /-- VOR (R202). Element-wise or. -/
  | vor (t : Nat) (m x : Bool) (vd va vb : Reg)
  /-- VXOR (R202). Element-wise xor. -/
  | vxor (t : Nat) (m x : Bool) (vd va vb : Reg)
  /-- VSLL (R202). Element-wise left shift. -/
  | vsll (t : Nat) (m x : Bool) (vd va vb : Reg)
  /-- VSRL (R202). Element-wise logical right shift. -/
  | vsrl (t : Nat) (m x : Bool) (vd va vb : Reg)
  /-- VSRA (R202). Element-wise arithmetic right shift. -/
  | vsra (t : Nat) (m x : Bool) (vd va vb : Reg)
  /-- VMIN (R202). Element-wise signed minimum. -/
  | vmin (t : Nat) (m x : Bool) (vd va vb : Reg)
  /-- VMAX (R202). Element-wise signed maximum. -/
  | vmax (t : Nat) (m x : Bool) (vd va vb : Reg)
  /-- VMINU (R202). Element-wise unsigned minimum. -/
  | vminu (t : Nat) (m x : Bool) (vd va vb : Reg)
  /-- VMAXU (R202). Element-wise unsigned maximum. -/
  | vmaxu (t : Nat) (m x : Bool) (vd va vb : Reg)
  /-- VMUL (R202). Element-wise low product. -/
  | vmul (t : Nat) (m x : Bool) (vd va vb : Reg)
  /-- VMULH (R202). Element-wise signed high product. -/
  | vmulh (t : Nat) (m x : Bool) (vd va vb : Reg)
  /-- VMULHU (R202). Element-wise unsigned high product. -/
  | vmulhu (t : Nat) (m x : Bool) (vd va vb : Reg)
  /-- VMV (R202). Element move or scalar broadcast. -/
  | vmv (t : Nat) (m x : Bool) (vd vb : Reg)
  /-- VCMPEQ (R203). Equality compare into a mask. -/
  | vcmpeq (t : Nat) (m x : Bool) (vd va vb : Reg)
  /-- VCMPNE (R203). Inequality compare into a mask. -/
  | vcmpne (t : Nat) (m x : Bool) (vd va vb : Reg)
  /-- VCMPLT (R203). Signed less-than compare into a mask. -/
  | vcmplt (t : Nat) (m x : Bool) (vd va vb : Reg)
  /-- VCMPLTU (R203). Unsigned less-than compare into a mask. -/
  | vcmpltu (t : Nat) (m x : Bool) (vd va vb : Reg)
  /-- VCMPLE (R203). Signed less-or-equal compare into a mask. -/
  | vcmple (t : Nat) (m x : Bool) (vd va vb : Reg)
  /-- VCMPLEU (R203). Unsigned less-or-equal compare into a mask. -/
  | vcmpleu (t : Nat) (m x : Bool) (vd va vb : Reg)
  /-- VCMPGT (R203). Signed greater-than compare into a mask. -/
  | vcmpgt (t : Nat) (m x : Bool) (vd va vb : Reg)
  /-- VCMPGTU (R203). Unsigned greater-than compare into a mask. -/
  | vcmpgtu (t : Nat) (m x : Bool) (vd va vb : Reg)
  /-- VCMPGE (R203). Signed greater-or-equal compare into a mask. -/
  | vcmpge (t : Nat) (m x : Bool) (vd va vb : Reg)
  /-- VCMPGEU (R203). Unsigned greater-or-equal compare into a mask. -/
  | vcmpgeu (t : Nat) (m x : Bool) (vd va vb : Reg)
  /-- VWMUL (R205). Widening multiply placed under R204. -/
  | vwmul (t : Nat) (m : Bool) (sg : BitVec 2) (a : Bool) (vd va vb : Reg)
  /-- VWCVT (R205). Widening extension placed under R204. -/
  | vwcvt (t : Nat) (m : Bool) (sg : BitVec 2) (vd va : Reg)
  /-- NDOT (R205). Nib dot product per 32-bit lane. -/
  | ndot (t : Nat) (m : Bool) (sg : BitVec 2) (a : Bool) (vd va vb : Reg)
  /-- BDOT (R205). Byte dot product per 32-bit lane. -/
  | bdot (t : Nat) (m : Bool) (sg : BitVec 2) (a : Bool) (vd va vb : Reg)
  /-- VEXT (R206). Extracts an element sign-extended to rd. -/
  | vext (t : Nat) (m : Bool) (rd va rb : Reg)
  /-- VEXTU (R206). Extracts an element zero-extended to rd. -/
  | vextu (t : Nat) (m : Bool) (rd va rb : Reg)
  /-- VINS (R206). Inserts a scalar into one element. -/
  | vins (t : Nat) (m : Bool) (vd ra rb : Reg)
  /-- VCOMPRESS (R206). Packs active elements to the front of vd. -/
  | vcompress (t : Nat) (m : Bool) (vd va : Reg)
  /-- VPOPM (R206). Counts mask bits below VL. -/
  | vpopm (t : Nat) (m : Bool) (rd va : Reg)
  /-- VFIRSTM (R206). Finds the lowest mask bit below VL. -/
  | vfirstm (t : Nat) (m : Bool) (rd va : Reg)
  /-- VREDSUM (R206). Signed sum reduction. -/
  | vredsum (t : Nat) (m : Bool) (rd va : Reg)
  /-- VREDSUMU (R206). Unsigned sum reduction. -/
  | vredsumu (t : Nat) (m : Bool) (rd va : Reg)
  /-- VREDMIN (R206). Signed minimum reduction. -/
  | vredmin (t : Nat) (m : Bool) (rd va : Reg)
  /-- VREDMAX (R206). Signed maximum reduction. -/
  | vredmax (t : Nat) (m : Bool) (rd va : Reg)
  /-- VREDMINU (R206). Unsigned minimum reduction. -/
  | vredminu (t : Nat) (m : Bool) (rd va : Reg)
  /-- VREDMAXU (R206). Unsigned maximum reduction. -/
  | vredmaxu (t : Nat) (m : Bool) (rd va : Reg)
  /-- VLD (R212). Vector load (unit, structure, strided or gather) committing all elements or raising at the first faulting one. -/
  | vld (t : Nat) (m : Bool) (mode nf : BitVec 2) (vd va vb : Reg)
  /-- VST (R212). Vector store or scatter committing all elements or none. -/
  | vst (t : Nat) (m : Bool) (mode nf : BitVec 2) (vd va vb : Reg)
  -- control
  /-- BPCLR (R178). A write of QCTL.BPCLR clears every predictor entry before the next instruction issues. -/
  | bpclr (t : Nat)
  /-- RANGE_GO (R262). A write of L1CTL.RANGE_GO walks every set applying the range operation. -/
  | rangeGo (t : Nat)
  /-- DIS (R263). A write of L1CTL.DIS cleans and invalidates all of L1D, clears its locks and disables or re-enables it. -/
  | dis (t : Nat) (on : Bool)
  /-- IDIS (R263). A write of L1CTL.IDIS invalidates all of L1I, clears its locks and disables or re-enables it. -/
  | idis (t : Nat) (on : Bool)
  -- coherence
  /-- RD_S (R283). A read-miss request reaches its home, which grants E, S or L or forwards to a holder. -/
  | rdS (src line : Nat)
  /-- RD_H (R292). A held read reaches its home and is served shared without evicting another tenant. -/
  | rdH (src line : Nat)
  /-- RD_X (R283). An ownership request reaches its home, which invalidates or forwards and then grants E or D. -/
  | rdX (src line : Nat)
  /-- UPG (R283). An upgrade request from a sharer reaches its home, which invalidates others and grants E. -/
  | upg (src line : Nat)
  /-- RD_ONCE (R283). A non-recording read reaches its home and returns data without changing state. -/
  | rdOnce (src line : Nat)
  /-- IO_RD (R283). An IO-class line read reaches its home: served at once or NACKed. -/
  | ioRd (src line : Nat)
  /-- IO_WR (R283). An IO-class masked write reaches its home, invalidates holders, merges and writes. -/
  | ioWr (src line : Nat)
  /-- HOME_QUEUE_START (R282). A queued request starts at its home once the line or set admits it. -/
  | homeQueueStart (h : Nat)
  /-- FWD_S (R285). A holder answers a shared forward with DATA and FACK, moving to L. -/
  | fwdS (t line : Nat)
  /-- FWD_X (R285). A holder answers an exclusive forward with DATA and FACK, moving to I. -/
  | fwdX (t line : Nat)
  /-- FWD_ONCE (R285). A holder answers a one-time forward with DATA and FACK, unchanged. -/
  | fwdOnce (t line : Nat)
  /-- INV (R285). A holder invalidates its copy and answers INVACK or WBDATA. -/
  | inv (t line : Nat)
  /-- GNT (R286). A requester receives its grant, installs the line with the data, and sends CMP_ACK. -/
  | gnt (t line : Nat)
  /-- DATA (R285). A requester receives line data forwarded by a holder. -/
  | data (t line : Nat)
  /-- FACK (R283). A home receives a holder's forward acknowledgement and completes the grant. -/
  | fack (t line : Nat)
  /-- NOLINE (R283). A home receives NOLINE and supplies the data itself. -/
  | noline (t line : Nat)
  /-- INVACK (R283). A home counts an invalidation acknowledgement. -/
  | invack (t line : Nat)
  /-- WBDATA (R283). A home receives dirty data in answer to INV. -/
  | wbdata (t line : Nat)
  /-- CMP_ACK (R286). A home receives CMP_ACK and clears BUSY on the entry. -/
  | cmpAck (t line : Nat)
  /-- WBACK (R253). A tile receives WBACK and drains the victim buffer entry. -/
  | wback (t line : Nat)
  /-- DECLINE (R253). A tile receives DECLINE and drops the clean victim. -/
  | decline (t line : Nat)
  /-- NACK (R287). An IO agent receives NACK and schedules a retry with doubled delay or STARVE. -/
  | nack (src line : Nat)
  /-- NACK_RETRY (R287). An IO agent's retry delay expires and it resends the request. -/
  | nackRetry (src line : Nat)
  /-- IODONE (R283). An IO agent learns its IO_WR has been ordered. -/
  | iodone (src line : Nat)
  /-- WB_DIRTY (R284). A home applies a dirty victim to Orchard and sends WBACK. -/
  | wbDirty (t line : Nat)
  /-- VICT_CLEAN (R284). A home removes the sender and keeps or declines the clean victim. -/
  | victClean (t line : Nat)
  /-- VICT_DROP (R284). A home removes the holder of a dropped dirty line. -/
  | victDrop (t line : Nat)
  /-- FENCE_TIMEOUT (R296). A forward or INV unanswered for 4,096 fabric cycles fences the tile. -/
  | fenceTimeout (t line : Nat)
  /-- FENCE_MESSAGE (R297). A home or the dispatcher receives FENCE(t), sets ORC_FENCED and isolates the tile. -/
  | fenceMessage (h t : Nat)
  /-- FENCE_SCAN (R298). A home scans one directory set per fabric cycle, applying the fence to its entries. -/
  | fenceScan (h : Nat)
  /-- SNP_DATA (R299). A host SnpData is answered by FWD_S and dirty data. -/
  | snpData (line : Nat)
  /-- SNP_INV (R299). A host SnpInv is answered by INV to every holder. -/
  | snpInv (line : Nat)
  /-- SNP_CUR (R299). A host SnpCur is answered by FWD_ONCE. -/
  | snpCur (line : Nat)
  /-- GO (R468). The host's GO marks a device write globally observed. -/
  | go (line : Nat)
  /-- HOST_RESPONSE (R299). A host data response to a D2H request reaches the home, poison making the line Blot. -/
  | hostResponse (line : Nat) (d : BitVec 512) (poison : Bool)
  /-- BISNP_RESPONSE (R300). The host's answer to a back-invalidate snoop lets the waiting device request proceed. -/
  | bisnpResponse (line : Nat)
  /-- MEM_RD (R469). A host CXL.mem read enters the home as a host-class RD_ONCE. -/
  | memRd (line : Nat)
  /-- MEM_RD_DATA (R469). A host CXL.mem MemRdData enters the home as a host-class read. -/
  | memRdData (line : Nat)
  /-- MEM_WR (R469). A host CXL.mem write enters the home as a host-class IO_WR. -/
  | memWr (line : Nat) (d : BitVec 512) (poison : Bool)
  /-- MEM_WR_PTL (R469). A host partial write enters the home as a masked write, never clearing Blot. -/
  | memWrPtl (line : Nat) (d : BitVec 512) (mask : BitVec 64)
  /-- BAR2_ACCESS (R480). A host access through BAR2 is mapped to device memory or completes with Unsupported Request. -/
  | bar2Access (f off len : Nat) (wr : Option (BitVec 512))
  /-- BAR0_INVALID_ACCESS (R478). A BAR0 access that is not a naturally aligned 4 or 8 B access completes Unsupported Request. -/
  | bar0InvalidAccess (f off len : Nat) (wr : Bool)
  -- memory
  /-- MEM_REQUEST_ARRIVE (R313). A request from a home enters a channel controller's queue. -/
  | memRequestArrive (c : Nat)
  /-- DRAM_ISSUE (R313). A channel chooses and issues its next request by panic, share, row hit and age. -/
  | dramIssue (c : Nat)
  /-- MEM_READ_COMPLETE (R321). A read's bursts return and are checked, corrected or returned Blot. -/
  | memReadComplete (c : Nat) (e0 e1 : BitVec 288)
  /-- GUARD_WRITE (R325). A guarded write locks its group, reads old data and parity, writes both and unlocks. -/
  | guardWrite (c : Nat)
  /-- GUARD_REBUILD (R325). Once the other granules are read, a failed half is rebuilt by XOR and returned unmarked. -/
  | guardRebuild (c : Nat) (second : Bool)
  /-- REFRESH (R317). A per-bank refresh falls due and is issued or postponed within limits. -/
  | refresh (c b : Nat)
  /-- IDLE_PRECHARGE (R314). An open row idle for MEM_PAGE.IDLE cycles is precharged. -/
  | idlePrecharge (c b : Nat)
  /-- SCRUB (R323). The scrubber reads a line and writes back a corrected one. -/
  | scrub (c : Nat) (e0 e1 : BitVec 288)
  /-- RETRAIN_STEP (R328). Every 100 ms or 5 °C a channel holds its queue for an incremental retrain step. -/
  | retrainStep (c eye : Nat) (ok : Bool)
  /-- PANIC_CHANGE (R316). A Krelor panic change reaches the controllers, prioritising real-time requests. -/
  | panicChange (p : Bool)
  -- compression
  /-- CMP_SUBMIT (R344). A write of CMP_SUBMIT queues a compression job or refuses it. -/
  | cmpSubmit (t : Nat) (v : BitVec 64)
  /-- CMP_ABORT (R346). A write of CMP_ABORT aborts a queued or running job of the bound function. -/
  | cmpAbort (t : Nat) (v : BitVec 64)
  /-- CMP_JOB_START (R345). A channel takes its next job by function rotation and checks its ranges. -/
  | cmpJobStart (c : Nat)
  /-- CMP_JOB_END (R343). A compression job ends: status record written, then one pulse. -/
  | cmpJobEnd (c : Nat)
  /-- CMP_ASSIGN (R339). A write of CMP_ASSIGN changes a channel's functions between jobs. -/
  | cmpAssign (c : Nat) (v : BitVec 64)
  -- bramble
  /-- BRM_FIND (R378). A read of BRM_FIND performs a lowest-index search in the tenant's range. -/
  | brmFind (t a : Nat) (rd : Reg)
  /-- BRM_VEC (R378). A read of BRM_VEC returns the match vector of a tenant window. -/
  | brmVec (t a w : Nat) (rd : Reg)
  /-- BRM_SUBMIT (R382). A write of BRM_SUBMIT queues a batch search job or refuses it. -/
  | brmSubmit (t : Nat) (v : BitVec 64)
  /-- BRM_JOB_START (R382). An array takes its next batch job by function rotation. -/
  | brmJobStart (a : Nat)
  /-- BRM_JOB_END (R381). A batch job writes its status record and sends one pulse. -/
  | brmJobEnd (a : Nat)
  /-- BRAMBLE_UPDATE_STEP (R384). Eunto performs one invalidate, write or validate step on an entry. -/
  | brambleUpdateStep (a : Nat)
  /-- BRAMBLE_POWER_EVAL (R391). Every 1,000 ticks an array re-evaluates its sensor and search rate. -/
  | bramblePowerEval (a : Nat)
  -- cadence
  /-- CADENCE_CLOCK (R402). Each Cadence clock adds 2^32 + CAD_RATE to the time value. -/
  | cadenceClock
  /-- SYNC_EXCHANGE (R405). Every 65,536 ticks a port sends a timestamped sync request. -/
  | syncExchange (p : Nat)
  /-- SYNC_REQ (R405). A SYNC_REQ flit is timestamped and answered with SYNC_RSP. -/
  | syncReq (p : Nat) (w : BitVec 2048)
  /-- SYNC_RSP (R405). A SYNC_RSP flit yields theta and delay and updates master key knowledge. -/
  | syncRsp (p : Nat) (w : BitVec 2048)
  /-- CADENCE_STEER (R408). Once per interval a non-master updates rate_f and CAD_RATE and its sync state. -/
  | cadenceSteer
  /-- PTM_DIALOGUE (R411). Every 2^20 ticks a device with host steering runs a PTM dialogue. -/
  | ptmDialogue (h : BitVec 64)
  /-- CAD_ARM (R414). A write of CAD_ARM reads an entry image and arms or refuses it. -/
  | cadArm (t : Nat) (v : BitVec 64)
  /-- CAD_DISARM (R419). A write of CAD_DISARM disarms an entry with outcome DISARMED. -/
  | cadDisarm (t : Nat) (v : BitVec 64)
  /-- ACTION_DUE (R415). An entry becomes due when CAD_NOW reaches TICK and launches or is dropped. -/
  | actionDue (e : Nat)
  /-- ACTION_READY (R416). A late LATE_RUN entry launches when its target becomes ready. -/
  | actionReady (e : Nat)
  /-- ACTION_TIMEOUT (R416). A LATE_RUN entry waiting WAIT_MAX ticks is dropped with DROPPED_TIMEOUT. -/
  | actionTimeout (e : Nat)
  /-- TRIGGER_PULSE (R418). A trigger pulse is queued or consumed by an AFTER entry, setting its TICK. -/
  | triggerPulse (f k : Nat)
  -- krelor
  /-- IDLE (R432). An IDLE flit is received and has no effect beyond link fields. -/
  | idle (p : Nat) (w : BitVec 2048)
  /-- DATA_FLIT (R452). A DATA flit is accepted in sequence, forwarded or written into the receive area. -/
  | dataFlit (p : Nat) (w : BitVec 2048)
  /-- SACK (R452). A SACK flit marks a sent slice acknowledged, completing the round. -/
  | sack (p : Nat) (w : BitVec 2048)
  /-- ABORT (R455). An ABORT flit fails the open exchange's query or is cached or discarded. -/
  | abort (p : Nat) (w : BitVec 2048)
  /-- LINK_ACK (R434). A LINK flit with OP 0 carries ACK and credits. -/
  | linkAck (p : Nat) (w : BitVec 2048)
  /-- NAK (R434). A NAK makes the transmitter resend from the expected SEQ. -/
  | nak (p : Nat) (w : BitVec 2048)
  /-- HELLO (R440). A HELLO is checked against the expected peer, moving the port UP or MISCABLED. -/
  | hello (p : Nat) (w : BitVec 2048)
  /-- REPLAY_TIMEOUT (R434). A flit unacknowledged for 200 ticks is resent. -/
  | replayTimeout (p : Nat)
  /-- LANE_FAIL (R436). A lane fails on loss of lock or 8 resends and both ends begin the degrade sequence. -/
  | laneFail (p l : Nat)
  /-- LANE_RETRAIN_COMPLETE (R436). Retraining on 3 lanes ends and unacknowledged flits are resent. -/
  | laneRetrainComplete (p : Nat) (ok : Bool)
  /-- PORT_DOWN (R437). A port goes DOWN and fails over to its redundant pair if one exists. -/
  | portDown (p : Nat)
  /-- RETRAIN (R436). A write of KRL_PORT_CTL.RETRAIN retrains a degraded port on all lanes. -/
  | retrain (p : Nat)
  /-- CABLE_PRESENT (R438). An enabled port with a cable present enters CMIS. -/
  | cablePresent (p : Nat) (present : Bool)
  /-- CMIS_READ (R439). The cable identity read completes and the port trains or refuses the cable. -/
  | cmisRead (p : Nat) (answers : Bool) (rev : Nat) (app : Bool) (len : Nat) (skew : Option (BitVec 128))
  /-- TRAIN_COMPLETE (R438). Lane training ends and the port enters IDCHECK, or DOWN after three failures. -/
  | trainComplete (p : Nat) (ok : Bool)
  /-- ROUND_DEADLINE (R454). A round incomplete after its deadline fails the query with EXCHANGE_PEER_LOST. -/
  | roundDeadline (x : Nat)
  -- host
  /-- PERST (R466). PERST_N asserted resets the host link and every function. -/
  | perst
  /-- HOT_RESET (R466). A hot reset drops host lines and resets and wipes every tenant. -/
  | hotReset
  /-- LINK_DOWN (R466). A link-down event resets every function as a hot reset. -/
  | linkDown
  /-- PF_FLR (R466). A PF function-level reset resets every function as a hot reset. -/
  | pfFlr
  /-- VF_FLR (R471). A VF function-level reset applies TENANT_RESET to that tenant only. -/
  | vfFlr (f : Nat)
  /-- VF_ENABLE_CLEAR (R471). Clearing VF Enable resets every VF tenant. -/
  | vfEnableClear
  -- mailbox
  /-- MB_DOORBELL (R520). A write of MB_DOORBELL sets BUSY and snapshots the request, or sets OVERRUN. -/
  | mbDoorbell (f : Nat) (v : BitVec 32)
  /-- MAILBOX_TAKE (R523). Eunto takes the next busy mailbox in rotation and checks the request in order. -/
  | mailboxTake
  /-- DEV_INFO (R533). Replies with the device information record. -/
  | devInfo (f : Nat)
  /-- CAP_QUERY_PAGE (R534). CAP_QUERY page 0 returns the capability page under one even CGEN. -/
  | capQueryPage (f : Nat)
  /-- CAP_QUERY_ENTITLEMENT (R534). CAP_QUERY page 1 returns the target tenant's entitlement record. -/
  | capQueryEntitlement (f : Nat)
  /-- QUEUE_CREATE (R539). Creates a queue pair and its command work area. -/
  | queueCreate (f : Nat)
  /-- QUEUE_DELETE (R539). Stops a pair, cancels its queries and replies once its commands end. -/
  | queueDelete (f : Nat)
  /-- PIPE_LOAD (R118). Checks an image in order, then copies it and applies its Bramble load lists. -/
  | pipeLoad (f : Nat)
  /-- PIPE_UNLOAD (R119). Frees an image not used by a resident query. -/
  | pipeUnload (f : Nat)
  /-- BRAMBLE_LOAD (R388). Applies one Bramble load list for the function. -/
  | brambleLoad (f : Nat)
  /-- TENANT_CREATE (R579). Checks an entitlement record and builds the tenant's allocation and grants. -/
  | tenantCreate (f : Nat)
  /-- QOS_SET (R536). Applies a changed entitlement record between ring entries. -/
  | qosSet (f : Nat)
  /-- QUIESCE_DRAIN (R594). TENANT_QUIESCE mode 0 halts fetching and lets work drain up to BOUND. -/
  | quiesceDrain (f : Nat)
  /-- QUIESCE_CANCEL (R594). TENANT_QUIESCE mode 1 halts fetching and cancels work at once. -/
  | quiesceCancel (f : Nat)
  /-- QUIESCE_RESUME (R596). TENANT_QUIESCE mode 2 returns the tenant and halted pairs to ACTIVE. -/
  | quiesceResume (f : Nat)
  /-- QUIESCE_BOUND (R594). BOUND ticks after a drain quiesce, remaining work is cancelled. -/
  | quiesceBound (f : Nat)
  /-- QUIESCE_COMPLETE (R594). The tenant enters QUIESCED when no work remains, setting ATTN. -/
  | quiesceComplete (f : Nat)
  /-- TENANT_RESET (R597). Ends logging, cleans dispatch and tiles, deletes pairs and images, and starts the wipe. -/
  | tenantReset (f : Nat)
  /-- TENANT_DESTROY (R600). Does what a reset does, then frees every grant and returns the tenant to NONE. -/
  | tenantDestroy (f : Nat)
  /-- WIPE_END (R599). A tenant wipe completes and the tenant returns to ACTIVE or NONE. -/
  | wipeEnd (f : Nat)
  /-- MIGRATE_LOG_START (R590). Starts logging the tenant's writes into host and device bitmaps. -/
  | migrateLogStart (f : Nat)
  /-- MIGRATE_LOG_STOP (R538). Stops logging once every logged write has reached its bitmap. -/
  | migrateLogStop (f : Nat)
  /-- TIME_ALIGN_READ (R540). TIME_ALIGN OP 0 returns the Cadence time and sync state. -/
  | timeAlignRead (f : Nat)
  /-- TIME_ALIGN_PRIORITY (R407). TIME_ALIGN OP 1 sets the master-key priority. -/
  | timeAlignPriority (f : Nat)
  /-- HOST_STEERING_ON (R411). TIME_ALIGN OP 2 sets the epoch and enables host steering. -/
  | hostSteeringOn (f : Nat)
  /-- HOST_STEERING_OFF (R411). TIME_ALIGN OP 3 disables host steering. -/
  | hostSteeringOff (f : Nat)
  /-- KRELOR_SET (R441). Stores node ID, dimensions and port 6–7 modes for the next reset. -/
  | krelorSet (f : Nat)
  /-- FW_UPDATE_BEGIN (R631). Checks an update header and enters UPDATE. -/
  | fwUpdateBegin (f : Nat)
  /-- FW_UPDATE_CHUNK (R632). Accepts and decrypts one chunk of the body into staging. -/
  | fwUpdateChunk (f : Nat)
  /-- FW_UPDATE_COMMIT (R634). Checks the body's tag and hash and starts the commit sequence. -/
  | fwUpdateCommit (f : Nat)
  /-- UPDATE_REBOOT (R636). The update reboot restarts firmware components, restores state and enters CONFIRM. -/
  | updateReboot (img : BitVec 2)
  /-- HEALTH_CONFIRM (R637). Confirms the new image, raises the fused version and enters READY. -/
  | healthConfirm (f : Nat)
  /-- CONFIRM_TIMEOUT (R637). 60 s in CONFIRM without HEALTH_CONFIRM fails the slot and reboots into Keel. -/
  | confirmTimeout (img : BitVec 2)
  /-- UPDATE_TIMEOUT (R633). 600 s without a chunk or commit abandons the update. -/
  | updateTimeout
  /-- LIFECYCLE_SET (R624). Checks an authorised transition, then destroys tenants, writes the fuse and wipes. -/
  | lifecycleSet (f : Nat)
  /-- LIFECYCLE_WIPE_END (R625). The lifecycle wipe ends and the device returns to its former state. -/
  | lifecycleWipeEnd
  /-- HEALTH_REPORT (R691). Replies with the health record. -/
  | healthReport (f : Nat)
  /-- MARGIN_REPORT (R692). Replies with the margin ledger. -/
  | marginReport (f : Nat)
  /-- ERRLOG_READ (R682). Copies error-log records from FROM onward into a buffer. -/
  | errlogRead (f : Nat)
  -- dma
  /-- DMA_LOAD (R552). A write of DMA_LOAD loads a channel's shadow set or refuses it. -/
  | dmaLoad (t : Nat) (v : BitVec 64)
  /-- DMA_ABORT (R554). A write of DMA_ABORT aborts a current or shadow transfer. -/
  | dmaAbort (t : Nat) (v : BitVec 64)
  /-- SHADOW_CURRENT (R553). A non-CADENCE shadow set becomes current when the channel has no current transfer. -/
  | shadowCurrent (c : Nat)
  /-- DMA_DESCRIPTOR (R547). A channel reads and checks its next descriptor and moves its bytes. -/
  | dmaDescriptor (c : Nat)
  /-- BUS_ERROR (R548). A bus error stops its descriptor as BAD, logs and signals PF vector 1. -/
  | busError (c : Nat)
  /-- TRANSFER_END (R550). Once writes are ordered, the transfer's status record is written and one pulse sent. -/
  | transferEnd (c : Nat)
  /-- DGS_OPEN (R559). A write of DGS_OPEN opens a digest message or refuses it. -/
  | dgsOpen (t : Nat) (v : BitVec 64)
  /-- DGS_CLOSE (R568). A write of DGS_CLOSE discards a message with ABORTED. -/
  | dgsClose (t : Nat) (v : BitVec 64)
  /-- DGS_SUSPEND (R568). A write of DGS_SUSPEND requests suspension of the function's message. -/
  | dgsSuspend (t : Nat) (v : BitVec 64)
  /-- SUSPEND_SAVE (R568). Once no feed is in progress, the context is saved and the message ends SUSPENDED. -/
  | suspendSave (e : Nat)
  /-- CONTEXT_QUANTUM (R566). A message that has taken 4,096 B or stalled yields the engine to waiting messages. -/
  | contextQuantum (e : Nat)
  -- security
  /-- KEY_WRITE (R617). KST_CMD GO without ERASE installs a key into a slot or refuses it. -/
  | keyWrite (v : BitVec 64)
  /-- KEY_ERASE (R617). KST_CMD GO with ERASE empties a slot. -/
  | keyErase (v : BitVec 64)
  -- power
  /-- POWER_GOOD (R658). PWRGD high with V_in in range starts the start-up sequence. -/
  | powerGood (vin : Nat)
  /-- RAIL_RAMP_TIMEOUT (R707). A rail not within 3 % by its window's end stops the ramp and turns rails off. -/
  | railRampTimeout (r : Nat)
  /-- RAMP_RETRY (R707). 100 ms after a failed ramp the regulators are ramped once more. -/
  | rampRetry
  /-- OVER_VOLTAGE (R642). V_in above 18.5 V for 1 µs starts an orderly shutdown. -/
  | overVoltage (vin : Nat)
  /-- UNDER_VOLTAGE (R642). V_in below 4.5 V for 1 µs starts an orderly shutdown. -/
  | underVoltage (vin : Nat)
  /-- PWRGD_LOW (R655). PWRGD falling, or a blade missing, starts an orderly shutdown. -/
  | pwrgdLow
  /-- THERMAL_TRIP (R647). A sensor at 105 °C trips a hardware orderly shutdown. -/
  | thermalTrip (t : Nat) (temp : Int)
  /-- POWER_SAMPLE (R646). Every 100 ticks input power is sampled and d_cap stepped. -/
  | powerSample (pin vin : BitVec 16)
  /-- THERMAL_EVAL (R647). Every 1,000 ticks each tile sensor sets d_th and THERM_ALERT_N. -/
  | thermalEval (temps : List Int)
  /-- SAG_FIRE (R649). A detector firing raises the sag level and switches the Quill and fabric dividers. -/
  | sagFire (core : Bool)
  /-- SAG_RECOVERY (R650). After 1,000 ticks without a firing the sag level falls by one, not below L_min. -/
  | sagRecovery
  /-- REF_LOSS (R652). Loss of the reference puts the PLL in holdover and logs. -/
  | refLoss
  /-- REF_RETURN (R652). A reference returning within 1 ms is tracked again without relock. -/
  | refReturn
  /-- REF_TIMEOUT (R652). A reference absent for 1 ms causes an orderly shutdown. -/
  | refTimeout
  /-- A1_ENTRY (R653). After its idle time, the device gates tile clocks and enters A1. -/
  | a1Entry
  /-- A2_ENTRY (R653). After its idle time, tiles are unbound and power-gated and the device enters A2. -/
  | a2Entry
  /-- A3_ENTRY (R653). After its idle time, channels enter self-refresh and ports drop to lane 0 in A3. -/
  | a3Entry
  /-- POWER_STATE_EXIT (R654). A failing condition returns the device to A0 within the state's latency. -/
  | powerStateExit (wake : Bool)
  /-- MODULE_COLD_RESET (R656). Power-on or a long MOD_RST_N pulse resets everything and wipes. -/
  | moduleColdReset (mods : List Nat) (straps : Reg) (img : BitVec 2)
  /-- MODULE_WARM_RESET (R656). A short MOD_RST_N pulse restarts Eunto, tiles and controllers and destroys tenants. -/
  | moduleWarmReset (mods : List Nat) (img : BitVec 2)
  /-- PWR_RST_WARM (R656). A write of PWR_RST.WARM starts a module warm reset. -/
  | pwrRstWarm (mods : List Nat) (img : BitVec 2)
  -- reliability
  /-- TILE_RETURN (R673). After a fenced tile's reset and self-test it rejoins, or is disabled. -/
  | tileReturn (t : Nat) (pass : Bool)
  /-- SLICE_FAULT (R674). Lockstep divergence or error counts condemn an Orchard slice. -/
  | sliceFault (h cause line : Nat)
  /-- SLICE_REMOVAL (R675). Eunto starts the drain: homes stop new requests and wait for BUSY entries to close. -/
  | sliceRemoval (h : Nat)
  /-- SLICE_FLUSH (R675). After the drain, L1s are flushed, slices write back, home maps are rewritten and homes resume. -/
  | sliceFlush
  /-- MODULE_LOSS (R676). A failed channel or dropped presence takes a memory module out of service. -/
  | moduleLoss (m : Nat)
  /-- PHASE_SHED (R677). A failing regulator phase is shed and P_env lowered by 2.5 W. -/
  | phaseShed (r phase : Nat)
  /-- WATCHDOG_EXPIRY (R678). The Eunto watchdog expires and the Eunto domain restarts, or the device enters FAULT. -/
  | watchdogExpiry (img : BitVec 2)
  /-- AGEING_MEASURE (R683). Every powered hour Eunto measures every ageing monitor's drift. -/
  | ageingMeasure (drift : List Nat)
  /-- MARGIN_REPLAN (R685). The margin ledger is re-planned, rail setpoints stepped and L_min raised if needed. -/
  | marginReplan
  /-- PWR_MARGIN_REPLAN (R685). A write of PWR_MARGIN.REPLAN starts a re-plan. -/
  | pwrMarginReplan
  /-- HUB_SENSOR_READ (R689). Every 1,000 ticks a module hub sensor is read for refresh rate. -/
  | hubSensorRead (m : Nat) (temp : Option Int)
  /-- I3C_READ (R702). A rack-management private read returns the 16 B status block or NACK. -/
  | i3cRead
  -- late
  /-- REGISTER_WRITE (R6). A write to a register with no row of its own, applied under its field types. -/
  | registerWrite (port : RegPort) (off bytes : Nat) (val : BitVec 64)
  /-- ILLEGAL (R164). Execution of a word that decodes to no instruction raises ILLEGAL and enters the exception sequence. -/
  | illegal (t : Nat) (w : BitVec 32)
  /-- SPDM_REQUEST (R620). An SPDM request arriving through the PF's DOE mailbox is answered, covering certificates, challenge, measurements and secure sessions. -/
  | spdmRequest (other : Bool) (req : List (BitVec 8))
  /-- LINK_UP (R465). The host link finishes training and Flex Bus negotiation, fixing rate, width and whether CXL.cache and CXL.mem were granted (HOSTMODE). -/
  | linkUp (rate width : Nat) (cxl ptm : Bool)
  /-- DRAM_WRITE_ERROR (R322). The DRAM reports a command or write error; the controller retries, and a failed write enters the bad-line table or fails the channel. -/
  | dramWriteError (c : Nat) (wr : Bool)
  /-- DEBUG_PORT_OPEN (R626). The debug port is opened over its pins where the lifecycle allows, setting the debug state of measurement 7. -/
  | debugPortOpen
  /-- SHUTDOWN_RESTART (R655). After an orderly shutdown, a module cold reset begins once every cause has cleared, e.g. V_in back in range or every sensor below 95 °C. -/
  | shutdownRestart (vin : Nat) (tmax : Int) (mods : List Nat) (straps : Reg) (img : BitVec 2)
  deriving DecidableEq, Repr

end Sys2Proof
end

