-- ==== Sys2Proof/WellFormed.lean ====
section
/-! DEFINITION. Which commands name something the device has, at the counts of the full part (00 R1). -/

namespace Sys2Proof

/-- Every operand of the command names something the device has. -/
def Instr.wellFormed (i : Instr) : Bool :=
  match i with
  | .doorbell f q _ => decide (f < 64) && decide (q < 16)
  | .submissionFetch f q => decide (f < 64) && decide (q < 16)
  | .ownRecheck f q => decide (f < 64) && decide (q < 16)
  | .delayedStart f => decide (f < 64)
  | .delayTimeout f => decide (f < 64)
  | .nop _ => true
  | .queryRun _ => true
  | .queryCancel _ => true
  | .columnWrite _ => true
  | .columnAppend _ => true
  | .columnRead _ => true
  | .flush _ => true
  | .dmaCopy _ => true
  | .compress _ => true
  | .decompress _ => true
  | .digest _ => true
  | .extentReturn f => decide (f < 64)
  | .completionWrite f q => decide (f < 64) && decide (q < 16)
  | .completionRecheck f q => decide (f < 64) && decide (q < 16)
  | .coalesceExpiry f q => decide (f < 64) && decide (q < 16)
  | .msixUnmask f v => decide (f < 64) && decide (v ≤ 64)
  | .pipelineExpand f qid p => decide (f < 64) && decide (qid < 32) && decide (p < 16)
  | .expansionResume f qid p => decide (f < 64) && decide (qid < 32) && decide (p < 16)
  | .refill f => decide (f < 64)
  | .waittask t _ _ => decide (t < 96)
  | .taskAssign t => decide (t < 96)
  | .waittaskTimeout t => decide (t < 96)
  | .dispDone t _ => decide (t < 96)
  | .dispFailed t _ => decide (t < 96)
  | .dispCancelled t _ => decide (t < 96)
  | .dispYield t _ => decide (t < 96)
  | .pipArrive f _ => decide (f < 64)
  | .eventPulse f flag => decide (f < 64) && decide (flag < 64)
  | .dspFlagalloc t _ => decide (t < 96)
  | .dspFlagset t _ => decide (t < 96)
  | .tileRebind t f => decide (t < 96) && decide (f < 64)
  | .tileLend t f => decide (t < 96) && decide (f < 64)
  | .tileReclaim t => decide (t < 96)
  | .bindAck t => decide (t < 96)
  | .bindAckTimeout t => decide (t < 96)
  | .start t => decide (t < 96)
  | .strokePass t => decide (t < 96)
  | .runEnd t => decide (t < 96)
  | .stkAbort t => decide (t < 96)
  | .resetEst t => decide (t < 96)
  | .blotterRelease t => decide (t < 96)
  | .scan t => decide (t < 96)
  | .filter t => decide (t < 96)
  | .project t => decide (t < 96)
  | .compute t => decide (t < 96)
  | .hashBuild t => decide (t < 96)
  | .hashProbe t => decide (t < 96)
  | .aggHash t => decide (t < 96)
  | .aggPlane t => decide (t < 96)
  | .sortRadix t => decide (t < 96)
  | .merge t => decide (t < 96)
  | .topk t => decide (t < 96)
  | .limit t => decide (t < 96)
  | .exchange t => decide (t < 96)
  | .opCompress t => decide (t < 96)
  | .opDecompress t => decide (t < 96)
  | .opDigest t => decide (t < 96)
  | .lookupBramble t => decide (t < 96)
  | .emit t => decide (t < 96)
  | .indexTask t => decide (t < 96)
  | .finalisationTask t => decide (t < 96)
  | .spillSubpartition t => decide (t < 96)
  | .add t _ _ _ => decide (t < 96)
  | .sub t _ _ _ => decide (t < 96)
  | .and t _ _ _ => decide (t < 96)
  | .or t _ _ _ => decide (t < 96)
  | .xor t _ _ _ => decide (t < 96)
  | .sll t _ _ _ => decide (t < 96)
  | .srl t _ _ _ => decide (t < 96)
  | .sra t _ _ _ => decide (t < 96)
  | .slt t _ _ _ => decide (t < 96)
  | .sltu t _ _ _ => decide (t < 96)
  | .min t _ _ _ => decide (t < 96)
  | .max t _ _ _ => decide (t < 96)
  | .minu t _ _ _ => decide (t < 96)
  | .maxu t _ _ _ => decide (t < 96)
  | .clz t _ _ => decide (t < 96)
  | .ctz t _ _ => decide (t < 96)
  | .popc t _ _ => decide (t < 96)
  | .addw t _ _ _ => decide (t < 96)
  | .subw t _ _ _ => decide (t < 96)
  | .nibget t _ _ _ => decide (t < 96)
  | .jr t _ => decide (t < 96)
  | .jalr t _ _ => decide (t < 96)
  | .mul t _ _ _ => decide (t < 96)
  | .mulh t _ _ _ => decide (t < 96)
  | .mulhu t _ _ _ => decide (t < 96)
  | .div t _ _ _ => decide (t < 96)
  | .divu t _ _ _ => decide (t < 96)
  | .rem t _ _ _ => decide (t < 96)
  | .remu t _ _ _ => decide (t < 96)
  | .addi t _ _ _ => decide (t < 96)
  | .andi t _ _ _ => decide (t < 96)
  | .ori t _ _ _ => decide (t < 96)
  | .xori t _ _ _ => decide (t < 96)
  | .slti t _ _ _ => decide (t < 96)
  | .sltiu t _ _ _ => decide (t < 96)
  | .lui t _ _ => decide (t < 96)
  | .slli t _ _ _ => decide (t < 96)
  | .srli t _ _ _ => decide (t < 96)
  | .srai t _ _ _ => decide (t < 96)
  | .ld t _ _ _ _ _ => decide (t < 96)
  | .st t _ _ _ _ => decide (t < 96)
  | .fadd t _ _ _ => decide (t < 96)
  | .umin t _ _ _ => decide (t < 96)
  | .umax t _ _ _ => decide (t < 96)
  | .nadd t _ _ _ => decide (t < 96)
  | .cas t _ _ _ => decide (t < 96)
  | .cachePf t _ _ => decide (t < 96)
  | .cacheClean t _ _ => decide (t < 96)
  | .cacheCleaninv t _ _ => decide (t < 96)
  | .cacheInv t _ _ => decide (t < 96)
  | .br t _ => decide (t < 96)
  | .call t _ => decide (t < 96)
  | .beqz t _ _ _ => decide (t < 96)
  | .bnez t _ _ _ => decide (t < 96)
  | .bltz t _ _ _ => decide (t < 96)
  | .bgez t _ _ _ => decide (t < 96)
  | .bgtz t _ _ _ => decide (t < 96)
  | .blez t _ _ _ => decide (t < 96)
  | .mfcr t _ _ => decide (t < 96)
  | .mtcr t _ _ => decide (t < 96)
  | .setcr t _ _ _ => decide (t < 96)
  | .clrcr t _ _ _ => decide (t < 96)
  | .syscall t _ => decide (t < 96)
  | .rfe t => decide (t < 96)
  | .fence t _ => decide (t < 96)
  | .isync t => decide (t < 96)
  | .interrupt t => decide (t < 96)
  | .setvl t _ _ _ => decide (t < 96)
  | .vadd t _ _ _ _ _ => decide (t < 96)
  | .vsub t _ _ _ _ _ => decide (t < 96)
  | .vand t _ _ _ _ _ => decide (t < 96)
  | .vor t _ _ _ _ _ => decide (t < 96)
  | .vxor t _ _ _ _ _ => decide (t < 96)
  | .vsll t _ _ _ _ _ => decide (t < 96)
  | .vsrl t _ _ _ _ _ => decide (t < 96)
  | .vsra t _ _ _ _ _ => decide (t < 96)
  | .vmin t _ _ _ _ _ => decide (t < 96)
  | .vmax t _ _ _ _ _ => decide (t < 96)
  | .vminu t _ _ _ _ _ => decide (t < 96)
  | .vmaxu t _ _ _ _ _ => decide (t < 96)
  | .vmul t _ _ _ _ _ => decide (t < 96)
  | .vmulh t _ _ _ _ _ => decide (t < 96)
  | .vmulhu t _ _ _ _ _ => decide (t < 96)
  | .vmv t _ _ _ _ => decide (t < 96)
  | .vcmpeq t _ _ _ _ _ => decide (t < 96)
  | .vcmpne t _ _ _ _ _ => decide (t < 96)
  | .vcmplt t _ _ _ _ _ => decide (t < 96)
  | .vcmpltu t _ _ _ _ _ => decide (t < 96)
  | .vcmple t _ _ _ _ _ => decide (t < 96)
  | .vcmpleu t _ _ _ _ _ => decide (t < 96)
  | .vcmpgt t _ _ _ _ _ => decide (t < 96)
  | .vcmpgtu t _ _ _ _ _ => decide (t < 96)
  | .vcmpge t _ _ _ _ _ => decide (t < 96)
  | .vcmpgeu t _ _ _ _ _ => decide (t < 96)
  | .vwmul t _ _ _ _ _ _ => decide (t < 96)
  | .vwcvt t _ _ _ _ => decide (t < 96)
  | .ndot t _ _ _ _ _ _ => decide (t < 96)
  | .bdot t _ _ _ _ _ _ => decide (t < 96)
  | .vext t _ _ _ _ => decide (t < 96)
  | .vextu t _ _ _ _ => decide (t < 96)
  | .vins t _ _ _ _ => decide (t < 96)
  | .vcompress t _ _ _ => decide (t < 96)
  | .vpopm t _ _ _ => decide (t < 96)
  | .vfirstm t _ _ _ => decide (t < 96)
  | .vredsum t _ _ _ => decide (t < 96)
  | .vredsumu t _ _ _ => decide (t < 96)
  | .vredmin t _ _ _ => decide (t < 96)
  | .vredmax t _ _ _ => decide (t < 96)
  | .vredminu t _ _ _ => decide (t < 96)
  | .vredmaxu t _ _ _ => decide (t < 96)
  | .vld t _ _ _ _ _ _ => decide (t < 96)
  | .vst t _ _ _ _ _ _ => decide (t < 96)
  | .bpclr t => decide (t < 96)
  | .rangeGo t => decide (t < 96)
  | .dis t _ => decide (t < 96)
  | .idis t _ => decide (t < 96)
  | .rdS src line => decide (src < 256) && decide (line < 2 ^ 58)
  | .rdH src line => decide (src < 256) && decide (line < 2 ^ 58)
  | .rdX src line => decide (src < 256) && decide (line < 2 ^ 58)
  | .upg src line => decide (src < 256) && decide (line < 2 ^ 58)
  | .rdOnce src line => decide (src < 256) && decide (line < 2 ^ 58)
  | .ioRd src line => decide (src < 256) && decide (line < 2 ^ 58)
  | .ioWr src line => decide (src < 256) && decide (line < 2 ^ 58)
  | .homeQueueStart h => decide (h < 96)
  | .fwdS t line => decide (t < 96) && decide (line < 2 ^ 58)
  | .fwdX t line => decide (t < 96) && decide (line < 2 ^ 58)
  | .fwdOnce t line => decide (t < 96) && decide (line < 2 ^ 58)
  | .inv t line => decide (t < 96) && decide (line < 2 ^ 58)
  | .gnt t line => decide (t < 96) && decide (line < 2 ^ 58)
  | .data t line => decide (t < 128) && decide (line < 2 ^ 58)
  | .fack t line => decide (t < 96) && decide (line < 2 ^ 58)
  | .noline t line => decide (t < 96) && decide (line < 2 ^ 58)
  | .invack t line => decide (t < 96) && decide (line < 2 ^ 58)
  | .wbdata t line => decide (t < 96) && decide (line < 2 ^ 58)
  | .cmpAck t line => decide (t < 96) && decide (line < 2 ^ 58)
  | .wback t line => decide (t < 96) && decide (line < 2 ^ 58)
  | .decline t line => decide (t < 96) && decide (line < 2 ^ 58)
  | .nack src line => decide (src < 256) && decide (line < 2 ^ 58)
  | .nackRetry src line => decide (src < 256) && decide (line < 2 ^ 58)
  | .iodone src line => decide (src < 256) && decide (line < 2 ^ 58)
  | .wbDirty t line => decide (t < 96) && decide (line < 2 ^ 58)
  | .victClean t line => decide (t < 96) && decide (line < 2 ^ 58)
  | .victDrop t line => decide (t < 96) && decide (line < 2 ^ 58)
  | .fenceTimeout t line => decide (t < 96) && decide (line < 2 ^ 58)
  | .fenceMessage h t => decide (h ≤ 96) && decide (t < 96)
  | .fenceScan h => decide (h < 96)
  | .snpData line => decide (line < 2 ^ 58)
  | .snpInv line => decide (line < 2 ^ 58)
  | .snpCur line => decide (line < 2 ^ 58)
  | .go line => decide (line < 2 ^ 58)
  | .hostResponse line _ _ => decide (line < 2 ^ 58)
  | .bisnpResponse line => decide (line < 2 ^ 58)
  | .memRd line => decide (line < 2 ^ 50)
  | .memRdData line => decide (line < 2 ^ 50)
  | .memWr line _ _ => decide (line < 2 ^ 50)
  | .memWrPtl line _ _ => decide (line < 2 ^ 50)
  | .bar2Access f _ len _ => decide (f < 64) && decide (1 ≤ len ∧ len ≤ 64)
  | .bar0InvalidAccess f _ _ _ => decide (f < 64)
  | .memRequestArrive c => decide (c < 32)
  | .dramIssue c => decide (c < 32)
  | .memReadComplete c _ _ => decide (c < 32)
  | .guardWrite c => decide (c < 32)
  | .guardRebuild c _ => decide (c < 32)
  | .refresh c b => decide (c < 32) && decide (b < 32)
  | .idlePrecharge c b => decide (c < 32) && decide (b < 32)
  | .scrub c _ _ => decide (c < 32)
  | .retrainStep c _ _ => decide (c < 32)
  | .panicChange _ => true
  | .cmpSubmit t _ => decide (t < 96)
  | .cmpAbort t _ => decide (t < 96)
  | .cmpJobStart c => decide (c < 16)
  | .cmpJobEnd c => decide (c < 16)
  | .cmpAssign c _ => decide (c < 16)
  | .brmFind t a _ => decide (t < 96) && decide (a < 4)
  | .brmVec t a w _ => decide (t < 96) && decide (a < 4) && decide (w < 128)
  | .brmSubmit t _ => decide (t < 96)
  | .brmJobStart a => decide (a < 4)
  | .brmJobEnd a => decide (a < 4)
  | .brambleUpdateStep a => decide (a < 4)
  | .bramblePowerEval a => decide (a < 4)
  | .cadenceClock => true
  | .syncExchange p => decide (p < 8)
  | .syncReq p _ => decide (p < 8)
  | .syncRsp p _ => decide (p < 8)
  | .cadenceSteer => true
  | .ptmDialogue _ => true
  | .cadArm t _ => decide (t < 96)
  | .cadDisarm t _ => decide (t < 96)
  | .actionDue e => decide (e < 1024)
  | .actionReady e => decide (e < 1024)
  | .actionTimeout e => decide (e < 1024)
  | .triggerPulse f k => decide (f < 64) && decide (k < 8)
  | .idle p _ => decide (p < 8)
  | .dataFlit p _ => decide (p < 8)
  | .sack p _ => decide (p < 8)
  | .abort p _ => decide (p < 8)
  | .linkAck p _ => decide (p < 8)
  | .nak p _ => decide (p < 8)
  | .hello p _ => decide (p < 8)
  | .replayTimeout p => decide (p < 8)
  | .laneFail p l => decide (p < 8) && decide (l < 4)
  | .laneRetrainComplete p _ => decide (p < 8)
  | .portDown p => decide (p < 8)
  | .retrain p => decide (p < 8)
  | .cablePresent p _ => decide (p < 8)
  | .cmisRead p _ _ _ _ _ => decide (p < 8)
  | .trainComplete p _ => decide (p < 8)
  | .roundDeadline x => decide (x < 2 ^ 36)
  | .perst => true
  | .hotReset => true
  | .linkDown => true
  | .pfFlr => true
  | .vfFlr f => decide (f < 64)
  | .vfEnableClear => true
  | .mbDoorbell f _ => decide (f < 64)
  | .mailboxTake => true
  | .devInfo f => decide (f < 64)
  | .capQueryPage f => decide (f < 64)
  | .capQueryEntitlement f => decide (f < 64)
  | .queueCreate f => decide (f < 64)
  | .queueDelete f => decide (f < 64)
  | .pipeLoad f => decide (f < 64)
  | .pipeUnload f => decide (f < 64)
  | .brambleLoad f => decide (f < 64)
  | .tenantCreate f => decide (f < 64)
  | .qosSet f => decide (f < 64)
  | .quiesceDrain f => decide (f < 64)
  | .quiesceCancel f => decide (f < 64)
  | .quiesceResume f => decide (f < 64)
  | .quiesceBound f => decide (f < 64)
  | .quiesceComplete f => decide (f < 64)
  | .tenantReset f => decide (f < 64)
  | .tenantDestroy f => decide (f < 64)
  | .wipeEnd f => decide (f < 64)
  | .migrateLogStart f => decide (f < 64)
  | .migrateLogStop f => decide (f < 64)
  | .timeAlignRead f => decide (f < 64)
  | .timeAlignPriority f => decide (f < 64)
  | .hostSteeringOn f => decide (f < 64)
  | .hostSteeringOff f => decide (f < 64)
  | .krelorSet f => decide (f < 64)
  | .fwUpdateBegin f => decide (f < 64)
  | .fwUpdateChunk f => decide (f < 64)
  | .fwUpdateCommit f => decide (f < 64)
  | .updateReboot _ => true
  | .healthConfirm f => decide (f < 64)
  | .confirmTimeout _ => true
  | .updateTimeout => true
  | .lifecycleSet f => decide (f < 64)
  | .lifecycleWipeEnd => true
  | .healthReport f => decide (f < 64)
  | .marginReport f => decide (f < 64)
  | .errlogRead f => decide (f < 64)
  | .dmaLoad t _ => decide (t < 96)
  | .dmaAbort t _ => decide (t < 96)
  | .shadowCurrent c => decide (c < 32)
  | .dmaDescriptor c => decide (c < 32)
  | .busError c => decide (c < 32)
  | .transferEnd c => decide (c < 32)
  | .dgsOpen t _ => decide (t < 96)
  | .dgsClose t _ => decide (t < 96)
  | .dgsSuspend t _ => decide (t < 96)
  | .suspendSave e => decide (e < 4)
  | .contextQuantum e => decide (e < 4)
  | .keyWrite _ => true
  | .keyErase _ => true
  | .powerGood vin => decide (vin ≤ 20000)
  | .railRampTimeout r => decide (1 ≤ r ∧ r ≤ 6)
  | .rampRetry => true
  | .overVoltage vin => decide (18500 < vin ∧ vin ≤ 20000)
  | .underVoltage vin => decide (vin < 4500)
  | .pwrgdLow => true
  | .thermalTrip t temp => decide (t < 96) && decide (105 ≤ temp)
  | .powerSample _ _ => true
  | .thermalEval temps => decide (temps.length ≤ 96)
  | .sagFire _ => true
  | .sagRecovery => true
  | .refLoss => true
  | .refReturn => true
  | .refTimeout => true
  | .a1Entry => true
  | .a2Entry => true
  | .a3Entry => true
  | .powerStateExit _ => true
  | .moduleColdReset mods _ _ => decide (mods.length ≤ 4)
  | .moduleWarmReset mods _ => decide (mods.length ≤ 4)
  | .pwrRstWarm mods _ => decide (mods.length ≤ 4)
  | .tileReturn t _ => decide (t < 96)
  | .sliceFault h cause line => decide (h < 96) && decide (1 ≤ cause ∧ cause ≤ 3) && decide (line < 2 ^ 58)
  | .sliceRemoval h => decide (h < 96)
  | .sliceFlush => true
  | .moduleLoss m => decide (m < 4)
  | .phaseShed r phase => decide (r < 8) && decide (phase < 6)
  | .watchdogExpiry _ => true
  | .ageingMeasure drift => decide (drift.length ≤ 96)
  | .marginReplan => true
  | .pwrMarginReplan => true
  | .hubSensorRead m _ => decide (m < 4)
  | .i3cRead => true
  | .registerWrite _ _ bytes _ => decide (bytes = 1 ∨ bytes = 2 ∨ bytes = 4 ∨ bytes = 8)
  | .illegal t _ => decide (t < 96)
  | .spdmRequest _ req => decide (2 ≤ req.length)
  | .linkUp rate width _ _ => decide (rate = 16 ∨ rate = 32 ∨ rate = 64) && decide (width = 4 ∨ width = 8 ∨ width = 16)
  | .dramWriteError c _ => decide (c < 32)
  | .debugPortOpen => true
  | .shutdownRestart vin _ mods _ _ => decide (vin ≤ 20000) && decide (mods.length ≤ 4)

end Sys2Proof
end

