-- ==== Sys2Proof/Machine/Bytes.lean ====
section
/-! DEFINITION. Bytes, little-endian numbers and 64 B lines (00 R5). -/

namespace Sys2Proof.Machine

/-- The number a list of bytes spells, the first byte least significant (00 R5). -/
def leNat : List Byte → Nat
  | [] => 0
  | b :: r => b.toNat + 256 * leNat r

/-- The k bytes of a number, least significant first. -/
def leBytes : Nat → Nat → List Byte
  | 0, _ => []
  | k + 1, n => BitVec.ofNat 8 n :: leBytes k (n / 256)

/-- Byte i of a line. -/
def lineByte (l : Line) (i : Nat) : Byte := l.extractLsb' (8 * i) 8

/-- The 64 bytes of a line. -/
def lineBytes (l : Line) : List Byte := leBytes 64 l.toNat

/-- The line that 64 bytes spell. -/
def bytesLine (b : List Byte) : Line := BitVec.ofNat 512 (leNat b)

/-- The bit mask of the first k bytes that a byte mask selects. -/
def maskBits (m : BitVec 64) : Nat → BitVec 512
  | 0 => 0
  | k + 1 => (if m.getLsbD k then (0xFF : BitVec 512) <<< (8 * k) else 0) ||| maskBits m k

/-- A line with the bytes that the mask selects taken from new data. -/
def mergeLine (old new : Line) (m : BitVec 64) : Line :=
  if m = BitVec.allOnes 64 then new
  else
    let k := maskBits m 64
    (old &&& ~~~k) ||| (new &&& k)

/-- A byte mask of n bytes from offset o. -/
def byteMask (o n : Nat) : BitVec 64 := BitVec.ofNat 64 ((2 ^ n - 1) * 2 ^ o)

/-- The n bytes at offset o of a line, as a number. -/
def lineGet (l : Line) (o n : Nat) : Nat := l.toNat / 256 ^ o % 256 ^ n

/-- A line with n bytes at offset o replaced. -/
def linePut (l : Line) (o n v : Nat) : Line :=
  mergeLine l (BitVec.ofNat 512 (v % 256 ^ n * 256 ^ o)) (byteMask o n)

/-- The n bytes from offset o of a byte list, as a number; bytes past the end read 0. -/
def getLE (b : List Byte) (o n : Nat) : Nat := leNat ((b.drop o).take n)

/-- A list of n zero bytes. -/
def zeros (n : Nat) : List Byte := List.replicate n 0

/-- A byte list padded with zeros, or cut, to n bytes. -/
def padTo (n : Nat) (b : List Byte) : List Byte := (b.take n) ++ zeros (n - b.length)

/-- Sign extension of the low w bits of a number to 64 bits. -/
def sext64 (w : Nat) (v : Nat) : Word :=
  let m := v % 2 ^ w
  if w = 0 then 0 else if m < 2 ^ (w - 1) then BitVec.ofNat 64 m else BitVec.ofInt 64 ((m : Int) - (2 ^ w : Nat))

/-- The integer that the low w bits of a number spell in two's complement. -/
def sintOf (w v : Nat) : Int :=
  let m := v % 2 ^ w
  if w = 0 then 0 else if m < 2 ^ (w - 1) then (m : Int) else (m : Int) - (2 ^ w : Nat)

/-- An integer modulo 2^w. -/
def wrapInt (w : Nat) (i : Int) : Nat := (i % ((2 ^ w : Nat) : Int)).toNat

/-- A register with bits [lo + n − 1 : lo] replaced. -/
def setField {w : Nat} (r : BitVec w) (lo n v : Nat) : BitVec w :=
  let m : BitVec w := BitVec.ofNat w ((2 ^ n - 1) * 2 ^ lo)
  (r &&& ~~~m) ||| (BitVec.ofNat w (v % 2 ^ n * 2 ^ lo))

/-- Bits [lo + n − 1 : lo] of a register, as a number. -/
def field {w : Nat} (r : BitVec w) (lo n : Nat) : Nat := r.toNat / 2 ^ lo % 2 ^ n

/-- Adds one, stopping at all ones. -/
def satInc {w : Nat} (r : BitVec w) : BitVec w := if r = BitVec.allOnes w then r else r + 1

/-- Adds n, stopping at all ones. -/
def satAdd {w : Nat} (r : BitVec w) (n : Nat) : BitVec w :=
  if r.toNat + n < 2 ^ w then BitVec.ofNat w (r.toNat + n) else BitVec.allOnes w

end Sys2Proof.Machine
end

