-- ==== Sys2Proof/Machine/Table.lean ====
section
/-! DEFINITION. Sparse tables: a list of (key, value) pairs, one entry a key; a key not listed has the table's default. -/

namespace Sys2Proof.Machine

/-- A table keyed by a number (a tile, a function, a channel, a line). -/
abbrev Tab (α : Type) := List (Nat × α)

/-- The entry of a key, none where no entry stands. -/
def Tab.find? {α : Type} : Tab α → Nat → Option α
  | [], _ => none
  | (k', v) :: r, k => if k' = k then some v else Tab.find? r k

/-- The entry of a key, or the default. -/
def Tab.getD {α : Type} (t : Tab α) (k : Nat) (d : α) : α :=
  match t.find? k with
  | some v => v
  | none => d

/-- Replaces the entry of a key, or adds one at the end. -/
def Tab.set {α : Type} : Tab α → Nat → α → Tab α
  | [], k, v => [(k, v)]
  | (k', v') :: r, k, v => if k' = k then (k, v) :: r else (k', v') :: Tab.set r k v

/-- Removes every entry of a key. -/
def Tab.erase {α : Type} (t : Tab α) (k : Nat) : Tab α :=
  t.filter (fun e => e.1 != k)

/-- Changes the entry of a key by a function, starting from the default where there is none. -/
def Tab.upd {α : Type} (t : Tab α) (k : Nat) (d : α) (f : α → α) : Tab α :=
  t.set k (f (t.getD k d))

/-- Inserts into a sorted list, after the elements that do not follow it. -/
def insertBy {α : Type} (le : α → α → Bool) (x : α) : List α → List α
  | [] => [x]
  | y :: r => if le y x then y :: insertBy le x r else x :: y :: r

/-- Sorts a list, keeping the order of equal elements. -/
def sortBy {α : Type} (le : α → α → Bool) (l : List α) : List α := l.foldl (fun a x => insertBy le x a) []

end Sys2Proof.Machine
end

