-- ==== Sys2Proof/Machine/Memory.lean ====
section
/-! DEFINITION. Byte memory in canonical form: addresses strictly rising, no listed byte equal to 0, which is what an
unlisted byte reads as (22 R657: memory is wiped before use). -/

namespace Sys2Proof.Machine

/-- Addresses strictly above a bound and rising, no listed zero. -/
def Memory.wfFrom : Nat → List Host.Cell → Bool
  | _, [] => true
  | lo, (a, b) :: r => decide (lo ≤ a) && b != 0 && Memory.wfFrom (a + 1) r

/-- The memory is in canonical form. -/
def Memory.wf (m : List Host.Cell) : Bool := Memory.wfFrom 0 m

/-- Reads one byte. -/
def Memory.read : List Host.Cell → Nat → Byte
  | [], _ => 0
  | (a, b) :: r, k => if a = k then b else if k < a then 0 else Memory.read r k

/-- Writes one byte; writing 0 removes the entry. -/
def Memory.write : List Host.Cell → Nat → Byte → List Host.Cell
  | [], k, v => if v = 0 then [] else [(k, v)]
  | (a, b) :: r, k, v =>
    if k < a then (if v = 0 then (a, b) :: r else (k, v) :: (a, b) :: r)
    else if k = a then (if v = 0 then r else (a, v) :: r)
    else (a, b) :: Memory.write r k v

/-- Reads n bytes. -/
def Memory.readBytes (m : List Host.Cell) : Nat → Nat → List Byte
  | _, 0 => []
  | a, n + 1 => Memory.read m a :: Memory.readBytes m (a + 1) n

/-- Writes a list of bytes. -/
def Memory.writeBytes (m : List Host.Cell) : Nat → List Byte → List Host.Cell
  | _, [] => m
  | a, b :: r => Memory.writeBytes (Memory.write m a b) (a + 1) r

/-- Reads the line with a number. -/
def Memory.readLine (m : List Host.Cell) (l : Nat) : Line := bytesLine (Memory.readBytes m (64 * l) 64)

/-- Writes the line with a number. -/
def Memory.writeLine (m : List Host.Cell) (l : Nat) (d : Line) : List Host.Cell :=
  Memory.writeBytes m (64 * l) (lineBytes d)

/-- Clears the bytes from `lo` up to but not including `hi`. -/
def Memory.clear (m : List Host.Cell) (lo hi : Nat) : List Host.Cell :=
  m.filter (fun c => decide (c.1 < lo) || decide (hi ≤ c.1))

end Sys2Proof.Machine
end

