-- ==== Sys2Proof/Config.lean ====
section
/-! DEFINITION. What the spec leaves open, as constants with no body (log 1, log 16). -/

namespace Sys2Proof

/-- The n-th free value drawn (log 1). Nothing can be proved of any value of it. -/
opaque Config.freeWord : Nat → BitVec 64

/-- The payload that the compression firmware's match search and code choice give for a level and an input: the spec
fixes it to a function of these (12 R351) and does not state it (log 16). -/
opaque Config.deflate : Nat → List Byte → List Byte

/-- The bits of the NaN that an addition of two binary64 values gives, as a function of the operands: the spec states
the rounding of sums and no NaN (05 R135; log 19). The model sets its quiet-NaN bits. -/
opaque Config.nanSum : BitVec 64 → BitVec 64 → BitVec 64

/-- The memory budget in MiB that BUDGET_MIB 0 selects for a function's operators: "the tenant default", which the spec
does not give (04 R97; log 24). -/
opaque Config.budgetMib : Nat → Nat

/-- The fused key of slot 0 to 4, byte 0 least significant (21 R614). -/
opaque Config.fuseKey : Nat → BitVec 512

/-- The SHA-256 of what was shipped in flash: components 0 to 5 and 6 the header of the active slot, 7 to 12 and 13 the same of
Keel; the spec gives no image (21 R621; log 7). -/
opaque Config.shippedHash : Nat → BitVec 256

/-- The serial number and the silicon stepping of the device (18 R533). -/
opaque Config.serial : BitVec 64
opaque Config.stepping : BitVec 32

/-- The core voltage in mV that a fresh tile needs at a sag level: fuses (23 R683). -/
opaque Config.v0 : Nat → Nat → Nat

/-- How many refreshes of a bank LPDDR6 lets a controller postpone; the spec gives no number (11 R317). -/
opaque Config.maxPostponed : Nat

end Sys2Proof
end

