-- ==== Sys2Proof/Machine/State.lean ====
section
/-! DEFINITION. The state of the device as plain data, and the state right after reset. -/

namespace Sys2Proof.Machine

/-- The machine never stops with a fault: every error the spec names is a status, an exception of a core, a register
bit, a log record or a state (18 R541, 06 R182, 23 R667). -/
inductive Fault where
  /-- Raised by no command of this model; kept so that the type has a value (safe). -/
  | unused
  deriving DecidableEq, Repr

/-- Why a command has no meaning. -/
inductive Refusal where
  /-- A row of the table that has no meaning yet, by its mnemonic; raised by the dispatch alone (safe). -/
  | notModelled (mnemonic : String)
  deriving DecidableEq, Repr

/-- Which part of the family the device is (00 R1). -/
inductive Part where
  | aq680 | aq660 | aq640
  deriving DecidableEq, Repr

/-! ### Quill core (06, 07) -/

/-- A delay slot that is pending: the address of the control transfer and where control passes after the slot (06 R176). -/
structure Slot where
  branch : Word
  target : Word
  deriving DecidableEq, Repr

/-- One entry of the branch predictor; the defaults are what BPCLR leaves (06 R178). -/
structure Pred where
  ctr : BitVec 2 := 1
  target : BitVec 32 := 0
  deriving DecidableEq, Repr

/-- A WAITTASK in progress: its destination, when it began, its timeout in ticks (06 R174, 08 R233). -/
structure Wait where
  rd : Reg
  start : Nat
  timeout : Word
  deriving DecidableEq, Repr

/-- The registers of one Quill core at tile reset (06 R154 to R193; 07 R194, R215 to R217). -/
structure Core where
  /-- G1 to G31; G0 reads zero and takes no write (readG, writeG). -/
  g : Tab Word := []
  /-- V0 to V31; the low 64 bits alone on the AQ-640. -/
  v : Tab (BitVec 128) := []
  pc : Word := 0
  slot : Option Slot := none
  qctl : BitVec 32 := 0
  qstat : BitVec 32 := 1
  qcause : Word := 0
  qepc : Word := 0
  qfaultPc : Word := 0
  qfaultAddr : Word := 0
  qfaultElem : BitVec 32 := 0
  qvbase : Word := 0
  qipend : BitVec 32 := 0
  qblotwin : BitVec 32 := 0
  bpkey : BitVec 32 := 0
  /-- The key that fetches use, taken from BPKEY at ISYNC and RFE (06 R192). -/
  bpkeyEff : BitVec 32 := 0
  specFill : Word := 0
  qcycle : Word := 0
  qinstret : Word := 0
  /-- Counts of held execution not yet added to QINSTRET (03 R78). -/
  heldInstret : Word := 0
  /-- Held Bramble searches not yet counted, by array (13 R379, 03 R78). -/
  heldSearch : Tab Word := []
  pred : Tab Pred := []
  rgnLo : Tab Word := []
  rgnHi : Tab Word := []
  rtLo : Tab Word := []
  rtHi : Tab Word := []
  vl : BitVec 32 := 0
  /-- VTYPE.EW; VREGB is fixed by the part (07 R216). -/
  ew : BitVec 3 := 3
  wait : Option Wait := none
  /-- The memory instruction that a blocking miss holds (09 R249). -/
  stall : Option Instr := none
  /-- Eunto has released the core (06 R156, 22 R658). -/
  released : Bool := false
  deriving DecidableEq, Repr

/-! ### First-level caches (09) -/

/-- The state of an L1D line (10 R279). -/
inductive LState where
  | i | s | l | e | d
  deriving DecidableEq, Repr

/-- A line of L1D with its parity: the state is held twice, one bit a tag, one bit each 8 B (09 R248). -/
structure DLine where
  line : Nat
  st : LState
  data : Line
  st2 : LState := st
  tagBad : Bool := false
  dataBad : BitVec 8 := 0
  deriving DecidableEq, Repr

/-- A valid line of L1I. -/
structure ILine where
  line : Nat
  data : Line
  tagBad : Bool := false
  dataBad : BitVec 8 := 0
  deriving DecidableEq, Repr

/-- A line in the victim buffer, as it stood at eviction (09 R253, R254). -/
structure VEntry where
  line : Nat
  st : LState
  data : Line
  deriving DecidableEq, Repr

/-- The kinds of message of the coherence protocol (10 R280). -/
inductive MKind where
  | rdS | rdH | rdX | upg | rdOnce | ioRd | ioWr
  | fwdS | fwdX | fwdOnce | inv
  | gnt | data | fack | noline | invack | wbdata | cmpAck | wback | decline | nack | iodone
  | wbDirty | victClean | victDrop | fence
  deriving DecidableEq, Repr

/-- A request of a tile that its home has not finished: what has come of the grant and of the data (10 R286). -/
structure Mshr where
  line : Nat
  kind : MKind
  prefetch : Bool := false
  /-- The granted state once GNT has come; none inside means no state (Blot data or RD_ONCE). -/
  grant : Option (Option LState) := none
  data : Option Line := none
  dirty : Bool := false
  blot : Bool := false
  deriving DecidableEq, Repr

/-- The caches of one tile at tile reset (09 R248 to R272). Ways are keyed set × ways + way. -/
structure L1 where
  d : Tab DLine := []
  i : Tab ILine := []
  vbuf : List VEntry := []
  reqs : List Mshr := []
  /-- MODEL: the lines that have come for the blocked access, with their Blot mark, kept until it completes. -/
  given : List (Nat × Line × Bool) := []
  /-- The one-line buffers of a disabled L1D and L1I (09 R263). -/
  dbuf : Option DLine := none
  ibuf : Option ILine := none
  ctl : BitVec 32 := 0
  done : Bool := true
  skip : BitVec 32 := 0
  lock : BitVec 32 := 0
  lfsr : BitVec 16 := 0xACE1
  base : Word := 0
  limit : Word := 0
  parity : BitVec 32 := 0
  deriving DecidableEq, Repr

/-! ### Orchard and the protocol (10) -/

/-- A message in flight on the mesh. Agents 0 to 95 are tiles, 96 to 127 edge agents (10 R288); 128 + h is the
slice port of tile h. -/
structure Msg where
  kind : MKind
  src : Nat
  dst : Nat
  line : Nat
  /-- The requester, for forwards. -/
  req : Nat := 0
  owner : Nat := 0x7F
  st : Option LState := none
  data : Option Line := none
  mask : BitVec 64 := 0
  dirty : Bool := false
  blot : Bool := false
  fenced : Bool := false
  starve : Bool := false
  /-- A host read after which the host may keep a copy (10 R277 H); a host write that is partial whatever its mask (10 R295). -/
  keep : Bool := false
  deriving DecidableEq, Repr

/-- The state of a directory entry: no L1D holds the line, shared, exclusive (10 R277). -/
inductive DState where
  | n | sh | ex
  deriving DecidableEq, Repr

/-- A directory entry; the line number carries the space bit s in bit 50. `ptrs` lists PTR0 first (10 R277). -/
structure DirEntry where
  line : Nat
  owner : Nat
  state : DState := .n
  h : Bool := false
  ovf : Bool := false
  busy : Bool := false
  lv : Bool := false
  ptrs : List Nat := []
  deriving DecidableEq, Repr

/-- A line of the Orchard data array (10 R278). -/
structure OLine where
  line : Nat
  owner : Nat
  dirty : Bool
  blot : Bool
  data : Line
  deriving DecidableEq, Repr

/-- What an open transaction waits for. -/
inductive Phase where
  /-- acknowledgements of the evicted entry's holders (10 R291) -/
  | evict
  /-- acknowledgements of INV -/
  | inv
  /-- the answer to a forward -/
  | fwd
  /-- data of memory -/
  | mem
  /-- the host's answer to a D2H request (10 R299) -/
  | host
  /-- the host's answer to a back-invalidate snoop (10 R300) -/
  | back
  /-- the requester's CMP_ACK (10 R286) -/
  | cmp
  deriving DecidableEq, Repr

/-- An open transaction at a home (10 R283 to R291). -/
structure Txn where
  msg : Msg
  phase : Phase
  /-- The directory way the entry occupies, keyed set × 16 + way. -/
  way : Nat
  acks : List Nat := []
  /-- Dirty data that came in answer to INV. -/
  wb : Option (Line × Bool) := none
  /-- Data that memory or the host returned. -/
  fill : Option (Line × Bool) := none
  /-- The line evicted to make room. -/
  victim : Option DirEntry := none
  deriving DecidableEq, Repr

/-- One Orchard slice with its directory (10 R273, R301 to R305). -/
structure Slice where
  ctl : BitVec 32 := 0
  fenced : BitVec 128 := 0
  hmapIdx : BitVec 10 := 0
  hit : Word := 0
  miss : Word := 0
  nack : Word := 0
  declined : Word := 0
  binv : Word := 0
  blotCnt : Word := 0
  data : Tab OLine := []
  plru : Tab (BitVec 15) := []
  dir : Tab DirEntry := []
  dirPtr : Tab (BitVec 4) := []
  queue : List Msg := []
  /-- Victims held until a forward to their sender is answered (10 R289). -/
  sink : List Msg := []
  starved : Option Msg := none
  rot : BitVec 7 := 0
  txns : List Txn := []
  /-- The fence scan: the tile and the next set (10 R298). -/
  scan : Option (Nat × Nat) := none
  deriving DecidableEq, Repr

/-- An answer of a home to the host or an edge agent: data of a line, its Blot mark; no data for a write or a snoop
that found nothing dirty (10 R283, R299, R300; 16 R469). -/
structure Answer where
  agent : Nat
  line : Nat
  data : Option Line
  blot : Bool
  /-- The access completed with Unsupported Request (16 R478, R480). -/
  ur : Bool := false
  deriving DecidableEq, Repr

/-- An IO agent's request for a line, with its retry state (10 R287). -/
structure IoReq where
  agent : Nat
  line : Nat
  owner : Nat
  /-- The write's data, mask and Blot mark; none for a read. -/
  wr : Option (Line × BitVec 64 × Bool)
  delay : Nat := 8
  nacks : Nat := 0
  starve : Bool := false
  /-- A NACK has come and the retry is due after `delay` fabric cycles. -/
  waiting : Bool := false
  /-- The request has reached its home and no answer has come. -/
  atHome : Bool := false
  deriving DecidableEq, Repr

/-! ### Memory (11) -/

/-- The source classes of a channel (11 R315). -/
inductive MemCls where
  | core | io | host | rt | maint
  deriving DecidableEq, Repr

/-- Where a memory request stands. -/
inductive MemStage where
  | inbound | queued | issued | rebuild
  deriving DecidableEq, Repr

/-- A request of a home to a channel controller (11 R313 to R315). `line` is the device line; `phys` the line of
set space it lies in. -/
structure MemReq where
  chan : Nat
  line : Nat
  phys : Option Nat
  guard : Bool := false
  wr : Option (Line × BitVec 64 × Bool)
  cls : MemCls
  home : Nat
  owner : Nat
  stage : MemStage := .inbound
  tries : Nat := 0
  /-- The bursts that came uncorrectable, and the line as it came, while it is rebuilt (11 R325). -/
  bad : BitVec 2 := 0
  got : Line := 0
  deriving DecidableEq, Repr

/-- One bank's page state (11 R314); reset leaves 4 hits and 4 conflicts and counter 2. -/
structure Bank where
  openRow : Option Nat := none
  lastRow : Option Nat := none
  hist : BitVec 8 := 0x0F
  ctr : BitVec 2 := 2
  streak : Nat := 0
  postponed : Nat := 0
  deriving DecidableEq, Repr

/-- One channel controller (11 R313 to R335). -/
structure Chan where
  ctl : BitVec 32 := 0x9200
  trained : Bool := false
  selfRef : Bool := false
  hold : Bool := false
  dieFail : BitVec 4 := 0
  page : BitVec 32 := 0x01000010
  scrub : BitVec 32 := 0x00015180
  ce : Word := 0
  ue : Word := 0
  rhAct : Word := 0
  rebuilds : Word := 0
  /-- Banks keyed rank × 16 + bank. -/
  banks : Tab Bank := []
  lfsr : BitVec 32 := 0
  badLines : List Nat := []
  /-- Corrections of a row in this scrub period, keyed by row. -/
  rowCe : Tab Nat := []
  /-- Ticks of uncorrectable bursts, keyed rank × 2 + sub-channel (11 R326). -/
  dieUe : Tab (List Nat) := []
  /-- Requests served in the share window, keyed by owner (11 R313). -/
  served : Tab Nat := []
  /-- The write issued last, the set-space line it went to, and how often the DRAM has reported it failed (11 R322). -/
  lastWr : Option (MemReq × Nat) := none
  /-- The scrubber's next line of the channel. -/
  scrubAt : Nat := 0
  failed : Bool := false
  deriving DecidableEq, Repr

/-- One memory module in its socket (11 R306, 23 R688). -/
structure Module where
  present : Bool := false
  usable : Bool := false
  /-- Capacity in GiB: 32, 64 or 128. -/
  gib : Nat := 0
  /-- Set groups that the guard unit has locked (11 R325). -/
  locks : List Nat := []
  hubTemp : Int := 0
  /-- The failing check of R688, 0 for none; failed in service (23 R688, R691). -/
  refused : Nat := 0
  failed : Bool := false
  /-- Hub sensor reads in a row that failed; the channels refresh at the highest rate (23 R689). -/
  badReads : Nat := 0
  fastRef : Bool := false
  deriving DecidableEq, Repr

/-- Memory: bytes and line tags in set space, the map and the controllers. -/
structure Mem where
  /-- Bytes keyed by set-space address; an unlisted byte is 0 (22 R657). -/
  cells : List Host.Cell := []
  /-- The TAG of a line of set space where it is not 0b00 (11 R319). -/
  tags : Tab (BitVec 2) := []
  mapLo : Tab Word := []
  mapHi : Tab Word := []
  chans : Tab Chan := []
  modules : Tab Module := []
  reqs : List MemReq := []
  panic : Bool := false
  deriving DecidableEq, Repr

/-! ### Stroke unit and Blotter (03) -/

/-- A segment header as a run's snapshot (02 R25). -/
structure SegHdr where
  nplanes : Nat
  xform : Nat
  scale : Nat
  rows : Nat
  nulls : Nat
  presence : Nat
  constNibs : Nat
  segMin : Nat
  segMax : Nat
  base : Nat
  dictId : Nat
  deriving DecidableEq, Repr

/-- One row of a run: its comparison state of each slot, two bits a slot, 0 U, 1 LT, 2 GT, 3 EQ (03 R56); a result it
has without comparison; whether it was forwarded. -/
structure RowSt where
  st : BitVec 8 := 0
  forced : Option Bool := none
  fwd : Bool := false
  deriving DecidableEq, Repr

/-- A run in progress (03 R54, R64). -/
structure Run where
  hdr : SegHdr
  /-- The plane of the next pass. -/
  plane : Nat := 0
  rows : List RowSt
  /-- Aggregate runs: the rows, the sum of Nibs so far, the candidates and the Nibs they share. -/
  cand : List Nat := []
  acc : Nat := 0
  code : Nat := 0
  deriving DecidableEq, Repr

/-- The state of a Blotter entry (03 R72). -/
inductive BlotSt where
  | held | confirmed | squashed
  deriving DecidableEq, Repr

/-- A fault stored by held execution (06 R183). -/
structure HeldFault where
  qcause : Word
  pc : Word
  addr : Word
  elem : BitVec 32
  deriving DecidableEq, Repr

/-- A Blotter entry (03 R72). -/
structure BlotEnt where
  row : Nat
  tag : Nat
  out : Line := 0
  fault : Option HeldFault := none
  st : BlotSt := .held
  deriving DecidableEq, Repr

/-- The Stroke unit of a tile with its Blotter (03 R54 to R91). -/
structure Stroke where
  ctl : BitVec 32 := 8
  stat : BitVec 32 := 0
  seg : Word := 0
  pred : BitVec 32 := 0
  consts : Tab Word := []
  selAddr : Word := 0
  accLo : Word := 0
  accHi : Word := 0
  count : BitVec 32 := 0
  spec : BitVec 32 := 0x80A00
  /-- The estimator E (03 R71). -/
  est : BitVec 8 := 0x80
  fwdConf : Word := 0
  fwdSquash : Word := 0
  lines : Word := 0
  paused : Bool := false
  sel : Tab (BitVec 65536) := []
  run : Option Run := none
  /-- The Blotter, keyed by entry 0 to 4,095. -/
  blot : Tab BlotEnt := []
  /-- Outputs released to the operator after the region, newest first: row and held output. -/
  released : List (Nat × Line) := []
  deriving DecidableEq, Repr

/-! ### Error log (23) -/

/-- A record of the error log (23 R680). -/
structure ErrRec where
  seq : Nat
  tick : Nat
  event : Nat
  cls : Nat
  func : Nat
  ukind : Nat
  unit : Nat
  status : Nat
  count : Nat
  addr : Nat
  detail : Nat
  deriving DecidableEq, Repr

/-- The error log: newest record first, at most 4,096; the flash spill of records of class 3 and 4 (23 R679). -/
structure ErrLog where
  recs : List ErrRec := []
  nextSeq : Nat := 0
  spill : List ErrRec := []
  /-- The tick of the last signal of PF vector 1. -/
  signalled : Option Nat := none
  deriving DecidableEq, Repr

/-! ### Tenants (20) -/

/-- A range of device memory. -/
structure Extent where
  base : Nat
  len : Nat
  /-- It lies in a guarded window (20 R580). -/
  guard : Bool := false
  deriving DecidableEq, Repr

/-- Migration logging of a tenant (20 R590). -/
structure MigLog where
  hostBase : Nat
  hostLen : Nat
  hostBmp : Nat
  devBmp : Nat
  /-- Bits set in the two bitmaps so far (18 R538). -/
  hostSet : Nat := 0
  devSet : Nat := 0
  deriving DecidableEq, Repr

/-! ### Tasks and the dispatcher (04, 08) -/

/-- One row of a batch: its morsel and row number, and its field values; none is null (04 R110). -/
structure Row where
  morsel : Nat
  row : Nat
  vals : List (Option Word)
  deriving DecidableEq, Repr

/-- A frame of a frame batch: its bytes and the uncompressed length it stands for (04 R106, 12). -/
structure Frame where
  bytes : List Byte
  ulen : Nat
  deriving DecidableEq, Repr

/-- What an operator hands the next: rows, or frames of compressed fields (04 R106). -/
structure Batch where
  morsel : Nat := 0
  rows : List Row := []
  frames : List Frame := []
  deriving DecidableEq, Repr

/-- Where a task stands. -/
inductive TStage where
  | waiting | ready | spilled | running
  deriving DecidableEq, Repr

/-- A task descriptor (08 R219), with its matching-store slot, its flag mask and where it stands. -/
structure Task where
  qslot : Nat
  qseq : Nat
  image : Nat
  pipe : Nat
  opFirst : Nat
  opLast : Nat
  morsel : Nat
  prio : Nat
  once : Bool
  spec : Bool
  /-- An index or finalisation task of a partition, a spilled sub-partition (05 R129, R138, R144): its kind and partition. -/
  special : Option (Nat × Nat) := none
  stage : Nat
  pips : Nat
  present : BitVec 4 := 0
  opnd : Tab Word := []
  fmask : Word := 0
  param : Nat := 0
  qstate : Nat := 0
  slot : Option Nat := none
  at_ : TStage := .waiting
  /-- MODEL: the task's place among its stage's tasks; the morsel, or past every morsel for a task made later. -/
  seq : Nat := 0
  deriving DecidableEq, Repr

/-- An entry of a spill ring (08 R239). -/
structure SpillEnt where
  desc : Nat
  qslot : Nat
  epoch : BitVec 8
  deriving DecidableEq, Repr

/-- The dispatcher's state of one tenant (08 R222 to R239). Lists are keyed by priority, oldest entry first. -/
structure Disp where
  epoch : BitVec 8 := 0
  flags : Word := 0
  allocd : Word := 0
  waiters : Tab Nat := []
  onchip : Tab (List Nat) := []
  spill : Tab (List SpillEnt) := []
  passed : Tab Nat := []
  tasks : Tab Task := []
  areaBase : Nat := 0
  areaLen : Nat := 0
  /-- The head position of each spill ring. -/
  heads : Tab Nat := []
  /-- DSP_STRAY: ignored pulses and discarded Pips (08 R225, R227). -/
  strayFlag : BitVec 32 := 0
  strayPip : BitVec 32 := 0
  deriving DecidableEq, Repr

/-- A Pip on its way (08 R222). -/
structure Pip where
  f : Nat
  desc : Nat
  port : Nat
  epoch : BitVec 8
  value : Word
  deriving DecidableEq, Repr

/-- A kernel in progress: the address of its output batch descriptor, the rows it was given, and the query-local memory
that the runtime holds for it (04 R110). -/
structure Kernel where
  out : Nat
  rows : Nat
  mem : List Nat
  /-- Input batches not yet given to the kernel, and outputs so far. -/
  todo : List Batch
  done : List Batch
  deriving DecidableEq, Repr

/-- The task a tile runs: its tenant and descriptor, the operator it has reached, the batches in hand, why it failed
(04 R104, R110, R117). -/
structure TaskRun where
  f : Nat
  desc : Nat
  op : Nat
  batches : List Batch := []
  fail : Option Nat := none
  kernel : Option Kernel := none
  /-- ROWS of the driving object as the task's start read it (04 R109). -/
  drive : Option Nat := none
  /-- Which SCRATCH block of the image's reservation the tile has (04 R110, R118). -/
  block : Nat := 0
  deriving DecidableEq, Repr

/-- The binding of a tile (08 R234, R235). -/
structure Binding where
  /-- The tenant the tile is being rebound to, while the rebinding runs; none inside to be bound to no tenant. -/
  next : Option (Option Nat) := none
  /-- The tile is lent, from this guarantee holder. -/
  lentBy : Option Nat := none
  /-- A reclaim waits for the current task to end. -/
  reclaim : Bool := false
  /-- The tick at which the tile began to idle in WAITTASK. -/
  idleSince : Option Nat := none
  deriving DecidableEq, Repr

/-- The dispatcher registers of a tile (08 R240 to R247). -/
structure DspRegs where
  status : BitVec 32 := 0
  out : Word := 0
  wstat : BitVec 32 := 0
  deriving DecidableEq, Repr

/-- A row of a hash table or of a spill list: lineage, key values with the null mask, payload (05 R122, R127). -/
structure JRow where
  morsel : Nat
  row : Nat
  /-- h of the key (05 R122). -/
  hash : Word
  /-- The key values v; none for a null. -/
  key : List (Option Word)
  pay : List (Option Word)
  deriving DecidableEq, Repr

/-- A partition's STATE (05 R125). -/
inductive PState where
  | empty | resident | spilled | spilledDone
  deriving DecidableEq, Repr

/-- A partition of a HASH_BUILD (05 R125 to R129, R143). -/
structure JPart where
  st : PState := .empty
  rows : List JRow := []
  /-- Addresses of the row chunks, first to last. -/
  chunks : List Nat := []
  /-- Bucket array address and b once indexed; chains of row indices; overflow bucket addresses. -/
  buckets : Nat := 0
  bbits : Nat := 0
  chains : Tab (List Nat) := []
  depth : Nat := 0
  /-- Probe rows that wait for a spilled partition (05 R144). -/
  probes : List (JRow × Row) := []
  deriving DecidableEq, Repr

/-- An accumulator of a group: the 128-bit sum, the float, the t value or the count, and the SEEN Nib (05 R135). -/
structure Acc where
  val : Nat
  seen : Nat := 0
  deriving DecidableEq, Repr

/-- A group entry, or a partial record with its morsel and flush number (05 R135, R140). -/
structure Group where
  hash : Word
  key : List (Option Word)
  accs : List Acc
  morsel : Nat := 0
  seq : Nat := 0
  deriving DecidableEq, Repr

/-- A partition of an AGG_HASH (05 R134 to R140, R146). -/
structure APart where
  addr : Nat := 0
  /-- Addresses of its overflow buckets. -/
  ovf : List Nat := []
  groups : List Group := []
  /-- Spilled rows (key and inputs), and spilled partial records. -/
  spill : List JRow := []
  spillPart : List Group := []
  /-- The result rows once finalised. -/
  results : List (List (Option Word)) := []
  deriving DecidableEq, Repr

/-- A sorted run: its rows with their sort keys t', none for a null key (05 R149). -/
structure SRun where
  addr : Nat
  morsel : Nat
  rows : List (Option Nat × Row)
  deriving DecidableEq, Repr

/-- What a breaker has built (04 R103, R105). -/
structure Breaker where
  join : Tab JPart := []
  agg : Tab APart := []
  /-- The address of the partition directory (05 R125) or of AGG_PLANE's accumulator line; the line's words 0 and 1 as
  one number, the rows counted (05 R139). -/
  line : Nat := 0
  plane : Nat := 0
  rows : Nat := 0
  runs : List SRun := []
  /-- Bytes charged against the budget. -/
  used : Nat := 0
  deriving DecidableEq, Repr

/-- A LIMIT operator: the rows that reached it from each task (04 R111). -/
structure LimitSt where
  counts : Tab Nat := []
  deriving DecidableEq, Repr

/-- A pipeline of a resident query (04 R115, R116; 08 R220). -/
structure PipeSt where
  begun : Bool := false
  morsels : Nat := 0
  /-- The next morsel group to expand. -/
  next : Nat := 0
  /-- Unfinished tasks of each stage, and how far each stage has come: 0 its own tasks, 1 spilled sub-partitions, 2 index
  or finalisation tasks, 3 ended. -/
  left : Tab Nat := []
  phase : Tab Nat := []
  /-- MODEL: the next spilled sub-partition of the stage's probes, or the next partition to index or finalise. -/
  sub : Nat := 0
  /-- The last morsel that LIMIT let through (04 R111). -/
  cut : Option Nat := none
  done : Bool := false
  deriving DecidableEq, Repr

/-- A running hash (19 R567). -/
structure DgsCtx where
  h : List (BitVec 32)
  outer : List (BitVec 32) := []
  count : Nat := 0
  pend : List Byte := []
  deriving DecidableEq, Repr

/-- A resident query of a tenant (04 R115 to R120). -/
structure Query where
  qseq : Nat
  image : Nat
  prio : Nat
  /-- The ring work that completes when the query ends. -/
  work : Nat
  /-- The address of the parameter copy and its bytes (04 R99). -/
  param : Nat := 0
  pbytes : List Byte := []
  /-- The breaker-result directory's address (08 R219). -/
  qstate : Nat := 0
  spillAddr : Nat := 0
  spillLen : Nat := 0
  /-- Bytes of the spill region in use (05 R714). -/
  spillUsed : Nat := 0
  started : Bool := false
  /-- The first failure recorded (04 R117). -/
  failed : Option Nat := none
  cancelled : Bool := false
  pipes : Tab PipeSt := []
  /-- Batches that a stage has handed to the next, keyed by pipeline, stage and task place. -/
  handed : Tab (List Batch) := []
  limits : Tab LimitSt := []
  /-- Rows and bytes that each task of an EMIT has placed, keyed by operator then task place. -/
  emits : Tab (Tab (Nat × Nat)) := []
  emitted : Nat := 0
  thetas : Tab Nat := []
  brk : Tab Breaker := []
  /-- The addresses of everything placed for the query (04 R105). -/
  locals : List Nat := []
  /-- Frames' destination fill of a COMPRESS operator, by operator. -/
  frames : Tab Nat := []
  /-- The running hash of a DIGEST operator, by operator (04 R112). -/
  digests : Tab DgsCtx := []
  deriving DecidableEq, Repr

/-! ### Rings (17) -/

/-- Where a fetched command stands: behind admission, delayed, free to start, running, ended. -/
inductive WStage where
  | delayed | ready | running | ended
  deriving DecidableEq, Repr

/-- How a command ended: the completion's fields of its own (17 R493). -/
structure WorkResult where
  status : Nat
  info : Nat := 0
  partial_ : Bool := false
  long : Bool := false
  resumable : Bool := false
  deriving DecidableEq, Repr

/-- A fetched command until its completion is formed; its key is its place in fetch order (17 R490, R498, R499, R510). -/
structure Work where
  f : Nat
  q : Nat
  /-- The 64 B of the submission entry. -/
  raw : List Byte
  /-- The tick of the fetch. -/
  tick : Nat
  stage : WStage := .ready
  disp : Nat := 0
  qtime : Nat := 0
  /-- The copied parameter block of a QUERY_RUN (17 R492). -/
  param : List Byte := []
  /-- The fragments of each side, address and length (17 R499). -/
  src : List (Nat × Nat) := []
  dst : List (Nat × Nat) := []
  /-- A fragment table was longer than the declared length (17 R500). -/
  long : Bool := false
  /-- QUERY_CANCEL: the cancelled queries' commands that have not completed, and how many it cancelled. -/
  waitOn : List Nat := []
  cancelled : Nat := 0
  /-- The command's completion is discarded: fetched under an old generation, or its tenant was reset (20 R598, R602). -/
  silent : Bool := false
  /-- Column commands: rows already committed or read. -/
  rowsDone : Nat := 0
  /-- Its engine job has been aborted by a quiesce (20 R594). -/
  stopped : Bool := false
  /-- The event flag allocated for its engine job (19 R565). -/
  flag : Option Nat := none
  result : Option WorkResult := none
  deriving DecidableEq, Repr

/-- A completion entry to be written (17 R493), with NOIRQ of its last entry. -/
structure Cpl where
  tag : Nat
  status : Nat
  disp : Nat
  cflags : Nat
  count : Nat
  qtime : Nat
  info : Nat
  noirq : Bool
  /-- MODEL: the commands it covers, and the images of the queries among them (17 R503; 04 R119, R120). -/
  covers : List Nat := []
  runs : List Nat := []
  deriving DecidableEq, Repr

/-- The state of a queue pair (17 R486). -/
inductive QState where
  | active | errorDoorbell | errorOwn | halted
  deriving DecidableEq, Repr

/-- A queue pair (17 R484 to R496). -/
structure QPair where
  state : QState := .active
  vector : Nat
  coalesce : Nat
  sqBase : Nat
  sqN : Nat
  cqBase : Nat
  cqN : Nat
  /-- The consumer count and the last doorbell's producer count. -/
  c : BitVec 16 := 0
  p : BitVec 16 := 0
  t : Nat := 0
  /-- The slot at c has read OWN 0 once (17 R490). -/
  recheck : Bool := false
  waiting : List Cpl := []
  /-- The members of the open batch and of closed ones not complete, oldest first (17 R496). -/
  batch : List Nat := []
  batches : List (List Nat) := []
  /-- The tick of the last message, and whether one is held back (17 R495). -/
  lastMsg : Option Nat := none
  msgHeld : Bool := false
  /-- The command work area, and the commands that hold one of its four slots (19 R565). -/
  area : Nat := 0
  slots : Tab Nat := []
  /-- A QUEUE_DELETE is under way: completions not written so far (18 R539). -/
  deleting : Option Nat := none
  deriving DecidableEq, Repr

/-! ### Engine jobs (12, 19, 13) -/

/-- An event pulse on its way to the dispatcher (a flag) or to Cadence (a trigger input), with the dispatch epoch it
carries (01 R17, 08 R227). -/
structure Pulse where
  f : Nat
  trig : Bool
  idx : Nat
  epoch : BitVec 8
  deriving DecidableEq, Repr

/-- The fields of a compression job descriptor (12 R341). -/
structure CmpDesc where
  op : Nat := 0
  method : Nat := 0
  level : Nat := 0
  dflags : Nat := 0
  ew : Nat := 0
  event : Nat := 0
  inAddr : Nat := 0
  inLen : Nat := 0
  uDecl : Nat := 0
  chain : Nat := 0
  nchain : Nat := 0
  status : Nat := 0
  ctx : Nat := 0
  deriving DecidableEq, Repr

/-- A job of a compression channel: its function, the address of its descriptor, the epoch of its pulse; a job of a
ring command names the work and carries its descriptor (12 R344, 17 R508, 19 R565). -/
structure CmpJob where
  f : Nat
  desc : Nat
  epoch : BitVec 8
  work : Option Nat := none
  given : Option CmpDesc := none
  deriving DecidableEq, Repr

/-- What a context area holds: the bytes written there and the frame's state they stand for (12 R360; log 17). -/
structure CmpCtx where
  f : Nat
  op : Nat
  method : Nat
  bytes : List Byte
  /-- Every input byte of the frame consumed whole so far. -/
  input : List Byte
  produced : Nat
  hdr : Nat
  level : Nat
  ew : Nat
  sg : Bool
  deriving DecidableEq, Repr

/-- A compression channel (12 R345, R369 to R371). -/
structure CmpChan where
  funcs : Word := 0
  queue : List CmpJob := []
  run : Option CmpJob := none
  func : Nat := 0
  jobs : Word := 0
  inb : Word := 0
  outb : Word := 0
  err : Word := 0
  deriving DecidableEq, Repr

/-- A DMA descriptor (19 R546). -/
structure DmaDesc where
  src : Nat
  dst : Nat
  len : Nat
  dkind : Nat
  dfl : Nat
  rsv : Nat := 0
  next : Nat := 0
  deriving DecidableEq, Repr

/-- A transfer in a register set: its block, and how far it has come (19 R545, R551, R552). A transfer that the ring
engine or an operator submits carries its descriptors and writes no record of its own (19 R565). -/
structure Xfer where
  f : Nat
  block : Nat
  status : Nat
  trig : Bool := false
  event : Nat := 0
  qslot : Nat := 0xFFFF
  cadence : Bool := false
  epoch : BitVec 8
  inner : Bool := false
  work : Option Nat := none
  /-- The ring DIGEST whose message it feeds (19 R565). -/
  feeds : Option Nat := none
  given : List DmaDesc := []
  idx : Nat := 0
  /-- The address of the next descriptor. -/
  next : Nat
  ndone : Nat := 0
  nbad : Nat := 0
  firstBad : Option Nat := none
  badCode : Nat := 0
  poisoned : Bool := false
  bytes : Nat := 0
  /-- No descriptor is left: the transfer waits for its writes to be ordered (19 R550). -/
  ended : Bool := false
  /-- The transfer ran past 4,096 descriptors (19 R546). -/
  tooLong : Bool := false
  deriving DecidableEq, Repr

/-- A DMA channel (19 R552, R571 to R574). -/
structure DmaChan where
  cur : Option Xfer := none
  sh : Option Xfer := none
  /-- DMA_ASSIGN where it has been written; otherwise what R543 gives. -/
  funcs : Option Word := none
  istat : BitVec 64 := 0
  bytes : Word := 0
  xfers : Word := 0
  bad : Word := 0
  /-- The tick of the channel's last signal for a bus error (19 R548). -/
  lastBus : Option Nat := none
  deriving DecidableEq, Repr

/-- Where a message's context stands: not begun, to be restored from its save area, in the engine's registers, given up
with the status the message will end with (19 R561, R566). -/
inductive CtxAt where
  | fresh
  | saved
  | reg (c : DgsCtx)
  | gone (code : Nat)
  deriving DecidableEq, Repr

/-- A message open on a digest engine (19 R557 to R568). -/
structure DgsMsg where
  mode : Nat
  derive : Bool := false
  trig : Bool := false
  event : Nat := 0
  keySlot : Nat := 0
  dstSlot : Nat := 0
  qslot : Nat := 0xFFFF
  declLen : Nat
  result : Nat
  status : Nat := 0
  save : Nat
  epoch : BitVec 8
  /-- Submitted by the ring engine for a command, or for an operator: no record and pulse of its own (19 R565). -/
  work : Option Nat := none
  inner : Bool := false
  /-- The states formed from the key at the open (19 R558, 21 R617). -/
  start : DgsCtx
  bound : Option Nat := none
  fed : Nat := 0
  used : Nat := 0
  ctx : CtxAt := .fresh
  switches : Nat := 0
  suspend : Bool := false
  /-- Displaced in mid-feed (19 R566). -/
  waiting : Bool := false
  deriving DecidableEq, Repr

/-- A digest engine; messages keyed by function (19 R559, R577, R578). -/
structure DgsEng where
  active : Option Nat := none
  msgs : Tab DgsMsg := []
  served : Nat := 0
  blocks : Word := 0
  switch : Word := 0
  err : Word := 0
  deriving DecidableEq, Repr

/-- A slot of the key store (21 R614, R615). -/
structure KeySlot where
  kind : Nat := 0
  len : Nat := 0
  owner : Nat := 0
  useAll : Bool := false
  data : List Byte := []
  deriving DecidableEq, Repr

/-- The bytes of a fused key (21 R614). -/
def fuseBytes (k n : Nat) : List (BitVec 8) := (List.range n).map (fun i => (Config.fuseKey k).extractLsb' (8 * i) 8)

/-- The device slots as shipped; the bytes of the fused ones are free values of the device (21 R614, R622, R641; log 7). -/
def fusedKeys : Tab KeySlot :=
  [(0, { kind := 2, len := 32, owner := 0x7F, data := fuseBytes 0 32 }), (1, { kind := 3, len := 32, owner := 0x7F, data := fuseBytes 1 32 }),
   (2, { kind := 1, len := 64, owner := 0x7F, data := fuseBytes 2 64 }), (3, { kind := 1, len := 64, owner := 0x7F, data := fuseBytes 3 64 }),
   (4, { kind := 1, len := 64, owner := 0x7F, data := fuseBytes 4 64 }), (5, { owner := 0x7F }), (6, { owner := 0x7F }), (7, { owner := 0x7F })]

/-- A Bramble entry: ternary key, pre-filter byte, attribute bits (13 R373). -/
structure BrmEnt where
  value : BitVec 128 := 0
  care : BitVec 128 := 0
  pf : Byte := 0
  attr : BitVec 8 := 0
  deriving DecidableEq, Repr

/-- An operation of a load list on entries of an array (13 R386, R387). -/
inductive BrmOp where
  | write (i : Nat) (e : BrmEnt)
  | inval (i : Nat)
  | copy (i src : Nat)
  deriving DecidableEq, Repr

/-- A batch search job: its function, its descriptor's address, the epoch of its pulse (13 R380, R382). -/
structure BrmJob where
  f : Nat
  desc : Nat
  epoch : BitVec 8
  deriving DecidableEq, Repr

/-- A Bramble array (13 R372, R382, R391, R398 to R400). -/
structure Bram where
  ents : Tab BrmEnt := []
  /-- BRM_RANGE of each function. -/
  range : Tab Word := []
  queue : List BrmJob := []
  run : Option BrmJob := none
  func : Nat := 0
  /-- Operations not yet begun, and the one in progress: entry, new contents, steps done (13 R384). -/
  upd : List BrmOp := []
  cur : Option (Nat × BrmEnt × Nat) := none
  /-- The row of R391 in force: 0 to 3 the throttle, 4 pre-filter. -/
  row : Nat := 0
  forcePf : Bool := false
  searches : Word := 0
  updates : Word := 0
  pfSearch : Word := 0
  deriving DecidableEq, Repr

/-- The result registers of a tile's engine submissions (12 R366, 19 R570, R576). -/
structure EngRegs where
  cmpSubst : BitVec 32 := 0
  dmaLdst : BitVec 32 := 0
  dgsOpst : BitVec 32 := 0
  brmSubst : BitVec 32 := 0
  brmSkeyLo : Word := 0
  brmSkeyHi : Word := 0
  /-- CAD_ARMST (14 R422). -/
  cadArmst : BitVec 32 := 0
  deriving DecidableEq, Repr

/-! ### Cadence (14) -/

/-- An armed action entry (14 R412 to R419). -/
structure Action where
  f : Nat
  tick : Nat
  action : Nat
  drop : Bool
  flag : Nat
  /-- The trigger input an AFTER entry still waits on. -/
  wait : Option Nat
  target : Nat
  qslot : Nat
  arg : Nat
  status : Nat
  /-- The order of arming. -/
  seq : Nat
  /-- The tick lay in the past at arming (14 R415). -/
  late : Bool
  /-- The tick at which it fell due. -/
  due : Option Nat := none
  deriving DecidableEq, Repr

/-- What Cadence keeps of a Krelor port: the last offset in 2^-16 tick, the time a request left, the peer's state, hops
and key with the intervals since it was heard, exchanges completed (14 R405 to R409). -/
structure CadPort where
  theta : Int := 0
  t1 : Option Nat := none
  heard : Bool := false
  state : Nat := 0
  hops : Nat := 0
  key : Nat := 0
  age : Nat := 0
  /-- The asymmetry of R406 in 2^-16 tick. -/
  asym : Int := 0
  deriving DecidableEq, Repr

/-- Cadence (14 R401 to R428). The integer part of the time value is State.now. -/
structure Cadence where
  ctl : BitVec 32 := 0x02FF4E20
  frac : BitVec 32 := 0
  rate : Int := 0
  rateF : Int := 0
  adj : Bool := false
  master : Bool := false
  host : Bool := false
  stepped : Bool := false
  hops : Nat := 0
  state : Nat := 0
  prio : Nat := 0xFF
  /-- The key of the adopted master. -/
  key : Nat := 0
  /-- Consecutive intervals within 0.1 tick; consecutive intervals with no port in up. -/
  near : Nat := 0
  alone : Nat := 0
  adjLogged : Bool := false
  ports : Tab CadPort := []
  hostOfs : Int := 0
  ptm : Bool := false
  /-- The host epoch of TIME_ALIGN while host steering is on. -/
  epoch : Option Nat := none
  acts : Tab Action := []
  nextSeq : Nat := 0
  /-- Entries launched in this Cadence clock (14 R415). -/
  launched : Nat := 0
  /-- A lower key has been adopted since the last steering (14 R409). -/
  fresh : Bool := false
  /-- Ticks of unconsumed pulses, oldest first, and CAD_TRIGn.OVF, keyed function × 8 + input. -/
  trig : Tab (List Nat) := []
  ovf : Tab (BitVec 32) := []
  ontime : Word := 0
  laterun : Word := 0
  dropped : Word := 0
  deriving DecidableEq, Repr

/-! ### Krelor (15) -/

/-- A flit without its CRC (15 R431). -/
structure Flit where
  type : Nat
  vc : Nat := 0
  last : Bool := false
  seq : Nat := 0
  ack : Nat := 0
  cred : Nat := 0
  dst : Nat := 0
  src : Nat := 0
  xchg : Nat := 0
  round : Nat := 0
  offset : Nat := 0
  payload : List Byte := []
  deriving DecidableEq, Repr

/-- A sequenced flit in the replay buffer: the tick it was last sent, how often it has been resent (15 R434, R436). -/
structure Replay where
  flit : Flit
  tick : Nat
  resent : Nat := 0
  deriving DecidableEq, Repr

/-- A Krelor port (15 R429 to R446, R460 to R463). -/
structure KPort where
  ctl : Word := 1
  state : Nat := 0
  calib : Bool := false
  lanes : BitVec 4 := 0
  peer : Nat := 0
  level : Nat := 256
  panic : Bool := false
  crcErr : Word := 0
  replayed : Word := 0
  degrade : Word := 0
  discard : Word := 0
  cable : Bool := false
  /-- Lane skews read from the cable, in ps, both directions; none where it holds none. -/
  skew : Option (List Int) := none
  txSeq : Nat := 1
  rxSeq : Nat := 1
  /-- Flits received since the last ACK left. -/
  unacked : Nat := 0
  replay : List Replay := []
  /-- Flits that wait for a credit or for the port, oldest first. -/
  out : List Flit := []
  /-- Credits held for the peer's buffers of each channel. -/
  credits : List Nat := [64, 64, 64, 64]
  /-- Buffers of each channel that have emptied and whose credit has not gone back yet. -/
  owed : List Nat := [0, 0, 0, 0]
  /-- Flits for this device in the receive buffer, with the lines their writes still wait for, oldest first. -/
  rbuf : List (Flit × List Nat) := []
  /-- Transmission is held for a retrain (15 R436); failures in a row; failures while training. -/
  hold : Bool := false
  fails : Nat := 0
  /-- The redundant port carries the traffic of its pair since a failover (15 R437). -/
  backing : Bool := false
  /-- Flits that left the port, newest first. -/
  sent : List Flit := []
  deriving DecidableEq, Repr

/-- One slice as it arrives: where its body lies in the half, bytes received and expected, rows, whole (15 R452). -/
structure KSlice where
  src : Nat
  at_ : Nat
  got : Nat := 0
  len : Nat := 0
  rows : Nat := 0
  whole : Bool := false
  deriving DecidableEq, Repr

/-- A round of an exchange (15 R449 to R454). -/
structure Round where
  launched : Bool := false
  slices : List KSlice := []
  /-- Bytes of the half in use. -/
  fill : Nat := 0
  received : Bool := false
  sacks : List Nat := []
  /-- The LAST flits have gone out. -/
  flushed : Bool := false
  complete : Bool := false
  /-- The receive task has finished. -/
  consumed : Bool := false
  deriving DecidableEq, Repr

/-- An open exchange (15 R447 to R457). -/
structure Xchg where
  f : Nat
  qslot : Nat
  pipe : Nat
  op : Nat
  rounds : Nat
  n : Nat
  self : Nat
  window : Nat
  t0 : Nat
  period : Nat
  mbase : Nat
  mtotal : Nat
  nodes : List Nat
  recv : Nat
  cap : Nat
  /-- The exchange's round slot (15 R449). -/
  slot : Nat
  round : Tab Round := []
  /-- Staged rows of a round for a destination, keyed round × n + destination. -/
  staged : Tab (List Row) := []
  used : Nat := 0
  deriving DecidableEq, Repr

/-- The Krelor unit (15 R441, R444, R456, R458, R459). Exchanges are keyed by XCHG_ID. -/
structure Krelor where
  node : Word := 0
  routes : Tab Word := []
  ports : Tab KPort := []
  xchgs : Tab Xchg := []
  /-- ABORTs for exchanges not yet open: identifier and tick, newest first. -/
  aborts : List (Nat × Nat) := []
  /-- Identifiers of exchanges that have been open and have closed. -/
  closed : List Nat := []
  deriving DecidableEq, Repr

/-! ### The device state -/

/-- The device state (18 R526). -/
inductive DevState where
  | init | ready | update | confirm | recovery | wiping | fault
  deriving DecidableEq, Repr

/-! ### Boot, keys, lifecycle and firmware update (21) -/

/-- A firmware component: its version, and the SHA-256 of its bytes; empty for a component as shipped (21 R612, R630;
log 7). -/
structure Comp where
  ver : Nat := 0x00010000
  hash : List Byte := []
  /-- Its plaintext bytes; empty for a component as shipped. -/
  bytes : List Byte := []
  deriving DecidableEq, Repr

/-- An image in flash: its 256 B header, empty as shipped; whether it passes the checks of 21 R611 other than the
security version's; its components in number order; its versions (21 R627, R630; log 7). -/
structure FwSlot where
  hdr : List Byte := []
  good : Bool := true
  comps : List Comp := List.replicate 6 {}
  deriving DecidableEq, Repr

/-- A copy of the flash directory, and whether its CRC-32C is valid (21 R628). -/
structure FlashDir where
  dseq : Nat := 0
  slotState : Nat := 3
  attempts : Nat := 0
  version : Nat := 0x00010000
  svn : Nat := 0
  valid : Bool := true
  deriving DecidableEq, Repr

/-- What no reset clears: flash and fuses (21 R622, R627; 22 R656; 15 R441). -/
structure NonVol where
  dirA : FlashDir := { dseq := 1 }
  dirB : FlashDir := {}
  slot : FwSlot := {}
  keel : FwSlot := {}
  /-- KRELOR_SET: node identifier, dimensions less 1, the words of ports 6 and 7 (18 R540). -/
  node : BitVec 18 := 0
  dims : List Nat := [0, 0, 0]
  port6 : BitVec 32 := 0
  port7 : BitVec 32 := 0
  /-- Fuses: lifecycle state, transition count, security version. -/
  lifecycle : Nat := 1
  count : Nat := 1
  svn : Nat := 0
  /-- The identity secret of slot 0 has not been erased (21 R622). -/
  identity : Bool := true
  /-- A lifecycle wipe has begun and not ended (21 R625). -/
  wiping : Bool := false
  /-- Powered hours since manufacture (23 R691). -/
  hours : Nat := 0
  deriving DecidableEq, Repr

/-- A firmware update in progress and what booted (21 R611, R631 to R638). -/
structure Update where
  /-- The accepted header, the body bytes accepted so far as they came. -/
  hdr : List Byte := []
  body : List Byte := []
  fromRecovery : Bool := false
  /-- FW_UPDATE_COMMIT has been answered, and the update reboot is due (21 R635). -/
  reboot : Bool := false
  /-- The pairs that step 2 of 21 R635 halted. -/
  halted : List (Nat × Nat) := []
  /-- Keel runs (18 R533 BOOT). -/
  keel : Bool := false
  /-- The debug port has been opened since the last wipe (21 R621). -/
  debug : Bool := false
  /-- The state from which LIFECYCLE_SET was taken (21 R625). -/
  wipeFrom : DevState := .ready
  deriving DecidableEq, Repr

/-- The SPDM responder (16 R473; 21 R619 to R621): what the negotiation has reached, the open session, the answers sent,
newest first: the response code, its parameter, its bytes. -/
structure Spdm where
  /-- 0 nothing, 1 version, 2 capabilities, 3 algorithms agreed. -/
  stage : Nat := 0
  /-- The session: none, in handshake (false), established (true). -/
  session : Option Bool := none
  answers : List (Nat × Nat × List Byte) := []
  deriving DecidableEq, Repr

/-! ### Power, clocks, reset (22, 24) -/

/-- Where the supply stands (22 R655, R658; 24 R706, R707). -/
inductive Supply where
  /-- PWRGD has not risen, or the ramp failed twice. -/
  | off
  /-- The regulators ramp for the first time, or once more. -/
  | ramping | retrying
  /-- The first ramp failed; the retry is due after 100 ms. -/
  | failed
  /-- The device runs. -/
  | up
  /-- An orderly shutdown has ended. -/
  | down
  deriving DecidableEq, Repr

/-- Supply, power, temperature, sag level and the power registers (22 R642 to R666). -/
structure Power where
  supply : Supply := .ramping
  pwrgd : Bool := true
  /-- PWR_CTL, PWR_SAG, PWR_CAP, PWR_IDLE_A1 to A3. -/
  ctl : BitVec 32 := 3
  sag : BitVec 32 := 0x32320258
  cap : BitVec 32 := 1600
  idle : List (BitVec 32) := [1000, 100000, 10000000]
  /-- The sag level L, L_min (23 R686). -/
  level : Nat := 0
  lmin : Nat := 0
  sagIn : Word := 0
  sagCore : Word := 0
  throt : Word := 0
  /-- The cause of the last module reset (22 R666). -/
  cause : BitVec 8 := 1
  /-- V_in in mV and input power in 0.1 W, 1 µs averages. -/
  vin : BitVec 16 := 0
  pin : BitVec 16 := 0
  dcap : Nat := 16
  /-- Samples in a row below 0.95 of P_env (22 R646). -/
  under : Nat := 0
  /-- The thermal value of a tile; 16 where none is listed (22 R647). -/
  dth : Tab Nat := []
  alert : Bool := false
  holdover : Bool := false
  /-- The straps as sampled: REFSEL, SRIS, ADDR0 to ADDR2 (24 R695, R696). -/
  straps : BitVec 5 := 0
  /-- 0 to 3: A0 to A3, and the lanes that A3 gave up (22 R653, R654). -/
  pstate : Nat := 0
  lanes : Tab (BitVec 4) := []
  /-- Why the device is down: a code of PWR_RST.CAUSE (22 R655). -/
  shut : Nat := 0
  /-- What the rack management target has answered, newest first; none for NACK (24 R702). -/
  i3c : List (Option (List Byte)) := []
  deriving DecidableEq, Repr

/-! ### Reliability and ageing (23) -/

/-- The reliability state (23 R671 to R692). -/
structure Relia where
  /-- Fenced tiles that have not returned; the ticks of each tile's fences; fences since cold reset. -/
  fenced : List Nat := []
  fences : Tab (List Nat) := []
  fenceCount : Nat := 0
  /-- The slice that is being removed, with its cause; homes start no new request (23 R674, R675). -/
  removing : Option (Nat × Nat) := none
  /-- Slices condemned while another is removed (23 R671). -/
  condemned : List (Nat × Nat) := []
  draining : Bool := false
  /-- Ticks of uncorrectable errors of a slice's data array and of its directory (23 R674). -/
  dataUe : Tab (List Nat) := []
  dirUe : Tab (List Nat) := []
  /-- Phases shed of each row rail (23 R677). -/
  phases : Tab Nat := []
  /-- The tick of the last watchdog expiry (23 R678). -/
  watchdog : Option Nat := none
  /-- The largest drift of each tile, in ppm, and as it stood at the last plan (23 R683, R685). -/
  drift : Tab Nat := []
  planned : Tab Nat := []
  /-- Setpoints of the row rails in mV. -/
  rails : Tab Nat := []
  planHours : Nat := 0
  planCause : Nat := 0
  /-- Evaluations in a row in which a tile sensor differed from its neighbours (23 R689). -/
  odd : Tab Nat := []
  /-- Eye margin and its target of each channel, in ps (11 R328; 23 R692). -/
  eye : Tab Nat := []
  eyeGoal : Tab Nat := []
  deriving DecidableEq, Repr

/-! ### The whole device -/

/-- One tile. -/
structure Tile where
  core : Core := {}
  l1 : L1 := {}
  /-- The function the tile is bound to. -/
  bound : Option Nat := none
  bind : Binding := {}
  dsp : DspRegs := {}
  eng : EngRegs := {}
  stroke : Stroke := {}
  task : Option TaskRun := none
  /-- Function, image and first operator of the tile's last task (03 R71). -/
  lastOp : Option (Nat × Nat × Nat) := none
  deriving DecidableEq, Repr

/-- A loaded image: where its copy and its scratch reservation lie, its bytes, the Bramble entries it claims (04 R118,
R119). -/
structure Image where
  addr : Nat
  scratch : Nat
  raw : List Byte
  claims : List (Nat × Nat) := []
  deriving DecidableEq, Repr

/-- The state of a tenant (18 R528). -/
inductive TState where
  | none | active | quiescing | quiesced | resetting | destroying
  deriving DecidableEq, Repr

/-- An entitlement record (18 R535). -/
structure Entitle where
  tileGuar : Nat := 0
  tileBurst : Nat := 0
  bwGuar : Nat := 0
  bwBurst : Nat := 0
  queries : Nat := 0
  cmpCh : Nat := 0
  drupe : Nat := 0
  signReq : Bool := false
  compat : Bool := false
  memBytes : Nat := 0
  guarded : Nat := 0
  dispatchMib : Nat := 0
  signSlot : Nat := 0
  xchgBase : Nat := 0
  xchgCount : Nat := 0
  bramble : Nat := 0
  burstWindow : Nat := 0
  delayMax : Nat := 0
  deriving DecidableEq, Repr

/-- The two uses of a tenant: tile-ticks and memory bytes of the sub-window in progress, the tick it began, and of the
last 16 whole sub-windows, newest first (20 R586). -/
structure Usage where
  start : Nat := 0
  tiles : Nat := 0
  bytes : Nat := 0
  hist : List (Nat × Nat) := []
  deriving DecidableEq, Repr

/-- A function's mailbox (18 R515 to R525). -/
structure Mailbox where
  /-- The message area; a byte past the end of the list reads zero. -/
  area : List Byte := []
  busy : Bool := false
  done : Bool := false
  overrun : Bool := false
  attn : Bool := false
  /-- SEQ of the doorbell, and the request as it was read. -/
  seq : Nat := 0
  req : List Byte := []
  deriving DecidableEq, Repr

/-- One tenant. -/
structure Tenant where
  alloc : List Extent := []
  /-- The parts of the allocation that the device has placed something in (20 R581). -/
  used : List Extent := []
  /-- Extents that return to the allocation once tasks have ended: the descriptors of those tasks (02 R45). -/
  retired : List (Extent × List Nat) := []
  /-- TNT_HRGN_LO and TNT_HRGN_HI of host regions 0 to 31 (20 R603, R604). -/
  hrgnLo : Tab Word := []
  hrgnHi : Tab Word := []
  /-- TNT_HRGN_REFUSED (20 R605). -/
  hrgnRef : BitVec 32 := 0
  mig : Option MigLog := none
  disp : Disp := {}
  tstate : TState := .none
  ent : Entitle := {}
  images : Tab Image := []
  /-- The compatibility generation g (20 R601). -/
  gen : BitVec 8 := 0
  /-- TNT_SERVED, TNT_DELAYED, TNT_REF_QUOTA, TNT_REF_CAP (20 R606). -/
  served : Word := 0
  delayed : Word := 0
  refQuota : Word := 0
  refCap : Word := 0
  usage : Usage := {}
  /-- The tick by which a drain becomes a cancel; none inside once cancelling (20 R594). -/
  quiesce : Option (Option Nat) := none
  /-- TNT_WIPE (20 R609). -/
  wipe : Nat := 0
  /-- Doorbell writes ignored (17 R486). -/
  doorIgnored : Word := 0
  queries : Tab Query := []
  pairs : Tab QPair := []
  /-- QSEQ of the next query (08 R219). -/
  nextQ : Nat := 0
  /-- TNT_GEN_DISCARD and TNT_HELD_DISCARD (20 R606). -/
  genDiscard : Word := 0
  heldDiscard : Word := 0
  /-- The digest context key that Eunto draws at creation (19 R567). -/
  ctxKey : List Byte := []
  deriving DecidableEq, Repr

/-- The host link and its interrupt state. -/
structure HostIf where
  /-- MSI-X vectors whose mask bit is clear, keyed function × 64 + vector. -/
  unmasked : List Nat := []
  /-- Message address and data of the vectors, keyed (function × 64 + vector) × 2 + word (16 R483). -/
  msixTab : Tab Word := []
  /-- Functions whose function mask is clear. -/
  fnUnmasked : List Nat := []
  /-- The host link is up; HOSTMODE 1: CXL.cache and CXL.mem were not granted; rate in GT/s and width (16 R464, R465). -/
  linkUp : Bool := false
  pcieOnly : Bool := false
  rate : Nat := 0
  width : Nat := 0
  /-- CGEN of the capability page (16 R482). -/
  cgen : BitVec 32 := 0
  /-- VF Enable and ARI Capable Hierarchy of the SR-IOV capability (16 R470). -/
  vfEnable : Bool := false
  ari : Bool := false
  /-- The base-2 logarithm of a VF's BAR2 size in force, and the one set for the next cold reset (16 R476). -/
  bar2 : Nat := 36
  bar2Next : Nat := 36
  pba : List Nat := []
  /-- Messages sent, newest first, keyed function × 64 + vector. -/
  sent : List Nat := []
  deriving DecidableEq, Repr

/-- The state of the device. -/
structure State where
  /-- Commands waiting, first in first out. -/
  pending : List Instr := []
  /-- MODEL: how many free values have been drawn (log 1). -/
  freeCtr : Nat := 0
  part : Part := .aq680
  now : Word := 0
  /-- The runtime entry address that Eunto programs (06 R156; log 3). -/
  entryPc : Word := 0
  tiles : Tab Tile := []
  slices : Tab Slice := []
  /-- Home-map entries that differ from what 10 R276 gives over the enabled slices. -/
  homeMap : Tab Nat := []
  slicesOff : List Nat := []
  tilesOff : List Nat := []
  net : List Msg := []
  pips : List Pip := []
  io : List IoReq := []
  mem : Mem := {}
  /-- Host memory as the device sees it. -/
  hostMem : List Host.Cell := []
  hostPoison : List Nat := []
  /-- D2H requests that wait for the host's data (10 R299): line. -/
  d2h : List Nat := []
  /-- Back-invalidate snoops that wait for the host's answer (10 R300): line. -/
  bisnp : List Nat := []
  /-- What the device has answered the host and the edge agents, newest first. -/
  answers : List Answer := []
  /-- Host writes that wait for the host's GO (16 R468): line. -/
  goPend : List Nat := []
  tenants : Tab Tenant := []
  /-- Fetched commands, keyed by fetch order, and the next key. -/
  works : Tab Work := []
  nextWork : Nat := 0
  /-- The last tick at which a tenant had a ready task (20 R588). -/
  lastReady : Nat := 0
  pulses : List Pulse := []
  cmp : Tab CmpChan := []
  /-- Compression channels disabled for good. -/
  cmpOff : List Nat := []
  cmpCtxs : List CmpCtx := []
  dma : Tab DmaChan := []
  dmaOff : List Nat := []
  dgs : Tab DgsEng := []
  dgsOff : List Nat := []
  keys : Tab KeySlot := fusedKeys
  brm : Tab Bram := []
  brmOff : List Nat := []
  mboxes : Tab Mailbox := []
  /-- The function whose mailbox command Eunto has taken, and the one it served last (18 R523). -/
  eunto : Option Nat := none
  euntoLast : Nat := 63
  /-- The request as it was read, and SEQ of its doorbell. -/
  euntoReq : List Byte := []
  euntoSeq : Nat := 0
  /-- The taken command has begun and waits for an end of its own; what it keeps until its reply. -/
  euntoArg : Option Nat := none
  /-- The taken command's function has been reset: it ends without a reply, then the tenant is reset (18 R525). -/
  euntoMute : Bool := false
  dstate : DevState := .init
  cad : Cadence := {}
  krl : Krelor := {}
  /-- The running runtime's version (04 R93). -/
  runtimeVer : Nat := 0
  /-- The tenant that last received a tile by rotation (08 R234). -/
  bindLast : Nat := 63
  /-- Tile sensors in degrees Celsius, and those flagged unreliable (22 R647, 23 R689). -/
  tileTemp : Tab Int := []
  unreliable : List Nat := []
  host : HostIf := {}
  errlog : ErrLog := {}
  /-- KST_DATA0 to KST_DATA7 and KST_CMD (21 R639, R640). -/
  kstData : Tab Word := []
  kstCmd : Word := 0
  nv : NonVol := {}
  upd : Update := {}
  spdm : Spdm := {}
  pw : Power := {}
  rel : Relia := {}
  deriving DecidableEq, Repr

/-- The device right after reset. -/
def State.reset : State := {}

end Sys2Proof.Machine
end

