-- ==== Sys2Proof/Machine/Ops.lean ====
section
/-! DEFINITION. Named access to the parts of the state, and the operations every unit shares: free values, messages
to the host, the error log. -/

namespace Sys2Proof.Machine

/-- A tile by number. -/
def State.tile (s : State) (t : Nat) : Tile := s.tiles.getD t {}

/-- Changes a tile. -/
def State.updTile (s : State) (t : Nat) (f : Tile → Tile) : State :=
  { s with tiles := s.tiles.upd t {} f }

/-- Changes the core of a tile. -/
def State.updCore (s : State) (t : Nat) (f : Core → Core) : State :=
  s.updTile t (fun x => { x with core := f x.core })

/-- Changes the caches of a tile. -/
def State.updL1 (s : State) (t : Nat) (f : L1 → L1) : State :=
  s.updTile t (fun x => { x with l1 := f x.l1 })

/-- The core of a tile. -/
def State.core (s : State) (t : Nat) : Core := (s.tile t).core

/-- An Orchard slice by the number of its tile. -/
def State.slice (s : State) (h : Nat) : Slice := s.slices.getD h {}

/-- Changes a slice. -/
def State.updSlice (s : State) (h : Nat) (f : Slice → Slice) : State :=
  { s with slices := s.slices.upd h {} f }

/-- A memory channel by its global number. -/
def State.chan (s : State) (c : Nat) : Chan := s.mem.chans.getD c {}

/-- Changes a memory channel. -/
def State.updChan (s : State) (c : Nat) (f : Chan → Chan) : State :=
  { s with mem := { s.mem with chans := s.mem.chans.upd c {} f } }

/-- A tenant by its function number. -/
def State.tenant (s : State) (f : Nat) : Tenant := s.tenants.getD f {}

/-- Changes a tenant. -/
def State.updTenant (s : State) (f : Nat) (g : Tenant → Tenant) : State :=
  { s with tenants := s.tenants.upd f {} g }

/-- How many tiles the part has (00 R1). -/
def Part.tiles : Part → Nat
  | .aq680 => 96 | .aq660 => 64 | .aq640 => 48

/-- How many mesh columns the part has (00 R1). -/
def Part.cols : Part → Nat
  | .aq680 => 12 | .aq660 => 8 | .aq640 => 8

/-- How many memory channels the part has (00 R1). -/
def Part.chans : Part → Nat
  | .aq680 => 32 | .aq660 => 16 | .aq640 => 16

/-- How many functions the part has (00 R1). -/
def Part.funcs : Part → Nat
  | .aq680 => 64 | .aq660 => 64 | .aq640 => 32

/-- How many compression channels the part has (00 R1). -/
def Part.cmpChans : Part → Nat
  | .aq680 => 16 | .aq660 => 16 | .aq640 => 8

/-- How many Bramble arrays the part has (00 R1). -/
def Part.brams : Part → Nat
  | .aq680 => 4 | _ => 0

/-- How many Krelor ports the part has (00 R1). -/
def Part.ports : Part → Nat
  | .aq640 => 0 | _ => 8

/-- The bits of a vector register (00 R1, 07 R194). -/
def Part.vbits : Part → Nat
  | .aq640 => 64 | _ => 128

/-- The tile exists and is enabled. -/
def State.tileOn (s : State) (t : Nat) : Bool := decide (t < s.part.tiles) && !s.tilesOff.contains t

/-- Draws a free value (log 1). -/
def State.free (s : State) : Word × State :=
  (Config.freeWord s.freeCtr, { s with freeCtr := s.freeCtr + 1 })

/-- The time in ticks. -/
def State.ticks (s : State) : Nat := s.now.toNat

/-- An MSI-X message of a vector is due: sent, or its PBA bit set while the vector or its function is masked (16 R483). -/
def State.signal (s : State) (f v : Nat) : State :=
  let k := f * 64 + v
  if s.host.unmasked.contains k && s.host.fnUnmasked.contains f then
    { s with host := { s.host with sent := k :: s.host.sent } }
  else if s.host.pba.contains k then s
  else { s with host := { s.host with pba := k :: s.host.pba } }

/-- Writes a new record to the error log (23 R679): the newest 4,096 are kept, class 3 and 4 go to the flash spill
too, and class 1 and above signals PF vector 1, at most once in 1,000 ticks. -/
def State.logNew (s : State) (r : ErrRec) : State :=
  let l := s.errlog
  let s1 : State := { s with errlog := { l with
    recs := (r :: l.recs).take 4096, nextSeq := l.nextSeq + 1,
    spill := if 3 ≤ r.cls then (r :: l.spill).take 64512 else l.spill } }
  let due : Bool := match l.signalled with | none => true | some k => decide (k + 1000 ≤ s.ticks)
  if decide (1 ≤ r.cls) && due then
    let s2 := s1.signal 0 1
    { s2 with errlog := { s2.errlog with signalled := some s.ticks } }
  else s1

/-- Whether an occurrence merges into a record: same event, class, function, unit and address, within 1 s (23 R679). -/
def ErrRec.merges (r q : ErrRec) : Bool :=
  r.event == q.event && r.cls == q.cls && r.func == q.func && r.ukind == q.ukind && r.unit == q.unit
    && r.addr == q.addr && decide (q.tick ≤ r.tick + 100000000)

/-- Appends an occurrence to the error log, or merges it into the record written just before (23 R679). -/
def State.log (s : State) (event cls func ukind unit status addr detail : Nat) : State :=
  let q : ErrRec := { seq := s.errlog.nextSeq, tick := s.ticks, event, cls, func, ukind, unit, status, count := 1, addr, detail }
  match s.errlog.recs with
  | r :: rest =>
    if r.merges q then { s with errlog := { s.errlog with recs := { r with count := r.count + 1 } :: rest } }
    else s.logNew q
  | [] => s.logNew q

end Sys2Proof.Machine
end

