-- ==== Sys2Proof/Machine/MemMap.lean ====
section
/-! DEFINITION. The device address map, the place of a line in the modules, and the line as the modules hold it
(11 R308 to R312, R319 to R326). -/

namespace Sys2Proof.Machine

/-- A memory module by number. -/
def State.module (s : State) (m : Nat) : Module := s.mem.modules.getD m {}

/-- The usable modules in increasing number (11 R308). -/
def State.usableModules (s : State) : List Nat := [0, 1, 2, 3].filter (fun m => (s.module m).usable)

/-- The modules of an interleave set (11 R308). -/
def State.setModules (s : State) (set : Nat) : List Nat :=
  match s.usableModules, set with
  | [a, b, _], 0 => [a, b]
  | [_, _, c], 1 => [c]
  | l, 0 => l
  | _, _ => []

/-- The capacity at which every usable module counts, in GiB: the smallest (11 R308). -/
def State.moduleGib (s : State) : Nat :=
  match s.usableModules.map (fun m => (s.module m).gib) with
  | [] => 0
  | g :: r => r.foldl Nat.min g

/-- The device address at which a set's space begins (11 R309). -/
def State.setBase (s : State) (set : Nat) : Nat :=
  if set = 0 then 0 else (s.setModules 0).length * s.moduleGib * 2 ^ 30

/-- The usable device memory in bytes (16 R481 MEM_TOTAL). -/
def State.memTotal (s : State) : Nat := s.usableModules.length * s.moduleGib * 2 ^ 30

/-- XOR of every w-bit field of v, from bit 0 upward (11 R310). -/
def foldXor : Nat → Nat → Nat → Nat
  | 0, _, _ => 0
  | k + 1, v, w => if w = 0 then 0 else (v % 2 ^ w) ^^^ foldXor k (v / 2 ^ w) w

/-- log2 of the number of modules in a set: 1, 2 or 4 (11 R310). -/
def log2m (m : Nat) : Nat := if m = 4 then 2 else if m = 2 then 1 else 0

/-- A place in set space: the set, the address in it, and for a guarded window the parity granule of its group. -/
structure Loc where
  set : Nat
  x : Nat
  guard : Option Nat
  deriving DecidableEq, Repr

/-- The window n of the capacity map, if it covers a device address: the place the address has (11 R309, R310, R324). -/
def State.winLoc (s : State) (n a : Nat) : Option Loc :=
  let lo := s.mem.mapLo.getD n 0
  let soff := field (s.mem.mapHi.getD n 0) 0 32
  let dbase := field lo 32 32 * 2 ^ 24
  let len := field lo 12 20
  let guarded := lo.getLsbD 2
  let span := len * (if guarded then 14 else 16) * 2 ^ 20
  if lo.getLsbD 0 && decide (dbase ≤ a) && decide (a < dbase + span) then
    let y := a - dbase
    let set := if lo.getLsbD 1 then 1 else 0
    if guarded then
      let gl := y / 256
      let u := soff * 2 ^ 24 / 2048 + gl / 7
      let j := gl % 7
      let p := u % 8
      let slot := if j < p then j else j + 1
      some { set, x := u * 2048 + slot * 256 + y % 256, guard := some p }
    else some { set, x := soff * 2 ^ 24 + y, guard := none }
  else none

/-- The place of a device address; none where no window covers it (11 R309, R312). -/
def State.locOf (s : State) (a : Nat) : Option Loc :=
  (List.range 32).findSome? (fun n => s.winLoc n a)

/-- The set-space line of a place. -/
def State.physOf (s : State) (l : Loc) : Nat := (s.setBase l.set + l.x) / 64

/-- Where a place lies: global channel, rank, bank, row, column in lines (11 R310, R311). -/
structure Geo where
  chan : Nat
  rank : Nat
  bank : Nat
  row : Nat
  col : Nat
  deriving DecidableEq, Repr

/-- Decodes a place in set space (11 R310, R311). -/
def State.geo (s : State) (set x : Nat) : Geo :=
  let mods := s.setModules set
  let m := mods.length
  let g := x / 256
  let u := g / 8
  let ch := (g % 8) ^^^ foldXor 64 u 3
  let mi := if 1 < m then foldXor 64 u (log2m m) else 0
  let v := u / 2 ^ log2m m
  let big := (s.module (mods.getD mi 0)).gib = 128
  let row := if big then v / 512 else v / 256
  { chan := 8 * mods.getD mi 0 + ch, rank := if big then v / 256 % 2 else 0,
    bank := (v / 16 % 16) ^^^ (row % 16), row, col := v % 16 * 4 + x / 64 % 4 }

/-- The TAG of a set-space line. -/
def State.tagOf (s : State) (p : Nat) : BitVec 2 := s.mem.tags.getD p 0

/-- The byte mask of the sub-channel halves of a line that lie on dies marked failed; both on a failed channel (11 R326;
23 R676). -/
def State.deadHalves (s : State) (set x : Nat) : BitVec 64 :=
  let g := s.geo set x
  let f := (s.chan g.chan).dieFail
  if (s.chan g.chan).failed then BitVec.allOnes 64 else
  (if f.getLsbD (2 * g.rank) then byteMask 0 32 else 0) ||| (if f.getLsbD (2 * g.rank + 1) then byteMask 32 32 else 0)

/-- The line and tag stored at a place. -/
def State.rawLine (s : State) (l : Loc) : Line × BitVec 2 :=
  let p := s.physOf l
  (Memory.readLine s.mem.cells p, s.tagOf p)

/-- The other places of a guarded place's group that hold the same line: six data granules and the parity (11 R324). -/
def Loc.peers (l : Loc) : List Loc :=
  let u := l.x / 2048
  let me := l.x / 256 % 8
  ((List.range 8).filter (fun k => k != me)).map (fun k => { l with x := u * 2048 + k * 256 + l.x % 256 })

/-- The parity place of a guarded place's group. -/
def Loc.parity (l : Loc) (p : Nat) : Loc := { l with x := l.x / 2048 * 2048 + p * 256 + l.x % 256 }

/-- Rebuilds the bytes that a mask names by XOR of the seven other granules; none where one of those is on a failed
die too (11 R325). -/
def State.rebuildLine (s : State) (l : Loc) (mask : BitVec 64) : Option (Line × BitVec 2) :=
  if l.peers.any (fun q => (s.deadHalves q.set q.x &&& mask) != 0) then none
  else
    let x := l.peers.foldl (fun acc q => (acc.1 ^^^ (s.rawLine q).1, acc.2 ^^^ (s.rawLine q).2)) ((0 : Line), (0 : BitVec 2))
    let own := s.rawLine l
    some (mergeLine own.1 x.1 mask, if mask = 0 then own.2 else x.2)

/-- A line as the controller returns it from a place: data, and whether it is marked Blot (11 R320 to R326). -/
def State.memLine (s : State) (l : Loc) : Line × Bool :=
  let dead := s.deadHalves l.set l.x
  let g := s.geo l.set l.x
  if (s.chan g.chan).badLines.contains (s.physOf l) then (0, true)
  else if dead = 0 then
    let r := s.rawLine l
    (if r.2 = 1 then 0 else r.1, r.2 == 1)
  else if l.guard.isSome then
    match s.rebuildLine l dead with
    | some r => (if r.2 = 1 then 0 else r.1, r.2 == 1)
    | none => (0, true)
  else (0, true)

/-- Stores a line and its tag at a place, leaving the halves on failed dies as they were (11 R320, R326). -/
def State.putRaw (s : State) (l : Loc) (d : Line) (tag : BitVec 2) : State :=
  let p := s.physOf l
  let dead := s.deadHalves l.set l.x
  let old := Memory.readLine s.mem.cells p
  let m := s.mem
  { s with mem := { m with cells := Memory.writeLine m.cells p (mergeLine d old dead),
                           tags := if tag = 0 then m.tags.erase p else m.tags.set p tag } }

/-- Writes a line at a place under a byte mask: a Blot write stores zero data with the Blot tag, a full-line write of
unmarked data clears the mark, a partial write keeps it; a guarded write keeps the parity (11 R320, R322, R325). -/
def State.memWriteLoc (s : State) (l : Loc) (d : Line) (mask : BitVec 64) (blot : Bool) : State :=
  let dead := s.deadHalves l.set l.x
  let old := match l.guard with
    | some _ => (s.rebuildLine l dead).getD (s.rawLine l)
    | none => s.rawLine l
  let full := mask = BitVec.allOnes 64
  let tag : BitVec 2 := if blot then 1 else if full then 0 else old.2
  let new : Line := if tag = 1 then 0 else mergeLine old.1 d mask
  let s1 := s.putRaw l new tag
  let s2 : State := match l.guard with
    | some p =>
      let q := l.parity p
      let par := s.rawLine q
      s1.putRaw q (par.1 ^^^ old.1 ^^^ new) (par.2 ^^^ old.2 ^^^ tag)
    | none => s1
  if full then s2.updChan (s.geo l.set l.x).chan (fun c => { c with badLines := c.badLines.filter (fun b => b != s.physOf l) })
  else s2

/-- Reads a device line from memory; a line no window covers is Blot (11 R312). -/
def State.memRead (s : State) (line : Nat) : Line × Bool :=
  match s.locOf (64 * line) with
  | some l => s.memLine l
  | none => (0, true)

/-- Writes a device line to memory; a write no window covers is discarded and logged (11 R312). -/
def State.memWrite (s : State) (line : Nat) (d : Line) (mask : BitVec 64) (blot : Bool) : State :=
  match s.locOf (64 * line) with
  | some l => s.memWriteLoc l d mask blot
  | none => s.log 0x22 1 0xFF 2 0 0 (64 * line) 0

end Sys2Proof.Machine
end

