-- ==== Sys2Proof/Machine/Orchard.lean ====
section
/-! DEFINITION. The Orchard slices: home selection, the data array, the directory, and the coherent value of a line
(10 R273 to R279, R291, R294, R295). A line number is address bits [55:6] with the space bit s in bit 50. -/

namespace Sys2Proof.Machine

/-- The line of host memory has the space bit (10 R273). -/
def isHostLine (line : Nat) : Bool := decide (2 ^ 50 ≤ line)

/-- The line number without the space bit (10 R275). -/
def lineA (line : Nat) : Nat := line % 2 ^ 50

/-- The line of a 64-bit address of space 0x00 or 0x01 (06 R158). -/
def lineOf (addr : Nat) : Nat := (if addr / 2 ^ 56 % 256 = 1 then 2 ^ 50 else 0) + addr % 2 ^ 56 / 64

/-- The enabled slices in increasing tile order (10 R276). -/
def State.slicesOn (s : State) : List Nat := (List.range s.part.tiles).filter (fun t => !s.slicesOff.contains t)

/-- Entry j of the home map (10 R276). -/
def State.homeEntry (s : State) (j : Nat) : Nat :=
  match s.homeMap.find? j with
  | some t => t
  | none => let on := s.slicesOn; on.getD (j % on.length) 0

/-- The home of a line (10 R275). -/
def State.homeOf (s : State) (line : Nat) : Nat :=
  let a := lineA line
  let x := (a ^^^ (a / 2 ^ 25)) % 2 ^ 32
  let f := x * 0x9E3779B1 % 2 ^ 32 / 2 ^ 16
  s.homeEntry (f * 768 / 2 ^ 16)

/-! ### The data array (10 R278) -/

/-- The way that holds a line in the data array, as key set × 16 + way. -/
def Slice.dataWay (sl : Slice) (line : Nat) : Option Nat :=
  let set := lineA line % 1024
  ((List.range 16).map (fun w => set * 16 + w)).find? (fun k => match sl.data.find? k with | some l => l.line == line | none => false)

/-- The data line of a line number. -/
def Slice.dataLine (sl : Slice) (line : Nat) : Option OLine := (sl.dataWay line).bind (fun k => sl.data.find? k)

/-- The way that the tree pseudo-LRU names: from the root, bit 0 goes to the lower half. -/
def plruVictim (b : BitVec 15) : Nat :=
  let n1 := if b.getLsbD 0 then 2 else 1
  let n2 := if b.getLsbD n1 then 2 * n1 + 2 else 2 * n1 + 1
  let n3 := if b.getLsbD n2 then 2 * n2 + 2 else 2 * n2 + 1
  2 * (n3 - 7) + (if b.getLsbD n3 then 1 else 0)

/-- The tree bits after an access to a way: every node on its path points away from it. -/
def plruTouch (b : BitVec 15) (w : Nat) : BitVec 15 :=
  let put (b : BitVec 15) (n : Nat) (right : Bool) : BitVec 15 := setField b n 1 (if right then 0 else 1)
  let r0 := w / 8 % 2 = 1
  let n1 := if r0 then 2 else 1
  let r1 := w / 4 % 2 = 1
  let n2 := if r1 then 2 * n1 + 2 else 2 * n1 + 1
  let r2 := w / 2 % 2 = 1
  let n3 := if r2 then 2 * n2 + 2 else 2 * n2 + 1
  put (put (put (put b 0 r0) n1 r1) n2 r2) n3 (w % 2 = 1)

/-- The first way of the line's data set that holds nothing. -/
def Slice.dataFree (sl : Slice) (line : Nat) : Option Nat :=
  let set := lineA line % 1024
  ((List.range 16).map (fun w => set * 16 + w)).find? (fun k => (sl.data.find? k).isNone)

/-- The way a fill of the line takes: an invalid way first, otherwise the pseudo-LRU way (10 R278). -/
def Slice.dataVictim (sl : Slice) (line : Nat) : Nat :=
  match sl.dataFree line with
  | some k => k
  | none => let set := lineA line % 1024; set * 16 + plruVictim (sl.plru.getD set 0)

/-- Marks a way as used in its set's pseudo-LRU. -/
def Slice.touch (sl : Slice) (k : Nat) : Slice :=
  { sl with plru := sl.plru.set (k / 16) (plruTouch (sl.plru.getD (k / 16) 0) (k % 16)) }

/-! ### Memory and host below the home -/

/-- Sets a bit of a bitmap in host memory by OR (20 R590, R591). -/
def State.setHostBit (s : State) (bmp i : Nat) : State :=
  let a := bmp + i / 8
  { s with hostMem := Memory.write s.hostMem a (Memory.read s.hostMem a ||| ((1 : Byte) <<< (i % 8))) }

/-- The offset of a device address in a list of extents. -/
def extentOffset : List Extent → Nat → Option Nat
  | [], _ => none
  | e :: r, a => if e.base ≤ a ∧ a < e.base + e.len then some (a - e.base) else (extentOffset r a).map (· + e.len)

/-- Sets a bit of a logging tenant's bitmap, counting it when it was 0 (18 R538; 20 R590, R591). -/
def State.logBit (s : State) (owner : Nat) (m : MigLog) (dev : Bool) (i : Nat) : State :=
  let bmp := if dev then m.devBmp else m.hostBmp
  let was := (Memory.read s.hostMem (bmp % 2 ^ 56 + i / 8)).getLsbD (i % 8)
  (s.setHostBit (bmp % 2 ^ 56) i).updTenant owner (fun x => { x with mig := some (
    if was then m else if dev then { m with devSet := m.devSet + 1 } else { m with hostSet := m.hostSet + 1 }) })

/-- Logs a write to a line for migration: the line's owner, while its logging runs (20 R590, R591). -/
def State.migLog (s : State) (owner line : Nat) : State :=
  match (s.tenant owner).mig with
  | none => s
  | some m =>
    let a := 64 * lineA line
    let b := m.hostBase % 2 ^ 56
    if isHostLine line then
      if b ≤ a ∧ a < b + m.hostLen then s.logBit owner m false ((a - b) / 4096) else s
    else match extentOffset (s.tenant owner).alloc a with
      | some o => s.logBit owner m true (o / 65536)
      | none => s

/-- The newest write of a line that a home has sent toward memory and memory has not yet stored. -/
def State.pendingWrite (s : State) (line : Nat) : Option (Line × Bool) :=
  (s.mem.reqs.reverse.find? (fun r => r.line == line && r.wr.isSome)).bind (fun r => r.wr.map (fun w => (w.1, w.2.2)))

/-- The value of a line below Orchard: a write on its way to memory, memory, or host memory. -/
def State.below (s : State) (line : Nat) : Line × Bool :=
  if isHostLine line then (Memory.readLine s.hostMem (lineA line), s.hostPoison.contains (lineA line))
  else match s.pendingWrite line with
    | some w => w
    | none => s.memRead line

/-- The global channel a device line lies on; channel 0 for an address no window covers. -/
def State.chanOf (s : State) (line : Nat) : Nat :=
  match s.locOf (64 * line) with
  | some l => (s.geo l.set l.x).chan
  | none => 0

/-- A home sends a memory request toward its channel (11 R313). -/
def State.postMem (s : State) (h line owner : Nat) (cls : MemCls) (wr : Option (Line × BitVec 64 × Bool)) : State :=
  let loc := s.locOf (64 * line)
  let r : MemReq := { chan := s.chanOf line, line, phys := loc.map s.physOf, guard := (loc.bind (·.guard)).isSome, wr, cls, home := h, owner }
  { s with mem := { s.mem with reqs := s.mem.reqs ++ [r] } }

/-- Stores a line in host memory, where the host sees it once its GO has come (16 R468). -/
def State.hostPut (s : State) (line : Nat) (d : Line) (blot : Bool) : State :=
  let a := lineA line
  { s with hostMem := Memory.writeLine s.hostMem a d,
           hostPoison := if blot then a :: s.hostPoison.filter (fun x => x != a) else s.hostPoison.filter (fun x => x != a),
           goPend := line :: s.goPend }

/-- A line leaves Orchard: a dirty device line is written to memory, a dirty host line to the host (DirtyEvict); a
clean line is dropped (10 R278, R299). -/
def State.evictData (s : State) (h : Nat) (o : OLine) : State :=
  if !o.dirty then s
  else if isHostLine o.line then (s.migLog o.owner o.line).hostPut o.line o.data o.blot
  else s.postMem h o.line o.owner .io (some (o.data, BitVec.allOnes 64, o.blot))

/-- Puts a line into its home's data array: in place when present, else into the fill way with its victim evicted
(10 R278). -/
def State.orcPut (s : State) (line owner : Nat) (d : Line) (dirty blot : Bool) : State :=
  let h := s.homeOf line
  let sl := s.slice h
  let o : OLine := { line, owner, dirty, blot, data := d }
  match sl.dataWay line with
  | some k => s.updSlice h (fun sl => ({ sl with data := sl.data.set k o }).touch k)
  | none =>
    let k := sl.dataVictim line
    let s1 := match sl.data.find? k with
      | some v => s.evictData h v
      | none => s
    s1.updSlice h (fun sl => ({ sl with data := sl.data.set k o }).touch k)

/-- Drops a line from its home's data array. -/
def State.orcDrop (s : State) (line : Nat) : State :=
  let h := s.homeOf line
  match (s.slice h).dataWay line with
  | some k => s.updSlice h (fun sl => { sl with data := sl.data.erase k })
  | none => s

/-- A home marks a line Blot: allocated in Orchard, marked Blot and dirty (10 R294). -/
def State.markBlot (s : State) (line owner : Nat) : State :=
  (s.orcPut line owner 0 true true).updSlice (s.homeOf line) (fun sl => { sl with blotCnt := sl.blotCnt + 1 })

/-- The line in Orchard, if present: data and Blot. An uncorrectable word makes it Blot (10 R278). -/
def State.orcGet (s : State) (line : Nat) : Option (Line × Bool) :=
  ((s.slice (s.homeOf line)).dataLine line).map (fun o => if o.blot then (0, true) else (o.data, false))

/-! ### The directory (10 R277, R291) -/

/-- The way that holds a line's directory entry, as key set × 16 + way. -/
def Slice.dirWay (sl : Slice) (line : Nat) : Option Nat :=
  let set := lineA line % 2048
  ((List.range 16).map (fun w => set * 16 + w)).find? (fun k => match sl.dir.find? k with | some e => e.line == line | none => false)

/-- The directory entry of a line. -/
def Slice.dirEntry (sl : Slice) (line : Nat) : Option DirEntry := (sl.dirWay line).bind (fun k => sl.dir.find? k)

/-- How many entries of the line's set are BUSY (10 R290). -/
def Slice.busyIn (sl : Slice) (line : Nat) : Nat :=
  let set := lineA line % 2048
  (sl.dir.filter (fun p => decide (p.1 / 16 = set) && p.2.busy)).length

/-- How many entries of the slice are BUSY (10 R302). -/
def Slice.busyAll (sl : Slice) : Nat := (sl.dir.filter (fun p => p.2.busy)).length

/-- The directory entry of a line at its home. -/
def State.dirEntry (s : State) (line : Nat) : Option DirEntry := (s.slice (s.homeOf line)).dirEntry line

/-- Stores an entry at a way. -/
def State.putDir (s : State) (h k : Nat) (e : DirEntry) : State := s.updSlice h (fun sl => { sl with dir := sl.dir.set k e })

/-- Frees a way. -/
def State.freeDir (s : State) (h k : Nat) : State := s.updSlice h (fun sl => { sl with dir := sl.dir.erase k })

/-- Changes the entry of a line, freeing it when it records nothing any more (10 R277: a line with no entry is N). -/
def State.updDir (s : State) (line : Nat) (f : DirEntry → DirEntry) : State :=
  let h := s.homeOf line
  match (s.slice h).dirWay line with
  | some k =>
    match (s.slice h).dir.find? k with
    | some e =>
      let e' := f e
      if e'.state == .n && !e'.busy && !e'.h then s.freeDir h k else s.putDir h k e'
    | none => s
  | none => s

/-- Removes a tile from a shared entry's pointers; LV falls when the leader goes; N when nobody is left (10 R284). -/
def DirEntry.dropSharer (e : DirEntry) (t : Nat) : DirEntry :=
  let lead := e.lv && e.ptrs.head? == some t
  let p := e.ptrs.filter (fun x => x != t)
  { e with ptrs := p, lv := e.lv && !lead, state := if p.isEmpty && !e.ovf then .n else e.state }

/-- Adds a tile to a shared entry; a fifth sharer sets OVF and records no pointer (10 R283). -/
def DirEntry.addSharer (e : DirEntry) (t : Nat) (leader : Bool) : DirEntry :=
  let p := e.ptrs.filter (fun x => x != t)
  if leader then
    { e with state := .sh, lv := true, ptrs := (t :: p).take 4, ovf := e.ovf || decide (4 ≤ p.length) }
  else if p.length < 4 then { e with state := .sh, ptrs := p ++ [t], lv := e.lv && e.ptrs.head? != some t }
  else { e with state := .sh, ovf := true }

/-- The tiles that an entry's INV goes to: the sharers or the holder, every enabled tile under OVF (10 R283, R291). -/
def State.invTargets (s : State) (e : DirEntry) (but : Option Nat) : List Nat :=
  let l := if e.ovf then (List.range s.part.tiles).filter (fun t => s.tileOn t) else e.ptrs
  l.filter (fun t => some t != but)

/-! ### First-level copies -/

/-- The key of the way that holds a line in L1D. -/
def L1.dWay (c : L1) (line : Nat) : Option Nat :=
  let set := line % 128
  ((List.range 8).map (fun w => set * 8 + w)).find? (fun k => match c.d.find? k with | some l => l.line == line && l.st != .i | none => false)

/-- The line a tile's L1D holds, in the array or in the one-line buffer of a disabled cache (09 R263). -/
def L1.dLine (c : L1) (line : Nat) : Option DLine :=
  match c.dWay line with
  | some k => c.d.find? k
  | none => c.dbuf.bind (fun b => if b.line = line ∧ b.st ≠ .i then some b else none)

/-- Changes the copy of a line wherever the L1D holds it. -/
def L1.updLine (c : L1) (line : Nat) (f : DLine → DLine) : L1 :=
  match c.dWay line with
  | some k => { c with d := c.d.map (fun p => if p.1 = k then (p.1, f p.2) else p) }
  | none => { c with dbuf := c.dbuf.map (fun b => if b.line = line then f b else b) }

/-- Whether a way of L1D is locked (09 R269). -/
def L1.dLocked (c : L1) (w : Nat) : Bool := c.lock.getLsbD w

/-- Whether a way of L1I is locked (09 R269). -/
def L1.iLocked (c : L1) (w : Nat) : Bool := c.lock.getLsbD (8 + w)

/-- Invalidates a line in L1D: a locked way keeps its tag with state I, reserved for the line (09 R259). -/
def L1.invalidate (c : L1) (line : Nat) : L1 :=
  match c.dWay line with
  | some k =>
    if c.dLocked (k % 8) then { c with d := c.d.map (fun p => if p.1 = k then (p.1, { p.2 with st := .i, st2 := .i }) else p) }
    else { c with d := c.d.erase k }
  | none => { c with dbuf := c.dbuf.bind (fun b => if b.line = line then none else some b) }

/-! ### The coherent value of a line -/

/-- Dirty data of a line that an L1D holds. -/
def State.l1Dirty (s : State) (line : Nat) : Option Line :=
  s.tiles.findSome? (fun p => (p.2.l1.dLine line).bind (fun l => if l.st = .d then some l.data else none))

/-- Dirty data of a line on its way between caches: in a message, or waiting at its requester or home. -/
def State.flightDirty (s : State) (line : Nat) : Option Line :=
  match s.tiles.findSome? (fun p => p.2.l1.reqs.findSome? (fun q => if q.line = line ∧ q.dirty then q.data else none)) with
  | some d => some d
  | none =>
    match s.net.findSome? (fun m => if m.line = line ∧ (m.kind = .wbdata ∨ m.kind = .fack ∨ m.kind = .data) ∧ m.dirty then m.data else none) with
    | some d => some d
    | none => (s.slice (s.homeOf line)).txns.findSome? (fun x => if x.msg.line = line then x.wb.map (·.1) else none)

/-- Dirty data of a line in the victim buffer of the tile that its home records as holder. -/
def State.victimDirty (s : State) (line : Nat) : Option Line :=
  match s.dirEntry line with
  | some e =>
    if e.state = .ex then
      (e.ptrs.head?).bind (fun t => ((s.tile t).l1.vbuf.find? (fun v => v.line == line && v.st == .d)).map (·.data))
    else none
  | none => none

/-- The current value of a line and its Blot mark, as a read ordered at its home returns it (10 R279, R294; 05 R133). -/
def State.cohRead (s : State) (line : Nat) : Line × Bool :=
  match s.l1Dirty line with
  | some d => (d, false)
  | none => match s.flightDirty line with
    | some d => (d, false)
    | none => match s.victimDirty line with
      | some d => (d, false)
      | none => match s.orcGet line with
        | some r => r
        | none => s.below line

/-- Whether a transaction on the line is open at its home. -/
def State.lineBusy (s : State) (line : Nat) : Bool := (s.slice (s.homeOf line)).txns.any (fun x => x.msg.line == line)

/-- Writes new data into every copy of a line that exists anywhere: the value of a line with an open transaction
after an engine's write ordered before it (log 14). -/
def State.patchLine (s : State) (line : Nat) (d : Line) (mask : BitVec 64) : State :=
  let mg (o : Line) : Line := mergeLine o d mask
  let h := s.homeOf line
  { s with
    tiles := s.tiles.map (fun p => (p.1, { p.2 with l1 := { (p.2.l1.updLine line (fun l => { l with data := mg l.data })) with
      vbuf := p.2.l1.vbuf.map (fun v => if v.line = line then { v with data := mg v.data } else v),
      reqs := p.2.l1.reqs.map (fun q => if q.line = line then { q with data := q.data.map mg } else q) } })),
    net := s.net.map (fun m => if m.line = line then { m with data := m.data.map mg } else m),
    slices := s.slices.upd h {} (fun sl => { sl with
      data := sl.data.map (fun p => if p.2.line = line then (p.1, { p.2 with data := mg p.2.data }) else p),
      txns := sl.txns.map (fun x => if x.msg.line = line then
        { x with wb := x.wb.map (fun w => (mg w.1, w.2)), fill := x.fill.map (fun w => (mg w.1, w.2)) } else x) }) }

/-- Writes a line below Orchard at once. -/
def State.putBelow (s : State) (line : Nat) (d : Line) (mask : BitVec 64) (blot : Bool) : State :=
  if isHostLine line then s.hostPut line (mergeLine (s.below line).1 d mask) (blot || ((s.below line).2 && mask != BitVec.allOnes 64))
  else
    let s1 : State := { s with mem := { s.mem with reqs := s.mem.reqs.map (fun r =>
      if r.line = line then { r with wr := r.wr.map (fun w => (mergeLine w.1 d mask, w.2.1, if mask = BitVec.allOnes 64 then blot else w.2.2 || blot)) } else r) } }
    s1.memWrite line d mask blot

/-- An IO-class write of a line as one step: holders are invalidated, the data merged under the mask and written to
Orchard if present (or if IO_WALLOC is set), else to memory or the host; a full-line write clears Blot, a partial one
keeps it (10 R283 IO_WR, R295, R299; 20 R591 for the migration log). -/
def State.cohWrite (s : State) (owner line : Nat) (d : Line) (mask : BitVec 64) (blot : Bool) : State :=
  let s0 := s.migLog owner line
  let cur := s0.cohRead line
  let full := mask = BitVec.allOnes 64
  let newBlot := if full then blot else blot || cur.2
  let new : Line := if newBlot then 0 else mergeLine cur.1 d mask
  if s0.lineBusy line then (s0.patchLine line d mask).putBelow line d mask blot
  else
    let h := s0.homeOf line
    let s1 : State := { s0 with tiles := s0.tiles.map (fun p => (p.1, { p.2 with l1 := p.2.l1.invalidate line })) }
    let s2 := s1.updDir line (fun e => { e with state := .n, ptrs := [], ovf := false, lv := false, h := false })
    let inOrc := ((s2.slice h).dataWay line).isSome
    let s3 := if inOrc || ((s2.slice h).ctl.getLsbD 0 && !isHostLine line) then s2.orcPut line owner new (!isHostLine line) newBlot
      else s2
    let s4 := if isHostLine line || !(inOrc || (s2.slice h).ctl.getLsbD 0) then
        s3.putBelow line new (BitVec.allOnes 64) newBlot
      else s3
    if newBlot && !cur.2 then s4.updSlice h (fun sl => { sl with blotCnt := sl.blotCnt + 1 }) else s4

/-! ### Byte ranges through the homes -/

/-- Reads k lines from a line number, with whether any is Blot. -/
def State.cohLines (s : State) : Nat → Nat → List Line × Bool
  | _, 0 => ([], false)
  | l, k + 1 =>
    let a := s.cohRead l
    let r := s.cohLines (l + 1) k
    (a.1 :: r.1, a.2 || r.2)

/-- Reads n bytes at a 64-bit address of space 0x00 or 0x01, with whether any line read is Blot. -/
def State.readBytes (s : State) (addr n : Nat) : List Byte × Bool :=
  if n = 0 then ([], false)
  else
    let o := addr % 64
    let r := s.cohLines (lineOf addr) ((o + n + 63) / 64)
    (((r.1.flatMap lineBytes).drop o).take n, r.2)

/-- Writes a byte list from a line and an offset in it, line by line. The first argument bounds the lines. -/
def State.writeLines (s : State) (owner : Nat) : Nat → Nat → Nat → List Byte → State
  | 0, _, _, _ => s
  | k + 1, line, o, bs =>
    match bs with
    | [] => s
    | _ =>
      let here := bs.take (64 - o)
      let d := bytesLine (zeros o ++ here)
      (s.cohWrite owner line d (byteMask o here.length) false).writeLines owner k (line + 1) 0 (bs.drop (64 - o))

/-- Writes a byte list at a 64-bit address of space 0x00 or 0x01 for an owner. -/
def State.writeBytes (s : State) (owner addr : Nat) (bs : List Byte) : State :=
  s.writeLines owner (bs.length / 64 + 2) (lineOf addr) (addr % 64) bs

end Sys2Proof.Machine
end

