-- ==== Sys2Proof/Machine/Regions.lean ====
section
/-! DEFINITION. What every engine shares: the region check of a function, overlap of ranges, status records, event
pulses (06 R159; 20 R582; 12 R340; 01 R17). -/

namespace Sys2Proof.Machine

/-- A range lies in one allocation extent of the function, each of which grants R, W and X (20 R582). -/
def Tenant.inAlloc (x : Tenant) (a n : Nat) : Bool := x.alloc.any (fun e => decide (e.base ≤ a ∧ a + n ≤ e.base + e.len))

/-- A range of host memory lies in one valid host region that grants the need: bit 0 read, bit 1 write (20 R582, R603). -/
def Tenant.inHost (x : Tenant) (a n need : Nat) : Bool :=
  x.hrgnLo.any (fun p =>
    let lo := p.2
    let hi := x.hrgnHi.getD p.1 0
    lo.getLsbD 3 && decide (field lo 12 44 * 4096 ≤ a) && decide (a + n ≤ field hi 12 44 * 4096 + 4096)
      && (need % 2 == 0 || lo.getLsbD 0) && (need / 2 % 2 == 0 || lo.getLsbD 1) && need / 4 % 2 == 0)

/-- The region check of a function for n bytes at a 64-bit address: need is 1 R, 2 W, 3 both (06 R159, 20 R582). -/
def State.rangeOk (s : State) (f addr n need : Nat) : Bool :=
  if n = 0 then true
  else match addr / 2 ^ 56 with
    | 0 => (s.tenant f).inAlloc addr n
    | 1 => (s.tenant f).inHost (addr % 2 ^ 56) n need
    | _ => false

/-- Two ranges share a byte. -/
def overlaps (p q : Nat × Nat) : Bool := decide (p.1 < q.1 + q.2) && decide (q.1 < p.1 + p.2)

/-- Some two ranges of a list share a byte. -/
def anyOverlap : List (Nat × Nat) → Bool
  | [] => false
  | r :: l => l.any (overlaps r) || anyOverlap l

/-- The dispatch epoch of a function (08 R222). -/
def State.epochOf (s : State) (f : Nat) : BitVec 8 := (s.tenant f).disp.epoch

/-- Sends an event pulse. -/
def State.pulse (s : State) (f : Nat) (trig : Bool) (idx : Nat) (epoch : BitVec 8) : State :=
  { s with pulses := s.pulses ++ [{ f, trig, idx, epoch }] }

/-- k free words as bytes, and the state after drawing them (log 1). -/
def State.freeBytes (s : State) (k : Nat) : List Byte × State :=
  ((List.range k).flatMap (fun i => leBytes 8 (Config.freeWord (s.freeCtr + i)).toNat), { s with freeCtr := s.freeCtr + k })

/-- A free number at most k (log 1). -/
def State.freeUpTo (s : State) (k : Nat) : Nat × State := let r := s.free; (r.1.toNat % (k + 1), r.2)

/-- The function that a rotation over 64 functions serves next: the first after the last one that has an entry. -/
def nextFunc (last : Nat) (has : Nat → Bool) : Option Nat := ((List.range 64).map (fun i => (last + 1 + i) % 64)).find? has

/-- The oldest element that a test selects, and the rest of the list. -/
def pickFirst {α : Type} (p : α → Bool) : List α → Option (α × List α)
  | [] => none
  | x :: r => if p x then some (x, r) else (pickFirst p r).map (fun q => (q.1, x :: q.2))

/-- A device address of memory that no window covers (11 R312). -/
def State.unmapped (s : State) (addr : Nat) : Bool := decide (addr / 2 ^ 56 = 0) && (s.locOf (addr / 64 * 64)).isNone

end Sys2Proof.Machine
end

