-- ==== Sys2Proof/Machine/Works.lean ====
section
/-! DEFINITION. Fetched ring commands and how they complete: results, batches, completion entries (17 R487 to R497). -/

namespace Sys2Proof.Machine

/-- Changes a fetched command. -/
def State.updWork (s : State) (w : Nat) (g : Work → Work) : State :=
  { s with works := s.works.map (fun p => if p.1 = w then (p.1, g p.2) else p) }

/-- A queue pair of a function. -/
def State.pair (s : State) (f q : Nat) : Option QPair := (s.tenant f).pairs.find? q

/-- Changes a queue pair. -/
def State.updPair (s : State) (f q : Nat) (g : QPair → QPair) : State :=
  s.updTenant f (fun x => { x with pairs := x.pairs.map (fun p => if p.1 = q then (p.1, g p.2) else p) })

/-- Fields of a submission entry (17 R487). -/
def Work.opcode (w : Work) : Nat := getLE w.raw 0 1
def Work.flags (w : Work) : Nat := getLE w.raw 1 1
def Work.ordered (w : Work) : Bool := w.flags % 2 == 1
def Work.batch (w : Work) : Bool := w.flags / 2 % 2 == 1
def Work.ind (w : Work) : Bool := w.flags / 4 % 2 == 1
def Work.nocpl (w : Work) : Bool := w.flags / 8 % 2 == 1
def Work.noirq (w : Work) : Bool := w.flags / 16 % 2 == 1
def Work.gen (w : Work) : Nat := getLE w.raw 2 1
def Work.tag (w : Work) : Nat := getLE w.raw 4 2
def Work.prio (w : Work) : Nat := getLE w.raw 6 1

/-- CFLAGS without OWN (17 R493). -/
def cflagsOf (long part res batchErr : Bool) : Nat :=
  (if long then 1 else 0) + (if part then 2 else 0) + (if res then 4 else 0) + (if batchErr then 8 else 0)

/-- The completion of a command alone (17 R493). -/
def Work.completion (w : Work) (r : WorkResult) : Cpl :=
  { tag := w.tag, status := r.status, disp := w.disp, cflags := cflagsOf (r.long || w.long) r.partial_ r.resumable false,
    count := 1, qtime := min w.qtime 0xFFFFFFFF, info := min r.info 0xFFFFFFFF, noirq := w.noirq }

/-- A command ended SERVED or DELAYED with SUCCESS. -/
def Work.good (w : Work) : Bool := decide (w.disp ≤ 1) && (match w.result with | some r => r.status == 0 | none => false)

/-- The completion of a batch whose members have all ended (17 R496). -/
def batchCompletion (ms : List Work) : Option Cpl :=
  match ms.getLast? with
  | none => none
  | some l =>
    let long := ms.any (fun w => w.long || (w.result.map (·.long)).getD false)
    let qtime := ms.foldl (fun a w => max a w.qtime) 0
    let count := ms.length
    let base : Cpl := { tag := l.tag, status := 0, disp := l.disp, cflags := cflagsOf long false false false, count,
                        qtime := min qtime 0xFFFFFFFF, info := min ((l.result.map (·.info)).getD 0) 0xFFFFFFFF, noirq := l.noirq }
    match ms.findIdx? (fun w => !w.good) with
    | none => some { base with
        cflags := cflagsOf long false ((l.result.map (·.resumable)).getD false) false }
    | some i => match ms[i]? with
      | none => none
      | some w =>
        let r := w.result.getD { status := 0 }
        some { base with
          status := r.status, disp := w.disp, cflags := cflagsOf long r.partial_ r.resumable true, info := i }

/-- Nobody waits for the completions of these commands any more (17 R503). -/
def State.unwaitFor (s : State) (ids : List Nat) : State :=
  { s with works := s.works.map (fun p => (p.1, { p.2 with waitOn := p.2.waitOn.filter (fun k => !ids.contains k) })) }

/-- A QUERY_RUN that was admitted. -/
def Work.isRun (w : Work) : Bool := w.opcode == 1 && decide (w.disp ≤ 1)

/-- The image a QUERY_RUN names (17 R502). -/
def Work.imageOf (w : Work) : Nat := getLE w.raw 8 1

/-- The commands of one completion have all ended, and leave: their completion joins those to be written, or is discarded
and counted: of an old generation, or of a pair that is being deleted and not of a query (17 R493, R496; 18 R539; 20 R602). -/
def State.formCpl (s : State) (f q : Nat) (ids : List Nat) (k : Option Cpl) : State :=
  let ws := ids.filterMap (fun m => s.works.find? m)
  let s1 : State := { s with works := s.works.filter (fun p => !ids.contains p.1) }
  match s.pair f q, k with
  | some x, some k =>
    if ws.any (·.silent) then
      (s1.updTenant f (fun t => { t with genDiscard := if t.ent.compat then t.genDiscard + 1 else t.genDiscard })).unwaitFor ids
    else match x.deleting, ws.all Work.isRun with
      | some n, false => (s1.updPair f q (fun x => { x with deleting := some (n + 1) })).unwaitFor ids
      | _, _ => s1.updPair f q (fun x => { x with
          waiting := x.waiting ++ [{ k with covers := ids, runs := (ws.filter Work.isRun).map Work.imageOf }] })
  | _, _ => s1.unwaitFor ids

/-- Forms the completions that are due on a pair: every closed batch whose members have all ended (17 R496). -/
def State.formBatches (s : State) (f q : Nat) : State :=
  match s.pair f q with
  | none => s
  | some x =>
    let done (ms : List Nat) : Bool := ms.all (fun m => match s.works.find? m with | some w => w.result.isSome | none => true)
    let s1 := s.updPair f q (fun x => { x with batches := x.batches.filter (fun ms => !done ms) })
    (x.batches.filter done).foldl (fun (s : State) ms => s.formCpl f q ms (batchCompletion (ms.filterMap (fun m => s.works.find? m)))) s1

/-- Closes the open batch of a pair (17 R496). -/
def State.closeBatch (s : State) (f q : Nat) : State :=
  match s.pair f q with
  | none => s
  | some x => if x.batch = [] then s
    else (s.updPair f q (fun x => { x with batches := x.batches ++ [x.batch], batch := [] })).formBatches f q

/-- A command ends: its result is recorded, its work-area slot and its flag freed, and a completion formed alone or with
its batch (17 R493, R496; 19 R565). -/
def State.endOne (s : State) (w : Nat) (r : WorkResult) : State :=
  match s.works.find? w with
  | none => s
  | some x =>
    if x.result.isSome then s
    else
      let r : WorkResult := if x.stopped && r.status == 0x0302 then { r with status := 0x0301, resumable := false } else r
      let s1 := s.updPair x.f x.q (fun q => { q with slots := q.slots.filter (fun k => k.2 != w) })
      let m : Word := match x.flag with | some i => (1 : Word) <<< i | none => 0
      let s2 := (s1.updTenant x.f (fun t => { t with disp := { t.disp with allocd := t.disp.allocd &&& ~~~m, flags := t.disp.flags &&& ~~~m } })).updWork w
        (fun x => { x with stage := .ended, result := some r, flag := none })
      let inBatch : Bool := match s2.pair x.f x.q with
        | some p => p.batch.contains w || p.batches.any (fun b => b.contains w)
        | none => false
      if inBatch then s2.formBatches x.f x.q else s2.formCpl x.f x.q [w] (some (x.completion r))

/-- A QUERY_CANCEL that runs and waits for no completion any more. -/
def Work.cancelDue (w : Work) : Bool := w.opcode == 2 && w.stage == .running && w.waitOn == []

/-- Ends the QUERY_CANCELs whose queries' completions are all behind; the first argument bounds them (17 R503). -/
def State.settleCancels (s : State) : Nat → State
  | 0 => s
  | n + 1 => match List.find? (fun (p : Nat × Work) => p.2.cancelDue) s.works with
    | none => s
    | some (w, x) => (s.endOne w { status := 0, info := x.cancelled }).settleCancels n

/-- A command ends, and with it the QUERY_CANCELs that this lets end. -/
def State.workDone (s : State) (w : Nat) (r : WorkResult) : State := (s.endOne w r).settleCancels s.works.length

/-- The message of a pair is due after a completion: sent, or held back by the coalescing interval (17 R495). -/
def State.pairMessage (s : State) (f q : Nat) : State :=
  match s.pair f q with
  | none => s
  | some x =>
    let held : Bool := match x.lastMsg with | some k => decide (s.ticks < k + x.coalesce) | none => false
    if held then s.updPair f q (fun x => { x with msgHeld := true })
    else (s.updPair f q (fun x => { x with msgHeld := false, lastMsg := some s.ticks })).signal f x.vector

/-- The 16 B of a completion with OWN 0. -/
def Cpl.bytes (k : Cpl) : List Byte :=
  leBytes 2 k.tag ++ leBytes 2 k.status ++ leBytes 1 k.disp ++ leBytes 1 k.cflags ++ leBytes 2 k.count ++ leBytes 4 k.qtime ++ leBytes 4 k.info

/-- Writes the oldest waiting completion of a pair when its slot belongs to the device, and sends its message
(17 R494, R495). -/
def State.writeCompletion (s : State) (f q : Nat) : State :=
  match s.pair f q with
  | none => s
  | some x => match x.waiting with
    | [] => s
    | k :: rest =>
      let a := x.cqBase + 16 * (x.t % x.cqN)
      if getLE (s.readBytes (a + 5) 1).1 0 1 < 128 then s
      else
        let s1 := (s.writeBytes f a k.bytes).updPair f q (fun x => { x with t := x.t + 1, waiting := rest })
        let s2 := if k.noirq then s1 else s1.pairMessage f q
        (s2.unwaitFor k.covers).settleCancels s2.works.length

/-- Writes waiting completions while their slots allow it; the first argument bounds their number. -/
def State.drainCompletions (s : State) (f q : Nat) : Nat → State
  | 0 => s
  | k + 1 =>
    let s1 := s.writeCompletion f q
    if (s1.pair f q).map (·.t) = (s.pair f q).map (·.t) then s else s1.drainCompletions f q k

end Sys2Proof.Machine
end

