-- ==== Sys2Proof/Machine/Alloc.lean ====
section
/-! DEFINITION. The tenant's allocation: offsets and addresses, and where the device places what it keeps there
(20 R580, R581; log 20). -/

namespace Sys2Proof.Machine

/-- The device address of an allocation offset (20 R580). -/
def offsetAddr : List Extent → Nat → Option Nat
  | [], _ => none
  | e :: r, o => if o < e.len then some (e.base + o) else offsetAddr r (o - e.len)

/-- The bytes of an allocation. -/
def allocLen (l : List Extent) : Nat := l.foldl (fun a e => a + e.len) 0

/-- A range is free: inside one extent, above the column directory (20 R581), and apart from everything placed. -/
def Tenant.freeRange (x : Tenant) (a n : Nat) : Bool :=
  x.alloc.any (fun e => decide (e.base ≤ a ∧ a + n ≤ e.base + e.len))
    && (match extentOffset x.alloc a with | some o => decide (0x400000 ≤ o) | none => false)
    && !x.used.any (fun u => overlaps (u.base, u.len) (a, n))

/-- A number rounded up to a multiple. -/
def roundUp (n k : Nat) : Nat := (n + k - 1) / k * k

/-- Places n bytes at a multiple of k: where the free choice falls when that is free, else at the lowest free place that
begins an extent or follows something placed; none where there is no such place (log 20). -/
def State.place (s : State) (f n k : Nat) : Option (Nat × State) :=
  let x := s.tenant f
  let r := s.free
  let pick := (offsetAddr x.alloc (r.1.toNat % max 1 (allocLen x.alloc))).map (fun a => a / k * k)
  let spots := pick.toList ++ (x.alloc.map (fun e => roundUp e.base k)) ++ (x.alloc.map (fun e => roundUp (e.base + 0x400000) k))
    ++ (x.used.map (fun u => roundUp (u.base + u.len) k))
  match spots.find? (fun a => x.freeRange a n) with
  | none => none
  | some a => some (a, r.2.updTenant f (fun x => { x with used := { base := a, len := n } :: x.used }))

/-- What stood at an address returns to the allocation. -/
def State.unplace (s : State) (f a : Nat) : State :=
  s.updTenant f (fun x => { x with used := x.used.filter (fun u => u.base != a) })

/-- The descriptors of the tasks of a tenant that run now. -/
def State.runningTasks (s : State) (f : Nat) : List Nat :=
  s.tiles.filterMap (fun p => p.2.task.bind (fun r => if r.f = f then some r.desc else none))

/-- What stood at an address returns once every task that runs now has ended (02 R45). -/
def State.retire (s : State) (f a : Nat) : State :=
  let run := s.runningTasks f
  s.updTenant f (fun x => { x with
    retired := (x.used.filter (fun u => u.base == a)).map (fun u => (u, run)) ++ x.retired })

/-- A task has ended: it holds back no extent any more (02 R45). -/
def State.releaseHold (s : State) (f d : Nat) : State :=
  s.updTenant f (fun x => { x with retired := x.retired.map (fun p => (p.1, p.2.filter (fun k => k != d))) })

/-- EXTENT_RETURN: the retired extents that no task holds back return to the allocation (02 R45). -/
def execExtentReturn (f : Nat) (s : State) : Host.Outcome State Fault Refusal :=
  .next (
    let due := ((s.tenant f).retired.filter (fun p => p.2.isEmpty)).map (·.1)
    s.updTenant f (fun x => { x with
      used := x.used.filter (fun u => !due.contains u), retired := x.retired.filter (fun p => !p.2.isEmpty) }))

end Sys2Proof.Machine
end

