-- ==== Sys2Proof/Machine/Float.lean ====
section
/-! DEFINITION. IEEE 754 binary32 and binary64 as the ingest and the aggregates use them (02 R34, R35, R49, R711; 05 R135). -/

namespace Sys2Proof.Machine

/-- A format: exponent bits and fraction bits. -/
structure Fmt where
  eb : Nat
  mb : Nat
  deriving DecidableEq, Repr

/-- binary32. -/
def fmt32 : Fmt := { eb := 8, mb := 23 }
/-- binary64. -/
def fmt64 : Fmt := { eb := 11, mb := 52 }

/-- The format of a width in bits. -/
def fmtOf (w : Nat) : Fmt := if w = 32 then fmt32 else fmt64

/-- The sign bit of bits. -/
def Fmt.neg (f : Fmt) (b : Nat) : Bool := b / 2 ^ (f.eb + f.mb) % 2 == 1
/-- The exponent field. -/
def Fmt.exp (f : Fmt) (b : Nat) : Nat := b / 2 ^ f.mb % 2 ^ f.eb
/-- The fraction field. -/
def Fmt.frac (f : Fmt) (b : Nat) : Nat := b % 2 ^ f.mb
/-- The bits are a NaN. -/
def Fmt.isNan (f : Fmt) (b : Nat) : Bool := f.exp b == 2 ^ f.eb - 1 && f.frac b != 0
/-- The bits are an infinity. -/
def Fmt.isInf (f : Fmt) (b : Nat) : Bool := f.exp b == 2 ^ f.eb - 1 && f.frac b == 0
/-- The bits of an infinity. -/
def Fmt.inf (f : Fmt) (neg : Bool) : Nat := (if neg then 2 ^ (f.eb + f.mb) else 0) + (2 ^ f.eb - 1) * 2 ^ f.mb
/-- The canonical quiet NaN (02 R35). -/
def Fmt.nan (f : Fmt) : Nat := (2 ^ f.eb - 1) * 2 ^ f.mb + 2 ^ (f.mb - 1)
/-- The exponent bias. -/
def Fmt.bias (f : Fmt) : Int := ((2 ^ (f.eb - 1) - 1 : Nat) : Int)

/-- A finite value as a whole mantissa and an exponent of two. -/
def Fmt.parts (f : Fmt) (b : Nat) : Nat × Int :=
  if f.exp b = 0 then (f.frac b, 1 - f.bias - f.mb) else (f.frac b + 2 ^ f.mb, (f.exp b : Int) - f.bias - f.mb)

/-- The bits of m × 2^e, rounded to nearest with ties to even; too large a magnitude is an infinity. -/
def Fmt.round (f : Fmt) (neg : Bool) (m : Nat) (e : Int) : Nat :=
  let sgn := if neg then 2 ^ (f.eb + f.mb) else 0
  if m = 0 then sgn
  else
    let top : Int := e + (Nat.log2 m : Int)
    let lsb : Int := max (top - f.mb) (1 - f.bias - f.mb)
    let sh := lsb - e
    let q := if sh ≤ 0 then m * 2 ^ (-sh).toNat
      else
        let d := 2 ^ sh.toNat
        let r := m % d
        m / d + (if d < 2 * r ∨ (2 * r = d ∧ m / d % 2 = 1) then 1 else 0)
    if q < 2 ^ f.mb then sgn + q
    else
      let bits := (lsb + f.mb + f.bias).toNat * 2 ^ f.mb + (q - 2 ^ f.mb)
      if (2 ^ f.eb - 1) * 2 ^ f.mb ≤ bits then f.inf neg else sgn + bits

/-- R35: −0.0 becomes +0.0, every NaN the canonical one. -/
def Fmt.canon (f : Fmt) (b : Nat) : Nat :=
  if f.isNan b then f.nan else if b = 2 ^ (f.eb + f.mb) then 0 else b

/-- A value of one format in another; a NaN becomes the canonical one. -/
def Fmt.convert (f g : Fmt) (b : Nat) : Nat :=
  if f.isNan b then g.nan else if f.isInf b then g.inf (f.neg b)
  else let p := f.parts b; g.round (f.neg b) p.1 p.2

/-- The sum of two binary64 values, rounded to nearest even (05 R135). -/
def fadd64 (a b : Word) : Word :=
  let f := fmt64
  let x := a.toNat
  let y := b.toNat
  if f.isNan x || f.isNan y || (f.isInf x && f.isInf y && f.neg x != f.neg y) then Config.nanSum a b ||| 0x7FF8000000000000
  else if f.isInf x then a
  else if f.isInf y then b
  else
    let (mx, ex) := f.parts x
    let (my, ey) := f.parts y
    let e := min ex ey
    let ix : Int := (if f.neg x then -1 else 1) * ((mx * 2 ^ (ex - e).toNat : Nat) : Int)
    let iy : Int := (if f.neg y then -1 else 1) * ((my * 2 ^ (ey - e).toNat : Nat) : Int)
    let t := ix + iy
    if t = 0 then (if f.neg x && f.neg y then a &&& 0x8000000000000000 else 0)
    else BitVec.ofNat 64 (f.round (decide (t < 0)) t.natAbs e)

end Sys2Proof.Machine
end

