-- ==== Sys2Proof/Machine/Crc.lean ====
section
/-! DEFINITION. The cyclic checks: CRC-32C, CRC-64/XZ, CRC-16/CCITT-FALSE. -/

namespace Sys2Proof.Machine

/-- k steps of a reflected CRC register. -/
def crcSteps (poly : Nat) : Nat → Nat → Nat
  | 0, c => c
  | k + 1, c => crcSteps poly k (if c % 2 = 1 then (c / 2) ^^^ poly else c / 2)

/-- A reflected CRC over bytes, least significant bit first. -/
def crcRefl (poly : Nat) (init : Nat) (b : List Byte) : Nat :=
  b.foldl (fun c x => crcSteps poly 8 (c ^^^ x.toNat)) init

/-- CRC-32C: polynomial 0x1EDC6F41, reflected, initial and final all ones (02 R25, 04, 12, 21). -/
def crc32c (b : List Byte) : Nat := crcRefl 0x82F63B78 0xFFFFFFFF b ^^^ 0xFFFFFFFF

/-- k steps of a CRC-16 register, most significant bit first. -/
def crc16Steps : Nat → Nat → Nat
  | 0, c => c
  | k + 1, c => crc16Steps k (if 0x8000 ≤ c then (c * 2 % 0x10000) ^^^ 0x1021 else c * 2)

/-- CRC-16/CCITT-FALSE: polynomial 0x1021, initial 0xFFFF, not reflected (15, 24). -/
def crc16 (b : List Byte) : Nat := b.foldl (fun c x => crc16Steps 8 (c ^^^ (x.toNat * 256))) 0xFFFF

/-- The final value of CRC-64/XZ for a running register. -/
def crc64xz (b : List Byte) : Nat := crcRefl 0xC96C5795D7870F42 0xFFFFFFFFFFFFFFFF b ^^^ 0xFFFFFFFFFFFFFFFF

end Sys2Proof.Machine
end

