-- ==== Sys2Proof/Machine/Aes.lean ====
section
/-! DEFINITION. AES-256-GCM, which seals the HMAC contexts and the update images (19 R567, 21 R630). -/

namespace Sys2Proof.Machine

/-- Multiplication by x in the field of AES. -/
def aesXt (b : Nat) : Nat := if 128 ≤ b then (2 * b % 256) ^^^ 0x1B else 2 * b

/-- Multiplication in the field of AES; the first argument counts the bits of b. -/
def aesMul : Nat → Nat → Nat → Nat
  | 0, _, _ => 0
  | k + 1, a, b => (if b % 2 = 1 then a else 0) ^^^ aesMul k (aesXt a) (b / 2)

/-- Repeated squaring and multiplying for the inverse a^254. -/
def aesInv (a : Nat) : Nat :=
  let sq (x : Nat) : Nat := aesMul 8 x x
  let a2 := sq a
  let a4 := sq a2
  let a8 := sq a4
  let a16 := sq a8
  let a32 := sq a16
  let a64 := sq a32
  let a128 := sq a64
  aesMul 8 a128 (aesMul 8 a64 (aesMul 8 a32 (aesMul 8 a16 (aesMul 8 a8 (aesMul 8 a4 a2)))))

/-- The substitution of a byte: inverse, then the affine map. -/
def aesSub (a : Nat) : Nat :=
  let x := aesInv a
  let r (k : Nat) : Nat := (x * 2 ^ k % 256) ||| (x / 2 ^ (8 - k))
  x ^^^ r 1 ^^^ r 2 ^^^ r 3 ^^^ r 4 ^^^ 0x63

/-- XOR of byte lists. -/
def xorBytes (a b : List Nat) : List Nat := List.zipWith (· ^^^ ·) a b

/-- Words of the AES-256 key schedule, newest first, extended by k words; the last two arguments are the index and Rcon. -/
def aesExpand : Nat → List (List Nat) → Nat → Nat → List (List Nat)
  | 0, w, _, _ => w
  | k + 1, w, i, rc =>
    let last := w.getD 0 []
    let old := w.getD 7 []
    let t := if i % 8 = 0 then xorBytes ((last.drop 1 ++ last.take 1).map aesSub) [rc, 0, 0, 0]
      else if i % 8 = 4 then last.map aesSub else last
    aesExpand k (xorBytes old t :: w) (i + 1) (if i % 8 = 0 then aesXt rc else rc)

/-- Four-byte words of a list. -/
def words4 : List Nat → List (List Nat)
  | a :: b :: c :: d :: r => [a, b, c, d] :: words4 r
  | _ => []

/-- The 15 round keys of a 32 B key, 16 bytes each. -/
def aesKeys (key : List Byte) : List (List Nat) :=
  let w := (aesExpand 52 ((words4 ((padTo 32 key).map (·.toNat))).reverse) 8 1).reverse
  (List.range 15).map (fun r => ((w.drop (4 * r)).take 4).flatten)

/-- Shift of rows of a column-major state. -/
def aesShift (s : List Nat) : List Nat := (List.range 16).map (fun i => s.getD ((i + 4 * (i % 4)) % 16) 0)

/-- Mix of columns. -/
def aesMix (s : List Nat) : List Nat :=
  (words4 s).flatMap (fun c => (List.range 4).map (fun i =>
    aesXt (c.getD i 0) ^^^ (aesXt (c.getD ((i + 1) % 4) 0) ^^^ c.getD ((i + 1) % 4) 0) ^^^ c.getD ((i + 2) % 4) 0 ^^^ c.getD ((i + 3) % 4) 0))

/-- Encrypts a block under round keys. -/
def aesBlock (ks : List (List Nat)) (b : List Nat) : List Nat :=
  let s0 := xorBytes b (ks.getD 0 [])
  let s13 := ((ks.drop 1).take 13).foldl (fun s k => xorBytes (aesMix (aesShift (s.map aesSub))) k) s0
  xorBytes (aesShift (s13.map aesSub)) (ks.getD 14 [])

/-- The number that big-endian bytes spell. -/
def beNat (l : List Nat) : Nat := l.foldl (fun a b => 256 * a + b) 0

/-- k big-endian bytes of a number. -/
def natBe (k n : Nat) : List Nat := ((leBytes k n).map (·.toNat)).reverse

/-- Multiplication in the field of GCM, bit 0 the most significant; the first argument counts the bits left. -/
def gcmMul : Nat → Nat → Nat → Nat → Nat
  | 0, _, _, z => z
  | k + 1, x, v, z =>
    gcmMul k x (if v % 2 = 1 then (v / 2) ^^^ (0xE1 * 2 ^ 120) else v / 2) (if x.testBit k then z ^^^ v else z)

/-- GHASH over padded bytes; the first argument is the number of blocks. -/
def ghash (h : Nat) : Nat → Nat → List Nat → Nat
  | 0, y, _ => y
  | k + 1, y, b => ghash h k (gcmMul 128 (y ^^^ beNat ((b ++ List.replicate 16 0).take 16)) h 0) (b.drop 16)

/-- Counter mode from a counter; the first argument is the number of blocks. -/
def gcmCtr (ks : List (List Nat)) (iv : List Nat) : Nat → Nat → List Nat → List Nat
  | 0, _, _ => []
  | k + 1, c, b => xorBytes (b.take 16) (aesBlock ks (iv ++ natBe 4 c)) ++ gcmCtr ks iv k (c + 1) (b.drop 16)

/-- The cipher text of counter mode, which is also the plain text of a cipher text. -/
def gcmCrypt (key nonce data : List Byte) : List Byte :=
  (gcmCtr (aesKeys key) (nonce.map (·.toNat)) ((data.length + 15) / 16) 2 (data.map (·.toNat))).map (BitVec.ofNat 8)

/-- The tag of GCM over additional data and cipher text. -/
def gcmTag (key nonce aad cipher : List Byte) : List Byte :=
  let ks := aesKeys key
  let h := beNat (aesBlock ks (List.replicate 16 0))
  let y1 := ghash h ((aad.length + 15) / 16) 0 (aad.map (·.toNat))
  let y2 := ghash h ((cipher.length + 15) / 16) y1 (cipher.map (·.toNat))
  let y3 := gcmMul 128 (y2 ^^^ (8 * aad.length * 2 ^ 64 + 8 * cipher.length)) h 0
  (xorBytes (natBe 16 y3) (aesBlock ks (nonce.map (·.toNat) ++ natBe 4 1))).map (BitVec.ofNat 8)

end Sys2Proof.Machine
end

