-- ==== Sys2Proof/Machine/Sha.lean ====
section
/-! DEFINITION. SHA-256 and HMAC-SHA-256 as running states (19 R556, R558; FIPS 180-4 and RFC 2104 as it cites them). -/

namespace Sys2Proof.Machine

/-- The initial hash words. -/
def shaInit : List (BitVec 32) := [
   0x6a09e667, 0xbb67ae85, 0x3c6ef372, 0xa54ff53a, 0x510e527f, 0x9b05688c, 0x1f83d9ab, 0x5be0cd19]

/-- The round constants. -/
def shaK : List (BitVec 32) := [
   0x428a2f98, 0x71374491, 0xb5c0fbcf, 0xe9b5dba5, 0x3956c25b, 0x59f111f1, 0x923f82a4, 0xab1c5ed5,
   0xd807aa98, 0x12835b01, 0x243185be, 0x550c7dc3, 0x72be5d74, 0x80deb1fe, 0x9bdc06a7, 0xc19bf174,
   0xe49b69c1, 0xefbe4786, 0x0fc19dc6, 0x240ca1cc, 0x2de92c6f, 0x4a7484aa, 0x5cb0a9dc, 0x76f988da,
   0x983e5152, 0xa831c66d, 0xb00327c8, 0xbf597fc7, 0xc6e00bf3, 0xd5a79147, 0x06ca6351, 0x14292967,
   0x27b70a85, 0x2e1b2138, 0x4d2c6dfc, 0x53380d13, 0x650a7354, 0x766a0abb, 0x81c2c92e, 0x92722c85,
   0xa2bfe8a1, 0xa81a664b, 0xc24b8b70, 0xc76c51a3, 0xd192e819, 0xd6990624, 0xf40e3585, 0x106aa070,
   0x19a4c116, 0x1e376c08, 0x2748774c, 0x34b0bcb5, 0x391c0cb3, 0x4ed8aa4a, 0x5b9cca4f, 0x682e6ff3,
   0x748f82ee, 0x78a5636f, 0x84c87814, 0x8cc70208, 0x90befffa, 0xa4506ceb, 0xbef9a3f7, 0xc67178f2]

/-- The big-endian words of a block. -/
def beWords : List Byte → List (BitVec 32)
  | a :: b :: c :: d :: r => (a ++ b ++ c ++ d) :: beWords r
  | _ => []

/-- The big-endian bytes of words. -/
def wordsBe (l : List (BitVec 32)) : List Byte :=
  l.flatMap (fun w => [w.extractLsb' 24 8, w.extractLsb' 16 8, w.extractLsb' 8 8, w.extractLsb' 0 8])

/-- Extends the message schedule, held newest word first, by k words. -/
def shaSchedule : Nat → List (BitVec 32) → List (BitVec 32)
  | 0, w => w
  | k + 1, w =>
    let x15 := w.getD 14 0
    let x2 := w.getD 1 0
    let s0 := (x15.rotateRight 7) ^^^ (x15.rotateRight 18) ^^^ (x15 >>> 3)
    let s1 := (x2.rotateRight 17) ^^^ (x2.rotateRight 19) ^^^ (x2 >>> 10)
    shaSchedule k ((w.getD 15 0 + s0 + w.getD 6 0 + s1) :: w)

/-- One round. -/
def shaRound (v : List (BitVec 32)) (kw : BitVec 32 × BitVec 32) : List (BitVec 32) :=
  match v with
  | [a, b, c, d, e, f, g, h] =>
    let s1 := (e.rotateRight 6) ^^^ (e.rotateRight 11) ^^^ (e.rotateRight 25)
    let ch := (e &&& f) ^^^ (~~~e &&& g)
    let t1 := h + s1 + ch + kw.1 + kw.2
    let s0 := (a.rotateRight 2) ^^^ (a.rotateRight 13) ^^^ (a.rotateRight 22)
    let mj := (a &&& b) ^^^ (a &&& c) ^^^ (b &&& c)
    [t1 + s0 + mj, a, b, c, d + t1, e, f, g]
  | _ => v

/-- The hash words after one 64 B block. -/
def shaBlock (h : List (BitVec 32)) (b : List Byte) : List (BitVec 32) :=
  let w := (shaSchedule 48 (beWords b).reverse).reverse
  List.zipWith (· + ·) h ((shaK.zip w).foldl shaRound h)

/-- Whole blocks of a byte string; the first argument is their number. -/
def shaBlocks : Nat → List (BitVec 32) → List Byte → List (BitVec 32)
  | 0, h, _ => h
  | k + 1, h, b => shaBlocks k (shaBlock h (b.take 64)) (b.drop 64)

/-- The padding of a message of m bytes: 0x80, zeros, the length in bits (19 R558). -/
def shaPad (m : Nat) : List Byte :=
  let z := (119 - m % 64) % 64
  (0x80 : Byte) :: zeros z ++ (leBytes 8 (8 * m)).reverse

/-- SHA-256 of a byte string. -/
def sha256 (b : List Byte) : List Byte :=
  let p := b ++ shaPad b.length
  wordsBe (shaBlocks (p.length / 64) shaInit p)

/-- The hash words after the key block XOR a pad byte (19 R558). -/
def hmacState (key : List Byte) (pad : Byte) : List (BitVec 32) :=
  shaBlock shaInit ((padTo 64 key).map (· ^^^ pad))

/-- The outer hash of an inner result of 32 B (19 R558). -/
def hmacOuter (outer : List (BitVec 32)) (inner : List Byte) : List Byte :=
  wordsBe (shaBlock outer (inner ++ shaPad 96))

end Sys2Proof.Machine
end

