-- ==== Sys2Proof/Machine/Digest.lean ====
section
/-! DEFINITION. The digest engines: open, feed, context service, save areas, end of a message (19 R556 to R568). -/

namespace Sys2Proof.Machine

/-- A digest engine. -/
def State.dgsEng (s : State) (e : Nat) : DgsEng := s.dgs.getD e {}

/-- Changes a digest engine. -/
def State.updDgs (s : State) (e : Nat) (g : DgsEng → DgsEng) : State := { s with dgs := s.dgs.upd e {} g }

/-- The engine is present (19 R556). -/
def State.dgsOn (s : State) (e : Nat) : Bool := decide (e < 4) && !s.dgsOff.contains e

/-- The message of a function on an engine. -/
def State.dgsMsg (s : State) (e f : Nat) : Option DgsMsg := (s.dgsEng e).msgs.find? f

/-- Changes the message of a function on an engine. -/
def State.updMsg (s : State) (e f : Nat) (g : DgsMsg → DgsMsg) : State :=
  s.updDgs e (fun x => { x with msgs := x.msgs.map (fun p => if p.1 = f then (p.1, g p.2) else p) })

/-- A key-store slot; slots 0 to 7 belong to the device (21 R614, R641). -/
def State.keySlot (s : State) (k : Nat) : KeySlot := s.keys.getD k { owner := if k < 8 then 0x7F else 0 }

/-- The slot may serve the function as HMAC key (21 R616). -/
def State.hmacKeyOk (s : State) (f k : Nat) : Bool := let x := s.keySlot k; decide (k < 64) && x.kind == 4 && x.owner == f

/-- The slot may take a derived key of the function (21 R618). -/
def State.deriveOk (s : State) (f k : Nat) : Bool :=
  let x := s.keySlot k
  decide (8 ≤ k ∧ k < 64) && (x.kind == 4 || x.kind == 0) && x.owner == f

/-! ### Save areas (19 R567) -/

/-- The plain bytes 0x08 to 0x97 of a save area. -/
def DgsMsg.plain (m : DgsMsg) (c : DgsCtx) : List Byte :=
  leBytes 8 c.count ++ leBytes 8 m.declLen ++ wordsBe c.h ++ (if m.mode = 1 then wordsBe c.outer else zeros 32) ++ padTo 64 c.pend

/-- The 256 B of a save area; an HMAC context is sealed under the function's context key with a fresh nonce. -/
def State.saveBytes (s : State) (f : Nat) (m : DgsMsg) (c : DgsCtx) : List Byte × State :=
  let hd := leBytes 4 0x31434744 ++ leBytes 1 m.mode ++ leBytes 1 m.mode ++ leBytes 1 f ++ leBytes 1 c.pend.length
  let plain := m.plain c
  if m.mode = 1 then
    let r := s.freeBytes 2
    let nonce := r.1.take 12
    let key := (s.tenant f).ctxKey
    let ct := gcmCrypt key nonce plain
    (hd ++ ct ++ nonce ++ gcmTag key nonce hd ct ++ zeros 60, r.2)
  else (hd ++ plain ++ zeros 12 ++ zeros 16 ++ zeros 60, s)

/-- Saves a message's context in its save area (19 R566). -/
def State.dgsSave (s : State) (e f : Nat) : State :=
  match s.dgsMsg e f with
  | none => s
  | some m => match m.ctx with
    | .reg c =>
      let r := s.saveBytes f m c
      ((r.2.writeBytes f m.save (padTo 256 r.1)).updMsg e f (fun m => { m with ctx := .saved, switches := m.switches + 1 })).updDgs e
        (fun x => { x with switch := x.switch + 1 })
    | _ => s

/-- The context that a save area holds for a message of the function; none where it cannot be restored (19 R567). -/
def State.loadCtx (s : State) (f mode declLen save : Nat) : Option DgsCtx :=
  let r := s.readBytes save 256
  let b := r.1
  let pend := getLE b 7 1
  let body := (b.drop 8).take 144
  let plain? : Option (List Byte) :=
    if r.2 || getLE b 0 4 ≠ 0x31434744 || getLE b 4 1 ≠ mode || getLE b 6 1 ≠ f || 64 ≤ pend then none
    else if mode = 1 then
      let nonce := (b.drop 0x98).take 12
      let key := (s.tenant f).ctxKey
      if getLE b 5 1 == 1 && gcmTag key nonce (b.take 8) body == (b.drop 0xA4).take 16 then some (gcmCrypt key nonce body) else none
    else some body
  plain?.bind (fun p =>
    if getLE p 8 8 ≠ declLen then none
    else some { h := beWords ((p.drop 16).take 32), outer := if mode = 1 then beWords ((p.drop 48).take 32) else [],
                count := getLE p 0 8, pend := (p.drop 80).take pend })

/-! ### The end of a message -/

/-- The status record (19 R563). -/
def dgsStatusRec (code : Nat) (long susp : Bool) (fed used switches : Nat) : List Byte :=
  leBytes 2 code ++ leBytes 2 (1 + (if long then 2 else 0) + (if susp then 4 else 0)) ++ leBytes 4 0 ++ leBytes 8 fed ++ leBytes 8 used
    ++ leBytes 4 switches ++ leBytes 4 0

/-- Ends a message: the record, then the one pulse; a message of a ring command ends the command (19 R559, R561, R563). -/
def State.dgsEnd (s : State) (e f code : Nat) (long susp : Bool) : State :=
  match s.dgsMsg e f with
  | none => s
  | some m =>
    let s1 := s.updDgs e (fun x => { x with
      msgs := x.msgs.erase f, active := if x.active = some f then none else x.active, err := if code = 0 then x.err else x.err + 1 })
    match m.work with
    | some w => s1.workDone w { status := code, info := min m.used 0xFFFFFFFF, long }
    | none =>
      if m.inner then s1
      else (s1.writeBytes f m.status (dgsStatusRec code long susp m.fed m.used m.switches)).pulse f m.trig m.event m.epoch

/-- The 32 B result of a context that has taken L bytes (19 R558). -/
def DgsMsg.final (m : DgsMsg) (c : DgsCtx) : List Byte := if m.mode = 1 then hmacOuter c.outer (wordsBe c.h) else wordsBe c.h

/-- Delivers a result: into memory, or into the key slot of a DERIVE (19 R559, R561; 21 R618). -/
def State.dgsResult (s : State) (f : Nat) (m : DgsMsg) (r : List Byte) : State :=
  if m.derive then { s with keys := s.keys.set m.dstSlot { s.keySlot m.dstSlot with kind := 4, len := 32, data := r } }
  else s.writeBytes f m.result r

/-- The feed of a message has ended: the outcome by what was fed (19 R561). -/
def State.dgsFeedEnd (s : State) (e f : Nat) : State :=
  match s.dgsMsg e f with
  | none => s
  | some m =>
    match m.ctx with
    | .gone code => s.dgsEnd e f code false false
    | .reg c =>
      if m.fed < m.declLen then s.dgsEnd e f 0x0107 false false
      else ((s.dgsResult f m (m.final c)).updDgs e (fun x => if m.mode = 1 then { x with blocks := x.blocks + 2 } else x)).dgsEnd e f 0
        (decide (m.declLen < m.fed)) false
    | _ => s.dgsEnd e f 0x0107 false false

/-! ### Feeding -/

/-- Makes a function's message the active one: the active context is saved, the newcomer's restored; a restore that
fails ends the message with STREAM_INVALID (19 R566, R567). -/
def State.dgsActivate (s : State) (e f : Nat) : State :=
  let x := s.dgsEng e
  let s1 := match x.active with
    | some g => if g = f then s
      else (s.dgsSave e g).updMsg e g (fun m => { m with waiting := m.bound.isSome })
    | none => s
  let s2 := s1.updDgs e (fun x => { x with active := some f, served := f })
  match s2.dgsMsg e f with
  | none => s2
  | some m =>
    match m.ctx with
    | .fresh => (s2.updMsg e f (fun m => { m with ctx := .reg m.start, waiting := false })).updDgs e
        (fun x => if m.mode = 1 then { x with blocks := x.blocks + 2 } else x)
    | .saved => match s2.loadCtx f m.mode m.declLen m.save with
      | some c => s2.updMsg e f (fun m => { m with ctx := .reg c, waiting := false })
      | none => s2.dgsEnd e f 0x0404 false false
    | _ => s2.updMsg e f (fun m => { m with waiting := false })

/-- A context after more bytes, with how many whole blocks were hashed. -/
def DgsCtx.feed (c : DgsCtx) (b : List Byte) : DgsCtx × Nat :=
  let all := c.pend ++ b
  let n := all.length / 64
  ({ c with h := shaBlocks n c.h all, count := c.count + 64 * n, pend := all.drop (64 * n) }, n)

/-- Whether a descriptor of a function on a channel is refused by the engine (19 R560). -/
def State.dgsRefuses (s : State) (e f ch : Nat) : Bool :=
  !s.dgsOn e || (match s.dgsMsg e f with
    | none => true
    | some m => match m.bound with | some c => c != ch | none => false)

/-- Feeds bytes of a descriptor: binds the message to its channel, switches contexts, hashes what is below L; a poisoned
byte or a bad descriptor gives the context up (19 R560, R561, R566). -/
def State.dgsFeed (s : State) (e f ch : Nat) (b : List Byte) (lost : Option Nat) : State :=
  let s1 := (s.updMsg e f (fun m => { m with bound := some ch })).dgsActivate e f
  match s1.dgsMsg e f with
  | none => s1
  | some m =>
    let take := b.take (m.declLen - m.used)
    match m.ctx with
    | .reg c =>
      let r := c.feed take
      (s1.updMsg e f (fun m => { m with
        fed := m.fed + b.length, used := m.used + take.length, ctx := match lost with | some k => .gone k | none => .reg r.1 })).updDgs e
        (fun x => { x with blocks := x.blocks + BitVec.ofNat 64 r.2 })
    | _ => s1.updMsg e f (fun m => { m with fed := m.fed + b.length })

/-- The transfer that fed a function's messages through a channel has ended with a code, or at its last descriptor
(19 R562). -/
def State.dgsUnbind (s : State) (f ch : Nat) (early : Option Nat) : State :=
  (List.range 4).foldl (fun s e => match s.dgsMsg e f with
    | some m =>
      if m.bound = some ch then
        match early, m.ctx with
        | some code, _ => s.dgsEnd e f code false false
        | none, .gone code => s.dgsEnd e f code false false
        | none, _ => s.updMsg e f (fun m => { m with bound := none })
      else s
    | none => s) s

/-! ### Opening and closing -/

/-- A message block's fields meet R557. -/
def msgBlockOk (b : List Byte) : Bool :=
  let fl := getLE b 1 1
  let derive := fl % 2 == 1
  let p := fl / 2 % 2
  let t := fl / 4 % 2
  let mode := getLE b 0 1
  let l := getLE b 8 8
  decide (mode ≤ 1) && decide (fl < 16) && p + t == 1 && decide (getLE b 2 1 < 64) && (mode == 1 || getLE b 3 1 == 0)
    && (derive || getLE b 4 1 == 0) && getLE b 5 1 == 0 && (decide (getLE b 6 2 < 32) || getLE b 6 2 == 0xFFFF)
    && l % 64 == 0 && decide (64 ≤ l ∧ l ≤ 2 ^ 48) && getLE b 0x10 8 % 32 == 0 && (!derive || getLE b 0x10 8 == 0)
    && getLE b 0x18 8 % 32 == 0 && getLE b 0x20 8 % 256 == 0 && getLE b 0x28 8 == 0 && getLE b 0x30 8 == 0 && getLE b 0x38 8 == 0

/-- The states that a message starts from: the initial words, or the ipad and opad states of its key (19 R558). -/
def State.dgsStart (s : State) (mode key : Nat) : DgsCtx :=
  if mode = 1 then
    let k := (s.keySlot key).data.take (s.keySlot key).len
    { h := hmacState k 0x36, outer := hmacState k 0x5C }
  else { h := shaInit }

/-- The cause for which an engine refuses an open: the codes of R559, 0 where it accepts. The message is what the block
describes; `restore` asks for its save area. -/
def State.dgsOpenCheck (s : State) (e f : Nat) (b : List Byte) : Nat :=
  let restore := getLE b 1 1 / 8 % 2 == 1
  let mode := getLE b 0 1
  let derive := getLE b 1 1 % 2 == 1
  let l := getLE b 8 8
  let save := getLE b 0x20 8
  let sv := (s.readBytes save 256).1
  if (s.dgsMsg e f).isSome then 1
  else if !msgBlockOk b || (restore && (getLE sv 4 1 != mode || getLE sv 6 1 != f
      || (mode == 0 && getLE sv 0x10 8 != l))) then 2
  else if (mode == 1 && !s.hmacKeyOk f (getLE b 3 1)) || (derive && !s.deriveOk f (getLE b 4 1)) then 3
  else if (!derive && !s.rangeOk f (getLE b 0x10 8) 32 2) || !s.rangeOk f (getLE b 0x18 8) 32 2
      || !s.rangeOk f save 256 (if restore then 3 else 2) then 4
  else 0

/-- A write of DGS_OPEN: opens a message of the bound function or refuses it; DGS_OPST takes the result (19 R559, R576). -/
def execDgsOpen (t : Nat) (v : BitVec 64) (s : State) : Host.Outcome State Fault Refusal :=
  .next (match (s.tile t).bound with
    | none => s
    | some f =>
      let e := field v 0 2
      let a := field v 6 58 * 64
      let b := (s.readBytes a 64).1
      let r := if !s.dgsOn e || !s.rangeOk f a 64 1 then 2 else s.dgsOpenCheck e f b
      let s1 := s.updTile t (fun x => { x with eng := { x.eng with dgsOpst := BitVec.ofNat 32 r } })
      if r ≠ 0 then s1
      else
        let fl := getLE b 1 1
        let restore := fl / 8 % 2 == 1
        let old := if restore then s.loadCtx f (getLE b 0 1) (getLE b 8 8) (getLE b 0x20 8) else none
        let have_ := (old.map (fun c => c.count + c.pend.length)).getD 0
        let m : DgsMsg := {
          mode := getLE b 0 1, derive := fl % 2 == 1, trig := fl / 4 % 2 == 1, event := getLE b 2 1, keySlot := getLE b 3 1,
          dstSlot := getLE b 4 1, qslot := getLE b 6 2, declLen := getLE b 8 8, result := getLE b 0x10 8, status := getLE b 0x18 8,
          save := getLE b 0x20 8, epoch := s.epochOf f, start := s.dgsStart (getLE b 0 1) (getLE b 3 1), fed := have_, used := have_,
          ctx := if restore then .saved else .fresh }
        s1.updDgs e (fun x => { x with msgs := x.msgs.set f m }))

/-- A write of DGS_CLOSE discards the bound function's message (19 R568). -/
def execDgsClose (t : Nat) (v : BitVec 64) (s : State) : Host.Outcome State Fault Refusal :=
  .next (match (s.tile t).bound with
    | none => s
    | some f => s.dgsEnd (field v 0 2) f 0x0302 false false)

/-- A write of DGS_SUSPEND asks for the suspension of the bound function's message (19 R568). -/
def execDgsSuspend (t : Nat) (v : BitVec 64) (s : State) : Host.Outcome State Fault Refusal :=
  .next (match (s.tile t).bound with
    | none => s
    | some f => s.updMsg (field v 0 2) f (fun m => { m with suspend := true }))

/-- No feeding descriptor is in progress: a message whose suspension was asked for is saved and ends SUSPENDED; one
whose context was given up ends with its status (19 R568). -/
def execSuspendSave (e : Nat) (s : State) : Host.Outcome State Fault Refusal :=
  .next (match List.find? (fun p => p.2.suspend) (s.dgsEng e).msgs with
    | none => s
    | some (f, m) =>
      match m.ctx with
      | .gone code => s.dgsEnd e f code false false
      | .fresh => ((s.updMsg e f (fun m => { m with ctx := .reg m.start })).dgsSave e f).dgsEnd e f 0 false true
      | _ => (s.dgsSave e f).dgsEnd e f 0 false true)

/-- The active message yields: the next waiting message in rotation is restored (19 R566). -/
def execContextQuantum (e : Nat) (s : State) : Host.Outcome State Fault Refusal :=
  .next (let x := s.dgsEng e
    match nextFunc x.served (fun f => x.msgs.any (fun p => p.1 == f && p.2.waiting && x.active != some f)) with
    | none => s
    | some f => s.dgsActivate e f)

end Sys2Proof.Machine
end

