-- ==== Sys2Proof/Machine/Dma.lean ====
section
/-! DEFINITION. The DMA channels: transfer blocks, descriptors, bus errors, aborts, status records (19 R542 to R555). -/

namespace Sys2Proof.Machine

/-- A DMA channel. -/
def State.dmaChan (s : State) (c : Nat) : DmaChan := s.dma.getD c {}

/-- Changes a DMA channel. -/
def State.updDma (s : State) (c : Nat) (g : DmaChan → DmaChan) : State := { s with dma := s.dma.upd c {} g }

/-- The channel is present (19 R542). -/
def State.dmaOn (s : State) (c : Nat) : Bool := decide (c < 32) && !s.dmaOff.contains c

/-- The next present channel from a number upward, modulo 32 (19 R543). -/
def State.dmaNext (s : State) (c : Nat) : Nat := (((List.range 32).map (fun i => (c + i) % 32)).find? (fun k => s.dmaOn k)).getD c

/-- The two channels of a function (19 R543). -/
def State.dmaPair (s : State) (f : Nat) : List Nat := [s.dmaNext (f % 32), s.dmaNext ((f % 32) ^^^ 16)]

/-- DMA_ASSIGN of a channel: what was written, else what R543 gives. -/
def State.dmaFuncs (s : State) (c : Nat) : Word :=
  match (s.dmaChan c).funcs with
  | some w => w
  | none => (List.range s.part.funcs).foldl (fun a f => if (s.dmaPair f).contains c then a ||| ((1 : Word) <<< f) else a) 0

/-! ### Descriptors -/

/-- Reads a descriptor (19 R546); `rsv` gathers its reserved bits. -/
def parseDmaDesc (b : List Byte) : DmaDesc :=
  { src := getLE b 0 8, dst := getLE b 8 8, len := getLE b 0x10 4, dkind := getLE b 0x14 1, dfl := getLE b 0x15 1,
    rsv := getLE b 0x17 1 + getLE b 0x15 1 / 4, next := getLE b 0x18 8 }

/-- LAST and FEED_END of a descriptor. -/
def DmaDesc.last (d : DmaDesc) : Bool := d.dfl % 2 == 1
def DmaDesc.feedEnd (d : DmaDesc) : Bool := d.dfl / 2 % 2 == 1

/-- The descriptor that a transfer comes to, and whether it can be read at all. -/
def State.dmaNextDesc (s : State) (x : Xfer) : Option DmaDesc :=
  if x.inner then x.given[x.idx]?
  else if s.rangeOk x.f x.next 32 1 then some (parseDmaDesc (s.readBytes x.next 32).1) else none

/-- The cause for which a descriptor moves nothing: INVALID_COMMAND for its fields, ACCESS_FAULT for its ranges, or the
digest engine's refusal (19 R547, R560). -/
def State.dmaBad (s : State) (ch : Nat) (x : Xfer) (d : DmaDesc) : Option Nat :=
  let own := x.inner || s.rangeOk x.f x.next 32 2
  if d.rsv ≠ 0 || d.len = 0 || 1 < d.dkind || (d.dkind == 0 && d.feedEnd) || (d.dkind == 1 && decide (4 ≤ d.dst)) then some 0x0101
  else if !own || !s.rangeOk x.f d.src d.len 1 || (d.dkind == 0 && (!s.rangeOk x.f d.dst d.len 2
      || overlaps (d.src, d.len) (d.dst, d.len))) then some 0x0105
  else if d.dkind = 1 ∧ s.dgsRefuses d.dst x.f ch then some 0x0101
  else none

/-- Copies bytes line of destination by line: a line that takes a byte of a Blot source line is written Blot. The first
argument bounds the lines. Answers the state and whether poison travelled (19 R549). -/
def State.dmaCopy (s : State) (f : Nat) : Nat → Nat → Nat → Nat → State × Bool
  | 0, _, _, _ => (s, false)
  | k + 1, src, dst, n =>
    if n = 0 then (s, false)
    else
      let o := dst % 64
      let m := min n (64 - o)
      let r := s.readBytes src m
      let s1 := s.cohWrite f (lineOf dst) (bytesLine (zeros o ++ r.1)) (byteMask o m) r.2
      let q := s1.dmaCopy f k (src + m) (dst + m) (n - m)
      (q.1, r.2 || q.2)

/-- The bytes before the first that a copy could not write because no window covers it (19 R548); the first argument
bounds the lines. -/
def State.dmaCovered (s : State) : Nat → Nat → Nat → Nat
  | 0, _, n => n
  | k + 1, dst, n =>
    if n = 0 then 0
    else if s.unmapped dst then 0
    else let m := min n (64 - dst % 64); m + s.dmaCovered k (dst + m) (n - m)

/-- Writes DSTAT of the descriptor at an address, where the function may write it (19 R547). -/
def State.putDstat (s : State) (x : Xfer) (v : Nat) : State :=
  if !x.inner && s.rangeOk x.f x.next 32 2 then s.writeBytes x.f (x.next + 0x16) (leBytes 1 v) else s

/-- A transfer after its descriptor has ended: the next one, or none after LAST or the 4,096th (19 R546). -/
def Xfer.advance (x : Xfer) (d : DmaDesc) : Xfer :=
  if d.last then { x with idx := x.idx + 1, ended := true }
  else if x.idx = 4095 ∧ !x.inner then { x with idx := x.idx + 1, ended := true, tooLong := true }
  else { x with idx := x.idx + 1, next := d.next }

/-- A transfer that counts a bad descriptor with its cause (19 R551). -/
def Xfer.bad (x : Xfer) (code : Nat) : Xfer :=
  { x with
    nbad := x.nbad + 1, firstBad := some (x.firstBad.getD x.idx), badCode := if x.firstBad.isNone then code else x.badCode }

/-- What a bad feeding descriptor does to the message it names: its context is given up, and its FEED_END ends it
(19 R561). -/
def State.dmaBadFeed (s : State) (ch : Nat) (x : Xfer) (d : DmaDesc) : State :=
  if d.dkind = 1 ∧ d.dst < 4 ∧ !s.dgsRefuses d.dst x.f ch then
    let s1 := s.dgsFeed d.dst x.f ch [] (some 0x0405)
    if d.feedEnd then s1.dgsFeedEnd d.dst x.f else s1
  else s

/-- A bus error is recorded for a channel: its interrupt bit, the log, vector 1 of the PF (19 R548). -/
def State.dmaBusError (s : State) (ch : Nat) (x : Xfer) : State :=
  let s1 := (s.updDma ch (fun k => { k with istat := k.istat ||| 2 })).log 0x52 1 x.f 5 ch 0x0405 0 (ch + x.idx * 2 ^ 32)
  let due : Bool := match (s.dmaChan ch).lastBus with | some k => decide (k + 1000 ≤ s.ticks) | none => true
  if due then (s1.signal 0 1).updDma ch (fun k => { k with lastBus := some s.ticks }) else s1

/-- Sets the current transfer of a channel and adds to its counters. -/
def State.dmaSetCur (s : State) (ch : Nat) (x : Xfer) (moved bad : Nat) : State :=
  s.updDma ch (fun k => { k with
    cur := some x, bytes := k.bytes + BitVec.ofNat 64 moved, bad := k.bad + BitVec.ofNat 64 bad })

/-- One descriptor of a channel's current transfer, from its checks to its DSTAT (19 R546 to R549). -/
def State.dmaStep (s : State) (ch : Nat) (x : Xfer) (d : DmaDesc) : State :=
  match s.dmaBad ch x d with
  | some code =>
    let s1 := (s.putDstat x 3)
    let s2 := if code = 0x0105 then s1.dmaBadFeed ch x d else s1
    s2.dmaSetCur ch ((x.bad code).advance d) 0 1
  | none =>
    if d.dkind = 1 then
      let r := s.readBytes d.src d.len
      let s1 := s.dgsFeed d.dst x.f ch r.1 (if r.2 then some 0x0401 else none)
      let s2 := if d.feedEnd then s1.dgsFeedEnd d.dst x.f else s1
      (s2.putDstat x 1).dmaSetCur ch ({ x with ndone := x.ndone + 1 }.advance d) 0 0
    else
      let n := s.dmaCovered (d.len / 64 + 2) d.dst d.len
      let r := s.dmaCopy x.f (n / 64 + 2) d.src d.dst n
      if n < d.len then
        (((r.1.dmaBusError ch x).putDstat x 2)).dmaSetCur ch
          (({ x with bytes := x.bytes + n, poisoned := x.poisoned || r.2 }.bad 0x0405).advance d) n 1
      else
        (r.1.putDstat x (if r.2 then 4 else 1)).dmaSetCur ch
          ({ x with bytes := x.bytes + n, ndone := x.ndone + 1, poisoned := x.poisoned || r.2 }.advance d) n 0

/-! ### The end of a transfer -/

/-- CODE of a transfer (19 R546, R551). -/
def Xfer.code (x : Xfer) (early : Option Nat) : Nat :=
  match early with
  | some c => c
  | none => if x.tooLong then 0x0101 else if x.firstBad.isSome then x.badCode else if x.poisoned then 0x0401 else 0

/-- The status record (19 R551). -/
def Xfer.record (x : Xfer) (early : Option Nat) (cur : Option Nat) (residue : Nat) : List Byte :=
  leBytes 2 (x.code early) ++ leBytes 2 (1 + (if x.poisoned then 2 else 0)) ++ leBytes 2 x.ndone ++ leBytes 2 x.nbad
    ++ leBytes 2 (x.firstBad.getD 0xFFFF) ++ leBytes 2 (cur.getD 0xFFFF) ++ leBytes 4 0 ++ leBytes 8 x.bytes ++ leBytes 8 residue

/-- A transfer has ended: its messages are unbound or end with it, the record is written, then the one pulse is sent; a
transfer of a ring command ends the command (19 R550, R562, 17 R507). -/
def State.xferDone (s : State) (ch : Nat) (x : Xfer) (early cur : Option Nat) (residue : Nat) : State :=
  let s1 := s.dgsUnbind x.f ch early
  let s2 := s1.updDma ch (fun k => { k with xfers := k.xfers + 1 })
  if x.inner then
    match x.work with
    | some w => s2.workDone w { status := x.code early, info := min x.bytes 0xFFFFFFFF,
                                partial_ := x.code early != 0 && x.bytes != 0 }
    | none => s2
  else (s2.writeBytes x.f x.status (x.record early cur residue)).pulse x.f x.trig x.event x.epoch

/-- A current transfer is ended early with a code: the burst in flight ends, a free part of the descriptor in progress
is moved, DSTAT 5 and the record follow (19 R554, R555; log 18). -/
def State.dmaStopCur (s : State) (ch : Nat) (x : Xfer) (code : Nat) : State :=
  let clear (s : State) : State := s.updDma ch (fun k => { k with cur := none })
  if x.ended then (clear s).xferDone ch x none none 0
  else match s.dmaNextDesc x with
    | none => (clear s).xferDone ch x (some code) (some x.idx) 0
    | some d =>
      if (s.dmaBad ch x d).isSome ∨ d.dkind = 1 then (clear (s.putDstat x 5)).xferDone ch x (some code) (some x.idx) d.len
      else
        let k := s.freeUpTo (s.dmaCovered (d.len / 64 + 2) d.dst d.len)
        let r := k.2.dmaCopy x.f (k.1 / 64 + 2) d.src d.dst k.1
        let x1 : Xfer := { x with bytes := x.bytes + k.1, poisoned := x.poisoned || r.2 }
        let s1 := (r.1.putDstat x 5).updDma ch (fun q => { q with bytes := q.bytes + BitVec.ofNat 64 k.1 })
        (clear s1).xferDone ch x1 (some code) (some x.idx) (d.len - k.1)

/-- A shadow transfer is unloaded with a code (19 R554). -/
def State.dmaStopShadow (s : State) (ch : Nat) (x : Xfer) (code : Nat) : State :=
  (s.updDma ch (fun k => { k with sh := none })).xferDone ch x (some code) none 0

/-- Ends every transfer that a test selects with a code (19 R555). -/
def State.dmaEndAll (s : State) (code : Nat) (sel : Xfer → Bool) : State :=
  (List.range 32).foldl (fun s ch =>
    let s1 := match (s.dmaChan ch).cur with
      | some x => if sel x then s.dmaStopCur ch x code else s
      | none => s
    match (s1.dmaChan ch).sh with
      | some x => if sel x then s1.dmaStopShadow ch x code else s1
      | none => s1) s

/-- A function is reset: its shadow sets are dropped and its current transfers stop, with no record; the pulses carry
the old epoch (19 R555). -/
def State.dmaDropFunc (s : State) (f : Nat) : State :=
  (List.range 32).foldl (fun s ch =>
    let k := s.dmaChan ch
    let gone := (k.cur.toList ++ k.sh.toList).filter (fun x => x.f == f)
    let s1 := gone.foldl (fun s x => if x.inner then s else s.pulse f x.trig x.event x.epoch) s
    s1.updDma ch (fun k => { k with
      cur := k.cur.bind (fun x => if x.f = f then none else some x), sh := k.sh.bind (fun x => if x.f = f then none else some x) })) s

/-- A query ends: the messages that name its slot end CANCELLED (19 R568). -/
def State.dgsEndAll (s : State) (code : Nat) (sel : Nat → DgsMsg → Bool) : State :=
  (List.range 4).foldl (fun s e => (s.dgsEng e).msgs.foldl (fun s p => if sel p.1 p.2 then s.dgsEnd e p.1 code false false else s) s) s

/-- A function is reset: its messages go without a record; the pulses carry the old epoch (19 R568). -/
def State.dgsDropFunc (s : State) (f : Nat) : State :=
  (List.range 4).foldl (fun s e => match s.dgsMsg e f with
    | some m =>
      let s1 := if m.inner then s else s.pulse f m.trig m.event m.epoch
      s1.updDgs e (fun x => { x with msgs := x.msgs.erase f, active := if x.active = some f then none else x.active })
    | none => s) s

/-! ### Commands -/

/-- A transfer block's fields meet R545. -/
def xferBlockOk (b : List Byte) : Bool :=
  let fl := getLE b 0x10 1
  getLE b 0 8 % 32 == 0 && getLE b 8 8 % 32 == 0 && decide (fl < 8) && fl % 2 + fl / 2 % 2 == 1 && decide (getLE b 0x11 1 < 64)
    && (decide (getLE b 0x12 2 < 32) || getLE b 0x12 2 == 0xFFFF) && getLE b 0x14 4 == 0 && getLE b 0x18 8 == 0

/-- A write of DMA_LOAD: loads the shadow set of a channel or refuses; DMA_LDST takes the result (19 R552, R570). -/
def execDmaLoad (t : Nat) (v : BitVec 64) (s : State) : Host.Outcome State Fault Refusal :=
  .next (match (s.tile t).bound with
    | none => s
    | some f =>
      let ch := field v 0 5
      let a := field v 5 59 * 32
      let b := (s.readBytes a 32).1
      let r : Nat :=
        if !s.dmaOn ch || !(s.dmaFuncs ch).getLsbD f then 2
        else if (s.dmaChan ch).sh.isSome then 1
        else if !s.rangeOk f a 32 1 || !xferBlockOk b || !s.rangeOk f (getLE b 8 8) 32 2 then 3
        else 0
      let s1 := s.updTile t (fun x => { x with eng := { x.eng with dmaLdst := BitVec.ofNat 32 r } })
      if r ≠ 0 then s1
      else
        let fl := getLE b 0x10 1
        let x : Xfer := {
          f, block := a, status := getLE b 8 8, trig := fl / 2 % 2 == 1, event := getLE b 0x11 1, qslot := getLE b 0x12 2,
          cadence := fl / 4 % 2 == 1, epoch := s.epochOf f, next := getLE b 0 8 }
        s1.updDma ch (fun k => { k with sh := some x }))

/-- A write of DMA_ABORT: the bound function's transfer of that block ends ABORTED, and the PF is told (19 R554). -/
def execDmaAbort (t : Nat) (v : BitVec 64) (s : State) : Host.Outcome State Fault Refusal :=
  .next (match (s.tile t).bound with
    | none => s
    | some f =>
      let ch := field v 0 5
      let a := field v 5 59 * 32
      let mine (x : Xfer) : Bool := x.f == f && x.block == a && !x.inner
      let told (s : State) : State := (s.updDma ch (fun k => { k with istat := k.istat ||| 1 })).signal 0 1
      match (s.dmaChan ch).cur, (s.dmaChan ch).sh with
      | some x, sh =>
        if mine x && !x.ended then told (s.dmaStopCur ch x 0x0302)
        else match sh with
          | some y => if mine y then told (s.dmaStopShadow ch y 0x0302) else s
          | none => s
      | none, some y => if mine y then told (s.dmaStopShadow ch y 0x0302) else s
      | none, none => s)

/-- A shadow set without CADENCE becomes current on a channel with no current transfer (19 R553). -/
def execShadowCurrent (c : Nat) (s : State) : Host.Outcome State Fault Refusal :=
  .next (let k := s.dmaChan c
    match k.cur, k.sh with
    | none, some x => if x.cadence then s else s.updDma c (fun k => { k with cur := some x, sh := none })
    | _, _ => s)

/-- The current transfer's next descriptor is read, checked and moved (19 R547). -/
def execDmaDescriptor (c : Nat) (s : State) : Host.Outcome State Fault Refusal :=
  .next (match (s.dmaChan c).cur with
    | none => s
    | some x =>
      if x.ended then s
      else match s.dmaNextDesc x with
        | some d => s.dmaStep c x d
        | none => s.dmaSetCur c { (x.bad 0x0105) with ended := true } 0 1)

/-- The descriptor in progress meets a bus error after a free number of its bytes (19 R548; log 18). -/
def execBusError (c : Nat) (s : State) : Host.Outcome State Fault Refusal :=
  .next (match (s.dmaChan c).cur with
    | none => s
    | some x =>
      if x.ended then s
      else match s.dmaNextDesc x with
        | none => s
        | some d =>
          if (s.dmaBad c x d).isSome then s.dmaStep c x d
          else if d.dkind = 1 then
            (((s.dmaBadFeed c x d).dmaBusError c x).putDstat x 2).dmaSetCur c ((x.bad 0x0405).advance d) 0 1
          else
            let k := s.freeUpTo (s.dmaCovered (d.len / 64 + 2) d.dst d.len)
            let r := k.2.dmaCopy x.f (k.1 / 64 + 2) d.src d.dst k.1
            ((r.1.dmaBusError c x).putDstat x 2).dmaSetCur c
              (({ x with bytes := x.bytes + k.1, poisoned := x.poisoned || r.2 }.bad 0x0405).advance d) k.1 1)

/-- A transfer whose last descriptor has ended: its writes are ordered, the record is written, the pulse sent (19 R550). -/
def execTransferEnd (c : Nat) (s : State) : Host.Outcome State Fault Refusal :=
  .next (match (s.dmaChan c).cur with
    | none => s
    | some x => if x.ended then (s.updDma c (fun k => { k with cur := none })).xferDone c x none none 0 else s)

end Sys2Proof.Machine
end

