-- ==== Sys2Proof/Machine/Protocol.lean ====
section
/-! DEFINITION. The coherence protocol: messages, homes, first-level caches (10 R280 to R300). Agent 127 is the host
toward the homes; 128 + h is the slice port of tile h. -/

namespace Sys2Proof.Machine

/-- The virtual channel of a message: REQ 0, FWD 1, RSP 2, WB 3 (10 R280). -/
def MKind.cls : MKind → Nat
  | .rdS | .rdH | .rdX | .upg | .rdOnce | .ioRd | .ioWr => 0
  | .fwdS | .fwdX | .fwdOnce | .inv => 1
  | .gnt | .data | .fack | .noline | .invack | .wbdata | .cmpAck | .wback | .decline | .nack | .iodone | .fence => 2
  | .wbDirty | .victClean | .victDrop => 3

/-- The agent number of the host at a home. -/
def hostAgent : Nat := 127

/-- Some home holds the fence bit of a tile: its router is isolated (10 R297). -/
def State.isolated (s : State) (t : Nat) : Bool := decide (t < 96) && s.slices.any (fun p => p.2.fenced.getLsbD t)

/-- Sends a message. The router of a fenced tile discards what the tile sends, and answers forwards with NOLINE and
INV with INVACK, both marked fenced (10 R297). -/
def State.send (s : State) (m : Msg) : State :=
  if s.isolated m.src then s
  else if s.isolated m.dst && m.kind.cls == 1 then
    { s with net := s.net ++ [{ kind := if m.kind = .inv then .invack else .noline, src := m.dst, dst := m.src, line := m.line, req := m.req, fenced := true }] }
  else { s with net := s.net ++ [m] }

/-- Two messages travel the same channel, source port and destination port, and so keep their order (01 R12). -/
def Msg.samePath (a b : Msg) : Bool := a.kind.cls == b.kind.cls && a.src == b.src && a.dst == b.dst

/-- Finds the first message that satisfies a test; it can be delivered only when nothing sent before it travels its
path. Gives the message and the rest. -/
def takeMsg (p : Msg → Bool) : List Msg → List Msg → Option (Msg × List Msg)
  | _, [] => none
  | pre, m :: r => if p m then (if pre.any (fun q => q.samePath m) then none else some (m, pre.reverse ++ r)) else takeMsg p (m :: pre) r

/-- Takes a deliverable message out of the mesh. -/
def State.take (s : State) (p : Msg → Bool) : Option (Msg × State) :=
  (takeMsg p [] s.net).map (fun r => (r.1, { s with net := r.2 }))

/-- A request of the IO class: from an edge agent other than the host (10 R280, R300). -/
def Msg.isIo (m : Msg) : Bool := decide (96 ≤ m.src) && m.src != hostAgent

/-- A request of a tile. -/
def Msg.isCore (m : Msg) : Bool := decide (m.src < 96)

/-- The owner that a line's directory entry records, the device for a line with no entry (10 R274). -/
def State.ownerOf (s : State) (line : Nat) : Nat :=
  match s.dirEntry line with
  | some e => e.owner
  | none => 0x7F

/-- The line's entry is exclusive. -/
def State.isEx (s : State) (line : Nat) : Bool :=
  match s.dirEntry line with
  | some e => e.state == DState.ex
  | none => false

/-! ### Open transactions -/

/-- The open transaction of a line. -/
def State.txn (s : State) (line : Nat) : Option Txn := (s.slice (s.homeOf line)).txns.find? (fun x => x.msg.line == line)

/-- Stores an open transaction in place of the line's. -/
def State.putTxn (s : State) (x : Txn) : State :=
  s.updSlice (s.homeOf x.msg.line) (fun sl => { sl with txns := x :: sl.txns.filter (fun y => y.msg.line != x.msg.line) })

/-- Ends the line's transaction: BUSY falls, the entry is freed when it records nothing, the starved slot is freed. -/
def State.closeTxn (s : State) (line : Nat) : State :=
  let s1 := s.updSlice (s.homeOf line) (fun sl => { sl with
    txns := sl.txns.filter (fun y => y.msg.line != line),
    starved := match sl.starved with | some m => if m.line = line ∧ sl.txns.any (fun y => y.msg.line == line && y.msg.starve && y.msg.src == m.src) then none else some m | none => none })
  s1.updDir line (fun e => { e with busy := false })

/-- Records an answer to an edge agent or the host. -/
def State.answer (s : State) (agent line : Nat) (data : Option Line) (blot : Bool) : State :=
  { s with answers := { agent, line, data, blot } :: s.answers }

/-- The home closes an open transaction of a fenced tile: a line granted E or D becomes Blot and its entry N, a shared
entry loses the tile (10 R297). -/
def State.closeFenced (s : State) (x : Txn) : State :=
  let line := x.msg.line
  let s1 := if s.isEx line then
      (s.markBlot line (s.ownerOf line)).updDir line (fun e => { e with state := .n, ptrs := [], lv := false, ovf := false })
    else s.updDir line (fun e => e.dropSharer x.msg.src)
  s1.closeTxn line

/-- The home grants a tile: GNT with a state or none, with data or without; the entry stays BUSY for CMP_ACK. A fenced
tile's transaction closes instead (10 R283, R286, R297). -/
def State.grant (s : State) (x : Txn) (st : Option LState) (d : Option Line) (blot : Bool) : State :=
  if (s.slice (s.homeOf x.msg.line)).fenced.getLsbD x.msg.src then s.closeFenced x
  else (s.putTxn { x with phase := .cmp }).send
    { kind := .gnt, src := 128 + s.homeOf x.msg.line, dst := x.msg.src, line := x.msg.line, st, data := d, blot }

/-- The home gives a requester data without a state: GNT to a tile, DATA to an agent, an answer to the host; an
agent's or the host's transaction ends (10 R283). -/
def State.supply (s : State) (x : Txn) (d : Line) (blot : Bool) : State :=
  if x.msg.isCore then s.grant x none (some d) blot
  else
    let s1 := (if x.msg.keep then s.updDir x.msg.line (fun e => { e with h := true }) else s).closeTxn x.msg.line
    if x.msg.src = hostAgent then s1.answer hostAgent x.msg.line (some d) blot
    else s1.send { kind := .data, src := 128 + s.homeOf x.msg.line, dst := x.msg.src, line := x.msg.line, data := some d, blot }

/-- The home sends INV to tiles and waits for their answers. -/
def State.sendInvs (s : State) (line : Nat) (ts : List Nat) : State :=
  ts.foldl (fun a t => a.send { kind := .inv, src := 128 + s.homeOf line, dst := t, line }) s

/-- Counts a data-array lookup (10 R305). -/
def State.countLookup (s : State) (line : Nat) (hit : Bool) : State :=
  s.updSlice (s.homeOf line) (fun sl => if hit then { sl with hit := sl.hit + 1 } else { sl with miss := sl.miss + 1 })

/-- Whether a held read may allocate in Orchard: an invalid way, or the victim belongs to the same owner (03 R75). -/
def State.heldAlloc (s : State) (line owner : Nat) : Bool :=
  let sl := s.slice (s.homeOf line)
  match sl.dataFree line with
  | some _ => true
  | none => match sl.data.find? (sl.dataVictim line) with
    | some v => v.owner == owner
    | none => true

/-- A fill from memory or the host reaches the home: Orchard allocates it for a core-class request; Blot allocates
marked Blot and dirty (10 R278, R294; 03 R75). -/
def State.fillOrc (s : State) (m : Msg) (d : Line) (blot : Bool) : State :=
  if blot then s.markBlot m.line m.owner
  else if m.kind = .rdH || m.kind = .rdOnce then
    if m.isCore && s.heldAlloc m.line m.owner then s.orcPut m.line m.owner d false false else s
  else if m.isCore then s.orcPut m.line m.owner d false false
  else s

/-- The source class of what a home asks memory for a requester; real-time for a Krelor receive agent (11 R315, R316). -/
def memCls (src : Nat) : MemCls :=
  if src < 96 then .core else if src < 104 then .rt else if src = hostAgent then .host else .io

/-- The home needs a line's data that Orchard does not hold: it asks memory, or the host for a host line (10 R283, R299). -/
def State.askData (s : State) (x : Txn) : State :=
  let line := x.msg.line
  if isHostLine line then { s.putTxn { x with phase := .host } with d2h := s.d2h ++ [line] }
  else
    (s.putTxn { x with phase := .mem }).postMem (s.homeOf line) line x.msg.owner (memCls x.msg.src) none

/-- The home writes a line: into Orchard if present or allocating, else below it (10 R283 IO_WR, R299). -/
def State.homeWrite (s : State) (m : Msg) (d : Line) (blot : Bool) : State :=
  let h := s.homeOf m.line
  let inOrc := ((s.slice h).dataWay m.line).isSome
  let alloc := inOrc || (s.slice h).ctl.getLsbD 0 || (isHostLine m.line && m.mask != BitVec.allOnes 64)
  let s0 := s.migLog m.owner m.line
  let s1 := if blot && !((s0.orcGet m.line).getD (0, false)).2 then s0.updSlice h (fun sl => { sl with blotCnt := sl.blotCnt + 1 }) else s0
  if alloc then s1.orcPut m.line m.owner (if blot then 0 else d) true blot
  else if isHostLine m.line then s1.hostPut m.line d blot
  else s1.postMem h m.line m.owner (memCls m.src) (some (if blot then 0 else d, BitVec.allOnes 64, blot))

/-- The home ends an IO-class or host-class write: IODONE to the agent, an answer to the host. -/
def State.ioDone (s : State) (x : Txn) : State :=
  let s1 := s.closeTxn x.msg.line
  if x.msg.src = hostAgent then s1.answer hostAgent x.msg.line none false
  else s1.send { kind := .iodone, src := 128 + s.homeOf x.msg.line, dst := x.msg.src, line := x.msg.line }

/-- A core-class request in home state N or after its data has come: data, and the state the table gives (10 R283). A
Blot line grants no state and records no sharer (10 R294). -/
def State.grantN (s : State) (x : Txn) (st : LState) (d : Line) (blot : Bool) : State :=
  if blot then s.grant x none (some 0) true
  else
    let t := x.msg.src
    let own := st == .e || st == .d
    let s1 := s.updDir x.msg.line (fun e =>
      if own then { e with state := .ex, ptrs := [t], lv := false, ovf := false, owner := x.msg.owner }
      else e.addSharer t (st == .l))
    (if own then s1.migLog x.msg.owner x.msg.line else s1).grant x (some st) (some d) false

/-- What a transaction has of its line's data: what memory returned, else Orchard's copy. -/
def State.txnData (s : State) (x : Txn) : Option (Line × Bool) :=
  match x.fill with
  | some f => some f
  | none => s.orcGet x.msg.line

/-- The home acts on a request whose entry is BUSY for it, by the entry's state (10 R283). Called again each time what
the transaction waited for has come. -/
def State.homeGo (s : State) (x : Txn) : State :=
  let m := x.msg
  let line := m.line
  let h := s.homeOf line
  let e := (s.slice h).dir.getD x.way { line, owner := m.owner }
  let wantsOwn := m.kind = .rdX || m.kind = .upg || (m.kind = .ioWr && m.mask != BitVec.allOnes 64)
  if !isHostLine line && e.h && m.src != hostAgent then
    { s.putTxn { x with phase := .back } with bisnp := s.bisnp ++ [line] }
  else if isHostLine line && wantsOwn && !e.h then
    { s.putTxn { x with phase := .host } with d2h := s.d2h ++ [line] }
  else
    match m.kind, e.state with
    | .ioWr, .n =>
      if m.mask = BitVec.allOnes 64 ∧ !m.keep then (s.homeWrite m (m.data.getD 0) m.blot).ioDone x
      else match s.txnData x with
        | some (d, b) => (s.homeWrite m (mergeLine d (m.data.getD 0) m.mask) (b || m.blot)).ioDone x
        | none => s.askData x
    | .ioWr, _ =>
      let ts := s.invTargets e none
      (s.putTxn { x with phase := .inv, acks := ts }).sendInvs line ts
    | .rdX, .sh | .upg, .sh =>
      let isUpg := m.kind = .upg && e.ptrs.contains m.src
      let ts := s.invTargets e (some m.src)
      if ts.isEmpty then
        if isUpg then
          ((s.updDir line (fun e => { e with state := .ex, ptrs := [m.src], lv := false, ovf := false })).migLog m.owner line).grant x (some .e) none false
        else match s.txnData x with
          | some (d, b) => s.grantN x .e d b
          | none => s.askData x
      else (s.putTxn { x with phase := .inv, acks := ts }).sendInvs line ts
    | .rdX, .ex | .upg, .ex =>
      (s.putTxn { x with phase := .fwd }).send { kind := .fwdX, src := 128 + h, dst := e.ptrs.headD 0, line, req := m.src }
    | .rdX, .n | .upg, .n | .rdS, .n =>
      match s.txnData x with
      | some (d, b) => ((s.countLookup line x.fill.isNone)).grantN x .e d b
      | none => s.askData x
    | .rdH, .n =>
      match s.txnData x with
      | some (d, b) => (s.countLookup line x.fill.isNone).grantN x .l d b
      | none => s.askData x
    | .rdS, .sh | .rdH, .sh =>
      match x.fill, s.orcGet line with
      | some (d, b), _ => (s.countLookup line false).grantN x .l d b
      | none, some (d, b) => (s.countLookup line true).grantN x .s d b
      | none, none =>
        if e.lv then (s.putTxn { x with phase := .fwd }).send { kind := .fwdS, src := 128 + h, dst := e.ptrs.headD 0, line, req := m.src }
        else s.askData x
    | .rdS, .ex | .rdH, .ex =>
      (s.putTxn { x with phase := .fwd }).send { kind := .fwdS, src := 128 + h, dst := e.ptrs.headD 0, line, req := m.src }
    | .rdOnce, .ex | .ioRd, .ex =>
      (s.putTxn { x with phase := .fwd }).send { kind := .fwdOnce, src := 128 + h, dst := e.ptrs.headD 0, line, req := m.src }
    | .rdOnce, _ | .ioRd, _ =>
      match s.txnData x with
      | some (d, b) => (s.countLookup line x.fill.isNone).supply x d b
      | none => s.askData x
    -- host snoops, carried as the forward they cause (10 R299)
    | .inv, _ =>
      let ts := s.invTargets e none
      if ts.isEmpty then
        let o := (s.slice h).dataLine line
        let d := o.bind (fun o => if o.dirty then some o.data else none)
        let s1 := match d with | some d => { s with hostMem := Memory.writeLine s.hostMem (lineA line) d } | none => s
        (((s1.orcDrop line).updDir line (fun e => { e with state := .n, ptrs := [], lv := false, ovf := false, h := false })).closeTxn line).answer hostAgent line d false
      else (s.putTxn { x with phase := .inv, acks := ts }).sendInvs line ts
    | .fwdS, .ex =>
      (s.putTxn { x with phase := .fwd }).send { kind := .fwdS, src := 128 + h, dst := e.ptrs.headD 0, line, req := hostAgent }
    | .fwdOnce, .ex =>
      (s.putTxn { x with phase := .fwd }).send { kind := .fwdOnce, src := 128 + h, dst := e.ptrs.headD 0, line, req := hostAgent }
    | .fwdS, _ =>
      let o := (s.slice h).dataLine line
      let d := o.bind (fun o => if o.dirty then some o.data else none)
      let s1 := match d with | some d => { s with hostMem := Memory.writeLine s.hostMem (lineA line) d } | none => s
      let s2 := match (s.slice h).dataWay line, o with
        | some k, some o => s1.updSlice h (fun sl => { sl with data := sl.data.set k { o with dirty := false } })
        | _, _ => s1
      ((s2.updDir line (fun e => { e with h := false })).closeTxn line).answer hostAgent line d false
    | .fwdOnce, _ => (s.closeTxn line).answer hostAgent line ((s.orcGet line).map (·.1)) false
    | _, _ => s.closeTxn line

/-- Applies a fence to an entry at its first lookup: an EX entry of a fenced tile becomes N and its line Blot; a
fenced sharer is removed (10 R297, R298). -/
def State.fenceEntry (s : State) (h k : Nat) : State :=
  match (s.slice h).dir.find? k with
  | none => s
  | some e =>
    let dead := e.ptrs.filter (fun t => (s.slice h).fenced.getLsbD t)
    if dead.isEmpty then s
    else if e.state = .ex then
      let s1 := s.markBlot e.line e.owner
      let e' := { e with state := DState.n, ptrs := [], lv := false, ovf := false }
      if e.busy || e.h then s1.putDir h k e' else s1.freeDir h k
    else
      let e' := dead.foldl (fun a t => a.dropSharer t) e
      if e'.state = .n && !e'.busy && !e'.h then s.freeDir h k else s.putDir h k e'

/-- The directory's set full of BUSY entries (10 R290). -/
def State.setFull (s : State) (line : Nat) : Bool := decide (12 ≤ (s.slice (s.homeOf line)).busyIn line)

/-- A home starts a request it has admitted: the entry found, allocated or taken from a victim becomes BUSY, and the
home acts (10 R283, R291, R292). -/
def State.homeStart (s0 : State) (m0 : Msg) : State :=
  let h := s0.homeOf m0.line
  let s := match (s0.slice h).dirWay m0.line with | some k => s0.fenceEntry h k | none => s0
  let sl := s.slice h
  let set := lineA m0.line % 2048
  match sl.dirWay m0.line with
  | some k =>
    match sl.dir.find? k with
    | some e =>
      let x : Txn := { msg := m0, phase := .cmp, way := k }
      ((s.putDir h k { e with busy := true }).putTxn x).homeGo x
    | none => s
  | none =>
    let ways := (List.range 16).map (fun w => set * 16 + w)
    match ways.find? (fun k => (sl.dir.find? k).isNone) with
    | some k =>
      let x : Txn := { msg := m0, phase := .cmp, way := k }
      ((s.putDir h k { line := m0.line, owner := m0.owner, busy := true }).putTxn x).homeGo x
    | none =>
      let p := (sl.dirPtr.getD set 0).toNat
      let order := (List.range 16).map (fun i => set * 16 + (p + i) % 16)
      let ok (k : Nat) : Bool := match sl.dir.find? k with
        | some e => !e.busy && (m0.kind != .rdH || e.owner == m0.owner)
        | none => false
      match order.find? ok with
      | some k =>
        match sl.dir.find? k with
        | some v =>
          let ts := s.invTargets v none
          let x : Txn := { msg := m0, phase := .evict, way := k, acks := ts, victim := some v }
          let s1 := (s.updSlice h (fun sl => { sl with dirPtr := sl.dirPtr.set set (BitVec.ofNat 4 (k % 16 + 1)), binv := sl.binv + 1 })).putDir h k
            { line := m0.line, owner := m0.owner, busy := true }
          let s2 := s1.putTxn x
          if ts.isEmpty then s2.homeGo { x with phase := .cmp } else s2.sendInvs v.line ts
        | none => s
      | none =>
        -- a held read with no way of its own tenant is served without recording a sharer (10 R291, R292)
        let x : Txn := { msg := { m0 with kind := if m0.kind = .rdH then .rdOnce else m0.kind }, phase := .cmp, way := 2048 * 16 + set }
        (s.putTxn x).homeGo x

/-- The home answers an IO-class request with NACK (10 R287). -/
def State.homeNack (s : State) (m : Msg) : State :=
  let h := s.homeOf m.line
  (s.updSlice h (fun sl => { sl with nack := sl.nack + 1 })).send { kind := .nack, src := 128 + h, dst := m.src, line := m.line }

/-- A request reaches its home: it starts, waits in the home queue, or, of the IO class, receives NACK unless it takes
the starved-request slot (10 R282, R287, R290, R297). Nothing happens while the home queue is full. -/
def State.homeArrive (s : State) (m : Msg) : State :=
  let h := s.homeOf m.line
  let sl := s.slice h
  if m.isCore && sl.fenced.getLsbD m.src then s
  else
    let blocked := s.rel.draining || s.lineBusy m.line || s.setFull m.line || sl.queue.any (fun q => q.line == m.line)
    if !blocked then s.homeStart m
    else if m.isIo then
      if m.starve && sl.starved.isNone then
        s.updSlice h (fun sl => { sl with starved := some m, queue := m :: sl.queue })
      else s.homeNack m
    else s.updSlice h (fun sl => { sl with queue := sl.queue ++ [m] })

/-- Room for one more request in the home queue (10 R273, R282). -/
def Slice.queueRoom (sl : Slice) : Bool := decide ((sl.queue.filter (fun m => !m.isIo)).length < 256)

/-- The first queued request whose line and set let it in, none of its line being queued before it. -/
def State.nextQueued (s : State) : List Msg → List Nat → Option Msg
  | [], _ => none
  | m :: r, seen =>
    if seen.contains m.line || s.lineBusy m.line || s.setFull m.line then s.nextQueued r (m.line :: seen) else some m

/-- Removes the first occurrence. -/
def eraseFirst {α : Type} [DecidableEq α] (x : α) : List α → List α
  | [] => []
  | y :: r => if y = x then r else y :: eraseFirst x r

/-- A queued request starts (10 R282). -/
def State.homeDequeue (s : State) (h : Nat) : State :=
  if s.rel.draining then s else
  match s.nextQueued (s.slice h).queue [] with
  | some m => (s.updSlice h (fun sl => { sl with queue := eraseFirst m sl.queue })).homeStart m
  | none => s

/-! ### Answers at a home -/

/-- The home receives a holder's FACK (10 R283, R285). -/
def State.homeFack (s : State) (m : Msg) : State :=
  match s.txn m.line with
  | none => s
  | some x =>
    if x.phase != .fwd then s
    else
      let s1 := match m.data with
        | some d => s.orcPut m.line x.msg.owner d true false
        | none => s
      match x.msg.kind with
      | .rdS | .rdH =>
        let s2 := s1.updDir m.line (fun e => if e.state = .ex then { e with state := .sh, lv := true, ptrs := [m.src, x.msg.src].eraseDups } else e.addSharer x.msg.src false)
        s2.grant x (some .s) none false
      | .rdX | .upg =>
        let s2 := (s1.updDir m.line (fun e => { e with state := .ex, ptrs := [x.msg.src], lv := false, ovf := false })).migLog x.msg.owner m.line
        s2.grant x (some (if m.dirty then .d else .e)) none false
      | .rdOnce => if x.msg.isCore then s1.grant x none none false
        else (if x.msg.keep then s1.updDir m.line (fun e => { e with h := true }) else s1).closeTxn m.line
      | .fwdS =>
        let s2 := s1.updDir m.line (fun e => { e with state := .sh, lv := true, h := false })
        let s3 := match m.data with | some d => { s2 with hostMem := Memory.writeLine s2.hostMem (lineA m.line) d } | none => s2
        (s3.closeTxn m.line).answer hostAgent m.line m.data false
      | _ => s1.closeTxn m.line

/-- The home receives NOLINE: it drops the holder and supplies the data itself; a fenced holder's exclusive line is
Blot (10 R283, R297). -/
def State.homeNoline (s : State) (m : Msg) : State :=
  match s.txn m.line with
  | none => s
  | some x =>
    if x.phase != .fwd then s
    else
      let ex := s.isEx m.line
      let s1 := if m.fenced && ex then s.markBlot m.line (s.ownerOf m.line) else s
      let s2 := s1.updDir m.line (fun e => if e.state = .ex then { e with state := .n, ptrs := [] } else e.dropSharer m.src)
      (s2.putTxn { x with phase := .cmp }).homeGo { x with phase := .cmp }

/-- The home receives the last acknowledgement of a wait: it writes what WBDATA brought to Orchard and goes on (10 R283, R291). -/
def State.acksDone (s : State) (x : Txn) : State :=
  let vline := match x.phase, x.victim with | .evict, some v => v.line | _, _ => x.msg.line
  let vown := match x.phase, x.victim with | .evict, some v => v.owner | _, _ => x.msg.owner
  let s1 := match x.wb with
    | some (d, b) => s.orcPut vline vown d true b
    | none => s
  let y : Txn := { x with phase := .cmp, wb := none, acks := [], fill := none }
  let s2 := if x.phase = .inv then
      s1.updDir x.msg.line (fun e =>
        if x.msg.kind = .upg ∧ e.state = .sh ∧ e.ptrs.contains x.msg.src then { e with ptrs := [x.msg.src], ovf := false, lv := false }
        else { e with state := .n, ptrs := [], ovf := false, lv := false })
    else s1
  (s2.putTxn y).homeGo y

/-- The home counts an answer to INV, taking the dirty data of WBDATA; a fenced INVACK for an exclusive line makes it
Blot (10 R283, R291, R297). -/
def State.homeAck (s : State) (m : Msg) : State :=
  let h := s.homeOf m.line
  match (s.slice h).txns.find? (fun x => x.acks.contains m.src &&
      (if x.phase = .evict then (x.victim.map (·.line)) == some m.line else x.phase == .inv && x.msg.line == m.line)) with
  | none => s
  | some x =>
    let ent := if x.phase = .evict then x.victim else (s.slice h).dir.find? x.way
    let lost := m.fenced && (match ent with | some e => e.state == DState.ex | none => false)
    let wb := match m.kind, m.data with
      | .wbdata, some d => some (d, m.blot)
      | _, _ => if lost then some (0, true) else x.wb
    let y : Txn := { x with acks := x.acks.filter (fun t => t != m.src), wb }
    let s1 := if lost then s.updSlice h (fun sl => { sl with blotCnt := sl.blotCnt + 1 }) else s
    if y.acks.isEmpty then s1.acksDone y else s1.putTxn y

/-- Data for a waiting transaction comes from memory or the host (10 R283, R294, R299). -/
def State.homeFill (s : State) (line : Nat) (d : Line) (blot : Bool) : State :=
  match s.txn line with
  | none => s
  | some x =>
    if x.phase = .mem ∨ x.phase = .host then
      let wantsOwn := x.msg.kind = .rdX || x.msg.kind = .upg || x.msg.kind = .ioWr
      let s1 := if isHostLine line && wantsOwn then s.updDir line (fun e => { e with h := true }) else s
      let y : Txn := { x with phase := .cmp, fill := if (s1.orcGet line).isSome then none else some (d, blot) }
      ((s1.fillOrc x.msg d blot).putTxn y).homeGo y
    else s

/-- The home removes a sender from the line's sharers (10 R284 VICT_CLEAN): the entry becomes N when nobody is left. -/
def State.dropClean (s : State) (line t : Nat) : State :=
  s.updDir line (fun e => if e.state = .ex then (if e.ptrs.contains t then { e with state := .n, ptrs := [] } else e) else e.dropSharer t)

/-- Whether the entry of a line records a tile. -/
def State.records (s : State) (line t : Nat) : Bool :=
  match s.dirEntry line with
  | some e => e.ptrs.contains t || (e.ovf && e.state == .sh)
  | none => false

/-- A forward or INV to a tile for a line is outstanding (10 R289). -/
def State.fwdOutstanding (s : State) (line t : Nat) : Bool :=
  let sl := s.slice (s.homeOf line)
  sl.txns.any (fun x =>
    (x.phase == .fwd && x.msg.line == line && (match sl.dir.find? x.way with | some e => e.ptrs.head? == some t | none => false))
    || (x.phase == .inv && x.msg.line == line && x.acks.contains t)
    || (x.phase == .evict && (x.victim.map (·.line)) == some line && x.acks.contains t))

/-- The home applies a WB-class message (10 R284, R289): a dirty victim to Orchard, a clean one kept or declined, a
dropped line's holder removed. A victim of a tile that the entry does not record is acknowledged and discarded. -/
def State.homeVictim (s : State) (m : Msg) : State :=
  let h := s.homeOf m.line
  let ack (s : State) (k : MKind) : State := s.send { kind := k, src := 128 + h, dst := m.src, line := m.line }
  if (s.slice h).fenced.getLsbD m.src then s
  else if s.fwdOutstanding m.line m.src then s.updSlice h (fun sl => { sl with sink := sl.sink ++ [m] })
  else if !s.records m.line m.src then (if m.kind = .victDrop then s else ack s .wback)
  else
    let ex := s.isEx m.line
    match m.kind with
    | .wbDirty =>
      if ex then
        let own := s.ownerOf m.line
        let s1 := if m.blot then s.markBlot m.line own else s.orcPut m.line own (m.data.getD 0) true false
        ack (s1.dropClean m.line m.src) .wback
      else ack (s.dropClean m.line m.src) .wback
    | .victClean =>
      let s1 := s.dropClean m.line m.src
      let sl := s1.slice h
      let room := match sl.dataWay m.line with
        | some _ => true
        | none => (sl.dataFree m.line).isSome || (match sl.data.find? (sl.dataVictim m.line) with | some v => !v.dirty | none => true)
      if room && !(sl.ctl.getLsbD 1) && m.data.isSome then
        let own := s.ownerOf m.line
        let s2 := if (sl.dataWay m.line).isSome then s1 else s1.orcPut m.line own (m.data.getD 0) false false
        ack s2 .wback
      else ack (s1.updSlice h (fun sl => { sl with declined := sl.declined + 1 })) .decline
    | _ => s.dropClean m.line m.src

/-- Victims that were held for an answer of their sender: WBACK, and the data discarded (10 R289). -/
def State.drainSink (s : State) (line t : Nat) : State :=
  let h := s.homeOf line
  let held := (s.slice h).sink.filter (fun m => m.line == line && m.src == t)
  let s1 := s.updSlice h (fun sl => { sl with sink := sl.sink.filter (fun m => !(m.line == line && m.src == t)) })
  held.foldl (fun a m => if m.kind = .victDrop then a else a.send { kind := .wback, src := 128 + h, dst := t, line }) s1

end Sys2Proof.Machine
end

