-- ==== Sys2Proof/Machine/L1.lean ====
section
/-! DEFINITION. The first-level caches of a tile: lookup, replacement, fills, victims, bulk operations (09). -/

namespace Sys2Proof.Machine

/-- One step of the replacement LFSR: x^16 + x^14 + x^13 + x^11 + 1, shifting left (09 R256). -/
def lfsrStep (x : BitVec 16) : BitVec 16 :=
  let b := (x.getLsbD 15 ^^ x.getLsbD 13) ^^ (x.getLsbD 12 ^^ x.getLsbD 10)
  (x <<< 1) ||| (if b then 1 else 0)

/-- The first unlocked way at or above a candidate, modulo the number of ways (09 R255). -/
def nextUnlocked (locked : Nat → Bool) (ways c : Nat) : Nat :=
  (((List.range ways).map (fun i => (c + i) % ways)).find? (fun w => !locked w)).getD c

/-- The way an L1D fill takes, and the cache after the choice (09 R255, R256, R258, R259). -/
def L1.dChoose (c : L1) (line : Nat) : Nat × L1 :=
  let set := line % 128
  if c.ctl.getLsbD 2 then (set * 8 + field c.ctl 3 3, c)
  else
    match ((List.range 8).map (fun w => set * 8 + w)).find? (fun k => match c.d.find? k with | some l => l.line == line | none => false) with
    | some k => (k, c)
    | none =>
      match ((List.range 8).map (fun w => set * 8 + w)).find? (fun k => (c.d.find? k).isNone && !c.dLocked (k % 8)) with
      | some k => (k, c)
      | none =>
        let l := lfsrStep c.lfsr
        (set * 8 + nextUnlocked c.dLocked 8 (l.toNat % 8), { c with lfsr := l })

/-- The way an L1I fill takes, and the cache after the choice (09 R255). -/
def L1.iChoose (c : L1) (line : Nat) : Nat × L1 :=
  let set := line % 128
  match ((List.range 4).map (fun w => set * 4 + w)).find? (fun k => (c.i.find? k).isNone && !c.iLocked (k % 4)) with
  | some k => (k, c)
  | none =>
    let l := lfsrStep c.lfsr
    (set * 4 + nextUnlocked c.iLocked 4 (l.toNat % 4), { c with lfsr := l })

/-- L1D is disabled: accesses use the one-line buffer (09 R263). -/
def L1.dOff (c : L1) : Bool := c.ctl.getLsbD 0

/-- L1I is disabled. -/
def L1.iOff (c : L1) : Bool := c.ctl.getLsbD 1

/-- A line leaves the L1D by eviction: into the victim buffer, with its writeback or its clean-victim offer (09 R253). -/
def State.evictL1 (s : State) (t : Nat) (l : DLine) : State :=
  if l.st = .i then s
  else
    (s.updL1 t (fun c => { c with vbuf := c.vbuf ++ [{ line := l.line, st := l.st, data := l.data }] })).send
      { kind := if l.st = .d then .wbDirty else .victClean, src := t, dst := 128 + s.homeOf l.line, line := l.line,
        owner := ((s.tile t).bound).getD 0x7F, data := some l.data, dirty := l.st == .d }

/-- Fills a line into L1D, or into the one-line buffer of a disabled cache; none while the victim buffer has no room
for the victim (09 R253, R255, R263). -/
def State.fillL1 (s : State) (t line : Nat) (st : LState) (d : Line) : Option State :=
  let c := (s.tile t).l1
  let n : DLine := { line, st, data := d }
  if c.dOff then
    match c.dbuf with
    | some b =>
      if b.st = .i then some (s.updL1 t (fun c => { c with dbuf := some n }))
      else if 4 ≤ c.vbuf.length then none
      else some ((s.evictL1 t b).updL1 t (fun c => { c with dbuf := some n }))
    | none => some (s.updL1 t (fun c => { c with dbuf := some n }))
  else
    let (k, c') := c.dChoose line
    match c.d.find? k with
    | some v =>
      if v.st != .i && decide (4 ≤ c.vbuf.length) then none
      else
        let s1 := s.updL1 t (fun _ => c')
        some ((s1.evictL1 t v).updL1 t (fun c => { c with d := c.d.set k n }))
    | none => some (s.updL1 t (fun _ => { c' with d := c'.d.set k n }))

/-- A tile posts a request to a line's home (09 R249, R250; 10 R280). -/
def State.postReq (s : State) (t line : Nat) (kind : MKind) (prefetch : Bool) : State :=
  (s.updL1 t (fun c => { c with reqs := c.reqs ++ [{ line, kind, prefetch }] })).send
    { kind, src := t, dst := 128 + s.homeOf line, line, owner := ((s.tile t).bound).getD 0x7F }

/-- Prefetches outstanding (09 R250, R267). -/
def L1.pfCount (c : L1) : Nat := (c.reqs.filter (fun q => q.prefetch)).length

/-- A demand access that misses: it merges with a request for the line in flight, waits for the victim buffer, or
posts its own (09 R249, R250, R254). -/
def State.demand (s : State) (t line : Nat) (kind : MKind) : State :=
  let c := (s.tile t).l1
  if c.reqs.any (fun q => q.line == line) then
    s.updL1 t (fun c => { c with reqs := c.reqs.map (fun q => if q.line = line then { q with prefetch := false } else q) })
  else if c.vbuf.any (fun v => v.line == line) then s
  else s.postReq t line kind false

/-! ### Answers to the home (10 R285) -/

/-- The copy that answers a forward: in L1D, else in the victim buffer with the state it had at eviction (09 R254). -/
def L1.copy (c : L1) (line : Nat) : Option (LState × Line × Bool) :=
  match c.dLine line with
  | some l => some (l.st, l.data, false)
  | none => (c.vbuf.find? (fun v => v.line == line && v.st != .i)).map (fun v => (v.st, v.data, true))

/-- Moves the answering copy to a state. -/
def L1.moveCopy (c : L1) (line : Nat) (st : LState) (inVbuf : Bool) : L1 :=
  if inVbuf then { c with vbuf := c.vbuf.map (fun v => if v.line = line then { v with st } else v) }
  else if st = .i then c.invalidate line
  else c.updLine line (fun l => { l with st, st2 := st })

/-- A holder hands a line to a requester: DATA to a tile or agent, an answer to the host. -/
def State.sendData (s : State) (t : Nat) (m : Msg) (d : Line) (dirty : Bool) : State :=
  if m.req = hostAgent then (if m.kind = .fwdOnce then s.answer hostAgent m.line (some d) false else s)
  else s.send { kind := .data, src := t, dst := m.req, line := m.line, data := some d, dirty }

/-- A tile answers a forward or INV (10 R285). -/
def State.answerFwd (s : State) (t : Nat) (m : Msg) : State :=
  let c := (s.tile t).l1
  let back (k : MKind) (d : Option Line) (dirty : Bool) : Msg := { kind := k, src := t, dst := m.src, line := m.line, req := m.req, data := d, dirty }
  match m.kind, c.copy m.line with
  | .inv, some (st, d, vb) =>
    let s1 := s.updL1 t (fun c => c.moveCopy m.line .i vb)
    if st = .d then s1.send (back .wbdata (some d) true) else s1.send (back .invack none false)
  | .inv, none => s.send (back .invack none false)
  | .fwdS, some (st, d, vb) =>
    if st = .s then s.send (back .noline none false)
    else
      let s1 := (s.updL1 t (fun c => c.moveCopy m.line .l vb)).sendData t m d false
      s1.send (back .fack (if st = .d then some d else none) (st == .d))
  | .fwdX, some (st, d, vb) =>
    if st = .e ∨ st = .d then
      ((s.updL1 t (fun c => c.moveCopy m.line .i vb)).sendData t m d (st == .d)).send (back .fack none (st == .d))
    else s.send (back .noline none false)
  | .fwdOnce, some (st, d, _) =>
    if st = .s then s.send (back .noline none false)
    else (s.sendData t m d false).send (back .fack none false)
  | _, _ => s.send (back .noline none false)

/-! ### Bulk operations (09 R261 to R263) -/

/-- A tile hands its home a WB-class message that the home applies at once, as in a walk that ends only when the homes
have accepted every writeback; a line for which a forward is outstanding goes through the victim buffer, which answers it
(09 R254, R262; 10 R289). -/
def State.wbNow (s : State) (t : Nat) (l : DLine) (k : MKind) (blot : Bool) (data : Option Line) : State :=
  let m : Msg := { kind := k, src := t, dst := 128 + s.homeOf l.line, line := l.line, owner := ((s.tile t).bound).getD 0x7F,
                   data, dirty := l.st == .d, blot }
  if s.fwdOutstanding l.line t && data.isSome then
    (s.updL1 t (fun c => { c with vbuf := c.vbuf ++ [{ line := l.line, st := l.st, data := l.data }] })).send m
  else
    let s1 := s.homeVictim m
    { s1 with net := s1.net.filter (fun a => !((a.kind == .wback || a.kind == .decline) && a.dst == t && a.line == l.line)) }

/-- Writes a dirty line back and keeps it: Orchard takes the data dirty, the copy is E, the home's entry stays (log 12). -/
def State.cleanKeep (s : State) (t : Nat) (l : DLine) : State :=
  if l.st = .d then
    (s.orcPut l.line (s.ownerOf l.line) l.data true false).updL1 t (fun c => c.updLine l.line (fun x => { x with st := .e, st2 := .e }))
  else s

/-- The operations of CACHE.CLEAN (0), CACHE.CLEANINV (1) and CACHE.INV (2) on a line of L1D (09 R261). -/
def State.lineOp (s : State) (t : Nat) (op : Nat) (incl : Bool) (line : Nat) : State :=
  let c := (s.tile t).l1
  match c.dLine line with
  | none => s
  | some l =>
    let locked := match c.dWay line with | some k => c.dLocked (k % 8) | none => false
    let skip (s : State) : State := s.updL1 t (fun c => { c with skip := satInc c.skip })
    let inv (s : State) : State := s.updL1 t (fun c => c.invalidate line)
    if op = 0 then s.cleanKeep t l
    else if op = 1 then
      if locked && !incl then skip (s.cleanKeep t l)
      else if l.st = .d then (inv s).wbNow t l .wbDirty false (some l.data) else inv s
    else
      if locked && !incl then skip s
      else if l.st = .d then (inv s).wbNow t l .victDrop false none else inv s

/-- Invalidates a line of L1I unless it is locked and locked lines are excluded (09 R262). -/
def L1.iOp (c : L1) (incl : Bool) (lo hi : Nat) : L1 :=
  let hit (p : Nat × ILine) : Bool := decide (lo ≤ p.2.line) && decide (p.2.line ≤ hi)
  let kept := c.i.filter (fun p => !hit p || (!incl && c.iLocked (p.1 % 4)))
  let skipped := (c.i.filter (fun p => hit p && !incl && c.iLocked (p.1 % 4))).length
  { c with i := kept, skip := satAdd c.skip skipped }

/-- The line number an address of either memory space names, as the caches compare it. -/
def rangeLine (w : Word) : Nat := lineOf w.toNat

/-- A range operation: every line of the range treated as R261 gives for RANGE_OP (09 R262). -/
def State.rangeOp (s : State) (t : Nat) : State :=
  let c := (s.tile t).l1
  let op := field c.ctl 7 2
  let incl := c.ctl.getLsbD 10
  let lo := rangeLine c.base
  let hi := rangeLine c.limit
  if op = 3 then s
  else if c.ctl.getLsbD 9 then
    if op = 0 then s else s.updL1 t (fun c => c.iOp incl lo hi)
  else
    let lines := (c.d.filter (fun p => p.2.st != .i && decide (lo ≤ p.2.line) && decide (p.2.line ≤ hi))).map (fun p => p.2.line)
    let more := match c.dbuf with | some b => if b.st != .i && decide (lo ≤ b.line) && decide (b.line ≤ hi) then [b.line] else [] | none => []
    (lines ++ more).foldl (fun a l => a.lineOp t op incl l) s

/-- Cleans and invalidates all of L1D, locked lines included, and clears its locks (09 R263). -/
def State.flushL1D (s : State) (t : Nat) : State :=
  let c := (s.tile t).l1
  let lines := c.d.filterMap (fun p => if p.2.st = .i then none else some p.2)
  let all := lines ++ (match c.dbuf with | some b => if b.st = .i then [] else [b] | none => [])
  let s1 := s.updL1 t (fun c => { c with d := [], dbuf := none, lock := setField c.lock 0 8 0 })
  all.foldl (fun a l => if l.st = .d then a.wbNow t l .wbDirty false (some l.data) else a) s1

/-- L1CTL.DIS written: 1 flushes L1D and disables it, 0 re-enables an empty, unlocked L1D (09 R263). -/
def State.setDis (s : State) (t : Nat) (on : Bool) : State :=
  let s1 := s.flushL1D t
  s1.updL1 t (fun c => { c with ctl := setField c.ctl 0 1 (if on then 1 else 0) })

/-- L1CTL.IDIS written: 1 invalidates L1I and disables it, 0 re-enables an empty, unlocked L1I (09 R263). -/
def State.setIdis (s : State) (t : Nat) (on : Bool) : State :=
  s.updL1 t (fun c => { c with i := [], ibuf := none, lock := setField c.lock 8 4 0, ctl := setField c.ctl 1 1 (if on then 1 else 0) })

/-- A write of L1CTL under its field types: the plain fields, then DIS, IDIS and RANGE_GO where they act (09 R262, R263, R266). -/
def State.writeL1ctl (s : State) (t : Nat) (v : BitVec 32) : State :=
  let old := (s.tile t).l1.ctl
  let s1 := s.updL1 t (fun c => { c with ctl := (v &&& 0x7BC) ||| (old &&& 3) })
  let s2 := if v.getLsbD 0 != old.getLsbD 0 then s1.setDis t (v.getLsbD 0) else s1
  let s3 := if v.getLsbD 1 != old.getLsbD 1 then s2.setIdis t (v.getLsbD 1) else s2
  if v.getLsbD 6 then s3.rangeOp t else s3

/-- A write of L1_LOCK: a field that would lock every way of its cache stays; a disabled cache takes no lock; a
reserved tag whose way is no longer locked is invalid (09 R257, R259, R263, R269). -/
def L1.writeLock (c : L1) (v : BitVec 32) : L1 :=
  let d := field v 0 8
  let i := field v 8 4
  let l1 := if d = 255 ∨ c.dOff then c.lock else setField c.lock 0 8 d
  let l2 := if i = 15 ∨ c.iOff then l1 else setField l1 8 4 i
  { c with lock := l2, d := c.d.filter (fun p => p.2.st != .i || l2.getLsbD (p.1 % 8)) }

/-- L1STAT as it reads (09 R267). -/
def L1.stat (c : L1) : BitVec 32 :=
  BitVec.ofNat 32 ((if c.done then 1 else 0) + (if c.vbuf.isEmpty then 0 else 2) + 4 * c.pfCount)

end Sys2Proof.Machine
end

