-- ==== Sys2Proof/Machine/Operands.lean ====
section
/-! DEFINITION. Operands of the Quill core: registers, immediates, vector elements (06 R154, R163, R166 to R172; 07 R194 to R197). -/

namespace Sys2Proof.Machine

/-- Reads a general register; G0 reads zero (06 R154). -/
def Core.readG (c : Core) (r : Reg) : Word := if r = 0 then 0 else c.g.getD r.toNat 0

/-- Writes a general register; a write to G0 is discarded (06 R154). -/
def Core.writeG (c : Core) (r : Reg) (v : Word) : Core := if r = 0 then c else { c with g := c.g.set r.toNat v }

/-- The sign-extended 16-bit immediate (06 R168). -/
def sextImm (i : BitVec 16) : Word := i.signExtend 64

/-- The zero-extended 16-bit immediate (06 R168). -/
def zextImm (i : BitVec 16) : Word := i.zeroExtend 64

/-- ea := ra + sext(off12) (06 R169, R171). -/
def Core.ea (c : Core) (ra : Reg) (off : BitVec 12) : Word := c.readG ra + off.signExtend 64

/-- target := pc + 4 × sext(disp) (06 R172). -/
def branchTarget (pc : Word) (disp : BitVec 20) : Word := pc + (disp.signExtend 64) <<< 2

/-! ### Vector registers (07 R194 to R197) -/

/-- The element width of a width code: 4, 8, 16, 32 or 64 (07 R194). -/
def ewBits (ew : BitVec 3) : Nat := 2 ^ (ew.toNat + 2)

/-- VLMAX at the element width in force (07 R194). -/
def State.vlmax (s : State) (ew : BitVec 3) : Nat := s.part.vbits / ewBits ew

/-- The active vector length. -/
def Core.vlen (c : Core) : Nat := field c.vl 0 6

/-- Reads a vector register. -/
def Core.readV (c : Core) (r : Reg) : BitVec 128 := c.v.getD r.toNat 0

/-- Writes a vector register. -/
def Core.writeV (c : Core) (r : Reg) (v : BitVec 128) : Core := { c with v := c.v.set r.toNat v }

/-- Element i of a register at width w, as a number (07 R194). -/
def elem (w : Nat) (v : BitVec 128) (i : Nat) : Nat := v.toNat / 2 ^ (w * i) % 2 ^ w

/-- A register with element i at width w replaced. -/
def setElem (w : Nat) (v : BitVec 128) (i x : Nat) : BitVec 128 := setField v (w * i) w x

/-- Element i is active: below VL, and with M its mask bit set (07 R197). -/
def Core.active (c : Core) (m : Bool) (i : Nat) : Bool := decide (i < c.vlen) && (!m || (c.readV 0).getLsbD i)

/-- Applies a function to the active elements below n, keeping the others (07 R195, R197). -/
def mapActive (w : Nat) (act : Nat → Bool) (f : Nat → Nat) : Nat → BitVec 128 → BitVec 128
  | 0, v => v
  | n + 1, v =>
    let r := mapActive w act f n v
    if act n then setElem w r n (f n) else r

/-- Operand b of element i: vb[i], or the low bits of register rb when X is 1 (07 R200, R202). -/
def Core.operandB (c : Core) (w : Nat) (x : Bool) (vb : Reg) (i : Nat) : Nat :=
  if x then (c.readG vb).toNat % 2 ^ w else elem w (c.readV vb) i

end Sys2Proof.Machine
end

