-- ==== Sys2Proof/Machine/Flags.lean ====
section
/-! DEFINITION. The status and control fields of the Quill core (06 R186 to R192; 07 R215 to R217). -/

namespace Sys2Proof.Machine

/-- QCTL.IE. -/
def Core.ie (c : Core) : Bool := c.qctl.getLsbD 0
/-- QCTL.BPOFF. -/
def Core.bpoff (c : Core) : Bool := c.qctl.getLsbD 1
/-- QCTL.HELD. -/
def Core.held (c : Core) : Bool := c.qctl.getLsbD 3
/-- QCTL.IMASK. -/
def Core.imask (c : Core) : Nat := field c.qctl 4 4
/-- QSTAT.MODE is runtime (06 R155). -/
def Core.runtime (c : Core) : Bool := c.qstat.getLsbD 0
/-- QSTAT.EXL. -/
def Core.exl (c : Core) : Bool := c.qstat.getLsbD 1
/-- QSTAT.PMODE. -/
def Core.pmode (c : Core) : Bool := c.qstat.getLsbD 2
/-- QSTAT.PIE. -/
def Core.pie (c : Core) : Bool := c.qstat.getLsbD 3

/-- A bit of a register set to a value. -/
def putBit {w : Nat} (r : BitVec w) (i : Nat) (b : Bool) : BitVec w := setField r i 1 (if b then 1 else 0)

/-- The exception codes (06 R182). -/
inductive Exc where
  | illegal | priv | misalign | region | divzero | poison | syscall | interrupt | specStore
  deriving DecidableEq, Repr

/-- QCAUSE.CODE of an exception (06 R182). -/
def excCode : Exc → Nat
  | .illegal => 1 | .priv => 2 | .misalign => 3 | .region => 4 | .divzero => 5 | .poison => 6 | .syscall => 7
  | .interrupt => 8 | .specStore => 9

/-- The exception's fault address is recorded: codes 0x03, 0x04, 0x06 and 0x09 (06 R182). -/
def excHasAddr : Exc → Bool
  | .misalign | .region | .poison | .specStore => true
  | _ => false

/-- QCAUSE.ACCESS: the access kinds (06 R188). -/
inductive Access where
  | fetch | load | store | atomic
  deriving DecidableEq, Repr

/-- The number of an access kind (06 R188). -/
def accessCode : Access → Nat
  | .fetch => 0 | .load => 1 | .store => 2 | .atomic => 3

/-- The words VL and VTYPE as they read (07 R215, R216). -/
def State.vtypeWord (s : State) (c : Core) : BitVec 32 := BitVec.ofNat 32 (s.part.vbits / 8 * 256 + c.ew.toNat)

/-- QSTAT as it reads, with WAITING (06 R187). -/
def Core.qstatWord (c : Core) : BitVec 32 := putBit (c.qstat &&& 0xF) 4 c.wait.isSome

end Sys2Proof.Machine
end

