-- ==== Sys2Proof/Machine/KLink.lean ====
section
/-! DEFINITION. Krelor flits, routes and transmission (15 R431 to R437, R441 to R445, R455). -/

namespace Sys2Proof.Machine

/-- A Krelor port. -/
def State.kport (s : State) (p : Nat) : KPort := s.krl.ports.getD p {}

/-- Changes a Krelor port. -/
def State.updPort (s : State) (p : Nat) (g : KPort → KPort) : State := { s with krl := { s.krl with ports := s.krl.ports.upd p {} g } }

/-- ENABLE, MODE, PAIR and EXP_PEER of a port (15 R460). -/
def KPort.enabled (k : KPort) : Bool := k.ctl.getLsbD 0
def KPort.mode (k : KPort) : Nat := field k.ctl 8 2
def KPort.pair (k : KPort) : Nat := field k.ctl 10 3
def KPort.expPeer (k : KPort) : Nat := field k.ctl 32 18

/-- This device's node ID; the size of a dimension; a coordinate of a node ID (15 R441, R458). -/
def State.nodeId (s : State) : Nat := field s.krl.node 0 18
def State.dimSize (s : State) (d : Nat) : Nat := field s.krl.node (24 + 6 * d) 6 + 1
def coordOf (id d : Nat) : Nat := id / 2 ^ (12 - 6 * d) % 64

/-- The bytes of a flit with its CRC (15 R431, R433). -/
def Flit.bytes (x : Flit) : List Byte :=
  let b := leBytes 1 x.type ++ leBytes 1 (x.vc % 4 + (if x.last then 4 else 0)) ++ leBytes 2 x.seq ++ leBytes 2 x.ack ++ leBytes 2 x.cred
    ++ leBytes 4 x.dst ++ leBytes 4 x.src ++ leBytes 2 x.xchg ++ leBytes 2 x.round ++ leBytes 4 x.offset ++ padTo 224 x.payload
  b ++ leBytes 8 (crc64xz b)

/-- The fields of 256 received bytes. -/
def parseFlit (b : List Byte) : Flit :=
  { type := getLE b 0 1, vc := getLE b 1 1 % 4, last := getLE b 1 1 / 4 % 2 == 1, seq := getLE b 2 2, ack := getLE b 4 2, cred := getLE b 6 2,
    dst := getLE b 8 4 % 2 ^ 18, src := getLE b 0x0C 4 % 2 ^ 18, xchg := getLE b 0x10 2, round := getLE b 0x12 2, offset := getLE b 0x14 4,
    payload := (b.drop 0x18).take 224 }

/-- A type that the link numbers and delivers in order (15 R432). -/
def Flit.sequenced (x : Flit) : Bool := x.type == 1 || x.type == 2 || x.type == 3

/-- The port that carries a port's traffic: itself while UP, else the redundant port that has taken it over (15 R437). -/
def State.carrier (s : State) (p : Nat) : Option Nat :=
  if (s.kport p).state = 4 then some p
  else [6, 7].find? (fun r => let k := s.kport r; k.backing && k.mode == 2 && k.pair == p && k.state == 4)

/-- The logical port of flits that arrive on a port (15 R437). -/
def State.logicalPort (s : State) (p : Nat) : Nat := let k := s.kport p; if 6 ≤ p ∧ k.mode = 2 ∧ k.backing then k.pair else p

/-- The port a flit leaves by, and whether an override chose it; none when this device consumes it (15 R442, R444). -/
def State.route (s : State) (dst : Nat) : Option (Nat × Bool) :=
  if dst = s.nodeId then none
  else
    let hit := (List.range 32).findSome? (fun i =>
      let r := s.krl.routes.getD i 0
      if r.getLsbD 63 && ((BitVec.ofNat 18 dst ^^^ BitVec.ofNat 18 (field r 0 18)) &&& BitVec.ofNat 18 (field r 18 18)) == 0
      then some (field r 56 3) else none)
    match hit with
    | some p => some (p, true)
    | none => (List.range 3).findSome? (fun d =>
        let n := s.dimSize d
        let k := (coordOf dst d + n - coordOf s.nodeId d % n) % n
        if k = 0 then none else if 2 * k ≤ n then some (2 * d, false) else some (2 * d + 1, false))

/-- The channel a flit takes on its way out by a port; `from_` is the port it came in by (15 R443). -/
def State.outChannel (s : State) (x : Flit) (from_ : Option Nat) (p : Nat) (ovr : Bool) : Nat :=
  let low := x.vc / 2 * 2
  if ovr then low + 1
  else
    let d := p / 2
    let own := coordOf s.nodeId d
    let cross := if p % 2 = 0 then own + 1 == s.dimSize d else own == 0
    let base := match from_ with
      | some q => if 6 ≤ q ∨ q / 2 = d then x.vc else low
      | none => low
    if cross then low + 1 else base

/-- The channel with the most buffers whose credit is due, and how many of them a flit can give back (15 R431, R435). -/
def KPort.creditDue (k : KPort) : Nat × Nat :=
  let c := [0, 1, 2, 3].foldl (fun a i => if k.owed.getD a 0 < k.owed.getD i 0 then i else a) 0
  (c, min 15 (k.owed.getD c 0))

/-- Sends what a port can send, control channels first; the first argument bounds the flits (15 R434, R435, R443). -/
def State.pump (s : State) (p : Nat) : Nat → State
  | 0 => s
  | n + 1 =>
    let k := s.kport p
    let can (x : Flit) : Bool := !x.sequenced || (decide (k.replay.length < 128) && decide (0 < k.credits.getD x.vc 0))
    if k.state ≠ 4 ∨ k.hold then s
    else
      let pick := match k.out.findIdx? (fun x => decide (2 ≤ x.vc) && can x) with
        | some i => some i
        | none => k.out.findIdx? can
      match pick.bind (fun i => (k.out[i]?).map (fun x => (i, x))) with
      | none => s
      | some (i, x) =>
        let c := k.creditDue
        let y : Flit := { x with seq := if x.sequenced then k.txSeq else 0, ack := (k.rxSeq + 0xFFFF) % 0x10000, cred := c.2 + 16 * c.1 }
        (s.updPort p (fun k => { k with
          out := k.out.eraseIdx i, sent := y :: k.sent, unacked := 0, owed := k.owed.mapIdx (fun j v => if j = c.1 then v - c.2 else v),
          txSeq := if x.sequenced then (k.txSeq + 1) % 0x10000 else k.txSeq,
          replay := if x.sequenced then k.replay ++ [{ flit := y, tick := s.ticks }] else k.replay,
          credits := if x.sequenced then k.credits.mapIdx (fun c v => if c = x.vc then v - 1 else v) else k.credits })).pump p n

/-- Puts a flit out by a port; a flit whose port is down with nothing to carry it is discarded and counted (15 R437). -/
def State.emitFlit (s : State) (p : Nat) (x : Flit) : State :=
  match s.carrier p with
  | some q => (s.updPort q (fun k => { k with out := k.out ++ [x] })).pump q 256
  | none => s.updPort p (fun k => { k with discard := k.discard + 1 })

/-- Routes a flit on its way: from this device, or from the port it came in by. -/
def State.forward (s : State) (x : Flit) (from_ : Option Nat) : State :=
  match s.route x.dst with
  | none => s
  | some (p, ovr) => s.emitFlit p { x with vc := s.outChannel x from_ p ovr }

/-- Sends an ABORT of an exchange to every other participant (15 R455). -/
def State.sendAborts (s : State) (id : Nat) (x : Xchg) (reason : Nat) : State :=
  ((List.range x.n).filter (fun i => i != x.self)).foldl (fun (s : State) i =>
    s.forward { type := 3, vc := 2, dst := x.nodes.getD i 0, src := s.nodeId, xchg := id, payload := leBytes 1 reason } none) s

/-- The exchanges of a query close; those that fail or are cancelled send ABORT (15 R455, R457). -/
def State.closeXchgs (s : State) (sel : Xchg → Bool) (reason : Option Nat) : State :=
  let gone := s.krl.xchgs.filter (fun p => sel p.2)
  let s1 := match reason with
    | some r => gone.foldl (fun (s : State) (p : Nat × Xchg) => s.sendAborts p.1 p.2 r) s
    | none => s
  { s1 with krl := { s1.krl with
    xchgs := s1.krl.xchgs.filter (fun p => !sel p.2), closed := (gone.map (·.1) ++ s1.krl.closed).eraseDups } }

end Sys2Proof.Machine
end

