-- ==== Sys2Proof/Machine/Ready.lean ====
section
/-! DEFINITION. What the dispatcher keeps of a tenant: descriptors, ready lists with their spill rings, waiting slots and
event flags (08 R219 to R231, R237, R239). -/

namespace Sys2Proof.Machine

/-- Changes the dispatcher's state of a tenant. -/
def State.updDisp (s : State) (f : Nat) (g : Disp → Disp) : State := s.updTenant f (fun x => { x with disp := g x.disp })

/-- The dispatcher's state of a tenant. -/
def State.disp (s : State) (f : Nat) : Disp := (s.tenant f).disp

/-- Changes a resident query of a tenant. -/
def State.updQuery (s : State) (f q : Nat) (g : Query → Query) : State :=
  s.updTenant f (fun x => { x with queries := x.queries.map (fun p => if p.1 = q then (p.1, g p.2) else p) })

/-- A task of a tenant by its descriptor's index. -/
def State.taskOf (s : State) (f d : Nat) : Option Task := (s.tenant f).disp.tasks.find? d

/-! ### Descriptors (08 R219, R239) -/

/-- The device address of a descriptor. -/
def Disp.descAddr (d : Disp) (i : Nat) : Nat := d.areaBase + 0x1000 + 64 * i

/-- The 64 B of a descriptor (08 R219). -/
def Task.bytes (k : Task) : List Byte :=
  leBytes 2 k.qslot ++ leBytes 2 k.qseq ++ leBytes 1 k.image ++ leBytes 1 k.pipe ++ leBytes 1 k.opFirst ++ leBytes 1 k.opLast
    ++ leBytes 4 k.morsel ++ leBytes 1 k.prio
    ++ leBytes 1 ((if k.once then 1 else 0) + (if k.spec then 2 else 0) + k.opFirst / 256 % 4 * 4 + k.opLast / 256 % 4 * 16)
    ++ leBytes 1 k.pips ++ leBytes 1 k.present.toNat ++ leBytes 8 k.param ++ leBytes 8 k.qstate
    ++ (List.range 4).flatMap (fun i => leBytes 8 (k.opnd.getD i 0).toNat)

/-- Stores a task's record, in the table and in the dispatch area. -/
def State.putTask (s : State) (f i : Nat) (k : Task) : State :=
  (s.updDisp f (fun d => { d with tasks := d.tasks.set i k })).writeBytes f ((s.disp f).descAddr i) k.bytes

/-- The lowest free descriptor. -/
def Disp.freeDesc (d : Disp) : Option Nat := (List.range 32768).find? (fun i => (d.tasks.find? i).isNone)

/-- Matching-store slots in use by a tenant (08 R223). -/
def Disp.slotsUsed (d : Disp) : Nat := (d.tasks.filter (fun p => p.2.slot.isSome)).length

/-- The slots in use beyond the reservations (08 R224). -/
def State.sharedSlots (s : State) : Nat := s.tenants.foldl (fun a p => a + (p.2.disp.slotsUsed - 256)) 0

/-- How many tenants are created. -/
def State.created (s : State) : Nat := (s.tenants.filter (fun p => p.2.tstate != .none)).length

/-- A tenant may take n more slots (08 R224); the parts without a matching store hold operands in the descriptors (08 R226). -/
def State.slotRoom (s : State) (f n : Nat) : Bool :=
  let u := (s.disp f).slotsUsed
  s.part != .aq680
    || (decide (u + n ≤ 8192) && decide (s.sharedSlots + ((u + n - 256) - (u - 256)) ≤ 32768 - 256 * s.created))

/-- The lowest slot of the matching store that no task holds. -/
def State.freeSlot (s : State) : Option Nat :=
  let used := s.tenants.flatMap (fun p => p.2.disp.tasks.filterMap (fun k => k.2.slot))
  (List.range 32768).find? (fun i => !used.contains i)

/-! ### Ready lists and spill rings (08 R230, R231, R239) -/

/-- On-chip entries of a tenant. -/
def Disp.onchipUsed (d : Disp) : Nat := d.onchip.foldl (fun a p => a + p.2.length) 0

/-- On-chip entries in use beyond the reservations. -/
def State.sharedReady (s : State) : Nat := s.tenants.foldl (fun a p => a + (p.2.disp.onchipUsed - 128)) 0

/-- A tenant may take one more on-chip entry (08 R230). -/
def State.readyRoom (s : State) (f : Nat) : Bool :=
  let u := (s.disp f).onchipUsed
  decide (u < 128) || (decide (u < 4224) && decide (s.sharedReady < 16384 - 128 * s.created))

/-- Entries a spill ring holds at most (08 R239). -/
def Disp.ringCap (d : Disp) : Nat := (d.areaLen - 0x201000) / 8 / 16

/-- A spill ring. -/
def Disp.ring (d : Disp) (p : Nat) : List SpillEnt := d.spill.getD p []

/-- Writes the entry at a place of a spill ring and the ring's head and tail (08 R239; log 23). -/
def State.spillSync (s : State) (f p : Nat) (at_ : Option (Nat × SpillEnt)) : State :=
  let d := s.disp f
  let h := d.heads.getD p 0
  let cap := max 1 d.ringCap
  let s1 := s.writeBytes f (d.areaBase + 16 * p) (leBytes 8 h ++ leBytes 8 ((h + (d.ring p).length) % cap))
  match at_ with
  | some (k, e) => s1.writeBytes f (d.areaBase + 0x201000 + p * ((d.areaLen - 0x201000) / 8) + 16 * ((h + k) % cap))
      (leBytes 16 (e.desc + e.qslot * 2 ^ 16 + e.epoch.toNat * 2 ^ 24))
  | none => s1

/-- Adds an entry at the tail of a spill ring. -/
def State.spillTail (s : State) (f p : Nat) (e : SpillEnt) : State :=
  let n := ((s.disp f).ring p).length
  (s.updDisp f (fun d => { d with spill := d.spill.set p (d.ring p ++ [e]) })).spillSync f p (some (n, e))

/-- Adds an entry at the head of a spill ring. -/
def State.spillHead (s : State) (f p : Nat) (e : SpillEnt) : State :=
  (s.updDisp f (fun d =>
    let cap := max 1 d.ringCap
    { d with spill := d.spill.set p (e :: d.ring p), heads := d.heads.set p ((d.heads.getD p 0 + cap - 1) % cap) })).spillSync f p (some (0, e))

/-- Marks where a task stands. -/
def State.setAt (s : State) (f i : Nat) (a : TStage) : State :=
  s.updDisp f (fun d => { d with tasks := d.tasks.map (fun p => if p.1 = i then (p.1, { p.2 with at_ := a }) else p) })

/-- The entry of a task in a spill ring. -/
def State.spillEnt (s : State) (f i : Nat) : SpillEnt :=
  { desc := i, qslot := ((s.taskOf f i).map (·.qslot)).getD 0, epoch := s.epochOf f }

/-- A new ready entry takes its place: on chip, in the place of a displaced entry, or in its spill ring (08 R231). -/
def State.readyPut (s : State) (f i : Nat) : State :=
  let p := ((s.taskOf f i).map (·.prio)).getD 0
  let d := s.disp f
  let onchip (s : State) : State :=
    (s.updDisp f (fun d => { d with onchip := d.onchip.upd p [] (fun l => l ++ [i]) })).setAt f i .ready
  let s : State := { s with lastReady := s.ticks }
  if (d.ring p).length ≠ 0 then (s.setAt f i .spilled).spillTail f p (s.spillEnt f i)
  else if s.readyRoom f then onchip s
  else match ((List.range 8).reverse.filter (fun q => decide (p < q))).find? (fun q => d.onchip.getD q [] != [] && decide ((d.ring q).length < d.ringCap)) with
    | some q => match (d.onchip.getD q []).getLast? with
      | some j =>
        onchip (((s.updDisp f (fun d => { d with onchip := d.onchip.upd q [] (·.dropLast) })).setAt f j .spilled).spillHead f q (s.spillEnt f j))
      | none => s
    | none => (s.setAt f i .spilled).spillTail f p (s.spillEnt f i)

/-- A ready entry of a priority finds a place (08 R220, R231). -/
def State.readyOk (s : State) (f p : Nat) : Bool :=
  let d := s.disp f
  ((d.ring p).length == 0 && (s.readyRoom f
    || ((List.range 8).filter (fun q => decide (p < q))).any (fun q => d.onchip.getD q [] != [] && decide ((d.ring q).length < d.ringCap))))
    || decide ((d.ring p).length < d.ringCap)

/-! ### Waiting tasks and flags (08 R223, R227, R228) -/

/-- Whether a waiting task has all its Pips and flags (08 R223). -/
def Task.fires (k : Task) (flags : Word) : Bool :=
  k.at_ == .waiting && ((List.range 4).filter (fun i => k.present.getLsbD i)).length == k.pips && (flags &&& k.fmask) == k.fmask

/-- Gives up the waiters of a flag mask: a flag whose count reaches 0 is cleared and freed (08 R228). -/
def Disp.unwait (d : Disp) (mask : Word) : Disp :=
  let idx := (List.range 64).filter (fun i => mask.getLsbD i)
  let w := idx.foldl (fun (w : Tab Nat) i => w.upd i 0 (· - 1)) d.waiters
  let zero : Word := (idx.filter (fun i => w.getD i 0 == 0)).foldl (fun a i => a ||| ((1 : Word) <<< i)) 0
  { d with waiters := w, flags := d.flags &&& ~~~zero, allocd := d.allocd &&& ~~~zero }

/-- A waiting task fires if it can: its operands go into the descriptor, its slot is freed, it becomes ready (08 R223, R228). -/
def State.tryFire (s : State) (f i : Nat) : State :=
  match s.taskOf f i with
  | none => s
  | some k =>
    if k.fires (s.disp f).flags then
      ((s.updDisp f (fun d => d.unwait k.fmask)).putTask f i { k with slot := none, at_ := .ready }).readyPut f i
    else s

/-- Sets allocated flags of a tenant, and fires what waited for them (08 R223, R227). -/
def State.setFlags (s : State) (f : Nat) (mask : Word) : State :=
  let s1 := s.updDisp f (fun d => { d with flags := d.flags ||| (mask &&& d.allocd) })
  ((s1.disp f).tasks.filter (fun p => p.2.fmask != 0)).foldl (fun s p => s.tryFire f p.1) s1

/-- A pulse or trigger that names a flag: set when it is allocated and the epoch is the tenant's, else counted (08 R227). -/
def State.pulseFlag (s : State) (f flag : Nat) (epoch : BitVec 8) : State :=
  if (s.disp f).allocd.getLsbD flag && epoch == s.epochOf f then s.setFlags f ((1 : Word) <<< flag)
  else s.updDisp f (fun d => { d with strayFlag := d.strayFlag + 1 })

/-- Allocates the lowest free flag, 0xFF when none is free (08 R228). -/
def State.allocFlag (s : State) (f : Nat) : Nat × State :=
  match (List.range 64).find? (fun i => !(s.disp f).allocd.getLsbD i) with
  | some i => (i, s.updDisp f (fun d => { d with
      allocd := d.allocd ||| ((1 : Word) <<< i), flags := d.flags &&& ~~~((1 : Word) <<< i), waiters := d.waiters.set i 0 }))
  | none => (0xFF, s)

/-- Frees a descriptor. -/
def State.freeTask (s : State) (f i : Nat) : State := s.updDisp f (fun d => { d with tasks := d.tasks.erase i })

/-- Drops the waiting and ready tasks of a query that a test selects: on-chip entries and slots are freed at once, with
their flags' waiters; a spilled entry is discarded at refill (08 R237). -/
def State.dropTasks (s : State) (f q : Nat) (sel : Task → Bool) : State :=
  s.updDisp f (fun d =>
    let gone := d.tasks.filter (fun p => p.2.qslot = q && sel p.2 && (p.2.at_ == .waiting || p.2.at_ == .ready))
    let ids := gone.map (·.1)
    let d1 := (gone.filter (fun p => p.2.at_ == .waiting)).foldl (fun (d : Disp) p => d.unwait p.2.fmask) d
    { d1 with tasks := d1.tasks.filter (fun p => !ids.contains p.1),
              onchip := d1.onchip.map (fun p => (p.1, p.2.filter (fun i => !ids.contains i))) })

/-! ### Refill (08 R231, R237) -/

/-- Moves up to n entries from the spill rings on chip, highest priority first; entries of an ended or failed query, of
an old epoch or past a LIMIT's cut are discarded (04 R111). -/
def State.refillGo (s : State) (f : Nat) : Nat → State
  | 0 => s
  | n + 1 =>
    match (List.range 8).find? (fun p => (s.disp f).ring p != []) with
    | none => s
    | some p => match (s.disp f).ring p with
      | [] => s
      | e :: r =>
        let s1 := (s.updDisp f (fun d => { d with spill := d.spill.set p r, heads := d.heads.set p ((d.heads.getD p 0 + 1) % max 1 d.ringCap) })).spillSync f p none
        let live : Bool := e.epoch == s.epochOf f && (match (s.tenant f).queries.find? e.qslot, s.taskOf f e.desc with
          | some q, some k => !q.cancelled && k.at_ == .spilled && k.qslot == e.qslot
            && (k.once || (match (q.pipes.getD k.pipe {}).cut with | some m => decide (k.seq ≤ m) | none => true))
          | _, _ => false)
        if live then
          ((s1.updDisp f (fun d => { d with onchip := d.onchip.upd p [] (fun l => l ++ [e.desc]) })).setAt f e.desc .ready).refillGo f n
        else (s1.freeTask f e.desc).refillGo f n

/-- A refill, when the tenant has 64 free on-chip entries (08 R231). -/
def State.refill (s : State) (f : Nat) : State :=
  let u := (s.disp f).onchipUsed
  if (List.range 8).all (fun p => (s.disp f).ring p == []) then s
  else if decide (u + 64 ≤ 128) || (decide (u + 64 ≤ 4224) && decide (s.sharedReady + 64 ≤ 16384 - 128 * s.created)) then s.refillGo f 64
  else s

/-- REFILL: spilled entries move on chip in one burst (08 R231). -/
def execRefill (f : Nat) (s : State) : Host.Outcome State Fault Refusal := .next (s.refill f)

end Sys2Proof.Machine
end

