-- ==== Sys2Proof/Machine/Tasks.lean ====
section
/-! DEFINITION. The end of a query by failure, cancellation or completion, and the reset of a tile (04 R105, R117; 06 R156;
08 R237; 09 R260; 14 R417, R419; 15 R455; 19 R555, R568). -/

namespace Sys2Proof.Machine

/-! ### Action entries (14 R417, R419) -/

/-- The tick saturating at 32 bits. -/
def lateness (s : State) (due : Option Nat) : Nat :=
  match due with
  | some d => min (s.ticks - d) 0xFFFFFFFF
  | none => 0

/-- An entry launches, is dropped or is disarmed: its status record first, then its flag; the entry is freed (14 R417). -/
def State.actEnd (s : State) (e : Nat) (a : Action) (outcome : Nat) : State :=
  let late := lateness s a.due
  let s1 := if a.status = 0 then s else s.writeBytes a.f a.status (leBytes 8 (outcome + late * 2 ^ 32))
  let s2 := if a.flag = 0xFF then s1 else s1.setFlags a.f ((1 : Word) <<< a.flag)
  { s2 with cad := { s2.cad with acts := s2.cad.acts.erase e } }

/-- Every entry that a test selects is disarmed (14 R419). -/
def State.disarmAll (s : State) (sel : Action → Bool) : State :=
  (s.cad.acts.filter (fun p => sel p.2)).foldl (fun (s : State) (p : Nat × Action) => s.actEnd p.1 p.2 6) s

/-! ### Queries -/

/-- The tiles that run a task of a query, with their runs. -/
def State.tilesOf (s : State) (f q : Nat) : List Nat :=
  s.tiles.filterMap (fun p => match p.2.task with
    | some r => if r.f = f ∧ (s.taskOf f r.desc).map (·.qslot) = some q then some p.1 else none
    | none => none)

/-- Raises CANCEL on the cores that run a query's tasks which a test selects (08 R237). -/
def State.cancelCores (s : State) (f q : Nat) (sel : Task → Bool) : State :=
  (s.tilesOf f q).foldl (fun (s : State) t => match (s.tile t).task.bind (fun r => s.taskOf f r.desc) with
    | some k => if sel k then s.updCore t (fun c => { c with qipend := c.qipend ||| 1 }) else s
    | none => s) s

/-- What a query's end brings in the engines, in Cadence and in the Blotters of its tiles (03 R80; 14 R419; 19 R555, R568). -/
def State.endEngines (s : State) (f q : Nat) : State :=
  let s1 := (s.tilesOf f q).foldl (fun (s : State) t =>
    s.updTile t (fun x => { x with stroke := { x.stroke with blot := x.stroke.blot.filter (fun b => b.2.tag != q) } })) s
  ((s1.dmaEndAll 0x0301 (fun x => x.f == f && x.qslot == q)).dgsEndAll 0x0301 (fun g m => g == f && m.qslot == q)).disarmAll
    (fun a => a.f == f && a.qslot == q)

/-- A query leaves: its results and its parameter copy are freed, its slot becomes free, and its command completes with
the bytes that EMIT wrote (04 R105, R116, R117; 17 R501). -/
def State.retireQuery (s : State) (f q : Nat) (x : Query) (status : Nat) : State :=
  let s1 := x.locals.foldl (fun (s : State) a => s.unplace f a) s
  (s1.updTenant f (fun y => { y with queries := y.queries.erase q })).workDone x.work
    { status, info := x.emitted, partial_ := status != 0 && x.emitted != 0 }

/-- A failed query completes once none of its tasks runs (04 R117). -/
def State.finishFailed (s : State) (f q : Nat) : State :=
  match (s.tenant f).queries.find? q with
  | none => s
  | some x => match x.failed with
    | some st => if (s.tilesOf f q).isEmpty then s.retireQuery f q x st else s
    | none => s

/-- The reason an ABORT carries for a query's failure (15 R432, R455). -/
def abortReason (status : Nat) : Nat := if status = 0x0602 then 1 else if status = 0x0307 then 2 else 3

/-- A query fails or is cancelled: the first failure is recorded, waiting work dropped, running tasks told to stop,
exchanges closed (04 R117, 08 R237, 15 R455). -/
def State.failQuery (s : State) (f q status : Nat) : State :=
  match (s.tenant f).queries.find? q with
  | none => s
  | some x =>
    if x.failed.isSome then s
    else
      let s1 := (s.updQuery f q (fun x => { x with failed := some status, cancelled := true })).dropTasks f q (fun _ => true)
      let s2 := (s1.cancelCores f q (fun _ => true)).endEngines f q
      (s2.closeXchgs (fun y => y.f == f && y.qslot == q) (some (abortReason status))).finishFailed f q

/-- The query of the task that runs on a tile fails (04 R117). -/
def State.failTask (s : State) (t status : Nat) : State :=
  match (s.tile t).task with
  | none => s
  | some r => match s.taskOf r.f r.desc with
    | some k => s.failQuery r.f k.qslot status
    | none => s

/-- The task a tile runs is gone without a DSP_DONE: its descriptor is freed and its query's end is looked at. -/
def State.loseTask (s : State) (t : Nat) : State :=
  match (s.tile t).task with
  | none => s
  | some r =>
    let q := (s.taskOf r.f r.desc).map (·.qslot)
    let s1 := ((s.updTile t (fun x => { x with task := none })).freeTask r.f r.desc).releaseHold r.f r.desc
    match q with
    | some q => s1.finishFailed r.f q
    | none => s1

/-- A tile resets: its core, L1 caches, Stroke unit and Blotter take their reset values, every line invalidated with
no writeback; the binding and the runtime entry address stay (06 R156, 09 R260). -/
def State.resetTile (s : State) (t : Nat) : State :=
  (s.updTile t (fun x => { x with core := { pc := s.entryPc, released := x.core.released }, l1 := {}, stroke := {} })).loseTask t

end Sys2Proof.Machine
end

