-- ==== Sys2Proof/Machine/Segment.lean ====
section
/-! DEFINITION. Segments as they lie in device memory: header, checks, Nibs, validity, zone map (02 R19 to R38, R42). -/

namespace Sys2Proof.Machine

/-- W of a header: 4 bits a plane (02 R19). -/
def SegHdr.width (h : SegHdr) : Nat := 4 * h.nplanes

/-- The header that 64 bytes spell (02 R25). -/
def parseHdr (b : List Byte) : SegHdr :=
  { nplanes := getLE b 5 1, xform := getLE b 6 1, scale := getLE b 7 1, rows := getLE b 8 4, nulls := getLE b 12 4,
    presence := getLE b 16 4, constNibs := getLE b 0x18 8, segMin := getLE b 0x20 8, segMax := getLE b 0x28 8,
    base := getLE b 0x30 8, dictId := getLE b 0x38 4 }

/-- The presence code of plane p (02 R25, R26). -/
def SegHdr.pres (h : SegHdr) (p : Nat) : Nat := h.presence / 4 ^ p % 4

/-- The constant Nib of an elided plane (02 R26). -/
def SegHdr.constNib (h : SegHdr) (p : Nat) : Nat := if h.pres p = 1 then h.constNibs / 16 ^ p % 16 else 0

/-- W is allowed for a transform, and the scale is in range: 0 but for a decimal (02 R25, R34, R36). -/
def xformOk (x w scale : Nat) : Bool :=
  match x with
  | 0 | 1 => decide (4 ≤ w ∧ w ≤ 64) && scale == 0
  | 2 => (w == 32 || w == 64) && scale == 0
  | 3 => (w == 32 && decide (scale ≤ 9)) || (w == 64 && decide (scale ≤ 18))
  | 4 | 5 => decide (4 ≤ w ∧ w ≤ 32) && scale == 0
  | _ => false

/-- Directory entry p of the 128 B plane directory: offset, blocks, reserved (02 R27). -/
def dirEnt (dir : List Byte) (p : Nat) : Nat × Nat × Nat := (getLE dir (8 * p) 4, getLE dir (8 * p + 4) 2, getLE dir (8 * p + 6) 2)

/-- Every directory entry meets R27 (02 R42 check 8). -/
def dirOk (h : SegHdr) (dir : List Byte) : Bool :=
  let one (p : Nat) : Bool :=
    let (o, n, r) := dirEnt dir p
    if p < h.nplanes ∧ h.pres p = 2 then
      o % 256 == 0 && decide (0x2200 ≤ o) && decide ((h.rows + 511) / 512 ≤ n) && decide (n ≤ 128) && r == 0
    else o == 0 && n == 0 && r == 0
  let st := (List.range h.nplanes).filter (fun p => h.pres p == 2)
  let apart (p q : Nat) : Bool :=
    let (o1, n1, _) := dirEnt dir p
    let (o2, n2, _) := dirEnt dir q
    decide (o1 + 256 * n1 ≤ o2) || decide (o2 + 256 * n2 ≤ o1)
  (List.range 16).all one && st.all (fun p => st.all (fun q => p == q || apart p q))

/-- The first check of R42 that a header fails, by its code; checks 4 and 7 need the object's descriptor and are made
by `segCheck` (02 R42). -/
def hdrCheck (b dir : List Byte) : Option Nat :=
  let h := parseHdr b
  if getLE b 0 4 != 0x31464353 || getLE b 4 1 != 1 then some 1
  else if crc32c (b.take 0x3C ++ zeros 4) != getLE b 0x3C 4 then some 2
  else if (List.range 16).any (fun p => decide (p < h.nplanes) && h.pres p == 3) then some 3
  else if h.nplanes = 0 ∨ 16 < h.nplanes ∨ !xformOk h.xform h.width 0 then some 5
  else if h.rows = 0 ∨ 65536 < h.rows ∨ h.rows < h.nulls then some 6
  else if !dirOk h dir then some 8
  else if getLE b 0x14 4 != 0 || h.presence / 4 ^ h.nplanes != 0
      || (List.range 16).any (fun p => (decide (h.nplanes ≤ p) || h.pres p != 1) && h.constNibs / 16 ^ p % 16 != 0) then some 9
  else none

/-- Logs an invalid header or descriptor (02 R42, 23 R680). -/
def State.logSegment (s : State) (owner ukind unit obj seg code : Nat) : State :=
  s.log 0x40 1 owner ukind unit 0x0402 (obj * 2 ^ 32 + seg) code

/-- The Nib of row r in the bytes of a plane: low Nib for an even row (02 R21). -/
def nibAt (b : List Byte) (r : Nat) : Nat := let x := (b.getD (r / 2) 0).toNat; if r % 2 = 0 then x % 16 else x / 16

/-- Bit i of a bitmap in bytes: bit i mod 8 of byte i div 8 (02 R30, 03 R65). -/
def bitAt (b : List Byte) (i : Nat) : Bool := (b.getD (i / 8) 0).getLsbD (i % 8)

/-- The transformed value of a source value's bits under a transform, W bits (02 R34, R35). -/
def transform (x w v : Nat) : Nat :=
  let m := v % 2 ^ w
  let top := 2 ^ (w - 1)
  match x with
  | 1 | 3 => (m + top) % 2 ^ w
  | 2 => if m < top then m + top else 2 ^ w - 1 - m
  | _ => m

/-- The source value's bits from a transformed value (02 R34). -/
def untransform (x w t : Nat) : Nat :=
  let m := t % 2 ^ w
  let top := 2 ^ (w - 1)
  match x with
  | 1 | 3 => (m + top) % 2 ^ w
  | 2 => if top ≤ m then m - top else 2 ^ w - 1 - m
  | _ => m

end Sys2Proof.Machine
end

