-- ==== Sys2Proof/Machine/Columns.lean ====
section
/-! DEFINITION. Column objects: descriptors, opening a segment, reading rows, building, changing and publishing segments
(02 R23 to R48, R712), and the conversion of source values (02 R49, R711). -/

namespace Sys2Proof.Machine

/-! ### Descriptors (02 R39, R42) -/

/-- A column descriptor. -/
structure ObjDesc where
  objId : Nat
  nplanes : Nat
  xform : Nat
  scale : Nat
  flags : Nat
  rows : Nat
  segTable : Nat
  segCap : Nat
  segCount : Nat
  dictId : Nat
  deriving DecidableEq, Repr

/-- W of an object. -/
def ObjDesc.width (d : ObjDesc) : Nat := 4 * d.nplanes
/-- NO_BASE and SEALED_ONLY. -/
def ObjDesc.noBase (d : ObjDesc) : Bool := d.flags % 2 == 1
def ObjDesc.sealedOnly (d : ObjDesc) : Bool := d.flags / 2 % 2 == 1

/-- Reads a descriptor's fields. -/
def parseObj (b : List Byte) : ObjDesc :=
  { objId := getLE b 0 4, nplanes := getLE b 4 1, xform := getLE b 5 1, scale := getLE b 6 1, flags := getLE b 7 1, rows := getLE b 8 8,
    segTable := getLE b 0x10 8, segCap := getLE b 0x18 4, segCount := getLE b 0x1C 4, dictId := getLE b 0x20 4 }

/-- The 64 B of a descriptor. -/
def ObjDesc.bytes (d : ObjDesc) : List Byte :=
  leBytes 4 d.objId ++ leBytes 1 d.nplanes ++ leBytes 1 d.xform ++ leBytes 1 d.scale ++ leBytes 1 d.flags ++ leBytes 8 d.rows
    ++ leBytes 8 d.segTable ++ leBytes 4 d.segCap ++ leBytes 4 d.segCount ++ leBytes 4 d.dictId ++ zeros 28

/-- The first check of a descriptor that fails, by its code (02 R42). -/
def objCheck (k : Nat) (b : List Byte) : Option Nat :=
  let d := parseObj b
  if d.objId ≠ k then some 10
  else if d.nplanes = 0 ∨ 16 < d.nplanes ∨ !xformOk d.xform d.width d.scale then some 11
  else if d.segTable % 64 ≠ 0 ∨ d.segCap = 0 ∨ 65536 < d.segCap ∨ d.segCap < d.segCount
      ∨ !(if d.segCount = 0 then d.rows == 0 else decide (65536 * (d.segCount - 1) + 1 ≤ d.rows ∧ d.rows ≤ 65536 * d.segCount)) then some 12
  else if d.flags / 4 ≠ 0 ∨ (b.drop 0x24).any (fun x => x != 0) then some 13
  else none

/-- What the device finds at an entry of the column directory. -/
inductive ObjRes where
  | absent
  | poisoned
  | bad (code : Nat)
  | ok (d : ObjDesc)
  deriving DecidableEq, Repr

/-- The device address of a descriptor (20 R581). -/
def State.objAddr (s : State) (f k : Nat) : Nat := (offsetAddr (s.tenant f).alloc (64 * k)).getD 0

/-- Reads the descriptor of an object (02 R42; 17 R505). -/
def State.readObj (s : State) (f k : Nat) : ObjRes :=
  let r := s.readBytes (s.objAddr f k) 64
  if r.2 then .poisoned
  else if r.1.all (fun x => x == 0) then .absent
  else match objCheck k r.1 with
    | some c => .bad c
    | none => .ok (parseObj r.1)

/-- Stores a descriptor as one line. -/
def State.putObj (s : State) (f : Nat) (d : ObjDesc) : State := s.writeBytes f (s.objAddr f d.objId) d.bytes

/-! ### Segments -/

/-- A segment as a command or task has opened it: the header snapshot, the directory, its address (02 R43). -/
structure Seg where
  addr : Nat
  hdr : SegHdr
  dir : List Byte
  deriving DecidableEq, Repr

/-- The first check of R42 that a segment header fails against its descriptor. -/
def segCheck (d : ObjDesc) (seg : Nat) (b dir : List Byte) : Option Nat :=
  let h := parseHdr b
  let c := hdrCheck b dir
  let upTo (k : Nat) : Option Nat := c.bind (fun x => if x ≤ k then some x else none)
  match upTo 3 with
  | some x => some x
  | none =>
    if h.nplanes ≠ d.nplanes ∨ h.xform ≠ d.xform ∨ h.scale ≠ d.scale ∨ h.dictId ≠ d.dictId then some 4
    else match upTo 6 with
      | some x => some x
      | none => if seg + 1 < d.segCount ∧ h.rows ≠ 65536 then some 7 else c

/-- Opens a segment of an object: its header and directory, or the status of the failure (02 R42, R43). -/
def State.openSeg (s : State) (f ukind unit : Nat) (d : ObjDesc) (seg : Nat) : State × (Nat ⊕ Seg) :=
  let t := s.readBytes (d.segTable + 8 * seg) 8
  let a := leNat t.1
  let hb := s.readBytes a 64
  let db := s.readBytes (a + 0x40) 128
  if t.2 || hb.2 || db.2 then (s, .inl 0x0401)
  else match segCheck d seg hb.1 db.1 with
    | some c => (s.logSegment f ukind unit d.objId seg c, .inl 0x0402)
    | none => (s, .inr { addr := a, hdr := parseHdr hb.1, dir := db.1 })

/-- The Nibs of bytes, low Nib first (02 R21). -/
def nibsOf (b : List Byte) : List Nat := b.flatMap (fun x => [x.toNat % 16, x.toNat / 16])

/-- The Nibs of rows lo to hi − 1 in a plane, and whether a line of them is Blot (02 R21, R26). -/
def State.segNibs (s : State) (g : Seg) (p lo hi : Nat) : List Nat × Bool :=
  if g.hdr.pres p ≠ 2 then (List.replicate (hi - lo) (g.hdr.constNib p), false)
  else
    let r := s.readBytes (g.addr + (dirEnt g.dir p).1 + lo / 2) ((hi + 1) / 2 - lo / 2)
    (((nibsOf r.1).drop (lo % 2)).take (hi - lo), r.2)

/-- The codes of rows lo to hi − 1, and whether a line of them is Blot. -/
def State.segCodes (s : State) (g : Seg) (lo hi : Nat) : List Nat × Bool :=
  (List.range g.hdr.nplanes).foldl (fun acc p =>
    let n := s.segNibs g p lo hi
    (List.zipWith (fun c x => 16 * c + x) acc.1 n.1, acc.2 || n.2)) (List.replicate (hi - lo) 0, false)

/-- The validity of rows lo to hi − 1, and whether a bitmap line of them is Blot (02 R30). -/
def State.segValid (s : State) (g : Seg) (lo hi : Nat) : List Bool × Bool :=
  if g.hdr.nulls = 0 then (List.replicate (hi - lo) true, false)
  else
    let r := s.readBytes (g.addr + 0x200 + lo / 8) ((hi + 7) / 8 - lo / 8)
    let bits := r.1.flatMap (fun x => (List.range 8).map (fun i => x.getLsbD i))
    ((bits.drop (lo % 8)).take (hi - lo), r.2)

/-- The transformed values of rows lo to hi − 1, null rows none; no list where a line read is Blot (02 R32). -/
def State.segVals (s : State) (g : Seg) (lo hi : Nat) : Option (List (Option Nat)) :=
  let c := s.segCodes g lo hi
  let v := s.segValid g lo hi
  if c.2 || v.2 then none else some (List.zipWith (fun (x : Nat) (b : Bool) => if b then some (x + g.hdr.base) else none) c.1 v.1)

/-- Whether a line of a byte range is Blot. -/
def State.blotIn (s : State) (a n : Nat) : Bool := (s.readBytes a n).2

/-! ### Building a segment whole (02 R24 to R33) -/

/-- Lowest and highest of the valid values; all ones and 0 where there is none (02 R29). -/
def minMax (l : List (Option Nat)) : Nat × Nat :=
  l.foldl (fun a v => match v with | some x => (min a.1 x, max a.2 x) | none => a) (2 ^ 64 - 1, 0)

/-- The codes of rows for a base and the segment's lowest and highest value: null rows take the code of SEG_MIN, 0 where
no row is valid (02 R31, R32). -/
def codesFor (base : Nat) (mm : Nat × Nat) (vals : List (Option Nat)) : List Nat :=
  let fill := if mm.2 < mm.1 then 0 else mm.1 - base
  vals.map (fun v => match v with | some x => x - base | none => fill)

/-- The Nibs of plane p of codes of n planes. -/
def planeOf (n p : Nat) (codes : List Nat) : List Nat := codes.map (fun c => c / 16 ^ (n - 1 - p) % 16)

/-- The presence code and constant of a plane's Nibs (02 R26). -/
def presOf (nibs : List Nat) : Nat × Nat :=
  match nibs with
  | [] => (0, 0)
  | x :: _ => if nibs.all (fun y => y == x) then (if x = 0 then (0, 0) else (1, x)) else (2, 0)

/-- How many planes a base stores. -/
def storedPlanes (n base : Nat) (mm : Nat × Nat) (vals : List (Option Nat)) : Nat :=
  ((List.range n).filter (fun p => (presOf (planeOf n p (codesFor base mm vals))).1 == 2)).length

/-- Bytes of Nibs, low Nib first; the first argument is the number of bytes. -/
def packNibs : Nat → List Nat → List Byte
  | 0, _ => []
  | k + 1, l => BitVec.ofNat 8 ((l.headD 0) + 16 * ((l.drop 1).headD 0)) :: packNibs k (l.drop 2)

/-- A header with its HCRC (02 R25). -/
def hdrBytes (h : SegHdr) : List Byte :=
  let b := leBytes 4 0x31464353 ++ leBytes 1 1 ++ leBytes 1 h.nplanes ++ leBytes 1 h.xform ++ leBytes 1 h.scale ++ leBytes 4 h.rows
    ++ leBytes 4 h.nulls ++ leBytes 4 h.presence ++ leBytes 4 0 ++ leBytes 8 h.constNibs ++ leBytes 8 h.segMin ++ leBytes 8 h.segMax
    ++ leBytes 8 h.base ++ leBytes 4 h.dictId
  b ++ leBytes 4 (crc32c (b ++ zeros 4))

/-- The 256 B of a zone map; the first argument counts the entries left (02 R29). -/
def zoneBytes : Nat → List (Option Nat) → List Byte
  | 0, _ => []
  | k + 1, l => let m := minMax (l.take 4096); leBytes 8 m.1 ++ leBytes 8 m.2 ++ zoneBytes k (l.drop 4096)

/-- The validity bitmap's bytes of rows. -/
def bitmapBytes (n : Nat) (vals : List (Option Nat)) : List Byte := packBools n (vals.map (·.isSome))
where
  /-- Bits packed eight to a byte. -/
  packBools : Nat → List Bool → List Byte
    | 0, _ => []
    | k + 1, l => BitVec.ofNat 8 (((l.take 8).foldr (fun b a => 2 * a + (if b then 1 else 0)) 0)) :: packBools k (l.drop 8)

/-- The whole extent of a segment holding the values; `shut` lets a base be chosen (02 R24 to R33). -/
def buildSeg (d : ObjDesc) (vals : List (Option Nat)) (shut : Bool) : List Byte :=
  let n := d.nplanes
  let mm := minMax vals
  let base := if shut && !d.noBase && decide (mm.1 ≤ mm.2)
      && decide (storedPlanes n mm.1 mm vals < storedPlanes n 0 mm vals) then mm.1 else 0
  let codes := codesFor base mm vals
  let planes := (List.range n).map (fun p => planeOf n p codes)
  let pres := planes.map presOf
  let stored := (List.range n).filter (fun p => ((pres.map (·.1)).getD p 0) == 2)
  let dir := (List.range 16).flatMap (fun p => match stored.idxOf? p with
    | some i => leBytes 4 (0x2200 + 32768 * i) ++ leBytes 2 128 ++ leBytes 2 0
    | none => zeros 8)
  let h : SegHdr := {
    nplanes := n, xform := d.xform, scale := d.scale, rows := vals.length, nulls := (vals.filter (·.isNone)).length,
    presence := ((List.range n).foldl (fun a p => a + (pres.getD p (0, 0)).1 * 4 ^ p) 0), constNibs := ((List.range n).foldl (fun a p => a + (pres.getD p (0, 0)).2 * 16 ^ p) 0),
    segMin := mm.1, segMax := mm.2, base, dictId := d.dictId }
  hdrBytes h ++ dir ++ zoneBytes 16 vals ++ zeros 64 ++ bitmapBytes 8192 vals
    ++ stored.flatMap (fun p => packNibs 32768 (planes.getD p []))

/-! ### Publishing -/

/-- A whole segment goes into a fresh extent and its table entry is stored; the old extent retires (02 R45, R46, R48).
Answers the status. -/
def State.publish (s : State) (f : Nat) (d : ObjDesc) (seg : Nat) (old : Option Nat) (ext : List Byte) : State × Nat :=
  let e := d.segTable + 8 * seg
  if s.blotIn e 8 then (s, 0x0401)
  else match s.place f ext.length 256 with
    | none => (s, 0x0307)
    | some (a, s1) =>
      let s2 := (s1.writeBytes f a ext).writeBytes f e (leBytes 8 a)
      match old with
      | some o => (s2.retire f o, 0)
      | none => (s2, 0)

/-! ### Changing a segment in place (02 R43 to R45, R712) -/

/-- The new bytes of one line that packs `per` rows of `bits` bits each: rows lo to hi − 1 take new values, the others
keep theirs, or 0 where the line is replaced whole. Gives none where a row must be kept and the line is Blot. -/
def State.mergedLine (s : State) (a per bits lo hi rows r0 : Nat) (new : Nat → Nat) : Option (List Byte) :=
  let whole : Bool := (List.range per).all (fun i => decide (lo ≤ r0 + i ∧ r0 + i < hi) || decide (rows ≤ r0 + i))
  let old := s.readBytes a 64
  if old.2 && !whole then none
  else
    let o := leNat old.1
    let v := (List.range per).foldr (fun i acc =>
      let r := r0 + i
      let x := if lo ≤ r ∧ r < hi then new (r - lo) else if whole then 0 else o / 2 ^ (bits * i) % 2 ^ bits
      acc * 2 ^ bits + x) 0
    some (leBytes 64 v)

/-- The lines of a packed area that rows lo to hi − 1 touch, each with its new bytes; none where a Blot line would have
to be merged. -/
def State.mergedLines (s : State) (base per bits lo hi rows : Nat) (new : Nat → Nat) : Option (List (Nat × List Byte)) :=
  ((List.range ((hi + per - 1) / per)).filter (fun l => decide (lo / per ≤ l))).foldr (fun l acc =>
    match acc, s.mergedLine (base + 64 * l) per bits lo hi rows (per * l) new with
    | some r, some b => some ((base + 64 * l, b) :: r)
    | _, _ => none) (some [])

/-- Writes a list of byte strings. -/
def State.writeAll (s : State) (f : Nat) (l : List (Nat × List Byte)) : State := l.foldl (fun s p => s.writeBytes f p.1 p.2) s

/-- The zone map of a segment after rows lo to hi − 1 take values: an append widens; a write recomputes a zone whose
other rows can be read and widens one whose rows cannot (02 R29, R44; log 21). -/
def State.newZones (s : State) (g : Seg) (append : Bool) (lo : Nat) (vals : List (Option Nat)) (zb : List Byte) : List (Nat × Nat) :=
  let hi := lo + vals.length
  (List.range 16).map (fun z =>
    let old := (getLE zb (16 * z) 8, getLE zb (16 * z + 8) 8)
    let z0 := 4096 * z
    let z1 := z0 + 4096
    if hi ≤ z0 ∨ z1 ≤ lo then old
    else
      let here := minMax ((vals.drop (z0 - lo)).take (min hi z1 - max lo z0))
      let widen := (min old.1 here.1, max old.2 here.2)
      if append then widen
      else
        let e := min z1 g.hdr.rows
        match s.segVals g z0 (min lo e), s.segVals g (max hi z0) e with
        | some x, some y =>
          let k := minMax (x ++ y)
          (min k.1 here.1, max k.2 here.2)
        | _, _ => widen)

/-- Rows lo to lo + n − 1 of a segment take values: in place, or by a rebuild into a fresh extent; an append that fills
the segment seals it. Answers the status; nothing is written unless it is 0 (02 R33, R43 to R46, R712). -/
def State.segChange (s : State) (f : Nat) (d : ObjDesc) (seg : Nat) (g : Seg) (append : Bool) (lo : Nat) (vals : List (Option Nat)) :
    State × Nat :=
  let h := g.hdr
  let hi := lo + vals.length
  let rows := max h.rows hi
  let zraw := s.readBytes (g.addr + 0xC0) 256
  let zoneBlot (z : Nat) : Bool := s.blotIn (g.addr + 0xC0 + 16 * z / 64 * 64) 64
  let zones := s.newZones g append lo vals zraw.1
  let own := minMax vals
  let seen := if append || zraw.2 then (min h.segMin own.1, max h.segMax own.2)
    else zones.foldl (fun a z => (min a.1 z.1, max a.2 z.2)) (2 ^ 64 - 1, 0)
  let kept := match s.segVals g 0 (min lo h.rows), s.segVals g (min hi h.rows) h.rows with
    | some x, some y => some (x, y)
    | _, _ => none
  -- NULLS: from the old bits, or recounted where a Blot bitmap line is replaced whole
  let touched := s.segValid g lo (min hi h.rows)
  let newNulls := (vals.filter (·.isNone)).length
  let recount := match s.segValid g 0 (min lo h.rows), s.segValid g (min hi h.rows) h.rows with
    | (x, false), (y, false) => some ((x ++ y).filter (fun b => !b)).length
    | _, _ => none
  let nulls : Option Nat :=
    if append then some (h.nulls + newNulls)
    else if h.nulls = 0 then some newNulls
    else if touched.2 then recount.map (· + newNulls)
    else some (h.nulls - (touched.1.filter (fun b => !b)).length + newNulls)
  match nulls with
  | none => (s, 0x0401)
  | some nulls =>
    let codes := codesFor h.base seen vals
    let anyValid := decide (seen.1 ≤ seen.2)
    let elided := (List.range h.nplanes).any (fun p =>
      h.pres p != 2 && (planeOf h.nplanes p codes).any (fun x => x != h.constNib p))
    let strayNull := !append && decide (newNulls < nulls) && (decide (h.segMin < seen.1) || decide (seen.2 < h.segMax)) && kept.isSome
    let rebuild := vals.any (fun v => match v with | some x => decide (x < h.base) | none => false) || elided
      || (!anyValid && (h.base != 0 || (List.range h.nplanes).any (fun p => h.pres p == 2))) || strayNull
    let sealing := append && rows == 65536
    let full := kept.map (fun k => k.1 ++ vals ++ k.2)
    let asBuilt := full.map (fun v => buildSeg d v (decide (rows = 65536) || d.sealedOnly))
    if rebuild then
      match asBuilt with
      | none => (s, 0x0401)
      | some ext => s.publish f d seg (some g.addr) ext
    else if sealing && !zraw.2 && (match asBuilt with | some e => getLE e 0x30 8 != 0 | none => false) then
      s.publish f d seg (some g.addr) (asBuilt.getD [])
    else
      let ca := codes.toArray
      let va := vals.toArray
      let stored := (List.range h.nplanes).filter (fun p => h.pres p == 2)
      let planes := stored.map (fun p => s.mergedLines (g.addr + (dirEnt g.dir p).1) 128 4 lo hi rows
        (fun i => ca.getD i 0 / 16 ^ (h.nplanes - 1 - p) % 16))
      let bits : Option (List (Nat × List Byte)) :=
        if nulls = 0 ∧ h.nulls = 0 then some []
        else if h.nulls = 0 then
          let all := List.replicate lo (some 0) ++ vals ++ List.replicate (h.rows - hi) (some 0)
          some [(g.addr + 0x200, bitmapBytes ((rows + 511) / 512 * 64) all)]
        else s.mergedLines (g.addr + 0x200) 512 1 lo hi rows (fun i => if (va.getD i none).isSome then 1 else 0)
      let zchg := (List.range 16).filter (fun z =>
        if zoneBlot z then decide (4096 * z < hi ∧ lo < 4096 * z + 4096) && (!append || ((vals.drop (4096 * z - lo)).take (min hi (4096 * z + 4096) - max lo (4096 * z))).any (·.isSome))
        else (getLE zraw.1 (16 * z) 8, getLE zraw.1 (16 * z + 8) 8) != zones.getD z (0, 0))
      match planes.foldr (fun x acc => match x, acc with | some a, some b => some (a ++ b) | _, _ => none) (some []), bits with
      | some pl, some bl =>
        if zchg.any zoneBlot then (s, 0x0401)
        else
          let zl := zchg.map (fun z => (g.addr + 0xC0 + 16 * z, leBytes 8 (zones.getD z (0, 0)).1 ++ leBytes 8 (zones.getD z (0, 0)).2))
          let h' : SegHdr := { h with rows, nulls, segMin := seen.1, segMax := seen.2 }
          (((s.writeAll f pl).writeAll f bl).writeAll f zl |>.writeBytes f g.addr (hdrBytes h'), 0)
      | _, _ => (s, 0x0401)

/-- Appends at most one segment's worth of values at the end of an object: extends its open segment or begins a new one
(02 R46, R48; 17 R505). Answers the status and how many rows were committed. -/
def State.appendChunk (s : State) (f ukind unit : Nat) (d : ObjDesc) (vals : List (Option Nat)) (creating : Bool) : State × Nat × Nat :=
  let seg := d.rows / 65536
  let lo := d.rows % 65536
  let chunk := vals.take (65536 - lo)
  let r : State × Nat :=
    if lo = 0 then
      if d.segCap ≤ seg then (s, 0x0108)
      else s.publish f d seg none (buildSeg d chunk (chunk.length == 65536 || (creating && d.sealedOnly)))
    else match s.openSeg f ukind unit d seg with
      | (s1, .inl st) => (s1, st)
      | (s1, .inr g) => s1.segChange f d seg g true lo chunk
  if r.2 ≠ 0 then (r.1, r.2, 0)
  else (r.1.putObj f { d with rows := d.rows + chunk.length, segCount := max d.segCount (seg + 1) }, 0, chunk.length)

/-- Replaces rows within one segment (02 R45). Answers the status and how many rows were committed. -/
def State.writeChunk (s : State) (f ukind unit : Nat) (d : ObjDesc) (row : Nat) (vals : List (Option Nat)) : State × Nat × Nat :=
  let seg := row / 65536
  let lo := row % 65536
  let chunk := vals.take (65536 - lo)
  match s.openSeg f ukind unit d seg with
  | (s1, .inl st) => (s1, st, 0)
  | (s1, .inr g) =>
    let r := s1.segChange f d seg g false lo chunk
    (r.1, r.2, if r.2 = 0 then chunk.length else 0)

/-- Drops an object: its descriptor becomes zero and its extents retire; a poisoned descriptor's extents cannot be read
and stay (02 R45; 17 R505). -/
def State.dropObj (s : State) (f k : Nat) : State :=
  let s1 := match s.readObj f k with
    | .ok d =>
      let t := (s.readBytes d.segTable (8 * d.segCount)).1
      ((List.range d.segCount).foldl (fun (s : State) i => s.retire f (getLE t (8 * i) 8)) s).retire f d.segTable
    | _ => s
  s1.writeBytes f (s.objAddr f k) (zeros 64)

/-! ### Source values and natural values -/

/-- The bytes of an element of a source type (17 R504). -/
def srcSize (ty : Nat) : Nat := match ty with | 0 | 4 => 1 | 1 | 5 => 2 | 2 | 6 | 8 | 10 => 4 | _ => 8

/-- A source type suits a column (02 R711). -/
def srcSuits (ty scale : Nat) (d : ObjDesc) : Bool :=
  if ty < 8 then d.xform == 0 || d.xform == 1 || d.xform == 4 || d.xform == 5
  else if ty < 10 then d.xform == 2
  else d.xform == 3 && d.scale == scale

/-- An integer in a column's range as its W bits; none where it does not fit (02 R49). -/
def fitInt (xform w : Nat) (v : Int) : Option Nat :=
  if xform = 1 ∨ xform = 3 then
    if -(2 ^ (w - 1) : Nat) ≤ v ∧ v < (2 ^ (w - 1) : Nat) then some (wrapInt w v) else none
  else if 0 ≤ v ∧ v < (2 ^ w : Nat) then some v.toNat else none

/-- The transformed value of a source element; none where it does not fit the column (02 R34, R35, R49, R711). -/
def ingest (ty : Nat) (d : ObjDesc) (raw : Nat) : Option Nat :=
  let w := d.width
  if ty = 8 ∨ ty = 9 then
    let f := fmtOf (8 * srcSize ty)
    let g := fmtOf w
    let v := if f = g then raw else f.convert g raw
    if g.isInf v && !f.isInf raw then none else some (transform 2 w (g.canon v))
  else
    let n := 8 * srcSize ty
    let v : Int := if ty < 4 ∨ 10 ≤ ty then sintOf n raw else (raw : Int)
    (fitInt d.xform w v).map (transform d.xform w)

/-- The element width of a column in a field: W rounded up (04 R98). -/
def fieldWidth (w : Nat) : Nat := if w ≤ 8 then 8 else if w ≤ 16 then 16 else if w ≤ 32 then 32 else 64

/-- The natural value of a transformed value as bits of the element width (04 R98). -/
def natural (xform w t : Nat) : Nat :=
  let v := untransform xform w t
  if xform = 1 ∨ xform = 3 then wrapInt (fieldWidth w) (sintOf w v) else v

end Sys2Proof.Machine
end

