-- ==== Sys2Proof/Machine/Bramble.lean ====
section
/-! DEFINITION. The Bramble arrays: entries, searches, batch jobs, load lists, power control (13). -/

namespace Sys2Proof.Machine

/-- A Bramble array. -/
def State.bram (s : State) (a : Nat) : Bram := s.brm.getD a {}

/-- Changes a Bramble array. -/
def State.updBrm (s : State) (a : Nat) (g : Bram → Bram) : State := { s with brm := s.brm.upd a {} g }

/-- The array is present (13 R372). -/
def State.brmOn (s : State) (a : Nat) : Bool := decide (a < s.part.brams) && !s.brmOff.contains a

/-- An entry by array number. -/
def Bram.ent (b : Bram) (i : Nat) : BrmEnt := b.ents.getD i {}

/-- The V bit and PFX, PFPOS, USER of an entry (13 R373). -/
def BrmEnt.valid (e : BrmEnt) : Bool := e.attr.getLsbD 0
def BrmEnt.pfx (e : BrmEnt) : Bool := e.attr.getLsbD 1
def BrmEnt.pfpos (e : BrmEnt) : Nat := field e.attr 2 4
def BrmEnt.user (e : BrmEnt) : Nat := field e.attr 6 2

/-- A ternary match of a valid entry (13 R374). -/
def BrmEnt.matches_ (e : BrmEnt) (k : BitVec 128) : Bool := e.valid && ((k ^^^ e.value) &&& e.care) == 0

/-- The pre-filter enables the entry for a key (13 R392). -/
def BrmEnt.enabled (e : BrmEnt) (k : BitVec 128) : Bool := e.pfx || k.extractLsb' (8 * e.pfpos) 8 == e.pf

/-- An entry is pre-filter consistent (13 R375). -/
def BrmEnt.consistent (e : BrmEnt) : Bool :=
  e.pfx || (e.care.extractLsb' (8 * e.pfpos) 8 == 0xFF && e.value.extractLsb' (8 * e.pfpos) 8 == e.pf)

/-- Base window and window count of a function's range (13 R376, R399). -/
def Bram.base (b : Bram) (f : Nat) : Nat := field (b.range.getD f 0) 0 7
def Bram.nwin (b : Bram) (f : Nat) : Nat := field (b.range.getD f 0) 8 8

/-- Pre-filter mode is in force (13 R392). -/
def State.brmPf (s : State) (a : Nat) : Bool :=
  (s.bram a).row == 4 || (s.bram a).forcePf || s.unreliable.contains ([86, 87, 92, 93].getD a 0)

/-- Tenant entry i of a function matches a key under the mode in force (13 R376, R392). -/
def State.brmHit (s : State) (a f i : Nat) (k : BitVec 128) : Bool :=
  let b := s.bram a
  let e := b.ent (64 * b.base f + i)
  decide (i < 64 * b.nwin f) && e.matches_ k && (!s.brmPf a || e.enabled k)

/-- The lowest matching tenant index of a function (13 R377). -/
def State.brmFirst (s : State) (a f : Nat) (k : BitVec 128) : Option Nat :=
  (List.range (64 * (s.bram a).nwin f)).find? (fun i => s.brmHit a f i k)

/-- The match vector of a tenant window (13 R377). -/
def State.brmVector (s : State) (a f w : Nat) (k : BitVec 128) : BitVec 64 :=
  (List.range 64).foldl (fun v j => if s.brmHit a f (64 * w + j) k then v ||| ((1 : BitVec 64) <<< j) else v) 0

/-- Counts n searches of an array (13 R400). -/
def State.brmCount (s : State) (a n : Nat) : State :=
  let pf := s.brmPf a
  s.updBrm a (fun b => { b with
    searches := b.searches + BitVec.ofNat 64 n, pfSearch := if pf then b.pfSearch + BitVec.ofNat 64 n else b.pfSearch })

/-- The key of a search of a tile's aperture: BRM_SKEY, or the Blotter entry that QBLOTWIN selects while HELD (13 R378, R379). -/
def State.brmKey (s : State) (t : Nat) : BitVec 128 :=
  let c := s.core t
  if c.held then
    let o := (((s.tile t).stroke.blot.find? (field c.qblotwin 0 12)).map (·.out)).getD 0
    o.extractLsb' 384 128
  else (s.tile t).eng.brmSkeyHi ++ (s.tile t).eng.brmSkeyLo

/-- Counts an aperture search; a held one goes to the delta of its task (13 R379). -/
def State.brmCountTile (s : State) (t a : Nat) : State :=
  if (s.core t).held then s.updCore t (fun c => { c with heldSearch := c.heldSearch.upd a 0 (· + 1) }) else s.brmCount a 1

/-- A read of BRM_FIND of an array by a tile: a lowest-index search (13 R377, R396). -/
def State.brmFindRead (s : State) (t a : Nat) : Word × State :=
  match (s.tile t).bound with
  | none => (0, s)
  | some f =>
    if !s.brmOn a then (0, s)
    else
      let v : Word := match s.brmFirst a f (s.brmKey t) with
        | some i =>
          let b := s.bram a
          (0x8000000000000000 : Word) ||| BitVec.ofNat 64 ((b.ent (64 * b.base f + i)).user * 2 ^ 40 + i)
        | none => 0
      (v, s.brmCountTile t a)

/-- A read of BRM_VEC of an array and window by a tile (13 R377, R397). -/
def State.brmVecRead (s : State) (t a w : Nat) : Word × State :=
  match (s.tile t).bound with
  | none => (0, s)
  | some f => if !s.brmOn a then (0, s) else (s.brmVector a f w (s.brmKey t), s.brmCountTile t a)

/-- BRM_FIND: the value goes to a register (13 R378). -/
def execBrmFind (t a : Nat) (rd : BitVec 5) (s : State) : Host.Outcome State Fault Refusal :=
  .next (let r := s.brmFindRead t a; r.2.updCore t (fun c => c.writeG rd r.1))

/-- BRM_VEC: the value goes to a register (13 R378). -/
def execBrmVec (t a w : Nat) (rd : BitVec 5) (s : State) : Host.Outcome State Fault Refusal :=
  .next (let r := s.brmVecRead t a w; r.2.updCore t (fun c => c.writeG rd r.1))

/-! ### Batch jobs (13 R380 to R383) -/

/-- The search key of a natural field value of a width under a transform (13 R383). -/
def brmKeyOf (xform w v : Nat) : BitVec 128 :=
  BitVec.ofNat 128 (transform xform w (if xform = 2 then (fmtOf w).canon (v % 2 ^ w) else v % 2 ^ w))

/-- The descriptor's reserved bits are zero. -/
def brmReservedOk (b : List Byte) : Bool :=
  let fl := getLE b 3 1
  fl % 2 == 0 && decide (fl < 8) && getLE b 7 1 == 0 && getLE b 0x1C 4 == 0 && getLE b 0x30 8 == 0 && getLE b 0x38 8 == 0

/-- The descriptor's fields are in range (13 R380). -/
def brmShapeOk (b : List Byte) : Bool :=
  let mode := getLE b 1 1
  let fl := getLE b 3 1
  let ew := getLE b 4 1
  let x := getLE b 6 1
  let n := getLE b 0x18 4
  getLE b 0 1 == 0 && decide (mode ≤ 2) && (if mode = 2 then decide (getLE b 2 1 < 128) else getLE b 2 1 == 0) && fl / 2 != 3
    && decide (ew ≤ 3) && decide (getLE b 5 1 < 64) && decide (x ≤ 5) && ((x != 2 && x != 3) || decide (2 ≤ ew))
    && decide (1 ≤ n ∧ n ≤ 65536) && getLE b 0x28 8 % 16 == 0

/-- The result bytes of a batch job. -/
def brmResLen (mode n : Nat) : Nat := if mode = 0 then (n + 7) / 8 else if mode = 1 then 4 * n else 8 * n

/-- The check a batch job fails before anything is read (13 R381, 12 R340). -/
def State.brmCheck (s : State) (j : BrmJob) : Option Nat :=
  let b := (s.readBytes j.desc 64).1
  if !s.rangeOk j.f j.desc 64 1 then some 0x0105
  else if !brmReservedOk b then some 0x0102
  else if !brmShapeOk b then some 0x0105
  else
    let n := getLE b 0x18 4
    let keys := (getLE b 8 8, n * 2 ^ getLE b 4 1)
    let nul := if getLE b 0x10 8 = 0 then [] else [(getLE b 0x10 8, (n + 7) / 8)]
    let res := (getLE b 0x20 8, brmResLen (getLE b 1 1) n)
    let st := (getLE b 0x28 8, 16)
    if (keys :: nul).any (fun r => !s.rangeOk j.f r.1 r.2 1) || [res, st].any (fun r => !s.rangeOk j.f r.1 r.2 2)
        || anyOverlap (keys :: res :: st :: (j.desc, 64) :: nul) then some 0x0105
    else none

/-- A batch job ends: its status record where it may be written, then the one pulse (13 R381). -/
def State.brmFinish (s : State) (a : Nat) (j : BrmJob) (code done hits : Nat) : State :=
  let b := (s.readBytes j.desc 64).1
  let st := getLE b 0x28 8
  let fl := getLE b 3 1
  let s1 := if s.rangeOk j.f st 16 2 then s.writeBytes j.f st (leBytes 2 code ++ leBytes 2 1 ++ leBytes 4 done ++ leBytes 4 hits ++ leBytes 4 0) else s
  let s2 := if fl / 2 % 4 = 0 then s1 else s1.pulse j.f (fl / 4 % 2 == 1) (getLE b 5 1) j.epoch
  s2.updBrm a (fun x => { x with run := none, func := j.f })

/-- How many keys of w bytes come before the first Blot line of an array of n; the first argument counts the keys left. -/
def State.cleanKeys (s : State) (a w : Nat) : Nat → Nat → Nat
  | 0, i => i
  | k + 1, i => if s.blotIn (a + w * i) w then i else s.cleanKeys a w k (i + 1)

/-- The results of the first n keys, searched in one state of the array, and how many matched. -/
def State.brmResults (s : State) (a f : Nat) (b : List Byte) (n : Nat) : List Byte × Nat :=
  let ew := getLE b 4 1
  let w := 2 ^ ew
  let mode := getLE b 1 1
  let raw := (s.readBytes (getLE b 8 8) (n * w)).1
  let nul := if getLE b 0x10 8 = 0 then [] else (s.readBytes (getLE b 0x10 8) ((n + 7) / 8)).1
  let keys := (List.range n).map (fun i => if bitAt nul i then none else some (brmKeyOf (getLE b 6 1) (8 * w) (getLE raw (w * i) w)))
  if mode = 2 then
    let vs := keys.map (fun k => match k with | some k => s.brmVector a f (getLE b 2 1) k | none => 0)
    (vs.flatMap (fun v => leBytes 8 v.toNat), (vs.filter (fun v => v != 0)).length)
  else
    let is := keys.map (fun k => k.bind (fun k => s.brmFirst a f k))
    let hits := (is.filter (·.isSome)).length
    if mode = 1 then (is.flatMap (fun i => leBytes 4 (i.getD 0xFFFFFFFF)), hits)
    else (leBytes ((n + 7) / 8) (is.foldr (fun i acc => 2 * acc + (if i.isSome then 1 else 0)) 0), hits)

/-- The running job of an array to its end, or to an early end with a code after a free number of keys (13 R381, R382). -/
def State.brmRun (s : State) (a : Nat) (j : BrmJob) (early : Option Nat) : State :=
  let b := (s.readBytes j.desc 64).1
  let n := getLE b 0x18 4
  let clean := s.cleanKeys (getLE b 8 8) (2 ^ getLE b 4 1) n 0
  let nulBad := getLE b 0x10 8 != 0 && s.blotIn (getLE b 0x10 8) ((n + 7) / 8)
  let stop := if nulBad then 0 else clean
  let (m, s0) : Nat × State := match early with
    | some _ => s.freeUpTo stop
    | none => (stop, s)
  let r := s0.brmResults a j.f b m
  let code := match early with | some c => c | none => if m < n then 0x0401 else 0
  ((s0.writeBytes j.f (getLE b 0x20 8) r.1).brmCount a m).brmFinish a j code m r.2

/-- A write of BRM_SUBMIT: queues a job or refuses it (13 R382, R393, R394). -/
def execBrmSubmit (t : Nat) (v : BitVec 64) (s : State) : Host.Outcome State Fault Refusal :=
  .next (match (s.tile t).bound with
    | none => s
    | some f =>
      let a := field v 0 2
      let b := s.bram a
      let j : BrmJob := { f, desc := field v 6 58 * 64, epoch := s.epochOf f }
      let full := decide (16 ≤ b.queue.length) || decide (4 ≤ (b.queue.filter (fun q => q.f == f)).length)
      let setR (s : State) (r : Nat) : State := s.updTile t (fun x => { x with eng := { x.eng with brmSubst := BitVec.ofNat 32 r } })
      if !s.brmOn a then setR (s.brmFinish a j 0x0103 0 0) 0
      else if full then setR s 1
      else setR (s.updBrm a (fun b => { b with queue := b.queue ++ [j] })) 0)

/-- An idle array takes the oldest job of the next function in rotation and checks it (13 R381, R382). -/
def execBrmJobStart (a : Nat) (s : State) : Host.Outcome State Fault Refusal :=
  .next (let b := s.bram a
    if b.run.isSome then s
    else match nextFunc b.func (fun f => b.queue.any (fun j => j.f == f)) with
      | none => s
      | some f => match pickFirst (fun (j : BrmJob) => j.f == f) b.queue with
        | none => s
        | some (j, r) =>
          let s1 := s.updBrm a (fun b => { b with queue := r, func := f, run := some j })
          match s1.brmCheck j with
          | none => s1
          | some code => s1.brmFinish a j code 0 0)

/-- The running job goes to its end (13 R381). -/
def execBrmJobEnd (a : Nat) (s : State) : Host.Outcome State Fault Refusal :=
  .next (match (s.bram a).run with
    | none => s
    | some j => s.brmRun a j none)

/-- A function's jobs are dropped with no record; their pulses carry the old epoch (13 R382, 12 R347). -/
def State.brmDropFunc (s : State) (f : Nat) : State :=
  (List.range 4).foldl (fun s a =>
    let b := s.bram a
    let gone := (b.queue ++ b.run.toList).filter (fun j => j.f == f)
    let s1 := gone.foldl (fun (s : State) j =>
      let fl := getLE (s.readBytes j.desc 64).1 3 1
      if fl / 2 % 4 = 0 then s else s.pulse f (fl / 4 % 2 == 1) (getLE (s.readBytes j.desc 64).1 5 1) j.epoch) s
    s1.updBrm a (fun b => { b with
      queue := b.queue.filter (fun j => j.f != f), run := b.run.bind (fun j => if j.f = f then none else some j) })) s

/-- Every job of the arrays ends with a code (13 R382). -/
def State.brmEndAll (s : State) (code : Nat) : State :=
  (List.range 4).foldl (fun s a =>
    let s1 := match (s.bram a).run with | some j => s.brmRun a j (some code) | none => s
    let q := (s1.bram a).queue
    q.foldl (fun s j => s.brmFinish a j code 0 0) (s1.updBrm a (fun b => { b with queue := [] }))) s

/-! ### Load lists and update steps (13 R384 to R390) -/

/-- An operation of a list: its code, target, source and new contents. -/
structure BrlOp where
  op : Nat
  index : Nat
  src : Nat
  ent : BrmEnt
  zero : Bool
  deriving DecidableEq, Repr

/-- Reads the operations of a list (13 R386); `zero` says that every field the operation does not use is zero. -/
def parseBrl : Nat → List Byte → List BrlOp
  | 0, _ => []
  | k + 1, b =>
    let op := getLE b 0 1
    let wr := getLE b 6 1 == 0 && getLE b 7 1 == 0 && getLE b 0x10 16 == 0 && getLE b 0x20 16 == 0
    { op, index := getLE b 2 2, src := getLE b 4 2,
      ent := { value := BitVec.ofNat 128 (getLE b 0x10 16), care := BitVec.ofNat 128 (getLE b 0x20 16), pf := BitVec.ofNat 8 (getLE b 6 1),
               attr := BitVec.ofNat 8 (getLE b 7 1) },
      zero := getLE b 1 1 == 0 && getLE b 8 8 == 0 && (op == 1 || wr) && (op == 3 || getLE b 4 2 == 0) }
    :: parseBrl k (b.drop 48)

/-- The array and operations of a list's bytes; none where the list breaks R386. -/
def brlOf (b : List Byte) : Option (Nat × List BrlOp) :=
  let n := getLE b 8 4
  if getLE b 0 4 ≠ 0x314C5242 ∨ 4 ≤ getLE b 4 1 ∨ getLE b 5 3 ≠ 0 ∨ n = 0 ∨ 8192 < n ∨ getLE b 12 4 ≠ 0 then none
  else
    let ops := parseBrl n (b.drop 16)
    if ops.all (fun o => decide (1 ≤ o.op ∧ o.op ≤ 3) && o.zero
        && (o.op != 1 || ((o.ent.value &&& ~~~o.ent.care) == 0 && o.ent.consistent))) then some (getLE b 4 1, ops) else none

/-- The tenant indices a list names: targets and copy sources (13 R388). -/
def brlIndices (ops : List BrlOp) : List Nat := ops.flatMap (fun o => if o.op = 3 then [o.index, o.src] else [o.index])

/-- A list's operations on the array entries of a function (13 R376). -/
def Bram.opsOf (b : Bram) (f : Nat) (ops : List BrlOp) : List BrmOp :=
  let o := 64 * b.base f
  ops.map (fun x => if x.op = 1 then .write (o + x.index) x.ent else if x.op = 2 then .inval (o + x.index) else .copy (o + x.index) (o + x.src))

/-- Puts operations behind those an array still has to take (13 R387). -/
def State.brmLoad (s : State) (a : Nat) (ops : List BrmOp) : State := s.updBrm a (fun b => { b with upd := b.upd ++ ops })

/-- One update step of an array: invalidate, write, validate (13 R384, R387). -/
def Bram.step (b : Bram) : Bram :=
  let put (b : Bram) (i : Nat) (e : BrmEnt) : Bram := { b with ents := b.ents.set i e, updates := b.updates + 1 }
  let off (e : BrmEnt) : BrmEnt := { e with attr := e.attr &&& 0xFE }
  match b.cur with
  | some (i, e, k) => if k = 1 then { put b i (off e) with cur := some (i, e, 2) } else { put b i e with cur := none }
  | none => match b.upd with
    | [] => b
    | .inval i :: r => { put b i (off (b.ent i)) with upd := r }
    | .write i e :: r => { put b i (off (b.ent i)) with upd := r, cur := some (i, e, 1) }
    | .copy i src :: r => { put b i (off (b.ent i)) with upd := r, cur := some (i, b.ent src, 1) }

/-- No array has an update step left. -/
def State.brmQuiet (s : State) : Bool := s.brm.all (fun p => p.2.upd.isEmpty && p.2.cur.isNone)

/-- Every entry of a function's ranges is invalidated and zeroed (13 R390). -/
def State.brmClear (s : State) (f : Nat) : State :=
  { s with brm := s.brm.map (fun p =>
      let lo := 64 * p.2.base f
      let hi := lo + 64 * p.2.nwin f
      (p.1, { p.2 with ents := p.2.ents.filter (fun e => decide (e.1 < lo) || decide (hi ≤ e.1)) })) }

/-! ### Power (13 R391, R392) -/

/-- The row of R391 after a sensor reading: a slower row at its threshold, a faster one 2 °C below the threshold of the
row in force. The first argument bounds the steps. -/
def brmRow : Nat → Nat → Int → Nat
  | 0, r, _ => r
  | k + 1, r, t =>
    let th (i : Nat) : Int := [95, 97, 99, 101].getD i 0
    if r < 4 ∧ th r ≤ t then brmRow k (r + 1) t
    else if 0 < r ∧ t ≤ th (r - 1) - 2 then brmRow k (r - 1) t
    else r

/-- An array re-evaluates its sensor (13 R391). -/
def execBramblePowerEval (a : Nat) (s : State) : Host.Outcome State Fault Refusal :=
  .next (let t := s.tileTemp.getD ([86, 87, 92, 93].getD a 0) 40
    s.updBrm a (fun b => { b with row := brmRow 4 b.row t }))

end Sys2Proof.Machine
end

