-- ==== Sys2Proof/Machine/Inflate.lean ====
section
/-! DEFINITION. The DEFLATE decompressor and the payload of the compressor (12 R350, R351). -/

namespace Sys2Proof.Machine

/-- A decoder: the bits not yet read, how many were read, how many may be, the first bit of a poisoned input byte,
the output with its newest byte first, the frame's uncompressed length and the chain's space (12 R358). -/
structure Dec where
  bits : List Bool
  pos : Nat := 0
  lim : Nat
  bad : Option Nat := none
  out : List Byte := []
  n : Nat := 0
  ulen : Nat
  space : Nat
  deriving DecidableEq, Repr

/-- What a decoding step answers: a value and the decoder, or a status code and the decoder as it stood. -/
inductive DRes (α : Type) where
  | ok (a : α) (d : Dec)
  | err (code : Nat) (d : Dec)
  deriving DecidableEq, Repr

/-- Goes on with the next step unless the first ended the job. -/
def DRes.bind {α β : Type} (r : DRes α) (k : α → Dec → DRes β) : DRes β :=
  match r with
  | .ok a d => k a d
  | .err c d => .err c d

/-- One bit: poisoned input ends the job, then input that has run out (12 R358 checks 6 and 8). -/
def Dec.bit (d : Dec) : DRes Bool :=
  if (match d.bad with | some p => decide (p ≤ d.pos) | none => false) then .err 0x0401 d
  else if d.lim ≤ d.pos then .err 0x0107 d
  else match d.bits with
    | [] => .err 0x0107 d
    | b :: r => .ok b { d with bits := r, pos := d.pos + 1 }

/-- k bits, least significant first. -/
def Dec.nbits : Nat → Dec → DRes Nat
  | 0, d => .ok 0 d
  | k + 1, d => d.bit.bind (fun b d => (Dec.nbits k d).bind (fun v d => .ok ((if b then 1 else 0) + 2 * v) d))

/-- One output byte: past ULEN, then past the chain's space, ends the job (12 R358 checks 7 and 9). -/
def Dec.emit (d : Dec) (b : Byte) : DRes Unit :=
  if d.ulen ≤ d.n then .err 0x0106 d
  else if d.space ≤ d.n then .err 0x0308 d
  else .ok () { d with out := b :: d.out, n := d.n + 1 }

/-- The bits of bytes, least significant first. -/
def bitsOf (b : List Byte) : List Bool := b.flatMap (fun x => (List.range 8).map (fun i => x.getLsbD i))

/-- The number of bits as a number, least significant first. -/
def bitsNat : List Bool → Nat
  | [] => 0
  | b :: r => (if b then 1 else 0) + 2 * bitsNat r

/-- Bits packed into bytes, the last byte padded with zeros; the first argument is the number of bytes. -/
def packBits : Nat → List Bool → List Byte
  | 0, _ => []
  | k + 1, l => BitVec.ofNat 8 (bitsNat (l.take 8)) :: packBits k (l.drop 8)

/-! ### Huffman codes (RFC 1951 as 12 R350 cites it) -/

/-- How many symbols have a code of a length. -/
def countLen (lens : List Nat) (k : Nat) : Nat := (lens.filter (fun x => x == k)).length

/-- The first code of each length. -/
def firstCode (lens : List Nat) : Nat → Nat
  | 0 => 0
  | k + 1 => 2 * (firstCode lens k + (if k = 0 then 0 else countLen lens k))

/-- The codes of a set: length, code, symbol. The second argument counts the symbols of each length seen so far. -/
def assignCodes (first : List Nat) : List Nat → Tab Nat → Nat → List (Nat × Nat × Nat)
  | [], _, _ => []
  | l :: r, seen, sym =>
    if l = 0 then assignCodes first r seen (sym + 1)
    else (l, first.getD l 0 + seen.getD l 0, sym) :: assignCodes first r (seen.upd l 0 (· + 1)) (sym + 1)

/-- The canonical codes of code lengths. -/
def codesOf (lens : List Nat) : List (Nat × Nat × Nat) := assignCodes ((List.range 16).map (firstCode lens)) lens [] 0

/-- A code-length set is complete; a distance set may also hold a single code of length 1 or none (12 R350). -/
def setOk (lens : List Nat) (dist : Bool) : Bool :=
  let k := lens.foldl (fun a l => if l = 0 then a else a + 2 ^ (15 - l)) 0
  k == 2 ^ 15 || (dist && (lens.all (fun l => l == 0) || (countLen lens 1 == 1 && lens.all (fun l => decide (l ≤ 1)))))

/-- Reads one symbol; the first argument is how many more bits a code may have. -/
def huffSym (codes : List (Nat × Nat × Nat)) : Nat → Nat → Nat → Dec → DRes Nat
  | 0, _, _, d => .err 0x0404 d
  | k + 1, len, code, d => d.bit.bind (fun b d =>
      let c := 2 * code + (if b then 1 else 0)
      match codes.find? (fun e => e.1 == len + 1 && e.2.1 == c) with
      | some e => .ok e.2.2 d
      | none => huffSym codes k (len + 1) c d)

/-- Reads one symbol of a set. -/
def huffRead (codes : List (Nat × Nat × Nat)) (d : Dec) : DRes Nat := huffSym codes 15 0 0 d

/-- Base and extra bits of length symbols 257 to 285. -/
def lenTable : List (Nat × Nat) :=
  [(3,0),(4,0),(5,0),(6,0),(7,0),(8,0),(9,0),(10,0),(11,1),(13,1),(15,1),(17,1),(19,2),(23,2),(27,2),(31,2),
   (35,3),(43,3),(51,3),(59,3),(67,4),(83,4),(99,4),(115,4),(131,5),(163,5),(195,5),(227,5),(258,0)]

/-- Base and extra bits of distance symbols 0 to 29. -/
def distTable : List (Nat × Nat) :=
  [(1,0),(2,0),(3,0),(4,0),(5,1),(7,1),(9,2),(13,2),(17,3),(25,3),(33,4),(49,4),(65,5),(97,5),(129,6),(193,6),
   (257,7),(385,7),(513,8),(769,8),(1025,9),(1537,9),(2049,10),(3073,10),(4097,11),(6145,11),(8193,12),(12289,12),
   (16385,13),(24577,13)]

/-- Copies k bytes from a distance back. -/
def copyBack (dist : Nat) : Nat → Dec → DRes Unit
  | 0, d => .ok () d
  | k + 1, d => (d.emit (d.out.getD (dist - 1) 0)).bind (fun _ d => copyBack dist k d)

/-- The symbols of one block up to its end; the first argument bounds their number. -/
def inflateSyms (lit dist : List (Nat × Nat × Nat)) : Nat → Dec → DRes Unit
  | 0, d => .err 0x0107 d
  | k + 1, d => (huffRead lit d).bind (fun sym d =>
      if sym < 256 then (d.emit (BitVec.ofNat 8 sym)).bind (fun _ d => inflateSyms lit dist k d)
      else if sym = 256 then .ok () d
      else match lenTable[sym - 257]? with
        | none => .err 0x0404 d
        | some (lb, lx) => (Dec.nbits lx d).bind (fun lv d => (huffRead dist d).bind (fun ds d =>
            match distTable[ds]? with
            | none => .err 0x0404 d
            | some (db, dx) => (Dec.nbits dx d).bind (fun dv d =>
                if d.n < db + dv then .err 0x0404 d
                else (copyBack (db + dv) (lb + lv) d).bind (fun _ d => inflateSyms lit dist k d)))))

/-- Copies k stored bytes. -/
def inflateStored : Nat → Dec → DRes Unit
  | 0, d => .ok () d
  | k + 1, d => (Dec.nbits 8 d).bind (fun v d => (d.emit (BitVec.ofNat 8 v)).bind (fun _ d => inflateStored k d))

/-- The bits to the next byte boundary are dropped. -/
def Dec.align (d : Dec) : Dec := let k := (8 - d.pos % 8) % 8; { d with bits := d.bits.drop k, pos := d.pos + k }

/-- Reads `want` code lengths; the first argument bounds the symbols. -/
def readLens (codes : List (Nat × Nat × Nat)) (want : Nat) : Nat → List Nat → Dec → DRes (List Nat)
  | 0, _, d => .err 0x0404 d
  | k + 1, acc, d =>
    if acc.length = want then .ok acc.reverse d
    else if want < acc.length then .err 0x0404 d
    else (huffRead codes d).bind (fun sym d =>
      if sym < 16 then readLens codes want k (sym :: acc) d
      else if sym = 16 then
        match acc with
        | [] => .err 0x0404 d
        | p :: _ => (Dec.nbits 2 d).bind (fun v d => readLens codes want k (List.replicate (3 + v) p ++ acc) d)
      else if sym = 17 then (Dec.nbits 3 d).bind (fun v d => readLens codes want k (List.replicate (3 + v) 0 ++ acc) d)
      else (Dec.nbits 7 d).bind (fun v d => readLens codes want k (List.replicate (11 + v) 0 ++ acc) d))

/-- k fields of three bits. -/
def readThrees : Nat → Dec → DRes (List Nat)
  | 0, d => .ok [] d
  | k + 1, d => (Dec.nbits 3 d).bind (fun v d => (readThrees k d).bind (fun r d => .ok (v :: r) d))

/-- The order of the code lengths of the code-length set. -/
def clOrder : List Nat := [16, 17, 18, 0, 8, 7, 9, 6, 10, 5, 11, 4, 12, 3, 13, 2, 14, 1, 15]

/-- The code lengths of the fixed literal set. -/
def fixedLit : List Nat := List.replicate 144 8 ++ List.replicate 112 9 ++ List.replicate 24 7 ++ List.replicate 8 8

/-- One block after its three header bits. -/
def inflateBlock (fuel btype : Nat) (d : Dec) : DRes Unit :=
  match btype with
  | 0 => (Dec.nbits 16 d.align).bind (fun len d => (Dec.nbits 16 d).bind (fun nlen d =>
      if len + nlen ≠ 0xFFFF then .err 0x0404 d else inflateStored len d))
  | 1 => inflateSyms (codesOf fixedLit) (codesOf (List.replicate 32 5)) fuel d
  | 2 => (Dec.nbits 5 d).bind (fun hl d => (Dec.nbits 5 d).bind (fun hd d => (Dec.nbits 4 d).bind (fun hc d =>
      (readThrees (hc + 4) d).bind (fun ls d =>
        let cl := (List.range 19).map (fun i => ((clOrder.zip ls).find? (fun p => p.1 == i)).elim 0 (·.2))
        if !setOk cl false then .err 0x0404 d
        else
          (readLens (codesOf cl) (hl + 257 + hd + 1) (hl + hd + 259) [] d).bind (fun lens d =>
            let lit := lens.take (hl + 257)
            let dis := lens.drop (hl + 257)
            if !setOk lit false || !setOk dis true then .err 0x0404 d
            else inflateSyms (codesOf lit) (codesOf dis) fuel d)))))
  | _ => .err 0x0404 d

/-- Blocks up to the final one; the first argument bounds their number. -/
def inflateBlocks (fuel : Nat) : Nat → Dec → DRes Unit
  | 0, d => .err 0x0107 d
  | k + 1, d => d.bit.bind (fun fin d => (Dec.nbits 2 d).bind (fun bt d =>
      (inflateBlock fuel bt d).bind (fun _ d => if fin then .ok () d else inflateBlocks fuel k d)))

/-- Inflates a raw stream (12 R350). -/
def inflate (d : Dec) : DRes Unit := let k := d.bits.length + 1; inflateBlocks k k d

/-- Stored blocks of at most 65,535 bytes; the first argument is their number. -/
def storedBlocks : Nat → List Byte → List Byte
  | 0, _ => []
  | k + 1, b =>
    let n := (b.take 65535).length
    BitVec.ofNat 8 (if k = 0 then 1 else 0) :: leBytes 2 n ++ leBytes 2 (0xFFFF - n) ++ b.take 65535
      ++ storedBlocks k (b.drop 65535)

/-- A payload inflates to the given bytes and to nothing else. -/
def inflatesTo (payload b : List Byte) : Bool :=
  match inflate { bits := bitsOf payload, lim := 8 * payload.length, ulen := b.length, space := b.length } with
  | .ok _ d => d.out.reverse == b && (d.pos + 7) / 8 == payload.length
  | .err _ _ => false

/-- The compressor's payload for a level: the free choice of the compression firmware where that is a stream of the
input, else stored blocks (12 R351; log 16). -/
def deflate (level : Nat) (b : List Byte) : List Byte :=
  let p := Config.deflate level b
  if inflatesTo p b then p else storedBlocks ((b.length + 65534) / 65535 + (if b.isEmpty then 1 else 0)) b

end Sys2Proof.Machine
end

