-- ==== Sys2Proof/Machine/Drupe.lean ====
section
/-! DEFINITION. The Drupe codec (12 R352 to R357). -/

namespace Sys2Proof.Machine

/-- The history of a stream: the value before, the value before that. -/
abbrev Hist := Nat × Nat

/-- The prediction of a value under a mode (12 R354). -/
def drupePred (mode e : Nat) (sg : Bool) (dl : Nat) (h : Hist) : Nat :=
  let m := 2 ^ e
  match mode with
  | 0 => h.1
  | 1 => (h.1 + dl) % m
  | 2 => (2 * h.1 + (m - h.2)) % m
  | _ => if sg then wrapInt e ((sintOf e h.1 + sintOf e h.2) / 2) else (h.1 + h.2) / 2

/-- The zigzag code of a residue (12 R355). -/
def zigzag (e r : Nat) : Nat := let s := sintOf e r; if 0 ≤ s then (2 * s).toNat else (-2 * s - 1).toNat

/-- The residue of a zigzag code. -/
def unzigzag (e z : Nat) : Nat := if z % 2 = 0 then z / 2 else 2 ^ e - 1 - z / 2

/-- The parameter after a value (12 R356). -/
def riceNext (e k z : Nat) : Nat :=
  let q := z / 2 ^ k
  if 2 ≤ q then min (k + 1) (e - 1)
  else if q = 0 ∧ 1 ≤ k ∧ z / 2 ^ (k - 1) = 0 then k - 1
  else k

/-- w bits of a number, least significant first. -/
def lsbBits (w v : Nat) : List Bool := (List.range w).map (fun i => v.testBit i)

/-- The code of a value (12 R355). -/
def riceCode (e k z : Nat) : List Bool :=
  let q := z / 2 ^ k
  if q < 24 then List.replicate q true ++ [false] ++ lsbBits k z else List.replicate 24 true ++ lsbBits e z

/-- The bits of a block's values under a mode. -/
def drupeBody (mode e : Nat) (sg : Bool) (dl : Nat) : Nat → Hist → List Nat → List Bool
  | _, _, [] => []
  | k, h, x :: r =>
    let z := zigzag e ((x + 2 ^ e - drupePred mode e sg dl h) % 2 ^ e)
    riceCode e k z ++ drupeBody mode e sg dl (riceNext e k z) (x, h.1) r

/-- A block under a mode and an initial parameter, with its header (12 R353). -/
def drupeBlockAs (e : Nat) (sg : Bool) (h : Hist) (xs : List Nat) (mode k0 : Nat) : List Bool :=
  let dl := match xs with | a :: b :: _ => (b + 2 ^ e - a) % 2 ^ e | _ => 0
  if mode = 4 then lsbBits 3 4 ++ xs.flatMap (lsbBits e)
  else lsbBits 3 mode ++ lsbBits 6 k0 ++ (if mode = 1 then lsbBits e dl else []) ++ drupeBody mode e sg dl k0 h xs

/-- The shortest code of a block; a tie goes to the lower mode, then to the lower parameter (12 R357). -/
def drupeBlock (e : Nat) (sg : Bool) (h : Hist) (xs : List Nat) : List Bool :=
  let cands := ([0, 1, 2, 3].flatMap (fun m => (List.range e).map (fun k => (m, k)))) ++ [(4, 0)]
  cands.foldl (fun best c => let b := drupeBlockAs e sg h xs c.1 c.2; if b.length < best.length then b else best)
    (drupeBlockAs e sg h xs 0 0)

/-- The history after values. -/
def histAfter (h : Hist) : List Nat → Hist
  | [] => h
  | x :: r => histAfter (x, h.1) r

/-- The bit string of a stream; the first argument bounds the blocks. -/
def drupeBits (e : Nat) (sg : Bool) : Nat → Hist → List Nat → List Bool
  | 0, _, _ => []
  | k + 1, h, xs =>
    match xs with
    | [] => []
    | _ => drupeBlock e sg h (xs.take 256) ++ drupeBits e sg k (histAfter h (xs.take 256)) (xs.drop 256)

/-- The elements of a byte array, k of them of w bytes. -/
def elemsOf (w : Nat) : Nat → List Byte → List Nat
  | 0, _ => []
  | k + 1, b => leNat (b.take w) :: elemsOf w k (b.drop w)

/-- The Drupe payload of an array of whole elements (12 R352, R357). -/
def drupeEncode (ew : Nat) (sg : Bool) (b : List Byte) : List Byte :=
  let w := 2 ^ ew
  let n := b.length / w
  let bits := drupeBits (8 * w) sg (n / 256 + 1) (0, 0) (elemsOf w n b)
  leBytes 1 ew ++ leBytes 1 (if sg then 1 else 0) ++ leBytes 2 0 ++ leBytes 4 n ++ packBits ((bits.length + 7) / 8) bits

/-- Emits the bytes of an element. -/
def emitBytes : List Byte → Dec → DRes Unit
  | [], d => .ok () d
  | b :: r, d => (d.emit b).bind (fun _ d => emitBytes r d)

/-- Counts one bits up to 24, reading the zero that stops them. -/
def drupeOnes : Nat → Nat → Dec → DRes Nat
  | 0, q, d => .ok q d
  | k + 1, q, d => d.bit.bind (fun b d => if b then drupeOnes k (q + 1) d else .ok q d)

/-- Reads a code (12 R355). -/
def riceRead (e k : Nat) (d : Dec) : DRes Nat :=
  (drupeOnes 24 0 d).bind (fun q d =>
    if q = 24 then Dec.nbits e d else (Dec.nbits k d).bind (fun v d => .ok (q * 2 ^ k + v) d))

/-- Reads n values of a block. -/
def drupeVals (mode e : Nat) (sg : Bool) (dl : Nat) : Nat → Nat → Hist → Dec → DRes Hist
  | 0, _, h, d => .ok h d
  | n + 1, k, h, d =>
    if mode = 4 then (Dec.nbits e d).bind (fun x d => (emitBytes (leBytes (e / 8) x) d).bind (fun _ d =>
      drupeVals mode e sg dl n k (x, h.1) d))
    else (riceRead e k d).bind (fun z d =>
      let x := (drupePred mode e sg dl h + unzigzag e z) % 2 ^ e
      (emitBytes (leBytes (e / 8) x) d).bind (fun _ d => drupeVals mode e sg dl n (riceNext e k z) (x, h.1) d))

/-- Reads blocks until n values are read; the first argument bounds the blocks (12 R353). -/
def drupeBlocks (e : Nat) (sg : Bool) : Nat → Nat → Hist → Dec → DRes Unit
  | 0, _, _, d => .ok () d
  | k + 1, n, h, d =>
    if n = 0 then .ok () d
    else (Dec.nbits 3 d).bind (fun mode d =>
      if 4 < mode then .err 0x0404 d
      else if mode = 4 then (drupeVals 4 e sg 0 (min n 256) 0 h d).bind (fun h d => drupeBlocks e sg k (n - 256) h d)
      else (Dec.nbits 6 d).bind (fun k0 d =>
        if e ≤ k0 then .err 0x0404 d
        else (Dec.nbits (if mode = 1 then e else 0) d).bind (fun dl d =>
          (drupeVals mode e sg dl (min n 256) k0 h d).bind (fun h d => drupeBlocks e sg k (n - 256) h d))))

/-- The fields of a Drupe header meet R352 for a frame's ULEN. -/
def drupeHdrOk (ulen : Nat) (b : List Byte) : Bool :=
  let ew := getLE b 0 1
  let n := getLE b 4 4
  decide (ew ≤ 3) && decide (getLE b 1 1 ≤ 1) && getLE b 2 2 == 0 && decide (1 ≤ n) && decide (n * 2 ^ ew ≤ 4 * 2 ^ 20)
    && n * 2 ^ ew == ulen

/-- Decodes a Drupe payload: header, blocks, zero padding (12 R352 to R356). -/
def drupeDecode (d : Dec) : DRes Unit :=
  (Dec.nbits 64 d).bind (fun hd d =>
    let b := leBytes 8 hd
    if !drupeHdrOk d.ulen b then .err 0x0404 d
    else
      let n := getLE b 4 4
      (drupeBlocks (8 * 2 ^ getLE b 0 1) (getLE b 1 1 == 1) (n / 256 + 1) n (0, 0) d).bind (fun _ d =>
        (Dec.nbits ((8 - d.pos % 8) % 8) d).bind (fun pad d => if pad = 0 then .ok () d else .err 0x0404 d)))

end Sys2Proof.Machine
end

