-- ==== Sys2Proof/Machine/Compression.lean ====
section
/-! DEFINITION. The compression channels: submission, order, job checks, frames, resumption, abort (12 R338 to R371). -/

namespace Sys2Proof.Machine

/-- A compression channel. -/
def State.cmpChan (s : State) (c : Nat) : CmpChan := s.cmp.getD c {}

/-- Changes a compression channel. -/
def State.updCmp (s : State) (c : Nat) (g : CmpChan → CmpChan) : State := { s with cmp := s.cmp.upd c {} g }

/-- The channel is present (12 R338). -/
def State.cmpOn (s : State) (c : Nat) : Bool := decide (c < s.part.cmpChans) && !s.cmpOff.contains c

/-- The channel runs Drupe: channels 0 and 1 of the AQ-680 (12 R338). -/
def State.cmpDrupe (s : State) (c : Nat) : Bool := decide (c < 2) && s.part == .aq680

/-- Reads a job descriptor (12 R341). -/
def parseCmpDesc (b : List Byte) : CmpDesc :=
  { op := getLE b 0 1, method := getLE b 1 1, level := getLE b 2 1, dflags := getLE b 3 1, ew := getLE b 4 1, event := getLE b 5 1,
    inAddr := getLE b 8 8, inLen := getLE b 0x10 8, uDecl := getLE b 0x18 8, chain := getLE b 0x20 8, nchain := getLE b 0x28 2,
    status := getLE b 0x30 8, ctx := getLE b 0x38 8 }

/-- RESUME of a descriptor. -/
def CmpDesc.resume (d : CmpDesc) : Bool := d.dflags % 2 == 1

/-- PULSE, TRIG and SIGNED of a descriptor. -/
def CmpDesc.pulse (d : CmpDesc) : Bool := d.dflags / 2 % 2 == 1
def CmpDesc.trig (d : CmpDesc) : Bool := d.dflags / 4 % 2 == 1
def CmpDesc.signed (d : CmpDesc) : Bool := d.dflags / 8 % 2 == 1

/-- The fields of a descriptor meet the table of R341. -/
def CmpDesc.shapeOk (d : CmpDesc) : Bool :=
  let drupeC := d.op == 0 && d.method == 1
  decide (d.op ≤ 1) && decide (d.method ≤ 1)
    && (if d.op = 0 ∧ d.method = 0 then decide (1 ≤ d.level ∧ d.level ≤ 9) else d.level == 0)
    && !(d.pulse && d.trig) && (drupeC || !d.signed)
    && (if drupeC then decide (d.ew ≤ 3) else d.ew == 0)
    && (if d.pulse || d.trig then decide (d.event < 64) else true)
    && (d.op == 1 || d.uDecl == 0) && d.chain % 16 == 0 && decide (1 ≤ d.nchain ∧ d.nchain ≤ 256)
    && d.status % 32 == 0 && d.ctx % 64 == 0 && (!d.resume || d.ctx != 0)

/-- Reserved bits of a descriptor's bytes are zero. -/
def cmpReservedOk (b : List Byte) : Bool :=
  getLE b 3 1 / 16 == 0 && getLE b 6 2 == 0 && getLE b 0x2A 6 == 0

/-- The chain entries: address and capacity, with whether a reserved byte is nonzero (12 R342). -/
def chainEnts : Nat → List Byte → List (Nat × Nat × Bool)
  | 0, _ => []
  | k + 1, b => (getLE b 0 8, getLE b 8 4, getLE b 12 4 != 0) :: chainEnts k (b.drop 16)

/-- How a codec run ended: its code, the output of the job from the frame's byte `skip`, how many input bytes of the
frame are consumed whole, the running CRC, LENGTH_LONG, and whether its state may be saved. -/
structure CmpRun where
  code : Nat
  out : List Byte
  consumed : Nat
  ucrc : Nat
  long : Bool := false
  save : Bool := false
  deriving DecidableEq, Repr

/-- The header of a frame (12 R348). -/
def frameHdr (method level ulen clen ucrc : Nat) : List Byte :=
  let b := leBytes 4 0x31465243 ++ leBytes 1 method ++ leBytes 1 level ++ leBytes 2 0 ++ leBytes 8 ulen ++ leBytes 8 clen ++ leBytes 4 ucrc
  b ++ leBytes 4 (crc32c (b ++ zeros 4))

/-- The first failing check of R358's 2 to 4 on a frame header. -/
def frameCheck (method uDecl : Nat) (inp : List Byte) : Option Nat :=
  let h := inp.take 32
  let ulen := getLE h 8 8
  let clen := getLE h 0x10 8
  if getLE h 0 4 ≠ 0x31465243 ∨ crc32c (h.take 28 ++ zeros 4) ≠ getLE h 28 4 ∨ getLE h 4 1 ≠ method ∨ getLE h 6 2 ≠ 0 then some 0x0404
  else if method = 1 ∧ 40 ≤ inp.length ∧ 8 ≤ clen ∧ !drupeHdrOk ulen ((inp.drop 32).take 8) then some 0x0404
  else if 4 * 2 ^ 20 < ulen then some 0x0108
  else if uDecl ≠ 0 ∧ uDecl ≠ ulen then some 0x0106
  else none

/-- Decodes a frame whose input so far is `inp`, with the first poisoned byte, into at most `space` bytes in all
(12 R358 to R361). `resume` skips the header checks. -/
def decompressRun (method uDecl : Nat) (resume : Bool) (inp : List Byte) (bad : Option Nat) (skip space : Nat) : CmpRun :=
  if !resume && inp.length < 32 then { code := 0x0107, out := [], consumed := 0, ucrc := 0 }
  else if (match bad with | some p => decide (p < 32) | none => false) then { code := 0x0401, out := [], consumed := 0, ucrc := 0 }
  else match (if resume then none else frameCheck method uDecl inp) with
    | some c => { code := c, out := [], consumed := 0, ucrc := 0 }
    | none =>
      let ulen := getLE inp 8 8
      let clen := getLE inp 0x10 8
      let body := inp.drop 32
      let d : Dec := {
        bits := bitsOf (body.take clen), lim := 8 * min clen body.length, bad := bad.map (fun p => 8 * (p - 32)), ulen, space }
      match (if method = 1 then drupeDecode d else inflate d) with
      | .err c d =>
        let o := d.out.reverse
        { code := c, out := o.drop skip, consumed := 32 + d.pos / 8, ucrc := crc32c o, save := c == 0x0308 || c == 0x0107 }
      | .ok _ d =>
        let o := d.out.reverse
        let used := (d.pos + 7) / 8
        let u := crc32c o
        { code := if d.n ≠ ulen then 0x0106 else if u ≠ getLE inp 0x18 4 then 0x0403 else 0, out := o.drop skip,
          consumed := 32 + used, ucrc := u, long := decide (used < clen ∧ used < body.length) || decide (32 + clen < inp.length) }

/-- The payload of a frame (12 R350, R352). -/
def cmpPayload (method level ew : Nat) (sg : Bool) (inp : List Byte) : List Byte :=
  if method = 1 then drupeEncode ew sg inp else deflate level inp

/-- The output of a job goes to the chain's entries in order, each filled before the next (12 R342). `off` bytes of
the first entry are left out. -/
def State.chainWrite (s : State) (f : Nat) : List (Nat × Nat × Bool) → Nat → List Byte → State
  | [], _, _ => s
  | (a, cap, _) :: r, off, b =>
    (s.writeBytes f (a + off) (b.take (cap - off))).chainWrite f r 0 (b.drop (cap - off))

/-- The index of the entry that holds byte n − 1 of the chain. -/
def chainIdx : List (Nat × Nat × Bool) → Nat → Nat
  | [], _ => 0
  | (_, cap, _) :: r, n => if n ≤ cap then 0 else 1 + chainIdx r (n - cap)

/-- The 32 B status record (12 R343). -/
def cmpStatusRec (code : Nat) (long resumable : Bool) (idx consumed produced ucrc : Nat) : List Byte :=
  let fl := (if code = 0 then 1 else 0) + (if long then 2 else 0) + (if resumable then 4 else 0) + 8
  leBytes 2 code ++ leBytes 2 fl ++ leBytes 2 idx ++ leBytes 2 0 ++ leBytes 8 consumed ++ leBytes 8 produced ++ leBytes 4 ucrc ++ leBytes 4 0

/-- What a finished job leaves for the ring command or operator that submitted it. -/
structure CmpResult where
  code : Nat
  produced : Nat := 0
  long : Bool := false
  resumable : Bool := false
  deriving DecidableEq, Repr

/-- A job ends: the status record is written when its range allows it, then the one pulse is sent, and the channel's
counters move (12 R343, R344, R371). -/
def State.cmpFinish (s : State) (c : Nat) (j : CmpJob) (d : CmpDesc) (r : CmpResult) (idx consumed ucrc : Nat) : State :=
  let s1 := if d.status ≠ 0 && s.rangeOk j.f d.status 32 2 then
      s.writeBytes j.f d.status (cmpStatusRec r.code r.long r.resumable idx consumed r.produced ucrc) else s
  let s2 := if d.pulse || d.trig then s1.pulse j.f d.trig d.event j.epoch else s1
  let s3 := s2.updCmp c (fun x => { x with
    run := none, func := j.f, jobs := x.jobs + 1, inb := x.inb + BitVec.ofNat 64 consumed,
    outb := x.outb + BitVec.ofNat 64 r.produced, err := if r.code = 0 then x.err else x.err + 1 })
  match j.work with
  | some w => s3.workDone w { status := r.code, info := r.produced, long := r.long, resumable := r.resumable }
  | none => s3

/-- The descriptor of a job: given by the ring engine, or read from memory. -/
def State.cmpDescOf (s : State) (j : CmpJob) : CmpDesc :=
  match j.given with
  | some d => d
  | none => parseCmpDesc (s.readBytes j.desc 64).1

/-- The chain of a descriptor. -/
def State.cmpChain (s : State) (d : CmpDesc) : List (Nat × Nat × Bool) :=
  chainEnts d.nchain (s.readBytes d.chain (16 * d.nchain)).1

/-- The saved context whose bytes stand in a job's context area (12 R361; log 17). -/
def State.cmpCtxAt (s : State) (f : Nat) (d : CmpDesc) : Option CmpCtx :=
  let r := s.readBytes d.ctx 40960
  if r.2 then none else s.cmpCtxs.find? (fun x => x.bytes == r.1 && x.f == f && x.op == d.op && x.method == d.method)

/-- The check that a job fails before it reads input or writes output (12 R338 to R341, R349, R357, R361). -/
def State.cmpCheck (s : State) (c : Nat) (j : CmpJob) : Option Nat :=
  let d := s.cmpDescOf j
  let own := j.given.isSome
  let raw := (s.readBytes j.desc 64).1
  if !own && !s.rangeOk j.f j.desc 64 1 then some 0x0105
  else if !own && !cmpReservedOk raw then some 0x0102
  else if !d.shapeOk then some 0x0105
  else if d.method = 1 ∧ !s.cmpDrupe c then some 0x0103
  else if !s.rangeOk j.f d.chain (16 * d.nchain) 1 then some 0x0105
  else
    let ch := s.cmpChain d
    if ch.any (fun e => e.2.2) then some 0x0102
    else
      let outs := ch.map (fun e => (e.1, e.2.1))
      let ctx := if d.ctx = 0 then [] else [(d.ctx, 40960)]
      let st := if d.status = 0 && own then [] else [(d.status, 32)]
      let ins := if d.inLen = 0 then [] else [(d.inAddr, d.inLen)]
      let tabs := (d.chain, 16 * d.nchain) :: (if own then [] else [(j.desc, 64)])
      if ch.any (fun e => e.2.1 == 0) || ins.any (fun r => !s.rangeOk j.f r.1 r.2 1) || outs.any (fun r => !s.rangeOk j.f r.1 r.2 2)
          || st.any (fun r => !s.rangeOk j.f r.1 r.2 2) || ctx.any (fun r => !s.rangeOk j.f r.1 r.2 (if d.resume then 3 else 2))
          || anyOverlap (ins ++ outs ++ st ++ ctx ++ tabs) then some 0x0105
      else if d.resume ∧ (s.cmpCtxAt j.f d).isNone then some 0x0404
      else if d.op = 0 then
        let prev := if d.resume then ((s.cmpCtxAt j.f d).map (fun x => x.input.length)).getD 0 else 0
        if 4 * 2 ^ 20 < prev + d.inLen then some 0x0108
        else if !d.resume ∧ d.method = 1 ∧ (d.inLen = 0 ∨ d.inLen % 2 ^ d.ew ≠ 0) then some 0x0106
        else if !d.resume ∧ ((ch.head?).map (fun e => e.2.1)).getD 0 < 32 then some 0x0308
        else none
      else none

/-- The first poisoned byte of a range of k lines from a byte offset. -/
def State.firstBlot (s : State) (addr : Nat) : Nat → Nat → Option Nat
  | 0, _ => none
  | k + 1, i =>
    if (s.cohRead (lineOf (addr + i))).2 then some i else s.firstBlot addr k (i / 64 * 64 + 64 - (if i = 0 then addr % 64 else 0))

/-- Runs a job to its end, or to an early end with a code after at most `stop` more output bytes (12 R342 to R361).
Answers what it leaves, with the chain index, input consumed and running CRC. -/
def State.cmpExecute (s : State) (j : CmpJob) (early : Option (Nat × Nat)) : State × CmpResult × Nat × Nat × Nat :=
  let d := s.cmpDescOf j
  let ch := s.cmpChain d
  let cap := ch.foldl (fun a e => a + e.2.1) 0
  let old := if d.resume then s.cmpCtxAt j.f d else none
  let prior := (old.map (·.input)).getD []
  let skip := (old.map (·.produced)).getD 0
  let got := s.readBytes d.inAddr d.inLen
  let badHere := if got.2 then s.firstBlot d.inAddr (d.inLen / 64 + 2) 0 else none
  let inp := prior ++ got.1
  let save (s : State) (input : List Byte) (produced hdr : Nat) (lv ew : Nat) (sg : Bool) : State :=
    let fb := s.freeBytes 5120
    let x : CmpCtx := { f := j.f, op := d.op, method := d.method, bytes := fb.1, input, produced, hdr, level := lv, ew, sg }
    { (fb.2.writeBytes j.f d.ctx fb.1) with cmpCtxs := x :: fb.2.cmpCtxs }
  if d.op = 1 then
    let room := match early with | some (_, k) => min cap k | none => cap
    let r := decompressRun d.method d.uDecl d.resume inp (badHere.map (· + prior.length)) skip (skip + room)
    let code := match early with | some (c, _) => if r.code = 0 ∨ r.code = 0x0308 then c else r.code | none => r.code
    let keep := r.save && d.ctx != 0 && early.isNone
    let s1 := s.chainWrite j.f ch 0 r.out
    let s2 := if keep then save s1 (inp.take r.consumed) (skip + r.out.length) 0 0 0 false else s1
    (s2, { code, produced := r.out.length, long := r.long && early.isNone, resumable := keep }, chainIdx ch r.out.length,
      r.consumed - prior.length, r.ucrc)
  else
    let lv := (old.map (·.level)).getD d.level
    let ew := (old.map (·.ew)).getD d.ew
    let sg := (old.map (·.sg)).getD d.signed
    let hdr := (old.map (·.hdr)).getD ((ch.head?).map (·.1) |>.getD 0)
    if badHere.isSome then
      (s, { code := 0x0401 }, 0, badHere.getD 0, crc32c (inp.take (prior.length + badHere.getD 0)))
    else
      let full := cmpPayload d.method lv ew sg inp
      let off := if d.resume then 0 else 32
      let rest := full.drop skip
      let room := match early with | some (_, k) => min (cap - off) (k - off) | none => cap - off
      if rest.length ≤ room ∧ early.isNone then
        let s1 := s.chainWrite j.f ch off rest
        let s2 := s1.writeBytes j.f hdr (frameHdr d.method (if d.method = 1 then 0 else lv) inp.length full.length (crc32c inp))
        (s2, { code := 0, produced := off + rest.length }, chainIdx ch (off + rest.length), d.inLen, crc32c inp)
      else
        let out := rest.take room
        let s1 := s.chainWrite j.f ch off out
        let n := s1.freeUpTo d.inLen
        let done := inp.take (prior.length + n.1)
        match early with
        | some (c, _) => (n.2, { code := c, produced := out.length }, chainIdx ch (off + out.length), n.1, crc32c done)
        | none =>
          let keep := d.ctx != 0
          let s2 := if keep then save n.2 done (skip + out.length) hdr lv ew sg else n.2
          (s2, { code := 0x0308, produced := out.length, resumable := keep }, chainIdx ch (off + out.length), n.1, crc32c done)

/-- A job ends at its end or early; the result goes to the work that named it. -/
def State.cmpEnd (s : State) (c : Nat) (j : CmpJob) (early : Option (Nat × Nat)) : State × CmpResult :=
  let r := s.cmpExecute j early
  (r.1.cmpFinish c j (s.cmpDescOf j) r.2.1 r.2.2.1 r.2.2.2.1 r.2.2.2.2, r.2.1)

/-- A job ends with a code before it has done anything (12 R340, R346). -/
def State.cmpRefuse (s : State) (c : Nat) (j : CmpJob) (code : Nat) : State :=
  s.cmpFinish c j (s.cmpDescOf j) { code } 0 0 0

/-- How many jobs of a function a channel queues. -/
def CmpChan.queuedOf (x : CmpChan) (f : Nat) : Nat := (x.queue.filter (fun j => j.f == f)).length

/-- A submission: refused when a queue limit is met, ended at once when the channel is absent or not assigned, else
queued (12 R338, R339, R344). Answers CMP_SUBST.RESULT. -/
def State.cmpPush (s : State) (c : Nat) (j : CmpJob) : State × Nat :=
  let x := s.cmpChan c
  if !s.cmpOn c then (s.cmpRefuse c j 0x0103, 0)
  else if !x.funcs.getLsbD j.f then (s.cmpRefuse c j 0x010A, 0)
  else if 32 ≤ x.queue.length ∨ 8 ≤ x.queuedOf j.f then (s, 1)
  else (s.updCmp c (fun x => { x with queue := x.queue ++ [j] }), 0)

/-- A function's jobs leave every channel: queued ones are dropped, running ones stop; no status record is written, and
the pulses carry the epoch they were submitted under (12 R347). -/
def State.cmpDropFunc (s : State) (f : Nat) : State :=
  (List.range 16).foldl (fun s c =>
    let x := s.cmpChan c
    let gone := (x.queue.filter (fun j => j.f == f)) ++ (x.run.toList.filter (fun j => j.f == f))
    let s1 := gone.foldl (fun s j =>
      let d := s.cmpDescOf j
      if (d.pulse || d.trig) && j.work.isNone then s.pulse f d.trig d.event j.epoch else s) s
    s1.updCmp c (fun x => { x with
      queue := x.queue.filter (fun j => j.f != f), run := x.run.bind (fun j => if j.f = f then none else some j) })) s

/-- Every job of the channels that a test selects ends with a code: queued ones at once, running ones after a whole
number of 64 B of output (12 R346, R347). -/
def State.cmpEndAll (s : State) (code : Nat) (sel : CmpJob → Bool) : State :=
  (List.range 16).foldl (fun s c =>
    let x := s.cmpChan c
    let s1 := match x.run with
      | some j => if sel j then let n := s.freeUpTo (2 ^ 40); (n.2.cmpEnd c j (some (code, 64 * n.1))).1 else s
      | none => s
    let run := (s1.cmpChan c).run
    let qs := x.queue.filter sel
    (qs.foldl (fun s j => (s.updCmp c (fun x => { x with queue := x.queue.filter (fun k => k != j) })).cmpRefuse c j code) s1).updCmp c
      (fun x => { x with run })) s

/-- A write of CMP_SUBMIT (12 R344, R365). -/
def execCmpSubmit (t : Nat) (v : BitVec 64) (s : State) : Host.Outcome State Fault Refusal :=
  .next (match (s.tile t).bound with
    | none => s
    | some f =>
      let r := s.cmpPush (field v 0 4) { f, desc := field v 6 58 * 64, epoch := s.epochOf f }
      r.1.updTile t (fun x => { x with eng := { x.eng with cmpSubst := BitVec.ofNat 32 r.2 } }))

/-- A queued job ends ABORTED; the running one goes on. -/
def State.cmpAbortQueued (s : State) (c : Nat) (j : CmpJob) (run : Option CmpJob) : State :=
  (s.cmpRefuse c j 0x0302).updCmp c (fun x => { x with run })

/-- A write of CMP_ABORT: the running job of that descriptor stops after a whole number of 64 B of output, else the
oldest queued one leaves the queue (12 R346). -/
def execCmpAbort (t : Nat) (v : BitVec 64) (s : State) : Host.Outcome State Fault Refusal :=
  .next (match (s.tile t).bound with
    | none => s
    | some f =>
      let c := field v 0 4
      let a := field v 6 58 * 64
      let x := s.cmpChan c
      let mine (j : CmpJob) : Bool := j.f == f && j.desc == a && j.work.isNone
      match x.run with
      | some j =>
        if mine j then
          let n := s.freeUpTo (2 ^ 40)
          (n.2.cmpEnd c j (some (0x0302, 64 * n.1))).1
        else match pickFirst mine x.queue with
          | some (q, r) => (s.updCmp c (fun x => { x with queue := r })).cmpAbortQueued c q x.run
          | none => s
      | none => match pickFirst mine x.queue with
        | some (q, r) => (s.updCmp c (fun x => { x with queue := r })).cmpAbortQueued c q none
        | none => s)

/-- A channel with no running job takes the oldest job of the next function in rotation and checks it; one that fails
ends there (12 R340, R345). -/
def execCmpJobStart (c : Nat) (s : State) : Host.Outcome State Fault Refusal :=
  .next (let x := s.cmpChan c
    if x.run.isSome then s
    else match nextFunc x.func (fun f => x.queue.any (fun j => j.f == f)) with
      | none => s
      | some f => match pickFirst (fun j => j.f == f) x.queue with
        | none => s
        | some (j, r) =>
          let s1 := s.updCmp c (fun x => { x with queue := r, func := f, run := some j })
          match s1.cmpCheck c j with
          | none => s1
          | some code => s1.cmpRefuse c j code)

/-- The running job goes to its end (12 R343). -/
def execCmpJobEnd (c : Nat) (s : State) : Host.Outcome State Fault Refusal :=
  .next (match (s.cmpChan c).run with
    | none => s
    | some j => (s.cmpEnd c j none).1)

/-- A write of CMP_ASSIGN; jobs already accepted run on (12 R339, R369). -/
def execCmpAssign (c : Nat) (v : BitVec 64) (s : State) : Host.Outcome State Fault Refusal :=
  .next (s.updCmp c (fun x => { x with funcs := v }))

end Sys2Proof.Machine
end

