-- ==== Sys2Proof/Machine/P256.lean ====
section
/-! DEFINITION. ECDSA verification on the curve P-256, for images and firmware (04 R100; 21 R617). -/

namespace Sys2Proof.Machine

/-- The field prime, the group order, the coefficient b and the base point of P-256. -/
def p256P : Nat := 0xFFFFFFFF00000001000000000000000000000000FFFFFFFFFFFFFFFFFFFFFFFF
def p256N : Nat := 0xFFFFFFFF00000000FFFFFFFFFFFFFFFFBCE6FAADA7179E84F3B9CAC2FC632551
def p256B : Nat := 0x5AC635D8AA3A93E7B3EBBD55769886BC651D06B0CC53B0F63BCE3C3E27D2604B
def p256Gx : Nat := 0x6B17D1F2E12C4247F8BCE6E563A440F277037D812DEB33A0F4A13945D898C296
def p256Gy : Nat := 0x4FE342E2FE1A7F9B8EE7EB4A7C0F9E162BCE33576B315ECECBB6406837BF51F5

/-- The number a list of bytes spells, most significant first. -/
def beInt (b : List Byte) : Nat := b.foldl (fun a x => 256 * a + x.toNat) 0

/-- b^e mod m over the low k bits of e, least significant first. -/
def powMod (m : Nat) : Nat → Nat → Nat → Nat → Nat
  | 0, _, _, acc => acc
  | k + 1, b, e, acc => powMod m k (b * b % m) (e / 2) (if e % 2 = 1 then acc * b % m else acc)

/-- The inverse modulo a prime. -/
def invMod (m a : Nat) : Nat := powMod m 256 (a % m) (m - 2) 1

/-- A point in Jacobian coordinates; z = 0 is the point at infinity. -/
structure JPoint where
  x : Nat
  y : Nat
  z : Nat
  deriving DecidableEq, Repr

/-- Subtraction modulo the field prime. -/
def p256Sub (a b : Nat) : Nat := (a + p256P - b % p256P) % p256P

/-- Twice a point. -/
def JPoint.dbl (p : JPoint) : JPoint :=
  if p.z = 0 ∨ p.y = 0 then { x := 1, y := 1, z := 0 }
  else
    let m := p256P
    let z2 := p.z * p.z % m
    let w := 3 * (p256Sub p.x z2) * (p.x + z2) % m
    let y2 := p.y * p.y % m
    let t := 4 * p.x * y2 % m
    let x3 := p256Sub (w * w) (2 * t)
    { x := x3, y := p256Sub (w * p256Sub t x3) (8 * y2 * y2), z := 2 * p.y * p.z % m }

/-- The sum of two points. -/
def JPoint.add (p q : JPoint) : JPoint :=
  if p.z = 0 then q
  else if q.z = 0 then p
  else
    let m := p256P
    let z1 := p.z * p.z % m
    let z2 := q.z * q.z % m
    let u1 := p.x * z2 % m
    let u2 := q.x * z1 % m
    let s1 := p.y * q.z * z2 % m
    let s2 := q.y * p.z * z1 % m
    if u1 = u2 then (if s1 = s2 then p.dbl else { x := 1, y := 1, z := 0 })
    else
      let h := p256Sub u2 u1
      let r := p256Sub s2 s1
      let h2 := h * h % m
      let h3 := h2 * h % m
      let v := u1 * h2 % m
      let x3 := p256Sub (p256Sub (r * r) h3) (2 * v)
      { x := x3, y := p256Sub (r * p256Sub v x3) (s1 * h3), z := h * p.z * q.z % m }

/-- k times a point over the low n bits of k, most significant first. -/
def JPoint.mul (p : JPoint) (k : Nat) : Nat → JPoint
  | 0 => { x := 1, y := 1, z := 0 }
  | n + 1 =>
    let r := (p.mul (k / 2) n).dbl
    if k % 2 = 1 then r.add p else r

/-- A point lies on the curve. -/
def p256On (x y : Nat) : Bool :=
  decide (x < p256P) && decide (y < p256P) && (y * y) % p256P == (x * x * x + p256B + 3 * (p256P - x)) % p256P

/-- An ECDSA signature (r, s) over a 32 B digest verifies under the key (x, y). -/
def p256Verify (x y : Nat) (digest : List Byte) (r s : Nat) : Bool :=
  if r = 0 ∨ s = 0 ∨ p256N ≤ r ∨ p256N ≤ s ∨ !p256On x y then false
  else
    let w := invMod p256N s
    let u1 := beInt digest * w % p256N
    let u2 := r * w % p256N
    let g : JPoint := { x := p256Gx, y := p256Gy, z := 1 }
    let q : JPoint := { x, y, z := 1 }
    let pt := (g.mul u1 256).add (q.mul u2 256)
    if pt.z = 0 then false
    else
      let zi := invMod p256P pt.z
      pt.x * (zi * zi % p256P) % p256P % p256N == r

end Sys2Proof.Machine
end

