-- ==== Sys2Proof/Machine/Parity.lean ====
section
/-! DEFINITION. Parity of the first-level caches: which copies a check covers, and what a parity error does (09 R264, R265). -/

namespace Sys2Proof.Machine

/-- A line whose two state copies disagree, or that is D, is dirty for the parity rule (09 R264). -/
def DLine.dirtyCopy (l : DLine) : Bool := l.st == .d || l.st != l.st2

/-- A check of a line's tag and of the 8 B words that a mask names finds an error (09 R264). -/
def DLine.badIn (l : DLine) (words : BitVec 8) : Bool := l.tagBad || (l.dataBad &&& words) != 0

/-- A counter of 16 bits at bit position i of a register, one up, saturating (09 R272). -/
def bump16 (r : BitVec 32) (i : Nat) : BitVec 32 := setField r i 16 (min 65535 (field r i 16 + 1))

/-- A parity error in a clean line: the line is invalidated, offered to its home where the tag is intact, and counted;
a locked way whose tag failed is unlocked (09 R264). -/
def State.parityClean (s : State) (t k : Nat) (l : DLine) : State :=
  let locked := (s.tile t).l1.dLocked (k % 8)
  let s1 := s.updL1 t (fun c => { c with
    d := if locked && !l.tagBad then c.d.map (fun p => if p.1 = k then (p.1, { p.2 with st := .i, st2 := .i, dataBad := 0 }) else p) else c.d.erase k,
    lock := if locked && l.tagBad then setField c.lock (k % 8) 1 0 else c.lock,
    parity := bump16 c.parity 0 })
  if l.tagBad then s1 else s1.wbNow t l .victClean false none

/-- Every line that a home still records a tile as holding in E or D becomes Blot, and its entry N (09 R265; 10 R297). -/
def State.blotHeld (s : State) (t : Nat) : State :=
  let lines : List (Nat × Nat) := s.slices.flatMap (fun p => p.2.dir.filterMap (fun q =>
    if q.2.state = .ex ∧ q.2.ptrs.head? = some t then some (q.2.line, q.2.owner) else none))
  lines.foldl (fun (s : State) (x : Nat × Nat) => (s.markBlot x.1 x.2).updDir x.1 (fun e => { e with state := .n, ptrs := [], lv := false, ovf := false })) s

/-- A parity error in a dirty line: the task's query fails, the good lines leave the cache, the failing one goes home
marked Blot where its tag is intact, the tile resets, the log records it, and what the homes still record of the tile
becomes Blot (09 R265). -/
def State.parityFatal (s : State) (t k : Nat) (l : DLine) : State :=
  let s1 := s.failTask t 0x0401
  let others := (s1.tile t).l1.d.filter (fun p => p.1 != k && !p.2.tagBad && p.2.st != .i)
  let s2 := others.foldl (fun (s : State) (p : Nat × DLine) =>
    let s' := s.updL1 t (fun c => { c with d := c.d.erase p.1 })
    if p.2.dirtyCopy then (if p.2.dataBad = 0 then s'.wbNow t p.2 .wbDirty false (some p.2.data) else s')
    else s'.wbNow t p.2 .victClean false (if p.2.dataBad = 0 then some p.2.data else none)) s1
  let s3 := if l.tagBad then s2 else (s2.updL1 t (fun c => { c with d := c.d.erase k })).wbNow t { l with st := .d } .wbDirty true (some 0)
  let s4 := (s3.resetTile t).log 0x0001 1 (((s.tile t).bound).getD 0xFF) 0 t 0x0401 (if l.tagBad then 0 else 64 * lineA l.line)
    (k / 8 + 2 ^ 32 * (k % 8))
  s4.blotHeld t

/-- Checks the copies of L1D that a test selects, each with the words it reads: an error in a dirty line resets the tile
and answers true; errors in clean lines invalidate them (09 R264, R265). -/
def State.parityScan (s : State) (t : Nat) (sel : Nat → DLine → Option (BitVec 8)) : State × Bool :=
  let bad := (s.tile t).l1.d.filter (fun p => p.2.st != .i && (match sel p.1 p.2 with | some w => p.2.badIn w | none => false))
  match bad.find? (fun p => p.2.dirtyCopy) with
  | some p => (s.parityFatal t p.1 p.2, true)
  | none => (bad.foldl (fun (s : State) (p : Nat × DLine) => s.parityClean t p.1 p.2) s, false)

/-- What an access to a line checks: the tags of its set, and the words it reads of the line itself (09 R264). -/
def accessSel (line : Nat) (words : BitVec 8) (k : Nat) (l : DLine) : Option (BitVec 8) :=
  if k / 8 = line % 128 then some (if l.line = line then words else 0) else none

/-- What a walk of the whole cache checks: everything (09 R262 to R264). -/
def walkSel (_ : Nat) (_ : DLine) : Option (BitVec 8) := some 255

/-- The bad lines of L1I that a check finds become invalid, counted, and unlock their way where the tag failed (09 R264). -/
def L1.dropBadI (c : L1) (bad : Nat × ILine → Bool) : L1 :=
  (c.i.filter bad).foldl (fun (c : L1) (p : Nat × ILine) => { c with
    i := c.i.erase p.1, parity := bump16 c.parity 16,
    lock := if p.2.tagBad then setField c.lock (8 + p.1 % 4) 1 0 else c.lock }) c

/-- The parity check of a fetch: the tags of the set and the word fetched (09 R264). -/
def L1.parityI (c : L1) (line word : Nat) : L1 :=
  c.dropBadI (fun p => decide (p.1 / 4 = line % 128) && (p.2.tagBad || (p.2.line == line && p.2.dataBad.getLsbD word)))

/-- The parity check of a walk over L1I. -/
def State.parityWalkI (s : State) (t : Nat) : State := s.updL1 t (fun c => c.dropBadI (fun p => p.2.tagBad || p.2.dataBad != 0))

/-- A write of L1CTL whose walks check what they read: true where a dirty error has reset the tile (09 R262 to R266). -/
def State.writeL1ctlChecked (s : State) (t : Nat) (v : BitVec 32) : State × Bool :=
  let old := (s.tile t).l1.ctl
  let walksD := v.getLsbD 0 != old.getLsbD 0 || (v.getLsbD 6 && !v.getLsbD 9 && field v 7 2 != 3)
  let r := if walksD then s.parityScan t walkSel else (s, false)
  let walksI := v.getLsbD 1 != old.getLsbD 1 || (v.getLsbD 6 && v.getLsbD 9)
  if r.2 then r else ((if walksI then r.1.parityWalkI t else r.1).writeL1ctl t v, false)

end Sys2Proof.Machine
end

