-- ==== Sys2Proof/Machine/Quill.lean ====
section
/-! DEFINITION. How a Quill core runs one instruction: region check, fetch, exceptions, delay slots, branch prediction,
control registers (06 R158 to R193). -/

namespace Sys2Proof.Machine

/-! ### Regions (06 R158, R159) -/

/-- Bits [63:56] of an address (06 R158). -/
def space (a : Word) : Nat := field a 56 8

/-- One region entry grants an access of n bytes: bits 0 R, 1 W, 2 X of `need` (06 R159, R160). -/
def regionHit (lo hi : Word) (a n need : Nat) : Bool :=
  lo.getLsbD 3 && decide (field lo 0 3 &&& need = need) && decide (field lo 12 52 * 4096 ≤ a)
    && decide (a + n ≤ field hi 12 52 * 4096 + 4096)

/-- The region check: one valid entry of the tenant's table, or in runtime mode of the runtime's, covers the access
whole and grants it (06 R159). -/
def Core.regionOk (c : Core) (a : Word) (n need : Nat) : Bool :=
  c.rgnLo.any (fun p => regionHit p.2 (c.rgnHi.getD p.1 0) a.toNat n need)
    || (c.runtime && c.rtLo.any (fun p => regionHit p.2 (c.rtHi.getD p.1 0) a.toNat n need))

/-- Access needs of R159: loads and prefetches R, stores W, atomics R and W, fetches X. -/
def needOf : Access → Nat
  | .load => 1 | .store => 2 | .atomic => 3 | .fetch => 4

/-! ### Exceptions (06 R182) -/

/-- What held execution makes of an exception of task mode besides its entry: SPEC_STORE squashes the task's HELD
entries and fails the query with SPEC_VIOLATION; any other fault is stored in the Blotter entry of the row in hand, as it
would be without speculation (03 R76, R77; 06 R162, R183; 07 R213). -/
def State.heldFault (s : State) (t : Nat) (e : Exc) (f : HeldFault) : State :=
  let c := s.core t
  if !c.held || c.runtime then s
  else match e with
    | .syscall | .interrupt => s
    | .specStore =>
      let n := ((s.tile t).stroke.blot.filter (fun p => p.2.st == .held)).length
      (s.updTile t (fun x => { x with stroke := { x.stroke with
        blot := x.stroke.blot.filter (fun p => p.2.st != .held), fwdSquash := x.stroke.fwdSquash + BitVec.ofNat 64 n } })).failTask t 0x0305
    | _ => s.updTile t (fun x => { x with stroke := { x.stroke with
        blot := x.stroke.blot.map (fun p => if p.1 = field c.qblotwin 0 12 then (p.1, { p.2 with fault := some f }) else p) } })

/-- The exception sequence: the restart and fault registers are saved, the mode becomes runtime, interrupts and held
execution end, and the core goes on at QVBASE. An exception in a handler resets the tile and fails its query (06 R182). -/
def State.raise (s : State) (t : Nat) (e : Exc) (addr : Word) (acc : Access) (vec : Bool) (elem : Option Nat) (svc : BitVec 12) : State :=
  let c := s.core t
  if c.exl then ((s.failTask t 0x0304).resetTile t).log 0x0003 1 ((s.tile t).bound.getD 0xFF) 0 t 0x0304 0 (excCode e)
  else
    let bd := c.slot.isSome
    let epc : Word := match c.slot with
      | some sl => sl.branch
      | none => if e = .syscall then c.pc + 4 else c.pc
    let svcF := if e = .syscall then svc.toNat else field c.qcause 16 12
    let cause := excCode e + (if bd then 2 ^ 8 else 0) + accessCode acc * 2 ^ 10 + (if vec then 2 ^ 12 else 0)
      + (if c.held then 2 ^ 13 else 0) + svcF * 2 ^ 16
    let qc : Word := BitVec.ofNat 64 cause
    let fa : Word := if excHasAddr e then addr else 0
    let fe : BitVec 32 := match elem with | some k => BitVec.ofNat 32 (2 ^ 31 + k % 128) | none => 0
    (s.heldFault t e { qcause := putBit qc 13 false, pc := c.pc, addr := fa, elem := fe }).updCore t (fun c => { c with
      qepc := epc, qfaultPc := c.pc, qfaultAddr := fa, qcause := qc, qfaultElem := fe,
      qstat := putBit (putBit (putBit (putBit c.qstat 2 c.runtime) 3 c.ie) 0 true) 1 true,
      qctl := putBit (putBit c.qctl 0 false) 3 false,
      pc := c.qvbase, slot := none })

/-! ### Instruction fetch (06 R182; 09 R249, R255) -/

/-- The core's next fetch: none when the word arrives, otherwise the exception it raises; L1I is filled on a miss
(06 R158, R159, R182; 09 R252, R255, R263). -/
def State.fetch (s : State) (t : Nat) : Option Exc × State :=
  let c := s.core t
  if c.pc.toNat % 4 ≠ 0 then (some .misalign, s)
  else if (space c.pc ≠ 0 ∧ space c.pc ≠ 1) ∨ !c.regionOk c.pc 4 4 then (some .region, s)
  else
    let line := lineOf c.pc.toNat
    let s := if (s.tile t).l1.i.any (fun p => p.2.tagBad || p.2.dataBad != 0) then s.updL1 t (fun c' => c'.parityI line (c.pc.toNat / 8 % 8)) else s
    let l1 := (s.tile t).l1
    let set := line % 128
    let hit := if l1.iOff then (match l1.ibuf with | some b => b.line == line | none => false)
      else ((List.range 4).map (fun w => set * 4 + w)).any (fun k => match l1.i.find? k with | some l => l.line == line | none => false)
    if hit then (none, s)
    else
      let r := s.cohRead line
      if r.2 then (some .poison, s)
      else
        let n : ILine := { line, data := r.1 }
        if l1.iOff then (none, s.updL1 t (fun c => { c with ibuf := some n }))
        else
          let (k, l1') := l1.iChoose line
          (none, s.updL1 t (fun _ => { l1' with i := l1'.i.set k n }))

/-! ### Branch prediction (06 R178, R179) -/

/-- The predictor entry of an address under a key (06 R178). -/
def predIndex (pc : Word) (key : BitVec 32) : Nat :=
  let x := (pc >>> 2).truncate 32 ^^^ key
  (field x 0 12) ^^^ (field x 12 12) ^^^ (field x 24 8)

/-- A committed control transfer moves its counter one step and, when taken, stores its scrambled target; nothing with
prediction off (06 R178, R179). -/
def Core.train (c : Core) (taken : Bool) (target : Word) : Core :=
  if c.bpoff then c
  else
    let k := predIndex c.pc c.bpkeyEff
    let p := c.pred.getD k {}
    let ctr : BitVec 2 := if taken then (if p.ctr = 3 then 3 else p.ctr + 1) else (if p.ctr = 0 then 0 else p.ctr - 1)
    let tgt : BitVec 32 := if taken then (target >>> 2).truncate 32 ^^^ c.bpkeyEff else p.target
    { c with pred := c.pred.set k { ctr, target := tgt } }

/-! ### One instruction -/

/-- What an instruction does once it is fetched. -/
inductive Eff where
  /-- It completes; the core goes on after it. -/
  | done (s : State)
  /-- A control transfer: taken or not, annulling or not, its target (06 R172, R176). -/
  | branch (s : State) (taken annul : Bool) (target : Word)
  /-- It raises an exception and writes nothing. -/
  | exc (s : State) (e : Exc) (addr : Word) (acc : Access) (elem : Option Nat)
  /-- A system call (06 R174). -/
  | call (s : State) (svc : BitVec 12)
  /-- It blocks: a miss or WAITTASK; the core stays at it. -/
  | block (s : State)
  /-- It sets the program counter itself, with no delay slot: RFE. -/
  | goto (s : State)

/-- An enabled interrupt is pending and can be taken: IE 1, EXL 0, not between a transfer and its slot (06 R184). -/
def Core.intrReady (c : Core) : Bool :=
  c.ie && !c.exl && c.slot.isNone && decide (field c.qipend 0 4 &&& c.imask ≠ 0)

/-- The core can issue its next instruction: enabled, released, its clock running (22 R653), not blocked, no interrupt to take
first. -/
def State.canIssue (s : State) (t : Nat) : Bool :=
  let c := s.core t
  s.tileOn t && c.released && s.pw.pstate == 0 && !s.isolated t && c.wait.isNone && c.stall.isNone && !c.intrReady

/-- Counts a committed task-mode instruction; held execution counts into the delta (06 R193, 03 R78). -/
def Core.countInstr (c : Core) : Core :=
  if c.runtime then c
  else if c.held then { c with heldInstret := c.heldInstret + 1 }
  else { c with qinstret := c.qinstret + 1 }

/-- The core goes on after an instruction: to pc + 4, or to the target after a delay slot (06 R176). -/
def Core.advance (c : Core) : Core :=
  match c.slot with
  | some sl => { c with pc := sl.target, slot := none }
  | none => { c with pc := c.pc + 4 }

/-- A control transfer commits: its delay slot is next, unless it is annulled and not taken (06 R176, R178). -/
def Core.transfer (c : Core) (taken annul : Bool) (target : Word) : Core :=
  let c1 := c.train taken target
  if !taken && annul then { c1 with pc := c.pc + 8 }
  else { c1 with pc := c.pc + 4, slot := some { branch := c.pc, target := if taken then target else c.pc + 8 } }

/-- What the fetched instruction's effect makes of the state. -/
def finishInstr (t : Nat) (vec : Bool) : Eff → State
  | .done s1 => s1.updCore t (fun c => c.countInstr.advance)
  | .branch s1 taken annul target => s1.updCore t (fun c => c.countInstr.transfer taken annul target)
  | .exc s1 e addr acc elem => s1.raise t e addr acc vec elem 0
  | .call s1 svc => s1.raise t .syscall 0 .fetch false none svc
  | .block s1 => s1
  | .goto s1 => s1.updCore t Core.countInstr

/-- The core of a tile runs one instruction. `wellFormed` is the field rules of its encoding (06 R164), `ctl` says that
it may not stand in a delay slot (06 R177), `vec` that it is of the V format. A core that cannot issue is unchanged. -/
def State.runInstr (s : State) (t : Nat) (wellFormed ctl vec : Bool) (body : Core → State → Eff) : State :=
  if s.canIssue t then
    match s.fetch t with
    | (some e, s1) => s1.raise t e (s.core t).pc .fetch false none 0
    | (none, s1) =>
      if !wellFormed || (ctl && (s.core t).slot.isSome) then s1.raise t .illegal 0 .fetch vec none 0
      else finishInstr t vec (body (s1.core t) s1)
  else s

/-- An instruction that writes a general register and does nothing else. -/
def State.alu (s : State) (t : Nat) (wellFormed : Bool) (rd : Reg) (v : Core → Word) : State :=
  s.runInstr t wellFormed false false (fun c s1 => .done (s1.updCore t (fun x => x.writeG rd (v c))))

/-! ### Control registers (06 R173, R185; 07 R215 to R217; 09 R266 to R272) -/

/-- Clears the branch predictor (06 R178). -/
def State.clearPred (s : State) (t : Nat) : State := s.updCore t (fun c => { c with pred := [] })

/-- Reads a control register; none where the number is not assigned. The Quill cycles since the last read of QCYCLE
are a free value (log 9). -/
def State.crRead (s : State) (t n : Nat) : Option (Word × State) :=
  let c := s.core t
  let l := (s.tile t).l1
  let w32 (v : BitVec 32) : Option (Word × State) := some (v.zeroExtend 64, s)
  let w64 (v : Word) : Option (Word × State) := some (v, s)
  if 0x100 ≤ n ∧ n < 0x180 then
    w64 (if n % 2 = 0 then c.rgnLo.getD ((n - 0x100) / 2) 0 else c.rgnHi.getD ((n - 0x100) / 2) 0)
  else if 0x180 ≤ n ∧ n < 0x190 then
    w64 (if n % 2 = 0 then c.rtLo.getD ((n - 0x180) / 2) 0 else c.rtHi.getD ((n - 0x180) / 2) 0)
  else match n with
  | 0x000 => w32 (c.qctl &&& 0xFB)
  | 0x001 => w32 c.qstatWord
  | 0x002 => w64 c.qcause
  | 0x003 => w64 c.qepc
  | 0x004 => w64 c.qfaultPc
  | 0x005 => w64 c.qfaultAddr
  | 0x006 => w32 c.qfaultElem
  | 0x008 => w64 c.qvbase
  | 0x00A => w32 c.qipend
  | 0x00B => w32 c.qblotwin
  | 0x010 => w32 c.bpkey
  | 0x011 => w64 c.specFill
  | 0x012 =>
    let (x, s1) := s.free
    let v := c.qcycle + x
    some (v, s1.updCore t (fun c => { c with qcycle := v }))
  | 0x013 => w64 c.qinstret
  | 0x020 => w32 c.vl
  | 0x021 => w32 (s.vtypeWord c)
  | 0x030 => w32 (l.ctl &&& 0x7BF)
  | 0x031 => w32 l.stat
  | 0x032 => w32 l.skip
  | 0x033 => w32 l.lock
  | 0x034 => some (l.lfsr.zeroExtend 64, s)
  | 0x035 => w64 l.base
  | 0x036 => w64 l.limit
  | 0x038 => w32 l.parity
  | 0x040 => w64 s.now
  | _ => none

/-- A control-register number is assigned (06 R185). -/
def crAssigned (n : Nat) : Bool :=
  decide (0x100 ≤ n ∧ n < 0x190) || [0, 1, 2, 3, 4, 5, 6, 8, 0xA, 0xB, 0x10, 0x11, 0x12, 0x13, 0x20, 0x21, 0x30, 0x31, 0x32,
    0x33, 0x34, 0x35, 0x36, 0x38, 0x40].contains n

/-- The six control registers that task mode may read (06 R155): QSTAT, QCYCLE, QINSTRET, CAD_NOW, VL, VTYPE. -/
def crTaskReadable (n : Nat) : Bool := [0x001, 0x012, 0x013, 0x040, 0x020, 0x021].contains n

/-- VL is limited to VLMAX (07 R215, R216). -/
def State.clampVl (s : State) (c : Core) : Core :=
  { c with vl := BitVec.ofNat 32 (Nat.min c.vlen (s.vlmax c.ew)) }

/-- Writes a control register under its field types: RO fields stay, RW1C bits clear on 1, reserved bits are ignored
(00 R6, 06 R173). -/
def State.crWrite (s : State) (t n : Nat) (v : Word) : State :=
  let v32 : BitVec 32 := v.truncate 32
  let core (f : Core → Core) : State := s.updCore t f
  let l1 (f : L1 → L1) : State := s.updL1 t f
  if 0x100 ≤ n ∧ n < 0x180 then
    let k := (n - 0x100) / 2
    core (fun c => if n % 2 = 0 then { c with rgnLo := c.rgnLo.set k (v &&& 0xFFFFFFFFFFFFF00F) }
      else { c with rgnHi := c.rgnHi.set k (v &&& 0xFFFFFFFFFFFFF000) })
  else match n with
  | 0x000 =>
    let s1 := core (fun c => { c with qctl := v32 &&& 0xFB })
    if v32.getLsbD 2 then s1.clearPred t else s1
  | 0x001 => core (fun c => { c with qstat := (c.qstat &&& 1) ||| (v32 &&& 0xE) })
  | 0x003 => core (fun c => { c with qepc := v })
  | 0x008 => core (fun c => { c with qvbase := v &&& 0xFFFFFFFFFFFFFFC0 })
  | 0x00A => core (fun c => { c with qipend := c.qipend &&& ~~~v32 })
  | 0x00B => core (fun c => { c with qblotwin := v32 &&& 0xFFF })
  | 0x010 => core (fun c => { c with bpkey := v32 })
  | 0x020 => core (fun c => s.clampVl { c with vl := v32 &&& 0x3F })
  | 0x021 => core (fun c => s.clampVl { c with ew := if field v32 0 3 < 5 then BitVec.ofNat 3 (field v32 0 3) else c.ew })
  | 0x030 => (s.writeL1ctlChecked t v32).1
  | 0x032 => l1 (fun c => { c with skip := v32 })
  | 0x033 => l1 (fun c => c.writeLock v32)
  | 0x034 => l1 (fun c => if v32.truncate 16 = (0 : BitVec 16) then c else { c with lfsr := v32.truncate 16 })
  | 0x035 => l1 (fun c => { c with base := v &&& 0xFFFFFFFFFFFFFFC0 })
  | 0x036 => l1 (fun c => { c with limit := v &&& 0xFFFFFFFFFFFFFFC0 })
  | 0x038 => l1 (fun c => { c with parity := v32 })
  | _ => s

/-- An MFCR: ILLEGAL for a number not assigned, PRIV in task mode but for six registers (06 R155, R173). -/
def State.mfcr (s : State) (t : Nat) (c : Core) (rd : Reg) (n : Nat) : Eff :=
  if !c.runtime && crAssigned n && !crTaskReadable n then .exc s .priv 0 .fetch none
  else match s.crRead t n with
    | some (v, s1) => .done (s1.updCore t (fun x => x.writeG rd v))
    | none => .exc s .illegal 0 .fetch none

/-- A write access to a control register: ILLEGAL for a number not assigned, in task mode SPEC_STORE under held
execution, else PRIV; the value written is computed from the old one, which rd receives where the form has one (06
R155, R162, R173, R182). -/
def State.crModify (s : State) (t : Nat) (c : Core) (rd : Option Reg) (n : Nat) (f : Word → Word) : Eff :=
  if !crAssigned n then .exc s .illegal 0 .fetch none
  else if !c.runtime && c.held then .exc s .specStore 0 .fetch none
  else if !c.runtime then .exc s .priv 0 .fetch none
  else match s.crRead t n with
    | some (v, s1) =>
      if n = 0x030 && (s1.writeL1ctlChecked t ((f v).truncate 32)).2 then .block (s1.crWrite t n (f v))
      else
        let s2 := s1.crWrite t n (f v)
        .done (match rd with | some r => s2.updCore t (fun x => x.writeG r v) | none => s2)
    | none => .exc s .illegal 0 .fetch none

end Sys2Proof.Machine
end

