-- ==== Sys2Proof/Machine/QuillWord.lean ====
section
/-! DEFINITION. Which 32-bit words decode to a Quill instruction (06 R163 to R174; 07 R200 to R207). -/

namespace Sys2Proof.Machine

/-- The vector words of majors 0x30 to 0x36 (07 R200 to R207). -/
def vecWordOk (w : BitVec 32) : Bool :=
  let vd := field w 21 5
  let va := field w 16 5
  let vb := field w 11 5
  let fn := field w 0 11
  let m := w.getLsbD 10
  let masked := !m || vd != 0
  match field w 26 6 with
  | 0x30 => field w 6 3 == 0 && decide (fn % 64 < 16) && (fn % 64 != 15 || va == 0) && masked
  | 0x31 =>
    let op := field w 4 6
    let sg := field w 1 2
    w.getLsbD 3 == false && decide (op < 4) && sg != 3 && masked
      && (decide (2 ≤ op) || vd % 2 == 0) && (op != 1 || (!w.getLsbD 0 && vb == 0 && sg != 2))
  | 0x32 => field w 4 5 == 0 && decide (fn % 16 < 10)
  | 0x33 =>
    let op := fn % 64
    field w 6 4 == 0 && (decide (op < 6) || decide (8 ≤ op ∧ op ≤ 13))
      && (op ≤ 2 || vb == 0) && (op != 2 || masked) && (op != 3 || (m && vd != 0 && vd != va))
  | 0x34 => field w 2 6 == 0 && field w 8 2 != 3 && (field w 8 2 == 0 || fn % 4 == 0) && (field w 8 2 != 0 || vb == 0) && masked
  | 0x35 => field w 2 6 == 0 && field w 8 2 != 3 && (field w 8 2 == 0 || fn % 4 == 0) && (field w 8 2 != 0 || vb == 0)
  | 0x36 => vb == 0 && fn / 8 == 0 && decide (fn % 8 < 5)
  | _ => false

/-- A word decodes to an instruction: its opcode is listed, its unused fields are zero, its restrictions hold (06 R164). -/
def quillWordOk (w : BitVec 32) : Bool :=
  let rd := field w 21 5
  let ra := field w 16 5
  let rb := field w 11 5
  let fn := field w 0 11
  let n12 := field w 4 12
  match field w 26 6 with
  | 0x00 => (decide (fn < 0x14) && (!decide (0xE ≤ fn ∧ fn ≤ 0x10) || rb == 0)) || (fn == 0x20 && rd == 0 && rb == 0)
      || (fn == 0x21 && rb == 0 && (rd != ra || rd == 0))
  | 0x01 => decide (fn < 7)
  | 0x08 | 0x09 | 0x0A | 0x0B | 0x0C | 0x0D => true
  | 0x0E => ra == 0
  | 0x10 | 0x11 | 0x12 => field w 6 10 == 0
  | 0x18 => !w.getLsbD 15 && !(w.getLsbD 14 && field w 12 2 == 3)
  | 0x19 => field w 14 2 == 0
  | 0x1A => decide (fn < 5)
  | 0x1B => rd == 0 && decide (field w 12 4 < 4)
  | 0x20 | 0x21 => field w 20 6 == 0
  | 0x22 | 0x23 | 0x24 | 0x25 | 0x26 | 0x27 => true
  | 0x3C => match field w 0 4 with
    | 0 => ra == 0
    | 1 => rd == 0
    | 2 | 3 => true
    | _ => false
  | 0x3D => match field w 0 4 with
    | 0 => rd == 0 && ra == 0
    | 1 => rd == 0 && ra == 0 && n12 == 0
    | 2 => n12 == 0
    | 3 => rd == 0 && ra == 0 && n12 / 8 == 0
    | 4 => rd == 0 && ra == 0 && n12 == 0
    | _ => false
  | _ => vecWordOk w

/-- A control transfer: a branch, JR or JALR (06 R176). -/
def quillWordCtl (w : BitVec 32) : Bool :=
  let mj := field w 26 6
  decide (0x20 ≤ mj ∧ mj ≤ 0x27) || (mj == 0 && decide (0x20 ≤ field w 0 11))

/-- A word that may not stand in a delay slot: a control transfer, SYSCALL, RFE or WAITTASK (06 R164, R177). -/
def quillWordNoSlot (w : BitVec 32) : Bool := quillWordCtl w || (field w 26 6 == 0x3D && decide (field w 0 4 ≤ 2))

/-- A word that task mode may not execute (06 R164). -/
def quillWordRuntime (w : BitVec 32) : Bool :=
  match field w 26 6 with
  | 0x3D => field w 0 4 == 1 || field w 0 4 == 2
  | 0x1B => field w 12 4 == 3
  | 0x3C => field w 0 4 != 0 || !crTaskReadable (field w 4 12)
  | _ => false

/-- The words of a code section as PIPE_LOAD step 12 takes them: each decodes, may run in task mode, and none that may
not stand in a delay slot follows a control transfer (04 R118, 06 R164). -/
def quillCodeOk : Bool → List (BitVec 32) → Bool
  | _, [] => true
  | afterCtl, w :: r => quillWordOk w && !quillWordRuntime w && !(afterCtl && quillWordNoSlot w) && quillCodeOk (quillWordCtl w) r

/-- Instruction words of a byte list, four bytes each. -/
def wordsOf : Nat → List Byte → List (BitVec 32)
  | 0, _ => []
  | k + 1, b => match b with
    | [] => []
    | _ => BitVec.ofNat 32 (leNat (b.take 4)) :: wordsOf k (b.drop 4)

/-- ILLEGAL: a word that decodes to no instruction raises ILLEGAL; a word that does decode is not this command (06 R164, R182). -/
def execIllegal (t : Nat) (w : BitVec 32) (s : State) : Host.Outcome State Fault Refusal :=
  .next (if quillWordOk w then s
    else s.runInstr t false false (decide (0x30 ≤ field w 26 6 ∧ field w 26 6 ≤ 0x37)) (fun _ s1 => .done s1))

end Sys2Proof.Machine
end

