-- ==== Sys2Proof/Machine/Image.lean ====
section
/-! DEFINITION. Obkeust images: their parts, stages and schemas, and the checks of PIPE_LOAD (04 R92 to R104, R107, R108,
R118, R713; 05 R130). -/

namespace Sys2Proof.Machine

/-! ### Reading an image -/

/-- A section-table entry (04 R94). -/
structure Sect where
  type : Nat
  index : Nat
  offset : Nat
  len : Nat
  crc : Nat
  deriving DecidableEq, Repr

/-- A pipeline-table entry (04 R96). -/
structure PipeRec where
  first : Nat
  nops : Nat
  depends : Nat
  deriving DecidableEq, Repr

/-- An operator record (04 R97). -/
structure OpRec where
  opcode : Nat
  flags : Nat
  in0 : Nat
  in1 : Nat
  codeSect : Nat
  nout : Nat
  codeOff : Nat
  obj : Nat
  poff : Nat
  plen : Nat
  schema : Nat
  budget : Nat
  opt : Nat
  count : Nat
  deriving DecidableEq, Repr

/-- A field descriptor (04 R98). -/
structure FieldD where
  width : Nat
  xform : Nat
  scale : Nat
  null : Nat
  dict : Nat
  deriving DecidableEq, Repr

/-- The n bytes at an offset of an image. -/
def cut (b : List Byte) (o n : Nat) : List Byte := (b.drop o).take n

/-- Section-table entry k. -/
def imgSect (b : List Byte) (k : Nat) : Sect :=
  let e := cut b (0x40 + 16 * k) 16
  { type := getLE e 0 2, index := getLE e 2 2, offset := getLE e 4 4, len := getLE e 8 4, crc := getLE e 12 4 }

/-- The section table. -/
def imgSects (b : List Byte) : List Sect := (List.range (getLE b 0x0C 2)).map (imgSect b)

/-- The bytes of the section of a type with an index; none stands for an absent section. -/
def imgPart (b : List Byte) (type index : Nat) : List Byte :=
  match (imgSects b).find? (fun e => e.type == type && e.index == index) with
  | some e => cut b e.offset e.len
  | none => []

/-- The constant pool. -/
def imgPool (b : List Byte) : List Byte := imgPart b 4 0
/-- PARAM_BYTES. -/
def imgPBytes (b : List Byte) : Nat := getLE b 0x2C 4
/-- SCRATCH. -/
def imgScratch (b : List Byte) : Nat := getLE b 0x28 4

/-- The pipeline table. -/
def imgPipes (b : List Byte) : List PipeRec :=
  let t := imgPart b 1 0
  (List.range (getLE b 0x0E 1)).map (fun i => { first := getLE t (8 * i) 2, nops := getLE t (8 * i + 2) 1, depends := getLE t (8 * i + 4) 2 })

/-- The fields of a 64 B operator record. -/
def parseOp (e : List Byte) : OpRec :=
  { opcode := getLE e 0 1, flags := getLE e 1 1, in0 := getLE e 2 2, in1 := getLE e 4 2, codeSect := getLE e 6 1, nout := getLE e 7 1,
    codeOff := getLE e 8 4, obj := getLE e 0x0C 4, poff := getLE e 0x10 4, plen := getLE e 0x14 4, schema := getLE e 0x18 4,
    budget := getLE e 0x1C 4, opt := getLE e 0x20 8, count := getLE e 0x28 8 }

/-- The operator records, as many as the table has room for, 1,024 at most. -/
def imgOps (b : List Byte) : List OpRec :=
  let t := imgPart b 2 0
  (List.range (min 1024 (t.length / 64))).map (fun i => parseOp (cut t (64 * i) 64))

/-- Operator record i. -/
def imgOp (b : List Byte) (i : Nat) : OpRec := parseOp (cut (imgPart b 2 0) (64 * i) 64)

/-- The bits of FLAGS (04 R97). -/
def OpRec.specOut (o : OpRec) : Bool := o.flags % 2 == 1
def OpRec.brk (o : OpRec) : Bool := o.flags / 2 % 2 == 1
def OpRec.once (o : OpRec) : Bool := o.flags / 4 % 2 == 1
def OpRec.det (o : OpRec) : Bool := o.flags / 8 % 2 == 1

/-- Bits [lo + n − 1 : lo] of OPT. -/
def OpRec.optAt (o : OpRec) (lo n : Nat) : Nat := o.opt / 2 ^ lo % 2 ^ n

/-- The operator builds a result that later pipelines read (04 R103). -/
def OpRec.breaker (o : OpRec) : Bool := o.opcode == 5 || o.opcode == 7 || o.opcode == 8 || o.opcode == 9

/-- The fields a mask names, in increasing index. -/
def maskFields (m : Nat) : List Nat := (List.range 16).filter (fun i => m / 2 ^ i % 2 == 1)

/-- A field descriptor's fields. -/
def parseField (e : List Byte) : FieldD :=
  { width := getLE e 0 1, xform := getLE e 1 1, scale := getLE e 2 1, null := getLE e 3 1, dict := getLE e 4 4 }

/-- The schema of an operator's output (04 R97, R98). -/
def imgSchema (b : List Byte) (o : OpRec) : List FieldD :=
  let p := cut (imgPool b) o.schema (8 * o.nout)
  (List.range o.nout).map (fun k => parseField (cut p (8 * k) 8))

/-- The schema of operator i's output. -/
def imgSchemaAt (b : List Byte) (i : Nat) : List FieldD := imgSchema b (imgOp b i)

/-- The parameter block of an operator: from the query's block below PARAM_BYTES, else from the image (04 R99). -/
def imgParam (b pb : List Byte) (o : OpRec) : List Byte :=
  if o.poff < imgPBytes b then padTo o.plen (cut pb o.poff o.plen) else cut (imgPool b) o.poff o.plen

/-! ### Stages (04 R104) -/

/-- The stages of a pipeline as first and last operator index; the first argument counts the operators left. -/
def stagesFrom (b : List Byte) : Nat → Nat → Nat → List (Nat × Nat)
  | 0, _, _ => []
  | k + 1, start, i =>
    let o := imgOp b i
    if k = 0 then [(start, i)]
    else if o.brk || (imgOp b (i + 1)).once then (start, i) :: stagesFrom b k (i + 1) (i + 1)
    else stagesFrom b k start (i + 1)

/-- The stages of a pipeline record. -/
def PipeRec.stages (b : List Byte) (p : PipeRec) : List (Nat × Nat) := stagesFrom b p.nops p.first p.first

/-- The number of stages before the first ONCE stage: those with one task a morsel. -/
def onceFrom (b : List Byte) (st : List (Nat × Nat)) : Nat :=
  match st.findIdx? (fun x => (imgOp b x.1).once) with
  | some i => i
  | none => st.length

/-! ### Parameter blocks (04 R108, R109, R713) -/

/-- A scan-list entry (04 R108). -/
structure ScanEnt where
  obj : Nat
  eflags : Nat
  field : Nat
  tt : Nat
  kinds : Nat
  consts : List Nat
  deriving DecidableEq, Repr

/-- The fields of a 48 B scan-list entry. -/
def parseScan (e : List Byte) : ScanEnt :=
  { obj := getLE e 0 4, eflags := getLE e 4 1, field := getLE e 5 1, tt := getLE e 6 2, kinds := getLE e 8 2,
    consts := [getLE e 0x10 8, getLE e 0x18 8, getLE e 0x20 8, getLE e 0x28 8] }

/-- The entry projects; the entry has a predicate. -/
def ScanEnt.project (e : ScanEnt) : Bool := e.eflags % 2 == 1
def ScanEnt.pred (e : ScanEnt) : Bool := e.eflags / 2 % 2 == 1
/-- Slots in use, and the kind of a slot. -/
def ScanEnt.slots (e : ScanEnt) : Nat := e.kinds / 2 ^ 12 % 4 + 1
def ScanEnt.kind (e : ScanEnt) (i : Nat) : Nat := e.kinds / 8 ^ i % 8

/-- The scan-list entries of a byte list. -/
def scanEnts (b : List Byte) : List ScanEnt := (List.range (b.length / 48)).map (fun k => parseScan (cut b (48 * k) 48))

/-- The part of a parameter block that holds scan-list entries. -/
def scanPart (o : OpRec) (blk : List Byte) : List Byte :=
  if o.opcode = 3 then blk.drop 16 else if o.opcode = 2 ∨ (o.opcode = 1 ∧ o.optAt 1 2 = 0) then blk else []

/-- The nonzero reserved fields a block has (04 R713). -/
def paramReserved (o : OpRec) (blk : List Byte) : Bool :=
  let sc := scanPart o blk
  (List.range (sc.length / 48)).any (fun k =>
      let e := cut sc (48 * k) 48
      getLE e 4 1 / 4 != 0 || getLE e 8 2 / 2 ^ 14 != 0 || getLE e 0x0A 6 != 0)
    || (o.opcode == 7 && (List.range (blk.length / 8)).any (fun k => getLE blk (8 * k + 2) 6 != 0))
    || (o.opcode == 0x0D && (getLE blk 0x24 4 != 0))
    || (o.opcode == 1 && o.optAt 2 1 == 1 && (List.range o.nout).any (fun k => getLE blk (16 + 24 * k + 1) 3 != 0))

/-- A block meets its operator's layout; nin is the number of input fields (04 R108, R109, R713; 15 R447; log 22 for
the Arrow block). -/
def paramOk (o : OpRec) (nin : Nat) (blk : List Byte) : Bool :=
  let n := blk.length
  let sc := scanPart o blk
  let es := scanEnts sc
  let entsOk := sc.length % 48 == 0 && decide (es.length ≤ 16) && es.all (fun e => decide (e.obj < 65536 ∧ e.field ≤ 15)
    && (List.range e.slots).all (fun i => decide (e.kind i ≤ 5)))
  match o.opcode with
  | 1 =>
    if o.optAt 1 1 = 1 then n == 0
    else if o.optAt 2 1 = 1 then n == 16 + 24 * o.nout && (List.range o.nout).all (fun k => decide (getLE blk (16 + 24 * k) 1 ≤ 3))
    else entsOk && decide (1 ≤ es.length) && (es.filter (·.project)).all (fun e => decide (e.field < o.nout))
      && (List.range o.nout).all (fun f => (es.filter (fun e => e.project && e.field == f)).length == 1)
  | 2 => entsOk && (if o.optAt 0 1 = 1 then es.length == 1 && es.all (fun e => e.obj == o.obj)
      else decide (1 ≤ es.length) && es.all (fun e => e.obj == 0))
  | 3 => decide (16 ≤ n) && entsOk && (List.range o.nout).all (fun f =>
      let m := getLE blk f 1
      decide (m ≤ 0x0F) || (decide (0x80 ≤ m) && decide (m < 0x80 + es.length)))
  | 4 => true
  | 7 => decide (n ≤ 64) && n % 8 == 0 && (List.range (n / 8)).all (fun k =>
      decide (1 ≤ getLE blk (8 * k) 1 ∧ getLE blk (8 * k) 1 ≤ 4 ∧ getLE blk (8 * k + 1) 1 ≤ 15))
  | 0x0D => n == 64
  | 0x0E => n == 16
  | 0x0F => if o.in0 = 0xFFFF then decide (1 ≤ n) && n % 16 == 0 else n == 0
  | 0x10 => n == 8 || (n == 0 && o.optAt 1 1 == 1)
  | 0x12 => if o.optAt 0 2 = 2 then n == (nin + 1) / 2 * 8 && (List.range nin).all (fun k => decide (getLE blk (4 * k) 4 < 65536))
      else n == 16
  | _ => n == 0

/-! ### Checks of PIPE_LOAD -/

/-- The capabilities of the device (04 R95; 16 R481). -/
def State.caps (s : State) : Nat :=
  (if (List.range 4).any (fun a => s.brmOn a) then 1 else 0) + (if (List.range 2).any (fun c => s.cmpDrupe c && s.cmpOn c) then 2 else 0)
    + (if 0 < s.part.ports then 4 else 0) + (if s.part.vbits = 128 then 8 else 0)

/-- The OPT bits an operator has (04 R107). -/
def optMask : Nat → Nat
  | 1 => 0x0FFFFF07
  | 2 => 1
  | 5 => 0xFFFFFFFF
  | 6 => 0xFFFF0003
  | 7 => 0xFFFF
  | 8 => 7
  | 9 => 0x1F
  | 0x0B => 0x1F
  | 0x0D => 0xFFFF
  | 0x0E => 0x3F
  | 0x0F => 3
  | 0x10 => 0x3F03
  | 0x11 => 0x7F0F03
  | 0x12 => 7
  | _ => 0

/-- Step 3: the header (04 R93). -/
def hdrOk (runtime : Nat) (b : List Byte) : Bool :=
  getLE b 0 4 == 0x31504B4F && getLE b 4 2 == 1 && crc32c (b.take 0x3C ++ zeros 4) == getLE b 0x3C 4
    && decide (getLE b 0x20 4 ≤ runtime) && getLE b 8 4 % 64 == 0 && decide (3 ≤ getLE b 0x0C 2 ∧ getLE b 0x0C 2 ≤ 64)
    && decide (1 ≤ getLE b 0x0E 1 ∧ getLE b 0x0E 1 ≤ 16) && imgScratch b % 64 == 0 && decide (imgScratch b ≤ 2 ^ 20)
    && imgPBytes b % 8 == 0 && decide (imgPBytes b ≤ 4096)

/-- Step 4: every reserved field is zero (04 R118, R713). -/
def reservedOk (b : List Byte) : Bool :=
  let t := imgPart b 1 0
  let ot := imgPart b 2 0
  getLE b 6 2 / 2 == 0 && getLE b 0x0F 1 == 0 && getLE b 0x10 8 / 16 == 0 && getLE b 0x30 12 == 0
    && (List.range (min 16 (t.length / 8))).all (fun i => getLE t (8 * i + 3) 1 == 0 && getLE t (8 * i + 6) 2 == 0)
    && (List.range (min 1024 (ot.length / 64))).all (fun i =>
        let e := cut ot (64 * i) 64
        let o := parseOp e
        o.flags / 16 == 0 && getLE e 0x30 16 == 0
          && (o.opcode == 0 || decide (0x12 < o.opcode) || (BitVec.ofNat 64 o.opt &&& ~~~(BitVec.ofNat 64 (optMask o.opcode))) == 0)
          && (imgSchema b { o with nout := min 16 o.nout }).all (fun f => f.null / 2 == 0)
          && (decide (o.poff < imgPBytes b) || !paramReserved o (imgParam b [] o)))

/-- Step 5: the signature (04 R100, R101; 21 R616). -/
def State.signOk (s : State) (f : Nat) (b : List Byte) : Bool :=
  let e := (s.tenant f).ent
  let signed := getLE b 6 2 % 2 == 1
  if !signed then !e.signReq
  else
    let g := b.drop (b.length - 128)
    let slot := getLE g 4 1
    let k := s.keySlot slot
    getLE g 0 4 == 0x47534B4F && decide (slot < 64) && getLE g 5 3 == 0 && getLE g 0x68 24 == 0 && (!e.signReq || slot == e.signSlot)
      && k.kind == 1 && (k.owner == f || k.useAll) && cut g 8 32 == sha256 (b.take (b.length - 128))
      && p256Verify (beInt (cut k.data 0 32)) (beInt (cut k.data 32 32)) (cut g 8 32) (beInt (cut g 0x28 32)) (beInt (cut g 0x48 32))

/-- Step 6: the section table and the sections; the pool holds the parameter window (04 R92, R94, R99). -/
def sectsOk (b : List Byte) : Bool :=
  let ss := imgSects b
  let size := b.length
  let n (t : Nat) : Nat := (ss.filter (fun e => e.type == t)).length
  let whole := (0, 64) :: (0x40, 16 * ss.length) :: ss.map (fun e => (e.offset, e.len))
  let covered (i : Nat) : Bool := whole.any (fun r => decide (r.1 ≤ i ∧ i < r.1 + r.2))
  ss.all (fun e => decide ((1 ≤ e.type ∧ e.type ≤ 5) ∨ e.type = 0x0F) && e.offset % 64 == 0 && decide (e.offset + e.len ≤ size)
      && decide (e.index < n e.type) && (ss.filter (fun x => x.type == e.type && x.index == e.index)).length == 1
      && crc32c (cut b e.offset e.len) == e.crc && (e.type != 3 || (e.len % 4 == 0 && decide (e.len ≤ 4 * 2 ^ 20))))
    && n 1 == 1 && n 2 == 1 && decide (n 3 ≤ 16) && decide (n 4 ≤ 1) && (imgPBytes b == 0 || n 4 == 1) && decide (imgPBytes b ≤ (imgPool b).length) && decide (n 5 ≤ 4)
    && decide ((imgPool b).length ≤ 16 * 2 ^ 20)
    && n 0x0F == getLE b 6 2 % 2 && (ss.filter (fun e => e.type == 0x0F)).all (fun e => e.offset + 128 == size && e.len == 128)
    && !anyOverlap (whole.filter (fun r => r.2 != 0)) && (b.mapIdx (fun i x => x == 0 || covered i)).all id

/-- The capabilities the contents require (04 R95). -/
def capsNeeded (b : List Byte) : Nat :=
  let ops := imgOps b
  (if ops.any (fun o => o.opcode == 0x11) || (imgSects b).any (fun e => e.type == 5) then 1 else 0)
    + (if ops.any (fun o => (o.opcode == 0x0E || o.opcode == 0x0F) && o.optAt 0 2 == 1) then 2 else 0)
    + (if ops.any (fun o => o.opcode == 0x0D) then 4 else 0)

/-- A field descriptor's values are allowed; the width is one that its transform allows (02 R34; 04 R98). -/
def FieldD.ok (d : FieldD) : Bool :=
  (d.width == 8 || d.width == 16 || d.width == 32 || d.width == 64) && decide (d.xform ≤ 5)
    && (if d.xform = 3 then (d.width == 32 && decide (d.scale ≤ 9)) || (d.width == 64 && decide (d.scale ≤ 18)) else d.scale == 0)
    && (d.xform != 2 || decide (32 ≤ d.width)) && (decide (d.xform < 4) || decide (d.width ≤ 32)) && (d.xform == 4 || d.xform == 5 || d.dict == 0)

/-- OPT and COUNT of an operator are allowed (04 R107). -/
def OpRec.optOk (o : OpRec) : Bool :=
  let parts := decide (1 ≤ o.count ∧ o.count ≤ 4096) && (List.range 13).any (fun i => o.count == 2 ^ i)
  match o.opcode with
  | 1 => o.optAt 1 2 != 3 && o.count == 0
  | 5 | 7 => parts
  | 8 => decide (1 ≤ o.optAt 0 3 ∧ o.optAt 0 3 ≤ 4) && o.count == 0
  | 0x0B => decide (1 ≤ o.count ∧ o.count ≤ 65536)
  | 0x0C => decide (1 ≤ o.count ∧ o.count ≤ 2 ^ 32)
  | 0x0E => o.count == 0 && ((o.optAt 0 2 == 0 && decide (1 ≤ o.optAt 2 4 ∧ o.optAt 2 4 ≤ 9)) || (o.optAt 0 2 == 1 && o.optAt 2 4 == 0))
  | 0x0F => o.count == 0 && decide (o.optAt 0 2 ≤ 1)
  | 0x10 => o.count == 0 && (o.optAt 0 2 != 0 || o.optAt 8 6 == 0)
  | 0x11 => o.count == 0 && (o.optAt 0 2 == 3 || o.optAt 16 7 == 0)
  | 0x12 => o.count == 0 && o.optAt 0 2 != 3
  | _ => o.count == 0

/-- Step 10 for operator i of pipeline p: R97, R102, R103, R107, R449, the kind of batch of R106 (log 78) and the block of its
parameters. -/
def opOk (b : List Byte) (pipes : List PipeRec) (ops : Array OpRec) (p : Nat) (pr : PipeRec) (i : Nat) : Bool :=
  let dflt : OpRec := parseOp []
  let o := ops.getD i dflt
  let pool := (imgPool b).length
  let pb := imgPBytes b
  let source := o.opcode == 1 || o.opcode == 0x0A || (o.opcode == 0x0F && o.in0 == 0xFFFF)
  let prev := ops.getD (i - 1) dflt
  let nin := if i = pr.first then 0 else prev.nout
  let pipeOf (j : Nat) : Nat := (pipes.findIdx? (fun q => decide (q.first ≤ j ∧ j < q.first + q.nops))).getD 99
  let names (j : Nat) (ok : OpRec → Bool) : Bool := decide (j < ops.size) && ok (ops.getD j dflt) && pr.depends / 2 ^ pipeOf j % 2 == 1
  let code := imgPart b 3 o.codeSect
  decide (1 ≤ o.opcode ∧ o.opcode ≤ 0x12)
    && (!o.specOut || o.opcode == 1 || o.opcode == 2) && (!o.once || i != pr.first) && (!o.det || o.opcode == 7)
    && (if i = pr.first then source && o.in0 == 0xFFFF else !source && o.in0 == i - 1 && (!prev.breaker || o.once))
    && (i + 1 != pr.first + pr.nops || o.opcode == 0x12 || o.breaker)
    && (if o.opcode = 6 then names o.in1 (fun x => x.opcode == 5) else o.in1 == 0xFFFF)
    && (if o.opcode = 4 then (imgSects b).any (fun e => e.type == 3 && e.index == o.codeSect) && o.codeOff % 4 == 0 && decide (o.codeOff < code.length)
        else o.codeSect == 0xFF)
    && o.codeOff % 4 == 0 && decide (o.nout ≤ 16)
    && (o.opcode != 8 || prev.opcode == 1 || prev.opcode == 2)
    && (prev.opcode != 0x0E || i == pr.first || o.opcode == 0x0F || o.opcode == 0x10 || o.opcode == 0x12)
    && (o.opcode != 0x0F || o.in0 == 0xFFFF || prev.opcode == 0x0E || prev.opcode == 0x10)
    && (if o.opcode = 1 ∧ o.optAt 1 1 = 1 then names o.obj OpRec.breaker
        else if o.opcode = 0x0A then names o.obj (fun x => x.opcode == 9)
        else if o.opcode = 8 ∨ (o.opcode = 2 ∧ o.optAt 0 1 = 1) then decide (o.obj < 65536)
        else if o.opcode = 0x11 then decide (o.obj < 4) else o.obj == 0)
    && o.poff % 8 == 0 && o.plen % 8 == 0 && decide (o.poff + o.plen ≤ pool ∨ o.plen = 0)
    && decide (o.plen = 0 ∨ o.poff + o.plen ≤ pb ∨ pb ≤ o.poff)
    && o.schema % 8 == 0 && (o.nout == 0 || (decide (pb ≤ o.schema) && decide (o.schema + 8 * o.nout ≤ pool)))
    && (imgSchema b o).all FieldD.ok && o.optOk && (o.opcode != 0x0D || o.brk)
    && (if o.poff < pb ∧ o.plen ≠ 0 then true else paramOk o nin (imgParam b [] o))
    && decide (p < 16)

/-- Step 10: pipelines, operators and load lists (04 R96, R97, R102, R103, R107, R118). -/
def structOk (b : List Byte) : Bool :=
  let pipes := imgPipes b
  let ops := (imgOps b).toArray
  let total := pipes.foldl (fun a p => a + p.nops) 0
  (imgPart b 1 0).length == 8 * pipes.length && (imgPart b 2 0).length == 64 * total && decide (total ≤ 1024)
    && (pipes.mapIdx (fun i p => decide (1 ≤ p.nops ∧ p.nops ≤ 64) && p.depends / 2 ^ i == 0
        && p.first == (pipes.take i).foldl (fun a q => a + q.nops) 0
        && ((List.range p.nops).all (fun k => opOk b pipes ops i p (p.first + k))))).all id
    && ((imgSects b).filter (fun e => e.type == 5)).all (fun e =>
        let l := cut b e.offset e.len
        e.len == 16 + 48 * getLE l 8 4 && (brlOf l).isSome)

/-- Two key fields pair (05 R130). -/
def keyPairs (p q : FieldD) : Bool :=
  p.xform == q.xform && p.scale == q.scale && (p.dict == 0 || q.dict == 0 || p.dict == q.dict) && (p.xform != 2 || p.width == q.width)

/-- An aggregate's function accepts a field's type (05 R135; 02 R37). -/
def aggTakes (fn : Nat) (d : FieldD) : Bool :=
  match fn with
  | 1 => decide (d.xform ≤ 3)
  | 2 | 3 => d.xform != 4
  | _ => true

/-- The fields that a parameter block makes an operator read exist in its input with a type it accepts. -/
def paramTypes (o : OpRec) (inp : List FieldD) (blk : List Byte) : Bool :=
  let has (i : Nat) (ok : FieldD → Bool) : Bool := match inp[i]? with | some d => ok d | none => false
  match o.opcode with
  | 2 => o.optAt 0 1 == 1 || (scanEnts blk).all (fun e => has e.field (fun d =>
      d.xform != 4 || (List.range e.slots).all (fun i => decide (e.kind i ≤ 1))))
  | 3 => (List.range o.nout).all (fun f => let m := getLE blk f 1; decide (0x80 ≤ m) || has m (fun _ => true))
  | 7 => (List.range (blk.length / 8)).all (fun k => has (getLE blk (8 * k + 1) 1) (aggTakes (getLE blk (8 * k) 1)))
  | _ => true

/-- Step 11: types (04 R118; 05 R130, R148). -/
def typesOk (b : List Byte) : Bool :=
  let ops := imgOps b
  ops.all (fun o =>
    let inp := if o.in0 = 0xFFFF then [] else imgSchemaAt b o.in0
    let mask (m : Nat) : Bool := m / 2 ^ inp.length == 0
    (match o.opcode with
      | 5 => mask (o.optAt 0 16) && mask (o.optAt 16 16)
      | 6 =>
        let d := imgOp b o.in1
        let bs := imgSchemaAt b d.in0
        let pk := (maskFields (o.optAt 16 16)).map (fun i => inp[i]?)
        let bk := (maskFields (d.optAt 0 16)).map (fun i => bs[i]?)
        mask (o.optAt 16 16) && pk.length == bk.length
          && (List.zip pk bk).all (fun x => match x.1, x.2 with | some p, some q => keyPairs p q | _, _ => false)
      | 7 | 0x0D => mask (o.optAt 0 16)
      | 9 | 0x0B => (match inp[o.optAt 0 4]? with | some d => d.xform != 4 | none => false)
      | 0x11 => decide (o.optAt 8 4 < inp.length)
      | _ => true)
      && (decide (o.poff < imgPBytes b ∧ o.plen ≠ 0) || paramTypes o inp (imgParam b [] o)))

/-- Step 12: every word of every code section (04 R118). -/
def codeOk (b : List Byte) : Bool :=
  ((imgSects b).filter (fun e => e.type == 3)).all (fun e => quillCodeOk false (wordsOf (e.len / 4) (cut b e.offset e.len)))

/-- The load lists of an image: array and operations. -/
def imgLists (b : List Byte) : List (Nat × List BrlOp) :=
  ((imgSects b).filter (fun e => e.type == 5)).filterMap (fun e => brlOf (cut b e.offset e.len))

/-- The entries an image's lists write (13 R388). -/
def imgClaims (b : List Byte) : List (Nat × Nat) := (imgLists b).flatMap (fun l => l.2.map (fun o => (l.1, o.index)))

/-- The entries that loaded images of a tenant claim. -/
def Tenant.claims (x : Tenant) : List (Nat × Nat) := x.images.flatMap (fun p => p.2.claims)

/-- An index lies in the tenant's range of an array (13 R376). -/
def State.brmHolds (s : State) (f a i : Nat) : Bool := decide (i < 64 * (s.bram a).nwin f)

/-- The check of PIPE_LOAD that fails first, by its step and status; step 14 is made when the copy is placed (04 R118). -/
def State.loadCheck (s : State) (f len : Nat) (b : List Byte) : Option (Nat × Nat) :=
  let x := s.tenant f
  let caps := getLE b 0x10 8
  if len < 0x80 ∨ len ≠ getLE b 8 4 then some (1, 0x0106)
  else if 64 * 2 ^ 20 < len then some (2, 0x0108)
  else if !hdrOk s.runtimeVer b then some (3, 0x0501)
  else if !reservedOk b then some (4, 0x0102)
  else if !s.signOk f b then some (5, 0x0502)
  else if !sectsOk b then some (6, 0x0501)
  else if (BitVec.ofNat 64 caps &&& ~~~(BitVec.ofNat 64 s.caps)) != 0 then some (7, 0x0103)
  else if (caps % 2 = 1 ∧ x.ent.bramble = 0) ∨ (caps / 2 % 2 = 1 ∧ x.ent.drupe = 0) then some (8, 0x010A)
  else if (BitVec.ofNat 64 (capsNeeded b) &&& ~~~(BitVec.ofNat 64 caps)) != 0 then some (9, 0x0501)
  else if !structOk b then some (10, 0x0501)
  else if !typesOk b then some (11, 0x010B)
  else if !codeOk b then some (12, 0x0501)
  else if 64 ≤ x.images.length ∨ 1024 ≤ s.tenants.foldl (fun a p => a + p.2.images.length) 0 then some (13, 0x0108)
  else none

/-- Step 15: Bramble entries outside the tenant's, or claimed by another loaded image (04 R118). -/
def State.loadClaims (s : State) (f : Nat) (b : List Byte) : Option Nat :=
  let ls := imgLists b
  if ls.any (fun l => (brlIndices l.2).any (fun i => !s.brmHolds f l.1 i)) then some 0x010A
  else if (imgClaims b).any (fun c => (s.tenant f).claims.contains c) then some 0x0109
  else none

end Sys2Proof.Machine
end

