-- ==== Sys2Proof/Machine/Plan.lean ====
section
/-! DEFINITION. A resident query's plan: stages and their tasks, budgets, keys and their hash, what is placed for it
(04 R97 to R105, R109, R115; 05 R122, R123, R135). -/

namespace Sys2Proof.Machine

/-! ### The query and its image -/

/-- A query that stands for none. -/
def noQuery : Query := { qseq := 0, image := 0, prio := 0, work := 0 }

/-- A resident query of a tenant. -/
def State.query (s : State) (f q : Nat) : Query := ((s.tenant f).queries.find? q).getD noQuery

/-- The image a query runs. -/
def State.rawOf (s : State) (f q : Nat) : List Byte := (((s.tenant f).images.find? (s.query f q).image).map (·.raw)).getD []

/-- Pipeline p of an image. -/
def imgPipe (b : List Byte) (p : Nat) : PipeRec := (imgPipes b).getD p { first := 0, nops := 0, depends := 0 }

/-- Stage k of a list, as first and last operator. -/
def stageAt (st : List (Nat × Nat)) (k : Nat) : Nat × Nat := st.getD k (0, 0)

/-- The operators of a stage. -/
def stageOps (st : List (Nat × Nat)) (k : Nat) : List Nat :=
  let x := stageAt st k
  (List.range (x.2 + 1 - x.1)).map (· + x.1)

/-- The parameter block of operator i of a query. -/
def State.paramOf (s : State) (f q i : Nat) : List Byte :=
  let b := s.rawOf f q
  imgParam b (s.query f q).pbytes (imgOp b i)

/-- The stage ends at an EXCHANGE (15 R449). -/
def endsXchg (b : List Byte) (st : List (Nat × Nat)) (k : Nat) : Bool := (imgOp b (stageAt st k).2).opcode == 0x0D

/-- How many tasks a stage has besides its special ones: one a morsel, one a round after an EXCHANGE, one from the first
ONCE stage on (04 R104; 15 R449). -/
def stageTasks (b pb : List Byte) (st : List (Nat × Nat)) (morsels : Nat) : Nat → Nat
  | 0 => morsels
  | k + 1 =>
    if onceFrom b st ≤ k + 1 then 1
    else if endsXchg b st k then getLE (imgParam b pb (imgOp b (stageAt st k).2)) 2 2
    else stageTasks b pb st morsels k

/-- The stages that a morsel group has: those up to the first EXCHANGE or ONCE stage (08 R220). -/
def groupStages (b : List Byte) (st : List (Nat × Nat)) : Nat :=
  let o := onceFrom b st
  match (List.range o).find? (endsXchg b st) with
  | some k => k + 1
  | none => o

/-- The stage holds a DIGEST operator (08 R221). -/
def hasDigest (b : List Byte) (st : List (Nat × Nat)) (k : Nat) : Bool := (stageOps st k).any (fun i => (imgOp b i).opcode == 0x10)

/-- The stage holds a speculative region: an operator after a marked edge of the set of R70 (03 R70). -/
def hasSpec (b : List Byte) (st : List (Nat × Nat)) (k : Nat) : Bool :=
  (stageOps st k).any (fun i => (imgOp b i).specOut && decide (i < (stageAt st k).2) && [2, 3, 4, 6, 0x11].contains (imgOp b (i + 1)).opcode)

/-- The first and last operator index of a task's stage. -/
def taskStage (s : State) (f : Nat) (k : Task) : List (Nat × Nat) × Nat := ((imgPipe (s.rawOf f k.qslot) k.pipe).stages (s.rawOf f k.qslot), k.stage)

/-- The key of a hand-over: pipeline, stage, place of the task. -/
def handKey (p k seq : Nat) : Nat := (p * 64 + k) * 2 ^ 34 + seq

/-! ### Budgets and placing (04 R97, R105) -/

/-- BUDGET_MIB in bytes; 0 selects the tenant default (log 24). -/
def State.budgetOf (s : State) (f q i : Nat) : Nat :=
  let n := (imgOp (s.rawOf f q) i).budget
  (if n = 0 then Config.budgetMib f else n) * 2 ^ 20

/-- Places n bytes for a query, freed when it ends (04 R105). -/
def State.placeFor (s : State) (f q n k : Nat) : Option (Nat × State) :=
  (s.place f n k).map (fun r => (r.1, r.2.updQuery f q (fun x => { x with locals := r.1 :: x.locals })))

/-- Frees what was placed for a query at an address. -/
def State.unplaceFor (s : State) (f q a : Nat) : State :=
  (s.unplace f a).updQuery f q (fun x => { x with locals := x.locals.filter (fun y => y != a) })

/-- What a breaker of a query has built. -/
def State.brkOf (s : State) (f q i : Nat) : Breaker := (s.query f q).brk.getD i {}

/-- Changes what a breaker has built. -/
def State.updBrk (s : State) (f q i : Nat) (g : Breaker → Breaker) : State :=
  s.updQuery f q (fun x => { x with brk := x.brk.upd i {} g })

/-! ### Keys (05 R122, R123) -/

/-- The value v of a key field (05 R122). -/
def keyVal (d : FieldD) (v : Word) : Word :=
  if d.xform = 1 ∨ d.xform = 3 then sext64 d.width v.toNat
  else if d.xform = 2 then BitVec.ofNat 64 ((fmtOf d.width).canon (v.toNat % 2 ^ d.width))
  else BitVec.ofNat 64 (v.toNat % 2 ^ d.width)

/-- The hash of key values, given with their field indices (05 R122). -/
def hashKey (l : List (Nat × Option Word)) : Word :=
  let r := l.foldl (fun (a : Word × Word) p =>
    let v : Word := p.2.getD 0
    let k := (a.1 ^^^ v) * 0x9E3779B97F4A7C15
    (k ^^^ (k >>> 29), if p.2.isNone then a.2 ||| ((1 : Word) <<< p.1) else a.2)) (0, 0)
  let k := (r.1 ^^^ r.2) * 0xB5C38E214D976A2B
  k ^^^ (k >>> 32)

/-- The key values of a row under a mask. -/
def rowKey (schema : List FieldD) (mask : Nat) (r : Row) : List (Nat × Option Word) :=
  (maskFields mask).map (fun i => (i, ((r.vals.getD i none).bind (fun v => (schema[i]?).map (fun d => keyVal d v)))))

/-- The fields of h (05 R123): partition of 2^q, sub-partitions, tag. -/
def hPart (q : Nat) (h : Word) : Nat := h.toNat / 2 ^ (46 - q) % 2 ^ q
def hSub1 (q : Nat) (h : Word) : Nat := h.toNat / 2 ^ (42 - q) % 16
def hSub2 (q : Nat) (h : Word) : Nat := h.toNat / 2 ^ (38 - q) % 16
def hTag (h : Word) : Nat := h.toNat / 2 ^ 18 % 2 ^ 16

/-- The destination of a row in an exchange of n nodes (05 R124). -/
def hNode (n : Nat) (h : Word) : Nat := h.toNat / 2 ^ 46 * n / 2 ^ 18

/-- The fields a mask of a row selects. -/
def rowPick (mask : Nat) (r : Row) : List (Option Word) := (maskFields mask).map (fun i => r.vals.getD i none)

/-- Fills the nulls of a list from the n-th free value on: what stands in a null's place is not stated (log 1). -/
def solidVals : Nat → List (Option Word) → List Word × Nat
  | n, [] => ([], n)
  | n, none :: r => let y := solidVals (n + 1) r; (Config.freeWord n :: y.1, y.2)
  | n, some v :: r => let y := solidVals n r; (v :: y.1, y.2)

/-- Columns of values with something in every null's place. -/
def State.solid (s : State) : List (List (Option Word)) → List (List Word) × State
  | [] => ([], s)
  | l :: r =>
    let x := solidVals s.freeCtr l
    let y := { s with freeCtr := x.2 }.solid r
    (x.1 :: y.1, y.2)

/-- A field's column of a list of rows. -/
def colOf (rows : List Row) (k : Nat) : List (Option Word) := rows.map (fun r => r.vals.getD k none)

/-- The dense array of a field. -/
def denseBytes (d : FieldD) (l : List Word) : List Byte := l.flatMap (fun v => leBytes (d.width / 8) v.toNat)

/-! ### Aggregates (05 R135, R138) -/

/-- The aggregate specifications of a block: function and field (04 R108). -/
def aggSpecs (blk : List Byte) : List (Nat × Nat) := (List.range (blk.length / 8)).map (fun k => (getLE blk (8 * k) 1, getLE blk (8 * k + 1) 1))

/-- A field that stands for none. -/
def noField : FieldD := { width := 64, xform := 0, scale := 0, null := 0, dict := 0 }

/-- The bytes of an accumulator (05 R135). -/
def accSize (fn : Nat) (d : FieldD) : Nat := if fn = 1 ∧ d.xform ≠ 2 then 16 else 8

/-- The type of an aggregate's result (05 R138). -/
def aggField (fn : Nat) (d : FieldD) : FieldD :=
  match fn with
  | 1 => { d with width := 64, dict := 0 }
  | 4 => { width := 64, xform := 0, scale := 0, null := 0, dict := 0 }
  | _ => d

/-! ### What a breaker's rows look like to a SCAN (04 R103; log 25) -/

/-- The field descriptor that a column object's values have in a field (04 R98). -/
def ObjDesc.fieldD (d : ObjDesc) : FieldD := { width := fieldWidth d.width, xform := d.xform, scale := d.scale, null := 1, dict := d.dictId }

/-- The fields of the rows that a breaker leaves. -/
def State.brkSchema (s : State) (f q i : Nat) : List FieldD :=
  let b := s.rawOf f q
  let o := imgOp b i
  let inp := imgSchemaAt b o.in0
  match o.opcode with
  | 5 => (maskFields (o.optAt 0 16) ++ maskFields (o.optAt 16 16)).map (fun k => inp.getD k noField)
  | 7 => (maskFields (o.optAt 0 16)).map (fun k => inp.getD k noField)
      ++ (aggSpecs (s.paramOf f q i)).map (fun x => aggField x.1 (inp.getD x.2 noField))
  | 8 => match s.readObj f o.obj with
      | .ok d => [aggField (o.optAt 0 3) d.fieldD]
      | _ => [noField]
  | _ => inp

/-- Lineage order: morsel, then row. -/
def lineageLe (m1 r1 m2 r2 : Nat) : Bool := decide (m1 < m2) || (m1 == m2 && decide (r1 ≤ r2))

/-- The value of AGG_PLANE's line, none when it counted no row (05 R138, R139). -/
def Breaker.planeValue (x : Breaker) (fn : Nat) (d : FieldD) : Option Word :=
  if x.rows = 0 then none
  else if fn = 4 then some (BitVec.ofNat 64 x.rows)
  else if fn = 1 then some (BitVec.ofNat 64 x.plane)
  else some (BitVec.ofNat 64 (untransform d.xform d.width x.plane % 2 ^ d.width))

/-- The rows of a breaker's result, one list for each of its partitions, each a list of fields: a build's rows in
lineage order, finalised groups, the accumulator's row, runs in order (04 R103, R115; 05 R138, R139; log 25). -/
def State.brkRows (s : State) (f q i : Nat) : List (List (List (Option Word))) :=
  let o := imgOp (s.rawOf f q) i
  let x := s.brkOf f q i
  match o.opcode with
  | 5 => (List.range o.count).map (fun p =>
      (sortBy (fun (a b : JRow) => lineageLe a.morsel a.row b.morsel b.row) (x.join.getD p {}).rows).map (fun r => r.key ++ r.pay))
  | 7 => (List.range o.count).map (fun p => (x.agg.getD p {}).results)
  | 8 => match s.readObj f o.obj with
      | .ok d => [[[x.planeValue (o.optAt 0 3) d.fieldD]]]
      | _ => [[[none]]]
  | _ => (sortBy (fun (a b : SRun) => decide (a.morsel ≤ b.morsel)) x.runs).map (fun r => r.rows.map (fun y => y.2.vals))

end Sys2Proof.Machine
end

