-- ==== Sys2Proof/Machine/Exchange.lean ====
section
/-! DEFINITION. Exchanges: opening, staging, slices, rounds and the receive area (15 R447 to R456). -/

namespace Sys2Proof.Machine

/-! ### Opening (15 R447, R448) -/

/-- The exchange that a descriptor spells. -/
def parseXchg (f q p op slot : Nat) (b nodes : List Byte) : Xchg :=
  { f, qslot := q, pipe := p, op, rounds := getLE b 2 2, n := getLE b 4 4, self := getLE b 8 4, window := getLE b 0x0C 4, t0 := getLE b 0x10 8,
    period := getLE b 0x18 4, mbase := getLE b 0x1C 4, mtotal := getLE b 0x20 4,
    nodes := (List.range (getLE b 4 4)).map (fun i => getLE nodes (4 * i) 4 % 2 ^ 18), recv := getLE b 0x30 8, cap := getLE b 0x38 8, slot }

/-- No value stands twice in a list. -/
def noRepeat : List Nat → Bool
  | [] => true
  | x :: r => !r.contains x && noRepeat r

/-- Opens the exchange of operator op of a query, or answers the status with which the query fails (15 R448, R456). -/
def State.openXchg (s : State) (f q p op : Nat) : Nat ⊕ State :=
  let b := s.paramOf f q op
  let id := getLE b 0 2
  let n := getLE b 4 4
  let map := getLE b 0x28 8
  let e := (s.tenant f).ent
  if n = 0 ∨ 262144 < n ∨ !s.rangeOk f map (4 * n) 1 then .inl 0x0601
  else
    let slot := ((List.range 65536).find? (fun i => !s.krl.xchgs.any (fun y => y.2.slot == i))).getD 0
    let x := parseXchg f q p op slot b (s.readBytes map (4 * n)).1
    if x.rounds = 0 ∨ n ≤ x.self ∨ x.window = 0 ∨ x.period < x.window ∨ x.recv % 64 ≠ 0 ∨ x.cap % 128 ≠ 0 ∨ !s.rangeOk f x.recv x.cap 3
        ∨ !noRepeat x.nodes ∨ x.nodes.getD x.self (2 ^ 18) ≠ s.nodeId ∨ (s.krl.xchgs.find? id).isSome
        ∨ id < e.xchgBase ∨ e.xchgBase + e.xchgCount ≤ id ∨ x.cap / 2 < 16 * n then .inl 0x0601
    else if 1 < n ∧ s.cad.state ≠ 2 then .inl 0x0603
    else if s.krl.aborts.any (fun a => a.1 == id && decide (s.ticks ≤ a.2 + 100000000)) then .inl 0x0602
    else .inr { s with krl := { s.krl with xchgs := s.krl.xchgs ++ [(id, x)] } }

/-- Changes an open exchange. -/
def State.updXchg (s : State) (id : Nat) (g : Xchg → Xchg) : State :=
  { s with krl := { s.krl with xchgs := s.krl.xchgs.map (fun p => if p.1 = id then (p.1, g p.2) else p) } }

/-- An open exchange. -/
def State.xchg (s : State) (id : Nat) : Option Xchg := s.krl.xchgs.find? id

/-- The exchange that an operator of a query opened. -/
def State.xchgOf (s : State) (f q op : Nat) : Option (Nat × Xchg) :=
  List.find? (fun (p : Nat × Xchg) => p.2.f == f && p.2.qslot == q && p.2.op == op) s.krl.xchgs

/-- A round. -/
def Xchg.rnd (x : Xchg) (r : Nat) : Round := x.round.getD r {}

/-- Changes a round. -/
def State.updRound (s : State) (id r : Nat) (g : Round → Round) : State :=
  s.updXchg id (fun x => { x with round := x.round.upd r {} g })

/-- The address of the half of the receive area that a round uses (15 R452). -/
def Xchg.half (x : Xchg) (r : Nat) : Nat := x.recv + r % 2 * (x.cap / 2)

/-- Launch tick and deadline of a round (15 R447). -/
def Xchg.launch (x : Xchg) (r : Nat) : Nat := x.t0 + r * x.period
def Xchg.deadline (x : Xchg) (r : Nat) : Nat := x.launch r + x.window

/-! ### Slices (15 R450) -/

/-- A field's value in a record: sign- or zero-extended to 8 B, zero for a null (05 R127). -/
def recVal (d : FieldD) (v : Option Word) : Word :=
  match v with
  | some x => if d.xform = 1 ∨ d.xform = 3 then sext64 d.width x.toNat else BitVec.ofNat 64 (x.toNat % 2 ^ d.width)
  | none => 0

/-- The mask of the null values of a list. -/
def nullMask (l : List (Option Word)) : Nat := (l.mapIdx (fun i v => if v.isNone then 2 ^ i else 0)).sum

/-- A record: header with lineage and null mask, then the values (05 R127; 15 R450). -/
def recBytes (morsel row : Nat) (mask : Nat) (vals : List Word) : List Byte :=
  leBytes 4 morsel ++ leBytes 2 row ++ leBytes 2 mask ++ vals.flatMap (fun v => leBytes 8 v.toNat)

/-- The slice of staged rows from a source: the header and the records in (morsel, row) order. -/
def sliceBytes (schema : List FieldD) (mbase src : Nat) (rows : List Row) : List Byte :=
  let sorted := sortBy (fun (a b : Row) => lineageLe a.morsel a.row b.morsel b.row) rows
  let recs := sorted.flatMap (fun r => recBytes (mbase + r.morsel) r.row (nullMask r.vals) (List.zipWith recVal schema r.vals))
  leBytes 4 rows.length ++ leBytes 4 recs.length ++ leBytes 1 schema.length ++ zeros 3 ++ leBytes 4 src ++ recs

/-- The rows of a slice's bytes, in record order. -/
def sliceRows (schema : List FieldD) (b : List Byte) : List Row :=
  let nf := schema.length
  (List.range (getLE b 0 4)).map (fun k =>
    let o := 16 + k * (8 + 8 * nf)
    let m := getLE b (o + 6) 2
    { morsel := getLE b o 4, row := getLE b (o + 4) 2,
      vals := schema.mapIdx (fun i d => if m / 2 ^ i % 2 = 1 then none else some (BitVec.ofNat 64 (getLE b (o + 8 + 8 * i) 8 % 2 ^ d.width))) })

/-- The schema of the rows an exchange carries: the output of its operator (15 R450). -/
def State.xchgSchema (s : State) (x : Xchg) : List FieldD := imgSchemaAt (s.rawOf x.f x.qslot) x.op

/-! ### The receive area (15 R452) -/

/-- Room for a slice of n bytes in its half: the round's fill so far, none where it does not fit or the half is still
held by round r − 2. -/
def Xchg.room (x : Xchg) (r n : Nat) : Option Nat :=
  let fill := max (16 * x.n) (x.rnd r).fill
  if 2 ≤ r ∧ !(x.rnd (r - 2)).consumed then none
  else if x.cap / 2 < fill + n then none else some fill

/-- Writes a directory entry of a round's half (log 26). -/
def State.sliceDir (s : State) (x : Xchg) (r src at_ len rows : Nat) : State :=
  s.writeBytes x.f (x.half r + 16 * src) (leBytes 8 at_ ++ leBytes 4 len ++ leBytes 4 rows)

/-- The task of a stage of a query's pipeline with a place. -/
def State.stageTask (s : State) (f q p k seq : Nat) : Option Nat :=
  (List.find? (fun (t : Nat × Task) => t.2.qslot == q && t.2.pipe == p && t.2.stage == k && t.2.seq == seq && t.2.special.isNone) (s.disp f).tasks).map (·.1)

/-- Sends a Pip to a task. -/
def State.sendPip (s : State) (f : Nat) (desc : Option Nat) (port : Nat) (value : Word) : State :=
  match desc with
  | some d => { s with pips := s.pips ++ [{ f, desc := d, port, epoch := s.epochOf f, value }] }
  | none => s

/-- The stage that ends at an exchange's operator. -/
def State.xchgStage (s : State) (x : Xchg) : Nat :=
  let b := s.rawOf x.f x.qslot
  (((imgPipe b x.pipe).stages b).findIdx? (fun y => y.2 == x.op)).getD 0

/-- A round that holds all its slices is received whole, and its receive task gets the Pip on port 2; with every slice
acknowledged it is complete (15 R449, R452). -/
def State.roundCheck (s : State) (id r : Nat) : State :=
  match s.xchg id with
  | none => s
  | some x =>
    let y := x.rnd r
    let whole := (List.range x.n).all (fun i => y.slices.any (fun z => z.src == i && z.whole))
    let s1 := if whole && !y.received then
        (s.updRound id r (fun y => { y with received := true })).sendPip x.f (s.stageTask x.f x.qslot x.pipe (s.xchgStage x + 1) r) 2
          (BitVec.ofNat 64 (x.half r))
      else s
    let y1 := (((s1.xchg id).map (fun x => x.rnd r)).getD {})
    if y1.received && y1.flushed && (List.range x.n).all (fun i => i == x.self || y1.sacks.contains i) then s1.updRound id r (fun y => { y with complete := true })
    else s1

/-! ### Launching (15 R449 to R451) -/

/-- The stages up to k of a pipeline hold probe rows that wait for a spilled partition (05 R144). -/
def State.probesWait (s : State) (f q p k : Nat) : Bool :=
  let b := s.rawOf f q
  let st := (imgPipe b p).stages b
  ((List.range (k + 1)).flatMap (stageOps st)).any (fun i => (imgOp b i).opcode == 6 && (s.brkOf f q i).join.any (fun y => !y.2.probes.isEmpty))

/-- Every send task of a round's morsels has finished, those of spilled sub-partitions among them (15 R451; 05 R144). -/
def State.sendsDone (s : State) (x : Xchg) (r : Nat) : Bool :=
  let k := s.xchgStage x
  let ps := (s.query x.f x.qslot).pipes.getD x.pipe {}
  let past (m : Nat) : Bool := match ps.cut with | some c => decide (c < m) | none => false
  !((s.disp x.f).tasks.any (fun t => t.2.qslot == x.qslot && t.2.pipe == x.pipe && decide (t.2.stage ≤ k)
      && (t.2.special.isSome || (t.2.seq % x.rounds == r && !past t.2.seq))))
    && (List.range ps.morsels).all (fun m => decide (m < ps.next) || m % x.rounds != r || past m)
    && !s.probesWait x.f x.qslot x.pipe k

/-- The flits of a slice for a destination, in order, the last with LAST (15 R431, R450, R451). -/
def sliceFlits (id r src dst : Nat) (b : List Byte) : List Flit :=
  let n := (b.length + 223) / 224
  (List.range n).map (fun i => { type := 1, vc := 0, last := i + 1 == n, dst, src, xchg := id, round := r, offset := 224 * i, payload := padTo 224 (cut b (224 * i) 224) })

/-- The device's own slice goes straight into its own receive area (15 R451). -/
def State.ownSlice (s : State) (id : Nat) (x : Xchg) (r : Nat) (b : List Byte) : Option State :=
  (x.room r b.length).map (fun at_ =>
    (((s.writeBytes x.f (x.half r + at_) b).sliceDir x r x.self at_ b.length (getLE b 0 4)).updRound id r (fun y => { y with
      fill := at_ + b.length, slices := { src := x.self, at_, got := b.length, len := b.length, rows := getLE b 0 4, whole := true } :: y.slices })))

/-- A launched round whose send tasks have finished sends its slices, in destination order SELF + 1, SELF + 2, …; an
own slice that finds no room fails the query (15 R451, R452). -/
def State.roundTry (s : State) (id r : Nat) : State :=
  match s.xchg id with
  | none => s
  | some x =>
    let y := x.rnd r
    if !y.launched || y.flushed || !s.sendsDone x r then s
    else
      let schema := s.xchgSchema x
      let body (i : Nat) : List Byte := sliceBytes schema x.mbase x.self (x.staged.getD (r * x.n + i) [])
      let s1 := s.updXchg id (fun x => { x with
        round := x.round.upd r {} (fun y => { y with flushed := true }),
        staged := x.staged.filter (fun p => decide (p.1 / max 1 x.n ≠ r)) })
      match s1.ownSlice id x r (body x.self) with
      | none => s1.failQuery x.f x.qslot 0x0307
      | some s2 =>
        let s3 := ((List.range (x.n - 1)).map (fun i => (x.self + 1 + i) % x.n)).foldl (fun (s : State) i =>
          (sliceFlits id r s.nodeId (x.nodes.getD i 0) (body i)).foldl (fun (s : State) y => s.forward y none) s) s2
        s3.roundCheck id r

/-- KRL_ROUND: a round launches (15 R449, R451). -/
def State.launchRound (s : State) (id r : Nat) : State := (s.updRound id r (fun y => { y with launched := true })).roundTry id r

/-- Every launched round of an exchange is looked at again, as after a send task. -/
def State.roundsTry (s : State) (id : Nat) : State :=
  match s.xchg id with
  | none => s
  | some x => (x.round.filter (fun p => p.2.launched && !p.2.flushed)).foldl (fun (s : State) p => s.roundTry id p.1) s

/-- Consecutive rows of one morsel as batches of at most 65,536 rows (15 R453; 05 R130). -/
def batchRows : List Row → List Batch
  | [] => []
  | r :: l => match batchRows l with
    | b :: rest => if b.morsel = r.morsel ∧ b.rows.length < 65536 then { b with rows := r :: b.rows } :: rest else { morsel := r.morsel, rows := [r] } :: b :: rest
    | [] => [{ morsel := r.morsel, rows := [r] }]

/-- The batches of a round, from the receive area: increasing source, record order (15 R453). -/
def State.recvBatches (s : State) (x : Xchg) (r : Nat) : List Batch :=
  let y := x.rnd r
  let schema := s.xchgSchema x
  batchRows ((List.range x.n).flatMap (fun i => match y.slices.find? (fun z => z.src == i) with
    | some z => sliceRows schema (s.readBytes (x.half r + z.at_) z.len).1
    | none => []))

end Sys2Proof.Machine
end

