-- ==== Sys2Proof/Machine/QuillInt.lean ====
section
/-! DEFINITION. The scalar Quill instructions that access no memory (06 R166 to R168, R172 to R174, R182, R184). -/

namespace Sys2Proof.Machine

/-- Count of leading zero bits of the low n bits; n for 0 (06 R166 CLZ). -/
def clzFrom (v : Word) : Nat → Nat
  | 0 => 0
  | n + 1 => if v.getLsbD n then 0 else clzFrom v n + 1

/-- Count of trailing zero bits from bit 64 − n upward; n for none set (06 R166 CTZ). -/
def ctzFrom (v : Word) : Nat → Nat
  | 0 => 0
  | n + 1 => if v.getLsbD (63 - n) then 0 else ctzFrom v n + 1

/-- Count of one bits among the low n bits (06 R166 POPC). -/
def popFrom (v : Word) : Nat → Nat
  | 0 => 0
  | n + 1 => (if v.getLsbD n then 1 else 0) + popFrom v n

/-- 1 or 0. -/
def boolWord (b : Bool) : Word := if b then 1 else 0

/-- The high 64 bits of the signed product (06 R167). -/
def mulhS (a b : Word) : Word := BitVec.ofInt 64 (a.toInt * b.toInt / (2 ^ 64 : Nat))

/-- The high 64 bits of the unsigned product (06 R167). -/
def mulhU (a b : Word) : Word := BitVec.ofNat 64 (a.toNat * b.toNat / 2 ^ 64)

/-- A division: DIVZERO on a zero divisor, writing nothing (06 R167). -/
def State.divide (s : State) (t : Nat) (rd ra rb : Reg) (f : Word → Word → Word) : State :=
  s.runInstr t true false false (fun c s1 =>
    if c.readG rb = 0 then .exc s1 .divzero 0 .fetch none
    else .done (s1.updCore t (fun x => x.writeG rd (f (c.readG ra) (c.readG rb)))))

/-- A conditional branch (06 R172, R176). -/
def State.condBranch (s : State) (t : Nat) (annul : Bool) (ra : Reg) (disp : BitVec 20) (p : Word → Bool) : State :=
  s.runInstr t true true false (fun c s1 => .branch s1 (p (c.readG ra)) annul (branchTarget c.pc disp))

/-- ADD: rd := ra + rb (06 R166) -/
def execAdd (t : Nat) (rd ra rb : Reg) (s : State) : Host.Outcome State Fault Refusal :=
  .next (s.alu t true rd (fun c => c.readG ra + c.readG rb))

/-- SUB: rd := ra − rb (06 R166) -/
def execSub (t : Nat) (rd ra rb : Reg) (s : State) : Host.Outcome State Fault Refusal :=
  .next (s.alu t true rd (fun c => c.readG ra - c.readG rb))

/-- AND: rd := ra and rb (06 R166) -/
def execAnd (t : Nat) (rd ra rb : Reg) (s : State) : Host.Outcome State Fault Refusal :=
  .next (s.alu t true rd (fun c => c.readG ra &&& c.readG rb))

/-- OR: rd := ra or rb (06 R166) -/
def execOr (t : Nat) (rd ra rb : Reg) (s : State) : Host.Outcome State Fault Refusal :=
  .next (s.alu t true rd (fun c => c.readG ra ||| c.readG rb))

/-- XOR: rd := ra xor rb (06 R166) -/
def execXor (t : Nat) (rd ra rb : Reg) (s : State) : Host.Outcome State Fault Refusal :=
  .next (s.alu t true rd (fun c => c.readG ra ^^^ c.readG rb))

/-- SLL: rd := ra << rb[5:0] (06 R166) -/
def execSll (t : Nat) (rd ra rb : Reg) (s : State) : Host.Outcome State Fault Refusal :=
  .next (s.alu t true rd (fun c => c.readG ra <<< (field (c.readG rb) 0 6)))

/-- SRL: rd := ra >> rb[5:0], zero fill (06 R166) -/
def execSrl (t : Nat) (rd ra rb : Reg) (s : State) : Host.Outcome State Fault Refusal :=
  .next (s.alu t true rd (fun c => c.readG ra >>> (field (c.readG rb) 0 6)))

/-- SRA: rd := ra >> rb[5:0], sign fill (06 R166) -/
def execSra (t : Nat) (rd ra rb : Reg) (s : State) : Host.Outcome State Fault Refusal :=
  .next (s.alu t true rd (fun c => (c.readG ra).sshiftRight (field (c.readG rb) 0 6)))

/-- SLT: rd := 1 if ra < rb signed, else 0 (06 R166) -/
def execSlt (t : Nat) (rd ra rb : Reg) (s : State) : Host.Outcome State Fault Refusal :=
  .next (s.alu t true rd (fun c => boolWord ((c.readG ra).slt (c.readG rb))))

/-- SLTU: rd := 1 if ra < rb unsigned, else 0 (06 R166) -/
def execSltu (t : Nat) (rd ra rb : Reg) (s : State) : Host.Outcome State Fault Refusal :=
  .next (s.alu t true rd (fun c => boolWord ((c.readG ra).ult (c.readG rb))))

/-- MIN: the smaller, signed (06 R166) -/
def execMin (t : Nat) (rd ra rb : Reg) (s : State) : Host.Outcome State Fault Refusal :=
  .next (s.alu t true rd (fun c => if (c.readG rb).slt (c.readG ra) then c.readG rb else c.readG ra))

/-- MAX: the larger, signed (06 R166) -/
def execMax (t : Nat) (rd ra rb : Reg) (s : State) : Host.Outcome State Fault Refusal :=
  .next (s.alu t true rd (fun c => if (c.readG ra).slt (c.readG rb) then c.readG rb else c.readG ra))

/-- MINU: the smaller, unsigned (06 R166) -/
def execMinu (t : Nat) (rd ra rb : Reg) (s : State) : Host.Outcome State Fault Refusal :=
  .next (s.alu t true rd (fun c => if (c.readG rb).ult (c.readG ra) then c.readG rb else c.readG ra))

/-- MAXU: the larger, unsigned (06 R166) -/
def execMaxu (t : Nat) (rd ra rb : Reg) (s : State) : Host.Outcome State Fault Refusal :=
  .next (s.alu t true rd (fun c => if (c.readG ra).ult (c.readG rb) then c.readG rb else c.readG ra))

/-- ADDW: rd := sext((ra + rb)[31:0]) (06 R166) -/
def execAddw (t : Nat) (rd ra rb : Reg) (s : State) : Host.Outcome State Fault Refusal :=
  .next (s.alu t true rd (fun c => ((c.readG ra + c.readG rb).truncate 32 : BitVec 32).signExtend 64))

/-- SUBW: rd := sext((ra − rb)[31:0]) (06 R166) -/
def execSubw (t : Nat) (rd ra rb : Reg) (s : State) : Host.Outcome State Fault Refusal :=
  .next (s.alu t true rd (fun c => ((c.readG ra - c.readG rb).truncate 32 : BitVec 32).signExtend 64))

/-- NIBGET: rd := zext(bits [4k+3:4k] of ra), k = rb[3:0] (06 R166) -/
def execNibget (t : Nat) (rd ra rb : Reg) (s : State) : Host.Outcome State Fault Refusal :=
  .next (s.alu t true rd (fun c => BitVec.ofNat 64 (field (c.readG ra) (4 * field (c.readG rb) 0 4) 4)))

/-- MUL: rd := (ra × rb)[63:0] (R167) -/
def execMul (t : Nat) (rd ra rb : Reg) (s : State) : Host.Outcome State Fault Refusal :=
  .next (s.alu t true rd (fun c => c.readG ra * c.readG rb))

/-- MULH: the high half of the signed product (R167) -/
def execMulh (t : Nat) (rd ra rb : Reg) (s : State) : Host.Outcome State Fault Refusal :=
  .next (s.alu t true rd (fun c => mulhS (c.readG ra) (c.readG rb)))

/-- MULHU: the high half of the unsigned product (R167) -/
def execMulhu (t : Nat) (rd ra rb : Reg) (s : State) : Host.Outcome State Fault Refusal :=
  .next (s.alu t true rd (fun c => mulhU (c.readG ra) (c.readG rb)))

/-- CLZ: count of leading zero bits; 64 for 0 (06 R166) -/
def execClz (t : Nat) (rd ra : Reg) (s : State) : Host.Outcome State Fault Refusal :=
  .next (s.alu t true rd (fun c => BitVec.ofNat 64 (clzFrom (c.readG ra) 64)))

/-- CTZ: count of trailing zero bits; 64 for 0 (06 R166) -/
def execCtz (t : Nat) (rd ra : Reg) (s : State) : Host.Outcome State Fault Refusal :=
  .next (s.alu t true rd (fun c => BitVec.ofNat 64 (ctzFrom (c.readG ra) 64)))

/-- POPC: count of one bits (06 R166) -/
def execPopc (t : Nat) (rd ra : Reg) (s : State) : Host.Outcome State Fault Refusal :=
  .next (s.alu t true rd (fun c => BitVec.ofNat 64 (popFrom (c.readG ra) 64)))

/-- JR: target := ra, one delay slot (06 R166, R176) -/
def execJr (t : Nat) (ra : Reg) (s : State) : Host.Outcome State Fault Refusal :=
  .next (s.runInstr t true true false (fun c s1 => .branch s1 true false (c.readG ra)))

/-- JALR: rd := pc + 8, target := ra; rd ≠ ra unless rd = 0 (06 R166, R176) -/
def execJalr (t : Nat) (rd ra : Reg) (s : State) : Host.Outcome State Fault Refusal :=
  .next (s.runInstr t (rd != ra || rd == 0) true false (fun c s1 => .branch (s1.updCore t (fun x => x.writeG rd (c.pc + 8))) true false (c.readG ra)))

/-- DIV: signed quotient toward zero; −2^63 by −1 gives −2^63 (06 R167) -/
def execDiv (t : Nat) (rd ra rb : Reg) (s : State) : Host.Outcome State Fault Refusal :=
  .next (s.divide t rd ra rb (fun a b => a.sdiv b))

/-- DIVU: unsigned quotient (06 R167) -/
def execDivu (t : Nat) (rd ra rb : Reg) (s : State) : Host.Outcome State Fault Refusal :=
  .next (s.divide t rd ra rb (fun a b => a / b))

/-- REM: signed remainder; −2^63 by −1 gives 0 (06 R167) -/
def execRem (t : Nat) (rd ra rb : Reg) (s : State) : Host.Outcome State Fault Refusal :=
  .next (s.divide t rd ra rb (fun a b => a.srem b))

/-- REMU: unsigned remainder (06 R167) -/
def execRemu (t : Nat) (rd ra rb : Reg) (s : State) : Host.Outcome State Fault Refusal :=
  .next (s.divide t rd ra rb (fun a b => a % b))

/-- ADDI: rd := ra + sext(imm16) (06 R168) -/
def execAddi (t : Nat) (rd ra : Reg) (imm : BitVec 16) (s : State) : Host.Outcome State Fault Refusal :=
  .next (s.alu t true rd (fun c => c.readG ra + sextImm imm))

/-- ANDI: rd := ra and zext(imm16) (06 R168) -/
def execAndi (t : Nat) (rd ra : Reg) (imm : BitVec 16) (s : State) : Host.Outcome State Fault Refusal :=
  .next (s.alu t true rd (fun c => c.readG ra &&& zextImm imm))

/-- ORI: rd := ra or zext(imm16) (06 R168) -/
def execOri (t : Nat) (rd ra : Reg) (imm : BitVec 16) (s : State) : Host.Outcome State Fault Refusal :=
  .next (s.alu t true rd (fun c => c.readG ra ||| zextImm imm))

/-- XORI: rd := ra xor zext(imm16) (06 R168) -/
def execXori (t : Nat) (rd ra : Reg) (imm : BitVec 16) (s : State) : Host.Outcome State Fault Refusal :=
  .next (s.alu t true rd (fun c => c.readG ra ^^^ zextImm imm))

/-- SLTI: rd := 1 if ra < sext(imm16) signed (06 R168) -/
def execSlti (t : Nat) (rd ra : Reg) (imm : BitVec 16) (s : State) : Host.Outcome State Fault Refusal :=
  .next (s.alu t true rd (fun c => boolWord ((c.readG ra).slt (sextImm imm))))

/-- SLTIU: rd := 1 if ra < sext(imm16) unsigned (06 R168) -/
def execSltiu (t : Nat) (rd ra : Reg) (imm : BitVec 16) (s : State) : Host.Outcome State Fault Refusal :=
  .next (s.alu t true rd (fun c => boolWord ((c.readG ra).ult (sextImm imm))))

/-- LUI: rd := sext(imm16 << 16) (06 R168) -/
def execLui (t : Nat) (rd : Reg) (imm : BitVec 16) (s : State) : Host.Outcome State Fault Refusal :=
  .next (s.alu t true rd (fun _ => ((imm.zeroExtend 32) <<< 16 : BitVec 32).signExtend 64))

/-- SLLI: rd := ra << imm16[5:0]; imm16[15:6] = 0 (06 R168) -/
def execSlli (t : Nat) (rd ra : Reg) (imm : BitVec 16) (s : State) : Host.Outcome State Fault Refusal :=
  .next (s.alu t (field imm 6 10 == 0) rd (fun c => c.readG ra <<< (field imm 0 6)))

/-- SRLI: rd := ra >> imm16[5:0], zero fill; imm16[15:6] = 0 (06 R168) -/
def execSrli (t : Nat) (rd ra : Reg) (imm : BitVec 16) (s : State) : Host.Outcome State Fault Refusal :=
  .next (s.alu t (field imm 6 10 == 0) rd (fun c => c.readG ra >>> (field imm 0 6)))

/-- SRAI: rd := ra >> imm16[5:0], sign fill; imm16[15:6] = 0 (06 R168) -/
def execSrai (t : Nat) (rd ra : Reg) (imm : BitVec 16) (s : State) : Host.Outcome State Fault Refusal :=
  .next (s.alu t (field imm 6 10 == 0) rd (fun c => (c.readG ra).sshiftRight (field imm 0 6)))

/-- BR: always taken, annul 0 (06 R172) -/
def execBr (t : Nat) (disp : BitVec 20) (s : State) : Host.Outcome State Fault Refusal :=
  .next (s.runInstr t true true false (fun c s1 => .branch s1 true false (branchTarget c.pc disp)))

/-- CALL: G31 := pc + 8, always taken (06 R172) -/
def execCall (t : Nat) (disp : BitVec 20) (s : State) : Host.Outcome State Fault Refusal :=
  .next (s.runInstr t true true false (fun c s1 => .branch (s1.updCore t (fun x => x.writeG 31 (c.pc + 8))) true false (branchTarget c.pc disp)))

/-- BEQZ: taken when ra = 0 (06 R172) -/
def execBeqz (t : Nat) (annul : Bool) (ra : Reg) (disp : BitVec 20) (s : State) : Host.Outcome State Fault Refusal :=
  .next (s.condBranch t annul ra disp (fun v => v == 0))

/-- BNEZ: taken when ra ≠ 0 (06 R172) -/
def execBnez (t : Nat) (annul : Bool) (ra : Reg) (disp : BitVec 20) (s : State) : Host.Outcome State Fault Refusal :=
  .next (s.condBranch t annul ra disp (fun v => v != 0))

/-- BLTZ: taken when ra < 0 (06 R172) -/
def execBltz (t : Nat) (annul : Bool) (ra : Reg) (disp : BitVec 20) (s : State) : Host.Outcome State Fault Refusal :=
  .next (s.condBranch t annul ra disp (fun v => v.slt 0))

/-- BGEZ: taken when ra ≥ 0 (06 R172) -/
def execBgez (t : Nat) (annul : Bool) (ra : Reg) (disp : BitVec 20) (s : State) : Host.Outcome State Fault Refusal :=
  .next (s.condBranch t annul ra disp (fun v => !v.slt 0))

/-- BGTZ: taken when ra > 0 (06 R172) -/
def execBgtz (t : Nat) (annul : Bool) (ra : Reg) (disp : BitVec 20) (s : State) : Host.Outcome State Fault Refusal :=
  .next (s.condBranch t annul ra disp (fun v => (0 : Word).slt v))

/-- BLEZ: taken when ra ≤ 0 (06 R172) -/
def execBlez (t : Nat) (annul : Bool) (ra : Reg) (disp : BitVec 20) (s : State) : Host.Outcome State Fault Refusal :=
  .next (s.condBranch t annul ra disp (fun v => !(0 : Word).slt v))

/-- MFCR: rd := cr[n12] (06 R155, R173) -/
def execMfcr (t : Nat) (rd : Reg) (cr : BitVec 12) (s : State) : Host.Outcome State Fault Refusal :=
  .next (s.runInstr t true false false (fun c s1 => s1.mfcr t c rd cr.toNat))

/-- MTCR: cr[n12] := ra under the field types (06 R155, R162, R173) -/
def execMtcr (t : Nat) (ra : Reg) (cr : BitVec 12) (s : State) : Host.Outcome State Fault Refusal :=
  .next (s.runInstr t true false false (fun c s1 => s1.crModify t c none cr.toNat (fun _ => c.readG ra)))

/-- SETCR: cr[n12] := cr[n12] or ra; rd := old value (06 R173) -/
def execSetcr (t : Nat) (rd ra : Reg) (cr : BitVec 12) (s : State) : Host.Outcome State Fault Refusal :=
  .next (s.runInstr t true false false (fun c s1 => s1.crModify t c (some rd) cr.toNat (fun v => v ||| c.readG ra)))

/-- CLRCR: cr[n12] := cr[n12] and not ra; rd := old value (06 R173) -/
def execClrcr (t : Nat) (rd ra : Reg) (cr : BitVec 12) (s : State) : Host.Outcome State Fault Refusal :=
  .next (s.runInstr t true false false (fun c s1 => s1.crModify t c (some rd) cr.toNat (fun v => v &&& ~~~(c.readG ra))))

/-- SYSCALL: the exception SYSCALL with SVC n12 and QEPC pc + 4; in held execution other than 0, SPEC_STORE (06 R162, R174, R182). -/
def execSyscall (t : Nat) (svc : BitVec 12) (s : State) : Host.Outcome State Fault Refusal :=
  .next (s.runInstr t true true false (fun c s1 =>
    if !c.runtime && c.held && svc != 0 then .exc s1 .specStore 0 .fetch none else .call s1 svc))

/-- RFE: pc := QEPC, the mode and IE restored, EXL cleared, no delay slot; PRIV in task mode (06 R155, R182, R192). -/
def execRfe (t : Nat) (s : State) : Host.Outcome State Fault Refusal :=
  .next (s.runInstr t true true false (fun c s1 =>
    if !c.runtime then .exc s1 .priv 0 .fetch none
    else .goto (s1.updCore t (fun c => { c with
      pc := c.qepc, qstat := putBit (putBit c.qstat 0 c.pmode) 1 false, qctl := putBit c.qctl 0 c.pie, bpkeyEff := c.bpkey }))))

/-- FENCE: in order and with one outstanding miss, earlier accesses are complete; with G the core waits until the host
has sent GO for every earlier store to host memory (06 R174, 10 R293, R299). -/
def execFence (t : Nat) (n : BitVec 12) (s : State) : Host.Outcome State Fault Refusal :=
  .next (s.runInstr t (field n 3 9 == 0) false false (fun _ s1 =>
    if n.getLsbD 2 && !s1.goPend.isEmpty then .block s1 else .done s1))

/-- ISYNC: fetches again from pc + 4; the new BPKEY takes effect (06 R174, R192). -/
def execIsync (t : Nat) (s : State) : Host.Outcome State Fault Refusal :=
  .next (s.runInstr t true false false (fun _ s1 => .done (s1.updCore t (fun c => { c with bpkeyEff := c.bpkey }))))

/-- A core takes a pending enabled interrupt between two instructions: a WAITTASK in progress ends with rd 0 and
QEPC after it (06 R184, 08 R233). -/
def State.takeInterrupt (s : State) (t : Nat) : State :=
  let c := s.core t
  if s.tileOn t && c.released && s.pw.pstate == 0 && !s.isolated t && c.stall.isNone && c.intrReady then
    let s1 := match c.wait with
      | some w => (s.updCore t (fun c => { (c.writeG w.rd 0) with wait := none, pc := c.pc + 4 })).updTile t
          (fun x => { x with dsp := { x.dsp with wstat := 2 } })
      | none => s
    s1.raise t .interrupt 0 .fetch false none 0
  else s

/-- INTERRUPT: an enabled pending source is taken between instructions (06 R184). -/
def execInterrupt (t : Nat) (s : State) : Host.Outcome State Fault Refusal := .next (s.takeInterrupt t)

/-- BPCLR: a write of QCTL.BPCLR clears every predictor entry before the next instruction issues (06 R178, R186). -/
def execBpclr (t : Nat) (s : State) : Host.Outcome State Fault Refusal := .next (s.clearPred t)

/-- RANGE_GO: a write of L1CTL.RANGE_GO walks every set applying the range operation (09 R262, R264, R265). -/
def execRangeGo (t : Nat) (s : State) : Host.Outcome State Fault Refusal :=
  .next (if (s.tile t).l1.ctl.getLsbD 9 then (s.parityWalkI t).rangeOp t
    else
      let r := s.parityScan t walkSel
      if r.2 then r.1 else r.1.rangeOp t)

/-- DIS: a write of L1CTL.DIS; 1 cleans and invalidates all of L1D and disables it, 0 re-enables it (09 R263). -/
def execDis (t : Nat) (on : Bool) (s : State) : Host.Outcome State Fault Refusal :=
  .next (let r := s.parityScan t walkSel
    if r.2 then r.1 else r.1.setDis t on)

/-- IDIS: a write of L1CTL.IDIS; 1 invalidates all of L1I and disables it, 0 re-enables it (09 R263). -/
def execIdis (t : Nat) (on : Bool) (s : State) : Host.Outcome State Fault Refusal := .next ((s.parityWalkI t).setIdis t on)

end Sys2Proof.Machine
end

