-- ==== Sys2Proof/Machine/Dispatcher.lean ====
section
/-! DEFINITION. The dispatcher: expansion of pipelines, stages and their ends, Pips, assignment of tasks, binding of tiles
(04 R104, R111, R115 to R117; 05 R129, R134, R138, R140, R144, R145; 08 R219 to R235). -/

namespace Sys2Proof.Machine

/-! ### What a pipeline expands to (04 R115) -/

/-- The morsels of n rows. -/
def morselsFor (n : Nat) : Nat := (n + 65535) / 65536

/-- The morsels of a TABLE_SRC scan: partition and first row of each. -/
def tableMorsels (parts : List (List (List (Option Word)))) : List (Nat × Nat) :=
  (parts.mapIdx (fun p l => (List.range (morselsFor l.length)).map (fun k => (p, 65536 * k)))).flatten

/-- The rows of all runs of a SORT_RADIX. -/
def Breaker.runRows (x : Breaker) : Nat := x.runs.foldl (fun a r => a + r.rows.length) 0

/-- How many morsels the source of a pipeline has, or the status with which the query fails (04 R109, R115; 02 R42). -/
def State.morselsOf (s : State) (f q p : Nat) : State × (Nat ⊕ Nat) :=
  let b := s.rawOf f q
  let i := (imgPipe b p).first
  let o := imgOp b i
  let blk := s.paramOf f q i
  match o.opcode with
  | 1 =>
    if o.optAt 1 1 = 1 then (s, .inr (tableMorsels (s.brkRows f q o.obj)).length)
    else if o.optAt 2 1 = 1 then (s, .inr (morselsFor (getLE blk 0 8)))
    else match s.readObj f (getLE blk 0 4) with
      | .absent => (s, .inl 0x0203)
      | .poisoned => (s, .inl 0x0401)
      | .bad c => (s.logSegment f 5 0 (getLE blk 0 4) 0xFFFFFFFF c, .inl 0x0402)
      | .ok d => (s, .inr d.segCount)
  | 0x0A => (s, .inr (morselsFor (s.brkOf f q o.obj).runRows))
  | _ => (s, .inr (blk.length / 16))

/-! ### Sizes that an AGG_HASH must have (05 R134, R135, R140) -/

/-- The size of a group entry (05 R135). -/
def State.aggEntry (s : State) (f q i : Nat) : Nat :=
  let b := s.rawOf f q
  let o := imgOp b i
  let inp := imgSchemaAt b o.in0
  16 + 8 * (maskFields (o.optAt 0 16)).length + ((aggSpecs (s.paramOf f q i)).map (fun x => accSize x.1 (inp.getD x.2 noField))).sum

/-- The largest k with 2^k × 64 at most n, at most `top`. -/
def log2Buckets (n top : Nat) : Nat := min top (Nat.log2 (n / 64))

/-- A partition's share of the budget, its bucket bits, its entry capacity (05 R134). -/
def State.aggShare (s : State) (f q i : Nat) : Nat := s.budgetOf f q i / max 1 (imgOp (s.rawOf f q) i).count
def State.aggBits (s : State) (f q i : Nat) : Nat := log2Buckets (s.aggShare f q i / 8) 18
def State.aggCap (s : State) (f q i : Nat) : Nat := (s.aggShare f q i - 64 * 2 ^ s.aggBits f q i) / s.aggEntry f q i

/-- The room for groups of the task-local table (05 R140). -/
def State.aggLocal (s : State) (f q i : Nat) : Nat :=
  let sc := imgScratch (s.rawOf f q)
  if sc < 1024 then 0 else (sc / 2 - 64 * 2 ^ log2Buckets (sc / 16) 63) / s.aggEntry f q i

/-- An AGG_HASH has the memory it must have before its first task runs. -/
def State.aggOk (s : State) (f q i : Nat) : Bool :=
  decide (8192 ≤ s.aggShare f q i) && (!(imgOp (s.rawOf f q) i).det || decide (0 < s.aggLocal f q i))

/-! ### Creating tasks (08 R219 to R221) -/

/-- A task of stage k of a pipeline at a place. -/
def State.mkTask (s : State) (f q p k seq pips : Nat) (special : Option (Nat × Nat)) : Task :=
  let b := s.rawOf f q
  let st := (imgPipe b p).stages b
  let x := s.query f q
  let once := decide (onceFrom b st ≤ k)
  { qslot := q, qseq := x.qseq % 65536, image := x.image, pipe := p, opFirst := (stageAt st k).1, opLast := (stageAt st k).2,
    morsel := if once then 0 else seq, prio := x.prio, once, spec := hasSpec b st k, special, stage := k, pips,
    param := x.param, qstate := x.qstate, seq }

/-- Creates a task in the lowest free descriptor: ready when it needs no Pip, else waiting in a slot (08 R220, R223, R226). -/
def State.createTask (s : State) (f : Nat) (k : Task) : State :=
  match (s.disp f).freeDesc with
  | none => s
  | some d =>
    if k.pips = 0 then (s.putTask f d { k with at_ := .ready }).readyPut f d
    else (s.putTask f d { k with slot := if s.part = .aq680 then s.freeSlot else none, at_ := .waiting }).tryFire f d

/-- Descriptors, slots and ready entries for so many tasks, of which so many wait, are free (08 R220). -/
def State.taskRoom (s : State) (f q n waiting : Nat) : Bool :=
  decide ((s.disp f).tasks.length + n ≤ 32768) && s.slotRoom f waiting && s.readyOk f (s.query f q).prio

/-- The DIGEST stage before a place has finished: no task of it is left, and it had been expanded (08 R221; 04 R112). -/
def State.digestBefore (s : State) (f q p k seq : Nat) : Bool := (s.stageTask f q p k (seq - 1)).isNone

/-- Pips needed by a per-morsel task: port 0 after a stage boundary, port 1 behind another DIGEST; its PRESENT bits. -/
def State.groupPips (s : State) (f q p k m : Nat) : Nat × BitVec 4 :=
  let b := s.rawOf f q
  let st := (imgPipe b p).stages b
  let dig := hasDigest b st k && decide (0 < m)
  ((if 0 < k then 1 else 0) + (if dig then 1 else 0), if dig && s.digestBefore f q p k m then 2 else 0)

/-- Expands the next morsel group of a pipeline in one step (08 R220). -/
def State.expandGroup (s : State) (f q p : Nat) : State :=
  let b := s.rawOf f q
  let st := (imgPipe b p).stages b
  let m := ((s.query f q).pipes.getD p {}).next
  let s1 := (List.range (groupStages b st)).foldl (fun (s : State) k =>
    let x := s.groupPips f q p k m
    s.createTask f { s.mkTask f q p k m x.1 none with present := x.2 }) s
  s1.updQuery f q (fun x => { x with started := true, pipes := x.pipes.upd p {} (fun ps => { ps with next := m + 1 }) })

/-- Expands morsel groups in order while their resources are free; the first argument bounds them (04 R116, 08 R220). -/
def State.expandGo (s : State) (f q p : Nat) : Nat → State
  | 0 => s
  | n + 1 =>
    let b := s.rawOf f q
    let st := (imgPipe b p).stages b
    let ps := (s.query f q).pipes.getD p {}
    let g := groupStages b st
    if !ps.begun || ps.morsels ≤ ps.next || ps.cut.isSome || !s.taskRoom f q g g then s
    else (s.expandGroup f q p).expandGo f q p n

/-- Places what the breakers of a pipeline need before its first task: partition directories and the accumulator line
(05 R125, R139). -/
def State.placeBreakers (s : State) (f q p : Nat) : Option State :=
  let b := s.rawOf f q
  let pr := imgPipe b p
  ((List.range pr.nops).map (· + pr.first)).foldl (fun (a : Option State) i => a.bind (fun s =>
    let o := imgOp b i
    let n := if o.opcode = 5 then 32 * o.count else if o.opcode = 8 then 64 else 0
    if n = 0 then some s
    else (s.placeFor f q n 64).map (fun r =>
      let init := if o.opcode = 8 ∧ o.optAt 0 3 = 2 then leBytes 8 (2 ^ 64 - 1) ++ zeros 56 else zeros n
      (r.2.updBrk f q i (fun x => { x with line := r.1, plane := if o.optAt 0 3 = 2 ∧ o.opcode = 8 then 2 ^ 64 - 1 else 0 })).writeBytes f r.1 init))) (some s)

/-- Begins a pipeline whose resources are free: its morsels, its exchanges, its breakers' memory, the tasks of the
stages after the morsel groups (04 R104, R109, R115, R116; 08 R220, R221; 15 R448, R449). -/
def State.beginPipe (s : State) (f q p : Nat) : State :=
  let b := s.rawOf f q
  let pr := imgPipe b p
  let st := pr.stages b
  let g := groupStages b st
  let pb := (s.query f q).pbytes
  match s.morselsOf f q p with
  | (s1, .inl c) => s1.failQuery f q c
  | (s1, .inr m) =>
    let late := ((List.range st.length).filter (fun k => decide (g ≤ k))).flatMap (fun k => (List.range (stageTasks b pb st m k)).map (fun r => (k, r)))
    if !s1.taskRoom f q late.length late.length then s1
    else
      let ops := (List.range pr.nops).map (· + pr.first)
      let opened : Nat ⊕ State := (ops.filter (fun i => (imgOp b i).opcode == 0x0D)).foldl (fun a i => match a with
        | .inr s => s.openXchg f q p i
        | .inl c => .inl c) (.inr s1)
      match opened with
      | .inl c => s1.failQuery f q c
      | .inr s2 =>
        if !(ops.filter (fun i => (imgOp b i).opcode == 7)).all (fun i => s2.aggOk f q i) then s2.failQuery f q 0x0307
        else match s2.placeBreakers f q p with
          | none => s2.failQuery f q 0x0307
          | some s3 =>
            let left := (List.range st.length).map (fun k => (k, stageTasks b pb st m k))
            let s4 := s3.updQuery f q (fun x => { x with started := true, pipes := x.pipes.set p { begun := true, morsels := m, left } })
            let s5 := late.foldl (fun (s : State) (kr : Nat × Nat) =>
              let round := decide (kr.1 < onceFrom b st) && endsXchg b st (kr.1 - 1)
              let dig := decide (kr.1 < onceFrom b st) && hasDigest b st kr.1 && decide (0 < kr.2)
              let pips := 1 + (if round && decide (0 < kr.2) then 1 else 0) + (if dig then 1 else 0)
              s.createTask f (s.mkTask f q p kr.1 kr.2 pips none)) s4
            s5.expandGo f q p m

/-! ### The end of stages, pipelines and queries (04 R104, R116; 05 R129, R138, R144, R145) -/

/-- Changes a pipeline of a query. -/
def State.updPipe (s : State) (f q p : Nat) (g : PipeSt → PipeSt) : State :=
  s.updQuery f q (fun x => { x with pipes := x.pipes.upd p {} g })

/-- A partition whose rows were spilled. -/
def JPart.spilled (x : JPart) : Bool := x.st == .spilled || x.st == .spilledDone

/-- The spilled sub-partitions that probes of a stage wait for, each as ((place of the operator in the stage × 4,096 +
partition) × 16 + level-1 sub-partition), in the order they are handled (05 R144). -/
def State.spillWork (s : State) (f q : Nat) (ops : List Nat) : List Nat :=
  let b := s.rawOf f q
  (ops.mapIdx (fun j i =>
    let o := imgOp b i
    if o.opcode ≠ 6 then []
    else
      let lg := Nat.log2 (max 1 (imgOp b o.in1).count)
      let parts := (s.brkOf f q i).join
      (List.range (imgOp b o.in1).count).flatMap (fun p => (List.range 16).filterMap (fun k =>
        if (parts.getD p {}).probes.any (fun y => hSub1 lg y.1.hash == k) then some ((j * 4096 + p) * 16 + k) else none)))).flatten

/-- The partitions that need an index or a finalisation task (05 R129, R138). -/
def State.finalWork (s : State) (f q i : Nat) : List Nat :=
  let o := imgOp (s.rawOf f q) i
  let x := s.brkOf f q i
  if o.opcode = 5 then (List.range o.count).filter (fun p => let y := x.join.getD p {}; y.st == .resident && y.rows != [])
  else if o.opcode = 7 then (List.range o.count).filter (fun p => let y := x.agg.getD p {}; y.groups != [] || y.spillPart != [])
  else []

/-- The number of a partition's STATE (05 R125). -/
def PState.code : PState → Nat
  | .empty => 0 | .resident => 1 | .spilled => 2 | .spilledDone => 3

/-- The 32 B of a partition's directory entry (05 R125). -/
def JPart.dirBytes (x : JPart) : List Byte :=
  leBytes 8 (if x.st = .resident then x.buckets else 0) ++ leBytes 1 x.bbits ++ leBytes 1 x.st.code ++ leBytes 1 x.depth ++ zeros 1
    ++ leBytes 4 x.rows.length ++ leBytes 8 (x.chunks.headD 0) ++ leBytes 8 0

/-- Writes the directory entries of partitions of a build. -/
def State.joinDir (s : State) (f q i : Nat) (parts : List Nat) : State :=
  let x := s.brkOf f q i
  parts.foldl (fun (s : State) p => s.writeBytes f (x.line + 32 * p) (x.join.getD p {}).dirBytes) s

/-- The partitions of the builds that a stage's probes read become SPILLED_DONE (05 R144). -/
def State.probesDone (s : State) (f q : Nat) (ops : List Nat) : State :=
  let b := s.rawOf f q
  (ops.filter (fun i => (imgOp b i).opcode == 6)).foldl (fun (s : State) i =>
    let j := (imgOp b i).in1
    let due := ((s.brkOf f q j).join.filter (fun y => y.2.st == .spilled)).map (·.1)
    (s.updBrk f q j (fun x => { x with
      join := x.join.map (fun y => if y.2.st = .spilled then (y.1, { y.2 with st := .spilledDone }) else y) })).joinDir f q j due) s

/-- A build with a spilled partition whose probe's pipeline holds a LIMIT (05 R145). -/
def State.limitClash (s : State) (f q i : Nat) : Bool :=
  let b := s.rawOf f q
  (s.brkOf f q i).join.any (fun y => y.2.spilled) && (imgPipes b).any (fun pr =>
    let ops := (List.range pr.nops).map (fun k => imgOp b (pr.first + k))
    ops.any (fun o => o.opcode == 6 && o.in1 == i) && ops.any (fun o => o.opcode == 0x0C))

/-- A sum as a 64-bit value of its field's type fits (05 R138). -/
def sumFits (xform v : Nat) : Bool :=
  if xform = 0 then decide (v < 2 ^ 64) else decide (-(2 ^ 63 : Nat) ≤ sintOf 128 v) && decide (sintOf 128 v < (2 ^ 63 : Nat))

/-- The exact sum of an AGG_PLANE does not fit its result (05 R138, R139; log 30). -/
def State.planeOverflow (s : State) (f q i : Nat) : Bool :=
  let o := imgOp (s.rawOf f q) i
  let x := s.brkOf f q i
  o.optAt 0 3 == 1 && x.rows != 0 && (match s.readObj f o.obj with
    | .ok d => !sumFits d.xform x.plane
    | _ => false)

/-- The DIGEST operators of a stage that has finished write their results, the padding and length field appended to what
they were fed (04 R112; 19 R558, R561; 21 R618). -/
def State.digestEnd (s : State) (f q : Nat) (ops : List Nat) : State :=
  let b := s.rawOf f q
  ops.foldl (fun (s : State) i =>
    let o := imgOp b i
    match (s.query f q).digests.find? i with
    | none => s
    | some c =>
      let hmac := o.optAt 0 1
      let m := c.count + c.pend.length + 64 * hmac
      let w := (c.feed (shaPad m)).1
      let res := if hmac = 1 then hmacOuter w.outer (wordsBe w.h) else wordsBe w.h
      let s1 := s.updQuery f q (fun x => { x with digests := x.digests.erase i })
      if o.optAt 1 1 = 1 then { s1 with keys := s1.keys.set (o.optAt 8 6) { s1.keySlot (o.optAt 8 6) with kind := 4, len := 32, data := res } }
      else s1.writeBytes f (getLE (s.paramOf f q i) 0 8) res) s

/-- Adds tasks made after a stage's own ones, while their resources are free, with places past
every morsel: kind and partition of each. -/
def State.addSpecial (s : State) (f q p k kind : Nat) (l : List Nat) : State :=
  l.foldl (fun (s : State) (x : Nat) =>
    let ps := (s.query f q).pipes.getD p {}
    if x < ps.sub || !s.taskRoom f q 1 0 then s
    else
      (s.createTask f (s.mkTask f q p k (2 ^ 32 + x) 0 (some (kind, x)))).updPipe f q p (fun ps => { ps with
        sub := x + 1, left := ps.left.upd k 0 (· + 1) })) s

/-- A stage whose tasks have all finished goes on: spilled sub-partitions one after another, then index or finalisation
tasks, then its end, at which the ONCE task after it gets its Pip (04 R104; 05 R129, R138, R144, R145; 08 R221). -/
def State.stageStep (s : State) (f q p : Nat) (value : Word) (k : Nat) : State :=
  let b := s.rawOf f q
  let st := (imgPipe b p).stages b
  let x := s.query f q
  let ps := x.pipes.getD p {}
  let ops := stageOps st k
  let last := (stageAt st k).2
  let idle : Bool := ps.begun && x.failed.isNone && (k == 0 || ps.phase.getD (k - 1) 0 == 3) && ps.phase.getD k 0 != 3
    && (decide (ps.morsels ≤ ps.next) || ps.cut.isSome || decide (onceFrom b st ≤ k)) && ps.left.getD k 0 == 0
  if !idle then s
  else
    let s1 :=
      if 2 ≤ ps.phase.getD k 0 then s
      else
        let todo := (s.spillWork f q ops).filter (fun w => decide (ps.sub ≤ w))
        match todo with
        | w :: _ => (s.updPipe f q p (fun ps => { ps with phase := ps.phase.set k 1 })).addSpecial f q p k 2 [w]
        | [] => (s.probesDone f q ops).updPipe f q p (fun ps => { ps with phase := ps.phase.set k 2, sub := 0 })
    let ps1 := (s1.query f q).pipes.getD p {}
    if ps1.phase.getD k 0 ≠ 2 then s1
    else
      let todo := (s1.finalWork f q last).filter (fun w => decide (ps1.sub ≤ w))
      let s2 := if todo.isEmpty then s1 else s1.addSpecial f q p k (if (imgOp b last).opcode = 5 then 0 else 1) todo
      if !todo.isEmpty then s2
      else
        let s3 := (s2.updPipe f q p (fun ps => { ps with phase := ps.phase.set k 3, sub := 0 })).digestEnd f q ops
        if (imgOp b last).opcode = 5 && s3.limitClash f q last then s3.failQuery f q 0x0307
        else if (imgOp b last).opcode = 8 && s3.planeOverflow f q last then s3.failQuery f q 0x010B
        else if k + 1 < st.length ∧ onceFrom b st ≤ k + 1 then s3.sendPip f (s3.stageTask f q p (k + 1) 0) 0 value
        else s3

/-- A pipeline moves on: it begins when its dependencies have completed, its stages end in order, and it completes with
the last of them (04 R116). -/
def State.pipePass (s : State) (f q : Nat) (value : Word) (p : Nat) : State :=
  let x := s.query f q
  let b := s.rawOf f q
  let pr := imgPipe b p
  if (s.tenant f).queries.find? q = none ∨ x.failed.isSome then s
  else
    let ready := (maskFields pr.depends).all (fun j => (x.pipes.getD j {}).done)
    let s1 := if !(x.pipes.getD p {}).begun && ready then s.beginPipe f q p else s
    let st := pr.stages b
    let s2 := (List.range st.length).foldl (fun (s : State) k => s.stageStep f q p value k) s1
    let ps := (s2.query f q).pipes.getD p {}
    if ps.begun && (List.range st.length).all (fun k => ps.phase.getD k 0 == 3) then s2.updPipe f q p (fun ps => { ps with done := true }) else s2

/-- Every pipeline of a query moves on, in index order; the query completes with the last (04 R116, R117; 15 R457). -/
def State.queryPass (s : State) (f q : Nat) (value : Word) : State :=
  let n := (imgPipes (s.rawOf f q)).length
  let s1 := (List.range n).foldl (fun (s : State) p => s.pipePass f q value p) s
  match (s1.tenant f).queries.find? q with
  | none => s1
  | some x =>
    if x.failed.isNone && (List.range n).all (fun p => (x.pipes.getD p {}).done) then
      (((s1.closeXchgs (fun y => y.f == f && y.qslot == q) none).disarmAll (fun a => a.f == f && a.qslot == q)).retireQuery f q x 0)
    else s1.finishFailed f q

/-- PIPELINE_EXPAND: a pipeline whose dependencies have completed expands (04 R116). -/
def execPipelineExpand (f qid p : Nat) (s : State) : Host.Outcome State Fault Refusal :=
  .next (let x := s.query f qid
    if (s.tenant f).queries.find? qid = none ∨ (x.pipes.getD p {}).begun ∨ (imgPipes (s.rawOf f qid)).length ≤ p then s else s.queryPass f qid 0)

/-- EXPANSION_RESUME: a paused expansion goes on in morsel order (08 R220). -/
def execExpansionResume (f qid p : Nat) (s : State) : Host.Outcome State Fault Refusal :=
  .next (let x := s.query f qid
    if (s.tenant f).queries.find? qid = none ∨ x.failed.isSome then s
    else (s.expandGo f qid p ((x.pipes.getD p {}).morsels)).queryPass f qid 0)

/-! ### The end of a task (08 R221, R222, R232; 04 R111, R117) -/

/-- A task lies past the cut that a LIMIT made. -/
def State.pastCut (s : State) (f : Nat) (k : Task) : Bool :=
  !k.once && (match ((s.query f k.qslot).pipes.getD k.pipe {}).cut with | some m => decide (m < k.seq) | none => false)

/-- What a task's end frees: its tile, its descriptor, the memory of its kernel, the extents it held back; a tile to be
reclaimed begins its rebinding (08 R234). -/
def State.endTask (s : State) (t : Nat) (r : TaskRun) : State :=
  let s1 := match r.kernel with
    | some k => k.mem.foldl (fun (s : State) a => s.unplaceFor r.f (((s.taskOf r.f r.desc).map (fun (y : Task) => y.qslot)).getD 0) a) s
    | none => s
  ((s1.freeTask r.f r.desc).releaseHold r.f r.desc).updTile t (fun x => { x with
    task := none,
    core := if x.bind.reclaim then { x.core with qipend := x.core.qipend ||| 2 } else x.core,
    bind := if x.bind.reclaim then { x.bind with reclaim := false, next := some x.bind.lentBy, lentBy := none } else x.bind })

/-- Hands the batches of a finished task to the next stage of its pipeline (04 R104). -/
def State.handOver (s : State) (f : Nat) (k : Task) (bs : List Batch) : State :=
  s.updQuery f k.qslot (fun x => { x with handed := x.handed.set (handKey k.pipe k.stage k.seq) bs })

/-- The Pips that a finished task sends (08 R221; 15 R449). -/
def State.donePips (s : State) (f : Nat) (k : Task) (value : Word) : State :=
  let b := s.rawOf f k.qslot
  let st := (imgPipe b k.pipe).stages b
  let once := onceFrom b st
  let goal (j seq : Nat) : Option Nat := s.stageTask f k.qslot k.pipe j seq
  let s1 := if k.stage + 1 < once && !endsXchg b st k.stage && k.special.isNone then s.sendPip f (goal (k.stage + 1) k.seq) 0 value else s
  let s2 := if k.stage < once && hasDigest b st k.stage && k.special.isNone then s1.sendPip f (goal k.stage (k.seq + 1)) 1 value else s1
  if 0 < k.stage && decide (k.stage < once) && endsXchg b st (k.stage - 1) && k.special.isNone then s2.sendPip f (goal k.stage (k.seq + 1)) 3 value else s2

/-- A finished receive task gives up its round's half; a finished send task may let its round go out (15 R451, R452). -/
def State.doneRounds (s : State) (f : Nat) (k : Task) : State :=
  let b := s.rawOf f k.qslot
  let st := (imgPipe b k.pipe).stages b
  let s1 := if 0 < k.stage && endsXchg b st (k.stage - 1) && k.special.isNone then
      match s.xchgOf f k.qslot (stageAt st (k.stage - 1)).2 with
      | some (id, _) => s.updRound id k.seq (fun y => { y with consumed := true })
      | none => s
    else s
  (s1.krl.xchgs.filter (fun (p : Nat × Xchg) => p.2.f == f && p.2.qslot == k.qslot && p.2.pipe == k.pipe)).foldl (fun (s : State) p => s.roundsTry p.1) s1

/-- Output of a spilled sub-partition that a later stage still has to take: a task of that stage of its own (05 R144; log 27). -/
def State.passSpilled (s : State) (f : Nat) (k : Task) (bs : List Batch) : State :=
  let b := s.rawOf f k.qslot
  let st := (imgPipe b k.pipe).stages b
  if k.special.isNone || bs.isEmpty || decide (onceFrom b st ≤ k.stage + 1) || decide (st.length ≤ k.stage + 1) then s
  else
    ((s.createTask f { s.mkTask f k.qslot k.pipe (k.stage + 1) k.seq 0 (some (3, 0)) with morsel := k.morsel })).updPipe f k.qslot k.pipe
      (fun ps => { ps with left := ps.left.upd (k.stage + 1) 0 (· + 1) })

/-- The task of a tile has a descriptor address written to DSP_DONE: the run and the descriptor (08 R232). -/
def State.runOf (s : State) (t : Nat) (d : Word) : Option (TaskRun × Task) :=
  (s.tile t).task.bind (fun r => (s.taskOf r.f r.desc).bind (fun k =>
    if (s.disp r.f).descAddr r.desc = field d 6 58 * 64 then some (r, k) else none))

/-- A task ends with DONE: Pips go out, stage counts fall, the descriptor is freed (08 R232). -/
def State.taskDone (s : State) (t : Nat) (d : Word) : State :=
  match s.runOf t d with
  | none => s
  | some (r, k) =>
    let q := k.qslot
    let value := (s.tile t).dsp.out
    if (s.query r.f q).failed.isSome then (s.endTask t r).finishFailed r.f q
    else if r.op ≤ k.opLast then s
    else
      let past := s.pastCut r.f k
      let s1 := s.endTask t r
      let s2 := if past then s1 else (((s1.handOver r.f k r.batches).donePips r.f k value).passSpilled r.f k r.batches)
      let s3 := (s2.updPipe r.f q k.pipe (fun ps => { ps with left := ps.left.upd k.stage 0 (· - 1) })).doneRounds r.f k
      s3.queryPass r.f q value

/-- DISP_DONE: a DSP_DONE write with disposition DONE (08 R232). -/
def execDispDone (t : Nat) (d : BitVec 64) (s : State) : Host.Outcome State Fault Refusal := .next (s.taskDone t d)

/-- A task ends with FAILED: its query fails with DSP_DONE_STATUS (08 R232, 04 R117). -/
def State.taskFailed (s : State) (t : Nat) (d : Word) : State :=
  match s.runOf t d with
  | none => s
  | some (r, k) => ((s.failQuery r.f k.qslot (field (s.tile t).dsp.status 0 16)).endTask t r).finishFailed r.f k.qslot

/-- DISP_FAILED: a DSP_DONE write with disposition FAILED (08 R232). -/
def execDispFailed (t : Nat) (d : BitVec 64) (s : State) : Host.Outcome State Fault Refusal := .next (s.taskFailed t d)

/-- A task ends with CANCELLED: the descriptor is freed and nothing is sent; past a LIMIT's cut its stage counts it off
(08 R232; 04 R111). -/
def State.taskCancelled (s : State) (t : Nat) (d : Word) : State :=
  match s.runOf t d with
  | none => s
  | some (r, k) =>
    let past := s.pastCut r.f k
    let s1 := s.endTask t r
    if past then ((s1.updPipe r.f k.qslot k.pipe (fun ps => { ps with left := ps.left.upd k.stage 0 (· - 1) })).doneRounds r.f k).queryPass r.f k.qslot 0
    else s1.finishFailed r.f k.qslot

/-- DISP_CANCELLED: a DSP_DONE write with disposition CANCELLED (08 R232). -/
def execDispCancelled (t : Nat) (d : BitVec 64) (s : State) : Host.Outcome State Fault Refusal := .next (s.taskCancelled t d)

/-- A task ends with YIELD: it is appended at the tail of its priority (08 R229, R232); a query that has failed
dispatches it no more (04 R117). -/
def State.taskYield (s : State) (t : Nat) (d : Word) : State :=
  match s.runOf t d with
  | none => s
  | some (r, k) =>
    if (s.query r.f k.qslot).failed.isSome || s.pastCut r.f k then s.taskCancelled t d
    else ((s.endTask t r).putTask r.f r.desc { k with at_ := .ready }).readyPut r.f r.desc

/-- DISP_YIELD: a DSP_DONE write with disposition YIELD (08 R232). -/
def execDispYield (t : Nat) (d : BitVec 64) (s : State) : Host.Outcome State Fault Refusal := .next (s.taskYield t d)

/-! ### WAITTASK and assignment (08 R232, R233; 06 R174) -/

/-- WAITTASK: the core blocks until a task, an interrupt, a timeout or a fence ends the wait; PRIV in task mode (06 R155,
R174; 08 R233). -/
def execWaittask (t : Nat) (rd ra : BitVec 5) (s : State) : Host.Outcome State Fault Refusal :=
  .next (s.runInstr t true true false (fun c s1 =>
    if !c.runtime then .exc s1 .priv 0 .fetch none
    else .block (s1.updTile t (fun x => { x with
      core := { x.core with wait := some { rd, start := s1.ticks, timeout := c.readG ra } },
      bind := { x.bind with idleSince := some s1.ticks } }))))

/-- A wait ends: rd and DSP_WSTAT are written, and the core goes on after the WAITTASK (08 R233). -/
def State.endWait (s : State) (t : Nat) (value : Word) (why : Nat) : State :=
  match (s.core t).wait with
  | none => s
  | some w => s.updTile t (fun x => { x with
      core := { (x.core.writeG w.rd value) with wait := none, pc := x.core.pc + 4 },
      dsp := { x.dsp with wstat := BitVec.ofNat 32 why }, bind := { x.bind with idleSince := none } })

/-- WAITTASK_TIMEOUT: the ticks of a WAITTASK with a timeout have passed (08 R233). -/
def execWaittaskTimeout (t : Nat) (s : State) : Host.Outcome State Fault Refusal :=
  .next (match (s.core t).wait with
    | some w => if w.timeout = 0 then s else s.endWait t 0 3
    | none => s)

/-- The priority that dispatches next: the highest with an entry, unless a lower one has been passed over 64 times
(08 R232). -/
def Disp.nextPrio (d : Disp) : Option Nat :=
  let some_ (p : Nat) : Bool := d.onchip.getD p [] != []
  match (List.range 8).find? (fun p => some_ p && decide (64 ≤ d.passed.getD p 0)) with
  | some p => some p
  | none => (List.range 8).find? some_

/-- The counts of passing over after a dispatch from a priority (08 R232). -/
def Disp.passOver (d : Disp) (p : Nat) : Disp :=
  { d with passed := (List.range 8).map (fun q =>
      (q, if q = p ∨ d.onchip.getD q [] = [] then 0 else if p < q then d.passed.getD q 0 + 1 else d.passed.getD q 0)) }

/-- ROWS of the driving object of a task's pipeline; none where its source is no SCAN from objects (04 R108, R109). -/
def State.driveRows (s : State) (f : Nat) (k : Task) : Option Nat :=
  let i := (imgPipe (s.rawOf f k.qslot) k.pipe).first
  let o := imgOp (s.rawOf f k.qslot) i
  if o.opcode = 1 ∧ o.optAt 1 2 = 0 then
    match s.readObj f (getLE (s.paramOf f k.qslot i) 0 4) with
    | .ok d => some d.rows
    | _ => none
  else none

/-- The lowest scratch block of an image that no running task of it has (04 R118 step 14). -/
def State.scratchBlock (s : State) (f image : Nat) : Nat :=
  let used := s.tiles.filterMap (fun p => p.2.task.bind (fun r =>
    if r.f = f ∧ (s.taskOf f r.desc).map (fun (y : Task) => y.image) = some image then some r.block else none))
  ((List.range 97).find? (fun i => !used.contains i)).getD 0

/-- The batches and first operator that a task starts with (04 R104, R103; 15 R453). -/
def State.startRun (s : State) (f d : Nat) (k : Task) : TaskRun :=
  let b := s.rawOf f k.qslot
  let st := (imgPipe b k.pipe).stages b
  let x := s.query f k.qslot
  let prev := k.stage - 1
  match k.special with
  | some (2, w) => { f, desc := d, op := k.opFirst + w / 65536 }
  | some (3, _) => { f, desc := d, op := k.opFirst, batches := x.handed.getD (handKey k.pipe prev k.seq) [] }
  | some _ => { f, desc := d, op := k.opLast }
  | none =>
    if k.stage = 0 then { f, desc := d, op := k.opFirst }
    else if k.once then
      let lastOp := (stageAt st prev).2
      let rows : List Row :=
        if (imgOp b lastOp).breaker then
          (s.brkRows f k.qslot lastOp).flatten.mapIdx (fun i v => { morsel := 0, row := i, vals := v })
        else
          let hs := x.handed.filter (fun p => p.1 / 2 ^ 34 == k.pipe * 64 + prev)
          (sortBy (fun (a b : Nat × List Batch) => decide (a.1 ≤ b.1)) hs).flatMap (fun p => p.2.flatMap (·.rows))
      let frames : List Frame := (sortBy (fun (a b : Nat × List Batch) => decide (a.1 ≤ b.1))
        (x.handed.filter (fun p => p.1 / 2 ^ 34 == k.pipe * 64 + prev))).flatMap (fun p => p.2.flatMap (·.frames))
      { f, desc := d, op := k.opFirst, batches := [{ morsel := 0, rows, frames }] }
    else if endsXchg b st prev then
      match s.xchgOf f k.qslot (stageAt st prev).2 with
      | some (_, y) => { f, desc := d, op := k.opFirst, batches := s.recvBatches y k.seq }
      | none => { f, desc := d, op := k.opFirst }
    else { f, desc := d, op := k.opFirst, batches := x.handed.getD (handKey k.pipe prev k.seq) [] }

/-- Records why a tile's task fails, in the run and in DSP_DONE_STATUS, and fails its query (04 R117; 08 R241). -/
def State.opFail (s : State) (t status : Nat) : State :=
  (s.updTile t (fun x => { x with
    dsp := { x.dsp with status := BitVec.ofNat 32 status },
    task := x.task.map (fun r => { r with fail := if r.fail.isSome then r.fail else some status }) })).failTask t status

/-- The dispatcher hands a ready task to a waiting core: the descriptor's address goes to rd; the Stroke unit's selection
buffers are cleared, and the estimator loaded when the operator is another one (08 R232, R233; 03 R65, R71). A breaker's
result of more than 65,536 rows cannot be one batch (04 R103). -/
def State.assign (s : State) (t : Nat) : State :=
  let x := s.tile t
  match x.bound, x.core.wait with
  | some f, some _ =>
    if x.bind.next.isSome || x.task.isSome || !s.tileOn t || s.rel.fenced.contains t then s
    else
      let dd := s.disp f
      match dd.nextPrio with
      | none => s
      | some p => match dd.onchip.getD p [] with
        | [] => s
        | d :: rest => match s.taskOf f d with
          | none => s
          | some k =>
            let run := { s.startRun f d k with drive := s.driveRows f k, block := s.scratchBlock f k.image }
            let s1 := (s.updDisp f (fun dd => { (dd.passOver p) with onchip := dd.onchip.set p rest })).setAt f d .running
            let s2 := (s1.endWait t (BitVec.ofNat 64 (dd.descAddr d)) 1).updTile t (fun x => { x with
              task := some run, lastOp := some (f, k.image, k.opFirst),
              stroke := { x.stroke with sel := [], est := if x.lastOp = some (f, k.image, k.opFirst) then x.stroke.est else BitVec.ofNat 8 (field x.stroke.spec 12 8) } })
            let b := s.rawOf f k.qslot
            let st := (imgPipe b k.pipe).stages b
            if k.once && k.special.isNone && (imgOp b (stageAt st (k.stage - 1)).2).breaker && run.batches.any (fun y => decide (65536 < y.rows.length))
              then s2.opFail t 0x0108 else s2
  | _, _ => s

/-- TASK_ASSIGN: the head of the chosen ready list goes to a core in WAITTASK (08 R232). -/
def execTaskAssign (t : Nat) (s : State) : Host.Outcome State Fault Refusal := .next (s.assign t)

/-! ### Pips and flags (08 R223, R225, R227, R228) -/

/-- A Pip arrives: discarded and counted, or its PRESENT bit is set and the task fires when it has all (08 R223, R225). -/
def State.pipIn (s : State) (x : Pip) : State :=
  let stray (s : State) : State := s.updDisp x.f (fun d => { d with strayPip := d.strayPip + 1 })
  match s.taskOf x.f x.desc with
  | none => stray s
  | some k =>
    if k.at_ != .waiting || x.epoch != s.epochOf x.f || (s.query x.f k.qslot).cancelled then stray s
    else if k.present.getLsbD x.port then (stray s).failQuery x.f k.qslot 0x0304
    else (s.putTask x.f x.desc { k with present := k.present ||| ((1 : BitVec 4) <<< x.port), opnd := k.opnd.set x.port x.value }).tryFire x.f x.desc

/-- PIP_ARRIVE: the i-th Pip on its way of a tenant arrives (08 R222, R223). -/
def execPipArrive (f i : Nat) (s : State) : Host.Outcome State Fault Refusal :=
  .next (match (s.pips.filter (fun x => x.f == f))[i]? with
    | none => s
    | some x => ({ s with pips := s.pips.erase x }).pipIn x)

/-- EVENT_PULSE: a completion pulse of an engine job reaches its flag (08 R227). -/
def execEventPulse (f flag : Nat) (s : State) : Host.Outcome State Fault Refusal :=
  .next (match pickFirst (fun (p : Pulse) => p.f == f && !p.trig && p.idx == flag) s.pulses with
    | none => s
    | some (p, r) => ({ s with pulses := r }).pulseFlag f flag p.epoch)

/-- A read of DSP_FLAGALLOC: the lowest free flag, 0xFF when none is free (08 R228, R243). -/
def State.flagAllocRead (s : State) (t : Nat) : Nat × State :=
  match (s.tile t).bound with
  | some f => s.allocFlag f
  | none => (0xFF, s)

/-- DSP_FLAGALLOC: the flag goes to a register (08 R228). -/
def execDspFlagalloc (t : Nat) (rd : BitVec 5) (s : State) : Host.Outcome State Fault Refusal :=
  .next (let r := s.flagAllocRead t; r.2.updCore t (fun c => c.writeG rd (BitVec.ofNat 64 r.1)))

/-- A write of DSP_FLAGSET: allocated flags are set, and waiting tasks fire (08 R227, R243). -/
def State.flagSetWrite (s : State) (t : Nat) (mask : Word) : State :=
  match (s.tile t).bound with
  | some f => s.setFlags f mask
  | none => s

/-- DSP_FLAGSET: a write of the register (08 R227). -/
def execDspFlagset (t : Nat) (mask : BitVec 64) (s : State) : Host.Outcome State Fault Refusal := .next (s.flagSetWrite t mask)

/-! ### Binding of tiles (08 R234, R235) -/

/-- The tenant that holds a tile, the one it is being rebound to while a rebinding runs. -/
def Tile.holder (x : Tile) : Option Nat := match x.bind.next with | some n => n | none => x.bound

/-- Tiles that a tenant holds. -/
def State.held (s : State) (f : Nat) : Nat := (s.tiles.filter (fun p => p.2.holder == some f)).length

/-- A tenant has ready tasks. -/
def State.hasReady (s : State) (f : Nat) : Bool :=
  let d := s.disp f
  d.onchip.any (fun p => p.2 != []) || d.spill.any (fun p => p.2 != [])

/-- A tenant could take a free or lendable tile: it has ready tasks and holds fewer tiles than its burst share. -/
def State.couldTake (s : State) (f : Nat) : Bool := s.hasReady f && decide (s.held f < (s.tenant f).ent.tileBurst)

/-- The tenant that takes a free or lendable tile: the fewest tiles beyond its guarantee, ties in rotation (08 R234). -/
def State.taker (s : State) (notF : Option Nat) : Option Nat :=
  let extra (f : Nat) : Nat := s.held f - (s.tenant f).ent.tileGuar
  let c := ((List.range 64).map (fun i => (s.bindLast + 1 + i) % 64)).filter (fun f => s.couldTake f && notF != some f)
  c.foldl (fun (a : Option Nat) f => match a with
    | none => some f
    | some g => if extra f < extra g then some f else some g) none

/-- A rebinding begins: REBIND is raised (08 R235). -/
def State.startRebind (s : State) (t : Nat) (goal : Option Nat) (lent : Option Nat) : State :=
  s.updTile t (fun x => { x with
    bind := { x.bind with next := some goal, lentBy := lent, reclaim := false }, core := { x.core with qipend := x.core.qipend ||| 2 } })

/-- The tile is free: bound to no tenant, or idle in WAITTASK beyond its holder's guarantee (08 R234). -/
def State.tileFree (s : State) (t : Nat) : Bool :=
  let x := s.tile t
  x.task.isNone && x.bind.next.isNone && (match x.bound with
    | none => true
    | some h => x.core.wait.isSome && decide ((s.tenant h).ent.tileGuar < s.held h))

/-- TILE_REBIND: a free tile is rebound to the tenant that takes it (08 R234, R235). -/
def execTileRebind (t f : Nat) (s : State) : Host.Outcome State Fault Refusal :=
  .next (if s.tileOn t && s.tileFree t && s.taker (s.tile t).bound == some f then
      { (s.startRebind t (some f) none) with bindLast := f } else s)

/-- TILE_LEND: a tile idle within its holder's guarantee for 1,000 ticks is lent (08 R234). -/
def execTileLend (t f : Nat) (s : State) : Host.Outcome State Fault Refusal :=
  .next (let x := s.tile t
    match x.bound with
    | none => s
    | some h =>
      if s.tileOn t && x.task.isNone && x.bind.next.isNone && x.core.wait.isSome && decide (s.held h ≤ (s.tenant h).ent.tileGuar)
        && s.taker (some h) == some f then { (s.startRebind t (some f) (some h)) with bindLast := f } else s)

/-- TILE_RECLAIM: a tenant below its guarantee takes back its lowest lent tile, at once when it runs no task and else at
the end of its task (08 R234). -/
def execTileReclaim (t : Nat) (s : State) : Host.Outcome State Fault Refusal :=
  .next (let x := s.tile t
    match x.bind.lentBy with
    | none => s
    | some h =>
      let low := (s.tiles.filter (fun p => p.2.bind.lentBy == some h && !p.2.bind.reclaim)).all (fun p => decide (t ≤ p.1))
      if !(s.hasReady h && decide (s.held h < (s.tenant h).ent.tileGuar) && low) then s
      else if x.task.isSome then s.updTile t (fun x => { x with bind := { x.bind with reclaim := true } })
      else s.startRebind t (some h) none)

/-- A write of DSP_BIND.ACK: the rebinding is complete, once the Blotter is empty (08 R235, R245). -/
def State.bindAck (s : State) (t : Nat) : State :=
  let x := s.tile t
  match x.bind.next with
  | none => s
  | some goal => if x.task.isSome || !x.stroke.blot.isEmpty then s
    else s.updTile t (fun x => { x with bound := goal, bind := { x.bind with next := none } })

/-- BIND_ACK: a write of DSP_BIND.ACK (08 R235). -/
def execBindAck (t : Nat) (s : State) : Host.Outcome State Fault Refusal := .next (s.bindAck t)

end Sys2Proof.Machine
end

