-- ==== Sys2Proof/Machine/Stroke.lean ====
section
/-! DEFINITION. The Stroke unit and the Blotter: runs, passes, speculation (03). -/

namespace Sys2Proof.Machine

/-- Changes the Stroke unit of a tile. -/
def State.updStroke (s : State) (t : Nat) (f : Stroke → Stroke) : State := s.updTile t (fun x => { x with stroke := f x.stroke })

/-- The Stroke unit of a tile. -/
def State.stroke (s : State) (t : Nat) : Stroke := (s.tile t).stroke

/-- STK_PRED.NSLOTS + 1: slots in use (03 R84). -/
def Stroke.slots (k : Stroke) : Nat := field k.pred 28 2 + 1
/-- The comparison kind of a slot (03 R59, R84). -/
def Stroke.kind (k : Stroke) (i : Nat) : Nat := field k.pred (16 + 3 * i) 3
/-- STK_PRED.TT (03 R60). -/
def Stroke.tt (k : Stroke) : Nat := field k.pred 0 16
/-- STK_CTL.MODE. -/
def Stroke.mode (k : Stroke) : Nat := field k.ctl 5 3
/-- A selection buffer. -/
def Stroke.selBuf (k : Stroke) (i : Nat) : BitVec 65536 := k.sel.getD i 0
/-- STK_STAT.BUSY. -/
def Stroke.busy (k : Stroke) : Bool := k.run.isSome

/-- The state of a slot of a row (03 R56). -/
def RowSt.slot (r : RowSt) (i : Nat) : Nat := field r.st (2 * i) 2

/-- A row with the state of a slot replaced. -/
def RowSt.setSlot (r : RowSt) (i v : Nat) : RowSt := { r with st := setField r.st (2 * i) 2 v }

/-- The outcome of a kind on a state; none while U leaves it open (03 R59). -/
def outcome (kind st : Nat) : Option Bool :=
  if st = 0 then none
  else some (match kind with
    | 0 => st == 3
    | 1 => st != 3
    | 2 => st == 1
    | 3 => st == 1 || st == 3
    | 4 => st == 2
    | _ => st == 2 || st == 3)

/-- The truth-table indices that known outcomes allow (03 R60). -/
def ttIndices : List (Option Bool) → Nat → List Nat
  | [], _ => [0]
  | o :: r, w =>
    let rest := ttIndices r (2 * w)
    match o with
    | some false => rest
    | some true => rest.map (· + w)
    | none => rest ++ rest.map (· + w)

/-- The result of a truth table on outcomes; none while it is not decided (03 R60). -/
def ttDecide (tt : Nat) (os : List (Option Bool)) : Option Bool :=
  let bits := (ttIndices os 1).map (fun i => tt.testBit i)
  if bits.all (· == true) then some true else if bits.all (· == false) then some false else none

/-- The result of a row, none while it is undecided (03 R60, R65). -/
def Stroke.decided (k : Stroke) (r : RowSt) : Option Bool :=
  match r.forced with
  | some b => some b
  | none => ttDecide k.tt ((List.range k.slots).map (fun i => outcome (k.kind i) (r.slot i)))

/-- The state a constant settles against a range of transformed values: GT below it, LT above it, EQ on a single
value, else U (03 R61). -/
def settle (c lo hi : Nat) : Nat := if c < lo then 2 else if hi < c then 1 else if lo = c ∧ hi = c then 3 else 0

/-- The state of a slot before any plane is read: settled by its width or BASE, then by the segment's range (03 R57, R61). -/
def Stroke.startState (k : Stroke) (h : SegHdr) (i : Nat) : Nat :=
  let c := (k.consts.getD i 0).toNat
  if 2 ^ h.width ≤ c then 1 else if c < h.base then 2 else settle c h.segMin h.segMax

/-- The Nib of slot i's prepared constant at plane p (03 R57). -/
def Stroke.constNib (k : Stroke) (h : SegHdr) (i p : Nat) : Nat :=
  ((k.consts.getD i 0).toNat - h.base) / 16 ^ (h.nplanes - 1 - p) % 16

/-- One row in the pass over plane p with its Nib (03 R58). -/
def Stroke.stepRow (k : Stroke) (h : SegHdr) (p n : Nat) (r : RowSt) : RowSt :=
  (List.range k.slots).foldl (fun r i =>
    if r.slot i ≠ 0 then r
    else
      let c := k.constNib h i p
      if n < c then r.setSlot i 1 else if c < n then r.setSlot i 2
      else if p + 1 = h.nplanes then r.setSlot i 3 else r) r

/-- The combined input selection of a row, before any plane is read (03 R65). -/
def Stroke.combine (k : Stroke) (r : Nat) : Option Bool :=
  let b := (k.selBuf (field k.ctl 12 2)).getLsbD r
  match field k.ctl 10 2 with
  | 1 => if b then none else some false
  | 2 => if b then some true else none
  | 3 => if b then some false else none
  | _ => none

/-- Ends a run: BUSY falls, DONE rises, ERR set; an aborted or failed run squashes its held entries (03 R66, R81, R82). -/
def State.endRun (s : State) (t err : Nat) : State :=
  s.updStroke t (fun k => { k with
    run := none, stat := (setField k.stat 8 8 err &&& 0xFFFFFFFE) ||| 2,
    blot := if err = 0 then k.blot else k.blot.filter (fun p => p.2.st != .held) })

/-- Counts lines fetched by runs (03 R90). -/
def State.countLines (s : State) (t n : Nat) : State := s.updStroke t (fun k => { k with lines := k.lines + BitVec.ofNat 64 n })

/-- A run meets an error: it ends with ERR, and the query fails with the status (03 R55, R82). -/
def State.runError (s : State) (t err status : Nat) : State := (s.endRun t err).failTask t status

/-- The extent address in STK_SEG. -/
def Stroke.addr (k : Stroke) : Nat := field k.seg 8 56 * 256

/-- Begins a run: header check, the transform's suit, constants, segment pruning, input selection, zone pruning (03 R54, R55, R57,
R61, R62, R65, R67 to R69; 02 R37, R42). A write while a run is BUSY has no effect. -/
def State.strokeStart (s : State) (t : Nat) : State :=
  let k := s.stroke t
  if k.busy then s
  else
    let s0 := s.updStroke t (fun k => { k with stat := k.stat &&& 0xFFFF0000, count := 0 })
    let kinds := (List.range k.slots).map k.kind
    if 4 < k.mode ∨ (k.mode = 0 ∧ kinds.any (fun x => decide (5 < x))) then s0.endRun t 4
    else
      let a := k.addr
      let hb := s.readBytes a 64
      let db := s.readBytes (a + 0x40) 128
      let s1 := s0.countLines t 1
      if hb.2 || db.2 then s1.runError t 3 0x0401
      else match hdrCheck hb.1 db.1 with
        | some code => (s1.logSegment (((s.tile t).bound).getD 0x7F) 0 t 0 0 code).runError t 1 0x0402
        | none =>
          let h := parseHdr hb.1
          if (k.mode = 0 ∧ h.xform = 4 ∧ kinds.any (fun x => decide (2 ≤ x))) ∨ (k.mode = 1 ∧ (h.xform = 2 ∨ 4 ≤ h.xform))
              ∨ ((k.mode = 2 ∨ k.mode = 3) ∧ h.xform = 4) then
            s1.runError t 2 0x010B
          else if k.mode = 0 then
            let r0 : RowSt := (List.range k.slots).foldl (fun r i => r.setSlot i (k.startState h i)) {}
            let rows0 := (List.range h.rows).map (fun r => { r0 with forced := if h.nulls = h.rows then some false else k.combine r })
            let open1 := rows0.any (fun r => (k.decided r).isNone)
            if k.ctl.getLsbD 3 && open1 then
              let zb := s.readBytes (a + 0xC0) 256
              let s2 := s1.countLines t 4
              if zb.2 then s2.runError t 3 0x0401
              else
                let zone (z : Nat) : Option Bool :=
                  let lo := getLE zb.1 (16 * z) 8
                  let hi := getLE zb.1 (16 * z + 8) 8
                  if hi < lo then some false
                  else ttDecide k.tt ((List.range k.slots).map (fun i =>
                    outcome (k.kind i) (if r0.slot i ≠ 0 then r0.slot i else settle (k.consts.getD i 0).toNat lo hi)))
                let zs := (List.range 16).map zone
                let rows := (List.range h.rows).zipWith (fun i (r : RowSt) =>
                  if r.forced.isSome then r else { r with forced := zs.getD (i / 4096) none }) rows0
                s2.updStroke t (fun k => { k with run := some { hdr := h, rows }, stat := k.stat ||| 1 })
            else s1.updStroke t (fun k => { k with run := some { hdr := h, rows := rows0 }, stat := k.stat ||| 1 })
          else
            let sel := k.selBuf (field k.ctl 12 2)
            let picked := (List.range h.rows).filter (fun r => sel.getLsbD r && decide (h.nulls < h.rows))
            let blocks := (picked.map (· / 512)).eraseDups
            let vb := if h.nulls = 0 ∨ picked.isEmpty then ([], false) else s.readBytes (a + 0x200) 8192
            let s2 := if h.nulls = 0 then s1 else s1.countLines t blocks.length
            if vb.2 then s2.runError t 3 0x0401
            else
              let cand := if h.nulls = 0 then picked else picked.filter (bitAt vb.1)
              s2.updStroke t (fun k => { k with
                run := some { hdr := h, rows := [], cand }, stat := k.stat ||| 1, count := BitVec.ofNat 32 cand.length,
                accLo := 0, accHi := 0 })

/-- The plane blocks that a pass fetches: those with an undecided row, or with an aggregated row (03 R64, R67). -/
def Stroke.live (k : Stroke) (r : Run) : List Nat :=
  if k.mode = 0 then
    (List.range ((r.hdr.rows + 511) / 512)).filter (fun b => ((r.rows.drop (512 * b)).take 512).any (fun x => (k.decided x).isNone))
  else (r.cand.map (· / 512)).eraseDups

/-- Whether a pass is still to be made: planes are left and some block is live; MIN and MAX stop at one candidate,
COUNT makes none (03 R64, R69). -/
def Stroke.passDue (k : Stroke) (r : Run) : Bool :=
  decide (r.plane < r.hdr.nplanes) && !(k.live r).isEmpty &&
    (match k.mode with
     | 0 | 1 => true
     | 2 | 3 => decide (1 < r.cand.length) && ((List.range r.hdr.nplanes).any (fun p => decide (r.plane ≤ p) && r.hdr.pres p == 2))
     | _ => false)

/-- The Nibs of a plane for every row: the constant of an elided plane, or the stored bytes of the live blocks (the
Nibs of other blocks are not fetched and read 0). Gives whether a line was Blot, and the lines fetched (02 R21, 03 R63, R64). -/
def State.planeNibs (s : State) (a : Nat) (h : SegHdr) (p : Nat) (live : List Nat) : (Nat → Nat) × Bool × Nat :=
  if h.pres p ≠ 2 then (fun _ => h.constNib p, false, 0)
  else
    let db := s.readBytes (a + 0x40) 128
    let (o, _, _) := dirEnt db.1 p
    let blocks := live.map (fun b => (b, s.readBytes (a + o + 256 * b) 256))
    (fun r => match blocks.find? (fun x => x.1 == r / 512) with | some x => nibAt x.2.1 (r % 512) | none => 0,
     blocks.any (fun x => x.2.2), 4 * live.length)

/-- Resolves forwarded rows that a pass decided: CONFIRMED when the result with validity is 1, else SQUASHED and freed
at once; E and the counters move with each (03 R71, R72, R78). -/
def Stroke.resolve (k : Stroke) (valid : Nat → Bool) (rows : List RowSt) : Stroke :=
  (k.blot.filter (fun p => p.2.st == .held)).foldl (fun k p =>
    match rows[p.2.row]? with
    | none => k
    | some r =>
      match k.decided r with
      | none => k
      | some b =>
        let ok := b && valid p.2.row
        let e : BitVec 8 := k.est - BitVec.ofNat 8 (k.est.toNat / 16) + (if ok then 15 else 0)
        if ok then { k with blot := k.blot.set p.1 { p.2 with st := .confirmed }, est := e, fwdConf := k.fwdConf + 1 }
        else { k with blot := k.blot.erase p.1, est := e, fwdSquash := k.fwdSquash + 1 }) k

/-- The lowest free Blotter entries, up to n. -/
def Stroke.freeEntries (k : Stroke) (n : Nat) : List Nat := ((List.range 4096).filter (fun i => (k.blot.find? i).isNone)).take n

/-- Forwards undecided rows in row order into free entries; PAUSED when entries run out (03 R71, R79). -/
def Stroke.forward (k : Stroke) (tag : Nat) (rows : List RowSt) : Stroke × List RowSt :=
  let want := ((List.range rows.length).zip rows).filter (fun x => !x.2.fwd && (k.decided x.2).isNone) |>.map (·.1)
  let ents := k.freeEntries want.length
  let pairs := ents.zip want
  let took := pairs.map (·.2)
  ({ k with blot := pairs.foldl (fun b x => b.set x.1 { row := x.2, tag }) k.blot, paused := decide (ents.length < want.length) },
   (List.range rows.length).zipWith (fun i (r : RowSt) => if took.contains i then { r with fwd := true } else r) rows)

/-- One pass over the next plane (03 R58, R63, R64, R68, R69, R71, R72). -/
def State.strokePass (s : State) (t : Nat) : State :=
  let k := s.stroke t
  match k.run with
  | none => s
  | some r =>
    if !k.passDue r then s
    else
      let p := r.plane
      let (nib, blot, n) := s.planeNibs k.addr r.hdr p (k.live r)
      let s1 := (s.countLines t n).updStroke t (fun k => { k with stat := setField k.stat 4 4 p })
      if blot then s1.runError t 3 0x0401
      else if k.mode = 0 then
        let rows := (List.range r.rows.length).zipWith (fun i (x : RowSt) => if (k.decided x).isSome then x else k.stepRow r.hdr p (nib i) x) r.rows
        let held := k.blot.any (fun e => e.2.st == .held)
        let vb := if held && r.hdr.nulls ≠ 0 then s.readBytes (k.addr + 0x200) 8192 else ([], false)
        if vb.2 then s1.runError t 3 0x0401
        else
          let valid (i : Nat) : Bool := r.hdr.nulls == 0 || bitAt vb.1 i
          let k1 := (s1.stroke t).resolve valid rows
          let fwd := k.ctl.getLsbD 4 && decide (field k.spec 0 4 ≤ p) && decide (p + 1 < r.hdr.nplanes)
            && decide (field k.spec 4 8 ≤ k1.est.toNat)
          let tag := match (s.tile t).task with | some x => (s.taskOf x.f x.desc).map (·.qslot) |>.getD 0 | none => 0
          let (k2, rows2) := if fwd then k1.forward tag rows else (k1, rows)
          s1.updStroke t (fun _ => { k2 with run := some { r with plane := p + 1, rows := rows2 } })
      else
        let vals := r.cand.map nib
        if k.mode = 1 then
          s1.updStroke t (fun k => { k with run := some { r with plane := p + 1, acc := r.acc + vals.sum * 16 ^ (r.hdr.nplanes - 1 - p) } })
        else
          let best := match vals with
            | [] => 0
            | v :: rest => rest.foldl (fun a b => if k.mode = 2 then Nat.min a b else Nat.max a b) v
          s1.updStroke t (fun k => { k with run := some { r with plane := p + 1, cand := r.cand.filter (fun i => nib i == best), code := r.code * 16 + best } })

/-- The code of one row from the Nibs of the planes from p on, and whether a line was Blot (03 R69). -/
def State.restCode (s : State) (a : Nat) (h : SegHdr) (row : Nat) : Nat → Nat → Nat → Nat × Bool × Nat
  | 0, _, code => (code, false, 0)
  | k + 1, p, code =>
    if h.nplanes ≤ p then (code, false, 0)
    else
      let (nib, blot, n) := s.planeNibs a h p [row / 512]
      let r := s.restCode a h row k (p + 1) (code * 16 + nib row)
      (r.1, blot || r.2.1, r.2.2 + (if n = 0 then 0 else 1))

/-- The bitmap of the rows with a test, below n. -/
def bitmapOf (p : Nat → Bool) (n : Nat) : BitVec 65536 :=
  BitVec.ofNat 65536 ((List.range n).foldr (fun i a => if p i then a ||| 2 ^ i else a) 0)

/-- The run ends: results looked up, validity applied, the selection written, DONE set; an aggregate's result is
corrected for BASE and the transform (03 R66, R67 to R69). -/
def State.strokeEnd (s : State) (t : Nat) : State :=
  let k := s.stroke t
  match k.run with
  | none => s
  | some r =>
    if k.passDue r then s
    else
      let h := r.hdr
      let a := k.addr
      if k.mode = 0 then
        -- every U row becomes EQ (03 R64)
        let fin (x : RowSt) : Bool := (k.decided ((List.range k.slots).foldl (fun x i => if x.slot i = 0 then x.setSlot i 3 else x) x)).getD false
        let ones := ((List.range r.rows.length).zip r.rows).filter (fun x => fin x.2) |>.map (·.1)
        let blocks := (ones.map (· / 512)).eraseDups
        let need := h.nulls ≠ 0 && decide (h.nulls < h.rows)
        let lines := if need then blocks.map (fun b => (b, s.cohRead (lineOf (a + 0x200 + 64 * b)))) else []
        let s1 := s.countLines t lines.length
        if lines.any (fun x => x.2.2) then s1.runError t 3 0x0401
        else
          let valid (i : Nat) : Bool := h.nulls == 0 ||
            (match lines.find? (fun x => x.1 == i / 512) with | some x => (lineByte x.2.1 (i % 512 / 8)).getLsbD (i % 8) | none => false)
          let sel := ones.filter valid
          let bm := bitmapOf (fun i => sel.contains i) h.rows
          let s2 := s1.updStroke t (fun k =>
            let k1 := k.resolve valid (r.rows.map (fun x => { x with forced := some (fin x) }))
            { k1 with sel := k1.sel.set (field k.ctl 8 2) bm, count := BitVec.ofNat 32 sel.length })
          let s3 := if k.selAddr.getLsbD 0 then
              s2.writeBytes (((s.tile t).bound).getD 0x7F) (field k.selAddr 6 58 * 64) (leBytes 8192 bm.toNat)
            else s2
          s3.endRun t 0
      else
        let n := ((s.stroke t).count).toNat
        let empty := n = 0
        let s1 := s.updStroke t (fun k => { k with stat := if empty then k.stat ||| 4 else k.stat &&& 0xFFFFFFFB })
        if empty ∨ k.mode = 4 then s1.endRun t 0
        else if k.mode = 1 then
          let fix : Int := (r.acc : Int) + (n * h.base : Nat) - (if h.xform = 1 ∨ h.xform = 3 then ((n * 2 ^ (h.width - 1) : Nat) : Int) else 0)
          let v := wrapInt 128 fix
          (s1.updStroke t (fun k => { k with accLo := BitVec.ofNat 64 v, accHi := BitVec.ofNat 64 (v / 2 ^ 64) })).endRun t 0
        else
          let row := r.cand.foldl Nat.min (r.cand.headD 0)
          let (code, blot, m) := s.restCode a h row 16 r.plane r.code
          let s2 := s1.countLines t m
          if blot then s2.runError t 3 0x0401
          else (s2.updStroke t (fun k => { k with accLo := BitVec.ofNat 64 (code + h.base) })).endRun t 0

/-- START: a write of STK_CTL.START begins a run (03 R54). -/
def execStart (t : Nat) (s : State) : Host.Outcome State Fault Refusal := .next (s.strokeStart t)

/-- STROKE_PASS: one pass over the next plane of the run (03 R64). -/
def execStrokePass (t : Nat) (s : State) : Host.Outcome State Fault Refusal := .next (s.strokePass t)

/-- RUN_END: the run ends once no pass is left (03 R66). -/
def execRunEnd (t : Nat) (s : State) : Host.Outcome State Fault Refusal := .next (s.strokeEnd t)

/-- A write of STK_CTL.ABORT ends a run with ERR 5 and squashes its held entries (03 R81). -/
def State.strokeAbort (s : State) (t : Nat) : State := if (s.stroke t).busy then s.endRun t 5 else s

/-- STK_ABORT: a write of STK_CTL.ABORT (03 R81). -/
def execStkAbort (t : Nat) (s : State) : Host.Outcome State Fault Refusal := .next (s.strokeAbort t)

/-- Loads the estimator from HINT (03 R71, R89). -/
def State.strokeResetEst (s : State) (t : Nat) : State := s.updStroke t (fun k => { k with est := BitVec.ofNat 8 (field k.spec 12 8) })

/-- RESET_EST: a write of STK_SPEC.RESET_EST (03 R89). -/
def execResetEst (t : Nat) (s : State) : Host.Outcome State Fault Refusal := .next (s.strokeResetEst t)

/-- The status a stored fault gives its query: DATA_POISONED for POISON, else TASK_FAULT (06 R182). -/
def heldStatus (f : HeldFault) : Nat := if field f.qcause 0 8 = 6 then 0x0401 else 0x0304

/-- Releases the confirmed entries in row order once the run has ended and held execution is over: outputs pass on,
the counter delta is added, and a stored fault of a confirmed row is raised (03 R72, R77, R78). -/
def State.blotRelease (s : State) (t : Nat) : State :=
  let k := s.stroke t
  let c := s.core t
  if k.busy || c.held || k.blot.any (fun e => e.2.st == .held) then s
  else
    let ents := sortBy (fun (a b : BlotEnt) => decide (a.row ≤ b.row)) (k.blot.map (·.2))
    let s0 : State := { s with brm := (s.core t).heldSearch.foldl (fun b p => b.upd p.1 {} (fun x => { x with searches := x.searches + p.2 })) s.brm }
    let s1 := (s0.updStroke t (fun k => { k with blot := [], released := (ents.map (fun e => (e.row, e.out))).reverse ++ k.released })).updCore t
      (fun c => { c with qinstret := c.qinstret + c.heldInstret, heldInstret := 0, heldSearch := [] })
    match ents.findSome? (·.fault) with
    | some f => (s1.updCore t (fun c => { c with qcause := f.qcause, qfaultPc := f.pc, qfaultAddr := f.addr, qfaultElem := f.elem })).failTask t (heldStatus f)
    | none => s1

/-- BLOTTER_RELEASE: confirmed entries are released in row order (03 R72). -/
def execBlotterRelease (t : Nat) (s : State) : Host.Outcome State Fault Refusal := .next (s.blotRelease t)

/-- Squashes and frees every Blotter entry of a query on a tile (03 R80). -/
def Stroke.squashTag (k : Stroke) (tag : Nat) : Stroke := { k with blot := k.blot.filter (fun p => p.2.tag != tag) }

/-! ### The STK registers in the control window (03 R81 to R91) -/

/-- Reads a STK register at an offset of the block. -/
def Stroke.read (k : Stroke) (off : Nat) : Word :=
  let z (v : BitVec 32) : Word := v.zeroExtend 64
  match off with
  | 0x00 => z (k.ctl &&& 0x3FF8)
  | 0x04 => z k.stat
  | 0x08 => k.seg
  | 0x10 => z k.pred
  | 0x18 => k.consts.getD 0 0
  | 0x20 => k.consts.getD 1 0
  | 0x28 => k.consts.getD 2 0
  | 0x30 => k.consts.getD 3 0
  | 0x38 => k.selAddr
  | 0x40 => k.accLo
  | 0x48 => k.accHi
  | 0x50 => z k.count
  | 0x58 => z (k.spec &&& 0xFFFFF)
  | 0x60 => k.fwdConf
  | 0x68 => k.fwdSquash
  | 0x70 => k.lines
  | 0x78 => BitVec.ofNat 64 (k.blot.length + (if k.paused then 2 ^ 13 else 0))
  | _ => 0

/-- Writes a STK register under its field types; START, ABORT and RESET_EST act. -/
def State.strokeWrite (s : State) (t off : Nat) (v : Word) : State :=
  let w : BitVec 32 := v.truncate 32
  match off with
  | 0x00 =>
    let s1 := s.updStroke t (fun k => { k with ctl := w &&& 0x3FF8 })
    let s2 := if w.getLsbD 1 then s1.strokeAbort t else s1
    if w.getLsbD 0 then s2.strokeStart t else s2
  | 0x04 => s.updStroke t (fun k => { k with stat := k.stat &&& ~~~(w &&& 2) })
  | 0x08 => s.updStroke t (fun k => { k with seg := v &&& 0xFFFFFFFFFFFFFF00 })
  | 0x10 => s.updStroke t (fun k => { k with pred := w &&& 0x3FFFFFFF })
  | 0x18 => s.updStroke t (fun k => { k with consts := k.consts.set 0 v })
  | 0x20 => s.updStroke t (fun k => { k with consts := k.consts.set 1 v })
  | 0x28 => s.updStroke t (fun k => { k with consts := k.consts.set 2 v })
  | 0x30 => s.updStroke t (fun k => { k with consts := k.consts.set 3 v })
  | 0x38 => s.updStroke t (fun k => { k with selAddr := v &&& 0xFFFFFFFFFFFFFFC1 })
  | 0x58 =>
    let s1 := s.updStroke t (fun k => { k with spec := w &&& 0xFFFFF })
    if w.getLsbD 20 then s1.strokeResetEst t else s1
  | _ => s

end Sys2Proof.Machine
end

