-- ==== Sys2Proof/Machine/Scan.lean ====
section
/-! DEFINITION. Operators that take rows from columns and choose among them: SCAN, FILTER, PROJECT (04 R98, R106 to R109; 02 R37,
R50 to R52; 05 R152). -/

namespace Sys2Proof.Machine

/-! ### The operator a tile is at -/

/-- What an operator works on: its task, its record, its parameter block, its input and output fields. -/
structure OpCtx where
  f : Nat
  q : Nat
  i : Nat
  run : TaskRun
  task : Task
  o : OpRec
  blk : List Byte
  inp : List FieldD
  out : List FieldD

/-- Which of the tasks made later a run is at: 0 an index task, 1 a finalisation task, 2 a spilled sub-partition. -/
def Task.kind (k : Task) (r : TaskRun) : Option Nat :=
  match k.special with
  | some (0, _) => some 0
  | some (1, _) => some 1
  | some (2, w) => if r.op = k.opFirst + w / 65536 then some 2 else none
  | _ => none

/-- The operator that a tile's task has reached, when it has a given opcode and kind, and the query goes on (04 R117). -/
def State.opCtx (s : State) (t code : Nat) (kind : Option Nat) : Option OpCtx :=
  (s.tile t).task.bind (fun r => (s.taskOf r.f r.desc).bind (fun k =>
    let b := s.rawOf r.f k.qslot
    let o := imgOp b r.op
    let x := s.query r.f k.qslot
    if k.opLast < r.op ∨ o.opcode ≠ code ∨ r.fail.isSome ∨ r.kernel.isSome ∨ x.failed.isSome ∨ k.kind r ≠ kind ∨ s.pastCut r.f k then none
    else some { f := r.f, q := k.qslot, i := r.op, run := r, task := k, o, blk := s.paramOf r.f k.qslot r.op,
                inp := if o.in0 = 0xFFFF then [] else imgSchemaAt b o.in0, out := imgSchema b o }))

/-- The operator is done: its task goes on with its output. -/
def State.opDone (s : State) (t : Nat) (bs : List Batch) : State :=
  s.updTile t (fun x => { x with task := x.task.map (fun r => { r with op := r.op + 1, batches := bs }) })

/-! ### Objects and segments that a task meets -/

/-- The descriptor of an object that a task names, with ROWS as the driving object's, or the status of the failure
(04 R109, R713; 02 R42). -/
def State.taskObj (s : State) (t f obj : Nat) (drive : Option Nat) : State × (Nat ⊕ ObjDesc) :=
  match s.readObj f obj with
  | .absent => (s, .inl 0x0203)
  | .poisoned => (s, .inl 0x0401)
  | .bad c => (s.logSegment f 0 t obj 0xFFFFFFFF c, .inl 0x0402)
  | .ok d => if (match drive with | some n => d.rows != n | none => false) then (s, .inl 0x010B) else (s, .inr d)

/-- A segment of an object that a task meets. -/
def State.taskSeg (s : State) (t f obj m : Nat) (drive : Option Nat) : State × (Nat ⊕ (ObjDesc × Seg)) :=
  match s.taskObj t f obj drive with
  | (s1, .inl c) => (s1, .inl c)
  | (s1, .inr d) =>
    if d.segCount ≤ m then (s1, .inl 0x010B)
    else match s1.openSeg f 0 t d m with
      | (s2, .inl c) => (s2, .inl c)
      | (s2, .inr g) => (s2, .inr (d, g))

/-- The transformed values of chosen rows of a segment, null rows none; only lines that hold a chosen row are read, and
there is no list where one of them is Blot. -/
def State.segRows (s : State) (g : Seg) (rows : List Nat) : Option (List (Option Nat)) :=
  let groups := (rows.map (· / 128)).eraseDups
  let parts := groups.map (fun k => (k, s.segVals g (128 * k) (min (128 * k + 128) g.hdr.rows)))
  if parts.any (fun p => p.2.isNone) then none
  else some (rows.map (fun r => match List.find? (fun (p : Nat × Option (List (Option Nat))) => p.1 == r / 128) parts with
    | some (_, some l) => l.getD (r % 128) none
    | _ => none))

/-- A column's values suit a field (04 R98). -/
def ObjDesc.suits (d : ObjDesc) (x : FieldD) : Bool :=
  x.width == fieldWidth d.width && x.xform == d.xform && x.scale == d.scale && x.dict == d.dictId

/-- Loads a column into a field for chosen rows of a morsel: natural values (04 R98, R109). -/
def State.loadField (s : State) (t f obj m : Nat) (drive : Option Nat) (x : FieldD) (rows : List Nat) : State × (Nat ⊕ List (Option Word)) :=
  match s.taskSeg t f obj m drive with
  | (s1, .inl c) => (s1, .inl c)
  | (s1, .inr (d, g)) =>
    if !d.suits x || rows.any (fun r => decide (g.hdr.rows ≤ r)) then (s1, .inl 0x010B)
    else match s1.segRows g rows with
      | none => (s1, .inl 0x0401)
      | some l => (s1, .inr (l.map (fun v => v.map (fun y => BitVec.ofNat 64 (natural d.xform d.width y)))))

/-- Loads one column after another; the first failure ends it. -/
def State.loadFields (s : State) (t f m : Nat) (drive : Option Nat) (rows : List Nat) : List (Nat × FieldD) → State × (Nat ⊕ List (List (Option Word)))
  | [] => (s, .inr [])
  | (obj, x) :: rest => match s.loadField t f obj m drive x rows with
    | (s1, .inl c) => (s1, .inl c)
    | (s1, .inr l) => match s1.loadFields t f m drive rows rest with
      | (s2, .inl c) => (s2, .inl c)
      | (s2, .inr ls) => (s2, .inr (l :: ls))

/-! ### Stroke runs of operators -/

/-- The status of a run's error (03 R82). -/
def strokeStatus (e : Nat) : Nat :=
  match e with | 1 => 0x0402 | 2 => 0x010B | 3 => 0x0401 | 6 => 0x0305 | _ => 0x0101

/-- A run from its start to its end on a segment: CTL, predicate and constants written, every pass made. Answers the
status where the run ends in an error (03 R54 to R69). -/
def State.strokeRun (s : State) (t addr : Nat) (ctl : BitVec 32) (pred : BitVec 32) (consts : List Word) : State × Nat :=
  let s1 := s.updStroke t (fun k => { k with
    ctl, seg := BitVec.ofNat 64 addr, pred, consts := consts.mapIdx (fun i c => (i, c)), selAddr := 0 })
  let s2 := s1.strokeStart t
  let s3 := ((List.range 16).foldl (fun (s : State) _ => s.strokePass t) s2).strokeEnd t
  let e := field (s3.stroke t).stat 8 8
  (s3, if e = 0 then 0 else strokeStatus e)

/-- STK_CTL of a run: zone pruning, mode, combination; buffer 0 in and out. -/
def runCtl (zone : Bool) (mode combine : Nat) : BitVec 32 := BitVec.ofNat 32 ((if zone then 8 else 0) + mode * 32 + combine * 2 ^ 10)

/-- STK_PRED of a scan-list entry. -/
def ScanEnt.predWord (e : ScanEnt) : BitVec 32 := BitVec.ofNat 32 (e.tt % 2 ^ 16 + e.kinds % 2 ^ 14 * 2 ^ 16)

/-- Some slot of an entry asks for an order (02 R37). -/
def ScanEnt.ranged (e : ScanEnt) : Bool := (List.range e.slots).any (fun i => decide (2 ≤ e.kind i))

/-- Runs the predicate of an entry on its object's segment of a morsel (03 R65; 02 R37; 04 R109). -/
def State.runEnt (s : State) (t f m : Nat) (drive : Option Nat) (zone first : Bool) (e : ScanEnt) : State × Nat :=
  match s.taskSeg t f e.obj m drive with
  | (s1, .inl c) => (s1, c)
  | (s1, .inr (d, g)) =>
    if d.xform = 4 ∧ e.ranged then (s1, 0x010B)
    else s1.strokeRun t g.addr (runCtl zone 0 (if first then 0 else 1)) e.predWord (e.consts.map (BitVec.ofNat 64))

/-- Runs the predicates one after another; answers the first failure's status. -/
def State.runEnts (s : State) (t f m : Nat) (drive : Option Nat) (zone first : Bool) : List ScanEnt → State × Nat
  | [] => (s, 0)
  | e :: rest => match s.runEnt t f m drive zone first e with
    | (s1, 0) => s1.runEnts t f m drive zone false rest
    | (s1, c) => (s1, c)

/-- Checks every object that a list names, before anything is read of it (04 R109). -/
def State.checkObjs (s : State) (t f : Nat) (drive : Option Nat) : List Nat → State × Nat
  | [] => (s, 0)
  | obj :: rest => match s.taskObj t f obj drive with
    | (s1, .inl c) => (s1, c)
    | (s1, .inr _) => s1.checkObjs t f drive rest

/-- The rows whose bit is set in selection buffer 0. -/
def Stroke.selRows (k : Stroke) (n : Nat) : List Nat := let b := k.selBuf 0; (List.range n).filter (fun i => b.getLsbD i)

/-- Rows built from columns of values. -/
def rowsOf (m : Nat) (idx : List Nat) (cols : List (List (Option Word))) : List Row :=
  let a := cols.map (·.toArray)
  idx.mapIdx (fun k r => { morsel := m, row := r, vals := a.map (fun c => c.getD k none) })

/-! ### SCAN -/

/-- The entry that projects the key of a TOPK that follows the scan directly, with DESC (05 R152). -/
def topkEnt (b : List Byte) (c : OpCtx) (es : List ScanEnt) : Option (ScanEnt × Bool × Nat) :=
  let n := imgOp b (c.i + 1)
  if c.task.opLast ≤ c.i ∨ n.opcode ≠ 0x0B then none
  else (es.find? (fun e => e.project && e.field == n.optAt 0 4)).map (fun e => (e, n.optAt 4 1 == 1, c.i + 1))

/-- The run with which a scan before TOPK drops rows past the threshold, once it has one; a column narrower than its
field is left to TOPK. Answers the status, and whether a run was made (05 R152). -/
def State.topkRun (s : State) (t : Nat) (c : OpCtx) (m : Nat) (zone first : Bool) (es : List ScanEnt) : State × Nat × Bool :=
  match topkEnt (s.rawOf c.f c.q) c es with
  | none => (s, 0, false)
  | some (e, desc, i) =>
    match (s.query c.f c.q).thetas.find? i with
    | none => (s, 0, false)
    | some th => match s.taskSeg t c.f e.obj m c.run.drive with
      | (s1, .inl st) => (s1, st, false)
      | (s1, .inr (d, g)) =>
        let w := d.width
        if fieldWidth w ≠ w then (s1, 0, false)
        else
          let cst := if desc then 2 ^ w - 1 - th % 2 ^ w else th
          let r := s1.strokeRun t g.addr (runCtl zone 0 (if first then 0 else 1)) (BitVec.ofNat 32 (2 + (if desc then 5 else 3) * 2 ^ 16)) [BitVec.ofNat 64 cst]
          (r.1, r.2, true)

/-- SCAN from objects: predicates in entry order, then the projected columns of the selected rows (04 R109). -/
def State.scanObjects (s : State) (t : Nat) (c : OpCtx) : State :=
  let es := scanEnts c.blk
  let m := c.task.morsel
  let zone := c.o.optAt 0 1 == 1
  let drive := c.run.drive
  let s0 := s.updStroke t (fun k => { k with spec := BitVec.ofNat 32 (c.o.optAt 8 20) })
  match s0.checkObjs t c.f drive (es.map (·.obj)) with
  | (s1, 0) =>
    let ps := es.filter (·.pred)
    match s1.runEnts t c.f m drive zone true ps with
    | (s2, 0) => match s2.topkRun t c m zone ps.isEmpty es with
      | (s3, 0, pruned) =>
        let ran := !ps.isEmpty || pruned
        match s3.taskSeg t c.f ((es.map (·.obj)).headD 0) m drive with
        | (s4, .inl st) => s4.opFail t st
        | (s4, .inr (_, g)) =>
          let idx := if ran then (s4.stroke t).selRows g.hdr.rows else List.range g.hdr.rows
          let loads := c.out.mapIdx (fun k x => (((es.find? (fun e => e.project && e.field == k)).map (·.obj)).getD 0, x))
          match s4.loadFields t c.f m drive idx loads with
          | (s5, .inl st) => s5.opFail t st
          | (s5, .inr cols) => s5.opDone t [{ morsel := m, rows := rowsOf m idx cols }]
      | (s3, st, _) => s3.opFail t st
    | (s2, st) => s2.opFail t st
  | (s1, st) => s1.opFail t st

/-- SCAN in TABLE_SRC mode: the rows of one morsel of a breaker's result (04 R103, R115; 05 R138; log 25). -/
def State.scanTable (s : State) (t : Nat) (c : OpCtx) : State :=
  let m := c.task.morsel
  let src := s.brkSchema c.f c.q c.o.obj
  if src.length ≠ c.out.length ∨ (List.zip src c.out).any (fun p => p.1.width != p.2.width || p.1.xform != p.2.xform || p.1.scale != p.2.scale || p.1.dict != p.2.dict)
    then s.opFail t 0x010B
  else
    let parts := s.brkRows c.f c.q c.o.obj
    let at_ := (tableMorsels parts).getD m (0, 0)
    let vals := ((parts.getD at_.1 []).drop at_.2).take 65536
    s.opDone t [{ morsel := m, rows := vals.mapIdx (fun i v => {
      morsel := m, row := i, vals := List.zipWith (fun (y : Option Word) (d : FieldD) => y.map (fun w => BitVec.ofNat 64 (w.toNat % 2 ^ d.width))) v c.out }) }]

/-- One field of an Arrow array for n elements from element e on, or the status of the failure (02 R50 to R52; log 22). -/
def State.arrowField (s : State) (f : Nat) (ent : List Byte) (x : FieldD) (e n : Nat) : Nat ⊕ List (Option Word) :=
  let code := getLE ent 0 1
  let data := getLE ent 8 8
  let valid := getLE ent 16 8
  let size := if code = 1 then 16 else x.width / 8
  let okType := match code with
    | 1 => x.xform == 3 && x.width == 64
    | 2 => x.xform == 0 && x.width == 8
    | 3 => 4 ≤ x.xform && x.width ≤ 32
    | _ => x.xform != 3 && (x.xform < 4 || x.width ≤ 32)
  let lo := if code = 2 then data + e / 8 else data + size * e
  let len := if code = 2 then (e % 8 + n + 7) / 8 else size * n
  if !okType || (4 ≤ x.xform && getLE ent 4 4 != x.dict) then .inl 0x010B
  else if !s.rangeOk f lo len 1 ∨ (valid ≠ 0 ∧ !s.rangeOk f (valid + e / 8) ((e % 8 + n + 7) / 8) 1) then .inl 0x0105
  else
    let d := s.readBytes lo len
    let v := if valid = 0 then ([], false) else s.readBytes (valid + e / 8) ((e % 8 + n + 7) / 8)
    if d.2 || v.2 then .inl 0x0401
    else
      let raw : List (Option Nat) := (List.range n).map (fun i =>
        if valid ≠ 0 ∧ !bitAt v.1 (e % 8 + i) then none
        else some (if code = 2 then (if bitAt d.1 (e % 8 + i) then 1 else 0) else getLE d.1 (size * i) size))
      let bad (y : Nat) : Bool :=
        (code == 1 && !(decide (-(2 ^ 63 : Nat) ≤ sintOf 128 y) && decide (sintOf 128 y < (2 ^ 63 : Nat)))) || (code == 3 && decide (sintOf x.width y < 0))
      if raw.any (fun y => match y with | some z => bad z | none => false) then .inl 0x0309
      else .inr (raw.map (fun y => y.map (fun z => BitVec.ofNat 64 (
        if x.xform = 2 then (fmtOf x.width).canon (z % 2 ^ x.width) else z % 2 ^ x.width))))

/-- SCAN in ARROW_SRC mode: 65,536 rows of an Arrow array (04 R107, R115; 02 R50 to R52). -/
def State.scanArrow (s : State) (t : Nat) (c : OpCtx) : State :=
  let m := c.task.morsel
  let n := min 65536 (getLE c.blk 0 8 - 65536 * m)
  let e := getLE c.blk 8 8 + 65536 * m
  let cols := c.out.mapIdx (fun k x => s.arrowField c.f (cut c.blk (16 + 24 * k) 24) x e n)
  match cols.findSome? (fun y => match y with | .inl st => some st | .inr _ => none) with
  | some st => s.opFail t st
  | none => s.opDone t [{ morsel := m, rows := rowsOf m (List.range n) (cols.map (fun y => match y with | .inr l => l | .inl _ => [])) }]

/-- SCAN: the rows of the task's morsel (04 R106, R107, R109). -/
def execScan (t : Nat) (s : State) : Host.Outcome State Fault Refusal :=
  .next (match s.opCtx t 1 none with
    | none => s
    | some c =>
      if c.o.optAt 1 1 = 1 then s.scanTable t c
      else if c.o.optAt 2 1 = 1 then s.scanArrow t c
      else if (s.stroke t).busy then s
      else if c.run.drive.isNone then s.opFail t 0x0203
      else s.scanObjects t c)

/-! ### FILTER -/

/-- The order of a field's value and of a constant in natural values, as an integer (04 R108). -/
def natOrd (d : FieldD) (v : Nat) : Int :=
  if d.xform = 1 ∨ d.xform = 3 then sintOf d.width v
  else if d.xform = 2 then (transform 2 d.width ((fmtOf d.width).canon (v % 2 ^ d.width)) : Nat)
  else ((v % 2 ^ d.width : Nat) : Int)
def constOrd (d : FieldD) (v : Nat) : Int :=
  if d.xform = 1 ∨ d.xform = 3 then sintOf 64 v
  else if d.xform = 2 then (transform 2 d.width ((fmtOf d.width).canon (v % 2 ^ d.width)) : Nat)
  else (v : Int)

/-- A row satisfies an entry's predicate on its field: never when the field is null (04 R108; 03 R59, R60). -/
def ScanEnt.holds (e : ScanEnt) (d : FieldD) (v : Option Word) : Bool :=
  match v with
  | none => false
  | some x =>
    let a := natOrd d x.toNat
    let o (i : Nat) : Bool :=
      let c := constOrd d (e.consts.getD i 0)
      (outcome (e.kind i) (if a < c then 1 else if c < a then 2 else 3)).getD false
    let idx := ((List.range e.slots).map (fun i => if o i then 2 ^ i else 0)).sum
    e.tt.testBit idx

/-- FILTER mode 0: the rows that satisfy every entry's predicate on their fields (04 R108). -/
def State.filterRows (s : State) (t : Nat) (c : OpCtx) : State :=
  let es := scanEnts c.blk
  let fd (e : ScanEnt) : FieldD := c.inp.getD e.field noField
  if es.any (fun e => decide (c.inp.length ≤ e.field) || ((fd e).xform == 4 && e.ranged)) then s.opFail t 0x010B
  else s.opDone t (c.run.batches.map (fun b => { b with rows := b.rows.filter (fun r => es.all (fun e => e.holds (fd e) (r.vals.getD e.field none))) }))

/-- A batch restricted to the rows of a selection run on a column object (04 R107, R108 mode 1). -/
def State.filterRun (s : State) (t : Nat) (c : OpCtx) (e : ScanEnt) (b : Batch) : State × (Nat ⊕ Batch) :=
  match s.taskSeg t c.f e.obj b.morsel c.run.drive with
  | (s1, .inl st) => (s1, .inl st)
  | (s1, .inr (d, g)) =>
    if (d.xform = 4 ∧ e.ranged) ∨ b.rows.any (fun r => decide (g.hdr.rows ≤ r.row)) then (s1, .inl 0x010B)
    else
      let idx := b.rows.map (·.row)
      let s2 := s1.updStroke t (fun k => { k with sel := k.sel.set 0 (bitmapOf (fun i => idx.contains i) g.hdr.rows) })
      match s2.strokeRun t g.addr (runCtl true 0 1) e.predWord (e.consts.map (BitVec.ofNat 64)) with
      | (s3, 0) => let sel := (s3.stroke t).selBuf 0; (s3, .inr { b with rows := b.rows.filter (fun r => sel.getLsbD r.row) })
      | (s3, st) => (s3, .inl st)

/-- FILTER mode 1 on every batch in hand. -/
def State.filterRuns (s : State) (t : Nat) (c : OpCtx) (e : ScanEnt) : List Batch → List Batch → State
  | [], out => s.opDone t out
  | b :: rest, out => match s.filterRun t c e b with
    | (s1, .inl st) => s1.opFail t st
    | (s1, .inr x) => s1.filterRuns t c e rest (out ++ [x])

/-- FILTER (04 R106 to R108). -/
def execFilter (t : Nat) (s : State) : Host.Outcome State Fault Refusal :=
  .next (match s.opCtx t 2 none with
    | none => s
    | some c =>
      if c.o.optAt 0 1 = 0 then s.filterRows t c
      else if (s.stroke t).busy then s
      else match (scanEnts c.blk).head? with
        | none => s.opFail t 0x0101
        | some e => s.filterRuns t c e c.run.batches [])

/-! ### PROJECT -/

/-- One batch through a PROJECT map: fields copied, or loaded from column objects for the rows (04 R108). -/
def State.projectBatch (s : State) (t : Nat) (c : OpCtx) (b : Batch) : State × (Nat ⊕ Batch) :=
  let es := scanEnts (c.blk.drop 16)
  let m (k : Nat) : Nat := getLE c.blk k 1
  let used := (List.range c.o.nout).filter (fun k => decide (0x80 ≤ m k))
  let copies := (List.range c.o.nout).filter (fun k => decide (m k < 0x80))
  let wrong := copies.any (fun k => match c.inp[m k]?, c.out[k]? with
    | some x, some y => x.width != y.width || x.xform != y.xform || x.scale != y.scale || x.dict != y.dict
    | _, _ => true)
  if wrong then (s, .inl 0x010B)
  else
    let idx := b.rows.map (·.row)
    let loads := used.map (fun k => (((es[m k - 0x80]?).map (·.obj)).getD 0, c.out.getD k noField))
    match s.loadFields t c.f b.morsel c.run.drive idx loads with
    | (s1, .inl st) => (s1, .inl st)
    | (s1, .inr cols) =>
      let a := cols.map (·.toArray)
      (s1, .inr { b with rows := b.rows.mapIdx (fun i r => { r with vals := (List.range c.o.nout).map (fun k =>
        if m k < 0x80 then r.vals.getD (m k) none else match used.idxOf? k with
          | some j => (a.getD j #[]).getD i none
          | none => none) }) })

/-- PROJECT on every batch in hand. -/
def State.projectAll (s : State) (t : Nat) (c : OpCtx) : List Batch → List Batch → State
  | [], out => s.opDone t out
  | b :: rest, out => match s.projectBatch t c b with
    | (s1, .inl st) => s1.opFail t st
    | (s1, .inr x) => s1.projectAll t c rest (out ++ [x])

/-- PROJECT (04 R106, R108). -/
def execProject (t : Nat) (s : State) : Host.Outcome State Fault Refusal :=
  .next (match s.opCtx t 3 none with
    | none => s
    | some c => s.projectAll t c c.run.batches [])

end Sys2Proof.Machine
end

