-- ==== Sys2Proof/Machine/Kernel.lean ====
section
/-! DEFINITION. COMPUTE: a kernel is entered on a batch and its output collected when it returns (04 R110; 06 R175, R182; 07 R218). -/

namespace Sys2Proof.Machine

/-- The bytes of a batch descriptor (04 R110). -/
def batchDesc (rows morsel rowid : Nat) (fields nulls : List Nat) : List Byte :=
  leBytes 4 rows ++ leBytes 4 morsel ++ leBytes 8 rowid ++ zeros 48
    ++ (List.range 16).flatMap (fun k => leBytes 8 (fields.getD k 0)) ++ (List.range 16).flatMap (fun k => leBytes 8 (nulls.getD k 0))

/-- A null bitmap, 1 for null (04 R110). -/
def nullBytes (l : List (Option Word)) : List Byte :=
  let n := (l.length + 7) / 8
  leBytes n ((l.mapIdx (fun i v => if v.isNone then 2 ^ i else 0)).sum)

/-- Places a list of byte strings for a query, each at a multiple of 64; answers their addresses, 0 for an empty one. -/
def State.placeAll (s : State) (f q : Nat) : List (List Byte) → Option (List Nat × State)
  | [] => some ([], s)
  | b :: rest =>
    if b.isEmpty then (s.placeAll f q rest).map (fun r => (0 :: r.1, r.2))
    else (s.placeFor f q b.length 64).bind (fun p => (((p.2.writeBytes f p.1 b)).placeAll f q rest).map (fun r => (p.1 :: r.1, r.2)))

/-- The device address of the scratch block of a tile's task, where it can hold the two batch descriptors. -/
def State.scratchOf (s : State) (c : OpCtx) : Option Nat :=
  let n := imgScratch (s.rawOf c.f c.q)
  ((s.tenant c.f).images.find? c.task.image).bind (fun im => if n < 640 then none else some (im.scratch + n * c.run.block))

/-- Where a kernel's code and parameter block lie (04 R99, R108, R110). -/
def State.kernelEntry (s : State) (c : OpCtx) : Nat :=
  let b := s.rawOf c.f c.q
  let at_ := (((s.tenant c.f).images.find? c.task.image).map (·.addr)).getD 0
  at_ + (((imgSects b).find? (fun e => e.type == 3 && e.index == c.o.codeSect)).map (·.offset)).getD 0 + c.o.codeOff
def State.kernelParam (s : State) (c : OpCtx) : Nat :=
  let b := s.rawOf c.f c.q
  if c.o.plen = 0 then 0
  else if c.o.poff < imgPBytes b then c.task.param + c.o.poff
  else (((s.tenant c.f).images.find? c.task.image).map (·.addr)).getD 0
    + (((imgSects b).find? (fun e => e.type == 4)).map (·.offset)).getD 0 + c.o.poff

/-- Enters the kernel on a batch: arrays and descriptors are placed, and the core goes to the kernel in task mode with
G1, G2, G3, VL and VTYPE set (04 R110; 07 R218; log 28). -/
def State.enterKernel (s : State) (t : Nat) (c : OpCtx) (b : Batch) (todo done : List Batch) : State :=
  let n := b.rows.length
  let ids := b.rows.flatMap (fun r => leBytes 4 r.row)
  let sol := s.solid ((List.range c.inp.length).map (colOf b.rows))
  let inF := List.zipWith denseBytes c.inp sol.1
  let inN := c.inp.mapIdx (fun k _ => let l := b.rows.map (fun r => r.vals.getD k none); if l.any (·.isNone) then nullBytes l else [])
  let outF := c.out.map (fun d => zeros (d.width / 8 * n))
  let outN := c.out.map (fun d => if d.null % 2 = 1 then zeros ((n + 7) / 8) else [])
  let placed := sol.2.placeAll c.f c.q ([ids] ++ inF ++ inN ++ [ids] ++ outF ++ outN)
  let withDesc : Option (List Nat × Nat × Nat × List Nat × State) := placed.bind (fun r => match s.scratchOf c with
    | some a => some (r.1, a, a + 320, [], r.2)
    | none => (r.2.placeFor c.f c.q 640 64).map (fun p => (r.1, p.1, p.1 + 320, [p.1], p.2)))
  match withDesc with
  | none => s.opFail t 0x0307
  | some (addr, di, dout, extra, s1) =>
    let ni := c.inp.length
    let no := c.out.length
    let s2 := (s1.writeBytes c.f di (batchDesc n b.morsel (addr.getD 0 0) ((addr.drop 1).take ni) ((addr.drop (1 + ni)).take ni))).writeBytes c.f dout
      (batchDesc n b.morsel (addr.getD (1 + 2 * ni) 0) ((addr.drop (2 + 2 * ni)).take no) ((addr.drop (2 + 2 * ni + no)).take no))
    s2.updTile t (fun x => { x with
      task := x.task.map (fun r => { r with kernel := some { out := dout, rows := n, mem := extra ++ addr.filter (· != 0), todo, done } }),
      core := { ((x.core.writeG 1 (BitVec.ofNat 64 di)).writeG 2 (BitVec.ofNat 64 dout)).writeG 3 (BitVec.ofNat 64 (s.kernelParam c)) with
        pc := BitVec.ofNat 64 (s.kernelEntry c), slot := none, qstat := putBit (putBit x.core.qstat 0 false) 1 false, vl := 0, ew := 3,
        bpkeyEff := x.core.bpkey } })

/-- The status of an exception that a kernel raises and does not handle; none for one that the runtime handles
(06 R175, R182). -/
def kernelFault (cause : Word) : Option Nat :=
  match field cause 0 8 with
  | 6 => some 0x0401
  | 8 => none
  | 9 => some 0x0305
  | 7 => if field cause 16 12 = 0 then none else some 0x0304
  | _ => some 0x0304

/-- The output of a kernel that returned n rows (04 R110). -/
def State.kernelOut (s : State) (c : OpCtx) (k : Kernel) (n : Nat) : Option Batch :=
  let d := s.readBytes k.out 320
  let m := getLE d.1 4 4
  let ids := s.readBytes (getLE d.1 8 8) (4 * n)
  let cols := c.out.mapIdx (fun j x =>
    let a := getLE d.1 (0x40 + 8 * j) 8
    let v := getLE d.1 (0xC0 + 8 * j) 8
    let w := x.width / 8
    let data := s.readBytes a (w * n)
    let bits := if v = 0 then ([], false) else s.readBytes v ((n + 7) / 8)
    ((List.range n).map (fun i => if v ≠ 0 ∧ bitAt bits.1 i then none else some (BitVec.ofNat 64 (getLE data.1 (w * i) w))), data.2 || bits.2))
  if d.2 || ids.2 || cols.any (·.2) then none
  else some { morsel := m, rows := rowsOf m ((List.range n).map (fun i => getLE ids.1 (4 * i) 4)) (cols.map (·.1)) }

/-- The kernel's arrays are freed, and the run leaves it. -/
def State.leaveKernel (s : State) (t : Nat) (c : OpCtx) (k : Kernel) : State :=
  (k.mem.foldl (fun (s : State) a => s.unplaceFor c.f c.q a) s).updTile t (fun x => { x with task := x.task.map (fun r => { r with kernel := none }) })

/-- COMPUTE: enters the kernel on the first batch; once the kernel has come back to runtime mode, its output is taken and
the next batch begins (04 R110). -/
def State.computeStep (s : State) (t : Nat) : State :=
  match s.opCtx t 4 none with
  | some c => match c.run.batches with
    | [] => s.opDone t []
    | b :: rest => if (s.core t).wait.isSome || (s.core t).stall.isSome then s else s.enterKernel t c b rest []
  | none =>
    match (s.tile t).task with
    | none => s
    | some r => match r.kernel with
      | none => s
      | some k =>
        let clear := s.updTile t (fun x => { x with task := x.task.map (fun r => { r with kernel := none }) })
        match clear.opCtx t 4 none with
        | none => s
        | some c =>
          let core := s.core t
          if !core.runtime then s
          else match kernelFault core.qcause with
            | some st => (s.leaveKernel t c k).opFail t st
            | none =>
              if field core.qcause 0 8 ≠ 7 then s
              else
                let n := (core.readG 1).toNat
                if k.rows < n then (s.leaveKernel t c k).opFail t 0x0304
                else match s.kernelOut c k n with
                  | none => (s.leaveKernel t c k).opFail t 0x0401
                  | some o =>
                    let s1 := s.leaveKernel t c k
                    match k.todo with
                    | [] => s1.opDone t (k.done ++ [o])
                    | b :: rest => s1.enterKernel t c b rest (k.done ++ [o])

/-- COMPUTE (04 R106, R110). -/
def execCompute (t : Nat) (s : State) : Host.Outcome State Fault Refusal := .next (s.computeStep t)

end Sys2Proof.Machine
end

