-- ==== Sys2Proof/Machine/Join.lean ====
section
/-! DEFINITION. Hash joins: HASH_BUILD, index tasks, HASH_PROBE and spilled sub-partitions (05 R122 to R131, R142 to R145, R714). -/

namespace Sys2Proof.Machine

/-! ### Sizes (05 R127 to R129, R143, R714) -/

/-- Records of s bytes in a 64 KiB chunk. -/
def perChunk (s : Nat) : Nat := 65528 / s

/-- The bytes of the chunks of n records of s bytes. -/
def chunkBytes (n s : Nat) : Nat := 65536 * ((n + perChunk s - 1) / perChunk s)

/-- The bucket bits of n rows: the smallest power of two at least ceil(n ÷ 4), clamped to 2^4 to 2^18 (05 R129). -/
def bucketBits (n : Nat) : Nat := ((List.range 19).find? (fun b => decide (4 ≤ b) && decide ((n + 3) / 4 ≤ 2 ^ b))).getD 18

/-- need(n) of a build partition (05 R143). -/
def needBytes (n s : Nat) : Nat := chunkBytes n s + 64 * 2 ^ bucketBits n

/-- q = log2 P. -/
def OpRec.lgParts (o : OpRec) : Nat := Nat.log2 (max 1 o.count)

/-- The record size of a build's rows: its key and payload fields (05 R127). -/
def OpRec.buildRec (o : OpRec) : Nat := 8 + 8 * ((maskFields (o.optAt 0 16)).length + (maskFields (o.optAt 16 16)).length)

/-! ### The spill region (05 R142, R714; log 29) -/

/-- One more record of s bytes goes to a spill list that holds k: a new chunk of the region when the last is full; none
where the region is absent or full. -/
def State.spillOne (s : State) (f q k size : Nat) : Option State :=
  if k % perChunk size ≠ 0 then some s
  else
    let x := s.query f q
    if x.spillLen < x.spillUsed + 65536 then none else some (s.updQuery f q (fun x => { x with spillUsed := x.spillUsed + 65536 }))

/-! ### HASH_BUILD (05 R128, R143) -/

/-- The rows of a level-1 list. -/
def subRows (lg k : Nat) (l : List JRow) : List JRow := l.filter (fun r => hSub1 lg r.hash == k)

/-- Sends rows to a partition's level-1 build lists, one after another; `had` are the rows there before. -/
def State.spillRows (s : State) (f q lg size : Nat) (had : List JRow) : List JRow → Option State
  | [] => some s
  | r :: rest => (s.spillOne f q (subRows lg (hSub1 lg r.hash) had).length size).bind (fun s1 => s1.spillRows f q lg size (had ++ [r]) rest)

/-- Writes the record of the row with arrival index j of a resident partition, taking a new chunk where it begins one;
none where the allocation is exhausted. -/
def State.putRow (s : State) (f q i p size j : Nat) (b : List Byte) : Option State :=
  let x := ((s.brkOf f q i).join.getD p {})
  let n := perChunk size
  let store (s : State) (a : Nat) : State := s.writeBytes f (a + j % n * size) b
  if j % n ≠ 0 then some (store s (x.chunks.getD (j / n) 0))
  else (s.placeFor f q 65536 64).map (fun r =>
    let s1 := match x.chunks.getLast? with
      | some c => r.2.writeBytes f (c + 65528) (leBytes 8 r.1)
      | none => r.2
    store (s1.updBrk f q i (fun y => { y with join := y.join.upd p {} (fun z => { z with chunks := z.chunks ++ [r.1] }) })) r.1)

/-- The record of a build row (05 R127). -/
def buildBytes (payD : List FieldD) (r : JRow) : List Byte :=
  recBytes r.morsel r.row (nullMask r.pay) (r.key.map (fun v => v.getD 0) ++ List.zipWith recVal payD r.pay)

/-- One row reaches a build: dropped for a null key, placed in its partition, or spilled; none for MEMORY_EXHAUSTED
(05 R128, R143). -/
def State.buildRow (s : State) (c : OpCtx) (payD : List FieldD) (r : Row) : Option State :=
  let key := rowKey c.inp (c.o.optAt 0 16) r
  if key.any (fun k => k.2.isNone) then some s
  else
    let h := hashKey key
    let lg := c.o.lgParts
    let p := hPart lg h
    let size := c.o.buildRec
    let x := (s.brkOf c.f c.q c.i).join.getD p {}
    let jr : JRow := { morsel := r.morsel, row := r.row, hash := h, key := key.map (·.2), pay := rowPick (c.o.optAt 16 16) r }
    let add (st : PState) (s : State) : State := s.updBrk c.f c.q c.i (fun y => { y with join := y.join.upd p {} (fun z => { z with st, rows := z.rows ++ [jr] }) })
    if x.st = .spilled then (s.spillRows c.f c.q lg size x.rows [jr]).map (add .spilled)
    else if s.budgetOf c.f c.q c.i / max 1 c.o.count < needBytes (x.rows.length + 1) size then
      (s.spillRows c.f c.q lg size [] (x.rows ++ [jr])).map (fun s1 =>
        (add .spilled (x.chunks.foldl (fun (s : State) a => s.unplaceFor c.f c.q a) s1)).updBrk c.f c.q c.i (fun y => { y with
          join := y.join.upd p {} (fun z => { z with chunks := [], depth := 1 }) }))
    else (s.putRow c.f c.q c.i p size x.rows.length (buildBytes payD jr)).map (add .resident)

/-- HASH_BUILD: the rows of every batch in hand (05 R128). -/
def execHashBuild (t : Nat) (s : State) : Host.Outcome State Fault Refusal :=
  .next (match s.opCtx t 5 none with
    | none => s
    | some c =>
      let payD := (maskFields (c.o.optAt 16 16)).map (fun k => c.inp.getD k noField)
      let rows := c.run.batches.flatMap (·.rows)
      match rows.foldl (fun (a : Option State) r => a.bind (fun s => s.buildRow c payD r)) (some s) with
      | none => s.opFail t 0x0307
      | some s1 =>
        let touched := ((rows.map (fun r => hPart c.o.lgParts (hashKey (rowKey c.inp (c.o.optAt 0 16) r)))).eraseDups)
        (s1.joinDir c.f c.q c.i touched).opDone t [])

/-! ### Index tasks (05 R126, R129) -/

/-- A bucket line: slots of tag and address, and the address of an overflow bucket (05 R126). -/
def bucketLine (ents : List (Nat × Nat)) (ovf : Option Nat) : List Byte :=
  let n := ents.length
  (List.range 6).flatMap (fun i => leBytes 2 ((ents.getD i (0, 0)).1)) ++ leBytes 1 (2 ^ n - 1 + (if ovf.isSome then 2 ^ 5 + 2 ^ 6 else 0)) ++ zeros 3
    ++ (List.range 6).flatMap (fun i => leBytes 8 (if i = 5 ∧ ovf.isSome then ovf.getD 0 else (ents.getD i (0, 0)).2))

/-- Writes a bucket's chain: six entries in a line, or five and an overflow bucket with the rest; the first argument
bounds the lines (05 R126, R129). -/
def State.putChain (s : State) (f q : Nat) : Nat → Nat → List (Nat × Nat) → Option State
  | 0, _, _ => some s
  | n + 1, a, ents =>
    if ents.length ≤ 6 then some (s.writeBytes f a (bucketLine ents none))
    else (s.placeFor f q 64 64).bind (fun r => (r.2.writeBytes f a (bucketLine (ents.take 5) (some r.1))).putChain f q n r.1 (ents.drop 5))

/-- Indexes a resident partition of a build: its bucket array sized, zeroed and filled in lineage order (05 R129). -/
def State.indexPart (s : State) (c : OpCtx) (p : Nat) : Option State :=
  let x := (s.brkOf c.f c.q c.i).join.getD p {}
  let n := x.rows.length
  let bb := bucketBits n
  let size := c.o.buildRec
  let a := x.rows.toArray
  let order := sortBy (fun (i j : Nat) => match a[i]?, a[j]? with
    | some r, some r' => lineageLe r.morsel r.row r'.morsel r'.row
    | _, _ => true) (List.range n)
  let chains : Tab (List Nat) := order.foldl (fun (t : Tab (List Nat)) j => match a[j]? with
    | some r => t.upd (r.hash.toNat % 2 ^ bb) [] (fun l => l ++ [j])
    | none => t) []
  let addr (j : Nat) : Nat := x.chunks.getD (j / perChunk size) 0 + j % perChunk size * size
  (s.placeFor c.f c.q (64 * 2 ^ bb) 64).bind (fun r =>
    let s1 := (r.2.writeBytes c.f r.1 (zeros (64 * 2 ^ bb))).updBrk c.f c.q c.i (fun y => { y with
      join := y.join.upd p {} (fun z => { z with buckets := r.1, bbits := bb, chains }) })
    (chains.foldl (fun (o : Option State) e => o.bind (fun s => s.putChain c.f c.q n (r.1 + 64 * e.1)
      (e.2.map (fun j => (match a[j]? with | some y => hTag y.hash | none => 0, addr j))))) (some s1)).map (fun s2 => s2.joinDir c.f c.q c.i [p]))

/-- INDEX_TASK: the index task of a resident partition (05 R129). -/
def execIndexTask (t : Nat) (s : State) : Host.Outcome State Fault Refusal :=
  .next (match s.opCtx t 5 (some 0) with
    | none => s
    | some c => match s.indexPart c ((c.task.special.map (·.2)).getD 0) with
      | none => s.opFail t 0x0307
      | some s1 => s1.opDone t [])

/-! ### HASH_PROBE (05 R130, R144) -/

/-- The output rows of a probe row with the payloads of its matches (05 R130). -/
def probeOut (kind npay : Nat) (r : Row) (ms : List (List (Option Word))) : List Row :=
  match kind with
  | 0 => ms.map (fun p => { r with vals := r.vals ++ p })
  | 1 => if ms.isEmpty then [] else [r]
  | 2 => if ms.isEmpty then [r] else []
  | _ => if ms.isEmpty then [{ r with vals := r.vals ++ List.replicate npay none }] else ms.map (fun p => { r with vals := r.vals ++ p })

/-- The matches of a key in an indexed partition, in chain order: equal tags first, then keys in full (05 R130). -/
def JPart.matches_ (x : JPart) (h : Word) (key : List (Option Word)) : List (List (Option Word)) :=
  if x.buckets = 0 then []
  else
    let a := x.rows.toArray
    (x.chains.getD (h.toNat % 2 ^ x.bbits) []).filterMap (fun j => match a[j]? with
      | some r => if hTag r.hash = hTag h ∧ r.key = key then some r.pay else none
      | none => none)

/-- The level-1 probe list of a probe row takes it (05 R144, R714). -/
def State.deferProbe (s : State) (c : OpCtx) (p : Nat) (jr : JRow) (r : Row) : Option State :=
  let lg := (imgOp (s.rawOf c.f c.q) c.o.in1).lgParts
  let had := ((s.brkOf c.f c.q c.i).join.getD p {}).probes
  let k := (had.filter (fun y => hSub1 lg y.1.hash == hSub1 lg jr.hash)).length
  (s.spillOne c.f c.q k (8 + 8 * c.inp.length)).map (fun s1 => s1.updBrk c.f c.q c.i (fun y => { y with
    join := y.join.upd p {} (fun z => { z with probes := z.probes ++ [(jr, r)] }) }))

/-- One probe row: its output, or its place in a probe list (05 R130, R144). -/
def State.probeRow (s : State) (c : OpCtx) (r : Row) : Option (State × List Row) :=
  let d := imgOp (s.rawOf c.f c.q) c.o.in1
  let key := rowKey c.inp (c.o.optAt 16 16) r
  let h := hashKey (List.zipWith (fun i k => (i, k.2)) (maskFields (d.optAt 0 16)) key)
  let p := hPart d.lgParts h
  let x := (s.brkOf c.f c.q c.o.in1).join.getD p {}
  let npay := (maskFields (d.optAt 16 16)).length
  if x.spilled then
    (s.deferProbe c p { morsel := r.morsel, row := r.row, hash := h, key := key.map (·.2), pay := [] } r).map (fun s1 => (s1, []))
  else
    let ms := if key.any (fun k => k.2.isNone) then [] else x.matches_ h (key.map (·.2))
    some (s, probeOut (c.o.optAt 0 2) npay r ms)

/-- The rows of a batch in batches of at most 65,536 (05 R130); the first argument bounds them. -/
def splitRows (m : Nat) : Nat → List Row → List Batch
  | 0, _ => []
  | n + 1, l => if l.length ≤ 65536 then [{ morsel := m, rows := l }] else { morsel := m, rows := l.take 65536 } :: splitRows m n (l.drop 65536)

/-- A batch through the probe. -/
def State.probeBatch (s : State) (c : OpCtx) (b : Batch) : Option (State × List Batch) :=
  (b.rows.foldl (fun (a : Option (State × List (List Row))) r => a.bind (fun y => (y.1.probeRow c r).map (fun z => (z.1, z.2 :: y.2)))) (some (s, []))).map
    (fun y => let rows := y.2.reverse.flatten; (y.1, splitRows b.morsel (rows.length + 1) rows))

/-- The dictionaries of paired key fields differ (05 R130). -/
def State.probeDicts (s : State) (c : OpCtx) : Bool :=
  let b := s.rawOf c.f c.q
  let d := imgOp b c.o.in1
  let bs := imgSchemaAt b d.in0
  (List.zip (maskFields (c.o.optAt 16 16)) (maskFields (d.optAt 0 16))).any (fun k => (c.inp.getD k.1 noField).dict != (bs.getD k.2 noField).dict)

/-- HASH_PROBE: the rows of every batch in hand (05 R130). -/
def execHashProbe (t : Nat) (s : State) : Host.Outcome State Fault Refusal :=
  .next (match s.opCtx t 6 none with
    | none => s
    | some c =>
      if s.probeDicts c then s.opFail t 0x010B
      else match c.run.batches.foldl (fun (a : Option (State × List Batch)) b => a.bind (fun y => (y.1.probeBatch c b).map (fun z => (z.1, y.2 ++ z.2)))) (some (s, [])) with
        | none => s.opFail t 0x0307
        | some (s1, bs) => s1.opDone t bs)

/-! ### Spilled sub-partitions (05 R144) -/

/-- The output of a list of probe rows against build rows, in lineage order of the probe rows. -/
def subOut (kind npay : Nat) (build : List JRow) (probes : List (JRow × Row)) : List Row :=
  let bs := sortBy (fun (a b : JRow) => lineageLe a.morsel a.row b.morsel b.row) build
  (sortBy (fun (a b : JRow × Row) => lineageLe a.1.morsel a.1.row b.1.morsel b.1.row) probes).flatMap (fun y =>
    let ms := if y.1.key.any (·.isNone) then [] else bs.filterMap (fun r => if r.hash = y.1.hash ∧ r.key = y.1.key then some r.pay else none)
    probeOut kind npay y.2 ms)

/-- A spilled sub-partition is joined: as a whole, or split by the level-2 bits; none for MEMORY_EXHAUSTED (05 R144, R714). -/
def State.subJoin (s : State) (c : OpCtx) (p k : Nat) : Option (State × List Row) :=
  let d := imgOp (s.rawOf c.f c.q) c.o.in1
  let lg := d.lgParts
  let build := subRows lg k ((s.brkOf c.f c.q c.o.in1).join.getD p {}).rows
  let probes := (((s.brkOf c.f c.q c.i).join.getD p {}).probes).filter (fun y => hSub1 lg y.1.hash == k)
  let bp := s.budgetOf c.f c.q c.o.in1 / max 1 d.count
  let kind := c.o.optAt 0 2
  let npay := (maskFields (d.optAt 16 16)).length
  let psize := 8 + 8 * c.inp.length
  let lists := chunkBytes build.length d.buildRec + chunkBytes probes.length psize
  let free (s : State) : State := (s.updQuery c.f c.q (fun x => { x with spillUsed := x.spillUsed - lists })).updBrk c.f c.q c.i (fun y => { y with
    join := y.join.upd p {} (fun z => { z with probes := z.probes.filter (fun w => hSub1 lg w.1.hash != k) }) })
  if needBytes build.length d.buildRec ≤ bp then some (free s, subOut kind npay build probes)
  else
    let b2 (j : Nat) : List JRow := build.filter (fun r => hSub2 lg r.hash == j)
    let p2 (j : Nat) : List (JRow × Row) := probes.filter (fun r => hSub2 lg r.1.hash == j)
    let fresh := ((List.range 16).map (fun j => chunkBytes (b2 j).length d.buildRec + chunkBytes (p2 j).length psize)).sum
    let x := s.query c.f c.q
    if x.spillLen < x.spillUsed + fresh ∨ (List.range 16).any (fun j => decide (bp < needBytes (b2 j).length d.buildRec)) then none
    else some ((free s).updBrk c.f c.q c.o.in1 (fun y => { y with join := y.join.upd p {} (fun z => { z with depth := 2 }) }),
      (List.range 16).flatMap (fun j => subOut kind npay (b2 j) (p2 j)))

/-- SPILL_SUBPARTITION: one spilled sub-partition is loaded, indexed and probed, and its output goes on through the rest
of the stage in batches of one morsel each (05 R144). -/
def execSpillSubpartition (t : Nat) (s : State) : Host.Outcome State Fault Refusal :=
  .next (match s.opCtx t 6 (some 2) with
    | none => s
    | some c =>
      let w := (c.task.special.map (·.2)).getD 0
      let p := w / 16 % 4096
      match s.subJoin c p (w % 16) with
      | none => s.opFail t 0x0307
      | some (s1, rows) => ((s1.joinDir c.f c.q c.o.in1 [p]).opDone t (batchRows rows)))

end Sys2Proof.Machine
end

