-- ==== Sys2Proof/Machine/Aggregate.lean ====
section
/-! DEFINITION. Grouped aggregation, deterministic combining, finalisation, and plane-wise aggregation (05 R133 to R141, R146; 03 R67
to R69). -/

namespace Sys2Proof.Machine

/-! ### Accumulators (05 R135, R136) -/

/-- An aggregate of an operator: its function and its input field. -/
structure AggSpec where
  fn : Nat
  field : Nat
  d : FieldD

/-- The aggregates of an AGG_HASH. -/
def OpCtx.aggs (c : OpCtx) : List AggSpec := (aggSpecs c.blk).map (fun x => { fn := x.1, field := x.2, d := c.inp.getD x.2 noField })

/-- An accumulator before any input (05 R135). -/
def AggSpec.init (a : AggSpec) : Acc := { val := if a.fn = 2 then 2 ^ 64 - 1 else 0 }

/-- The t value of a field's value (02 R34, R35). -/
def tVal (d : FieldD) (v : Word) : Nat :=
  let x := v.toNat % 2 ^ d.width
  transform d.xform d.width (if d.xform = 2 then (fmtOf d.width).canon x else x)

/-- Two accumulators of one aggregate put together; a float sum adds the second to the first. -/
def AggSpec.join (a : AggSpec) (x y : Acc) : Acc :=
  let val := match a.fn with
    | 1 => if a.d.xform = 2 then (fadd64 (BitVec.ofNat 64 x.val) (BitVec.ofNat 64 y.val)).toNat else (x.val + y.val) % 2 ^ 128
    | 2 => min x.val y.val
    | 3 => max x.val y.val
    | _ => (x.val + y.val) % 2 ^ 64
  { val, seen := min 15 (x.seen + y.seen) }

/-- The accumulator of one non-null input (05 R135, R136). -/
def AggSpec.one (a : AggSpec) (v : Word) : Acc :=
  match a.fn with
  | 1 =>
    let x := v.toNat % 2 ^ a.d.width
    { seen := 1, val := if a.d.xform = 2 then (if a.d.width = 32 then fmt32.convert fmt64 x else x)
        else if a.d.xform = 0 then x else wrapInt 128 (sintOf a.d.width x) }
  | 4 => { val := 1 }
  | _ => { seen := 1, val := tVal a.d v }

/-- An input reaches an accumulator; a null changes nothing (05 R135). -/
def AggSpec.update (a : AggSpec) (x : Acc) (v : Option Word) : Acc :=
  match v with
  | none => x
  | some w => a.join x (a.one w)

/-- A group's accumulators take a row's inputs. -/
def Group.take (g : Group) (as : List AggSpec) (ins : List (Option Word)) : Group :=
  { g with accs := List.zipWith (fun (p : AggSpec × Acc) v => p.1.update p.2 v) (List.zip as g.accs) ins }

/-- A group as its insertion makes it (05 R137). -/
def newGroup (as : List AggSpec) (h : Word) (key : List (Option Word)) : Group := { hash := h, key, accs := as.map (·.init) }

/-- Updates the group of a key in a list; none where the list has no such group. -/
def takeIn (as : List AggSpec) (h : Word) (key ins : List (Option Word)) : List Group → Option (List Group)
  | [] => none
  | g :: r => if g.hash = h ∧ g.key = key then some (g.take as ins :: r) else (takeIn as h key ins r).map (g :: ·)

/-! ### The group table in memory (05 R126, R134, R135) -/

/-- The nullmask of a key over its field indices. -/
def keyNulls (mask : Nat) (key : List (Option Word)) : Nat :=
  ((List.zip (maskFields mask) key).map (fun p => if p.2.isNone then 2 ^ p.1 else 0)).sum

/-- The bytes of a group entry or partial record (05 R135, R140). -/
def Group.bytes (g : Group) (mask : Nat) (as : List AggSpec) : List Byte :=
  let seen := (g.accs.mapIdx (fun i a => a.seen % 16 * 16 ^ i)).sum
  leBytes 2 (keyNulls mask g.key) ++ leBytes 4 g.morsel ++ leBytes 2 g.seq ++ leBytes 4 seen ++ zeros 4
    ++ g.key.flatMap (fun v => leBytes 8 (v.getD 0).toNat)
    ++ (List.zip as g.accs).flatMap (fun p => leBytes (accSize p.1.fn p.1.d) p.2.val)

/-- Writes a bucket's chain of a group table over its overflow buckets, new ones placed where they run out; answers the
overflow buckets left. The first argument bounds the lines. -/
def State.groupChain (s : State) (f q : Nat) : Nat → Nat → List (Nat × Nat) → List Nat → Option (State × List Nat × List Nat)
  | 0, _, _, ov => some (s, ov, [])
  | n + 1, a, ents, ov =>
    if ents.length ≤ 6 then some (s.writeBytes f a (bucketLine ents none), ov, [])
    else
      let got : Option (Nat × List Nat × State) := match ov with
        | o :: r => some (o, r, s)
        | [] => (s.placeFor f q 64 64).map (fun r => (r.1, [], r.2))
      got.bind (fun g => ((g.2.2.writeBytes f a (bucketLine (ents.take 5) (some g.1))).groupChain f q n g.1 (ents.drop 5) g.2.1).map
        (fun r => (r.1, r.2.1, g.1 :: r.2.2)))

/-- Writes a partition's table: its entries, and the bucket chains of a table that is not a list of partial records. -/
def State.syncGroups (s : State) (c : OpCtx) (p : Nat) : Option State :=
  let x := (s.brkOf c.f c.q c.i).agg.getD p {}
  let bb := s.aggBits c.f c.q c.i
  let e := s.aggEntry c.f c.q c.i
  let area := 64 * 2 ^ bb
  let placed : Option (Nat × State) := if x.addr ≠ 0 then some (x.addr, s)
    else (s.placeFor c.f c.q (area + s.aggCap c.f c.q c.i * e) 64).map (fun r => (r.1, r.2.writeBytes c.f r.1 (zeros area)))
  placed.bind (fun r =>
    let s1 := r.2.writeBytes c.f (r.1 + area) (x.groups.flatMap (fun g => g.bytes (c.o.optAt 0 16) c.aggs))
    let chains : Tab (List (Nat × Nat)) := if c.o.det then [] else (x.groups.mapIdx (fun i g => (i, g))).foldl (fun (t : Tab (List (Nat × Nat))) y =>
      t.upd (y.2.hash.toNat % 2 ^ bb) [] (fun l => l ++ [(hTag y.2.hash, r.1 + area + e * y.1)])) []
    let fin := chains.foldl (fun (o : Option (State × List Nat × List Nat)) y => o.bind (fun z =>
      (z.1.groupChain c.f c.q (x.groups.length + 1) (r.1 + 64 * y.1) y.2 z.2.1).map (fun w => (w.1, w.2.1, z.2.2 ++ w.2.2)))) (some (s1, x.ovf, []))
    fin.map (fun z => z.1.updBrk c.f c.q c.i (fun y => { y with agg := y.agg.upd p {} (fun w => { w with addr := r.1, ovf := z.2.2 ++ z.2.1 }) })))

/-! ### AGG_HASH (05 R134 to R137, R140) -/

/-- Changes a partition of a group table. -/
def State.updAPart (s : State) (c : OpCtx) (p : Nat) (g : APart → APart) : State :=
  s.updBrk c.f c.q c.i (fun y => { y with agg := y.agg.upd p {} g })

/-- A row reaches the shared table: its group is updated or inserted, or the row spills once the entry area is full
(05 R137, R146, R714). -/
def State.aggRow (s : State) (c : OpCtx) (r : Row) : Option State :=
  let as := c.aggs
  let key := rowKey c.inp (c.o.optAt 0 16) r
  let h := hashKey key
  let kv := key.map (·.2)
  let lg := c.o.lgParts
  let p := hPart lg h
  let x := (s.brkOf c.f c.q c.i).agg.getD p {}
  let ins := as.map (fun a => r.vals.getD a.field none)
  match takeIn as h kv ins x.groups with
  | some gs => some (s.updAPart c p (fun y => { y with groups := gs }))
  | none =>
    if x.groups.length < s.aggCap c.f c.q c.i then
      some (s.updAPart c p (fun y => { y with groups := y.groups ++ [(newGroup as h kv).take as ins] }))
    else
      let had := (x.spill.filter (fun y => hSub1 lg y.hash == hSub1 lg h)).length
      (s.spillOne c.f c.q had (8 + 8 * (kv.length + as.length))).map (fun s1 => s1.updAPart c p (fun y => { y with
        spill := y.spill ++ [{ morsel := r.morsel, row := r.row, hash := h, key := kv, pay := ins }] }))

/-- A partial record is appended to its partition, or spills beyond the capacity (05 R140, R714). -/
def State.aggPartial (s : State) (c : OpCtx) (g : Group) : Option State :=
  let lg := c.o.lgParts
  let p := hPart lg g.hash
  let x := (s.brkOf c.f c.q c.i).agg.getD p {}
  if x.groups.length < s.aggCap c.f c.q c.i then some (s.updAPart c p (fun y => { y with groups := y.groups ++ [g] }))
  else
    let had := (x.spillPart.filter (fun y => hSub1 lg y.hash == hSub1 lg g.hash)).length
    (s.spillOne c.f c.q had (s.aggEntry c.f c.q c.i)).map (fun s1 => s1.updAPart c p (fun y => { y with spillPart := y.spillPart ++ [g] }))

/-- The task-local table of a batch: flushes of groups, each with its sequence number; the table is flushed before a row
that would add the (G + 1)-th group, and at the end (05 R140). -/
def localFlushes (as : List AggSpec) (schema : List FieldD) (mask cap m : Nat) : List Row → Nat → List Group → List Group
  | [], _, table => table
  | r :: rest, seq, table =>
    let key := rowKey schema mask r
    let h := hashKey key
    let kv := key.map (·.2)
    let ins := as.map (fun a => r.vals.getD a.field none)
    match takeIn as h kv ins table with
    | some t => localFlushes as schema mask cap m rest seq t
    | none =>
      let g (q : Nat) : Group := { (newGroup as h kv).take as ins with morsel := m, seq := q }
      if table.length < cap then localFlushes as schema mask cap m rest seq (table ++ [g seq])
      else table ++ localFlushes as schema mask cap m rest (seq + 1) [g (seq + 1)]

/-- The next flush number of a morsel. -/
def Breaker.nextSeq (x : Breaker) (m : Nat) : Nat :=
  x.agg.foldl (fun a p => (p.2.groups ++ p.2.spillPart).foldl (fun a g => if g.morsel = m then max a (g.seq + 1) else a) a) 0

/-- A batch in deterministic mode (05 R140). -/
def State.aggBatch (s : State) (c : OpCtx) (b : Batch) : Option State :=
  let rows := sortBy (fun (a b : Row) => decide (a.row ≤ b.row)) b.rows
  let gs := localFlushes c.aggs c.inp (c.o.optAt 0 16) (s.aggLocal c.f c.q c.i) b.morsel rows ((s.brkOf c.f c.q c.i).nextSeq b.morsel) []
  gs.foldl (fun (a : Option State) g => a.bind (fun s => s.aggPartial c g)) (some s)

/-- AGG_HASH: the rows of every batch in hand (05 R134 to R137, R140; 02 R37). -/
def execAggHash (t : Nat) (s : State) : Host.Outcome State Fault Refusal :=
  .next (match s.opCtx t 7 none with
    | none => s
    | some c =>
      if c.aggs.any (fun a => decide (c.inp.length ≤ a.field) || !aggTakes a.fn a.d) then s.opFail t 0x010B
      else
        let out := c.run.batches.foldl (fun (a : Option State) b => a.bind (fun s =>
          if c.o.det then s.aggBatch c b else b.rows.foldl (fun (a : Option State) r => a.bind (fun s => s.aggRow c r)) (some s))) (some s)
        let touched := ((c.run.batches.flatMap (fun b => b.rows.map (fun r => hPart c.o.lgParts (hashKey (rowKey c.inp (c.o.optAt 0 16) r))))).eraseDups)
        match out.bind (fun s1 => touched.foldl (fun (a : Option State) p => a.bind (fun s => s.syncGroups c p)) (some s1)) with
        | none => s.opFail t 0x0307
        | some s2 => s2.opDone t [])

/-! ### Finalisation (05 R138, R141, R146) -/

/-- combine over 2^k morsels from a on; the list holds the morsels there with a value, in increasing order (05 R141). -/
def combine : Nat → Nat → List (Nat × Word) → Option Word
  | _, _, [] => none
  | 0, _, (_, v) :: _ => some v
  | k + 1, a, l =>
    let m := a + 2 ^ k
    match combine k a (l.filter (fun p => decide (p.1 < m))), combine k m (l.filter (fun p => decide (m ≤ p.1))) with
    | none, r => r
    | some x, none => some x
    | some x, some y => some (fadd64 x y)

/-- The exponent of the smallest power of two that is at least n. -/
def ceilLog2 (n : Nat) : Nat := if n ≤ 1 then 0 else Nat.log2 (n - 1) + 1

/-- The partial records of one group as one group (05 R141). -/
def combineGroup (as : List AggSpec) (total : Nat) (ps : List Group) (g : Group) : Group :=
  let sorted := sortBy (fun (a b : Group) => lineageLe a.morsel a.seq b.morsel b.seq) ps
  let morsels := (sorted.map (·.morsel)).eraseDups
  let top := ceilLog2 (max total (morsels.foldl (fun a m => max a (m + 1)) 1))
  { g with accs := as.mapIdx (fun i a =>
      let acc (p : Group) : Acc := p.accs.getD i a.init
      let whole := match sorted with
        | [] => a.init
        | p :: rest => rest.foldl (fun x q => a.join x (acc q)) (acc p)
      if a.fn = 1 ∧ a.d.xform = 2 then
        let perMorsel := morsels.map (fun m => (m, match sorted.filter (fun p => p.morsel == m) with
          | [] => 0
          | p :: rest => rest.foldl (fun (x : Word) q => fadd64 x (BitVec.ofNat 64 (acc q).val)) (BitVec.ofNat 64 (acc p).val)))
        { whole with val := ((combine top 0 perMorsel).getD 0).toNat }
      else whole) }

/-- The groups of a list of partial records. -/
def combineAll (as : List AggSpec) (total : Nat) (ps : List Group) : List Group :=
  (ps.foldl (fun (acc : List Group) p => if acc.any (fun g => g.hash == p.hash && g.key == p.key) then acc else acc ++ [p]) []).map
    (fun g => combineGroup as total (ps.filter (fun p => p.hash == g.hash && p.key == g.key)) g)

/-- Spilled rows in lineage order meet the table: rows of its groups update it, the others form the continuation
(05 R146). -/
def spillMerge (as : List AggSpec) : List JRow → List Group → List Group → List Group × List Group
  | [], main, cont => (main, cont)
  | r :: rest, main, cont =>
    match takeIn as r.hash r.key r.pay main with
    | some m => spillMerge as rest m cont
    | none => match takeIn as r.hash r.key r.pay cont with
      | some k => spillMerge as rest main k
      | none => spillMerge as rest main (cont ++ [(newGroup as r.hash r.key).take as r.pay])

/-- A partition's spilled rows in lineage order. -/
def APart.spilledRows (x : APart) : List JRow := sortBy (fun (a b : JRow) => lineageLe a.morsel a.row b.morsel b.row) x.spill

/-- The bytes of a partition's continuation table (05 R146). -/
def State.contBytes (s : State) (c : OpCtx) (x : APart) : Nat :=
  let r := if c.o.det then x.spillPart.length else x.spill.length
  let n := if c.o.det then r else (spillMerge c.aggs x.spilledRows x.groups []).2.length
  if r = 0 then 0 else 64 * 2 ^ bucketBits r + s.aggEntry c.f c.q c.i * n

/-- The pool that a partition's continuation draws on: the budget less what the tables and the continuations of earlier
partitions take (05 R146). -/
def State.aggPool (s : State) (c : OpCtx) (p : Nat) : Nat :=
  let x := s.brkOf c.f c.q c.i
  let used := c.o.count * (64 * 2 ^ s.aggBits c.f c.q c.i) + s.aggEntry c.f c.q c.i * (x.agg.map (fun y => y.2.groups.length)).sum
  s.budgetOf c.f c.q c.i - used - ((List.range p).map (fun j => s.contBytes c (x.agg.getD j {}))).sum

/-- The domain-wide morsel count of a pipeline: MORSEL_TOTAL of an exchange before the operator, else its morsels
(05 R141; 15 R447). -/
def State.morselTotal (s : State) (c : OpCtx) : Nat :=
  let b := s.rawOf c.f c.q
  let pr := imgPipe b c.task.pipe
  match (((List.range pr.nops).map (· + pr.first)).filter (fun i => decide (i < c.i) && (imgOp b i).opcode == 0x0D)).getLast? with
  | some i => getLE (s.paramOf c.f c.q i) 0x20 4
  | none => ((s.query c.f c.q).pipes.getD c.task.pipe {}).morsels

/-- The order of result rows: increasing h, then key values with a null as 0, then nullmask (05 R138). -/
def groupLe (mask : Nat) (a b : Group) : Bool :=
  let ka := a.hash.toNat :: (a.key.map (fun v => (v.getD 0).toNat) ++ [keyNulls mask a.key])
  let kb := b.hash.toNat :: (b.key.map (fun v => (v.getD 0).toNat) ++ [keyNulls mask b.key])
  lexLe ka kb
where
  /-- Lexicographic order. -/
  lexLe : List Nat → List Nat → Bool
    | [], _ => true
    | _, [] => true
    | x :: xs, y :: ys => decide (x < y) || (x == y && lexLe xs ys)

/-- The result field of an accumulator; none inside for a null, none for a sum that does not fit (05 R138). -/
def AggSpec.result (a : AggSpec) (x : Acc) : Option (Option Word) :=
  match a.fn with
  | 4 => some (some (BitVec.ofNat 64 x.val))
  | 1 =>
    if x.seen = 0 then some none
    else if a.d.xform = 2 then some (some (BitVec.ofNat 64 x.val))
    else if sumFits a.d.xform x.val then some (some (BitVec.ofNat 64 x.val)) else none
  | _ => if x.seen = 0 then some none else some (some (BitVec.ofNat 64 (untransform a.d.xform a.d.width x.val % 2 ^ a.d.width)))

/-- The result row of a group; none where a sum does not fit. -/
def groupRow (keyD : List FieldD) (as : List AggSpec) (g : Group) : Option (List (Option Word)) :=
  let ks := List.zipWith (fun (d : FieldD) (v : Option Word) => v.map (fun w => BitVec.ofNat 64 (w.toNat % 2 ^ d.width))) keyD g.key
  ((List.zip as g.accs).foldr (fun p (a : Option (List (Option Word))) => match p.1.result p.2, a with
    | some v, some l => some (v :: l)
    | _, _ => none) (some [])).map (ks ++ ·)

/-- Finalises a partition; a status where it fails (05 R138, R141, R146). -/
def State.finalPart (s : State) (c : OpCtx) (p : Nat) : Nat ⊕ State :=
  let as := c.aggs
  let x := (s.brkOf c.f c.q c.i).agg.getD p {}
  let need := s.contBytes c x
  if need ≠ 0 ∧ s.aggPool c p < need then .inl 0x0307
  else
    let groups :=
      if c.o.det then combineAll as (s.morselTotal c) (x.groups ++ x.spillPart)
      else let r := spillMerge as x.spilledRows x.groups []; r.1 ++ r.2
    let keyD := (maskFields (c.o.optAt 0 16)).map (fun k => c.inp.getD k noField)
    let rows := (sortBy (groupLe (c.o.optAt 0 16)) groups).map (groupRow keyD as)
    if rows.any (·.isNone) then .inl 0x010B
    else .inr (s.updAPart c p (fun y => { y with results := rows.filterMap id }))

/-- FINALISATION_TASK: a partition's result rows are written (05 R138). -/
def execFinalisationTask (t : Nat) (s : State) : Host.Outcome State Fault Refusal :=
  .next (match s.opCtx t 7 (some 1) with
    | none => s
    | some c => match s.finalPart c ((c.task.special.map (·.2)).getD 0) with
      | .inl st => s.opFail t st
      | .inr s1 => s1.opDone t [])

/-! ### AGG_PLANE (03 R67 to R69; 05 R139) -/

/-- The accumulator line's bytes (05 R139). -/
def Breaker.planeBytes (x : Breaker) : List Byte := leBytes 16 x.plane ++ leBytes 8 x.rows ++ zeros 40

/-- One batch: an aggregate run over its rows of the object's segment, combined into the accumulator line. -/
def State.planeBatch (s : State) (t : Nat) (c : OpCtx) (b : Batch) : State × Nat :=
  match s.taskSeg t c.f c.o.obj b.morsel c.run.drive with
  | (s1, .inl st) => (s1, st)
  | (s1, .inr (_, g)) =>
    let idx := b.rows.map (·.row)
    if idx.any (fun r => decide (g.hdr.rows ≤ r)) then (s1, 0x010B)
    else
      let fn := c.o.optAt 0 3
      let s2 := s1.updStroke t (fun k => { k with sel := k.sel.set 0 (bitmapOf (fun i => idx.contains i) g.hdr.rows) })
      match s2.strokeRun t g.addr (runCtl true fn 0) 0 [] with
      | (s3, 0) =>
        let k := s3.stroke t
        let n := k.count.toNat
        let v := k.accLo.toNat + (if fn = 1 then k.accHi.toNat * 2 ^ 64 else 0)
        let s4 := s3.updBrk c.f c.q c.i (fun y => { y with
          rows := (y.rows + n) % 2 ^ 64,
          plane := if n = 0 then y.plane else match fn with
            | 1 => (y.plane + v) % 2 ^ 128
            | 2 => min y.plane v
            | 3 => max y.plane v
            | _ => y.plane })
        let y := s4.brkOf c.f c.q c.i
        (s4.writeBytes c.f y.line y.planeBytes, 0)
      | (s3, st) => (s3, st)

/-- Every batch in hand; the first failure ends it. -/
def State.planeAll (s : State) (t : Nat) (c : OpCtx) : List Batch → State
  | [] => s.opDone t []
  | b :: rest => match s.planeBatch t c b with
    | (s1, 0) => s1.planeAll t c rest
    | (s1, st) => s1.opFail t st

/-- AGG_PLANE (04 R106; 05 R139). -/
def execAggPlane (t : Nat) (s : State) : Host.Outcome State Fault Refusal :=
  .next (match s.opCtx t 8 none with
    | none => s
    | some c => if (s.stroke t).busy then s else s.planeAll t c c.run.batches)

end Sys2Proof.Machine
end

