-- ==== Sys2Proof/Machine/KRecv.lean ====
section
/-! DEFINITION. What every flit that arrives on a Krelor port does to its link: CRC, acknowledgement, credits, order (15 R431 to
R436). -/

namespace Sys2Proof.Machine

/-- The 256 bytes of a flit as a number's bytes. -/
def flitBytes (w : BitVec 2048) : List Byte := leBytes 256 w.toNat

/-- The bytes pass the flit's CRC and name a type (15 R432, R433). -/
def flitOk (b : List Byte) : Bool := getLE b 0xF8 8 == (crc64xz (b.take 0xF8)) && decide (getLE b 0 1 ≤ 6)

/-- The port's lanes carry flits: it is in IDCHECK or UP (15 R438). -/
def KPort.linked (k : KPort) : Bool := k.state == 3 || k.state == 4

/-- Sends a LINK flit of an operation (15 R432). -/
def State.sendLink (s : State) (p op : Nat) (body : List Byte) : State :=
  let k := s.kport p
  let c := k.creditDue
  let y : Flit := { type := 6, ack := (k.rxSeq + 0xFFFF) % 0x10000, cred := c.2 + 16 * c.1, payload := padTo 224 (leBytes 2 op ++ body) }
  s.updPort p (fun k => { k with
    sent := y :: k.sent, unacked := 0, owed := k.owed.mapIdx (fun j v => if j = c.1 then v - c.2 else v) })

/-- Sends a NAK for the SEQ the port expects (15 R434). -/
def State.sendNak (s : State) (p : Nat) : State := s.sendLink p 1 (leBytes 2 (s.kport p).rxSeq)

/-- ACK of a received flit: the replay buffer lets go of what it covers (15 R434). -/
def KPort.takeAck (k : KPort) (ack : Nat) : KPort :=
  match k.replay.findIdx? (fun r => r.flit.seq == ack) with
  | some i => { k with replay := k.replay.drop (i + 1) }
  | none => k

/-- CRED of a received flit (15 R431, R435). -/
def KPort.takeCred (k : KPort) (cred : Nat) : KPort :=
  { k with credits := k.credits.mapIdx (fun c v => if c = cred / 16 % 4 then min 64 (v + cred % 16) else v) }

/-- Buffers of a channel have emptied: their credit is due, with a LINK flit when fifteen wait (15 R434, R435). -/
def State.giveCredit (s : State) (p vc : Nat) : State :=
  let s1 := s.updPort p (fun k => { k with owed := k.owed.mapIdx (fun j v => if j = vc then v + 1 else v) })
  if 15 ≤ (s1.kport p).owed.getD vc 0 ∧ (s1.kport p).linked then s1.sendLink p 0 [] else s1

/-- Resends the replay buffer from its first element on (15 R434). -/
def State.resend (s : State) (p : Nat) : State :=
  s.updPort p (fun k =>
    let n := k.replay.length
    { k with
      replay := k.replay.map (fun r => { r with tick := s.ticks, resent := r.resent + 1 }),
      sent := (k.replay.map (fun r => { r.flit with ack := (k.rxSeq + 0xFFFF) % 0x10000, cred := 0 })).reverse ++ k.sent,
      replayed := k.replayed + BitVec.ofNat 64 n })

/-- The link fields of a flit that passed its CRC take effect, and what they free is sent. -/
def State.linkFields (s : State) (p : Nat) (x : Flit) : State :=
  let s1 := (s.updPort p (fun k => { (k.takeAck x.ack).takeCred x.cred with unacked := k.unacked + 1 })).pump p 256
  if 64 ≤ (s1.kport p).unacked then s1.sendLink p 0 [] else s1

/-- What comes of bytes that arrive on a port: nothing more to do, or a flit of the type to act on. -/
inductive Arrived where
  | done (s : State)
  | flit (s : State) (x : Flit)

/-- A flit arrives: one that fails its CRC is discarded with a NAK; a good one of another type than the command names is
none of its business; a sequenced one is accepted only in order (15 R433, R434). -/
def State.arrive (s : State) (p type : Nat) (w : BitVec 2048) : Arrived :=
  let b := flitBytes w
  if !(s.kport p).linked then .done s
  else if !flitOk b then .done ((s.updPort p (fun k => { k with crcErr := k.crcErr + 1 })).sendNak p)
  else
    let x := parseFlit b
    if x.type ≠ type then .done s
    else
      let s1 := s.linkFields p x
      if !x.sequenced then .flit s1 x
      else
        let k := s1.kport p
        if k.state ≠ 4 then .done s1
        else if x.seq = k.rxSeq then .flit (s1.updPort p (fun k => { k with rxSeq := (k.rxSeq + 1) % 0x10000 })) x
        else if (x.seq + 0x10000 - k.rxSeq) % 0x10000 < 0x8000 then .done (s1.sendNak p)
        else .done s1

end Sys2Proof.Machine
end

