-- ==== Sys2Proof/Machine/Cadence.lean ====
section
/-! DEFINITION. Cadence: the counter, synchronisation, host steering, the action table (14 R401 to R428; 20 R586). -/

namespace Sys2Proof.Machine

/-- Changes Cadence. -/
def State.updCad (s : State) (g : Cadence → Cadence) : State := { s with cad := g s.cad }

/-- The fields of CAD_CTL (14 R424). -/
def Cadence.slack (c : Cadence) : Nat := field c.ctl 24 8
def Cadence.syncEn (c : Cadence) (p : Nat) : Bool := c.ctl.getLsbD (16 + p)
def Cadence.waitMax (c : Cadence) : Nat := 10 * field c.ctl 1 15
def Cadence.stepOk (c : Cadence) : Bool := c.ctl.getLsbD 0

/-- A port's part of Cadence. -/
def Cadence.port (c : Cadence) (p : Nat) : CadPort := c.ports.getD p {}

/-- Changes a port's part. -/
def State.updCadPort (s : State) (p : Nat) (g : CadPort → CadPort) : State := s.updCad (fun c => { c with ports := c.ports.upd p {} g })

/-- The time value in 2^-32 tick (14 R402). -/
def State.timeValue (s : State) : Nat := s.now.toNat * 2 ^ 32 + s.cad.frac.toNat

/-- Sets the time value. -/
def State.setTime (s : State) (v : Nat) : State :=
  { s with now := BitVec.ofNat 64 (v / 2 ^ 32), cad := { s.cad with frac := BitVec.ofNat 32 v } }

/-! ### The counter (14 R401, R402; 20 R586) -/

/-- The window of a tenant's use in ticks (20 R586). -/
def Entitle.window (e : Entitle) : Nat := if e.burstWindow = 0 then 1000000 else e.burstWindow

/-- A tenant's use after k more ticks with n tiles busy: sub-windows that are over join the last sixteen (20 R586). -/
def Usage.advance (u : Usage) (window now n k : Nat) : Usage :=
  let u1 := { u with tiles := u.tiles + n * k }
  if window / 16 ≤ now - u1.start then { start := now, tiles := 0, bytes := 0, hist := ((u1.tiles, u1.bytes) :: u1.hist).take 16 } else u1

/-- Tiles that run a task of a function. -/
def State.busyTiles (s : State) (f : Nat) : Nat := (s.tiles.filter (fun p => match p.2.task with | some r => r.f == f | none => false)).length

/-- Entries whose tick has come become due (14 R415). -/
def Cadence.markDue (c : Cadence) (now : Nat) : Cadence :=
  { c with acts := c.acts.map (fun p => (p.1, if p.2.wait.isNone && p.2.due.isNone && decide (p.2.tick ≤ now) then { p.2 with due := some now } else p.2)) }

/-- CADENCE_CLOCK: the time value grows by 2^32 + CAD_RATE; entries become due; the uses of the tenants move on (14 R402,
R415; 20 R586). -/
def execCadenceClock (s : State) : Host.Outcome State Fault Refusal :=
  .next (
    let v := ((s.timeValue : Int) + 2 ^ 32 + s.cad.rate).toNat
    let old := s.ticks
    let s1 := s.setTime v
    let k := s1.ticks - old
    let s2 := s1.updCad (fun c => { (c.markDue s1.ticks) with launched := 0 })
    { s2 with lastReady := if s.tenants.any (fun p => s.hasReady p.1) then s1.ticks else s2.lastReady,
              tenants := s2.tenants.map (fun p => (p.1, { p.2 with usage := p.2.usage.advance p.2.ent.window s1.ticks (s.busyTiles p.1) k })) })

/-! ### Master keys (14 R407) -/

/-- The time stamp of a flit's first symbol, in 2^-16 tick (14 R405). -/
def State.stamp (s : State) : Nat := s.now.toNat * 2 ^ 16 + s.cad.frac.toNat / 2 ^ 16

/-- A time stamp in a SYNC_RSP. -/
def stampBytes (v : Nat) : List Byte := leBytes 8 (v / 2 ^ 16) ++ leBytes 2 v
def stampOf (b : List Byte) : Nat := getLE b 0 8 * 2 ^ 16 + getLE b 8 2

/-- The key of this device (14 R407). -/
def State.ownKey (s : State) : Nat := s.cad.prio * 2 ^ 18 + s.nodeId

/-- A port whose exchanges are used: up, enabled for exchanges, calibrated, and heard of (14 R405, R406). -/
def State.synced (s : State) (p : Nat) : Bool :=
  let k := s.kport p
  k.state == 4 && k.calib && s.cad.syncEn p && (s.cad.port p).heard

/-- The ports whose exchanges are used. -/
def State.syncedPorts (s : State) : List Nat := (List.range s.part.ports).filter s.synced

/-- Adopts the lowest key that the device knows: hop count, mastership, state (14 R407, R409). -/
def State.electMaster (s : State) : State :=
  let ps := s.syncedPorts
  let best := ps.foldl (fun a p => min a (s.cad.port p).key) s.ownKey
  let c := s.cad
  if best = s.ownKey then
    s.updCad (fun c => { c with master := true, hops := 0, key := best, state := 2, rate := if c.master then c.rate else 0, host := c.epoch.isSome, fresh := false })
  else
    let hops := 1 + ((ps.filter (fun p => (s.cad.port p).key == best)).map (fun p => (s.cad.port p).hops)).foldl min 254
    let lower := decide (best < c.key) || c.master
    s.updCad (fun c => { c with
      master := false, host := false, hops, key := best, fresh := c.fresh || lower || c.state == 0,
      state := if c.state = 0 then 1 else c.state, alone := 0 })

/-! ### Exchanges between neighbours (14 R405, R406) -/

/-- Sends a flit that takes no place in the sequence by a port itself. -/
def State.sendFlit (s : State) (p : Nat) (x : Flit) : State :=
  let k := s.kport p
  let c := k.creditDue
  s.updPort p (fun k => { k with
    sent := { x with ack := (k.rxSeq + 0xFFFF) % 0x10000, cred := c.2 + 16 * c.1 } :: k.sent, unacked := 0,
    owed := k.owed.mapIdx (fun j v => if j = c.1 then v - c.2 else v) })

/-- SYNC_EXCHANGE: a port sends a request with its time noted; a key not refreshed for 4 intervals is forgotten (14 R405,
R407). -/
def execSyncExchange (p : Nat) (s : State) : Host.Outcome State Fault Refusal :=
  .next (
    let k := s.kport p
    let s1 := s.updCadPort p (fun x => { x with age := x.age + 1, heard := x.heard && decide (x.age + 1 < 4) })
    if p < s.part.ports ∧ k.state = 4 ∧ !k.hold ∧ s.cad.syncEn p then
      (s1.updCadPort p (fun x => { x with t1 := some s.stamp })).sendFlit p { type := 4, src := s.nodeId }
    else s1)

/-- SYNC_REQ: the request is answered with both time stamps, the state, the hop count and the best key known (14 R405;
15 R432). -/
def execSyncReq (p : Nat) (w : BitVec 2048) (s : State) : Host.Outcome State Fault Refusal :=
  .next (match s.arrive p 4 w with
    | .done s1 => s1
    | .flit s1 _ =>
      if (s1.kport p).hold then s1
      else s1.sendFlit p {
        type := 5, src := s1.nodeId,
        payload := stampBytes s1.stamp ++ stampBytes s1.stamp ++ leBytes 1 s1.cad.state ++ leBytes 1 s1.cad.hops ++ leBytes 2 0
          ++ leBytes 4 (min s1.cad.key s1.ownKey) })

/-- SYNC_RSP: theta of the port and what the peer knows are taken, and the lowest key is adopted (14 R405 to R407). -/
def execSyncRsp (p : Nat) (w : BitVec 2048) (s : State) : Host.Outcome State Fault Refusal :=
  .next (match s.arrive p 5 w with
    | .done s1 => s1
    | .flit s1 x =>
      match (s1.cad.port p).t1 with
      | none => s1
      | some t1 =>
        let b := x.payload
        let t2 := stampOf b
        let t3 := stampOf (b.drop 10)
        let t4 := s1.stamp
        let theta := (((t2 : Int) - t1) - ((t4 : Int) - t3)) / 2 - (s1.cad.port p).asym
        if !(s1.kport p).calib then s1.updCadPort p (fun y => { y with t1 := none })
        else (s1.updCadPort p (fun y => { y with
          t1 := none, theta, heard := true, age := 0, state := getLE b 0x14 1, hops := getLE b 0x15 1, key := getLE b 0x18 4 % 2 ^ 26 })).electMaster)

/-! ### Steering (14 R403, R408, R409, R411) -/

/-- A rate within the bounds of R402. -/
def clampRate (r : Int) : Int := max (-1099511) (min 1099511 r)

/-- The rate steps of R408 for a target of num ÷ den ticks. -/
def Cadence.steer (c : Cadence) (num : Int) (den : Nat) : Cadence :=
  let rf := c.rateF + num * 4096 / den
  { c with rateF := rf, rate := clampRate (rf + num * 65536 / den) }

/-- The counter steps by a target of num ÷ den ticks (14 R403). -/
def State.stepCounter (s : State) (num : Int) (den : Nat) : State :=
  let old := s.ticks
  let s1 := (s.setTime ((s.timeValue : Int) + num * 2 ^ 32 / den).toNat).updCad (fun c => { c with stepped := true })
  s1.log 0x3A 0 0x7F 7 0 0 0 (wrapInt 64 ((s1.ticks : Int) - old))

/-- Bounds and mean of R408 over the ports in `up` and the synchronised ports, as numerators over 25 × k × 2^16: the
target, lo and hi. -/
def State.steerTarget (s : State) (up sync : List Nat) : Int × Int × Int :=
  let th (p : Nat) : Int := (s.cad.port p).theta
  let k := up.length
  let sum := (up.map th).foldl (· + ·) 0
  let first := th (sync.headD 0)
  let mx := (sync.map th).foldl max first
  let mn := (sync.map th).foldl min first
  (25 * sum, 25 * k * mx - 12 * 65536 * k, 25 * k * mn + 12 * 65536 * k)

/-- A device that is not master steers by its neighbours: the clamp, a step where it is allowed, the rates, the state. -/
def State.steerBy (s : State) (up : List Nat) : State :=
  let k := up.length
  let den := 25 * k * 65536
  let (mean, lo, hi) := s.steerTarget up s.syncedPorts
  let s1 := if lo ≤ hi then s.updCad (fun c => { c with adjLogged := false })
    else
      let s1 := s.updCad (fun c => { c with adj := true, adjLogged := true })
      if s.cad.adjLogged then s1 else s1.log 0x38 0 0x7F 7 0 0 0 (wrapInt 64 (mean * 65536 / den))
  let target := if lo ≤ hi then min (max mean lo) hi else mean
  let c0 := s1.cad
  let big := decide ((den : Int) < target.natAbs)
  let st := if c0.state = 3 then 1 else if c0.state = 2 ∧ c0.fresh ∧ big then 1 else c0.state
  let small := decide (10 * (target.natAbs : Int) ≤ den)
  let s2 := s1.updCad (fun c => { c with state := st, fresh := false, alone := 0, near := if st = 1 ∧ small then (if c0.state = 1 then c.near else 0) + 1 else 0 })
  if st = 1 ∧ s2.cad.stepOk ∧ s2.cad.acts.isEmpty ∧ target ≠ 0 then s2.stepCounter target den
  else
    let s3 := s2.updCad (fun c => c.steer target den)
    if s3.cad.state = 1 ∧ 16 ≤ s3.cad.near then s3.updCad (fun c => { c with state := 2 }) else s3

/-- CADENCE_STEER: once an interval a device that is not the master corrects its rate and its state (14 R403, R407 to
R409). -/
def execCadenceSteer (s : State) : Host.Outcome State Fault Refusal :=
  .next (
    let s1 := s.electMaster
    let c := s1.cad
    if c.master then (if c.host then s1 else s1.updCad (fun c => { c with rate := 0 }))
    else
      let up := s1.syncedPorts.filter (fun p => (c.port p).hops + 1 == c.hops)
      if up.isEmpty then s1.updCad (fun c => { c with
          rate := clampRate c.rateF, alone := c.alone + 1, near := 0, state := if c.state = 2 ∧ 3 ≤ c.alone + 1 then 3 else c.state })
      else s1.steerBy up)

/-- PTM_DIALOGUE: the host's time in nanoseconds steers the master; any other device records its offset (14 R411). -/
def execPtmDialogue (h : BitVec 64) (s : State) : Host.Outcome State Fault Refusal :=
  .next (
    let c := s.cad
    let num : Int := ((h.toNat : Int) - c.epoch.getD 0) * 2 ^ 32 - 10 * s.timeValue
    let den := 10 * 2 ^ 32
    if !c.ptm then s
    else if c.master && c.epoch.isSome then s.updCad (fun c => { (c.steer num den) with host := true })
    else s.updCad (fun c => { c with hostOfs := num * 65536 / den }))

/-! ### Arming (14 R412 to R414, R418) -/

/-- The lowest free handle. -/
def Cadence.freeHandle (c : Cadence) : Option Nat := (List.range 1024).find? (fun i => (c.acts.find? i).isNone)

/-- The fields of an entry image meet R413, and what it names belongs to the function (14 R414). -/
def State.armOk (s : State) (f : Nat) (b : List Byte) : Bool :=
  let act := getLE b 8 1
  let fl := getLE b 9 1
  let flag := getLE b 0x0A 1
  let trig := getLE b 0x0B 1
  let target := getLE b 0x0C 2
  let q := getLE b 0x0E 2
  let status := getLE b 0x18 8
  decide (act ≤ 3) && decide (fl < 4) && (flag == 0xFF || (decide (flag < 64) && (s.disp f).allocd.getLsbD flag))
    && (if fl / 2 % 2 = 1 then decide (trig < 8) else trig == 0) && (decide (q < 32) || q == 0xFFFF) && (act == 2 || getLE b 0x10 8 == 0)
    && status % 8 == 0 && (status == 0 || s.rangeOk f status 8 2)
    && (match act with
      | 0 => target == 0
      | 1 => (s.dmaPair f).contains target
      | 2 => s.krl.xchgs.any (fun p => p.2.slot == target && p.2.f == f)
      | _ => decide (target < 96) && (s.tile target).bound == some f)

/-- The first consumed pulse of an input, and the queue after it. -/
def State.takePulse (s : State) (f k : Nat) : Option (Nat × State) :=
  match s.cad.trig.getD (f * 8 + k) [] with
  | [] => none
  | t :: r => some (t, s.updCad (fun c => { c with trig := c.trig.set (f * 8 + k) r }))

/-- A write of CAD_ARM: the entry is armed or refused; CAD_ARMST takes handle and result (14 R414, R418, R421, R422). -/
def execCadArm (t : Nat) (v : BitVec 64) (s : State) : Host.Outcome State Fault Refusal :=
  .next (match (s.tile t).bound with
    | none => s
    | some f =>
      let a := field v 5 59 * 32
      let r := s.readBytes a 32
      let b := r.1
      let answer (s : State) (h code : Nat) : State := s.updTile t (fun x => { x with eng := { x.eng with cadArmst := BitVec.ofNat 32 (h + code * 2 ^ 16) } })
      match s.cad.freeHandle with
      | none => answer s 0 1
      | some h =>
        if 64 ≤ (s.cad.acts.filter (fun p => p.2.f == f)).length then answer s 0 1
        else if !s.rangeOk f a 32 1 || r.2 || !s.armOk f b then answer s 0 2
        else
          let after := getLE b 9 1 / 2 % 2 == 1
          let trig := getLE b 0x0B 1
          let taken := if after then s.takePulse f trig else none
          let s1 := match taken with | some p => p.2 | none => s
          let tick := match taken with | some p => p.1 + getLE b 0 8 | none => getLE b 0 8
          let waits := after && taken.isNone
          let late := !waits && decide (tick ≤ s.ticks)
          let e : Action := {
            f, tick, action := getLE b 8 1, drop := getLE b 9 1 % 2 == 1, flag := getLE b 0x0A 1, wait := if waits then some trig else none,
            target := getLE b 0x0C 2, qslot := getLE b 0x0E 2, arg := getLE b 0x10 8, status := getLE b 0x18 8, seq := s.cad.nextSeq, late,
            due := if late then some s.ticks else none }
          answer (s1.updCad (fun c => { c with acts := c.acts.set h e, nextSeq := c.nextSeq + 1 })) h 0)

/-- A write of CAD_DISARM: the bound function's entry is disarmed (14 R419). -/
def execCadDisarm (t : Nat) (v : BitVec 64) (s : State) : Host.Outcome State Fault Refusal :=
  .next (match (s.tile t).bound, s.cad.acts.find? (field v 0 10) with
    | some f, some a => if a.f = f then s.actEnd (field v 0 10) a 6 else s
    | _, _ => s)

/-! ### Launching (14 R415 to R417; 15 R449, R454) -/

/-- The round of an exchange that a launch entry stands for. -/
def State.actRound (s : State) (a : Action) : Option (Nat × Xchg × Nat) :=
  (List.find? (fun (p : Nat × Xchg) => p.2.slot == a.target && p.2.f == a.f) s.krl.xchgs).map (fun p => (p.1, p.2, (a.tick - p.2.t0) / max 1 p.2.period))

/-- Every port by which a round's slices leave carries traffic (15 R451). -/
def State.roundPorts (s : State) (x : Xchg) : Bool :=
  ((List.range x.n).filter (fun i => i != x.self)).all (fun i => match s.route (x.nodes.getD i 0) with
    | some (p, _) => (s.carrier p).isSome
    | none => true)

/-- The target of an entry is ready (14 R416). -/
def State.actReady (s : State) (a : Action) : Bool :=
  match a.action with
  | 0 => true
  | 1 => (s.dmaChan a.target).cur.isNone && (match (s.dmaChan a.target).sh with | some x => x.f == a.f && x.cadence | none => false)
  | 2 => match s.actRound a with
    | some (_, x, _) => s.roundPorts x
    | none => false
  | _ => (s.tile a.target).bound == some a.f

/-- What a launch delivers besides the entry's flag (14 R416; 15 R451; 19 R553). -/
def State.actDeliver (s : State) (a : Action) : State :=
  match a.action with
  | 0 => s
  | 1 => s.updDma a.target (fun k => { k with cur := k.sh, sh := none })
  | 2 => match s.actRound a with
    | some (id, _, r) => s.launchRound id r
    | none => s
  | _ => s.updCore a.target (fun c => { c with qipend := c.qipend ||| 4 })

/-- An entry launches: record and flag, then the delivery; the counters move (14 R415, R417, R428). -/
def State.actLaunch (s : State) (e : Nat) (a : Action) : State :=
  let onTime := !a.late && decide (lateness s a.due ≤ s.cad.slack)
  let s1 := (s.actEnd e a (if onTime then 1 else 2)).updCad (fun c => { c with
    launched := c.launched + 1, ontime := if onTime then c.ontime + 1 else c.ontime, laterun := if onTime then c.laterun else c.laterun + 1 })
  s1.actDeliver a

/-- An entry is dropped with an outcome; a round launch that timed out fails its query (14 R416, R417; 15 R454). -/
def State.actDrop (s : State) (e : Nat) (a : Action) (outcome : Nat) : State :=
  let x := s.actRound a
  let s1 := (s.actEnd e a outcome).updCad (fun c => { c with dropped := c.dropped + 1 })
  match x with
  | some (_, x, _) => if a.action = 2 ∧ outcome = 5 then s1.failQuery x.f x.qslot 0x0602 else s1
  | none => s1

/-- An entry that is due comes before another: by tick, then by handle (14 R415). -/
def actBefore (e : Nat) (a : Action) (e' : Nat) (a' : Action) : Bool := decide (a.tick < a'.tick) || (a.tick == a'.tick && decide (e < e'))

/-- A due entry that could launch now stands before this one. -/
def State.actBehind (s : State) (e : Nat) (a : Action) : Bool :=
  s.cad.acts.any (fun p => p.1 != e && p.2.due.isSome && s.actReady p.2 && actBefore p.1 p.2 e a)

/-- ACTION_DUE: an entry that is due launches or is dropped, at most 4 in a clock in order (14 R415, R416). -/
def execActionDue (e : Nat) (s : State) : Host.Outcome State Fault Refusal :=
  .next (match s.cad.acts.find? e with
    | none => s
    | some a =>
      if a.due.isNone ∨ 4 ≤ s.cad.launched ∨ s.actBehind e a then s
      else
        let spent := a.late || decide (s.cad.slack < lateness s a.due)
        let ready := s.actReady a
        if a.drop then
          if spent then s.actDrop e a (if a.action = 3 ∧ !ready then 4 else 3)
          else if ready then s.actLaunch e a
          else if s.cad.slack ≤ lateness s a.due then s.actDrop e a (if a.action = 3 then 4 else 3)
          else s
        else if ready then s.actLaunch e a
        else if a.action = 3 then s.actDrop e a 4
        else s)

/-- ACTION_READY: the target of a LATE_RUN entry that waits has become ready, and it launches (14 R416). -/
def execActionReady (e : Nat) (s : State) : Host.Outcome State Fault Refusal :=
  .next (match s.cad.acts.find? e with
    | none => s
    | some a => if a.due.isNone ∨ a.drop ∨ !s.actReady a ∨ 4 ≤ s.cad.launched then s else s.actLaunch e a)

/-- ACTION_TIMEOUT: a LATE_RUN entry that has waited WAIT_MAX ticks past its tick is dropped (14 R416). -/
def execActionTimeout (e : Nat) (s : State) : Host.Outcome State Fault Refusal :=
  .next (match s.cad.acts.find? e with
    | none => s
    | some a => if a.due.isNone ∨ a.drop ∨ s.actReady a then s else s.actDrop e a 5)

/-- TRIGGER_PULSE: a pulse reaches a trigger input: the oldest entry that waits on it consumes it, else it is queued, a
fifth one discarded and counted; a pulse of an old epoch is ignored (14 R418, R419). -/
def execTriggerPulse (f k : Nat) (s : State) : Host.Outcome State Fault Refusal :=
  .next (match pickFirst (fun (p : Pulse) => p.f == f && p.trig && p.idx == k) s.pulses with
    | none => s
    | some (p, r) =>
      let s1 : State := { s with pulses := r }
      if p.epoch != s1.epochOf f ∨ 8 ≤ k then s1
      else
        let key := f * 8 + k
        let waiting := s1.cad.acts.filter (fun (y : Nat × Action) => y.2.f == f && y.2.wait == some k)
        let first := waiting.foldl (fun (o : Option (Nat × Action)) y => match o with
          | none => some y
          | some z => if y.2.seq < z.2.seq then some y else some z) none
        match first with
        | some (e, a) =>
          let tick := s1.ticks + a.tick
          s1.updCad (fun c => { c with acts := c.acts.set e { a with tick, wait := none, due := if tick ≤ s1.ticks then some s1.ticks else none } })
        | none =>
          if (s1.cad.trig.getD key []).length < 4 then s1.updCad (fun c => { c with trig := c.trig.upd key [] (fun l => l ++ [s1.ticks]) })
          else s1.updCad (fun c => { c with ovf := c.ovf.upd key 0 (· + 1) }))

end Sys2Proof.Machine
end

