-- ==== Sys2Proof/Machine/Krelor.lean ====
section
/-! DEFINITION. Krelor ports and flits: bring-up, degrade, failover, transit, receive, exchange control (15 R433 to R456). -/

namespace Sys2Proof.Machine

/-! ### Counters, the receive buffer, panic (15 R446, R463) -/

/-- A flit is discarded and counted (15 R437, R456). -/
def State.krlDiscard (s : State) (p : Nat) : State := s.updPort p (fun k => { k with discard := k.discard + 1 })

/-- Panic follows the receive buffer's occupancy (15 R446). -/
def KPort.panicLevel (k : KPort) : KPort :=
  { k with panic := if k.level < k.rbuf.length then true else if k.rbuf.length + 64 ≤ k.level then false else k.panic }

/-- A flit leaves the receive buffer; when the buffer was overfull, the flit that takes its place gives its credit back. -/
def State.rbufLeave (s : State) (p i : Nat) : State :=
  let k := s.kport p
  let moved := k.rbuf[512]?
  let s1 := s.updPort p (fun k => { k with rbuf := k.rbuf.eraseIdx i }.panicLevel)
  match moved with
  | some y => s1.giveCredit p y.1.vc
  | none => s1

/-! ### Slices as they arrive (15 R446, R452, R456) -/

/-- Bytes of a DATA flit that belong to its slice. -/
def KSlice.take (z : KSlice) (x : Flit) : Nat := min 224 (z.len - x.offset)

/-- Changes the slice of a source. -/
def State.updSlice' (s : State) (id r src : Nat) (g : KSlice → KSlice) : State :=
  s.updRound id r (fun y => { y with slices := y.slices.map (fun z => if z.src = src then g z else z) })

/-- The source's slice is whole and ordered: a SACK goes back (15 R452). -/
def State.sliceWhole (s : State) (id r src : Nat) (x : Xchg) : State :=
  ((s.updSlice' id r src (fun z => { z with whole := true })).forward
    { type := 2, vc := 2, dst := x.nodes.getD src 0, src := s.nodeId, xchg := id, round := r, offset := x.self } none).roundCheck id r

/-- All writes of a flit of the receive buffer are ordered (15 R452). -/
def State.flitWritten (s : State) (p i : Nat) (y : Flit) : State :=
  let s1 := s.rbufLeave p i
  match s1.xchg y.xchg with
  | none => s1
  | some x => match (x.nodes.findIdx? (fun n => n == y.src)).bind (fun src => ((x.rnd y.round).slices.find? (fun z => z.src == src)).map (fun z => (src, z))) with
    | none => s1
    | some (src, z) =>
      let s2 := s1.updSlice' y.xchg y.round src (fun z => { z with got := z.got + z.take y })
      if z.len ≤ z.got + z.take y ∧ !z.whole then s2.sliceWhole y.xchg y.round src x else s2

/-- A write of the receive agent of a port is ordered at its home (15 R446, R452). -/
def State.krlOrdered (s : State) (p line : Nat) : State :=
  match (s.kport p).rbuf.findIdx? (fun y => y.2.contains line) with
  | none => s
  | some i => match (s.kport p).rbuf[i]? with
    | none => s
    | some y =>
      let rest := y.2.erase line
      if rest.isEmpty then s.flitWritten p i y.1
      else s.updPort p (fun k => { k with rbuf := k.rbuf.set i (y.1, rest) })

/-- The agent number of a port's receive agent at the homes (10 R288; log 32). -/
def krlAgent (p : Nat) : Nat := 96 + p

/-- Posts the writes of a payload at an address, a line each; answers the lines (15 R446). The first argument bounds them. -/
def State.postPayload (s : State) (agent owner : Nat) : Nat → Nat → List Byte → State × List Nat
  | 0, _, _ => (s, [])
  | n + 1, addr, b =>
    if b.isEmpty then (s, [])
    else
      let o := addr % 64
      let k := min b.length (64 - o)
      let q : IoReq := { agent, line := lineOf addr, owner, wr := some (bytesLine (zeros o ++ b.take k), byteMask o k, false) }
      let r := { s with io := s.io ++ [q] }.postPayload agent owner n (addr + k) (b.drop k)
      (r.1, lineOf addr :: r.2)

/-- A DATA flit for an open exchange of this device: its slice is placed with its first flit and its payload written; a
flit that finds no room fails the query (15 R446, R452, R456). -/
def State.takeData (s : State) (p : Nat) (y : Flit) (id : Nat) (x : Xchg) : State :=
  match x.nodes.findIdx? (fun n => n == y.src) with
  | none => s.krlDiscard p
  | some src =>
    let rd := x.rnd y.round
    if x.rounds ≤ y.round ∨ rd.complete ∨ src = x.self then s.krlDiscard p
    else
      let have_ := rd.slices.find? (fun z => z.src == src)
      let placed : Option (Option State) := match have_ with
        | some _ => some (some s)
        | none =>
          if y.offset ≠ 0 then none
          else
            let len := 16 + getLE y.payload 4 4
            some ((x.room y.round len).map (fun at_ =>
              (s.sliceDir x y.round src at_ len (getLE y.payload 0 4)).updRound id y.round (fun r => { r with
                fill := at_ + len, slices := { src, at_, len, rows := getLE y.payload 0 4 } :: r.slices })))
      match placed with
      | none => s.krlDiscard p
      | some none => s.failQuery x.f x.qslot 0x0307
      | some (some s1) =>
        match ((s1.xchg id).map (fun x => x.rnd y.round)).bind (fun r => r.slices.find? (fun z => z.src == src)) with
        | none => s1
        | some z =>
          let a := x.half y.round + z.at_ + y.offset
          let b := y.payload.take (z.take y)
          if b.isEmpty then s1.krlDiscard p
          else if !s1.rangeOk x.f a b.length 2 then s1.failQuery x.f x.qslot 0x0601
          else
            let r := s1.postPayload (krlAgent p) x.f 5 a b
            let room := decide ((s1.kport p).rbuf.length < 512)
            let s2 := r.1.updPort p (fun k => { k with rbuf := k.rbuf ++ [(y, r.2)] }.panicLevel)
            if room then s2.giveCredit p y.vc else s2

/-- A flit passes through: it leaves its input buffer for the port that its route chooses (15 R442, R443, R445). -/
def State.transit (s : State) (p : Nat) (y : Flit) : State := (s.giveCredit p y.vc).forward y (some (s.logicalPort p))

/-- DATA_FLIT: accepted in order, passed on, or written into the receive area (15 R434, R442, R452, R456). -/
def execDataFlit (p : Nat) (w : BitVec 2048) (s : State) : Host.Outcome State Fault Refusal :=
  .next (match s.arrive p 1 w with
    | .done s1 => s1
    | .flit s1 y =>
      if y.dst ≠ s1.nodeId then s1.transit p y
      else match s1.xchg y.xchg with
        | some x => s1.takeData p y y.xchg x
        | none => (s1.giveCredit p y.vc).krlDiscard p)

/-- SACK: a sent slice is acknowledged (15 R452, R456). -/
def execSack (p : Nat) (w : BitVec 2048) (s : State) : Host.Outcome State Fault Refusal :=
  .next (match s.arrive p 2 w with
    | .done s1 => s1
    | .flit s1 y =>
      if y.dst ≠ s1.nodeId then s1.transit p y
      else
        let s2 := s1.giveCredit p y.vc
        match s2.xchg y.xchg with
        | some x =>
          if x.rounds ≤ y.round then s2.krlDiscard p
          else (s2.updRound y.xchg y.round (fun r => { r with sacks := (y.offset :: r.sacks).eraseDups })).roundCheck y.xchg y.round
        | none => s2.krlDiscard p)

/-- ABORT: an open exchange's query fails; one not yet open is remembered, one that has closed discarded (15 R455, R456). -/
def execAbort (p : Nat) (w : BitVec 2048) (s : State) : Host.Outcome State Fault Refusal :=
  .next (match s.arrive p 3 w with
    | .done s1 => s1
    | .flit s1 y =>
      if y.dst ≠ s1.nodeId then s1.transit p y
      else
        let s2 := s1.giveCredit p y.vc
        match s2.xchg y.xchg with
        | some x => s2.failQuery x.f x.qslot 0x0602
        | none =>
          if s2.krl.closed.contains y.xchg then s2.krlDiscard p
          else { s2 with krl := { s2.krl with aborts := ((y.xchg, s2.ticks) :: s2.krl.aborts).take 16 } })

/-- IDLE: nothing beyond the link fields (15 R432). -/
def execIdle (p : Nat) (w : BitVec 2048) (s : State) : Host.Outcome State Fault Refusal :=
  .next (match s.arrive p 0 w with
    | .done s1 => s1
    | .flit s1 _ => s1)

/-! ### LINK flits (15 R432, R434, R440) -/

/-- A LINK flit arrives: nothing where it is good and carries another operation. -/
def State.arriveLink (s : State) (p op : Nat) (w : BitVec 2048) : Arrived :=
  let b := flitBytes w
  if flitOk b && getLE b 0x18 1 != op then .done s else s.arrive p 6 w

/-- LINK_ACK: acknowledgement and credits (15 R434, R435). -/
def execLinkAck (p : Nat) (w : BitVec 2048) (s : State) : Host.Outcome State Fault Refusal :=
  .next (match s.arriveLink p 0 w with
    | .done s1 => s1
    | .flit s1 _ => s1)

/-- NAK: everything before the expected SEQ is acknowledged, the rest sent again in order (15 R434). -/
def execNak (p : Nat) (w : BitVec 2048) (s : State) : Host.Outcome State Fault Refusal :=
  .next (match s.arriveLink p 1 w with
    | .done s1 => s1
    | .flit s1 y =>
      let e := getLE y.payload 2 2
      let k := s1.kport p
      match k.replay.findIdx? (fun r => r.flit.seq == e) with
      | some i => (s1.updPort p (fun k => { k with replay := k.replay.drop i })).resend p
      | none => if e = k.txSeq then (s1.updPort p (fun k => { k with replay := [] })).pump p 256 else s1)

/-- The body of a HELLO after OP (15 R432). -/
def State.helloBody (s : State) (p last : Nat) : List Byte :=
  leBytes 2 0 ++ leBytes 4 s.nodeId ++ leBytes 1 p ++ leBytes 1 (s.dimSize 0 - 1) ++ leBytes 1 (s.dimSize 1 - 1) ++ leBytes 1 (s.dimSize 2 - 1) ++ leBytes 2 last

/-- The neighbour that a port 0 to 5 leads to (15 R440). -/
def State.neighbour (s : State) (p : Nat) : Nat :=
  let d := p / 2
  let n := s.dimSize d
  let own := coordOf s.nodeId d
  let c := if p % 2 = 0 then (own + 1) % n else (own + n - 1) % n
  s.nodeId - own * 2 ^ (12 - 6 * d) + c * 2 ^ (12 - 6 * d)

/-- A HELLO names the peer that a port expects (15 R440). -/
def State.helloOk (s : State) (p : Nat) (b : List Byte) : Bool :=
  let id := getLE b 4 4 % 2 ^ 18
  let k := s.kport p
  let dims := getLE b 9 1 + 1 == s.dimSize 0 && getLE b 10 1 + 1 == s.dimSize 1 && getLE b 11 1 + 1 == s.dimSize 2
  if p < 6 then id == s.neighbour p && getLE b 8 1 == p ^^^ 1 && dims
  else if k.mode = 1 then id == k.expPeer
  else if k.mode = 2 then id == s.neighbour k.pair && dims
  else false

/-- A port's calibration is formed from the skew read from its cable and the fixed latencies, which the spec does not
state: a free value (14 R406; log 1). -/
def State.calibrate (s : State) (p : Nat) : State :=
  if (s.kport p).skew.isNone then s
  else
    let r := s.free
    (r.2.updPort p (fun k => { k with calib := true })).updCadPort p (fun x => { x with asym := r.1.toInt, heard := false, t1 := none })

/-- A redundant port has taken its pair over: what the peer has not received of the pair's flits goes out first, in the
redundant port's own sequence (15 R437). -/
def State.takeOver (s : State) (r last : Nat) : State :=
  let p := (s.kport r).pair
  let k := s.kport p
  let left := match k.replay.findIdx? (fun y => y.flit.seq == last) with
    | some i => k.replay.drop (i + 1)
    | none => k.replay
  let s1 := s.updPort p (fun k => { k with replay := [], out := [] })
  (s1.updPort r (fun q => { q with hold := false, out := left.map (·.flit) ++ k.out ++ q.out })).pump r 256

/-- HELLO: the answer in IDCHECK moves the port to UP or MISCABLED; one after a retrain or a failover tells what to send
again (15 R436 to R438, R440). -/
def execHello (p : Nat) (w : BitVec 2048) (s : State) : Host.Outcome State Fault Refusal :=
  .next (match s.arriveLink p 2 w with
    | .done s1 => s1
    | .flit s1 y =>
      let b := y.payload
      let id := getLE b 4 4 % 2 ^ 18
      let k := s1.kport p
      if k.state = 3 then
        if s1.helloOk p b then ((s1.updPort p (fun k => { k with state := 4, peer := id, fails := 0, hold := false })).calibrate p).pump p 256
        else (s1.updPort p (fun k => { k with state := 5, peer := id })).log 0x33 0 0x7F 4 p 0 0 (id * 2 ^ 32)
      else if k.backing && k.hold then s1.takeOver p (getLE b 12 2)
      else (s1.updPort p (fun k => k.takeAck (getLE b 12 2))).resend p)

/-- REPLAY_TIMEOUT: a flit unacknowledged for 200 ticks is sent again, with those after it (15 R434). -/
def execReplayTimeout (p : Nat) (s : State) : Host.Outcome State Fault Refusal :=
  .next (let k := s.kport p
    if k.state ≠ 4 ∨ k.hold ∨ k.replay.isEmpty then s else s.resend p)

/-! ### Lanes and ports (15 R436 to R440) -/

/-- A port goes DOWN; its redundant pair takes its traffic over, else what waits is discarded (15 R437). -/
def State.downPort (s : State) (p : Nat) : State :=
  let k := s.kport p
  let s1 := (s.updPort p (fun k => { k with state := 0, lanes := 0, calib := false, hold := false, backing := false })).log 0x31 0 0x7F 4 p 0 0
    (k.lanes.toNat + k.peer * 2 ^ 32)
  let pair := if k.state = 4 ∧ p < 6 then [6, 7].find? (fun r => let q := s.kport r; q.mode == 2 && q.pair == p && q.state == 4 && !q.backing) else none
  match pair with
  | some r => (s1.updPort r (fun q => { q with backing := true, hold := true })).sendLink r 2 (s.helloBody r ((k.rxSeq + 0xFFFF) % 0x10000))
  | none => s1.updPort p (fun k => { k with discard := k.discard + BitVec.ofNat 64 (k.replay.length + k.out.length), replay := [], out := [] })

/-- LANE_FAIL: the port holds and retrains on three lanes; a second lane brings it down (15 R436, R437). -/
def execLaneFail (p l : Nat) (s : State) : Host.Outcome State Fault Refusal :=
  .next (let k := s.kport p
    if k.state ≠ 4 ∨ 4 ≤ l ∨ !k.lanes.getLsbD l then s
    else if k.lanes ≠ 0xF then s.downPort p
    else (s.updPort p (fun k => { k with
      lanes := k.lanes &&& ~~~((1 : BitVec 4) <<< l), hold := true, degrade := k.degrade + 1, calib := false })).log 0x30 0 0x7F 4 p 0 0
        ((k.lanes &&& ~~~((1 : BitVec 4) <<< l)).toNat + k.peer * 2 ^ 32))

/-- LANE_RETRAIN_COMPLETE: a retrain ends: HELLO, calibration anew, everything unacknowledged sent again; the third
failure in a row brings the port down (15 R436, R437). -/
def execLaneRetrainComplete (p : Nat) (ok : Bool) (s : State) : Host.Outcome State Fault Refusal :=
  .next (let k := s.kport p
    if k.state ≠ 4 ∨ !k.hold ∨ k.backing then s
    else if !ok then
      if 2 ≤ k.fails then s.downPort p else s.updPort p (fun k => { k with fails := k.fails + 1 })
    else
      let s1 := (s.updPort p (fun k => { k with hold := false, fails := 0 })).sendLink p 2 (s.helloBody p ((k.rxSeq + 0xFFFF) % 0x10000))
      (((s1.calibrate p).resend p).pump p 256))

/-- PORT_DOWN: signal is lost on every lane (15 R437). -/
def execPortDown (p : Nat) (s : State) : Host.Outcome State Fault Refusal := .next (if (s.kport p).state = 4 then s.downPort p else s)

/-- A write of KRL_PORT_CTL.RETRAIN: a degraded port retrains on all lanes, while no exchange is open (15 R436). -/
def State.krlRetrain (s : State) (p : Nat) : State :=
  let k := s.kport p
  if k.state ≠ 4 ∨ k.hold ∨ k.lanes = 0xF ∨ !s.krl.xchgs.isEmpty then s
  else s.updPort p (fun k => { k with lanes := 0xF, hold := true, calib := false })

/-- RETRAIN: a write of KRL_PORT_CTL.RETRAIN (15 R436, R460). -/
def execRetrain (p : Nat) (s : State) : Host.Outcome State Fault Refusal := .next (s.krlRetrain p)

/-- CABLE_PRESENT: a cable appears or goes: an enabled port goes to CMIS; one that refused its cable starts again with
the next (15 R438). -/
def execCablePresent (p : Nat) (present : Bool) (s : State) : Host.Outcome State Fault Refusal :=
  .next (
    let k := s.kport p
    if s.part.ports ≤ p then s
    else if present then
      s.updPort p (fun k => { k with cable := true, state := if k.enabled ∧ (k.state = 0 ∨ k.state = 6) then 1 else k.state, fails := 0 })
    else
      let s1 := if k.state = 4 then s.downPort p else s.updPort p (fun k => { k with state := 0 })
      s1.updPort p (fun k => { k with cable := false, skew := none }))

/-- The skews of a cable's upper page 0xB0 in ps: 16 bits a lane and direction (15 R439). -/
def skewsOf (b : BitVec 128) : List Int := (List.range 8).map (fun i => sintOf 16 (b.toNat / 2 ^ (16 * i)))

/-- CMIS_READ: the identity memory answers or not, with its revision in tenths, whether it advertises an application the
port can use, its length in metres, and its skews: the port trains, or refuses the cable (15 R438, R439; 23 R690). -/
def execCmisRead (p : Nat) (answers : Bool) (rev : Nat) (app : Bool) (len : Nat) (skew : Option (BitVec 128)) (s : State) :
    Host.Outcome State Fault Refusal :=
  .next (
    if (s.kport p).state ≠ 1 then s
    else if answers && decide (40 ≤ rev) && app && decide (len ≤ 30) then
      s.updPort p (fun k => { k with state := 2, skew := skew.map skewsOf, fails := 0 })
    else (s.updPort p (fun k => { k with state := 6 })).log 0x32 0 0x7F 4 p 0 0 0)

/-- TRAIN_COMPLETE: the lanes are trained and HELLO goes out, or the third failure leaves the port DOWN (15 R438). -/
def execTrainComplete (p : Nat) (ok : Bool) (s : State) : Host.Outcome State Fault Refusal :=
  .next (let k := s.kport p
    if k.state ≠ 2 then s
    else if ok then
      (s.updPort p (fun k => { k with
        state := 3, lanes := 0xF, txSeq := 1, rxSeq := 1, unacked := 0, replay := [], credits := [64, 64, 64, 64], owed := [0, 0, 0, 0], hold := false })).sendLink
          p 2 (s.helloBody p 0)
    else if 2 ≤ k.fails then s.updPort p (fun k => { k with state := 0, fails := 0 })
    else s.updPort p (fun k => { k with fails := k.fails + 1 }))

/-! ### Deadlines (15 R454) -/

/-- ROUND_DEADLINE: CAD_NOW exceeds the deadline of a round of an exchange that is not complete (15 R454). -/
def execRoundDeadline (x : Nat) (s : State) : Host.Outcome State Fault Refusal :=
  .next (match s.xchg x with
    | none => s
    | some y =>
      if (List.range y.rounds).any (fun r => !(y.rnd r).complete && decide (y.deadline r < s.ticks)) then s.failQuery y.f y.qslot 0x0602 else s)

end Sys2Proof.Machine
end

