-- ==== Sys2Proof/Machine/Caps.lean ====
section
/-! DEFINITION. What the device reports of itself: the capability page, DEV_INFO, the health record (01 R13; 16 R481; 18 R533;
23 R691). -/

namespace Sys2Proof.Machine

/-- The slot of image that runs: Keel's or the active one (21 R611). -/
def State.running (s : State) : FwSlot := if s.upd.keel then s.nv.keel else s.nv.slot

/-- The version of a component that runs. -/
def State.compVer (s : State) (i : Nat) : Nat := ((s.running.comps[i]?).getD {}).ver

/-- The number whose bit i is set where i is on. -/
def bitSet (n : Nat) (on : Nat → Bool) : Nat := ((List.range n).filter on).foldl (fun a i => a + 2 ^ i) 0

/-- How many of n units are on. -/
def countOn (n : Nat) (on : Nat → Bool) : Nat := ((List.range n).filter on).length

/-- The slice is enabled (16 R481). -/
def State.sliceOn (s : State) (h : Nat) : Bool := decide (h < s.part.tiles) && !s.slicesOff.contains h

/-- The memory channel is in service: MEM_CTL.ENABLE (11 R331). -/
def State.chanOn (s : State) (c : Nat) : Bool := decide (c < s.part.chans) && (s.chan c).ctl.getLsbD 0

/-- The Krelor port is present and enabled (15 R461; 16 R481). -/
def State.portOn (s : State) (p : Nat) : Bool := decide (p < s.part.ports) && ((s.krl.ports.getD p {}).ctl.getLsbD 0)

/-- The number of the part (16 R481). -/
def Part.number : Part → Nat
  | .aq680 => 0x0680 | .aq660 => 0x0660 | .aq640 => 0x0640

/-- A stop entry (16 R481). -/
def stop (edge pos kind first count : Nat) : Nat := edge + pos * 4 + kind * 256 + first * 65536 + count * 2 ^ 24

/-- The stops of the west and the east edge: memory channels (01 R13). -/
def Part.memStops : Part → List Nat
  | .aq680 => (List.range 8).map (fun r => stop 2 r 1 (8 * (r / 4) + 2 * (r % 4)) 2)
      ++ (List.range 8).map (fun r => stop 3 r 1 (16 + 8 * (r / 4) + 2 * (r % 4)) 2)
  | .aq660 => (List.range 8).map (fun r => stop 2 r 1 r 1) ++ (List.range 8).map (fun r => stop 3 r 1 (8 + r) 1)
  | .aq640 =>
    let rows := [(0, 1), (1, 2), (3, 1), (4, 1), (5, 2), (7, 1)]
    rows.mapIdx (fun r c => stop 2 r 1 c.1 c.2) ++ rows.mapIdx (fun r c => stop 3 r 1 (8 + c.1) c.2)

/-- The stops of the north and the south edge, in the order of 01 R13. -/
def Part.edgeStops : Part → List Nat
  | .aq680 => [stop 0 0 2 0 1, stop 0 1 2 1 1, stop 0 10 2 2 1, stop 0 11 2 3 1, stop 0 2 3 0 8, stop 0 3 4 0 16, stop 0 4 5 0 1, stop 0 5 5 0 1,
      stop 0 6 6 0 1, stop 0 7 7 0 1, stop 0 8 4 16 16, stop 0 9 3 8 8, stop 1 0 2 4 1, stop 1 1 2 5 1, stop 1 10 2 6 1, stop 1 11 2 7 1,
      stop 1 2 8 0 1, stop 1 3 8 1 1, stop 1 8 8 2 1, stop 1 9 8 3 1, stop 1 4 9 0 4, stop 1 5 10 0 1, stop 1 6 10 0 1, stop 1 7 11 0 1]
  | .aq660 => [stop 0 0 2 0 1, stop 0 1 2 1 1, stop 0 6 2 2 1, stop 0 7 2 3 1, stop 0 2 3 0 8, stop 0 2 4 0 16, stop 0 3 5 0 1, stop 0 3 6 0 1,
      stop 0 4 5 0 1, stop 0 4 7 0 1, stop 0 5 4 16 16, stop 0 5 3 8 8, stop 1 0 2 4 1, stop 1 1 2 5 1, stop 1 6 2 6 1, stop 1 7 2 7 1,
      stop 1 2 9 0 4, stop 1 3 10 0 1, stop 1 4 11 0 1]
  | .aq640 => [stop 0 0 3 0 8, stop 0 1 4 0 16, stop 0 2 5 0 1, stop 0 3 5 0 1, stop 0 4 6 0 1, stop 0 5 7 0 1, stop 0 6 4 16 16,
      stop 1 0 9 0 4, stop 1 1 10 0 1, stop 1 2 11 0 1]

/-- The 512 B of the capacity map (16 R481). -/
def State.mapBytes (s : State) : List Byte :=
  (List.range 32).flatMap (fun n => leBytes 8 (s.mem.mapLo.getD n 0).toNat ++ leBytes 8 (s.mem.mapHi.getD n 0).toNat)

/-- The unit masks of 0x020 to 0x04F of the capability page. -/
def State.unitBytes (s : State) : List Byte :=
  leBytes 16 (bitSet 96 s.tileOn) ++ leBytes 16 (bitSet 96 s.sliceOn) ++ leBytes 4 (bitSet 32 s.chanOn)
    ++ leBytes 1 (bitSet 4 (fun m => (s.module m).usable)) ++ leBytes 1 (bitSet 4 s.brmOn) ++ leBytes 2 (bitSet 16 s.cmpOn)
    ++ leBytes 1 (bitSet 8 s.portOn) ++ leBytes 1 (bitSet 2 (fun c => s.cmpDrupe c && s.cmpOn c)) ++ leBytes 1 (bitSet 4 s.dgsOn)
    ++ leBytes 1 (if s.part = .aq680 then 1 else 0) ++ leBytes 4 (bitSet 32 s.dmaOn)

/-- The node field: KRL_NODE[41:0]; 0 without Krelor (16 R481). -/
def State.nodeField (s : State) : Nat := if s.part.ports = 0 then 0 else s.krl.node.toNat % 2 ^ 42

/-- The capability page of a function, bytes 0x000 to 0x5FF (16 R481); what follows reads zero. -/
def State.capPage (s : State) (f : Nat) : List Byte :=
  padTo 0x200 (leBytes 4 0x50414341 ++ leBytes 2 1 ++ leBytes 1 f ++ leBytes 1 (if s.host.pcieOnly then 1 else 0) ++ leBytes 4 s.host.cgen.toNat
    ++ zeros 4 ++ leBytes 8 s.caps ++ leBytes 4 s.part.number ++ leBytes 1 s.part.funcs ++ leBytes 1 (s.part.vbits / 8) ++ leBytes 1 16
    ++ leBytes 1 (if f = 0 then 64 else 16) ++ s.unitBytes ++ leBytes 8 s.memTotal ++ leBytes 8 (allocLen (s.tenant f).alloc)
    ++ leBytes 8 s.nodeField ++ leBytes 4 200 ++ leBytes 4 4000 ++ leBytes 4 60000 ++ zeros 4 ++ leBytes 4 s.runtimeVer ++ leBytes 4 (s.compVer 1))
  ++ padTo 0x200 ((s.part.memStops ++ s.part.edgeStops).flatMap (leBytes 4))
  ++ (if f = 0 then s.mapBytes else zeros 512)

/-- The reply payload of DEV_INFO (18 R533). -/
def State.devInfo (s : State) (f : Nat) : List Byte :=
  leBytes 4 s.part.number ++ leBytes 4 Config.stepping.toNat ++ leBytes 8 Config.serial.toNat ++ leBytes 4 (s.compVer 1) ++ leBytes 4 s.runtimeVer
    ++ leBytes 1 s.nv.lifecycle ++ leBytes 1 (if s.upd.keel then 1 else 0) ++ leBytes 1 (countOn 96 s.tileOn) ++ leBytes 1 (countOn 96 s.sliceOn)
    ++ leBytes 1 (countOn 32 s.chanOn) ++ leBytes 1 (countOn 4 (fun m => (s.module m).usable)) ++ leBytes 1 s.part.funcs ++ zeros 1
    ++ leBytes 8 s.caps ++ leBytes 8 s.memTotal ++ leBytes 4 (s.nodeField % 2 ^ 18) ++ zeros 12 ++ (if f = 0 then s.mapBytes else zeros 512)

/-- The highest tile sensor in degrees Celsius (22 R664). -/
def State.tmax (s : State) : Int :=
  (List.range s.part.tiles).foldl (fun a t => max a (s.tileTemp.getD t 40)) (-128)

/-- The capacity in bytes that modules fitted do not give (11 R308; 23 R676, R688). -/
def State.capLoss (s : State) : Nat :=
  (List.range 4).foldl (fun a m =>
    let k := s.module m
    if !k.present && !k.failed then a else a + (if k.usable then k.gib - s.moduleGib else k.gib) * 2 ^ 30) 0

/-- A counter summed over the channels. -/
def State.sumChans (s : State) (g : Chan → Word) : Nat := (List.range 32).foldl (fun a c => a + (g (s.chan c)).toNat) 0 % 2 ^ 64

/-- The field of a port in HEALTH_REPORT: 0 down or empty, 1 up on 4 lanes, 2 degraded or failed over, 3 refused or miscabled
(23 R691; 15 R438). -/
def State.portHealth (s : State) (p : Nat) : Nat :=
  let k := s.krl.ports.getD p {}
  if s.part.ports ≤ p then 0
  else if k.state = 5 ∨ k.state = 6 then 3
  else if k.backing then 2
  else if k.state = 4 then (if k.lanes = 0xF then 1 else 2)
  else 0

/-- The field of a module: 0 empty, 1 valid, 2 refused, 3 failed in service (23 R691). -/
def Module.health (k : Module) : Nat := if k.failed then 3 else if k.refused ≠ 0 then 2 else if k.present then 1 else 0

/-- The record of HEALTH_REPORT (23 R691). -/
def State.healthBytes (s : State) : List Byte :=
  leBytes 2 (if s.dstate = .recovery then 0x0505 else 0) ++ leBytes 1 (if s.upd.keel then 1 else 0) ++ leBytes 1 s.pw.lmin ++ leBytes 4 s.nv.hours
    ++ leBytes 16 (bitSet 96 s.tileOn) ++ leBytes 16 (bitSet 96 s.sliceOn) ++ leBytes 4 (bitSet 32 s.chanOn)
    ++ leBytes 1 ((List.range 4).foldl (fun a m => a + (s.module m).health * 4 ^ m) 0) ++ zeros 1
    ++ leBytes 2 ((List.range 8).foldl (fun a p => a + s.portHealth p * 4 ^ p) 0)
    ++ leBytes 16 ((List.range 32).foldl (fun a c => a + (s.chan c).dieFail.toNat * 16 ^ c) 0)
    ++ leBytes 8 s.capLoss ++ leBytes 8 (s.sumChans (·.ce)) ++ leBytes 8 (s.sumChans (·.ue)) ++ leBytes 8 (s.sumChans (·.rebuilds))
    ++ leBytes 4 s.rel.fenceCount ++ leBytes 1 (wrapInt 8 s.tmax) ++ leBytes 1 s.cad.state
    ++ leBytes 2 (s.rel.phases.foldl (fun a p => a + p.2) 0) ++ leBytes 8 s.errlog.nextSeq

end Sys2Proof.Machine
end

