-- ==== Sys2Proof/Machine/Entry.lean ====
section
/-! DEFINITION. Submission entries: their fields, their checks in order, fragment tables, admission (17 R487, R488, R497 to
R509; 20 R586, R587, R601). -/

namespace Sys2Proof.Machine

/-! ### Use and admission (20 R586, R587; 04 R120) -/

/-- U_t in 1/16 tile (20 R586). -/
def Tenant.useTiles (x : Tenant) : Nat := (x.usage.hist.foldl (fun a p => a + p.1) 0) * 16 / x.ent.window

/-- U_b in 1/256 of 1,228.8 GB/s, which is 12,288 B a tick (20 R586). -/
def Tenant.useBytes (x : Tenant) : Nat := (x.usage.hist.foldl (fun a p => a + p.2) 0) * 256 / (x.ent.window * 12288)

/-- Both uses lie below the guarantees (20 R587, R588). -/
def Tenant.underGuar (x : Tenant) : Bool := decide (x.useTiles < 16 * x.ent.tileGuar) && decide (x.useBytes < x.ent.bwGuar)

/-- Queries of a tenant that are resident: admitted, and their completion not yet written (04 R120; 20 R588). -/
def State.resident (s : State) (f : Nat) : Nat :=
  (s.works.filter (fun p => p.2.f == f && p.2.isRun)).length
    + (s.tenant f).pairs.foldl (fun a p => p.2.waiting.foldl (fun a k => a + k.runs.length) a) 0

/-- Delayed commands of a tenant, oldest first (20 R588). -/
def State.delayedOf (s : State) (f : Nat) : Tab Work := s.works.filter (fun p => p.2.f == f && p.2.stage == .delayed)

/-- The disposition that admission gives a command (20 R587). -/
def State.disposition (s : State) (f : Nat) (query : Bool) : Nat :=
  let x := s.tenant f
  if (query && decide (x.ent.queries ≤ s.resident f)) || decide (16 * x.ent.tileBurst ≤ x.useTiles) || decide (x.ent.bwBurst ≤ x.useBytes) then 2
  else if (query && decide (256 ≤ (List.range 64).foldl (fun a g => a + s.resident g) 0))
      || decide (1024 ≤ (s.works.filter (fun p => p.2.stage == .delayed)).length) then 3
  else if (s.delayedOf f).isEmpty && x.underGuar then 0
  else if x.ent.delayMax = 0 then 3
  else 1

/-- Counts a disposition of the admission stage (20 R606). -/
def State.countDisp (s : State) (f d : Nat) : State :=
  s.updTenant f (fun x => match d with
    | 0 => { x with served := x.served + 1 }
    | 1 => { x with delayed := x.delayed + 1 }
    | 2 => { x with refQuota := x.refQuota + 1 }
    | _ => { x with refCap := x.refCap + 1 })

/-! ### Fields (17 R487, R501 to R509) -/

/-- A field of an entry. -/
def Work.fld (w : Work) (o n : Nat) : Nat := getLE w.raw o n

/-- The fields that a command lists, offset and length; the rest of bytes 0x08 to 0x3F is reserved (17 R501). -/
def cmdFields : Nat → List (Nat × Nat)
  | 1 => [(8, 1), (0x0A, 2), (0x10, 24)]
  | 2 => [(8, 1), (0x0A, 2)]
  | 3 | 4 => [(8, 18), (0x1C, 23), (0x34, 8)]
  | 5 => [(8, 4), (0x10, 28), (0x30, 8)]
  | 7 => [(8, 24)]
  | 8 | 9 => [(8, 6), (0x10, 48)]
  | 0x0A => [(8, 4), (0x10, 24)]
  | _ => []

/-- Step 2: every reserved field is zero (17 R487, R501; 00 R7). -/
def Work.reservedOk (w : Work) : Bool :=
  let fs := cmdFields w.opcode
  w.flags / 32 == 0 && w.fld 3 1 % 128 == 0 && w.fld 7 1 == 0 && (if w.opcode = 1 then w.prio / 8 == 0 else w.prio == 0)
    && ((List.range 56).map (· + 8)).all (fun i => fs.any (fun p => decide (p.1 ≤ i ∧ i < p.1 + p.2)) || w.fld i 1 == 0)
    && (match w.opcode with
      | 3 | 4 => w.fld 0x32 1 / 16 == 0
      | 8 | 9 => w.fld 0x0A 1 / 16 == 0 && w.fld 0x0A 1 / 2 % 4 == 0
      | 0x0A => w.fld 9 1 / 2 == 0
      | _ => true)

/-- CREATE, NO_BASE, SEALED_ONLY and DROP of a column command (17 R504). -/
def Work.create (w : Work) : Bool := w.opcode == 4 && w.fld 0x32 1 % 2 == 1
def Work.drop (w : Work) : Bool := w.opcode == 3 && w.fld 0x32 1 / 8 % 2 == 1

/-- NROWS and ROW_START of a column command (17 R504, R506). -/
def Work.nrows (w : Work) : Nat := if w.opcode = 5 then w.fld 0x28 4 else w.fld 0x1C 4
def Work.rowStart (w : Work) : Nat := w.fld 0x20 8
def Work.obj (w : Work) : Nat := w.fld 8 4
def Work.srcType (w : Work) : Nat := w.fld 0x0C 1

/-- The null bitmap's address of a column command; 0 for none. -/
def Work.nullAddr (w : Work) : Nat := if w.opcode = 5 then w.fld 0x30 8 else w.fld 0x28 8

/-- The descriptor that a CREATE describes (17 R504, R505). -/
def Work.newObj (w : Work) : ObjDesc :=
  { objId := w.obj, nplanes := w.fld 0x30 1, xform := w.fld 0x31 1, scale := w.fld 0x0D 1, flags := w.fld 0x32 1 / 2 % 4, rows := 0,
    segTable := 0, segCap := w.fld 0x38 4, segCount := 0, dictId := w.fld 0x34 4 }

/-- The job descriptor that the ring engine builds (17 R508). -/
def Work.cmpDesc (w : Work) (event : Nat) : CmpDesc :=
  { op := w.opcode - 8, method := w.fld 8 1, level := w.fld 9 1, dflags := w.fld 0x0A 1 + 2, ew := w.fld 0x0B 1, event,
    inAddr := w.fld 0x10 8, inLen := w.fld 0x18 8, uDecl := w.fld 0x28 8, chain := w.fld 0x20 8, nchain := w.fld 0x0C 2,
    status := w.fld 0x38 8, ctx := w.fld 0x30 8 }

/-- The declared length of a side: 0 the source, 1 the destination (17 R501). -/
def Work.declared (w : Work) (side : Nat) : Nat :=
  match w.opcode, side with
  | 3, 0 | 4, 0 => if w.nrows = 0 ∨ w.drop then 0 else (w.nrows - 1) * w.fld 0x0E 2 + w.fld 0x18 2 + srcSize w.srcType
  | 5, 1 => w.fld 0x18 8
  | 7, _ => w.fld 0x18 8
  | 0x0A, 0 => w.fld 0x18 8
  | _, _ => 0

/-- The address of a side that may name a fragment table. -/
def Work.sideAddr (w : Work) (side : Nat) : Nat :=
  match w.opcode, side with
  | 7, 0 => w.fld 8 8
  | _, _ => w.fld 0x10 8

/-- The sides that have an address: source, destination. -/
def Work.sides (w : Work) : List Nat :=
  match w.opcode with
  | 3 | 4 => if w.drop then [] else [0]
  | 5 => [1]
  | 7 => [0, 1]
  | 0x0A => [0]
  | _ => []

/-- Step 1: the opcode is defined and the flags may stand together (17 R488, R501). -/
def Work.shapeOk (w : Work) : Bool :=
  decide (w.opcode ≤ 0x0A) && !(w.batch && w.nocpl) && (!w.ind || [3, 4, 5, 7, 0x0A].contains w.opcode)

/-- Step 4: the units that a command would run on (17 R498; 00 R3). -/
def State.unitsOk (s : State) (w : Work) : Bool :=
  match w.opcode with
  | 7 => (List.range 32).any s.dmaOn
  | 8 | 9 => if w.fld 8 1 = 1 then (List.range 2).any (fun c => s.cmpOn c && s.cmpDrupe c) else (List.range 16).any s.cmpOn
  | 0x0A => (List.range 4).any s.dgsOn
  | _ => true

/-- The field ranges of a column write or append (17 R504; 02 R34, R36). -/
def Work.colFieldsOk (w : Work) : Bool :=
  let of_ := w.fld 0x32 1
  let ty := w.srcType
  decide (w.obj < 65536) && decide (ty ≤ 0x0B) && (decide (0x0A ≤ ty) || w.fld 0x0D 1 == 0)
    && decide (1 ≤ w.fld 0x0E 2 ∧ w.fld 0x0E 2 ≤ 4096) && decide (w.fld 0x18 2 + srcSize ty ≤ w.fld 0x0E 2)
    && (decide (1 ≤ w.nrows) || w.drop) && (w.opcode == 3 || w.rowStart == 0)
    && (of_ % 2 == 0 || w.opcode == 4) && (of_ / 8 == 0 || w.opcode == 3)
    && (if w.create then
          decide (1 ≤ w.fld 0x30 1 ∧ w.fld 0x30 1 ≤ 16) && xformOk (w.fld 0x31 1) (4 * w.fld 0x30 1) (if w.fld 0x31 1 = 3 then w.fld 0x0D 1 else 0)
            && decide (1 ≤ w.fld 0x38 4 ∧ w.fld 0x38 4 ≤ 65536)
        else w.fld 0x30 1 == 0 && w.fld 0x31 1 == 0 && w.fld 0x38 4 == 0)

/-- Step 5: the status of the first field out of its range or alignment (17 R498 to R509; 19 R557). -/
def State.fieldsBad (s : State) (w : Work) : Option Nat :=
  let ok : Bool := match w.opcode with
    | 1 =>
      let pl := w.fld 0x0A 2
      let pa := w.fld 0x10 8
      let sa := w.fld 0x18 8
      let sl := w.fld 0x20 8
      decide (w.fld 8 1 ≤ 63) && pl % 8 == 0 && decide (pl ≤ 4096) && pa % 8 == 0 && (pl != 0 || pa == 0) && sa % 4096 == 0
        && sl % 4096 == 0 && (sa != 0 || sl == 0) && (sa == 0 || sa / 2 ^ 56 == 1)
    | 2 => decide (w.fld 8 1 ≤ 15)
    | 3 | 4 => w.colFieldsOk
    | 5 => decide (w.obj < 65536) && decide (1 ≤ w.nrows)
    | 7 => decide (1 ≤ w.fld 0x18 8 ∧ w.fld 0x18 8 ≤ 2 ^ 40)
    | 8 | 9 => (w.cmpDesc 0).shapeOk
    | 0x0A =>
      let derive := w.fld 9 1 % 2 == 1
      decide (w.fld 8 1 ≤ 1) && (if w.fld 8 1 = 1 then decide (w.fld 0x0A 1 < 64) else w.fld 0x0A 1 == 0)
        && (if derive then decide (w.fld 0x0B 1 < 64) && w.fld 0x20 8 == 0 else w.fld 0x0B 1 == 0 && w.fld 0x20 8 % 32 == 0)
        && w.fld 0x18 8 % 64 == 0 && decide (64 ≤ w.fld 0x18 8 ∧ w.fld 0x18 8 ≤ 2 ^ 48)
    | _ => true
  if !ok || (w.ind && w.sides.any (fun i => w.sideAddr i % 16 != 0)) then some 0x0101
  else if w.opcode = 5 then match s.readObj w.f w.obj with
    | .ok d => if w.fld 0x18 8 < w.nrows * (fieldWidth d.width / 8) then some 0x0308 else none
    | _ => none
  else none

/-! ### Fragment tables (17 R499, R500) -/

/-- An entry of a fragment table: address, length, END, whether its reserved fields are zero. -/
structure Frag where
  addr : Nat
  len : Nat
  last : Bool
  clean : Bool
  deriving DecidableEq, Repr

/-- Reads a table up to its END; the first argument bounds the entries. -/
def State.fragTable (s : State) : Nat → Nat → List Frag
  | 0, _ => []
  | k + 1, a =>
    let b := (s.readBytes a 16).1
    let e : Frag := { addr := getLE b 0 8, len := getLE b 8 4, last := getLE b 12 1 % 2 == 1,
                      clean := getLE b 12 1 / 2 == 0 && getLE b 13 3 == 0 }
    if e.last then [e] else e :: s.fragTable k (a + 16)

/-- The fragments of a side: what its table lists, or the one range. -/
def State.fragsOf (s : State) (w : Work) (side : Nat) : List Frag :=
  if w.ind then s.fragTable 4096 (w.sideAddr side)
  else if w.declared side = 0 then [] else [{ addr := w.sideAddr side, len := w.declared side, last := true, clean := true }]

/-- The first n bytes of a list of ranges (17 R500). -/
def firstBytes : List (Nat × Nat) → Nat → List (Nat × Nat)
  | [], _ => []
  | (a, l) :: r, n => if n = 0 then [] else (a, min l n) :: firstBytes r (n - min l n)

/-- The part of a list of ranges from byte o on. -/
def fromByte : List (Nat × Nat) → Nat → List (Nat × Nat)
  | [], _ => []
  | (a, l) :: r, o => if o < l then (a + o, l - o) :: r else fromByte r (o - l)

/-- Step 6: every named range passes the region check, R for sources and W for destinations, and sources do not overlap
destinations (17 R498; 06 R159). -/
def State.regionsOk (s : State) (w : Work) (src dst : List Frag) : Bool :=
  let f := w.f
  let ok (a n need : Nat) : Bool := s.rangeOk f a n need
  let opt (a n need : Nat) : Bool := a == 0 || s.rangeOk f a n need
  let frags (l : List Frag) (side need : Nat) : Bool :=
    (!w.ind || l.isEmpty || ok (w.sideAddr side) (16 * l.length) 1) && l.all (fun e => ok e.addr e.len need)
  let rs (l : List Frag) (side : Nat) : List (Nat × Nat) := firstBytes (l.map (fun e => (e.addr, e.len))) (w.declared side)
  let nb := (w.nrows + 7) / 8
  match w.opcode with
  | 1 => ok (w.fld 0x10 8) (w.fld 0x0A 2) 1 && opt (w.fld 0x18 8) (w.fld 0x20 8) 3
  | 3 | 4 => w.drop || (frags src 0 1 && opt w.nullAddr nb 1)
  | 5 => frags dst 1 2 && opt w.nullAddr nb 2
  | 7 => frags src 0 1 && frags dst 1 2 && !(rs src 0).any (fun p => (rs dst 1).any (overlaps p))
  | 8 | 9 =>
    let d := w.cmpDesc 0
    let outs := (if d.ctx = 0 then [] else [(d.ctx, 40960)]) ++ (if d.status = 0 then [] else [(d.status, 32)])
    ok d.inAddr d.inLen 1 && ok d.chain (16 * d.nchain) 1 && opt d.ctx 40960 (if d.resume then 3 else 2) && opt d.status 32 2
      && !(d.inLen != 0 && outs.any (overlaps (d.inAddr, d.inLen)))
  | 0x0A => frags src 0 1 && (w.fld 9 1 % 2 == 1 || (ok (w.fld 0x20 8) 32 2 && !(rs src 0).any (overlaps (w.fld 0x20 8, 32))))
  | _ => true

/-- Step 7 for one side: INVALID_COMMAND for a malformed table, LENGTH_SHORT for a short one (17 R499, R500). -/
def fragBad (w : Work) (side : Nat) (l : List Frag) : Option Nat :=
  if !w.ind || !w.sides.contains side then none
  else if !(l.any (·.last)) || l.any (fun e => e.len == 0 || !e.clean) then some 0x0101
  else if l.foldl (fun a e => a + e.len) 0 < w.declared side then some 0x0107
  else none

/-! ### The QUERY_RUN entry (17 R498, R502; 04 R99, R713) -/

/-- Step 9 for a QUERY_RUN against its image's bytes and its own parameter block (04 R99, R713). -/
def queryBad (img pb : List Byte) : Option Nat :=
  if pb.length ≠ imgPBytes img then some 0x0106
  else
    let ops := imgOps img
    let mine := (ops.mapIdx (fun i o => (i, o))).filter (fun p => decide (p.2.poff < imgPBytes img) && p.2.plen != 0)
    let nin (i : Nat) : Nat := let o := imgOp img i; if o.in0 = 0xFFFF then 0 else (imgOp img o.in0).nout
    if mine.any (fun p => paramReserved p.2 (imgParam img pb p.2)) then some 0x0102
    else if !mine.all (fun p => paramOk p.2 (nin p.1) (imgParam img pb p.2)
        && paramTypes p.2 (if p.2.in0 = 0xFFFF then [] else imgSchemaAt img p.2.in0) (imgParam img pb p.2)) then some 0x0101
    else none

/-- The checks of an entry up to step 9, a column command's steps 8 and 9 apart: the status and disposition of the first
that fails (17 R498). -/
def State.entryBad (s : State) (w : Work) (src dst : List Frag) (pb : List Byte) : Option (Nat × Nat) :=
  let x := s.tenant w.f
  if !w.shapeOk then some (0x0101, 5)
  else if !w.reservedOk then some (0x0102, 5)
  else if w.gen ≠ (if x.ent.compat then x.gen.toNat else 0) then some (0x0101, 5)
  else if !s.unitsOk w then some (0x0103, 5)
  else match s.fieldsBad w with
  | some c => some (c, 5)
  | none =>
    if !s.regionsOk w src dst then some (0x0105, 5)
    else match fragBad w 0 src, fragBad w 1 dst with
    | some c, _ => some (c, 5)
    | none, some c => some (c, 5)
    | none, none =>
      if w.opcode ≠ 1 then none
      else match x.images.find? (w.fld 8 1) with
        | none => some (0x0203, 4)
        | some i => (queryBad i.raw pb).map (fun c => (c, 5))

end Sys2Proof.Machine
end

