-- ==== Sys2Proof/Machine/Rings.lean ====
section
/-! DEFINITION. The ring engine: doorbells, fetch, the order of commands, starts after a delay, completions (17 R486 to
R496, R510 to R513; 20 R588). -/

namespace Sys2Proof.Machine

/-! ### Leaving ACTIVE (17 R486, R496) -/

/-- A pair leaves ACTIVE: its state, and its open batch is closed (17 R496). -/
def State.leaveActive (s : State) (f q : Nat) (st : QState) : State :=
  (s.updPair f q (fun x => { x with state := st, recheck := false })).closeBatch f q

/-- ATTN is set and vector 0 signalled (18 R522). -/
def State.attn (s : State) (f : Nat) : State :=
  ({ s with mboxes := s.mboxes.upd f {} (fun m => { m with attn := true }) }).signal f 0

/-- A pair enters an error state (17 R486; 18 R522). -/
def State.pairError (s : State) (f q : Nat) (st : QState) : State := (s.leaveActive f q st).attn f

/-! ### Doorbell and fetch (17 R490, R491) -/

/-- DOORBELL: a driver's write of a producer count (16 R479; 17 R486, R490, R491, R494). -/
def execDoorbell (f q : Nat) (p : BitVec 32) (s : State) : Host.Outcome State Fault Refusal :=
  .next (
    let ignored (s : State) : State := s.updTenant f (fun x => { x with doorIgnored := x.doorIgnored + 1 })
    match s.pair f q with
    | none => ignored s
    | some x =>
      let s1 := s.drainCompletions f q 256
      if x.state != .active || x.deleting.isSome then ignored s1
      else
        let pc : BitVec 16 := p.setWidth 16
        let d := (pc - x.c).toNat
        if x.sqN < d then s1.pairError f q .errorDoorbell
        else s1.updPair f q (fun x => { x with p := pc }))

/-- The slot at c of a pair. -/
def QPair.slotAddr (x : QPair) : Nat := x.sqBase + 64 * (x.c.toNat % x.sqN)

/-- An entry joins the open batch, and closes it with BATCH or as its 4,096th member (17 R488, R496). -/
def State.joinBatch (s : State) (f q w : Nat) (x : Work) : State :=
  if !x.batch && !x.nocpl then s
  else
    let s1 := s.updPair f q (fun y => { y with batch := y.batch ++ [w] })
    if x.batch || decide (4096 ≤ ((s1.pair f q).map (fun y => y.batch.length)).getD 0) then s1.closeBatch f q else s1

/-- Takes the entry of a snapshot: OWN is cleared and c advances; an entry of the generation before is consumed; the
others are checked and, past the checks, go to admission (17 R490, R492, R498; 20 R587, R601). -/
def State.takeEntry (s : State) (f q : Nat) (x : QPair) (raw : List Byte) : State :=
  let t := s.tenant f
  let w0 : Work := { f, q, raw, tick := s.ticks }
  let src := if w0.sides.contains 0 then s.fragsOf w0 0 else []
  let dst := if w0.sides.contains 1 then s.fragsOf w0 1 else []
  let plen := if w0.opcode = 1 ∧ s.rangeOk f (w0.fld 0x10 8) (w0.fld 0x0A 2) 1 then w0.fld 0x0A 2 else 0
  let pb := (s.readBytes (w0.fld 0x10 8) plen).1
  let bad := s.entryBad w0 src dst pb
  let s1 := (s.writeBytes f (x.slotAddr + 3) (leBytes 1 (getLE raw 3 1 % 128))).updPair f q (fun y => { y with c := y.c + 1, recheck := false })
  if t.ent.compat && w0.gen == (t.gen - 1).toNat then s1.updTenant f (fun y => { y with genDiscard := y.genDiscard + 1 })
  else
    let long (i : Nat) (l : List Frag) : Bool := w0.ind && decide (w0.declared i < l.foldl (fun a e => a + e.len) 0)
    let id := s1.nextWork
    let w1 : Work := { w0 with
      param := pb, src := firstBytes (src.map (fun e => (e.addr, e.len))) (w0.declared 0),
      dst := firstBytes (dst.map (fun e => (e.addr, e.len))) (w0.declared 1), long := bad.isNone && (long 0 src || long 1 dst) }
    let free_ := w0.opcode = 0 ∨ w0.opcode = 2 ∨ w0.opcode = 6
    let disp := match bad with | some (_, d) => d | none => if free_ then 0 else s1.disposition f (w0.opcode == 1)
    let w2 : Work := { w1 with disp, stage := if disp = 1 then .delayed else .ready }
    let s2 := ({ s1 with works := s1.works.set id w2, nextWork := id + 1 }).joinBatch f q id w2
    let s3 := if bad.isNone && !free_ then s2.countDisp f disp else s2
    match bad with
    | some (c, _) => s3.workDone id { status := c }
    | none => if disp = 2 then s3.workDone id { status := 0x0201 } else if disp = 3 then s3.workDone id { status := 0x0202 } else s3

/-- The device fetches from the pair: ACTIVE, entries announced, fewer than 256 completions waiting (17 R490, R494). -/
def QPair.fetches (x : QPair) : Bool :=
  x.state == .active && x.deleting.isNone && x.c != x.p && decide (x.waiting.length < 256)

/-- SUBMISSION_FETCH: the ring engine reads the slot at c and takes its entry, or will look at it again (17 R490). -/
def execSubmissionFetch (f q : Nat) (s : State) : Host.Outcome State Fault Refusal :=
  .next (match s.pair f q with
    | none => s
    | some x =>
      if !x.fetches || x.recheck then s
      else
        let raw := (s.readBytes x.slotAddr 64).1
        if getLE raw 3 1 < 128 then s.updPair f q (fun y => { y with recheck := true })
        else s.takeEntry f q x raw)

/-- OWN_RECHECK: 10 ticks later the slot is read once more (17 R490). -/
def execOwnRecheck (f q : Nat) (s : State) : Host.Outcome State Fault Refusal :=
  .next (match s.pair f q with
    | none => s
    | some x =>
      if !x.recheck || x.state != .active then s
      else
        let raw := (s.readBytes x.slotAddr 64).1
        if getLE raw 3 1 < 128 then s.pairError f q .errorOwn
        else s.takeEntry f q x raw)

/-! ### The order of a queue's commands (17 R511 to R513) -/

/-- The column units that a column command touches, with whether it writes and whether it takes the whole object:
an append, a DROP, an object whose width cannot be read (17 R513; 02 R41). -/
def State.units (s : State) (w : Work) : Nat × Nat × Bool × Bool :=
  let n := match s.readObj w.f w.obj with | .ok d => some d.nplanes | _ => none
  match n with
  | some n =>
    if w.opcode = 4 ∨ w.drop then (0, 0, true, true)
    else (w.rowStart * n / 128, (w.rowStart + max 1 w.nrows - 1) * n / 128, w.opcode == 3, false)
  | none => (0, 0, w.opcode != 5, true)

/-- A column command. -/
def Work.isCol (w : Work) : Bool := w.opcode == 3 || w.opcode == 4 || w.opcode == 5

/-- Two column commands of one queue conflict (17 R513). -/
def State.conflict (s : State) (v w : Work) : Bool :=
  v.isCol && w.isCol && v.obj == w.obj
    && (let a := s.units v
        let b := s.units w
        (a.2.2.1 || b.2.2.1) && (a.2.2.2 || b.2.2.2 || (decide (a.1 ≤ b.2.1) && decide (b.1 ≤ a.2.1))))

/-- A command may start: it is admitted and not delayed, and no earlier command of its queue holds it back (17 R511 to
R513). -/
def State.mayStart (s : State) (id : Nat) (w : Work) : Bool :=
  w.stage == .ready && s.works.all (fun p =>
    !(decide (p.1 < id) && p.2.f == w.f && p.2.q == w.q && p.2.result.isNone)
      || !(w.ordered || p.2.ordered || w.opcode == 6 || s.conflict p.2 w))

/-- Runs a step of the command with a key when its opcode is the given one and it runs or may start. -/
def State.onWork (s : State) (id op : Nat) (g : Work → State) : State :=
  match s.works.find? id with
  | none => s
  | some w => if w.opcode = op ∧ (w.stage = .running ∨ s.mayStart id w) then g w else s

/-- The command runs. -/
def State.runWork (s : State) (id : Nat) : State := s.updWork id (fun w => { w with stage := .running })

/-! ### Delayed commands (20 R588) -/

/-- Some tile has idled in WAITTASK for 1,000 ticks in which no tenant had a ready task (20 R588). -/
def State.deviceIdle (s : State) : Bool :=
  decide (s.lastReady + 1000 ≤ s.ticks) && !s.tenants.any (fun p => s.hasReady p.1)
    && s.tiles.any (fun p => p.2.core.wait.isSome && (match p.2.bind.idleSince with | some k => decide (k + 1000 ≤ s.ticks) | none => false))

/-- DELAYED_START: the head of a tenant's delayed commands starts (20 R588). -/
def execDelayedStart (f : Nat) (s : State) : Host.Outcome State Fault Refusal :=
  .next (match s.delayedOf f with
    | [] => s
    | (id, _) :: _ =>
      if (s.tenant f).underGuar || s.deviceIdle then s.updWork id (fun w => { w with stage := .ready, qtime := s.ticks - w.tick })
      else s)

/-- DELAY_TIMEOUT: the head of a tenant's delayed commands has waited DELAY_MAX ticks (20 R588). -/
def execDelayTimeout (f : Nat) (s : State) : Host.Outcome State Fault Refusal :=
  .next (match s.delayedOf f with
    | [] => s
    | (id, _) :: _ => ((s.updWork id (fun w => { w with disp := 3, qtime := 0 })).countDisp f 3).workDone id { status := 0x0202 })

/-! ### Completions and their messages (17 R494, R495; 16 R483) -/

/-- COMPLETION_WRITE: the oldest waiting completion goes to its slot when the slot belongs to the device (17 R494). -/
def execCompletionWrite (f q : Nat) (s : State) : Host.Outcome State Fault Refusal := .next (s.writeCompletion f q)

/-- COMPLETION_RECHECK: the waiting completions look at their slots again (17 R494). -/
def execCompletionRecheck (f q : Nat) (s : State) : Host.Outcome State Fault Refusal := .next (s.drainCompletions f q 256)

/-- COALESCE_EXPIRY: the interval ends, and a message it held back goes out (17 R495). -/
def execCoalesceExpiry (f q : Nat) (s : State) : Host.Outcome State Fault Refusal :=
  .next (match s.pair f q with
    | some x => if x.msgHeld then (s.updPair f q (fun x => { x with msgHeld := false, lastMsg := some s.ticks })).signal f x.vector else s
    | none => s)

/-- Sends once every message of a function whose PBA bit is set and that nothing masks any more (16 R483). -/
def State.sendUnmasked (s : State) (f : Nat) : State :=
  let due := s.host.pba.filter (fun k => k / 64 == f && s.host.unmasked.contains k && s.host.fnUnmasked.contains f)
  { s with host := { s.host with pba := s.host.pba.filter (fun k => !due.contains k), sent := due ++ s.host.sent } }

/-- MSIX_UNMASK: a vector is unmasked, number 64 standing for the function's own mask (16 R483). -/
def execMsixUnmask (f v : Nat) (s : State) : Host.Outcome State Fault Refusal :=
  .next (
    let h := s.host
    let s1 : State := if v < 64 then
        { s with host := { h with unmasked := if h.unmasked.contains (f * 64 + v) then h.unmasked else (f * 64 + v) :: h.unmasked } }
      else { s with host := { h with fnUnmasked := if h.fnUnmasked.contains f then h.fnUnmasked else f :: h.fnUnmasked } }
    s1.sendUnmasked f)

end Sys2Proof.Machine
end

