-- ==== Sys2Proof/Machine/RingCmds.lean ====
section
/-! DEFINITION. The ring commands: what each does once it starts (17 R501 to R513; 02 R23 to R49; 19 R565). -/

namespace Sys2Proof.Machine

/-- NOP completes (17 R501). -/
def execNop (w : Nat) (s : State) : Host.Outcome State Fault Refusal := .next (s.onWork w 0 (fun _ => s.workDone w { status := 0 }))

/-- FLUSH completes after every command fetched before it (17 R512). -/
def execFlush (w : Nat) (s : State) : Host.Outcome State Fault Refusal := .next (s.onWork w 6 (fun _ => s.workDone w { status := 0 }))

/-! ### Queries (17 R502, R503; 04 R99, R105, R116) -/

/-- The lowest resident slot of a tenant that no query has and no spill ring names (08 R237). -/
def State.freeQslot (s : State) (f : Nat) : Option Nat :=
  (List.range 32).find? (fun q => ((s.tenant f).queries.find? q).isNone && (s.disp f).spill.all (fun p => p.2.all (fun e => e.qslot != q)))

/-- A query becomes resident: its parameter copy and breaker-result directory are placed, and its ready pipelines expand;
with no room it ends MEMORY_EXHAUSTED (04 R99, R105, R116). -/
def State.startQuery (s : State) (id : Nat) (w : Work) : State :=
  let f := w.f
  match s.freeQslot f with
  | none => s
  | some q =>
    let s0 := s.runWork id
    let x := s.tenant f
    let raw := ((x.images.find? (w.fld 8 1)).map (·.raw)).getD []
    let n := w.param.length
    match (if n = 0 then some (0, s0) else s0.place f n 64) with
    | none => s0.workDone id { status := 0x0307 }
    | some (pa, s1) => match s1.place f (64 * max 1 ((imgOps raw).filter OpRec.breaker).length) 64 with
      | none => (if n = 0 then s1 else s1.unplace f pa).workDone id { status := 0x0307 }
      | some (qa, s2) =>
        let y : Query := {
          qseq := x.nextQ, image := w.fld 8 1, prio := w.prio % 8, work := id, param := pa, pbytes := w.param, qstate := qa,
          spillAddr := w.fld 0x18 8, spillLen := w.fld 0x20 8, locals := if n = 0 then [qa] else [qa, pa] }
        let s3 := (s2.writeBytes f pa w.param).updTenant f (fun t => { t with queries := t.queries ++ [(q, y)], nextQ := (t.nextQ + 1) % 65536 })
        s3.queryPass f q 0

/-- QUERY_RUN makes its query resident (17 R502; 04 R116). -/
def execQueryRun (w : Nat) (s : State) : Host.Outcome State Fault Refusal :=
  .next (s.onWork w 1 (fun x => if x.stage = .running then s else s.startQuery w x))

/-- The slot of the query that a command runs. -/
def State.querySlot (s : State) (f id : Nat) : Option Nat :=
  (List.find? (fun (p : Nat × Query) => p.2.work == id) (s.tenant f).queries).map (·.1)

/-- A resident query is cancelled, whether it runs, waits its turn or is delayed (17 R503; 20 R588, R594). -/
def State.cancelQuery (s : State) (id : Nat) (w : Work) : State :=
  match s.querySlot w.f id with
  | some q => s.failQuery w.f q 0x0301
  | none => (s.updWork id (fun x => { x with qtime := if x.stage = .delayed then 0 else x.qtime })).workDone id { status := 0x0301 }

/-- A command is an admitted QUERY_RUN whose query has neither failed nor ended (17 R503). -/
def State.cancellable (s : State) (id : Nat) (w : Work) : Bool :=
  w.isRun && w.result.isNone && (match s.querySlot w.f id with
    | some q => (s.query w.f q).failed.isNone
    | none => true)

/-- Two commands lie in one batch, open or closed, of a pair (17 R496). -/
def State.sameBatch (s : State) (f q a b : Nat) : Bool :=
  match s.pair f q with
  | some x => (x.batch :: x.batches).any (fun l => l.contains a && l.contains b)
  | none => false

/-- QUERY_CANCEL cancels the queries of a queue that carry a tag, and completes after them (17 R503; log 33). -/
def execQueryCancel (w : Nat) (s : State) : Host.Outcome State Fault Refusal :=
  .next (s.onWork w 2 (fun x =>
    if x.stage = .running then s
    else
      let hit := s.works.filter (fun p => p.2.f == x.f && p.2.q == x.fld 8 1 && p.2.tag == x.fld 0x0A 2 && s.cancellable p.1 p.2)
      let wait := (hit.filter (fun p => !p.2.silent && !s.sameBatch x.f x.q p.1 w)).map (·.1)
      let s1 := (s.runWork w).updWork w (fun y => { y with waitOn := wait, cancelled := hit.length })
      (hit.foldl (fun (s : State) p => s.cancelQuery p.1 p.2) s1).settleCancels s.works.length))

/-! ### Column commands (17 R504 to R506; 02 R43 to R49) -/

/-- The checks of steps 8 and 9 when a column command starts (17 R498, R505, R506; 02 R38, R711). -/
def State.colBad (s : State) (w : Work) : Option (Nat × Nat) :=
  let suits (d : ObjDesc) : Option (Nat × Nat) :=
    if srcSuits w.srcType (w.fld 0x0D 1) d && w.fld 0x34 4 == d.dictId then none else some (0x010B, 5)
  match s.readObj w.f w.obj with
  | .poisoned => if w.drop then none else some (0x0401, 5)
  | .bad _ => some (0x0402, 5)
  | .absent => if w.create then suits w.newObj else some (0x0203, 4)
  | .ok d =>
    if w.create then some (0x0203, 4)
    else if w.drop then none
    else if w.opcode = 4 then (if d.sealedOnly then some (0x0203, 4) else suits d)
    else if d.rows < w.rowStart + w.nrows then some (0x0203, 4)
    else if w.opcode = 5 then (if w.fld 0x18 8 < w.nrows * (fieldWidth d.width / 8) then some (0x0308, 5) else none)
    else suits d

/-- The descriptor a column command works on; the one a CREATE writes first, with its segment table placed and zero
(17 R505; 02 R39). -/
def State.colOpen (s : State) (w : Work) : State × Option ObjDesc :=
  match s.readObj w.f w.obj with
  | .ok d => (s, some d)
  | _ =>
    if !w.create then (s, none)
    else
      let d := w.newObj
      match s.place w.f (8 * d.segCap) 64 with
      | none => (s, none)
      | some (a, s1) =>
        let d1 := { d with segTable := a }
        ((s1.writeBytes w.f a (zeros (8 * d.segCap))).putObj w.f d1, some d1)

/-- n bytes from byte o of a list of ranges, and whether a line of them is Blot. -/
def State.gather (s : State) (l : List (Nat × Nat)) (o n : Nat) : List Byte × Bool :=
  (firstBytes (fromByte l o) n).foldl (fun a p => let r := s.readBytes p.1 p.2; (a.1 ++ r.1, a.2 || r.2)) ([], false)

/-- Writes bytes from byte o of a list of ranges. -/
def State.scatter (s : State) (f : Nat) (l : List (Nat × Nat)) (o : Nat) (b : List Byte) : State :=
  ((firstBytes (fromByte l o) b.length).foldl (fun (a : State × List Byte) p => (a.1.writeBytes f p.1 (a.2.take p.2), a.2.drop p.2)) (s, b)).1

/-- Source rows k to k + n − 1 of a command: null or the raw element; none where the source or the bitmap is Blot. -/
def State.srcRows (s : State) (w : Work) (k n : Nat) : Option (List (Option Nat)) :=
  let st := w.fld 0x0E 2
  let sz := srcSize w.srcType
  let d := s.gather w.src (k * st + w.fld 0x18 2) ((n - 1) * st + sz)
  let nb := if w.nullAddr = 0 then ([], false) else s.readBytes (w.nullAddr + k / 8) ((k + n + 7) / 8 - k / 8)
  if d.2 || nb.2 then none
  else some ((List.range n).map (fun i => if bitAt nb.1 (k % 8 + i) then none else some (getLE d.1 (i * st) sz)))

/-- A column command ends. -/
def State.colEnd (s : State) (id status info rows : Nat) : State :=
  s.workDone id { status, info, partial_ := status != 0 && rows != 0 }

/-- One segment's worth of a COLUMN_WRITE or COLUMN_APPEND (02 R48, R49; 17 R505). -/
def State.ingestStep (s : State) (id : Nat) (w : Work) : State :=
  let o := s.colOpen w
  match o.2 with
  | none => s.colEnd id (if w.create && w.rowsDone == 0 then 0x0307 else 0x0203) w.rowsDone w.rowsDone
  | some d =>
    let row := if w.opcode = 3 then w.rowStart + w.rowsDone else d.rows
    let n := min (w.nrows - w.rowsDone) (65536 - row % 65536)
    match o.1.srcRows w w.rowsDone n with
    | none => o.1.colEnd id 0x0401 w.rowsDone w.rowsDone
    | some l =>
      let vals := l.map (fun v => match v with | none => some none | some x => (ingest w.srcType d x).map some)
      match vals.findIdx? (·.isNone) with
      | some i => o.1.colEnd id 0x0309 (w.rowsDone + i) w.rowsDone
      | none =>
        let vs := vals.map (fun v => v.getD none)
        let r := if w.opcode = 3 then o.1.writeChunk w.f 5 0 d row vs else o.1.appendChunk w.f 5 0 d vs w.create
        let done := w.rowsDone + r.2.2
        if r.2.1 ≠ 0 then r.1.colEnd id r.2.1 done done
        else if w.nrows ≤ done then r.1.colEnd id 0 done done
        else r.1.updWork id (fun x => { x with rowsDone := done })

/-- Bits of a bitmap from bit o on take new values, the others keep theirs. -/
def mergeBits (old : List Byte) (o : Nat) (new : List Bool) : List Byte :=
  old.mapIdx (fun i b => (List.range 8).foldl (fun (b : Byte) k =>
    let j := 8 * i + k
    if o ≤ j ∧ j < o + new.length then (if new.getD (j - o) false then b ||| ((1 : Byte) <<< k) else b &&& ~~~((1 : Byte) <<< k)) else b) b)

/-- One segment's worth of a COLUMN_READ: natural values, with a free value in a null's place, and their null bits
(17 R506; 04 R98; log 1). -/
def State.readStep (s : State) (id : Nat) (w : Work) : State :=
  match s.readObj w.f w.obj with
  | .ok d =>
    let row := w.rowStart + w.rowsDone
    let n := min (w.nrows - w.rowsDone) (65536 - row % 65536)
    match s.openSeg w.f 5 0 d (row / 65536) with
    | (s1, .inl c) => s1.colEnd id c w.rowsDone w.rowsDone
    | (s1, .inr g) =>
      let lo := row % 65536
      if g.hdr.rows < lo + n then s1.colEnd id 0x0402 w.rowsDone w.rowsDone
      else match s1.segVals g lo (lo + n) with
      | none => s1.colEnd id 0x0401 w.rowsDone w.rowsDone
      | some vs =>
        let eb := fieldWidth d.width / 8
        let nat := vs.map (fun v => v.map (fun t => BitVec.ofNat 64 (natural d.xform d.width t)))
        let filled := solidVals s1.freeCtr nat
        let s2 : State := { s1 with freeCtr := filled.2 }
        let s3 := s2.scatter w.f w.dst (w.rowsDone * eb) (filled.1.flatMap (fun v => leBytes eb v.toNat))
        let a := w.nullAddr + w.rowsDone / 8
        let k := (w.rowsDone + n + 7) / 8 - w.rowsDone / 8
        let pad := s3.free
        let last := decide (w.nrows ≤ w.rowsDone + n)
        let bits := vs.map (·.isNone) ++ (if last then (List.range ((8 - w.nrows % 8) % 8)).map (fun i => pad.1.getLsbD i) else [])
        let s4 := if w.nullAddr = 0 then s3 else pad.2.writeBytes w.f a (mergeBits (pad.2.readBytes a k).1 (w.rowsDone % 8) bits)
        if last then s4.colEnd id 0 w.nrows 0 else s4.updWork id (fun x => { x with rowsDone := w.rowsDone + n })
  | .poisoned => s.colEnd id 0x0401 w.rowsDone w.rowsDone
  | .bad _ => s.colEnd id 0x0402 w.rowsDone w.rowsDone
  | .absent => s.colEnd id 0x0203 w.rowsDone w.rowsDone

/-- Starts a column command: its checks of steps 8 and 9, then it runs; a refusal has no side effect (17 R498). -/
def State.colStart (s : State) (id : Nat) (w : Work) (g : State → State) : State :=
  if w.stage = .running then g s
  else match s.colBad w with
    | some (c, d) =>
      let s1 := match s.readObj w.f w.obj with | .bad k => s.logSegment w.f 5 0 w.obj 0xFFFFFFFF k | _ => s
      (s1.updWork id (fun x => { x with disp := d, qtime := 0 })).workDone id { status := c }
    | none => g (s.runWork id)

/-- COLUMN_WRITE replaces rows of an object one segment at a time, or drops it (17 R504, R505). -/
def execColumnWrite (w : Nat) (s : State) : Host.Outcome State Fault Refusal :=
  .next (s.onWork w 3 (fun x => s.colStart w x (fun s =>
    if x.drop then (s.dropObj x.f x.obj).colEnd w 0 0 0 else s.ingestStep w x)))

/-- COLUMN_APPEND appends rows one segment at a time, creating the object if asked; an append of another queue to the same
object that has begun goes first (17 R505, R513; log 34). -/
def execColumnAppend (w : Nat) (s : State) : Host.Outcome State Fault Refusal :=
  .next (s.onWork w 4 (fun x =>
    if x.stage ≠ .running ∧ s.works.any (fun p => p.2.f == x.f && p.2.opcode == 4 && p.2.obj == x.obj && p.2.stage == .running) then s
    else s.colStart w x (fun s => s.ingestStep w x)))

/-- COLUMN_READ writes rows as natural values one segment at a time (17 R506). -/
def execColumnRead (w : Nat) (s : State) : Host.Outcome State Fault Refusal :=
  .next (s.onWork w 5 (fun x => s.colStart w x (fun s => s.readStep w x)))

/-! ### Engine jobs of ring commands (17 R507 to R509; 19 R565) -/

/-- Takes one of the four slots of the pair's command work area and an event flag for a job: the slot's address and the
flag, or none while either is wanting (19 R565). -/
def State.takeSlot (s : State) (id : Nat) (w : Work) : Option (Nat × Nat × State) :=
  match s.pair w.f w.q with
  | none => none
  | some x => match (List.range 4).find? (fun k => (x.slots.find? k).isNone) with
    | none => none
    | some k =>
      let r := s.allocFlag w.f
      if r.1 = 0xFF then none
      else some (x.area + 16384 * k, r.1,
        ((r.2.updPair w.f w.q (fun x => { x with slots := x.slots.set k id })).runWork id).updWork id (fun y => { y with flag := some r.1 }))

/-- The descriptors that copy one list of ranges onto another; the first argument bounds them. -/
def copyDescs : Nat → List (Nat × Nat) → List (Nat × Nat) → List DmaDesc
  | 0, _, _ => []
  | k + 1, src, dst =>
    match src, dst with
    | (a, n) :: r, (b, m) :: t =>
      let l := min (min n m) (2 ^ 32 - 1)
      let src' := if l = n then r else (a + l, n - l) :: r
      let dst' := if l = m then t else (b + l, m - l) :: t
      { src := a, dst := b, len := l, dkind := 0, dfl := if src'.isEmpty then 1 else 0 } :: copyDescs k src' dst'
    | _, _ => []

/-- The descriptors that feed a list of ranges to a digest engine; the first argument bounds them. -/
def feedDescs (e : Nat) : Nat → List (Nat × Nat) → List DmaDesc
  | 0, _ => []
  | k + 1, src =>
    match src with
    | (a, n) :: r =>
      let l := min n (2 ^ 32 - 1)
      let src' := if l = n then r else (a + l, n - l) :: r
      { src := a, dst := e, len := l, dkind := 1, dfl := if src'.isEmpty then 3 else 0 } :: feedDescs e k src'
    | [] => []

/-- Gives a transfer to a channel of the function: one with nothing in it first, else one with its shadow set free; none
while there is none (17 R507; 19 R543, R552). -/
def State.giveXfer (s : State) (x : Xfer) : Option State :=
  let cs := (s.dmaPair x.f).filter s.dmaOn
  match cs.find? (fun c => (s.dmaChan c).cur.isNone && (s.dmaChan c).sh.isNone) with
  | some c => some (s.updDma c (fun k => { k with cur := some x }))
  | none => (cs.find? (fun c => (s.dmaChan c).sh.isNone)).map (fun c => s.updDma c (fun k => { k with sh := some x }))

/-- DMA_COPY runs its ranges on a DMA channel of the function (17 R507). -/
def execDmaCopy (w : Nat) (s : State) : Host.Outcome State Fault Refusal :=
  .next (s.onWork w 7 (fun x =>
    if x.stage = .running then s
    else match s.takeSlot w x with
    | none => s
    | some (a, fl, s1) =>
      let given := copyDescs (x.src.length + x.dst.length + 257) x.src x.dst
      let t : Xfer := { f := x.f, block := a, status := a + 32, event := fl, epoch := s.epochOf x.f, inner := true, work := some w, given, next := a + 64 }
      (s1.giveXfer t).getD s))

/-- The channel of a compression job: of those assigned to the function, for Drupe channels 0 and 1 alone, the one with
the fewest queued jobs, the lowest on a tie (17 R508). -/
def State.cmpPick (s : State) (f method : Nat) : Option Nat :=
  let cs := (List.range 16).filter (fun c => s.cmpOn c && (s.cmpChan c).funcs.getLsbD f && (method != 1 || decide (c < 2)))
  cs.foldl (fun (a : Option Nat) c => match a with
    | none => some c
    | some b => if (s.cmpChan c).queue.length < (s.cmpChan b).queue.length then some c else some b) none

/-- Submits the job of a COMPRESS or DECOMPRESS: NOT_ENTITLED with no channel assigned, later while the queue is full
(17 R508; 12 R339, R344). -/
def State.submitCmp (s : State) (id : Nat) (w : Work) : State :=
  if w.stage = .running then s
  else match s.cmpPick w.f (w.fld 8 1) with
    | none => s.workDone id { status := 0x010A }
    | some c => match s.takeSlot id w with
      | none => s
      | some (a, fl, s1) =>
        let r := s1.cmpPush c { f := w.f, desc := a, epoch := s.epochOf w.f, work := some id, given := some (w.cmpDesc fl) }
        if r.2 = 1 then s else r.1

/-- COMPRESS submits its job (17 R508). -/
def execCompress (w : Nat) (s : State) : Host.Outcome State Fault Refusal := .next (s.onWork w 8 (fun x => s.submitCmp w x))

/-- DECOMPRESS submits its job (17 R508). -/
def execDecompress (w : Nat) (s : State) : Host.Outcome State Fault Refusal := .next (s.onWork w 9 (fun x => s.submitCmp w x))

/-- DIGEST opens a message on an engine where the function has none and feeds it by a DMA transfer; a key that may not be
used ends it with KEY_INVALID (17 R509; 19 R559, R565). -/
def execDigest (w : Nat) (s : State) : Host.Outcome State Fault Refusal :=
  .next (s.onWork w 0x0A (fun x =>
    let f := x.f
    let mode := x.fld 8 1
    let derive := x.fld 9 1 % 2 == 1
    if x.stage = .running then s
    else if (mode == 1 && !s.hmacKeyOk f (x.fld 0x0A 1)) || (derive && !s.deriveOk f (x.fld 0x0B 1)) then s.workDone w { status := 0x0503 }
    else match (List.range 4).find? (fun e => s.dgsOn e && (s.dgsMsg e f).isNone), s.takeSlot w x with
    | some e, some (a, fl, s1) =>
      let m : DgsMsg := { mode, derive, event := fl, keySlot := x.fld 0x0A 1, dstSlot := x.fld 0x0B 1, declLen := x.fld 0x18 8,
                          result := x.fld 0x20 8, save := a + 16128, epoch := s.epochOf f, work := some w, start := s.dgsStart mode (x.fld 0x0A 1) }
      let t : Xfer := {
        f, block := a, status := a + 32, event := fl, epoch := s.epochOf f, inner := true, feeds := some w,
        given := feedDescs e (x.src.length + 65536 + 1) x.src, next := a + 64 }
      ((s1.updDgs e (fun y => { y with msgs := y.msgs.set f m })).giveXfer t).getD s
    | _, _ => s))

end Sys2Proof.Machine
end

