-- ==== Sys2Proof/Machine/Tenancy.lean ====
section
/-! DEFINITION. Tenants: what their memory is built of, cancelling their work, reset, destruction, the wipe (20 R579 to R602;
11 R309; 16 R482). -/

namespace Sys2Proof.Machine

/-! ### Units of 16 MiB and the capacity map (11 R308, R309; 20 R580) -/

/-- The 16 MiB units that an extent of device memory takes; a guarded one takes 16 MiB for each 14 MiB (20 R580). -/
def Extent.units (e : Extent) : Nat := if e.guard then e.len / (14 * 2 ^ 20) else (e.len + 2 ^ 24 - 1) / 2 ^ 24

/-- The bytes of set space that an extent takes. -/
def Extent.span (e : Extent) : Nat := if e.guard then e.len / 7 * 8 else e.len

/-- The dispatch area of a tenant as an extent. -/
def Tenant.dispExt (x : Tenant) : List Extent := if x.disp.areaLen = 0 then [] else [{ base := x.disp.areaBase, len := x.disp.areaLen }]

/-- Every extent that belongs to a tenant. -/
def State.heldExtents (s : State) : List Extent := s.tenants.flatMap (fun p => p.2.alloc ++ p.2.dispExt)

/-- The units of usable memory. -/
def State.memUnits (s : State) : Nat := s.memTotal / 2 ^ 24

/-- The unit belongs to no tenant (11 R309). -/
def State.unitFree (s : State) (k : Nat) : Bool :=
  !s.heldExtents.any (fun e => decide (e.base / 2 ^ 24 ≤ k ∧ k < e.base / 2 ^ 24 + e.units))

/-- Runs of consecutive units, each start and length, broken where a set begins. -/
def unitRuns (setBase : Nat) : List Nat → List (Nat × Nat)
  | [] => []
  | k :: r => match unitRuns setBase r with
    | (a, n) :: t => if a = k + 1 ∧ a ≠ setBase then (k, n + 1) :: t else (k, 1) :: (a, n) :: t
    | [] => [(k, 1)]

/-- Takes n units from runs in their order; what is taken, and the runs left. -/
def takeUnits : List (Nat × Nat) → Nat → Option (List (Nat × Nat) × List (Nat × Nat))
  | l, 0 => some ([], l)
  | [], _ + 1 => none
  | (a, k) :: r, n + 1 =>
    if n + 1 ≤ k then some ([(a, n + 1)], if k = n + 1 then r else (a + (n + 1), k - (n + 1)) :: r)
    else (takeUnits r (n + 1 - k)).map (fun p => ((a, k) :: p.1, p.2))

/-- An allocation from runs of free units: a contiguous dispatch area of d units, u unguarded and g guarded units. -/
def layMemory (runs : List (Nat × Nat)) (u g d : Nat) : Option (List Extent × Nat) :=
  match (sortBy (fun (a b : Nat × Nat) => decide (a.2 ≤ b.2)) runs).find? (fun r => decide (d ≤ r.2)) with
  | none => none
  | some (a, _) =>
    let rest := (runs.map (fun r => if r.1 = a then (r.1 + d, r.2 - d) else r)).filter (fun r => r.2 != 0)
    match takeUnits rest u with
    | none => none
    | some (pu, r1) => match takeUnits r1 g with
      | none => none
      | some (pg, _) =>
        let le := (fun (a b : Nat × Nat) => decide (a.1 ≤ b.1))
        let ex := (sortBy le pu).map (fun p => ({ base := p.1 * 2 ^ 24, len := p.2 * 2 ^ 24 } : Extent))
          ++ (sortBy le pg).map (fun p => ({ base := p.1 * 2 ^ 24, len := p.2 * (14 * 2 ^ 20), guard := true } : Extent))
        if ex.length ≤ 32 then some (ex, a * 2 ^ 24) else none

/-- The windows over a set when the given guarded extents stand: base unit, units, guarded, in increasing address. -/
def windowsOf (lo hi : Nat) : List (Nat × Nat) → List (Nat × Nat × Bool)
  | [] => if lo < hi then [(lo, hi - lo, false)] else []
  | (a, n) :: r => (if lo < a then [(lo, a - lo, false)] else []) ++ (a, n, true) :: windowsOf (a + n) hi r

/-- Every window of the capacity map for a list of guarded extents (11 R309). -/
def State.allWindows (s : State) (gs : List Extent) : List (Nat × Nat × Nat × Bool) :=
  let b1 := s.setBase 1 / 2 ^ 24
  let l := sortBy (fun (a b : Nat × Nat) => decide (a.1 ≤ b.1)) (gs.map (fun e => (e.base / 2 ^ 24, e.units)))
  (windowsOf 0 b1 (l.filter (fun p => decide (p.1 < b1)))).map (fun w => (0, w))
    ++ (windowsOf b1 s.memUnits (l.filter (fun p => decide (b1 ≤ p.1)))).map (fun w => (1, w))

/-- Writes the capacity map for the guarded extents that tenants hold, in increasing device address (11 R309). -/
def State.remap (s : State) : State :=
  let ws := s.allWindows (s.heldExtents.filter (·.guard))
  let lo := ws.mapIdx (fun n w => (n, BitVec.ofNat 64 (1 + w.1 * 2 + (if w.2.2.2 then 4 else 0) + w.2.2.1 * 2 ^ 12 + w.2.1 * 2 ^ 32)))
  let hi := ws.mapIdx (fun n w => (n, BitVec.ofNat 64 (w.2.1 - s.setBase w.1 / 2 ^ 24)))
  { s with mem := { s.mem with mapLo := lo, mapHi := hi } }

/-- Finds memory for a tenant: from a free place on, or the largest runs first; none where it does not fit (20 R579, R580;
log 35). -/
def State.findMemory (s : State) (u g d : Nat) : Option (List Extent × Nat) :=
  let runs := unitRuns (s.setBase 1 / 2 ^ 24) ((List.range s.memUnits).filter s.unitFree)
  let k := (Config.freeWord s.freeCtr).toNat % max 1 runs.length
  let ok (r : List Extent × Nat) : Bool := decide ((s.allWindows ((s.heldExtents ++ r.1).filter (·.guard))).length ≤ 32)
  let try_ (l : List (Nat × Nat)) : Option (List Extent × Nat) := (layMemory l u g d).bind (fun r => if ok r then some r else none)
  match try_ (runs.drop k ++ runs.take k) with
  | some r => some r
  | none => try_ (sortBy (fun (a b : Nat × Nat) => decide (b.2 ≤ a.2)) runs)

/-- The capability page changes: CGEN goes through odd to even, vector 0 of every function is signalled with ATTN (16 R482;
18 R522). -/
def State.pageChanged (s : State) : State :=
  (List.range s.part.funcs).foldl (fun (s : State) f => s.attn f) { s with host := { s.host with cgen := s.host.cgen + 2 } }

/-- A tenant takes a state; the functions that get no reply are told (18 R522, R528). -/
def State.setTState (s : State) (f : Nat) (st : TState) (tell : List Nat) : State :=
  tell.foldl (fun (s : State) g => s.attn g) (s.updTenant f (fun x => { x with tstate := st }))

/-! ### Cancelling work (20 R594) -/

/-- A command of a tenant is cancelled as mode 1 of a quiesce does (20 R594). -/
def State.cancelWork (s : State) (id : Nat) (w : Work) : State :=
  let part := decide (w.rowsDone ≠ 0)
  if w.result.isSome then s
  else if w.opcode = 0 ∨ w.opcode = 2 ∨ w.opcode = 6 then s
  else if w.opcode = 1 then s.cancelQuery id w
  else if w.stage ≠ .running then s.workDone id { status := 0x0301 }
  else if w.isCol then s.workDone id { status := 0x0301, info := w.rowsDone, partial_ := part }
  else if w.opcode = 7 then s.dmaEndAll 0x0301 (fun x => x.work == some id)
  else if w.opcode = 0x0A then
    (s.dmaEndAll 0x0301 (fun x => x.feeds == some id)).dgsEndAll 0x0301 (fun _ m => m.work == some id)
  else (s.updWork id (fun x => { x with stopped := true })).cmpEndAll 0x0302 (fun j => j.work == some id)

/-- Every command of a tenant is cancelled, in fetch order. -/
def State.cancelAll (s : State) (f : Nat) : State :=
  (s.works.filter (fun p => p.2.f == f)).foldl (fun (s : State) p => match s.works.find? p.1 with
    | some w => s.cancelWork p.1 w
    | none => s) s

/-- Work of a tenant remains: a command that has not ended, a query, a task. -/
def State.hasWork (s : State) (f : Nat) : Bool :=
  s.works.any (fun p => p.2.f == f && p.2.result.isNone) || (s.tenant f).queries != []
    || s.tiles.any (fun p => match p.2.task with | some r => r.f == f | none => false)

/-- Every ACTIVE pair of a tenant becomes HALTED (17 R486; 20 R593). -/
def State.haltPairs (s : State) (f : Nat) : State :=
  (s.tenant f).pairs.foldl (fun (s : State) p => if p.2.state = .active then s.leaveActive f p.1 .halted else s) s

/-- Every HALTED pair becomes ACTIVE; it fetches again from its next doorbell write (20 R596). -/
def State.wakePairs (s : State) (f : Nat) : State :=
  s.updTenant f (fun x => { x with pairs := x.pairs.map (fun p =>
    (p.1, if p.2.state = .halted then { p.2 with state := .active, p := p.2.c } else p.2)) })

/-! ### Reset and destruction (20 R597 to R602; 08 R238) -/

/-- The dispatcher's part: the epoch rises, entries, slots, flags and descriptors go, but for the tasks that still run
(08 R238). -/
def State.resetDisp (s : State) (f : Nat) : State :=
  (s.updDisp f (fun d => { d with
    epoch := d.epoch + 1, flags := 0, allocd := 0, waiters := [], onchip := [], spill := [], passed := [], heads := [],
    tasks := d.tasks.filter (fun p => p.2.at_ == .running) })).writeBytes f (s.disp f).areaBase (zeros 128)

/-- CANCEL is raised on the tenant's tiles, and every tile it holds is rebound to no tenant (08 R235, R238). -/
def State.unbindTiles (s : State) (f : Nat) : State :=
  let mine := (s.tiles.filter (fun p => p.2.bound == some f || p.2.bind.next == some (some f))).map (·.1)
  mine.foldl (fun (s : State) t =>
    (s.updCore t (fun c => { c with qipend := if (s.tile t).bound == some f then c.qipend ||| 1 else c.qipend })).startRebind t none none) s

/-- The bytes of the allocation and of the dispatch area (20 R609). -/
def Tenant.wipeBytes (x : Tenant) : Nat := allocLen x.alloc + x.disp.areaLen

/-- Completions that wait on the pairs of a tenant. -/
def Tenant.held (x : Tenant) : Nat := x.pairs.foldl (fun a p => a + p.2.waiting.length) 0

/-- What becomes of a compatibility tenant's generation and completions: g rises, the log says so, and what was fetched
before is discarded when it completes (20 R602). -/
def State.newGeneration (s : State) (f : Nat) : State :=
  let s1 := s.updTenant f (fun x => { x with gen := x.gen + 1 })
  let s2 := s1.log 0x41 2 f 7 0 0 0 ((s1.tenant f).gen.toNat)
  let gone := (s2.tenant f).pairs.flatMap (fun p => p.2.waiting.flatMap (·.covers))
  let s3 := s2.updTenant f (fun x => { x with
    genDiscard := x.genDiscard + BitVec.ofNat 64 x.held, pairs := x.pairs.map (fun p => (p.1, { p.2 with waiting := [] })) })
  s3.unwaitFor gone

/-- A tenant's commands complete into nothing from now on (20 R598, R602). -/
def State.silence (s : State) (f : Nat) : State :=
  { s with works := s.works.map (fun p => (p.1, if p.2.f = f then { p.2 with silent := true } else p.2)) }

/-- The pairs of a tenant go, with the completions they held (20 R595, R597). -/
def State.dropPairs (s : State) (f : Nat) : State :=
  let s1 := s.updTenant f (fun x => { x with heldDiscard := x.heldDiscard + BitVec.ofNat 64 x.held, pairs := [] })
  { s1 with works := s1.works.filter (fun p => p.2.f != f || p.2.stage == .running && p.2.opcode == 1) }

/-- What a tenant has in the engines, in Cadence and in Krelor goes without a record (12 R347; 13 R390; 14 R419; 15 R457;
19 R555, R568). -/
def State.dropEngines (s : State) (f : Nat) : State :=
  let s1 := (((s.cmpDropFunc f).dmaDropFunc f).dgsDropFunc f).brmDropFunc f
  let s2 := (s1.brmClear f).closeXchgs (fun x => x.f == f) none
  { s2 with cad := { s2.cad with acts := s2.cad.acts.filter (fun p => p.2.f != f), trig := s2.cad.trig.filter (fun p => p.1 / 8 != f) } }

/-- A tenant is reset or destroyed, up to its wipe: work in flight is cancelled, logging ends, the dispatcher, tiles,
engines, pairs and images are given up; a compatibility tenant that is reset keeps its pairs (20 R597, R598, R600, R602). -/
def State.resetTenant (s : State) (f : Nat) (destroy : Bool) (tell : List Nat) : State :=
  let x := s.tenant f
  let s1 := if x.ent.compat then s.newGeneration f else s
  let s2 := ((s1.silence f).haltPairs f).cancelAll f
  let s3 := (s2.updTenant f (fun x => { x with mig := none, quiesce := none })).resetDisp f
  let s4 := (s3.unbindTiles f).dropEngines f
  let s5 := if x.ent.compat && !destroy then s4 else s4.dropPairs f
  (s5.updTenant f (fun x => { x with images := [], wipe := x.wipeBytes, retired := [] })).setTState f (if destroy then .destroying else .resetting) tell

/-- A function-level reset or a hot reset moves a tenant to RESETTING (18 R529; 20 R598, R602). -/
def State.flrTenant (s : State) (f : Nat) : State :=
  match (s.tenant f).tstate with
  | .active | .quiescing | .quiesced => s.resetTenant f false [f]
  | _ => s

/-! ### The wipe (20 R599, R600) -/

/-- Zeros over a range of set space: bytes, tags and bad-line entries go (20 R599; 10 R295; 11 R322). -/
def State.zeroRange (s : State) (a n : Nat) : State :=
  let l0 := a / 64
  let l1 := (a + n) / 64
  let inn (k : Nat) : Bool := decide (l0 ≤ k ∧ k < l1)
  { s with mem := { s.mem with
      cells := s.mem.cells.filter (fun c => !decide (a ≤ c.1 ∧ c.1 < a + n)), tags := s.mem.tags.filter (fun p => !inn p.1),
      chans := s.mem.chans.map (fun p => (p.1, { p.2 with badLines := p.2.badLines.filter (fun b => !inn b) })),
      reqs := s.mem.reqs.filter (fun r => r.wr.isNone || !inn r.line) } }

/-- Every copy that a first-level cache holds of the lines of a range is invalidated, as a write of them does. -/
def State.dropL1Range (s : State) (a n : Nat) : State :=
  let inn (l : Nat) : Bool := decide (a / 64 ≤ l ∧ l < (a + n) / 64)
  { s with tiles := s.tiles.map (fun p => (p.1, { p.2 with l1 := { p.2.l1 with
      d := p.2.l1.d.filter (fun k => !inn k.2.line), i := p.2.l1.i.filter (fun k => !inn k.2.line), vbuf := p.2.l1.vbuf.filter (fun v => !inn v.line),
      dbuf := p.2.l1.dbuf.bind (fun b => if inn b.line then none else some b), ibuf := p.2.l1.ibuf.bind (fun b => if inn b.line then none else some b) } })) }

/-- The Orchard lines and directory entries that a function owns are invalidated without writeback (20 R599). -/
def State.dropOwned (s : State) (f : Nat) : State :=
  { s with slices := s.slices.map (fun p => (p.1, { p.2 with
      data := p.2.data.filter (fun k => k.2.owner != f), dir := p.2.dir.filter (fun k => k.2.owner != f || k.2.busy) })) }

/-- The key slots that a tenant owns are erased, with its context key (19 R567; 20 R599; 21 R614). -/
def State.eraseKeys (s : State) (f : Nat) : State :=
  ({ s with keys := s.keys.map (fun (p : Nat × KeySlot) => (p.1, if p.2.owner = f then { p.2 with kind := 0, len := 0, useAll := false, data := [] } else p.2)) }).updTenant f
    (fun x => { x with ctxKey := [] })

/-- A fresh context key (19 R567; log 1). -/
def State.drawCtxKey (s : State) (f : Nat) : State := let r := s.freeBytes 4; r.2.updTenant f (fun x => { x with ctxKey := r.1 })

/-- The whole wipe of a tenant's memory and keys (20 R599). -/
def State.wipeTenant (s : State) (f : Nat) : State :=
  let x := s.tenant f
  let es := x.alloc ++ x.dispExt
  let s1 := es.foldl (fun (s : State) e => (s.dropL1Range e.base e.span).zeroRange e.base e.span) (s.dropOwned f)
  (s1.eraseKeys f).updTenant f (fun x => { x with wipe := 0, used := x.pairs.map (fun p => { base := p.2.area, len := 65536 }) })

/-- Frees a destroyed tenant's grants: memory, guarded windows, Bramble ranges, channels, identifiers, host regions
(20 R600). -/
def State.freeGrants (s : State) (f : Nat) : State :=
  let s1 := s.updTenant f (fun x => { x with
    alloc := [], used := [], ent := {}, pairs := [], gen := 0, hrgnLo := [], hrgnHi := [], disp := { x.disp with areaBase := 0, areaLen := 0 } })
  let s2 : State := { s1 with brm := s1.brm.map (fun p => (p.1, { p.2 with range := p.2.range.erase f })),
                              cmp := s1.cmp.map (fun p => (p.1, { p.2 with funcs := p.2.funcs &&& ~~~((1 : Word) <<< f) })) }
  s2.remap.pageChanged

/-- No tile holds a tenant or runs its tasks, and no query of it is left (20 R597). -/
def State.unbound (s : State) (f : Nat) : Bool :=
  (s.tenant f).queries == [] && !s.tiles.any (fun p => p.2.bound == some f || p.2.bind.next == some (some f)
    || (match p.2.task with | some r => r.f == f | none => false))

/-- WIPE_END: a tenant's wipe completes, and it returns to ACTIVE or NONE (20 R597, R599, R600, R602). -/
def execWipeEnd (f : Nat) (s : State) : Host.Outcome State Fault Refusal :=
  .next (
    let tell := if f = 0 then [0] else [f, 0]
    if !s.unbound f then s
    else match (s.tenant f).tstate with
      | .resetting => (((s.wipeTenant f).drawCtxKey f).wakePairs f).setTState f .active tell
      | .destroying => ((s.wipeTenant f).freeGrants f).setTState f .none tell
      | _ => s)

/-! ### The ends of a quiesce (20 R594) -/

/-- QUIESCE_BOUND: BOUND ticks have passed; what remains is cancelled (20 R594). -/
def execQuiesceBound (f : Nat) (s : State) : Host.Outcome State Fault Refusal :=
  .next (match (s.tenant f).tstate, (s.tenant f).quiesce with
    | .quiescing, some (some _) => (s.updTenant f (fun x => { x with quiesce := some none })).cancelAll f
    | _, _ => s)

/-- QUIESCE_COMPLETE: no work of the tenant remains (20 R594; 18 R522). -/
def execQuiesceComplete (f : Nat) (s : State) : Host.Outcome State Fault Refusal :=
  .next (if (s.tenant f).tstate = .quiescing ∧ !s.hasWork f then
      (s.updTenant f (fun x => { x with quiesce := none })).setTState f .quiesced (if f = 0 then [0] else [f, 0])
    else s)

end Sys2Proof.Machine
end

