-- ==== Sys2Proof/Machine/Mailbox.lean ====
section
/-! DEFINITION. Mailboxes: the doorbell, the order of checks, replies, and the commands for information, queues, images, Bramble
lists and tenants (18 R515 to R541; 04 R118, R119; 13 R388; 20 R579 to R602). -/

namespace Sys2Proof.Machine

/-! ### The doorbell and the request (18 R515 to R520, R530, R531) -/

/-- A function's mailbox. -/
def State.mbox (s : State) (f : Nat) : Mailbox := s.mboxes.getD f {}

/-- Changes a function's mailbox. -/
def State.updMbox (s : State) (f : Nat) (g : Mailbox → Mailbox) : State := { s with mboxes := s.mboxes.upd f {} g }

/-- MB_DOORBELL: sets BUSY and takes the request as one snapshot, or sets OVERRUN (18 R516, R520). -/
def execMbDoorbell (f : Nat) (v : BitVec 32) (s : State) : Host.Outcome State Fault Refusal :=
  .next (s.updMbox f (fun m =>
    if m.busy || s.dstate == .init then { m with overrun := true }
    else { m with busy := true, done := false, seq := field v 0 16, req := m.area }))

/-- A header field of the request that Eunto has taken (18 R519). -/
def State.mbHdr (s : State) (o n : Nat) : Nat := getLE s.euntoReq o n

/-- A payload field of the request. -/
def State.mbPay (s : State) (o n : Nat) : Nat := getLE s.euntoReq (16 + o) n

/-- The opcode, and the function acted on, of the request. -/
def State.mbOp (s : State) : Nat := s.mbHdr 0 2
def State.mbTarget (s : State) : Nat := s.mbHdr 6 1

/-- The payload size of a defined command (18 R531, R533 to R540). -/
def mbLen : Nat → Option Nat
  | 0x01 | 0x33 | 0x34 | 0x39 | 0x52 | 0x53 | 0x60 | 0x61 => some 0
  | 0x02 | 0x11 | 0x21 | 0x32 | 0x50 => some 8
  | 0x20 | 0x22 | 0x40 | 0x41 | 0x51 => some 16
  | 0x10 | 0x38 => some 0x20
  | 0x30 | 0x31 => some 64
  | 0x54 => some 136
  | 0x62 => some 0x18
  | _ => none

/-- The reserved fields of a payload: offset and length (18 R534 to R540). -/
def mbReserved : Nat → List (Nat × Nat)
  | 0x02 | 0x11 | 0x21 => [(1, 7)]
  | 0x54 => [(1, 7), (14, 2), (29, 43)]
  | 0x10 => [(2, 2)]
  | 0x20 | 0x22 => [(12, 4)]
  | 0x30 | 0x31 => [(0x1D, 1), (0x22, 2), (0x30, 16)]
  | 0x32 => [(1, 3)]
  | 0x40 => [(2, 6)]
  | 0x41 => [(7, 1)]
  | 0x62 => [(12, 4)]
  | _ => []

/-- The reserved bits inside fields: offset, length, the power of two above which bits are reserved, and a mask of further
ones (18 R535, R540). -/
def State.mbBitsOk (s : State) : Bool :=
  let hi (o n k : Nat) : Bool := s.mbPay o n / 2 ^ k == 0
  match s.mbOp with
  | 0x30 | 0x31 => hi 6 1 2 && hi 7 1 2
  | 0x41 => hi 0 4 18 && [8, 12].all (fun o => hi o 4 26 && s.mbPay o 4 / 2 ^ 21 % 8 == 0)
  | _ => true

/-- A command that the PF alone issues (18 R531). -/
def pfOnly (op : Nat) : Bool := decide (0x30 ≤ op ∧ op ≤ 0x61)

/-- A command in which the PF names the function acted on; CAP_QUERY too, whose page 1 is the target tenant's (18 R519, R534;
log 36). -/
def namesTarget (op : Nat) : Bool := decide (0x30 ≤ op ∧ op ≤ 0x39) || op == 2

/-- A power of two from 16 to 65,536 (17 R484). -/
def ringSize (n : Nat) : Bool := [16, 32, 64, 128, 256, 512, 1024, 2048, 4096, 8192, 16384, 32768, 65536].contains n

/-- The entitlement record of a request (18 R535). -/
def entitleOf (b : List Byte) : Entitle :=
  { tileGuar := getLE b 0 1, tileBurst := getLE b 1 1, bwGuar := getLE b 2 1, bwBurst := getLE b 3 1, queries := getLE b 4 1,
    cmpCh := getLE b 5 1, drupe := getLE b 6 1, signReq := getLE b 7 1 % 2 == 1, compat := getLE b 7 1 / 2 % 2 == 1,
    memBytes := getLE b 8 8, guarded := getLE b 0x10 8, dispatchMib := getLE b 0x18 4, signSlot := getLE b 0x1C 1,
    xchgBase := getLE b 0x1E 2, xchgCount := getLE b 0x20 2, bramble := getLE b 0x24 4, burstWindow := getLE b 0x28 4, delayMax := getLE b 0x2C 4 }

/-- The 64 B of an entitlement record (18 R535). -/
def Entitle.bytes (e : Entitle) : List Byte :=
  [e.tileGuar, e.tileBurst, e.bwGuar, e.bwBurst, e.queries, e.cmpCh, e.drupe, (if e.signReq then 1 else 0) + (if e.compat then 2 else 0)].flatMap (leBytes 1)
    ++ leBytes 8 e.memBytes ++ leBytes 8 e.guarded ++ leBytes 4 e.dispatchMib ++ leBytes 1 e.signSlot ++ zeros 1 ++ leBytes 2 e.xchgBase
    ++ leBytes 2 e.xchgCount ++ zeros 2 ++ leBytes 4 e.bramble ++ leBytes 4 e.burstWindow ++ leBytes 4 e.delayMax ++ zeros 16

/-- Windows of an array that a record grants (18 R535). -/
def Entitle.windows (e : Entitle) (a : Nat) : Nat := e.bramble / 256 ^ a % 256

/-- The ordinary compression channels (12 R339). -/
def State.ordinary (s : State) : List Nat := ((List.range 16).filter (fun c => decide (2 ≤ c) && s.cmpOn c))

/-- The ranges of a record, and check 1 of its tenant (18 R535; 20 R579, R586). -/
def State.entOk (s : State) (e : Entitle) : Bool :=
  let n := countOn 96 s.tileOn
  decide (e.tileGuar ≤ e.tileBurst ∧ e.tileBurst ≤ n ∧ e.bwGuar ≤ e.bwBurst ∧ 1 ≤ e.queries ∧ e.queries ≤ 32 ∧ e.cmpCh ≤ 14)
    && decide (e.cmpCh ≤ s.ordinary.length) && e.memBytes % 2 ^ 24 == 0 && decide (2 ^ 24 ≤ e.memBytes) && e.guarded % (112 * 2 ^ 20) == 0
    && decide (e.guarded ≤ e.memBytes ∧ 4 ≤ e.dispatchMib ∧ e.dispatchMib ≤ 64 ∧ e.signSlot < 64)
    && (List.range 4).all (fun a => decide (e.windows a ≤ 128)) && e.burstWindow % 16 == 0
    && (e.burstWindow == 0 || decide (16000 ≤ e.burstWindow))

/-- Step 4: every unit named is present (18 R530, R536, R540; 00 R3). -/
def State.mbPresent (s : State) : Bool :=
  match s.mbOp with
  | 0x30 | 0x31 =>
    let e := entitleOf (s.euntoReq.drop 16)
    (List.range 2).all (fun c => e.drupe / 2 ^ c % 2 == 0 || (s.cmpDrupe c && s.cmpOn c)) && (List.range 4).all (fun a => e.windows a == 0 || s.brmOn a)
  | 0x22 => (List.range 4).any s.brmOn
  | 0x41 => decide (0 < s.part.ports)
  | _ => true

/-- Step 5: ranges and alignments (18 R530, R534 to R540; 15 R441, R460; 17 R484; 16 R483). -/
def State.mbRanges (s : State) (f : Nat) : Bool :=
  let p := s.mbPay
  decide (s.mbTarget < s.part.funcs) && (match s.mbOp with
  | 0x02 => decide (p 0 1 ≤ 1)
  | 0x10 => decide (p 0 1 < 16) && decide ((if f = 0 then 2 else 1) ≤ p 1 1 ∧ p 1 1 < (if f = 0 then 64 else 16)) && ringSize (p 0x10 4) && ringSize (p 0x14 4)
      && p 8 8 % 4096 == 0 && p 8 8 / 2 ^ 56 == 1 && p 0x18 8 % 4096 == 0 && p 0x18 8 / 2 ^ 56 == 1
  | 0x11 => decide (p 0 1 < 16)
  | 0x21 => decide (p 0 1 < 64)
  | 0x30 | 0x31 => s.entOk (entitleOf (s.euntoReq.drop 16))
  | 0x32 => decide (p 0 1 ≤ 2) && (p 0 1 == 2) == (p 4 4 == 0)
  | 0x38 => p 8 8 % 4096 == 0 && p 0x10 8 % 32768 == 0 && decide (1 ≤ p 0x10 8)
  | 0x40 => decide (p 0 1 ≤ 3)
  | 0x41 => (List.range 3).all (fun i => decide (p (4 + i) 1 ≤ 63 ∧ p 0 4 / 64 ^ (2 - i) % 64 ≤ p (4 + i) 1))
      && [8, 12].all (fun o => decide (p o 4 / 2 ^ 18 % 8 ≤ 5 ∧ p o 4 / 2 ^ 24 % 4 ≤ 2))
  | 0x51 => decide (1 ≤ p 8 4 ∧ p 8 4 ≤ 4 * 2 ^ 20)
  | 0x54 => decide (p 0 1 ≤ 4)
  | _ => true)

/-- The information set (18 R526). -/
def infoSet (op : Nat) : Bool := [0x01, 0x02, 0x60, 0x61, 0x62].contains op

/-- The device state accepts the command; a chunk or a commit outside UPDATE is refused (18 R526; 21 R622, R632; log 43). -/
def State.devAccepts (s : State) (op : Nat) : Bool :=
  (!(s.nv.lifecycle == 4) || !([0x30, 0x50, 0x54].contains op)) && (match s.dstate with
  | .init => false
  | .ready => op != 0x51 && op != 0x52
  | .update => infoSet op || op == 0x51 || op == 0x52
  | .confirm => op != 0x50 && op != 0x51 && op != 0x52
  | .recovery => infoSet op || [0x50, 0x53, 0x54].contains op
  | .wiping => op == 0x01 || op == 0x60
  | .fault => infoSet op || op == 0x54)

/-- The code of a tenant state (18 R528). -/
def TState.code : TState → Nat
  | .none => 0 | .active => 1 | .quiescing => 2 | .quiesced => 3 | .resetting => 4 | .destroying => 5

/-- The code of a device state (18 R526). -/
def DevState.code : DevState → Nat
  | .init => 0 | .ready => 1 | .update => 2 | .confirm => 3 | .recovery => 4 | .wiping => 5 | .fault => 6

/-- TSTATE of a function (18 R528). -/
def State.tstateByte (s : State) (f : Nat) : Nat := (s.tenant f).tstate.code + (if (s.tenant f).mig.isSome then 128 else 0)

/-- The target tenant's state allows the command (18 R529, R531). -/
def State.tenantAccepts (s : State) : Bool :=
  let x := s.tenant (s.mbTarget)
  let live := x.tstate == .active || x.tstate == .quiescing || x.tstate == .quiesced
  match s.mbOp with
  | 0x10 | 0x20 | 0x22 => x.tstate == .active
  | 0x11 | 0x21 | 0x31 => live
  | 0x30 => x.tstate == .none
  | 0x32 => if s.mbPay 0 1 = 2 then x.tstate == .quiescing || x.tstate == .quiesced else x.tstate == .active
  | 0x33 | 0x34 => x.tstate == .quiesced || (x.ent.compat && x.tstate == .active)
  | 0x38 => live && x.mig.isNone
  | 0x39 => x.mig.isSome
  | _ => true

/-- An image is used by a resident query of its tenant (04 R119, R120). -/
def State.imageUsed (s : State) (f h : Nat) : Bool :=
  s.works.any (fun p => p.2.f == f && p.2.isRun && p.2.imageOf == h)
    || (s.tenant f).pairs.any (fun p => p.2.waiting.any (fun k => k.runs.contains h))

/-- Step 6: device, tenant, queue, handle and exchange state; what fails names its object (18 R530, R532, R539; 15 R441;
16 R465). -/
def State.mbConflict (s : State) (f : Nat) : Option Nat :=
  let op := s.mbOp
  let q := s.mbPay 0 1
  if !s.devAccepts op || !s.tenantAccepts then some 0
  else match op with
    | 0x10 => if s.host.pcieOnly then some 0 else if (s.pair f q).isSome then some q else none
    | 0x11 => if (s.pair f q).isNone then some q else none
    | 0x21 => if ((s.tenant f).images.find? q).isNone || s.imageUsed f q then some q else none
    | 0x40 => if q = 2 ∧ !s.cad.ptm then some 0 else none
    | 0x41 => (s.krl.xchgs.head?).map (fun x => x.1 % 65536)
    | _ => none

/-- The first of checks 1 to 6 that a request fails: its status and DETAIL (18 R530). -/
def State.mbCheck (s : State) (f : Nat) : Option (Nat × Nat) :=
  let op := s.mbOp
  if mbLen op ≠ some (s.mbHdr 4 2) ∨ s.euntoSeq ≠ s.mbHdr 2 2 then some (0x0101, 0)
  else if s.mbHdr 7 9 ≠ 0 ∨ (mbReserved op).any (fun r => s.mbPay r.1 r.2 != 0) ∨ !s.mbBitsOk then some (0x0102, 0)
  else if (pfOnly op ∧ f ≠ 0) ∨ (s.mbTarget ≠ f ∧ !(f == 0 && namesTarget op)) then some (0x0104, 0)
  else if !s.mbPresent then some (0x0103, 0)
  else if !s.mbRanges f then some (0x0101, 0)
  else (s.mbConflict f).map (fun d => (0x0109, d))

/-! ### The reply (18 R520, R521, R525) -/

/-- The bytes of a reply: the header gives the states as they stood when the command was decided (18 R521). -/
def State.replyBytes (s : State) (tstate status detail : Nat) (payload : List Byte) : List Byte :=
  leBytes 2 (s.mbOp) ++ leBytes 2 (s.mbHdr 2 2) ++ leBytes 2 payload.length ++ leBytes 2 status ++ leBytes 1 s.dstate.code
    ++ leBytes 1 tstate ++ leBytes 2 detail ++ zeros 4 ++ payload

/-- Eunto writes a reply, and is free for the next command; a function that has been reset meanwhile gets none, and its tenant
is reset (18 R520, R521, R525). `d` is the state in which the command was decided. -/
def State.mbReplyAt (s d : State) (f tstate status detail : Nat) (payload : List Byte) : State :=
  let s1 : State := { s with eunto := none, euntoArg := none, euntoMute := false }
  if s.euntoMute then s1.flrTenant f
  else (s1.updMbox f (fun m => { m with
    area := d.replyBytes tstate status detail (if status = 0 then payload else []), busy := false, done := true })).signal f 0

/-- The reply to a command decided in a state. -/
def State.mbReply (s d : State) (f status detail : Nat) (payload : List Byte) : State :=
  s.mbReplyAt d f (d.tstateByte (if d.mbTarget < d.part.funcs then d.mbTarget else f)) status detail payload

/-- MAILBOX_TAKE: Eunto takes the next busy mailbox in rotation; a request that fails a check is answered at once (18 R523,
R530). -/
def execMailboxTake (s : State) : Host.Outcome State Fault Refusal :=
  .next (
    if s.eunto.isSome || s.upd.reboot then s
    else match nextFunc s.euntoLast (fun f => (s.mbox f).busy) with
      | none => s
      | some f =>
        let s1 : State := { s with eunto := some f, euntoLast := f, euntoReq := (s.mbox f).req, euntoSeq := (s.mbox f).seq }
        match s1.mbCheck f with
        | some (c, d) => s1.mbReply s1 f c d []
        | none => s1)

/-- Runs a taken command of a function when its opcode is the given one: decided now, against the state as it stands (18 R523,
R530). -/
def State.mbRun (s : State) (f op : Nat) (g : State → State) : State :=
  if s.eunto = some f ∧ s.mbOp = op then
    if s.euntoArg.isSome then g s
    else match s.mbCheck f with
      | some (c, d) => s.mbReply s f c d []
      | none => g s
  else s

/-- Who is told of a tenant's new state when a mailbox command of f brings it (18 R522). -/
def tellOf (f t : Nat) : List Nat := if t = f then [] else [t]

/-! ### Information (18 R533, R534; 23 R682, R691) -/

/-- DEV_INFO (18 R533). -/
def execDevInfo (f : Nat) (s : State) : Host.Outcome State Fault Refusal :=
  .next (s.mbRun f 0x01 (fun s => s.mbReply s f 0 0 (s.devInfo f)))

/-- CAP_QUERY page 0: the capability page under one even CGEN (18 R534). -/
def execCapQueryPage (f : Nat) (s : State) : Host.Outcome State Fault Refusal :=
  .next (s.mbRun f 0x02 (fun s => if s.mbPay 0 1 = 0 then s.mbReply s f 0 0 (s.capPage (s.mbTarget)) else s))

/-- CAP_QUERY page 1: the target tenant's entitlement record (18 R534). -/
def execCapQueryEntitlement (f : Nat) (s : State) : Host.Outcome State Fault Refusal :=
  .next (s.mbRun f 0x02 (fun s => if s.mbPay 0 1 = 1 then s.mbReply s f 0 0 (s.tenant (s.mbTarget)).ent.bytes else s))

/-- HEALTH_REPORT (23 R691). -/
def execHealthReport (f : Nat) (s : State) : Host.Outcome State Fault Refusal :=
  .next (s.mbRun f 0x60 (fun s => s.mbReply s f 0 0 s.healthBytes))

/-- A record of the error log (23 R680). -/
def ErrRec.bytes (r : ErrRec) : List Byte :=
  let b := leBytes 8 r.seq ++ leBytes 8 r.tick ++ leBytes 2 r.event ++ leBytes 1 r.cls ++ leBytes 1 r.func ++ leBytes 1 r.ukind ++ zeros 1
    ++ leBytes 2 r.unit ++ leBytes 2 r.status ++ zeros 2 ++ leBytes 4 r.count ++ leBytes 8 r.addr ++ leBytes 16 r.detail ++ zeros 4
  b ++ leBytes 4 (crc32c b)

/-- ERRLOG_READ copies the records a function may see, as many as fit (18 R540; 23 R682). -/
def execErrlogRead (f : Nat) (s : State) : Host.Outcome State Fault Refusal :=
  .next (s.mbRun f 0x62 (fun s =>
    let buf := s.mbPay 0 8
    let cap := s.mbPay 8 4
    if !s.rangeOk f buf cap 2 then s.mbReply s f 0x0105 0 []
    else
      let all := s.errlog.recs.reverse
      let oldest := ((all.head?).map (·.seq)).getD s.errlog.nextSeq
      let seen := all.filter (fun r => decide (s.mbPay 0x10 8 ≤ r.seq) && (f == 0 || r.func == f))
      let out := seen.take (cap / 64)
      let next := (((seen.drop (cap / 64)).head?).map (·.seq)).getD s.errlog.nextSeq
      (s.writeBytes f buf (out.flatMap ErrRec.bytes)).mbReply s f 0 0 (leBytes 4 out.length ++ zeros 4 ++ leBytes 8 next ++ leBytes 8 oldest)))

/-! ### Queues (18 R539; 17 R484, R485; 19 R565) -/

/-- QUEUE_CREATE: the pair, and its command work area (18 R539; 17 R484, R485; 19 R565). -/
def execQueueCreate (f : Nat) (s : State) : Host.Outcome State Fault Refusal :=
  .next (s.mbRun f 0x10 (fun s =>
    let p := s.mbPay
    if !s.rangeOk f (p 8 8) (64 * p 0x10 4) 3 || !s.rangeOk f (p 0x18 8) (16 * p 0x14 4) 3 then s.mbReply s f 0x0105 0 []
    else match s.place f 65536 64 with
      | none => s.mbReply s f 0x0307 0 []
      | some (a, s1) =>
        let x : QPair := { vector := p 1 1, coalesce := p 4 4, sqBase := p 8 8, sqN := p 0x10 4, cqBase := p 0x18 8, cqN := p 0x14 4, area := a }
        (s1.updTenant f (fun t => { t with pairs := t.pairs ++ [(p 0 1, x)] })).mbReply s f 0 0 []))

/-- The commands of a pair that have not ended. -/
def State.pairBusy (s : State) (f q : Nat) : Bool := s.works.any (fun p => p.2.f == f && p.2.q == q && p.2.result.isNone)

/-- QUEUE_DELETE begins: fetching stops, the pair's resident queries are cancelled, its open batch is closed (18 R539). -/
def State.beginDelete (s : State) (f q : Nat) : State :=
  let s1 := (s.updPair f q (fun x => { x with deleting := some 0, recheck := false })).closeBatch f q
  (s1.works.filter (fun p => p.2.f == f && p.2.q == q && s1.cancellable p.1 p.2)).foldl (fun (s : State) p => s.cancelQuery p.1 p.2) s1

/-- QUEUE_DELETE ends once the pair's commands have: completions that no slot takes are discarded, the area is freed, the pair
is absent (18 R539; 19 R565). -/
def State.endDelete (s : State) (f q : Nat) : State :=
  if s.pairBusy f q then s
  else
    let s1 := s.drainCompletions f q 65536
    match s1.pair f q with
    | none => s1.mbReplyAt s1 f (s1.euntoArg.getD 0) 0 0 (leBytes 4 0)
    | some x =>
      let n := (x.deleting.getD 0) + x.waiting.length
      let s2 := ((s1.unwaitFor (x.waiting.flatMap (·.covers))).settleCancels s1.works.length).unplace f x.area
      let s3 : State := { s2 with works := s2.works.filter (fun p => p.2.f != f || p.2.q != q) }
      (s3.updTenant f (fun t => { t with pairs := t.pairs.erase q })).mbReplyAt s1 f (s1.euntoArg.getD 0) 0 0 (leBytes 4 n)

/-- QUEUE_DELETE (18 R539). -/
def execQueueDelete (f : Nat) (s : State) : Host.Outcome State Fault Refusal :=
  .next (s.mbRun f 0x11 (fun s =>
    let q := s.mbPay 0 1
    if s.euntoArg.isSome then s.endDelete f q
    else (({ s with euntoArg := some (s.tstateByte f) }).beginDelete f q).endDelete f q))

/-! ### Images and Bramble lists (04 R118, R119; 13 R388) -/

/-- Replies once every array has taken its load lists (13 R384, R388). -/
def State.replyQuiet (s d : State) (f : Nat) (payload : List Byte) : State :=
  if s.brmQuiet then s.mbReply d f 0 0 payload else s

/-- The reply payload of PIPE_LOAD for a handle. -/
def State.loadReply (s : State) (f h : Nat) : List Byte :=
  leBytes 1 h ++ zeros 7 ++ leBytes 8 (getLE ((((s.tenant f).images.find? h).map (·.raw)).getD []) 0x18 8)

/-- An image that passes every check is copied with its scratch reservation, and its lists go to the arrays (04 R118). -/
def State.loadImage (s : State) (f : Nat) (b : List Byte) : State :=
  let x := s.tenant f
  let scr := imgScratch b * x.ent.tileBurst
  match s.place f b.length 64 with
  | none => s.mbReply s f 0x0307 14 []
  | some (a, s1) => match (if scr = 0 then some (a, s1) else s1.place f scr 64) with
    | none => s.mbReply s f 0x0307 14 []
    | some (sc, s2) => match s.loadClaims f b with
      | some c => s.mbReply s f c 15 []
      | none =>
        let h := ((List.range 64).find? (fun h => (x.images.find? h).isNone)).getD 0
        let im : Image := { addr := a, scratch := sc, raw := b, claims := imgClaims b }
        let s3 := (s2.writeBytes f a b).updTenant f (fun t => { t with images := t.images ++ [(h, im)] })
        let s4 := (imgLists b).foldl (fun (s : State) l => s.brmLoad l.1 ((s.bram l.1).opsOf f l.2)) s3
        let s5 : State := { s4 with euntoArg := some h }
        s5.replyQuiet s5 f (s5.loadReply f h)

/-- PIPE_LOAD (04 R118; 18 R539; log 37). -/
def execPipeLoad (f : Nat) (s : State) : Host.Outcome State Fault Refusal :=
  .next (s.mbRun f 0x20 (fun s => match s.euntoArg with
    | some h => s.replyQuiet s f (s.loadReply f h)
    | none =>
      let a := s.mbPay 0 8
      let n := s.mbPay 8 4
      if !s.rangeOk f a n 1 then s.mbReply s f 0x0105 0 []
      else if 64 * 2 ^ 20 < n then s.mbReply s f (if getLE (s.readBytes (a + 8) 4).1 0 4 = n then 0x0108 else 0x0106)
          (if getLE (s.readBytes (a + 8) 4).1 0 4 = n then 2 else 1) []
      else
        let r := s.readBytes a n
        if r.2 then s.mbReply s f 0x0401 0 []
        else match s.loadCheck f n r.1 with
          | some (step, c) => s.mbReply s f c step []
          | none => s.loadImage f r.1))

/-- PIPE_UNLOAD frees an image, its scratch reservation and its Bramble entries (04 R119). -/
def execPipeUnload (f : Nat) (s : State) : Host.Outcome State Fault Refusal :=
  .next (s.mbRun f 0x21 (fun s =>
    if s.euntoArg.isSome then s.replyQuiet s f []
    else
      let h := s.mbPay 0 1
      match (s.tenant f).images.find? h with
      | none => s.mbReply s f 0x0109 h []
      | some im =>
        let s1 := (s.unplace f im.addr).unplace f im.scratch
        let s2 := s1.updTenant f (fun t => { t with images := t.images.erase h })
        let s3 := im.claims.foldl (fun (s : State) c => s.brmLoad c.1 [.inval (64 * (s.bram c.1).base f + c.2)]) s2
        ({ s3 with euntoArg := some 0 }).replyQuiet s3 f []))

/-- BRAMBLE_LOAD applies one list of the function (13 R388; 18 R539). -/
def execBrambleLoad (f : Nat) (s : State) : Host.Outcome State Fault Refusal :=
  .next (s.mbRun f 0x22 (fun s => match s.euntoArg with
    | some n => s.replyQuiet s f (leBytes 4 n)
    | none =>
      let a := s.mbPay 0 8
      let n := s.mbPay 8 4
      if !s.rangeOk f a n 1 then s.mbReply s f 0x0105 0 []
      else
        let r := s.readBytes a n
        if r.2 then s.mbReply s f 0x0401 0 []
        else if n ≠ 16 + 48 * getLE r.1 8 4 ∨ n < 16 then s.mbReply s f 0x0106 0 []
        else match brlOf r.1 with
          | none => s.mbReply s f 0x0501 0 []
          | some (arr, ops) =>
            if !s.brmOn arr then s.mbReply s f 0x0103 0 []
            else if (brlIndices ops).any (fun i => !s.brmHolds f arr i) then s.mbReply s f 0x010A 0 []
            else match (brlIndices ops).find? (fun i => (s.tenant f).claims.contains (arr, i)) with
              | some _ => s.mbReply s f 0x0109 0 []
              | none =>
                let s1 : State := { s.brmLoad arr ((s.bram arr).opsOf f ops) with euntoArg := some ops.length }
                s1.replyQuiet s1 f (leBytes 4 ops.length)))

/-- BRAMBLE_UPDATE_STEP: Eunto performs one step of an array's next update (13 R384). -/
def execBrambleUpdateStep (a : Nat) (s : State) : Host.Outcome State Fault Refusal :=
  .next (if s.brmOn a then s.updBrm a Bram.step else s)

/-! ### Grants (20 R579 to R583; 12 R339; 13 R376) -/

/-- Sums of the guarantees of the tenants other than one. -/
def State.guarOf (s : State) (t : Nat) (g : Entitle → Nat) : Nat :=
  s.tenants.foldl (fun a p => if p.1 = t ∨ p.2.tstate = .none then a else a + g p.2.ent) 0

/-- The lowest run of free windows of an array for a function, its own counting as free (13 R376; 20 R583). -/
def State.freeWindows (s : State) (a t n : Nat) : Option Nat :=
  let b := s.bram a
  let taken (w : Nat) : Bool := b.range.any (fun p => p.1 != t && (let k := field p.2 8 8; let o := field p.2 0 7; decide (o ≤ w ∧ w < o + k)))
  (List.range (129 - n)).find? (fun o => (List.range n).all (fun i => !taken (o + i)))

/-- Check 2: what the other tenants leave (20 R579). -/
def State.grantsFit (s : State) (t : Nat) (e : Entitle) : Bool :=
  decide (s.guarOf t (·.tileGuar) + e.tileGuar ≤ countOn 96 s.tileOn) && decide (s.guarOf t (·.bwGuar) + e.bwGuar ≤ 256)
    && (List.range 4).all (fun a => e.windows a == 0 || (s.freeWindows a t (e.windows a)).isSome)
    && (e.xchgCount == 0 || decide (e.xchgBase + e.xchgCount ≤ 65536) && s.tenants.all (fun p => p.1 == t || p.2.tstate == .none
      || decide (p.2.ent.xchgBase + p.2.ent.xchgCount ≤ e.xchgBase) || decide (e.xchgBase + e.xchgCount ≤ p.2.ent.xchgBase) || p.2.ent.xchgCount == 0))

/-- Gives a function its range on an array; entries move with a range that moves (13 R376). -/
def State.giveWindows (s : State) (t : Nat) (e : Entitle) : State :=
  (List.range 4).foldl (fun (s : State) a =>
    let b := s.bram a
    let n := e.windows a
    match (if n = 0 then some 0 else s.freeWindows a t n) with
    | none => s
    | some o =>
      if n = b.nwin t then s
      else
        let lo := 64 * b.base t
        let mine := b.ents.filter (fun x => decide (lo ≤ x.1 ∧ x.1 < lo + 64 * b.nwin t))
        let moved := (mine.filter (fun x => decide (x.1 < lo + 64 * n))).map (fun x => (x.1 - lo + 64 * o, x.2))
        let rest := b.ents.filter (fun x => !decide (lo ≤ x.1 ∧ x.1 < lo + 64 * b.nwin t))
        s.updBrm a (fun b => { b with
          ents := rest ++ moved, range := if n = 0 then b.range.erase t else b.range.set t (BitVec.ofNat 64 (o + n * 256)) })) s

/-- The number of functions that a channel serves. -/
def State.cmpLoad (s : State) (c : Nat) : Nat := countOn 64 (fun f => (s.cmpChan c).funcs.getLsbD f)

/-- Assigns a function its compression channels: those it has while its count allows, then those that serve the fewest, ties
from a free place on; channels 0 and 1 as named (12 R339; log 35). -/
def State.giveChannels (s : State) (t : Nat) (e : Entitle) : State :=
  let ord := s.ordinary
  let has := (ord.filter (fun c => (s.cmpChan c).funcs.getLsbD t)).take e.cmpCh
  let r := s.free
  let k := r.1.toNat % max 1 ord.length
  let rest := (sortBy (fun (a b : Nat) => decide (s.cmpLoad a ≤ s.cmpLoad b)) (ord.drop k ++ ord.take k)).filter (fun c => !has.contains c)
  let mine := has ++ rest.take (e.cmpCh - has.length) ++ (List.range 2).filter (fun c => e.drupe / 2 ^ c % 2 == 1)
  (List.range 16).foldl (fun (s : State) c =>
    let f := (s.cmpChan c).funcs
    let f' := if mine.contains c then f ||| ((1 : Word) <<< t) else f &&& ~~~((1 : Word) <<< t)
    if f = f' then s else { s with cmp := s.cmp.upd c {} (fun x => { x with funcs := f' }) }) r.2

/-- TENANT_CREATE builds the allocation and the grants (20 R579 to R583; 18 R536). -/
def execTenantCreate (f : Nat) (s : State) : Host.Outcome State Fault Refusal :=
  .next (s.mbRun f 0x30 (fun s =>
    let t := s.mbTarget
    let e := entitleOf (s.euntoReq.drop 16)
    if !s.grantsFit t e then s.mbReply s f 0x0108 0 []
    else match s.findMemory ((e.memBytes - e.guarded) / 2 ^ 24) (e.guarded / (14 * 2 ^ 20)) ((e.dispatchMib + 15) / 16) with
      | none => s.mbReply s f 0x0307 0 []
      | some (ex, d) =>
        let s0 : State := { s with freeCtr := s.freeCtr + 1 }
        let s1 := s0.updTenant t (fun x => { x with
          alloc := ex, used := [], retired := [], ent := e, gen := 0, usage := {}, images := [], queries := [], pairs := [], mig := none, quiesce := none,
          disp := { x.disp with areaBase := d, areaLen := e.dispatchMib * 2 ^ 20, tasks := [], onchip := [], spill := [], heads := [] } })
        let s2 := (((s1.giveWindows t e).giveChannels t e).drawCtxKey t).remap
        (((s2.setTState t .active (tellOf f t)).pageChanged).mbReply s f 0 0 (leBytes 8 (allocLen ex) ++ leBytes 8 d))))

/-- What a changed record would take from a loaded image or an open exchange: its handle or identifier (18 R536). -/
def State.takesAway (s : State) (t : Nat) (e : Entitle) : Option Nat :=
  let x := s.tenant t
  let bad (im : Image) : Bool :=
    let caps := getLE im.raw 0x10 8
    (caps % 2 == 1 && e.bramble == 0) || (caps / 2 % 2 == 1 && e.drupe == 0)
      || (imgLists im.raw).any (fun l => (brlIndices l.2).any (fun i => decide (64 * e.windows l.1 ≤ i)))
  match List.find? (fun (p : Nat × Image) => bad p.2) x.images with
  | some p => some p.1
  | none => (List.find? (fun (p : Nat × Xchg) => p.2.f == t && (decide (p.1 < e.xchgBase) || decide (e.xchgBase + e.xchgCount ≤ p.1))) s.krl.xchgs).map (·.1 % 65536)

/-- The scratch reservations of a tenant's images for another burst share; none where the allocation has no room (04 R118). -/
def State.reScratch (s : State) (t burst : Nat) : Option State :=
  (s.tenant t).images.foldl (fun (o : Option State) p => o.bind (fun s =>
    let n := imgScratch p.2.raw
    if n = 0 ∨ burst ≤ (s.tenant t).ent.tileBurst then some s
    else (s.place t (n * burst) 64).map (fun r =>
      (r.2.updTenant t (fun x => { x with images := x.images.upd p.1 p.2 (fun im => { im with scratch := r.1 }) })).retire t p.2.scratch))) (some s)

/-- QOS_SET applies a changed record (18 R536; 20 R583). -/
def execQosSet (f : Nat) (s : State) : Host.Outcome State Fault Refusal :=
  .next (s.mbRun f 0x31 (fun s =>
    let t := s.mbTarget
    let e := entitleOf (s.euntoReq.drop 16)
    let o := (s.tenant t).ent
    if e.memBytes ≠ o.memBytes ∨ e.guarded ≠ o.guarded ∨ e.dispatchMib ≠ o.dispatchMib ∨ e.compat ≠ o.compat then s.mbReply s f 0x0101 0 []
    else match s.takesAway t e with
      | some d => s.mbReply s f 0x0109 d []
      | none =>
        if !s.grantsFit t e then s.mbReply s f 0x0108 0 []
        else match s.reScratch t e.tileBurst with
          | none => s.mbReply s f 0x0307 0 []
          | some s1 => (((s1.giveWindows t e).giveChannels t e).updTenant t (fun x => { x with ent := e })).mbReply s f 0 0 []))

/-! ### Quiesce, reset, destruction (20 R593 to R600; 18 R537) -/

/-- The tenant's fetching stops and it is QUIESCING (20 R593). -/
def State.beginQuiesce (s : State) (f t : Nat) (bound : Option Nat) : State :=
  ((s.haltPairs t).updTenant t (fun x => { x with quiesce := some bound })).setTState t .quiescing (tellOf f t)

/-- TENANT_QUIESCE mode 0 (20 R593, R594). -/
def execQuiesceDrain (f : Nat) (s : State) : Host.Outcome State Fault Refusal :=
  .next (s.mbRun f 0x32 (fun s => if s.mbPay 0 1 = 0 then
      (s.beginQuiesce f (s.mbTarget) (some (s.ticks + s.mbPay 4 4))).mbReply s f 0 0 [] else s))

/-- TENANT_QUIESCE mode 1 (20 R593, R594). -/
def execQuiesceCancel (f : Nat) (s : State) : Host.Outcome State Fault Refusal :=
  .next (s.mbRun f 0x32 (fun s => if s.mbPay 0 1 = 1 then
      ((s.beginQuiesce f (s.mbTarget) none).cancelAll (s.mbTarget)).mbReply s f 0 0 [] else s))

/-- TENANT_QUIESCE mode 2 (20 R596). -/
def execQuiesceResume (f : Nat) (s : State) : Host.Outcome State Fault Refusal :=
  .next (s.mbRun f 0x32 (fun s => if s.mbPay 0 1 = 2 then
      let t := s.mbTarget
      (((s.updTenant t (fun x => { x with quiesce := none })).wakePairs t).setTState t .active (tellOf f t)).mbReply s f 0 0 [] else s))

/-- TENANT_RESET (20 R597, R602; 18 R537). -/
def execTenantReset (f : Nat) (s : State) : Host.Outcome State Fault Refusal :=
  .next (s.mbRun f 0x33 (fun s => (s.resetTenant (s.mbTarget) false (tellOf f (s.mbTarget))).mbReply s f 0 0 []))

/-- TENANT_DESTROY (20 R600; 18 R537). -/
def execTenantDestroy (f : Nat) (s : State) : Host.Outcome State Fault Refusal :=
  .next (s.mbRun f 0x34 (fun s => (s.resetTenant (s.mbTarget) true (tellOf f (s.mbTarget))).mbReply s f 0 0 []))

/-! ### Migration logging (18 R538; 20 R590 to R592) -/

/-- MIGRATE_LOG_START (18 R538; 20 R590). -/
def execMigrateLogStart (f : Nat) (s : State) : Host.Outcome State Fault Refusal :=
  .next (s.mbRun f 0x38 (fun s =>
    let t := s.mbTarget
    let p := s.mbPay
    let pages := (allocLen (s.tenant t).alloc + 65535) / 65536
    if !s.rangeOk f (p 0 8) (p 0x10 8 / 32768) 3 || p 0 8 / 2 ^ 56 != 1 || !s.rangeOk f (p 0x18 8) ((pages + 7) / 8) 3 || p 0x18 8 / 2 ^ 56 != 1 then
      s.mbReply s f 0x0105 0 []
    else (s.updTenant t (fun x => { x with
      mig := some { hostBase := p 8 8, hostLen := p 0x10 8, hostBmp := p 0 8, devBmp := p 0x18 8 } })).mbReply s f 0 0 []))

/-- MIGRATE_LOG_STOP replies with the counts of bits set (18 R538; 20 R592). -/
def execMigrateLogStop (f : Nat) (s : State) : Host.Outcome State Fault Refusal :=
  .next (s.mbRun f 0x39 (fun s =>
    let t := s.mbTarget
    match (s.tenant t).mig with
    | none => s
    | some m => (s.updTenant t (fun x => { x with mig := none })).mbReply s f 0 0 (leBytes 8 m.hostSet ++ leBytes 8 m.devSet)))

/-! ### Time and the mesh (18 R540; 14 R407, R411; 15 R441) -/

/-- The reply payload of TIME_ALIGN (18 R540). -/
def State.timeReply (s : State) : List Byte :=
  leBytes 8 s.ticks ++ leBytes 8 (wrapInt 64 s.cad.hostOfs) ++ leBytes 1 s.cad.state ++ leBytes 1 s.cad.hops ++ zeros 2
    ++ leBytes 4 (if s.cad.state = 0 then s.ownKey else s.cad.key)

/-- Runs TIME_ALIGN with an OP. -/
def State.timeAlign (s : State) (f op : Nat) (g : State → State) : State :=
  s.mbRun f 0x40 (fun s => if s.mbPay 0 1 = op then (let s1 := g s; s1.mbReply s f 0 0 s1.timeReply) else s)

/-- TIME_ALIGN OP 0 reads the time (18 R540). -/
def execTimeAlignRead (f : Nat) (s : State) : Host.Outcome State Fault Refusal := .next (s.timeAlign f 0 id)

/-- TIME_ALIGN OP 1 sets the priority of the master key (14 R407). -/
def execTimeAlignPriority (f : Nat) (s : State) : Host.Outcome State Fault Refusal :=
  .next (s.timeAlign f 1 (fun s => s.updCad (fun c => { c with prio := s.mbPay 1 1 })))

/-- TIME_ALIGN OP 2 names the host epoch and enables host steering (14 R411). -/
def execHostSteeringOn (f : Nat) (s : State) : Host.Outcome State Fault Refusal :=
  .next (s.timeAlign f 2 (fun s => s.updCad (fun c => { c with epoch := some (s.mbPay 8 8) })))

/-- TIME_ALIGN OP 3 disables host steering (14 R411). -/
def execHostSteeringOff (f : Nat) (s : State) : Host.Outcome State Fault Refusal :=
  .next (s.timeAlign f 3 (fun s => s.updCad (fun c => { c with epoch := none, host := false })))

/-- KRELOR_SET stores node, dimensions and the modes of ports 6 and 7 for the next module reset (15 R441; 18 R540). -/
def execKrelorSet (f : Nat) (s : State) : Host.Outcome State Fault Refusal :=
  .next (s.mbRun f 0x41 (fun s =>
    let p := s.mbPay
    ({ s with nv := { s.nv with
        node := BitVec.ofNat 18 (p 0 4), dims := [p 4 1, p 5 1, p 6 1], port6 := BitVec.ofNat 32 (p 8 4), port7 := BitVec.ofNat 32 (p 12 4) } }).mbReply s f 0 0 []))

end Sys2Proof.Machine
end

