-- ==== Sys2Proof/Machine/Boot.lean ====
section
/-! DEFINITION. Boot, start-up and the resets of the module and of the host link (16 R465, R466, R470, R471; 18 R525, R529; 21 R610 to
R613, R633; 22 R656 to R658; 23 R684 to R688). -/

namespace Sys2Proof.Machine

/-! ### Writing caches back -/

/-- Every line that some cache, message or open transaction of the device holds. -/
def State.knownLines (s : State) : List Nat :=
  (s.slices.flatMap (fun p => p.2.data.map (·.2.line) ++ p.2.txns.map (·.msg.line)) ++ s.net.map (·.line)
    ++ s.tiles.flatMap (fun p => p.2.l1.d.map (·.2.line) ++ p.2.l1.vbuf.map (·.line) ++ p.2.l1.dbuf.toList.map (·.line) ++ p.2.l1.reqs.map (·.line))).eraseDups

/-- Every line that differs from what lies below is written there (23 R675). -/
def State.writeBack (s : State) : State :=
  s.knownLines.foldl (fun (t : State) l => if s.cohRead l = s.below l then t else t.putBelow l (s.cohRead l).1 (BitVec.allOnes 64) (s.cohRead l).2) s

/-- The first-level caches lose their lines and locks; their registers stay (09 R263). -/
def L1.emptied (c : L1) : L1 := { c with d := [], i := [], vbuf := [], dbuf := none, ibuf := none, lock := 0 }

/-- Every cache and directory is empty. -/
def State.emptyCaches (s : State) : State :=
  { s with tiles := s.tiles.map (fun p => (p.1, { p.2 with l1 := p.2.l1.emptied })),
           slices := s.slices.map (fun p => (p.1, { p.2 with data := [], plru := [], dir := [], dirPtr := [] })) }

/-! ### The boot ROM (21 R611, R612, R628, R637) -/

/-- The directory copy in force: valid, with the higher DSEQ (21 R611). -/
def NonVol.dir (n : NonVol) : FlashDir :=
  if n.dirA.valid && (!n.dirB.valid || decide (n.dirB.dseq < n.dirA.dseq)) then n.dirA else n.dirB

/-- Writes the directory: the older copy, with DSEQ + 1 (21 R628). -/
def NonVol.writeDir (n : NonVol) (g : FlashDir → FlashDir) : NonVol :=
  let d := { g n.dir with dseq := n.dir.dseq + 1, valid := true }
  if n.dirA.valid && (!n.dirB.valid || decide (n.dirB.dseq < n.dirA.dseq)) then { n with dirB := d } else { n with dirA := d }

/-- The boot ROM selects an image: what it leaves in flash, whether Keel boots, and whether the boot succeeds. Bits 0 and 1 of
`img` say whether the active slot and Keel read back as they were written (21 R611, R612, R637). -/
def NonVol.boot (n : NonVol) (img : BitVec 2) : NonVol × Bool × Bool :=
  let d := n.dir
  let try_ := n.dirA.valid || n.dirB.valid
  let pick := try_ && (d.slotState == 3 || (d.slotState == 2 && d.attempts == 0))
  if pick && n.slot.good && img.getLsbD 0 && decide (n.svn ≤ d.svn) then
    (if d.slotState = 2 then n.writeDir (fun d => { d with attempts := 1 }) else n, false, true)
  else
    (if pick || (try_ && d.slotState == 2) then n.writeDir (fun d => { d with slotState := 4 }) else n, true, n.keel.good && img.getLsbD 1)

/-- The device after the boot ROM and the loader: what runs, and the state the mailbox comes up in (18 R526; 21 R611; 04 R93). -/
def State.bootUp (s : State) (img : BitVec 2) : State :=
  let r := s.nv.boot img
  let pending := decide (s.nv.dir.slotState = 2)
  { s with nv := r.1, upd := { s.upd with keel := r.2.1 },
           runtimeVer := if r.2.1 then 0 else ((r.1.slot.comps[2]?).map (·.ver)).getD 0,
           dstate := if !r.2.2 then .fault else if r.2.1 then .recovery else if pending then .confirm else .ready }

/-! ### Start-up (22 R657, R658; 11 R308, R309, R327; 15 R441; 23 R684 to R688) -/

/-- The tiles as the runtime starts on them: every enabled tile released, under an active image (06 R156; 22 R658 step 9). -/
def State.startTiles (s : State) : State :=
  { s with tiles := if s.upd.keel || s.dstate == .fault then [] else
      ((List.range s.part.tiles).filter s.tileOn).map (fun t => (t, { core := { pc := s.entryPc, released := true } })) }

/-- A module in its socket from what start-up finds: 0 an empty socket, otherwise the capacity in GiB plus 1,000 times the check
of 23 R688 that fails. -/
def moduleOf (n : Nat) : Module :=
  let check := if n / 1000 = 0 ∧ n ≠ 32 ∧ n ≠ 64 ∧ n ≠ 128 then 3 else n / 1000
  if n = 0 then {} else { present := true, gib := n % 1000, refused := check, usable := check == 0 }

/-- How many sockets the part has (00 R1). -/
def Part.sockets : Part → Nat
  | .aq680 => 4 | _ => 2

/-- Steps 6 to 8: modules validated, channels trained, sets and map formed, memory zero (11 R308, R309, R318, R327; 23 R688). -/
def State.startMemory (s : State) (mods : List Nat) : State :=
  let ms := (List.range s.part.sockets).map (fun m => (m, moduleOf (mods.getD m 0)))
  let up (c : Nat) : Bool := ms.any (fun p => p.1 == c / 8 && p.2.usable)
  let chans := ((List.range s.part.chans).filter up).map (fun c =>
    (c, ({ ctl := 0x9201, trained := true, lfsr := (Config.freeWord (s.freeCtr + c)).setWidth 32 } : Chan)))
  let s1 : State := { s with freeCtr := s.freeCtr + 32, mem := { modules := ms, chans } }
  let s2 := (ms.filter (fun p => p.2.refused != 0)).foldl (fun (s : State) p => s.log 0x28 3 0x7F 3 p.1 0 0 p.2.refused) s1
  s2.remap

/-- KRL_NODE and the registers of ports 6 and 7 as KRELOR_SET left them (15 R441, R458, R460). -/
def NonVol.nodeReg (n : NonVol) : Word :=
  BitVec.ofNat 64 (n.node.toNat + n.dims.getD 0 0 * 2 ^ 24 + n.dims.getD 1 0 * 2 ^ 30 + n.dims.getD 2 0 * 2 ^ 36)

/-- KRL_PORT_CTL of an express or redundant port. -/
def portReg (w : BitVec 32) : Word := BitVec.ofNat 64 (1 + field w 24 2 * 2 ^ 8 + field w 18 3 * 2 ^ 10 + field w 0 18 * 2 ^ 32)

/-- Applies the configuration area to the mesh (15 R441). -/
def State.startKrelor (s : State) : State :=
  if s.part.ports = 0 then s
  else
    let s1 : State := { s with krl := { s.krl with node := s.nv.nodeReg } }
    (s1.updPort 6 (fun k => { k with ctl := portReg s.nv.port6 })).updPort 7 (fun k => { k with ctl := portReg s.nv.port7 })

/-- The key slots after a module reset: 0 to 5 as they were, the others empty (22 R656, R657). -/
def State.resetKeys (s : State) : Tab KeySlot := fusedKeys.filter (fun p => decide (5 < p.1)) ++ s.keys.filter (fun p => decide (p.1 ≤ 5))

/-- The key slots that a move to a lifecycle state erases (21 R622). -/
def erasedSlots (goal : Nat) : List Nat :=
  if goal = 2 then (List.range 56).map (· + 8) else if goal = 4 then 0 :: (List.range 59).map (· + 5) else (List.range 59).map (· + 5)

/-- Key slots are erased (21 R617, R622). -/
def State.eraseSlots (s : State) (l : List Nat) : State :=
  { s with keys := s.keys.map (fun p => (p.1, if l.contains p.1 then { p.2 with kind := 0, len := 0, useAll := false, data := [] } else p.2)),
           nv := { s.nv with identity := s.nv.identity && !l.contains 0 } }

/-- A lifecycle wipe that a module reset has cut short ends before the mailbox leaves INIT (21 R625; 22 R657). -/
def State.endWipe (s : State) : State :=
  if s.nv.wiping then
    let s1 := s.eraseSlots (erasedSlots s.nv.lifecycle)
    { s1 with nv := { s1.nv with wiping := false }, upd := { s1.upd with debug := false } }
  else s

/-- What every module reset leaves: Eunto, tiles, Orchard, dispatcher, engines and memory at their reset values, every tenant
gone; flash, fuses, key slots 0 to 5, the disabled units and the outside of the device as they were (22 R656, R657). -/
def State.afterReset (s : State) : State :=
  { State.reset with
    pending := s.pending, freeCtr := s.freeCtr, part := s.part, entryPc := s.entryPc, nv := s.nv, keys := s.resetKeys, hostMem := s.hostMem,
    hostPoison := s.hostPoison, tileTemp := s.tileTemp, upd := { debug := s.upd.debug }, euntoLast := 63 }

/-- The margin ledger of a row of tiles: the core voltage a tile needs at a level, in microvolts (23 R684). -/
def State.vreq (s : State) (t l : Nat) : Nat := Config.v0 t l * 1000 + 1200 * s.rel.drift.getD t 0 / 1000

/-- The margin of a tile at a level in microvolts (23 R684). -/
def State.margin (s : State) (t l : Nat) : Int := 835000 - (s.vreq t l : Int)

/-- The row rail of a tile. -/
def State.rowOf (s : State) (t : Nat) : Nat := t / s.part.cols

/-- The setpoint of a row rail in mV, rounded up to the 1 mV step (23 R684, R685). -/
def State.railGoal (s : State) (r : Nat) : Nat :=
  (((List.range s.part.tiles).filter (fun t => s.tileOn t && s.rowOf t == r)).foldl (fun a t => max a (s.vreq t s.pw.lmin)) 0 + 15999) / 1000

/-- L_min rises while an enabled tile has a negative margin at it, up to 2 (23 R685). -/
def State.minLevel (s : State) : Nat → Nat
  | 0 => s.pw.lmin
  | k + 1 =>
    let s1 : State := { s with pw := { s.pw with lmin := s.pw.lmin + 1 } }
    if s.pw.lmin < 2 ∧ ((List.range s.part.tiles).filter s.tileOn).any (fun t => decide (s.margin t s.pw.lmin < 0)) then s1.minLevel k else s.pw.lmin

/-- Module cold reset: the whole start-up from the root PLL's lock to the mailbox (22 R656 to R658). -/
def State.coldStart (s : State) (cause : Nat) (mods : List Nat) (straps : BitVec 5) (img : BitVec 2) : State :=
  let s1 : State := { s.afterReset with
    host := { bar2 := s.host.bar2Next, bar2Next := s.host.bar2Next }, errlog := { spill := s.errlog.spill },
    pw := { supply := .up, pwrgd := true, cause := BitVec.ofNat 8 cause, vin := s.pw.vin, pin := s.pw.pin, straps, i3c := s.pw.i3c },
    rel := { drift := s.rel.drift, planned := s.rel.planned, eye := s.rel.eye, eyeGoal := s.rel.eyeGoal },
    krl := { ports := s.krl.ports.map (fun p => (p.1, { cable := p.2.cable })) } }
  let s2 := ((s1.endWipe.startMemory mods).startKrelor).bootUp img
  let l := s2.minLevel 2
  let s3 : State := { s2 with pw := { s2.pw with lmin := l, level := l } }
  let s4 : State := { s3 with rel := { s3.rel with rails := (List.range 8).map (fun r => (r, s3.railGoal r)) } }
  s4.startTiles

/-- Module warm reset: start-up from step 3; clocks, sag level, Cadence, the host link and the Krelor ports go on (22 R656, R658). -/
def State.warmStart (s : State) (cause : Nat) (mods : List Nat) (img : BitVec 2) : State :=
  let s1 : State := { s.afterReset with
    now := s.now, cad := { s.cad with acts := [], trig := [], ovf := [], launched := 0 }, tilesOff := s.tilesOff, slicesOff := s.slicesOff,
    cmpOff := s.cmpOff, dmaOff := s.dmaOff, dgsOff := s.dgsOff, brmOff := s.brmOff, unreliable := s.unreliable,
    host := { s.host with cgen := s.host.cgen + 2 }, errlog := s.errlog, pw := { s.pw with cause := BitVec.ofNat 8 cause, pstate := 0, lanes := [] },
    rel := { s.rel with fenced := [], removing := none, draining := false }, krl := { s.krl with xchgs := [], aborts := [], closed := [] } }
  let s2 := ((s1.endWipe.startMemory mods).startKrelor).bootUp img
  s2.startTiles

/-- MODULE_COLD_RESET: power-on once the regulators have ramped, or a long MOD_RST_N pulse (22 R656, R666). -/
def execModuleColdReset (mods : List Nat) (straps : BitVec 5) (img : BitVec 2) (s : State) : Host.Outcome State Fault Refusal :=
  .next (match s.pw.supply with
    | .ramping | .retrying => s.coldStart 1 mods straps img
    | .up => s.coldStart 3 mods straps img
    | _ => s)

/-- MODULE_WARM_RESET: a MOD_RST_N pulse of 1 µs to under 100 ms (22 R656, R666). -/
def execModuleWarmReset (mods : List Nat) (img : BitVec 2) (s : State) : Host.Outcome State Fault Refusal :=
  .next (if s.pw.supply = .up then s.warmStart 2 mods img else s)

/-- PWR_RST_WARM: a write of PWR_RST.WARM, in every device state (22 R656, R666). -/
def execPwrRstWarm (mods : List Nat) (img : BitVec 2) (s : State) : Host.Outcome State Fault Refusal :=
  .next (if s.pw.supply = .up then s.warmStart 4 mods img else s)

/-! ### Leaving UPDATE (21 R633) -/

/-- An update is given up: the staging area is wiped, the log says so, and the device is where the update began (21 R633). -/
def State.abandonUpdate (s : State) (step : Nat) : State :=
  if s.dstate = .update ∧ !s.upd.reboot then
    ({ s with dstate := if s.upd.fromRecovery then .recovery else .ready, upd := { s.upd with hdr := [], body := [] } }).log 0x51 0 0x7F 7 0 0 0 step
  else s

/-! ### The host link and functions (16 R465, R466, R471; 18 R525, R529) -/

/-- A function-level reset of f: its mailbox, MSI-X state and tenant; a command of f that Eunto has taken runs to its end first
(16 R471; 18 R525, R529). -/
def State.resetFunction (s : State) (f : Nat) : State :=
  let s1 := s.updMbox f (fun m => { m with busy := false, done := false, overrun := false })
  let mine (k : Nat) : Bool := k / 64 == f
  let s2 : State := { s1 with host := { s1.host with
    unmasked := s1.host.unmasked.filter (fun k => !mine k), fnUnmasked := s1.host.fnUnmasked.filter (fun g => g != f), pba := s1.host.pba.filter (fun k => !mine k) } }
  if s2.eunto = some f then { s2 with euntoMute := true } else s2.flrTenant f

/-- Host-memory lines leave L1D and Orchard without writeback, with what was under way for them (16 R466). -/
def State.dropHostLines (s : State) : State :=
  let dev (l : Nat) : Bool := !isHostLine l
  { s with
    tiles := s.tiles.map (fun p => (p.1, { p.2 with
     core := if p.2.l1.reqs.any (fun q => !dev q.line && !q.prefetch) then { p.2.core with stall := none } else p.2.core, l1 := { p.2.l1 with
      d := p.2.l1.d.filter (fun k => dev k.2.line), vbuf := p.2.l1.vbuf.filter (fun v => dev v.line), i := p.2.l1.i.filter (fun k => dev k.2.line),
      dbuf := p.2.l1.dbuf.filter (fun b => dev b.line), ibuf := p.2.l1.ibuf.filter (fun b => dev b.line),
      reqs := p.2.l1.reqs.filter (fun q => dev q.line) } })),
    slices := s.slices.map (fun p => (p.1, { p.2 with
      data := p.2.data.filter (fun k => dev k.2.line), dir := p.2.dir.filter (fun k => dev k.2.line), queue := p.2.queue.filter (fun m => dev m.line),
      txns := p.2.txns.filter (fun x => dev x.msg.line), sink := p.2.sink.filter (fun m => dev m.line), starved := p.2.starved.filter (fun m => dev m.line) })),
    net := s.net.filter (fun m => dev m.line), io := s.io.filter (fun r => dev r.line), d2h := [], bisnp := [], goPend := [] }

/-- Every function is reset, as a hot reset, a link-down event and a PF function-level reset do (16 R466; 21 R633). -/
def State.resetHost (s : State) : State :=
  let s1 := (s.dropHostLines).abandonUpdate 2
  let s2 := (List.range s1.part.funcs).foldl (fun (s : State) f => s.resetFunction f) s1
  { s2 with host := { s2.host with vfEnable := false } }

/-- The link is down. -/
def State.linkLost (s : State) : State := { s with host := { s.host with linkUp := false } }

/-- PERST: PERST_N asserted (16 R466; 22 R656). -/
def execPerst (s : State) : Host.Outcome State Fault Refusal := .next s.resetHost.linkLost

/-- HOT_RESET (16 R466). -/
def execHotReset (s : State) : Host.Outcome State Fault Refusal := .next s.resetHost

/-- LINK_DOWN (16 R466). -/
def execLinkDown (s : State) : Host.Outcome State Fault Refusal := .next s.resetHost.linkLost

/-- PF_FLR: a function-level reset of the PF (16 R466). -/
def execPfFlr (s : State) : Host.Outcome State Fault Refusal := .next s.resetHost

/-- VF_FLR: a function-level reset of a VF (16 R471). -/
def execVfFlr (f : Nat) (s : State) : Host.Outcome State Fault Refusal := .next (if f = 0 then s else s.resetFunction f)

/-- VF_ENABLE_CLEAR: VF Enable is cleared (16 R471). -/
def execVfEnableClear (s : State) : Host.Outcome State Fault Refusal :=
  .next (
    let s1 := ((List.range s.part.funcs).filter (fun f => f != 0)).foldl (fun (s : State) f => s.resetFunction f) s
    { s1 with host := { s1.host with vfEnable := false } })

/-- LINK_UP: the link has trained, at a rate in GT/s and a width, with CXL.cache and CXL.mem granted or not, and PTM enabled or not
(16 R464, R465, R475). -/
def execLinkUp (rate width : Nat) (cxl ptm : Bool) (s : State) : Host.Outcome State Fault Refusal :=
  .next (({ s with host := { s.host with linkUp := true, rate, width, pcieOnly := !cxl } }).updCad (fun c => { c with ptm }))

end Sys2Proof.Machine
end

