-- ==== Sys2Proof/Machine/QuillVec.lean ====
section
/-! DEFINITION. The vector instructions that access no memory (07 R198, R202 to R206). -/

namespace Sys2Proof.Machine

/-- The instruction of a masked form may write vd: a vector vd other than V0 when M is 1 (07 R197). -/
def maskOk (m : Bool) (vd : Reg) : Bool := !m || vd != 0

/-- An element-wise instruction: vd[i] := f(va[i], b) for each active element (07 R195 to R197, R202). -/
def State.vecMap (s : State) (t : Nat) (m x : Bool) (vd va vb : Reg) (f : Nat → Nat → Nat → Nat) : State :=
  s.runInstr t (maskOk m vd) false true (fun c s1 =>
    let w := ewBits c.ew
    let a := c.readV va
    .done (s1.updCore t (fun x1 => x1.writeV vd
      (mapActive w (c.active m) (fun i => f w (elem w a i) (c.operandB w x vb i)) c.vlen (c.readV vd)))))

/-- The mask of the elements below n that are active and satisfy a test. -/
def maskOf (act p : Nat → Bool) : Nat → BitVec 128
  | 0 => 0
  | n + 1 => (if act n && p n then ((1 : BitVec 128) <<< n) else 0) ||| maskOf act p n

/-- A compare: bit i of vd is 1 when element i is active and the comparison holds, every other bit 0 (07 R203). -/
def State.vecCmp (s : State) (t : Nat) (m x : Bool) (vd va vb : Reg) (f : Nat → Nat → Nat → Bool) : State :=
  s.runInstr t true false true (fun c s1 =>
    let w := ewBits c.ew
    let a := c.readV va
    .done (s1.updCore t (fun x1 => x1.writeV vd (maskOf (c.active m) (fun i => f w (elem w a i) (c.operandB w x vb i)) c.vlen))))

/-- Writes the results of a widening instruction: result i to register vd + (i div H), element i mod H at 2 EW, for
each active element below n (07 R204). -/
def putWide (c : Core) (act : Nat → Bool) (h w2 : Nat) (vd : Reg) (f : Nat → Nat → Nat) : Nat → Core
  | 0 => c
  | n + 1 =>
    let r := putWide c act h w2 vd f n
    if act n then
      let reg : Reg := vd + BitVec.ofNat 5 (n / h)
      r.writeV reg (setElem w2 (r.readV reg) (n % h) (f n (elem w2 (c.readV reg) (n % h))))
    else r

/-- The integer an operand spells: va signed for SG 1 and 2, vb signed for SG 1 (07 R205). -/
def dotInt (w v : Nat) (signed : Bool) : Int := if signed then sintOf w v else ((v % 2 ^ w : Nat) : Int)

/-- A widening instruction at EW 32 or less, vd even; ILLEGAL otherwise (07 R201, R204, R205). -/
def State.vecWide (s : State) (t : Nat) (ok m : Bool) (vd : Reg) (f : Core → Nat → Nat → Nat → Nat) : State :=
  s.runInstr t (ok && maskOk m vd && decide (vd.toNat % 2 = 0)) false true (fun c s1 =>
    if 32 < ewBits c.ew then .exc s1 .illegal 0 .fetch none
    else
      let w := ewBits c.ew
      .done (s1.updCore t (fun x => putWide x (c.active m) (s1.vlmax c.ew / 2) (2 * w) vd (f c w) c.vlen)))

/-- Σ over the first n digits of width w of two 32-bit lanes (07 R205). -/
def dotSum (w : Nat) (sa sb : Bool) (a b : Nat) : Nat → Int
  | 0 => 0
  | n + 1 => dotSum w sa sb a b n + dotInt w (a / 2 ^ (w * n)) sa * dotInt w (b / 2 ^ (w * n)) sb

/-- A dot product of each 32-bit lane, digits of width w; ILLEGAL at any EW other than 32 (07 R201, R205). -/
def State.vecDot (s : State) (t : Nat) (m : Bool) (sg : BitVec 2) (acc : Bool) (vd va vb : Reg) (w : Nat) : State :=
  s.runInstr t (maskOk m vd && sg != 3) false true (fun c s1 =>
    if ewBits c.ew ≠ 32 then .exc s1 .illegal 0 .fetch none
    else
      let d := c.readV vd
      .done (s1.updCore t (fun x => x.writeV vd (mapActive 32 (c.active m) (fun i =>
        wrapInt 32 (dotSum w (sg != 0) (sg == 1) (elem 32 (c.readV va) i) (elem 32 (c.readV vb) i) (32 / w)
          + (if acc then ((elem 32 d i : Nat) : Int) else 0))) c.vlen d))))

/-- The active elements below n, in increasing order. -/
def activeList (act : Nat → Bool) (n : Nat) : List Nat := (List.range n).filter act

/-- A reduction of the active elements into rd (07 R206). -/
def State.vecReduce (s : State) (t : Nat) (m : Bool) (rd va : Reg) (f : Nat → List Nat → Word) : State :=
  s.runInstr t true false true (fun c s1 =>
    let w := ewBits c.ew
    .done (s1.updCore t (fun x => x.writeG rd (f w ((activeList (c.active m) c.vlen).map (elem w (c.readV va)))))))

/-- The smallest of a list of integers, or a value for the empty list. -/
def minInt (e : Int) : List Int → Int
  | [] => e
  | a :: r => r.foldl (fun x y => if y < x then y else x) a

/-- The largest of a list of integers, or a value for the empty list. -/
def maxInt (e : Int) : List Int → Int
  | [] => e
  | a :: r => r.foldl (fun x y => if x < y then y else x) a

/-- SETVL: VTYPE.EW := ew, VL := min(ra, VLMAX), rd := VL; codes 5 to 7 are ILLEGAL (07 R198). -/
def execSetvl (t : Nat) (rd ra : Reg) (ew : BitVec 3) (s : State) : Host.Outcome State Fault Refusal :=
  .next (s.runInstr t (decide (ew.toNat < 5)) false true (fun c s1 =>
    let n := Nat.min (c.readG ra).toNat (s1.vlmax ew)
    .done (s1.updCore t (fun x => ({ x with ew := ew, vl := BitVec.ofNat 32 n }).writeG rd (BitVec.ofNat 64 n)))))

/-- VADD: va[i] + b (07 R202) -/
def execVadd (t : Nat) (m x : Bool) (vd va vb : Reg) (s : State) : Host.Outcome State Fault Refusal :=
  .next (s.vecMap t m x vd va vb (fun w a b => (a + b) % 2 ^ w))

/-- VSUB: va[i] − b (07 R202) -/
def execVsub (t : Nat) (m x : Bool) (vd va vb : Reg) (s : State) : Host.Outcome State Fault Refusal :=
  .next (s.vecMap t m x vd va vb (fun w a b => (a + 2 ^ w - b) % 2 ^ w))

/-- VAND: va[i] and b (07 R202) -/
def execVand (t : Nat) (m x : Bool) (vd va vb : Reg) (s : State) : Host.Outcome State Fault Refusal :=
  .next (s.vecMap t m x vd va vb (fun _ a b => a &&& b))

/-- VOR: va[i] or b (07 R202) -/
def execVor (t : Nat) (m x : Bool) (vd va vb : Reg) (s : State) : Host.Outcome State Fault Refusal :=
  .next (s.vecMap t m x vd va vb (fun _ a b => a ||| b))

/-- VXOR: va[i] xor b (07 R202) -/
def execVxor (t : Nat) (m x : Bool) (vd va vb : Reg) (s : State) : Host.Outcome State Fault Refusal :=
  .next (s.vecMap t m x vd va vb (fun _ a b => a ^^^ b))

/-- VSLL: va[i] << the low log2(EW) bits of b (07 R202) -/
def execVsll (t : Nat) (m x : Bool) (vd va vb : Reg) (s : State) : Host.Outcome State Fault Refusal :=
  .next (s.vecMap t m x vd va vb (fun w a b => a * 2 ^ (b % w) % 2 ^ w))

/-- VSRL: va[i] >> the low log2(EW) bits of b, zero fill (07 R202) -/
def execVsrl (t : Nat) (m x : Bool) (vd va vb : Reg) (s : State) : Host.Outcome State Fault Refusal :=
  .next (s.vecMap t m x vd va vb (fun w a b => a / 2 ^ (b % w)))

/-- VSRA: va[i] >> the low log2(EW) bits of b, sign fill (07 R202) -/
def execVsra (t : Nat) (m x : Bool) (vd va vb : Reg) (s : State) : Host.Outcome State Fault Refusal :=
  .next (s.vecMap t m x vd va vb (fun w a b => wrapInt w (sintOf w a / ((2 ^ (b % w) : Nat) : Int))))

/-- VMIN: the smaller, signed (07 R202) -/
def execVmin (t : Nat) (m x : Bool) (vd va vb : Reg) (s : State) : Host.Outcome State Fault Refusal :=
  .next (s.vecMap t m x vd va vb (fun w a b => if sintOf w b < sintOf w a then b else a))

/-- VMAX: the larger, signed (07 R202) -/
def execVmax (t : Nat) (m x : Bool) (vd va vb : Reg) (s : State) : Host.Outcome State Fault Refusal :=
  .next (s.vecMap t m x vd va vb (fun w a b => if sintOf w a < sintOf w b then b else a))

/-- VMINU: the smaller, unsigned (07 R202) -/
def execVminu (t : Nat) (m x : Bool) (vd va vb : Reg) (s : State) : Host.Outcome State Fault Refusal :=
  .next (s.vecMap t m x vd va vb (fun _ a b => Nat.min a b))

/-- VMAXU: the larger, unsigned (07 R202) -/
def execVmaxu (t : Nat) (m x : Bool) (vd va vb : Reg) (s : State) : Host.Outcome State Fault Refusal :=
  .next (s.vecMap t m x vd va vb (fun _ a b => Nat.max a b))

/-- VMUL: (va[i] × b)[EW−1:0] (07 R202) -/
def execVmul (t : Nat) (m x : Bool) (vd va vb : Reg) (s : State) : Host.Outcome State Fault Refusal :=
  .next (s.vecMap t m x vd va vb (fun w a b => a * b % 2 ^ w))

/-- VMULH: (va[i] × b)[2EW−1:EW], signed (07 R202) -/
def execVmulh (t : Nat) (m x : Bool) (vd va vb : Reg) (s : State) : Host.Outcome State Fault Refusal :=
  .next (s.vecMap t m x vd va vb (fun w a b => wrapInt w (sintOf w a * sintOf w b / ((2 ^ w : Nat) : Int))))

/-- VMULHU: (va[i] × b)[2EW−1:EW], unsigned (07 R202) -/
def execVmulhu (t : Nat) (m x : Bool) (vd va vb : Reg) (s : State) : Host.Outcome State Fault Refusal :=
  .next (s.vecMap t m x vd va vb (fun w a b => a * b / 2 ^ w))

/-- VMV: vd[i] := b (07 R202) -/
def execVmv (t : Nat) (m x : Bool) (vd vb : Reg) (s : State) : Host.Outcome State Fault Refusal :=
  .next (s.vecMap t m x vd 0 vb (fun _ _ b => b))

/-- VCMPEQ: holds when va[i] = b (07 R203) -/
def execVcmpeq (t : Nat) (m x : Bool) (vd va vb : Reg) (s : State) : Host.Outcome State Fault Refusal :=
  .next (s.vecCmp t m x vd va vb (fun _ a b => a == b))

/-- VCMPNE: holds when va[i] ≠ b (07 R203) -/
def execVcmpne (t : Nat) (m x : Bool) (vd va vb : Reg) (s : State) : Host.Outcome State Fault Refusal :=
  .next (s.vecCmp t m x vd va vb (fun _ a b => a != b))

/-- VCMPLT: holds when va[i] <, signed b (07 R203) -/
def execVcmplt (t : Nat) (m x : Bool) (vd va vb : Reg) (s : State) : Host.Outcome State Fault Refusal :=
  .next (s.vecCmp t m x vd va vb (fun w a b => decide (sintOf w a < sintOf w b)))

/-- VCMPLTU: holds when va[i] <, unsigned b (07 R203) -/
def execVcmpltu (t : Nat) (m x : Bool) (vd va vb : Reg) (s : State) : Host.Outcome State Fault Refusal :=
  .next (s.vecCmp t m x vd va vb (fun _ a b => decide (a < b)))

/-- VCMPLE: holds when va[i] ≤, signed b (07 R203) -/
def execVcmple (t : Nat) (m x : Bool) (vd va vb : Reg) (s : State) : Host.Outcome State Fault Refusal :=
  .next (s.vecCmp t m x vd va vb (fun w a b => decide (sintOf w a ≤ sintOf w b)))

/-- VCMPLEU: holds when va[i] ≤, unsigned b (07 R203) -/
def execVcmpleu (t : Nat) (m x : Bool) (vd va vb : Reg) (s : State) : Host.Outcome State Fault Refusal :=
  .next (s.vecCmp t m x vd va vb (fun _ a b => decide (a ≤ b)))

/-- VCMPGT: holds when va[i] >, signed b (07 R203) -/
def execVcmpgt (t : Nat) (m x : Bool) (vd va vb : Reg) (s : State) : Host.Outcome State Fault Refusal :=
  .next (s.vecCmp t m x vd va vb (fun w a b => decide (sintOf w b < sintOf w a)))

/-- VCMPGTU: holds when va[i] >, unsigned b (07 R203) -/
def execVcmpgtu (t : Nat) (m x : Bool) (vd va vb : Reg) (s : State) : Host.Outcome State Fault Refusal :=
  .next (s.vecCmp t m x vd va vb (fun _ a b => decide (b < a)))

/-- VCMPGE: holds when va[i] ≥, signed b (07 R203) -/
def execVcmpge (t : Nat) (m x : Bool) (vd va vb : Reg) (s : State) : Host.Outcome State Fault Refusal :=
  .next (s.vecCmp t m x vd va vb (fun w a b => decide (sintOf w b ≤ sintOf w a)))

/-- VCMPGEU: holds when va[i] ≥, unsigned b (07 R203) -/
def execVcmpgeu (t : Nat) (m x : Bool) (vd va vb : Reg) (s : State) : Host.Outcome State Fault Refusal :=
  .next (s.vecCmp t m x vd va vb (fun _ a b => decide (b ≤ a)))

/-- VWMUL: result i := va[i] × vb[i], exact at 2EW, or added to the destination (07 R205) -/
def execVwmul (t : Nat) (m : Bool) (sg : BitVec 2) (a : Bool) (vd va vb : Reg) (s : State) : Host.Outcome State Fault Refusal :=
  .next (s.vecWide t (sg != 3) m vd (fun c w i old =>
    wrapInt (2 * w) (dotInt w (elem w (c.readV va) i) (sg != 0) * dotInt w (elem w (c.readV vb) i) (sg == 1) + (if a then (old : Int) else 0))))

/-- VWCVT: result i := va[i] extended to 2EW; SG 0 zero, 1 sign, others ILLEGAL (07 R205) -/
def execVwcvt (t : Nat) (m : Bool) (sg : BitVec 2) (vd va : Reg) (s : State) : Host.Outcome State Fault Refusal :=
  .next (s.vecWide t (sg == 0 || sg == 1) m vd (fun c w i _ =>
    wrapInt (2 * w) (dotInt w (elem w (c.readV va) i) (sg == 1))))

/-- NDOT: the Nib dot product of each 32-bit lane (07 R205) -/
def execNdot (t : Nat) (m : Bool) (sg : BitVec 2) (a : Bool) (vd va vb : Reg) (s : State) : Host.Outcome State Fault Refusal :=
  .next (s.vecDot t m sg a vd va vb 4)

/-- BDOT: the byte dot product of each 32-bit lane (07 R205) -/
def execBdot (t : Nat) (m : Bool) (sg : BitVec 2) (a : Bool) (vd va vb : Reg) (s : State) : Host.Outcome State Fault Refusal :=
  .next (s.vecDot t m sg a vd va vb 8)

/-- VEXT: rd := sext(va[rb]) if rb < VL and active, else 0 (07 R206) -/
def execVext (t : Nat) (m : Bool) (rd va rb : Reg) (s : State) : Host.Outcome State Fault Refusal :=
  .next (s.runInstr t true false true (fun c s1 =>
    let w := ewBits c.ew
    let i := (c.readG rb).toNat
    let v := elem w (c.readV va) i
    .done (s1.updCore t (fun x => x.writeG rd (if c.active m i then sext64 w v else 0)))))

/-- VEXTU: rd := zext(va[rb]) if rb < VL and active, else 0 (07 R206) -/
def execVextu (t : Nat) (m : Bool) (rd va rb : Reg) (s : State) : Host.Outcome State Fault Refusal :=
  .next (s.runInstr t true false true (fun c s1 =>
    let w := ewBits c.ew
    let i := (c.readG rb).toNat
    let v := elem w (c.readV va) i
    .done (s1.updCore t (fun x => x.writeG rd (if c.active m i then BitVec.ofNat 64 v else 0)))))

/-- VINS: vd[rb] := ra[EW−1:0] if rb < VL and active, else no effect (07 R206) -/
def execVins (t : Nat) (m : Bool) (vd ra rb : Reg) (s : State) : Host.Outcome State Fault Refusal :=
  .next (s.runInstr t (maskOk m vd) false true (fun c s1 =>
    let w := ewBits c.ew
    let i := (c.readG rb).toNat
    .done (s1.updCore t (fun x => if c.active m i then x.writeV vd (setElem w (c.readV vd) i ((c.readG ra).toNat)) else x))))

/-- VCOMPRESS: the active elements of va go to vd[0], vd[1] and so on; M must be 1, vd other than V0 and va (07 R206) -/
def execVcompress (t : Nat) (m : Bool) (vd va : Reg) (s : State) : Host.Outcome State Fault Refusal :=
  .next (s.runInstr t (m && vd != 0 && vd != va) false true (fun c s1 =>
    let w := ewBits c.ew
    let l := (activeList (c.active true) c.vlen).map (elem w (c.readV va))
    .done (s1.updCore t (fun x => x.writeV vd (l.zipIdx.foldl (fun r p => setElem w r p.2 p.1) (c.readV vd))))))

/-- VPOPM: rd := number of 1 bits in va[VL−1:0]; M is ignored (07 R206) -/
def execVpopm (t : Nat) (_m : Bool) (rd va : Reg) (s : State) : Host.Outcome State Fault Refusal :=
  .next (s.runInstr t true false true (fun c s1 =>
    .done (s1.updCore t (fun x => x.writeG rd (BitVec.ofNat 64 ((List.range c.vlen).filter (fun i => (c.readV va).getLsbD i)).length)))))

/-- VFIRSTM: rd := index of the lowest 1 bit in va[VL−1:0], VL when none; M is ignored (07 R206) -/
def execVfirstm (t : Nat) (_m : Bool) (rd va : Reg) (s : State) : Host.Outcome State Fault Refusal :=
  .next (s.runInstr t true false true (fun c s1 =>
    .done (s1.updCore t (fun x => x.writeG rd (BitVec.ofNat 64 (((List.range c.vlen).find? (fun i => (c.readV va).getLsbD i)).getD c.vlen))))))

/-- VREDSUM: Σ sext(va[i]) mod 2^64, 0 for the empty set (07 R206) -/
def execVredsum (t : Nat) (m : Bool) (rd va : Reg) (s : State) : Host.Outcome State Fault Refusal :=
  .next (s.vecReduce t m rd va (fun w l => BitVec.ofInt 64 ((l.map (sintOf w)).sum)))

/-- VREDSUMU: Σ zext(va[i]) mod 2^64, 0 for the empty set (07 R206) -/
def execVredsumu (t : Nat) (m : Bool) (rd va : Reg) (s : State) : Host.Outcome State Fault Refusal :=
  .next (s.vecReduce t m rd va (fun _ l => BitVec.ofNat 64 l.sum))

/-- VREDMIN: the smallest, signed, 2^63 − 1 for the empty set (07 R206) -/
def execVredmin (t : Nat) (m : Bool) (rd va : Reg) (s : State) : Host.Outcome State Fault Refusal :=
  .next (s.vecReduce t m rd va (fun w l => BitVec.ofInt 64 (minInt (2 ^ 63 - 1) (l.map (sintOf w)))))

/-- VREDMAX: the largest, signed, −2^63 for the empty set (07 R206) -/
def execVredmax (t : Nat) (m : Bool) (rd va : Reg) (s : State) : Host.Outcome State Fault Refusal :=
  .next (s.vecReduce t m rd va (fun w l => BitVec.ofInt 64 (maxInt (-(2 ^ 63)) (l.map (sintOf w)))))

/-- VREDMINU: the smallest, unsigned, all ones for the empty set (07 R206) -/
def execVredminu (t : Nat) (m : Bool) (rd va : Reg) (s : State) : Host.Outcome State Fault Refusal :=
  .next (s.vecReduce t m rd va (fun _ l => BitVec.ofInt 64 (minInt (2 ^ 64 - 1) (l.map Int.ofNat))))

/-- VREDMAXU: the largest, unsigned, 0 for the empty set (07 R206) -/
def execVredmaxu (t : Nat) (m : Bool) (rd va : Reg) (s : State) : Host.Outcome State Fault Refusal :=
  .next (s.vecReduce t m rd va (fun _ l => BitVec.ofInt 64 (maxInt 0 (l.map Int.ofNat))))

end Sys2Proof.Machine
end

