-- ==== Sys2Proof/Machine/Window.lean ====
section
/-! DEFINITION. The control window of a tile: its Stroke, dispatcher and engine submission registers as loads and stores
of space 0xFF reach them, and the Blotter window of space 0xFE (06 R158; 03 R81 to R91; 08 R240 to R247; 12 R365 to R368;
13 R393 to R397; 14 R420 to R423; 19 R569 to R576). The spec gives each block's offsets and leaves the block's base in the
window open (log 11). -/

namespace Sys2Proof.Machine

/-- The blocks of the control window. -/
inductive WinBlock where
  | stk | dsp | cmp | brm | cad | dma | dgs
  deriving DecidableEq, Repr

/-- The block and the offset in it of a control-window address: block k lies at 0x1_0000 × k (log 11). -/
def winAt (a : Nat) : Option (WinBlock × Nat) :=
  ([WinBlock.stk, .dsp, .cmp, .brm, .cad, .dma, .dgs][a % 2 ^ 56 / 65536]?).map (fun b => (b, a % 65536))

/-- The state a command's meaning answers; the given one where it answers none. -/
def nextOr (s : State) : Host.Outcome State Fault Refusal → State
  | .next s' => s'
  | _ => s

/-- Whether the register at an offset is 64 bits wide. -/
def winWide (b : WinBlock) (o : Nat) : Bool :=
  match b with
  | .stk => !([0x00, 0x04, 0x10, 0x50, 0x58, 0x78].contains o)
  | .dsp => !([0x08, 0x30, 0x38].contains o)
  | .cmp => !([0x08, 0x18].contains o)
  | .brm => o != 0x08
  | .cad => !(o == 0x08 || (decide (0x60 ≤ o) && decide (o < 0xA0)))
  | .dma => !([0x08, 0x18].contains o)
  | .dgs => o != 0x08

/-- CAD_TRIGn of a function: the oldest pulse and how many are queued (14 R423). -/
def State.cadTrig (s : State) (f n : Nat) : Word :=
  let l := s.cad.trig.getD (f * 8 + n) []
  (BitVec.ofNat 64 (l.headD 0) &&& 0xFFFFFFFFFFFFFFF8) ||| BitVec.ofNat 64 l.length

/-- Reads a register of the control window; a read of DSP_FLAGALLOC, BRM_FIND or BRM_VEC acts (08 R228, R243; 13 R378). -/
def State.winRead (s : State) (t : Nat) (b : WinBlock) (o : Nat) : Word × State :=
  let x := s.tile t
  let f := x.bound.getD 0
  let z (v : BitVec 32) : Word × State := (v.zeroExtend 64, s)
  let n (v : Nat) : Word × State := (BitVec.ofNat 64 v, s)
  match b with
  | .stk => (x.stroke.read o, s)
  | .dsp =>
    let d := s.disp f
    match o with
    | 0x08 => z x.dsp.status
    | 0x10 => (x.dsp.out, s)
    | 0x18 => let r := s.flagAllocRead t; (BitVec.ofNat 64 r.1, r.2)
    | 0x28 => (if x.bound.isSome then d.flags else 0, s)
    | 0x30 => z x.dsp.wstat
    | 0x38 => n (if x.bound.isSome then f * 256 + (s.epochOf f).toNat else 0)
    | 0x40 => n (if x.bound.isSome then d.strayPip.toNat + 2 ^ 32 * d.strayFlag.toNat else 0)
    | 0x48 => n (if x.bound.isSome then d.spill.foldl (fun a p => a + p.2.length) 0 + 2 ^ 32 * d.onchipUsed + 2 ^ 48 * d.slotsUsed else 0)
    | _ => n 0
  | .cmp => match o with
    | 0x08 => z x.eng.cmpSubst
    | 0x18 => n (((List.range 16).filter (fun c => s.cmpOn c && (s.cmpChan c).funcs.getLsbD f && x.bound.isSome)).foldl (fun a c => a + 2 ^ c) 0)
    | _ => n 0
  | .brm =>
    if 0x1000 ≤ o ∧ o < 0x2000 then (if o % 0x400 / 8 < 128 then s.brmVecRead t ((o - 0x1000) / 0x400) (o % 0x400 / 8) else n 0)
    else if 0x800 ≤ o ∧ o < 0x820 then s.brmFindRead t ((o - 0x800) / 8)
    else match o with
      | 0x08 => z x.eng.brmSubst
      | 0x10 => (x.eng.brmSkeyLo, s)
      | 0x18 => (x.eng.brmSkeyHi, s)
      | _ => n 0
  | .cad =>
    if 0x20 ≤ o ∧ o < 0x60 then (if x.bound.isSome then s.cadTrig f ((o - 0x20) / 8) else 0, s)
    else if 0x60 ≤ o ∧ o < 0xA0 then (if o % 8 = 0 ∧ x.bound.isSome then z (s.cad.ovf.getD (f * 8 + (o - 0x60) / 8) 0) else n 0)
    else if o = 0x08 then z x.eng.cadArmst
    else n 0
  | .dma => match o with
    | 0x08 => z x.eng.dmaLdst
    | 0x18 => n (((List.range 32).filter (fun c => s.dmaOn c && (s.dmaFuncs c).getLsbD f && x.bound.isSome)).foldl (fun a c => a + 2 ^ c) 0)
    | _ => n 0
  | .dgs => if o = 0x08 then z x.eng.dgsOpst else n 0

/-- Writes a register of the control window: a submission register acts, a plain one takes its RW bits, every other
write is ignored (00 R5, R6). -/
def State.winWrite (s : State) (t : Nat) (b : WinBlock) (o : Nat) (v : Word) : State :=
  match b, o with
  | .stk, _ => s.strokeWrite t o v
  | .dsp, 0x00 =>
    match field v 4 2 with
    | 0 => s.taskDone t v
    | 1 => s.taskFailed t v
    | 2 => s.taskCancelled t v
    | _ => s.taskYield t v
  | .dsp, 0x08 => s.updTile t (fun x => { x with dsp := { x.dsp with status := BitVec.ofNat 32 (field v 0 16) } })
  | .dsp, 0x10 => s.updTile t (fun x => { x with dsp := { x.dsp with out := v } })
  | .dsp, 0x20 => s.flagSetWrite t v
  | .dsp, 0x38 => if v.getLsbD 31 then s.bindAck t else s
  | .cmp, 0x00 => nextOr s (execCmpSubmit t v s)
  | .cmp, 0x10 => nextOr s (execCmpAbort t v s)
  | .brm, 0x00 => nextOr s (execBrmSubmit t v s)
  | .brm, 0x10 => s.updTile t (fun x => { x with eng := { x.eng with brmSkeyLo := v } })
  | .brm, 0x18 => s.updTile t (fun x => { x with eng := { x.eng with brmSkeyHi := v } })
  | .cad, 0x00 => nextOr s (execCadArm t v s)
  | .cad, 0x10 => nextOr s (execCadDisarm t v s)
  | .dma, 0x00 => nextOr s (execDmaLoad t v s)
  | .dma, 0x10 => nextOr s (execDmaAbort t v s)
  | .dgs, 0x00 => nextOr s (execDgsOpen t v s)
  | .dgs, 0x10 => nextOr s (execDgsClose t v s)
  | .dgs, 0x18 => nextOr s (execDgsSuspend t v s)
  | _, _ => s

/-- The low 32 bits of a word. -/
def low32 (v : Word) : Word := v &&& 0xFFFFFFFF

/-- Loads n bytes, naturally aligned, of the control window: of 8 bytes a register and, where it is 32 bits wide, the one
after it; of 4 bytes a register or a half of one (log 11). -/
def State.winLoad (s : State) (t a n : Nat) : Word × State :=
  match winAt a with
  | none => (0, s)
  | some (b, o) =>
    if n = 8 then
      let r := s.winRead t b o
      if winWide b o then r
      else let r2 := r.2.winRead t b (o + 4); (low32 r.1 ||| (r2.1 <<< 32), r2.2)
    else
      let o4 := o / 4 * 4
      let r := if o4 % 8 = 4 ∧ winWide b (o4 - 4) then
          let r := s.winRead t b (o4 - 4); (r.1 >>> 32, r.2)
        else let r := s.winRead t b o4; (low32 r.1, r.2)
      (BitVec.ofNat 64 (field r.1 (8 * (o - o4)) (8 * n)), r.2)

/-- Stores n bytes, naturally aligned, to the control window; a part of a register keeps the rest as it reads (log 11). -/
def State.winStore (s : State) (t a n : Nat) (v : Word) : State :=
  match winAt a with
  | none => s
  | some (b, o) =>
    if n = 8 then
      if winWide b o then s.winWrite t b o v
      else (s.winWrite t b o (low32 v)).winWrite t b (o + 4) (v >>> 32)
    else
      let base := if winWide b (o / 8 * 8) then o / 8 * 8 else o / 4 * 4
      let old : Word := if n = 4 ∧ base = o ∧ !winWide b base then 0 else (s.winRead t b base).1
      s.winWrite t b base (setField old (8 * (o - base)) (8 * n) (field v 0 (8 * n)))

/-- The Blotter entry's output that QBLOTWIN selects; zero where no entry is (06 R158; log 11). -/
def State.blotLine (s : State) (t : Nat) : Line :=
  (((s.tile t).stroke.blot.find? (field (s.core t).qblotwin 0 12)).map (·.out)).getD 0

/-- Stores into the Blotter entry that QBLOTWIN selects; a store to no entry is discarded. -/
def State.blotStore (s : State) (t : Nat) (d : Line) (mask : BitVec 64) : State :=
  let k := field (s.core t).qblotwin 0 12
  s.updStroke t (fun x => { x with blot := x.blot.map (fun p => if p.1 = k then (p.1, { p.2 with out := mergeLine p.2.out d mask }) else p) })

end Sys2Proof.Machine
end

