-- ==== Sys2Proof/Machine/QuillMem.lean ====
section
/-! DEFINITION. The Quill instructions that access memory: loads, stores, atomics, cache operations, vector loads and
stores (06 R158 to R162, R169 to R171; 07 R207 to R212; 09 R249 to R254, R261 to R264). -/

namespace Sys2Proof.Machine

/-! ### Checks (06 R158 to R162, R182) -/

/-- The bytes a to a + n − 1 lie in the Blotter window's 64 (06 R158). -/
def inBlot (a : Word) (n : Nat) : Bool := decide (space a = 0xFE) && decide (field a 0 56 + n ≤ 64)

/-- The exception that an access of n bytes raises before it reads or writes, in R182's priority; align is the size it
must be aligned to. -/
def Core.dataExc (c : Core) (a : Word) (n align : Nat) (acc : Access) : Option Exc :=
  let task := !c.runtime
  if task && c.held && (acc == .atomic || (acc == .store && !inBlot a n)) then some .specStore
  else if space a = 0xFF ∧ task then some .priv
  else if a.toNat % align ≠ 0 then some .misalign
  else
    let ok := if space a = 0xFF then acc != .atomic
      else if space a = 0xFE then inBlot a n && (c.held || c.runtime) && acc != .atomic
      else (space a = 0 ∨ space a = 1) && c.regionOk a n (needOf acc)
    if ok then none else some .region

/-! ### Lines -/

/-- What an access finds of a line: nothing yet, the tile gone by a parity error, or the line with its Blot mark. -/
inductive Found where
  | miss
  | gone
  | line (d : Line) (blot : Bool)
  deriving DecidableEq, Repr

/-- The words of a line that n bytes at offset o touch. -/
def accWords (o n : Nat) : BitVec 8 := BitVec.ofNat 8 ((2 ^ ((o + n + 7) / 8) - 2 ^ (o / 8)))

/-- Looks a line up for an access that needs it readable, or writable in E or D, checking parity (09 R249, R264). -/
def State.lookup (s : State) (t line : Nat) (words : BitVec 8) (own : Bool) : Found × State :=
  match (s.tile t).l1.given.find? (fun g => g.1 == line) with
  | some g => (.line g.2.1 g.2.2, s)
  | none =>
    let r := s.parityScan t (accessSel line words)
    if r.2 then (.gone, r.1)
    else match (r.1.tile t).l1.dLine line with
      | some l => if !own || l.st == .e || l.st == .d then (.line l.data false, r.1) else (.miss, r.1)
      | none => (.miss, r.1)

/-- The request that a missing line takes: a held read in held execution, else a read, an ownership request, or an
upgrade of a line held in S or L (09 R249; 10 R280, R292). -/
def State.missKind (s : State) (t line : Nat) (own : Bool) : MKind :=
  let c := s.core t
  let l := (s.tile t).l1
  if c.held && !c.runtime then (if l.dOff then .rdOnce else .rdH)
  else if !own then .rdS
  else match l.dLine line with
    | some _ => .upg
    | none => .rdX

/-- The core blocks at an instruction until a line comes (09 R249). -/
def State.blockOn (s : State) (t line : Nat) (own : Bool) (i : Instr) : State :=
  (s.demand t line (s.missKind t line own)).updCore t (fun c => { c with stall := some i })

/-- Stores under a mask into a line: in the cache when the tile holds it in E or D, which makes it D; otherwise, when it
was given up again since it came, through its home (06 R169; 09 R263; 10 R279, R293). -/
def State.storeLine (s : State) (t line : Nat) (d : Line) (mask : BitVec 64) : State :=
  match (s.tile t).l1.dLine line with
  | some l =>
    if l.st = .e ∨ l.st = .d then
      s.updL1 t (fun c => c.updLine line (fun x => { x with st := .d, st2 := .d, data := mergeLine x.data d mask }))
    else s.cohWrite (((s.tile t).bound).getD 0x7F) line d mask false
  | none => s.cohWrite (((s.tile t).bound).getD 0x7F) line d mask false

/-- The access is over: nothing is kept for it. -/
def State.accessEnd (s : State) (t : Nat) : State := s.updL1 t (fun c => { c with given := [] })

/-- The effect of an access to one line, by what the lookup finds: a block on a miss, POISON for Blot (10 R294). -/
def State.onLine (s : State) (t : Nat) (a : Word) (n : Nat) (acc : Access) (i : Instr) (k : Line → State → Eff) : Eff :=
  let line := lineOf a.toNat
  let own := acc != .load
  let r := s.lookup t line (accWords (a.toNat % 64) n) own
  match r.1 with
  | .miss => .block (r.2.blockOn t line own i)
  | .gone => .block r.2
  | .line d blot => if blot then .exc (r.2.accessEnd t) .poison a acc none else k d r.2

/-! ### Scalar loads and stores (06 R169) -/

/-- A size code in bytes. -/
def sizeOf (z : BitVec 2) : Nat := 2 ^ z.toNat

/-- A loaded value in a register: sign- or zero-extended (06 R169). -/
def extendTo (n v : Nat) (u : Bool) : Word := if u then BitVec.ofNat 64 v else BitVec.ofInt 64 (sintOf (8 * n) v)

/-- LD of a size. -/
def State.load (s : State) (t : Nat) (z : BitVec 2) (u : Bool) (rd ra : Reg) (off : BitVec 12) : State :=
  s.runInstr t (!(u && z == 3)) false false (fun c s1 =>
    let a := c.ea ra off
    let n := sizeOf z
    let put (v : Nat) (s : State) : Eff := .done ((s.accessEnd t).updCore t (fun x => x.writeG rd (extendTo n v u)))
    match c.dataExc a n n .load with
    | some e => .exc (s1.accessEnd t) e a .load none
    | none =>
      if space a = 0xFF then let r := s1.winLoad t a.toNat n; put (field r.1 0 (8 * n)) r.2
      else if space a = 0xFE then put (lineGet (s1.blotLine t) (a.toNat % 64) n) s1
      else s1.onLine t a n .load (.ld t z u rd ra off) (fun d s2 => put (lineGet d (a.toNat % 64) n) s2))

/-- The low bytes of a value placed at an offset of a line. -/
def placeAt (v : Word) (o : Nat) : Line := (v.zeroExtend 512) <<< (8 * o)

/-- ST of a size. -/
def State.store (s : State) (t : Nat) (z : BitVec 2) (rd ra : Reg) (off : BitVec 12) : State :=
  s.runInstr t true false false (fun c s1 =>
    let a := c.ea ra off
    let n := sizeOf z
    let o := a.toNat % 64
    let v := c.readG rd
    match c.dataExc a n n .store with
    | some e => .exc (s1.accessEnd t) e a .store none
    | none =>
      if space a = 0xFF then .done (s1.winStore t a.toNat n v)
      else if space a = 0xFE then .done (s1.blotStore t (placeAt v o) (byteMask o n))
      else s1.onLine t a n .store (.st t z rd ra off) (fun _ s2 =>
        .done ((s2.storeLine t (lineOf a.toNat) (placeAt v o) (byteMask o n)).accessEnd t)))

/-! ### Atomics (06 R170; 05 R132, R133) -/

/-- NADD of one word: each Nib lane adds, saturating at 15 (05 R132). -/
def naddWord (m x : Word) : Nat → Word
  | 0 => 0
  | n + 1 => setField (naddWord m x n) (4 * n) 4 (min 15 (field m (4 * n) 4 + field x (4 * n) 4))

/-- An atomic: the old word goes to rd, the line holds the new one (06 R170; 05 R133; 10 R293). -/
def State.atomic (s : State) (t : Nat) (rd ra rb : Reg) (i : Instr) (f : Word → Word → Word → Word) : State :=
  s.runInstr t true false false (fun c s1 =>
    let a := c.readG ra
    let o := a.toNat % 64
    match c.dataExc a 8 8 .atomic with
    | some e => .exc (s1.accessEnd t) e a .atomic none
    | none => s1.onLine t a 8 .atomic i (fun d s2 =>
        let old : Word := BitVec.ofNat 64 (lineGet d o 8)
        let new := f old (c.readG rb) (c.readG rd)
        .done (((s2.storeLine t (lineOf a.toNat) (placeAt new o) (byteMask o 8)).accessEnd t).updCore t (fun x => x.writeG rd old))))

/-! ### Cache operations (06 R171; 09 R250, R261) -/

/-- The line an address names lies in a memory space. -/
def memSpace (a : Word) : Bool := decide (space a = 0 ∨ space a = 1)

/-- CACHE.PF: a prefetch into L1D; no operation where the check fails or the line is on hand; the fifth waits for one of
four to end (06 R171; 09 R250). -/
def State.prefetch (s : State) (t : Nat) (ra : Reg) (off : BitVec 12) : State :=
  s.runInstr t true false false (fun c s1 =>
    let a := c.ea ra off
    let line := lineOf a.toNat
    let l := (s1.tile t).l1
    if !memSpace a || !c.regionOk a 1 1 then .done s1
    else if (l.dLine line).isSome || l.reqs.any (fun q => q.line == line) || l.vbuf.any (fun v => v.line == line) then .done s1
    else if 4 ≤ l.pfCount then .block (s1.updCore t (fun c => { c with stall := some (.cachePf t ra off) }))
    else .done (s1.postReq t line (s1.missKind t line false) true))

/-- CACHE.CLEAN, CACHE.CLEANINV and CACHE.INV on the line that holds an address of a memory space (06 R158, R171; 09 R261). -/
def State.cacheOp (s : State) (t : Nat) (ra : Reg) (off : BitVec 12) (op : Nat) : State :=
  s.runInstr t true false false (fun c s1 =>
    let a := c.ea ra off
    if op = 2 && !c.runtime then .exc s1 .priv 0 .fetch none
    else if space a = 0xFF && !c.runtime then .exc s1 .priv 0 .fetch none
    else if !memSpace a then .exc s1 .region a .load none
    else
      let line := lineOf a.toNat
      let r := s1.parityScan t (accessSel line 255)
      if r.2 then .block r.1 else .done (r.1.lineOp t op ((s1.tile t).l1.ctl.getLsbD 10) line))

/-! ### Vector loads and stores (07 R207 to R212) -/

/-- One element access: its number k, register offset, element of the register, address and whether the high Nib is
meant (07 R207, R208). -/
structure VAcc where
  k : Nat
  reg : Nat
  i : Nat
  addr : Word
  hi : Bool
  deriving DecidableEq, Repr

/-- The element accesses of a vector instruction in increasing element number (07 R207). -/
def Core.vaccs (c : Core) (m : Bool) (mode nf : BitVec 2) (va vb : Reg) : List VAcc :=
  let w := ewBits c.ew
  let b := w / 8
  let n := nf.toNat + 1
  let base := c.readG va
  let act := (List.range c.vlen).filter (c.active m)
  if mode = 0 then
    act.flatMap (fun i => (List.range n).map (fun f =>
      let k := n * i + f
      { k, reg := f, i, addr := base + BitVec.ofNat 64 (if w = 4 then i / 2 else k * b), hi := decide (w = 4 ∧ i % 2 = 1) }))
  else
    act.map (fun i =>
      let d : Word := if mode = 1 then BitVec.ofNat 64 i * c.readG vb else BitVec.ofNat 64 (elem w (c.readV vb) i * b)
      { k := i, reg := 0, i, addr := base + d, hi := false })

/-- A vector instruction's encoding meets the field rules: a mode below 3, one field outside mode 0, no vb in mode 0, and
no masked destination V0 (07 R197, R200, R207). -/
def vmemOk (m : Bool) (mode nf : BitVec 2) (vd vb : Reg) (isLoad : Bool) : Bool :=
  mode != 3 && (mode == 0 || nf == 0) && (mode != 0 || vb == 0) && (!isLoad || maskOk m vd)

/-- The conditions checked at execution: no strided, indexed or structure access at EW 4, and no structure register above
V31 (07 R201). -/
def Core.vmemRuns (c : Core) (mode nf : BitVec 2) (vd : Reg) : Bool :=
  (ewBits c.ew != 4 || (mode == 0 && nf == 0)) && decide (vd.toNat + nf.toNat ≤ 31)

/-- The first element whose address checks fail, with its exception (07 R209, R211, R212). -/
def Core.vfault (c : Core) (n align : Nat) (acc : Access) (l : List VAcc) : Option (VAcc × Exc) :=
  l.findSome? (fun x => (c.dataExc x.addr n align acc).map (fun e => (x, e)))

/-- What the element loop of a vector load has read. -/
inductive VRead where
  | miss (line : Nat)
  | gone
  | poison (x : VAcc)
  | vals (l : List (VAcc × Nat))
  deriving DecidableEq, Repr

/-- Reads the elements in increasing number, each from the line as it is found; the lowest poisoned one wins (07 R210,
R212). -/
def State.vread (s : State) (t n : Nat) : List VAcc → VRead × State
  | [] => (.vals [], s)
  | x :: r =>
    let o := x.addr.toNat % 64
    let step (v : Nat) (s1 : State) : VRead × State :=
      let rest := s1.vread t n r
      (match rest.1 with | .vals l => .vals ((x, v) :: l) | y => y, rest.2)
    if space x.addr = 0xFF then let q := s.winLoad t x.addr.toNat n; step (field q.1 0 (8 * n)) q.2
    else if space x.addr = 0xFE then step (lineGet (s.blotLine t) o n) s
    else
      let q := s.lookup t (lineOf x.addr.toNat) (accWords o n) false
      match q.1 with
      | .miss => (.miss (lineOf x.addr.toNat), q.2)
      | .gone => (.gone, q.2)
      | .line d blot => if blot then (.poison x, q.2) else step (lineGet d o n) q.2

/-- Looks up the lines that a vector store writes, in increasing element number (07 R212; 10 R294). -/
def State.vown (s : State) (t n : Nat) : List VAcc → VRead × State
  | [] => (.vals [], s)
  | x :: r =>
    if !memSpace x.addr then s.vown t n r
    else
      let q := s.lookup t (lineOf x.addr.toNat) (accWords (x.addr.toNat % 64) n) true
      match q.1 with
      | .miss => (.miss (lineOf x.addr.toNat), q.2)
      | .gone => (.gone, q.2)
      | .line _ blot => if blot then (.poison x, q.2) else q.2.vown t n r

/-- Stores one element; at EW 4 only its Nib of the byte changes (07 R208, R209). -/
def State.vput (s : State) (t w : Nat) (x : VAcc) (v : Nat) : State :=
  let n := max 1 (w / 8)
  let o := x.addr.toNat % 64
  let word (old : Nat) : Word := BitVec.ofNat 64 (if w = 4 then (if x.hi then old % 16 + 16 * v else old / 16 * 16 + v) else v)
  if space x.addr = 0xFF then
    if w = 4 then let q := s.winLoad t x.addr.toNat 1; q.2.winStore t x.addr.toNat 1 (word (field q.1 0 8))
    else s.winStore t x.addr.toNat n (word 0)
  else if space x.addr = 0xFE then s.blotStore t (placeAt (word (lineGet (s.blotLine t) o n)) o) (byteMask o n)
  else
    let line := lineOf x.addr.toNat
    let old := match (s.tile t).l1.dLine line with | some l => l.data | none => (s.cohRead line).1
    s.storeLine t line (placeAt (word (lineGet old o n)) o) (byteMask o n)

/-- A vector load (07 R207 to R212). -/
def State.vload (s : State) (t : Nat) (m : Bool) (mode nf : BitVec 2) (vd va vb : Reg) : State :=
  s.runInstr t (vmemOk m mode nf vd vb true) false true (fun c s1 =>
    let w := ewBits c.ew
    let n := max 1 (w / 8)
    let l := c.vaccs m mode nf va vb
    if !c.vmemRuns mode nf vd then .exc (s1.accessEnd t) .illegal 0 .fetch none else
    let stop := c.vfault n n .load l
    let below := match stop with | some p => l.takeWhile (fun x => x.k != p.1.k) | none => l
    let r := s1.vread t n below
    match r.1 with
    | .miss line => .block (r.2.blockOn t line false (.vld t m mode nf vd va vb))
    | .gone => .block r.2
    | .poison x => .exc (r.2.accessEnd t) .poison x.addr .load (some x.k)
    | .vals vs =>
      match stop with
      | some p => .exc (r.2.accessEnd t) p.2 p.1.addr .load (some p.1.k)
      | none => .done ((r.2.accessEnd t).updCore t (fun core => vs.foldl (fun (core : Core) (p : VAcc × Nat) =>
          let reg : Reg := vd + BitVec.ofNat 5 p.1.reg
          core.writeV reg (setElem w (core.readV reg) p.1.i (if w = 4 then (if p.1.hi then p.2 / 16 else p.2 % 16) else p.2))) core)))

/-- A vector store (07 R207 to R212). -/
def State.vstore (s : State) (t : Nat) (m : Bool) (mode nf : BitVec 2) (vd va vb : Reg) : State :=
  s.runInstr t (vmemOk m mode nf vd vb false) false true (fun c s1 =>
    let w := ewBits c.ew
    let n := max 1 (w / 8)
    let l := c.vaccs m mode nf va vb
    if !c.vmemRuns mode nf vd then .exc (s1.accessEnd t) .illegal 0 .fetch none else
    match c.vfault n n .store l with
    | some p => .exc (s1.accessEnd t) p.2 p.1.addr .store (some p.1.k)
    | none =>
      let r := s1.vown t n l
      match r.1 with
      | .miss line => .block (r.2.blockOn t line true (.vst t m mode nf vd va vb))
      | .gone => .block r.2
      | .poison x => .exc (r.2.accessEnd t) .poison x.addr .store (some x.k)
      | .vals _ => .done ((l.foldl (fun (s : State) (x : VAcc) =>
          s.vput t w x (elem w (c.readV (vd + BitVec.ofNat 5 x.reg)) x.i)) r.2).accessEnd t))

/-! ### The blocked instruction goes on (09 R249 to R254) -/

/-- Runs a memory instruction. -/
def State.memInstr (s : State) : Instr → State
  | .ld t z u rd ra off => s.load t z u rd ra off
  | .st t z rd ra off => s.store t z rd ra off
  | .fadd t rd ra rb => s.atomic t rd ra rb (.fadd t rd ra rb) (fun m x _ => m + x)
  | .umin t rd ra rb => s.atomic t rd ra rb (.umin t rd ra rb) (fun m x _ => if x.toNat < m.toNat then x else m)
  | .umax t rd ra rb => s.atomic t rd ra rb (.umax t rd ra rb) (fun m x _ => if m.toNat < x.toNat then x else m)
  | .nadd t rd ra rb => s.atomic t rd ra rb (.nadd t rd ra rb) (fun m x _ => naddWord m x 16)
  | .cas t rd ra rb => s.atomic t rd ra rb (.cas t rd ra rb) (fun m x e => if m = e then x else m)
  | .cachePf t ra off => s.prefetch t ra off
  | .vld t m mode nf vd va vb => s.vload t m mode nf vd va vb
  | .vst t m mode nf vd va vb => s.vstore t m mode nf vd va vb
  | _ => s

/-- Something a blocked core may wait for has come: its instruction runs again. -/
def State.resume (s : State) (t : Nat) : State :=
  match (s.core t).stall with
  | none => s
  | some i =>
    let s1 := (s.updCore t (fun c => { c with stall := none })).memInstr i
    if (s1.core t).stall.isSome then s1 else s1.accessEnd t

/-! ### Commands -/

/-- LD (06 R169). -/
def execLd (t : Nat) (size : BitVec 2) (u : Bool) (rd ra : Reg) (off : BitVec 12) (s : State) : Host.Outcome State Fault Refusal :=
  .next (s.memInstr (.ld t size u rd ra off))

/-- ST (06 R169). -/
def execSt (t : Nat) (size : BitVec 2) (rd ra : Reg) (off : BitVec 12) (s : State) : Host.Outcome State Fault Refusal :=
  .next (s.memInstr (.st t size rd ra off))

/-- FADD (05 R132; 06 R170). -/
def execFadd (t : Nat) (rd ra rb : Reg) (s : State) : Host.Outcome State Fault Refusal := .next (s.memInstr (.fadd t rd ra rb))

/-- UMIN (05 R132; 06 R170). -/
def execUmin (t : Nat) (rd ra rb : Reg) (s : State) : Host.Outcome State Fault Refusal := .next (s.memInstr (.umin t rd ra rb))

/-- UMAX (05 R132; 06 R170). -/
def execUmax (t : Nat) (rd ra rb : Reg) (s : State) : Host.Outcome State Fault Refusal := .next (s.memInstr (.umax t rd ra rb))

/-- NADD (05 R132; 06 R170). -/
def execNadd (t : Nat) (rd ra rb : Reg) (s : State) : Host.Outcome State Fault Refusal := .next (s.memInstr (.nadd t rd ra rb))

/-- CAS, with the value of rd before execution as the expected one (05 R132; 06 R170). -/
def execCas (t : Nat) (rd ra rb : Reg) (s : State) : Host.Outcome State Fault Refusal := .next (s.memInstr (.cas t rd ra rb))

/-- CACHE.PF (06 R171). -/
def execCachePf (t : Nat) (ra : Reg) (off : BitVec 12) (s : State) : Host.Outcome State Fault Refusal := .next (s.memInstr (.cachePf t ra off))

/-- CACHE.CLEAN (06 R171; 09 R261). -/
def execCacheClean (t : Nat) (ra : Reg) (off : BitVec 12) (s : State) : Host.Outcome State Fault Refusal := .next (s.cacheOp t ra off 0)

/-- CACHE.CLEANINV (06 R171; 09 R261). -/
def execCacheCleaninv (t : Nat) (ra : Reg) (off : BitVec 12) (s : State) : Host.Outcome State Fault Refusal := .next (s.cacheOp t ra off 1)

/-- CACHE.INV (06 R171; 09 R261). -/
def execCacheInv (t : Nat) (ra : Reg) (off : BitVec 12) (s : State) : Host.Outcome State Fault Refusal := .next (s.cacheOp t ra off 2)

/-- VLD (07 R207, R212). -/
def execVld (t : Nat) (m : Bool) (mode nf : BitVec 2) (vd va vb : Reg) (s : State) : Host.Outcome State Fault Refusal :=
  .next (s.memInstr (.vld t m mode nf vd va vb))

/-- VST (07 R207, R212). -/
def execVst (t : Nat) (m : Bool) (mode nf : BitVec 2) (vd va vb : Reg) (s : State) : Host.Outcome State Fault Refusal :=
  .next (s.memInstr (.vst t m mode nf vd va vb))

end Sys2Proof.Machine
end

