-- ==== Sys2Proof/Machine/Coherence.lean ====
section
/-! DEFINITION. The commands of the coherence protocol: requests at their homes, forwards at their holders, grants and
acknowledgements, victims, retries, fences, and the host's side (10 R280 to R300; 09 R249 to R254; 16 R468, R469, R478, R480). -/

namespace Sys2Proof.Machine

/-! ### Requests reach their homes (10 R282, R283, R287) -/

/-- The function whose allocation holds a device line; 0x7F for the device's own memory and for host memory (10 R274). -/
def State.lineOwner (s : State) (line : Nat) : Nat :=
  if isHostLine line then 0x7F
  else ((List.find? (fun (p : Nat × Tenant) => p.2.alloc.any (fun e => decide (e.base ≤ 64 * line ∧ 64 * line < e.base + e.len))) s.tenants).map (·.1)).getD 0x7F

/-- A tile may send a request of a kind for a line now: on, not fenced, no request for the line in flight and none of its
victims, the copy an upgrade needs and no other request may have (09 R249, R250, R254). -/
def State.mayAsk (s : State) (t line : Nat) (kind : MKind) : Bool :=
  let c := (s.tile t).l1
  s.tileOn t && !s.isolated t && !c.reqs.any (fun q => q.line == line) && !c.vbuf.any (fun v => v.line == line)
    && decide (c.reqs.length < 21)
    && (match c.dLine line with
      | some l => kind == .upg && (l.st == .s || l.st == .l)
      | none => kind != .upg)

/-- A core-class request reaches its home: the message the tile posted, or one it sends now. Nothing changes while the home
queue is full (10 R282, R297). -/
def State.coreReq (s : State) (t line : Nat) (kind : MKind) : State :=
  if !((s.slice (s.homeOf line)).queueRoom) then s
  else
    let mine (m : Msg) : Bool := m.kind == kind && m.src == t && m.line == line
    match s.take mine with
    | some r => r.2.homeArrive r.1
    | none =>
      if s.mayAsk t line kind then
        match (s.postReq t line kind (kind == .rdS || kind == .rdH)).take mine with
        | some r => r.2.homeArrive r.1
        | none => s
      else s

/-- RD_S (10 R283). -/
def execRdS (src line : Nat) (s : State) : Host.Outcome State Fault Refusal := .next (s.coreReq src line .rdS)

/-- RD_H: a held read (10 R292; 03 R75). -/
def execRdH (src line : Nat) (s : State) : Host.Outcome State Fault Refusal := .next (s.coreReq src line .rdH)

/-- RD_X (10 R283). -/
def execRdX (src line : Nat) (s : State) : Host.Outcome State Fault Refusal := .next (s.coreReq src line .rdX)

/-- UPG (10 R283). -/
def execUpg (src line : Nat) (s : State) : Host.Outcome State Fault Refusal := .next (s.coreReq src line .upg)

/-- RD_ONCE (10 R283). -/
def execRdOnce (src line : Nat) (s : State) : Host.Outcome State Fault Refusal := .next (s.coreReq src line .rdOnce)

/-- An IO agent's request for a line. -/
def State.ioReq (s : State) (a line : Nat) : Option IoReq := s.io.find? (fun q => q.agent == a && q.line == line)

/-- Changes an IO agent's first request for a line. -/
def State.updIo (s : State) (a line : Nat) (f : IoReq → IoReq) : State :=
  match s.io.findIdx? (fun q => q.agent == a && q.line == line) with
  | some i => { s with io := s.io.modify i f }
  | none => s

/-- An IO-class request reaches its home, once it has been sent and while no answer is due (10 R283, R287). -/
def State.ioArrive (s : State) (a line : Nat) (write : Bool) : State :=
  match s.ioReq a line with
  | some q =>
    if q.waiting || q.atHome || q.wr.isSome != write then s
    else
      let m : Msg := match q.wr with
        | some w => { kind := .ioWr, src := a, dst := 128 + s.homeOf line, line, owner := q.owner, data := some w.1, mask := w.2.1, blot := w.2.2, starve := q.starve }
        | none => { kind := .ioRd, src := a, dst := 128 + s.homeOf line, line, owner := q.owner, starve := q.starve }
      (s.updIo a line (fun q => { q with atHome := true })).homeArrive m
  | none => s

/-- IO_RD: the agent's request; an edge agent may read any line (10 R283). -/
def execIoRd (src line : Nat) (s : State) : Host.Outcome State Fault Refusal :=
  .next (if (s.ioReq src line).isSome then s.ioArrive src line false
    else if 96 ≤ src ∧ src < hostAgent then
      let q : IoReq := { agent := src, line, owner := s.lineOwner line, wr := none }
      { s with io := s.io ++ [q] }.ioArrive src line false
    else s)

/-- IO_WR (10 R283). -/
def execIoWr (src line : Nat) (s : State) : Host.Outcome State Fault Refusal := .next (s.ioArrive src line true)

/-- HOME_QUEUE_START (10 R282). -/
def execHomeQueueStart (h : Nat) (s : State) : Host.Outcome State Fault Refusal := .next (s.homeDequeue h)

/-- NACK: the agent retries after 8 fabric cycles, doubling up to 1,024; after the eighth it sets STARVE, and a STARVE
request that was refused retries after 1,024 (10 R287). -/
def execNack (src line : Nat) (s : State) : Host.Outcome State Fault Refusal :=
  .next (match s.take (fun m => m.kind == .nack && m.dst == src && m.line == line) with
    | none => s
    | some r => r.2.updIo src line (fun q => { q with
        nacks := q.nacks + 1, waiting := true,
        delay := if q.starve then 1024 else min 1024 (8 * 2 ^ q.nacks),
        starve := q.starve || decide (8 ≤ q.nacks + 1) }))

/-- NACK_RETRY: the delay has passed, and the request is sent again (10 R287). -/
def execNackRetry (src line : Nat) (s : State) : Host.Outcome State Fault Refusal :=
  .next (match s.ioReq src line with
    | some q => if q.waiting then s.updIo src line (fun q => { q with waiting := false, atHome := false }) else s
    | none => s)

/-- An IO agent's request ends. -/
def State.ioEnd (s : State) (a line : Nat) : State :=
  match s.io.findIdx? (fun q => q.agent == a && q.line == line) with
  | some i => { s with io := s.io.eraseIdx i }
  | none => s

/-- IODONE: the agent's write is ordered at its home (10 R283; 15 R446, R452 for a Krelor receive agent). -/
def execIodone (src line : Nat) (s : State) : Host.Outcome State Fault Refusal :=
  .next (match s.take (fun m => m.kind == .iodone && m.dst == src && m.line == line) with
    | none => s
    | some r =>
      let s1 := (r.2.ioEnd src line).answer src line none false
      if 96 ≤ src ∧ src < 104 then s1.krlOrdered (src - 96) line else s1)

/-! ### Forwards reach their holders (10 R285; 09 R254, R264) -/

/-- A holder receives a forward or INV, checks the copy's parity, and answers. -/
def State.fwdArrive (s : State) (t line : Nat) (kind : MKind) : State :=
  match s.take (fun m => m.kind == kind && m.dst == t && m.line == line) with
  | none => s
  | some r => ((r.2.parityScan t (accessSel line 255)).1).answerFwd t r.1

/-- FWD_S (10 R285). -/
def execFwdS (t line : Nat) (s : State) : Host.Outcome State Fault Refusal := .next (s.fwdArrive t line .fwdS)

/-- FWD_X (10 R285). -/
def execFwdX (t line : Nat) (s : State) : Host.Outcome State Fault Refusal := .next (s.fwdArrive t line .fwdX)

/-- FWD_ONCE (10 R285). -/
def execFwdOnce (t line : Nat) (s : State) : Host.Outcome State Fault Refusal := .next (s.fwdArrive t line .fwdOnce)

/-- INV (10 R285; 09 R259). -/
def execInv (t line : Nat) (s : State) : Host.Outcome State Fault Refusal := .next (s.fwdArrive t line .inv)

/-! ### Grants and data reach their requesters (10 R286; 09 R249 to R255) -/

/-- A request's grant and data have both come: an upgrade needs no data while the copy is there. -/
def State.mshrReady (s : State) (t : Nat) (q : Mshr) : Bool :=
  q.grant.isSome && (q.data.isSome || (q.kind == .upg && q.grant != some none && ((s.tile t).l1.dLine q.line).isSome))

/-- A finished request leaves, CMP_ACK goes to the home, and a blocked core has the line for its access (10 R286). -/
def State.mshrDone (s : State) (t : Nat) (q : Mshr) (d : Line) (blot : Bool) : State :=
  let s1 := (s.updL1 t (fun c => { c with
    reqs := c.reqs.filter (fun r => r.line != q.line),
    given := if (s.core t).stall.isSome && !q.prefetch then (q.line, d, blot) :: c.given else c.given })).send
    { kind := .cmpAck, src := t, dst := 128 + s.homeOf q.line, line := q.line }
  s1

/-- Installs the line of a finished request, its victim's parity checked; it waits while the victim buffer is full
(09 R253, R264; 10 R286, R294). -/
def State.install (s : State) (t : Nat) (q : Mshr) : State :=
  match q.grant with
  | none => s
  | some none => s.mshrDone t q (q.data.getD 0) q.blot
  | some (some st) =>
    match q.data with
    | none => (s.updL1 t (fun c => c.updLine q.line (fun l => { l with st, st2 := st }))).mshrDone t q
        (((s.tile t).l1.dLine q.line).map (·.data) |>.getD 0) false
    | some d =>
      let c := (s.tile t).l1
      let k := (c.dChoose q.line).1
      let r := if c.dOff then (s, false) else s.parityScan t (fun j _ => if j = k then some 255 else none)
      if r.2 then r.1.send { kind := .cmpAck, src := t, dst := 128 + s.homeOf q.line, line := q.line }
      else match r.1.fillL1 t q.line st d with
        | none => r.1
        | some s1 => s1.mshrDone t q d false

/-- Installs every finished request that can be, then lets a blocked core go on. -/
def State.installAll (s : State) (t : Nat) : State :=
  (((s.tile t).l1.reqs).foldl (fun (s : State) q => if s.mshrReady t q then s.install t q else s) s).resume t

/-- Something a tile waits for arrives: dropped at a fenced tile (23 R672). -/
def State.rspArrive (s : State) (t line : Nat) (kind : MKind) (f : Msg → Mshr → Mshr) : State :=
  match s.take (fun m => m.kind == kind && m.dst == t && m.line == line) with
  | none => s
  | some r =>
    if s.isolated t then r.2
    else if (r.2.tile t).l1.reqs.any (fun q => q.line == line) then
      (r.2.updL1 t (fun c => { c with reqs := c.reqs.map (fun q => if q.line = line then f r.1 q else q) })).installAll t
    else if kind == .gnt then r.2.send { kind := .cmpAck, src := t, dst := 128 + s.homeOf line, line }
    else r.2

/-- GNT: the grant is taken; the line is installed once the data is there too (10 R286). -/
def execGnt (t line : Nat) (s : State) : Host.Outcome State Fault Refusal :=
  .next (s.rspArrive t line .gnt (fun m q => { q with
    grant := some m.st, data := match m.data with | some d => some d | none => q.data, blot := q.blot || m.blot }))

/-- DATA: a tile takes a holder's line; an edge agent's read ends with it (10 R283, R285, R286). -/
def execData (t line : Nat) (s : State) : Host.Outcome State Fault Refusal :=
  .next (if t < 96 then s.rspArrive t line .data (fun m q => { q with data := m.data, dirty := m.dirty, blot := q.blot || m.blot })
    else match s.take (fun m => m.kind == .data && m.dst == t && m.line == line) with
      | none => s
      | some r => (r.2.ioEnd t line).answer t line r.1.data r.1.blot)

/-! ### Answers reach their homes (10 R283, R286, R289) -/

/-- A tile's answer reaches its home, then the victims held for it are acknowledged. -/
def State.ansArrive (s : State) (t line : Nat) (kind : MKind) (f : State → Msg → State) : State :=
  match s.take (fun m => m.kind == kind && m.src == t && m.line == line) with
  | none => s
  | some r => (f r.2 r.1).drainSink line t

/-- FACK (10 R283). -/
def execFack (t line : Nat) (s : State) : Host.Outcome State Fault Refusal := .next (s.ansArrive t line .fack State.homeFack)

/-- NOLINE (10 R283, R297). -/
def execNoline (t line : Nat) (s : State) : Host.Outcome State Fault Refusal := .next (s.ansArrive t line .noline State.homeNoline)

/-- INVACK (10 R283, R297). -/
def execInvack (t line : Nat) (s : State) : Host.Outcome State Fault Refusal := .next (s.ansArrive t line .invack State.homeAck)

/-- WBDATA (10 R283, R291). -/
def execWbdata (t line : Nat) (s : State) : Host.Outcome State Fault Refusal := .next (s.ansArrive t line .wbdata State.homeAck)

/-- CMP_ACK: the requester's transaction ends and the entry is no longer BUSY (10 R286). -/
def execCmpAck (t line : Nat) (s : State) : Host.Outcome State Fault Refusal :=
  .next (s.ansArrive t line .cmpAck (fun s m => match s.txn m.line with
    | some x => if x.msg.src = m.src ∧ x.phase = .cmp then s.closeTxn m.line else s
    | none => s))

/-! ### Victims (09 R253; 10 R284, R289) -/

/-- A victim's acknowledgement empties its buffer entry; fills that waited for room go on. -/
def State.victimAck (s : State) (t line : Nat) (kind : MKind) : State :=
  match s.take (fun m => m.kind == kind && m.dst == t && m.line == line) with
  | none => s
  | some r => (r.2.updL1 t (fun c => { c with vbuf := c.vbuf.filter (fun v => v.line != line) })).installAll t

/-- WBACK (09 R253). -/
def execWback (t line : Nat) (s : State) : Host.Outcome State Fault Refusal := .next (s.victimAck t line .wback)

/-- DECLINE (09 R253). -/
def execDecline (t line : Nat) (s : State) : Host.Outcome State Fault Refusal := .next (s.victimAck t line .decline)

/-- A WB-class message reaches its home. -/
def State.victimArrive (s : State) (t line : Nat) (kind : MKind) : State :=
  match s.take (fun m => m.kind == kind && m.src == t && m.line == line) with
  | none => s
  | some r => r.2.homeVictim r.1

/-- WB_DIRTY (10 R284). -/
def execWbDirty (t line : Nat) (s : State) : Host.Outcome State Fault Refusal := .next (s.victimArrive t line .wbDirty)

/-- VICT_CLEAN (10 R278, R284). -/
def execVictClean (t line : Nat) (s : State) : Host.Outcome State Fault Refusal := .next (s.victimArrive t line .victClean)

/-- VICT_DROP (10 R284). -/
def execVictDrop (t line : Nat) (s : State) : Host.Outcome State Fault Refusal := .next (s.victimArrive t line .victDrop)

/-! ### Fences (10 R296 to R298; 08 R233, R235; 23 R672) -/

/-- A unit fences a tile: FENCE goes to every home and to the dispatcher, the event is counted and logged with the number
of lines that become Blot (10 R296; 23 R673). -/
def State.fenceTile (s : State) (t : Nat) : State :=
  if s.rel.fenced.contains t then s
  else
    let held := (s.slices.map (fun p => (p.2.dir.filter (fun q => q.2.state == .ex && q.2.ptrs.head? == some t)).length)).foldl (· + ·) 0
    let msgs : List Msg := (s.slicesOn.map (128 + ·) ++ [224]).map (fun d => { kind := .fence, src := 225, dst := d, line := 0, req := t })
    ({ s with
      net := s.net ++ msgs,
      rel := { s.rel with fenced := t :: s.rel.fenced, fences := s.rel.fences.upd t [] (s.ticks :: ·), fenceCount := s.rel.fenceCount + 1 } }).log
      0x0002 1 (((s.tile t).bound).getD 0xFF) 0 t 0x0306 0 held

/-- FENCE_TIMEOUT: a forward or INV to the tile for the line has had no answer (10 R296). -/
def execFenceTimeout (t line : Nat) (s : State) : Host.Outcome State Fault Refusal :=
  .next (if s.fwdOutstanding line t then s.fenceTile t else s)

/-- BIND_ACK_TIMEOUT: a rebinding's ACK has not come within its bound (08 R235). -/
def execBindAckTimeout (t : Nat) (s : State) : Host.Outcome State Fault Refusal :=
  .next (if (s.tile t).bind.next.isSome then s.fenceTile t else s)

/-- The router of a fenced tile answers what is on its way to the tile: NOLINE to forwards, INVACK to INV (10 R297). -/
def State.routerAnswers (s : State) (t : Nat) : State :=
  { s with net := s.net.map (fun m =>
    if m.dst = t ∧ m.kind.cls = 1 then
      { kind := if m.kind = .inv then .invack else .noline, src := t, dst := m.src, line := m.line, req := m.req, fenced := true }
    else m) }

/-- A home receives FENCE: it sets the tile's bit and starts its scan; the tile's queued requests and held victims are
discarded, and its granted transactions close (10 R297, R298). -/
def State.homeFence (s : State) (h t : Nat) : State :=
  let s1 := s.updSlice h (fun sl => { sl with
    fenced := sl.fenced ||| (1 <<< t), scan := some (t, 0),
    queue := sl.queue.filter (fun m => !(m.isCore && m.src == t)), sink := sl.sink.filter (fun m => m.src != t) })
  let open_ := (s1.slice h).txns.filter (fun x => x.msg.src == t && x.phase == .cmp)
  (open_.foldl (fun (s : State) x => s.closeFenced x) s1).routerAnswers t

/-- The dispatcher receives FENCE: the query of the task on the tile fails with TILE_FENCED, a WAITTASK ends with WHY 4, and
the tile gets no further task (08 R233; 10 R297). -/
def State.dspFence (s : State) (t : Nat) : State := ((s.failTask t 0x0306).endWait t 0 4).loseTask t

/-- FENCE_MESSAGE: FENCE reaches a home, or the dispatcher as number 96 (10 R297). -/
def execFenceMessage (h t : Nat) (s : State) : Host.Outcome State Fault Refusal :=
  .next (match s.take (fun m => m.kind == .fence && m.dst == 128 + h && m.req == t) with
    | none => s
    | some r => if h < 96 then r.2.homeFence h t else r.2.dspFence t)

/-- FENCE_SCAN: the home applies its fences to one directory set, and ends with the last (10 R298). -/
def execFenceScan (h : Nat) (s : State) : Host.Outcome State Fault Refusal :=
  .next (match (s.slice h).scan with
    | none => s
    | some (t, k) =>
      let s1 := ((List.range 16).map (fun w => k * 16 + w)).foldl (fun (s : State) w => s.fenceEntry h w) s
      s1.updSlice h (fun sl => { sl with scan := if k + 1 < 2048 then some (t, k + 1) else none }))

/-! ### The host (10 R299, R300; 16 R468, R469) -/

/-- A host snoop: answered from the state before where the entry waits for the host itself, after internal answers where it
waits for those, else acted on (10 R299). -/
def State.snoop (s : State) (line : Nat) (kind : MKind) : State :=
  if !isHostLine line then s
  else
    let m : Msg := { kind, src := hostAgent, dst := 128 + s.homeOf line, line, owner := s.ownerOf line }
    match s.txn line with
    | some x => if x.phase = .host then s.answer hostAgent line none false
      else s.updSlice (s.homeOf line) (fun sl => { sl with queue := m :: sl.queue })
    | none => if s.setFull line then s.updSlice (s.homeOf line) (fun sl => { sl with queue := m :: sl.queue }) else s.homeStart m

/-- SNP_DATA (10 R299). -/
def execSnpData (line : Nat) (s : State) : Host.Outcome State Fault Refusal := .next (s.snoop line .fwdS)

/-- SNP_INV (10 R299). -/
def execSnpInv (line : Nat) (s : State) : Host.Outcome State Fault Refusal := .next (s.snoop line .inv)

/-- SNP_CUR (10 R299). -/
def execSnpCur (line : Nat) (s : State) : Host.Outcome State Fault Refusal := .next (s.snoop line .fwdOnce)

/-- GO: the oldest write of the line that waits for it is globally observed (16 R468). -/
def execGo (line : Nat) (s : State) : Host.Outcome State Fault Refusal :=
  .next { s with goPend := (s.goPend.reverse.erase line).reverse }

/-- HOST_RESPONSE: the host's line comes for a D2H request, poison making it Blot; for a line that the device holds nothing
of, it is what the host's memory holds from then on (10 R299; 16 R468; log 38). -/
def execHostResponse (line : Nat) (d : BitVec 512) (poison : Bool) (s : State) : Host.Outcome State Fault Refusal :=
  .next (
    let a := lineA line
    let s1 : State := { s with
      hostMem := Memory.writeLine s.hostMem a d,
      hostPoison := if poison then a :: s.hostPoison.filter (· != a) else s.hostPoison.filter (· != a) }
    if !isHostLine line then s
    else if s.d2h.contains line then ({ s1 with d2h := s.d2h.erase line }).homeFill line d poison
    else if (s.dirEntry line).isNone && ((s.slice (s.homeOf line)).dataWay line).isNone then s1
    else s)

/-- BISNP_RESPONSE: the host has given the line up, and the waiting request goes on (10 R300). -/
def execBisnpResponse (line : Nat) (s : State) : Host.Outcome State Fault Refusal :=
  .next (if s.bisnp.contains line then
      let s1 := { s with bisnp := s.bisnp.erase line }.updDir line (fun e => { e with h := false })
      match s1.txn line with
      | some x => if x.phase = .back then (s1.putTxn { x with phase := .cmp }).homeGo { x with phase := .cmp } else s1
      | none => s1
    else s)

/-- A host-class request enters its home; nothing changes while the home queue is full (10 R282, R300). -/
def State.hostReq (s : State) (m : Msg) : State :=
  if (s.slice (s.homeOf m.line)).queueRoom then s.homeArrive { m with src := hostAgent, dst := 128 + s.homeOf m.line } else s

/-- MEM_RD: a CXL.mem read, after which the host may hold a copy (10 R277, R300; 16 R469). -/
def execMemRd (line : Nat) (s : State) : Host.Outcome State Fault Refusal :=
  .next (s.hostReq { kind := .rdOnce, src := hostAgent, dst := 0, line, owner := s.lineOwner line, keep := true })

/-- MEM_RD_DATA: a CXL.mem read of data (10 R277, R300; 16 R469; log 39). -/
def execMemRdData (line : Nat) (s : State) : Host.Outcome State Fault Refusal :=
  .next (s.hostReq { kind := .rdOnce, src := hostAgent, dst := 0, line, owner := s.lineOwner line, keep := true })

/-- MEM_WR: a CXL.mem write of a whole line (10 R295, R300; 16 R469). -/
def execMemWr (line : Nat) (d : BitVec 512) (poison : Bool) (s : State) : Host.Outcome State Fault Refusal :=
  .next (s.hostReq { kind := .ioWr, src := hostAgent, dst := 0, line, owner := s.lineOwner line, data := some d, mask := BitVec.allOnes 64, blot := poison })

/-- MEM_WR_PTL: a CXL.mem partial write; it never clears Blot, whatever its mask (10 R295; 16 R469). -/
def execMemWrPtl (line : Nat) (d : BitVec 512) (mask : BitVec 64) (s : State) : Host.Outcome State Fault Refusal :=
  .next (s.hostReq { kind := .ioWr, src := hostAgent, dst := 0, line, owner := s.lineOwner line, data := some d, mask, keep := true })

/-! ### BAR accesses (16 R476, R478, R480) -/

/-- An access completes with Unsupported Request. -/
def State.answerUr (s : State) (line : Nat) : State :=
  { s with answers := { agent := hostAgent, line, data := none, blot := false, ur := true } :: s.answers }

/-- The device address of an offset in a list of extents. -/
def extentAt : List Extent → Nat → Option Nat
  | [], _ => none
  | e :: r, o => if o < e.len then some (e.base + o) else extentAt r (o - e.len)

/-- The device address that an offset of a function's BAR2 names; none at or beyond the BAR or the allocation (16 R476, R480). -/
def State.bar2Addr (s : State) (f o : Nat) : Option Nat :=
  if f = 0 then (if o < (if s.part = .aq680 then 2 ^ 39 else 2 ^ 38) then some o else none)
  else if o < 2 ^ s.host.bar2 then extentAt (s.tenant f).alloc o else none

/-- The host-class requests of an access of n bytes at an offset, a line each; none where a byte has no address. The first
argument bounds them. -/
def State.bar2Msgs (s : State) (f : Nat) (wr : Option (BitVec 512)) : Nat → Nat → Nat → Nat → Option (List Msg)
  | 0, _, _, _ => some []
  | _ + 1, _, _, 0 => some []
  | k + 1, o, done, n =>
    match s.bar2Addr f o with
    | none => none
    | some a =>
      let b := a % 64
      let m := min n (64 - b)
      let line := a / 64
      let owner := if f = 0 then s.lineOwner line else f
      let msg : Msg := match wr with
        | some d => { kind := .ioWr, src := hostAgent, dst := 0, line, owner, data := some ((d >>> (8 * done)) <<< (8 * b)), mask := byteMask b m }
        | none => { kind := .rdOnce, src := hostAgent, dst := 0, line, owner }
      (s.bar2Msgs f wr k (o + m) (done + m) (n - m)).map (msg :: ·)

/-- BAR2_ACCESS: host-class requests for device memory, or Unsupported Request beyond the BAR or the allocation (16 R480). -/
def execBar2Access (f off len : Nat) (wr : Option (BitVec 512)) (s : State) : Host.Outcome State Fault Refusal :=
  .next (match s.bar2Addr f (off + len - 1), s.bar2Msgs f wr 3 off 0 len with
    | some _, some ms => if ms.all (fun m => (s.slice (s.homeOf m.line)).queueRoom) then ms.foldl (fun (s : State) m => s.hostReq m) s else s
    | _, _ => s.answerUr (off / 64))

/-- A BAR0 access that is a naturally aligned one of 4 or 8 bytes (16 R478). -/
def bar0Ok (off len : Nat) : Bool := (len == 4 || len == 8) && off % len == 0

/-- BAR0_INVALID_ACCESS: Unsupported Request and no other effect (16 R478). -/
def execBar0InvalidAccess (_f off len : Nat) (_wr : Bool) (s : State) : Host.Outcome State Fault Refusal :=
  .next (if bar0Ok off len then s else s.answerUr (off / 64))

end Sys2Proof.Machine
end

