-- ==== Sys2Proof/Machine/RsCode.lean ====
section
/-! DEFINITION. The Reed–Solomon line code of a burst: GF(2^10), syndromes, correction (11 R319, R321). A burst is 288 bits:
data in [255:0], TAG in [257:256], CHECK in [287:258]. The code is linear, so what a pattern of flipped bits does is
decided by the pattern alone. -/

namespace Sys2Proof.Machine

/-- Multiplication by α, the primitive polynomial being x^10 + x^3 + 1 (11 R319). -/
def gfStep (a : BitVec 10) : BitVec 10 := (a <<< 1) ^^^ (if a.getLsbD 9 then 0x009 else 0)

/-- a times α^n. -/
def gfShift (a : BitVec 10) : Nat → BitVec 10
  | 0 => a
  | n + 1 => gfStep (gfShift a n)

/-- The product of two field elements, over the low n bits of the second. -/
def gfMulGo (a b : BitVec 10) : Nat → BitVec 10
  | 0 => 0
  | n + 1 => gfMulGo a b n ^^^ (if b.getLsbD n then gfShift a n else 0)

/-- The product of two field elements. -/
def gfMul (a b : BitVec 10) : BitVec 10 := gfMulGo a b 10

/-- Symbol p of a burst as the code word's coefficient of x^p: the three check symbols first, then the 26 message symbols
of the 260-bit string, whose two top bits are zero and not stored (11 R319; log 40). -/
def burstSym (e : BitVec 288) (p : Nat) : BitVec 10 :=
  if p < 3 then BitVec.ofNat 10 (field e (258 + 10 * p) 10)
  else if p < 28 then BitVec.ofNat 10 (field e (10 * (p - 3)) 10)
  else BitVec.ofNat 10 (field e 250 8)

/-- Syndrome r: the code word at α^r. -/
def syndrome (e : BitVec 288) (r : Nat) : BitVec 10 :=
  (List.range 29).foldl (fun a p => a ^^^ gfShift (burstSym e p) (r * p)) 0

/-- What the decoder makes of a burst with a pattern of flipped bits. -/
inductive Decoded where
  /-- No error found; the pattern is zero unless it is a code word. -/
  | clean (left : BitVec 288)
  /-- A single symbol was corrected; the pattern that is left is zero unless more symbols were wrong than the code corrects. -/
  | corrected (left : BitVec 288)
  | uncorrectable
  deriving DecidableEq, Repr

/-- Decodes a pattern: no error, one symbol corrected, or uncorrectable (11 R319, R321). -/
def decodeBurst (e : BitVec 288) : Decoded :=
  let s0 := syndrome e 0
  let s1 := syndrome e 1
  let s2 := syndrome e 2
  if s0 = 0 ∧ s1 = 0 ∧ s2 = 0 then .clean e
  else if s0 = 0 then .uncorrectable
  else match (List.range 29).find? (fun p => gfShift s0 p == s1 && gfShift s0 (2 * p) == s2) with
    | none => .uncorrectable
    | some p =>
      let v := burstSym e p ^^^ s0
      if p < 3 then .corrected (setField e (258 + 10 * p) 10 v.toNat)
      else if p < 28 then .corrected (setField e (10 * (p - 3)) 10 v.toNat)
      else if s0.toNat < 256 then .corrected (setField e 250 8 v.toNat) else .uncorrectable

/-- The three syndromes as one number, as the error log records them. -/
def syndromeWord (e : BitVec 288) : Nat := (syndrome e 0).toNat + 1024 * (syndrome e 1).toNat + 1048576 * (syndrome e 2).toNat

end Sys2Proof.Machine
end

