-- ==== Sys2Proof/Machine/MemCtl.lean ====
section
/-! DEFINITION. The memory controllers: queues, the choice of the next request, pages, reads through the line code, the
guard units, refresh, scrub, retraining, failures (11 R312 to R330; 23 R676). -/

namespace Sys2Proof.Machine

/-! ### Requests and banks -/

/-- Where a request lies. -/
def State.reqGeo (s : State) (r : MemReq) : Option (Loc × Geo) :=
  (s.locOf (64 * r.line)).map (fun l => (l, s.geo l.set l.x))

/-- The bank a request targets in its channel, rank × 16 + bank, and the row. -/
def State.reqRow (s : State) (r : MemReq) : Nat × Nat :=
  match s.reqGeo r with
  | some p => (p.2.rank * 16 + p.2.bank, p.2.row)
  | none => (0, 0)

/-- Changes the first request that a test selects. -/
def updFirst (p : MemReq → Bool) (f : MemReq → MemReq) : List MemReq → List MemReq
  | [] => []
  | r :: l => if p r then f r :: l else r :: updFirst p f l

/-- Removes the first request that a test selects. -/
def dropFirst (p : MemReq → Bool) : List MemReq → List MemReq
  | [] => []
  | r :: l => if p r then l else r :: dropFirst p l

/-- Replaces the list of requests. -/
def State.setReqs (s : State) (l : List MemReq) : State := { s with mem := { s.mem with reqs := l } }

/-- A bank records an outcome: the history shifts, the counter moves with the hits among the last eight (11 R314). -/
def Bank.outcome (b : Bank) (hit : Bool) : Bank :=
  let h : BitVec 8 := (b.hist <<< 1) ||| (if hit then 1 else 0)
  let n := ((List.range 8).filter (fun i => h.getLsbD i)).length
  { b with hist := h, ctr := if 5 ≤ n then (if b.ctr = 3 then 3 else b.ctr + 1) else if n = 4 then b.ctr else (if b.ctr = 0 then 0 else b.ctr - 1) }

/-- The fields that a memory event records: channel, rank, sub-channel, bank, row, column, syndrome (11 R321; 23 R681; log 41). -/
def memDetail (c : Nat) (g : Geo) (sub synd : Nat) : Nat :=
  c + 2 ^ 8 * g.rank + 2 ^ 16 * sub + 2 ^ 24 * g.bank + 2 ^ 32 * g.row + 2 ^ 64 * g.col + 2 ^ 96 * synd

/-- The channel takes commands: in service, trained, not in self-refresh and not held (11 R328, R329, R331). -/
def Chan.runs (k : Chan) : Bool := k.ctl.getLsbD 0 && k.trained && !k.selfRef && !k.hold && !k.failed

/-- A channel precharges and enters self-refresh (11 R329). -/
def Chan.sleep (k : Chan) : Chan := { k with selfRef := true, banks := k.banks.map (fun b => (b.1, { b.2 with openRow := none, streak := 0 })) }

/-- A channel whose MEM_CTL.SELFREF_REQ is 1 enters self-refresh once it has completed every request it accepted (11 R329, R331). -/
def State.selfRefDue (s : State) (c : Nat) : State :=
  if (s.chan c).ctl.getLsbD 1 && !(s.chan c).selfRef && !s.mem.reqs.any (fun r => r.chan == c && r.stage != .inbound) then s.updChan c Chan.sleep else s

/-! ### Failures (11 R322, R326; 23 R676) -/

/-- A read's answer reaches its home: the line, and its Blot mark. -/
def State.readDone (s : State) (r : MemReq) (d : Line) (blot : Bool) : State := s.homeFill r.line (if blot then 0 else d) blot

/-- A module leaves service: its channels answer reads with Blot and discard writes, its guard unit stops, the capability
page changes (23 R672, R676). -/
def State.failModule (s : State) (m c cause : Nat) : State :=
  if (s.module m).failed || !(s.module m).usable then s
  else
    let mine (r : MemReq) : Bool := r.chan / 8 == m
    let lost := s.mem.reqs.filter (fun r => mine r && r.wr.isNone)
    let s1 : State := { s with mem := { s.mem with
      reqs := s.mem.reqs.filter (fun r => !mine r),
      modules := s.mem.modules.upd m {} (fun k => { k with failed := true, locks := [] }),
      chans := ((List.range 8).map (8 * m + ·)).foldl (fun t c => t.upd c {} (fun k => { k with failed := true, ctl := setField k.ctl 0 1 0 })) s.mem.chans } }
    ((lost.foldl (fun (s : State) r => s.readDone r 0 true) s1).log 0x27 3 0x7F 3 m 0 0 (c + 2 ^ 32 * cause)).pageChanged

/-- An uncorrectable burst: counted, logged; the fourth on one rank and sub-channel within a second marks the die failed
(11 R321, R326). -/
def State.burstUe (s : State) (c owner line : Nat) (g : Geo) (sub synd : Nat) : State :=
  let k := g.rank * 2 + sub
  let near := (((s.chan c).dieUe.getD k []).filter (fun t => decide (s.ticks < t + 100000000)))
  let fails := decide (3 ≤ near.length) && !(s.chan c).dieFail.getLsbD k
  let s1 := (s.updChan c (fun x => { x with
      ue := x.ue + 1, dieUe := x.dieUe.set k (s.ticks :: near),
      dieFail := if fails then x.dieFail ||| (1 <<< k) else x.dieFail })).log 0x20 2 owner 2 c 0 (64 * line) (memDetail c g sub synd)
  if fails then s1.log 0x25 3 0x7F 2 c 0 (64 * line) (memDetail c g sub synd) else s1

/-- A corrected burst: counted; the sixteenth of a row within a scrub period is logged (11 R321). -/
def State.burstCe (s : State) (c owner line : Nat) (g : Geo) (sub synd : Nat) : State :=
  let row := (g.rank * 16 + g.bank) * 131072 + g.row
  let n := (s.chan c).rowCe.getD row 0 + 1
  let s1 := s.updChan c (fun x => { x with ce := x.ce + 1, rowCe := x.rowCe.set row n })
  if n = 16 then s1.log 0x21 0 owner 2 c 0 (64 * line) (memDetail c g sub synd) else s1

/-! ### Arrival (11 R312, R313) -/

/-- MEM_REQUEST_ARRIVE: the oldest request on its way to the channel enters its queue of 128; one that no window covers is
answered with Blot or discarded, and logged; so, without a record, one to a failed channel (11 R312, R313; 23 R676). -/
def execMemRequestArrive (c : Nat) (s : State) : Host.Outcome State Fault Refusal :=
  .next (
    let mine (r : MemReq) : Bool := r.chan == c && r.stage == .inbound
    match s.mem.reqs.find? mine with
    | none => s
    | some r =>
      let gone := s.setReqs (dropFirst mine s.mem.reqs)
      let ends (s : State) : State := if r.wr.isNone then s.readDone r 0 true else s
      if r.phys.isNone then ends (gone.log 0x22 1 r.owner 2 c 0 (64 * r.line) 0)
      else if (s.chan c).failed then ends gone
      else if (s.chan c).selfRef || (s.chan c).ctl.getLsbD 1 || decide (128 ≤ (s.mem.reqs.filter (fun r => r.chan == c && r.stage != .inbound)).length) then s
      else s.setReqs (updFirst mine (fun r => { r with stage := .queued }) s.mem.reqs))

/-! ### The choice (11 R313 to R316, R318, R325) -/

/-- The lock a guarded request needs: its module and group. -/
def State.groupOf (s : State) (r : MemReq) : Option (Nat × Nat) :=
  if r.guard then (s.reqGeo r).map (fun p => (p.2.chan / 8, p.1.x / 2048)) else none

/-- A request's group is free to lock, or it needs none (11 R325). -/
def State.lockFree (s : State) (r : MemReq) : Bool :=
  match s.groupOf r with
  | some (m, u) => !((s.module m).locks.contains u) && decide ((s.module m).locks.length < 32)
  | none => true

/-- Locks or unlocks a request's group. -/
def State.setLock (s : State) (r : MemReq) (on : Bool) : State :=
  match s.groupOf r with
  | some (m, u) => { s with mem := { s.mem with modules := s.mem.modules.upd m {} (fun k => { k with locks := if on then u :: k.locks else k.locks.erase u }) } }
  | none => s

/-- The queued requests of a channel that may issue, oldest first: no earlier request of the same source to the same line
is open, and a guarded one's group is free (11 R315, R325). -/
def State.mayIssue (s : State) (c : Nat) : List MemReq → List MemReq → List MemReq
  | _, [] => []
  | seen, r :: l =>
    let rest := s.mayIssue c (r :: seen) l
    if r.chan == c && r.stage == .queued && !(seen.any (fun q => q.line == r.line && q.home == r.home && q.cls == r.cls)) && s.lockFree r
      then r :: rest else rest

/-- An owner is within its share of the channel over the window: 341 lines fill 1,024 controller cycles (11 R307, R313;
log 42). -/
def State.inShare (s : State) (c owner : Nat) : Bool :=
  owner == 0x7F || decide ((s.chan c).served.getD owner 0 * 256 < (s.tenant owner).ent.bwGuar * 341)

/-- The request that a channel issues next (11 R313, R316). -/
def State.nextReq (s : State) (c : Nat) : Option MemReq :=
  let l0 := s.mayIssue c [] s.mem.reqs
  let rt := l0.filter (fun r => r.cls == .rt)
  let l1 := if s.mem.panic && !rt.isEmpty then rt else l0
  let fair := l1.filter (fun r => s.inShare c r.owner)
  let l2 := if fair.isEmpty then l1 else fair
  let k := s.chan c
  let hit (r : MemReq) : Bool :=
    let p := s.reqRow r
    let b := k.banks.getD p.1 {}
    let others := s.mem.reqs.any (fun q => q.chan == c && q.stage == .queued && (s.reqRow q).1 == p.1 && (s.reqRow q).2 != p.2)
    b.openRow == some p.2 && !(decide (field k.page 0 7 ≤ b.streak) && others)
  match l2.find? hit with
  | some r => some r
  | none => l2.head?

/-- The neighbours of a row that a neighbour refresh refreshes (11 R318). -/
def neighbours (rows row : Nat) : Nat := (if row = 0 then 0 else 1) + (if row + 1 < rows then 1 else 0)

/-- An ACT draws from the channel's generator and, with probability 1 in 2^k, refreshes both neighbour rows (11 R318). -/
def State.actDraw (s : State) (c row : Nat) : State :=
  let v := s.free
  let rows := if (s.module (c / 8)).gib = 32 then 65536 else 131072
  let hit := v.1.toNat % 2 ^ field (s.chan c).ctl 12 4 = 0
  v.2.updChan c (fun k => { k with lfsr := v.1.truncate 32, rhAct := if hit then k.rhAct + BitVec.ofNat 64 (neighbours rows row) else k.rhAct })

/-- The bank after it has served a request, with the page kept open or not (11 R314). -/
def State.serveBank (s : State) (c : Nat) (r : MemReq) : State :=
  let p := s.reqRow r
  let k := s.chan c
  let b := k.banks.getD p.1 {}
  let hit := b.openRow == some p.2
  let s1 := if hit then s else s.actDraw c p.2
  let b1 := { b.outcome (b.lastRow == some p.2) with openRow := some p.2, lastRow := some p.2, streak := if hit then b.streak + 1 else 0 }
  let more := s.mem.reqs.any (fun q => q.chan == c && q.stage == .queued && q != r && (s.reqRow q).1 == p.1)
  let keep := more || (match field k.ctl 10 2 with | 0 => decide (2 ≤ b1.ctr.toNat) | 1 => true | _ => false)
  s1.updChan c (fun k => { k with banks := k.banks.set p.1 (if keep then b1 else { b1 with openRow := none, streak := 0 }) })

/-- Counts a served line in the channel's window and in its owner's use (11 R313; 20 R586). -/
def State.countServed (s : State) (c owner : Nat) : State :=
  let s1 := s.updChan c (fun k =>
    let n := k.served.foldl (fun a p => a + p.2) 0
    let old : Tab Nat := if 341 ≤ n then [] else k.served
    { k with served := old.upd owner 0 (· + 1) })
  if owner < 64 then s1.updTenant owner (fun x => { x with usage := { x.usage with bytes := x.usage.bytes + 64 } }) else s1

/-- The bursts of a line that lie on failed dies. -/
def State.deadBursts (s : State) (l : Loc) : BitVec 2 :=
  let m := s.deadHalves l.set l.x
  (if m.getLsbD 0 then 1 else 0) ||| (if m.getLsbD 32 then 2 else 0)

/-- DRAM_ISSUE: the channel issues its next request: an unguarded write is stored, a guarded one locks its group, a read goes
out, a guarded read of a failed die goes straight to its rebuild (11 R313 to R316, R318, R325, R326). -/
def execDramIssue (c : Nat) (s : State) : Host.Outcome State Fault Refusal :=
  .next (State.selfRefDue (if !(s.chan c).runs then s
    else match s.nextReq c with
      | none => s
      | some r =>
        let s1 := (s.serveBank c r).countServed c r.owner
        let isIt (q : MemReq) : Bool := q == r
        match r.wr, r.guard with
        | some w, false => ((s1.setReqs (dropFirst isIt s1.mem.reqs)).memWrite r.line w.1 w.2.1 w.2.2).updChan c (fun k => { k with lastWr := some ({ r with tries := 0 }, r.phys.getD 0) })
        | some _, true => (s1.setReqs (updFirst isIt (fun q => { q with stage := .issued }) s1.mem.reqs)).setLock r true
        | none, _ =>
          let dead := match s.locOf (64 * r.line) with | some l => s.deadBursts l | none => 0
          if r.guard && dead != 0 then
            let got := match s.locOf (64 * r.line) with | some l => (s.rawLine l).1 | none => 0
            (s1.setReqs (updFirst isIt (fun q => { q with stage := .rebuild, bad := dead, got }) s1.mem.reqs)).setLock r true
          else s1.setReqs (updFirst isIt (fun q => { q with stage := .issued }) s1.mem.reqs)) c)

/-! ### Reads (11 R320, R321, R325) -/

/-- What one burst of a read comes to: its data pattern left wrong and its TAG, or nothing that can be used. -/
def burstResult (dead : Bool) (tag : BitVec 2) (e : BitVec 288) : Option (BitVec 256 × BitVec 2) :=
  if dead then none
  else
    let of (left : BitVec 288) : Option (BitVec 256 × BitVec 2) :=
      let t := tag ^^^ left.extractLsb' 256 2
      if t = 2 ∨ t = 3 then none else some (left.truncate 256, t)
    match decodeBurst e with
    | .clean left => of left
    | .corrected left => of left
    | .uncorrectable => none

/-- Counts what a burst's check found. -/
def State.countBurst (s : State) (c owner line : Nat) (g : Geo) (sub : Nat) (dead : Bool) (tag : BitVec 2) (e : BitVec 288) : State :=
  if dead then s
  else if (burstResult false tag e).isNone then s.burstUe c owner line g sub (syndromeWord e)
  else match decodeBurst e with
    | .corrected _ => s.burstCe c owner line g sub (syndromeWord e)
    | _ => s

/-- MEM_READ_COMPLETE: the bursts of the oldest read issued come with these bits flipped; corrected data goes home, an
uncorrectable burst makes the line Blot, or is rebuilt in a guarded window (11 R320, R321, R325). -/
def execMemReadComplete (c : Nat) (e0 e1 : BitVec 288) (s : State) : Host.Outcome State Fault Refusal :=
  .next (State.selfRefDue (
    let mine (r : MemReq) : Bool := r.chan == c && r.stage == .issued && r.wr.isNone
    match s.mem.reqs.find? mine with
    | none => s
    | some r =>
      match s.reqGeo r with
      | none => (s.setReqs (dropFirst mine s.mem.reqs)).readDone r 0 true
      | some (l, g) =>
        let raw := s.rawLine l
        let dead := s.deadBursts l
        let b0 := burstResult (dead.getLsbD 0) raw.2 e0
        let b1 := burstResult (dead.getLsbD 1) raw.2 e1
        let counted := (s.countBurst c r.owner r.line g 0 (dead.getLsbD 0) raw.2 e0).countBurst c r.owner r.line g 1 (dead.getLsbD 1) raw.2 e1
        let part (b : Option (BitVec 256 × BitVec 2)) : Line := match b with | some x => x.1.zeroExtend 512 | none => 0
        let left : Line := part b0 ||| (part b1 <<< 256)
        let d := raw.1 ^^^ left
        let out := counted.setReqs (dropFirst mine s.mem.reqs)
        if (s.chan c).badLines.contains (s.physOf l) then (s.setReqs (dropFirst mine s.mem.reqs)).readDone r 0 true
        else match b0, b1 with
          | some x, some y => out.readDone r d (x.2 == 1 || y.2 == 1)
          | _, _ =>
            if !r.guard then out.readDone r 0 true
            else if !s.lockFree r then s
            else
              let bad : BitVec 2 := (if b0.isNone then 1 else 0) ||| (if b1.isNone then 2 else 0)
              (counted.setReqs (updFirst mine (fun q => { q with stage := .rebuild, bad, got := d }) s.mem.reqs)).setLock r true) c)

/-- GUARD_WRITE: the oldest guarded write that holds its group's lock writes data and parity, and unlocks (11 R325, R326). -/
def execGuardWrite (c : Nat) (s : State) : Host.Outcome State Fault Refusal :=
  .next (State.selfRefDue (
    let mine (r : MemReq) : Bool := r.chan == c && r.stage == .issued && r.guard && r.wr.isSome
    match s.mem.reqs.find? mine with
    | none => s
    | some r => match r.wr with
      | none => s
      | some w => ((((s.setReqs (dropFirst mine s.mem.reqs)).memWrite r.line w.1 w.2.1 w.2.2).setLock r false)).updChan c
          (fun k => { k with lastWr := some ({ r with tries := 0 }, r.phys.getD 0) })) c)

/-- GUARD_REBUILD: the other granules have been read; the failed halves are rebuilt by XOR and the line returns unmarked, or
Blot where a second burst was uncorrectable too (11 R325). -/
def execGuardRebuild (c : Nat) (second : Bool) (s : State) : Host.Outcome State Fault Refusal :=
  .next (State.selfRefDue (
    let mine (r : MemReq) : Bool := r.chan == c && r.stage == .rebuild
    match s.mem.reqs.find? mine with
    | none => s
    | some r =>
      let s1 := (s.setReqs (dropFirst mine s.mem.reqs)).setLock r false
      match s.reqGeo r with
      | none => s1.readDone r 0 true
      | some (l, g) =>
        let mask : BitVec 64 := (if r.bad.getLsbD 0 then byteMask 0 32 else 0) ||| (if r.bad.getLsbD 1 then byteMask 32 32 else 0)
        let fail := (s1.updChan c (fun k => { k with ue := k.ue + 1 })).log 0x20 2 r.owner 2 c 0 (64 * r.line) (memDetail c g 0 0)
        if second then fail.readDone r 0 true
        else match s.rebuildLine l mask with
          | none => fail.readDone r 0 true
          | some x =>
            ((s1.updChan c (fun k => { k with rebuilds := k.rebuilds + 1 })).log 0x24 0 r.owner 2 c 0 (64 * r.line) (memDetail c g 0 0)).readDone r
              (mergeLine r.got x.1 mask) (x.2 == 1)) c)

/-- DRAM_WRITE_ERROR: the DRAM reports the read or the write issued last as failed; it is repeated twice, then a read returns
Blot or is rebuilt, and a write's line enters the bad-line table, whose 65th entry fails the channel (11 R322; 23 R676). -/
def execDramWriteError (c : Nat) (wr : Bool) (s : State) : Host.Outcome State Fault Refusal :=
  .next (State.selfRefDue (
    if wr then
      match (s.chan c).lastWr with
      | none => s
      | some (r, p) =>
        if r.tries < 2 then s.updChan c (fun k => { k with lastWr := some ({ r with tries := r.tries + 1 }, p) })
        else
          let s1 := s.updChan c (fun k => { k with lastWr := none })
          if (s.chan c).badLines.contains p then s1
          else if 64 ≤ (s.chan c).badLines.length then s1.failModule (c / 8) c 1
          else
            let det := match s.reqGeo r with | some x => memDetail c x.2 0 0 | none => c
            (s1.updChan c (fun k => { k with badLines := p :: k.badLines })).log 0x23 2 r.owner 2 c 0 (64 * r.line) det
    else
      let mine (r : MemReq) : Bool := r.chan == c && r.stage == .issued && r.wr.isNone
      match s.mem.reqs.find? mine with
      | none => s
      | some r =>
        if r.tries < 2 then s.setReqs (updFirst mine (fun q => { q with tries := q.tries + 1 }) s.mem.reqs)
        else match s.reqGeo r with
          | none => (s.setReqs (dropFirst mine s.mem.reqs)).readDone r 0 true
          | some (_, g) =>
            let s1 := (s.burstUe c r.owner r.line g 0 0).burstUe c r.owner r.line g 1 0
            if r.guard && s.lockFree r then (s1.setReqs (updFirst mine (fun q => { q with stage := .rebuild, bad := 3 }) s.mem.reqs)).setLock r true
            else (s1.setReqs (dropFirst mine s.mem.reqs)).readDone r 0 true) c)

/-! ### Maintenance (11 R314, R316, R317, R323, R327, R328) -/

/-- REFRESH: a bank's refresh falls due: postponed while the bank is busy, within the limit, else issued, which closes its
row (11 R317). -/
def execRefresh (c b : Nat) (s : State) : Host.Outcome State Fault Refusal :=
  .next (if !(s.chan c).runs then s
    else
      let k := (s.chan c).banks.getD b {}
      let busy := s.mem.reqs.any (fun q => q.chan == c && q.stage == .queued && (s.reqRow q).1 == b)
      let k' : Bank := if busy && decide (k.postponed < Config.maxPostponed) then { k with postponed := k.postponed + 1 }
        else { k with openRow := none, streak := 0, postponed := 0 }
      s.updChan c (fun x => { x with banks := x.banks.set b k' }))

/-- IDLE_PRECHARGE: an open row without a request for MEM_PAGE.IDLE cycles is closed (11 R314). -/
def execIdlePrecharge (c b : Nat) (s : State) : Host.Outcome State Fault Refusal :=
  .next (if s.mem.reqs.any (fun q => q.chan == c && q.stage == .queued && (s.reqRow q).1 == b) then s
    else s.updChan c (fun x => { x with banks := x.banks.upd b {} (fun k => { k with openRow := none, streak := 0 }) }))

/-- The place of a channel's line by number (11 R311). -/
def scrubGeo (gib c n : Nat) : Geo :=
  let v := n / 4
  let big := gib = 128
  let row := if big then v / 512 else v / 256
  { chan := c, rank := if big then v / 256 % 2 else 0, bank := (v / 16 % 16) ^^^ (row % 16), row, col := v % 16 * 4 + n % 4 }

/-- SCRUB: the scrubber reads the channel's next line with these bits flipped, counts and logs what it finds, and writes a
corrected line back; a pass ends with the last line (11 R321, R323). -/
def execScrub (c : Nat) (e0 e1 : BitVec 288) (s : State) : Host.Outcome State Fault Refusal :=
  .next (if !(s.chan c).runs || !(s.chan c).ctl.getLsbD 9 then s
    else
      let gib := (s.module (c / 8)).gib
      let n := (s.chan c).scrubAt
      let g := scrubGeo gib c n
      let dead (i : Nat) : Bool := (s.chan c).dieFail.getLsbD (2 * g.rank + i)
      let s1 := (s.countBurst c 0x7F 0 g 0 (dead 0) 0 e0).countBurst c 0x7F 0 g 1 (dead 1) 0 e1
      let last := decide (gib * 2 ^ 21 ≤ n + 1)
      s1.updChan c (fun k => { k with scrubAt := if last then 0 else n + 1, rowCe := if last then [] else k.rowCe }))

/-- RETRAIN_STEP: a step measures the eye; below its target the channel retrains in full, and a channel that fails fails its
module (11 R327, R328). -/
def execRetrainStep (c eye : Nat) (ok : Bool) (s : State) : Host.Outcome State Fault Refusal :=
  .next (if !(s.chan c).runs then s
    else
      let s1 : State := { s with rel := { s.rel with eye := s.rel.eye.set c eye } }
      if s.rel.eyeGoal.getD c 0 ≤ eye then s1
      else
        let s2 := s1.log 0x26 0 0x7F 2 c 0 0 c
        if ok then s2.updChan c (fun k => { k with trained := true })
        else (s2.updChan c (fun k => { k with trained := false })).failModule (c / 8) c 2)

/-- PANIC_CHANGE: the controllers see panic rise or fall (11 R316). -/
def execPanicChange (p : Bool) (s : State) : Host.Outcome State Fault Refusal := .next { s with mem := { s.mem with panic := p } }

end Sys2Proof.Machine
end

