-- ==== Sys2Proof/Machine/Sort.lean ====
section
/-! DEFINITION. SORT_RADIX, MERGE, TOPK and LIMIT (04 R107, R111; 05 R147 to R151). -/

namespace Sys2Proof.Machine

/-! ### The order of rows (05 R148, R150) -/

/-- The sort key t' of a key value, none for a null (05 R148). -/
def OpRec.sortKey (o : OpRec) (d : FieldD) (v : Option Word) : Option Nat :=
  v.map (fun w => if o.optAt 4 1 = 1 then 2 ^ d.width - 1 - tVal d w else tVal d w)

/-- The rows of a list with their sort keys. -/
def OpCtx.keyed (c : OpCtx) (rows : List Row) : List (Option Nat × Row) :=
  let k := c.o.optAt 0 4
  let d := c.inp.getD k noField
  rows.map (fun r => (c.o.sortKey d (r.vals.getD k none), r))

/-- The order of the tuple (null flag, t', MORSEL, ROW) (05 R150). -/
def keyLe (a b : Option Nat × Row) : Bool :=
  match a.1, b.1 with
  | some x, some y => decide (x < y) || (x == y && lineageLe a.2.morsel a.2.row b.2.morsel b.2.row)
  | some _, none => true
  | none, some _ => false
  | none, none => lineageLe a.2.morsel a.2.row b.2.morsel b.2.row

/-! ### SORT_RADIX (05 R148, R149) -/

/-- The bytes of a run of n rows with k nonempty null bitmaps: header, keys, lineage, two address tables, fields. -/
def runLen (schema : List FieldD) (n k : Nat) : Nat := 64 + 16 * n + 256 + n * (schema.map (fun d => d.width / 8)).sum + k * ((n + 7) / 8)

/-- The 64 B header of a run (05 R149). -/
def runHdr (o : OpRec) (rows nulls nf keys lineage fields bitmaps : Nat) : List Byte :=
  leBytes 4 rows ++ leBytes 4 nulls ++ leBytes 1 (o.optAt 0 4) ++ leBytes 1 (o.optAt 4 1) ++ leBytes 1 nf ++ zeros 5
    ++ leBytes 8 keys ++ leBytes 8 lineage ++ leBytes 8 fields ++ leBytes 8 bitmaps ++ zeros 16

/-- Builds the run of a batch in query-local memory; none where the budget or the allocation cannot hold it (05 R147 to
R149). A null row's place in the key array and in its field array is not stated (log 1). -/
def State.sortRun (s : State) (c : OpCtx) (b : Batch) : Option State :=
  let rows := sortBy keyLe (c.keyed b.rows)
  let rs := rows.map (·.2)
  let cols := (List.range c.inp.length).map (colOf rs)
  let nuls := cols.map (fun l => if l.any (·.isNone) then nullBytes l else [])
  let size := runLen c.inp rows.length (nuls.filter (fun l => !l.isEmpty)).length
  if s.budgetOf c.f c.q c.i < (s.brkOf c.f c.q c.i).used + size then none
  else
    let sol := s.solid (rows.map (fun r => r.1.map (BitVec.ofNat 64)) :: cols)
    let keys := ((sol.1.headD []).flatMap (fun v => leBytes 8 v.toNat))
    let lin := rs.flatMap (fun r => leBytes 4 r.morsel ++ leBytes 2 r.row ++ zeros 2)
    let arrays := List.zipWith denseBytes c.inp (sol.1.drop 1)
    (sol.2.placeAll c.f c.q ([zeros 64, keys, lin, zeros 128, zeros 128] ++ arrays ++ nuls)).map (fun r =>
      let a := r.1
      let nf := c.inp.length
      let tab (o : Nat) : List Byte := (List.range 16).flatMap (fun k => leBytes 8 (if k < nf then a.getD (5 + o + k) 0 else 0))
      let hdr := runHdr c.o rows.length (rows.filter (fun x => x.1.isNone)).length nf (a.getD 1 0) (a.getD 2 0) (a.getD 3 0) (a.getD 4 0)
      (((r.2.writeBytes c.f (a.getD 0 0) hdr).writeBytes c.f (a.getD 3 0) (tab 0)).writeBytes c.f (a.getD 4 0) (tab nf)).updBrk c.f c.q c.i
        (fun y => { y with used := y.used + size, runs := y.runs ++ [{ addr := a.getD 0 0, morsel := b.morsel, rows }] }))

/-- SORT_RADIX: each batch in hand becomes a run (04 R106; 05 R148, R149). -/
def execSortRadix (t : Nat) (s : State) : Host.Outcome State Fault Refusal :=
  .next (match s.opCtx t 9 none with
    | none => s
    | some c => match c.run.batches.foldl (fun (a : Option State) b => a.bind (fun s => s.sortRun c b)) (some s) with
      | none => s.opFail t 0x0307
      | some s1 => s1.opDone t [])

/-! ### MERGE (05 R147, R150) -/

/-- How often groups of 64 runs are merged before 4,096 or fewer remain; the first argument bounds the rounds. -/
def preMerges : Nat → Nat → Nat
  | 0, _ => 0
  | k + 1, n => if n ≤ 4096 then 0 else 1 + preMerges k ((n + 63) / 64)

/-- The bytes of the runs merged beforehand (05 R150). -/
def State.preBytes (s : State) (c : OpCtx) : Nat :=
  let runs := (s.brkOf c.f c.q c.o.obj).runs
  let n := runs.foldl (fun a r => a + r.rows.length) 0
  preMerges 8 runs.length * runLen c.out n 0

/-- MERGE: the rows of one output morsel of all runs (04 R106, R115; 05 R150). -/
def execMerge (t : Nat) (s : State) : Host.Outcome State Fault Refusal :=
  .next (match s.opCtx t 0x0A none with
    | none => s
    | some c =>
      if s.budgetOf c.f c.q c.i < s.preBytes c then s.opFail t 0x0307
      else
        let all := sortBy keyLe ((s.brkOf c.f c.q c.o.obj).runs.flatMap (·.rows))
        let m := c.task.morsel
        let rows := ((all.drop (65536 * m)).take 65536).mapIdx (fun i x => { x.2 with morsel := m, row := i })
        s.opDone t [{ morsel := m, rows }])

/-! ### TOPK (05 R151) -/

/-- What TOPK passes on of a batch under a threshold, and the threshold it leaves (05 R151). -/
def topkBatch (k th : Nat) (rows : List (Option Nat × Row)) : List Row × Nat :=
  let sorted := sortBy keyLe rows
  let vals := (sorted.filter (fun x => match x.1 with | some v => decide (v ≤ th) | none => false)).take k
  let nulls := (sorted.filter (fun x => x.1.isNone)).take (k - vals.length)
  let last := (vals.getLast?.bind (·.1)).getD th
  ((vals ++ nulls).map (·.2), if vals.length = k then min th last else th)

/-- TOPK: the first K rows of each batch in hand, in key order (04 R107; 05 R151). -/
def execTopk (t : Nat) (s : State) : Host.Outcome State Fault Refusal :=
  .next (match s.opCtx t 0x0B none with
    | none => s
    | some c =>
      let th := (s.query c.f c.q).thetas.getD c.i (2 ^ 64 - 1)
      let r := c.run.batches.foldl (fun (a : List Batch × Nat) b =>
        let x := topkBatch c.o.count a.2 (c.keyed b.rows)
        (a.1 ++ [{ b with rows := x.1 }], x.2)) ([], th)
      (s.updQuery c.f c.q (fun x => { x with thetas := x.thetas.set c.i r.2 })).opDone t r.1)

/-! ### LIMIT (04 R111) -/

/-- The counts of tasks 0 to n − 1 added, where all are known. -/
def LimitSt.below (l : LimitSt) (n : Nat) : Option Nat :=
  (List.range n).foldl (fun (a : Option Nat) i => match a, l.counts.find? i with
    | some x, some y => some (x + y)
    | _, _ => none) (some 0)

/-- The lowest morsel m for which the counts of morsels 0 to m are known and reach n. -/
def LimitSt.reaches (l : LimitSt) (n morsels : Nat) : Option Nat :=
  (List.range morsels).find? (fun m => match l.below (m + 1) with | some x => decide (n ≤ x) | none => false)

/-- A pipeline stops past morsel m: waiting tasks above it are dropped, running ones cancelled, and its stages wait for
those that are left (04 R111). -/
def State.limitCut (s : State) (f q p m : Nat) : State :=
  let b := s.rawOf f q
  let st := (imgPipe b p).stages b
  let sel (k : Task) : Bool := k.pipe == p && !k.once && decide (m < k.seq)
  let s1 := ((s.updPipe f q p (fun ps => { ps with cut := some m })).dropTasks f q sel).cancelCores f q sel
  let count (k : Nat) : Nat := ((s1.disp f).tasks.filter (fun t => t.2.qslot == q && t.2.pipe == p && t.2.stage == k && (t.2.at_ != .spilled || !sel t.2))).length
  s1.updPipe f q p (fun ps => { ps with left := (List.range st.length).map (fun k => (k, if onceFrom b st ≤ k then ps.left.getD k 0 else count k)) })

/-- The rows of batches in (morsel, row) order, at most n of them. -/
def firstRows (n : Nat) (bs : List Batch) : List Row :=
  (sortBy (fun (a b : Row) => lineageLe a.morsel a.row b.morsel b.row) (bs.flatMap (·.rows))).take n

/-- LIMIT: the task's rows are counted; they pass once every lower task's count is known (04 R111). -/
def execLimit (t : Nat) (s : State) : Host.Outcome State Fault Refusal :=
  .next (match s.opCtx t 0x0C none with
    | none => s
    | some c =>
      let n := (c.run.batches.map (fun b => b.rows.length)).sum
      let l0 := (s.query c.f c.q).limits.getD c.i {}
      let l : LimitSt := { l0 with counts := l0.counts.set c.task.seq n }
      let s1 := s.updQuery c.f c.q (fun x => { x with limits := x.limits.set c.i l })
      let ps := (s1.query c.f c.q).pipes.getD c.task.pipe {}
      let b := s1.rawOf c.f c.q
      let st := (imgPipe b c.task.pipe).stages b
      let far := (List.range c.task.stage).any (endsXchg b st)
      let s2 := if ps.cut.isSome || c.task.once || far then s1 else match l.reaches c.o.count ps.morsels with
        | some m => s1.limitCut c.f c.q c.task.pipe m
        | none => s1
      if s2.pastCut c.f c.task then s2
      else match l.below c.task.seq with
        | none => s2
        | some before =>
          let rows := firstRows (c.o.count - before) c.run.batches
          s2.opDone t (batchRows rows))

end Sys2Proof.Machine
end

