-- ==== Sys2Proof/Machine/Output.lean ====
section
/-! DEFINITION. Operators that hand rows out of a pipeline or through an engine: EXCHANGE, EMIT, COMPRESS, DECOMPRESS, DIGEST,
LOOKUP_BRAMBLE (04 R106 to R108, R112 to R114; 12; 13 R383; 15 R450; 19 R558, R561, R564). -/

namespace Sys2Proof.Machine

/-! ### EXCHANGE (15 R449, R450) -/

/-- The round that a batch of a send task goes to: the task's place modulo R; for a spilled sub-partition, its morsel. -/
def xchgRound (x : Xchg) (k : Task) (b : Batch) : Nat := (if k.special.isSome then b.morsel else k.seq) % max 1 x.rounds

/-- The staging lists of an exchange after a batch. -/
def stageBatch (c : OpCtx) (k : Task) (x : Xchg) (b : Batch) : Xchg :=
  let r := xchgRound x k b
  b.rows.foldl (fun (x : Xchg) y =>
    let d := hNode x.n (hashKey (rowKey c.inp (c.o.optAt 0 16) y))
    { x with staged := x.staged.upd (r * x.n + d) [] (fun l => l ++ [y]), used := x.used + 8 + 8 * c.inp.length }) x

/-- EXCHANGE: the rows in hand are staged for the nodes that their keys choose (15 R450; 05 R124). -/
def execExchange (t : Nat) (s : State) : Host.Outcome State Fault Refusal :=
  .next (match s.opCtx t 0x0D none with
    | none => s
    | some c => match s.xchgOf c.f c.q c.i with
      | none => s
      | some (id, x) =>
        let x1 := c.run.batches.foldl (stageBatch c c.task) x
        if s.budgetOf c.f c.q c.i < x1.used then s.opFail t 0x0307
        else (s.updXchg id (fun _ => x1)).opDone t [])

/-! ### EMIT (04 R106, R114) -/

/-- The bytes of a batch's records: fields in order, each in its width (04 R114). -/
def recordsOf (schema : List FieldD) (cols : List (List Word)) (n : Nat) : List (List Byte) :=
  let a := cols.map (·.toArray)
  (List.range n).map (fun i => (List.zipWith (fun (d : FieldD) c => leBytes (d.width / 8) (c.getD i 0).toNat) schema a).flatten)

/-- The elements of a batch's arrays, one array a field. -/
def elementsOf (schema : List FieldD) (cols : List (List Word)) : List (List Byte) :=
  (List.zipWith (fun (d : FieldD) l => l.map (fun v => leBytes (d.width / 8) v.toNat)) schema cols).flatten

/-- The indivisible pieces that EMIT writes of its batches: whole frames, records or elements; a null's bytes are not
stated (log 1). -/
def State.emitPieces (s : State) (c : OpCtx) : List Batch → List (List Byte) × State
  | [] => ([], s)
  | b :: rest =>
    let sol := s.solid ((List.range c.inp.length).map (colOf b.rows))
    let here := b.frames.map (·.bytes) ++ (if c.o.optAt 2 1 = 0 then recordsOf c.inp sol.1 b.rows.length else elementsOf c.inp sol.1)
    let r := sol.2.emitPieces c rest
    (here ++ r.1, r.2)

/-- The pieces that fit into n bytes, and whether all do. -/
def piecesIn : Nat → List (List Byte) → List Byte × Bool
  | _, [] => ([], true)
  | n, p :: r => if n < p.length then ([], false) else let x := piecesIn (n - p.length) r; (p ++ x.1, x.2)

/-- What the tasks before one of an EMIT have placed; none while one of them has not (04 R114). -/
def State.emitBefore (s : State) (c : OpCtx) : Option Nat :=
  let e := (s.query c.f c.q).emits.getD c.i []
  let b := s.rawOf c.f c.q
  let st := (imgPipe b c.task.pipe).stages b
  let ps := (s.query c.f c.q).pipes.getD c.task.pipe {}
  let own := stageTasks b (s.query c.f c.q).pbytes st ps.morsels c.task.stage
  if (List.range (min own c.task.seq)).all (fun i => (e.find? i).isSome) then
    some ((e.filter (fun p => decide (p.1 < c.task.seq))).map (fun p => p.2.2)).sum
  else none

/-- EMIT into a buffer (04 R114). -/
def State.emitBuffer (s : State) (t : Nat) (c : OpCtx) (before : Nat) : State :=
  let addr := getLE c.blk 0 8
  let cap := getLE c.blk 8 8
  let base := (if c.o.optAt 0 2 = 0 then 2 ^ 56 + addr % 2 ^ 56 else addr) + before
  let ps := s.emitPieces c c.run.batches
  let fit := piecesIn (cap - before) ps.1
  if !ps.2.rangeOk c.f base fit.1.length 2 then ps.2.opFail t 0x0105
  else
    let s1 := (ps.2.writeBytes c.f base fit.1).updQuery c.f c.q (fun x => { x with
      emitted := x.emitted + fit.1.length, emits := x.emits.upd c.i [] (fun e => e.set c.task.seq (ps.1.length, fit.1.length)) })
    if fit.2 then s1.opDone t [] else s1.opFail t 0x0308

/-- The source type of a field (02 R711; 17 R504). -/
def srcOf (d : FieldD) : Nat :=
  let lg := Nat.log2 (d.width / 8)
  match d.xform with
  | 1 => lg
  | 2 => if d.width = 32 then 8 else 9
  | 3 => if d.width = 32 then 10 else 11
  | _ => 4 + lg

/-- Appends a field's values to an object, segment by segment; answers the status (02 R43 to R49; 04 R114). -/
def State.emitColumn (s : State) (t : Nat) (f obj ty : Nat) : Nat → List (Option Word) → State × Nat
  | 0, _ => (s, 0)
  | n + 1, vals =>
    if vals.isEmpty then (s, 0)
    else match s.readObj f obj with
      | .ok d =>
        let chunk := vals.take (65536 - d.rows % 65536)
        let conv := chunk.map (fun v => match v with
          | none => some none
          | some w => (ingest ty d (w.toNat % 2 ^ (8 * srcSize ty))).map some)
        if conv.any (·.isNone) then (s, 0x0309)
        else match s.appendChunk f 0 t d (conv.map (·.getD none)) false with
          | (s1, 0, _) => s1.emitColumn t f obj ty n (vals.drop chunk.length)
          | (s1, st, _) => (s1, st)
      | .absent => (s, 0x0203)
      | .poisoned => (s, 0x0401)
      | .bad k => (s.logSegment f 0 t obj 0xFFFFFFFF k, 0x0402)

/-- The check of an object that EMIT appends to (02 R711; 17 R505). -/
def State.emitCheck (s : State) (t f obj : Nat) (d : FieldD) : State × Nat :=
  match s.readObj f obj with
  | .absent => (s, 0x0203)
  | .poisoned => (s, 0x0401)
  | .bad k => (s.logSegment f 0 t obj 0xFFFFFFFF k, 0x0402)
  | .ok o => (s, if o.sealedOnly then 0x0203 else if srcSuits (srcOf d) d.scale o then 0 else 0x010B)

/-- EMIT into column objects, one a field (04 R108, R114). -/
def State.emitObjects (s : State) (t : Nat) (c : OpCtx) : State :=
  let objs := c.inp.mapIdx (fun k d => (getLE c.blk (4 * k) 4, d, k))
  let chk := objs.foldl (fun (a : State × Nat) x => if a.2 = 0 then a.1.emitCheck t c.f x.1 x.2.1 else a) (s, 0)
  if chk.2 ≠ 0 then chk.1.opFail t chk.2
  else
    let rows := c.run.batches.flatMap (·.rows)
    let done := objs.foldl (fun (a : State × Nat) x =>
      if a.2 = 0 then a.1.emitColumn t c.f x.1 (srcOf x.2.1) (rows.length + 1) (colOf rows x.2.2) else a) (chk.1, 0)
    if done.2 ≠ 0 then done.1.opFail t done.2
    else (done.1.updQuery c.f c.q (fun x => { x with emits := x.emits.upd c.i [] (fun e => e.set c.task.seq (rows.length, 0)) })).opDone t []

/-- EMIT: each task's output after that of the task before it (04 R106, R114). -/
def execEmit (t : Nat) (s : State) : Host.Outcome State Fault Refusal :=
  .next (match s.opCtx t 0x12 none with
    | none => s
    | some c => match s.emitBefore c with
      | none => s
      | some before => if c.o.optAt 0 2 = 2 then s.emitObjects t c else s.emitBuffer t c before)

/-! ### COMPRESS and DECOMPRESS (04 R106, R108, R113; 12) -/

/-- The frame of a field's array. -/
def frameOf (method level : Nat) (d : FieldD) (arr : List Byte) : Frame :=
  let lv := if method = 1 then 0 else level
  let pay := cmpPayload method level (Nat.log2 (d.width / 8)) (d.xform == 1 || d.xform == 3) arr
  { bytes := frameHdr method lv arr.length pay.length (crc32c arr) ++ pay, ulen := arr.length }

/-- One batch through COMPRESS: its frames, none of an empty array under Drupe, which takes no empty input (12 R357). -/
def State.compressBatch (s : State) (c : OpCtx) (b : Batch) : Batch × State :=
  let sol := s.solid ((List.range c.inp.length).map (colOf b.rows))
  let m := c.o.optAt 0 2
  let frames := if m = 1 ∧ b.rows.isEmpty then [] else List.zipWith (fun d l => frameOf m (c.o.optAt 2 4) d (denseBytes d l)) c.inp sol.1
  ({ morsel := b.morsel, frames }, sol.2)

/-- COMPRESS: one frame for each field of each batch, put one after another in the destination (04 R106, R108, R113). -/
def execOpCompress (t : Nat) (s : State) : Host.Outcome State Fault Refusal :=
  .next (match s.opCtx t 0x0E none with
    | none => s
    | some c =>
      let r := c.run.batches.foldl (fun (a : List Batch × State) b => let x := a.2.compressBatch c b; (a.1 ++ [x.1], x.2)) ([], s)
      let at_ := (s.query c.f c.q).frames.getD c.i 0
      let a := getLE c.blk 0 8 + at_
      let fit := piecesIn (getLE c.blk 8 8 - at_) (r.1.flatMap (fun b => b.frames.map (·.bytes)))
      if !r.2.rangeOk c.f a fit.1.length 2 then r.2.opFail t 0x0105
      else
        let s1 := (r.2.writeBytes c.f a fit.1).updQuery c.f c.q (fun x => { x with frames := x.frames.set c.i (at_ + fit.1.length) })
        if fit.2 then s1.opDone t r.1 else s1.opFail t 0x0308)

/-- The bytes of a row over a schema. -/
def rowWidth (schema : List FieldD) : Nat := (schema.map (fun d => d.width / 8)).sum

/-- Rows from columns of n values. -/
def rowsFrom (m n : Nat) (cols : List (List Word)) : List Row := rowsOf m (List.range n) (cols.map (·.map some))

/-- The values of a dense array. -/
def denseVals (d : FieldD) (b : List Byte) : List Word :=
  let w := d.width / 8
  (List.range (b.length / max 1 w)).map (fun i => BitVec.ofNat 64 (getLE b (w * i) w))

/-- The fields of a schema from consecutive dense arrays of n elements. -/
def splitArrays : List FieldD → Nat → List Byte → List (List Word)
  | [], _, _ => []
  | d :: r, n, b => let k := d.width / 8 * n; denseVals d (b.take k) :: splitArrays r n (b.drop k)

/-- DECOMPRESS as a source: frame-table entry m (04 R108, R115; log 31). -/
def State.decompressSource (s : State) (t : Nat) (c : OpCtx) : State :=
  let m := c.task.morsel
  let e := cut c.blk (16 * m) 16
  let a := getLE e 0 8
  let n := getLE e 8 4
  if !s.rangeOk c.f a n 1 then s.opFail t 0x0105
  else
    let got := s.readBytes a n
    let bad := if got.2 then s.firstBlot a (n / 64 + 2) 0 else none
    let rw := max 1 (rowWidth c.out)
    let r := decompressRun (c.o.optAt 0 2) (getLE e 12 4) false got.1 bad 0 (65536 * rw)
    if r.code ≠ 0 then s.opFail t r.code
    else if r.out.length % rw ≠ 0 then s.opFail t 0x0106
    else
      let k := r.out.length / rw
      s.opDone t [{ morsel := m, rows := rowsFrom m k (splitArrays c.out k r.out) }]

/-- One frame batch through DECOMPRESS: a frame for each field; the status where it fails. -/
def decompressBatch (c : OpCtx) (b : Batch) : Nat ⊕ Batch :=
  let rs := List.zipWith (fun (d : FieldD) (x : Frame) => (d, decompressRun (c.o.optAt 0 2) x.ulen false x.bytes none 0 (65536 * (d.width / 8)))) c.out b.frames
  match rs.find? (fun r => r.2.code != 0) with
  | some r => .inl r.2.code
  | none =>
    let cols := rs.map (fun r => denseVals r.1 r.2.out)
    let n := (cols.headD []).length
    if rs.any (fun r => r.2.out.length != r.1.width / 8 * n) || (!b.frames.isEmpty && b.frames.length != c.out.length) then .inl 0x0106
    else .inr { morsel := b.morsel, rows := rowsFrom b.morsel n cols }

/-- The frames of a batch, one group for each piece that was compressed together. -/
def frameGroups (k : Nat) (b : Batch) : List Batch :=
  if b.frames.isEmpty then [{ b with rows := [] }]
  else (List.range ((b.frames.length + max 1 k - 1) / max 1 k)).map (fun i => { b with rows := [], frames := (b.frames.drop (max 1 k * i)).take (max 1 k) })

/-- DECOMPRESS: frames back into rows (04 R106, R113). -/
def execOpDecompress (t : Nat) (s : State) : Host.Outcome State Fault Refusal :=
  .next (match s.opCtx t 0x0F none with
    | none => s
    | some c =>
      if c.o.in0 = 0xFFFF then s.decompressSource t c
      else
        let rs := (c.run.batches.flatMap (frameGroups c.out.length)).map (decompressBatch c)
        match rs.findSome? (fun r => match r with | .inl st => some st | .inr _ => none) with
        | some st => s.opFail t st
        | none => s.opDone t (rs.filterMap (fun r => match r with | .inr b => some b | .inl _ => none)))

/-! ### DIGEST (04 R107, R108, R112; 19 R558, R564) -/

/-- The bytes that a batch feeds: its frames, or its fields in order as dense arrays. -/
def State.digestBytes (s : State) (c : OpCtx) (b : Batch) : List Byte × State :=
  let sol := s.solid ((List.range c.inp.length).map (colOf b.rows))
  (b.frames.flatMap (·.bytes) ++ (if b.frames.isEmpty then (List.zipWith denseBytes c.inp sol.1).flatten else []), sol.2)

/-- DIGEST: the batches in hand are fed; they pass unchanged. The result is written when the last morsel's stage has
finished (04 R112; 19 R559, R564). -/
def execOpDigest (t : Nat) (s : State) : Host.Outcome State Fault Refusal :=
  .next (match s.opCtx t 0x10 none with
    | none => s
    | some c =>
      let hmac := c.o.optAt 0 1 == 1
      let derive := c.o.optAt 1 1 == 1
      let slot := c.o.optAt 8 6
      if (hmac && !s.hmacKeyOk c.f slot) || (derive && !s.deriveOk c.f slot) then s.opFail t 0x0503
      else if !derive && !s.rangeOk c.f (getLE c.blk 0 8) 32 2 then s.opFail t 0x0105
      else
        let r := c.run.batches.foldl (fun (a : List Byte × State) b => let x := a.2.digestBytes c b; (a.1 ++ x.1, x.2)) ([], s)
        (r.2.updQuery c.f c.q (fun x => { x with digests := x.digests.set c.i ((x.digests.getD c.i (s.dgsStart (c.o.optAt 0 1) slot)).feed r.1).1 })).opDone t c.run.batches)

/-! ### LOOKUP_BRAMBLE (04 R107; 13 R383) -/

/-- One batch through LOOKUP_BRAMBLE. -/
def State.lookupBatch (s : State) (c : OpCtx) (b : Batch) : Batch :=
  let k := c.o.optAt 8 4
  let d := c.inp.getD k noField
  let key (r : Row) : Option (BitVec 128) := (r.vals.getD k none).map (fun v => brmKeyOf d.xform d.width v.toNat)
  let first (r : Row) : Option Nat := (key r).bind (fun x => s.brmFirst c.o.obj c.f x)
  match c.o.optAt 0 2 with
  | 0 => { b with rows := b.rows.filter (fun r => (first r).isSome) }
  | 1 => { b with rows := b.rows.filter (fun r => (first r).isNone) }
  | 2 => { b with rows := b.rows.map (fun r => { r with vals := r.vals ++ [some (BitVec.ofNat 64 ((first r).getD 0xFFFFFFFF))] }) }
  | _ => { b with rows := b.rows.map (fun r => { r with vals := r.vals ++ [some (match key r with
      | some x => s.brmVector c.o.obj c.f (c.o.optAt 16 7) x
      | none => 0)] }) }

/-- LOOKUP_BRAMBLE: each row's key is searched in an array (04 R107; 13 R383). -/
def execLookupBramble (t : Nat) (s : State) : Host.Outcome State Fault Refusal :=
  .next (match s.opCtx t 0x11 none with
    | none => s
    | some c => (s.brmCount c.o.obj (c.run.batches.map (fun b => b.rows.length)).sum).opDone t (c.run.batches.map (s.lookupBatch c)))

end Sys2Proof.Machine
end

