-- ==== Sys2Proof/Machine/Power.lean ====
section
/-! DEFINITION. Supply, orderly shutdown, power cap, temperature, sag response, the reference, power states, and the rack management
target (22 R642 to R655, R658; 23 R686, R689; 24 R702, R706, R707). -/

namespace Sys2Proof.Machine

/-- Changes the power state. -/
def State.updPw (s : State) (g : Power → Power) : State := { s with pw := g s.pw }

/-! ### Supply and orderly shutdown (22 R642, R655; 24 R706, R707) -/

/-- The highest tile sensor as a byte in two's complement. -/
def State.tmaxByte (s : State) : Nat := wrapInt 8 s.tmax

/-- Orderly shutdown: the shutdown record goes to the flash spill, the units stop, device memory, Orchard and all state are lost
(22 R655). `cause` is the code of PWR_RST.CAUSE. -/
def State.shutdown (s : State) (cause : Nat) : State :=
  let s1 := s.log 0x62 4 0x7F 7 0 0 0 (cause + 2 ^ 32 * s.pw.vin.toNat + 2 ^ 64 * wrapInt 32 s.tmax)
  { s1.afterReset with
    host := { bar2 := s1.host.bar2Next, bar2Next := s1.host.bar2Next }, errlog := { spill := s1.errlog.spill },
    pw := { supply := .down, pwrgd := s1.pw.pwrgd, shut := cause, holdover := s1.pw.holdover, vin := s1.pw.vin, pin := s1.pw.pin,
            straps := s1.pw.straps, i3c := s1.pw.i3c },
    rel := { drift := s1.rel.drift, planned := s1.rel.planned, eye := s1.rel.eye, eyeGoal := s1.rel.eyeGoal },
    krl := { ports := s1.krl.ports.map (fun p => (p.1, { cable := p.2.cable })) } }

/-- A cause of shutdown arises while the device runs. -/
def State.shutdownIfUp (s : State) (on : Bool) (cause : Nat) : State := if on && s.pw.supply == .up then s.shutdown cause else s

/-- POWER_GOOD: PWRGD rises with V_in in range, and the regulators start to ramp (22 R658; 24 R706, R707). -/
def execPowerGood (vin : Nat) (s : State) : Host.Outcome State Fault Refusal :=
  .next (
    if s.pw.pwrgd ∨ vin < 4500 ∨ 18500 < vin then s
    else s.updPw (fun p => { p with pwrgd := true, vin := BitVec.ofNat 16 vin, supply := if p.supply = .off then .ramping else p.supply }))

/-- RAIL_RAMP_TIMEOUT: a rail has not come within 3 % of its setpoint: the ramp stops, to be tried once more (24 R707). -/
def execRailRampTimeout (_r : Nat) (s : State) : Host.Outcome State Fault Refusal :=
  .next (s.updPw (fun p => { p with supply := match p.supply with
    | .ramping => .failed
    | .retrying => .off
    | x => x }))

/-- RAMP_RETRY: 100 ms after a failed ramp (24 R707). -/
def execRampRetry (s : State) : Host.Outcome State Fault Refusal :=
  .next (s.updPw (fun p => { p with supply := if p.supply = .failed then .retrying else p.supply }))

/-- OVER_VOLTAGE: V_in above 18.5 V for 1 µs (22 R642). -/
def execOverVoltage (vin : Nat) (s : State) : Host.Outcome State Fault Refusal :=
  .next (if 18500 < vin then (s.updPw (fun p => { p with vin := BitVec.ofNat 16 vin })).shutdownIfUp true 5 else s)

/-- UNDER_VOLTAGE: V_in below 4.5 V for 1 µs (22 R642). -/
def execUnderVoltage (vin : Nat) (s : State) : Host.Outcome State Fault Refusal :=
  .next (if vin < 4500 then (s.updPw (fun p => { p with vin := BitVec.ofNat 16 vin })).shutdownIfUp true 5 else s)

/-- PWRGD_LOW: PWRGD falls, or a blade is missing (22 R655; 24 R697, R706). -/
def execPwrgdLow (s : State) : Host.Outcome State Fault Refusal :=
  .next (
    let s1 := s.updPw (fun p => { p with pwrgd := false })
    match s.pw.supply with
    | .up => s1.shutdown 8
    | .down => s1
    | _ => s1.updPw (fun p => { p with supply := .off }))

/-- THERMAL_TRIP: the comparator of a tile sensor at 105 °C (22 R647). -/
def execThermalTrip (t : Nat) (temp : Int) (s : State) : Host.Outcome State Fault Refusal :=
  .next (if 105 ≤ temp ∧ t < s.part.tiles then ({ s with tileTemp := s.tileTemp.set t temp }).shutdownIfUp true 6 else s)

/-- SHUTDOWN_RESTART: every cause has cleared, and the module cold reset runs: V_in within 4.75 V to 18.0 V, PWRGD high, the
reference there, and after a thermal trip every sensor below 95 °C (22 R642, R655). -/
def execShutdownRestart (vin : Nat) (tmax : Int) (mods : List Nat) (straps : BitVec 5) (img : BitVec 2) (s : State) : Host.Outcome State Fault Refusal :=
  .next (
    if s.pw.supply = .down ∧ s.pw.pwrgd ∧ !s.pw.holdover ∧ 4750 ≤ vin ∧ vin ≤ 18000 ∧ (s.pw.shut ≠ 6 ∨ tmax < 95) then
      (s.updPw (fun p => { p with vin := BitVec.ofNat 16 vin })).coldStart s.pw.shut mods straps img
    else s)

/-! ### Power cap (22 R643, R646) -/

/-- P_env in mW for a V_in in mV: less 2.5 W for each phase shed (22 R643; 23 R677). -/
def State.penv (s : State) (vin : Nat) : Nat :=
  min (field s.pw.cap 0 11 * 100) (14 * vin) - 2500 * s.rel.phases.foldl (fun a p => a + p.2) 0

/-- The thermal value of a tile (22 R647). -/
def State.dthOf (s : State) (t : Nat) : Nat := s.pw.dth.getD t 16

/-- The duty value d of a tile (22 R645 to R647). -/
def State.duty (s : State) (t : Nat) : Nat := min s.pw.dcap (s.dthOf t)

/-- The lowest d among the enabled tiles (22 R660). -/
def State.dutyMin (s : State) : Nat := ((List.range s.part.tiles).filter s.tileOn).foldl (fun a t => min a (s.duty t)) 16

/-- POWER_SAMPLE: once every 100 ticks, the 1 µs averages of input power in 0.1 W and of V_in in mV (22 R646, R664, R665). -/
def execPowerSample (pin vin : BitVec 16) (s : State) : Host.Outcome State Fault Refusal :=
  .next (
    if s.pw.supply ≠ .up then s
    else
      let env := s.penv vin.toNat
      let p := pin.toNat * 100
      let low := s.pw.under + 1
      s.updPw (fun w => { w with
        pin, vin, throt := if s.dutyMin < 16 then w.throt + 1 else w.throt,
        dcap := if env < p then max 4 (w.dcap - 1) else if p * 100 < 95 * env ∧ low = 10 then min 16 (w.dcap + 1) else w.dcap,
        under := if p * 100 < 95 * env ∧ low < 10 then low else 0 }))

/-! ### Temperature (22 R647; 23 R689) -/

/-- The mesh neighbours of a tile. -/
def State.neighbours (s : State) (t : Nat) : List Nat :=
  let w := s.part.cols
  (if w ≤ t then [t - w] else []) ++ (if 0 < t % w then [t - 1] else []) ++ (if t % w + 1 < w then [t + 1] else [])
    ++ (if t + w < s.part.tiles then [t + w] else [])

/-- Twice the median of a list of readings; the mean of the middle two of an even number. -/
def median2 (l : List Int) : Int :=
  let m := sortBy (fun (a b : Int) => decide (a ≤ b)) l
  m.getD ((m.length - 1) / 2) 0 + m.getD (m.length / 2) 0

/-- The reading of a tile sensor. -/
def State.tempOf (s : State) (t : Nat) : Int := s.tileTemp.getD t 40

/-- A tile sensor differs by more than 10 °C from the median of its mesh neighbours (23 R689). -/
def State.farOff (s : State) (t : Nat) : Bool :=
  decide (20 < (2 * s.tempOf t - median2 ((s.neighbours t).map s.tempOf)).natAbs)

/-- One evaluation of a sensor: out of range, or far from its neighbours three times in a row, it is flagged and logged (23 R689). -/
def State.judgeSensor (s : State) (t : Nat) : State :=
  let n := if s.farOff t then s.rel.odd.getD t 0 + 1 else 0
  let s1 : State := { s with rel := { s.rel with odd := s.rel.odd.set t n } }
  if !s.unreliable.contains t && (decide (s.tempOf t < -20 ∨ 125 < s.tempOf t) || decide (3 ≤ n)) then
    ({ s1 with unreliable := t :: s1.unreliable }).log 0x72 0 0x7F 0 t 0 0 (t + 2 ^ 32 * wrapInt 32 (s.tempOf t))
  else s1

/-- The reading that counts for a tile: the highest of its neighbours where its sensor is unreliable (22 R647). -/
def State.tempUsed (s : State) (t : Nat) : Int :=
  if s.unreliable.contains t then ((s.neighbours t).map s.tempOf).foldl max (-128) else s.tempOf t

/-- The rows of 22 R647 that lower d_th: threshold. -/
def thermRows : List Int := [95, 98, 101]

/-- The number of rows in force for a reading, given how many were: one is entered at its threshold and left 2 °C below it
(22 R647). -/
def thermRow (k : Nat) (temp : Int) : Nat :=
  max ((thermRows.filter (fun x => decide (x ≤ temp))).length) (min k ((thermRows.filter (fun x => decide (x - 2 < temp))).length))

/-- THERMAL_EVAL: every 1,000 ticks, the sensors of tiles 0, 1, … set d_th of each tile and THERM_ALERT_N (22 R647; 23 R689). -/
def execThermalEval (temps : List Int) (s : State) : Host.Outcome State Fault Refusal :=
  .next (
    if s.pw.supply ≠ .up then s
    else
      let all := List.range s.part.tiles
      let s1 : State := { s with tileTemp := all.map (fun t => (t, temps.getD t (s.tempOf t))) }
      let s2 := all.foldl (fun (s : State) t => s.judgeSensor t) s1
      let top := (all.map s2.tempUsed).foldl max (-128)
      s2.updPw (fun p => { p with
        dth := all.map (fun t => (t, 16 - 4 * thermRow ((16 - s.dthOf t) / 4) (s2.tempUsed t))),
        alert := if 100 ≤ top then true else if top < 98 then false else p.alert }))

/-! ### Sag response (22 R648 to R651; 23 R686) -/

/-- SAG_FIRE: the input detector or a core-rail detector fires (22 R648, R649). -/
def execSagFire (core : Bool) (s : State) : Host.Outcome State Fault Refusal :=
  .next (
    if s.pw.supply ≠ .up then s
    else s.updPw (fun p => { p with
      level := min 2 (p.level + 1), sagIn := if core then p.sagIn else p.sagIn + 1, sagCore := if core then p.sagCore + 1 else p.sagCore }))

/-- SAG_RECOVERY: 1,000 ticks without a firing (22 R650; 23 R686). -/
def execSagRecovery (s : State) : Host.Outcome State Fault Refusal :=
  .next (if s.pw.supply ≠ .up then s else s.updPw (fun p => { p with level := max p.lmin (p.level - 1) }))

/-! ### The reference (22 R652) -/

/-- REF_LOSS: the selected reference is lost (22 R652). -/
def execRefLoss (s : State) : Host.Outcome State Fault Refusal :=
  .next (if s.pw.supply = .up ∧ !s.pw.holdover then (s.updPw (fun p => { p with holdover := true })).log 0x39 0 0x7F 7 0 0 0 0 else s)

/-- REF_RETURN: the reference is back (22 R652). -/
def execRefReturn (s : State) : Host.Outcome State Fault Refusal := .next (s.updPw (fun p => { p with holdover := false }))

/-- REF_TIMEOUT: the reference has been absent for 1 ms (22 R652, R655). -/
def execRefTimeout (s : State) : Host.Outcome State Fault Refusal := .next (s.shutdownIfUp s.pw.holdover 7)

/-! ### Power states (22 R653, R654) -/

/-- The conditions of A1. -/
def State.quietA1 (s : State) : Bool :=
  s.tiles.all (fun p => p.2.task.isNone)
    && s.tenants.all (fun p => p.2.disp.onchip.all (fun l => l.2.isEmpty) && p.2.disp.spill.all (fun l => l.2.isEmpty)
      && p.2.disp.tasks.all (fun k => k.2.slot.isNone))

/-- The conditions of A2. -/
def State.quietA2 (s : State) : Bool := s.quietA1 && s.tenants.all (fun p => p.2.queries.isEmpty) && s.cad.acts.isEmpty

/-- No engine has a job. -/
def State.enginesIdle (s : State) : Bool :=
  s.cmp.all (fun p => p.2.run.isNone && p.2.queue.isEmpty) && s.dma.all (fun p => p.2.cur.isNone && p.2.sh.isNone)
    && s.dgs.all (fun p => p.2.msgs.isEmpty) && s.brm.all (fun p => p.2.run.isNone && p.2.queue.isEmpty && p.2.upd.isEmpty && p.2.cur.isNone)

/-- The conditions of A3. -/
def State.quietA3 (s : State) : Bool :=
  s.quietA2 && s.enginesIdle && s.krl.xchgs.isEmpty && s.eunto.isNone && s.mboxes.all (fun p => !p.2.busy)
    && s.tenants.all (fun p => p.2.pairs.all (fun q => q.2.c == q.2.p))

/-- A1_ENTRY: the Quill and Stroke clocks of every tile are gated (22 R653). -/
def execA1Entry (s : State) : Host.Outcome State Fault Refusal :=
  .next (if s.pw.supply = .up ∧ s.pw.pstate = 0 ∧ s.pw.ctl.getLsbD 0 ∧ s.quietA1 then s.updPw (fun p => { p with pstate := 1 }) else s)

/-- A2_ENTRY: every tile is cleaned, unbound and power-gated (22 R653; 08 R235). -/
def execA2Entry (s : State) : Host.Outcome State Fault Refusal :=
  .next (
    if s.pw.supply = .up ∧ s.pw.pstate = 1 ∧ s.pw.ctl.getLsbD 1 ∧ s.quietA2 then
      let on := (List.range s.part.tiles).filter s.tileOn
      let s1 := on.foldl (fun (s : State) t => s.flushL1D t) s
      (on.foldl (fun (s : State) t => s.updTile t (fun _ => {})) s1).updPw (fun p => { p with pstate := 2 })
    else s)

/-- A3_ENTRY: channels enter self-refresh once nothing is in their queues; ports keep lane 0 (22 R653, R654; 11 R329). -/
def execA3Entry (s : State) : Host.Outcome State Fault Refusal :=
  .next (
    if s.pw.supply = .up ∧ s.pw.pstate = 2 ∧ s.pw.ctl.getLsbD 2 ∧ s.quietA3 ∧ s.mem.reqs.isEmpty then
      let up (p : Nat × KPort) : Bool := p.2.state == 4
      let s1 : State := { s with
        mem := { s.mem with chans := s.mem.chans.map (fun p => (p.1, p.2.sleep)) },
        krl := { s.krl with ports := s.krl.ports.map (fun p => (p.1, if up p then { p.2 with lanes := 1 } else p.2)) } }
      s1.updPw (fun p => { p with pstate := 3, lanes := (s.krl.ports.filter up).map (fun k => (k.1, k.2.lanes)) })
    else s)

/-- The device returns to A0: channels leave self-refresh and ports take their lanes back from A3, tiles power up through a tile
reset from A2 and A3 (22 R654). -/
def State.toA0 (s : State) : State :=
  let s1 : State := if s.pw.pstate = 3 then
    { s with
      mem := { s.mem with chans := s.mem.chans.map (fun p => (p.1, { p.2 with selfRef := p.2.ctl.getLsbD 1 })) },
      krl := { s.krl with ports := s.krl.ports.map (fun p => (p.1, match s.pw.lanes.find? p.1 with
        | some l => if p.2.state = 4 then { p.2 with lanes := l } else p.2
        | none => p.2)) } }
    else s
  (if 2 ≤ s.pw.pstate then s1.startTiles else s1).updPw (fun p => { p with pstate := 0, lanes := [] })

/-- POWER_STATE_EXIT: a condition of the state fails; in A3 also a doorbell, a CXL.mem request or a flit, which `wake` stands for
(22 R654). -/
def execPowerStateExit (wake : Bool) (s : State) : Host.Outcome State Fault Refusal :=
  .next (
    let stays := match s.pw.pstate with
      | 0 => true
      | 1 => s.quietA1
      | 2 => s.quietA2
      | _ => s.quietA3 && !wake
    if stays then s else s.toA0)

/-! ### Rack management (24 R702) -/

/-- The 16 B block of the rack management target (24 R702). -/
def State.i3cBlock (s : State) : List Byte :=
  let hot := decide (95 ≤ s.tmax)
  let fatal := s.errlog.recs.any (fun r => r.cls == 4)
  let b := leBytes 2 (s.pw.vin.toNat / 10) ++ leBytes 2 s.pw.pin.toNat ++ leBytes 1 s.tmaxByte ++ leBytes 1 s.dstate.code ++ leBytes 1 s.nv.lifecycle
    ++ leBytes 1 ((if hot then 1 else 0) + (if s.pw.dcap < 16 then 2 else 0) + (if s.pw.holdover then 4 else 0) + (if fatal then 8 else 0))
    ++ leBytes 4 s.errlog.nextSeq ++ leBytes 2 s.pw.cause.toNat
  b ++ leBytes 2 (crc16 b)

/-- I3C_READ: a private read at offset 0; NACK before step 5 of start-up (24 R702). -/
def execI3cRead (s : State) : Host.Outcome State Fault Refusal :=
  .next (s.updPw (fun p => { p with i3c := (if s.pw.supply = .up then some s.i3cBlock else none) :: p.i3c }))

end Sys2Proof.Machine
end

