-- ==== Sys2Proof/Machine/Relia.lean ====
section
/-! DEFINITION. Faults of units: fenced tiles, Orchard slices, modules, regulator phases, Eunto; ageing and margins; the hub sensors;
MARGIN_REPORT (20 R583; 23 R671 to R692). -/

namespace Sys2Proof.Machine

/-- Changes the reliability state. -/
def State.updRel (s : State) (g : Relia → Relia) : State := { s with rel := g s.rel }

/-! ### Tiles (20 R583; 23 R673) -/

/-- Guarantees fall one tile at a time, from the highest-numbered function that holds one, while their sum is above the enabled
count (20 R583). -/
def State.lowerGuar (s : State) : Nat → State
  | 0 => s
  | n + 1 =>
    let sum := s.tenants.foldl (fun a p => a + p.2.ent.tileGuar) 0
    if sum ≤ countOn 96 s.tileOn then s
    else match (List.range 64).reverse.find? (fun f => decide (0 < (s.tenant f).ent.tileGuar)) with
      | none => s
      | some f => (s.updTenant f (fun x => { x with ent := { x.ent with tileGuar := x.ent.tileGuar - 1 } })).lowerGuar n

/-- A tile is disabled: the log says why, guarantees fall, the capability page changes (20 R583; 23 R673). -/
def State.disableTile (s : State) (t cause : Nat) : State :=
  if !s.tileOn t then s
  else
    let s1 := (s.loseTask t).updTile t (fun _ => {})
    let s2 : State := { s1 with tilesOff := t :: s1.tilesOff }
    ((s2.log 0x03 3 0x7F 0 t 0 0 cause).lowerGuar 96).pageChanged

/-- TILE_RETURN: a fenced tile has been reset and its self-test has passed or not. It rejoins, or is disabled after three fences
within 24 powered hours or a failed test (23 R673). -/
def execTileReturn (t : Nat) (pass : Bool) (s : State) : Host.Outcome State Fault Refusal :=
  .next (
    if !s.rel.fenced.contains t then s
    else
      let near := (s.rel.fences.getD t []).filter (fun k => decide (s.ticks < k + 24 * 3600 * 100000000))
      let s1 := (s.resetTile t).updTile t (fun x => { core := { pc := s.entryPc, released := x.core.released } })
      let s2 := s1.updRel (fun r => { r with fenced := r.fenced.erase t, fences := r.fences.set t near })
      if !pass then s2.disableTile t 2
      else if 3 ≤ near.length then s2.disableTile t 1
      else { s2 with slices := s2.slices.map (fun p => (p.1, { p.2 with fenced := p.2.fenced &&& ~~~((1 : BitVec 128) <<< t) })) })

/-- A tile that still runs leaves service in good order: its query fails, its dirty lines are written back (20 R583; log 45). -/
def State.retireTile (s : State) (t cause : Nat) : State :=
  if !s.tileOn t then s else ((s.failTask t 0x0306).flushL1D t).disableTile t cause

/-! ### Orchard slices (10 R277, R278; 23 R671, R674, R675) -/

/-- A slice is condemned: its removal is due, or waits for the one under way; a second fault of the home logic of a slice that is
being removed is fatal (23 R671, R674). -/
def State.condemn (s : State) (h cause : Nat) : State :=
  let known := s.rel.condemned.any (fun p => p.1 == h)
  match s.rel.removing with
  | some (k, _) =>
    if k = h then (if cause = 1 then ({ s with dstate := .fault }).log 0x12 4 0x7F 1 h 0 0 cause else s)
    else if known then s
    else (s.updRel (fun r => { r with condemned := r.condemned ++ [(h, cause)] })).log 0x12 3 0x7F 1 h 0 0 cause
  | none => (s.updRel (fun r => { r with removing := some (h, cause) })).log 0x12 3 0x7F 1 h 0 0 cause

/-- The ticks of a list that lie within the last second, with now. -/
def State.lastSecond (s : State) (l : List Nat) : List Nat := s.ticks :: l.filter (fun k => decide (s.ticks < k + 100000000))

/-- SLICE_FAULT: the slice's two copies diverge (1), or an uncorrectable error is found in a data line (2) or in a line's directory
entry (3); the fourth data error and the second directory error within a second condemn the slice (10 R277, R278; 23 R674). -/
def execSliceFault (h cause line : Nat) (s : State) : Host.Outcome State Fault Refusal :=
  .next (
    if !s.sliceOn h then s
    else if cause = 1 then s.condemn h 1
    else if cause = 2 then
      match (s.slice h).dataWay line with
      | none => s
      | some k =>
        let o := (s.slice h).dataLine line
        let l := s.lastSecond (s.rel.dataUe.getD h [])
        let s1 := (s.updSlice h (fun sl => { sl with data := sl.data.map (fun e => if e.1 = k then (e.1, { e.2 with blot := true }) else e) })).updRel
          (fun r => { r with dataUe := r.dataUe.set h l })
        let s2 := s1.log 0x11 2 ((o.map (·.owner)).getD 0x7F) 1 h 0 (64 * lineA line) (k / 16 + 2 ^ 32 * (k % 16))
        if 4 ≤ l.length then s2.condemn h 2 else s2
    else if cause = 3 then
      match (s.slice h).dirWay line with
      | none => s
      | some k => match (s.slice h).dir.find? k with
        | none => s
        | some e =>
          if e.busy then s
          else
            let l := s.lastSecond (s.rel.dirUe.getD h [])
            let s1 : State := { s with tiles := s.tiles.map (fun p => (p.1, { p.2 with l1 := p.2.l1.invalidate line })) }
            let s2 := (((s1.freeDir h k).markBlot line e.owner).updRel (fun r => { r with dirUe := r.dirUe.set h l })).log 0x10 2 e.owner 1 h 0
              (64 * lineA line) (k / 16 + 2 ^ 32 * (k % 16))
            if 2 ≤ l.length then s2.condemn h 3 else s2
    else s)

/-- SLICE_REMOVAL: Eunto starts the drain of the condemned slice: homes start no new request (23 R675 steps 1, 2). -/
def execSliceRemoval (h : Nat) (s : State) : Host.Outcome State Fault Refusal :=
  .next (match s.rel.removing with
    | some (k, _) => if k = h then s.updRel (fun r => { r with draining := true }) else s
    | none => s)

/-- Requests that wait at homes, and requests and victims on the mesh, go to the homes of the new map (23 R672, R675). -/
def State.rehome (s : State) : State :=
  let move (m : Msg) : Msg := { m with dst := 128 + s.homeOf m.line }
  let held := s.slices.flatMap (fun p => p.2.queue)
  let s1 : State := { s with
    slices := s.slices.map (fun p => (p.1, { p.2 with queue := [] })),
    net := s.net.map (fun m => if m.kind.cls = 0 then move m else m) }
  held.foldl (fun (s : State) m => s.updSlice (s.homeOf m.line) (fun sl => { sl with queue := sl.queue ++ [move m] })) s1

/-- SLICE_FLUSH: once every BUSY entry has closed, tiles flush their L1 caches, every slice writes back and invalidates, the home
maps are rewritten without the slice, and homes resume (23 R675 steps 3 to 6). -/
def execSliceFlush (s : State) : Host.Outcome State Fault Refusal :=
  .next (match s.rel.removing with
    | none => s
    | some (h, _) =>
      if !s.rel.draining || s.slices.any (fun p => !p.2.txns.isEmpty) then s
      else
        let s1 := s.writeBack.emptyCaches
        let s2 : State := { s1 with
          tiles := s1.tiles.map (fun p => (p.1, { p.2 with core := { p.2.core with qipend := p.2.core.qipend ||| 8 } })),
          net := s1.net.filter (fun m => m.kind.cls != 3), slices := s1.slices.map (fun p => (p.1, { p.2 with sink := [] })),
          slicesOff := h :: s1.slicesOff, homeMap := [] }
        let s3 := s2.rehome.updRel (fun r => { r with removing := r.condemned.head?, condemned := r.condemned.drop 1, draining := false })
        s3.pageChanged)

/-! ### Modules, phases, Eunto (23 R676 to R678, R689) -/

/-- MODULE_LOSS: the presence signal of a module in service drops (23 R676; 24 R699). -/
def execModuleLoss (m : Nat) (s : State) : Host.Outcome State Fault Refusal := .next (if s.pw.supply = .up then s.failModule m (8 * m) 3 else s)

/-- PHASE_SHED: a phase of a row core rail is shed; a rail's second loss disables the tiles of its row (23 R677). -/
def execPhaseShed (r phase : Nat) (s : State) : Host.Outcome State Fault Refusal :=
  .next (
    let n := s.rel.phases.getD r 0
    if s.pw.supply ≠ .up ∨ 8 ≤ r ∨ 6 ≤ n then s
    else
      let s1 := (s.updRel (fun x => { x with phases := x.phases.set r (n + 1) })).log 0x60 3 0x7F 8 r 0 0 (r + 2 ^ 32 * phase)
      if n = 0 then s1
      else ((List.range s1.part.tiles).filter (fun t => s1.rowOf t == r)).foldl (fun (s : State) t => s.retireTile t 3) s1)

/-- WATCHDOG_EXPIRY: the Eunto domain alone restarts from the booted slot, which reads back as `img` says. A command it had taken
and not committed is answered ABORTED; the second expiry within a powered hour, or a slot that no longer verifies, means FAULT
(23 R672, R678; log 46). -/
def execWatchdogExpiry (img : BitVec 2) (s : State) : Host.Outcome State Fault Refusal :=
  .next (
    if s.pw.supply ≠ .up ∨ s.dstate = .init then s
    else
      let again := match s.rel.watchdog with | some k => decide (s.ticks < k + 3600 * 100000000) | none => false
      let ok := if s.upd.keel then img.getLsbD 1 else img.getLsbD 0
      let s1 := (s.updRel (fun r => { r with watchdog := some s.ticks })).log 0x61 (if again then 4 else 0) 0x7F 7 0 0 0 0
      let s2 := match s1.eunto with
        | some f => if s1.euntoArg.isNone then s1.mbReply s1 f 0x0302 0 [] else s1
        | none => s1
      if again || !ok then { s2 with dstate := .fault } else s2)

/-- HUB_SENSOR_READ: a module's hub sensor is read; three failed or impossible reads in a row set the highest refresh rate (23
R689). -/
def execHubSensorRead (m : Nat) (temp : Option Int) (s : State) : Host.Outcome State Fault Refusal :=
  .next (
    let k := s.module m
    if s.pw.supply ≠ .up ∨ !k.usable then s
    else
      let put (s : State) (g : Module → Module) : State := { s with mem := { s.mem with modules := s.mem.modules.upd m {} g } }
      match temp with
      | some v =>
        if -20 ≤ v ∧ v ≤ 110 then put s (fun k => { k with hubTemp := v, badReads := 0 })
        else if k.badReads = 2 then (put s (fun k => { k with badReads := 3, fastRef := true })).log 0x72 3 0x7F 3 m 0 0 (m + 2 ^ 32 * wrapInt 32 v)
        else put s (fun k => { k with badReads := k.badReads + 1 })
      | none =>
        if k.badReads = 2 then (put s (fun k => { k with badReads := 3, fastRef := true })).log 0x72 3 0x7F 3 m 0 0 m
        else put s (fun k => { k with badReads := k.badReads + 1 }))

/-! ### Ageing and margins (23 R683 to R687, R692) -/

/-- AGEING_MEASURE: a powered hour has passed; the largest drift of each tile in ppm (23 R683). -/
def execAgeingMeasure (drift : List Nat) (s : State) : Host.Outcome State Fault Refusal :=
  .next (
    if s.pw.supply ≠ .up then s
    else
      let s1 : State := { s with nv := { s.nv with hours := s.nv.hours + 1 } }
      s1.updRel (fun r => { r with drift := (List.range s.part.tiles).map (fun t => (t, drift.getD t (r.drift.getD t 0))) }))

/-- The smallest margin at L_min among the enabled tiles that a test selects, in microvolts. -/
def State.minMargin (s : State) (sel : Nat → Bool) : Int :=
  match ((List.range s.part.tiles).filter (fun t => s.tileOn t && sel t)).map (fun t => s.margin t s.pw.lmin) with
  | [] => 0
  | x :: l => l.foldl min x

/-- A margin in whole mV, rounded down (log 47). -/
def mv (u : Int) : Int := u / 1000

/-- New margin targets for the eye of each channel: the spec gives no number (log 1). -/
def State.newEyeGoals (s : State) : State :=
  (List.range s.part.chans).foldl (fun (s : State) c =>
    let r := s.free
    r.2.updRel (fun x => { x with eyeGoal := x.eyeGoal.set c (r.1.toNat % 65536) })) s

/-- A re-plan of the margin ledger for a cause: 1 interval, 2 drift, 3 manager (23 R685). -/
def State.replan (s : State) (cause : Nat) : State :=
  let l := s.minLevel 2
  let s1 := (s.updPw (fun p => { p with lmin := l, level := max p.level l })).updRel
    (fun r => { r with planned := r.drift, planHours := s.nv.hours, planCause := cause })
  let bad := (List.range s1.part.tiles).filter (fun t => s1.tileOn t && decide (s1.margin t s1.pw.lmin < 0))
  let s2 := bad.foldl (fun (s : State) t => s.retireTile t 4) s1
  let s3 := s2.updRel (fun r => { r with rails := (List.range 8).map (fun k => (k, s2.railGoal k)) })
  let d := cause + 2 ^ 32 * wrapInt 32 (mv (s3.minMargin (fun _ => true)))
  let s4 := s3.newEyeGoals.log 0x70 0 0x7F 7 0 0 0 d
  if s.pw.lmin < l then s4.log 0x71 3 0x7F 7 0 0 0 d else s4

/-- A tile's largest drift has moved by 2,000 ppm since the last plan (23 R685). -/
def State.driftMoved (s : State) : Bool :=
  (List.range s.part.tiles).any (fun t => decide (2000 ≤ ((s.rel.drift.getD t 0 : Int) - s.rel.planned.getD t 0).natAbs))

/-- MARGIN_REPLAN: a re-plan that 720 powered hours or a drift makes due (23 R685). -/
def execMarginReplan (s : State) : Host.Outcome State Fault Refusal :=
  .next (
    if s.pw.supply ≠ .up then s
    else if s.rel.planHours + 720 ≤ s.nv.hours then s.replan 1
    else if s.driftMoved then s.replan 2
    else s)

/-- PWR_MARGIN_REPLAN: a write of PWR_MARGIN.REPLAN (23 R685, R687). -/
def execPwrMarginReplan (s : State) : Host.Outcome State Fault Refusal := .next (if s.pw.supply = .up then s.replan 3 else s)

/-- The record of MARGIN_REPORT (23 R692). -/
def State.marginBytes (s : State) : List Byte :=
  leBytes 4 s.nv.hours ++ leBytes 4 s.rel.planHours ++ leBytes 1 s.pw.lmin ++ leBytes 1 s.rel.planCause
    ++ leBytes 2 (wrapInt 16 (mv (s.minMargin (fun _ => true)))) ++ zeros 4
    ++ (List.range 8).flatMap (fun r => leBytes 2 (s.rel.rails.getD r 0) ++ leBytes 2 (wrapInt 16 (mv (s.minMargin (fun t => s.rowOf t == r)))))
    ++ (List.range 32).flatMap (fun c => leBytes 2 (s.rel.eye.getD c 0) ++ leBytes 2 (s.rel.eyeGoal.getD c 0))
    ++ (List.range 96).flatMap (fun t =>
      if s.tileOn t then leBytes 4 (s.rel.drift.getD t 0) ++ leBytes 2 ((s.vreq t s.pw.lmin + 999) / 1000) ++ leBytes 2 (wrapInt 16 (mv (s.margin t s.pw.lmin)))
      else zeros 8)

/-- MARGIN_REPORT (18 R540; 23 R692). -/
def execMarginReport (f : Nat) (s : State) : Host.Outcome State Fault Refusal :=
  .next (s.mbRun f 0x61 (fun s => s.mbReply s f 0 0 s.marginBytes))

end Sys2Proof.Machine
end

