-- ==== Sys2Proof/Machine/Update.lean ====
section
/-! DEFINITION. Firmware update: the header, the staging area, the commit, the update reboot, confirmation and fallback (21 R627 to
R638; 18 R525, R527, R540). -/

namespace Sys2Proof.Machine

/-- The key bytes of a slot. -/
def State.slotBytes (s : State) (k : Nat) : List Byte := (s.keySlot k).data

/-- An ECDSA signature over bytes verifies under the P-256 key of a slot: r and s as they stand, big-endian (21 R623, R630). -/
def State.slotVerify (s : State) (k : Nat) (msg r q : List Byte) : Bool :=
  p256Verify (beInt (cut (s.slotBytes k) 0 32)) (beInt (cut (s.slotBytes k) 32 32)) (sha256 msg) (beInt r) (beInt q)

/-! ### FW_UPDATE_BEGIN, FW_UPDATE_CHUNK (21 R630 to R632) -/

/-- BODY_LEN and the fields of component i of a header. -/
def fwBodyLen (h : List Byte) : Nat := getLE h 0x14 4
def fwHas (h : List Byte) (i : Nat) : Bool := getLE h 6 1 / 2 ^ i % 2 == 1
def fwOff (h : List Byte) (i : Nat) : Nat := getLE h (0x40 + 16 * i) 4
def fwLen (h : List Byte) (i : Nat) : Nat := getLE h (0x44 + 16 * i) 4
def fwLo (h : List Byte) (i : Nat) : Nat := getLE h (0x48 + 16 * i) 4
def fwHi (h : List Byte) (i : Nat) : Nat := getLE h (0x4C + 16 * i) 4

/-- Check 2 of 21 R631: magic, version, reserved fields, body length, component table (21 R630). -/
def fwHeaderOk (h : List Byte) : Bool :=
  getLE h 0 4 == 0x31574641 && getLE h 4 2 == 1 && decide (getLE h 6 1 < 64) && getLE h 7 1 == 0 && decide (getLE h 8 4 < 8)
    && decide (getLE h 0x10 4 < 256 ∧ 16 ≤ fwBodyLen h ∧ fwBodyLen h ≤ 33554176) && fwBodyLen h % 16 == 0 && getLE h 0xAE 2 == 0
    && (List.range 6).all (fun i =>
      if fwHas h i then decide (fwOff h i + fwLen h i ≤ fwBodyLen h) && fwLo h i == fwHi h i
      else fwOff h i == 0 && fwLen h i == 0)
    && (List.range 6).all (fun i => (List.range 6).all (fun j =>
      i == j || !fwHas h i || !fwHas h j || decide (fwOff h i + fwLen h i ≤ fwOff h j ∨ fwOff h j + fwLen h j ≤ fwOff h i)))

/-- Check 5: part, security version, installed image version, versions of the absent components (21 R631). -/
def State.fwCompatible (s : State) (h : List Byte) : Bool :=
  let part := match s.part with | .aq680 => 0 | .aq660 => 1 | .aq640 => 2
  let v := s.nv.dir.version
  getLE h 8 4 / 2 ^ part % 2 == 1 && decide (s.nv.svn ≤ getLE h 0x10 4) && decide (getLE h 0x18 4 ≤ v ∧ v ≤ getLE h 0x1C 4)
    && (List.range 6).all (fun i => fwHas h i || (let c := ((s.nv.slot.comps[i]?).map (·.ver)).getD 0; decide (fwLo h i ≤ c ∧ c ≤ fwHi h i)))

/-- FW_UPDATE_BEGIN: the five checks in order, then UPDATE (21 R631). -/
def execFwUpdateBegin (f : Nat) (s : State) : Host.Outcome State Fault Refusal :=
  .next (s.mbRun f 0x50 (fun s =>
    let a := s.mbPay 0 8
    let h := (s.readBytes a 256).1
    if !s.rangeOk f a 256 1 then s.mbReply s f 0x0105 0 []
    else if !fwHeaderOk h then s.mbReply s f 0x0501 0 []
    else if getLE h 0xAC 1 ≠ 1 ∨ getLE h 0xAD 1 ≠ 2 ∨ (s.keySlot 1).kind ≠ 3 ∨ (s.keySlot 2).kind ≠ 1 then s.mbReply s f 0x0503 0 []
    else if !s.slotVerify 2 (h.take 0xC0) (cut h 0xC0 32) (cut h 0xE0 32) then s.mbReply s f 0x0502 0 []
    else if !s.fwCompatible h then s.mbReply s f 0x0504 0 []
    else
      let s1 : State := { s with dstate := .update, upd := { s.upd with hdr := h, body := [], fromRecovery := s.dstate == .recovery } }
      s1.mbReply s f 0 0 []))

/-- FW_UPDATE_CHUNK: the next bytes of the body, or a resent chunk (21 R632). -/
def execFwUpdateChunk (f : Nat) (s : State) : Host.Outcome State Fault Refusal :=
  .next (s.mbRun f 0x51 (fun s =>
    let a := s.mbPay 0 8
    let n := s.mbPay 8 4
    let o := s.mbPay 12 4
    let got := s.upd.body.length
    if !s.rangeOk f a n 1 then s.mbReply s f 0x0105 0 []
    else if fwBodyLen s.upd.hdr < o + n then s.mbReply s f 0x0106 0 []
    else if o = got then
      let s1 : State := { s with upd := { s.upd with body := s.upd.body ++ (s.readBytes a n).1 } }
      s1.mbReply s f 0 0 (leBytes 4 (got + n))
    else if o + n ≤ got then s.mbReply s f 0 0 (leBytes 4 got)
    else s.mbReply s f 0x0101 0 []))

/-! ### Ending what is under way (21 R635 steps 1 to 3) -/

/-- A waiting mailbox command is answered with ABORTED_UPDATE; a HEALTH_CONFIRM is discarded (18 R525; 21 R635, R637). -/
def State.abortMailbox (s : State) (f : Nat) : State :=
  let m := s.mbox f
  if getLE m.req 0 2 = 0x53 then s.updMbox f (fun m => { m with busy := false })
  else
    let s1 : State := { s with eunto := some f, euntoReq := m.req, euntoSeq := m.seq }
    s1.mbReply s1 f 0x0303 0 []

/-- Every waiting mailbox command (21 R635 step 1). -/
def State.abortMailboxes (s : State) : State :=
  ((List.range s.part.funcs).filter (fun f => (s.mbox f).busy)).foldl (fun (s : State) f => s.abortMailbox f) s

/-- A fetched command ends with ABORTED_UPDATE; a query fails and keeps its disposition (21 R635 step 3; 04 R117). -/
def State.abortWork (s : State) (id : Nat) : State :=
  match s.works.find? id with
  | none => s
  | some w =>
    if w.result.isSome then s
    else match s.querySlot w.f id with
      | some q => s.failQuery w.f q 0x0303
      | none => s.workDone id { status := 0x0303, info := if w.isCol then w.rowsDone else 0, partial_ := w.isCol && w.rowsDone != 0 }

/-- Steps 1 to 3: waiting mailbox commands, queue pairs, engine work, fetched commands, exchanges and Cadence entries (21 R635;
12 R347; 13 R382; 14 R419; 15 R455; 19 R555, R568). -/
def State.abortAll (s : State) : State :=
  let s1 := s.abortMailboxes
  let act := s1.tenants.flatMap (fun p => (p.2.pairs.filter (fun q => q.2.state == .active)).map (fun q => (p.1, q.1)))
  let s2 := s1.tenants.foldl (fun (s : State) p => s.haltPairs p.1) s1
  let s3 : State := { s2 with upd := { s2.upd with halted := s2.upd.halted ++ act } }
  let s4 := (((s3.cmpEndAll 0x0303 (fun _ => true)).dmaEndAll 0x0303 (fun _ => true)).dgsEndAll 0x0303 (fun _ _ => true)).brmEndAll 0x0303
  let s5 := s4.works.foldl (fun (s : State) p => s.abortWork p.1) s4
  (s5.closeXchgs (fun _ => true) (some (abortReason 0x0303))).disarmAll (fun _ => true)

/-! ### FW_UPDATE_COMMIT (21 R634, R635) -/

/-- The plaintext body, where its tag and hash match (21 R634). -/
def State.fwPlain (s : State) : Option (List Byte) :=
  let h := s.upd.hdr
  let key := s.slotBytes 1
  let p := gcmCrypt key (cut h 0xA0 12) s.upd.body
  if gcmTag key (cut h 0xA0 12) (h.take 0xB0) s.upd.body = cut h 0xB0 16 ∧ sha256 p = cut h 0x20 32 then some p else none

/-- The new contents of the active slot: components of the body, the others as they were (21 R630, R635). -/
def State.fwSlotOf (s : State) (plain : List Byte) : FwSlot :=
  let h := s.upd.hdr
  { hdr := h, good := true,
    comps := (List.range 6).map (fun i =>
      if fwHas h i then (let b := cut plain (fwOff h i) (fwLen h i); { ver := fwLo h i, hash := sha256 b, bytes := b })
      else (s.nv.slot.comps[i]?).getD {}) }

/-- Steps 4 to 6: the directory goes to WRITING, the slot is programmed, the directory goes to PENDING, and every channel enters
self-refresh (21 R635; 11 R329). -/
def State.programSlot (s : State) (plain : List Byte) : State :=
  let h := s.upd.hdr
  let n1 := s.nv.writeDir (fun d => { d with slotState := 1 })
  let n2 : NonVol := { n1 with slot := s.fwSlotOf plain }
  let n3 := n2.writeDir (fun d => { d with slotState := 2, attempts := 0, version := getLE h 0xC 4, svn := getLE h 0x10 4 })
  { s with nv := n3, upd := { s.upd with reboot := true, body := [] },
           mem := { s.mem with chans := s.mem.chans.map (fun p => (p.1, { p.2 with selfRef := true, banks := p.2.banks.map (fun b => (b.1, { b.2 with openRow := none })) })) } }

/-- FW_UPDATE_COMMIT: all bytes there, tag and hash matching; then the reply, and the sequence of 21 R635 up to the update reboot
(21 R633 to R635). -/
def execFwUpdateCommit (f : Nat) (s : State) : Host.Outcome State Fault Refusal :=
  .next (s.mbRun f 0x52 (fun s =>
    if s.upd.body.length ≠ fwBodyLen s.upd.hdr then s.mbReply s f 0x0107 0 []
    else match s.fwPlain with
      | none => (s.abandonUpdate 3).mbReply s f 0x0502 0 []
      | some p => ((s.mbReply s f 0 0 []).abortAll).programSlot p))

/-- UPDATE_TIMEOUT: 600 s without a chunk or a commit (21 R633). -/
def execUpdateTimeout (s : State) : Host.Outcome State Fault Refusal := .next (s.abandonUpdate 1)

/-! ### The update reboot (21 R636 to R638) -/

/-- Requests, grants and victims of the tiles go with their reset; no L1D holds a line any more (01 R12; 10 R277). -/
def State.dropCores (s : State) : State :=
  let gone := s.slices.flatMap (fun p => (p.2.txns.filter (fun x => x.msg.isCore)).map (·.msg.line))
  let s1 := gone.foldl (fun (s : State) l => s.closeTxn l) s
  { s1 with
    net := s1.net.filter (fun m => !(m.isCore && (m.kind.cls == 0 || m.kind.cls == 3)) && !(decide (m.dst < 96) && m.kind.cls == 2)),
    slices := s1.slices.map (fun p => (p.1, { p.2 with
      queue := p.2.queue.filter (fun m => !m.isCore), sink := [], starved := p.2.starved.filter (fun m => !m.isCore), scan := none, fenced := 0,
      dir := p.2.dir.map (fun e => (e.1, if e.2.busy then e.2 else { e.2 with state := .n, ptrs := [], ovf := false, lv := false })) })) }

/-- An image whose RUNTIME_MIN the runtime does not reach is unloaded (21 R636). -/
def State.dropOldImages (s : State) : State :=
  if s.upd.keel then s
  else s.tenants.foldl (fun (s : State) p =>
    s.updTenant p.1 (fun x => { x with images := x.images.filter (fun im => decide (getLE im.2.raw 0x20 4 ≤ s.runtimeVer)) })) s

/-- The pairs that step 2 halted become ACTIVE again; under Keel they stay HALTED (21 R636, R638). -/
def State.wakeHalted (s : State) : State :=
  if s.upd.keel then s
  else
    let s1 := s.upd.halted.foldl (fun (s : State) k => s.updPair k.1 k.2 (fun x => { x with state := if x.state = .halted then .active else x.state })) s
    { s1 with upd := { s1.upd with halted := [] } }

/-- The ports of the mesh restart their bring-up (21 R636; 15 R438). -/
def State.restartPorts (s : State) : State :=
  { s with krl := { s.krl with ports := s.krl.ports.map (fun p => (p.1, { p.2 with state := 0, calib := false, lanes := 0 })) } }

/-- Eunto, the tiles, the memory controllers' firmware and the ports restart over the preservation record; what tasks still run on
tiles ends (21 R636, R638). -/
def State.updateReboot (s : State) (img : BitVec 2) : State :=
  let s1 := (s.tiles.map (·.1)).foldl (fun (s : State) t => s.resetTile t) s.writeBack
  let s2 := s1.dropCores.restartPorts
  let s3 : State := { s2 with
    mem := { s2.mem with chans := s2.mem.chans.map (fun p => (p.1, { p.2 with selfRef := false, hold := false })) },
    rel := { s2.rel with fenced := [] }, pw := { s2.pw with pstate := 0, lanes := [] },
    eunto := none, euntoArg := none, euntoMute := false, mboxes := s2.mboxes.map (fun p => (p.1, { p.2 with busy := false })),
    upd := { s2.upd with reboot := false, hdr := [], body := [], fromRecovery := false } }
  let s4 := (s3.bootUp img).dropOldImages
  let s5 := (s4.tenants.filter (fun p => p.2.tstate != .none)).foldl (fun (s : State) p => s.drawCtxKey p.1) s4
  (s5.startTiles.wakeHalted).pageChanged

/-- UPDATE_REBOOT: the update reboot that a commit makes due (21 R635, R636). -/
def execUpdateReboot (img : BitVec 2) (s : State) : Host.Outcome State Fault Refusal :=
  .next (if s.upd.reboot then s.updateReboot img else s)

/-- HEALTH_CONFIRM: in CONFIRM it confirms the image and raises the security version; in READY it has no effect; in RECOVERY it
replies FW_FALLBACK (21 R637; 18 R527). -/
def execHealthConfirm (f : Nat) (s : State) : Host.Outcome State Fault Refusal :=
  .next (s.mbRun f 0x53 (fun s =>
    match s.dstate with
    | .recovery => s.mbReply s f 0x0505 0 []
    | .confirm =>
      let n := s.nv.writeDir (fun d => { d with slotState := 3 })
      let s1 : State := { s with nv := { n with svn := max n.svn n.dir.svn }, dstate := .ready }
      s1.mbReply s f 0 0 []
    | _ => s.mbReply s f 0 0 []))

/-- CONFIRM_TIMEOUT: 60 s in CONFIRM with no HEALTH_CONFIRM taken: work ends again, the directory becomes FAILED, and Keel boots
(21 R637). -/
def execConfirmTimeout (img : BitVec 2) (s : State) : Host.Outcome State Fault Refusal :=
  .next (
    if s.dstate ≠ .confirm ∨ (s.eunto.isSome ∧ s.mbOp = 0x53) then s
    else
      let s1 : State := { s with nv := s.nv.writeDir (fun d => { d with slotState := 4 }) }
      s1.abortAll.updateReboot img)

end Sys2Proof.Machine
end

