-- ==== Sys2Proof/Machine/Security.lean ====
section
/-! DEFINITION. The key store, the lifecycle, the debug port, and the SPDM responder (16 R473; 21 R614 to R626, R639, R640; 24
R703). -/

namespace Sys2Proof.Machine

/-! ### The key store (21 R616, R617, R639, R640) -/

/-- ERR 1 of KST_CMD: the slot is the device's, or the device state is neither READY nor CONFIRM (21 R617). -/
def State.kstErr1 (s : State) (slot : Nat) : Bool :=
  (decide (slot < 8) && !(slot == 5 && s.nv.lifecycle == 1)) || !(s.dstate == .ready || s.dstate == .confirm)

/-- ERR 2: kind, length, point, USE_ALL, or what slot 5 may hold (21 R617). -/
def kstErr2 (v : BitVec 64) (b : List Byte) : Bool :=
  let kind := field v 24 3
  let len := field v 48 8
  (kind != 1 && kind != 4) || (kind == 1 && (len != 64 || !p256On (beInt (cut b 0 32)) (beInt (cut b 32 32))))
    || (kind == 4 && (len == 0 || decide (64 < len) || v.getLsbD 38)) || (field v 0 6 == 5 && (kind != 1 || field v 31 7 != 0x7F || v.getLsbD 38))

/-- ERR 3: the owner (21 R617). -/
def State.kstErr3 (s : State) (v : BitVec 64) : Bool :=
  let o := field v 31 7
  if o = 0x7F then field v 24 3 == 4 else decide (s.part.funcs ≤ o) || (s.tenant o).tstate == .none

/-- What KST_CMD holds after a GO: its plain fields and ERR; KST_DATA is cleared (21 R617, R640). -/
def State.kstDone (s : State) (v : BitVec 64) (err : Nat) : State :=
  { s with kstData := [], kstCmd := BitVec.ofNat 64 (field v 0 6 + field v 8 1 * 2 ^ 8 + field v 24 3 * 2 ^ 24 + field v 31 8 * 2 ^ 31
      + field v 48 8 * 2 ^ 48 + err * 2 ^ 56) }

/-- KEY_WRITE: KST_CMD written with GO 1 and ERASE 0 (21 R617, R640). -/
def execKeyWrite (v : BitVec 64) (s : State) : Host.Outcome State Fault Refusal :=
  .next (
    if !v.getLsbD 63 || v.getLsbD 8 then s
    else
      let b := (List.range 8).flatMap (fun n => leBytes 8 (s.kstData.getD n 0).toNat)
      let slot := field v 0 6
      let err := if s.kstErr1 slot then 1 else if kstErr2 v b then 2 else if s.kstErr3 v then 3 else 0
      let key : KeySlot := {
        kind := field v 24 3, len := field v 48 8, owner := field v 31 7, useAll := v.getLsbD 38, data := b.take (field v 48 8) }
      let s1 : State := if err = 0 then { s with keys := s.keys.set slot key } else s
      s1.kstDone v err)

/-- KEY_ERASE: KST_CMD written with GO 1 and ERASE 1 (21 R617, R640). -/
def execKeyErase (v : BitVec 64) (s : State) : Host.Outcome State Fault Refusal :=
  .next (
    if !v.getLsbD 63 || !v.getLsbD 8 then s
    else
      let slot := field v 0 6
      if s.kstErr1 slot then s.kstDone v 1
      else
        let s1 : State := { s with keys := s.keys.set slot { s.keySlot slot with kind := 0, len := 0, useAll := false, data := [] } }
        s1.kstDone v 0)

/-! ### Lifecycle (21 R622 to R625) -/

/-- The key slots that may authorise a transition; none for a transition that does not exist (21 R622). -/
def lifecycleKeys (from_ goal : Nat) : List Nat :=
  if from_ = 0 ∧ goal = 1 then [4] else if from_ = 1 ∧ goal = 2 then [5] else if from_ = 2 ∧ goal = 3 then [5] else if from_ = 3 ∧ goal = 1 then [4]
  else if 1 ≤ from_ ∧ from_ ≤ 3 ∧ goal = 4 then [4, 5] else []

/-- The first check of 21 R624 that an authorisation block fails; the count's limit comes first (21 R623). -/
def State.lifecycleCheck (s : State) (goal : Nat) (b : List Byte) : Nat :=
  let keys := lifecycleKeys s.nv.lifecycle goal
  let slot := getLE b 0x14 1
  if 256 ≤ s.nv.count then 0x0108
  else if getLE b 0 4 ≠ 0x3141434C ∨ getLE b 4 1 ≠ s.nv.lifecycle ∨ getLE b 5 1 ≠ goal ∨ getLE b 8 8 ≠ Config.serial.toNat ∨ getLE b 0x10 4 ≠ s.nv.count + 1 then 0x0101
  else if keys.isEmpty then 0x0109
  else if !keys.contains slot || (s.keySlot slot).kind != 1 then 0x0503
  else if !s.slotVerify slot (b.take 0x40) (cut b 0x40 32) (cut b 0x60 32) then 0x0502
  else 0

/-- LIFECYCLE_SET: the reply, WIPING, every tenant to DESTROYING with no completion, and the new state in the fuses (21 R624,
R625). -/
def execLifecycleSet (f : Nat) (s : State) : Host.Outcome State Fault Refusal :=
  .next (s.mbRun f 0x54 (fun s =>
    let goal := s.mbPay 0 1
    let c := s.lifecycleCheck goal (cut s.euntoReq 24 128)
    if c ≠ 0 then s.mbReply s f c 0 []
    else
      let s1 := s.mbReply s f 0 0 []
      let s2 : State := { s1 with dstate := .wiping, upd := { s1.upd with wipeFrom := s.dstate } }
      let live := (s2.tenants.filter (fun p => p.2.tstate != .none)).map (·.1)
      let s3 := live.foldl (fun (s : State) t => (s.silence t).resetTenant t true (tellOf f t)) s2
      { s3 with nv := { s3.nv with lifecycle := goal, count := s3.nv.count + 1, wiping := true } }))

/-- Every SRAM and all LPDDR6 are wiped (21 R622). -/
def State.wipeAll (s : State) : State :=
  { s with
    tiles := s.tiles.map (fun p => (p.1, { p.2 with
      l1 := { p.2.l1.emptied with reqs := [], given := [] }, stroke := {}, core := { p.2.core with stall := none } })),
    slices := s.slices.map (fun p => (p.1, { p.2 with
      data := [], plru := [], dir := [], dirPtr := [], txns := [], queue := [], sink := [], starved := none, scan := none })),
    net := [], io := [], pips := [], pulses := [],
    mem := { s.mem with cells := [], tags := [], reqs := [], chans := s.mem.chans.map (fun p => (p.1, { p.2 with badLines := [] })) },
    brm := s.brm.map (fun p => (p.1, { p.2 with ents := [], upd := [], cur := none })), cmpCtxs := [] }

/-- LIFECYCLE_WIPE_END: memory, SRAMs and the named slots are wiped, every tenant is gone, and the device is where the transition
was taken (21 R622, R625). -/
def execLifecycleWipeEnd (s : State) : Host.Outcome State Fault Refusal :=
  .next (
    if s.dstate ≠ .wiping then s
    else
      let s1 := (s.tiles.map (·.1)).foldl (fun (s : State) t => (s.loseTask t).updTile t (fun x => { x with bound := none, bind := {} })) s
      let live := (s1.tenants.filter (fun p => p.2.tstate == .destroying)).map (·.1)
      let s2 := live.foldl (fun (s : State) t => (((s.eraseKeys t).updTenant t (fun x => { x with wipe := 0 })).freeGrants t).setTState t .none []) s1
      let s3 := s2.wipeAll.eraseSlots (erasedSlots s2.nv.lifecycle)
      ({ s3 with dstate := s3.upd.wipeFrom, nv := { s3.nv with wiping := false }, upd := { s3.upd with debug := false } }).attn 0)

/-- DEBUG_PORT_OPEN: it opens in MANUFACTURE, and in RMA after the wipe (21 R626; 24 R703). -/
def execDebugPortOpen (s : State) : Host.Outcome State Fault Refusal :=
  .next (
    if s.pw.supply = .up ∧ (s.nv.lifecycle = 0 ∨ (s.nv.lifecycle = 3 ∧ !s.nv.wiping)) then { s with upd := { s.upd with debug := true } } else s)

/-! ### SPDM (16 R473; 21 R613, R619 to R621; log 44 for the codes of SPDM 1.2) -/

/-- An answer of the responder: the response code, its parameter, its bytes. -/
def State.spdmAnswer (s : State) (code param : Nat) (b : List Byte) : State :=
  { s with spdm := { s.spdm with answers := (code, param, b) :: s.spdm.answers } }

/-- An answer that carries certificates, digests or signatures of the device: the spec gives no such bytes (log 1). -/
def State.spdmFree (s : State) (code param words : Nat) : State := let r := s.freeBytes words; r.2.spdmAnswer code param r.1

/-- ERROR with its error code. -/
def State.spdmError (s : State) (e : Nat) : State := s.spdmAnswer 0x7F e []

/-- The SHA-256 of a component as booted; of the image as shipped it is opaque (21 R612, R621; log 7). -/
def State.compHash (s : State) (i : Nat) : List Byte :=
  let c := (s.running.comps[i]?).getD {}
  if c.hash = [] then natBe 32 (Config.shippedHash (i + if s.upd.keel then 7 else 0)).toNat |>.map (BitVec.ofNat 8) else c.hash

/-- Measurement block 7 (21 R621). -/
def State.measure7 (s : State) : List Byte :=
  leBytes 1 s.nv.lifecycle ++ leBytes 4 s.nv.count ++ leBytes 4 s.nv.svn ++ leBytes 1 (if s.upd.debug then 1 else 0) ++ leBytes 1 (if s.upd.keel then 1 else 0)

/-- Measurement block i, none where it is absent (21 R621). -/
def State.measurement (s : State) (i : Nat) : Option (List Byte) :=
  if 1 ≤ i ∧ i ≤ 6 then (if s.upd.keel ∧ (i = 3 ∨ i = 4 ∨ i = 6) then none else some (s.compHash (i - 1)))
  else if i = 7 then some s.measure7
  else if i = 8 then some (if s.running.hdr = [] then (natBe 32 (Config.shippedHash (if s.upd.keel then 13 else 6)).toNat).map (BitVec.ofNat 8) else sha256 s.running.hdr)
  else none

/-- The blocks that a GET_MEASUREMENTS asks for, each led by its index: one, or all with 0xFF (21 R621). -/
def State.measureBytes (s : State) (i : Nat) : List Byte :=
  ((List.range 9).filter (fun k => i == 0xFF || i == k)).flatMap (fun k => match s.measurement k with
    | some b => leBytes 1 k ++ b
    | none => [])

/-- The device has an identity to attest with (21 R619). -/
def State.hasIdentity (s : State) : Bool := s.nv.identity && s.nv.lifecycle != 0 && s.nv.lifecycle != 4

/-- A request that needs the negotiation to be complete: its slot, its session. -/
def State.spdmServe (s : State) (code p1 p2 : Nat) : State :=
  if s.spdm.stage ≠ 3 then s.spdmError 4
  else match code with
    | 0x81 => if s.hasIdentity then s.spdmFree 0x01 1 4 else s.spdmAnswer 0x01 0 []
    | 0x82 => if !s.hasIdentity then s.spdmError 7 else if p1 % 16 ≠ 0 then s.spdmError 1 else s.spdmFree 0x02 0 4
    | 0x83 => if !s.hasIdentity then s.spdmError 7 else if p1 ≠ 0 then s.spdmError 1 else s.spdmFree 0x03 0 8
    | 0xE0 => if p2 = 0 then s.spdmAnswer 0x60 (((List.range 9).filter (fun k => (s.measurement k).isSome)).length) [] else s.spdmAnswer 0x60 0 (s.measureBytes p2)
    | 0xE4 => if s.spdm.session.isSome then s.spdmError 10 else if p2 ≠ 0 then s.spdmError 1
      else ({ s with spdm := { s.spdm with session := some false } }).spdmFree 0x64 0 8
    | 0xE5 => if s.spdm.session = some false then ({ s with spdm := { s.spdm with session := some true } }).spdmAnswer 0x65 0 [] else s.spdmError 4
    | 0xE8 => if s.spdm.session = some true then s.spdmAnswer 0x68 0 [] else s.spdmError 4
    | 0xE9 => if s.spdm.session = some true then s.spdmAnswer 0x69 p1 [] else s.spdmError 4
    | 0xEC => if s.spdm.session = some true then ({ s with spdm := { s.spdm with session := none } }).spdmAnswer 0x6C p1 [] else s.spdmError 4
    | _ => s.spdmError 7

/-- SPDM_REQUEST: a request of at most 4,096 B comes over the DOE mailbox, from the session's requester or from another (16 R473;
21 R620). -/
def execSpdmRequest (other : Bool) (req : List (BitVec 8)) (s : State) : Host.Outcome State Fault Refusal :=
  .next (
    let code := getLE req 1 1
    if s.pw.supply ≠ .up ∨ s.dstate = .init then s
    else if 4096 < req.length then s.spdmError 14
    else if other ∧ s.spdm.session.isSome then s.spdmError 3
    else if code = 0x84 then ({ s with spdm := { s.spdm with stage := 1, session := none } }).spdmAnswer 0x04 0 [0x00, 0x12]
    else if getLE req 0 1 ≠ 0x12 then s.spdmError 0x41
    else if code = 0xE1 then (if s.spdm.stage = 1 then ({ s with spdm := { s.spdm with stage := 2 } }).spdmAnswer 0x61 0 [] else s.spdmError 4)
    else if code = 0xE3 then (if s.spdm.stage = 2 then ({ s with spdm := { s.spdm with stage := 3 } }).spdmAnswer 0x63 0 [] else s.spdmError 4)
    else s.spdmServe code (getLE req 2 1) (getLE req 3 1))

end Sys2Proof.Machine
end

