-- ==== Sys2Proof/Machine/RegWrite.lean ====
section
/-! DEFINITION. Register writes under their field types: BAR0 of the functions, configuration space, the tiles' windows, the slices'
registers, and the blocks that Eunto reaches (00 R5, R6; 16 R470, R477, R478, R483; 18 R515 to R520; and the rules that give each
register). A write is an aligned 8 B word with a mask of the bits written. -/

namespace Sys2Proof.Machine

/-- The bits of `rw` that the mask covers take the new value, the others keep the old one (00 R5, R6). -/
def rwBits (old v rw m : Word) : Word := (old &&& ~~~(rw &&& m)) ||| (v &&& rw &&& m)

/-- A 32-bit register written under its RW bits. -/
def rw32 (old : BitVec 32) (v m : Word) (rw : Nat) : BitVec 32 := (rwBits (old.setWidth 64) v (BitVec.ofNat 64 rw) m).setWidth 32

/-- Keeps field [lo + n − 1 : lo] of the old register where the new one's value fails a test. -/
def keepField {w : Nat} (old new : BitVec w) (lo n : Nat) (ok : Nat → Bool) : BitVec w :=
  if ok (field new lo n) then new else setField new lo n (field old lo n)

/-- The bits a write sets: the value under the mask. -/
def hits (v m : Word) (i : Nat) : Bool := v.getLsbD i && m.getLsbD i

/-- The mask of an aligned access of 4 or 8 bytes, and its value in place in the 8 B word. -/
def regMask (off bytes : Nat) : Word :=
  if bytes = 8 then BitVec.allOnes 64 else if off % 8 = 4 then 0xFFFFFFFF00000000 else 0xFFFFFFFF

def regVal (off bytes : Nat) (v : Word) : Word := if bytes = 8 then v else if off % 8 = 4 then v <<< 32 else v

/-! ### BAR0: mailbox, doorbells, MSI-X (16 R477 to R479, R483; 18 R515 to R520) -/

/-- Stores the bytes of a word that the mask covers into the message area, unless the mailbox is busy (18 R520). -/
def State.mbAreaWrite (s : State) (f o : Nat) (v m : Word) : State :=
  s.updMbox f (fun x =>
    if x.busy || s.dstate == .init then { x with overrun := true }
    else
      let a := padTo 4096 x.area
      let w := rwBits (BitVec.ofNat 64 (getLE a o 8)) v (BitVec.allOnes 64) m
      { x with area := a.take o ++ leBytes 8 w.toNat ++ a.drop (o + 8) })

/-- MB_STATUS: ATTN, OVERRUN and DONE are cleared by writing 1 (18 R517). -/
def State.mbStatusWrite (s : State) (f : Nat) (v m : Word) : State :=
  s.updMbox f (fun x => { x with
    attn := x.attn && !hits v m 3, overrun := x.overrun && !hits v m 2, done := x.done && !hits v m 1 })

/-- A word of a vector's MSI-X table entry: address, or data with the mask bit (16 R483). -/
def State.msixWrite (s : State) (f vec word : Nat) (v m : Word) : State :=
  let k := (f * 64 + vec) * 2 + word
  let new := rwBits (s.host.msixTab.getD k 0) v (if word = 1 then 0xFFFFFFFF else BitVec.allOnes 64) m
  let s1 : State := { s with host := { s.host with msixTab := s.host.msixTab.set k new } }
  if word = 1 ∧ m.getLsbD 32 then
    (if v.getLsbD 32 then { s1 with host := { s1.host with unmasked := s1.host.unmasked.filter (fun i => i != f * 64 + vec) } }
     else nextOr s1 (execMsixUnmask f vec s1))
  else s1

/-- The blocks that every function's BAR0 has: message area, doorbell, status, queue doorbells. -/
def State.bar0Common (s : State) (f o : Nat) (v m : Word) : State :=
  if 0x1000 ≤ o ∧ o < 0x2000 then s.mbAreaWrite f (o - 0x1000) v m
  else if o = 0x2000 then (if m.getLsbD 0 then nextOr s (execMbDoorbell f (v.setWidth 32) s) else s)
  else if o = 0x2008 then s.mbStatusWrite f v m
  else if 0x10000 ≤ o ∧ o < 0x10080 then (if m.getLsbD 0 then nextOr s (execDoorbell f ((o - 0x10000) / 8) (v.setWidth 32) s) else s)
  else s

/-! ### The manager's registers (20 R603 to R605; 21 R639, R640; 22 R659 to R663; 23 R687) -/

/-- The pages of a valid host region: first and last. -/
def hrgnPages (lo hi : Word) : Option (Nat × Nat) := if lo.getLsbD 3 then some (field lo 12 44, field hi 12 44) else none

/-- Region pages overlap a valid region of another function (20 R605). -/
def State.hrgnClash (s : State) (f : Nat) (r : Option (Nat × Nat)) : Bool :=
  match r with
  | none => false
  | some (a, b) => (List.range s.part.funcs).any (fun g => g != f && (List.range 32).any (fun n =>
      match hrgnPages ((s.tenant g).hrgnLo.getD n 0) ((s.tenant g).hrgnHi.getD n 0) with
      | some (c, d) => decide (a ≤ d ∧ c ≤ b ∧ a ≤ b ∧ c ≤ d)
      | none => false))

/-- TNT_HRGN_LOn and TNT_HRGN_HIn (20 R603 to R605). -/
def State.hrgnWrite (s : State) (f n : Nat) (hi : Bool) (v m : Word) : State :=
  let x := s.tenant f
  if !(x.tstate == .none || x.tstate == .quiesced) then s
  else
    let lo' := if hi then x.hrgnLo.getD n 0 else rwBits (x.hrgnLo.getD n 0) v 0x00FFFFFFFFFFF00B m
    let hi' := if hi then rwBits (x.hrgnHi.getD n 0) v 0x00FFFFFFFFFFF000 m else x.hrgnHi.getD n 0
    if s.hrgnClash f (hrgnPages lo' hi') then s.updTenant f (fun x => { x with hrgnRef := x.hrgnRef ||| ((1 : BitVec 32) <<< n) })
    else s.updTenant f (fun x => { x with hrgnLo := x.hrgnLo.set n lo', hrgnHi := x.hrgnHi.set n hi' })

/-- The tenant registers of a function (20 R603 to R609). -/
def State.tntWrite (s : State) (f o : Nat) (v m : Word) : State :=
  if s.part.funcs ≤ f then s
  else if o < 0x200 then s.hrgnWrite f (o / 16) (o % 16 == 8) v m
  else if o = 0x258 then s.updTenant f (fun x => { x with hrgnRef := x.hrgnRef &&& ~~~((v &&& m).setWidth 32) })
  else s

/-- KST_DATA and KST_CMD; a GO acts (21 R617, R639, R640). -/
def State.kstWrite (s : State) (o : Nat) (v m : Word) : State :=
  if o < 0x40 then { s with kstData := s.kstData.set (o / 8) (rwBits (s.kstData.getD (o / 8) 0) v (BitVec.allOnes 64) m) }
  else if o = 0x40 then
    let c := rwBits s.kstCmd v 0x00FF007F8700013F m
    if hits v m 63 then
      let g : Word := c ||| 0x8000000000000000
      if g.getLsbD 8 then nextOr s (execKeyErase g s) else nextOr s (execKeyWrite g s)
    else { s with kstCmd := c }
  else s

/-- PWR registers; a value out of a field's range leaves the field (22 R659 to R663; 23 R687). PWR_RST.WARM is the row PWR_RST_WARM
alone. -/
def State.pwrWrite (s : State) (o : Nat) (v m : Word) : State :=
  match o with
  | 0x00 => s.updPw (fun p => { p with ctl := rw32 p.ctl v m 7 })
  | 0x10 => s.updPw (fun p =>
    let n := rw32 p.sag v m 0xFFFF07FF
    let n1 := keepField p.sag n 24 8 (fun x => decide (46 ≤ x ∧ x ≤ 100))
    let n2 := keepField p.sag n1 16 8 (fun x => decide (20 ≤ x ∧ x ≤ 100))
    { p with sag := keepField p.sag n2 0 11 (fun x => decide (200 ≤ x ∧ x ≤ 2000)) })
  | 0x18 => s.updPw (fun p => { p with cap := keepField p.cap (rw32 p.cap v m 0x7FF) 0 11 (fun x => decide (400 ≤ x ∧ x ≤ 1600)) })
  | 0x20 | 0x28 | 0x30 => s.updPw (fun p =>
    let i := (o - 0x20) / 8
    let n := rw32 (p.idle.getD i 0) v m 0xFFFFFFFF
    { p with idle := if n = 0 then p.idle else p.idle.set i n })
  | 0x68 => if hits v m 31 then nextOr s (execPwrMarginReplan s) else s
  | _ => s

/-- BAR0 of a function: offsets that no block covers ignore writes (16 R477). -/
def State.bar0Write (s : State) (f o : Nat) (v m : Word) : State :=
  if f ≠ 0 then
    (if 0x20000 ≤ o ∧ o < 0x20100 then s.msixWrite f ((o - 0x20000) / 16) (o / 8 % 2) v m else s.bar0Common f o v m)
  else if 0x100000 ≤ o ∧ o < 0x100400 then s.msixWrite 0 ((o - 0x100000) / 16) (o / 8 % 2) v m
  else if 0x400000 ≤ o ∧ o < 0x440000 then s.tntWrite ((o - 0x400000) / 0x1000) (o % 0x1000) v m
  else if 0x480000 ≤ o ∧ o < 0x480048 then s.kstWrite (o - 0x480000) v m
  else if 0x4C0000 ≤ o ∧ o < 0x4C0070 then s.pwrWrite (o - 0x4C0000) v m
  else s.bar0Common 0 o v m

/-! ### Configuration space (16 R470, R472; log 48 for the bits of PCIe 6.0) -/

/-- Offset 0: SR-IOV Control of the PF, bit 0 VF Enable, bit 4 ARI Capable Hierarchy; VF Enable is set only under ARI. Offset 8: MSI-X
Message Control of the function, bit 14 its function mask (16 R470, R471, R483). -/
def State.configWrite (s : State) (f o : Nat) (v m : Word) : State :=
  if o = 0 ∧ f = 0 then
    let ari := if m.getLsbD 4 then v.getLsbD 4 else s.host.ari
    let s1 : State := { s with host := { s.host with ari } }
    if !m.getLsbD 0 then s1
    else if v.getLsbD 0 then (if ari then { s1 with host := { s1.host with vfEnable := true } } else s1)
    else if s.host.vfEnable then nextOr s1 (execVfEnableClear s1) else s1
  else if o = 8 ∧ m.getLsbD 14 then
    (if v.getLsbD 14 then { s with host := { s.host with fnUnmasked := s.host.fnUnmasked.filter (fun g => g != f) } }
     else nextOr s (execMsixUnmask f 64 s))
  else s

/-! ### Orchard slices (10 R301 to R304) -/

/-- The registers of a slice. -/
def State.orcWrite (s : State) (h o : Nat) (v m : Word) : State :=
  if s.part.tiles ≤ h then s
  else match o with
  | 0x00 => s.updSlice h (fun sl => { sl with ctl := rw32 sl.ctl v m 3 })
  | 0x10 => s.updSlice h (fun sl => { sl with fenced := sl.fenced &&& ~~~((v &&& m).setWidth 128) })
  | 0x18 => s.updSlice h (fun sl => { sl with fenced := sl.fenced &&& ~~~((v &&& m).setWidth 128 <<< 64) })
  | 0x20 =>
    let i := field (rwBits (BitVec.ofNat 64 ((s.slice h).hmapIdx.toNat * 2 ^ 32)) v 0x000003FF00000000 m) 32 10
    let s1 := s.updSlice h (fun sl => { sl with hmapIdx := BitVec.ofNat 10 i })
    if hits v m 63 ∧ i < 768 then { s1 with homeMap := s1.homeMap.set i (field (v &&& m) 0 7) } else s1
  | _ => s

/-! ### The blocks that Eunto reaches -/

/-- MEM_CTL, MEM_PAGE and MEM_SCRUB of a channel (11 R331, R333, R334). -/
def State.chanWrite (s : State) (c o : Nat) (v m : Word) : State :=
  match o with
  | 0x00 =>
    let s1 := s.updChan c (fun k =>
      let n := rw32 k.ctl v m 0xFE03
      let n1 := keepField k.ctl n 12 4 (fun x => decide (6 ≤ x ∧ x ≤ 12))
      let n2 := keepField k.ctl n1 10 2 (fun x => x != 3)
      { k with ctl := n2, selfRef := k.selfRef && (n2.getLsbD 1 || !k.ctl.getLsbD 1) })
    s1.selfRefDue c
  | 0x10 => s.updChan c (fun k => { k with page := keepField k.page (rw32 k.page v m 0xFFFF007F) 0 7 (fun x => decide (1 ≤ x ∧ x ≤ 64)) })
  | 0x18 => s.updChan c (fun k => { k with scrub := keepField k.scrub (rw32 k.scrub v m 0xFFFFFFFF) 0 32 (fun x => decide (3600 ≤ x)) })
  | _ => s

/-- The controllers' registers and the capacity map (11 R331 to R337). -/
def State.memRegWrite (s : State) (o : Nat) (v m : Word) : State :=
  if o < 0x2000 then (if o / 0x100 < s.part.chans then s.chanWrite (o / 0x100) (o % 0x100) v m else s)
  else if 0x4000 ≤ o ∧ o < 0x4200 then
    let n := (o - 0x4000) / 16
    if o % 16 = 0 then { s with mem := { s.mem with mapLo := s.mem.mapLo.set n (rwBits (s.mem.mapLo.getD n 0) v 0xFFFFFFFFFFFFF007 m) } }
    else { s with mem := { s.mem with mapHi := s.mem.mapHi.set n (rwBits (s.mem.mapHi.getD n 0) v 0xFFFFFFFF m) } }
  else s

/-- CMP_ASSIGN (12 R369). -/
def State.cmpRegWrite (s : State) (o : Nat) (v m : Word) : State :=
  let c := (o - 0x1000) / 0x100
  if 0x1000 ≤ o ∧ o % 0x100 = 0 ∧ s.cmpOn c then s.updCmp c (fun x => { x with funcs := rwBits x.funcs v (BitVec.allOnes 64) m }) else s

/-- BRM_PWR and BRM_RANGE (13 R398, R399). -/
def State.brmRegWrite (s : State) (o : Nat) (v m : Word) : State :=
  let a := (o - 0x4000) / 0x400
  let r := (o - 0x4000) % 0x400
  if o < 0x4000 ∨ !s.brmOn a then s
  else if r = 0 then s.updBrm a (fun b => { b with forcePf := if m.getLsbD 4 then v.getLsbD 4 else b.forcePf })
  else if 0x100 ≤ r ∧ r < 0x300 then
    s.updBrm a (fun b =>
      let f := (r - 0x100) / 8
      let old := b.range.getD f 0
      { b with range := b.range.set f (keepField old (rwBits old v 0xFF7F m) 8 8 (fun n => decide (n ≤ 128))) })
  else s

/-- CAD_CTL and CAD_STAT (14 R424, R425). -/
def State.cadRegWrite (s : State) (o : Nat) (v m : Word) : State :=
  if o = 0x1000 then s.updCad (fun c => { c with ctl := rw32 c.ctl v m 0xFFFFFFFF })
  else if o = 0x1008 then s.updCad (fun c => { c with adj := c.adj && !hits v m 31, stepped := c.stepped && !hits v m 28 })
  else s

/-- KRL_PORT_CTL: MODE stays 0 on ports 0 to 5 and takes no 3; clearing ENABLE takes the port down, setting it starts a port that has a
cable; RETRAIN acts (15 R436, R438, R460; 22 R656). -/
def State.portCtlWrite (s : State) (p : Nat) (v m : Word) : State :=
  let k := s.kport p
  let n := rwBits k.ctl v 0x0003FFFF00001F01 m
  let n1 := keepField k.ctl n 8 2 (fun x => x == 0 || (decide (6 ≤ p) && x != 3))
  let s1 := s.updPort p (fun k => { k with ctl := n1 })
  let s2 := if k.enabled ∧ !n1.getLsbD 0 then (if k.state = 4 then s1.downPort p else s1.updPort p (fun k => { k with state := 0, lanes := 0, calib := false }))
    else if n1.getLsbD 0 ∧ k.cable ∧ k.state = 0 then s1.updPort p (fun k => { k with state := 1, fails := 0 })
    else s1
  if hits v m 1 then s2.krlRetrain p else s2

/-- KRL_NODE, KRL_ROUTE, KRL_PORT_CTL and KRL_PANIC (15 R458 to R460, R462). -/
def State.krlRegWrite (s : State) (o : Nat) (v m : Word) : State :=
  if s.part.ports = 0 then s
  else if o = 0 then { s with krl := { s.krl with node := rwBits s.krl.node v 0x000003FFFF03FFFF m } }
  else if 0x100 ≤ o ∧ o < 0x200 then
    let n := (o - 0x100) / 8
    { s with krl := { s.krl with routes := s.krl.routes.set n (rwBits (s.krl.routes.getD n 0) v 0x8700000FFFFFFFFF m) } }
  else if 0x1000 ≤ o ∧ o < 0x1800 then
    let p := (o - 0x1000) / 0x100
    if o % 0x100 = 0 then s.portCtlWrite p v m
    else if o % 0x100 = 0x10 then
      s.updPort p (fun k =>
        let l := field (rwBits (BitVec.ofNat 64 (k.level * 2 ^ 16)) v 0x01FF0000 m) 16 9
        { k with level := if 64 ≤ l ∧ l ≤ 511 then l else k.level })
    else s
  else s

/-- DMA_ASSIGN and DMA_ISTAT (19 R573). -/
def State.dmaRegWrite (s : State) (o : Nat) (v m : Word) : State :=
  let c := (o - 0x1000) / 0x100
  if o < 0x1000 ∨ !s.dmaOn c then s
  else if o % 0x100 = 0x18 then s.updDma c (fun k => { k with funcs := some (rwBits (s.dmaFuncs c) v (BitVec.allOnes 64) m) })
  else if o % 0x100 = 0x20 then s.updDma c (fun k => { k with istat := k.istat &&& ~~~(v &&& m) })
  else s

/-- A block that Eunto reaches. -/
def State.euntoWrite (s : State) (b : DevBlock) (o : Nat) (v m : Word) : State :=
  match b with
  | .mem => s.memRegWrite o v m
  | .cmp => s.cmpRegWrite o v m
  | .brm => s.brmRegWrite o v m
  | .cad => s.cadRegWrite o v m
  | .krl => s.krlRegWrite o v m
  | .dma => s.dmaRegWrite o v m

/-- REGISTER_WRITE: a naturally aligned write of 4 or 8 bytes at an offset; of other sizes only the control window takes any (00 R5, R6;
16 R478). -/
def execRegisterWrite (port : RegPort) (off bytes : Nat) (val : BitVec 64) (s : State) : Host.Outcome State Fault Refusal :=
  .next (
    let ok := (bytes == 4 || bytes == 8) && off % bytes == 0
    let o := off / 8 * 8
    let v := regVal off bytes val
    let m := regMask off bytes
    match port with
    | .bar0 f => if f < s.part.funcs ∧ ok then s.bar0Write f o v m else s
    | .config f => if f < s.part.funcs ∧ ok then s.configWrite f o v m else s
    | .tile t => if s.tileOn t ∧ [1, 2, 4, 8].contains bytes ∧ off % bytes = 0 then s.winStore t off bytes val else s
    | .orc h => if ok then s.orcWrite h o v m else s
    | .eunto b => if ok then s.euntoWrite b o v m else s)

end Sys2Proof.Machine
end

