-- ==== Sys2Proof/Machine/Dispatch.lean ====
section
/-! DEFINITION. The dispatch of a command to its meaning, one arm per constructor of Instr. -/

namespace Sys2Proof.Machine

def exec (i : Instr) (s : State) : Host.Outcome State Fault Refusal :=
  match i with
  -- rings
  | .doorbell f q p => Sys2Proof.Machine.execDoorbell f q p s
  | .submissionFetch f q => Sys2Proof.Machine.execSubmissionFetch f q s
  | .ownRecheck f q => Sys2Proof.Machine.execOwnRecheck f q s
  | .delayedStart f => Sys2Proof.Machine.execDelayedStart f s
  | .delayTimeout f => Sys2Proof.Machine.execDelayTimeout f s
  | .nop w => Sys2Proof.Machine.execNop w s
  | .queryRun w => Sys2Proof.Machine.execQueryRun w s
  | .queryCancel w => Sys2Proof.Machine.execQueryCancel w s
  | .columnWrite w => Sys2Proof.Machine.execColumnWrite w s
  | .columnAppend w => Sys2Proof.Machine.execColumnAppend w s
  | .columnRead w => Sys2Proof.Machine.execColumnRead w s
  | .flush w => Sys2Proof.Machine.execFlush w s
  | .dmaCopy w => Sys2Proof.Machine.execDmaCopy w s
  | .compress w => Sys2Proof.Machine.execCompress w s
  | .decompress w => Sys2Proof.Machine.execDecompress w s
  | .digest w => Sys2Proof.Machine.execDigest w s
  | .extentReturn f => Sys2Proof.Machine.execExtentReturn f s
  | .completionWrite f q => Sys2Proof.Machine.execCompletionWrite f q s
  | .completionRecheck f q => Sys2Proof.Machine.execCompletionRecheck f q s
  | .coalesceExpiry f q => Sys2Proof.Machine.execCoalesceExpiry f q s
  | .msixUnmask f v => Sys2Proof.Machine.execMsixUnmask f v s
  -- dispatch
  | .pipelineExpand f qid p => Sys2Proof.Machine.execPipelineExpand f qid p s
  | .expansionResume f qid p => Sys2Proof.Machine.execExpansionResume f qid p s
  | .refill f => Sys2Proof.Machine.execRefill f s
  | .waittask t rd ra => Sys2Proof.Machine.execWaittask t rd ra s
  | .taskAssign t => Sys2Proof.Machine.execTaskAssign t s
  | .waittaskTimeout t => Sys2Proof.Machine.execWaittaskTimeout t s
  | .dispDone t d => Sys2Proof.Machine.execDispDone t d s
  | .dispFailed t d => Sys2Proof.Machine.execDispFailed t d s
  | .dispCancelled t d => Sys2Proof.Machine.execDispCancelled t d s
  | .dispYield t d => Sys2Proof.Machine.execDispYield t d s
  | .pipArrive f n => Sys2Proof.Machine.execPipArrive f n s
  | .eventPulse f flag => Sys2Proof.Machine.execEventPulse f flag s
  | .dspFlagalloc t rd => Sys2Proof.Machine.execDspFlagalloc t rd s
  | .dspFlagset t mask => Sys2Proof.Machine.execDspFlagset t mask s
  | .tileRebind t f => Sys2Proof.Machine.execTileRebind t f s
  | .tileLend t f => Sys2Proof.Machine.execTileLend t f s
  | .tileReclaim t => Sys2Proof.Machine.execTileReclaim t s
  | .bindAck t => Sys2Proof.Machine.execBindAck t s
  | .bindAckTimeout t => Sys2Proof.Machine.execBindAckTimeout t s
  -- stroke
  | .start t => Sys2Proof.Machine.execStart t s
  | .strokePass t => Sys2Proof.Machine.execStrokePass t s
  | .runEnd t => Sys2Proof.Machine.execRunEnd t s
  | .stkAbort t => Sys2Proof.Machine.execStkAbort t s
  | .resetEst t => Sys2Proof.Machine.execResetEst t s
  | .blotterRelease t => Sys2Proof.Machine.execBlotterRelease t s
  -- operators
  | .scan t => Sys2Proof.Machine.execScan t s
  | .filter t => Sys2Proof.Machine.execFilter t s
  | .project t => Sys2Proof.Machine.execProject t s
  | .compute t => Sys2Proof.Machine.execCompute t s
  | .hashBuild t => Sys2Proof.Machine.execHashBuild t s
  | .hashProbe t => Sys2Proof.Machine.execHashProbe t s
  | .aggHash t => Sys2Proof.Machine.execAggHash t s
  | .aggPlane t => Sys2Proof.Machine.execAggPlane t s
  | .sortRadix t => Sys2Proof.Machine.execSortRadix t s
  | .merge t => Sys2Proof.Machine.execMerge t s
  | .topk t => Sys2Proof.Machine.execTopk t s
  | .limit t => Sys2Proof.Machine.execLimit t s
  | .exchange t => Sys2Proof.Machine.execExchange t s
  | .opCompress t => Sys2Proof.Machine.execOpCompress t s
  | .opDecompress t => Sys2Proof.Machine.execOpDecompress t s
  | .opDigest t => Sys2Proof.Machine.execOpDigest t s
  | .lookupBramble t => Sys2Proof.Machine.execLookupBramble t s
  | .emit t => Sys2Proof.Machine.execEmit t s
  | .indexTask t => Sys2Proof.Machine.execIndexTask t s
  | .finalisationTask t => Sys2Proof.Machine.execFinalisationTask t s
  | .spillSubpartition t => Sys2Proof.Machine.execSpillSubpartition t s
  -- quill
  | .add t rd ra rb => Sys2Proof.Machine.execAdd t rd ra rb s
  | .sub t rd ra rb => Sys2Proof.Machine.execSub t rd ra rb s
  | .and t rd ra rb => Sys2Proof.Machine.execAnd t rd ra rb s
  | .or t rd ra rb => Sys2Proof.Machine.execOr t rd ra rb s
  | .xor t rd ra rb => Sys2Proof.Machine.execXor t rd ra rb s
  | .sll t rd ra rb => Sys2Proof.Machine.execSll t rd ra rb s
  | .srl t rd ra rb => Sys2Proof.Machine.execSrl t rd ra rb s
  | .sra t rd ra rb => Sys2Proof.Machine.execSra t rd ra rb s
  | .slt t rd ra rb => Sys2Proof.Machine.execSlt t rd ra rb s
  | .sltu t rd ra rb => Sys2Proof.Machine.execSltu t rd ra rb s
  | .min t rd ra rb => Sys2Proof.Machine.execMin t rd ra rb s
  | .max t rd ra rb => Sys2Proof.Machine.execMax t rd ra rb s
  | .minu t rd ra rb => Sys2Proof.Machine.execMinu t rd ra rb s
  | .maxu t rd ra rb => Sys2Proof.Machine.execMaxu t rd ra rb s
  | .clz t rd ra => Sys2Proof.Machine.execClz t rd ra s
  | .ctz t rd ra => Sys2Proof.Machine.execCtz t rd ra s
  | .popc t rd ra => Sys2Proof.Machine.execPopc t rd ra s
  | .addw t rd ra rb => Sys2Proof.Machine.execAddw t rd ra rb s
  | .subw t rd ra rb => Sys2Proof.Machine.execSubw t rd ra rb s
  | .nibget t rd ra rb => Sys2Proof.Machine.execNibget t rd ra rb s
  | .jr t ra => Sys2Proof.Machine.execJr t ra s
  | .jalr t rd ra => Sys2Proof.Machine.execJalr t rd ra s
  | .mul t rd ra rb => Sys2Proof.Machine.execMul t rd ra rb s
  | .mulh t rd ra rb => Sys2Proof.Machine.execMulh t rd ra rb s
  | .mulhu t rd ra rb => Sys2Proof.Machine.execMulhu t rd ra rb s
  | .div t rd ra rb => Sys2Proof.Machine.execDiv t rd ra rb s
  | .divu t rd ra rb => Sys2Proof.Machine.execDivu t rd ra rb s
  | .rem t rd ra rb => Sys2Proof.Machine.execRem t rd ra rb s
  | .remu t rd ra rb => Sys2Proof.Machine.execRemu t rd ra rb s
  | .addi t rd ra imm => Sys2Proof.Machine.execAddi t rd ra imm s
  | .andi t rd ra imm => Sys2Proof.Machine.execAndi t rd ra imm s
  | .ori t rd ra imm => Sys2Proof.Machine.execOri t rd ra imm s
  | .xori t rd ra imm => Sys2Proof.Machine.execXori t rd ra imm s
  | .slti t rd ra imm => Sys2Proof.Machine.execSlti t rd ra imm s
  | .sltiu t rd ra imm => Sys2Proof.Machine.execSltiu t rd ra imm s
  | .lui t rd imm => Sys2Proof.Machine.execLui t rd imm s
  | .slli t rd ra imm => Sys2Proof.Machine.execSlli t rd ra imm s
  | .srli t rd ra imm => Sys2Proof.Machine.execSrli t rd ra imm s
  | .srai t rd ra imm => Sys2Proof.Machine.execSrai t rd ra imm s
  | .ld t size u rd ra off => Sys2Proof.Machine.execLd t size u rd ra off s
  | .st t size rd ra off => Sys2Proof.Machine.execSt t size rd ra off s
  | .fadd t rd ra rb => Sys2Proof.Machine.execFadd t rd ra rb s
  | .umin t rd ra rb => Sys2Proof.Machine.execUmin t rd ra rb s
  | .umax t rd ra rb => Sys2Proof.Machine.execUmax t rd ra rb s
  | .nadd t rd ra rb => Sys2Proof.Machine.execNadd t rd ra rb s
  | .cas t rd ra rb => Sys2Proof.Machine.execCas t rd ra rb s
  | .cachePf t ra off => Sys2Proof.Machine.execCachePf t ra off s
  | .cacheClean t ra off => Sys2Proof.Machine.execCacheClean t ra off s
  | .cacheCleaninv t ra off => Sys2Proof.Machine.execCacheCleaninv t ra off s
  | .cacheInv t ra off => Sys2Proof.Machine.execCacheInv t ra off s
  | .br t disp => Sys2Proof.Machine.execBr t disp s
  | .call t disp => Sys2Proof.Machine.execCall t disp s
  | .beqz t annul ra disp => Sys2Proof.Machine.execBeqz t annul ra disp s
  | .bnez t annul ra disp => Sys2Proof.Machine.execBnez t annul ra disp s
  | .bltz t annul ra disp => Sys2Proof.Machine.execBltz t annul ra disp s
  | .bgez t annul ra disp => Sys2Proof.Machine.execBgez t annul ra disp s
  | .bgtz t annul ra disp => Sys2Proof.Machine.execBgtz t annul ra disp s
  | .blez t annul ra disp => Sys2Proof.Machine.execBlez t annul ra disp s
  | .mfcr t rd cr => Sys2Proof.Machine.execMfcr t rd cr s
  | .mtcr t ra cr => Sys2Proof.Machine.execMtcr t ra cr s
  | .setcr t rd ra cr => Sys2Proof.Machine.execSetcr t rd ra cr s
  | .clrcr t rd ra cr => Sys2Proof.Machine.execClrcr t rd ra cr s
  | .syscall t svc => Sys2Proof.Machine.execSyscall t svc s
  | .rfe t => Sys2Proof.Machine.execRfe t s
  | .fence t n => Sys2Proof.Machine.execFence t n s
  | .isync t => Sys2Proof.Machine.execIsync t s
  | .interrupt t => Sys2Proof.Machine.execInterrupt t s
  -- vector
  | .setvl t rd ra ew => Sys2Proof.Machine.execSetvl t rd ra ew s
  | .vadd t m x vd va vb => Sys2Proof.Machine.execVadd t m x vd va vb s
  | .vsub t m x vd va vb => Sys2Proof.Machine.execVsub t m x vd va vb s
  | .vand t m x vd va vb => Sys2Proof.Machine.execVand t m x vd va vb s
  | .vor t m x vd va vb => Sys2Proof.Machine.execVor t m x vd va vb s
  | .vxor t m x vd va vb => Sys2Proof.Machine.execVxor t m x vd va vb s
  | .vsll t m x vd va vb => Sys2Proof.Machine.execVsll t m x vd va vb s
  | .vsrl t m x vd va vb => Sys2Proof.Machine.execVsrl t m x vd va vb s
  | .vsra t m x vd va vb => Sys2Proof.Machine.execVsra t m x vd va vb s
  | .vmin t m x vd va vb => Sys2Proof.Machine.execVmin t m x vd va vb s
  | .vmax t m x vd va vb => Sys2Proof.Machine.execVmax t m x vd va vb s
  | .vminu t m x vd va vb => Sys2Proof.Machine.execVminu t m x vd va vb s
  | .vmaxu t m x vd va vb => Sys2Proof.Machine.execVmaxu t m x vd va vb s
  | .vmul t m x vd va vb => Sys2Proof.Machine.execVmul t m x vd va vb s
  | .vmulh t m x vd va vb => Sys2Proof.Machine.execVmulh t m x vd va vb s
  | .vmulhu t m x vd va vb => Sys2Proof.Machine.execVmulhu t m x vd va vb s
  | .vmv t m x vd vb => Sys2Proof.Machine.execVmv t m x vd vb s
  | .vcmpeq t m x vd va vb => Sys2Proof.Machine.execVcmpeq t m x vd va vb s
  | .vcmpne t m x vd va vb => Sys2Proof.Machine.execVcmpne t m x vd va vb s
  | .vcmplt t m x vd va vb => Sys2Proof.Machine.execVcmplt t m x vd va vb s
  | .vcmpltu t m x vd va vb => Sys2Proof.Machine.execVcmpltu t m x vd va vb s
  | .vcmple t m x vd va vb => Sys2Proof.Machine.execVcmple t m x vd va vb s
  | .vcmpleu t m x vd va vb => Sys2Proof.Machine.execVcmpleu t m x vd va vb s
  | .vcmpgt t m x vd va vb => Sys2Proof.Machine.execVcmpgt t m x vd va vb s
  | .vcmpgtu t m x vd va vb => Sys2Proof.Machine.execVcmpgtu t m x vd va vb s
  | .vcmpge t m x vd va vb => Sys2Proof.Machine.execVcmpge t m x vd va vb s
  | .vcmpgeu t m x vd va vb => Sys2Proof.Machine.execVcmpgeu t m x vd va vb s
  | .vwmul t m sg a vd va vb => Sys2Proof.Machine.execVwmul t m sg a vd va vb s
  | .vwcvt t m sg vd va => Sys2Proof.Machine.execVwcvt t m sg vd va s
  | .ndot t m sg a vd va vb => Sys2Proof.Machine.execNdot t m sg a vd va vb s
  | .bdot t m sg a vd va vb => Sys2Proof.Machine.execBdot t m sg a vd va vb s
  | .vext t m rd va rb => Sys2Proof.Machine.execVext t m rd va rb s
  | .vextu t m rd va rb => Sys2Proof.Machine.execVextu t m rd va rb s
  | .vins t m vd ra rb => Sys2Proof.Machine.execVins t m vd ra rb s
  | .vcompress t m vd va => Sys2Proof.Machine.execVcompress t m vd va s
  | .vpopm t m rd va => Sys2Proof.Machine.execVpopm t m rd va s
  | .vfirstm t m rd va => Sys2Proof.Machine.execVfirstm t m rd va s
  | .vredsum t m rd va => Sys2Proof.Machine.execVredsum t m rd va s
  | .vredsumu t m rd va => Sys2Proof.Machine.execVredsumu t m rd va s
  | .vredmin t m rd va => Sys2Proof.Machine.execVredmin t m rd va s
  | .vredmax t m rd va => Sys2Proof.Machine.execVredmax t m rd va s
  | .vredminu t m rd va => Sys2Proof.Machine.execVredminu t m rd va s
  | .vredmaxu t m rd va => Sys2Proof.Machine.execVredmaxu t m rd va s
  | .vld t m mode nf vd va vb => Sys2Proof.Machine.execVld t m mode nf vd va vb s
  | .vst t m mode nf vd va vb => Sys2Proof.Machine.execVst t m mode nf vd va vb s
  -- control
  | .bpclr t => Sys2Proof.Machine.execBpclr t s
  | .rangeGo t => Sys2Proof.Machine.execRangeGo t s
  | .dis t on => Sys2Proof.Machine.execDis t on s
  | .idis t on => Sys2Proof.Machine.execIdis t on s
  -- coherence
  | .rdS src line => Sys2Proof.Machine.execRdS src line s
  | .rdH src line => Sys2Proof.Machine.execRdH src line s
  | .rdX src line => Sys2Proof.Machine.execRdX src line s
  | .upg src line => Sys2Proof.Machine.execUpg src line s
  | .rdOnce src line => Sys2Proof.Machine.execRdOnce src line s
  | .ioRd src line => Sys2Proof.Machine.execIoRd src line s
  | .ioWr src line => Sys2Proof.Machine.execIoWr src line s
  | .homeQueueStart h => Sys2Proof.Machine.execHomeQueueStart h s
  | .fwdS t line => Sys2Proof.Machine.execFwdS t line s
  | .fwdX t line => Sys2Proof.Machine.execFwdX t line s
  | .fwdOnce t line => Sys2Proof.Machine.execFwdOnce t line s
  | .inv t line => Sys2Proof.Machine.execInv t line s
  | .gnt t line => Sys2Proof.Machine.execGnt t line s
  | .data t line => Sys2Proof.Machine.execData t line s
  | .fack t line => Sys2Proof.Machine.execFack t line s
  | .noline t line => Sys2Proof.Machine.execNoline t line s
  | .invack t line => Sys2Proof.Machine.execInvack t line s
  | .wbdata t line => Sys2Proof.Machine.execWbdata t line s
  | .cmpAck t line => Sys2Proof.Machine.execCmpAck t line s
  | .wback t line => Sys2Proof.Machine.execWback t line s
  | .decline t line => Sys2Proof.Machine.execDecline t line s
  | .nack src line => Sys2Proof.Machine.execNack src line s
  | .nackRetry src line => Sys2Proof.Machine.execNackRetry src line s
  | .iodone src line => Sys2Proof.Machine.execIodone src line s
  | .wbDirty t line => Sys2Proof.Machine.execWbDirty t line s
  | .victClean t line => Sys2Proof.Machine.execVictClean t line s
  | .victDrop t line => Sys2Proof.Machine.execVictDrop t line s
  | .fenceTimeout t line => Sys2Proof.Machine.execFenceTimeout t line s
  | .fenceMessage h t => Sys2Proof.Machine.execFenceMessage h t s
  | .fenceScan h => Sys2Proof.Machine.execFenceScan h s
  | .snpData line => Sys2Proof.Machine.execSnpData line s
  | .snpInv line => Sys2Proof.Machine.execSnpInv line s
  | .snpCur line => Sys2Proof.Machine.execSnpCur line s
  | .go line => Sys2Proof.Machine.execGo line s
  | .hostResponse line d poison => Sys2Proof.Machine.execHostResponse line d poison s
  | .bisnpResponse line => Sys2Proof.Machine.execBisnpResponse line s
  | .memRd line => Sys2Proof.Machine.execMemRd line s
  | .memRdData line => Sys2Proof.Machine.execMemRdData line s
  | .memWr line d poison => Sys2Proof.Machine.execMemWr line d poison s
  | .memWrPtl line d mask => Sys2Proof.Machine.execMemWrPtl line d mask s
  | .bar2Access f off len wr => Sys2Proof.Machine.execBar2Access f off len wr s
  | .bar0InvalidAccess f off len wr => Sys2Proof.Machine.execBar0InvalidAccess f off len wr s
  -- memory
  | .memRequestArrive c => Sys2Proof.Machine.execMemRequestArrive c s
  | .dramIssue c => Sys2Proof.Machine.execDramIssue c s
  | .memReadComplete c e0 e1 => Sys2Proof.Machine.execMemReadComplete c e0 e1 s
  | .guardWrite c => Sys2Proof.Machine.execGuardWrite c s
  | .guardRebuild c second => Sys2Proof.Machine.execGuardRebuild c second s
  | .refresh c b => Sys2Proof.Machine.execRefresh c b s
  | .idlePrecharge c b => Sys2Proof.Machine.execIdlePrecharge c b s
  | .scrub c e0 e1 => Sys2Proof.Machine.execScrub c e0 e1 s
  | .retrainStep c eye ok => Sys2Proof.Machine.execRetrainStep c eye ok s
  | .panicChange p => Sys2Proof.Machine.execPanicChange p s
  -- compression
  | .cmpSubmit t v => Sys2Proof.Machine.execCmpSubmit t v s
  | .cmpAbort t v => Sys2Proof.Machine.execCmpAbort t v s
  | .cmpJobStart c => Sys2Proof.Machine.execCmpJobStart c s
  | .cmpJobEnd c => Sys2Proof.Machine.execCmpJobEnd c s
  | .cmpAssign c v => Sys2Proof.Machine.execCmpAssign c v s
  -- bramble
  | .brmFind t a rd => Sys2Proof.Machine.execBrmFind t a rd s
  | .brmVec t a w rd => Sys2Proof.Machine.execBrmVec t a w rd s
  | .brmSubmit t v => Sys2Proof.Machine.execBrmSubmit t v s
  | .brmJobStart a => Sys2Proof.Machine.execBrmJobStart a s
  | .brmJobEnd a => Sys2Proof.Machine.execBrmJobEnd a s
  | .brambleUpdateStep a => Sys2Proof.Machine.execBrambleUpdateStep a s
  | .bramblePowerEval a => Sys2Proof.Machine.execBramblePowerEval a s
  -- cadence
  | .cadenceClock => Sys2Proof.Machine.execCadenceClock s
  | .syncExchange p => Sys2Proof.Machine.execSyncExchange p s
  | .syncReq p w => Sys2Proof.Machine.execSyncReq p w s
  | .syncRsp p w => Sys2Proof.Machine.execSyncRsp p w s
  | .cadenceSteer => Sys2Proof.Machine.execCadenceSteer s
  | .ptmDialogue h => Sys2Proof.Machine.execPtmDialogue h s
  | .cadArm t v => Sys2Proof.Machine.execCadArm t v s
  | .cadDisarm t v => Sys2Proof.Machine.execCadDisarm t v s
  | .actionDue e => Sys2Proof.Machine.execActionDue e s
  | .actionReady e => Sys2Proof.Machine.execActionReady e s
  | .actionTimeout e => Sys2Proof.Machine.execActionTimeout e s
  | .triggerPulse f k => Sys2Proof.Machine.execTriggerPulse f k s
  -- krelor
  | .idle p w => Sys2Proof.Machine.execIdle p w s
  | .dataFlit p w => Sys2Proof.Machine.execDataFlit p w s
  | .sack p w => Sys2Proof.Machine.execSack p w s
  | .abort p w => Sys2Proof.Machine.execAbort p w s
  | .linkAck p w => Sys2Proof.Machine.execLinkAck p w s
  | .nak p w => Sys2Proof.Machine.execNak p w s
  | .hello p w => Sys2Proof.Machine.execHello p w s
  | .replayTimeout p => Sys2Proof.Machine.execReplayTimeout p s
  | .laneFail p l => Sys2Proof.Machine.execLaneFail p l s
  | .laneRetrainComplete p ok => Sys2Proof.Machine.execLaneRetrainComplete p ok s
  | .portDown p => Sys2Proof.Machine.execPortDown p s
  | .retrain p => Sys2Proof.Machine.execRetrain p s
  | .cablePresent p present => Sys2Proof.Machine.execCablePresent p present s
  | .cmisRead p answers rev app len skew => Sys2Proof.Machine.execCmisRead p answers rev app len skew s
  | .trainComplete p ok => Sys2Proof.Machine.execTrainComplete p ok s
  | .roundDeadline x => Sys2Proof.Machine.execRoundDeadline x s
  -- host
  | .perst => Sys2Proof.Machine.execPerst s
  | .hotReset => Sys2Proof.Machine.execHotReset s
  | .linkDown => Sys2Proof.Machine.execLinkDown s
  | .pfFlr => Sys2Proof.Machine.execPfFlr s
  | .vfFlr f => Sys2Proof.Machine.execVfFlr f s
  | .vfEnableClear => Sys2Proof.Machine.execVfEnableClear s
  -- mailbox
  | .mbDoorbell f v => Sys2Proof.Machine.execMbDoorbell f v s
  | .mailboxTake => Sys2Proof.Machine.execMailboxTake s
  | .devInfo f => Sys2Proof.Machine.execDevInfo f s
  | .capQueryPage f => Sys2Proof.Machine.execCapQueryPage f s
  | .capQueryEntitlement f => Sys2Proof.Machine.execCapQueryEntitlement f s
  | .queueCreate f => Sys2Proof.Machine.execQueueCreate f s
  | .queueDelete f => Sys2Proof.Machine.execQueueDelete f s
  | .pipeLoad f => Sys2Proof.Machine.execPipeLoad f s
  | .pipeUnload f => Sys2Proof.Machine.execPipeUnload f s
  | .brambleLoad f => Sys2Proof.Machine.execBrambleLoad f s
  | .tenantCreate f => Sys2Proof.Machine.execTenantCreate f s
  | .qosSet f => Sys2Proof.Machine.execQosSet f s
  | .quiesceDrain f => Sys2Proof.Machine.execQuiesceDrain f s
  | .quiesceCancel f => Sys2Proof.Machine.execQuiesceCancel f s
  | .quiesceResume f => Sys2Proof.Machine.execQuiesceResume f s
  | .quiesceBound f => Sys2Proof.Machine.execQuiesceBound f s
  | .quiesceComplete f => Sys2Proof.Machine.execQuiesceComplete f s
  | .tenantReset f => Sys2Proof.Machine.execTenantReset f s
  | .tenantDestroy f => Sys2Proof.Machine.execTenantDestroy f s
  | .wipeEnd f => Sys2Proof.Machine.execWipeEnd f s
  | .migrateLogStart f => Sys2Proof.Machine.execMigrateLogStart f s
  | .migrateLogStop f => Sys2Proof.Machine.execMigrateLogStop f s
  | .timeAlignRead f => Sys2Proof.Machine.execTimeAlignRead f s
  | .timeAlignPriority f => Sys2Proof.Machine.execTimeAlignPriority f s
  | .hostSteeringOn f => Sys2Proof.Machine.execHostSteeringOn f s
  | .hostSteeringOff f => Sys2Proof.Machine.execHostSteeringOff f s
  | .krelorSet f => Sys2Proof.Machine.execKrelorSet f s
  | .fwUpdateBegin f => Sys2Proof.Machine.execFwUpdateBegin f s
  | .fwUpdateChunk f => Sys2Proof.Machine.execFwUpdateChunk f s
  | .fwUpdateCommit f => Sys2Proof.Machine.execFwUpdateCommit f s
  | .updateReboot img => Sys2Proof.Machine.execUpdateReboot img s
  | .healthConfirm f => Sys2Proof.Machine.execHealthConfirm f s
  | .confirmTimeout img => Sys2Proof.Machine.execConfirmTimeout img s
  | .updateTimeout => Sys2Proof.Machine.execUpdateTimeout s
  | .lifecycleSet f => Sys2Proof.Machine.execLifecycleSet f s
  | .lifecycleWipeEnd => Sys2Proof.Machine.execLifecycleWipeEnd s
  | .healthReport f => Sys2Proof.Machine.execHealthReport f s
  | .marginReport f => Sys2Proof.Machine.execMarginReport f s
  | .errlogRead f => Sys2Proof.Machine.execErrlogRead f s
  -- dma
  | .dmaLoad t v => Sys2Proof.Machine.execDmaLoad t v s
  | .dmaAbort t v => Sys2Proof.Machine.execDmaAbort t v s
  | .shadowCurrent c => Sys2Proof.Machine.execShadowCurrent c s
  | .dmaDescriptor c => Sys2Proof.Machine.execDmaDescriptor c s
  | .busError c => Sys2Proof.Machine.execBusError c s
  | .transferEnd c => Sys2Proof.Machine.execTransferEnd c s
  | .dgsOpen t v => Sys2Proof.Machine.execDgsOpen t v s
  | .dgsClose t v => Sys2Proof.Machine.execDgsClose t v s
  | .dgsSuspend t v => Sys2Proof.Machine.execDgsSuspend t v s
  | .suspendSave e => Sys2Proof.Machine.execSuspendSave e s
  | .contextQuantum e => Sys2Proof.Machine.execContextQuantum e s
  -- security
  | .keyWrite v => Sys2Proof.Machine.execKeyWrite v s
  | .keyErase v => Sys2Proof.Machine.execKeyErase v s
  -- power
  | .powerGood vin => Sys2Proof.Machine.execPowerGood vin s
  | .railRampTimeout r => Sys2Proof.Machine.execRailRampTimeout r s
  | .rampRetry => Sys2Proof.Machine.execRampRetry s
  | .overVoltage vin => Sys2Proof.Machine.execOverVoltage vin s
  | .underVoltage vin => Sys2Proof.Machine.execUnderVoltage vin s
  | .pwrgdLow => Sys2Proof.Machine.execPwrgdLow s
  | .thermalTrip t temp => Sys2Proof.Machine.execThermalTrip t temp s
  | .powerSample pin vin => Sys2Proof.Machine.execPowerSample pin vin s
  | .thermalEval temps => Sys2Proof.Machine.execThermalEval temps s
  | .sagFire core => Sys2Proof.Machine.execSagFire core s
  | .sagRecovery => Sys2Proof.Machine.execSagRecovery s
  | .refLoss => Sys2Proof.Machine.execRefLoss s
  | .refReturn => Sys2Proof.Machine.execRefReturn s
  | .refTimeout => Sys2Proof.Machine.execRefTimeout s
  | .a1Entry => Sys2Proof.Machine.execA1Entry s
  | .a2Entry => Sys2Proof.Machine.execA2Entry s
  | .a3Entry => Sys2Proof.Machine.execA3Entry s
  | .powerStateExit wake => Sys2Proof.Machine.execPowerStateExit wake s
  | .moduleColdReset mods straps img => Sys2Proof.Machine.execModuleColdReset mods straps img s
  | .moduleWarmReset mods img => Sys2Proof.Machine.execModuleWarmReset mods img s
  | .pwrRstWarm mods img => Sys2Proof.Machine.execPwrRstWarm mods img s
  -- reliability
  | .tileReturn t pass => Sys2Proof.Machine.execTileReturn t pass s
  | .sliceFault h cause line => Sys2Proof.Machine.execSliceFault h cause line s
  | .sliceRemoval h => Sys2Proof.Machine.execSliceRemoval h s
  | .sliceFlush => Sys2Proof.Machine.execSliceFlush s
  | .moduleLoss m => Sys2Proof.Machine.execModuleLoss m s
  | .phaseShed r phase => Sys2Proof.Machine.execPhaseShed r phase s
  | .watchdogExpiry img => Sys2Proof.Machine.execWatchdogExpiry img s
  | .ageingMeasure drift => Sys2Proof.Machine.execAgeingMeasure drift s
  | .marginReplan => Sys2Proof.Machine.execMarginReplan s
  | .pwrMarginReplan => Sys2Proof.Machine.execPwrMarginReplan s
  | .hubSensorRead m temp => Sys2Proof.Machine.execHubSensorRead m temp s
  | .i3cRead => Sys2Proof.Machine.execI3cRead s
  -- late
  | .registerWrite port off bytes val => Sys2Proof.Machine.execRegisterWrite port off bytes val s
  | .illegal t w => Sys2Proof.Machine.execIllegal t w s
  | .spdmRequest other req => Sys2Proof.Machine.execSpdmRequest other req s
  | .linkUp rate width cxl ptm => Sys2Proof.Machine.execLinkUp rate width cxl ptm s
  | .dramWriteError c wr => Sys2Proof.Machine.execDramWriteError c wr s
  | .debugPortOpen => Sys2Proof.Machine.execDebugPortOpen s
  | .shutdownRestart vin tmax mods straps img => Sys2Proof.Machine.execShutdownRestart vin tmax mods straps img s

end Sys2Proof.Machine
end

