-- ==== Sys2Proof/Machine/Invariants.lean ====
section
/-! DEFINITION. What holds of the device through every command: the named parts of the invariant, and how flash and fuses may
change. -/

namespace Sys2Proof.Machine

/-- Flash and fuses as time goes on: the security version and the count of transitions only rise, an erased identity
stays erased, the lifecycle state changes only with the count, is never left once DECOMMISSIONED and is never MANUFACTURE
again, and powered hours only rise (21 R611, R622, R625, R634; 23 R691). -/
structure NvKeeps (n m : NonVol) : Prop where
  svn : n.svn ≤ m.svn
  identity : m.identity = true → n.identity = true
  count : n.count ≤ m.count
  lifecycle : m.count = n.count → m.lifecycle = n.lifecycle
  last : n.lifecycle = 4 → m.lifecycle = 4
  first : m.lifecycle = 0 → n.lifecycle = 0
  hours : n.hours ≤ m.hours

/-- The error log holds at most 4,096 records and its flash spill at most 64,512 (23 R679). -/
def ErrLog.bounded (l : ErrLog) : Prop := l.recs.length ≤ 4096 ∧ l.spill.length ≤ 64512

/-- The sag level lies between L_min and 2 (23 R686). -/
def Power.levelOk (p : Power) : Prop := p.lmin ≤ p.level ∧ p.level ≤ 2

/-- The invariant: memory and host memory are in canonical form, the error log is within its bounds, the sag level is legal. -/
structure State.Inv (s : State) : Prop where
  mem : Memory.wf s.mem.cells = true
  host : Memory.wf s.hostMem = true
  errlog : s.errlog.bounded
  level : s.pw.levelOk

end Sys2Proof.Machine
end

