-- ==== Sys2Proof/Safety.lean ====
section
/-! DEFINITION. The words that claims use: a safe outcome, a core that executes its instruction, and the state after an instruction
that completes. -/

namespace Sys2Proof.Machine

/-- The outcome is a next state. -/
def Completes (o : Host.Outcome State Fault Refusal) : Prop := ∃ t, o = .next t

/-- Tile t's core executes: it can issue, and the fetch of its instruction raises no exception (06 R158, R182, R184; 22 R653). -/
def Runs (s : State) (t : Nat) : Prop := s.canIssue t = true ∧ (s.fetch t).1 = none

/-- The state once the instruction's word has come: L1I may have been filled. -/
def State.fetched (s : State) (t : Nat) : State := (s.fetch t).2

/-- The state after an instruction that changes its core by f and completes: it is counted, and the program counter goes on (06
R176, R193). -/
def State.ran (s : State) (t : Nat) (f : Core → Core) : State := (s.fetched t).updCore t (fun c => (f c).countInstr.advance)

/-- The instruction at which tile t's core stands is in the delay slot of a control transfer (06 R176). -/
def State.inSlot (s : State) (t : Nat) : Prop := (s.core t).slot.isSome = true

/-- The instruction takes an exception of a code: the core goes on at QVBASE in runtime mode with EXL 1 and IE 0; QEPC holds the
instruction's address, or that of the transfer in whose delay slot it stands, QFAULT_PC its address; the former mode and IE are kept; no
general or vector register changes (06 R182). -/
def Traps (i : Instr) (s : State) (t code : Nat) : Prop :=
  ∃ u, exec i s = .next u ∧ (u.core t).pc = (s.core t).qvbase ∧ (u.core t).qfaultPc = (s.core t).pc ∧
    (u.core t).qepc = (match (s.core t).slot with | some sl => sl.branch | none => (s.core t).pc) ∧
    field (u.core t).qcause 0 8 = code ∧ (u.core t).slot = none ∧
    (u.core t).runtime = true ∧ (u.core t).exl = true ∧ (u.core t).ie = false ∧ (u.core t).held = false ∧
    (u.core t).pmode = (s.core t).runtime ∧ (u.core t).pie = (s.core t).ie ∧
    (∀ r, (u.core t).readG r = (s.core t).readG r) ∧ (∀ r, (u.core t).readV r = (s.core t).readV r)

/-- L1D of a tile holds no parity error, and no line that has just come waits for the core. -/
def State.soundL1 (s : State) (t : Nat) : Prop :=
  (s.tile t).l1.given = [] ∧ ∀ p ∈ (s.tile t).l1.d, p.2.tagBad = false ∧ p.2.dataBad = 0

/-- A state in which nothing but one tile has changed, and of its first-level caches not L1D. -/
def State.onlyTile (s : State) (t : Nat) (u : State) : Prop :=
  u = { s with tiles := u.tiles } ∧ (∀ k, k ≠ t → u.tile k = s.tile k) ∧ (u.tile t).l1.d = (s.tile t).l1.d

end Sys2Proof.Machine
end

