-- ==== Sys2Proof/Certificates/Slice0/Obligations.lean ====
section
/-! DEFINITION. The statements for the provers, and the few words of their own that they use. -/

open Sys2Proof Sys2Proof.Machine

/-- A step of a machine whose queue holds c at the front answers what c's meaning answers on the same state with the rest of the
queue. With an empty queue it answers the same state: the block idles until it is commanded, and every timer that runs out is a command
of its own. The queue and the idling are the model's own choice (log 8). -/
def Obligations.StepRunsFrontCommand : Prop :=
  (∀ (s : State) (c : Instr) (r : List Instr), s.pending = c :: r → step s = exec c { s with pending := r }) ∧
    ∀ s : State, s.pending = [] → step s = .next s

/-- Right after reset the device is in INIT (R526) with sag level and L_min 0, lifecycle state PROVISION as shipped; every core is in
runtime mode with interrupts off, counts nothing and has every general register at zero (the zero of G1 to G31 is the model's choice,
log 2); L1D holds no line; no tenant exists; no byte of device memory is listed and the error log is empty. The lifecycle state and
E = 0x80 are the model's choices (logs 2, 7). -/
def Obligations.ResetLeaves : Prop :=
  State.reset.dstate = .init ∧ State.reset.pw.level = 0 ∧ State.reset.pw.lmin = 0 ∧ State.reset.nv.lifecycle = 1 ∧
    State.reset.mem.cells = [] ∧ State.reset.errlog.recs = [] ∧ State.reset.pending = [] ∧
    (∀ t, (State.reset.core t).runtime = true ∧ (State.reset.core t).ie = false ∧ (State.reset.core t).held = false ∧
      (State.reset.core t).released = false ∧ (State.reset.core t).qinstret = 0 ∧
      (∀ r, (State.reset.core t).readG r = 0) ∧ (∀ r, (State.reset.core t).readV r = 0) ∧
      (State.reset.tile t).l1.d = [] ∧ (State.reset.tile t).stroke.est = 0x80 ∧ (State.reset.tile t).bound = none) ∧
    (∀ f, (State.reset.tenant f).tstate = .none)

/-- Memory and host memory in canonical form, the error log within its bounds and the sag level between L_min and 2 hold right after
reset. -/
def Obligations.InvariantAtReset : Prop := State.reset.Inv

/-- From every state that meets the invariant, reachable or not, a step answers a state that meets it: device memory and host memory
stay in their canonical form (addresses strictly rising, no entry of the value an unlisted byte reads as), the error log holds at most
4,096 records and its spill at most 64,512, and the sag level stays between L_min and 2. -/
def Obligations.StepKeepsInvariant : Prop := ∀ s t : State, s.Inv → step s = .next t → t.Inv

/-- Every command, in every state: the fused security version and the count of lifecycle transitions never fall; the lifecycle state
changes only when the count rises, a DECOMMISSIONED device stays so and no device returns to MANUFACTURE; an erased identity secret
stays erased; powered hours never fall. -/
def Obligations.FusesOnlyMoveForward : Prop := ∀ s t : State, step s = .next t → NvKeeps s.nv t.nv

/-- In every state every command answers a next state: the device has no error that stops it; errors are status codes, exceptions of a
core, log records and states of the device. That state has the queue's rest and the part as they were, and the number of free values
drawn never falls, so that no two draws give one value by construction (the queue and the count are the model's own, logs 1 and 8). -/
def Obligations.CommandsCompleteAndKeepQueueAndPart : Prop :=
  ∀ (i : Instr) (s : State), ∃ t, exec i s = .next t ∧ t.pending = s.pending ∧ t.part = s.part ∧ s.freeCtr ≤ t.freeCtr

/-- When tile t's core executes, each register-register and immediate ALU instruction of R166 and R168 completes: rd takes the result
of the values that ra and rb held before (G0 discards it, R154), and nothing else happens but the count of the instruction and the
program counter's advance. Shift amounts are the low six bits; SLLI, SRLI and SRAI complete when their upper immediate bits are zero. -/
def Obligations.ScalarAluResults : Prop :=
  ∀ (s : State) (t : Nat) (rd ra rb : Reg) (imm : BitVec 16), Runs s t →
    let a := (s.core t).readG ra
    let b := (s.core t).readG rb
    let put (v : Word) : Host.Outcome State Fault Refusal := .next (s.ran t (fun c => c.writeG rd v))
    exec (.add t rd ra rb) s = put (a + b) ∧
    exec (.sub t rd ra rb) s = put (a - b) ∧
    exec (.and t rd ra rb) s = put (a &&& b) ∧
    exec (.or t rd ra rb) s = put (a ||| b) ∧
    exec (.xor t rd ra rb) s = put (a ^^^ b) ∧
    exec (.sll t rd ra rb) s = put (a <<< (b.toNat % 64)) ∧
    exec (.srl t rd ra rb) s = put (a >>> (b.toNat % 64)) ∧
    exec (.sra t rd ra rb) s = put (a.sshiftRight (b.toNat % 64)) ∧
    exec (.slt t rd ra rb) s = put (if a.toInt < b.toInt then 1 else 0) ∧
    exec (.sltu t rd ra rb) s = put (if a.toNat < b.toNat then 1 else 0) ∧
    exec (.min t rd ra rb) s = put (if b.toInt < a.toInt then b else a) ∧
    exec (.max t rd ra rb) s = put (if a.toInt < b.toInt then b else a) ∧
    exec (.minu t rd ra rb) s = put (if b.toNat < a.toNat then b else a) ∧
    exec (.maxu t rd ra rb) s = put (if a.toNat < b.toNat then b else a) ∧
    exec (.addw t rd ra rb) s = put (((a + b).extractLsb' 0 32).signExtend 64) ∧
    exec (.subw t rd ra rb) s = put (((a - b).extractLsb' 0 32).signExtend 64) ∧
    exec (.nibget t rd ra rb) s = put ((a >>> (4 * (b.toNat % 16))) &&& 15) ∧
    exec (.addi t rd ra imm) s = put (a + imm.signExtend 64) ∧
    exec (.andi t rd ra imm) s = put (a &&& imm.zeroExtend 64) ∧
    exec (.ori t rd ra imm) s = put (a ||| imm.zeroExtend 64) ∧
    exec (.xori t rd ra imm) s = put (a ^^^ imm.zeroExtend 64) ∧
    exec (.slti t rd ra imm) s = put (if a.toInt < imm.toInt then 1 else 0) ∧
    exec (.sltiu t rd ra imm) s = put (if a.toNat < (imm.signExtend 64).toNat then 1 else 0) ∧
    exec (.lui t rd imm) s = put ((imm.zeroExtend 32 <<< 16).signExtend 64) ∧
    (imm.toNat < 64 →
      exec (.slli t rd ra imm) s = put (a <<< imm.toNat) ∧
      exec (.srli t rd ra imm) s = put (a >>> imm.toNat) ∧
      exec (.srai t rd ra imm) s = put (a.sshiftRight imm.toNat))

/-- When the core executes, CLZ, CTZ and POPC write the number of leading zeros, trailing zeros and ones of ra (64, 64 and 0 for 0); MUL
writes the low half of the product, MULH and MULHU the high half of the signed and the unsigned one; with a divisor other than 0, DIV and
REM write the quotient towards zero and the remainder with the dividend's sign (-2^63 by -1 gives -2^63 and 0), DIVU and REMU the unsigned
ones. -/
def Obligations.CountsProductsQuotients : Prop :=
  ∀ (s : State) (t : Nat) (rd ra rb : Reg), Runs s t →
    let a := (s.core t).readG ra
    let b := (s.core t).readG rb
    let put (v : Word) : Host.Outcome State Fault Refusal := .next (s.ran t (fun c => c.writeG rd v))
    (∃ n ≤ 64, exec (.clz t rd ra) s = put (BitVec.ofNat 64 n) ∧ (∀ i < n, a.getLsbD (63 - i) = false) ∧
      (n < 64 → a.getLsbD (63 - n) = true)) ∧
    (∃ n ≤ 64, exec (.ctz t rd ra) s = put (BitVec.ofNat 64 n) ∧ (∀ i < n, a.getLsbD i = false) ∧ (n < 64 → a.getLsbD n = true)) ∧
    exec (.popc t rd ra) s = put (BitVec.ofNat 64 ((List.range 64).filter (fun i => a.getLsbD i)).length) ∧
    exec (.mul t rd ra rb) s = put (a * b) ∧
    (∃ p, exec (.mulh t rd ra rb) s = put p ∧ p.toInt = a.toInt * b.toInt / 2 ^ 64) ∧
    (∃ p, exec (.mulhu t rd ra rb) s = put p ∧ p.toNat = a.toNat * b.toNat / 2 ^ 64) ∧
    (b ≠ 0 →
      (∃ q, exec (.div t rd ra rb) s = put q ∧ ((a.toInt ≠ -(2 ^ 63) ∨ b.toInt ≠ -1) → q.toInt = a.toInt.tdiv b.toInt) ∧
        ((a.toInt = -(2 ^ 63) ∧ b.toInt = -1) → q.toInt = -(2 ^ 63))) ∧
      (∃ q, exec (.rem t rd ra rb) s = put q ∧ q.toInt = a.toInt.tmod b.toInt) ∧
      (∃ q, exec (.divu t rd ra rb) s = put q ∧ q.toNat = a.toNat / b.toNat) ∧
      (∃ q, exec (.remu t rd ra rb) s = put q ∧ q.toNat = a.toNat % b.toNat))

/-- When the core executes a division or remainder in no handler (EXL 0) and rb holds 0, the exception is taken: the program counter goes
to QVBASE, QFAULT_PC holds the instruction's address, QEPC that address or, in a delay slot, the address of the control transfer, QCAUSE
carries code 5, the mode becomes runtime with EXL 1 and IE 0, and every general and vector register keeps its value. -/
def Obligations.DivideByZeroTraps : Prop :=
  ∀ (s : State) (t : Nat) (rd ra rb : Reg), Runs s t → (s.core t).exl = false → (s.core t).readG rb = 0 →
    ∀ i ∈ [Instr.div t rd ra rb, .divu t rd ra rb, .rem t rd ra rb, .remu t rd ra rb],
      Traps i s t 5

/-- When the core executes one of the register ALU, multiply or immediate instructions, it changes no general register but rd, no vector
register, no control register (but QINSTRET), no predictor entry, no line of L1D, no byte of device or host memory, no other tile, no
slice and no tenant; G0 reads zero after it; the program counter moves to pc + 4, or out of a delay slot to the transfer's target. -/
def Obligations.ScalarAluFrame : Prop :=
  ∀ (s : State) (t : Nat) (rd ra rb : Reg) (imm : BitVec 16), Runs s t → imm.toNat < 64 →
    ∀ i ∈ [Instr.add t rd ra rb, .sub t rd ra rb, .and t rd ra rb, .or t rd ra rb, .xor t rd ra rb, .sll t rd ra rb,
        .srl t rd ra rb, .sra t rd ra rb, .slt t rd ra rb, .sltu t rd ra rb, .min t rd ra rb, .max t rd ra rb, .minu t rd ra rb,
        .maxu t rd ra rb, .addw t rd ra rb, .subw t rd ra rb, .nibget t rd ra rb, .mul t rd ra rb, .mulh t rd ra rb,
        .mulhu t rd ra rb, .clz t rd ra, .ctz t rd ra, .popc t rd ra, .addi t rd ra imm, .andi t rd ra imm, .ori t rd ra imm,
        .xori t rd ra imm, .slti t rd ra imm, .sltiu t rd ra imm, .lui t rd imm, .slli t rd ra imm, .srli t rd ra imm,
        .srai t rd ra imm], ∀ u, exec i s = .next u →
      (∀ k, k ≠ rd → (u.core t).readG k = (s.core t).readG k) ∧ (u.core t).readG 0 = 0 ∧
      (u.core t).pc = (match (s.core t).slot with | some sl => sl.target | none => (s.core t).pc + 4) ∧ (u.core t).slot = none ∧
      u.core t = { s.core t with
        g := (u.core t).g, pc := (u.core t).pc, slot := (u.core t).slot, qinstret := (u.core t).qinstret,
        heldInstret := (u.core t).heldInstret } ∧
      (u.tile t).l1.d = (s.tile t).l1.d ∧ (∀ k, k ≠ t → u.tile k = s.tile k) ∧ u = { s with tiles := u.tiles }

/-- When the core executes a control transfer outside a delay slot: JR and BR are taken, CALL is taken and writes pc + 8 to G31, JALR (rd
other than ra, or rd 0) is taken and writes pc + 8 to rd; a conditional branch is taken as ra compares with 0. Taken, the delay slot at
pc + 4 is next and control then passes to the target (ra, or pc + 4 disp); not taken, the slot is next and control passes to pc + 8, but an
annulling branch skips the slot and goes on at pc + 8. A taken transfer into a target, and one not taken, train the predictor. -/
def Obligations.ControlTransfers : Prop :=
  ∀ (s : State) (t : Nat) (rd ra : Reg) (disp : BitVec 20) (annul : Bool), Runs s t → ¬s.inSlot t →
    let c := s.core t
    let a := c.readG ra
    let target : Word := c.pc + (disp.signExtend 64) * 4
    let taken (f : Core → Core) (dst : Word) : Host.Outcome State Fault Refusal := .next ((s.fetched t).updCore t (fun c =>
      { ((f c).countInstr.train true dst) with pc := c.pc + 4, slot := some { branch := c.pc, target := dst } }))
    let cond (p : Bool) : Host.Outcome State Fault Refusal := if p then taken (fun c => c) target
      else .next ((s.fetched t).updCore t (fun c => if annul then { (c.countInstr.train false target) with pc := c.pc + 8 }
        else { (c.countInstr.train false target) with pc := c.pc + 4, slot := some { branch := c.pc, target := c.pc + 8 } }))
    exec (.jr t ra) s = taken (fun c => c) a ∧
    ((rd ≠ ra ∨ rd = 0) → exec (.jalr t rd ra) s = taken (fun x => x.writeG rd (c.pc + 8)) a) ∧
    exec (.br t disp) s = taken (fun c => c) target ∧
    exec (.call t disp) s = taken (fun x => x.writeG 31 (c.pc + 8)) target ∧
    exec (.beqz t annul ra disp) s = cond (decide (a = 0)) ∧
    exec (.bnez t annul ra disp) s = cond (decide (a ≠ 0)) ∧
    exec (.bltz t annul ra disp) s = cond (decide (a.toInt < 0)) ∧
    exec (.bgez t annul ra disp) s = cond (decide (0 ≤ a.toInt)) ∧
    exec (.bgtz t annul ra disp) s = cond (decide (0 < a.toInt)) ∧
    exec (.blez t annul ra disp) s = cond (decide (a.toInt ≤ 0))

/-- When the core executes an MFCR in runtime mode, rd takes the control register that the number names, for the core's own registers,
the tenant's region table and CAD_NOW; QCYCLE advances by a free number of cycles first (log 9). In task mode QSTAT, QINSTRET, VL and
CAD_NOW read so too; any other assigned number but QCYCLE and VTYPE raises PRIV, and in either mode a number not assigned raises
ILLEGAL. -/
def Obligations.ControlRegisterReads : Prop :=
  ∀ (s : State) (t : Nat) (rd : Reg), Runs s t →
    let c := s.core t
    let gives (n : BitVec 12) (v : Word) : Prop := exec (.mfcr t rd n) s = .next (s.ran t (fun c => c.writeG rd v))
    (c.runtime = true →
      gives 0x002 c.qcause ∧ gives 0x003 c.qepc ∧ gives 0x004 c.qfaultPc ∧ gives 0x005 c.qfaultAddr ∧
      gives 0x006 (c.qfaultElem.zeroExtend 64) ∧ gives 0x008 c.qvbase ∧ gives 0x00A (c.qipend.zeroExtend 64) ∧
      gives 0x00B (c.qblotwin.zeroExtend 64) ∧ gives 0x010 (c.bpkey.zeroExtend 64) ∧ gives 0x011 c.specFill ∧
      (∀ k < 64, gives (BitVec.ofNat 12 (0x100 + 2 * k)) (c.rgnLo.getD k 0) ∧
        gives (BitVec.ofNat 12 (0x101 + 2 * k)) (c.rgnHi.getD k 0))) ∧
    gives 0x013 c.qinstret ∧ gives 0x020 (c.vl.zeroExtend 64) ∧ gives 0x040 s.now ∧ gives 0x001 (c.qstatWord.zeroExtend 64) ∧
    (∃ x u, exec (.mfcr t rd 0x012) s = .next u ∧ (rd ≠ 0 → (u.core t).readG rd = c.qcycle + x) ∧ (u.core t).qcycle = c.qcycle + x) ∧
    (c.exl = false → ∀ n : BitVec 12,
      (crAssigned n.toNat = false → Traps (.mfcr t rd n) s t 1) ∧
      (c.runtime = false → crAssigned n.toNat = true → crTaskReadable n.toNat = false → Traps (.mfcr t rd n) s t 2))

/-- When the core executes in runtime mode, MTCR writes ra to the register under its field types (QEPC whole, QVBASE aligned to 64,
QIPEND's bits cleared where ra has ones, QBLOTWIN's 12 bits, BPKEY whole, read-only ones not at all); SETCR and CLRCR write the old
value or ra, and the old value and not ra, and give rd the old value. In task mode outside held execution a write of an assigned register raises PRIV, and one
of a number not assigned raises ILLEGAL. -/
def Obligations.ControlRegisterWrites : Prop :=
  ∀ (s : State) (t : Nat) (rd ra : Reg), Runs s t →
    let c := s.core t
    let a := c.readG ra
    (c.runtime = true →
      exec (.mtcr t ra 0x003) s = .next (s.ran t (fun c => { c with qepc := a })) ∧
      exec (.mtcr t ra 0x008) s = .next (s.ran t (fun c => { c with qvbase := a &&& ~~~(63 : Word) })) ∧
      exec (.mtcr t ra 0x00A) s = .next (s.ran t (fun c => { c with qipend := c.qipend &&& ~~~(a.truncate 32) })) ∧
      exec (.mtcr t ra 0x00B) s = .next (s.ran t (fun c => { c with qblotwin := a.truncate 32 &&& 0xFFF })) ∧
      exec (.mtcr t ra 0x010) s = .next (s.ran t (fun c => { c with bpkey := a.truncate 32 })) ∧
      (∀ n ∈ [(0x002 : BitVec 12), 0x004, 0x005, 0x006, 0x011, 0x013, 0x040], exec (.mtcr t ra n) s = .next (s.ran t (fun c => c))) ∧
      exec (.setcr t rd ra 0x003) s = .next (s.ran t (fun x => ({ x with qepc := c.qepc ||| a }).writeG rd c.qepc)) ∧
      exec (.clrcr t rd ra 0x003) s = .next (s.ran t (fun x => ({ x with qepc := c.qepc &&& ~~~a }).writeG rd c.qepc))) ∧
    (c.exl = false → ∀ n : BitVec 12, ∀ i ∈ [Instr.mtcr t ra n, .setcr t rd ra n, .clrcr t rd ra n],
      (crAssigned n.toNat = false → Traps i s t 1) ∧
      (c.runtime = false → c.held = false → crAssigned n.toNat = true → Traps i s t 2))

/-- When the core executes outside a delay slot and outside a handler: SYSCALL (in held execution only with SVC 0) enters the handler with
code 7, the SVC number in QCAUSE and QEPC at pc + 4. RFE in runtime mode goes on at QEPC with the mode and IE restored and EXL 0, and in task mode raises PRIV.
FENCE goes on when G is 0 or no host write waits for GO, and otherwise leaves the core at it; ISYNC makes BPKEY take effect. An
enabled pending interrupt of a core that does not wait enters the handler with code 8. -/
def Obligations.SystemInstructions : Prop :=
  ∀ (s : State) (t : Nat), Runs s t →
    let c := s.core t
    (∀ svc, ¬s.inSlot t → c.exl = false → (c.held = false ∨ c.runtime = true ∨ svc = 0) →
      ∃ u, exec (.syscall t svc) s = .next u ∧ (u.core t).pc = c.qvbase ∧ (u.core t).qepc = c.pc + 4 ∧
        field (u.core t).qcause 0 8 = 7 ∧ field (u.core t).qcause 16 12 = svc.toNat ∧ (u.core t).runtime = true ∧
        (u.core t).exl = true ∧ (u.core t).ie = false ∧ (u.core t).pmode = c.runtime ∧ (u.core t).pie = c.ie) ∧
    (¬s.inSlot t → c.runtime = true → ∃ u, exec (.rfe t) s = .next u ∧ (u.core t).pc = c.qepc ∧ (u.core t).runtime = c.pmode ∧
      (u.core t).ie = c.pie ∧ (u.core t).exl = false ∧ (u.core t).bpkeyEff = c.bpkey ∧
      (∀ r, (u.core t).readG r = c.readG r) ∧ s.onlyTile t u) ∧
    (¬s.inSlot t → c.runtime = false → c.exl = false → Traps (.rfe t) s t 2) ∧
    (∀ n : BitVec 12, n.toNat < 8 →
      ((n.toNat < 4 ∨ s.goPend = []) → exec (.fence t n) s = .next (s.ran t (fun c => c))) ∧
      ((4 ≤ n.toNat ∧ s.goPend ≠ []) → exec (.fence t n) s = .next (s.fetched t))) ∧
    exec (.isync t) s = .next (s.ran t (fun c => { c with bpkeyEff := c.bpkey }))

/-- A released core of an enabled tile that is not fenced, not blocked and not between a transfer and its slot, with IE 1, EXL 0 and a
pending source that IMASK enables, takes INTERRUPT: code 8, QEPC at the next instruction (one in WAITTASK goes on after it with rd 0),
runtime mode, EXL 1, IE 0, on at QVBASE. -/
def Obligations.InterruptEntry : Prop :=
  ∀ (s : State) (t : Nat), s.tileOn t = true → (s.core t).released = true → s.pw.pstate = 0 → s.isolated t = false →
    (s.core t).stall = none → (s.core t).intrReady = true →
    ∃ u, exec (.interrupt t) s = .next u ∧ field (u.core t).qcause 0 8 = 8 ∧ (u.core t).pc = (s.core t).qvbase ∧
      (u.core t).qepc = (if (s.core t).wait.isSome then (s.core t).pc + 4 else (s.core t).pc) ∧ (u.core t).wait = none ∧
      (u.core t).runtime = true ∧ (u.core t).exl = true ∧ (u.core t).ie = false ∧ (u.core t).pie = true ∧
      (u.core t).pmode = (s.core t).runtime ∧
      (∀ w, (s.core t).wait = some w → w.rd ≠ 0 → (u.core t).readG w.rd = 0) ∧
      (∀ r, ((s.core t).wait.map (fun w => w.rd)) ≠ some r → (u.core t).readG r = (s.core t).readG r)

/-- BPCLR leaves every predictor entry as a clear leaves it, weakly not taken with target 0, and nothing else changed. With no parity
error in L1D, RANGE_GO answers the machine after the range operation on L1D, and DIS the machine after L1D's clean and invalidate, with
the disable bit as written; IDIS empties L1I and writes its disable bit, and leaves the core and L1D as they were. -/
def Obligations.CoreControlCommands : Prop :=
  ∀ (s : State) (t : Nat),
    (∃ u, exec (.bpclr t) s = .next u ∧ (∀ k, (u.core t).pred.getD k {} = { ctr := 1, target := 0 }) ∧ s.onlyTile t u ∧
      u.core t = { s.core t with pred := [] }) ∧
    (s.soundL1 t → (s.tile t).l1.ctl.getLsbD 9 = false → exec (.rangeGo t) s = .next (s.rangeOp t)) ∧
    (s.soundL1 t → ∀ on, exec (.dis t on) s = .next (s.setDis t on) ∧ ((s.setDis t on).tile t).l1.ctl.getLsbD 0 = on) ∧
    (∀ on, ∃ u, exec (.idis t on) s = .next u ∧ (u.tile t).l1.i = [] ∧ (u.tile t).l1.ibuf = none ∧
      (u.tile t).l1.ctl.getLsbD 1 = on ∧ u.core t = s.core t ∧ s.onlyTile t u)

/-- When the core executes LD (not an unsigned one of 8 bytes, which is no encoding) on an address of a memory space, no check of the
access fails, and L1D of the tile, free of parity errors, holds the line: rd takes the bytes at the address, little-endian, zero-extended
or sign-extended to 64 bits; L1D, memory, every other tile and every other register but QINSTRET and the program counter keep their
values. -/
def Obligations.LoadHitsL1D : Prop :=
  ∀ (s : State) (t : Nat) (size : BitVec 2) (uns : Bool) (rd ra : Reg) (off : BitVec 12), Runs s t → s.soundL1 t →
    ¬(uns = true ∧ size = 3) →
    let a := (s.core t).readG ra + off.signExtend 64
    let n := 2 ^ size.toNat
    (s.core t).dataExc a n n .load = none → space a ≤ 1 → ∀ l, (s.tile t).l1.dLine (lineOf a.toNat) = some l →
      let v := lineGet l.data (a.toNat % 64) n
      ∃ u, exec (.ld t size uns rd ra off) s = .next u ∧
        u.core t = ((s.core t).writeG rd (if uns then BitVec.ofNat 64 v else (BitVec.ofNat (8 * n) v).signExtend 64)).countInstr.advance ∧
        s.onlyTile t u

/-- When the core executes ST of n bytes, no check fails and the sound L1D holds the line in E or D: that line is D, holds the low n
bytes of rd at the address and its old bytes elsewhere; no other line of L1D, no byte of memory, no other tile and no register but
QINSTRET and the program counter changes. -/
def Obligations.StoreHitsL1D : Prop :=
  ∀ (s : State) (t : Nat) (size : BitVec 2) (rd ra : Reg) (off : BitVec 12), Runs s t → s.soundL1 t →
    let a := (s.core t).readG ra + off.signExtend 64
    let n := 2 ^ size.toNat
    (s.core t).dataExc a n n .store = none → space a ≤ 1 → ∀ l, (s.tile t).l1.dLine (lineOf a.toNat) = some l → (l.st = .e ∨ l.st = .d) →
      ∃ u, exec (.st t size rd ra off) s = .next u ∧ u.core t = (s.core t).countInstr.advance ∧
        (u.tile t).l1.dLine (lineOf a.toNat) = some { l with
          st := .d, st2 := .d, data := mergeLine l.data (placeAt ((s.core t).readG rd) (a.toNat % 64)) (byteMask (a.toNat % 64) n) } ∧
        (∀ k, k ≠ lineOf a.toNat → (u.tile t).l1.dLine k = (s.tile t).l1.dLine k) ∧
        (∀ k, k ≠ t → u.tile k = s.tile k) ∧ u = { s with tiles := u.tiles }

/-- Merging n of a value's bytes into a line at an offset, n at most 8 and within the line, makes those n bytes read as the value's low n
bytes, and leaves every other byte of the line as it was: the merge that stores and atomics use. -/
def Obligations.StoreMergesExactBytes : Prop :=
  ∀ (d : Line) (v : Word) (o n : Nat), n ≤ 8 → o + n ≤ 64 →
    lineGet (mergeLine d (placeAt v o) (byteMask o n)) o n = v.toNat % 256 ^ n ∧
    ∀ j < 64, (j < o ∨ o + n ≤ j) → lineGet (mergeLine d (placeAt v o) (byteMask o n)) j 1 = lineGet d j 1

/-- When the core executes an atomic on the 8 bytes that ra addresses, no check fails and the sound L1D holds the line in E or D: rd takes
the old word m, and the line, now D, holds there m + x for FADD, the smaller and the larger unsigned of m and x for UMIN and UMAX, the
sixteen lane sums, each at most 15, for NADD, and for CAS x where m equals the old value of rd and m otherwise, with x the value of rb. No
other line of L1D, no byte of memory, no other tile changes. -/
def Obligations.AtomicsHitL1D : Prop :=
  ∀ (s : State) (t : Nat) (rd ra rb : Reg), Runs s t → s.soundL1 t →
    let a := (s.core t).readG ra
    let x := (s.core t).readG rb
    (s.core t).dataExc a 8 8 .atomic = none → ∀ l, (s.tile t).l1.dLine (lineOf a.toNat) = some l → (l.st = .e ∨ l.st = .d) →
      let m : Word := BitVec.ofNat 64 (lineGet l.data (a.toNat % 64) 8)
      let does (i : Instr) (v : Word) : Prop := ∃ u, exec i s = .next u ∧ u.core t = ((s.core t).writeG rd m).countInstr.advance ∧
        (u.tile t).l1.dLine (lineOf a.toNat) = some { l with
          st := .d, st2 := .d, data := mergeLine l.data (placeAt v (a.toNat % 64)) (byteMask (a.toNat % 64) 8) } ∧
        (∀ k, k ≠ lineOf a.toNat → (u.tile t).l1.dLine k = (s.tile t).l1.dLine k) ∧
        (∀ k, k ≠ t → u.tile k = s.tile k) ∧ u = { s with tiles := u.tiles }
      does (.fadd t rd ra rb) (m + x) ∧
      does (.umin t rd ra rb) (if x.toNat < m.toNat then x else m) ∧
      does (.umax t rd ra rb) (if m.toNat < x.toNat then x else m) ∧
      (∃ v, does (.nadd t rd ra rb) v ∧ ∀ k < 16, field v (4 * k) 4 = min 15 (field m (4 * k) 4 + field x (4 * k) 4)) ∧
      does (.cas t rd ra rb) (if m = (s.core t).readG rd then x else m)

/-- When the core executes outside a handler in task mode and not held, LD (not an unsigned one of 8 bytes), ST and the atomics trap with PRIV in the control window;
elsewhere with MISALIGN when the address is not a multiple of the size; and, aligned in a memory space, with REGION when no entry of the
tenant's region table is valid, grants the access and covers it. -/
def Obligations.AccessChecksTrap : Prop :=
  ∀ (s : State) (t : Nat) (size : BitVec 2) (uns : Bool) (rd ra rb : Reg) (off : BitVec 12), Runs s t →
    (s.core t).exl = false → (s.core t).runtime = false → (s.core t).held = false → ¬(uns = true ∧ size = 3) →
    let ea := (s.core t).readG ra + off.signExtend 64
    let a := (s.core t).readG ra
    let check (i : Instr) (a : Word) (n need : Nat) : Prop :=
      (space a = 0xFF → Traps i s t 2) ∧
      (space a ≠ 0xFF → a.toNat % n ≠ 0 → Traps i s t 3) ∧
      (space a ≤ 1 → a.toNat % n = 0 → (∀ p ∈ (s.core t).rgnLo, regionHit p.2 ((s.core t).rgnHi.getD p.1 0) a.toNat n need = false) →
        Traps i s t 4)
    check (.ld t size uns rd ra off) ea (2 ^ size.toNat) 1 ∧ check (.st t size rd ra off) ea (2 ^ size.toNat) 2 ∧
    ∀ i ∈ [Instr.fadd t rd ra rb, .umin t rd ra rb, .umax t rd ra rb, .nadd t rd ra rb, .cas t rd ra rb], check i a 8 3

/-- When the core executes LD, ST or an atomic on a memory space, no check fails and the sound L1D does not hold the line: the core keeps
its registers and program counter and is blocked at that instruction, and a request for the line stands in the tile's table or the line lies in its
victim buffer. -/
def Obligations.MissBlocksCore : Prop :=
  ∀ (s : State) (t : Nat) (size : BitVec 2) (uns : Bool) (rd ra rb : Reg) (off : BitVec 12), Runs s t → s.soundL1 t →
    ¬(uns = true ∧ size = 3) →
    let ea := (s.core t).readG ra + off.signExtend 64
    let n := 2 ^ size.toNat
    let a := (s.core t).readG ra
    let blocks (i : Instr) (a : Word) : Prop := (s.tile t).l1.dLine (lineOf a.toNat) = none →
      ∃ u, exec i s = .next u ∧ u.core t = { s.core t with stall := some i } ∧
        ((∃ q ∈ (u.tile t).l1.reqs, q.line = lineOf a.toNat) ∨ (∃ v ∈ (u.tile t).l1.vbuf, v.line = lineOf a.toNat))
    (space ea ≤ 1 → (s.core t).dataExc ea n n .load = none → blocks (.ld t size uns rd ra off) ea) ∧
    (space ea ≤ 1 → (s.core t).dataExc ea n n .store = none → blocks (.st t size rd ra off) ea) ∧
    ((s.core t).dataExc a 8 8 .atomic = none → ∀ i ∈ [Instr.fadd t rd ra rb, .umin t rd ra rb, .umax t rd ra rb, .nadd t rd ra rb,
      .cas t rd ra rb], blocks i a)

/-- When the core executes on an address of a memory space and the sound L1D holds no copy of its line, CLEAN, CLEANINV and (in runtime
mode) INV go on and change nothing else; where it holds the line dirty, CLEAN answers the machine after the line has been cleaned and
kept, CLEANINV and INV after it has been cleaned away or dropped. PF posts a request for the line when the tenant's table grants a read,
nothing is on hand or requested and fewer than four prefetches are outstanding, and goes on; with no grant it goes on and does nothing.
INV in task mode traps with PRIV. -/
def Obligations.CacheOperations : Prop :=
  ∀ (s : State) (t : Nat) (ra : Reg) (off : BitVec 12), Runs s t → s.soundL1 t →
    let c := s.core t
    let a := c.readG ra + off.signExtend 64
    let line := lineOf a.toNat
    let after (op : Nat) : Host.Outcome State Fault Refusal :=
      .next (((s.fetched t).lineOp t op ((s.tile t).l1.ctl.getLsbD 10) line).updCore t (fun c => c.countInstr.advance))
    space a ≤ 1 →
      exec (.cacheClean t ra off) s = after 0 ∧ exec (.cacheCleaninv t ra off) s = after 1 ∧
      (c.runtime = true → exec (.cacheInv t ra off) s = after 2) ∧
      (c.runtime = false → c.exl = false → Traps (.cacheInv t ra off) s t 2) ∧
      ((s.tile t).l1.dLine line = none → ∀ op, after op = .next (s.ran t (fun c => c))) ∧
      (c.regionOk a 1 1 = false → exec (.cachePf t ra off) s = .next (s.ran t (fun c => c))) ∧
      (c.regionOk a 1 1 = true → (s.tile t).l1.dLine line = none → (∀ q ∈ (s.tile t).l1.reqs, q.line ≠ line) →
        (∀ v ∈ (s.tile t).l1.vbuf, v.line ≠ line) → (s.tile t).l1.pfCount < 4 →
        ∃ u q, exec (.cachePf t ra off) s = .next u ∧ u.core t = c.countInstr.advance ∧ q.line = line ∧ q.prefetch = true ∧
          (u.tile t).l1.reqs = (s.tile t).l1.reqs ++ [q])

/-- When the core executes an element-wise vector instruction whose destination is not V0 under a mask, vd takes a value whose element i
is the operation of va[i] and the second operand (vb[i], or with X the low bits of register rb) where element i is active, below VL and, masked,
with its bit of V0 set, and the old element elsewhere; no other register changes. Shifts use the low log2(EW) bits; VSRA, VMIN, VMAX and VMULH
are signed. -/
def Obligations.VectorElementwise : Prop :=
  ∀ (s : State) (t : Nat) (m x : Bool) (vd va vb : Reg), Runs s t → (m = false ∨ vd ≠ 0) →
    let c := s.core t
    let w := ewBits c.ew
    let a (i : Nat) : Nat := elem w (c.readV va) i
    let b (i : Nat) : Nat := if x then (c.readG vb).toNat % 2 ^ w else elem w (c.readV vb) i
    let does (i : Instr) (f : Nat → Nat) : Prop := ∃ r, exec i s = .next (s.ran t (fun y => y.writeV vd r)) ∧
      ∀ k, w * (k + 1) ≤ 128 → elem w r k = if c.active m k then f k else elem w (c.readV vd) k
    does (.vadd t m x vd va vb) (fun i => (a i + b i) % 2 ^ w) ∧
    does (.vsub t m x vd va vb) (fun i => (a i + 2 ^ w - b i) % 2 ^ w) ∧
    does (.vand t m x vd va vb) (fun i => (a i &&& b i) % 2 ^ w) ∧
    does (.vor t m x vd va vb) (fun i => (a i ||| b i) % 2 ^ w) ∧
    does (.vxor t m x vd va vb) (fun i => (a i ^^^ b i) % 2 ^ w) ∧
    does (.vsll t m x vd va vb) (fun i => a i * 2 ^ (b i % w) % 2 ^ w) ∧
    does (.vsrl t m x vd va vb) (fun i => a i / 2 ^ (b i % w) % 2 ^ w) ∧
    does (.vsra t m x vd va vb) (fun i => (sintOf w (a i) / ((2 ^ (b i % w) : Nat) : Int) % ((2 ^ w : Nat) : Int)).toNat) ∧
    does (.vmin t m x vd va vb) (fun i => if sintOf w (b i) < sintOf w (a i) then b i else a i) ∧
    does (.vmax t m x vd va vb) (fun i => if sintOf w (a i) < sintOf w (b i) then b i else a i) ∧
    does (.vminu t m x vd va vb) (fun i => min (a i) (b i)) ∧
    does (.vmaxu t m x vd va vb) (fun i => max (a i) (b i)) ∧
    does (.vmul t m x vd va vb) (fun i => a i * b i % 2 ^ w) ∧
    does (.vmulh t m x vd va vb) (fun i => (sintOf w (a i) * sintOf w (b i) / ((2 ^ w : Nat) : Int) % ((2 ^ w : Nat) : Int)).toNat) ∧
    does (.vmulhu t m x vd va vb) (fun i => a i * b i / 2 ^ w) ∧
    does (.vmv t m x vd vb) b

/-- When the core executes a vector compare, bit i of vd becomes 1 exactly where element i is active and va[i] compares so with the second
operand, signed for LT, LE, GT and GE, unsigned for the U forms, and every other bit becomes 0; V0 may be the destination, masked or not; no other register changes. -/
def Obligations.VectorCompares : Prop :=
  ∀ (s : State) (t : Nat) (m x : Bool) (vd va vb : Reg), Runs s t →
    let c := s.core t
    let w := ewBits c.ew
    let a (i : Nat) : Nat := elem w (c.readV va) i
    let b (i : Nat) : Nat := if x then (c.readG vb).toNat % 2 ^ w else elem w (c.readV vb) i
    let does (i : Instr) (p : Nat → Prop) : Prop := ∃ r, exec i s = .next (s.ran t (fun y => y.writeV vd r)) ∧
      ∀ k < 128, r.getLsbD k = true ↔ c.active m k = true ∧ p k
    does (.vcmpeq t m x vd va vb) (fun i => a i = b i) ∧
    does (.vcmpne t m x vd va vb) (fun i => a i ≠ b i) ∧
    does (.vcmplt t m x vd va vb) (fun i => sintOf w (a i) < sintOf w (b i)) ∧
    does (.vcmpltu t m x vd va vb) (fun i => a i < b i) ∧
    does (.vcmple t m x vd va vb) (fun i => sintOf w (a i) ≤ sintOf w (b i)) ∧
    does (.vcmpleu t m x vd va vb) (fun i => a i ≤ b i) ∧
    does (.vcmpgt t m x vd va vb) (fun i => sintOf w (b i) < sintOf w (a i)) ∧
    does (.vcmpgtu t m x vd va vb) (fun i => b i < a i) ∧
    does (.vcmpge t m x vd va vb) (fun i => sintOf w (b i) ≤ sintOf w (a i)) ∧
    does (.vcmpgeu t m x vd va vb) (fun i => b i ≤ a i)

/-- When the core executes: SETVL with a code below 5 sets VTYPE.EW and VL to the smaller of ra and VLMAX and gives rd that VL, and with
another code traps with ILLEGAL outside a handler. VWMUL and VWCVT, at EW 32 or less with vd even and not V0 under a mask, write the exact products
and extensions at twice the width over vd and vd + 1; NDOT and BDOT at EW 32 write each active lane's dot product of eight Nibs or four bytes,
modulo 2^32. VEXT, VEXTU, VINS move one active element, VCOMPRESS packs the elements that V0 selects, VPOPM counts and VFIRSTM finds the ones
of a mask below VL. -/
def Obligations.VectorWidthAndMoves : Prop :=
  ∀ (s : State) (t : Nat) (m acc : Bool) (sg : BitVec 2) (ew : BitVec 3) (vd va vb rd ra : Reg), Runs s t →
    let c := s.core t
    let w := ewBits c.ew
    let a (i : Nat) : Nat := elem w (c.readV va) i
    let b (i : Nat) : Nat := elem w (c.readV vb) i
    let int (v : Nat) (signed : Bool) : Int := if signed then sintOf w v else v
    let k := (c.readG vb).toNat
    (ew.toNat < 5 → exec (.setvl t rd ra ew) s = .next (s.ran t (fun y => ({ y with
      ew := ew, vl := BitVec.ofNat 32 (min (c.readG ra).toNat (s.part.vbits / 2 ^ (ew.toNat + 2))) }).writeG rd
        (BitVec.ofNat 64 (min (c.readG ra).toNat (s.part.vbits / 2 ^ (ew.toNat + 2))))))) ∧
    (5 ≤ ew.toNat → c.exl = false → Traps (.setvl t rd ra ew) s t 1) ∧
    (w ≤ 32 → vd.toNat % 2 = 0 → (m = false ∨ vd ≠ 0) →
      (sg ≠ 3 → exec (.vwmul t m sg acc vd va vb) s = .next (s.ran t (fun y => putWide y (c.active m) (s.part.vbits / w / 2) (2 * w) vd
        (fun i old => wrapInt (2 * w) (int (a i) (sg != 0) * int (b i) (sg == 1) + (if acc then (old : Int) else 0))) c.vlen))) ∧
      (sg.toNat < 2 → exec (.vwcvt t m sg vd va) s = .next (s.ran t (fun y => putWide y (c.active m) (s.part.vbits / w / 2) (2 * w) vd
        (fun i _ => wrapInt (2 * w) (int (a i) (sg == 1))) c.vlen)))) ∧
    (w = 32 → sg ≠ 3 → (m = false ∨ vd ≠ 0) → ∀ p ∈ [(Instr.ndot t m sg acc vd va vb, 4), (Instr.bdot t m sg acc vd va vb, 8)],
      ∃ r, exec p.1 s = .next (s.ran t (fun y => y.writeV vd r)) ∧ ∀ i < 4, elem 32 r i =
        if c.active m i then wrapInt 32 (((List.range (32 / p.2)).map (fun j => dotInt p.2 (a i / 2 ^ (p.2 * j)) (sg != 0) *
          dotInt p.2 (b i / 2 ^ (p.2 * j)) (sg == 1))).sum + (if acc then (elem 32 (c.readV vd) i : Int) else 0)) else elem 32 (c.readV vd) i) ∧
    exec (.vext t m rd va vb) s = .next (s.ran t (fun y => y.writeG rd (if c.active m k then sext64 w (a k) else 0))) ∧
    exec (.vextu t m rd va vb) s = .next (s.ran t (fun y => y.writeG rd (if c.active m k then BitVec.ofNat 64 (a k) else 0))) ∧
    ((m = false ∨ vd ≠ 0) → exec (.vins t m vd ra vb) s = .next (s.ran t (fun y =>
      if c.active m k then y.writeV vd (setElem w (c.readV vd) k (c.readG ra).toNat) else y))) ∧
    (vd ≠ 0 → vd ≠ va → exec (.vcompress t true vd va) s = .next (s.ran t (fun y => y.writeV vd
      ((((List.range c.vlen).filter (c.active true)).map a).zipIdx.foldl (fun r p => setElem w r p.2 p.1) (c.readV vd))))) ∧
    exec (.vpopm t m rd va) s = .next (s.ran t (fun y => y.writeG rd
      (BitVec.ofNat 64 ((List.range c.vlen).filter (fun i => (c.readV va).getLsbD i)).length))) ∧
    (∃ n ≤ c.vlen, exec (.vfirstm t m rd va) s = .next (s.ran t (fun y => y.writeG rd (BitVec.ofNat 64 n))) ∧
      (∀ i < n, (c.readV va).getLsbD i = false) ∧ (n < c.vlen → (c.readV va).getLsbD n = true))

/-- When the core executes a reduction, rd takes over the active elements below VL: VREDSUM and VREDSUMU their sum modulo 2^64, signed or
not; VREDMIN and VREDMAX the smallest and the largest signed element, 2^63 - 1 and -2^63 for none; VREDMINU and VREDMAXU the unsigned
ones, all ones and 0 for none. No vector register changes. -/
def Obligations.VectorReductions : Prop :=
  ∀ (s : State) (t : Nat) (m : Bool) (rd va : Reg), Runs s t →
    let c := s.core t
    let w := ewBits c.ew
    let u := ((List.range c.vlen).filter (c.active m)).map (fun i => elem w (c.readV va) i)
    let i := u.map (fun v => sintOf w v)
    let z := u.map (fun v => (v : Int))
    let gives (x : Instr) (p : Int → Prop) : Prop := ∃ v, exec x s = .next (s.ran t (fun y => y.writeG rd (BitVec.ofInt 64 v))) ∧ p v
    gives (.vredsum t m rd va) (fun v => v = i.sum) ∧
    gives (.vredsumu t m rd va) (fun v => v = z.sum) ∧
    gives (.vredmin t m rd va) (fun v => (i = [] ∧ v = 2 ^ 63 - 1) ∨ (v ∈ i ∧ ∀ y ∈ i, v ≤ y)) ∧
    gives (.vredmax t m rd va) (fun v => (i = [] ∧ v = -(2 ^ 63)) ∨ (v ∈ i ∧ ∀ y ∈ i, y ≤ v)) ∧
    gives (.vredminu t m rd va) (fun v => (z = [] ∧ v = 2 ^ 64 - 1) ∨ (v ∈ z ∧ ∀ y ∈ z, v ≤ y)) ∧
    gives (.vredmaxu t m rd va) (fun v => (z = [] ∧ v = 0) ∨ (v ∈ z ∧ ∀ y ∈ z, y ≤ v))

/-- When the core executes a vector load or store that is well formed and runs at the element width in force, no check of an element's
access fails, every element lies in a memory space and the sound L1D holds every line, for a store in E or D: a load puts each active
element's bytes (at EW 4 the Nib) into its register and element, in increasing element number, and changes nothing else of L1D; a store
writes the elements in increasing number; both go on. -/
def Obligations.VectorMemoryHits : Prop :=
  ∀ (s : State) (t : Nat) (m : Bool) (mode nf : BitVec 2) (vd va vb : Reg), Runs s t → s.soundL1 t →
    let c := s.core t
    let w := ewBits c.ew
    let n := max 1 (w / 8)
    let l := c.vaccs m mode nf va vb
    c.vmemRuns mode nf vd = true → (∀ x ∈ l, space x.addr ≤ 1) →
      (∀ get : VAcc → DLine, vmemOk m mode nf vd vb true = true → c.vfault n n .load l = none →
        (∀ x ∈ l, (s.tile t).l1.dLine (lineOf x.addr.toNat) = some (get x)) →
        ∃ u, exec (.vld t m mode nf vd va vb) s = .next u ∧ s.onlyTile t u ∧
          u.core t = (l.foldl (fun (y : Core) (x : VAcc) =>
            let v := lineGet (get x).data (x.addr.toNat % 64) n
            let r : Reg := vd + BitVec.ofNat 5 x.reg
            y.writeV r (setElem w (y.readV r) x.i (if w = 4 then (if x.hi then v / 16 else v % 16) else v))) c).countInstr.advance) ∧
      (vmemOk m mode nf vd vb false = true → c.vfault n n .store l = none →
        (∀ x ∈ l, ∃ d, (s.tile t).l1.dLine (lineOf x.addr.toNat) = some d ∧ (d.st = .e ∨ d.st = .d)) →
        exec (.vst t m mode nf vd va vb) s = .next ((((l.foldl (fun (y : State) (x : VAcc) =>
          y.vput t w x (elem w (c.readV (vd + BitVec.ofNat 5 x.reg)) x.i)) (s.fetched t)).accessEnd t)).updCore t
            (fun c => c.countInstr.advance)))

/-- The ring command with a key has an opcode and runs, or may start now: admitted, not delayed, and no earlier command of its queue
holds it back (17 R511 to R513). -/
def Sys2Proof.Machine.Begins (s : State) (w op : Nat) (x : Work) : Prop :=
  s.works.find? w = some x ∧ x.opcode = op ∧ (x.stage = .running ∨ s.mayStart w x = true)

/-- On an ACTIVE pair that is not being deleted and has no completion waiting, a doorbell that announces at most N entries past the consumer count sets the producer count and changes
nothing else; one that announces more puts the pair into ERROR_DOORBELL and sets ATTN; a doorbell of a queue that does not exist is
counted and ignored. A fetch of a slot whose OWN is set, and a recheck of one, take the entry; a fetch of a slot with OWN clear marks it
for a recheck, and a recheck that finds OWN clear still puts the pair into ERROR_OWN and sets ATTN. -/
def Obligations.DoorbellAndFetch : Prop :=
  ∀ (s : State) (f q : Nat) (p : BitVec 32),
    (s.pair f q = none → ∃ u, exec (.doorbell f q p) s = .next u ∧ (u.tenant f).doorIgnored = (s.tenant f).doorIgnored + 1 ∧
      (u.tenant f).pairs = (s.tenant f).pairs) ∧
    ∀ x, s.pair f q = some x → x.state = .active →
      (x.deleting = none → x.waiting = [] → (p.truncate 16 - x.c).toNat ≤ x.sqN →
        exec (.doorbell f q p) s = .next (s.updPair f q (fun y => { y with p := p.truncate 16 })) ∧
        (s.updPair f q (fun y => { y with p := p.truncate 16 })).pair f q = some { x with p := p.truncate 16 }) ∧
      (x.deleting = none → x.waiting = [] → x.sqN < (p.truncate 16 - x.c).toNat →
        exec (.doorbell f q p) s = .next (s.pairError f q .errorDoorbell) ∧ ((s.pairError f q .errorDoorbell).mbox f).attn = true) ∧
      (x.fetches = true → x.recheck = false → 128 ≤ getLE (s.readBytes x.slotAddr 64).1 3 1 →
        exec (.submissionFetch f q) s = .next (s.takeEntry f q x (s.readBytes x.slotAddr 64).1)) ∧
      (x.fetches = true → x.recheck = false → getLE (s.readBytes x.slotAddr 64).1 3 1 < 128 →
        ∃ u, exec (.submissionFetch f q) s = .next u ∧ u.pair f q = some { x with recheck := true }) ∧
      (x.recheck = true → 128 ≤ getLE (s.readBytes x.slotAddr 64).1 3 1 →
        exec (.ownRecheck f q) s = .next (s.takeEntry f q x (s.readBytes x.slotAddr 64).1)) ∧
      (x.recheck = true → getLE (s.readBytes x.slotAddr 64).1 3 1 < 128 →
        exec (.ownRecheck f q) s = .next (s.pairError f q .errorOwn) ∧ ((s.pairError f q .errorOwn).mbox f).attn = true)

/-- The head of a tenant's delayed commands becomes ready when the tenant is under its guarantee or the device is idle, and at DELAY_MAX is
refused by capacity and ends with that status. A waiting completion whose slot belongs to the device is written there, leaves the list,
and its message follows; with NOIRQ none does. The end of a coalescing interval sends the message it held back. Unmasking a vector or
a function's mask records it and sends every message of the function that was only masked by it. Extents that no task holds back any
more leave the retired list and the places in use. -/
def Obligations.RingEngineEvents : Prop :=
  ∀ (s : State) (f q v : Nat),
    (∀ id w r, s.delayedOf f = (id, w) :: r →
      ((s.tenant f).underGuar = true ∨ s.deviceIdle = true →
        exec (.delayedStart f) s = .next (s.updWork id (fun y => { y with stage := .ready, qtime := s.ticks - y.tick }))) ∧
      exec (.delayTimeout f) s = .next (((s.updWork id (fun y => { y with disp := 3, qtime := 0 })).countDisp f 3).workDone id { status := 0x0202 })) ∧
    (∀ x k rest, s.pair f q = some x → x.waiting = k :: rest → 128 ≤ getLE (s.readBytes (x.cqBase + 16 * (x.t % x.cqN) + 5) 1).1 0 1 →
      let s1 := (s.writeBytes f (x.cqBase + 16 * (x.t % x.cqN)) k.bytes).updPair f q (fun x => { x with t := x.t + 1, waiting := rest })
      let s2 := if k.noirq then s1 else s1.pairMessage f q
      exec (.completionWrite f q) s = .next ((s2.unwaitFor k.covers).settleCancels s2.works.length)) ∧
    (∀ x, s.pair f q = some x → x.waiting = [] → exec (.completionRecheck f q) s = .next s) ∧
    (∀ x k, s.pair f q = some x → x.waiting = [k] → 128 ≤ getLE (s.readBytes (x.cqBase + 16 * (x.t % x.cqN) + 5) 1).1 0 1 →
      ((s.writeCompletion f q).pair f q).map (fun y => y.t) = some (x.t + 1) →
      exec (.completionRecheck f q) s = .next ((s.writeCompletion f q).drainCompletions f q 255)) ∧
    (∀ x, s.pair f q = some x → x.msgHeld = true → exec (.coalesceExpiry f q) s =
      .next ((s.updPair f q (fun x => { x with msgHeld := false, lastMsg := some s.ticks })).signal f x.vector)) ∧
    (v < 64 → ∃ u, exec (.msixUnmask f v) s = .next u ∧ (f * 64 + v) ∈ u.host.unmasked ∧
      (∀ k ∈ u.host.pba, k / 64 = f → ¬(k ∈ u.host.unmasked ∧ f ∈ u.host.fnUnmasked)) ∧
      (∀ k ∈ s.host.pba, k ∈ u.host.pba ∨ k ∈ u.host.sent)) ∧
    (64 ≤ v → ∃ u, exec (.msixUnmask f v) s = .next u ∧ f ∈ u.host.fnUnmasked ∧
      (∀ k ∈ u.host.pba, k / 64 = f → ¬(k ∈ u.host.unmasked ∧ f ∈ u.host.fnUnmasked)) ∧
      (∀ k ∈ s.host.pba, k ∈ u.host.pba ∨ k ∈ u.host.sent)) ∧
    (∃ u, exec (.extentReturn f) s = .next u ∧ (∀ p ∈ (u.tenant f).retired, p.2 ≠ []) ∧
      (∀ p ∈ (s.tenant f).retired, p.2 = [] → p.1 ∉ (u.tenant f).used) ∧
      (∀ p ∈ (s.tenant f).retired, p.2 ≠ [] → p ∈ (u.tenant f).retired))

/-- When a command ends that has not ended yet, is in no batch and whose completion nobody discards, and its pair is not being deleted:
it leaves the fetched commands, and one completion with its tag, the status and its disposition stands last among those the pair has to
write. -/
def Obligations.EndedCommandCompletes : Prop :=
  ∀ (s : State) (w : Nat) (x : Work) (p : QPair) (r : WorkResult), s.works.find? w = some x → x.result = none → x.silent = false →
    x.stopped = false → s.pair x.f x.q = some p → p.deleting = none → w ∉ p.batch → (∀ b ∈ p.batches, w ∉ b) →
    (s.endOne w r).works.find? w = none ∧
    ∃ y k, (s.endOne w r).pair x.f x.q = some y ∧ y.waiting = p.waiting ++ [k] ∧ k.tag = x.tag ∧ k.status = r.status ∧ k.disp = x.disp ∧
      k.count = 1 ∧ y.t = p.t ∧ y.c = p.c

/-- When a ring command begins: NOP and FLUSH end with SUCCESS; QUERY_RUN, with a resident slot free and its parameter copy and breaker
directory placed, makes its query resident and expands it; QUERY_CANCEL cancels the queries with its tag and waits for their completions; a
column write or append that has begun takes the next segment's rows, a column read hands its rows over, DROP drops the object; DMA_COPY,
COMPRESS, DECOMPRESS and DIGEST with a slot of the work area, a flag and a channel or engine free give their job to it. -/
def Obligations.RingCommandsBegin : Prop :=
  ∀ (s : State) (w : Nat) (x : Work),
    (Begins s w 0 x → exec (.nop w) s = .next (s.workDone w { status := 0 })) ∧
    (Begins s w 6 x → exec (.flush w) s = .next (s.workDone w { status := 0 })) ∧
    (Begins s w 1 x → x.stage ≠ .running → ∀ q qa s2, s.freeQslot x.f = some q → x.param = [] →
      (s.runWork w).place x.f (64 * max 1 ((imgOps ((((s.tenant x.f).images.find? (x.fld 8 1)).map (·.raw)).getD [])).filter OpRec.breaker).length) 64 = some (qa, s2) →
      exec (.queryRun w) s = .next (((s2.writeBytes x.f 0 []).updTenant x.f (fun t => { t with
        queries := t.queries ++ [(q, ({
          qseq := (s.tenant x.f).nextQ, image := x.fld 8 1, prio := x.prio % 8, work := w, param := 0, pbytes := [], qstate := qa,
          spillAddr := x.fld 0x18 8, spillLen := x.fld 0x20 8, locals := [qa] } : Query))],
        nextQ := (t.nextQ + 1) % 65536 })).queryPass x.f q 0)) ∧
    (Begins s w 2 x → x.stage ≠ .running →
      (∀ p ∈ s.works, (p.2.f == x.f && p.2.q == x.fld 8 1 && p.2.tag == x.fld 0x0A 2 && s.cancellable p.1 p.2) = false) →
      exec (.queryCancel w) s = .next (((s.runWork w).updWork w (fun y => { y with waitOn := [], cancelled := 0 })).settleCancels s.works.length)) ∧
    (Begins s w 3 x → x.stage = .running → x.drop = true → exec (.columnWrite w) s = .next ((s.dropObj x.f x.obj).colEnd w 0 0 0)) ∧
    (∀ i ∈ [(Instr.columnWrite w, 3), (Instr.columnAppend w, 4)], Begins s w i.2 x → x.stage = .running → x.drop = false →
      exec i.1 s = .next (s.ingestStep w x)) ∧
    (∀ i ∈ [(Instr.columnWrite w, 3), (Instr.columnAppend w, 4)], Begins s w i.2 x → x.stage = .ready → x.drop = false → s.colBad x = none →
      (∀ p ∈ s.works, ¬(p.2.opcode = 4 ∧ p.2.stage = .running)) → exec i.1 s = .next ((s.runWork w).ingestStep w x)) ∧
    (Begins s w 5 x → x.stage = .running → exec (.columnRead w) s = .next (s.readStep w x)) ∧
    (Begins s w 7 x → x.stage ≠ .running → ∀ a fl s1 u, s.takeSlot w x = some (a, fl, s1) →
      s1.giveXfer {
        f := x.f, block := a, status := a + 32, event := fl, epoch := s.epochOf x.f, inner := true, work := some w,
        given := copyDescs (x.src.length + x.dst.length + 257) x.src x.dst, next := a + 64 } = some u → exec (.dmaCopy w) s = .next u) ∧
    (∀ i ∈ [(Instr.compress w, 8), (Instr.decompress w, 9)], Begins s w i.2 x → x.stage ≠ .running →
      (s.cmpPick x.f (x.fld 8 1) = none → exec i.1 s = .next (s.workDone w { status := 0x010A })) ∧
      ∀ c a fl s1, s.cmpPick x.f (x.fld 8 1) = some c → s.takeSlot w x = some (a, fl, s1) →
        (s1.cmpPush c { f := x.f, desc := a, epoch := s.epochOf x.f, work := some w, given := some (x.cmpDesc fl) }).2 ≠ 1 →
        exec i.1 s = .next (s1.cmpPush c { f := x.f, desc := a, epoch := s.epochOf x.f, work := some w, given := some (x.cmpDesc fl) }).1) ∧
    (Begins s w 0x0A x → x.stage ≠ .running → x.fld 8 1 ≠ 1 → x.fld 9 1 % 2 ≠ 1 → ∀ e a fl s1 u,
      (List.range 4).find? (fun e => s.dgsOn e && (s.dgsMsg e x.f).isNone) = some e → s.takeSlot w x = some (a, fl, s1) →
      (s1.updDgs e (fun y => { y with
        msgs := y.msgs.set x.f {
          mode := x.fld 8 1, derive := false, event := fl, keySlot := x.fld 0x0A 1, dstSlot := x.fld 0x0B 1, declLen := x.fld 0x18 8,
          result := x.fld 0x20 8, save := a + 16128, epoch := s.epochOf x.f, work := some w,
          start := s.dgsStart (x.fld 8 1) (x.fld 0x0A 1) } })).giveXfer {
          f := x.f, block := a, status := a + 32, event := fl, epoch := s.epochOf x.f, inner := true, feeds := some w,
          given := feedDescs e (x.src.length + 65536 + 1) x.src, next := a + 64 } = some u →
      exec (.digest w) s = .next u)

/-- PIPELINE_EXPAND of a pipeline of a resident query that has not begun runs the query's pass over its pipelines; EXPANSION_RESUME of a
query that has not failed takes the pipeline's next morsel groups first. REFILL with an entry in a spill ring and 64 free on-chip places
within the tenant's own reservation moves up to 64 entries on chip; with empty rings it changes nothing. -/
def Obligations.ExpansionAndRefill : Prop :=
  ∀ (s : State) (f q p : Nat) (x : Query),
    ((s.tenant f).queries.find? q = some x → (x.pipes.getD p {}).begun = false → p < (imgPipes (s.rawOf f q)).length →
      exec (.pipelineExpand f q p) s = .next (s.queryPass f q 0)) ∧
    ((s.tenant f).queries.find? q = some x → x.failed = none →
      exec (.expansionResume f q p) s = .next ((s.expandGo f q p (x.pipes.getD p {}).morsels).queryPass f q 0)) ∧
    ((∃ k < 8, (s.disp f).ring k ≠ []) → (s.disp f).onchipUsed + 64 ≤ 128 → exec (.refill f) s = .next (s.refillGo f 64)) ∧
    ((∀ k < 8, (s.disp f).ring k = []) → exec (.refill f) s = .next s)

/-- WAITTASK in runtime mode outside a delay slot leaves the core waiting at it, with rd and the timeout in ra remembered, the tick at which the tile
began to idle, and every register as it was; in task mode it raises PRIV. A bound, enabled tile that waits, runs no task and is neither
rebound nor fenced takes the head of the ready list that the priority rule picks: its descriptor's address goes to rd and DSP_WSTAT reads 1,
the core goes on after the WAITTASK, the task runs there, and it leaves the list; the selection buffers are empty. A timeout gives rd 0
and DSP_WSTAT 3. -/
def Obligations.WaitingCores : Prop :=
  ∀ (s : State) (t : Nat) (rd ra : Reg),
    (Runs s t → ¬s.inSlot t → (s.core t).runtime = true → ∃ u, exec (.waittask t rd ra) s = .next u ∧
      (u.core t).wait = some { rd := rd, start := s.ticks, timeout := (s.core t).readG ra } ∧ (u.core t).pc = (s.core t).pc ∧
      (∀ r, (u.core t).readG r = (s.core t).readG r) ∧ (u.tile t).bind.idleSince = some s.ticks ∧ s.onlyTile t u) ∧
    (Runs s t → ¬s.inSlot t → (s.core t).runtime = false → (s.core t).exl = false → Traps (.waittask t rd ra) s t 2) ∧
    (∀ f w d rest k p, (s.tile t).bound = some f → (s.core t).wait = some w → (s.tile t).bind.next = none → (s.tile t).task = none →
      s.tileOn t = true → t ∉ s.rel.fenced → (s.disp f).nextPrio = some p → (s.disp f).onchip.getD p [] = d :: rest →
      s.taskOf f d = some k → k.once = false → ∃ u, exec (.taskAssign t) s = .next u ∧
        ((u.tile t).task).map (fun r => (r.f, r.desc)) = some (f, d) ∧ (u.core t).wait = none ∧ (u.core t).pc = (s.core t).pc + 4 ∧
        (w.rd ≠ 0 → (u.core t).readG w.rd = BitVec.ofNat 64 ((s.disp f).descAddr d)) ∧ (u.tile t).dsp.wstat = 1 ∧
        (u.tile t).stroke.sel = [] ∧ (u.disp f).onchip.getD p [] = rest ∧ (u.taskOf f d).map (fun k => k.at_) = some .running) ∧
    (∀ w, (s.core t).wait = some w → w.timeout ≠ 0 → ∃ u, exec (.waittaskTimeout t) s = .next u ∧ (u.core t).wait = none ∧
      (u.core t).pc = (s.core t).pc + 4 ∧ (w.rd ≠ 0 → (u.core t).readG w.rd = 0) ∧ (u.tile t).dsp.wstat = 3 ∧ s.onlyTile t u)

/-- A DSP_DONE write that names the task of its tile. DONE, with the last operator run, no failure and no LIMIT cut past the task: the task's tile and
descriptor are freed, its batches and Pips go to the next stage, its stage counts one task less, and the query moves on. FAILED fails the
query with DSP_DONE_STATUS and frees the task; CANCELLED frees it and looks at the end of a failed query; YIELD of a task of a live query
puts it at the tail of its ready list again. A write that names no task of the tile changes nothing. -/
def Obligations.TaskEnds : Prop :=
  ∀ (s : State) (t : Nat) (d : Word),
    (s.runOf t d = none → ∀ i ∈ [Instr.dispDone t d, .dispFailed t d, .dispCancelled t d, .dispYield t d], exec i s = .next s) ∧
    ∀ r k, s.runOf t d = some (r, k) →
      ((s.query r.f k.qslot).failed = none → k.opLast < r.op → s.pastCut r.f k = false →
        exec (.dispDone t d) s = .next ((((((((s.endTask t r).handOver r.f k r.batches).donePips r.f k (s.tile t).dsp.out).passSpilled
          r.f k r.batches).updPipe r.f k.qslot k.pipe (fun ps => { ps with left := ps.left.upd k.stage 0 (fun n => n - 1) })).doneRounds
          r.f k)).queryPass r.f k.qslot (s.tile t).dsp.out)) ∧
      exec (.dispFailed t d) s =
        .next (((s.failQuery r.f k.qslot (field (s.tile t).dsp.status 0 16)).endTask t r).finishFailed r.f k.qslot) ∧
      (s.pastCut r.f k = false → exec (.dispCancelled t d) s = .next ((s.endTask t r).finishFailed r.f k.qslot)) ∧
      (s.pastCut r.f k = false → (s.query r.f k.qslot).failed = none → exec (.dispYield t d) s =
        .next (((s.endTask t r).putTask r.f r.desc { k with at_ := .ready }).readyPut r.f r.desc)) ∧
      ((s.endTask t r).tile t).task = none

/-- A Pip for a waiting task, of the tenant's epoch and to a port that holds none, stores its value and sets the PRESENT bit, and the task
fires if that completes it; a Pip for a descriptor that holds no task is counted as stray. A pulse of an allocated flag in the tenant's
epoch sets it, any other is counted as stray. DSP_FLAGALLOC gives rd the lowest free flag, which is then allocated and clear, and 0xFF when
none is free; DSP_FLAGSET sets the allocated flags of its mask, and no other when no task waits for a flag. -/
def Obligations.PipsAndFlags : Prop :=
  ∀ (s : State) (f n t : Nat) (rd : Reg) (mask : Word),
    (∀ x, (s.pips.filter (fun x => x.f == f))[n]? = some x →
      let s1 : State := { s with pips := s.pips.erase x }
      (∀ k, s.taskOf f x.desc = some k → k.at_ = .waiting → x.epoch = s.epochOf f → (s.query f k.qslot).cancelled = false →
        k.present.getLsbD x.port = false → exec (.pipArrive f n) s = .next ((s1.putTask f x.desc { k with
          present := k.present ||| ((1 : BitVec 4) <<< x.port), opnd := k.opnd.set x.port x.value }).tryFire f x.desc)) ∧
      (s.taskOf f x.desc = none → ∃ u, exec (.pipArrive f n) s = .next u ∧ (u.disp f).strayPip = (s.disp f).strayPip + 1 ∧
        u.pips = s.pips.erase x)) ∧
    (∀ p r, pickFirst (fun (p : Pulse) => p.f == f && !p.trig && p.idx == n) s.pulses = some (p, r) →
      ((s.disp f).allocd.getLsbD n = true → p.epoch = s.epochOf f →
        exec (.eventPulse f n) s = .next (({ s with pulses := r } : State).setFlags f ((1 : Word) <<< n))) ∧
      (((s.disp f).allocd.getLsbD n = false ∨ p.epoch ≠ s.epochOf f) → ∃ u, exec (.eventPulse f n) s = .next u ∧
        (u.disp f).strayFlag = (s.disp f).strayFlag + 1 ∧ (u.disp f).flags = (s.disp f).flags)) ∧
    ((s.tile t).bound = some f →
      (∀ i < 64, (s.disp f).allocd.getLsbD i = false → (∀ j < i, (s.disp f).allocd.getLsbD j = true) →
        ∃ u, exec (.dspFlagalloc t rd) s = .next u ∧ (rd ≠ 0 → (u.core t).readG rd = BitVec.ofNat 64 i) ∧
          (u.disp f).allocd = (s.disp f).allocd ||| ((1 : Word) <<< i) ∧ (u.disp f).flags.getLsbD i = false) ∧
      ((∀ i < 64, (s.disp f).allocd.getLsbD i = true) → rd ≠ 0 → ∃ u, exec (.dspFlagalloc t rd) s = .next u ∧ (u.core t).readG rd = 0xFF) ∧
      exec (.dspFlagset t mask) s = .next (s.setFlags f mask) ∧
      ((∀ p ∈ (s.disp f).tasks, p.2.fmask = 0) →
        ((s.setFlags f mask).disp f).flags = (s.disp f).flags ||| (mask &&& (s.disp f).allocd)))

/-- A free enabled tile is rebound to the tenant that the rule picks, an idle one within its holder's guarantee is lent to it, and a lent tile that runs
no task goes back to a holder below its guarantee: each raises REBIND on the core, marks the new binding as begun and changes the binding itself only at the
acknowledgement, which comes while no task runs and the Blotter is empty. With no acknowledgement within its bound the tile is fenced. -/
def Obligations.TileBinding : Prop :=
  ∀ (s : State) (t f : Nat),
    let begun (u : State) (goal : Option Nat) (lent : Option Nat) : Prop :=
      (u.tile t).bind.next = some goal ∧ (u.tile t).bind.lentBy = lent ∧ (u.core t).qipend = (s.core t).qipend ||| 2 ∧
      (u.tile t).bound = (s.tile t).bound
    (s.tileOn t = true → s.tileFree t = true → s.taker (s.tile t).bound = some f →
      ∃ u, exec (.tileRebind t f) s = .next u ∧ begun u (some f) none ∧ u.bindLast = f) ∧
    (∀ h, (s.tile t).bound = some h → s.tileOn t = true → (s.tile t).task = none → (s.tile t).bind.next = none →
      (s.core t).wait.isSome = true → s.held h ≤ (s.tenant h).ent.tileGuar → s.taker (some h) = some f →
      ∃ u, exec (.tileLend t f) s = .next u ∧ begun u (some f) (some h) ∧ u.bindLast = f) ∧
    (∀ h, (s.tile t).bind.lentBy = some h → s.hasReady h = true → s.held h < (s.tenant h).ent.tileGuar → (s.tile t).task = none →
      (∀ p ∈ s.tiles, p.2.bind.lentBy = some h → p.2.bind.reclaim = false → t ≤ p.1) →
      ∃ u, exec (.tileReclaim t) s = .next u ∧ begun u (some h) none) ∧
    (∀ goal, (s.tile t).bind.next = some goal → (s.tile t).task = none → (s.tile t).stroke.blot = [] →
      ∃ u, exec (.bindAck t) s = .next u ∧ (u.tile t).bound = goal ∧ (u.tile t).bind.next = none ∧ u.core t = s.core t ∧ s.onlyTile t u) ∧
    ((s.tile t).bind.next.isSome = true → t ∉ s.rel.fenced → ∃ u, exec (.bindAckTimeout t) s = .next u ∧
      u.rel.fenced = t :: s.rel.fenced ∧ u.rel.fenceCount = s.rel.fenceCount + 1 ∧
      ∀ h ∈ s.slicesOn, ∃ m ∈ u.net, m.kind = .fence ∧ m.dst = 128 + h ∧ m.req = t)

/-- In the pass over plane p, with Nib n of the row and Nib c of the slot's constant: a slot in state U becomes LT when n is below c and GT
when it is above; when they are equal it becomes EQ in the last plane and stays U before it; a slot in any other state keeps it. After the
last plane no slot is in state U. -/
def Obligations.PlanePassStates : Prop :=
  ∀ (k : Stroke) (h : SegHdr) (p n i : Nat) (r : RowSt), i < k.slots →
    let c := k.constNib h i p
    ((k.stepRow h p n r).slot i =
      if r.slot i ≠ 0 then r.slot i else if n < c then 1 else if c < n then 2 else if p + 1 = h.nplanes then 3 else 0) ∧
    (p + 1 = h.nplanes → (k.stepRow h p n r).slot i ≠ 0)

/-- On an idle Stroke unit, START with an undefined MODE, or in compare mode with an undefined kind, ends with ERR 4. Where the header and directory
are read clean and pass R42: a compare run without zone pruning, with no order kind on a `DICT` segment, begins with BUSY set, at plane 0, every row of the segment in
the states that the constants and the segment's range settle and with its input selection combined; a run over a column without nulls in an aggregate mode that its transform allows begins with
the selected rows as candidates, their number in STK_COUNT and the accumulator 0. -/
def Obligations.StrokeRunBegins : Prop :=
  ∀ (s : State) (t : Nat), (s.stroke t).busy = false →
    let k := s.stroke t
    let kinds := (List.range k.slots).map k.kind
    ((4 < k.mode ∨ (k.mode = 0 ∧ ∃ x ∈ kinds, 5 < x)) → ∃ u, exec (.start t) s = .next u ∧ (u.stroke t).run = none ∧
      field (u.stroke t).stat 8 8 = 4 ∧ (u.stroke t).stat.getLsbD 1 = true) ∧
    ((s.readBytes k.addr 64).2 = false → (s.readBytes (k.addr + 0x40) 128).2 = false →
      hdrCheck (s.readBytes k.addr 64).1 (s.readBytes (k.addr + 0x40) 128).1 = none →
      let h := parseHdr (s.readBytes k.addr 64).1
      (k.mode = 0 → (∀ x ∈ kinds, x ≤ 5) → (h.xform = 4 → ∀ x ∈ kinds, x ≤ 1) → k.ctl.getLsbD 3 = false → ∃ u, exec (.start t) s = .next u ∧ (u.stroke t).stat.getLsbD 0 = true ∧
        (u.stroke t).lines = k.lines + 1 ∧ ∃ r, (u.stroke t).run = some r ∧ r.hdr = h ∧ r.plane = 0 ∧ r.rows.length = h.rows ∧
        ∀ i x, r.rows[i]? = some x → x.forced = (if h.nulls = h.rows then some false else k.combine i) ∧
          ∀ j < k.slots, x.slot j = k.startState h j) ∧
      ((k.mode = 1 ∧ h.xform ≠ 2 ∧ h.xform < 4) ∨ ((k.mode = 2 ∨ k.mode = 3) ∧ h.xform ≠ 4) ∨ k.mode = 4 →
        h.nulls = 0 → ∃ u, exec (.start t) s = .next u ∧ (u.stroke t).stat.getLsbD 0 = true ∧ (u.stroke t).accLo = 0 ∧ (u.stroke t).accHi = 0 ∧
        ∃ r, (u.stroke t).run = some r ∧ r.hdr = h ∧ r.plane = 0 ∧
          r.cand = (List.range h.rows).filter (fun i => (k.selBuf (field k.ctl 12 2)).getLsbD i && decide (h.nulls < h.rows)) ∧
          (u.stroke t).count = BitVec.ofNat 32 r.cand.length))

/-- While a pass is due and no line of it is Blot: in compare mode without forwarding and with an empty Blotter every undecided row takes its Nib and the
next plane is due; SUM adds the candidates' Nibs at their weight; MIN and MAX keep the candidates with the smallest and the largest Nib. With no pass due a
compare run over a column without nulls, and no forwarded row, writes its result to the output buffer and their number to STK_COUNT, and ends with DONE set,
BUSY clear and ERR 0; COUNT ends so with its count as it is. -/
def Obligations.StrokePassAndEnd : Prop :=
  ∀ (s : State) (t : Nat) (r : Run), (s.stroke t).run = some r →
    let k := s.stroke t
    let ended (u : State) : Prop := (u.stroke t).run = none ∧ field (u.stroke t).stat 8 8 = 0 ∧ (u.stroke t).stat.getLsbD 1 = true ∧
      (u.stroke t).stat.getLsbD 0 = false
    (k.passDue r = true → ∀ nib n, s.planeNibs k.addr r.hdr r.plane (k.live r) = (nib, false, n) →
      (k.mode = 0 → k.blot = [] → k.ctl.getLsbD 4 = false → ∃ u, exec (.strokePass t) s = .next u ∧ (u.stroke t).run = some { r with
        plane := r.plane + 1
        rows := (List.range r.rows.length).zipWith (fun i (x : RowSt) => if (k.decided x).isSome then x else k.stepRow r.hdr r.plane (nib i) x) r.rows } ∧
        (u.stroke t).lines = k.lines + BitVec.ofNat 64 n) ∧
      (k.mode = 1 → ∃ u, exec (.strokePass t) s = .next u ∧ (u.stroke t).run = some { r with
        plane := r.plane + 1
        acc := r.acc + (r.cand.map nib).sum * 16 ^ (r.hdr.nplanes - 1 - r.plane) }) ∧
      (k.mode = 2 ∨ k.mode = 3 → ∃ u r', exec (.strokePass t) s = .next u ∧ (u.stroke t).run = some r' ∧ r'.plane = r.plane + 1 ∧
        ∀ i, i ∈ r'.cand ↔ i ∈ r.cand ∧ ∀ j ∈ r.cand, if k.mode = 2 then nib i ≤ nib j else nib j ≤ nib i)) ∧
    (k.passDue r = false →
      (k.mode = 0 → r.hdr.nulls = 0 → k.selAddr.getLsbD 0 = false → k.blot = [] → ∃ u, exec (.runEnd t) s = .next u ∧ ended u ∧
        (∀ i, i < r.rows.length → i < r.hdr.rows → i < 65536 → ((u.stroke t).selBuf (field k.ctl 8 2)).getLsbD i =
          ((r.rows[i]?.bind (fun x => k.decided ((List.range k.slots).foldl (fun x j => if x.slot j = 0 then x.setSlot j 3 else x) x))).getD false)) ∧
        (∀ j, j ≠ field k.ctl 8 2 → (u.stroke t).selBuf j = k.selBuf j)) ∧
      (k.mode = 4 → ∃ u, exec (.runEnd t) s = .next u ∧ ended u ∧ (u.stroke t).count = k.count))

/-- ABORT of a busy Stroke unit ends the run with ERR 5 and DONE set and squashes its held entries; RESET_EST loads the estimator from
HINT. With no run, held execution over and every entry confirmed without a fault, BLOTTER_RELEASE frees all entries, releases their
outputs in row order, and adds the counter delta to QINSTRET. -/
def Obligations.StrokeAbortAndRelease : Prop :=
  ∀ (s : State) (t : Nat),
    let k := s.stroke t
    (k.busy = true → ∃ u, exec (.stkAbort t) s = .next u ∧ (u.stroke t).run = none ∧ field (u.stroke t).stat 8 8 = 5 ∧
      (u.stroke t).stat.getLsbD 1 = true ∧ (u.stroke t).blot = k.blot.filter (fun p => p.2.st != .held) ∧ u.core t = s.core t ∧ s.onlyTile t u) ∧
    (∃ u, exec (.resetEst t) s = .next u ∧ (u.stroke t).est = BitVec.ofNat 8 (field k.spec 12 8) ∧ (u.stroke t).blot = k.blot ∧
      (u.stroke t).run = k.run ∧ u.core t = s.core t ∧ s.onlyTile t u) ∧
    (k.busy = false → (s.core t).held = false → (∀ e ∈ k.blot, e.2.st = .confirmed ∧ e.2.fault = none) →
      ∃ u, exec (.blotterRelease t) s = .next u ∧ (u.stroke t).blot = [] ∧
        (u.core t).qinstret = (s.core t).qinstret + (s.core t).heldInstret ∧ (u.core t).heldInstret = 0 ∧
        ∃ l : List (Nat × Line), (u.stroke t).released = l.reverse ++ k.released ∧ l.Pairwise (fun a b => a.1 ≤ b.1) ∧
          ∀ x, x ∈ l ↔ ∃ e ∈ k.blot, x = (e.2.row, e.2.out))

/-- When the task of a tile has reached one of these operators and nothing fails: SCAN gives the rows that its objects' predicates select,
of an Arrow array, or of a breaker's result; FILTER keeps, in order, the rows that satisfy every entry; PROJECT maps its batches; COMPUTE takes
the output of a kernel that came back by SYSCALL 0, or begins its first batch; AGG_PLANE
takes its batch into its accumulator; MERGE gives its morsel of all runs' rows in order; TOPK
the first rows of each batch; LIMIT as many rows as its number leaves after the tasks before; LOOKUP_BRAMBLE searches each row's key; EMIT
writes whole pieces after those of the tasks before. The task goes on with the next operator and these batches. -/
def Obligations.RowOperators : Prop :=
  ∀ (s : State) (t : Nat),
    (∀ c, s.opCtx t 1 none = some c →
      (c.o.optAt 1 1 = 1 → (s.brkSchema c.f c.q c.o.obj).map (fun x => (x.width, x.xform, x.scale, x.dict)) =
          c.out.map (fun x => (x.width, x.xform, x.scale, x.dict)) →
        let l := s.brkRows c.f c.q c.o.obj
        let a := (tableMorsels l).getD c.task.morsel (0, 0)
        exec (.scan t) s = .next (s.opDone t [{ morsel := c.task.morsel, rows := (((l.getD a.1 []).drop a.2).take 65536).mapIdx (fun i v => {
          morsel := c.task.morsel, row := i,
          vals := List.zipWith (fun (y : Option Word) (d : FieldD) => y.map (fun w => BitVec.ofNat 64 (w.toNat % 2 ^ d.width))) v c.out }) }])) ∧
      (c.o.optAt 1 1 = 0 → c.o.optAt 2 1 = 1 → ∀ cols : List (List (Option Word)),
        let n := min 65536 (getLE c.blk 0 8 - 65536 * c.task.morsel)
        c.out.mapIdx (fun k x => s.arrowField c.f (cut c.blk (16 + 24 * k) 24) x (getLE c.blk 8 8 + 65536 * c.task.morsel) n) = cols.map .inr →
        exec (.scan t) s = .next (s.opDone t [{ morsel := c.task.morsel, rows := rowsOf c.task.morsel (List.range n) cols }])) ∧
      (c.o.optAt 1 1 = 0 → c.o.optAt 2 1 = 0 → (s.stroke t).busy = false → c.run.drive.isSome = true → ∀ s1 s2 s3 s4 s5 pruned d g cols,
        let es := scanEnts c.blk
        let zone := c.o.optAt 0 1 == 1
        (s.updStroke t (fun k => { k with spec := BitVec.ofNat 32 (c.o.optAt 8 20) })).checkObjs t c.f c.run.drive (es.map (·.obj)) = (s1, 0) →
        s1.runEnts t c.f c.task.morsel c.run.drive zone true (es.filter (·.pred)) = (s2, 0) →
        s2.topkRun t c c.task.morsel zone (es.filter (·.pred)).isEmpty es = (s3, 0, pruned) →
        s3.taskSeg t c.f ((es.map (·.obj)).headD 0) c.task.morsel c.run.drive = (s4, .inr (d, g)) →
        let idx := if (es.filter (·.pred)).isEmpty && !pruned then List.range g.hdr.rows else (s4.stroke t).selRows g.hdr.rows
        s4.loadFields t c.f c.task.morsel c.run.drive idx (c.out.mapIdx (fun k x =>
          (((es.find? (fun e => e.project && e.field == k)).map (·.obj)).getD 0, x))) = (s5, .inr cols) →
        exec (.scan t) s = .next (s5.opDone t [{ morsel := c.task.morsel, rows := rowsOf c.task.morsel idx cols }]))) ∧
    (∀ c, s.opCtx t 2 none = some c →
      (c.o.optAt 0 1 = 0 → (∀ e ∈ scanEnts c.blk, e.field < c.inp.length ∧ ((c.inp.getD e.field noField).xform = 4 → e.ranged = false)) →
        exec (.filter t) s = .next (s.opDone t (c.run.batches.map (fun b => { b with
          rows := b.rows.filter (fun r => (scanEnts c.blk).all (fun e => e.holds (c.inp.getD e.field noField) (r.vals.getD e.field none))) })))) ∧
      (c.o.optAt 0 1 = 1 → (s.stroke t).busy = false → ∀ e l b s1 x, scanEnts c.blk = e :: l → c.run.batches = [b] →
        s.filterRun t c e b = (s1, .inr x) → exec (.filter t) s = .next (s1.opDone t [x]))) ∧
    (∀ c b s1 x, s.opCtx t 3 none = some c → c.run.batches = [b] → s.projectBatch t c b = (s1, .inr x) →
      exec (.project t) s = .next (s1.opDone t [x])) ∧
    (∀ c, s.opCtx t 4 none = some c → (c.run.batches = [] → exec (.compute t) s = .next (s.opDone t [])) ∧
      (∀ b rest, c.run.batches = b :: rest → (s.core t).wait = none → (s.core t).stall = none →
        exec (.compute t) s = .next (s.enterKernel t c b rest []))) ∧
    (∀ r k c o, (s.tile t).task = some r → r.kernel = some k →
      (s.updTile t (fun x => { x with task := x.task.map (fun r => { r with kernel := none }) })).opCtx t 4 none = some c →
      (s.core t).runtime = true → field (s.core t).qcause 0 8 = 7 → field (s.core t).qcause 16 12 = 0 →
      ((s.core t).readG 1).toNat ≤ k.rows → s.kernelOut c k ((s.core t).readG 1).toNat = some o → k.todo = [] →
      exec (.compute t) s = .next ((s.leaveKernel t c k).opDone t (k.done ++ [o]))) ∧
    (∀ c, s.opCtx t 8 none = some c → (s.stroke t).busy = false → (c.run.batches = [] → exec (.aggPlane t) s = .next (s.opDone t [])) ∧
      ∀ b s1, c.run.batches = [b] → s.planeBatch t c b = (s1, 0) → exec (.aggPlane t) s = .next (s1.opDone t [])) ∧
    (∀ c, s.opCtx t 0x0A none = some c → s.preBytes c ≤ s.budgetOf c.f c.q c.i →
      exec (.merge t) s = .next (s.opDone t [{ morsel := c.task.morsel, rows := (((sortBy keyLe ((s.brkOf c.f c.q c.o.obj).runs.flatMap (·.rows))).drop
        (65536 * c.task.morsel)).take 65536).mapIdx (fun i x => { x.2 with morsel := c.task.morsel, row := i }) }])) ∧
    (∀ c b, s.opCtx t 0x0B none = some c → c.run.batches = [b] →
      let y := topkBatch c.o.count ((s.query c.f c.q).thetas.getD c.i (2 ^ 64 - 1)) (c.keyed b.rows)
      exec (.topk t) s = .next ((s.updQuery c.f c.q (fun x => { x with thetas := x.thetas.set c.i y.2 })).opDone t [{ b with rows := y.1 }])) ∧
    (∀ c n, s.opCtx t 0x0C none = some c → c.task.once = true → c.task.seq = 0 →
      n = (c.run.batches.map (fun b => b.rows.length)).sum → ∀ l : LimitSt, l = (s.query c.f c.q).limits.getD c.i {} →
      exec (.limit t) s = .next ((s.updQuery c.f c.q (fun x => { x with limits := x.limits.set c.i { l with counts := l.counts.set 0 n } })).opDone t
        (batchRows (firstRows c.o.count c.run.batches)))) ∧
    (∀ c, s.opCtx t 0x11 none = some c → exec (.lookupBramble t) s =
      .next ((s.brmCount c.o.obj (c.run.batches.map (fun b => b.rows.length)).sum).opDone t (c.run.batches.map (s.lookupBatch c)))) ∧
    (∀ c n, s.opCtx t 0x12 none = some c → s.emitBefore c = some n →
      (c.o.optAt 0 2 = 2 → c.run.batches = [] → c.inp = [] →
        exec (.emit t) s = .next ((s.updQuery c.f c.q (fun x => { x with emits := x.emits.upd c.i [] (fun e => e.set c.task.seq (0, 0)) })).opDone t [])) ∧
      (c.o.optAt 0 2 ≠ 2 →
        let base := (if c.o.optAt 0 2 = 0 then 2 ^ 56 + getLE c.blk 0 8 % 2 ^ 56 else getLE c.blk 0 8) + n
        let ps := s.emitPieces c c.run.batches
        ∀ l, piecesIn (getLE c.blk 8 8 - n) ps.1 = (l, true) → ps.2.rangeOk c.f base l.length 2 = true →
        exec (.emit t) s = .next (((ps.2.writeBytes c.f base l).updQuery c.f c.q (fun x => { x with
          emitted := x.emitted + l.length
          emits := x.emits.upd c.i [] (fun e => e.set c.task.seq (ps.1.length, l.length)) })).opDone t [])))

/-- When the task of a tile has reached one of these operators and nothing fails for want of memory or format: HASH_BUILD adds its rows to their
partitions and writes the directory entries it touched, HASH_PROBE gives its joined rows, AGG_HASH takes its rows into their groups; an index task, a finalisation task and a
spilled sub-partition finish their partition; SORT_RADIX makes a run of each batch, EXCHANGE stages its rows, COMPRESS writes its frames and DECOMPRESS gives
their rows, and DIGEST, fed with its batches, passes them unchanged. The task goes on with the next operator. -/
def Obligations.BreakerOperators : Prop :=
  ∀ (s s1 : State) (t : Nat) (c : OpCtx),
    (s.opCtx t 5 none = some c →
      let rows := c.run.batches.flatMap (·.rows)
      rows.foldl (fun (a : Option State) r => a.bind (fun s =>
        s.buildRow c ((maskFields (c.o.optAt 16 16)).map (fun k => c.inp.getD k noField)) r)) (some s) = some s1 →
      exec (.hashBuild t) s = .next ((s1.joinDir c.f c.q c.i
        ((rows.map (fun r => hPart c.o.lgParts (hashKey (rowKey c.inp (c.o.optAt 0 16) r)))).eraseDups)).opDone t [])) ∧
    (s.opCtx t 5 (some 0) = some c → s.indexPart c ((c.task.special.map (·.2)).getD 0) = some s1 →
      exec (.indexTask t) s = .next (s1.opDone t [])) ∧
    (s.opCtx t 6 none = some c → s.probeDicts c = false → ∀ b l, c.run.batches = [b] → s.probeBatch c b = some (s1, l) →
      exec (.hashProbe t) s = .next (s1.opDone t l)) ∧
    (s.opCtx t 6 (some 2) = some c →
      let w := (c.task.special.map (·.2)).getD 0
      ∀ rows, s.subJoin c (w / 16 % 4096) (w % 16) = some (s1, rows) →
      exec (.spillSubpartition t) s = .next ((s1.joinDir c.f c.q c.o.in1 [w / 16 % 4096]).opDone t (batchRows rows))) ∧
    (s.opCtx t 7 none = some c → (∀ a ∈ c.aggs, a.field < c.inp.length ∧ aggTakes a.fn a.d = true) →
      (c.run.batches = [] → exec (.aggHash t) s = .next (s.opDone t [])) ∧
      (∀ b s2, c.run.batches = [b] →
        (if c.o.det then s.aggBatch c b else b.rows.foldl (fun (a : Option State) r => a.bind (fun s => s.aggRow c r)) (some s)) = some s2 →
        ((b.rows.map (fun r => hPart c.o.lgParts (hashKey (rowKey c.inp (c.o.optAt 0 16) r)))).eraseDups).foldl
          (fun (a : Option State) p => a.bind (fun s => s.syncGroups c p)) (some s2) = some s1 →
        exec (.aggHash t) s = .next (s1.opDone t []))) ∧
    (s.opCtx t 7 (some 1) = some c → s.finalPart c ((c.task.special.map (·.2)).getD 0) = .inr s1 →
      exec (.finalisationTask t) s = .next (s1.opDone t [])) ∧
    (s.opCtx t 9 none = some c → c.run.batches.foldl (fun (a : Option State) b => a.bind (fun s => s.sortRun c b)) (some s) = some s1 →
      exec (.sortRadix t) s = .next (s1.opDone t [])) ∧
    (s.opCtx t 0x0D none = some c → ∀ id x, s.xchgOf c.f c.q c.i = some (id, x) →
      (c.run.batches.foldl (stageBatch c c.task) x).used ≤ s.budgetOf c.f c.q c.i →
      exec (.exchange t) s = .next ((s.updXchg id (fun _ => c.run.batches.foldl (stageBatch c c.task) x)).opDone t [])) ∧
    (s.opCtx t 0x0E none = some c → ∀ b l, c.run.batches = [b] →
      let y := s.compressBatch c b
      let pos := (s.query c.f c.q).frames.getD c.i 0
      piecesIn (getLE c.blk 8 8 - pos) (y.1.frames.map (·.bytes)) = (l, true) → y.2.rangeOk c.f (getLE c.blk 0 8 + pos) l.length 2 = true →
      exec (.opCompress t) s = .next (((y.2.writeBytes c.f (getLE c.blk 0 8 + pos) l).updQuery c.f c.q (fun x => { x with
        frames := x.frames.set c.i (pos + l.length) })).opDone t [y.1])) ∧
    (s.opCtx t 0x0F none = some c →
      (c.o.in0 ≠ 0xFFFF → ∀ l : List Batch, (c.run.batches.flatMap (frameGroups c.out.length)).map (decompressBatch c) = l.map .inr →
        exec (.opDecompress t) s = .next (s.opDone t l)) ∧
      (c.o.in0 = 0xFFFF → exec (.opDecompress t) s = .next (s.decompressSource t c))) ∧
    (s.opCtx t 0x10 none = some c → c.o.optAt 0 1 = 0 → c.o.optAt 1 1 = 0 → s.rangeOk c.f (getLE c.blk 0 8) 32 2 = true → ∀ b, c.run.batches = [b] →
      let y := s.digestBytes c b
      let fed (x : DgsCtx) : DgsCtx := (x.feed y.1).1
      let start := s.dgsStart 0 (c.o.optAt 8 6)
      exec (.opDigest t) s =
        .next ((y.2.updQuery c.f c.q (fun x => { x with digests := x.digests.set c.i (fed (x.digests.getD c.i start)) })).opDone t [b]))

/-- The order of R150 sorts any rows into an ascending list with the same rows. TOPK passes on at most K rows of a batch, every row with a
non-null key among them at or below the threshold, and never raises the threshold. LIMIT passes at most the rows its number leaves, in (morsel, row) order, all from its batches. An operator
that is done leaves its task at the next operator with its output, and nothing else changed. -/
def Obligations.RowOrderAndLimits : Prop :=
  (∀ l : List (Option Nat × Row), (sortBy keyLe l).Perm l ∧ (sortBy keyLe l).Pairwise (fun a b => keyLe a b = true)) ∧
  (∀ (k th : Nat) (l : List (Option Nat × Row)), (topkBatch k th l).1.length ≤ k ∧ (topkBatch k th l).2 ≤ th ∧
    ∀ r ∈ (topkBatch k th l).1, ∃ x ∈ l, x.2 = r ∧ ∀ v, x.1 = some v → v ≤ th) ∧
  (∀ (n : Nat) (bs : List Batch), (firstRows n bs).length ≤ n ∧ (∀ r ∈ firstRows n bs, ∃ b ∈ bs, r ∈ b.rows) ∧
    (firstRows n bs).Pairwise (fun a b => lineageLe a.morsel a.row b.morsel b.row = true)) ∧
  (∀ (s : State) (t : Nat) (bs : List Batch),
    ((s.opDone t bs).tile t).task = (s.tile t).task.map (fun r => { r with op := r.op + 1, batches := bs }) ∧
    (s.opDone t bs).core t = s.core t ∧ s.onlyTile t (s.opDone t bs))

/-- For a line number a below 2^50 and with either space bit, x is (a xor (a >> 25)) mod 2^32, f is bits 31 to 16 of x times 0x9E37_79B1, j is
(f * 768) >> 16, below 768, and the home is entry j of the home map; the space bit does not matter. The line of the spec's example goes to entry
537, and to tile 57 where that entry is the (537 mod 96)-th of 96 enabled slices. -/
def Obligations.HomeOfLine : Prop :=
  (∀ (s : State) (a : BitVec 50) (host : Bool), let line := a.toNat + (if host then 2 ^ 50 else 0)
    let x : BitVec 32 := (a ^^^ (a >>> 25)).truncate 32
    let f := ((x * 0x9E3779B1#32) >>> 16).toNat
    let j := f * 768 / 2 ^ 16
    j < 768 ∧ s.homeOf line = s.homeEntry j) ∧
  ∀ s : State, s.homeOf 0x12008D = s.homeEntry 537 ∧ (s.homeMap = [] → s.part = .aq680 → s.slicesOff = [] → s.homeOf 0x12008D = 57)

/-- A posted core-class request whose home queue has room is taken out of the mesh and arrives: with nothing of the line open, the set not full and the
home not draining it starts, and else it waits at the end of the queue. A request of the IO class that was sent arrives so too, and one that finds the line open gets
NACK. A NACK makes the agent wait 8 fabric cycles, twice as long each time up to 1,024, and sets STARVE with the eighth; after the delay it is sent again. IODONE ends the agent's write.
HOME_QUEUE_START starts the first queued request whose line and set are free for it. -/
def Obligations.RequestsAtHome : Prop :=
  ∀ (s : State) (a line : Nat),
    (∀ i ∈ [(Instr.rdS a line, MKind.rdS), (.rdH a line, .rdH), (.rdX a line, .rdX), (.upg a line, .upg), (.rdOnce a line, .rdOnce)],
      (s.slice (s.homeOf line)).queueRoom = true → ∀ m u, s.take (fun m => m.kind == i.2 && m.src == a && m.line == line) = some (m, u) →
      exec i.1 s = .next (u.homeArrive m) ∧
      ((u.slice (u.homeOf line)).fenced.getLsbD a = false → a < 96 →
        (u.rel.draining = false → u.lineBusy line = false → u.setFull line = false → (u.slice (u.homeOf line)).queue = [] →
          u.homeArrive m = u.homeStart m) ∧
        (u.lineBusy line = true →
          ((u.homeArrive m).slice (u.homeOf line)).queue = (u.slice (u.homeOf line)).queue ++ [m]))) ∧
    (∀ q, s.ioReq a line = some q → q.waiting = false → q.atHome = false → 96 ≤ a → a < 127 →
      (q.wr = none → exec (.ioRd a line) s = .next ((s.updIo a line (fun q => { q with atHome := true })).homeArrive {
        kind := .ioRd, src := a, dst := 128 + s.homeOf line, line, owner := q.owner, starve := q.starve })) ∧
      (∀ w, q.wr = some w → exec (.ioWr a line) s = .next ((s.updIo a line (fun q => { q with atHome := true })).homeArrive {
        kind := .ioWr, src := a, dst := 128 + s.homeOf line, line, owner := q.owner, data := some w.1, mask := w.2.1, blot := w.2.2, starve := q.starve })) ∧
      (q.wr = none → q.starve = false → s.lineBusy line = true → ∃ u, exec (.ioRd a line) s = .next u ∧
        (u.slice (s.homeOf line)).nack = (s.slice (s.homeOf line)).nack + 1 ∧ ∃ m ∈ u.net, m.kind = .nack ∧ m.dst = a ∧ m.line = line)) ∧
    (∀ m u q, s.take (fun m => m.kind == .nack && m.dst == a && m.line == line) = some (m, u) → s.ioReq a line = some q →
      ∃ v, exec (.nack a line) s = .next v ∧ v.ioReq a line = some { q with
        nacks := q.nacks + 1
        waiting := true
        delay := if q.starve then 1024 else min 1024 (8 * 2 ^ q.nacks)
        starve := q.starve || decide (8 ≤ q.nacks + 1) }) ∧
    (∀ q, s.ioReq a line = some q → q.waiting = true → ∃ v, exec (.nackRetry a line) s = .next v ∧
      v.ioReq a line = some { q with waiting := false, atHome := false }) ∧
    (∀ m u, s.take (fun m => m.kind == .iodone && m.dst == a && m.line == line) = some (m, u) → ¬(96 ≤ a ∧ a < 104) →
      exec (.iodone a line) s = .next ((u.ioEnd a line).answer a line none false)) ∧
    (∀ h m, s.rel.draining = false → s.nextQueued (s.slice h).queue [] = some m →
      exec (.homeQueueStart h) s = .next ((s.updSlice h (fun sl => { sl with queue := eraseFirst m sl.queue })).homeStart m))

/-- For a device line whose entry the host holds no copy of, and a requester that is not fenced: in N or with its data at hand RD_S, RD_X and UPG
are granted E with the data and the entry becomes EX with the requester alone; RD_H is granted L. In EX, RD_S and RD_H cause FWD_S, RD_X and UPG FWD_X, and RD_ONCE and
IO_RD FWD_ONCE, to the holder. In SH, RD_X and a partial or whole IO_WR of a shared line send INV to the sharers but the requester and wait for them. With no data at hand in N memory is
asked. -/
def Obligations.HomeTable : Prop :=
  ∀ (s : State) (x : Txn) (e : DirEntry), isHostLine x.msg.line = false →
    let line := x.msg.line
    let h := s.homeOf line
    let t := x.msg.src
    (s.slice h).dirWay line = some x.way → (s.slice h).dir.find? x.way = some e → e.h = false →
    (∀ d, e.state = .n → s.txnData x = some (d, false) → x.msg.isCore = true → (s.slice h).fenced.getLsbD t = false → s.isolated t = false →
      (x.msg.kind = .rdS ∨ x.msg.kind = .rdX ∨ x.msg.kind = .upg →
        (∃ m ∈ (s.homeGo x).net, m.kind = .gnt ∧ m.dst = t ∧ m.line = line ∧ m.st = some .e ∧ m.data = some d ∧ m.blot = false) ∧
        ((s.homeGo x).slice h).dir.find? x.way = some { e with state := .ex, ptrs := [t], lv := false, ovf := false, owner := x.msg.owner }) ∧
      (x.msg.kind = .rdH →
        (∃ m ∈ (s.homeGo x).net, m.kind = .gnt ∧ m.dst = t ∧ m.line = line ∧ m.st = some .l ∧ m.data = some d ∧ m.blot = false) ∧
        ((s.homeGo x).slice h).dir.find? x.way = some (e.addSharer t true))) ∧
    (e.state = .n → s.txnData x = none → (x.msg.kind = .rdS ∨ x.msg.kind = .rdX ∨ x.msg.kind = .upg ∨ x.msg.kind = .rdH) →
      s.homeGo x = s.askData x) ∧
    (e.state = .ex → s.isolated (e.ptrs.headD 0) = false → ∀ k f,
      (x.msg.kind, k) ∈ [(MKind.rdS, MKind.fwdS), (.rdH, .fwdS), (.rdX, .fwdX), (.upg, .fwdX), (.rdOnce, .fwdOnce), (.ioRd, .fwdOnce)] →
      f = ({ kind := k, src := 128 + h, dst := e.ptrs.headD 0, line := line, req := t } : Msg) →
      (s.homeGo x).net = s.net ++ [f] ∧ ((s.homeGo x).slice h).dir = (s.slice h).dir) ∧
    (e.state = .sh → x.msg.kind = .rdX → s.invTargets e (some t) ≠ [] →
      s.homeGo x = (s.putTxn { x with phase := .inv, acks := s.invTargets e (some t) }).sendInvs line (s.invTargets e (some t))) ∧
    (e.state ≠ .n → x.msg.kind = .ioWr →
      s.homeGo x = (s.putTxn { x with phase := .inv, acks := s.invTargets e none }).sendInvs line (s.invTargets e none))

/-- A forward or INV that reaches a tile whose L1D is free of parity errors is answered. From a copy in D or E, FWD_S leaves it in L and FWD_X in I, each with DATA to the requester and FACK to the home, which
for FWD_S from D carries the line and for FWD_X the dirty flag; FWD_ONCE leaves the copy as it is. INV leaves I and answers WBDATA with the line from D and INVACK from any other state;
with no copy the answers are NOLINE and INVACK. GNT and DATA of a request in flight are recorded and every request that is complete installed; DATA ends an edge
agent's read. WBACK and DECLINE empty the line's victim-buffer entry. -/
def Obligations.TileAnswers : Prop :=
  ∀ (s u : State) (t line : Nat) (m : Msg),
    (s.soundL1 t →
      ∀ i ∈ [(Instr.fwdS t line, MKind.fwdS), (.fwdX t line, .fwdX), (.fwdOnce t line, .fwdOnce), (.inv t line, .inv)],
      s.take (fun m => m.kind == i.2 && m.dst == t && m.line == line) = some (m, u) → exec i.1 s = .next (u.answerFwd t m)) ∧
    (m.line = line → s.isolated t = false → s.isolated m.req = false → s.isolated m.src = false → m.req ≠ 127 →
      let back (k : MKind) (d : Option Line) (dirty : Bool) : Msg := { kind := k, src := t, dst := m.src, line := line, req := m.req, data := d, dirty := dirty }
      let give (d : Line) (dirty : Bool) : Msg := { kind := .data, src := t, dst := m.req, line := line, data := some d, dirty := dirty }
      (∀ st d vb, (s.tile t).l1.copy line = some (st, d, vb) → (st = .e ∨ st = .d) →
        (m.kind = .fwdS → (s.answerFwd t m).net = s.net ++ [give d false, back .fack (if st = .d then some d else none) (st == .d)] ∧
          ((s.answerFwd t m).tile t).l1 = (s.tile t).l1.moveCopy line .l vb) ∧
        (m.kind = .fwdX → (s.answerFwd t m).net = s.net ++ [give d (st == .d), back .fack none (st == .d)] ∧
          ((s.answerFwd t m).tile t).l1 = (s.tile t).l1.moveCopy line .i vb) ∧
        (m.kind = .fwdOnce → (s.answerFwd t m).net = s.net ++ [give d false, back .fack none false] ∧
          ((s.answerFwd t m).tile t).l1 = (s.tile t).l1)) ∧
      (∀ st d vb, (s.tile t).l1.copy line = some (st, d, vb) → m.kind = .inv →
        (s.answerFwd t m).net = s.net ++ [if st = .d then back .wbdata (some d) true else back .invack none false] ∧
        ((s.answerFwd t m).tile t).l1 = (s.tile t).l1.moveCopy line .i vb) ∧
      ((s.tile t).l1.copy line = none → (m.kind = .fwdS ∨ m.kind = .fwdX ∨ m.kind = .fwdOnce ∨ m.kind = .inv) →
        s.answerFwd t m = { s with net := s.net ++ [back (if m.kind = .inv then .invack else .noline) none false] })) ∧
    (s.isolated t = false → (∃ q ∈ (s.tile t).l1.reqs, q.line = line) →
      (s.take (fun m => m.kind == .gnt && m.dst == t && m.line == line) = some (m, u) →
        exec (.gnt t line) s = .next ((u.updL1 t (fun c => { c with reqs := c.reqs.map (fun q => if q.line = line then { q with
          grant := some m.st
          data := match m.data with | some d => some d | none => q.data
          blot := q.blot || m.blot } else q) })).installAll t)) ∧
      (t < 96 → s.take (fun m => m.kind == .data && m.dst == t && m.line == line) = some (m, u) →
        exec (.data t line) s = .next ((u.updL1 t (fun c => { c with reqs := c.reqs.map (fun q => if q.line = line then { q with
          data := m.data
          dirty := m.dirty
          blot := q.blot || m.blot } else q) })).installAll t))) ∧
    (96 ≤ t → s.take (fun m => m.kind == .data && m.dst == t && m.line == line) = some (m, u) →
      exec (.data t line) s = .next ((u.ioEnd t line).answer t line m.data m.blot)) ∧
    (∀ i ∈ [(Instr.wback t line, MKind.wback), (.decline t line, .decline)],
      s.take (fun m => m.kind == i.2 && m.dst == t && m.line == line) = some (m, u) →
      exec i.1 s = .next ((u.updL1 t (fun c => { c with vbuf := c.vbuf.filter (fun v => v.line != line) })).installAll t))

/-- FACK, NOLINE, INVACK and WBDATA of a tile reach the home, which goes on with the transaction that waits for them and then acknowledges the victims it held for the tile; CMP_ACK of the requester
closes its transaction. A victim reaches its home: WB_DIRTY of the exclusive holder with no forward to it outstanding leaves the line in Orchard, the entry without the tile, and WBACK on its
way. A tile that has not answered a forward is fenced; FENCE sets the home's bit and starts its scan; at the dispatcher it fails the tile's task; a scan step applies the fences to one set. -/
def Obligations.AnswersAtHome : Prop :=
  ∀ (s u : State) (t line h k : Nat) (m : Msg),
    (∀ i ∈ [(Instr.fack t line, MKind.fack, State.homeFack), (.noline t line, .noline, State.homeNoline), (.invack t line, .invack, State.homeAck),
        (.wbdata t line, .wbdata, State.homeAck)],
      s.take (fun m => m.kind == i.2.1 && m.src == t && m.line == line) = some (m, u) → exec i.1 s = .next ((i.2.2 u m).drainSink line t)) ∧
    (∀ x, s.take (fun m => m.kind == .cmpAck && m.src == t && m.line == line) = some (m, u) → u.txn line = some x → x.msg.src = t → x.phase = .cmp →
      exec (.cmpAck t line) s = .next ((u.closeTxn line).drainSink line t) ∧ (u.closeTxn line).lineBusy line = false) ∧
    (∀ i ∈ [(Instr.wbDirty t line, MKind.wbDirty), (.victClean t line, .victClean), (.victDrop t line, .victDrop)],
      s.take (fun m => m.kind == i.2 && m.src == t && m.line == line) = some (m, u) → exec i.1 s = .next (u.homeVictim m)) ∧
    (m.kind = .wbDirty → m.blot = false → (s.slice (s.homeOf m.line)).fenced.getLsbD m.src = false → s.fwdOutstanding m.line m.src = false →
      s.records m.line m.src = true → s.isEx m.line = true →
      s.homeVictim m = ((s.orcPut m.line (s.ownerOf m.line) (m.data.getD 0) true false).dropClean m.line m.src).send
        { kind := .wback, src := 128 + s.homeOf m.line, dst := m.src, line := m.line }) ∧
    (s.fwdOutstanding line t = true → t ∉ s.rel.fenced → ∃ v, exec (.fenceTimeout t line) s = .next v ∧
      v.rel.fenced = t :: s.rel.fenced ∧ v.rel.fenceCount = s.rel.fenceCount + 1) ∧
    (s.take (fun m => m.kind == .fence && m.dst == 128 + h && m.req == t) = some (m, u) →
      (h < 96 → exec (.fenceMessage h t) s = .next (u.homeFence h t)) ∧
      (h = 96 → exec (.fenceMessage h t) s = .next (u.dspFence t))) ∧
    ((s.slice h).scan = some (t, k) → ∃ v, exec (.fenceScan h) s = .next v ∧
      (v.slice h).scan = (if k + 1 < 2048 then some (t, k + 1) else none))

/-- A snoop of a host line with nothing open and a set that is not full starts at its home, as a shared, exclusive or current request of the host. GO takes the oldest waiting write of the line away. A line that the device asked for comes into host
memory and to its home; a back-invalidate response lets the waiting transaction go on without the host's copy. CXL.mem requests enter their home while its queue has room, with the data, mask and
poison they carry. A BAR2 access of one line inside the BAR and the allocation becomes one such request, one beyond them is answered Unsupported Request, and so is a BAR0 access that is not a naturally aligned one of 4 or 8 bytes,
with no other effect. -/
def Obligations.HostCommands : Prop :=
  ∀ (s : State) (line f off len : Nat) (d : Line) (mask : BitVec 64) (poison : Bool),
    let refused (i : Instr) : Prop := exec i s = .next { s with answers := { agent := 127, line := off / 64, data := none, blot := false, ur := true } :: s.answers }
    let home := 128 + s.homeOf line
    (isHostLine line = true → s.txn line = none → s.setFull line = false →
      ∀ i ∈ [(Instr.snpData line, MKind.fwdS), (.snpInv line, .inv), (.snpCur line, .fwdOnce)],
        exec i.1 s = .next (s.homeStart { kind := i.2, src := 127, dst := home, line, owner := s.ownerOf line })) ∧
    (∃ u, exec (.go line) s = .next u ∧ u = { s with goPend := u.goPend } ∧ u.goPend.count line = s.goPend.count line - 1 ∧
      ∀ k, k ≠ line → u.goPend.count k = s.goPend.count k) ∧
    (isHostLine line = true → line ∈ s.d2h → exec (.hostResponse line d poison) s = .next (({ s with
        hostMem := Memory.writeLine s.hostMem (lineA line) d
        hostPoison := if poison then lineA line :: s.hostPoison.filter (fun x => x != lineA line) else s.hostPoison.filter (fun x => x != lineA line)
        d2h := s.d2h.erase line } : State).homeFill line d poison)) ∧
    (line ∈ s.bisnp → ∀ s1 x, s1 = ({ s with bisnp := s.bisnp.erase line } : State).updDir line (fun e => { e with h := false }) →
      s1.txn line = some x → x.phase = .back →
      exec (.bisnpResponse line) s = .next ((s1.putTxn { x with phase := .cmp }).homeGo { x with phase := .cmp })) ∧
    ((s.slice (s.homeOf line)).queueRoom = true →
      (∀ i ∈ [Instr.memRd line, .memRdData line],
        exec i s = .next (s.homeArrive { kind := .rdOnce, src := 127, dst := home, line, owner := s.lineOwner line, keep := true })) ∧
      exec (.memWr line d poison) s = .next (s.homeArrive {
        kind := .ioWr, src := 127, dst := home, line, owner := s.lineOwner line, data := some d, mask := BitVec.allOnes 64, blot := poison }) ∧
      exec (.memWrPtl line d mask) s = .next (s.homeArrive {
        kind := .ioWr, src := 127, dst := home, line, owner := s.lineOwner line, data := some d, mask := mask, keep := true })) ∧
    (∀ a, 0 < len → a % 64 + len ≤ 64 → (∀ j < len, s.bar2Addr f (off + j) = some (a + j)) → (s.slice (s.homeOf (a / 64))).queueRoom = true →
      let owner := if f = 0 then s.lineOwner (a / 64) else f
      exec (.bar2Access f off len none) s =
        .next (s.homeArrive { kind := .rdOnce, src := 127, dst := 128 + s.homeOf (a / 64), line := a / 64, owner := owner }) ∧
      exec (.bar2Access f off len (some d)) s = .next (s.homeArrive {
        kind := .ioWr, src := 127, dst := 128 + s.homeOf (a / 64), line := a / 64, owner := owner, data := some (d <<< (8 * (a % 64)))
        mask := byteMask (a % 64) len })) ∧
    (s.bar2Addr f (off + len - 1) = none → ∀ w, refused (.bar2Access f off len w)) ∧
    (∀ w, (¬(len = 4 ∨ len = 8) ∨ off % len ≠ 0) → refused (.bar0InvalidAccess f off len w))

/-- A request for a mapped line reaches the queue of a running channel with room; an unguarded write that the choice picks is stored, and a
read without a failed die goes out. A read whose bursts come clean returns the stored line with its mark, guarded or not; a guarded write that has its lock writes data and parity and unlocks; a rebuild
whose other granules were all read returns the rebuilt halves. A refresh of a bank without queued requests closes its row, as an idle precharge does; a clean scrub read moves the scrubber on, and after the
last line to the first; an eye at or above its goal is recorded; panic is what the controllers are told. A write reported failed is repeated twice, then its line enters the bad-line table. -/
def Obligations.MemoryCommands : Prop :=
  ∀ (s : State) (c b : Nat) (r : MemReq),
    let first (p : MemReq → Bool) : Prop := s.mem.reqs.find? p = some r
    let arriving (r : MemReq) : Bool := r.chan == c && r.stage == .inbound
    let reading (r : MemReq) : Bool := r.chan == c && r.stage == .issued && r.wr.isNone
    let guarded (r : MemReq) : Bool := r.chan == c && r.stage == .issued && r.guard && r.wr.isSome
    let rebuilding (r : MemReq) : Bool := r.chan == c && r.stage == .rebuild
    let free : Prop := ∀ q ∈ s.mem.reqs, ¬(q.chan = c ∧ q.stage = .queued ∧ (s.reqRow q).1 = b)
    (first arriving → r.phys.isSome = true → (s.chan c).failed = false → (s.chan c).selfRef = false → (s.chan c).ctl.getLsbD 1 = false →
      (s.mem.reqs.filter (fun r => r.chan == c && r.stage != .inbound)).length < 128 →
      exec (.memRequestArrive c) s = .next (s.setReqs (updFirst arriving (fun r => { r with stage := .queued }) s.mem.reqs))) ∧
    ((s.chan c).runs = true → s.nextReq c = some r →
      let s1 := (s.serveBank c r).countServed c r.owner
      (∀ w, r.wr = some w → r.guard = false → exec (.dramIssue c) s = .next ((((s1.setReqs (dropFirst (fun q => q == r) s1.mem.reqs)).memWrite
        r.line w.1 w.2.1 w.2.2).updChan c (fun k => { k with lastWr := some ({ r with tries := 0 }, r.phys.getD 0) })).selfRefDue c)) ∧
      (r.wr = none → r.guard = false → exec (.dramIssue c) s =
        .next ((s1.setReqs (updFirst (fun q => q == r) (fun q => { q with stage := .issued }) s1.mem.reqs)).selfRefDue c))) ∧
    (∀ l g, first reading → s.reqGeo r = some (l, g) → s.deadBursts l = 0 → s.physOf l ∉ (s.chan c).badLines → (s.rawLine l).2.toNat < 2 →
      exec (.memReadComplete c 0 0) s =
        .next (((s.setReqs (dropFirst reading s.mem.reqs)).readDone r (s.rawLine l).1 ((s.rawLine l).2 == 1)).selfRefDue c)) ∧
    (∀ w, first guarded → r.wr = some w → exec (.guardWrite c) s = .next (((((s.setReqs (dropFirst guarded s.mem.reqs)).memWrite
      r.line w.1 w.2.1 w.2.2).setLock r false).updChan c (fun k => { k with lastWr := some ({ r with tries := 0 }, r.phys.getD 0) })).selfRefDue c)) ∧
    (∀ l g x, first rebuilding → s.reqGeo r = some (l, g) → r.bad = 1 → s.rebuildLine l (byteMask 0 32) = some x →
      exec (.guardRebuild c false) s = .next ((((((s.setReqs (dropFirst rebuilding s.mem.reqs)).setLock r false).updChan c (fun k => { k with
        rebuilds := k.rebuilds + 1 })).log 0x24 0 r.owner 2 c 0 (64 * r.line) (memDetail c g 0 0)).readDone r
          (mergeLine r.got x.1 (byteMask 0 32)) (x.2 == 1)).selfRefDue c)) ∧
    (free → (s.chan c).runs = true → ∃ u, exec (.refresh c b) s = .next u ∧ ((u.chan c).banks.getD b {}).openRow = none ∧
      ((u.chan c).banks.getD b {}).postponed = 0) ∧
    (free → ∃ u, exec (.idlePrecharge c b) s = .next u ∧ ((u.chan c).banks.getD b {}).openRow = none) ∧
    ((s.chan c).runs = true → (s.chan c).ctl.getLsbD 9 = true → (s.chan c).dieFail = 0 → ∃ u, exec (.scrub c 0 0) s = .next u ∧
      (u.chan c).scrubAt = (if (s.module (c / 8)).gib * 2 ^ 21 ≤ (s.chan c).scrubAt + 1 then 0 else (s.chan c).scrubAt + 1) ∧
      (u.chan c).ce = (s.chan c).ce ∧ (u.chan c).ue = (s.chan c).ue) ∧
    (∀ eye ok, (s.chan c).runs = true → s.rel.eyeGoal.getD c 0 ≤ eye → ∃ u, exec (.retrainStep c eye ok) s = .next u ∧
      u.rel.eye.getD c 0 = eye ∧ u.chan c = s.chan c) ∧
    (∀ p, exec (.panicChange p) s = .next { s with mem := { s.mem with panic := p } }) ∧
    (∀ p, (s.chan c).lastWr = some (r, p) →
      (r.tries < 2 → exec (.dramWriteError c true) s =
        .next ((s.updChan c (fun k => { k with lastWr := some ({ r with tries := r.tries + 1 }, p) })).selfRefDue c)) ∧
      (2 ≤ r.tries → p ∉ (s.chan c).badLines → (s.chan c).badLines.length < 64 → ∃ u, exec (.dramWriteError c true) s = .next u ∧
        (u.chan c).badLines = p :: (s.chan c).badLines ∧ (u.chan c).lastWr = none))

/-- A burst that comes as it was written is found clean. One in which a single check or whole message symbol came wrong, by any pattern that is not
zero, is corrected: no bit is left wrong. -/
def Obligations.SingleSymbolCorrected : Prop :=
  decodeBurst 0 = .clean 0 ∧
  ∀ (p : Nat) (v : BitVec 10), p < 28 → v ≠ 0 →
    decodeBurst (setField (0 : BitVec 288) (if p < 3 then 258 + 10 * p else 10 * (p - 3)) 10 v.toNat) = .corrected 0

/-- From a tile bound to a function: a job submitted to a present compression channel that serves the function and has room, or to a present Bramble array with room, joins its queue and reads back 0; an
abort of a queued job ends it there. A channel or array with no running job takes the oldest job of the next function in rotation, and one that passes its checks runs; its end ends it. CMP_ASSIGN sets the
functions served. BRM_FIND gives the lowest tenant index that matches with its valid bit and USER, or 0, and BRM_VEC a window's match vector. An update step of a present array and a power
evaluation act as R384 and R391 say. -/
def Obligations.CompressionAndBramble : Prop :=
  ∀ (s : State) (t f a : Nat) (v : BitVec 64) (rd : Reg),
    ((s.tile t).bound = some f → s.cmpOn (field v 0 4) = true → (s.cmpChan (field v 0 4)).funcs.getLsbD f = true →
      (s.cmpChan (field v 0 4)).queue.length < 32 → (s.cmpChan (field v 0 4)).queuedOf f < 8 → ∃ u, exec (.cmpSubmit t v) s = .next u ∧
      (u.cmpChan (field v 0 4)).queue = (s.cmpChan (field v 0 4)).queue ++ [{ f, desc := field v 6 58 * 64, epoch := s.epochOf f }] ∧
      (u.tile t).eng.cmpSubst = 0) ∧
    ((s.tile t).bound = some f → (s.cmpChan (field v 0 4)).run = none → ∀ q r,
      pickFirst (fun (j : CmpJob) => j.f == f && j.desc == field v 6 58 * 64 && j.work.isNone) (s.cmpChan (field v 0 4)).queue = some (q, r) →
      exec (.cmpAbort t v) s = .next ((s.updCmp (field v 0 4) (fun x => { x with queue := r })).cmpAbortQueued (field v 0 4) q none)) ∧
    ((s.cmpChan a).run = none → ∀ j r, nextFunc (s.cmpChan a).func (fun g => (s.cmpChan a).queue.any (fun j => j.f == g)) = some f →
      pickFirst (fun j => j.f == f) (s.cmpChan a).queue = some (j, r) →
      let s1 := s.updCmp a (fun x => { x with queue := r, func := f, run := some j })
      s1.cmpCheck a j = none → exec (.cmpJobStart a) s = .next s1) ∧
    (∀ j, (s.cmpChan a).run = some j → exec (.cmpJobEnd a) s = .next (s.cmpEnd a j none).1) ∧
    (∃ u, exec (.cmpAssign a v) s = .next u ∧ (u.cmpChan a).funcs = v ∧ (u.cmpChan a).queue = (s.cmpChan a).queue) ∧
    ((s.tile t).bound = some f → s.brmOn a = true →
      (∀ i, s.brmFirst a f (s.brmKey t) = some i → ∃ u, exec (.brmFind t a rd) s = .next u ∧
        (rd ≠ 0 → (u.core t).readG rd = (0x8000000000000000 : Word) ||| BitVec.ofNat 64 (((s.bram a).ent (64 * (s.bram a).base f + i)).user * 2 ^ 40 + i))) ∧
      (s.brmFirst a f (s.brmKey t) = none → rd ≠ 0 → ∃ u, exec (.brmFind t a rd) s = .next u ∧ (u.core t).readG rd = 0) ∧
      (∀ w, ∃ u, exec (.brmVec t a w rd) s = .next u ∧ (rd ≠ 0 → (u.core t).readG rd = s.brmVector a f w (s.brmKey t)))) ∧
    (∀ k, (∀ i, s.brmFirst a f k = some i → s.brmHit a f i k = true ∧ ∀ j < i, s.brmHit a f j k = false) ∧
      (s.brmFirst a f k = none → ∀ i < 64 * (s.bram a).nwin f, s.brmHit a f i k = false) ∧
      ∀ w i, i < 64 → (s.brmVector a f w k).getLsbD i = s.brmHit a f (64 * w + i) k) ∧
    ((s.tile t).bound = some f → s.brmOn (field v 0 2) = true → (s.bram (field v 0 2)).queue.length < 16 →
      ((s.bram (field v 0 2)).queue.filter (fun q => q.f == f)).length < 4 → ∃ u, exec (.brmSubmit t v) s = .next u ∧
      (u.bram (field v 0 2)).queue = (s.bram (field v 0 2)).queue ++ [{ f, desc := field v 6 58 * 64, epoch := s.epochOf f }] ∧
      (u.tile t).eng.brmSubst = 0) ∧
    ((s.bram a).run = none → ∀ j r, nextFunc (s.bram a).func (fun g => (s.bram a).queue.any (fun j => j.f == g)) = some f →
      pickFirst (fun (j : BrmJob) => j.f == f) (s.bram a).queue = some (j, r) →
      let s1 := s.updBrm a (fun b => { b with queue := r, func := f, run := some j })
      s1.brmCheck j = none → exec (.brmJobStart a) s = .next s1) ∧
    (∀ j, (s.bram a).run = some j → exec (.brmJobEnd a) s = .next (s.brmRun a j none)) ∧
    (s.brmOn a = true → exec (.brambleUpdateStep a) s = .next (s.updBrm a Bram.step)) ∧
    (∃ u, exec (.bramblePowerEval a) s = .next u ∧
      (u.bram a).row = brmRow 4 (s.bram a).row (s.tileTemp.getD ([86, 87, 92, 93].getD a 0) 40) ∧ (u.bram a).ents = (s.bram a).ents)

/-- From a tile bound to a function: DMA_LOAD of a block that passes its checks into a present channel of the function with its shadow set free loads the shadow set and reads back 0; it becomes current when the
channel has no current transfer and CADENCE is 0. A descriptor that is read is checked and moved; one that cannot be read ends the transfer; a bus error of a copying descriptor that passes its checks ends that descriptor with
BUS_ERROR and DSTAT 2 after a free number of its bytes; with its last descriptor ended the transfer ends and the channel is free. An abort of the current transfer ends it ABORTED. DGS_OPEN that no check refuses opens a message
of the function; DGS_CLOSE ends it with 0x0302, DGS_SUSPEND asks for its suspension, which saves it and ends it with SUSPENDED; the next waiting message in rotation is activated. -/
def Obligations.DmaAndDigest : Prop :=
  ∀ (s : State) (t f c e : Nat) (v : BitVec 64),
    ((s.tile t).bound = some f →
      let ch := field v 0 5
      let a := field v 5 59 * 32
      let b := (s.readBytes a 32).1
      s.dmaOn ch = true → (s.dmaFuncs ch).getLsbD f = true → (s.dmaChan ch).sh = none → s.rangeOk f a 32 1 = true → xferBlockOk b = true →
      s.rangeOk f (getLE b 8 8) 32 2 = true → ∃ u x, exec (.dmaLoad t v) s = .next u ∧ (u.dmaChan ch).sh = some x ∧ (u.tile t).eng.dmaLdst = 0 ∧
        x.f = f ∧ x.block = a ∧ x.next = getLE b 0 8 ∧ x.status = getLE b 8 8 ∧ x.event = getLE b 0x11 1 ∧ x.idx = 0 ∧ x.ended = false ∧
        (u.dmaChan ch).cur = (s.dmaChan ch).cur) ∧
    (∀ x, (s.dmaChan c).cur = none → (s.dmaChan c).sh = some x → x.cadence = false → ∃ u, exec (.shadowCurrent c) s = .next u ∧
      (u.dmaChan c).cur = some x ∧ (u.dmaChan c).sh = none) ∧
    (∀ x, (s.dmaChan c).cur = some x → x.ended = false →
      (∀ d, s.dmaNextDesc x = some d → exec (.dmaDescriptor c) s = .next (s.dmaStep c x d)) ∧
      (s.dmaNextDesc x = none → ∃ u y, exec (.dmaDescriptor c) s = .next u ∧ (u.dmaChan c).cur = some y ∧ y.ended = true) ∧
      (∀ d, s.dmaNextDesc x = some d → s.dmaBad c x d = none → d.dkind = 0 →
        let k := s.freeUpTo (s.dmaCovered (d.len / 64 + 2) d.dst d.len)
        let r := k.2.dmaCopy x.f (k.1 / 64 + 2) d.src d.dst k.1
        exec (.busError c) s = .next (((r.1.dmaBusError c x).putDstat x 2).dmaSetCur c
          (({ x with bytes := x.bytes + k.1, poisoned := x.poisoned || r.2 }.bad 0x0405).advance d) k.1 1) ∧ k.1 ≤ d.len)) ∧
    (∀ x, (s.dmaChan c).cur = some x → x.ended = true →
      exec (.transferEnd c) s = .next ((s.updDma c (fun k => { k with cur := none })).xferDone c x none none 0)) ∧
    (∀ x, (s.tile t).bound = some f → (s.dmaChan (field v 0 5)).cur = some x → x.f = f → x.block = field v 5 59 * 32 → x.inner = false → x.ended = false →
      exec (.dmaAbort t v) s = .next (((s.dmaStopCur (field v 0 5) x 0x0302).updDma (field v 0 5) (fun k => { k with istat := k.istat ||| 1 })).signal 0 1)) ∧
    ((s.tile t).bound = some f →
      let a := field v 6 58 * 64
      let b := (s.readBytes a 64).1
      (s.dgsOn (field v 0 2) = true → s.rangeOk f a 64 1 = true → s.dgsOpenCheck (field v 0 2) f b = 0 → getLE b 1 1 / 8 % 2 = 0 →
        ∃ u m, exec (.dgsOpen t v) s = .next u ∧ u.dgsMsg (field v 0 2) f = some m ∧ (u.tile t).eng.dgsOpst = 0 ∧ m.mode = getLE b 0 1 ∧
          m.declLen = getLE b 8 8 ∧ m.fed = 0 ∧ m.ctx = .fresh ∧ m.start = s.dgsStart (getLE b 0 1) (getLE b 3 1)) ∧
      exec (.dgsClose t v) s = .next (s.dgsEnd (field v 0 2) f 0x0302 false false) ∧
      (∀ m, s.dgsMsg (field v 0 2) f = some m → ∃ u, exec (.dgsSuspend t v) s = .next u ∧ u.dgsMsg (field v 0 2) f = some { m with suspend := true })) ∧
    (∀ m x, List.find? (fun (p : Nat × DgsMsg) => p.2.suspend) (s.dgsEng e).msgs = some (f, m) → m.ctx = .reg x →
      exec (.suspendSave e) s = .next ((s.dgsSave e f).dgsEnd e f 0 false true)) ∧
    (nextFunc (s.dgsEng e).served (fun g => (s.dgsEng e).msgs.any (fun p => p.1 == g && p.2.waiting && (s.dgsEng e).active != some g)) = some f →
      exec (.contextQuantum e) s = .next (s.dgsActivate e f))

/-- CADENCE_CLOCK adds 2^32 + CAD_RATE to the time value, marks entries whose tick has come as due and changes no tile. CADENCE_STEER: a device is master where no neighbour heard names a lower key; a master
without host steering runs at rate 0, a device with no port towards the master holds RATE_F, any other steers by its neighbours; the rate stays within 1,099,511. PTM_DIALOGUE steers the master by the host's
time, or records the offset. SYNC_EXCHANGE on an UP port notes its time and sends a request; a SYNC_REQ that arrives is answered; a SYNC_RSP on a calibrated port gives theta. CAD_ARM of an entry that passes
its checks arms it under the lowest free handle, else it is refused with code 1 or 2; CAD_DISARM frees the entry. A due entry in its turn launches where its target is ready and is dropped, waits or times
out as R416 says. A trigger pulse of the current epoch is consumed by the oldest entry that waits on it, else queued, a fifth one counted. -/
def Obligations.CadenceCommands : Prop :=
  ∀ (s : State) (t f e p k : Nat) (v : BitVec 64) (w : BitVec 2048),
    (∃ u, exec .cadenceClock s = .next u ∧
      u.now = BitVec.ofNat 64 (((s.timeValue : Int) + 2 ^ 32 + s.cad.rate).toNat / 2 ^ 32) ∧
      u.cad.frac = BitVec.ofNat 32 ((s.timeValue : Int) + 2 ^ 32 + s.cad.rate).toNat ∧ u.cad.rate = s.cad.rate ∧ u.cad.launched = 0 ∧
      u.tiles = s.tiles ∧ u.mem = s.mem ∧
      ∀ a, s.cad.acts.find? e = some a → a.due = none → a.wait = none →
        u.cad.acts.find? e = some { a with due := if a.tick ≤ u.now.toNat then some u.now.toNat else none }) ∧
    (s.electMaster.cad.master = true ↔ ∀ q ∈ s.syncedPorts, s.ownKey ≤ (s.cad.port q).key) ∧
    (∀ u, exec .cadenceSteer s = .next u → -1099511 ≤ s.cad.rate → s.cad.rate ≤ 1099511 → -1099511 ≤ u.cad.rate ∧ u.cad.rate ≤ 1099511) ∧
    ((∀ q ∈ s.syncedPorts, s.ownKey ≤ (s.cad.port q).key) → s.cad.epoch = none → ∃ u, exec .cadenceSteer s = .next u ∧
      u.cad.rate = 0 ∧ u.cad.state = 2 ∧ u.cad.hops = 0 ∧ u.cad.key = s.ownKey) ∧
    (s.cad.ptm = true →
      let num : Int := ((v.toNat : Int) - s.cad.epoch.getD 0) * 2 ^ 32 - 10 * s.timeValue
      (s.cad.master = true → s.cad.epoch.isSome = true → ∃ u, exec (.ptmDialogue v) s = .next u ∧ u.cad.host = true ∧
        u.cad.rateF = s.cad.rateF + num * 4096 / (10 * 2 ^ 32) ∧ u.cad.rate = clampRate (u.cad.rateF + num * 65536 / (10 * 2 ^ 32))) ∧
      (s.cad.master = false → ∃ u, exec (.ptmDialogue v) s = .next u ∧ u.cad.hostOfs = num * 65536 / (10 * 2 ^ 32) ∧ u.cad.rate = s.cad.rate)) ∧
    (p < s.part.ports → (s.kport p).state = 4 → (s.kport p).hold = false → s.cad.syncEn p = true → ∃ u x, exec (.syncExchange p) s = .next u ∧
      (u.cad.port p).t1 = some s.stamp ∧ (u.kport p).sent = x :: (s.kport p).sent ∧ x.type = 4) ∧
    (∀ s1 x, s.arrive p 4 w = .flit s1 x → (s1.kport p).hold = false → ∃ u y, exec (.syncReq p w) s = .next u ∧
      (u.kport p).sent = y :: (s1.kport p).sent ∧ y.type = 5 ∧
      y.payload = stampBytes s1.stamp ++ stampBytes s1.stamp ++ leBytes 1 s1.cad.state ++ leBytes 1 s1.cad.hops ++ leBytes 2 0 ++
        leBytes 4 (min s1.cad.key s1.ownKey)) ∧
    (∀ s1 x t1, s.arrive p 5 w = .flit s1 x → (s1.cad.port p).t1 = some t1 → (s1.kport p).calib = true → ∃ u, exec (.syncRsp p w) s = .next u ∧
      (u.cad.port p).theta = (((stampOf x.payload : Int) - t1) - ((s1.stamp : Int) - stampOf (x.payload.drop 10))) / 2 - (s1.cad.port p).asym ∧
      (u.cad.port p).heard = true ∧ (u.cad.port p).key = getLE x.payload 0x18 4 % 2 ^ 26) ∧
    ((s.tile t).bound = some f →
      let a := field v 5 59 * 32
      let r := s.readBytes a 32
      let b := r.1
      let code (u : State) : BitVec 32 := (u.tile t).eng.cadArmst
      (s.cad.freeHandle = none → ∃ u, exec (.cadArm t v) s = .next u ∧ code u = 0x10000 ∧ u.cad = s.cad) ∧
      (s.cad.freeHandle ≠ none → 64 ≤ (s.cad.acts.filter (fun q => q.2.f == f)).length → ∃ u, exec (.cadArm t v) s = .next u ∧ code u = 0x10000 ∧ u.cad = s.cad) ∧
      (∀ h, s.cad.freeHandle = some h → (s.cad.acts.filter (fun q => q.2.f == f)).length < 64 →
        (s.rangeOk f a 32 1 = false ∨ r.2 = true ∨ s.armOk f b = false → ∃ u, exec (.cadArm t v) s = .next u ∧ code u = 0x20000 ∧ u.cad = s.cad) ∧
        (s.rangeOk f a 32 1 = true → r.2 = false → s.armOk f b = true → ∃ u x, exec (.cadArm t v) s = .next u ∧ code u = BitVec.ofNat 32 h ∧
          u.cad.acts.find? h = some x ∧ x.f = f ∧ x.action = getLE b 8 1 ∧ x.flag = getLE b 0x0A 1 ∧ x.target = getLE b 0x0C 2 ∧ x.status = getLE b 0x18 8 ∧
          (getLE b 9 1 / 2 % 2 = 0 → x.tick = getLE b 0 8 ∧ x.wait = none ∧ x.due = if getLE b 0 8 ≤ s.ticks then some s.ticks else none) ∧
          (getLE b 9 1 / 2 % 2 = 1 → s.cad.trig.getD (f * 8 + getLE b 0x0B 1) [] = [] → x.wait = some (getLE b 0x0B 1) ∧ x.due = none)))) ∧
    (∀ a, (s.tile t).bound = some f → s.cad.acts.find? (field v 0 10) = some a → a.f = f → exec (.cadDisarm t v) s = .next (s.actEnd (field v 0 10) a 6)) ∧
    (∀ a o, (s.actEnd e a o).cad.acts.find? e = none) ∧
    (∀ a, s.cad.acts.find? e = some a → a.due.isSome = true →
      (s.cad.launched < 4 → s.actBehind e a = false →
        (s.actReady a = true → (a.drop = true → a.late = false ∧ lateness s a.due ≤ s.cad.slack) → exec (.actionDue e) s = .next (s.actLaunch e a)) ∧
        (a.drop = true → a.action ≠ 3 → (a.late = true ∨ s.cad.slack < lateness s a.due) → exec (.actionDue e) s = .next (s.actDrop e a 3)) ∧
        (a.action = 3 → s.actReady a = false → a.drop = false → exec (.actionDue e) s = .next (s.actDrop e a 4))) ∧
      (a.drop = false → (s.actReady a = true → s.cad.launched < 4 → exec (.actionReady e) s = .next (s.actLaunch e a)) ∧
        (s.actReady a = false → exec (.actionTimeout e) s = .next (s.actDrop e a 5)))) ∧
    (∀ x r, pickFirst (fun (x : Pulse) => x.f == f && x.trig && x.idx == k) s.pulses = some (x, r) → x.epoch = s.epochOf f → k < 8 →
      ∃ u, exec (.triggerPulse f k) s = .next u ∧ u.pulses = r ∧
        (∀ a, (e, a) ∈ s.cad.acts → a.f = f → a.wait = some k → (∀ y ∈ s.cad.acts, y.2.f = f → y.2.wait = some k → y ≠ (e, a) → a.seq < y.2.seq) →
          u.cad.acts.find? e = some { a with tick := s.ticks + a.tick, wait := none, due := if s.ticks + a.tick ≤ s.ticks then some s.ticks else none }) ∧
        ((∀ y ∈ s.cad.acts, y.2.f = f → y.2.wait ≠ some k) → u.cad.acts = s.cad.acts ∧
          ((s.cad.trig.getD (f * 8 + k) []).length < 4 → u.cad.trig.getD (f * 8 + k) [] = s.cad.trig.getD (f * 8 + k) [] ++ [s.ticks]) ∧
          (4 ≤ (s.cad.trig.getD (f * 8 + k) []).length → u.cad.ovf.getD (f * 8 + k) 0 = s.cad.ovf.getD (f * 8 + k) 0 + 1)))

/-- A flit that fails its CRC is counted and answered with a NAK of the SEQ expected, and nothing else of it is used; an accepted DATA, SACK or ABORT is the next in order and moves the SEQ expected. IDLE and an
acknowledgement have link effects only. A flit for another node passes on; DATA for an open exchange is taken, a SACK recorded, an ABORT fails the query; without an open exchange an ABORT is remembered, the
others are discarded. A NAK resends the replay buffer from the SEQ it names; a replay timeout resends it all in order. A HELLO in IDCHECK of the expected peer brings the port UP, another leaves it MISCABLED. A
first lane failure holds the port on three lanes, a second, or the loss of all signal, brings it DOWN; a redundant port takes over where R437 gives one. Retrain, CMIS, training and round deadlines act as
R436, R438 and R454 say. -/
def Obligations.KrelorCommands : Prop :=
  ∀ (s : State) (p l x rev len : Nat) (w : BitVec 2048) (skew : Option (BitVec 128)),
    (∀ ty, (s.kport p).linked = true → flitOk (flitBytes w) = false → ∃ s1 y, s.arrive p ty w = .done s1 ∧
      (s1.kport p).crcErr = (s.kport p).crcErr + 1 ∧ (s1.kport p).rxSeq = (s.kport p).rxSeq ∧ (s1.kport p).sent = y :: (s.kport p).sent ∧
      y.type = 6 ∧ y.payload = padTo 224 (leBytes 2 1 ++ leBytes 2 (s.kport p).rxSeq) ∧ s1.tiles = s.tiles ∧ s1.mem = s.mem) ∧
    (∀ ty s1 y, s.arrive p ty w = .flit s1 y → (s.kport p).linked = true ∧ flitOk (flitBytes w) = true ∧ y = parseFlit (flitBytes w) ∧ y.type = ty ∧
      (y.sequenced = true → (s1.kport p).state = 4 ∧ (s1.kport p).rxSeq = (y.seq + 1) % 0x10000)) ∧
    (∀ s1 y, s.arrive p 0 w = .flit s1 y → exec (.idle p w) s = .next s1) ∧
    (∀ s1 y, s.arriveLink p 0 w = .flit s1 y → exec (.linkAck p w) s = .next s1) ∧
    (∀ s1 y, s.arrive p 1 w = .flit s1 y →
      (y.dst ≠ s1.nodeId → exec (.dataFlit p w) s = .next ((s1.giveCredit p y.vc).forward y (some (s1.logicalPort p)))) ∧
      (∀ z, y.dst = s1.nodeId → s1.xchg y.xchg = some z → exec (.dataFlit p w) s = .next (s1.takeData p y y.xchg z)) ∧
      (y.dst = s1.nodeId → s1.xchg y.xchg = none → ∃ u, exec (.dataFlit p w) s = .next u ∧ (u.kport p).discard = ((s1.giveCredit p y.vc).kport p).discard + 1)) ∧
    (∀ s1 y, s.arrive p 2 w = .flit s1 y → y.dst = s1.nodeId → ∀ z, (s1.giveCredit p y.vc).xchg y.xchg = some z → y.round < z.rounds →
      exec (.sack p w) s = .next (((s1.giveCredit p y.vc).updRound y.xchg y.round (fun r => { r with sacks := (y.offset :: r.sacks).eraseDups })).roundCheck
        y.xchg y.round)) ∧
    (∀ s1 y, s.arrive p 3 w = .flit s1 y → y.dst = s1.nodeId →
      (∀ z, (s1.giveCredit p y.vc).xchg y.xchg = some z → exec (.abort p w) s = .next ((s1.giveCredit p y.vc).failQuery z.f z.qslot 0x0602)) ∧
      ((s1.giveCredit p y.vc).xchg y.xchg = none → (s1.giveCredit p y.vc).krl.closed.contains y.xchg = false → ∃ u, exec (.abort p w) s = .next u ∧
        (y.xchg, (s1.giveCredit p y.vc).ticks) ∈ u.krl.aborts ∧ u.krl.aborts.length ≤ 16)) ∧
    (∀ s1 y i, s.arriveLink p 1 w = .flit s1 y → (s1.kport p).replay.findIdx? (fun r => r.flit.seq == getLE y.payload 2 2) = some i →
      ∃ u, exec (.nak p w) s = .next u ∧ (u.kport p).replay.map (fun r => r.flit) = ((s1.kport p).replay.drop i).map (fun r => r.flit) ∧
        (u.kport p).replayed = (s1.kport p).replayed + BitVec.ofNat 64 ((s1.kport p).replay.length - i)) ∧
    (∀ s1 y, s.arriveLink p 2 w = .flit s1 y → (s1.kport p).state = 3 →
      (s1.helloOk p y.payload = true → exec (.hello p w) s =
        .next (((s1.updPort p (fun k => { k with state := 4, peer := getLE y.payload 4 4 % 2 ^ 18, fails := 0, hold := false })).calibrate p).pump p 256)) ∧
      (s1.helloOk p y.payload = false → ∃ u, exec (.hello p w) s = .next u ∧ (u.kport p).state = 5 ∧ (u.kport p).peer = getLE y.payload 4 4 % 2 ^ 18)) ∧
    ((s.kport p).state = 4 → (s.kport p).hold = false → (s.kport p).replay ≠ [] → ∃ u, exec (.replayTimeout p) s = .next u ∧
      (u.kport p).replay.map (fun r => r.flit) = (s.kport p).replay.map (fun r => r.flit) ∧ (∀ r ∈ (u.kport p).replay, r.tick = s.ticks) ∧
      (u.kport p).sent.map (fun y => y.seq) = ((s.kport p).replay.map (fun r => r.flit.seq)).reverse ++ (s.kport p).sent.map (fun y => y.seq) ∧
      (u.kport p).txSeq = (s.kport p).txSeq ∧ u.tiles = s.tiles ∧ u.mem = s.mem) ∧
    ((s.kport p).state = 4 → l < 4 → (s.kport p).lanes.getLsbD l = true →
      ((s.kport p).lanes = 0xF → ∃ u, exec (.laneFail p l) s = .next u ∧ (u.kport p).lanes = 0xF &&& ~~~((1 : BitVec 4) <<< l) ∧ (u.kport p).hold = true ∧
        (u.kport p).degrade = (s.kport p).degrade + 1 ∧ (u.kport p).state = 4 ∧ (u.kport p).calib = false ∧ (u.kport p).replay = (s.kport p).replay) ∧
      ((s.kport p).lanes ≠ 0xF → exec (.laneFail p l) s = .next (s.downPort p))) ∧
    ((s.kport p).state = 4 → (s.kport p).hold = true → (s.kport p).backing = false →
      (exec (.laneRetrainComplete p true) s = .next
        ((((((s.updPort p (fun k => { k with hold := false, fails := 0 })).sendLink p 2 (s.helloBody p (((s.kport p).rxSeq + 0xFFFF) % 0x10000))).calibrate p).resend p).pump p 256))) ∧
      (2 ≤ (s.kport p).fails → exec (.laneRetrainComplete p false) s = .next (s.downPort p))) ∧
    ((s.kport p).state = 4 → exec (.portDown p) s = .next (s.downPort p)) ∧
    ((s.downPort p).kport p).state = 0 ∧ ((s.downPort p).kport p).lanes = 0 ∧
    (∀ r, (s.kport p).state = 4 → p < 6 → [6, 7].find? (fun r => (s.kport r).mode == 2 && (s.kport r).pair == p && (s.kport r).state == 4 && !(s.kport r).backing) = some r →
      ((s.downPort p).kport r).backing = true ∧ ((s.downPort p).kport r).hold = true ∧ ((s.downPort p).kport p).replay = (s.kport p).replay) ∧
    ((s.kport p).state = 4 → (s.kport p).hold = false → (s.kport p).lanes ≠ 0xF → s.krl.xchgs = [] → ∃ u, exec (.retrain p) s = .next u ∧
      (u.kport p).lanes = 0xF ∧ (u.kport p).hold = true ∧ (u.kport p).calib = false ∧ (u.kport p).state = 4) ∧
    (p < s.part.ports → (s.kport p).enabled = true → (s.kport p).state = 0 ∨ (s.kport p).state = 6 → ∃ u, exec (.cablePresent p true) s = .next u ∧
      (u.kport p).state = 1 ∧ (u.kport p).cable = true) ∧
    (p < s.part.ports → ∃ u, exec (.cablePresent p false) s = .next u ∧ (u.kport p).state = 0 ∧ (u.kport p).cable = false ∧ (u.kport p).skew = none) ∧
    ((s.kport p).state = 1 → ∀ ans app,
      (ans = true → 40 ≤ rev → app = true → len ≤ 30 → ∃ u, exec (.cmisRead p ans rev app len skew) s = .next u ∧ (u.kport p).state = 2 ∧ (u.kport p).skew = skew.map skewsOf) ∧
      (ans = false ∨ rev < 40 ∨ app = false ∨ 30 < len → ∃ u, exec (.cmisRead p ans rev app len skew) s = .next u ∧ (u.kport p).state = 6)) ∧
    ((s.kport p).state = 2 → (∃ u, exec (.trainComplete p true) s = .next u ∧ (u.kport p).state = 3 ∧ (u.kport p).lanes = 0xF ∧ (u.kport p).txSeq = 1 ∧
        (u.kport p).rxSeq = 1 ∧ (u.kport p).credits = [64, 64, 64, 64] ∧ (u.kport p).replay = []) ∧
      ∃ u, exec (.trainComplete p false) s = .next u ∧ (u.kport p).state = (if 2 ≤ (s.kport p).fails then 0 else 2)) ∧
    (∀ y r, s.xchg x = some y → r < y.rounds → (y.rnd r).complete = false → y.deadline r < s.ticks → exec (.roundDeadline x) s = .next (s.failQuery y.f y.qslot 0x0602))

/-- Eunto has taken a mailbox command of a function with an opcode, has not committed it, and it passes its checks. -/
def Sys2Proof.Machine.State.mbDue (s : State) (f op : Nat) : Prop :=
  s.eunto = some f ∧ s.mbOp = op ∧ s.euntoArg = none ∧ s.mbCheck f = none

/-- A doorbell on a free mailbox outside INIT takes SEQ and the message area as the request and sets BUSY; on a busy one it sets OVERRUN alone. Eunto takes the next busy mailbox in rotation and answers a request
that fails a check with the check's status. A reply frees Eunto, puts the reply in the area, clears BUSY, sets DONE and changes no tile and no memory. A taken command is checked again when it runs: one that fails now
is answered with the status and has no effect. One that passes replies what DEV_INFO, CAP_QUERY, HEALTH_REPORT, MARGIN_REPORT, TIME_ALIGN and ERRLOG_READ report; QUEUE_CREATE adds the pair with a work area of 64 KiB;
QUEUE_DELETE closes the pair and replies once its commands have ended; PIPE_LOAD reads and checks the image; PIPE_UNLOAD frees it; BRAMBLE_LOAD applies the list; KRELOR_SET stores for the next module reset. -/
def Obligations.MailboxCommands : Prop :=
  ∀ (s d : State) (f op ts st dt : Nat) (v : BitVec 32) (pl : List Byte) (g : State → State),
    ((s.mbox f).busy = false → s.dstate ≠ .init → ∃ u, exec (.mbDoorbell f v) s = .next u ∧
      u.mbox f = { s.mbox f with busy := true, done := false, seq := field v 0 16, req := (s.mbox f).area }) ∧
    ((s.mbox f).busy = true → ∃ u, exec (.mbDoorbell f v) s = .next u ∧ u.mbox f = { s.mbox f with overrun := true }) ∧
    (s.eunto = none → s.upd.reboot = false → nextFunc s.euntoLast (fun f => (s.mbox f).busy) = some f →
      let s1 : State := { s with eunto := some f, euntoLast := f, euntoReq := (s.mbox f).req, euntoSeq := (s.mbox f).seq }
      (s1.mbCheck f = none → exec .mailboxTake s = .next s1) ∧
      (∀ c e, s1.mbCheck f = some (c, e) → exec .mailboxTake s = .next (s1.mbReply s1 f c e []))) ∧
    (s.euntoMute = false → let u := s.mbReplyAt d f ts st dt pl
      u.eunto = none ∧ u.euntoArg = none ∧ (u.mbox f).busy = false ∧ (u.mbox f).done = true ∧
      (u.mbox f).area = d.replyBytes ts st dt (if st = 0 then pl else []) ∧ (u.mbox f).req = (s.mbox f).req ∧
      u.tiles = s.tiles ∧ u.mem = s.mem ∧ u.tenants = s.tenants ∧ ∀ k, k ≠ f → u.mbox k = s.mbox k) ∧
    (s.eunto = some f → s.mbOp = op → s.euntoArg = none → ∀ c e, s.mbCheck f = some (c, e) → s.mbRun f op g = s.mbReply s f c e []) ∧
    (s.mbDue f 0x01 → exec (.devInfo f) s = .next (s.mbReply s f 0 0 (s.devInfo f))) ∧
    (s.mbDue f 0x02 → s.mbPay 0 1 = 0 → exec (.capQueryPage f) s = .next (s.mbReply s f 0 0 (s.capPage s.mbTarget))) ∧
    (s.mbDue f 0x02 → s.mbPay 0 1 = 1 → exec (.capQueryEntitlement f) s = .next (s.mbReply s f 0 0 (s.tenant s.mbTarget).ent.bytes)) ∧
    (s.mbDue f 0x60 → exec (.healthReport f) s = .next (s.mbReply s f 0 0 s.healthBytes)) ∧
    (s.mbDue f 0x61 → exec (.marginReport f) s = .next (s.mbReply s f 0 0 s.marginBytes)) ∧
    (s.mbDue f 0x62 → s.rangeOk f (s.mbPay 0 8) (s.mbPay 8 4) 2 = true → ∃ out next oldest : _, exec (.errlogRead f) s =
        .next ((s.writeBytes f (s.mbPay 0 8) (out.flatMap ErrRec.bytes)).mbReply s f 0 0 (leBytes 4 out.length ++ zeros 4 ++ leBytes 8 next ++ leBytes 8 oldest)) ∧
      out.length ≤ s.mbPay 8 4 / 64 ∧ (∀ r ∈ out, r ∈ s.errlog.recs ∧ s.mbPay 0x10 8 ≤ r.seq ∧ (f ≠ 0 → r.func = f)) ∧
      (s.errlog.recs = [] → out = [] ∧ next = s.errlog.nextSeq ∧ oldest = s.errlog.nextSeq)) ∧
    (s.mbDue f 0x40 →
      (s.mbPay 0 1 = 0 → exec (.timeAlignRead f) s = .next (s.mbReply s f 0 0 s.timeReply)) ∧
      (s.mbPay 0 1 = 1 → let u := s.updCad (fun c => { c with prio := s.mbPay 1 1 }); exec (.timeAlignPriority f) s = .next (u.mbReply u f 0 0 u.timeReply)) ∧
      (s.mbPay 0 1 = 2 → let u := s.updCad (fun c => { c with epoch := some (s.mbPay 8 8) }); exec (.hostSteeringOn f) s = .next (u.mbReply u f 0 0 u.timeReply)) ∧
      (s.mbPay 0 1 = 3 → let u := s.updCad (fun c => { c with epoch := none, host := false }); exec (.hostSteeringOff f) s = .next (u.mbReply u f 0 0 u.timeReply))) ∧
    (s.mbDue f 0x41 → s.euntoMute = false → ∃ u, exec (.krelorSet f) s = .next u ∧ u.nv.node = BitVec.ofNat 18 (s.mbPay 0 4) ∧
      u.nv.dims = [s.mbPay 4 1, s.mbPay 5 1, s.mbPay 6 1] ∧ u.nv.port6 = BitVec.ofNat 32 (s.mbPay 8 4) ∧ u.nv.port7 = BitVec.ofNat 32 (s.mbPay 12 4) ∧
      u.krl = s.krl ∧ (u.mbox f).busy = false) ∧
    (s.mbDue f 0x10 → s.rangeOk f (s.mbPay 8 8) (64 * s.mbPay 0x10 4) 3 = true → s.rangeOk f (s.mbPay 0x18 8) (16 * s.mbPay 0x14 4) 3 = true →
      (∀ a s1, s.place f 65536 64 = some (a, s1) →
        let x : QPair := { vector := s.mbPay 1 1, coalesce := s.mbPay 4 4, sqBase := s.mbPay 8 8, sqN := s.mbPay 0x10 4, cqBase := s.mbPay 0x18 8,
                           cqN := s.mbPay 0x14 4, area := a }
        exec (.queueCreate f) s = .next ((s1.updTenant f (fun t => { t with pairs := t.pairs ++ [(s.mbPay 0 1, x)] })).mbReply s f 0 0 [])) ∧
      (s.place f 65536 64 = none → exec (.queueCreate f) s = .next (s.mbReply s f 0x0307 0 []))) ∧
    (s.mbDue f 0x11 → exec (.queueDelete f) s = .next ((({ s with euntoArg := some (s.tstateByte f) }).beginDelete f (s.mbPay 0 1)).endDelete f (s.mbPay 0 1))) ∧
    (s.pairBusy f op = true → s.endDelete f op = s) ∧
    (s.mbDue f 0x20 → s.rangeOk f (s.mbPay 0 8) (s.mbPay 8 4) 1 = true → s.mbPay 8 4 ≤ 64 * 2 ^ 20 → (s.readBytes (s.mbPay 0 8) (s.mbPay 8 4)).2 = false →
      (s.loadCheck f (s.mbPay 8 4) (s.readBytes (s.mbPay 0 8) (s.mbPay 8 4)).1 = none →
        exec (.pipeLoad f) s = .next (s.loadImage f (s.readBytes (s.mbPay 0 8) (s.mbPay 8 4)).1)) ∧
      (∀ step c, s.loadCheck f (s.mbPay 8 4) (s.readBytes (s.mbPay 0 8) (s.mbPay 8 4)).1 = some (step, c) →
        exec (.pipeLoad f) s = .next (s.mbReply s f c step []))) ∧
    (∀ im, s.mbDue f 0x21 → s.euntoMute = false → (s.tenant f).images.find? (s.mbPay 0 1) = some im → ∃ u, exec (.pipeUnload f) s = .next u ∧
      (u.tenant f).images = (s.tenant f).images.erase (s.mbPay 0 1) ∧ u.tiles = s.tiles) ∧
    (∀ arr ops, s.mbDue f 0x22 →
      let b := (s.readBytes (s.mbPay 0 8) (s.mbPay 8 4)).1
      s.rangeOk f (s.mbPay 0 8) (s.mbPay 8 4) 1 = true → (s.readBytes (s.mbPay 0 8) (s.mbPay 8 4)).2 = false →
      s.mbPay 8 4 = 16 + 48 * getLE b 8 4 → brlOf b = some (arr, ops) → s.brmOn arr = true →
      (∀ i ∈ brlIndices ops, s.brmHolds f arr i = true ∧ (s.tenant f).claims.contains (arr, i) = false) →
      let s1 : State := { s.brmLoad arr ((s.bram arr).opsOf f ops) with euntoArg := some ops.length }
      exec (.brambleLoad f) s = .next (s1.replyQuiet s1 f (leBytes 4 ops.length)))

/-- A command that passes its checks: TENANT_CREATE that fits makes the tenant ACTIVE with its allocation and record; QOS_SET replaces the record; TENANT_QUIESCE stops fetching, and cancels or resumes; the end of BOUND cancels, the
end of all work makes it QUIESCED; reset and destruction leave RESETTING or DESTROYING without images; the end of the wipe leaves no nonzero byte in what the tenant held and makes it ACTIVE or NONE; migration logging starts and
stops. An update header that passes its five checks puts the device in UPDATE; the next chunk joins the body; a commit whose tag and hash match programs the slot, one that does not abandons the update; the reboot, the
confirmation with the security version, and the timeouts act as R633 to R637 say. LIFECYCLE_SET that is authorised takes the new state with the count raised; the end of its wipe leaves memory empty and the debug port closed. -/
def Obligations.TenantsUpdateAndLifecycle : Prop :=
  ∀ (s : State) (f : Nat) (img : BitVec 2),
    let t := s.mbTarget
    let e := entitleOf (s.euntoReq.drop 16)
    (s.euntoMute = false →
      (∀ ex d, s.mbDue f 0x30 → s.grantsFit t e = true →
        s.findMemory ((e.memBytes - e.guarded) / 2 ^ 24) (e.guarded / (14 * 2 ^ 20)) ((e.dispatchMib + 15) / 16) = some (ex, d) → ∃ u,
        exec (.tenantCreate f) s = .next u ∧ (u.tenant t).tstate = .active ∧ (u.tenant t).alloc = ex ∧ (u.tenant t).ent = e ∧ (u.tenant t).images = [] ∧
        (u.tenant t).disp.areaBase = d ∧ (u.tenant t).disp.areaLen = e.dispatchMib * 2 ^ 20 ∧ (u.tenant t).disp.tasks = [] ∧ (u.mbox f).done = true) ∧
      (s.mbDue f 0x30 → s.grantsFit t e = false → exec (.tenantCreate f) s = .next (s.mbReply s f 0x0108 0 [])) ∧
      (∀ s1, s.mbDue f 0x31 → e.memBytes = (s.tenant t).ent.memBytes → e.guarded = (s.tenant t).ent.guarded → e.dispatchMib = (s.tenant t).ent.dispatchMib →
        e.compat = (s.tenant t).ent.compat → s.takesAway t e = none → s.grantsFit t e = true → s.reScratch t e.tileBurst = some s1 → ∃ u,
        exec (.qosSet f) s = .next u ∧ (u.tenant t).ent = e ∧ (u.mbox f).done = true) ∧
      (s.mbDue f 0x32 →
        (s.mbPay 0 1 = 0 → ∃ u, exec (.quiesceDrain f) s = .next u ∧ (u.tenant t).tstate = .quiescing ∧ (u.tenant t).quiesce = some (some (s.ticks + s.mbPay 4 4))) ∧
        (s.mbPay 0 1 = 1 → exec (.quiesceCancel f) s = .next (((s.beginQuiesce f t none).cancelAll t).mbReply s f 0 0 [])) ∧
        (s.mbPay 0 1 = 2 → ∃ u, exec (.quiesceResume f) s = .next u ∧ (u.tenant t).tstate = .active ∧ (u.tenant t).quiesce = none ∧
          (∀ p ∈ (u.tenant t).pairs, p.2.state ≠ .halted) ∧ u.mem = s.mem)) ∧
      (s.mbDue f 0x33 → exec (.tenantReset f) s = .next ((s.resetTenant t false (tellOf f t)).mbReply s f 0 0 [])) ∧
      (s.mbDue f 0x34 → exec (.tenantDestroy f) s = .next ((s.resetTenant t true (tellOf f t)).mbReply s f 0 0 [])) ∧
      (s.mbDue f 0x38 →
        let n := (allocLen (s.tenant t).alloc + 65535) / 65536
        s.rangeOk f (s.mbPay 0 8) (s.mbPay 0x10 8 / 32768) 3 = true → s.mbPay 0 8 / 2 ^ 56 = 1 → s.rangeOk f (s.mbPay 0x18 8) ((n + 7) / 8) 3 = true →
        s.mbPay 0x18 8 / 2 ^ 56 = 1 → ∃ u, exec (.migrateLogStart f) s = .next u ∧
        (u.tenant t).mig = some { hostBase := s.mbPay 8 8, hostLen := s.mbPay 0x10 8, hostBmp := s.mbPay 0 8, devBmp := s.mbPay 0x18 8 } ∧
        (u.tenant t).tstate = (s.tenant t).tstate) ∧
      (∀ m, s.mbDue f 0x39 → (s.tenant t).mig = some m → ∃ u, exec (.migrateLogStop f) s = .next u ∧ (u.tenant t).mig = none ∧
        (u.mbox f).area = s.replyBytes (s.tstateByte (if t < s.part.funcs then t else f)) 0 0 (leBytes 8 m.hostSet ++ leBytes 8 m.devSet)) ∧
      (s.mbDue f 0x50 →
        let h := (s.readBytes (s.mbPay 0 8) 256).1
        s.rangeOk f (s.mbPay 0 8) 256 1 = true → fwHeaderOk h = true → getLE h 0xAC 1 = 1 → getLE h 0xAD 1 = 2 → (s.keySlot 1).kind = 3 → (s.keySlot 2).kind = 1 →
        s.slotVerify 2 (h.take 0xC0) (cut h 0xC0 32) (cut h 0xE0 32) = true → s.fwCompatible h = true → ∃ u, exec (.fwUpdateBegin f) s = .next u ∧
        u.dstate = .update ∧ u.upd.hdr = h ∧ u.upd.body = [] ∧ u.nv = s.nv) ∧
      (s.mbDue f 0x51 → s.rangeOk f (s.mbPay 0 8) (s.mbPay 8 4) 1 = true → s.mbPay 12 4 + s.mbPay 8 4 ≤ fwBodyLen s.upd.hdr → s.mbPay 12 4 = s.upd.body.length →
        ∃ u, exec (.fwUpdateChunk f) s = .next u ∧ u.upd.body = s.upd.body ++ (s.readBytes (s.mbPay 0 8) (s.mbPay 8 4)).1 ∧ u.nv = s.nv ∧ u.dstate = s.dstate) ∧
      (s.mbDue f 0x52 → s.upd.body.length = fwBodyLen s.upd.hdr →
        (∀ p, s.fwPlain = some p → ∃ u, exec (.fwUpdateCommit f) s = .next u ∧ u = ((s.mbReply s f 0 0 []).abortAll).programSlot p ∧ u.upd.reboot = true ∧
          u.upd.body = [] ∧ ∀ q ∈ u.mem.chans, q.2.selfRef = true) ∧
        (s.fwPlain = none → exec (.fwUpdateCommit f) s = .next ((s.abandonUpdate 3).mbReply s f 0x0502 0 []))) ∧
      (s.mbDue f 0x53 →
        (s.dstate = .confirm → ∃ u, exec (.healthConfirm f) s = .next u ∧ u.dstate = .ready ∧ s.nv.svn ≤ u.nv.svn) ∧
        (s.dstate = .ready → exec (.healthConfirm f) s = .next (s.mbReply s f 0 0 []))) ∧
      (s.mbDue f 0x54 → s.lifecycleCheck (s.mbPay 0 1) (cut s.euntoReq 24 128) = 0 → ∃ u, exec (.lifecycleSet f) s = .next u ∧
        u.nv.lifecycle = s.mbPay 0 1 ∧ s.nv.count < u.nv.count ∧ u.nv.wiping = true) ∧
      (∀ c, c ≠ 0 → s.mbDue f 0x54 → s.lifecycleCheck (s.mbPay 0 1) (cut s.euntoReq 24 128) = c → exec (.lifecycleSet f) s = .next (s.mbReply s f c 0 []))) ∧
    (∀ b l, ((s.resetTenant f b l).tenant f).tstate = (if b then .destroying else .resetting) ∧ ((s.resetTenant f b l).tenant f).images = []) ∧
    ((s.tenant f).tstate = .quiescing →
      (∀ k, (s.tenant f).quiesce = some (some k) → exec (.quiesceBound f) s = .next ((s.updTenant f (fun x => { x with quiesce := some none })).cancelAll f)) ∧
      (s.hasWork f = false → ∃ u, exec (.quiesceComplete f) s = .next u ∧ (u.tenant f).tstate = .quiesced ∧ (u.mbox f).attn = true)) ∧
    (s.unbound f = true →
      ((s.tenant f).tstate = .resetting → ∃ u, exec (.wipeEnd f) s = .next u ∧ (u.tenant f).tstate = .active ∧ (u.tenant f).alloc = (s.tenant f).alloc ∧
        ∀ x ∈ (s.tenant f).alloc ++ (s.tenant f).dispExt, ∀ c ∈ u.mem.cells, ¬(x.base ≤ c.1 ∧ c.1 < x.base + x.span)) ∧
      ((s.tenant f).tstate = .destroying → ∃ u, exec (.wipeEnd f) s = .next u ∧ (u.tenant f).tstate = .none ∧ (u.tenant f).alloc = [] ∧
        ∀ x ∈ (s.tenant f).alloc ++ (s.tenant f).dispExt, ∀ c ∈ u.mem.cells, ¬(x.base ≤ c.1 ∧ c.1 < x.base + x.span))) ∧
    (s.upd.reboot = true → exec (.updateReboot img) s = .next (s.updateReboot img)) ∧
    (s.dstate = .confirm → s.eunto = none → exec (.confirmTimeout img) s =
      .next (({ s with nv := s.nv.writeDir (fun d => { d with slotState := 4 }) }).abortAll.updateReboot img)) ∧
    (s.dstate = .update → s.upd.reboot = false → ∃ u, exec .updateTimeout s = .next u ∧ u.dstate = (if s.upd.fromRecovery then .recovery else .ready) ∧
      u.upd.body = [] ∧ u.nv = s.nv ∧ u.mem = s.mem) ∧
    (s.dstate = .wiping → ∃ u, exec .lifecycleWipeEnd s = .next u ∧ u.mem.cells = [] ∧ u.nv.wiping = false ∧ u.upd.debug = false ∧ u.net = [])

/-- With PWRGD low and V_in in range PWRGD rises and an unpowered device ramps; a ramp that fails is tried once more. Over-voltage, under-voltage, loss of PWRGD, a thermal trip and a lost reference shut a running device down with causes 5, 5, 8, 6 and 7:
memory, tenants and caches are lost, flash stays, the shutdown record joins the spill; it starts again when R655 lets it. POWER_SAMPLE above P_env lowers the duty cap by one, not below 4; the tenth sample in a row under 0.95 of it raises it,
up to 16. THERMAL_EVAL sets each tile's duty value from its reading with hysteresis. A firing raises the sag level to 2 at most, recovery lowers it to L_min at least. Each power state is entered from the one above under its
conditions and left to A0. Module resets start up again: no tenant, no work, memory empty, flash and queue kept; a warm reset keeps the time and the sag level. -/
def Obligations.PowerAndResets : Prop :=
  ∀ (s : State) (vin r t : Nat) (temp tmax : Int) (temps : List Int) (pin v : BitVec 16) (mods : List Nat) (straps : BitVec 5) (img : BitVec 2),
    let lost (u : State) (cause : Nat) : Prop := u.pw.supply = .down ∧ u.pw.shut = cause ∧ u.mem.cells = [] ∧ u.tenants = [] ∧ u.tiles = [] ∧ u.slices = [] ∧
      u.dstate = .init ∧ u.nv = s.nv ∧ u.pending = s.pending ∧ u.hostMem = s.hostMem ∧ u.errlog.recs = [] ∧
      ((∀ x, s.errlog.recs.head? = some x → x.event ≠ 0x62) → ∃ x, u.errlog.spill = (x :: s.errlog.spill).take 64512 ∧ x.event = 0x62 ∧ x.cls = 4)
    (s.pw.pwrgd = false → 4500 ≤ vin → vin ≤ 18500 → ∃ u, exec (.powerGood vin) s = .next u ∧ u.pw.pwrgd = true ∧ u.pw.vin = BitVec.ofNat 16 vin ∧
      u.pw.supply = (if s.pw.supply = .off then .ramping else s.pw.supply)) ∧
    (s.pw.supply = .ramping → ∃ u, exec (.railRampTimeout r) s = .next u ∧ u.pw.supply = .failed) ∧
    (s.pw.supply = .retrying → ∃ u, exec (.railRampTimeout r) s = .next u ∧ u.pw.supply = .off) ∧
    (s.pw.supply = .failed → ∃ u, exec .rampRetry s = .next u ∧ u.pw.supply = .retrying) ∧
    (s.pw.supply = .up →
      (18500 < vin → ∃ u, exec (.overVoltage vin) s = .next u ∧ lost u 5) ∧
      (vin < 4500 → ∃ u, exec (.underVoltage vin) s = .next u ∧ lost u 5) ∧
      (∃ u, exec .pwrgdLow s = .next u ∧ lost u 8 ∧ u.pw.pwrgd = false) ∧
      (105 ≤ temp → t < s.part.tiles → ∃ u, exec (.thermalTrip t temp) s = .next u ∧ lost u 6) ∧
      (s.pw.holdover = true → ∃ u, exec .refTimeout s = .next u ∧ lost u 7) ∧
      (s.pw.holdover = false → ∃ u, exec .refLoss s = .next u ∧ u.pw.holdover = true ∧ u.tiles = s.tiles ∧ u.mem = s.mem) ∧
      (let env := s.penv v.toNat
       ∃ u, exec (.powerSample pin v) s = .next u ∧ u.pw.pin = pin ∧ u.pw.vin = v ∧ u.tiles = s.tiles ∧ u.mem = s.mem ∧
        (env < pin.toNat * 100 → u.pw.dcap = max 4 (s.pw.dcap - 1) ∧ u.pw.under = if pin.toNat * 10000 < 95 * env ∧ s.pw.under < 9 then s.pw.under + 1 else 0) ∧
        (pin.toNat * 10000 < 95 * env → pin.toNat * 100 ≤ env →
          (s.pw.under = 9 → u.pw.dcap = min 16 (s.pw.dcap + 1) ∧ u.pw.under = 0) ∧ (s.pw.under < 9 → u.pw.dcap = s.pw.dcap ∧ u.pw.under = s.pw.under + 1)) ∧
        (95 * env ≤ pin.toNat * 10000 → u.pw.under = 0)) ∧
      (∃ u, exec (.thermalEval temps) s = .next u ∧ u.tiles = s.tiles ∧ ∀ k, k < s.part.tiles → u.tempOf k = temps.getD k (s.tempOf k) ∧
        u.dthOf k = 16 - 4 * thermRow ((16 - s.dthOf k) / 4) (u.tempUsed k)) ∧
      (∃ u, exec (.sagFire true) s = .next u ∧ u.pw.level = min 2 (s.pw.level + 1) ∧ u.pw.sagCore = s.pw.sagCore + 1 ∧ u.pw.sagIn = s.pw.sagIn) ∧
      (∃ u, exec (.sagFire false) s = .next u ∧ u.pw.level = min 2 (s.pw.level + 1) ∧ u.pw.sagIn = s.pw.sagIn + 1 ∧ u.pw.sagCore = s.pw.sagCore) ∧
      (∃ u, exec .sagRecovery s = .next u ∧ u.pw.level = max s.pw.lmin (s.pw.level - 1)) ∧
      (s.pw.pstate = 0 → s.pw.ctl.getLsbD 0 = true → s.quietA1 = true → ∃ u, exec .a1Entry s = .next u ∧ u.pw.pstate = 1 ∧ u.tiles = s.tiles ∧ u.mem = s.mem) ∧
      (s.pw.pstate = 1 → s.pw.ctl.getLsbD 1 = true → s.quietA2 = true → ∃ u, exec .a2Entry s = .next u ∧ u.pw.pstate = 2 ∧
        ∀ k, k < s.part.tiles → s.tileOn k = true → (u.tile k).bound = none ∧ (u.tile k).l1.d = []) ∧
      (s.pw.pstate = 2 → s.pw.ctl.getLsbD 2 = true → s.quietA3 = true → s.mem.reqs = [] → ∃ u, exec .a3Entry s = .next u ∧ u.pw.pstate = 3 ∧
        u.mem.cells = s.mem.cells ∧ u.mem.chans = s.mem.chans.map (fun p => (p.1, p.2.sleep)))) ∧
    (∃ u, exec .refReturn s = .next u ∧ u.pw.holdover = false) ∧
    (s.pw.pstate = 1 → s.quietA1 = false → ∃ u, exec (.powerStateExit false) s = .next u ∧ u.pw.pstate = 0 ∧ u.tiles = s.tiles ∧ u.mem = s.mem) ∧
    (s.pw.pstate = 3 → ∃ u, exec (.powerStateExit true) s = .next u ∧ u.pw.pstate = 0 ∧ u.mem.cells = s.mem.cells) ∧
    (s.pw.supply = .down → s.pw.pwrgd = true → s.pw.holdover = false → 4750 ≤ vin → vin ≤ 18000 → (s.pw.shut ≠ 6 ∨ tmax < 95) →
      ∃ u, exec (.shutdownRestart vin tmax mods straps img) s = .next u ∧ u.pw.supply = .up ∧ u.pw.cause = BitVec.ofNat 8 s.pw.shut) ∧
    (∃ u, exec .i3cRead s = .next u ∧ u.pw.i3c = (if s.pw.supply = .up then some s.i3cBlock else none) :: s.pw.i3c) ∧
    ((s.pw.supply = .ramping ∨ s.pw.supply = .up) → ∃ u, exec (.moduleColdReset mods straps img) s = .next u ∧ u.pw.supply = .up ∧
      u.pw.cause = (if s.pw.supply = .up then 3 else 1) ∧ u.pw.straps = straps ∧ u.mem.cells = [] ∧ u.tenants = [] ∧ u.works = [] ∧ u.pending = s.pending ∧
      u.pw.level = u.pw.lmin ∧ (∀ k < s.part.tiles, (u.tile k).bound = none)) ∧
    (s.pw.supply = .up →
      (∃ u, exec (.moduleWarmReset mods img) s = .next u ∧ u.pw.cause = 2 ∧ u.now = s.now ∧ u.pw.level = s.pw.level ∧ u.mem.cells = [] ∧ u.tenants = [] ∧
        u.works = [] ∧ u.cad.acts = [] ∧ u.krl.xchgs = [] ∧ u.host.linkUp = s.host.linkUp) ∧
      ∃ u, exec (.pwrRstWarm mods img) s = .next u ∧ u.pw.cause = 4 ∧ u.now = s.now ∧ u.pw.level = s.pw.level ∧ u.mem.cells = [] ∧ u.tenants = [])

/-- A fenced tile that passes its test rejoins reset and unbound, and its fence bit clears; one that fails it is disabled. A slice whose copies diverge, or with too many errors in a second, is condemned; its removal drains the homes and, once no
entry is BUSY, empties L1D and takes it out of the map. A lost module fails; a first phase shed is counted, a further one retires the row's tiles. The first Eunto expiry within an hour restarts it, the second, or a bad slot, gives FAULT. An hour
of ageing is counted; a re-plan that no tile fails sets L_min and disables none. Host resets reset every function and clear VF Enable; PERST and link-down take the link down. KEY_WRITE and KEY_ERASE act or report ERR; a write of another size than 4 or 8 bytes, or out of a
function, changes nothing; other register writes reach their block. An undefined word raises ILLEGAL. SPDM answers versions first. The debug port opens in MANUFACTURE and in RMA alone. -/
def Obligations.ReliabilityHostAndSecurity : Prop :=
  ∀ (s : State) (t h line m r ph f off bytes : Nat) (v : BitVec 64) (img : BitVec 2) (drift : List Nat) (other : Bool) (req : List (BitVec 8)),
    (s.rel.fenced.contains t = true → t < 128 →
      (((s.rel.fences.getD t []).filter (fun k => decide (s.ticks < k + 24 * 3600 * 100000000))).length < 3 → ∃ u, exec (.tileReturn t true) s = .next u ∧
        (u.tile t).bound = none ∧ (u.tile t).l1.d = [] ∧ (u.tile t).task = none ∧ (u.core t).pc = s.entryPc ∧ ∀ p ∈ u.slices, p.2.fenced.getLsbD t = false) ∧
      ∃ u, exec (.tileReturn t false) s = .next u ∧ u.tileOn t = false) ∧
    (s.sliceOn h = true → s.rel.removing = none →
      (∃ u, exec (.sliceFault h 1 line) s = .next u ∧ u.rel.removing = some (h, 1)) ∧
      (∀ k, (s.slice h).dataWay line = some k → ∃ u, exec (.sliceFault h 2 line) s = .next u ∧
        u.rel.removing = (if 4 ≤ (s.lastSecond (s.rel.dataUe.getD h [])).length then some (h, 2) else none) ∧
        (u.slice h).data = (s.slice h).data.map (fun e => if e.1 = k then (e.1, { e.2 with blot := true }) else e)) ∧
      (∀ k e, (s.slice h).dirWay line = some k → (s.slice h).dir.find? k = some e → e.busy = false → ∃ u, exec (.sliceFault h 3 line) s = .next u ∧
        u.rel.removing = (if 2 ≤ (s.lastSecond (s.rel.dirUe.getD h [])).length then some (h, 3) else none))) ∧
    (∀ c, s.rel.removing = some (h, c) → (∃ u, exec (.sliceRemoval h) s = .next u ∧ u.rel.draining = true ∧ u.tiles = s.tiles ∧ u.slices = s.slices) ∧
      (s.rel.draining = true → (∀ p ∈ s.slices, p.2.txns = []) → ∃ u, exec .sliceFlush s = .next u ∧ u.sliceOn h = false ∧ u.rel.draining = false ∧
        ∀ k, (u.tile k).l1.d = [])) ∧
    (s.pw.supply = .up →
      exec (.moduleLoss m) s = .next (s.failModule m (8 * m) 3) ∧
      ((s.module m).failed = false → (s.module m).usable = true → s.mem.reqs = [] → ((s.failModule m (8 * m) 3).module m).failed = true) ∧
      (r < 8 → s.rel.phases.getD r 0 < 6 →
        let s1 := (s.updRel (fun x => { x with phases := x.phases.set r (s.rel.phases.getD r 0 + 1) })).log 0x60 3 0x7F 8 r 0 0 (r + 2 ^ 32 * ph)
        exec (.phaseShed r ph) s = .next (if s.rel.phases.getD r 0 = 0 then s1
          else ((List.range s1.part.tiles).filter (fun t => s1.rowOf t == r)).foldl (fun (s : State) t => s.retireTile t 3) s1)) ∧
      (s.retireTile t 3).tileOn t = false ∧
      (s.dstate ≠ .init → s.eunto = none → ∃ u, exec (.watchdogExpiry img) s = .next u ∧ u.rel.watchdog = some s.ticks ∧ u.tiles = s.tiles ∧ u.mem = s.mem ∧
        u.dstate = (if (∃ k, s.rel.watchdog = some k ∧ s.ticks < k + 3600 * 100000000) ∨ img.getLsbD (if s.upd.keel then 1 else 0) = false then .fault else s.dstate)) ∧
      (∃ u, exec (.ageingMeasure drift) s = .next u ∧ u.nv.hours = s.nv.hours + 1 ∧
        ∀ k, k < s.part.tiles → u.rel.drift.getD k 0 = drift.getD k (s.rel.drift.getD k 0)) ∧
      (s.rel.planHours + 720 ≤ s.nv.hours → exec .marginReplan s = .next (s.replan 1)) ∧
      (s.nv.hours < s.rel.planHours + 720 → s.driftMoved = true → exec .marginReplan s = .next (s.replan 2)) ∧
      exec .pwrMarginReplan s = .next (s.replan 3) ∧
      ((s.module m).usable = true →
        (∀ x, -20 ≤ x → x ≤ 110 → ∃ u, exec (.hubSensorRead m (some x)) s = .next u ∧ (u.module m).hubTemp = x ∧ (u.module m).badReads = 0) ∧
        ((s.module m).badReads = 2 → ∃ u, exec (.hubSensorRead m none) s = .next u ∧ (u.module m).fastRef = true))) ∧
    (∀ c, (∀ k, k < s.part.tiles → s.tileOn k = true → 0 ≤ s.margin k (s.minLevel 2)) → let u := s.replan c
      u.pw.lmin = s.minLevel 2 ∧ u.pw.level = max s.pw.level (s.minLevel 2) ∧ u.rel.planHours = s.nv.hours ∧ u.rel.planCause = c ∧ u.rel.planned = s.rel.drift ∧
        u.tiles = s.tiles ∧ u.tilesOff = s.tilesOff) ∧
    (∃ u, exec .perst s = .next u ∧ u = s.resetHost.linkLost ∧ u.host.linkUp = false ∧ u.host.vfEnable = false) ∧
    (∃ u, exec .linkDown s = .next u ∧ u = s.resetHost.linkLost ∧ u.host.linkUp = false ∧ u.host.vfEnable = false) ∧
    (∃ u, exec .hotReset s = .next u ∧ u = s.resetHost ∧ u.host.vfEnable = false) ∧ exec .pfFlr s = .next s.resetHost ∧
    (f ≠ 0 → exec (.vfFlr f) s = .next (s.resetFunction f)) ∧ (∃ u, exec .vfEnableClear s = .next u ∧ u.host.vfEnable = false) ∧
    (s.eunto ≠ some f →
      ((s.tenant f).tstate = .active → ((s.resetFunction f).tenant f).tstate = .resetting) ∧
      ((s.tenant f).tstate = .none → ((s.resetFunction f).mbox f).busy = false ∧ (∀ k ∈ (s.resetFunction f).host.unmasked, k / 64 ≠ f) ∧
        (s.resetFunction f).tiles = s.tiles ∧ (s.resetFunction f).mem = s.mem)) ∧
    (∀ p ∈ (s.dropHostLines.tile t).l1.d, isHostLine p.2.line = false) ∧
    (v.getLsbD 63 = true → v.getLsbD 8 = false →
      let b := (List.range 8).flatMap (fun n => leBytes 8 (s.kstData.getD n 0).toNat)
      (s.kstErr1 (field v 0 6) = false → kstErr2 v b = false → s.kstErr3 v = false → ∃ u, exec (.keyWrite v) s = .next u ∧ u.kstData = [] ∧ field u.kstCmd 56 8 = 0 ∧
        u.keySlot (field v 0 6) = { kind := field v 24 3, len := field v 48 8, owner := field v 31 7, useAll := v.getLsbD 38, data := b.take (field v 48 8) } ∧
        ∀ k, k ≠ field v 0 6 → u.keySlot k = s.keySlot k) ∧
      (s.kstErr1 (field v 0 6) = true ∨ kstErr2 v b = true ∨ s.kstErr3 v = true → ∃ u, exec (.keyWrite v) s = .next u ∧ u.kstData = [] ∧ u.keys = s.keys ∧
        field u.kstCmd 56 8 = (if s.kstErr1 (field v 0 6) then 1 else if kstErr2 v b then 2 else 3))) ∧
    (v.getLsbD 63 = true → v.getLsbD 8 = true → ∃ u, exec (.keyErase v) s = .next u ∧ u.kstData = [] ∧
      (s.kstErr1 (field v 0 6) = true → u.keys = s.keys ∧ field u.kstCmd 56 8 = 1) ∧
      (s.kstErr1 (field v 0 6) = false → field u.kstCmd 56 8 = 0 ∧ (u.keySlot (field v 0 6)).kind = 0 ∧ (u.keySlot (field v 0 6)).data = [] ∧
        (u.keySlot (field v 0 6)).owner = (s.keySlot (field v 0 6)).owner ∧ ∀ k, k ≠ field v 0 6 → u.keySlot k = s.keySlot k)) ∧
    ((bytes ≠ 4 ∧ bytes ≠ 8 ∨ off % bytes ≠ 0 ∨ s.part.funcs ≤ f) → exec (.registerWrite (.bar0 f) off bytes v) s = .next s ∧
      exec (.registerWrite (.config f) off bytes v) s = .next s) ∧
    (bytes = 4 ∨ bytes = 8 → off % bytes = 0 → let o := off / 8 * 8; let w := regVal off bytes v; let k := regMask off bytes
      (f < s.part.funcs → exec (.registerWrite (.bar0 f) off bytes v) s = .next (s.bar0Write f o w k) ∧
        exec (.registerWrite (.config f) off bytes v) s = .next (s.configWrite f o w k)) ∧
      (s.tileOn t = true → exec (.registerWrite (.tile t) off bytes v) s = .next (s.winStore t off bytes v)) ∧
      exec (.registerWrite (.orc h) off bytes v) s = .next (s.orcWrite h o w k) ∧
      ∀ b, exec (.registerWrite (.eunto b) off bytes v) s = .next (s.euntoWrite b o w k)) ∧
    (0 < s.part.funcs → ∃ u, exec (.registerWrite (.bar0 0) 0x4C0018 8 v) s = .next u ∧
      u.pw = { s.pw with cap := if 400 ≤ field v 0 11 ∧ field v 0 11 ≤ 1600 then rw32 s.pw.cap v (BitVec.allOnes 64) 0x7FF else u.pw.cap } ∧
      field u.pw.cap 0 11 = (if 400 ≤ field v 0 11 ∧ field v 0 11 ≤ 1600 then field v 0 11 else field s.pw.cap 0 11)) ∧
    (∀ w : BitVec 32, quillWordOk w = false → Runs s t → (s.core t).exl = false → Traps (.illegal t w) s t 1) ∧
    (s.pw.supply = .up → s.dstate ≠ .init →
      (4096 < req.length → ∃ u, exec (.spdmRequest other req) s = .next u ∧ u.spdm.answers = (0x7F, 14, []) :: s.spdm.answers) ∧
      (req.length ≤ 4096 → (other = false ∨ s.spdm.session = none) → getLE req 1 1 = 0x84 → ∃ u, exec (.spdmRequest other req) s = .next u ∧
        u.spdm.stage = 1 ∧ u.spdm.session = none ∧ u.spdm.answers = (0x04, 0, [0x00, 0x12]) :: s.spdm.answers) ∧
      (req.length ≤ 4096 → other = true → s.spdm.session.isSome = true → ∃ u, exec (.spdmRequest other req) s = .next u ∧
        u.spdm.answers = (0x7F, 3, []) :: s.spdm.answers ∧ u.spdm.session = s.spdm.session)) ∧
    (∀ rate width cxl ptm, ∃ u, exec (.linkUp rate width cxl ptm) s = .next u ∧ u.host.linkUp = true ∧ u.host.rate = rate ∧ u.host.width = width ∧
      u.host.pcieOnly = !cxl ∧ u.cad.ptm = ptm ∧ u.tiles = s.tiles ∧ u.mem = s.mem) ∧
    (s.pw.supply = .up → (s.nv.lifecycle = 0 ∨ s.nv.lifecycle = 3 ∧ s.nv.wiping = false) → ∃ u, exec .debugPortOpen s = .next u ∧ u.upd.debug = true) ∧
    (s.nv.lifecycle = 1 ∨ s.nv.lifecycle = 2 ∨ s.nv.lifecycle = 4 → exec .debugPortOpen s = .next s)
end

