-- ==== Sys2Proof/Laws/Fields.lean ====
section
/-! SUPPORT. Bits and fields of a register after one of its fields has been written. -/

namespace Sys2Proof.Machine

/-- A bit of a register after a write of bits lo to lo + n − 1. -/
theorem getLsbD_setField {w : Nat} (r : BitVec w) (lo n v j : Nat) (hj : j < w) :
    (setField r lo n v).getLsbD j = if lo ≤ j ∧ j < lo + n then v.testBit (j - lo) else r.getLsbD j := by
  unfold setField
  extract_lets m
  have hm : m.getLsbD j = decide (lo ≤ j ∧ j < lo + n) := by
    unfold m
    rw [BitVec.getLsbD_ofNat, Nat.testBit_mul_two_pow, Nat.testBit_two_pow_sub_one]
    by_cases h1 : lo ≤ j <;> by_cases h2 : j < lo + n <;> simp [h1, h2, hj] <;> omega
  have hv : (BitVec.ofNat w (v % 2 ^ n * 2 ^ lo)).getLsbD j = (decide (lo ≤ j ∧ j < lo + n) && v.testBit (j - lo)) := by
    rw [BitVec.getLsbD_ofNat, Nat.testBit_mul_two_pow, Nat.testBit_mod_two_pow]
    by_cases h1 : lo ≤ j <;> by_cases h2 : j < lo + n <;> simp [h1, h2, hj] <;> omega
  rw [BitVec.getLsbD_or, BitVec.getLsbD_and, BitVec.getLsbD_not, hm, hv]
  by_cases h : lo ≤ j ∧ j < lo + n <;> simp [h, hj]

/-- A bit of a register after one bit is put. -/
theorem getLsbD_putBit {w : Nat} (r : BitVec w) (i j : Nat) (b : Bool) (hj : j < w) :
    (putBit r i b).getLsbD j = if j = i then b else r.getLsbD j := by
  unfold putBit
  rw [getLsbD_setField _ _ _ _ _ hj]
  by_cases h : j = i
  · subst h
    cases b <;> simp
  · rw [if_neg (by omega), if_neg h]

theorem testBit_elem (w : Nat) (v : BitVec 128) (i j : Nat) : (elem w v i).testBit j = (decide (j < w) && v.getLsbD (w * i + j)) := by
  unfold elem
  rw [Nat.testBit_mod_two_pow, Nat.testBit_div_two_pow, Nat.add_comm j]
  rfl

/-- An element of a vector register after one element is written, within the register. -/
theorem elem_setElem (w : Nat) (v : BitVec 128) (i k x : Nat) (hk : w * (k + 1) ≤ 128) :
    elem w (setElem w v i x) k = if k = i then x % 2 ^ w else elem w v k := by
  apply Nat.eq_of_testBit_eq
  intro j
  rw [testBit_elem]
  by_cases hj : j < w
  · have hb : w * k + j < 128 := by rw [Nat.mul_add] at hk; omega
    unfold setElem
    rw [getLsbD_setField _ _ _ _ _ hb]
    simp only [hj, decide_true, Bool.true_and]
    by_cases hki : k = i
    · subst hki
      rw [if_pos (by omega), if_pos rfl, Nat.testBit_mod_two_pow, show w * k + j - w * k = j by omega]
      simp [hj]
    · rw [if_neg hki, testBit_elem, if_neg]
      · simp [hj]
      · rintro ⟨h1, h2⟩
        apply hki
        have e1 : i ≤ k := by
          by_contra hc
          have : w * (k + 1) ≤ w * i := Nat.mul_le_mul_left _ (by omega)
          rw [Nat.mul_add] at this
          omega
        have e2 : k ≤ i := by
          by_contra hc
          have : w * (i + 1) ≤ w * k := Nat.mul_le_mul_left _ (by omega)
          rw [Nat.mul_add] at this
          omega
        omega
  · simp only [hj, decide_false, Bool.false_and]
    split
    · rw [Nat.testBit_mod_two_pow]; simp [hj]
    · rw [testBit_elem]; simp [hj]

/-- An element after a function has been applied to the active elements below n. -/
theorem elem_mapActive (w : Nat) (act : Nat → Bool) (f : Nat → Nat) (n : Nat) (v : BitVec 128) (k : Nat) (hk : w * (k + 1) ≤ 128) :
    elem w (mapActive w act f n v) k = if k < n ∧ act k = true then f k % 2 ^ w else elem w v k := by
  induction n with
  | zero => simp [mapActive]
  | succ n ih =>
    unfold mapActive
    extract_lets r
    have hr : elem w r k = _ := ih
    split
    · rename_i ha
      rw [elem_setElem _ _ _ _ _ hk, hr]
      by_cases h : k = n
      · subst h; simp [ha]
      · rw [if_neg h]
        by_cases h2 : k < n
        · simp [h2, Nat.lt_succ_of_lt h2]
        · rw [if_neg (by omega), if_neg (by omega)]
    · rename_i ha
      rw [hr]
      by_cases h : k = n
      · subst h; simp [ha]
      · by_cases h2 : k < n
        · simp [h2, Nat.lt_succ_of_lt h2]
        · rw [if_neg (by omega), if_neg (by omega)]

end Sys2Proof.Machine
end

