-- ==== Sys2Proof/Laws/Table.lean ====
section
/-! SUPPORT. What reading a table gives after it has changed. -/

namespace Sys2Proof.Machine

@[simp] theorem Tab.find?_nil {α : Type} (k : Nat) : Tab.find? ([] : Tab α) k = none := rfl

@[simp] theorem Tab.getD_nil {α : Type} (k : Nat) (d : α) : Tab.getD ([] : Tab α) k d = d := rfl

theorem Tab.find?_set {α : Type} (t : Tab α) (k j : Nat) (v : α) :
    (t.set k v).find? j = if k = j then some v else t.find? j := by
  induction t with
  | nil => rfl
  | cons e r ih =>
    obtain ⟨a, w⟩ := e
    by_cases h : a = k
    · subst h
      by_cases hj : a = j <;> simp [Tab.set, Tab.find?, hj]
    · by_cases hj : a = j
      · subst hj
        simp [Tab.set, Tab.find?, h, Ne.symm h]
      · simp [Tab.set, Tab.find?, h, hj, ih]

@[simp] theorem Tab.find?_set_self {α : Type} (t : Tab α) (k : Nat) (v : α) : (t.set k v).find? k = some v := by
  simp [Tab.find?_set]

@[simp] theorem Tab.getD_set_self {α : Type} (t : Tab α) (k : Nat) (v d : α) : (t.set k v).getD k d = v := by
  simp [Tab.getD]

theorem Tab.getD_set_ne {α : Type} (t : Tab α) {k j : Nat} (v d : α) (h : k ≠ j) : (t.set k v).getD j d = t.getD j d := by
  simp [Tab.getD, Tab.find?_set, h]

@[simp] theorem Tab.getD_upd_self {α : Type} (t : Tab α) (k : Nat) (d : α) (f : α → α) :
    (t.upd k d f).getD k d = f (t.getD k d) := by
  simp [Tab.upd]

theorem Tab.getD_upd_ne {α : Type} (t : Tab α) {k j : Nat} (d : α) (f : α → α) (h : k ≠ j) :
    (t.upd k d f).getD j d = t.getD j d := by
  simp [Tab.upd, Tab.getD_set_ne _ _ _ h]

theorem Tab.getD_upd {α : Type} (t : Tab α) (k j : Nat) (d : α) (f : α → α) :
    (t.upd k d f).getD j d = if k = j then f (t.getD k d) else t.getD j d := by
  by_cases h : k = j
  · subst h; simp
  · simp [h, Tab.getD_upd_ne]

end Sys2Proof.Machine
end

