-- ==== Sys2Proof/Laws/State.lean ====
section
/-! SUPPORT. What each named update of the state leaves and what it changes: one lemma per field per update. -/

namespace Sys2Proof.Machine

variable (s : State)

@[simp] theorem State.updTile_pending (t : Nat) (f : Tile → Tile) : (s.updTile t f).pending = s.pending := rfl
@[simp] theorem State.updTile_freeCtr (t : Nat) (f : Tile → Tile) : (s.updTile t f).freeCtr = s.freeCtr := rfl
@[simp] theorem State.updTile_part (t : Nat) (f : Tile → Tile) : (s.updTile t f).part = s.part := rfl
@[simp] theorem State.updTile_now (t : Nat) (f : Tile → Tile) : (s.updTile t f).now = s.now := rfl
@[simp] theorem State.updTile_entryPc (t : Nat) (f : Tile → Tile) : (s.updTile t f).entryPc = s.entryPc := rfl
@[simp] theorem State.updTile_slices (t : Nat) (f : Tile → Tile) : (s.updTile t f).slices = s.slices := rfl
@[simp] theorem State.updTile_homeMap (t : Nat) (f : Tile → Tile) : (s.updTile t f).homeMap = s.homeMap := rfl
@[simp] theorem State.updTile_slicesOff (t : Nat) (f : Tile → Tile) : (s.updTile t f).slicesOff = s.slicesOff := rfl
@[simp] theorem State.updTile_tilesOff (t : Nat) (f : Tile → Tile) : (s.updTile t f).tilesOff = s.tilesOff := rfl
@[simp] theorem State.updTile_net (t : Nat) (f : Tile → Tile) : (s.updTile t f).net = s.net := rfl
@[simp] theorem State.updTile_pips (t : Nat) (f : Tile → Tile) : (s.updTile t f).pips = s.pips := rfl
@[simp] theorem State.updTile_io (t : Nat) (f : Tile → Tile) : (s.updTile t f).io = s.io := rfl
@[simp] theorem State.updTile_mem (t : Nat) (f : Tile → Tile) : (s.updTile t f).mem = s.mem := rfl
@[simp] theorem State.updTile_hostMem (t : Nat) (f : Tile → Tile) : (s.updTile t f).hostMem = s.hostMem := rfl
@[simp] theorem State.updTile_hostPoison (t : Nat) (f : Tile → Tile) : (s.updTile t f).hostPoison = s.hostPoison := rfl
@[simp] theorem State.updTile_d2h (t : Nat) (f : Tile → Tile) : (s.updTile t f).d2h = s.d2h := rfl
@[simp] theorem State.updTile_bisnp (t : Nat) (f : Tile → Tile) : (s.updTile t f).bisnp = s.bisnp := rfl
@[simp] theorem State.updTile_answers (t : Nat) (f : Tile → Tile) : (s.updTile t f).answers = s.answers := rfl
@[simp] theorem State.updTile_goPend (t : Nat) (f : Tile → Tile) : (s.updTile t f).goPend = s.goPend := rfl
@[simp] theorem State.updTile_tenants (t : Nat) (f : Tile → Tile) : (s.updTile t f).tenants = s.tenants := rfl
@[simp] theorem State.updTile_works (t : Nat) (f : Tile → Tile) : (s.updTile t f).works = s.works := rfl
@[simp] theorem State.updTile_nextWork (t : Nat) (f : Tile → Tile) : (s.updTile t f).nextWork = s.nextWork := rfl
@[simp] theorem State.updTile_lastReady (t : Nat) (f : Tile → Tile) : (s.updTile t f).lastReady = s.lastReady := rfl
@[simp] theorem State.updTile_pulses (t : Nat) (f : Tile → Tile) : (s.updTile t f).pulses = s.pulses := rfl
@[simp] theorem State.updTile_cmp (t : Nat) (f : Tile → Tile) : (s.updTile t f).cmp = s.cmp := rfl
@[simp] theorem State.updTile_cmpOff (t : Nat) (f : Tile → Tile) : (s.updTile t f).cmpOff = s.cmpOff := rfl
@[simp] theorem State.updTile_cmpCtxs (t : Nat) (f : Tile → Tile) : (s.updTile t f).cmpCtxs = s.cmpCtxs := rfl
@[simp] theorem State.updTile_dma (t : Nat) (f : Tile → Tile) : (s.updTile t f).dma = s.dma := rfl
@[simp] theorem State.updTile_dmaOff (t : Nat) (f : Tile → Tile) : (s.updTile t f).dmaOff = s.dmaOff := rfl
@[simp] theorem State.updTile_dgs (t : Nat) (f : Tile → Tile) : (s.updTile t f).dgs = s.dgs := rfl
@[simp] theorem State.updTile_dgsOff (t : Nat) (f : Tile → Tile) : (s.updTile t f).dgsOff = s.dgsOff := rfl
@[simp] theorem State.updTile_keys (t : Nat) (f : Tile → Tile) : (s.updTile t f).keys = s.keys := rfl
@[simp] theorem State.updTile_brm (t : Nat) (f : Tile → Tile) : (s.updTile t f).brm = s.brm := rfl
@[simp] theorem State.updTile_brmOff (t : Nat) (f : Tile → Tile) : (s.updTile t f).brmOff = s.brmOff := rfl
@[simp] theorem State.updTile_mboxes (t : Nat) (f : Tile → Tile) : (s.updTile t f).mboxes = s.mboxes := rfl
@[simp] theorem State.updTile_eunto (t : Nat) (f : Tile → Tile) : (s.updTile t f).eunto = s.eunto := rfl
@[simp] theorem State.updTile_euntoLast (t : Nat) (f : Tile → Tile) : (s.updTile t f).euntoLast = s.euntoLast := rfl
@[simp] theorem State.updTile_euntoReq (t : Nat) (f : Tile → Tile) : (s.updTile t f).euntoReq = s.euntoReq := rfl
@[simp] theorem State.updTile_euntoSeq (t : Nat) (f : Tile → Tile) : (s.updTile t f).euntoSeq = s.euntoSeq := rfl
@[simp] theorem State.updTile_euntoArg (t : Nat) (f : Tile → Tile) : (s.updTile t f).euntoArg = s.euntoArg := rfl
@[simp] theorem State.updTile_euntoMute (t : Nat) (f : Tile → Tile) : (s.updTile t f).euntoMute = s.euntoMute := rfl
@[simp] theorem State.updTile_dstate (t : Nat) (f : Tile → Tile) : (s.updTile t f).dstate = s.dstate := rfl
@[simp] theorem State.updTile_cad (t : Nat) (f : Tile → Tile) : (s.updTile t f).cad = s.cad := rfl
@[simp] theorem State.updTile_krl (t : Nat) (f : Tile → Tile) : (s.updTile t f).krl = s.krl := rfl
@[simp] theorem State.updTile_runtimeVer (t : Nat) (f : Tile → Tile) : (s.updTile t f).runtimeVer = s.runtimeVer := rfl
@[simp] theorem State.updTile_bindLast (t : Nat) (f : Tile → Tile) : (s.updTile t f).bindLast = s.bindLast := rfl
@[simp] theorem State.updTile_tileTemp (t : Nat) (f : Tile → Tile) : (s.updTile t f).tileTemp = s.tileTemp := rfl
@[simp] theorem State.updTile_unreliable (t : Nat) (f : Tile → Tile) : (s.updTile t f).unreliable = s.unreliable := rfl
@[simp] theorem State.updTile_host (t : Nat) (f : Tile → Tile) : (s.updTile t f).host = s.host := rfl
@[simp] theorem State.updTile_errlog (t : Nat) (f : Tile → Tile) : (s.updTile t f).errlog = s.errlog := rfl
@[simp] theorem State.updTile_kstData (t : Nat) (f : Tile → Tile) : (s.updTile t f).kstData = s.kstData := rfl
@[simp] theorem State.updTile_kstCmd (t : Nat) (f : Tile → Tile) : (s.updTile t f).kstCmd = s.kstCmd := rfl
@[simp] theorem State.updTile_nv (t : Nat) (f : Tile → Tile) : (s.updTile t f).nv = s.nv := rfl
@[simp] theorem State.updTile_upd (t : Nat) (f : Tile → Tile) : (s.updTile t f).upd = s.upd := rfl
@[simp] theorem State.updTile_spdm (t : Nat) (f : Tile → Tile) : (s.updTile t f).spdm = s.spdm := rfl
@[simp] theorem State.updTile_pw (t : Nat) (f : Tile → Tile) : (s.updTile t f).pw = s.pw := rfl
@[simp] theorem State.updTile_rel (t : Nat) (f : Tile → Tile) : (s.updTile t f).rel = s.rel := rfl

@[simp] theorem State.updCore_pending (t : Nat) (f : Core → Core) : (s.updCore t f).pending = s.pending := rfl
@[simp] theorem State.updCore_freeCtr (t : Nat) (f : Core → Core) : (s.updCore t f).freeCtr = s.freeCtr := rfl
@[simp] theorem State.updCore_part (t : Nat) (f : Core → Core) : (s.updCore t f).part = s.part := rfl
@[simp] theorem State.updCore_now (t : Nat) (f : Core → Core) : (s.updCore t f).now = s.now := rfl
@[simp] theorem State.updCore_entryPc (t : Nat) (f : Core → Core) : (s.updCore t f).entryPc = s.entryPc := rfl
@[simp] theorem State.updCore_slices (t : Nat) (f : Core → Core) : (s.updCore t f).slices = s.slices := rfl
@[simp] theorem State.updCore_homeMap (t : Nat) (f : Core → Core) : (s.updCore t f).homeMap = s.homeMap := rfl
@[simp] theorem State.updCore_slicesOff (t : Nat) (f : Core → Core) : (s.updCore t f).slicesOff = s.slicesOff := rfl
@[simp] theorem State.updCore_tilesOff (t : Nat) (f : Core → Core) : (s.updCore t f).tilesOff = s.tilesOff := rfl
@[simp] theorem State.updCore_net (t : Nat) (f : Core → Core) : (s.updCore t f).net = s.net := rfl
@[simp] theorem State.updCore_pips (t : Nat) (f : Core → Core) : (s.updCore t f).pips = s.pips := rfl
@[simp] theorem State.updCore_io (t : Nat) (f : Core → Core) : (s.updCore t f).io = s.io := rfl
@[simp] theorem State.updCore_mem (t : Nat) (f : Core → Core) : (s.updCore t f).mem = s.mem := rfl
@[simp] theorem State.updCore_hostMem (t : Nat) (f : Core → Core) : (s.updCore t f).hostMem = s.hostMem := rfl
@[simp] theorem State.updCore_hostPoison (t : Nat) (f : Core → Core) : (s.updCore t f).hostPoison = s.hostPoison := rfl
@[simp] theorem State.updCore_d2h (t : Nat) (f : Core → Core) : (s.updCore t f).d2h = s.d2h := rfl
@[simp] theorem State.updCore_bisnp (t : Nat) (f : Core → Core) : (s.updCore t f).bisnp = s.bisnp := rfl
@[simp] theorem State.updCore_answers (t : Nat) (f : Core → Core) : (s.updCore t f).answers = s.answers := rfl
@[simp] theorem State.updCore_goPend (t : Nat) (f : Core → Core) : (s.updCore t f).goPend = s.goPend := rfl
@[simp] theorem State.updCore_tenants (t : Nat) (f : Core → Core) : (s.updCore t f).tenants = s.tenants := rfl
@[simp] theorem State.updCore_works (t : Nat) (f : Core → Core) : (s.updCore t f).works = s.works := rfl
@[simp] theorem State.updCore_nextWork (t : Nat) (f : Core → Core) : (s.updCore t f).nextWork = s.nextWork := rfl
@[simp] theorem State.updCore_lastReady (t : Nat) (f : Core → Core) : (s.updCore t f).lastReady = s.lastReady := rfl
@[simp] theorem State.updCore_pulses (t : Nat) (f : Core → Core) : (s.updCore t f).pulses = s.pulses := rfl
@[simp] theorem State.updCore_cmp (t : Nat) (f : Core → Core) : (s.updCore t f).cmp = s.cmp := rfl
@[simp] theorem State.updCore_cmpOff (t : Nat) (f : Core → Core) : (s.updCore t f).cmpOff = s.cmpOff := rfl
@[simp] theorem State.updCore_cmpCtxs (t : Nat) (f : Core → Core) : (s.updCore t f).cmpCtxs = s.cmpCtxs := rfl
@[simp] theorem State.updCore_dma (t : Nat) (f : Core → Core) : (s.updCore t f).dma = s.dma := rfl
@[simp] theorem State.updCore_dmaOff (t : Nat) (f : Core → Core) : (s.updCore t f).dmaOff = s.dmaOff := rfl
@[simp] theorem State.updCore_dgs (t : Nat) (f : Core → Core) : (s.updCore t f).dgs = s.dgs := rfl
@[simp] theorem State.updCore_dgsOff (t : Nat) (f : Core → Core) : (s.updCore t f).dgsOff = s.dgsOff := rfl
@[simp] theorem State.updCore_keys (t : Nat) (f : Core → Core) : (s.updCore t f).keys = s.keys := rfl
@[simp] theorem State.updCore_brm (t : Nat) (f : Core → Core) : (s.updCore t f).brm = s.brm := rfl
@[simp] theorem State.updCore_brmOff (t : Nat) (f : Core → Core) : (s.updCore t f).brmOff = s.brmOff := rfl
@[simp] theorem State.updCore_mboxes (t : Nat) (f : Core → Core) : (s.updCore t f).mboxes = s.mboxes := rfl
@[simp] theorem State.updCore_eunto (t : Nat) (f : Core → Core) : (s.updCore t f).eunto = s.eunto := rfl
@[simp] theorem State.updCore_euntoLast (t : Nat) (f : Core → Core) : (s.updCore t f).euntoLast = s.euntoLast := rfl
@[simp] theorem State.updCore_euntoReq (t : Nat) (f : Core → Core) : (s.updCore t f).euntoReq = s.euntoReq := rfl
@[simp] theorem State.updCore_euntoSeq (t : Nat) (f : Core → Core) : (s.updCore t f).euntoSeq = s.euntoSeq := rfl
@[simp] theorem State.updCore_euntoArg (t : Nat) (f : Core → Core) : (s.updCore t f).euntoArg = s.euntoArg := rfl
@[simp] theorem State.updCore_euntoMute (t : Nat) (f : Core → Core) : (s.updCore t f).euntoMute = s.euntoMute := rfl
@[simp] theorem State.updCore_dstate (t : Nat) (f : Core → Core) : (s.updCore t f).dstate = s.dstate := rfl
@[simp] theorem State.updCore_cad (t : Nat) (f : Core → Core) : (s.updCore t f).cad = s.cad := rfl
@[simp] theorem State.updCore_krl (t : Nat) (f : Core → Core) : (s.updCore t f).krl = s.krl := rfl
@[simp] theorem State.updCore_runtimeVer (t : Nat) (f : Core → Core) : (s.updCore t f).runtimeVer = s.runtimeVer := rfl
@[simp] theorem State.updCore_bindLast (t : Nat) (f : Core → Core) : (s.updCore t f).bindLast = s.bindLast := rfl
@[simp] theorem State.updCore_tileTemp (t : Nat) (f : Core → Core) : (s.updCore t f).tileTemp = s.tileTemp := rfl
@[simp] theorem State.updCore_unreliable (t : Nat) (f : Core → Core) : (s.updCore t f).unreliable = s.unreliable := rfl
@[simp] theorem State.updCore_host (t : Nat) (f : Core → Core) : (s.updCore t f).host = s.host := rfl
@[simp] theorem State.updCore_errlog (t : Nat) (f : Core → Core) : (s.updCore t f).errlog = s.errlog := rfl
@[simp] theorem State.updCore_kstData (t : Nat) (f : Core → Core) : (s.updCore t f).kstData = s.kstData := rfl
@[simp] theorem State.updCore_kstCmd (t : Nat) (f : Core → Core) : (s.updCore t f).kstCmd = s.kstCmd := rfl
@[simp] theorem State.updCore_nv (t : Nat) (f : Core → Core) : (s.updCore t f).nv = s.nv := rfl
@[simp] theorem State.updCore_upd (t : Nat) (f : Core → Core) : (s.updCore t f).upd = s.upd := rfl
@[simp] theorem State.updCore_spdm (t : Nat) (f : Core → Core) : (s.updCore t f).spdm = s.spdm := rfl
@[simp] theorem State.updCore_pw (t : Nat) (f : Core → Core) : (s.updCore t f).pw = s.pw := rfl
@[simp] theorem State.updCore_rel (t : Nat) (f : Core → Core) : (s.updCore t f).rel = s.rel := rfl

@[simp] theorem State.updL1_pending (t : Nat) (f : L1 → L1) : (s.updL1 t f).pending = s.pending := rfl
@[simp] theorem State.updL1_freeCtr (t : Nat) (f : L1 → L1) : (s.updL1 t f).freeCtr = s.freeCtr := rfl
@[simp] theorem State.updL1_part (t : Nat) (f : L1 → L1) : (s.updL1 t f).part = s.part := rfl
@[simp] theorem State.updL1_now (t : Nat) (f : L1 → L1) : (s.updL1 t f).now = s.now := rfl
@[simp] theorem State.updL1_entryPc (t : Nat) (f : L1 → L1) : (s.updL1 t f).entryPc = s.entryPc := rfl
@[simp] theorem State.updL1_slices (t : Nat) (f : L1 → L1) : (s.updL1 t f).slices = s.slices := rfl
@[simp] theorem State.updL1_homeMap (t : Nat) (f : L1 → L1) : (s.updL1 t f).homeMap = s.homeMap := rfl
@[simp] theorem State.updL1_slicesOff (t : Nat) (f : L1 → L1) : (s.updL1 t f).slicesOff = s.slicesOff := rfl
@[simp] theorem State.updL1_tilesOff (t : Nat) (f : L1 → L1) : (s.updL1 t f).tilesOff = s.tilesOff := rfl
@[simp] theorem State.updL1_net (t : Nat) (f : L1 → L1) : (s.updL1 t f).net = s.net := rfl
@[simp] theorem State.updL1_pips (t : Nat) (f : L1 → L1) : (s.updL1 t f).pips = s.pips := rfl
@[simp] theorem State.updL1_io (t : Nat) (f : L1 → L1) : (s.updL1 t f).io = s.io := rfl
@[simp] theorem State.updL1_mem (t : Nat) (f : L1 → L1) : (s.updL1 t f).mem = s.mem := rfl
@[simp] theorem State.updL1_hostMem (t : Nat) (f : L1 → L1) : (s.updL1 t f).hostMem = s.hostMem := rfl
@[simp] theorem State.updL1_hostPoison (t : Nat) (f : L1 → L1) : (s.updL1 t f).hostPoison = s.hostPoison := rfl
@[simp] theorem State.updL1_d2h (t : Nat) (f : L1 → L1) : (s.updL1 t f).d2h = s.d2h := rfl
@[simp] theorem State.updL1_bisnp (t : Nat) (f : L1 → L1) : (s.updL1 t f).bisnp = s.bisnp := rfl
@[simp] theorem State.updL1_answers (t : Nat) (f : L1 → L1) : (s.updL1 t f).answers = s.answers := rfl
@[simp] theorem State.updL1_goPend (t : Nat) (f : L1 → L1) : (s.updL1 t f).goPend = s.goPend := rfl
@[simp] theorem State.updL1_tenants (t : Nat) (f : L1 → L1) : (s.updL1 t f).tenants = s.tenants := rfl
@[simp] theorem State.updL1_works (t : Nat) (f : L1 → L1) : (s.updL1 t f).works = s.works := rfl
@[simp] theorem State.updL1_nextWork (t : Nat) (f : L1 → L1) : (s.updL1 t f).nextWork = s.nextWork := rfl
@[simp] theorem State.updL1_lastReady (t : Nat) (f : L1 → L1) : (s.updL1 t f).lastReady = s.lastReady := rfl
@[simp] theorem State.updL1_pulses (t : Nat) (f : L1 → L1) : (s.updL1 t f).pulses = s.pulses := rfl
@[simp] theorem State.updL1_cmp (t : Nat) (f : L1 → L1) : (s.updL1 t f).cmp = s.cmp := rfl
@[simp] theorem State.updL1_cmpOff (t : Nat) (f : L1 → L1) : (s.updL1 t f).cmpOff = s.cmpOff := rfl
@[simp] theorem State.updL1_cmpCtxs (t : Nat) (f : L1 → L1) : (s.updL1 t f).cmpCtxs = s.cmpCtxs := rfl
@[simp] theorem State.updL1_dma (t : Nat) (f : L1 → L1) : (s.updL1 t f).dma = s.dma := rfl
@[simp] theorem State.updL1_dmaOff (t : Nat) (f : L1 → L1) : (s.updL1 t f).dmaOff = s.dmaOff := rfl
@[simp] theorem State.updL1_dgs (t : Nat) (f : L1 → L1) : (s.updL1 t f).dgs = s.dgs := rfl
@[simp] theorem State.updL1_dgsOff (t : Nat) (f : L1 → L1) : (s.updL1 t f).dgsOff = s.dgsOff := rfl
@[simp] theorem State.updL1_keys (t : Nat) (f : L1 → L1) : (s.updL1 t f).keys = s.keys := rfl
@[simp] theorem State.updL1_brm (t : Nat) (f : L1 → L1) : (s.updL1 t f).brm = s.brm := rfl
@[simp] theorem State.updL1_brmOff (t : Nat) (f : L1 → L1) : (s.updL1 t f).brmOff = s.brmOff := rfl
@[simp] theorem State.updL1_mboxes (t : Nat) (f : L1 → L1) : (s.updL1 t f).mboxes = s.mboxes := rfl
@[simp] theorem State.updL1_eunto (t : Nat) (f : L1 → L1) : (s.updL1 t f).eunto = s.eunto := rfl
@[simp] theorem State.updL1_euntoLast (t : Nat) (f : L1 → L1) : (s.updL1 t f).euntoLast = s.euntoLast := rfl
@[simp] theorem State.updL1_euntoReq (t : Nat) (f : L1 → L1) : (s.updL1 t f).euntoReq = s.euntoReq := rfl
@[simp] theorem State.updL1_euntoSeq (t : Nat) (f : L1 → L1) : (s.updL1 t f).euntoSeq = s.euntoSeq := rfl
@[simp] theorem State.updL1_euntoArg (t : Nat) (f : L1 → L1) : (s.updL1 t f).euntoArg = s.euntoArg := rfl
@[simp] theorem State.updL1_euntoMute (t : Nat) (f : L1 → L1) : (s.updL1 t f).euntoMute = s.euntoMute := rfl
@[simp] theorem State.updL1_dstate (t : Nat) (f : L1 → L1) : (s.updL1 t f).dstate = s.dstate := rfl
@[simp] theorem State.updL1_cad (t : Nat) (f : L1 → L1) : (s.updL1 t f).cad = s.cad := rfl
@[simp] theorem State.updL1_krl (t : Nat) (f : L1 → L1) : (s.updL1 t f).krl = s.krl := rfl
@[simp] theorem State.updL1_runtimeVer (t : Nat) (f : L1 → L1) : (s.updL1 t f).runtimeVer = s.runtimeVer := rfl
@[simp] theorem State.updL1_bindLast (t : Nat) (f : L1 → L1) : (s.updL1 t f).bindLast = s.bindLast := rfl
@[simp] theorem State.updL1_tileTemp (t : Nat) (f : L1 → L1) : (s.updL1 t f).tileTemp = s.tileTemp := rfl
@[simp] theorem State.updL1_unreliable (t : Nat) (f : L1 → L1) : (s.updL1 t f).unreliable = s.unreliable := rfl
@[simp] theorem State.updL1_host (t : Nat) (f : L1 → L1) : (s.updL1 t f).host = s.host := rfl
@[simp] theorem State.updL1_errlog (t : Nat) (f : L1 → L1) : (s.updL1 t f).errlog = s.errlog := rfl
@[simp] theorem State.updL1_kstData (t : Nat) (f : L1 → L1) : (s.updL1 t f).kstData = s.kstData := rfl
@[simp] theorem State.updL1_kstCmd (t : Nat) (f : L1 → L1) : (s.updL1 t f).kstCmd = s.kstCmd := rfl
@[simp] theorem State.updL1_nv (t : Nat) (f : L1 → L1) : (s.updL1 t f).nv = s.nv := rfl
@[simp] theorem State.updL1_upd (t : Nat) (f : L1 → L1) : (s.updL1 t f).upd = s.upd := rfl
@[simp] theorem State.updL1_spdm (t : Nat) (f : L1 → L1) : (s.updL1 t f).spdm = s.spdm := rfl
@[simp] theorem State.updL1_pw (t : Nat) (f : L1 → L1) : (s.updL1 t f).pw = s.pw := rfl
@[simp] theorem State.updL1_rel (t : Nat) (f : L1 → L1) : (s.updL1 t f).rel = s.rel := rfl

@[simp] theorem State.updStroke_pending (t : Nat) (f : Stroke → Stroke) : (s.updStroke t f).pending = s.pending := rfl
@[simp] theorem State.updStroke_freeCtr (t : Nat) (f : Stroke → Stroke) : (s.updStroke t f).freeCtr = s.freeCtr := rfl
@[simp] theorem State.updStroke_part (t : Nat) (f : Stroke → Stroke) : (s.updStroke t f).part = s.part := rfl
@[simp] theorem State.updStroke_now (t : Nat) (f : Stroke → Stroke) : (s.updStroke t f).now = s.now := rfl
@[simp] theorem State.updStroke_entryPc (t : Nat) (f : Stroke → Stroke) : (s.updStroke t f).entryPc = s.entryPc := rfl
@[simp] theorem State.updStroke_slices (t : Nat) (f : Stroke → Stroke) : (s.updStroke t f).slices = s.slices := rfl
@[simp] theorem State.updStroke_homeMap (t : Nat) (f : Stroke → Stroke) : (s.updStroke t f).homeMap = s.homeMap := rfl
@[simp] theorem State.updStroke_slicesOff (t : Nat) (f : Stroke → Stroke) : (s.updStroke t f).slicesOff = s.slicesOff := rfl
@[simp] theorem State.updStroke_tilesOff (t : Nat) (f : Stroke → Stroke) : (s.updStroke t f).tilesOff = s.tilesOff := rfl
@[simp] theorem State.updStroke_net (t : Nat) (f : Stroke → Stroke) : (s.updStroke t f).net = s.net := rfl
@[simp] theorem State.updStroke_pips (t : Nat) (f : Stroke → Stroke) : (s.updStroke t f).pips = s.pips := rfl
@[simp] theorem State.updStroke_io (t : Nat) (f : Stroke → Stroke) : (s.updStroke t f).io = s.io := rfl
@[simp] theorem State.updStroke_mem (t : Nat) (f : Stroke → Stroke) : (s.updStroke t f).mem = s.mem := rfl
@[simp] theorem State.updStroke_hostMem (t : Nat) (f : Stroke → Stroke) : (s.updStroke t f).hostMem = s.hostMem := rfl
@[simp] theorem State.updStroke_hostPoison (t : Nat) (f : Stroke → Stroke) : (s.updStroke t f).hostPoison = s.hostPoison := rfl
@[simp] theorem State.updStroke_d2h (t : Nat) (f : Stroke → Stroke) : (s.updStroke t f).d2h = s.d2h := rfl
@[simp] theorem State.updStroke_bisnp (t : Nat) (f : Stroke → Stroke) : (s.updStroke t f).bisnp = s.bisnp := rfl
@[simp] theorem State.updStroke_answers (t : Nat) (f : Stroke → Stroke) : (s.updStroke t f).answers = s.answers := rfl
@[simp] theorem State.updStroke_goPend (t : Nat) (f : Stroke → Stroke) : (s.updStroke t f).goPend = s.goPend := rfl
@[simp] theorem State.updStroke_tenants (t : Nat) (f : Stroke → Stroke) : (s.updStroke t f).tenants = s.tenants := rfl
@[simp] theorem State.updStroke_works (t : Nat) (f : Stroke → Stroke) : (s.updStroke t f).works = s.works := rfl
@[simp] theorem State.updStroke_nextWork (t : Nat) (f : Stroke → Stroke) : (s.updStroke t f).nextWork = s.nextWork := rfl
@[simp] theorem State.updStroke_lastReady (t : Nat) (f : Stroke → Stroke) : (s.updStroke t f).lastReady = s.lastReady := rfl
@[simp] theorem State.updStroke_pulses (t : Nat) (f : Stroke → Stroke) : (s.updStroke t f).pulses = s.pulses := rfl
@[simp] theorem State.updStroke_cmp (t : Nat) (f : Stroke → Stroke) : (s.updStroke t f).cmp = s.cmp := rfl
@[simp] theorem State.updStroke_cmpOff (t : Nat) (f : Stroke → Stroke) : (s.updStroke t f).cmpOff = s.cmpOff := rfl
@[simp] theorem State.updStroke_cmpCtxs (t : Nat) (f : Stroke → Stroke) : (s.updStroke t f).cmpCtxs = s.cmpCtxs := rfl
@[simp] theorem State.updStroke_dma (t : Nat) (f : Stroke → Stroke) : (s.updStroke t f).dma = s.dma := rfl
@[simp] theorem State.updStroke_dmaOff (t : Nat) (f : Stroke → Stroke) : (s.updStroke t f).dmaOff = s.dmaOff := rfl
@[simp] theorem State.updStroke_dgs (t : Nat) (f : Stroke → Stroke) : (s.updStroke t f).dgs = s.dgs := rfl
@[simp] theorem State.updStroke_dgsOff (t : Nat) (f : Stroke → Stroke) : (s.updStroke t f).dgsOff = s.dgsOff := rfl
@[simp] theorem State.updStroke_keys (t : Nat) (f : Stroke → Stroke) : (s.updStroke t f).keys = s.keys := rfl
@[simp] theorem State.updStroke_brm (t : Nat) (f : Stroke → Stroke) : (s.updStroke t f).brm = s.brm := rfl
@[simp] theorem State.updStroke_brmOff (t : Nat) (f : Stroke → Stroke) : (s.updStroke t f).brmOff = s.brmOff := rfl
@[simp] theorem State.updStroke_mboxes (t : Nat) (f : Stroke → Stroke) : (s.updStroke t f).mboxes = s.mboxes := rfl
@[simp] theorem State.updStroke_eunto (t : Nat) (f : Stroke → Stroke) : (s.updStroke t f).eunto = s.eunto := rfl
@[simp] theorem State.updStroke_euntoLast (t : Nat) (f : Stroke → Stroke) : (s.updStroke t f).euntoLast = s.euntoLast := rfl
@[simp] theorem State.updStroke_euntoReq (t : Nat) (f : Stroke → Stroke) : (s.updStroke t f).euntoReq = s.euntoReq := rfl
@[simp] theorem State.updStroke_euntoSeq (t : Nat) (f : Stroke → Stroke) : (s.updStroke t f).euntoSeq = s.euntoSeq := rfl
@[simp] theorem State.updStroke_euntoArg (t : Nat) (f : Stroke → Stroke) : (s.updStroke t f).euntoArg = s.euntoArg := rfl
@[simp] theorem State.updStroke_euntoMute (t : Nat) (f : Stroke → Stroke) : (s.updStroke t f).euntoMute = s.euntoMute := rfl
@[simp] theorem State.updStroke_dstate (t : Nat) (f : Stroke → Stroke) : (s.updStroke t f).dstate = s.dstate := rfl
@[simp] theorem State.updStroke_cad (t : Nat) (f : Stroke → Stroke) : (s.updStroke t f).cad = s.cad := rfl
@[simp] theorem State.updStroke_krl (t : Nat) (f : Stroke → Stroke) : (s.updStroke t f).krl = s.krl := rfl
@[simp] theorem State.updStroke_runtimeVer (t : Nat) (f : Stroke → Stroke) : (s.updStroke t f).runtimeVer = s.runtimeVer := rfl
@[simp] theorem State.updStroke_bindLast (t : Nat) (f : Stroke → Stroke) : (s.updStroke t f).bindLast = s.bindLast := rfl
@[simp] theorem State.updStroke_tileTemp (t : Nat) (f : Stroke → Stroke) : (s.updStroke t f).tileTemp = s.tileTemp := rfl
@[simp] theorem State.updStroke_unreliable (t : Nat) (f : Stroke → Stroke) : (s.updStroke t f).unreliable = s.unreliable := rfl
@[simp] theorem State.updStroke_host (t : Nat) (f : Stroke → Stroke) : (s.updStroke t f).host = s.host := rfl
@[simp] theorem State.updStroke_errlog (t : Nat) (f : Stroke → Stroke) : (s.updStroke t f).errlog = s.errlog := rfl
@[simp] theorem State.updStroke_kstData (t : Nat) (f : Stroke → Stroke) : (s.updStroke t f).kstData = s.kstData := rfl
@[simp] theorem State.updStroke_kstCmd (t : Nat) (f : Stroke → Stroke) : (s.updStroke t f).kstCmd = s.kstCmd := rfl
@[simp] theorem State.updStroke_nv (t : Nat) (f : Stroke → Stroke) : (s.updStroke t f).nv = s.nv := rfl
@[simp] theorem State.updStroke_upd (t : Nat) (f : Stroke → Stroke) : (s.updStroke t f).upd = s.upd := rfl
@[simp] theorem State.updStroke_spdm (t : Nat) (f : Stroke → Stroke) : (s.updStroke t f).spdm = s.spdm := rfl
@[simp] theorem State.updStroke_pw (t : Nat) (f : Stroke → Stroke) : (s.updStroke t f).pw = s.pw := rfl
@[simp] theorem State.updStroke_rel (t : Nat) (f : Stroke → Stroke) : (s.updStroke t f).rel = s.rel := rfl

@[simp] theorem State.updSlice_pending (h : Nat) (f : Slice → Slice) : (s.updSlice h f).pending = s.pending := rfl
@[simp] theorem State.updSlice_freeCtr (h : Nat) (f : Slice → Slice) : (s.updSlice h f).freeCtr = s.freeCtr := rfl
@[simp] theorem State.updSlice_part (h : Nat) (f : Slice → Slice) : (s.updSlice h f).part = s.part := rfl
@[simp] theorem State.updSlice_now (h : Nat) (f : Slice → Slice) : (s.updSlice h f).now = s.now := rfl
@[simp] theorem State.updSlice_entryPc (h : Nat) (f : Slice → Slice) : (s.updSlice h f).entryPc = s.entryPc := rfl
@[simp] theorem State.updSlice_tiles (h : Nat) (f : Slice → Slice) : (s.updSlice h f).tiles = s.tiles := rfl
@[simp] theorem State.updSlice_homeMap (h : Nat) (f : Slice → Slice) : (s.updSlice h f).homeMap = s.homeMap := rfl
@[simp] theorem State.updSlice_slicesOff (h : Nat) (f : Slice → Slice) : (s.updSlice h f).slicesOff = s.slicesOff := rfl
@[simp] theorem State.updSlice_tilesOff (h : Nat) (f : Slice → Slice) : (s.updSlice h f).tilesOff = s.tilesOff := rfl
@[simp] theorem State.updSlice_net (h : Nat) (f : Slice → Slice) : (s.updSlice h f).net = s.net := rfl
@[simp] theorem State.updSlice_pips (h : Nat) (f : Slice → Slice) : (s.updSlice h f).pips = s.pips := rfl
@[simp] theorem State.updSlice_io (h : Nat) (f : Slice → Slice) : (s.updSlice h f).io = s.io := rfl
@[simp] theorem State.updSlice_mem (h : Nat) (f : Slice → Slice) : (s.updSlice h f).mem = s.mem := rfl
@[simp] theorem State.updSlice_hostMem (h : Nat) (f : Slice → Slice) : (s.updSlice h f).hostMem = s.hostMem := rfl
@[simp] theorem State.updSlice_hostPoison (h : Nat) (f : Slice → Slice) : (s.updSlice h f).hostPoison = s.hostPoison := rfl
@[simp] theorem State.updSlice_d2h (h : Nat) (f : Slice → Slice) : (s.updSlice h f).d2h = s.d2h := rfl
@[simp] theorem State.updSlice_bisnp (h : Nat) (f : Slice → Slice) : (s.updSlice h f).bisnp = s.bisnp := rfl
@[simp] theorem State.updSlice_answers (h : Nat) (f : Slice → Slice) : (s.updSlice h f).answers = s.answers := rfl
@[simp] theorem State.updSlice_goPend (h : Nat) (f : Slice → Slice) : (s.updSlice h f).goPend = s.goPend := rfl
@[simp] theorem State.updSlice_tenants (h : Nat) (f : Slice → Slice) : (s.updSlice h f).tenants = s.tenants := rfl
@[simp] theorem State.updSlice_works (h : Nat) (f : Slice → Slice) : (s.updSlice h f).works = s.works := rfl
@[simp] theorem State.updSlice_nextWork (h : Nat) (f : Slice → Slice) : (s.updSlice h f).nextWork = s.nextWork := rfl
@[simp] theorem State.updSlice_lastReady (h : Nat) (f : Slice → Slice) : (s.updSlice h f).lastReady = s.lastReady := rfl
@[simp] theorem State.updSlice_pulses (h : Nat) (f : Slice → Slice) : (s.updSlice h f).pulses = s.pulses := rfl
@[simp] theorem State.updSlice_cmp (h : Nat) (f : Slice → Slice) : (s.updSlice h f).cmp = s.cmp := rfl
@[simp] theorem State.updSlice_cmpOff (h : Nat) (f : Slice → Slice) : (s.updSlice h f).cmpOff = s.cmpOff := rfl
@[simp] theorem State.updSlice_cmpCtxs (h : Nat) (f : Slice → Slice) : (s.updSlice h f).cmpCtxs = s.cmpCtxs := rfl
@[simp] theorem State.updSlice_dma (h : Nat) (f : Slice → Slice) : (s.updSlice h f).dma = s.dma := rfl
@[simp] theorem State.updSlice_dmaOff (h : Nat) (f : Slice → Slice) : (s.updSlice h f).dmaOff = s.dmaOff := rfl
@[simp] theorem State.updSlice_dgs (h : Nat) (f : Slice → Slice) : (s.updSlice h f).dgs = s.dgs := rfl
@[simp] theorem State.updSlice_dgsOff (h : Nat) (f : Slice → Slice) : (s.updSlice h f).dgsOff = s.dgsOff := rfl
@[simp] theorem State.updSlice_keys (h : Nat) (f : Slice → Slice) : (s.updSlice h f).keys = s.keys := rfl
@[simp] theorem State.updSlice_brm (h : Nat) (f : Slice → Slice) : (s.updSlice h f).brm = s.brm := rfl
@[simp] theorem State.updSlice_brmOff (h : Nat) (f : Slice → Slice) : (s.updSlice h f).brmOff = s.brmOff := rfl
@[simp] theorem State.updSlice_mboxes (h : Nat) (f : Slice → Slice) : (s.updSlice h f).mboxes = s.mboxes := rfl
@[simp] theorem State.updSlice_eunto (h : Nat) (f : Slice → Slice) : (s.updSlice h f).eunto = s.eunto := rfl
@[simp] theorem State.updSlice_euntoLast (h : Nat) (f : Slice → Slice) : (s.updSlice h f).euntoLast = s.euntoLast := rfl
@[simp] theorem State.updSlice_euntoReq (h : Nat) (f : Slice → Slice) : (s.updSlice h f).euntoReq = s.euntoReq := rfl
@[simp] theorem State.updSlice_euntoSeq (h : Nat) (f : Slice → Slice) : (s.updSlice h f).euntoSeq = s.euntoSeq := rfl
@[simp] theorem State.updSlice_euntoArg (h : Nat) (f : Slice → Slice) : (s.updSlice h f).euntoArg = s.euntoArg := rfl
@[simp] theorem State.updSlice_euntoMute (h : Nat) (f : Slice → Slice) : (s.updSlice h f).euntoMute = s.euntoMute := rfl
@[simp] theorem State.updSlice_dstate (h : Nat) (f : Slice → Slice) : (s.updSlice h f).dstate = s.dstate := rfl
@[simp] theorem State.updSlice_cad (h : Nat) (f : Slice → Slice) : (s.updSlice h f).cad = s.cad := rfl
@[simp] theorem State.updSlice_krl (h : Nat) (f : Slice → Slice) : (s.updSlice h f).krl = s.krl := rfl
@[simp] theorem State.updSlice_runtimeVer (h : Nat) (f : Slice → Slice) : (s.updSlice h f).runtimeVer = s.runtimeVer := rfl
@[simp] theorem State.updSlice_bindLast (h : Nat) (f : Slice → Slice) : (s.updSlice h f).bindLast = s.bindLast := rfl
@[simp] theorem State.updSlice_tileTemp (h : Nat) (f : Slice → Slice) : (s.updSlice h f).tileTemp = s.tileTemp := rfl
@[simp] theorem State.updSlice_unreliable (h : Nat) (f : Slice → Slice) : (s.updSlice h f).unreliable = s.unreliable := rfl
@[simp] theorem State.updSlice_host (h : Nat) (f : Slice → Slice) : (s.updSlice h f).host = s.host := rfl
@[simp] theorem State.updSlice_errlog (h : Nat) (f : Slice → Slice) : (s.updSlice h f).errlog = s.errlog := rfl
@[simp] theorem State.updSlice_kstData (h : Nat) (f : Slice → Slice) : (s.updSlice h f).kstData = s.kstData := rfl
@[simp] theorem State.updSlice_kstCmd (h : Nat) (f : Slice → Slice) : (s.updSlice h f).kstCmd = s.kstCmd := rfl
@[simp] theorem State.updSlice_nv (h : Nat) (f : Slice → Slice) : (s.updSlice h f).nv = s.nv := rfl
@[simp] theorem State.updSlice_upd (h : Nat) (f : Slice → Slice) : (s.updSlice h f).upd = s.upd := rfl
@[simp] theorem State.updSlice_spdm (h : Nat) (f : Slice → Slice) : (s.updSlice h f).spdm = s.spdm := rfl
@[simp] theorem State.updSlice_pw (h : Nat) (f : Slice → Slice) : (s.updSlice h f).pw = s.pw := rfl
@[simp] theorem State.updSlice_rel (h : Nat) (f : Slice → Slice) : (s.updSlice h f).rel = s.rel := rfl

@[simp] theorem State.updChan_pending (c : Nat) (f : Chan → Chan) : (s.updChan c f).pending = s.pending := rfl
@[simp] theorem State.updChan_freeCtr (c : Nat) (f : Chan → Chan) : (s.updChan c f).freeCtr = s.freeCtr := rfl
@[simp] theorem State.updChan_part (c : Nat) (f : Chan → Chan) : (s.updChan c f).part = s.part := rfl
@[simp] theorem State.updChan_now (c : Nat) (f : Chan → Chan) : (s.updChan c f).now = s.now := rfl
@[simp] theorem State.updChan_entryPc (c : Nat) (f : Chan → Chan) : (s.updChan c f).entryPc = s.entryPc := rfl
@[simp] theorem State.updChan_tiles (c : Nat) (f : Chan → Chan) : (s.updChan c f).tiles = s.tiles := rfl
@[simp] theorem State.updChan_slices (c : Nat) (f : Chan → Chan) : (s.updChan c f).slices = s.slices := rfl
@[simp] theorem State.updChan_homeMap (c : Nat) (f : Chan → Chan) : (s.updChan c f).homeMap = s.homeMap := rfl
@[simp] theorem State.updChan_slicesOff (c : Nat) (f : Chan → Chan) : (s.updChan c f).slicesOff = s.slicesOff := rfl
@[simp] theorem State.updChan_tilesOff (c : Nat) (f : Chan → Chan) : (s.updChan c f).tilesOff = s.tilesOff := rfl
@[simp] theorem State.updChan_net (c : Nat) (f : Chan → Chan) : (s.updChan c f).net = s.net := rfl
@[simp] theorem State.updChan_pips (c : Nat) (f : Chan → Chan) : (s.updChan c f).pips = s.pips := rfl
@[simp] theorem State.updChan_io (c : Nat) (f : Chan → Chan) : (s.updChan c f).io = s.io := rfl
@[simp] theorem State.updChan_hostMem (c : Nat) (f : Chan → Chan) : (s.updChan c f).hostMem = s.hostMem := rfl
@[simp] theorem State.updChan_hostPoison (c : Nat) (f : Chan → Chan) : (s.updChan c f).hostPoison = s.hostPoison := rfl
@[simp] theorem State.updChan_d2h (c : Nat) (f : Chan → Chan) : (s.updChan c f).d2h = s.d2h := rfl
@[simp] theorem State.updChan_bisnp (c : Nat) (f : Chan → Chan) : (s.updChan c f).bisnp = s.bisnp := rfl
@[simp] theorem State.updChan_answers (c : Nat) (f : Chan → Chan) : (s.updChan c f).answers = s.answers := rfl
@[simp] theorem State.updChan_goPend (c : Nat) (f : Chan → Chan) : (s.updChan c f).goPend = s.goPend := rfl
@[simp] theorem State.updChan_tenants (c : Nat) (f : Chan → Chan) : (s.updChan c f).tenants = s.tenants := rfl
@[simp] theorem State.updChan_works (c : Nat) (f : Chan → Chan) : (s.updChan c f).works = s.works := rfl
@[simp] theorem State.updChan_nextWork (c : Nat) (f : Chan → Chan) : (s.updChan c f).nextWork = s.nextWork := rfl
@[simp] theorem State.updChan_lastReady (c : Nat) (f : Chan → Chan) : (s.updChan c f).lastReady = s.lastReady := rfl
@[simp] theorem State.updChan_pulses (c : Nat) (f : Chan → Chan) : (s.updChan c f).pulses = s.pulses := rfl
@[simp] theorem State.updChan_cmp (c : Nat) (f : Chan → Chan) : (s.updChan c f).cmp = s.cmp := rfl
@[simp] theorem State.updChan_cmpOff (c : Nat) (f : Chan → Chan) : (s.updChan c f).cmpOff = s.cmpOff := rfl
@[simp] theorem State.updChan_cmpCtxs (c : Nat) (f : Chan → Chan) : (s.updChan c f).cmpCtxs = s.cmpCtxs := rfl
@[simp] theorem State.updChan_dma (c : Nat) (f : Chan → Chan) : (s.updChan c f).dma = s.dma := rfl
@[simp] theorem State.updChan_dmaOff (c : Nat) (f : Chan → Chan) : (s.updChan c f).dmaOff = s.dmaOff := rfl
@[simp] theorem State.updChan_dgs (c : Nat) (f : Chan → Chan) : (s.updChan c f).dgs = s.dgs := rfl
@[simp] theorem State.updChan_dgsOff (c : Nat) (f : Chan → Chan) : (s.updChan c f).dgsOff = s.dgsOff := rfl
@[simp] theorem State.updChan_keys (c : Nat) (f : Chan → Chan) : (s.updChan c f).keys = s.keys := rfl
@[simp] theorem State.updChan_brm (c : Nat) (f : Chan → Chan) : (s.updChan c f).brm = s.brm := rfl
@[simp] theorem State.updChan_brmOff (c : Nat) (f : Chan → Chan) : (s.updChan c f).brmOff = s.brmOff := rfl
@[simp] theorem State.updChan_mboxes (c : Nat) (f : Chan → Chan) : (s.updChan c f).mboxes = s.mboxes := rfl
@[simp] theorem State.updChan_eunto (c : Nat) (f : Chan → Chan) : (s.updChan c f).eunto = s.eunto := rfl
@[simp] theorem State.updChan_euntoLast (c : Nat) (f : Chan → Chan) : (s.updChan c f).euntoLast = s.euntoLast := rfl
@[simp] theorem State.updChan_euntoReq (c : Nat) (f : Chan → Chan) : (s.updChan c f).euntoReq = s.euntoReq := rfl
@[simp] theorem State.updChan_euntoSeq (c : Nat) (f : Chan → Chan) : (s.updChan c f).euntoSeq = s.euntoSeq := rfl
@[simp] theorem State.updChan_euntoArg (c : Nat) (f : Chan → Chan) : (s.updChan c f).euntoArg = s.euntoArg := rfl
@[simp] theorem State.updChan_euntoMute (c : Nat) (f : Chan → Chan) : (s.updChan c f).euntoMute = s.euntoMute := rfl
@[simp] theorem State.updChan_dstate (c : Nat) (f : Chan → Chan) : (s.updChan c f).dstate = s.dstate := rfl
@[simp] theorem State.updChan_cad (c : Nat) (f : Chan → Chan) : (s.updChan c f).cad = s.cad := rfl
@[simp] theorem State.updChan_krl (c : Nat) (f : Chan → Chan) : (s.updChan c f).krl = s.krl := rfl
@[simp] theorem State.updChan_runtimeVer (c : Nat) (f : Chan → Chan) : (s.updChan c f).runtimeVer = s.runtimeVer := rfl
@[simp] theorem State.updChan_bindLast (c : Nat) (f : Chan → Chan) : (s.updChan c f).bindLast = s.bindLast := rfl
@[simp] theorem State.updChan_tileTemp (c : Nat) (f : Chan → Chan) : (s.updChan c f).tileTemp = s.tileTemp := rfl
@[simp] theorem State.updChan_unreliable (c : Nat) (f : Chan → Chan) : (s.updChan c f).unreliable = s.unreliable := rfl
@[simp] theorem State.updChan_host (c : Nat) (f : Chan → Chan) : (s.updChan c f).host = s.host := rfl
@[simp] theorem State.updChan_errlog (c : Nat) (f : Chan → Chan) : (s.updChan c f).errlog = s.errlog := rfl
@[simp] theorem State.updChan_kstData (c : Nat) (f : Chan → Chan) : (s.updChan c f).kstData = s.kstData := rfl
@[simp] theorem State.updChan_kstCmd (c : Nat) (f : Chan → Chan) : (s.updChan c f).kstCmd = s.kstCmd := rfl
@[simp] theorem State.updChan_nv (c : Nat) (f : Chan → Chan) : (s.updChan c f).nv = s.nv := rfl
@[simp] theorem State.updChan_upd (c : Nat) (f : Chan → Chan) : (s.updChan c f).upd = s.upd := rfl
@[simp] theorem State.updChan_spdm (c : Nat) (f : Chan → Chan) : (s.updChan c f).spdm = s.spdm := rfl
@[simp] theorem State.updChan_pw (c : Nat) (f : Chan → Chan) : (s.updChan c f).pw = s.pw := rfl
@[simp] theorem State.updChan_rel (c : Nat) (f : Chan → Chan) : (s.updChan c f).rel = s.rel := rfl

@[simp] theorem State.updTenant_pending (f : Nat) (g : Tenant → Tenant) : (s.updTenant f g).pending = s.pending := rfl
@[simp] theorem State.updTenant_freeCtr (f : Nat) (g : Tenant → Tenant) : (s.updTenant f g).freeCtr = s.freeCtr := rfl
@[simp] theorem State.updTenant_part (f : Nat) (g : Tenant → Tenant) : (s.updTenant f g).part = s.part := rfl
@[simp] theorem State.updTenant_now (f : Nat) (g : Tenant → Tenant) : (s.updTenant f g).now = s.now := rfl
@[simp] theorem State.updTenant_entryPc (f : Nat) (g : Tenant → Tenant) : (s.updTenant f g).entryPc = s.entryPc := rfl
@[simp] theorem State.updTenant_tiles (f : Nat) (g : Tenant → Tenant) : (s.updTenant f g).tiles = s.tiles := rfl
@[simp] theorem State.updTenant_slices (f : Nat) (g : Tenant → Tenant) : (s.updTenant f g).slices = s.slices := rfl
@[simp] theorem State.updTenant_homeMap (f : Nat) (g : Tenant → Tenant) : (s.updTenant f g).homeMap = s.homeMap := rfl
@[simp] theorem State.updTenant_slicesOff (f : Nat) (g : Tenant → Tenant) : (s.updTenant f g).slicesOff = s.slicesOff := rfl
@[simp] theorem State.updTenant_tilesOff (f : Nat) (g : Tenant → Tenant) : (s.updTenant f g).tilesOff = s.tilesOff := rfl
@[simp] theorem State.updTenant_net (f : Nat) (g : Tenant → Tenant) : (s.updTenant f g).net = s.net := rfl
@[simp] theorem State.updTenant_pips (f : Nat) (g : Tenant → Tenant) : (s.updTenant f g).pips = s.pips := rfl
@[simp] theorem State.updTenant_io (f : Nat) (g : Tenant → Tenant) : (s.updTenant f g).io = s.io := rfl
@[simp] theorem State.updTenant_mem (f : Nat) (g : Tenant → Tenant) : (s.updTenant f g).mem = s.mem := rfl
@[simp] theorem State.updTenant_hostMem (f : Nat) (g : Tenant → Tenant) : (s.updTenant f g).hostMem = s.hostMem := rfl
@[simp] theorem State.updTenant_hostPoison (f : Nat) (g : Tenant → Tenant) : (s.updTenant f g).hostPoison = s.hostPoison := rfl
@[simp] theorem State.updTenant_d2h (f : Nat) (g : Tenant → Tenant) : (s.updTenant f g).d2h = s.d2h := rfl
@[simp] theorem State.updTenant_bisnp (f : Nat) (g : Tenant → Tenant) : (s.updTenant f g).bisnp = s.bisnp := rfl
@[simp] theorem State.updTenant_answers (f : Nat) (g : Tenant → Tenant) : (s.updTenant f g).answers = s.answers := rfl
@[simp] theorem State.updTenant_goPend (f : Nat) (g : Tenant → Tenant) : (s.updTenant f g).goPend = s.goPend := rfl
@[simp] theorem State.updTenant_works (f : Nat) (g : Tenant → Tenant) : (s.updTenant f g).works = s.works := rfl
@[simp] theorem State.updTenant_nextWork (f : Nat) (g : Tenant → Tenant) : (s.updTenant f g).nextWork = s.nextWork := rfl
@[simp] theorem State.updTenant_lastReady (f : Nat) (g : Tenant → Tenant) : (s.updTenant f g).lastReady = s.lastReady := rfl
@[simp] theorem State.updTenant_pulses (f : Nat) (g : Tenant → Tenant) : (s.updTenant f g).pulses = s.pulses := rfl
@[simp] theorem State.updTenant_cmp (f : Nat) (g : Tenant → Tenant) : (s.updTenant f g).cmp = s.cmp := rfl
@[simp] theorem State.updTenant_cmpOff (f : Nat) (g : Tenant → Tenant) : (s.updTenant f g).cmpOff = s.cmpOff := rfl
@[simp] theorem State.updTenant_cmpCtxs (f : Nat) (g : Tenant → Tenant) : (s.updTenant f g).cmpCtxs = s.cmpCtxs := rfl
@[simp] theorem State.updTenant_dma (f : Nat) (g : Tenant → Tenant) : (s.updTenant f g).dma = s.dma := rfl
@[simp] theorem State.updTenant_dmaOff (f : Nat) (g : Tenant → Tenant) : (s.updTenant f g).dmaOff = s.dmaOff := rfl
@[simp] theorem State.updTenant_dgs (f : Nat) (g : Tenant → Tenant) : (s.updTenant f g).dgs = s.dgs := rfl
@[simp] theorem State.updTenant_dgsOff (f : Nat) (g : Tenant → Tenant) : (s.updTenant f g).dgsOff = s.dgsOff := rfl
@[simp] theorem State.updTenant_keys (f : Nat) (g : Tenant → Tenant) : (s.updTenant f g).keys = s.keys := rfl
@[simp] theorem State.updTenant_brm (f : Nat) (g : Tenant → Tenant) : (s.updTenant f g).brm = s.brm := rfl
@[simp] theorem State.updTenant_brmOff (f : Nat) (g : Tenant → Tenant) : (s.updTenant f g).brmOff = s.brmOff := rfl
@[simp] theorem State.updTenant_mboxes (f : Nat) (g : Tenant → Tenant) : (s.updTenant f g).mboxes = s.mboxes := rfl
@[simp] theorem State.updTenant_eunto (f : Nat) (g : Tenant → Tenant) : (s.updTenant f g).eunto = s.eunto := rfl
@[simp] theorem State.updTenant_euntoLast (f : Nat) (g : Tenant → Tenant) : (s.updTenant f g).euntoLast = s.euntoLast := rfl
@[simp] theorem State.updTenant_euntoReq (f : Nat) (g : Tenant → Tenant) : (s.updTenant f g).euntoReq = s.euntoReq := rfl
@[simp] theorem State.updTenant_euntoSeq (f : Nat) (g : Tenant → Tenant) : (s.updTenant f g).euntoSeq = s.euntoSeq := rfl
@[simp] theorem State.updTenant_euntoArg (f : Nat) (g : Tenant → Tenant) : (s.updTenant f g).euntoArg = s.euntoArg := rfl
@[simp] theorem State.updTenant_euntoMute (f : Nat) (g : Tenant → Tenant) : (s.updTenant f g).euntoMute = s.euntoMute := rfl
@[simp] theorem State.updTenant_dstate (f : Nat) (g : Tenant → Tenant) : (s.updTenant f g).dstate = s.dstate := rfl
@[simp] theorem State.updTenant_cad (f : Nat) (g : Tenant → Tenant) : (s.updTenant f g).cad = s.cad := rfl
@[simp] theorem State.updTenant_krl (f : Nat) (g : Tenant → Tenant) : (s.updTenant f g).krl = s.krl := rfl
@[simp] theorem State.updTenant_runtimeVer (f : Nat) (g : Tenant → Tenant) : (s.updTenant f g).runtimeVer = s.runtimeVer := rfl
@[simp] theorem State.updTenant_bindLast (f : Nat) (g : Tenant → Tenant) : (s.updTenant f g).bindLast = s.bindLast := rfl
@[simp] theorem State.updTenant_tileTemp (f : Nat) (g : Tenant → Tenant) : (s.updTenant f g).tileTemp = s.tileTemp := rfl
@[simp] theorem State.updTenant_unreliable (f : Nat) (g : Tenant → Tenant) : (s.updTenant f g).unreliable = s.unreliable := rfl
@[simp] theorem State.updTenant_host (f : Nat) (g : Tenant → Tenant) : (s.updTenant f g).host = s.host := rfl
@[simp] theorem State.updTenant_errlog (f : Nat) (g : Tenant → Tenant) : (s.updTenant f g).errlog = s.errlog := rfl
@[simp] theorem State.updTenant_kstData (f : Nat) (g : Tenant → Tenant) : (s.updTenant f g).kstData = s.kstData := rfl
@[simp] theorem State.updTenant_kstCmd (f : Nat) (g : Tenant → Tenant) : (s.updTenant f g).kstCmd = s.kstCmd := rfl
@[simp] theorem State.updTenant_nv (f : Nat) (g : Tenant → Tenant) : (s.updTenant f g).nv = s.nv := rfl
@[simp] theorem State.updTenant_upd (f : Nat) (g : Tenant → Tenant) : (s.updTenant f g).upd = s.upd := rfl
@[simp] theorem State.updTenant_spdm (f : Nat) (g : Tenant → Tenant) : (s.updTenant f g).spdm = s.spdm := rfl
@[simp] theorem State.updTenant_pw (f : Nat) (g : Tenant → Tenant) : (s.updTenant f g).pw = s.pw := rfl
@[simp] theorem State.updTenant_rel (f : Nat) (g : Tenant → Tenant) : (s.updTenant f g).rel = s.rel := rfl

@[simp] theorem State.updDisp_pending (f : Nat) (g : Disp → Disp) : (s.updDisp f g).pending = s.pending := rfl
@[simp] theorem State.updDisp_freeCtr (f : Nat) (g : Disp → Disp) : (s.updDisp f g).freeCtr = s.freeCtr := rfl
@[simp] theorem State.updDisp_part (f : Nat) (g : Disp → Disp) : (s.updDisp f g).part = s.part := rfl
@[simp] theorem State.updDisp_now (f : Nat) (g : Disp → Disp) : (s.updDisp f g).now = s.now := rfl
@[simp] theorem State.updDisp_entryPc (f : Nat) (g : Disp → Disp) : (s.updDisp f g).entryPc = s.entryPc := rfl
@[simp] theorem State.updDisp_tiles (f : Nat) (g : Disp → Disp) : (s.updDisp f g).tiles = s.tiles := rfl
@[simp] theorem State.updDisp_slices (f : Nat) (g : Disp → Disp) : (s.updDisp f g).slices = s.slices := rfl
@[simp] theorem State.updDisp_homeMap (f : Nat) (g : Disp → Disp) : (s.updDisp f g).homeMap = s.homeMap := rfl
@[simp] theorem State.updDisp_slicesOff (f : Nat) (g : Disp → Disp) : (s.updDisp f g).slicesOff = s.slicesOff := rfl
@[simp] theorem State.updDisp_tilesOff (f : Nat) (g : Disp → Disp) : (s.updDisp f g).tilesOff = s.tilesOff := rfl
@[simp] theorem State.updDisp_net (f : Nat) (g : Disp → Disp) : (s.updDisp f g).net = s.net := rfl
@[simp] theorem State.updDisp_pips (f : Nat) (g : Disp → Disp) : (s.updDisp f g).pips = s.pips := rfl
@[simp] theorem State.updDisp_io (f : Nat) (g : Disp → Disp) : (s.updDisp f g).io = s.io := rfl
@[simp] theorem State.updDisp_mem (f : Nat) (g : Disp → Disp) : (s.updDisp f g).mem = s.mem := rfl
@[simp] theorem State.updDisp_hostMem (f : Nat) (g : Disp → Disp) : (s.updDisp f g).hostMem = s.hostMem := rfl
@[simp] theorem State.updDisp_hostPoison (f : Nat) (g : Disp → Disp) : (s.updDisp f g).hostPoison = s.hostPoison := rfl
@[simp] theorem State.updDisp_d2h (f : Nat) (g : Disp → Disp) : (s.updDisp f g).d2h = s.d2h := rfl
@[simp] theorem State.updDisp_bisnp (f : Nat) (g : Disp → Disp) : (s.updDisp f g).bisnp = s.bisnp := rfl
@[simp] theorem State.updDisp_answers (f : Nat) (g : Disp → Disp) : (s.updDisp f g).answers = s.answers := rfl
@[simp] theorem State.updDisp_goPend (f : Nat) (g : Disp → Disp) : (s.updDisp f g).goPend = s.goPend := rfl
@[simp] theorem State.updDisp_works (f : Nat) (g : Disp → Disp) : (s.updDisp f g).works = s.works := rfl
@[simp] theorem State.updDisp_nextWork (f : Nat) (g : Disp → Disp) : (s.updDisp f g).nextWork = s.nextWork := rfl
@[simp] theorem State.updDisp_lastReady (f : Nat) (g : Disp → Disp) : (s.updDisp f g).lastReady = s.lastReady := rfl
@[simp] theorem State.updDisp_pulses (f : Nat) (g : Disp → Disp) : (s.updDisp f g).pulses = s.pulses := rfl
@[simp] theorem State.updDisp_cmp (f : Nat) (g : Disp → Disp) : (s.updDisp f g).cmp = s.cmp := rfl
@[simp] theorem State.updDisp_cmpOff (f : Nat) (g : Disp → Disp) : (s.updDisp f g).cmpOff = s.cmpOff := rfl
@[simp] theorem State.updDisp_cmpCtxs (f : Nat) (g : Disp → Disp) : (s.updDisp f g).cmpCtxs = s.cmpCtxs := rfl
@[simp] theorem State.updDisp_dma (f : Nat) (g : Disp → Disp) : (s.updDisp f g).dma = s.dma := rfl
@[simp] theorem State.updDisp_dmaOff (f : Nat) (g : Disp → Disp) : (s.updDisp f g).dmaOff = s.dmaOff := rfl
@[simp] theorem State.updDisp_dgs (f : Nat) (g : Disp → Disp) : (s.updDisp f g).dgs = s.dgs := rfl
@[simp] theorem State.updDisp_dgsOff (f : Nat) (g : Disp → Disp) : (s.updDisp f g).dgsOff = s.dgsOff := rfl
@[simp] theorem State.updDisp_keys (f : Nat) (g : Disp → Disp) : (s.updDisp f g).keys = s.keys := rfl
@[simp] theorem State.updDisp_brm (f : Nat) (g : Disp → Disp) : (s.updDisp f g).brm = s.brm := rfl
@[simp] theorem State.updDisp_brmOff (f : Nat) (g : Disp → Disp) : (s.updDisp f g).brmOff = s.brmOff := rfl
@[simp] theorem State.updDisp_mboxes (f : Nat) (g : Disp → Disp) : (s.updDisp f g).mboxes = s.mboxes := rfl
@[simp] theorem State.updDisp_eunto (f : Nat) (g : Disp → Disp) : (s.updDisp f g).eunto = s.eunto := rfl
@[simp] theorem State.updDisp_euntoLast (f : Nat) (g : Disp → Disp) : (s.updDisp f g).euntoLast = s.euntoLast := rfl
@[simp] theorem State.updDisp_euntoReq (f : Nat) (g : Disp → Disp) : (s.updDisp f g).euntoReq = s.euntoReq := rfl
@[simp] theorem State.updDisp_euntoSeq (f : Nat) (g : Disp → Disp) : (s.updDisp f g).euntoSeq = s.euntoSeq := rfl
@[simp] theorem State.updDisp_euntoArg (f : Nat) (g : Disp → Disp) : (s.updDisp f g).euntoArg = s.euntoArg := rfl
@[simp] theorem State.updDisp_euntoMute (f : Nat) (g : Disp → Disp) : (s.updDisp f g).euntoMute = s.euntoMute := rfl
@[simp] theorem State.updDisp_dstate (f : Nat) (g : Disp → Disp) : (s.updDisp f g).dstate = s.dstate := rfl
@[simp] theorem State.updDisp_cad (f : Nat) (g : Disp → Disp) : (s.updDisp f g).cad = s.cad := rfl
@[simp] theorem State.updDisp_krl (f : Nat) (g : Disp → Disp) : (s.updDisp f g).krl = s.krl := rfl
@[simp] theorem State.updDisp_runtimeVer (f : Nat) (g : Disp → Disp) : (s.updDisp f g).runtimeVer = s.runtimeVer := rfl
@[simp] theorem State.updDisp_bindLast (f : Nat) (g : Disp → Disp) : (s.updDisp f g).bindLast = s.bindLast := rfl
@[simp] theorem State.updDisp_tileTemp (f : Nat) (g : Disp → Disp) : (s.updDisp f g).tileTemp = s.tileTemp := rfl
@[simp] theorem State.updDisp_unreliable (f : Nat) (g : Disp → Disp) : (s.updDisp f g).unreliable = s.unreliable := rfl
@[simp] theorem State.updDisp_host (f : Nat) (g : Disp → Disp) : (s.updDisp f g).host = s.host := rfl
@[simp] theorem State.updDisp_errlog (f : Nat) (g : Disp → Disp) : (s.updDisp f g).errlog = s.errlog := rfl
@[simp] theorem State.updDisp_kstData (f : Nat) (g : Disp → Disp) : (s.updDisp f g).kstData = s.kstData := rfl
@[simp] theorem State.updDisp_kstCmd (f : Nat) (g : Disp → Disp) : (s.updDisp f g).kstCmd = s.kstCmd := rfl
@[simp] theorem State.updDisp_nv (f : Nat) (g : Disp → Disp) : (s.updDisp f g).nv = s.nv := rfl
@[simp] theorem State.updDisp_upd (f : Nat) (g : Disp → Disp) : (s.updDisp f g).upd = s.upd := rfl
@[simp] theorem State.updDisp_spdm (f : Nat) (g : Disp → Disp) : (s.updDisp f g).spdm = s.spdm := rfl
@[simp] theorem State.updDisp_pw (f : Nat) (g : Disp → Disp) : (s.updDisp f g).pw = s.pw := rfl
@[simp] theorem State.updDisp_rel (f : Nat) (g : Disp → Disp) : (s.updDisp f g).rel = s.rel := rfl

@[simp] theorem State.updQuery_pending (f q : Nat) (g : Query → Query) : (s.updQuery f q g).pending = s.pending := rfl
@[simp] theorem State.updQuery_freeCtr (f q : Nat) (g : Query → Query) : (s.updQuery f q g).freeCtr = s.freeCtr := rfl
@[simp] theorem State.updQuery_part (f q : Nat) (g : Query → Query) : (s.updQuery f q g).part = s.part := rfl
@[simp] theorem State.updQuery_now (f q : Nat) (g : Query → Query) : (s.updQuery f q g).now = s.now := rfl
@[simp] theorem State.updQuery_entryPc (f q : Nat) (g : Query → Query) : (s.updQuery f q g).entryPc = s.entryPc := rfl
@[simp] theorem State.updQuery_tiles (f q : Nat) (g : Query → Query) : (s.updQuery f q g).tiles = s.tiles := rfl
@[simp] theorem State.updQuery_slices (f q : Nat) (g : Query → Query) : (s.updQuery f q g).slices = s.slices := rfl
@[simp] theorem State.updQuery_homeMap (f q : Nat) (g : Query → Query) : (s.updQuery f q g).homeMap = s.homeMap := rfl
@[simp] theorem State.updQuery_slicesOff (f q : Nat) (g : Query → Query) : (s.updQuery f q g).slicesOff = s.slicesOff := rfl
@[simp] theorem State.updQuery_tilesOff (f q : Nat) (g : Query → Query) : (s.updQuery f q g).tilesOff = s.tilesOff := rfl
@[simp] theorem State.updQuery_net (f q : Nat) (g : Query → Query) : (s.updQuery f q g).net = s.net := rfl
@[simp] theorem State.updQuery_pips (f q : Nat) (g : Query → Query) : (s.updQuery f q g).pips = s.pips := rfl
@[simp] theorem State.updQuery_io (f q : Nat) (g : Query → Query) : (s.updQuery f q g).io = s.io := rfl
@[simp] theorem State.updQuery_mem (f q : Nat) (g : Query → Query) : (s.updQuery f q g).mem = s.mem := rfl
@[simp] theorem State.updQuery_hostMem (f q : Nat) (g : Query → Query) : (s.updQuery f q g).hostMem = s.hostMem := rfl
@[simp] theorem State.updQuery_hostPoison (f q : Nat) (g : Query → Query) : (s.updQuery f q g).hostPoison = s.hostPoison := rfl
@[simp] theorem State.updQuery_d2h (f q : Nat) (g : Query → Query) : (s.updQuery f q g).d2h = s.d2h := rfl
@[simp] theorem State.updQuery_bisnp (f q : Nat) (g : Query → Query) : (s.updQuery f q g).bisnp = s.bisnp := rfl
@[simp] theorem State.updQuery_answers (f q : Nat) (g : Query → Query) : (s.updQuery f q g).answers = s.answers := rfl
@[simp] theorem State.updQuery_goPend (f q : Nat) (g : Query → Query) : (s.updQuery f q g).goPend = s.goPend := rfl
@[simp] theorem State.updQuery_works (f q : Nat) (g : Query → Query) : (s.updQuery f q g).works = s.works := rfl
@[simp] theorem State.updQuery_nextWork (f q : Nat) (g : Query → Query) : (s.updQuery f q g).nextWork = s.nextWork := rfl
@[simp] theorem State.updQuery_lastReady (f q : Nat) (g : Query → Query) : (s.updQuery f q g).lastReady = s.lastReady := rfl
@[simp] theorem State.updQuery_pulses (f q : Nat) (g : Query → Query) : (s.updQuery f q g).pulses = s.pulses := rfl
@[simp] theorem State.updQuery_cmp (f q : Nat) (g : Query → Query) : (s.updQuery f q g).cmp = s.cmp := rfl
@[simp] theorem State.updQuery_cmpOff (f q : Nat) (g : Query → Query) : (s.updQuery f q g).cmpOff = s.cmpOff := rfl
@[simp] theorem State.updQuery_cmpCtxs (f q : Nat) (g : Query → Query) : (s.updQuery f q g).cmpCtxs = s.cmpCtxs := rfl
@[simp] theorem State.updQuery_dma (f q : Nat) (g : Query → Query) : (s.updQuery f q g).dma = s.dma := rfl
@[simp] theorem State.updQuery_dmaOff (f q : Nat) (g : Query → Query) : (s.updQuery f q g).dmaOff = s.dmaOff := rfl
@[simp] theorem State.updQuery_dgs (f q : Nat) (g : Query → Query) : (s.updQuery f q g).dgs = s.dgs := rfl
@[simp] theorem State.updQuery_dgsOff (f q : Nat) (g : Query → Query) : (s.updQuery f q g).dgsOff = s.dgsOff := rfl
@[simp] theorem State.updQuery_keys (f q : Nat) (g : Query → Query) : (s.updQuery f q g).keys = s.keys := rfl
@[simp] theorem State.updQuery_brm (f q : Nat) (g : Query → Query) : (s.updQuery f q g).brm = s.brm := rfl
@[simp] theorem State.updQuery_brmOff (f q : Nat) (g : Query → Query) : (s.updQuery f q g).brmOff = s.brmOff := rfl
@[simp] theorem State.updQuery_mboxes (f q : Nat) (g : Query → Query) : (s.updQuery f q g).mboxes = s.mboxes := rfl
@[simp] theorem State.updQuery_eunto (f q : Nat) (g : Query → Query) : (s.updQuery f q g).eunto = s.eunto := rfl
@[simp] theorem State.updQuery_euntoLast (f q : Nat) (g : Query → Query) : (s.updQuery f q g).euntoLast = s.euntoLast := rfl
@[simp] theorem State.updQuery_euntoReq (f q : Nat) (g : Query → Query) : (s.updQuery f q g).euntoReq = s.euntoReq := rfl
@[simp] theorem State.updQuery_euntoSeq (f q : Nat) (g : Query → Query) : (s.updQuery f q g).euntoSeq = s.euntoSeq := rfl
@[simp] theorem State.updQuery_euntoArg (f q : Nat) (g : Query → Query) : (s.updQuery f q g).euntoArg = s.euntoArg := rfl
@[simp] theorem State.updQuery_euntoMute (f q : Nat) (g : Query → Query) : (s.updQuery f q g).euntoMute = s.euntoMute := rfl
@[simp] theorem State.updQuery_dstate (f q : Nat) (g : Query → Query) : (s.updQuery f q g).dstate = s.dstate := rfl
@[simp] theorem State.updQuery_cad (f q : Nat) (g : Query → Query) : (s.updQuery f q g).cad = s.cad := rfl
@[simp] theorem State.updQuery_krl (f q : Nat) (g : Query → Query) : (s.updQuery f q g).krl = s.krl := rfl
@[simp] theorem State.updQuery_runtimeVer (f q : Nat) (g : Query → Query) : (s.updQuery f q g).runtimeVer = s.runtimeVer := rfl
@[simp] theorem State.updQuery_bindLast (f q : Nat) (g : Query → Query) : (s.updQuery f q g).bindLast = s.bindLast := rfl
@[simp] theorem State.updQuery_tileTemp (f q : Nat) (g : Query → Query) : (s.updQuery f q g).tileTemp = s.tileTemp := rfl
@[simp] theorem State.updQuery_unreliable (f q : Nat) (g : Query → Query) : (s.updQuery f q g).unreliable = s.unreliable := rfl
@[simp] theorem State.updQuery_host (f q : Nat) (g : Query → Query) : (s.updQuery f q g).host = s.host := rfl
@[simp] theorem State.updQuery_errlog (f q : Nat) (g : Query → Query) : (s.updQuery f q g).errlog = s.errlog := rfl
@[simp] theorem State.updQuery_kstData (f q : Nat) (g : Query → Query) : (s.updQuery f q g).kstData = s.kstData := rfl
@[simp] theorem State.updQuery_kstCmd (f q : Nat) (g : Query → Query) : (s.updQuery f q g).kstCmd = s.kstCmd := rfl
@[simp] theorem State.updQuery_nv (f q : Nat) (g : Query → Query) : (s.updQuery f q g).nv = s.nv := rfl
@[simp] theorem State.updQuery_upd (f q : Nat) (g : Query → Query) : (s.updQuery f q g).upd = s.upd := rfl
@[simp] theorem State.updQuery_spdm (f q : Nat) (g : Query → Query) : (s.updQuery f q g).spdm = s.spdm := rfl
@[simp] theorem State.updQuery_pw (f q : Nat) (g : Query → Query) : (s.updQuery f q g).pw = s.pw := rfl
@[simp] theorem State.updQuery_rel (f q : Nat) (g : Query → Query) : (s.updQuery f q g).rel = s.rel := rfl

@[simp] theorem State.updPair_pending (f q : Nat) (g : QPair → QPair) : (s.updPair f q g).pending = s.pending := rfl
@[simp] theorem State.updPair_freeCtr (f q : Nat) (g : QPair → QPair) : (s.updPair f q g).freeCtr = s.freeCtr := rfl
@[simp] theorem State.updPair_part (f q : Nat) (g : QPair → QPair) : (s.updPair f q g).part = s.part := rfl
@[simp] theorem State.updPair_now (f q : Nat) (g : QPair → QPair) : (s.updPair f q g).now = s.now := rfl
@[simp] theorem State.updPair_entryPc (f q : Nat) (g : QPair → QPair) : (s.updPair f q g).entryPc = s.entryPc := rfl
@[simp] theorem State.updPair_tiles (f q : Nat) (g : QPair → QPair) : (s.updPair f q g).tiles = s.tiles := rfl
@[simp] theorem State.updPair_slices (f q : Nat) (g : QPair → QPair) : (s.updPair f q g).slices = s.slices := rfl
@[simp] theorem State.updPair_homeMap (f q : Nat) (g : QPair → QPair) : (s.updPair f q g).homeMap = s.homeMap := rfl
@[simp] theorem State.updPair_slicesOff (f q : Nat) (g : QPair → QPair) : (s.updPair f q g).slicesOff = s.slicesOff := rfl
@[simp] theorem State.updPair_tilesOff (f q : Nat) (g : QPair → QPair) : (s.updPair f q g).tilesOff = s.tilesOff := rfl
@[simp] theorem State.updPair_net (f q : Nat) (g : QPair → QPair) : (s.updPair f q g).net = s.net := rfl
@[simp] theorem State.updPair_pips (f q : Nat) (g : QPair → QPair) : (s.updPair f q g).pips = s.pips := rfl
@[simp] theorem State.updPair_io (f q : Nat) (g : QPair → QPair) : (s.updPair f q g).io = s.io := rfl
@[simp] theorem State.updPair_mem (f q : Nat) (g : QPair → QPair) : (s.updPair f q g).mem = s.mem := rfl
@[simp] theorem State.updPair_hostMem (f q : Nat) (g : QPair → QPair) : (s.updPair f q g).hostMem = s.hostMem := rfl
@[simp] theorem State.updPair_hostPoison (f q : Nat) (g : QPair → QPair) : (s.updPair f q g).hostPoison = s.hostPoison := rfl
@[simp] theorem State.updPair_d2h (f q : Nat) (g : QPair → QPair) : (s.updPair f q g).d2h = s.d2h := rfl
@[simp] theorem State.updPair_bisnp (f q : Nat) (g : QPair → QPair) : (s.updPair f q g).bisnp = s.bisnp := rfl
@[simp] theorem State.updPair_answers (f q : Nat) (g : QPair → QPair) : (s.updPair f q g).answers = s.answers := rfl
@[simp] theorem State.updPair_goPend (f q : Nat) (g : QPair → QPair) : (s.updPair f q g).goPend = s.goPend := rfl
@[simp] theorem State.updPair_works (f q : Nat) (g : QPair → QPair) : (s.updPair f q g).works = s.works := rfl
@[simp] theorem State.updPair_nextWork (f q : Nat) (g : QPair → QPair) : (s.updPair f q g).nextWork = s.nextWork := rfl
@[simp] theorem State.updPair_lastReady (f q : Nat) (g : QPair → QPair) : (s.updPair f q g).lastReady = s.lastReady := rfl
@[simp] theorem State.updPair_pulses (f q : Nat) (g : QPair → QPair) : (s.updPair f q g).pulses = s.pulses := rfl
@[simp] theorem State.updPair_cmp (f q : Nat) (g : QPair → QPair) : (s.updPair f q g).cmp = s.cmp := rfl
@[simp] theorem State.updPair_cmpOff (f q : Nat) (g : QPair → QPair) : (s.updPair f q g).cmpOff = s.cmpOff := rfl
@[simp] theorem State.updPair_cmpCtxs (f q : Nat) (g : QPair → QPair) : (s.updPair f q g).cmpCtxs = s.cmpCtxs := rfl
@[simp] theorem State.updPair_dma (f q : Nat) (g : QPair → QPair) : (s.updPair f q g).dma = s.dma := rfl
@[simp] theorem State.updPair_dmaOff (f q : Nat) (g : QPair → QPair) : (s.updPair f q g).dmaOff = s.dmaOff := rfl
@[simp] theorem State.updPair_dgs (f q : Nat) (g : QPair → QPair) : (s.updPair f q g).dgs = s.dgs := rfl
@[simp] theorem State.updPair_dgsOff (f q : Nat) (g : QPair → QPair) : (s.updPair f q g).dgsOff = s.dgsOff := rfl
@[simp] theorem State.updPair_keys (f q : Nat) (g : QPair → QPair) : (s.updPair f q g).keys = s.keys := rfl
@[simp] theorem State.updPair_brm (f q : Nat) (g : QPair → QPair) : (s.updPair f q g).brm = s.brm := rfl
@[simp] theorem State.updPair_brmOff (f q : Nat) (g : QPair → QPair) : (s.updPair f q g).brmOff = s.brmOff := rfl
@[simp] theorem State.updPair_mboxes (f q : Nat) (g : QPair → QPair) : (s.updPair f q g).mboxes = s.mboxes := rfl
@[simp] theorem State.updPair_eunto (f q : Nat) (g : QPair → QPair) : (s.updPair f q g).eunto = s.eunto := rfl
@[simp] theorem State.updPair_euntoLast (f q : Nat) (g : QPair → QPair) : (s.updPair f q g).euntoLast = s.euntoLast := rfl
@[simp] theorem State.updPair_euntoReq (f q : Nat) (g : QPair → QPair) : (s.updPair f q g).euntoReq = s.euntoReq := rfl
@[simp] theorem State.updPair_euntoSeq (f q : Nat) (g : QPair → QPair) : (s.updPair f q g).euntoSeq = s.euntoSeq := rfl
@[simp] theorem State.updPair_euntoArg (f q : Nat) (g : QPair → QPair) : (s.updPair f q g).euntoArg = s.euntoArg := rfl
@[simp] theorem State.updPair_euntoMute (f q : Nat) (g : QPair → QPair) : (s.updPair f q g).euntoMute = s.euntoMute := rfl
@[simp] theorem State.updPair_dstate (f q : Nat) (g : QPair → QPair) : (s.updPair f q g).dstate = s.dstate := rfl
@[simp] theorem State.updPair_cad (f q : Nat) (g : QPair → QPair) : (s.updPair f q g).cad = s.cad := rfl
@[simp] theorem State.updPair_krl (f q : Nat) (g : QPair → QPair) : (s.updPair f q g).krl = s.krl := rfl
@[simp] theorem State.updPair_runtimeVer (f q : Nat) (g : QPair → QPair) : (s.updPair f q g).runtimeVer = s.runtimeVer := rfl
@[simp] theorem State.updPair_bindLast (f q : Nat) (g : QPair → QPair) : (s.updPair f q g).bindLast = s.bindLast := rfl
@[simp] theorem State.updPair_tileTemp (f q : Nat) (g : QPair → QPair) : (s.updPair f q g).tileTemp = s.tileTemp := rfl
@[simp] theorem State.updPair_unreliable (f q : Nat) (g : QPair → QPair) : (s.updPair f q g).unreliable = s.unreliable := rfl
@[simp] theorem State.updPair_host (f q : Nat) (g : QPair → QPair) : (s.updPair f q g).host = s.host := rfl
@[simp] theorem State.updPair_errlog (f q : Nat) (g : QPair → QPair) : (s.updPair f q g).errlog = s.errlog := rfl
@[simp] theorem State.updPair_kstData (f q : Nat) (g : QPair → QPair) : (s.updPair f q g).kstData = s.kstData := rfl
@[simp] theorem State.updPair_kstCmd (f q : Nat) (g : QPair → QPair) : (s.updPair f q g).kstCmd = s.kstCmd := rfl
@[simp] theorem State.updPair_nv (f q : Nat) (g : QPair → QPair) : (s.updPair f q g).nv = s.nv := rfl
@[simp] theorem State.updPair_upd (f q : Nat) (g : QPair → QPair) : (s.updPair f q g).upd = s.upd := rfl
@[simp] theorem State.updPair_spdm (f q : Nat) (g : QPair → QPair) : (s.updPair f q g).spdm = s.spdm := rfl
@[simp] theorem State.updPair_pw (f q : Nat) (g : QPair → QPair) : (s.updPair f q g).pw = s.pw := rfl
@[simp] theorem State.updPair_rel (f q : Nat) (g : QPair → QPair) : (s.updPair f q g).rel = s.rel := rfl

@[simp] theorem State.updWork_pending (w : Nat) (g : Work → Work) : (s.updWork w g).pending = s.pending := rfl
@[simp] theorem State.updWork_freeCtr (w : Nat) (g : Work → Work) : (s.updWork w g).freeCtr = s.freeCtr := rfl
@[simp] theorem State.updWork_part (w : Nat) (g : Work → Work) : (s.updWork w g).part = s.part := rfl
@[simp] theorem State.updWork_now (w : Nat) (g : Work → Work) : (s.updWork w g).now = s.now := rfl
@[simp] theorem State.updWork_entryPc (w : Nat) (g : Work → Work) : (s.updWork w g).entryPc = s.entryPc := rfl
@[simp] theorem State.updWork_tiles (w : Nat) (g : Work → Work) : (s.updWork w g).tiles = s.tiles := rfl
@[simp] theorem State.updWork_slices (w : Nat) (g : Work → Work) : (s.updWork w g).slices = s.slices := rfl
@[simp] theorem State.updWork_homeMap (w : Nat) (g : Work → Work) : (s.updWork w g).homeMap = s.homeMap := rfl
@[simp] theorem State.updWork_slicesOff (w : Nat) (g : Work → Work) : (s.updWork w g).slicesOff = s.slicesOff := rfl
@[simp] theorem State.updWork_tilesOff (w : Nat) (g : Work → Work) : (s.updWork w g).tilesOff = s.tilesOff := rfl
@[simp] theorem State.updWork_net (w : Nat) (g : Work → Work) : (s.updWork w g).net = s.net := rfl
@[simp] theorem State.updWork_pips (w : Nat) (g : Work → Work) : (s.updWork w g).pips = s.pips := rfl
@[simp] theorem State.updWork_io (w : Nat) (g : Work → Work) : (s.updWork w g).io = s.io := rfl
@[simp] theorem State.updWork_mem (w : Nat) (g : Work → Work) : (s.updWork w g).mem = s.mem := rfl
@[simp] theorem State.updWork_hostMem (w : Nat) (g : Work → Work) : (s.updWork w g).hostMem = s.hostMem := rfl
@[simp] theorem State.updWork_hostPoison (w : Nat) (g : Work → Work) : (s.updWork w g).hostPoison = s.hostPoison := rfl
@[simp] theorem State.updWork_d2h (w : Nat) (g : Work → Work) : (s.updWork w g).d2h = s.d2h := rfl
@[simp] theorem State.updWork_bisnp (w : Nat) (g : Work → Work) : (s.updWork w g).bisnp = s.bisnp := rfl
@[simp] theorem State.updWork_answers (w : Nat) (g : Work → Work) : (s.updWork w g).answers = s.answers := rfl
@[simp] theorem State.updWork_goPend (w : Nat) (g : Work → Work) : (s.updWork w g).goPend = s.goPend := rfl
@[simp] theorem State.updWork_tenants (w : Nat) (g : Work → Work) : (s.updWork w g).tenants = s.tenants := rfl
@[simp] theorem State.updWork_nextWork (w : Nat) (g : Work → Work) : (s.updWork w g).nextWork = s.nextWork := rfl
@[simp] theorem State.updWork_lastReady (w : Nat) (g : Work → Work) : (s.updWork w g).lastReady = s.lastReady := rfl
@[simp] theorem State.updWork_pulses (w : Nat) (g : Work → Work) : (s.updWork w g).pulses = s.pulses := rfl
@[simp] theorem State.updWork_cmp (w : Nat) (g : Work → Work) : (s.updWork w g).cmp = s.cmp := rfl
@[simp] theorem State.updWork_cmpOff (w : Nat) (g : Work → Work) : (s.updWork w g).cmpOff = s.cmpOff := rfl
@[simp] theorem State.updWork_cmpCtxs (w : Nat) (g : Work → Work) : (s.updWork w g).cmpCtxs = s.cmpCtxs := rfl
@[simp] theorem State.updWork_dma (w : Nat) (g : Work → Work) : (s.updWork w g).dma = s.dma := rfl
@[simp] theorem State.updWork_dmaOff (w : Nat) (g : Work → Work) : (s.updWork w g).dmaOff = s.dmaOff := rfl
@[simp] theorem State.updWork_dgs (w : Nat) (g : Work → Work) : (s.updWork w g).dgs = s.dgs := rfl
@[simp] theorem State.updWork_dgsOff (w : Nat) (g : Work → Work) : (s.updWork w g).dgsOff = s.dgsOff := rfl
@[simp] theorem State.updWork_keys (w : Nat) (g : Work → Work) : (s.updWork w g).keys = s.keys := rfl
@[simp] theorem State.updWork_brm (w : Nat) (g : Work → Work) : (s.updWork w g).brm = s.brm := rfl
@[simp] theorem State.updWork_brmOff (w : Nat) (g : Work → Work) : (s.updWork w g).brmOff = s.brmOff := rfl
@[simp] theorem State.updWork_mboxes (w : Nat) (g : Work → Work) : (s.updWork w g).mboxes = s.mboxes := rfl
@[simp] theorem State.updWork_eunto (w : Nat) (g : Work → Work) : (s.updWork w g).eunto = s.eunto := rfl
@[simp] theorem State.updWork_euntoLast (w : Nat) (g : Work → Work) : (s.updWork w g).euntoLast = s.euntoLast := rfl
@[simp] theorem State.updWork_euntoReq (w : Nat) (g : Work → Work) : (s.updWork w g).euntoReq = s.euntoReq := rfl
@[simp] theorem State.updWork_euntoSeq (w : Nat) (g : Work → Work) : (s.updWork w g).euntoSeq = s.euntoSeq := rfl
@[simp] theorem State.updWork_euntoArg (w : Nat) (g : Work → Work) : (s.updWork w g).euntoArg = s.euntoArg := rfl
@[simp] theorem State.updWork_euntoMute (w : Nat) (g : Work → Work) : (s.updWork w g).euntoMute = s.euntoMute := rfl
@[simp] theorem State.updWork_dstate (w : Nat) (g : Work → Work) : (s.updWork w g).dstate = s.dstate := rfl
@[simp] theorem State.updWork_cad (w : Nat) (g : Work → Work) : (s.updWork w g).cad = s.cad := rfl
@[simp] theorem State.updWork_krl (w : Nat) (g : Work → Work) : (s.updWork w g).krl = s.krl := rfl
@[simp] theorem State.updWork_runtimeVer (w : Nat) (g : Work → Work) : (s.updWork w g).runtimeVer = s.runtimeVer := rfl
@[simp] theorem State.updWork_bindLast (w : Nat) (g : Work → Work) : (s.updWork w g).bindLast = s.bindLast := rfl
@[simp] theorem State.updWork_tileTemp (w : Nat) (g : Work → Work) : (s.updWork w g).tileTemp = s.tileTemp := rfl
@[simp] theorem State.updWork_unreliable (w : Nat) (g : Work → Work) : (s.updWork w g).unreliable = s.unreliable := rfl
@[simp] theorem State.updWork_host (w : Nat) (g : Work → Work) : (s.updWork w g).host = s.host := rfl
@[simp] theorem State.updWork_errlog (w : Nat) (g : Work → Work) : (s.updWork w g).errlog = s.errlog := rfl
@[simp] theorem State.updWork_kstData (w : Nat) (g : Work → Work) : (s.updWork w g).kstData = s.kstData := rfl
@[simp] theorem State.updWork_kstCmd (w : Nat) (g : Work → Work) : (s.updWork w g).kstCmd = s.kstCmd := rfl
@[simp] theorem State.updWork_nv (w : Nat) (g : Work → Work) : (s.updWork w g).nv = s.nv := rfl
@[simp] theorem State.updWork_upd (w : Nat) (g : Work → Work) : (s.updWork w g).upd = s.upd := rfl
@[simp] theorem State.updWork_spdm (w : Nat) (g : Work → Work) : (s.updWork w g).spdm = s.spdm := rfl
@[simp] theorem State.updWork_pw (w : Nat) (g : Work → Work) : (s.updWork w g).pw = s.pw := rfl
@[simp] theorem State.updWork_rel (w : Nat) (g : Work → Work) : (s.updWork w g).rel = s.rel := rfl

@[simp] theorem State.updCmp_pending (c : Nat) (g : CmpChan → CmpChan) : (s.updCmp c g).pending = s.pending := rfl
@[simp] theorem State.updCmp_freeCtr (c : Nat) (g : CmpChan → CmpChan) : (s.updCmp c g).freeCtr = s.freeCtr := rfl
@[simp] theorem State.updCmp_part (c : Nat) (g : CmpChan → CmpChan) : (s.updCmp c g).part = s.part := rfl
@[simp] theorem State.updCmp_now (c : Nat) (g : CmpChan → CmpChan) : (s.updCmp c g).now = s.now := rfl
@[simp] theorem State.updCmp_entryPc (c : Nat) (g : CmpChan → CmpChan) : (s.updCmp c g).entryPc = s.entryPc := rfl
@[simp] theorem State.updCmp_tiles (c : Nat) (g : CmpChan → CmpChan) : (s.updCmp c g).tiles = s.tiles := rfl
@[simp] theorem State.updCmp_slices (c : Nat) (g : CmpChan → CmpChan) : (s.updCmp c g).slices = s.slices := rfl
@[simp] theorem State.updCmp_homeMap (c : Nat) (g : CmpChan → CmpChan) : (s.updCmp c g).homeMap = s.homeMap := rfl
@[simp] theorem State.updCmp_slicesOff (c : Nat) (g : CmpChan → CmpChan) : (s.updCmp c g).slicesOff = s.slicesOff := rfl
@[simp] theorem State.updCmp_tilesOff (c : Nat) (g : CmpChan → CmpChan) : (s.updCmp c g).tilesOff = s.tilesOff := rfl
@[simp] theorem State.updCmp_net (c : Nat) (g : CmpChan → CmpChan) : (s.updCmp c g).net = s.net := rfl
@[simp] theorem State.updCmp_pips (c : Nat) (g : CmpChan → CmpChan) : (s.updCmp c g).pips = s.pips := rfl
@[simp] theorem State.updCmp_io (c : Nat) (g : CmpChan → CmpChan) : (s.updCmp c g).io = s.io := rfl
@[simp] theorem State.updCmp_mem (c : Nat) (g : CmpChan → CmpChan) : (s.updCmp c g).mem = s.mem := rfl
@[simp] theorem State.updCmp_hostMem (c : Nat) (g : CmpChan → CmpChan) : (s.updCmp c g).hostMem = s.hostMem := rfl
@[simp] theorem State.updCmp_hostPoison (c : Nat) (g : CmpChan → CmpChan) : (s.updCmp c g).hostPoison = s.hostPoison := rfl
@[simp] theorem State.updCmp_d2h (c : Nat) (g : CmpChan → CmpChan) : (s.updCmp c g).d2h = s.d2h := rfl
@[simp] theorem State.updCmp_bisnp (c : Nat) (g : CmpChan → CmpChan) : (s.updCmp c g).bisnp = s.bisnp := rfl
@[simp] theorem State.updCmp_answers (c : Nat) (g : CmpChan → CmpChan) : (s.updCmp c g).answers = s.answers := rfl
@[simp] theorem State.updCmp_goPend (c : Nat) (g : CmpChan → CmpChan) : (s.updCmp c g).goPend = s.goPend := rfl
@[simp] theorem State.updCmp_tenants (c : Nat) (g : CmpChan → CmpChan) : (s.updCmp c g).tenants = s.tenants := rfl
@[simp] theorem State.updCmp_works (c : Nat) (g : CmpChan → CmpChan) : (s.updCmp c g).works = s.works := rfl
@[simp] theorem State.updCmp_nextWork (c : Nat) (g : CmpChan → CmpChan) : (s.updCmp c g).nextWork = s.nextWork := rfl
@[simp] theorem State.updCmp_lastReady (c : Nat) (g : CmpChan → CmpChan) : (s.updCmp c g).lastReady = s.lastReady := rfl
@[simp] theorem State.updCmp_pulses (c : Nat) (g : CmpChan → CmpChan) : (s.updCmp c g).pulses = s.pulses := rfl
@[simp] theorem State.updCmp_cmpOff (c : Nat) (g : CmpChan → CmpChan) : (s.updCmp c g).cmpOff = s.cmpOff := rfl
@[simp] theorem State.updCmp_cmpCtxs (c : Nat) (g : CmpChan → CmpChan) : (s.updCmp c g).cmpCtxs = s.cmpCtxs := rfl
@[simp] theorem State.updCmp_dma (c : Nat) (g : CmpChan → CmpChan) : (s.updCmp c g).dma = s.dma := rfl
@[simp] theorem State.updCmp_dmaOff (c : Nat) (g : CmpChan → CmpChan) : (s.updCmp c g).dmaOff = s.dmaOff := rfl
@[simp] theorem State.updCmp_dgs (c : Nat) (g : CmpChan → CmpChan) : (s.updCmp c g).dgs = s.dgs := rfl
@[simp] theorem State.updCmp_dgsOff (c : Nat) (g : CmpChan → CmpChan) : (s.updCmp c g).dgsOff = s.dgsOff := rfl
@[simp] theorem State.updCmp_keys (c : Nat) (g : CmpChan → CmpChan) : (s.updCmp c g).keys = s.keys := rfl
@[simp] theorem State.updCmp_brm (c : Nat) (g : CmpChan → CmpChan) : (s.updCmp c g).brm = s.brm := rfl
@[simp] theorem State.updCmp_brmOff (c : Nat) (g : CmpChan → CmpChan) : (s.updCmp c g).brmOff = s.brmOff := rfl
@[simp] theorem State.updCmp_mboxes (c : Nat) (g : CmpChan → CmpChan) : (s.updCmp c g).mboxes = s.mboxes := rfl
@[simp] theorem State.updCmp_eunto (c : Nat) (g : CmpChan → CmpChan) : (s.updCmp c g).eunto = s.eunto := rfl
@[simp] theorem State.updCmp_euntoLast (c : Nat) (g : CmpChan → CmpChan) : (s.updCmp c g).euntoLast = s.euntoLast := rfl
@[simp] theorem State.updCmp_euntoReq (c : Nat) (g : CmpChan → CmpChan) : (s.updCmp c g).euntoReq = s.euntoReq := rfl
@[simp] theorem State.updCmp_euntoSeq (c : Nat) (g : CmpChan → CmpChan) : (s.updCmp c g).euntoSeq = s.euntoSeq := rfl
@[simp] theorem State.updCmp_euntoArg (c : Nat) (g : CmpChan → CmpChan) : (s.updCmp c g).euntoArg = s.euntoArg := rfl
@[simp] theorem State.updCmp_euntoMute (c : Nat) (g : CmpChan → CmpChan) : (s.updCmp c g).euntoMute = s.euntoMute := rfl
@[simp] theorem State.updCmp_dstate (c : Nat) (g : CmpChan → CmpChan) : (s.updCmp c g).dstate = s.dstate := rfl
@[simp] theorem State.updCmp_cad (c : Nat) (g : CmpChan → CmpChan) : (s.updCmp c g).cad = s.cad := rfl
@[simp] theorem State.updCmp_krl (c : Nat) (g : CmpChan → CmpChan) : (s.updCmp c g).krl = s.krl := rfl
@[simp] theorem State.updCmp_runtimeVer (c : Nat) (g : CmpChan → CmpChan) : (s.updCmp c g).runtimeVer = s.runtimeVer := rfl
@[simp] theorem State.updCmp_bindLast (c : Nat) (g : CmpChan → CmpChan) : (s.updCmp c g).bindLast = s.bindLast := rfl
@[simp] theorem State.updCmp_tileTemp (c : Nat) (g : CmpChan → CmpChan) : (s.updCmp c g).tileTemp = s.tileTemp := rfl
@[simp] theorem State.updCmp_unreliable (c : Nat) (g : CmpChan → CmpChan) : (s.updCmp c g).unreliable = s.unreliable := rfl
@[simp] theorem State.updCmp_host (c : Nat) (g : CmpChan → CmpChan) : (s.updCmp c g).host = s.host := rfl
@[simp] theorem State.updCmp_errlog (c : Nat) (g : CmpChan → CmpChan) : (s.updCmp c g).errlog = s.errlog := rfl
@[simp] theorem State.updCmp_kstData (c : Nat) (g : CmpChan → CmpChan) : (s.updCmp c g).kstData = s.kstData := rfl
@[simp] theorem State.updCmp_kstCmd (c : Nat) (g : CmpChan → CmpChan) : (s.updCmp c g).kstCmd = s.kstCmd := rfl
@[simp] theorem State.updCmp_nv (c : Nat) (g : CmpChan → CmpChan) : (s.updCmp c g).nv = s.nv := rfl
@[simp] theorem State.updCmp_upd (c : Nat) (g : CmpChan → CmpChan) : (s.updCmp c g).upd = s.upd := rfl
@[simp] theorem State.updCmp_spdm (c : Nat) (g : CmpChan → CmpChan) : (s.updCmp c g).spdm = s.spdm := rfl
@[simp] theorem State.updCmp_pw (c : Nat) (g : CmpChan → CmpChan) : (s.updCmp c g).pw = s.pw := rfl
@[simp] theorem State.updCmp_rel (c : Nat) (g : CmpChan → CmpChan) : (s.updCmp c g).rel = s.rel := rfl

@[simp] theorem State.updDma_pending (c : Nat) (g : DmaChan → DmaChan) : (s.updDma c g).pending = s.pending := rfl
@[simp] theorem State.updDma_freeCtr (c : Nat) (g : DmaChan → DmaChan) : (s.updDma c g).freeCtr = s.freeCtr := rfl
@[simp] theorem State.updDma_part (c : Nat) (g : DmaChan → DmaChan) : (s.updDma c g).part = s.part := rfl
@[simp] theorem State.updDma_now (c : Nat) (g : DmaChan → DmaChan) : (s.updDma c g).now = s.now := rfl
@[simp] theorem State.updDma_entryPc (c : Nat) (g : DmaChan → DmaChan) : (s.updDma c g).entryPc = s.entryPc := rfl
@[simp] theorem State.updDma_tiles (c : Nat) (g : DmaChan → DmaChan) : (s.updDma c g).tiles = s.tiles := rfl
@[simp] theorem State.updDma_slices (c : Nat) (g : DmaChan → DmaChan) : (s.updDma c g).slices = s.slices := rfl
@[simp] theorem State.updDma_homeMap (c : Nat) (g : DmaChan → DmaChan) : (s.updDma c g).homeMap = s.homeMap := rfl
@[simp] theorem State.updDma_slicesOff (c : Nat) (g : DmaChan → DmaChan) : (s.updDma c g).slicesOff = s.slicesOff := rfl
@[simp] theorem State.updDma_tilesOff (c : Nat) (g : DmaChan → DmaChan) : (s.updDma c g).tilesOff = s.tilesOff := rfl
@[simp] theorem State.updDma_net (c : Nat) (g : DmaChan → DmaChan) : (s.updDma c g).net = s.net := rfl
@[simp] theorem State.updDma_pips (c : Nat) (g : DmaChan → DmaChan) : (s.updDma c g).pips = s.pips := rfl
@[simp] theorem State.updDma_io (c : Nat) (g : DmaChan → DmaChan) : (s.updDma c g).io = s.io := rfl
@[simp] theorem State.updDma_mem (c : Nat) (g : DmaChan → DmaChan) : (s.updDma c g).mem = s.mem := rfl
@[simp] theorem State.updDma_hostMem (c : Nat) (g : DmaChan → DmaChan) : (s.updDma c g).hostMem = s.hostMem := rfl
@[simp] theorem State.updDma_hostPoison (c : Nat) (g : DmaChan → DmaChan) : (s.updDma c g).hostPoison = s.hostPoison := rfl
@[simp] theorem State.updDma_d2h (c : Nat) (g : DmaChan → DmaChan) : (s.updDma c g).d2h = s.d2h := rfl
@[simp] theorem State.updDma_bisnp (c : Nat) (g : DmaChan → DmaChan) : (s.updDma c g).bisnp = s.bisnp := rfl
@[simp] theorem State.updDma_answers (c : Nat) (g : DmaChan → DmaChan) : (s.updDma c g).answers = s.answers := rfl
@[simp] theorem State.updDma_goPend (c : Nat) (g : DmaChan → DmaChan) : (s.updDma c g).goPend = s.goPend := rfl
@[simp] theorem State.updDma_tenants (c : Nat) (g : DmaChan → DmaChan) : (s.updDma c g).tenants = s.tenants := rfl
@[simp] theorem State.updDma_works (c : Nat) (g : DmaChan → DmaChan) : (s.updDma c g).works = s.works := rfl
@[simp] theorem State.updDma_nextWork (c : Nat) (g : DmaChan → DmaChan) : (s.updDma c g).nextWork = s.nextWork := rfl
@[simp] theorem State.updDma_lastReady (c : Nat) (g : DmaChan → DmaChan) : (s.updDma c g).lastReady = s.lastReady := rfl
@[simp] theorem State.updDma_pulses (c : Nat) (g : DmaChan → DmaChan) : (s.updDma c g).pulses = s.pulses := rfl
@[simp] theorem State.updDma_cmp (c : Nat) (g : DmaChan → DmaChan) : (s.updDma c g).cmp = s.cmp := rfl
@[simp] theorem State.updDma_cmpOff (c : Nat) (g : DmaChan → DmaChan) : (s.updDma c g).cmpOff = s.cmpOff := rfl
@[simp] theorem State.updDma_cmpCtxs (c : Nat) (g : DmaChan → DmaChan) : (s.updDma c g).cmpCtxs = s.cmpCtxs := rfl
@[simp] theorem State.updDma_dmaOff (c : Nat) (g : DmaChan → DmaChan) : (s.updDma c g).dmaOff = s.dmaOff := rfl
@[simp] theorem State.updDma_dgs (c : Nat) (g : DmaChan → DmaChan) : (s.updDma c g).dgs = s.dgs := rfl
@[simp] theorem State.updDma_dgsOff (c : Nat) (g : DmaChan → DmaChan) : (s.updDma c g).dgsOff = s.dgsOff := rfl
@[simp] theorem State.updDma_keys (c : Nat) (g : DmaChan → DmaChan) : (s.updDma c g).keys = s.keys := rfl
@[simp] theorem State.updDma_brm (c : Nat) (g : DmaChan → DmaChan) : (s.updDma c g).brm = s.brm := rfl
@[simp] theorem State.updDma_brmOff (c : Nat) (g : DmaChan → DmaChan) : (s.updDma c g).brmOff = s.brmOff := rfl
@[simp] theorem State.updDma_mboxes (c : Nat) (g : DmaChan → DmaChan) : (s.updDma c g).mboxes = s.mboxes := rfl
@[simp] theorem State.updDma_eunto (c : Nat) (g : DmaChan → DmaChan) : (s.updDma c g).eunto = s.eunto := rfl
@[simp] theorem State.updDma_euntoLast (c : Nat) (g : DmaChan → DmaChan) : (s.updDma c g).euntoLast = s.euntoLast := rfl
@[simp] theorem State.updDma_euntoReq (c : Nat) (g : DmaChan → DmaChan) : (s.updDma c g).euntoReq = s.euntoReq := rfl
@[simp] theorem State.updDma_euntoSeq (c : Nat) (g : DmaChan → DmaChan) : (s.updDma c g).euntoSeq = s.euntoSeq := rfl
@[simp] theorem State.updDma_euntoArg (c : Nat) (g : DmaChan → DmaChan) : (s.updDma c g).euntoArg = s.euntoArg := rfl
@[simp] theorem State.updDma_euntoMute (c : Nat) (g : DmaChan → DmaChan) : (s.updDma c g).euntoMute = s.euntoMute := rfl
@[simp] theorem State.updDma_dstate (c : Nat) (g : DmaChan → DmaChan) : (s.updDma c g).dstate = s.dstate := rfl
@[simp] theorem State.updDma_cad (c : Nat) (g : DmaChan → DmaChan) : (s.updDma c g).cad = s.cad := rfl
@[simp] theorem State.updDma_krl (c : Nat) (g : DmaChan → DmaChan) : (s.updDma c g).krl = s.krl := rfl
@[simp] theorem State.updDma_runtimeVer (c : Nat) (g : DmaChan → DmaChan) : (s.updDma c g).runtimeVer = s.runtimeVer := rfl
@[simp] theorem State.updDma_bindLast (c : Nat) (g : DmaChan → DmaChan) : (s.updDma c g).bindLast = s.bindLast := rfl
@[simp] theorem State.updDma_tileTemp (c : Nat) (g : DmaChan → DmaChan) : (s.updDma c g).tileTemp = s.tileTemp := rfl
@[simp] theorem State.updDma_unreliable (c : Nat) (g : DmaChan → DmaChan) : (s.updDma c g).unreliable = s.unreliable := rfl
@[simp] theorem State.updDma_host (c : Nat) (g : DmaChan → DmaChan) : (s.updDma c g).host = s.host := rfl
@[simp] theorem State.updDma_errlog (c : Nat) (g : DmaChan → DmaChan) : (s.updDma c g).errlog = s.errlog := rfl
@[simp] theorem State.updDma_kstData (c : Nat) (g : DmaChan → DmaChan) : (s.updDma c g).kstData = s.kstData := rfl
@[simp] theorem State.updDma_kstCmd (c : Nat) (g : DmaChan → DmaChan) : (s.updDma c g).kstCmd = s.kstCmd := rfl
@[simp] theorem State.updDma_nv (c : Nat) (g : DmaChan → DmaChan) : (s.updDma c g).nv = s.nv := rfl
@[simp] theorem State.updDma_upd (c : Nat) (g : DmaChan → DmaChan) : (s.updDma c g).upd = s.upd := rfl
@[simp] theorem State.updDma_spdm (c : Nat) (g : DmaChan → DmaChan) : (s.updDma c g).spdm = s.spdm := rfl
@[simp] theorem State.updDma_pw (c : Nat) (g : DmaChan → DmaChan) : (s.updDma c g).pw = s.pw := rfl
@[simp] theorem State.updDma_rel (c : Nat) (g : DmaChan → DmaChan) : (s.updDma c g).rel = s.rel := rfl

@[simp] theorem State.updDgs_pending (e : Nat) (g : DgsEng → DgsEng) : (s.updDgs e g).pending = s.pending := rfl
@[simp] theorem State.updDgs_freeCtr (e : Nat) (g : DgsEng → DgsEng) : (s.updDgs e g).freeCtr = s.freeCtr := rfl
@[simp] theorem State.updDgs_part (e : Nat) (g : DgsEng → DgsEng) : (s.updDgs e g).part = s.part := rfl
@[simp] theorem State.updDgs_now (e : Nat) (g : DgsEng → DgsEng) : (s.updDgs e g).now = s.now := rfl
@[simp] theorem State.updDgs_entryPc (e : Nat) (g : DgsEng → DgsEng) : (s.updDgs e g).entryPc = s.entryPc := rfl
@[simp] theorem State.updDgs_tiles (e : Nat) (g : DgsEng → DgsEng) : (s.updDgs e g).tiles = s.tiles := rfl
@[simp] theorem State.updDgs_slices (e : Nat) (g : DgsEng → DgsEng) : (s.updDgs e g).slices = s.slices := rfl
@[simp] theorem State.updDgs_homeMap (e : Nat) (g : DgsEng → DgsEng) : (s.updDgs e g).homeMap = s.homeMap := rfl
@[simp] theorem State.updDgs_slicesOff (e : Nat) (g : DgsEng → DgsEng) : (s.updDgs e g).slicesOff = s.slicesOff := rfl
@[simp] theorem State.updDgs_tilesOff (e : Nat) (g : DgsEng → DgsEng) : (s.updDgs e g).tilesOff = s.tilesOff := rfl
@[simp] theorem State.updDgs_net (e : Nat) (g : DgsEng → DgsEng) : (s.updDgs e g).net = s.net := rfl
@[simp] theorem State.updDgs_pips (e : Nat) (g : DgsEng → DgsEng) : (s.updDgs e g).pips = s.pips := rfl
@[simp] theorem State.updDgs_io (e : Nat) (g : DgsEng → DgsEng) : (s.updDgs e g).io = s.io := rfl
@[simp] theorem State.updDgs_mem (e : Nat) (g : DgsEng → DgsEng) : (s.updDgs e g).mem = s.mem := rfl
@[simp] theorem State.updDgs_hostMem (e : Nat) (g : DgsEng → DgsEng) : (s.updDgs e g).hostMem = s.hostMem := rfl
@[simp] theorem State.updDgs_hostPoison (e : Nat) (g : DgsEng → DgsEng) : (s.updDgs e g).hostPoison = s.hostPoison := rfl
@[simp] theorem State.updDgs_d2h (e : Nat) (g : DgsEng → DgsEng) : (s.updDgs e g).d2h = s.d2h := rfl
@[simp] theorem State.updDgs_bisnp (e : Nat) (g : DgsEng → DgsEng) : (s.updDgs e g).bisnp = s.bisnp := rfl
@[simp] theorem State.updDgs_answers (e : Nat) (g : DgsEng → DgsEng) : (s.updDgs e g).answers = s.answers := rfl
@[simp] theorem State.updDgs_goPend (e : Nat) (g : DgsEng → DgsEng) : (s.updDgs e g).goPend = s.goPend := rfl
@[simp] theorem State.updDgs_tenants (e : Nat) (g : DgsEng → DgsEng) : (s.updDgs e g).tenants = s.tenants := rfl
@[simp] theorem State.updDgs_works (e : Nat) (g : DgsEng → DgsEng) : (s.updDgs e g).works = s.works := rfl
@[simp] theorem State.updDgs_nextWork (e : Nat) (g : DgsEng → DgsEng) : (s.updDgs e g).nextWork = s.nextWork := rfl
@[simp] theorem State.updDgs_lastReady (e : Nat) (g : DgsEng → DgsEng) : (s.updDgs e g).lastReady = s.lastReady := rfl
@[simp] theorem State.updDgs_pulses (e : Nat) (g : DgsEng → DgsEng) : (s.updDgs e g).pulses = s.pulses := rfl
@[simp] theorem State.updDgs_cmp (e : Nat) (g : DgsEng → DgsEng) : (s.updDgs e g).cmp = s.cmp := rfl
@[simp] theorem State.updDgs_cmpOff (e : Nat) (g : DgsEng → DgsEng) : (s.updDgs e g).cmpOff = s.cmpOff := rfl
@[simp] theorem State.updDgs_cmpCtxs (e : Nat) (g : DgsEng → DgsEng) : (s.updDgs e g).cmpCtxs = s.cmpCtxs := rfl
@[simp] theorem State.updDgs_dma (e : Nat) (g : DgsEng → DgsEng) : (s.updDgs e g).dma = s.dma := rfl
@[simp] theorem State.updDgs_dmaOff (e : Nat) (g : DgsEng → DgsEng) : (s.updDgs e g).dmaOff = s.dmaOff := rfl
@[simp] theorem State.updDgs_dgsOff (e : Nat) (g : DgsEng → DgsEng) : (s.updDgs e g).dgsOff = s.dgsOff := rfl
@[simp] theorem State.updDgs_keys (e : Nat) (g : DgsEng → DgsEng) : (s.updDgs e g).keys = s.keys := rfl
@[simp] theorem State.updDgs_brm (e : Nat) (g : DgsEng → DgsEng) : (s.updDgs e g).brm = s.brm := rfl
@[simp] theorem State.updDgs_brmOff (e : Nat) (g : DgsEng → DgsEng) : (s.updDgs e g).brmOff = s.brmOff := rfl
@[simp] theorem State.updDgs_mboxes (e : Nat) (g : DgsEng → DgsEng) : (s.updDgs e g).mboxes = s.mboxes := rfl
@[simp] theorem State.updDgs_eunto (e : Nat) (g : DgsEng → DgsEng) : (s.updDgs e g).eunto = s.eunto := rfl
@[simp] theorem State.updDgs_euntoLast (e : Nat) (g : DgsEng → DgsEng) : (s.updDgs e g).euntoLast = s.euntoLast := rfl
@[simp] theorem State.updDgs_euntoReq (e : Nat) (g : DgsEng → DgsEng) : (s.updDgs e g).euntoReq = s.euntoReq := rfl
@[simp] theorem State.updDgs_euntoSeq (e : Nat) (g : DgsEng → DgsEng) : (s.updDgs e g).euntoSeq = s.euntoSeq := rfl
@[simp] theorem State.updDgs_euntoArg (e : Nat) (g : DgsEng → DgsEng) : (s.updDgs e g).euntoArg = s.euntoArg := rfl
@[simp] theorem State.updDgs_euntoMute (e : Nat) (g : DgsEng → DgsEng) : (s.updDgs e g).euntoMute = s.euntoMute := rfl
@[simp] theorem State.updDgs_dstate (e : Nat) (g : DgsEng → DgsEng) : (s.updDgs e g).dstate = s.dstate := rfl
@[simp] theorem State.updDgs_cad (e : Nat) (g : DgsEng → DgsEng) : (s.updDgs e g).cad = s.cad := rfl
@[simp] theorem State.updDgs_krl (e : Nat) (g : DgsEng → DgsEng) : (s.updDgs e g).krl = s.krl := rfl
@[simp] theorem State.updDgs_runtimeVer (e : Nat) (g : DgsEng → DgsEng) : (s.updDgs e g).runtimeVer = s.runtimeVer := rfl
@[simp] theorem State.updDgs_bindLast (e : Nat) (g : DgsEng → DgsEng) : (s.updDgs e g).bindLast = s.bindLast := rfl
@[simp] theorem State.updDgs_tileTemp (e : Nat) (g : DgsEng → DgsEng) : (s.updDgs e g).tileTemp = s.tileTemp := rfl
@[simp] theorem State.updDgs_unreliable (e : Nat) (g : DgsEng → DgsEng) : (s.updDgs e g).unreliable = s.unreliable := rfl
@[simp] theorem State.updDgs_host (e : Nat) (g : DgsEng → DgsEng) : (s.updDgs e g).host = s.host := rfl
@[simp] theorem State.updDgs_errlog (e : Nat) (g : DgsEng → DgsEng) : (s.updDgs e g).errlog = s.errlog := rfl
@[simp] theorem State.updDgs_kstData (e : Nat) (g : DgsEng → DgsEng) : (s.updDgs e g).kstData = s.kstData := rfl
@[simp] theorem State.updDgs_kstCmd (e : Nat) (g : DgsEng → DgsEng) : (s.updDgs e g).kstCmd = s.kstCmd := rfl
@[simp] theorem State.updDgs_nv (e : Nat) (g : DgsEng → DgsEng) : (s.updDgs e g).nv = s.nv := rfl
@[simp] theorem State.updDgs_upd (e : Nat) (g : DgsEng → DgsEng) : (s.updDgs e g).upd = s.upd := rfl
@[simp] theorem State.updDgs_spdm (e : Nat) (g : DgsEng → DgsEng) : (s.updDgs e g).spdm = s.spdm := rfl
@[simp] theorem State.updDgs_pw (e : Nat) (g : DgsEng → DgsEng) : (s.updDgs e g).pw = s.pw := rfl
@[simp] theorem State.updDgs_rel (e : Nat) (g : DgsEng → DgsEng) : (s.updDgs e g).rel = s.rel := rfl

@[simp] theorem State.updBrm_pending (a : Nat) (g : Bram → Bram) : (s.updBrm a g).pending = s.pending := rfl
@[simp] theorem State.updBrm_freeCtr (a : Nat) (g : Bram → Bram) : (s.updBrm a g).freeCtr = s.freeCtr := rfl
@[simp] theorem State.updBrm_part (a : Nat) (g : Bram → Bram) : (s.updBrm a g).part = s.part := rfl
@[simp] theorem State.updBrm_now (a : Nat) (g : Bram → Bram) : (s.updBrm a g).now = s.now := rfl
@[simp] theorem State.updBrm_entryPc (a : Nat) (g : Bram → Bram) : (s.updBrm a g).entryPc = s.entryPc := rfl
@[simp] theorem State.updBrm_tiles (a : Nat) (g : Bram → Bram) : (s.updBrm a g).tiles = s.tiles := rfl
@[simp] theorem State.updBrm_slices (a : Nat) (g : Bram → Bram) : (s.updBrm a g).slices = s.slices := rfl
@[simp] theorem State.updBrm_homeMap (a : Nat) (g : Bram → Bram) : (s.updBrm a g).homeMap = s.homeMap := rfl
@[simp] theorem State.updBrm_slicesOff (a : Nat) (g : Bram → Bram) : (s.updBrm a g).slicesOff = s.slicesOff := rfl
@[simp] theorem State.updBrm_tilesOff (a : Nat) (g : Bram → Bram) : (s.updBrm a g).tilesOff = s.tilesOff := rfl
@[simp] theorem State.updBrm_net (a : Nat) (g : Bram → Bram) : (s.updBrm a g).net = s.net := rfl
@[simp] theorem State.updBrm_pips (a : Nat) (g : Bram → Bram) : (s.updBrm a g).pips = s.pips := rfl
@[simp] theorem State.updBrm_io (a : Nat) (g : Bram → Bram) : (s.updBrm a g).io = s.io := rfl
@[simp] theorem State.updBrm_mem (a : Nat) (g : Bram → Bram) : (s.updBrm a g).mem = s.mem := rfl
@[simp] theorem State.updBrm_hostMem (a : Nat) (g : Bram → Bram) : (s.updBrm a g).hostMem = s.hostMem := rfl
@[simp] theorem State.updBrm_hostPoison (a : Nat) (g : Bram → Bram) : (s.updBrm a g).hostPoison = s.hostPoison := rfl
@[simp] theorem State.updBrm_d2h (a : Nat) (g : Bram → Bram) : (s.updBrm a g).d2h = s.d2h := rfl
@[simp] theorem State.updBrm_bisnp (a : Nat) (g : Bram → Bram) : (s.updBrm a g).bisnp = s.bisnp := rfl
@[simp] theorem State.updBrm_answers (a : Nat) (g : Bram → Bram) : (s.updBrm a g).answers = s.answers := rfl
@[simp] theorem State.updBrm_goPend (a : Nat) (g : Bram → Bram) : (s.updBrm a g).goPend = s.goPend := rfl
@[simp] theorem State.updBrm_tenants (a : Nat) (g : Bram → Bram) : (s.updBrm a g).tenants = s.tenants := rfl
@[simp] theorem State.updBrm_works (a : Nat) (g : Bram → Bram) : (s.updBrm a g).works = s.works := rfl
@[simp] theorem State.updBrm_nextWork (a : Nat) (g : Bram → Bram) : (s.updBrm a g).nextWork = s.nextWork := rfl
@[simp] theorem State.updBrm_lastReady (a : Nat) (g : Bram → Bram) : (s.updBrm a g).lastReady = s.lastReady := rfl
@[simp] theorem State.updBrm_pulses (a : Nat) (g : Bram → Bram) : (s.updBrm a g).pulses = s.pulses := rfl
@[simp] theorem State.updBrm_cmp (a : Nat) (g : Bram → Bram) : (s.updBrm a g).cmp = s.cmp := rfl
@[simp] theorem State.updBrm_cmpOff (a : Nat) (g : Bram → Bram) : (s.updBrm a g).cmpOff = s.cmpOff := rfl
@[simp] theorem State.updBrm_cmpCtxs (a : Nat) (g : Bram → Bram) : (s.updBrm a g).cmpCtxs = s.cmpCtxs := rfl
@[simp] theorem State.updBrm_dma (a : Nat) (g : Bram → Bram) : (s.updBrm a g).dma = s.dma := rfl
@[simp] theorem State.updBrm_dmaOff (a : Nat) (g : Bram → Bram) : (s.updBrm a g).dmaOff = s.dmaOff := rfl
@[simp] theorem State.updBrm_dgs (a : Nat) (g : Bram → Bram) : (s.updBrm a g).dgs = s.dgs := rfl
@[simp] theorem State.updBrm_dgsOff (a : Nat) (g : Bram → Bram) : (s.updBrm a g).dgsOff = s.dgsOff := rfl
@[simp] theorem State.updBrm_keys (a : Nat) (g : Bram → Bram) : (s.updBrm a g).keys = s.keys := rfl
@[simp] theorem State.updBrm_brmOff (a : Nat) (g : Bram → Bram) : (s.updBrm a g).brmOff = s.brmOff := rfl
@[simp] theorem State.updBrm_mboxes (a : Nat) (g : Bram → Bram) : (s.updBrm a g).mboxes = s.mboxes := rfl
@[simp] theorem State.updBrm_eunto (a : Nat) (g : Bram → Bram) : (s.updBrm a g).eunto = s.eunto := rfl
@[simp] theorem State.updBrm_euntoLast (a : Nat) (g : Bram → Bram) : (s.updBrm a g).euntoLast = s.euntoLast := rfl
@[simp] theorem State.updBrm_euntoReq (a : Nat) (g : Bram → Bram) : (s.updBrm a g).euntoReq = s.euntoReq := rfl
@[simp] theorem State.updBrm_euntoSeq (a : Nat) (g : Bram → Bram) : (s.updBrm a g).euntoSeq = s.euntoSeq := rfl
@[simp] theorem State.updBrm_euntoArg (a : Nat) (g : Bram → Bram) : (s.updBrm a g).euntoArg = s.euntoArg := rfl
@[simp] theorem State.updBrm_euntoMute (a : Nat) (g : Bram → Bram) : (s.updBrm a g).euntoMute = s.euntoMute := rfl
@[simp] theorem State.updBrm_dstate (a : Nat) (g : Bram → Bram) : (s.updBrm a g).dstate = s.dstate := rfl
@[simp] theorem State.updBrm_cad (a : Nat) (g : Bram → Bram) : (s.updBrm a g).cad = s.cad := rfl
@[simp] theorem State.updBrm_krl (a : Nat) (g : Bram → Bram) : (s.updBrm a g).krl = s.krl := rfl
@[simp] theorem State.updBrm_runtimeVer (a : Nat) (g : Bram → Bram) : (s.updBrm a g).runtimeVer = s.runtimeVer := rfl
@[simp] theorem State.updBrm_bindLast (a : Nat) (g : Bram → Bram) : (s.updBrm a g).bindLast = s.bindLast := rfl
@[simp] theorem State.updBrm_tileTemp (a : Nat) (g : Bram → Bram) : (s.updBrm a g).tileTemp = s.tileTemp := rfl
@[simp] theorem State.updBrm_unreliable (a : Nat) (g : Bram → Bram) : (s.updBrm a g).unreliable = s.unreliable := rfl
@[simp] theorem State.updBrm_host (a : Nat) (g : Bram → Bram) : (s.updBrm a g).host = s.host := rfl
@[simp] theorem State.updBrm_errlog (a : Nat) (g : Bram → Bram) : (s.updBrm a g).errlog = s.errlog := rfl
@[simp] theorem State.updBrm_kstData (a : Nat) (g : Bram → Bram) : (s.updBrm a g).kstData = s.kstData := rfl
@[simp] theorem State.updBrm_kstCmd (a : Nat) (g : Bram → Bram) : (s.updBrm a g).kstCmd = s.kstCmd := rfl
@[simp] theorem State.updBrm_nv (a : Nat) (g : Bram → Bram) : (s.updBrm a g).nv = s.nv := rfl
@[simp] theorem State.updBrm_upd (a : Nat) (g : Bram → Bram) : (s.updBrm a g).upd = s.upd := rfl
@[simp] theorem State.updBrm_spdm (a : Nat) (g : Bram → Bram) : (s.updBrm a g).spdm = s.spdm := rfl
@[simp] theorem State.updBrm_pw (a : Nat) (g : Bram → Bram) : (s.updBrm a g).pw = s.pw := rfl
@[simp] theorem State.updBrm_rel (a : Nat) (g : Bram → Bram) : (s.updBrm a g).rel = s.rel := rfl

@[simp] theorem State.updMbox_pending (f : Nat) (g : Mailbox → Mailbox) : (s.updMbox f g).pending = s.pending := rfl
@[simp] theorem State.updMbox_freeCtr (f : Nat) (g : Mailbox → Mailbox) : (s.updMbox f g).freeCtr = s.freeCtr := rfl
@[simp] theorem State.updMbox_part (f : Nat) (g : Mailbox → Mailbox) : (s.updMbox f g).part = s.part := rfl
@[simp] theorem State.updMbox_now (f : Nat) (g : Mailbox → Mailbox) : (s.updMbox f g).now = s.now := rfl
@[simp] theorem State.updMbox_entryPc (f : Nat) (g : Mailbox → Mailbox) : (s.updMbox f g).entryPc = s.entryPc := rfl
@[simp] theorem State.updMbox_tiles (f : Nat) (g : Mailbox → Mailbox) : (s.updMbox f g).tiles = s.tiles := rfl
@[simp] theorem State.updMbox_slices (f : Nat) (g : Mailbox → Mailbox) : (s.updMbox f g).slices = s.slices := rfl
@[simp] theorem State.updMbox_homeMap (f : Nat) (g : Mailbox → Mailbox) : (s.updMbox f g).homeMap = s.homeMap := rfl
@[simp] theorem State.updMbox_slicesOff (f : Nat) (g : Mailbox → Mailbox) : (s.updMbox f g).slicesOff = s.slicesOff := rfl
@[simp] theorem State.updMbox_tilesOff (f : Nat) (g : Mailbox → Mailbox) : (s.updMbox f g).tilesOff = s.tilesOff := rfl
@[simp] theorem State.updMbox_net (f : Nat) (g : Mailbox → Mailbox) : (s.updMbox f g).net = s.net := rfl
@[simp] theorem State.updMbox_pips (f : Nat) (g : Mailbox → Mailbox) : (s.updMbox f g).pips = s.pips := rfl
@[simp] theorem State.updMbox_io (f : Nat) (g : Mailbox → Mailbox) : (s.updMbox f g).io = s.io := rfl
@[simp] theorem State.updMbox_mem (f : Nat) (g : Mailbox → Mailbox) : (s.updMbox f g).mem = s.mem := rfl
@[simp] theorem State.updMbox_hostMem (f : Nat) (g : Mailbox → Mailbox) : (s.updMbox f g).hostMem = s.hostMem := rfl
@[simp] theorem State.updMbox_hostPoison (f : Nat) (g : Mailbox → Mailbox) : (s.updMbox f g).hostPoison = s.hostPoison := rfl
@[simp] theorem State.updMbox_d2h (f : Nat) (g : Mailbox → Mailbox) : (s.updMbox f g).d2h = s.d2h := rfl
@[simp] theorem State.updMbox_bisnp (f : Nat) (g : Mailbox → Mailbox) : (s.updMbox f g).bisnp = s.bisnp := rfl
@[simp] theorem State.updMbox_answers (f : Nat) (g : Mailbox → Mailbox) : (s.updMbox f g).answers = s.answers := rfl
@[simp] theorem State.updMbox_goPend (f : Nat) (g : Mailbox → Mailbox) : (s.updMbox f g).goPend = s.goPend := rfl
@[simp] theorem State.updMbox_tenants (f : Nat) (g : Mailbox → Mailbox) : (s.updMbox f g).tenants = s.tenants := rfl
@[simp] theorem State.updMbox_works (f : Nat) (g : Mailbox → Mailbox) : (s.updMbox f g).works = s.works := rfl
@[simp] theorem State.updMbox_nextWork (f : Nat) (g : Mailbox → Mailbox) : (s.updMbox f g).nextWork = s.nextWork := rfl
@[simp] theorem State.updMbox_lastReady (f : Nat) (g : Mailbox → Mailbox) : (s.updMbox f g).lastReady = s.lastReady := rfl
@[simp] theorem State.updMbox_pulses (f : Nat) (g : Mailbox → Mailbox) : (s.updMbox f g).pulses = s.pulses := rfl
@[simp] theorem State.updMbox_cmp (f : Nat) (g : Mailbox → Mailbox) : (s.updMbox f g).cmp = s.cmp := rfl
@[simp] theorem State.updMbox_cmpOff (f : Nat) (g : Mailbox → Mailbox) : (s.updMbox f g).cmpOff = s.cmpOff := rfl
@[simp] theorem State.updMbox_cmpCtxs (f : Nat) (g : Mailbox → Mailbox) : (s.updMbox f g).cmpCtxs = s.cmpCtxs := rfl
@[simp] theorem State.updMbox_dma (f : Nat) (g : Mailbox → Mailbox) : (s.updMbox f g).dma = s.dma := rfl
@[simp] theorem State.updMbox_dmaOff (f : Nat) (g : Mailbox → Mailbox) : (s.updMbox f g).dmaOff = s.dmaOff := rfl
@[simp] theorem State.updMbox_dgs (f : Nat) (g : Mailbox → Mailbox) : (s.updMbox f g).dgs = s.dgs := rfl
@[simp] theorem State.updMbox_dgsOff (f : Nat) (g : Mailbox → Mailbox) : (s.updMbox f g).dgsOff = s.dgsOff := rfl
@[simp] theorem State.updMbox_keys (f : Nat) (g : Mailbox → Mailbox) : (s.updMbox f g).keys = s.keys := rfl
@[simp] theorem State.updMbox_brm (f : Nat) (g : Mailbox → Mailbox) : (s.updMbox f g).brm = s.brm := rfl
@[simp] theorem State.updMbox_brmOff (f : Nat) (g : Mailbox → Mailbox) : (s.updMbox f g).brmOff = s.brmOff := rfl
@[simp] theorem State.updMbox_eunto (f : Nat) (g : Mailbox → Mailbox) : (s.updMbox f g).eunto = s.eunto := rfl
@[simp] theorem State.updMbox_euntoLast (f : Nat) (g : Mailbox → Mailbox) : (s.updMbox f g).euntoLast = s.euntoLast := rfl
@[simp] theorem State.updMbox_euntoReq (f : Nat) (g : Mailbox → Mailbox) : (s.updMbox f g).euntoReq = s.euntoReq := rfl
@[simp] theorem State.updMbox_euntoSeq (f : Nat) (g : Mailbox → Mailbox) : (s.updMbox f g).euntoSeq = s.euntoSeq := rfl
@[simp] theorem State.updMbox_euntoArg (f : Nat) (g : Mailbox → Mailbox) : (s.updMbox f g).euntoArg = s.euntoArg := rfl
@[simp] theorem State.updMbox_euntoMute (f : Nat) (g : Mailbox → Mailbox) : (s.updMbox f g).euntoMute = s.euntoMute := rfl
@[simp] theorem State.updMbox_dstate (f : Nat) (g : Mailbox → Mailbox) : (s.updMbox f g).dstate = s.dstate := rfl
@[simp] theorem State.updMbox_cad (f : Nat) (g : Mailbox → Mailbox) : (s.updMbox f g).cad = s.cad := rfl
@[simp] theorem State.updMbox_krl (f : Nat) (g : Mailbox → Mailbox) : (s.updMbox f g).krl = s.krl := rfl
@[simp] theorem State.updMbox_runtimeVer (f : Nat) (g : Mailbox → Mailbox) : (s.updMbox f g).runtimeVer = s.runtimeVer := rfl
@[simp] theorem State.updMbox_bindLast (f : Nat) (g : Mailbox → Mailbox) : (s.updMbox f g).bindLast = s.bindLast := rfl
@[simp] theorem State.updMbox_tileTemp (f : Nat) (g : Mailbox → Mailbox) : (s.updMbox f g).tileTemp = s.tileTemp := rfl
@[simp] theorem State.updMbox_unreliable (f : Nat) (g : Mailbox → Mailbox) : (s.updMbox f g).unreliable = s.unreliable := rfl
@[simp] theorem State.updMbox_host (f : Nat) (g : Mailbox → Mailbox) : (s.updMbox f g).host = s.host := rfl
@[simp] theorem State.updMbox_errlog (f : Nat) (g : Mailbox → Mailbox) : (s.updMbox f g).errlog = s.errlog := rfl
@[simp] theorem State.updMbox_kstData (f : Nat) (g : Mailbox → Mailbox) : (s.updMbox f g).kstData = s.kstData := rfl
@[simp] theorem State.updMbox_kstCmd (f : Nat) (g : Mailbox → Mailbox) : (s.updMbox f g).kstCmd = s.kstCmd := rfl
@[simp] theorem State.updMbox_nv (f : Nat) (g : Mailbox → Mailbox) : (s.updMbox f g).nv = s.nv := rfl
@[simp] theorem State.updMbox_upd (f : Nat) (g : Mailbox → Mailbox) : (s.updMbox f g).upd = s.upd := rfl
@[simp] theorem State.updMbox_spdm (f : Nat) (g : Mailbox → Mailbox) : (s.updMbox f g).spdm = s.spdm := rfl
@[simp] theorem State.updMbox_pw (f : Nat) (g : Mailbox → Mailbox) : (s.updMbox f g).pw = s.pw := rfl
@[simp] theorem State.updMbox_rel (f : Nat) (g : Mailbox → Mailbox) : (s.updMbox f g).rel = s.rel := rfl

@[simp] theorem State.updPort_pending (p : Nat) (g : KPort → KPort) : (s.updPort p g).pending = s.pending := rfl
@[simp] theorem State.updPort_freeCtr (p : Nat) (g : KPort → KPort) : (s.updPort p g).freeCtr = s.freeCtr := rfl
@[simp] theorem State.updPort_part (p : Nat) (g : KPort → KPort) : (s.updPort p g).part = s.part := rfl
@[simp] theorem State.updPort_now (p : Nat) (g : KPort → KPort) : (s.updPort p g).now = s.now := rfl
@[simp] theorem State.updPort_entryPc (p : Nat) (g : KPort → KPort) : (s.updPort p g).entryPc = s.entryPc := rfl
@[simp] theorem State.updPort_tiles (p : Nat) (g : KPort → KPort) : (s.updPort p g).tiles = s.tiles := rfl
@[simp] theorem State.updPort_slices (p : Nat) (g : KPort → KPort) : (s.updPort p g).slices = s.slices := rfl
@[simp] theorem State.updPort_homeMap (p : Nat) (g : KPort → KPort) : (s.updPort p g).homeMap = s.homeMap := rfl
@[simp] theorem State.updPort_slicesOff (p : Nat) (g : KPort → KPort) : (s.updPort p g).slicesOff = s.slicesOff := rfl
@[simp] theorem State.updPort_tilesOff (p : Nat) (g : KPort → KPort) : (s.updPort p g).tilesOff = s.tilesOff := rfl
@[simp] theorem State.updPort_net (p : Nat) (g : KPort → KPort) : (s.updPort p g).net = s.net := rfl
@[simp] theorem State.updPort_pips (p : Nat) (g : KPort → KPort) : (s.updPort p g).pips = s.pips := rfl
@[simp] theorem State.updPort_io (p : Nat) (g : KPort → KPort) : (s.updPort p g).io = s.io := rfl
@[simp] theorem State.updPort_mem (p : Nat) (g : KPort → KPort) : (s.updPort p g).mem = s.mem := rfl
@[simp] theorem State.updPort_hostMem (p : Nat) (g : KPort → KPort) : (s.updPort p g).hostMem = s.hostMem := rfl
@[simp] theorem State.updPort_hostPoison (p : Nat) (g : KPort → KPort) : (s.updPort p g).hostPoison = s.hostPoison := rfl
@[simp] theorem State.updPort_d2h (p : Nat) (g : KPort → KPort) : (s.updPort p g).d2h = s.d2h := rfl
@[simp] theorem State.updPort_bisnp (p : Nat) (g : KPort → KPort) : (s.updPort p g).bisnp = s.bisnp := rfl
@[simp] theorem State.updPort_answers (p : Nat) (g : KPort → KPort) : (s.updPort p g).answers = s.answers := rfl
@[simp] theorem State.updPort_goPend (p : Nat) (g : KPort → KPort) : (s.updPort p g).goPend = s.goPend := rfl
@[simp] theorem State.updPort_tenants (p : Nat) (g : KPort → KPort) : (s.updPort p g).tenants = s.tenants := rfl
@[simp] theorem State.updPort_works (p : Nat) (g : KPort → KPort) : (s.updPort p g).works = s.works := rfl
@[simp] theorem State.updPort_nextWork (p : Nat) (g : KPort → KPort) : (s.updPort p g).nextWork = s.nextWork := rfl
@[simp] theorem State.updPort_lastReady (p : Nat) (g : KPort → KPort) : (s.updPort p g).lastReady = s.lastReady := rfl
@[simp] theorem State.updPort_pulses (p : Nat) (g : KPort → KPort) : (s.updPort p g).pulses = s.pulses := rfl
@[simp] theorem State.updPort_cmp (p : Nat) (g : KPort → KPort) : (s.updPort p g).cmp = s.cmp := rfl
@[simp] theorem State.updPort_cmpOff (p : Nat) (g : KPort → KPort) : (s.updPort p g).cmpOff = s.cmpOff := rfl
@[simp] theorem State.updPort_cmpCtxs (p : Nat) (g : KPort → KPort) : (s.updPort p g).cmpCtxs = s.cmpCtxs := rfl
@[simp] theorem State.updPort_dma (p : Nat) (g : KPort → KPort) : (s.updPort p g).dma = s.dma := rfl
@[simp] theorem State.updPort_dmaOff (p : Nat) (g : KPort → KPort) : (s.updPort p g).dmaOff = s.dmaOff := rfl
@[simp] theorem State.updPort_dgs (p : Nat) (g : KPort → KPort) : (s.updPort p g).dgs = s.dgs := rfl
@[simp] theorem State.updPort_dgsOff (p : Nat) (g : KPort → KPort) : (s.updPort p g).dgsOff = s.dgsOff := rfl
@[simp] theorem State.updPort_keys (p : Nat) (g : KPort → KPort) : (s.updPort p g).keys = s.keys := rfl
@[simp] theorem State.updPort_brm (p : Nat) (g : KPort → KPort) : (s.updPort p g).brm = s.brm := rfl
@[simp] theorem State.updPort_brmOff (p : Nat) (g : KPort → KPort) : (s.updPort p g).brmOff = s.brmOff := rfl
@[simp] theorem State.updPort_mboxes (p : Nat) (g : KPort → KPort) : (s.updPort p g).mboxes = s.mboxes := rfl
@[simp] theorem State.updPort_eunto (p : Nat) (g : KPort → KPort) : (s.updPort p g).eunto = s.eunto := rfl
@[simp] theorem State.updPort_euntoLast (p : Nat) (g : KPort → KPort) : (s.updPort p g).euntoLast = s.euntoLast := rfl
@[simp] theorem State.updPort_euntoReq (p : Nat) (g : KPort → KPort) : (s.updPort p g).euntoReq = s.euntoReq := rfl
@[simp] theorem State.updPort_euntoSeq (p : Nat) (g : KPort → KPort) : (s.updPort p g).euntoSeq = s.euntoSeq := rfl
@[simp] theorem State.updPort_euntoArg (p : Nat) (g : KPort → KPort) : (s.updPort p g).euntoArg = s.euntoArg := rfl
@[simp] theorem State.updPort_euntoMute (p : Nat) (g : KPort → KPort) : (s.updPort p g).euntoMute = s.euntoMute := rfl
@[simp] theorem State.updPort_dstate (p : Nat) (g : KPort → KPort) : (s.updPort p g).dstate = s.dstate := rfl
@[simp] theorem State.updPort_cad (p : Nat) (g : KPort → KPort) : (s.updPort p g).cad = s.cad := rfl
@[simp] theorem State.updPort_runtimeVer (p : Nat) (g : KPort → KPort) : (s.updPort p g).runtimeVer = s.runtimeVer := rfl
@[simp] theorem State.updPort_bindLast (p : Nat) (g : KPort → KPort) : (s.updPort p g).bindLast = s.bindLast := rfl
@[simp] theorem State.updPort_tileTemp (p : Nat) (g : KPort → KPort) : (s.updPort p g).tileTemp = s.tileTemp := rfl
@[simp] theorem State.updPort_unreliable (p : Nat) (g : KPort → KPort) : (s.updPort p g).unreliable = s.unreliable := rfl
@[simp] theorem State.updPort_host (p : Nat) (g : KPort → KPort) : (s.updPort p g).host = s.host := rfl
@[simp] theorem State.updPort_errlog (p : Nat) (g : KPort → KPort) : (s.updPort p g).errlog = s.errlog := rfl
@[simp] theorem State.updPort_kstData (p : Nat) (g : KPort → KPort) : (s.updPort p g).kstData = s.kstData := rfl
@[simp] theorem State.updPort_kstCmd (p : Nat) (g : KPort → KPort) : (s.updPort p g).kstCmd = s.kstCmd := rfl
@[simp] theorem State.updPort_nv (p : Nat) (g : KPort → KPort) : (s.updPort p g).nv = s.nv := rfl
@[simp] theorem State.updPort_upd (p : Nat) (g : KPort → KPort) : (s.updPort p g).upd = s.upd := rfl
@[simp] theorem State.updPort_spdm (p : Nat) (g : KPort → KPort) : (s.updPort p g).spdm = s.spdm := rfl
@[simp] theorem State.updPort_pw (p : Nat) (g : KPort → KPort) : (s.updPort p g).pw = s.pw := rfl
@[simp] theorem State.updPort_rel (p : Nat) (g : KPort → KPort) : (s.updPort p g).rel = s.rel := rfl

@[simp] theorem State.updXchg_pending (id : Nat) (g : Xchg → Xchg) : (s.updXchg id g).pending = s.pending := rfl
@[simp] theorem State.updXchg_freeCtr (id : Nat) (g : Xchg → Xchg) : (s.updXchg id g).freeCtr = s.freeCtr := rfl
@[simp] theorem State.updXchg_part (id : Nat) (g : Xchg → Xchg) : (s.updXchg id g).part = s.part := rfl
@[simp] theorem State.updXchg_now (id : Nat) (g : Xchg → Xchg) : (s.updXchg id g).now = s.now := rfl
@[simp] theorem State.updXchg_entryPc (id : Nat) (g : Xchg → Xchg) : (s.updXchg id g).entryPc = s.entryPc := rfl
@[simp] theorem State.updXchg_tiles (id : Nat) (g : Xchg → Xchg) : (s.updXchg id g).tiles = s.tiles := rfl
@[simp] theorem State.updXchg_slices (id : Nat) (g : Xchg → Xchg) : (s.updXchg id g).slices = s.slices := rfl
@[simp] theorem State.updXchg_homeMap (id : Nat) (g : Xchg → Xchg) : (s.updXchg id g).homeMap = s.homeMap := rfl
@[simp] theorem State.updXchg_slicesOff (id : Nat) (g : Xchg → Xchg) : (s.updXchg id g).slicesOff = s.slicesOff := rfl
@[simp] theorem State.updXchg_tilesOff (id : Nat) (g : Xchg → Xchg) : (s.updXchg id g).tilesOff = s.tilesOff := rfl
@[simp] theorem State.updXchg_net (id : Nat) (g : Xchg → Xchg) : (s.updXchg id g).net = s.net := rfl
@[simp] theorem State.updXchg_pips (id : Nat) (g : Xchg → Xchg) : (s.updXchg id g).pips = s.pips := rfl
@[simp] theorem State.updXchg_io (id : Nat) (g : Xchg → Xchg) : (s.updXchg id g).io = s.io := rfl
@[simp] theorem State.updXchg_mem (id : Nat) (g : Xchg → Xchg) : (s.updXchg id g).mem = s.mem := rfl
@[simp] theorem State.updXchg_hostMem (id : Nat) (g : Xchg → Xchg) : (s.updXchg id g).hostMem = s.hostMem := rfl
@[simp] theorem State.updXchg_hostPoison (id : Nat) (g : Xchg → Xchg) : (s.updXchg id g).hostPoison = s.hostPoison := rfl
@[simp] theorem State.updXchg_d2h (id : Nat) (g : Xchg → Xchg) : (s.updXchg id g).d2h = s.d2h := rfl
@[simp] theorem State.updXchg_bisnp (id : Nat) (g : Xchg → Xchg) : (s.updXchg id g).bisnp = s.bisnp := rfl
@[simp] theorem State.updXchg_answers (id : Nat) (g : Xchg → Xchg) : (s.updXchg id g).answers = s.answers := rfl
@[simp] theorem State.updXchg_goPend (id : Nat) (g : Xchg → Xchg) : (s.updXchg id g).goPend = s.goPend := rfl
@[simp] theorem State.updXchg_tenants (id : Nat) (g : Xchg → Xchg) : (s.updXchg id g).tenants = s.tenants := rfl
@[simp] theorem State.updXchg_works (id : Nat) (g : Xchg → Xchg) : (s.updXchg id g).works = s.works := rfl
@[simp] theorem State.updXchg_nextWork (id : Nat) (g : Xchg → Xchg) : (s.updXchg id g).nextWork = s.nextWork := rfl
@[simp] theorem State.updXchg_lastReady (id : Nat) (g : Xchg → Xchg) : (s.updXchg id g).lastReady = s.lastReady := rfl
@[simp] theorem State.updXchg_pulses (id : Nat) (g : Xchg → Xchg) : (s.updXchg id g).pulses = s.pulses := rfl
@[simp] theorem State.updXchg_cmp (id : Nat) (g : Xchg → Xchg) : (s.updXchg id g).cmp = s.cmp := rfl
@[simp] theorem State.updXchg_cmpOff (id : Nat) (g : Xchg → Xchg) : (s.updXchg id g).cmpOff = s.cmpOff := rfl
@[simp] theorem State.updXchg_cmpCtxs (id : Nat) (g : Xchg → Xchg) : (s.updXchg id g).cmpCtxs = s.cmpCtxs := rfl
@[simp] theorem State.updXchg_dma (id : Nat) (g : Xchg → Xchg) : (s.updXchg id g).dma = s.dma := rfl
@[simp] theorem State.updXchg_dmaOff (id : Nat) (g : Xchg → Xchg) : (s.updXchg id g).dmaOff = s.dmaOff := rfl
@[simp] theorem State.updXchg_dgs (id : Nat) (g : Xchg → Xchg) : (s.updXchg id g).dgs = s.dgs := rfl
@[simp] theorem State.updXchg_dgsOff (id : Nat) (g : Xchg → Xchg) : (s.updXchg id g).dgsOff = s.dgsOff := rfl
@[simp] theorem State.updXchg_keys (id : Nat) (g : Xchg → Xchg) : (s.updXchg id g).keys = s.keys := rfl
@[simp] theorem State.updXchg_brm (id : Nat) (g : Xchg → Xchg) : (s.updXchg id g).brm = s.brm := rfl
@[simp] theorem State.updXchg_brmOff (id : Nat) (g : Xchg → Xchg) : (s.updXchg id g).brmOff = s.brmOff := rfl
@[simp] theorem State.updXchg_mboxes (id : Nat) (g : Xchg → Xchg) : (s.updXchg id g).mboxes = s.mboxes := rfl
@[simp] theorem State.updXchg_eunto (id : Nat) (g : Xchg → Xchg) : (s.updXchg id g).eunto = s.eunto := rfl
@[simp] theorem State.updXchg_euntoLast (id : Nat) (g : Xchg → Xchg) : (s.updXchg id g).euntoLast = s.euntoLast := rfl
@[simp] theorem State.updXchg_euntoReq (id : Nat) (g : Xchg → Xchg) : (s.updXchg id g).euntoReq = s.euntoReq := rfl
@[simp] theorem State.updXchg_euntoSeq (id : Nat) (g : Xchg → Xchg) : (s.updXchg id g).euntoSeq = s.euntoSeq := rfl
@[simp] theorem State.updXchg_euntoArg (id : Nat) (g : Xchg → Xchg) : (s.updXchg id g).euntoArg = s.euntoArg := rfl
@[simp] theorem State.updXchg_euntoMute (id : Nat) (g : Xchg → Xchg) : (s.updXchg id g).euntoMute = s.euntoMute := rfl
@[simp] theorem State.updXchg_dstate (id : Nat) (g : Xchg → Xchg) : (s.updXchg id g).dstate = s.dstate := rfl
@[simp] theorem State.updXchg_cad (id : Nat) (g : Xchg → Xchg) : (s.updXchg id g).cad = s.cad := rfl
@[simp] theorem State.updXchg_runtimeVer (id : Nat) (g : Xchg → Xchg) : (s.updXchg id g).runtimeVer = s.runtimeVer := rfl
@[simp] theorem State.updXchg_bindLast (id : Nat) (g : Xchg → Xchg) : (s.updXchg id g).bindLast = s.bindLast := rfl
@[simp] theorem State.updXchg_tileTemp (id : Nat) (g : Xchg → Xchg) : (s.updXchg id g).tileTemp = s.tileTemp := rfl
@[simp] theorem State.updXchg_unreliable (id : Nat) (g : Xchg → Xchg) : (s.updXchg id g).unreliable = s.unreliable := rfl
@[simp] theorem State.updXchg_host (id : Nat) (g : Xchg → Xchg) : (s.updXchg id g).host = s.host := rfl
@[simp] theorem State.updXchg_errlog (id : Nat) (g : Xchg → Xchg) : (s.updXchg id g).errlog = s.errlog := rfl
@[simp] theorem State.updXchg_kstData (id : Nat) (g : Xchg → Xchg) : (s.updXchg id g).kstData = s.kstData := rfl
@[simp] theorem State.updXchg_kstCmd (id : Nat) (g : Xchg → Xchg) : (s.updXchg id g).kstCmd = s.kstCmd := rfl
@[simp] theorem State.updXchg_nv (id : Nat) (g : Xchg → Xchg) : (s.updXchg id g).nv = s.nv := rfl
@[simp] theorem State.updXchg_upd (id : Nat) (g : Xchg → Xchg) : (s.updXchg id g).upd = s.upd := rfl
@[simp] theorem State.updXchg_spdm (id : Nat) (g : Xchg → Xchg) : (s.updXchg id g).spdm = s.spdm := rfl
@[simp] theorem State.updXchg_pw (id : Nat) (g : Xchg → Xchg) : (s.updXchg id g).pw = s.pw := rfl
@[simp] theorem State.updXchg_rel (id : Nat) (g : Xchg → Xchg) : (s.updXchg id g).rel = s.rel := rfl

@[simp] theorem State.updCad_pending (g : Cadence → Cadence) : (s.updCad g).pending = s.pending := rfl
@[simp] theorem State.updCad_freeCtr (g : Cadence → Cadence) : (s.updCad g).freeCtr = s.freeCtr := rfl
@[simp] theorem State.updCad_part (g : Cadence → Cadence) : (s.updCad g).part = s.part := rfl
@[simp] theorem State.updCad_now (g : Cadence → Cadence) : (s.updCad g).now = s.now := rfl
@[simp] theorem State.updCad_entryPc (g : Cadence → Cadence) : (s.updCad g).entryPc = s.entryPc := rfl
@[simp] theorem State.updCad_tiles (g : Cadence → Cadence) : (s.updCad g).tiles = s.tiles := rfl
@[simp] theorem State.updCad_slices (g : Cadence → Cadence) : (s.updCad g).slices = s.slices := rfl
@[simp] theorem State.updCad_homeMap (g : Cadence → Cadence) : (s.updCad g).homeMap = s.homeMap := rfl
@[simp] theorem State.updCad_slicesOff (g : Cadence → Cadence) : (s.updCad g).slicesOff = s.slicesOff := rfl
@[simp] theorem State.updCad_tilesOff (g : Cadence → Cadence) : (s.updCad g).tilesOff = s.tilesOff := rfl
@[simp] theorem State.updCad_net (g : Cadence → Cadence) : (s.updCad g).net = s.net := rfl
@[simp] theorem State.updCad_pips (g : Cadence → Cadence) : (s.updCad g).pips = s.pips := rfl
@[simp] theorem State.updCad_io (g : Cadence → Cadence) : (s.updCad g).io = s.io := rfl
@[simp] theorem State.updCad_mem (g : Cadence → Cadence) : (s.updCad g).mem = s.mem := rfl
@[simp] theorem State.updCad_hostMem (g : Cadence → Cadence) : (s.updCad g).hostMem = s.hostMem := rfl
@[simp] theorem State.updCad_hostPoison (g : Cadence → Cadence) : (s.updCad g).hostPoison = s.hostPoison := rfl
@[simp] theorem State.updCad_d2h (g : Cadence → Cadence) : (s.updCad g).d2h = s.d2h := rfl
@[simp] theorem State.updCad_bisnp (g : Cadence → Cadence) : (s.updCad g).bisnp = s.bisnp := rfl
@[simp] theorem State.updCad_answers (g : Cadence → Cadence) : (s.updCad g).answers = s.answers := rfl
@[simp] theorem State.updCad_goPend (g : Cadence → Cadence) : (s.updCad g).goPend = s.goPend := rfl
@[simp] theorem State.updCad_tenants (g : Cadence → Cadence) : (s.updCad g).tenants = s.tenants := rfl
@[simp] theorem State.updCad_works (g : Cadence → Cadence) : (s.updCad g).works = s.works := rfl
@[simp] theorem State.updCad_nextWork (g : Cadence → Cadence) : (s.updCad g).nextWork = s.nextWork := rfl
@[simp] theorem State.updCad_lastReady (g : Cadence → Cadence) : (s.updCad g).lastReady = s.lastReady := rfl
@[simp] theorem State.updCad_pulses (g : Cadence → Cadence) : (s.updCad g).pulses = s.pulses := rfl
@[simp] theorem State.updCad_cmp (g : Cadence → Cadence) : (s.updCad g).cmp = s.cmp := rfl
@[simp] theorem State.updCad_cmpOff (g : Cadence → Cadence) : (s.updCad g).cmpOff = s.cmpOff := rfl
@[simp] theorem State.updCad_cmpCtxs (g : Cadence → Cadence) : (s.updCad g).cmpCtxs = s.cmpCtxs := rfl
@[simp] theorem State.updCad_dma (g : Cadence → Cadence) : (s.updCad g).dma = s.dma := rfl
@[simp] theorem State.updCad_dmaOff (g : Cadence → Cadence) : (s.updCad g).dmaOff = s.dmaOff := rfl
@[simp] theorem State.updCad_dgs (g : Cadence → Cadence) : (s.updCad g).dgs = s.dgs := rfl
@[simp] theorem State.updCad_dgsOff (g : Cadence → Cadence) : (s.updCad g).dgsOff = s.dgsOff := rfl
@[simp] theorem State.updCad_keys (g : Cadence → Cadence) : (s.updCad g).keys = s.keys := rfl
@[simp] theorem State.updCad_brm (g : Cadence → Cadence) : (s.updCad g).brm = s.brm := rfl
@[simp] theorem State.updCad_brmOff (g : Cadence → Cadence) : (s.updCad g).brmOff = s.brmOff := rfl
@[simp] theorem State.updCad_mboxes (g : Cadence → Cadence) : (s.updCad g).mboxes = s.mboxes := rfl
@[simp] theorem State.updCad_eunto (g : Cadence → Cadence) : (s.updCad g).eunto = s.eunto := rfl
@[simp] theorem State.updCad_euntoLast (g : Cadence → Cadence) : (s.updCad g).euntoLast = s.euntoLast := rfl
@[simp] theorem State.updCad_euntoReq (g : Cadence → Cadence) : (s.updCad g).euntoReq = s.euntoReq := rfl
@[simp] theorem State.updCad_euntoSeq (g : Cadence → Cadence) : (s.updCad g).euntoSeq = s.euntoSeq := rfl
@[simp] theorem State.updCad_euntoArg (g : Cadence → Cadence) : (s.updCad g).euntoArg = s.euntoArg := rfl
@[simp] theorem State.updCad_euntoMute (g : Cadence → Cadence) : (s.updCad g).euntoMute = s.euntoMute := rfl
@[simp] theorem State.updCad_dstate (g : Cadence → Cadence) : (s.updCad g).dstate = s.dstate := rfl
@[simp] theorem State.updCad_krl (g : Cadence → Cadence) : (s.updCad g).krl = s.krl := rfl
@[simp] theorem State.updCad_runtimeVer (g : Cadence → Cadence) : (s.updCad g).runtimeVer = s.runtimeVer := rfl
@[simp] theorem State.updCad_bindLast (g : Cadence → Cadence) : (s.updCad g).bindLast = s.bindLast := rfl
@[simp] theorem State.updCad_tileTemp (g : Cadence → Cadence) : (s.updCad g).tileTemp = s.tileTemp := rfl
@[simp] theorem State.updCad_unreliable (g : Cadence → Cadence) : (s.updCad g).unreliable = s.unreliable := rfl
@[simp] theorem State.updCad_host (g : Cadence → Cadence) : (s.updCad g).host = s.host := rfl
@[simp] theorem State.updCad_errlog (g : Cadence → Cadence) : (s.updCad g).errlog = s.errlog := rfl
@[simp] theorem State.updCad_kstData (g : Cadence → Cadence) : (s.updCad g).kstData = s.kstData := rfl
@[simp] theorem State.updCad_kstCmd (g : Cadence → Cadence) : (s.updCad g).kstCmd = s.kstCmd := rfl
@[simp] theorem State.updCad_nv (g : Cadence → Cadence) : (s.updCad g).nv = s.nv := rfl
@[simp] theorem State.updCad_upd (g : Cadence → Cadence) : (s.updCad g).upd = s.upd := rfl
@[simp] theorem State.updCad_spdm (g : Cadence → Cadence) : (s.updCad g).spdm = s.spdm := rfl
@[simp] theorem State.updCad_pw (g : Cadence → Cadence) : (s.updCad g).pw = s.pw := rfl
@[simp] theorem State.updCad_rel (g : Cadence → Cadence) : (s.updCad g).rel = s.rel := rfl

@[simp] theorem State.updCadPort_pending (p : Nat) (g : CadPort → CadPort) : (s.updCadPort p g).pending = s.pending := rfl
@[simp] theorem State.updCadPort_freeCtr (p : Nat) (g : CadPort → CadPort) : (s.updCadPort p g).freeCtr = s.freeCtr := rfl
@[simp] theorem State.updCadPort_part (p : Nat) (g : CadPort → CadPort) : (s.updCadPort p g).part = s.part := rfl
@[simp] theorem State.updCadPort_now (p : Nat) (g : CadPort → CadPort) : (s.updCadPort p g).now = s.now := rfl
@[simp] theorem State.updCadPort_entryPc (p : Nat) (g : CadPort → CadPort) : (s.updCadPort p g).entryPc = s.entryPc := rfl
@[simp] theorem State.updCadPort_tiles (p : Nat) (g : CadPort → CadPort) : (s.updCadPort p g).tiles = s.tiles := rfl
@[simp] theorem State.updCadPort_slices (p : Nat) (g : CadPort → CadPort) : (s.updCadPort p g).slices = s.slices := rfl
@[simp] theorem State.updCadPort_homeMap (p : Nat) (g : CadPort → CadPort) : (s.updCadPort p g).homeMap = s.homeMap := rfl
@[simp] theorem State.updCadPort_slicesOff (p : Nat) (g : CadPort → CadPort) : (s.updCadPort p g).slicesOff = s.slicesOff := rfl
@[simp] theorem State.updCadPort_tilesOff (p : Nat) (g : CadPort → CadPort) : (s.updCadPort p g).tilesOff = s.tilesOff := rfl
@[simp] theorem State.updCadPort_net (p : Nat) (g : CadPort → CadPort) : (s.updCadPort p g).net = s.net := rfl
@[simp] theorem State.updCadPort_pips (p : Nat) (g : CadPort → CadPort) : (s.updCadPort p g).pips = s.pips := rfl
@[simp] theorem State.updCadPort_io (p : Nat) (g : CadPort → CadPort) : (s.updCadPort p g).io = s.io := rfl
@[simp] theorem State.updCadPort_mem (p : Nat) (g : CadPort → CadPort) : (s.updCadPort p g).mem = s.mem := rfl
@[simp] theorem State.updCadPort_hostMem (p : Nat) (g : CadPort → CadPort) : (s.updCadPort p g).hostMem = s.hostMem := rfl
@[simp] theorem State.updCadPort_hostPoison (p : Nat) (g : CadPort → CadPort) : (s.updCadPort p g).hostPoison = s.hostPoison := rfl
@[simp] theorem State.updCadPort_d2h (p : Nat) (g : CadPort → CadPort) : (s.updCadPort p g).d2h = s.d2h := rfl
@[simp] theorem State.updCadPort_bisnp (p : Nat) (g : CadPort → CadPort) : (s.updCadPort p g).bisnp = s.bisnp := rfl
@[simp] theorem State.updCadPort_answers (p : Nat) (g : CadPort → CadPort) : (s.updCadPort p g).answers = s.answers := rfl
@[simp] theorem State.updCadPort_goPend (p : Nat) (g : CadPort → CadPort) : (s.updCadPort p g).goPend = s.goPend := rfl
@[simp] theorem State.updCadPort_tenants (p : Nat) (g : CadPort → CadPort) : (s.updCadPort p g).tenants = s.tenants := rfl
@[simp] theorem State.updCadPort_works (p : Nat) (g : CadPort → CadPort) : (s.updCadPort p g).works = s.works := rfl
@[simp] theorem State.updCadPort_nextWork (p : Nat) (g : CadPort → CadPort) : (s.updCadPort p g).nextWork = s.nextWork := rfl
@[simp] theorem State.updCadPort_lastReady (p : Nat) (g : CadPort → CadPort) : (s.updCadPort p g).lastReady = s.lastReady := rfl
@[simp] theorem State.updCadPort_pulses (p : Nat) (g : CadPort → CadPort) : (s.updCadPort p g).pulses = s.pulses := rfl
@[simp] theorem State.updCadPort_cmp (p : Nat) (g : CadPort → CadPort) : (s.updCadPort p g).cmp = s.cmp := rfl
@[simp] theorem State.updCadPort_cmpOff (p : Nat) (g : CadPort → CadPort) : (s.updCadPort p g).cmpOff = s.cmpOff := rfl
@[simp] theorem State.updCadPort_cmpCtxs (p : Nat) (g : CadPort → CadPort) : (s.updCadPort p g).cmpCtxs = s.cmpCtxs := rfl
@[simp] theorem State.updCadPort_dma (p : Nat) (g : CadPort → CadPort) : (s.updCadPort p g).dma = s.dma := rfl
@[simp] theorem State.updCadPort_dmaOff (p : Nat) (g : CadPort → CadPort) : (s.updCadPort p g).dmaOff = s.dmaOff := rfl
@[simp] theorem State.updCadPort_dgs (p : Nat) (g : CadPort → CadPort) : (s.updCadPort p g).dgs = s.dgs := rfl
@[simp] theorem State.updCadPort_dgsOff (p : Nat) (g : CadPort → CadPort) : (s.updCadPort p g).dgsOff = s.dgsOff := rfl
@[simp] theorem State.updCadPort_keys (p : Nat) (g : CadPort → CadPort) : (s.updCadPort p g).keys = s.keys := rfl
@[simp] theorem State.updCadPort_brm (p : Nat) (g : CadPort → CadPort) : (s.updCadPort p g).brm = s.brm := rfl
@[simp] theorem State.updCadPort_brmOff (p : Nat) (g : CadPort → CadPort) : (s.updCadPort p g).brmOff = s.brmOff := rfl
@[simp] theorem State.updCadPort_mboxes (p : Nat) (g : CadPort → CadPort) : (s.updCadPort p g).mboxes = s.mboxes := rfl
@[simp] theorem State.updCadPort_eunto (p : Nat) (g : CadPort → CadPort) : (s.updCadPort p g).eunto = s.eunto := rfl
@[simp] theorem State.updCadPort_euntoLast (p : Nat) (g : CadPort → CadPort) : (s.updCadPort p g).euntoLast = s.euntoLast := rfl
@[simp] theorem State.updCadPort_euntoReq (p : Nat) (g : CadPort → CadPort) : (s.updCadPort p g).euntoReq = s.euntoReq := rfl
@[simp] theorem State.updCadPort_euntoSeq (p : Nat) (g : CadPort → CadPort) : (s.updCadPort p g).euntoSeq = s.euntoSeq := rfl
@[simp] theorem State.updCadPort_euntoArg (p : Nat) (g : CadPort → CadPort) : (s.updCadPort p g).euntoArg = s.euntoArg := rfl
@[simp] theorem State.updCadPort_euntoMute (p : Nat) (g : CadPort → CadPort) : (s.updCadPort p g).euntoMute = s.euntoMute := rfl
@[simp] theorem State.updCadPort_dstate (p : Nat) (g : CadPort → CadPort) : (s.updCadPort p g).dstate = s.dstate := rfl
@[simp] theorem State.updCadPort_krl (p : Nat) (g : CadPort → CadPort) : (s.updCadPort p g).krl = s.krl := rfl
@[simp] theorem State.updCadPort_runtimeVer (p : Nat) (g : CadPort → CadPort) : (s.updCadPort p g).runtimeVer = s.runtimeVer := rfl
@[simp] theorem State.updCadPort_bindLast (p : Nat) (g : CadPort → CadPort) : (s.updCadPort p g).bindLast = s.bindLast := rfl
@[simp] theorem State.updCadPort_tileTemp (p : Nat) (g : CadPort → CadPort) : (s.updCadPort p g).tileTemp = s.tileTemp := rfl
@[simp] theorem State.updCadPort_unreliable (p : Nat) (g : CadPort → CadPort) : (s.updCadPort p g).unreliable = s.unreliable := rfl
@[simp] theorem State.updCadPort_host (p : Nat) (g : CadPort → CadPort) : (s.updCadPort p g).host = s.host := rfl
@[simp] theorem State.updCadPort_errlog (p : Nat) (g : CadPort → CadPort) : (s.updCadPort p g).errlog = s.errlog := rfl
@[simp] theorem State.updCadPort_kstData (p : Nat) (g : CadPort → CadPort) : (s.updCadPort p g).kstData = s.kstData := rfl
@[simp] theorem State.updCadPort_kstCmd (p : Nat) (g : CadPort → CadPort) : (s.updCadPort p g).kstCmd = s.kstCmd := rfl
@[simp] theorem State.updCadPort_nv (p : Nat) (g : CadPort → CadPort) : (s.updCadPort p g).nv = s.nv := rfl
@[simp] theorem State.updCadPort_upd (p : Nat) (g : CadPort → CadPort) : (s.updCadPort p g).upd = s.upd := rfl
@[simp] theorem State.updCadPort_spdm (p : Nat) (g : CadPort → CadPort) : (s.updCadPort p g).spdm = s.spdm := rfl
@[simp] theorem State.updCadPort_pw (p : Nat) (g : CadPort → CadPort) : (s.updCadPort p g).pw = s.pw := rfl
@[simp] theorem State.updCadPort_rel (p : Nat) (g : CadPort → CadPort) : (s.updCadPort p g).rel = s.rel := rfl

@[simp] theorem State.updPw_pending (g : Power → Power) : (s.updPw g).pending = s.pending := rfl
@[simp] theorem State.updPw_freeCtr (g : Power → Power) : (s.updPw g).freeCtr = s.freeCtr := rfl
@[simp] theorem State.updPw_part (g : Power → Power) : (s.updPw g).part = s.part := rfl
@[simp] theorem State.updPw_now (g : Power → Power) : (s.updPw g).now = s.now := rfl
@[simp] theorem State.updPw_entryPc (g : Power → Power) : (s.updPw g).entryPc = s.entryPc := rfl
@[simp] theorem State.updPw_tiles (g : Power → Power) : (s.updPw g).tiles = s.tiles := rfl
@[simp] theorem State.updPw_slices (g : Power → Power) : (s.updPw g).slices = s.slices := rfl
@[simp] theorem State.updPw_homeMap (g : Power → Power) : (s.updPw g).homeMap = s.homeMap := rfl
@[simp] theorem State.updPw_slicesOff (g : Power → Power) : (s.updPw g).slicesOff = s.slicesOff := rfl
@[simp] theorem State.updPw_tilesOff (g : Power → Power) : (s.updPw g).tilesOff = s.tilesOff := rfl
@[simp] theorem State.updPw_net (g : Power → Power) : (s.updPw g).net = s.net := rfl
@[simp] theorem State.updPw_pips (g : Power → Power) : (s.updPw g).pips = s.pips := rfl
@[simp] theorem State.updPw_io (g : Power → Power) : (s.updPw g).io = s.io := rfl
@[simp] theorem State.updPw_mem (g : Power → Power) : (s.updPw g).mem = s.mem := rfl
@[simp] theorem State.updPw_hostMem (g : Power → Power) : (s.updPw g).hostMem = s.hostMem := rfl
@[simp] theorem State.updPw_hostPoison (g : Power → Power) : (s.updPw g).hostPoison = s.hostPoison := rfl
@[simp] theorem State.updPw_d2h (g : Power → Power) : (s.updPw g).d2h = s.d2h := rfl
@[simp] theorem State.updPw_bisnp (g : Power → Power) : (s.updPw g).bisnp = s.bisnp := rfl
@[simp] theorem State.updPw_answers (g : Power → Power) : (s.updPw g).answers = s.answers := rfl
@[simp] theorem State.updPw_goPend (g : Power → Power) : (s.updPw g).goPend = s.goPend := rfl
@[simp] theorem State.updPw_tenants (g : Power → Power) : (s.updPw g).tenants = s.tenants := rfl
@[simp] theorem State.updPw_works (g : Power → Power) : (s.updPw g).works = s.works := rfl
@[simp] theorem State.updPw_nextWork (g : Power → Power) : (s.updPw g).nextWork = s.nextWork := rfl
@[simp] theorem State.updPw_lastReady (g : Power → Power) : (s.updPw g).lastReady = s.lastReady := rfl
@[simp] theorem State.updPw_pulses (g : Power → Power) : (s.updPw g).pulses = s.pulses := rfl
@[simp] theorem State.updPw_cmp (g : Power → Power) : (s.updPw g).cmp = s.cmp := rfl
@[simp] theorem State.updPw_cmpOff (g : Power → Power) : (s.updPw g).cmpOff = s.cmpOff := rfl
@[simp] theorem State.updPw_cmpCtxs (g : Power → Power) : (s.updPw g).cmpCtxs = s.cmpCtxs := rfl
@[simp] theorem State.updPw_dma (g : Power → Power) : (s.updPw g).dma = s.dma := rfl
@[simp] theorem State.updPw_dmaOff (g : Power → Power) : (s.updPw g).dmaOff = s.dmaOff := rfl
@[simp] theorem State.updPw_dgs (g : Power → Power) : (s.updPw g).dgs = s.dgs := rfl
@[simp] theorem State.updPw_dgsOff (g : Power → Power) : (s.updPw g).dgsOff = s.dgsOff := rfl
@[simp] theorem State.updPw_keys (g : Power → Power) : (s.updPw g).keys = s.keys := rfl
@[simp] theorem State.updPw_brm (g : Power → Power) : (s.updPw g).brm = s.brm := rfl
@[simp] theorem State.updPw_brmOff (g : Power → Power) : (s.updPw g).brmOff = s.brmOff := rfl
@[simp] theorem State.updPw_mboxes (g : Power → Power) : (s.updPw g).mboxes = s.mboxes := rfl
@[simp] theorem State.updPw_eunto (g : Power → Power) : (s.updPw g).eunto = s.eunto := rfl
@[simp] theorem State.updPw_euntoLast (g : Power → Power) : (s.updPw g).euntoLast = s.euntoLast := rfl
@[simp] theorem State.updPw_euntoReq (g : Power → Power) : (s.updPw g).euntoReq = s.euntoReq := rfl
@[simp] theorem State.updPw_euntoSeq (g : Power → Power) : (s.updPw g).euntoSeq = s.euntoSeq := rfl
@[simp] theorem State.updPw_euntoArg (g : Power → Power) : (s.updPw g).euntoArg = s.euntoArg := rfl
@[simp] theorem State.updPw_euntoMute (g : Power → Power) : (s.updPw g).euntoMute = s.euntoMute := rfl
@[simp] theorem State.updPw_dstate (g : Power → Power) : (s.updPw g).dstate = s.dstate := rfl
@[simp] theorem State.updPw_cad (g : Power → Power) : (s.updPw g).cad = s.cad := rfl
@[simp] theorem State.updPw_krl (g : Power → Power) : (s.updPw g).krl = s.krl := rfl
@[simp] theorem State.updPw_runtimeVer (g : Power → Power) : (s.updPw g).runtimeVer = s.runtimeVer := rfl
@[simp] theorem State.updPw_bindLast (g : Power → Power) : (s.updPw g).bindLast = s.bindLast := rfl
@[simp] theorem State.updPw_tileTemp (g : Power → Power) : (s.updPw g).tileTemp = s.tileTemp := rfl
@[simp] theorem State.updPw_unreliable (g : Power → Power) : (s.updPw g).unreliable = s.unreliable := rfl
@[simp] theorem State.updPw_host (g : Power → Power) : (s.updPw g).host = s.host := rfl
@[simp] theorem State.updPw_errlog (g : Power → Power) : (s.updPw g).errlog = s.errlog := rfl
@[simp] theorem State.updPw_kstData (g : Power → Power) : (s.updPw g).kstData = s.kstData := rfl
@[simp] theorem State.updPw_kstCmd (g : Power → Power) : (s.updPw g).kstCmd = s.kstCmd := rfl
@[simp] theorem State.updPw_nv (g : Power → Power) : (s.updPw g).nv = s.nv := rfl
@[simp] theorem State.updPw_upd (g : Power → Power) : (s.updPw g).upd = s.upd := rfl
@[simp] theorem State.updPw_spdm (g : Power → Power) : (s.updPw g).spdm = s.spdm := rfl
@[simp] theorem State.updPw_rel (g : Power → Power) : (s.updPw g).rel = s.rel := rfl

@[simp] theorem State.updRel_pending (g : Relia → Relia) : (s.updRel g).pending = s.pending := rfl
@[simp] theorem State.updRel_freeCtr (g : Relia → Relia) : (s.updRel g).freeCtr = s.freeCtr := rfl
@[simp] theorem State.updRel_part (g : Relia → Relia) : (s.updRel g).part = s.part := rfl
@[simp] theorem State.updRel_now (g : Relia → Relia) : (s.updRel g).now = s.now := rfl
@[simp] theorem State.updRel_entryPc (g : Relia → Relia) : (s.updRel g).entryPc = s.entryPc := rfl
@[simp] theorem State.updRel_tiles (g : Relia → Relia) : (s.updRel g).tiles = s.tiles := rfl
@[simp] theorem State.updRel_slices (g : Relia → Relia) : (s.updRel g).slices = s.slices := rfl
@[simp] theorem State.updRel_homeMap (g : Relia → Relia) : (s.updRel g).homeMap = s.homeMap := rfl
@[simp] theorem State.updRel_slicesOff (g : Relia → Relia) : (s.updRel g).slicesOff = s.slicesOff := rfl
@[simp] theorem State.updRel_tilesOff (g : Relia → Relia) : (s.updRel g).tilesOff = s.tilesOff := rfl
@[simp] theorem State.updRel_net (g : Relia → Relia) : (s.updRel g).net = s.net := rfl
@[simp] theorem State.updRel_pips (g : Relia → Relia) : (s.updRel g).pips = s.pips := rfl
@[simp] theorem State.updRel_io (g : Relia → Relia) : (s.updRel g).io = s.io := rfl
@[simp] theorem State.updRel_mem (g : Relia → Relia) : (s.updRel g).mem = s.mem := rfl
@[simp] theorem State.updRel_hostMem (g : Relia → Relia) : (s.updRel g).hostMem = s.hostMem := rfl
@[simp] theorem State.updRel_hostPoison (g : Relia → Relia) : (s.updRel g).hostPoison = s.hostPoison := rfl
@[simp] theorem State.updRel_d2h (g : Relia → Relia) : (s.updRel g).d2h = s.d2h := rfl
@[simp] theorem State.updRel_bisnp (g : Relia → Relia) : (s.updRel g).bisnp = s.bisnp := rfl
@[simp] theorem State.updRel_answers (g : Relia → Relia) : (s.updRel g).answers = s.answers := rfl
@[simp] theorem State.updRel_goPend (g : Relia → Relia) : (s.updRel g).goPend = s.goPend := rfl
@[simp] theorem State.updRel_tenants (g : Relia → Relia) : (s.updRel g).tenants = s.tenants := rfl
@[simp] theorem State.updRel_works (g : Relia → Relia) : (s.updRel g).works = s.works := rfl
@[simp] theorem State.updRel_nextWork (g : Relia → Relia) : (s.updRel g).nextWork = s.nextWork := rfl
@[simp] theorem State.updRel_lastReady (g : Relia → Relia) : (s.updRel g).lastReady = s.lastReady := rfl
@[simp] theorem State.updRel_pulses (g : Relia → Relia) : (s.updRel g).pulses = s.pulses := rfl
@[simp] theorem State.updRel_cmp (g : Relia → Relia) : (s.updRel g).cmp = s.cmp := rfl
@[simp] theorem State.updRel_cmpOff (g : Relia → Relia) : (s.updRel g).cmpOff = s.cmpOff := rfl
@[simp] theorem State.updRel_cmpCtxs (g : Relia → Relia) : (s.updRel g).cmpCtxs = s.cmpCtxs := rfl
@[simp] theorem State.updRel_dma (g : Relia → Relia) : (s.updRel g).dma = s.dma := rfl
@[simp] theorem State.updRel_dmaOff (g : Relia → Relia) : (s.updRel g).dmaOff = s.dmaOff := rfl
@[simp] theorem State.updRel_dgs (g : Relia → Relia) : (s.updRel g).dgs = s.dgs := rfl
@[simp] theorem State.updRel_dgsOff (g : Relia → Relia) : (s.updRel g).dgsOff = s.dgsOff := rfl
@[simp] theorem State.updRel_keys (g : Relia → Relia) : (s.updRel g).keys = s.keys := rfl
@[simp] theorem State.updRel_brm (g : Relia → Relia) : (s.updRel g).brm = s.brm := rfl
@[simp] theorem State.updRel_brmOff (g : Relia → Relia) : (s.updRel g).brmOff = s.brmOff := rfl
@[simp] theorem State.updRel_mboxes (g : Relia → Relia) : (s.updRel g).mboxes = s.mboxes := rfl
@[simp] theorem State.updRel_eunto (g : Relia → Relia) : (s.updRel g).eunto = s.eunto := rfl
@[simp] theorem State.updRel_euntoLast (g : Relia → Relia) : (s.updRel g).euntoLast = s.euntoLast := rfl
@[simp] theorem State.updRel_euntoReq (g : Relia → Relia) : (s.updRel g).euntoReq = s.euntoReq := rfl
@[simp] theorem State.updRel_euntoSeq (g : Relia → Relia) : (s.updRel g).euntoSeq = s.euntoSeq := rfl
@[simp] theorem State.updRel_euntoArg (g : Relia → Relia) : (s.updRel g).euntoArg = s.euntoArg := rfl
@[simp] theorem State.updRel_euntoMute (g : Relia → Relia) : (s.updRel g).euntoMute = s.euntoMute := rfl
@[simp] theorem State.updRel_dstate (g : Relia → Relia) : (s.updRel g).dstate = s.dstate := rfl
@[simp] theorem State.updRel_cad (g : Relia → Relia) : (s.updRel g).cad = s.cad := rfl
@[simp] theorem State.updRel_krl (g : Relia → Relia) : (s.updRel g).krl = s.krl := rfl
@[simp] theorem State.updRel_runtimeVer (g : Relia → Relia) : (s.updRel g).runtimeVer = s.runtimeVer := rfl
@[simp] theorem State.updRel_bindLast (g : Relia → Relia) : (s.updRel g).bindLast = s.bindLast := rfl
@[simp] theorem State.updRel_tileTemp (g : Relia → Relia) : (s.updRel g).tileTemp = s.tileTemp := rfl
@[simp] theorem State.updRel_unreliable (g : Relia → Relia) : (s.updRel g).unreliable = s.unreliable := rfl
@[simp] theorem State.updRel_host (g : Relia → Relia) : (s.updRel g).host = s.host := rfl
@[simp] theorem State.updRel_errlog (g : Relia → Relia) : (s.updRel g).errlog = s.errlog := rfl
@[simp] theorem State.updRel_kstData (g : Relia → Relia) : (s.updRel g).kstData = s.kstData := rfl
@[simp] theorem State.updRel_kstCmd (g : Relia → Relia) : (s.updRel g).kstCmd = s.kstCmd := rfl
@[simp] theorem State.updRel_nv (g : Relia → Relia) : (s.updRel g).nv = s.nv := rfl
@[simp] theorem State.updRel_upd (g : Relia → Relia) : (s.updRel g).upd = s.upd := rfl
@[simp] theorem State.updRel_spdm (g : Relia → Relia) : (s.updRel g).spdm = s.spdm := rfl
@[simp] theorem State.updRel_pw (g : Relia → Relia) : (s.updRel g).pw = s.pw := rfl

/-! What a read gives after an update. -/

@[simp] theorem State.tile_updTile (t : Nat) (f : Tile → Tile) : (s.updTile t f).tile t = f (s.tile t) := Tab.getD_upd_self _ _ _ _

theorem State.tile_updTile_ne {t u : Nat} (f : Tile → Tile) (h : t ≠ u) : (s.updTile t f).tile u = s.tile u := Tab.getD_upd_ne _ _ _ h

@[simp] theorem State.core_updTile (t : Nat) (f : Tile → Tile) : (s.updTile t f).core t = (f (s.tile t)).core :=
  congrArg Tile.core (s.tile_updTile t f)

@[simp] theorem State.core_updCore (t : Nat) (f : Core → Core) : (s.updCore t f).core t = f (s.core t) := s.core_updTile t _

theorem State.core_updCore_ne {t u : Nat} (f : Core → Core) (h : t ≠ u) : (s.updCore t f).core u = s.core u :=
  congrArg Tile.core (s.tile_updTile_ne _ h)

@[simp] theorem State.tile_updCore (t : Nat) (f : Core → Core) : (s.updCore t f).tile t = { s.tile t with core := f (s.tile t).core } :=
  s.tile_updTile t _

@[simp] theorem State.tile_updL1 (t : Nat) (f : L1 → L1) : (s.updL1 t f).tile t = { s.tile t with l1 := f (s.tile t).l1 } :=
  s.tile_updTile t _

@[simp] theorem State.tile_updStroke (t : Nat) (f : Stroke → Stroke) :
    (s.updStroke t f).tile t = { s.tile t with stroke := f (s.tile t).stroke } := s.tile_updTile t _

@[simp] theorem State.slice_updSlice (h : Nat) (f : Slice → Slice) : (s.updSlice h f).slice h = f (s.slice h) := Tab.getD_upd_self _ _ _ _

theorem State.slice_updSlice_ne {h k : Nat} (f : Slice → Slice) (n : h ≠ k) : (s.updSlice h f).slice k = s.slice k := Tab.getD_upd_ne _ _ _ n

@[simp] theorem State.chan_updChan (c : Nat) (f : Chan → Chan) : (s.updChan c f).chan c = f (s.chan c) := Tab.getD_upd_self _ _ _ _

theorem State.chan_updChan_ne {c d : Nat} (f : Chan → Chan) (h : c ≠ d) : (s.updChan c f).chan d = s.chan d := Tab.getD_upd_ne _ _ _ h

@[simp] theorem State.tenant_updTenant (f : Nat) (g : Tenant → Tenant) : (s.updTenant f g).tenant f = g (s.tenant f) := Tab.getD_upd_self _ _ _ _

theorem State.tenant_updTenant_ne {f k : Nat} (g : Tenant → Tenant) (h : f ≠ k) : (s.updTenant f g).tenant k = s.tenant k :=
  Tab.getD_upd_ne _ _ _ h

@[simp] theorem State.disp_updDisp (f : Nat) (g : Disp → Disp) : (s.updDisp f g).disp f = g (s.disp f) :=
  congrArg Tenant.disp (s.tenant_updTenant f _)

@[simp] theorem State.dmaChan_updDma (c : Nat) (g : DmaChan → DmaChan) : (s.updDma c g).dmaChan c = g (s.dmaChan c) := Tab.getD_upd_self _ _ _ _

@[simp] theorem State.cmpChan_updCmp (c : Nat) (g : CmpChan → CmpChan) : (s.updCmp c g).cmpChan c = g (s.cmpChan c) := Tab.getD_upd_self _ _ _ _

@[simp] theorem State.bram_updBrm (a : Nat) (g : Bram → Bram) : (s.updBrm a g).bram a = g (s.bram a) := Tab.getD_upd_self _ _ _ _

@[simp] theorem State.mbox_updMbox (f : Nat) (g : Mailbox → Mailbox) : (s.updMbox f g).mbox f = g (s.mbox f) := Tab.getD_upd_self _ _ _ _

@[simp] theorem State.kport_updPort (p : Nat) (g : KPort → KPort) : (s.updPort p g).kport p = g (s.kport p) := Tab.getD_upd_self _ _ _ _

@[simp] theorem State.updCad_cad (g : Cadence → Cadence) : (s.updCad g).cad = g s.cad := rfl

@[simp] theorem State.updPw_pw (g : Power → Power) : (s.updPw g).pw = g s.pw := rfl

@[simp] theorem State.updRel_rel (g : Relia → Relia) : (s.updRel g).rel = g s.rel := rfl

/-- A general register after a write: G0 takes none and reads zero (06 R154). -/
theorem Core.readG_writeG (c : Core) (r k : Reg) (v : Word) :
    (c.writeG r v).readG k = if k = r ∧ r ≠ 0 then v else c.readG k := by
  unfold Core.readG Core.writeG
  by_cases hr : r = 0
  · rw [if_pos hr, if_neg (show ¬(k = r ∧ r ≠ 0) from fun h => h.2 hr)]
  · rw [if_neg hr]
    by_cases hk : k = r
    · rw [if_pos (show k = r ∧ r ≠ 0 from ⟨hk, hr⟩), if_neg (show ¬k = 0 from hk ▸ hr), hk]
      exact Tab.getD_set_self _ _ _ _
    · rw [if_neg (show ¬(k = r ∧ r ≠ 0) from fun h => hk h.1)]
      dsimp only
      rw [Tab.getD_set_ne _ _ _ (fun h => hk (BitVec.eq_of_toNat_eq h.symm))]

end Sys2Proof.Machine
end

