-- ==== Sys2Proof/Laws/Issue.lean ====
section
/-! SUPPORT. What an instruction fetch can change, and what an instruction that executes does. -/

namespace Sys2Proof.Machine

/-- What a fetch leaves of the first-level caches as it was: L1D, the buffers, the requests, L1CTL. -/
structure L1.SameData (a b : L1) : Prop where
  d : b.d = a.d
  vbuf : b.vbuf = a.vbuf
  reqs : b.reqs = a.reqs
  given : b.given = a.given
  dbuf : b.dbuf = a.dbuf
  ctl : b.ctl = a.ctl

theorem L1.SameData.refl (a : L1) : a.SameData a := ⟨rfl, rfl, rfl, rfl, rfl, rfl⟩

theorem L1.SameData.trans {a b c : L1} (h : a.SameData b) (k : b.SameData c) : a.SameData c :=
  ⟨k.d.trans h.d, k.vbuf.trans h.vbuf, k.reqs.trans h.reqs, k.given.trans h.given, k.dbuf.trans h.dbuf, k.ctl.trans h.ctl⟩

theorem L1.dropBadI_same (c : L1) (bad : Nat × ILine → Bool) : c.SameData (c.dropBadI bad) := by
  unfold L1.dropBadI
  generalize c.i.filter bad = l
  induction l generalizing c with
  | nil => exact .refl c
  | cons p r ih =>
    rw [List.foldl_cons]
    refine L1.SameData.trans ?_ (ih _)
    exact ⟨rfl, rfl, rfl, rfl, rfl, rfl⟩

theorem L1.iChoose_same (c : L1) (line : Nat) : c.SameData (c.iChoose line).2 := by
  unfold L1.iChoose
  extract_lets
  split <;> exact ⟨rfl, rfl, rfl, rfl, rfl, rfl⟩

/-- A state that differs in the caches of one tile alone, as a fetch may leave them. -/
structure State.FetchOnly (s : State) (t : Nat) (u : State) : Prop where
  rest : u = { s with tiles := u.tiles }
  other : ∀ k, t ≠ k → u.tile k = s.tile k
  own : u.tile t = { s.tile t with l1 := (u.tile t).l1 }
  data : (s.tile t).l1.SameData (u.tile t).l1

theorem State.FetchOnly.refl (s : State) (t : Nat) : s.FetchOnly t s := ⟨rfl, fun _ _ => rfl, rfl, .refl _⟩

theorem State.FetchOnly.updL1 {s u : State} {t : Nat} (h : s.FetchOnly t u) (f : L1 → L1)
    (hf : (u.tile t).l1.SameData (f (u.tile t).l1)) : s.FetchOnly t (u.updL1 t f) where
  rest := by
    have := h.rest
    rw [State.updL1, State.updTile, this]
  other k hk := (u.tile_updTile_ne _ hk).trans (h.other k hk)
  own := by rw [State.tile_updL1, h.own]
  data := by rw [State.tile_updL1]; exact h.data.trans hf

/-- A fetch changes nothing but L1I of its tile. -/
theorem State.fetch_only (s : State) (t : Nat) : s.FetchOnly t (s.fetched t) := by
  unfold State.fetched State.fetch
  extract_lets c line s1 l1 set hit r n
  have h1 : s.FetchOnly t s1 := by
    unfold s1
    split
    · exact State.FetchOnly.updL1 (.refl s t) _ (L1.dropBadI_same _ _)
    · exact .refl s t
  clear_value hit
  split
  · exact .refl s t
  split
  · exact .refl s t
  split
  · exact h1
  split
  · exact h1
  split
  · dsimp only
    refine h1.updL1 _ ?_
    exact ⟨rfl, rfl, rfl, rfl, rfl, rfl⟩
  · have h2 : (s1.tile t).l1.SameData (l1.iChoose line).2 := L1.iChoose_same _ line
    generalize l1.iChoose line = p at h2
    dsimp only
    refine h1.updL1 _ (h2.trans ?_)
    exact ⟨rfl, rfl, rfl, rfl, rfl, rfl⟩

theorem Tab.set_set {α : Type} (t : Tab α) (k : Nat) (v w : α) : (t.set k v).set k w = t.set k w := by
  induction t with
  | nil => simp [Tab.set]
  | cons p r ih =>
    obtain ⟨a, b⟩ := p
    by_cases h : a = k <;> simp [Tab.set, h, ih]

theorem State.updTile_updTile (s : State) (t : Nat) (f g : Tile → Tile) :
    (s.updTile t f).updTile t g = s.updTile t (fun x => g (f x)) := by
  unfold State.updTile Tab.upd
  simp only [Tab.getD_set_self, Tab.set_set]

theorem State.FetchOnly.core {s u : State} {t : Nat} (h : s.FetchOnly t u) (k : Nat) : u.core k = s.core k := by
  unfold State.core
  by_cases hk : t = k
  · subst hk; rw [h.own]
  · rw [h.other k hk]

@[simp] theorem State.fetched_core (s : State) (t k : Nat) : (s.fetched t).core k = s.core k := (s.fetch_only t).core k

/-- An instruction that executes, with its field rules met and outside a delay slot where it must be, has its own effect. -/
theorem State.runInstr_runs {s : State} {t : Nat} (h : Runs s t) (wf ctl vec : Bool) (body : Core → State → Eff)
    (hw : wf = true) (hc : ctl = true → ¬s.inSlot t) :
    s.runInstr t wf ctl vec body = finishInstr t vec (body (s.core t) (s.fetched t)) := by
  unfold State.runInstr
  rw [if_pos h.1]
  have h2 := h.2
  have h3 := s.fetched_core t t
  unfold State.fetched at h3
  have h4 : ¬(((!wf) || (ctl && (s.core t).slot.isSome)) = true) := by
    cases ctl <;> simp_all [State.inSlot]
  generalize he : s.fetch t = p at h2 h3 ⊢
  obtain ⟨a, b⟩ := p
  subst hw
  cases h2
  dsimp only
  rw [if_neg h4]
  unfold State.fetched
  rw [he]
  dsimp only at h3 ⊢
  rw [h3]

/-- An instruction that writes a general register. -/
theorem State.alu_runs {s : State} {t : Nat} (h : Runs s t) (wf : Bool) (rd : Reg) (v : Core → Word) (hw : wf = true) :
    s.alu t wf rd v = s.ran t (fun c => c.writeG rd (v (s.core t))) := by
  unfold State.alu
  rw [State.runInstr_runs h _ _ _ _ hw (by simp)]
  unfold finishInstr State.ran
  dsimp only
  unfold State.updCore
  rw [State.updTile_updTile]

end Sys2Proof.Machine
end

