-- ==== Sys2Proof/Laws/Access.lean ====
section
/-! SUPPORT. What an exception leaves, and what a check of a sound L1D finds. -/

namespace Sys2Proof.Machine

variable (s : State)

/-- A check of an L1D without parity errors finds none and changes nothing. -/
theorem State.parityScan_sound {t : Nat} (h : s.soundL1 t) (sel : Nat → DLine → Option (BitVec 8)) : s.parityScan t sel = (s, false) := by
  unfold State.parityScan
  extract_lets bad
  have hb : bad = [] := by
    unfold bad
    rw [List.filter_eq_nil_iff]
    intro p hp
    obtain ⟨h1, h2⟩ := h.2 p hp
    cases sel p.1 p.2 <;> simp [DLine.badIn, h1, h2]
  rw [hb]
  rfl

/-- A walk of an L1D without parity errors leaves the caches as a fetch does. -/
theorem State.parityWalkI_only (t : Nat) : s.FetchOnly t (s.parityWalkI t) :=
  State.FetchOnly.updL1 (.refl s t) _ (L1.dropBadI_same _ _)

/-- Held execution keeps nothing in a core of a fault other than SPEC_STORE. -/
theorem State.heldFault_core (t : Nat) (e : Exc) (f : HeldFault) (h : e ≠ .specStore) (k : Nat) : (s.heldFault t e f).core k = s.core k := by
  unfold State.heldFault
  extract_lets c n
  split
  · rfl
  split
  · rfl
  · rfl
  · exact absurd rfl h
  · unfold State.core
    by_cases hk : t = k
    · subst hk; rw [State.tile_updTile]
    · rw [State.tile_updTile_ne _ _ hk]

/-- The core after an exception taken outside a handler (06 R182). -/
theorem State.raise_core {t : Nat} (hx : (s.core t).exl = false) (e : Exc) (he : e ≠ .specStore) (addr : Word) (acc : Access) (vec : Bool)
    (elem : Option Nat) (svc : BitVec 12) :
    (s.raise t e addr acc vec elem svc).core t = { s.core t with
      qepc := (match (s.core t).slot with | some sl => sl.branch | none => if e = .syscall then (s.core t).pc + 4 else (s.core t).pc),
      qfaultPc := (s.core t).pc, qfaultAddr := if excHasAddr e then addr else 0,
      qcause := BitVec.ofNat 64 (excCode e + (if (s.core t).slot.isSome then 2 ^ 8 else 0) + accessCode acc * 2 ^ 10 + (if vec then 2 ^ 12 else 0)
        + (if (s.core t).held then 2 ^ 13 else 0) + (if e = .syscall then svc.toNat else field (s.core t).qcause 16 12) * 2 ^ 16),
      qfaultElem := (match elem with | some k => BitVec.ofNat 32 (2 ^ 31 + k % 128) | none => 0),
      qstat := putBit (putBit (putBit (putBit (s.core t).qstat 2 (s.core t).runtime) 3 (s.core t).ie) 0 true) 1 true,
      qctl := putBit (putBit (s.core t).qctl 0 false) 3 false,
      pc := (s.core t).qvbase, slot := none } := by
  unfold State.raise
  simp only [hx, Bool.false_eq_true, if_false, State.core_updCore, State.heldFault_core _ _ _ _ he] <;> rfl

/-- A command whose effect is an exception outside a handler traps. -/
theorem Traps.of_raise {i : Instr} {t : Nat} (hx : (s.core t).exl = false) {u : State} (hu : ∀ k, u.core k = s.core k) (e : Exc)
    (he : e ≠ .specStore) (hs : e ≠ .syscall) (addr : Word) (acc : Access) (vec : Bool) (elem : Option Nat)
    (h : exec i s = .next (u.raise t e addr acc vec elem 0)) : Traps i s t (excCode e) := by
  refine ⟨_, h, ?_⟩
  rw [u.raise_core (by rw [hu]; exact hx) e he]
  simp only [hu, Core.runtime, Core.exl, Core.ie, Core.held, Core.pmode, Core.pie, Core.readV]
  refine ⟨trivial, trivial, ?_, ?_, trivial, ?_, ?_, ?_, ?_, ?_, ?_, fun _ => rfl, fun _ => trivial⟩
  · cases (s.core t).slot <;> simp [hs]
  · have h28 : field (s.core t).qcause 16 12 < 2 ^ 12 := Nat.mod_lt _ (by decide)
    generalize field (s.core t).qcause 16 12 = q at h28
    have ha : accessCode acc < 4 := by cases acc <;> decide
    have hc : excCode e < 16 := by cases e <;> decide
    generalize accessCode acc = x at ha
    generalize excCode e = y at hc
    have hif : ∀ (b : Prop) [Decidable b] (v : Nat), (if b then v else 0) = 0 ∨ (if b then v else 0) = v := by
      intro b _ v; split <;> simp
    simp only [if_neg hs, field, BitVec.toNat_ofNat]
    rcases hif ((s.core t).slot.isSome = true) (2 ^ 8) with e1 | e1 <;> rcases hif (vec = true) (2 ^ 12) with e2 | e2 <;>
      rcases hif ((s.core t).qctl.getLsbD 3 = true) (2 ^ 13) with e3 | e3 <;> rw [e1, e2, e3] <;> omega
  all_goals
    repeat rw [getLsbD_putBit _ _ _ _ (by decide)]
    simp

end Sys2Proof.Machine
end

