-- ==== Sys2Proof/Laws/Memory.lean ====
section
/-! SUPPORT. Byte memory: a read after a write, and the canonical form that every operation keeps. -/

namespace Sys2Proof.Machine

theorem Memory.wfFrom_mono {lo hi : Nat} {m : List Host.Cell} (h : lo ≤ hi) (w : Memory.wfFrom hi m = true) :
    Memory.wfFrom lo m = true := by
  cases m with
  | nil => rfl
  | cons c r =>
    obtain ⟨a, b⟩ := c
    simp only [Memory.wfFrom, Bool.and_eq_true, decide_eq_true_eq] at w ⊢
    exact ⟨⟨h.trans w.1.1, w.1.2⟩, w.2⟩

theorem Memory.read_below {lo k : Nat} {m : List Host.Cell} (w : Memory.wfFrom lo m = true) (h : k < lo) :
    Memory.read m k = 0 := by
  cases m with
  | nil => rfl
  | cons c r =>
    obtain ⟨a, b⟩ := c
    simp only [Memory.wfFrom, Bool.and_eq_true, decide_eq_true_eq] at w
    simp only [Memory.read]
    rw [if_neg (by omega), if_pos (by omega)]

theorem Memory.wfFrom_write {lo k : Nat} {m : List Host.Cell} (v : Byte) (w : Memory.wfFrom lo m = true) (h : lo ≤ k) :
    Memory.wfFrom lo (Memory.write m k v) = true := by
  induction m generalizing lo with
  | nil =>
    by_cases hv : v = 0#8
    · simp [Memory.write, Memory.wfFrom, hv]
    · simp [Memory.write, Memory.wfFrom, hv, h]
  | cons c r ih =>
    obtain ⟨a, b⟩ := c
    have w0 := w
    simp only [Memory.wfFrom, Bool.and_eq_true, decide_eq_true_eq] at w
    by_cases hlt : k < a
    · by_cases hv : v = 0#8
      · simpa [Memory.write, hlt, hv] using w0
      · simp only [Memory.write, BitVec.ofNat_eq_ofNat, hlt, hv, if_true, if_false, Memory.wfFrom, Bool.and_eq_true, decide_eq_true_eq]
        exact ⟨⟨h, by simpa using hv⟩, ⟨by omega, w.1.2⟩, w.2⟩
    · by_cases he : k = a
      · subst he
        by_cases hv : v = 0#8
        · simp only [Memory.write, BitVec.ofNat_eq_ofNat, lt_irrefl, hv, if_true, if_false]
          exact Memory.wfFrom_mono (by omega) w.2
        · simp only [Memory.write, BitVec.ofNat_eq_ofNat, lt_irrefl, hv, if_true, if_false, Memory.wfFrom, Bool.and_eq_true, decide_eq_true_eq]
          exact ⟨⟨h, by simpa using hv⟩, w.2⟩
      · simp only [Memory.write, hlt, he, if_false, Memory.wfFrom, Bool.and_eq_true, decide_eq_true_eq]
        exact ⟨w.1, ih w.2 (by omega)⟩

/-- Every write keeps the canonical form. -/
theorem Memory.wf_write {m : List Host.Cell} (k : Nat) (v : Byte) (w : Memory.wf m = true) :
    Memory.wf (Memory.write m k v) = true := Memory.wfFrom_write v w (Nat.zero_le k)

theorem Memory.wf_writeBytes {m : List Host.Cell} (a : Nat) (l : List Byte) (w : Memory.wf m = true) :
    Memory.wf (Memory.writeBytes m a l) = true := by
  induction l generalizing m a with
  | nil => exact w
  | cons b r ih => exact ih _ (Memory.wf_write a b w)

theorem Memory.wf_writeLine {m : List Host.Cell} (l : Nat) (d : Line) (w : Memory.wf m = true) :
    Memory.wf (Memory.writeLine m l d) = true := Memory.wf_writeBytes _ _ w

theorem Memory.wfFrom_filter {lo : Nat} {m : List Host.Cell} (p : Host.Cell → Bool) (w : Memory.wfFrom lo m = true) :
    Memory.wfFrom lo (m.filter p) = true := by
  induction m generalizing lo with
  | nil => rfl
  | cons c r ih =>
    obtain ⟨a, b⟩ := c
    simp only [Memory.wfFrom, Bool.and_eq_true, decide_eq_true_eq] at w
    by_cases hp : p (a, b) = true
    · simp only [List.filter_cons, hp, if_true, Memory.wfFrom, Bool.and_eq_true, decide_eq_true_eq]
      exact ⟨w.1, ih w.2⟩
    · simp only [List.filter_cons, hp, Bool.false_eq_true, if_false]
      exact Memory.wfFrom_mono (by omega) (ih w.2)

/-- Removing entries keeps the canonical form. -/
theorem Memory.wf_filter {m : List Host.Cell} (p : Host.Cell → Bool) (w : Memory.wf m = true) :
    Memory.wf (m.filter p) = true := Memory.wfFrom_filter p w

theorem Memory.wf_clear {m : List Host.Cell} (lo hi : Nat) (w : Memory.wf m = true) :
    Memory.wf (Memory.clear m lo hi) = true := Memory.wf_filter _ w

theorem Memory.wf_nil : Memory.wf [] = true := rfl

theorem Memory.read_write_from {lo k : Nat} {m : List Host.Cell} (v : Byte) (j : Nat) (w : Memory.wfFrom lo m = true)
    (h : lo ≤ k) : Memory.read (Memory.write m k v) j = if j = k then v else Memory.read m j := by
  induction m generalizing lo with
  | nil =>
    by_cases hv : v = 0#8
    · simp [Memory.write, Memory.read, hv]
    · by_cases hj : j = k
      · simp [Memory.write, Memory.read, hv, hj]
      · simp [Memory.write, Memory.read, hv, hj, Ne.symm hj]
  | cons c r ih =>
    obtain ⟨a, b⟩ := c
    simp only [Memory.wfFrom, Bool.and_eq_true, decide_eq_true_eq] at w
    by_cases hlt : k < a
    · by_cases hv : v = 0#8
      · by_cases hj : j = k
        · subst hj
          simp only [Memory.write, BitVec.ofNat_eq_ofNat, hlt, hv, if_true, Memory.read]
          rw [if_neg (by omega)]
        · simp [Memory.write, hlt, hv, hj]
      · by_cases hj : j = k
        · simp [Memory.write, Memory.read, hlt, hv, hj]
        · simp only [Memory.write, BitVec.ofNat_eq_ofNat, hlt, hv, if_true, if_false, Memory.read, hj, Ne.symm hj]
          by_cases hjk : j < k
          · rw [if_pos hjk, if_neg (by omega), if_pos (by omega)]
          · rw [if_neg hjk]
    · by_cases he : k = a
      · subst he
        by_cases hv : v = 0#8
        · simp only [Memory.write, BitVec.ofNat_eq_ofNat, lt_irrefl, hv, if_true, if_false, Memory.read]
          by_cases hj : j = k
          · subst hj
            simpa using Memory.read_below w.2 (Nat.lt_succ_self j)
          · rw [if_neg hj, if_neg (Ne.symm hj)]
            by_cases hjk : j < k
            · rw [if_pos hjk]
              exact Memory.read_below w.2 (by omega)
            · rw [if_neg hjk]
        · by_cases hj : j = k
          · simp [Memory.write, Memory.read, hv, hj]
          · simp [Memory.write, Memory.read, hv, hj, Ne.symm hj]
      · simp only [Memory.write, hlt, he, if_false, Memory.read]
        rw [ih w.2 (by omega)]
        by_cases hj : j = k
        · subst hj
          rw [if_neg (by omega), if_neg (by omega), if_pos rfl, if_pos rfl]
        · rw [if_neg hj, if_neg hj]

/-- A byte read after a write: the byte written at its place, what stood there at every other. -/
theorem Memory.read_write {m : List Host.Cell} (k : Nat) (v : Byte) (j : Nat) (w : Memory.wf m = true) :
    Memory.read (Memory.write m k v) j = if j = k then v else Memory.read m j :=
  Memory.read_write_from v j w (Nat.zero_le k)

end Sys2Proof.Machine
end

