-- ==== Sys2Proof/Laws/Keeps.lean ====
section
/-! SUPPORT. What no command may do: the relation between the state before and after, closed under composition. -/

namespace Sys2Proof.Machine

theorem NvKeeps.refl (n : NonVol) : NvKeeps n n := ⟨le_rfl, id, le_rfl, fun _ => rfl, id, id, le_rfl⟩

theorem NvKeeps.trans {n m k : NonVol} (a : NvKeeps n m) (b : NvKeeps m k) : NvKeeps n k :=
  ⟨a.svn.trans b.svn, fun h => a.identity (b.identity h), a.count.trans b.count,
    fun h => by
      have h1 := a.count
      have h2 := b.count
      rw [b.lifecycle (by omega), a.lifecycle (by omega)],
    fun h => b.last (a.last h), fun h => a.first (b.first h), a.hours.trans b.hours⟩

/-- What a command may leave: the queue and the part as they were, free values drawn in order, memory and host memory
canonical, flash and fuses, the error log and the sag level as NvKeeps, ErrLog.bounded and Power.levelOk say. -/
structure Kept (s : State) (pending : List Instr) (part : Part) (freeCtr : Nat) (cells hostMem : List Host.Cell) (nv : NonVol)
    (errlog : ErrLog) (pw : Power) : Prop where
  pending : pending = s.pending
  part : part = s.part
  drawn : s.freeCtr ≤ freeCtr
  mem : Memory.wf s.mem.cells = true → Memory.wf cells = true
  host : Memory.wf s.hostMem = true → Memory.wf hostMem = true
  nv : NvKeeps s.nv nv
  errlog : s.errlog.bounded → errlog.bounded
  pw : s.pw.levelOk → pw.levelOk

/-- A state that a command may leave. -/
def Keeps (s t : State) : Prop := Kept s t.pending t.part t.freeCtr t.mem.cells t.hostMem t.nv t.errlog t.pw

theorem Keeps.refl (s : State) : Keeps s s := ⟨rfl, rfl, le_rfl, id, id, .refl _, id, id⟩

theorem Keeps.trans {s t u : State} (a : Keeps s t) (b : Keeps t u) : Keeps s u :=
  ⟨b.pending.trans a.pending, b.part.trans a.part, a.drawn.trans b.drawn, fun h => b.mem (a.mem h), fun h => b.host (a.host h),
    a.nv.trans b.nv, fun h => b.errlog (a.errlog h), fun h => b.pw (a.pw h)⟩

section
variable {ini : State}

/-- A state written out keeps what its named fields keep. -/
theorem Keeps.mk_iff {x_pending x_freeCtr x_part x_now x_entryPc x_tiles x_slices x_homeMap x_slicesOff x_tilesOff x_net x_pips x_io
    x_mem x_hostMem x_hostPoison x_d2h x_bisnp x_answers x_goPend x_tenants x_works x_nextWork x_lastReady x_pulses
    x_cmp x_cmpOff x_cmpCtxs x_dma x_dmaOff x_dgs x_dgsOff x_keys x_brm x_brmOff x_mboxes x_eunto x_euntoLast
    x_euntoReq x_euntoSeq x_euntoArg x_euntoMute x_dstate x_cad x_krl x_runtimeVer x_bindLast x_tileTemp
    x_unreliable x_host x_errlog x_kstData x_kstCmd x_nv x_upd x_spdm x_pw x_rel} :
    Keeps ini (State.mk x_pending x_freeCtr x_part x_now x_entryPc x_tiles x_slices x_homeMap x_slicesOff x_tilesOff x_net x_pips x_io
      x_mem x_hostMem x_hostPoison x_d2h x_bisnp x_answers x_goPend x_tenants x_works x_nextWork x_lastReady
      x_pulses x_cmp x_cmpOff x_cmpCtxs x_dma x_dmaOff x_dgs x_dgsOff x_keys x_brm x_brmOff x_mboxes x_eunto
      x_euntoLast x_euntoReq x_euntoSeq x_euntoArg x_euntoMute x_dstate x_cad x_krl x_runtimeVer x_bindLast
      x_tileTemp x_unreliable x_host x_errlog x_kstData x_kstCmd x_nv x_upd x_spdm x_pw x_rel) ↔
      Kept ini x_pending x_part x_freeCtr x_mem.cells x_hostMem x_nv x_errlog x_pw := Iff.rfl

theorem Keeps.other {t : State} (h : Keeps ini t) :
    Kept ini t.pending t.part t.freeCtr t.mem.cells t.hostMem t.nv t.errlog t.pw := h

theorem Kept.memWriteLine {p q n c h v e w} {a : Nat} {d : Line} (k : Kept ini p q n c h v e w) :
    Kept ini p q n (Memory.writeLine c a d) h v e w :=
  ⟨k.pending, k.part, k.drawn, fun i => Memory.wf_writeLine _ _ (k.mem i), k.host, k.nv, k.errlog, k.pw⟩

theorem Kept.hostWriteLine {p q n c h v e w} {a : Nat} {d : Line} (k : Kept ini p q n c h v e w) :
    Kept ini p q n c (Memory.writeLine h a d) v e w :=
  ⟨k.pending, k.part, k.drawn, k.mem, fun i => Memory.wf_writeLine _ _ (k.host i), k.nv, k.errlog, k.pw⟩

theorem Kept.memFilter {p q n c h v e w} {f : Host.Cell → Bool} (k : Kept ini p q n c h v e w) :
    Kept ini p q n (c.filter f) h v e w :=
  ⟨k.pending, k.part, k.drawn, fun i => Memory.wf_filter _ (k.mem i), k.host, k.nv, k.errlog, k.pw⟩

theorem Kept.memEmpty {p q n c h v e w} (k : Kept ini p q n c h v e w) : Kept ini p q n [] h v e w :=
  ⟨k.pending, k.part, k.drawn, fun _ => Memory.wf_nil, k.host, k.nv, k.errlog, k.pw⟩

theorem Kept.draw {p q n c h v e w} {m : Nat} (k : Kept ini p q n c h v e w) : Kept ini p q (n + m) c h v e w :=
  ⟨k.pending, k.part, k.drawn.trans (Nat.le_add_right _ _), k.mem, k.host, k.nv, k.errlog, k.pw⟩

theorem Kept.nvSame {p q n c h v e w} {v' : NonVol} (k : Kept ini p q n c h v e w) (hv : NvKeeps v v') : Kept ini p q n c h v' e w :=
  ⟨k.pending, k.part, k.drawn, k.mem, k.host, k.nv.trans hv, k.errlog, k.pw⟩

/-- Fields of flash and fuses that NvKeeps does not name. -/
theorem NvKeeps.same {n m : NonVol} (h1 : m.svn = n.svn) (h2 : m.identity = n.identity) (h3 : m.count = n.count)
    (h4 : m.lifecycle = n.lifecycle) (h5 : m.hours = n.hours) : NvKeeps n m :=
  ⟨h1.ge, fun h => h2 ▸ h, h3.ge, fun _ => h4, fun h => h4.trans h, fun h => h4.symm.trans h, h5.ge⟩

theorem Keeps.setDrawn {t : State} {n : Nat} (h : Keeps ini t) (hn : t.freeCtr ≤ n) : Keeps ini { t with freeCtr := n } :=
  ⟨h.pending, h.part, h.drawn.trans hn, h.mem, h.host, h.nv, h.errlog, h.pw⟩

theorem Keeps.setMem {t : State} {m : Mem} (h : Keeps ini t) (hm : Memory.wf t.mem.cells = true → Memory.wf m.cells = true) :
    Keeps ini { t with mem := m } :=
  ⟨h.pending, h.part, h.drawn, fun k => hm (h.mem k), h.host, h.nv, h.errlog, h.pw⟩

theorem Keeps.setHost {t : State} {m : List Host.Cell} (h : Keeps ini t) (hm : Memory.wf t.hostMem = true → Memory.wf m = true) :
    Keeps ini { t with hostMem := m } :=
  ⟨h.pending, h.part, h.drawn, h.mem, fun k => hm (h.host k), h.nv, h.errlog, h.pw⟩

theorem Keeps.setNv {t : State} {n : NonVol} (h : Keeps ini t) (hn : NvKeeps t.nv n) : Keeps ini { t with nv := n } :=
  ⟨h.pending, h.part, h.drawn, h.mem, h.host, h.nv.trans hn, h.errlog, h.pw⟩

theorem Keeps.setErrlog {t : State} {l : ErrLog} (h : Keeps ini t) (hl : t.errlog.bounded → l.bounded) :
    Keeps ini { t with errlog := l } :=
  ⟨h.pending, h.part, h.drawn, h.mem, h.host, h.nv, fun k => hl (h.errlog k), h.pw⟩

theorem Keeps.setPw {t : State} {p : Power} (h : Keeps ini t) (hp : t.pw.levelOk → p.levelOk) : Keeps ini { t with pw := p } :=
  ⟨h.pending, h.part, h.drawn, h.mem, h.host, h.nv, h.errlog, fun k => hp (h.pw k)⟩

theorem Keeps.ite {c : Prop} [Decidable c] {a b : State} (ha : Keeps ini a) (hb : Keeps ini b) : Keeps ini (if c then a else b) := by
  split <;> assumption

theorem Keeps.fst {α : Type} {p : State × α} {a : State} {b : α} (e : p = (a, b)) (h : Keeps ini p.1) : Keeps ini a := by
  subst e; exact h

theorem Keeps.snd {α : Type} {p : α × State} {a : α} {b : State} (e : p = (a, b)) (h : Keeps ini p.2) : Keeps ini b := by
  subst e; exact h

theorem Keeps.ite_fst {α : Type} {c : Prop} [Decidable c] {a b : State × α} (ha : Keeps ini a.1) (hb : Keeps ini b.1) :
    Keeps ini (if c then a else b).1 := by
  split <;> assumption

theorem Keeps.ite_snd {α : Type} {c : Prop} [Decidable c] {a b : α × State} (ha : Keeps ini a.2) (hb : Keeps ini b.2) :
    Keeps ini (if c then a else b).2 := by
  split <;> assumption

theorem Keeps.foldl {α : Type} {g : State → α → State} {l : List α} {s : State} (h : Keeps ini s)
    (hg : ∀ s x, Keeps ini s → Keeps ini (g s x)) : Keeps ini (l.foldl g s) := by
  induction l generalizing s with
  | nil => exact h
  | cons x r ih => exact ih (hg s x h)

theorem Keeps.foldl_fst {α β : Type} {g : State × β → α → State × β} {l : List α} {p : State × β} (h : Keeps ini p.1)
    (hg : ∀ p x, Keeps ini p.1 → Keeps ini (g p x).1) : Keeps ini (l.foldl g p).1 := by
  induction l generalizing p with
  | nil => exact h
  | cons x r ih => exact ih (hg p x h)

theorem Keeps.foldl_snd {α β : Type} {g : β × State → α → β × State} {l : List α} {p : β × State} (h : Keeps ini p.2)
    (hg : ∀ p x, Keeps ini p.2 → Keeps ini (g p x).2) : Keeps ini (l.foldl g p).2 := by
  induction l generalizing p with
  | nil => exact h
  | cons x r ih => exact ih (hg p x h)

/-- A fold of operations that may fail. -/
theorem Keeps.foldl_bind {α : Type} {g : α → State → Option State} {l : List α} {s out : State}
    (e : l.foldl (fun a x => a.bind (fun s => g x s)) (some s) = some out) (h : Keeps ini s)
    (hg : ∀ x s out, g x s = some out → Keeps ini s → Keeps ini out) : Keeps ini out := by
  induction l generalizing s with
  | nil => cases e; exact h
  | cons x r ih =>
    simp only [List.foldl_cons, Option.bind_some] at e
    cases hx : g x s with
    | none =>
      rw [hx] at e
      have : ∀ l : List α, l.foldl (fun a x => a.bind (fun s => g x s)) none = none := by
        intro l
        induction l with
        | nil => rfl
        | cons y q iq => exact iq
      rw [this r] at e
      cases e
    | some s1 =>
      rw [hx] at e
      exact ih e (hg x s s1 hx h)

/-- The same where the fold carries a result beside the state. -/
theorem Keeps.foldl_bind_fst {α β : Type} {g : α → State × β → Option (State × β)} {l : List α} {p : State × β} {out : State} {b : β}
    (e : l.foldl (fun a x => a.bind (fun y => g x y)) (some p) = some (out, b)) (h : Keeps ini p.1)
    (hg : ∀ x p q, g x p = some q → Keeps ini p.1 → Keeps ini q.1) : Keeps ini out := by
  induction l generalizing p with
  | nil => cases e; exact h
  | cons x r ih =>
    simp only [List.foldl_cons, Option.bind_some] at e
    cases hx : g x p with
    | none =>
      rw [hx] at e
      have : ∀ l : List α, l.foldl (fun a x => a.bind (fun y => g x y)) none = none := by
        intro l
        induction l with
        | nil => rfl
        | cons y q iq => exact iq
      rw [this r] at e
      cases e
    | some p1 =>
      rw [hx] at e
      exact ih e (hg x p p1 hx h)

end

end Sys2Proof.Machine
end

