-- ==== Sys2Proof/Laws/OpsKeeps.lean ====
section
/-! SUPPORT. The operations of Machine/Ops.lean keep what Keeps names. -/

namespace Sys2Proof.Machine

variable {ini : State}

theorem State.updTile_keeps {s : State} {t : Nat} {f : Tile → Tile} (hs : Keeps ini s) :
    Keeps ini (State.updTile s t f) := by
  unfold State.updTile
  repeat' first
    | with_reducible assumption
    | simp only [Keeps.mk_iff]
    | with_reducible apply Keeps.other

theorem State.updCore_keeps {s : State} {t : Nat} {f : Core → Core} (hs : Keeps ini s) :
    Keeps ini (State.updCore s t f) := by
  unfold State.updCore
  repeat' first
    | with_reducible assumption
    | with_reducible apply State.updTile_keeps

theorem State.updL1_keeps {s : State} {t : Nat} {f : L1 → L1} (hs : Keeps ini s) :
    Keeps ini (State.updL1 s t f) := by
  unfold State.updL1
  repeat' first
    | with_reducible assumption
    | with_reducible apply State.updTile_keeps

theorem State.updSlice_keeps {s : State} {h : Nat} {f : Slice → Slice} (hs : Keeps ini s) :
    Keeps ini (State.updSlice s h f) := by
  unfold State.updSlice
  repeat' first
    | with_reducible assumption
    | simp only [Keeps.mk_iff]
    | with_reducible apply Keeps.other

theorem State.updChan_keeps {s : State} {c : Nat} {f : Chan → Chan} (hs : Keeps ini s) :
    Keeps ini (State.updChan s c f) := by
  unfold State.updChan
  repeat' first
    | with_reducible assumption
    | simp only [Keeps.mk_iff]
    | with_reducible apply Keeps.other

theorem State.updTenant_keeps {s : State} {f : Nat} {g : Tenant → Tenant} (hs : Keeps ini s) :
    Keeps ini (State.updTenant s f g) := by
  unfold State.updTenant
  repeat' first
    | with_reducible assumption
    | simp only [Keeps.mk_iff]
    | with_reducible apply Keeps.other

theorem State.free_keeps {s : State} (hs : Keeps ini s) : Keeps ini (State.free s).2 :=
  hs.setDrawn (Nat.le_succ _)

theorem State.signal_keeps {s : State} {f v : Nat} (hs : Keeps ini s) :
    Keeps ini (State.signal s f v) := by
  unfold State.signal
  repeat' first
    | with_reducible assumption
    | simp only [Keeps.mk_iff]
    | with_reducible apply Keeps.other
    | with_reducible apply Keeps.ite

/-- A new record goes to a log of at most 4,096, and to a spill of at most 64,512. -/
theorem ErrLog.bounded_push {l : ErrLog} {r : ErrRec} {k : Nat} {x : Option Nat} {c : Prop} [Decidable c] (h : l.bounded) :
    ErrLog.bounded {
      recs := (r :: l.recs).take 4096, nextSeq := k, spill := if c then (r :: l.spill).take 64512 else l.spill, signalled := x } := by
  refine ⟨List.length_take_le _ _, ?_⟩
  dsimp only
  split
  · exact List.length_take_le _ _
  · exact h.2

theorem State.logNew_keeps {s : State} {r : ErrRec} (hs : Keeps ini s) : Keeps ini (State.logNew s r) := by
  unfold State.logNew
  extract_lets +onlyGivenNames l s1 due
  have h1 : Keeps ini s1 := hs.setErrlog fun b => ErrLog.bounded_push b
  clear_value s1
  split
  · exact (State.signal_keeps h1).setErrlog id
  · exact h1

theorem State.log_keeps {s : State} {event cls func ukind unit status addr detail : Nat} (hs : Keeps ini s) :
    Keeps ini (State.log s event cls func ukind unit status addr detail) := by
  unfold State.log
  extract_lets +onlyGivenNames q
  split
  · rename_i r rest e
    split
    · refine hs.setErrlog fun b => ⟨?_, b.2⟩
      have := b.1
      rw [e] at this
      exact this
    · exact State.logNew_keeps hs
  · exact State.logNew_keeps hs

end Sys2Proof.Machine
end

