-- ==== Sys2Proof/Laws/MemMapKeeps.lean ====
section
/-! SUPPORT. The operations of Machine/MemMap.lean keep what Keeps names. -/

namespace Sys2Proof.Machine

variable {ini : State}

theorem State.putRaw_keeps {s : State} {l : Loc} {d : Line} {tag : BitVec 2} (hs : Keeps ini s) :
    Keeps ini (State.putRaw s l d tag) := by
  unfold State.putRaw
  repeat' first
    | with_reducible assumption
    | simp only [Keeps.mk_iff]
    | with_reducible apply Keeps.other
    | with_reducible apply Kept.memWriteLine

theorem State.memWriteLoc_keeps {s : State} {l : Loc} {d : Line} {mask : BitVec 64} {blot : Bool} (hs : Keeps ini s)
    :
    Keeps ini (State.memWriteLoc s l d mask blot) := by
  unfold State.memWriteLoc
  repeat' first
    | with_reducible assumption
    | with_reducible apply State.putRaw_keeps
    | with_reducible apply State.updChan_keeps
    | simp only [Keeps.mk_iff]
    | with_reducible apply Keeps.other
    | with_reducible apply Keeps.ite
    | refine Keeps.fst (by assumption) ?_
    | refine Keeps.snd (by assumption) ?_
    | split

theorem State.memWrite_keeps {s : State} {line : Nat} {d : Line} {mask : BitVec 64} {blot : Bool} (hs : Keeps ini s)
    :
    Keeps ini (State.memWrite s line d mask blot) := by
  unfold State.memWrite
  repeat' first
    | with_reducible assumption
    | with_reducible apply State.memWriteLoc_keeps
    | with_reducible apply State.log_keeps
    | refine Keeps.fst (by assumption) ?_
    | refine Keeps.snd (by assumption) ?_
    | split

end Sys2Proof.Machine
end

