-- ==== Sys2Proof/Laws/OrchardKeeps.lean ====
section
/-! SUPPORT. The operations of Machine/Orchard.lean keep what Keeps names. -/

namespace Sys2Proof.Machine

variable {ini : State}

theorem State.setHostBit_keeps {s : State} {bmp i : Nat} (hs : Keeps ini s) : Keeps ini (State.setHostBit s bmp i) :=
  hs.setHost (Memory.wf_write _ _)

theorem State.logBit_keeps {s : State} {owner : Nat} {m : MigLog} {dev : Bool} {i : Nat} (hs : Keeps ini s) :
    Keeps ini (State.logBit s owner m dev i) := by
  unfold State.logBit
  repeat' first
    | with_reducible assumption
    | with_reducible apply State.setHostBit_keeps
    | with_reducible apply State.updTenant_keeps

theorem State.migLog_keeps {s : State} {owner line : Nat} (hs : Keeps ini s) :
    Keeps ini (State.migLog s owner line) := by
  unfold State.migLog
  repeat' first
    | with_reducible assumption
    | with_reducible apply State.logBit_keeps
    | with_reducible apply Keeps.ite
    | refine Keeps.fst (by assumption) ?_
    | refine Keeps.snd (by assumption) ?_
    | split

theorem State.postMem_keeps {s : State} {h line owner : Nat} {cls : MemCls} {wr : Option (Line × BitVec 64 × Bool)}
    (hs : Keeps ini s) :
    Keeps ini (State.postMem s h line owner cls wr) := by
  unfold State.postMem
  repeat' first
    | with_reducible assumption
    | simp only [Keeps.mk_iff]
    | with_reducible apply Keeps.other

theorem State.hostPut_keeps {s : State} {line : Nat} {d : Line} {blot : Bool} (hs : Keeps ini s) :
    Keeps ini (State.hostPut s line d blot) := by
  unfold State.hostPut
  repeat' first
    | with_reducible assumption
    | simp only [Keeps.mk_iff]
    | with_reducible apply Keeps.other
    | with_reducible apply Kept.memWriteLine
    | with_reducible apply Kept.hostWriteLine

theorem State.evictData_keeps {s : State} {h : Nat} {o : OLine} (hs : Keeps ini s) :
    Keeps ini (State.evictData s h o) := by
  unfold State.evictData
  repeat' first
    | with_reducible assumption
    | with_reducible apply State.migLog_keeps
    | with_reducible apply State.hostPut_keeps
    | with_reducible apply State.postMem_keeps
    | with_reducible apply Keeps.ite

theorem State.orcPut_keeps {s : State} {line owner : Nat} {d : Line} {dirty blot : Bool} (hs : Keeps ini s) :
    Keeps ini (State.orcPut s line owner d dirty blot) := by
  unfold State.orcPut
  repeat' first
    | with_reducible assumption
    | with_reducible apply State.updSlice_keeps
    | with_reducible apply State.evictData_keeps
    | simp only [Keeps.mk_iff]
    | with_reducible apply Keeps.other
    | refine Keeps.fst (by assumption) ?_
    | refine Keeps.snd (by assumption) ?_
    | split

theorem State.orcDrop_keeps {s : State} {line : Nat} (hs : Keeps ini s) :
    Keeps ini (State.orcDrop s line) := by
  unfold State.orcDrop
  repeat' first
    | with_reducible assumption
    | with_reducible apply State.updSlice_keeps
    | simp only [Keeps.mk_iff]
    | with_reducible apply Keeps.other
    | refine Keeps.fst (by assumption) ?_
    | refine Keeps.snd (by assumption) ?_
    | split

theorem State.markBlot_keeps {s : State} {line owner : Nat} (hs : Keeps ini s) :
    Keeps ini (State.markBlot s line owner) := by
  unfold State.markBlot
  repeat' first
    | with_reducible assumption
    | with_reducible apply State.orcPut_keeps
    | with_reducible apply State.updSlice_keeps

theorem State.putDir_keeps {s : State} {h k : Nat} {e : DirEntry} (hs : Keeps ini s) :
    Keeps ini (State.putDir s h k e) := by
  unfold State.putDir
  repeat' first
    | with_reducible assumption
    | with_reducible apply State.updSlice_keeps

theorem State.freeDir_keeps {s : State} {h k : Nat} (hs : Keeps ini s) :
    Keeps ini (State.freeDir s h k) := by
  unfold State.freeDir
  repeat' first
    | with_reducible assumption
    | with_reducible apply State.updSlice_keeps

theorem State.updDir_keeps {s : State} {line : Nat} {f : DirEntry → DirEntry} (hs : Keeps ini s) :
    Keeps ini (State.updDir s line f) := by
  unfold State.updDir
  repeat' first
    | with_reducible assumption
    | with_reducible apply State.freeDir_keeps
    | with_reducible apply State.putDir_keeps
    | with_reducible apply Keeps.ite
    | refine Keeps.fst (by assumption) ?_
    | refine Keeps.snd (by assumption) ?_
    | split
    | dsimp only

theorem State.patchLine_keeps {s : State} {line : Nat} {d : Line} {mask : BitVec 64} (hs : Keeps ini s) :
    Keeps ini (State.patchLine s line d mask) := by
  unfold State.patchLine
  repeat' first
    | with_reducible assumption
    | simp only [Keeps.mk_iff]
    | with_reducible apply Keeps.other

theorem State.putBelow_keeps {s : State} {line : Nat} {d : Line} {mask : BitVec 64} {blot : Bool} (hs : Keeps ini s)
    :
    Keeps ini (State.putBelow s line d mask blot) := by
  unfold State.putBelow
  repeat' first
    | with_reducible assumption
    | with_reducible apply State.hostPut_keeps
    | with_reducible apply State.memWrite_keeps
    | simp only [Keeps.mk_iff]
    | with_reducible apply Keeps.other
    | with_reducible apply Keeps.ite

theorem State.cohWrite_keeps {s : State} {owner line : Nat} {d : Line} {mask : BitVec 64} {blot : Bool} (hs : Keeps
    ini s) :
    Keeps ini (State.cohWrite s owner line d mask blot) := by
  unfold State.cohWrite
  repeat' first
    | with_reducible assumption
    | with_reducible apply State.migLog_keeps
    | with_reducible apply State.patchLine_keeps
    | with_reducible apply State.putBelow_keeps
    | with_reducible apply State.updDir_keeps
    | with_reducible apply State.orcPut_keeps
    | with_reducible apply State.updSlice_keeps
    | simp only [Keeps.mk_iff]
    | with_reducible apply Keeps.other
    | with_reducible apply Keeps.ite

theorem State.writeLines_keeps {s : State} {owner : Nat} {a1 : Nat} {a2 : Nat} {a3 : Nat} {a4 : List Byte} (hs :
    Keeps ini s) :
    Keeps ini (State.writeLines s owner a1 a2 a3 a4) := by
  induction a1 generalizing s owner a2 a3 a4 with
  | zero =>
    unfold State.writeLines
    repeat' first
      | with_reducible assumption
  | succ k ih =>
    unfold State.writeLines
    repeat' first
      | with_reducible assumption
      | with_reducible apply ih
      | with_reducible apply State.cohWrite_keeps
      | refine Keeps.fst (by assumption) ?_
      | refine Keeps.snd (by assumption) ?_
      | split

theorem State.writeBytes_keeps {s : State} {owner addr : Nat} {bs : List Byte} (hs : Keeps ini s) :
    Keeps ini (State.writeBytes s owner addr bs) := by
  unfold State.writeBytes
  repeat' first
    | with_reducible assumption
    | with_reducible apply State.writeLines_keeps

end Sys2Proof.Machine
end

