-- ==== Sys2Proof/Laws/RegionsKeeps.lean ====
section
/-! SUPPORT. The operations of Machine/Regions.lean keep what Keeps names. -/

namespace Sys2Proof.Machine

variable {ini : State}

theorem State.pulse_keeps {s : State} {f : Nat} {trig : Bool} {idx : Nat} {epoch : BitVec 8} (hs : Keeps ini s) :
    Keeps ini (State.pulse s f trig idx epoch) := by
  unfold State.pulse
  repeat' first
    | with_reducible assumption
    | simp only [Keeps.mk_iff]
    | with_reducible apply Keeps.other

theorem State.freeBytes_keeps {s : State} {k : Nat} (hs : Keeps ini s) : Keeps ini (State.freeBytes s k).2 :=
  hs.setDrawn (Nat.le_add_right _ _)

theorem State.freeUpTo_keeps {s : State} {k : Nat} (hs : Keeps ini s) :
    Keeps ini (State.freeUpTo s k).2 := by
  unfold State.freeUpTo
  repeat' first
    | with_reducible assumption
    | with_reducible apply State.free_keeps

end Sys2Proof.Machine
end

