-- ==== Sys2Proof/Laws/WorksKeeps.lean ====
section
/-! SUPPORT. The operations of Machine/Works.lean keep what Keeps names. -/

namespace Sys2Proof.Machine

variable {ini : State}

theorem State.updWork_keeps {s : State} {w : Nat} {g : Work → Work} (hs : Keeps ini s) :
    Keeps ini (State.updWork s w g) := by
  unfold State.updWork
  repeat' first
    | with_reducible assumption
    | simp only [Keeps.mk_iff]
    | with_reducible apply Keeps.other

theorem State.updPair_keeps {s : State} {f q : Nat} {g : QPair → QPair} (hs : Keeps ini s) :
    Keeps ini (State.updPair s f q g) := by
  unfold State.updPair
  repeat' first
    | with_reducible assumption
    | with_reducible apply State.updTenant_keeps

theorem State.unwaitFor_keeps {s : State} {ids : List Nat} (hs : Keeps ini s) :
    Keeps ini (State.unwaitFor s ids) := by
  unfold State.unwaitFor
  repeat' first
    | with_reducible assumption
    | simp only [Keeps.mk_iff]
    | with_reducible apply Keeps.other

theorem State.formCpl_keeps {s : State} {f q : Nat} {ids : List Nat} {k : Option Cpl} (hs : Keeps ini s) :
    Keeps ini (State.formCpl s f q ids k) := by
  unfold State.formCpl
  repeat' first
    | with_reducible assumption
    | with_reducible apply State.updTenant_keeps
    | with_reducible apply State.unwaitFor_keeps
    | with_reducible apply State.updPair_keeps
    | simp only [Keeps.mk_iff]
    | with_reducible apply Keeps.other
    | with_reducible apply Keeps.ite
    | refine Keeps.fst (by assumption) ?_
    | refine Keeps.snd (by assumption) ?_
    | split

theorem State.formBatches_keeps {s : State} {f q : Nat} (hs : Keeps ini s) :
    Keeps ini (State.formBatches s f q) := by
  unfold State.formBatches
  repeat' first
    | intro _ _ _
    | with_reducible assumption
    | with_reducible apply State.updPair_keeps
    | with_reducible apply State.formCpl_keeps
    | simp only [Keeps.mk_iff]
    | with_reducible apply Keeps.other
    | (with_reducible apply Keeps.foldl)
    | refine Keeps.fst (by assumption) ?_
    | refine Keeps.snd (by assumption) ?_
    | split

theorem State.closeBatch_keeps {s : State} {f q : Nat} (hs : Keeps ini s) :
    Keeps ini (State.closeBatch s f q) := by
  unfold State.closeBatch
  repeat' first
    | with_reducible assumption
    | with_reducible apply State.updPair_keeps
    | with_reducible apply State.formBatches_keeps
    | simp only [Keeps.mk_iff]
    | with_reducible apply Keeps.other
    | with_reducible apply Keeps.ite
    | refine Keeps.fst (by assumption) ?_
    | refine Keeps.snd (by assumption) ?_
    | split

theorem State.endOne_keeps {s : State} {w : Nat} {r : WorkResult} (hs : Keeps ini s) :
    Keeps ini (State.endOne s w r) := by
  unfold State.endOne
  repeat' first
    | with_reducible assumption
    | with_reducible apply State.updPair_keeps
    | with_reducible apply State.updTenant_keeps
    | with_reducible apply State.updWork_keeps
    | with_reducible apply State.formBatches_keeps
    | with_reducible apply State.formCpl_keeps
    | simp only [Keeps.mk_iff]
    | with_reducible apply Keeps.other
    | with_reducible apply Keeps.ite
    | refine Keeps.fst (by assumption) ?_
    | refine Keeps.snd (by assumption) ?_
    | split

theorem State.settleCancels_keeps {s : State} {a1 : Nat} (hs : Keeps ini s) :
    Keeps ini (State.settleCancels s a1) := by
  induction a1 generalizing s with
  | zero =>
    unfold State.settleCancels
    repeat' first
      | with_reducible assumption
  | succ k ih =>
    unfold State.settleCancels
    repeat' first
      | with_reducible assumption
      | with_reducible apply ih
      | with_reducible apply State.endOne_keeps
      | simp only [Keeps.mk_iff]
      | with_reducible apply Keeps.other
      | refine Keeps.fst (by assumption) ?_
      | refine Keeps.snd (by assumption) ?_
      | split

theorem State.workDone_keeps {s : State} {w : Nat} {r : WorkResult} (hs : Keeps ini s) :
    Keeps ini (State.workDone s w r) := by
  unfold State.workDone
  repeat' first
    | with_reducible assumption
    | with_reducible apply State.endOne_keeps
    | with_reducible apply State.settleCancels_keeps

theorem State.pairMessage_keeps {s : State} {f q : Nat} (hs : Keeps ini s) :
    Keeps ini (State.pairMessage s f q) := by
  unfold State.pairMessage
  repeat' first
    | with_reducible assumption
    | with_reducible apply State.updPair_keeps
    | with_reducible apply State.signal_keeps
    | simp only [Keeps.mk_iff]
    | with_reducible apply Keeps.other
    | with_reducible apply Keeps.ite
    | refine Keeps.fst (by assumption) ?_
    | refine Keeps.snd (by assumption) ?_
    | split

theorem State.writeCompletion_keeps {s : State} {f q : Nat} (hs : Keeps ini s) :
    Keeps ini (State.writeCompletion s f q) := by
  unfold State.writeCompletion
  repeat' first
    | with_reducible assumption
    | with_reducible apply State.writeBytes_keeps
    | with_reducible apply State.updPair_keeps
    | with_reducible apply State.pairMessage_keeps
    | with_reducible apply State.unwaitFor_keeps
    | with_reducible apply State.settleCancels_keeps
    | simp only [Keeps.mk_iff]
    | with_reducible apply Keeps.other
    | with_reducible apply Keeps.ite
    | refine Keeps.fst (by assumption) ?_
    | refine Keeps.snd (by assumption) ?_
    | split

theorem State.drainCompletions_keeps {s : State} {f q : Nat} {a1 : Nat} (hs : Keeps ini s) :
    Keeps ini (State.drainCompletions s f q a1) := by
  induction a1 generalizing s f q with
  | zero =>
    unfold State.drainCompletions
    repeat' first
      | with_reducible assumption
  | succ k ih =>
    unfold State.drainCompletions
    repeat' first
      | with_reducible assumption
      | with_reducible apply ih
      | with_reducible apply State.writeCompletion_keeps
      | with_reducible apply Keeps.ite

end Sys2Proof.Machine
end

