-- ==== Sys2Proof/Laws/AllocKeeps.lean ====
section
/-! SUPPORT. The operations of Machine/Alloc.lean keep what Keeps names. -/

namespace Sys2Proof.Machine

variable {ini : State}

theorem State.place_keeps {s : State} {f n k : Nat} {out : State} {r} (e : State.place s f n k = some (r, out)) (hs :
    Keeps ini s) :
    Keeps ini out := by
  unfold State.place at e
  repeat' first
    | with_reducible assumption
    | simp only [Option.map_eq_some_iff] at e
    | (obtain ⟨_, _, e⟩ := e)
    | cases e
    | split at e
    | dsimp only at e
    | with_reducible apply State.free_keeps
    | with_reducible apply State.updTenant_keeps

theorem State.unplace_keeps {s : State} {f a : Nat} (hs : Keeps ini s) :
    Keeps ini (State.unplace s f a) := by
  unfold State.unplace
  repeat' first
    | with_reducible assumption
    | with_reducible apply State.updTenant_keeps

theorem State.retire_keeps {s : State} {f a : Nat} (hs : Keeps ini s) :
    Keeps ini (State.retire s f a) := by
  unfold State.retire
  repeat' first
    | with_reducible assumption
    | with_reducible apply State.updTenant_keeps

theorem State.releaseHold_keeps {s : State} {f d : Nat} (hs : Keeps ini s) :
    Keeps ini (State.releaseHold s f d) := by
  unfold State.releaseHold
  repeat' first
    | with_reducible assumption
    | with_reducible apply State.updTenant_keeps

theorem execExtentReturn_keeps {f : Nat} {s : State} {out : State} (e : execExtentReturn f s = .next out) (hs : Keeps
    ini s) :
    Keeps ini out := by
  unfold execExtentReturn at e
  obtain rfl := Host.Outcome.next.inj e
  repeat' first
    | with_reducible assumption
    | with_reducible apply State.updTenant_keeps

end Sys2Proof.Machine
end

