-- ==== Sys2Proof/Laws/DigestKeeps.lean ====
section
/-! SUPPORT. The operations of Machine/Digest.lean keep what Keeps names. -/

namespace Sys2Proof.Machine

variable {ini : State}

theorem State.updDgs_keeps {s : State} {e : Nat} {g : DgsEng → DgsEng} (hs : Keeps ini s) :
    Keeps ini (State.updDgs s e g) := by
  unfold State.updDgs
  repeat' first
    | with_reducible assumption
    | simp only [Keeps.mk_iff]
    | with_reducible apply Keeps.other

theorem State.updMsg_keeps {s : State} {e f : Nat} {g : DgsMsg → DgsMsg} (hs : Keeps ini s) :
    Keeps ini (State.updMsg s e f g) := by
  unfold State.updMsg
  repeat' first
    | with_reducible assumption
    | with_reducible apply State.updDgs_keeps

theorem State.saveBytes_keeps {s : State} {f : Nat} {m : DgsMsg} {c : DgsCtx} (hs : Keeps ini s) :
    Keeps ini (State.saveBytes s f m c).2 := by
  unfold State.saveBytes
  repeat' first
    | with_reducible assumption
    | with_reducible apply State.freeBytes_keeps
    | with_reducible apply Keeps.ite
    | split

theorem State.dgsSave_keeps {s : State} {e f : Nat} (hs : Keeps ini s) :
    Keeps ini (State.dgsSave s e f) := by
  unfold State.dgsSave
  repeat' first
    | with_reducible assumption
    | with_reducible apply State.saveBytes_keeps
    | with_reducible apply State.writeBytes_keeps
    | with_reducible apply State.updMsg_keeps
    | with_reducible apply State.updDgs_keeps
    | simp only [Keeps.mk_iff]
    | with_reducible apply Keeps.other
    | refine Keeps.fst (by assumption) ?_
    | refine Keeps.snd (by assumption) ?_
    | split

theorem State.dgsEnd_keeps {s : State} {e f code : Nat} {long susp : Bool} (hs : Keeps ini s) :
    Keeps ini (State.dgsEnd s e f code long susp) := by
  unfold State.dgsEnd
  repeat' first
    | with_reducible assumption
    | with_reducible apply State.updDgs_keeps
    | with_reducible apply State.workDone_keeps
    | with_reducible apply State.writeBytes_keeps
    | with_reducible apply State.pulse_keeps
    | simp only [Keeps.mk_iff]
    | with_reducible apply Keeps.other
    | with_reducible apply Keeps.ite
    | refine Keeps.fst (by assumption) ?_
    | refine Keeps.snd (by assumption) ?_
    | split

theorem State.dgsResult_keeps {s : State} {f : Nat} {m : DgsMsg} {r : List Byte} (hs : Keeps ini s) :
    Keeps ini (State.dgsResult s f m r) := by
  unfold State.dgsResult
  repeat' first
    | with_reducible assumption
    | with_reducible apply State.writeBytes_keeps
    | simp only [Keeps.mk_iff]
    | with_reducible apply Keeps.other
    | with_reducible apply Keeps.ite

theorem State.dgsFeedEnd_keeps {s : State} {e f : Nat} (hs : Keeps ini s) :
    Keeps ini (State.dgsFeedEnd s e f) := by
  unfold State.dgsFeedEnd
  repeat' first
    | with_reducible assumption
    | with_reducible apply State.dgsEnd_keeps
    | with_reducible apply State.dgsResult_keeps
    | with_reducible apply State.updDgs_keeps
    | simp only [Keeps.mk_iff]
    | with_reducible apply Keeps.other
    | with_reducible apply Keeps.ite
    | refine Keeps.fst (by assumption) ?_
    | refine Keeps.snd (by assumption) ?_
    | split

theorem State.dgsActivate_keeps {s : State} {e f : Nat} (hs : Keeps ini s) :
    Keeps ini (State.dgsActivate s e f) := by
  unfold State.dgsActivate
  repeat' first
    | with_reducible assumption
    | with_reducible apply State.dgsSave_keeps
    | with_reducible apply State.updMsg_keeps
    | with_reducible apply State.updDgs_keeps
    | with_reducible apply State.dgsEnd_keeps
    | simp only [Keeps.mk_iff]
    | with_reducible apply Keeps.other
    | with_reducible apply Keeps.ite
    | refine Keeps.fst (by assumption) ?_
    | refine Keeps.snd (by assumption) ?_
    | split

theorem State.dgsFeed_keeps {s : State} {e f ch : Nat} {b : List Byte} {lost : Option Nat} (hs : Keeps ini s) :
    Keeps ini (State.dgsFeed s e f ch b lost) := by
  unfold State.dgsFeed
  repeat' first
    | with_reducible assumption
    | with_reducible apply State.updMsg_keeps
    | with_reducible apply State.dgsActivate_keeps
    | with_reducible apply State.updDgs_keeps
    | simp only [Keeps.mk_iff]
    | with_reducible apply Keeps.other
    | refine Keeps.fst (by assumption) ?_
    | refine Keeps.snd (by assumption) ?_
    | split

theorem State.dgsUnbind_keeps {s : State} {f ch : Nat} {early : Option Nat} (hs : Keeps ini s) :
    Keeps ini (State.dgsUnbind s f ch early) := by
  unfold State.dgsUnbind
  repeat' first
    | intro _ _ _
    | with_reducible assumption
    | with_reducible apply State.dgsEnd_keeps
    | with_reducible apply State.updMsg_keeps
    | simp only [Keeps.mk_iff]
    | with_reducible apply Keeps.other
    | with_reducible apply Keeps.ite
    | (with_reducible apply Keeps.foldl)
    | refine Keeps.fst (by assumption) ?_
    | refine Keeps.snd (by assumption) ?_
    | split

theorem execDgsOpen_keeps {t : Nat} {v : BitVec 64} {s : State} {out : State} (e : execDgsOpen t v s = .next out) (hs
    : Keeps ini s) :
    Keeps ini out := by
  unfold execDgsOpen at e
  obtain rfl := Host.Outcome.next.inj e
  repeat' first
    | with_reducible assumption
    | with_reducible apply State.updTile_keeps
    | with_reducible apply State.updDgs_keeps
    | simp only [Keeps.mk_iff]
    | with_reducible apply Keeps.other
    | with_reducible apply Keeps.ite
    | refine Keeps.fst (by assumption) ?_
    | refine Keeps.snd (by assumption) ?_
    | split

theorem execDgsClose_keeps {t : Nat} {v : BitVec 64} {s : State} {out : State} (e : execDgsClose t v s = .next out)
    (hs : Keeps ini s) :
    Keeps ini out := by
  unfold execDgsClose at e
  obtain rfl := Host.Outcome.next.inj e
  repeat' first
    | with_reducible assumption
    | with_reducible apply State.dgsEnd_keeps
    | refine Keeps.fst (by assumption) ?_
    | refine Keeps.snd (by assumption) ?_
    | split

theorem execDgsSuspend_keeps {t : Nat} {v : BitVec 64} {s : State} {out : State} (e : execDgsSuspend t v s = .next
    out) (hs : Keeps ini s) :
    Keeps ini out := by
  unfold execDgsSuspend at e
  obtain rfl := Host.Outcome.next.inj e
  repeat' first
    | with_reducible assumption
    | with_reducible apply State.updMsg_keeps
    | simp only [Keeps.mk_iff]
    | with_reducible apply Keeps.other
    | refine Keeps.fst (by assumption) ?_
    | refine Keeps.snd (by assumption) ?_
    | split

theorem execSuspendSave_keeps {e : Nat} {s : State} {out : State} (e : execSuspendSave e s = .next out) (hs : Keeps
    ini s) :
    Keeps ini out := by
  unfold execSuspendSave at e
  obtain rfl := Host.Outcome.next.inj e
  repeat' first
    | with_reducible assumption
    | with_reducible apply State.dgsEnd_keeps
    | with_reducible apply State.updMsg_keeps
    | with_reducible apply State.dgsSave_keeps
    | simp only [Keeps.mk_iff]
    | with_reducible apply Keeps.other
    | refine Keeps.fst (by assumption) ?_
    | refine Keeps.snd (by assumption) ?_
    | split

theorem execContextQuantum_keeps {e : Nat} {s : State} {out : State} (e : execContextQuantum e s = .next out) (hs :
    Keeps ini s) :
    Keeps ini out := by
  unfold execContextQuantum at e
  obtain rfl := Host.Outcome.next.inj e
  repeat' first
    | with_reducible assumption
    | with_reducible apply State.dgsActivate_keeps
    | refine Keeps.fst (by assumption) ?_
    | refine Keeps.snd (by assumption) ?_
    | split
    | dsimp only

end Sys2Proof.Machine
end

