-- ==== Sys2Proof/Laws/DmaKeeps.lean ====
section
/-! SUPPORT. The operations of Machine/Dma.lean keep what Keeps names. -/

namespace Sys2Proof.Machine

variable {ini : State}

theorem State.updDma_keeps {s : State} {c : Nat} {g : DmaChan → DmaChan} (hs : Keeps ini s) :
    Keeps ini (State.updDma s c g) := by
  unfold State.updDma
  repeat' first
    | with_reducible assumption
    | simp only [Keeps.mk_iff]
    | with_reducible apply Keeps.other

theorem State.dmaCopy_keeps {s : State} {f : Nat} {a1 : Nat} {a2 : Nat} {a3 : Nat} {a4 : Nat} (hs : Keeps ini s) :
    Keeps ini (State.dmaCopy s f a1 a2 a3 a4).1 := by
  induction a1 generalizing s f a2 a3 a4 with
  | zero =>
    unfold State.dmaCopy
    repeat' first
      | with_reducible assumption
  | succ k ih =>
    unfold State.dmaCopy
    repeat' first
      | with_reducible assumption
      | with_reducible apply ih
      | with_reducible apply State.cohWrite_keeps
      | with_reducible apply Keeps.ite
      | split

theorem State.putDstat_keeps {s : State} {x : Xfer} {v : Nat} (hs : Keeps ini s) :
    Keeps ini (State.putDstat s x v) := by
  unfold State.putDstat
  repeat' first
    | with_reducible assumption
    | with_reducible apply State.writeBytes_keeps
    | with_reducible apply Keeps.ite

theorem State.dmaBadFeed_keeps {s : State} {ch : Nat} {x : Xfer} {d : DmaDesc} (hs : Keeps ini s) :
    Keeps ini (State.dmaBadFeed s ch x d) := by
  unfold State.dmaBadFeed
  repeat' first
    | with_reducible assumption
    | with_reducible apply State.dgsFeed_keeps
    | with_reducible apply State.dgsFeedEnd_keeps
    | with_reducible apply Keeps.ite

theorem State.dmaBusError_keeps {s : State} {ch : Nat} {x : Xfer} (hs : Keeps ini s) :
    Keeps ini (State.dmaBusError s ch x) := by
  unfold State.dmaBusError
  repeat' first
    | with_reducible assumption
    | with_reducible apply State.updDma_keeps
    | with_reducible apply State.log_keeps
    | with_reducible apply State.signal_keeps
    | simp only [Keeps.mk_iff]
    | with_reducible apply Keeps.other
    | with_reducible apply Keeps.ite

theorem State.dmaSetCur_keeps {s : State} {ch : Nat} {x : Xfer} {moved bad : Nat} (hs : Keeps ini s) :
    Keeps ini (State.dmaSetCur s ch x moved bad) := by
  unfold State.dmaSetCur
  repeat' first
    | with_reducible assumption
    | with_reducible apply State.updDma_keeps

theorem State.dmaStep_keeps {s : State} {ch : Nat} {x : Xfer} {d : DmaDesc} (hs : Keeps ini s) :
    Keeps ini (State.dmaStep s ch x d) := by
  unfold State.dmaStep
  repeat' first
    | with_reducible assumption
    | with_reducible apply State.putDstat_keeps
    | with_reducible apply State.dmaBadFeed_keeps
    | with_reducible apply State.dmaSetCur_keeps
    | with_reducible apply State.dgsFeed_keeps
    | with_reducible apply State.dgsFeedEnd_keeps
    | with_reducible apply State.dmaCopy_keeps
    | with_reducible apply State.dmaBusError_keeps
    | simp only [Keeps.mk_iff]
    | with_reducible apply Keeps.other
    | with_reducible apply Keeps.ite
    | refine Keeps.fst (by assumption) ?_
    | refine Keeps.snd (by assumption) ?_
    | split

theorem State.xferDone_keeps {s : State} {ch : Nat} {x : Xfer} {early cur : Option Nat} {residue : Nat} (hs : Keeps
    ini s) :
    Keeps ini (State.xferDone s ch x early cur residue) := by
  unfold State.xferDone
  repeat' first
    | with_reducible assumption
    | with_reducible apply State.dgsUnbind_keeps
    | with_reducible apply State.updDma_keeps
    | with_reducible apply State.workDone_keeps
    | with_reducible apply State.writeBytes_keeps
    | with_reducible apply State.pulse_keeps
    | simp only [Keeps.mk_iff]
    | with_reducible apply Keeps.other
    | with_reducible apply Keeps.ite
    | refine Keeps.fst (by assumption) ?_
    | refine Keeps.snd (by assumption) ?_
    | split

theorem State.dmaStopCur_keeps {s : State} {ch : Nat} {x : Xfer} {code : Nat} (hs : Keeps ini s) :
    Keeps ini (State.dmaStopCur s ch x code) := by
  unfold State.dmaStopCur
  repeat' first
    | with_reducible assumption
    | with_reducible apply State.updDma_keeps
    | with_reducible apply State.xferDone_keeps
    | with_reducible apply State.putDstat_keeps
    | with_reducible apply State.freeUpTo_keeps
    | with_reducible apply State.dmaCopy_keeps
    | simp only [Keeps.mk_iff]
    | with_reducible apply Keeps.other
    | with_reducible apply Keeps.ite
    | refine Keeps.fst (by assumption) ?_
    | refine Keeps.snd (by assumption) ?_
    | split

theorem State.dmaStopShadow_keeps {s : State} {ch : Nat} {x : Xfer} {code : Nat} (hs : Keeps ini s) :
    Keeps ini (State.dmaStopShadow s ch x code) := by
  unfold State.dmaStopShadow
  repeat' first
    | with_reducible assumption
    | with_reducible apply State.updDma_keeps
    | with_reducible apply State.xferDone_keeps

theorem State.dmaEndAll_keeps {s : State} {code : Nat} {sel : Xfer → Bool} (hs : Keeps ini s) :
    Keeps ini (State.dmaEndAll s code sel) := by
  unfold State.dmaEndAll
  repeat' first
    | intro _ _ _
    | with_reducible assumption
    | with_reducible apply State.dmaStopCur_keeps
    | with_reducible apply State.dmaStopShadow_keeps
    | with_reducible apply Keeps.ite
    | (with_reducible apply Keeps.foldl)
    | refine Keeps.fst (by assumption) ?_
    | refine Keeps.snd (by assumption) ?_
    | split
    | dsimp only

theorem State.dmaDropFunc_keeps {s : State} {f : Nat} (hs : Keeps ini s) :
    Keeps ini (State.dmaDropFunc s f) := by
  unfold State.dmaDropFunc
  repeat' first
    | intro _ _ _
    | with_reducible assumption
    | with_reducible apply State.pulse_keeps
    | with_reducible apply State.updDma_keeps
    | simp only [Keeps.mk_iff]
    | with_reducible apply Keeps.other
    | refine Keeps.foldl_bind (by assumption) ?_ ?_
    | with_reducible apply Keeps.ite
    | (with_reducible apply Keeps.foldl)

theorem State.dgsEndAll_keeps {s : State} {code : Nat} {sel : Nat → DgsMsg → Bool} (hs : Keeps ini s) :
    Keeps ini (State.dgsEndAll s code sel) := by
  unfold State.dgsEndAll
  repeat' first
    | intro _ _ _
    | with_reducible assumption
    | with_reducible apply State.dgsEnd_keeps
    | with_reducible apply Keeps.ite
    | (with_reducible apply Keeps.foldl)

theorem State.dgsDropFunc_keeps {s : State} {f : Nat} (hs : Keeps ini s) :
    Keeps ini (State.dgsDropFunc s f) := by
  unfold State.dgsDropFunc
  repeat' first
    | intro _ _ _
    | with_reducible assumption
    | with_reducible apply State.pulse_keeps
    | with_reducible apply State.updDgs_keeps
    | simp only [Keeps.mk_iff]
    | with_reducible apply Keeps.other
    | with_reducible apply Keeps.ite
    | (with_reducible apply Keeps.foldl)
    | refine Keeps.fst (by assumption) ?_
    | refine Keeps.snd (by assumption) ?_
    | split

theorem execDmaLoad_keeps {t : Nat} {v : BitVec 64} {s : State} {out : State} (e : execDmaLoad t v s = .next out) (hs
    : Keeps ini s) :
    Keeps ini out := by
  unfold execDmaLoad at e
  obtain rfl := Host.Outcome.next.inj e
  repeat' first
    | with_reducible assumption
    | with_reducible apply State.updTile_keeps
    | with_reducible apply State.updDma_keeps
    | simp only [Keeps.mk_iff]
    | with_reducible apply Keeps.other
    | with_reducible apply Keeps.ite
    | refine Keeps.fst (by assumption) ?_
    | refine Keeps.snd (by assumption) ?_
    | split

theorem execDmaAbort_keeps {t : Nat} {v : BitVec 64} {s : State} {out : State} (e : execDmaAbort t v s = .next out)
    (hs : Keeps ini s) :
    Keeps ini out := by
  unfold execDmaAbort at e
  obtain rfl := Host.Outcome.next.inj e
  repeat' first
    | with_reducible assumption
    | with_reducible apply State.updDma_keeps
    | with_reducible apply State.signal_keeps
    | with_reducible apply State.dmaStopCur_keeps
    | with_reducible apply State.dmaStopShadow_keeps
    | simp only [Keeps.mk_iff]
    | with_reducible apply Keeps.other
    | with_reducible apply Keeps.ite
    | refine Keeps.fst (by assumption) ?_
    | refine Keeps.snd (by assumption) ?_
    | split

theorem execShadowCurrent_keeps {c : Nat} {s : State} {out : State} (e : execShadowCurrent c s = .next out) (hs :
    Keeps ini s) :
    Keeps ini out := by
  unfold execShadowCurrent at e
  obtain rfl := Host.Outcome.next.inj e
  repeat' first
    | with_reducible assumption
    | with_reducible apply State.updDma_keeps
    | simp only [Keeps.mk_iff]
    | with_reducible apply Keeps.other
    | with_reducible apply Keeps.ite
    | refine Keeps.fst (by assumption) ?_
    | refine Keeps.snd (by assumption) ?_
    | split

theorem execDmaDescriptor_keeps {c : Nat} {s : State} {out : State} (e : execDmaDescriptor c s = .next out) (hs :
    Keeps ini s) :
    Keeps ini out := by
  unfold execDmaDescriptor at e
  obtain rfl := Host.Outcome.next.inj e
  repeat' first
    | with_reducible assumption
    | with_reducible apply State.dmaStep_keeps
    | with_reducible apply State.dmaSetCur_keeps
    | simp only [Keeps.mk_iff]
    | with_reducible apply Keeps.other
    | with_reducible apply Keeps.ite
    | refine Keeps.fst (by assumption) ?_
    | refine Keeps.snd (by assumption) ?_
    | split

theorem execBusError_keeps {c : Nat} {s : State} {out : State} (e : execBusError c s = .next out) (hs : Keeps ini s)
    :
    Keeps ini out := by
  unfold execBusError at e
  obtain rfl := Host.Outcome.next.inj e
  repeat' first
    | with_reducible assumption
    | with_reducible apply State.dmaStep_keeps
    | with_reducible apply State.dmaBadFeed_keeps
    | with_reducible apply State.dmaBusError_keeps
    | with_reducible apply State.putDstat_keeps
    | with_reducible apply State.dmaSetCur_keeps
    | with_reducible apply State.freeUpTo_keeps
    | with_reducible apply State.dmaCopy_keeps
    | simp only [Keeps.mk_iff]
    | with_reducible apply Keeps.other
    | with_reducible apply Keeps.ite
    | refine Keeps.fst (by assumption) ?_
    | refine Keeps.snd (by assumption) ?_
    | split

theorem execTransferEnd_keeps {c : Nat} {s : State} {out : State} (e : execTransferEnd c s = .next out) (hs : Keeps
    ini s) :
    Keeps ini out := by
  unfold execTransferEnd at e
  obtain rfl := Host.Outcome.next.inj e
  repeat' first
    | with_reducible assumption
    | with_reducible apply State.updDma_keeps
    | with_reducible apply State.xferDone_keeps
    | simp only [Keeps.mk_iff]
    | with_reducible apply Keeps.other
    | with_reducible apply Keeps.ite
    | refine Keeps.fst (by assumption) ?_
    | refine Keeps.snd (by assumption) ?_
    | split

end Sys2Proof.Machine
end

