-- ==== Sys2Proof/Laws/KLinkKeeps.lean ====
section
/-! SUPPORT. The operations of Machine/KLink.lean keep what Keeps names. -/

namespace Sys2Proof.Machine

variable {ini : State}

theorem State.updPort_keeps {s : State} {p : Nat} {g : KPort → KPort} (hs : Keeps ini s) :
    Keeps ini (State.updPort s p g) := by
  unfold State.updPort
  repeat' first
    | with_reducible assumption
    | simp only [Keeps.mk_iff]
    | with_reducible apply Keeps.other

theorem State.pump_keeps {s : State} {p : Nat} {a1 : Nat} (hs : Keeps ini s) :
    Keeps ini (State.pump s p a1) := by
  induction a1 generalizing s p with
  | zero =>
    unfold State.pump
    repeat' first
      | with_reducible assumption
  | succ k ih =>
    unfold State.pump
    repeat' first
      | with_reducible assumption
      | with_reducible apply ih
      | with_reducible apply State.updPort_keeps
      | simp only [Keeps.mk_iff]
      | with_reducible apply Keeps.other
      | with_reducible apply Keeps.ite
      | refine Keeps.fst (by assumption) ?_
      | refine Keeps.snd (by assumption) ?_
      | split

theorem State.emitFlit_keeps {s : State} {p : Nat} {x : Flit} (hs : Keeps ini s) :
    Keeps ini (State.emitFlit s p x) := by
  unfold State.emitFlit
  repeat' first
    | with_reducible assumption
    | with_reducible apply State.updPort_keeps
    | with_reducible apply State.pump_keeps
    | simp only [Keeps.mk_iff]
    | with_reducible apply Keeps.other
    | refine Keeps.fst (by assumption) ?_
    | refine Keeps.snd (by assumption) ?_
    | split

theorem State.forward_keeps {s : State} {x : Flit} {from_ : Option Nat} (hs : Keeps ini s) :
    Keeps ini (State.forward s x from_) := by
  unfold State.forward
  repeat' first
    | with_reducible assumption
    | with_reducible apply State.emitFlit_keeps
    | simp only [Keeps.mk_iff]
    | with_reducible apply Keeps.other
    | refine Keeps.fst (by assumption) ?_
    | refine Keeps.snd (by assumption) ?_
    | split

theorem State.sendAborts_keeps {s : State} {id : Nat} {x : Xchg} {reason : Nat} (hs : Keeps ini s) :
    Keeps ini (State.sendAborts s id x reason) := by
  unfold State.sendAborts
  repeat' first
    | intro _ _ _
    | with_reducible assumption
    | with_reducible apply State.forward_keeps
    | (with_reducible apply Keeps.foldl)

theorem State.closeXchgs_keeps {s : State} {sel : Xchg → Bool} {reason : Option Nat} (hs : Keeps ini s) :
    Keeps ini (State.closeXchgs s sel reason) := by
  unfold State.closeXchgs
  repeat' first
    | intro _ _ _
    | with_reducible assumption
    | with_reducible apply State.sendAborts_keeps
    | simp only [Keeps.mk_iff]
    | with_reducible apply Keeps.other
    | with_reducible apply Keeps.foldl_fst
    | with_reducible apply Keeps.foldl_snd
    | (with_reducible apply Keeps.foldl)
    | refine Keeps.fst (by assumption) ?_
    | refine Keeps.snd (by assumption) ?_
    | split

end Sys2Proof.Machine
end

