-- ==== Sys2Proof/Laws/ProtocolKeeps.lean ====
section
/-! SUPPORT. The operations of Machine/Protocol.lean keep what Keeps names. -/

namespace Sys2Proof.Machine

variable {ini : State}

theorem State.send_keeps {s : State} {m : Msg} (hs : Keeps ini s) :
    Keeps ini (State.send s m) := by
  unfold State.send
  repeat' first
    | with_reducible assumption
    | simp only [Keeps.mk_iff]
    | with_reducible apply Keeps.other
    | with_reducible apply Keeps.ite

theorem State.take_keeps {s : State} {p : Msg → Bool} {out : State} {r} (e : State.take s p = some (r, out)) (hs :
    Keeps ini s) :
    Keeps ini out := by
  unfold State.take at e
  repeat' first
    | with_reducible assumption
    | simp only [Option.map_eq_some_iff] at e
    | (obtain ⟨_, _, e⟩ := e)
    | cases e
    | split at e
    | dsimp only at e
    | simp only [Keeps.mk_iff]
    | with_reducible apply Keeps.other

theorem State.putTxn_keeps {s : State} {x : Txn} (hs : Keeps ini s) :
    Keeps ini (State.putTxn s x) := by
  unfold State.putTxn
  repeat' first
    | with_reducible assumption
    | with_reducible apply State.updSlice_keeps

theorem State.closeTxn_keeps {s : State} {line : Nat} (hs : Keeps ini s) :
    Keeps ini (State.closeTxn s line) := by
  unfold State.closeTxn
  repeat' first
    | with_reducible assumption
    | with_reducible apply State.updSlice_keeps
    | with_reducible apply State.updDir_keeps

theorem State.answer_keeps {s : State} {agent line : Nat} {data : Option Line} {blot : Bool} (hs : Keeps ini s) :
    Keeps ini (State.answer s agent line data blot) := by
  unfold State.answer
  repeat' first
    | with_reducible assumption
    | simp only [Keeps.mk_iff]
    | with_reducible apply Keeps.other

theorem State.closeFenced_keeps {s : State} {x : Txn} (hs : Keeps ini s) :
    Keeps ini (State.closeFenced s x) := by
  unfold State.closeFenced
  repeat' first
    | with_reducible assumption
    | with_reducible apply State.markBlot_keeps
    | with_reducible apply State.updDir_keeps
    | with_reducible apply State.closeTxn_keeps
    | simp only [Keeps.mk_iff]
    | with_reducible apply Keeps.other
    | with_reducible apply Keeps.ite

theorem State.grant_keeps {s : State} {x : Txn} {st : Option LState} {d : Option Line} {blot : Bool} (hs : Keeps ini
    s) :
    Keeps ini (State.grant s x st d blot) := by
  unfold State.grant
  repeat' first
    | with_reducible assumption
    | with_reducible apply State.closeFenced_keeps
    | with_reducible apply State.putTxn_keeps
    | with_reducible apply State.send_keeps
    | simp only [Keeps.mk_iff]
    | with_reducible apply Keeps.other
    | with_reducible apply Keeps.ite

theorem State.supply_keeps {s : State} {x : Txn} {d : Line} {blot : Bool} (hs : Keeps ini s) :
    Keeps ini (State.supply s x d blot) := by
  unfold State.supply
  repeat' first
    | with_reducible assumption
    | with_reducible apply State.grant_keeps
    | with_reducible apply State.updDir_keeps
    | with_reducible apply State.closeTxn_keeps
    | with_reducible apply State.answer_keeps
    | with_reducible apply State.send_keeps
    | simp only [Keeps.mk_iff]
    | with_reducible apply Keeps.other
    | with_reducible apply Keeps.ite

theorem State.sendInvs_keeps {s : State} {line : Nat} {ts : List Nat} (hs : Keeps ini s) :
    Keeps ini (State.sendInvs s line ts) := by
  unfold State.sendInvs
  repeat' first
    | intro _ _ _
    | with_reducible assumption
    | with_reducible apply State.send_keeps
    | (with_reducible apply Keeps.foldl)

theorem State.countLookup_keeps {s : State} {line : Nat} {hit : Bool} (hs : Keeps ini s) :
    Keeps ini (State.countLookup s line hit) := by
  unfold State.countLookup
  repeat' first
    | with_reducible assumption
    | with_reducible apply State.updSlice_keeps

theorem State.fillOrc_keeps {s : State} {m : Msg} {d : Line} {blot : Bool} (hs : Keeps ini s) :
    Keeps ini (State.fillOrc s m d blot) := by
  unfold State.fillOrc
  repeat' first
    | with_reducible assumption
    | with_reducible apply State.markBlot_keeps
    | with_reducible apply State.orcPut_keeps
    | with_reducible apply Keeps.ite

theorem State.askData_keeps {s : State} {x : Txn} (hs : Keeps ini s) :
    Keeps ini (State.askData s x) := by
  unfold State.askData
  repeat' first
    | with_reducible assumption
    | with_reducible apply State.putTxn_keeps
    | with_reducible apply State.postMem_keeps
    | simp only [Keeps.mk_iff]
    | with_reducible apply Keeps.other
    | with_reducible apply Keeps.ite

theorem State.homeWrite_keeps {s : State} {m : Msg} {d : Line} {blot : Bool} (hs : Keeps ini s) :
    Keeps ini (State.homeWrite s m d blot) := by
  unfold State.homeWrite
  repeat' first
    | with_reducible assumption
    | with_reducible apply State.migLog_keeps
    | with_reducible apply State.updSlice_keeps
    | with_reducible apply State.orcPut_keeps
    | with_reducible apply State.hostPut_keeps
    | with_reducible apply State.postMem_keeps
    | simp only [Keeps.mk_iff]
    | with_reducible apply Keeps.other
    | with_reducible apply Keeps.ite

theorem State.ioDone_keeps {s : State} {x : Txn} (hs : Keeps ini s) :
    Keeps ini (State.ioDone s x) := by
  unfold State.ioDone
  repeat' first
    | with_reducible assumption
    | with_reducible apply State.closeTxn_keeps
    | with_reducible apply State.answer_keeps
    | with_reducible apply State.send_keeps
    | with_reducible apply Keeps.ite

theorem State.grantN_keeps {s : State} {x : Txn} {st : LState} {d : Line} {blot : Bool} (hs : Keeps ini s) :
    Keeps ini (State.grantN s x st d blot) := by
  unfold State.grantN
  repeat' first
    | with_reducible assumption
    | with_reducible apply State.grant_keeps
    | with_reducible apply State.updDir_keeps
    | with_reducible apply State.migLog_keeps
    | simp only [Keeps.mk_iff]
    | with_reducible apply Keeps.other
    | with_reducible apply Keeps.ite

theorem State.homeGo_keeps {s : State} {x : Txn} (hs : Keeps ini s) :
    Keeps ini (State.homeGo s x) := by
  unfold State.homeGo
  repeat' first
    | with_reducible assumption
    | with_reducible apply State.putTxn_keeps
    | with_reducible apply State.homeWrite_keeps
    | with_reducible apply State.ioDone_keeps
    | with_reducible apply State.askData_keeps
    | with_reducible apply State.sendInvs_keeps
    | with_reducible apply State.updDir_keeps
    | with_reducible apply State.migLog_keeps
    | with_reducible apply State.grant_keeps
    | with_reducible apply State.grantN_keeps
    | with_reducible apply State.send_keeps
    | with_reducible apply State.countLookup_keeps
    | with_reducible apply State.supply_keeps
    | with_reducible apply State.orcDrop_keeps
    | with_reducible apply State.closeTxn_keeps
    | with_reducible apply State.answer_keeps
    | with_reducible apply State.updSlice_keeps
    | simp only [Keeps.mk_iff]
    | with_reducible apply Keeps.other
    | with_reducible apply Kept.memWriteLine
    | with_reducible apply Kept.hostWriteLine
    | with_reducible apply Keeps.ite
    | refine Keeps.fst (by assumption) ?_
    | refine Keeps.snd (by assumption) ?_
    | split

theorem State.fenceEntry_keeps {s : State} {h k : Nat} (hs : Keeps ini s) :
    Keeps ini (State.fenceEntry s h k) := by
  unfold State.fenceEntry
  repeat' first
    | intro _ _ _
    | with_reducible assumption
    | with_reducible apply State.markBlot_keeps
    | with_reducible apply State.putDir_keeps
    | with_reducible apply State.freeDir_keeps
    | simp only [Keeps.mk_iff]
    | with_reducible apply Keeps.other
    | with_reducible apply Keeps.ite
    | (with_reducible apply Keeps.foldl)
    | refine Keeps.fst (by assumption) ?_
    | refine Keeps.snd (by assumption) ?_
    | split

theorem State.homeStart_keeps {s0 : State} {m0 : Msg} (hs : Keeps ini s0) :
    Keeps ini (State.homeStart s0 m0) := by
  unfold State.homeStart
  repeat' first
    | with_reducible assumption
    | with_reducible apply State.fenceEntry_keeps
    | with_reducible apply State.putDir_keeps
    | with_reducible apply State.putTxn_keeps
    | with_reducible apply State.homeGo_keeps
    | with_reducible apply State.updSlice_keeps
    | with_reducible apply State.sendInvs_keeps
    | simp only [Keeps.mk_iff]
    | with_reducible apply Keeps.other
    | with_reducible apply Kept.nvSame
    | with_reducible apply Keeps.ite
    | refine Keeps.fst (by assumption) ?_
    | refine Keeps.snd (by assumption) ?_
    | split

theorem State.homeNack_keeps {s : State} {m : Msg} (hs : Keeps ini s) :
    Keeps ini (State.homeNack s m) := by
  unfold State.homeNack
  repeat' first
    | with_reducible assumption
    | with_reducible apply State.updSlice_keeps
    | with_reducible apply State.send_keeps

theorem State.homeArrive_keeps {s : State} {m : Msg} (hs : Keeps ini s) :
    Keeps ini (State.homeArrive s m) := by
  unfold State.homeArrive
  repeat' first
    | with_reducible assumption
    | with_reducible apply State.homeStart_keeps
    | with_reducible apply State.updSlice_keeps
    | with_reducible apply State.homeNack_keeps
    | simp only [Keeps.mk_iff]
    | with_reducible apply Keeps.other
    | with_reducible apply Keeps.ite

theorem State.homeDequeue_keeps {s : State} {h : Nat} (hs : Keeps ini s) :
    Keeps ini (State.homeDequeue s h) := by
  unfold State.homeDequeue
  repeat' first
    | with_reducible assumption
    | with_reducible apply State.updSlice_keeps
    | with_reducible apply State.homeStart_keeps
    | simp only [Keeps.mk_iff]
    | with_reducible apply Keeps.other
    | with_reducible apply Keeps.ite
    | refine Keeps.fst (by assumption) ?_
    | refine Keeps.snd (by assumption) ?_
    | split

theorem State.homeFack_keeps {s : State} {m : Msg} (hs : Keeps ini s) :
    Keeps ini (State.homeFack s m) := by
  unfold State.homeFack
  repeat' first
    | with_reducible assumption
    | with_reducible apply State.orcPut_keeps
    | with_reducible apply State.updDir_keeps
    | with_reducible apply State.grant_keeps
    | with_reducible apply State.migLog_keeps
    | with_reducible apply State.closeTxn_keeps
    | with_reducible apply State.answer_keeps
    | simp only [Keeps.mk_iff]
    | with_reducible apply Keeps.other
    | with_reducible apply Kept.memWriteLine
    | with_reducible apply Kept.hostWriteLine
    | with_reducible apply Keeps.ite
    | refine Keeps.fst (by assumption) ?_
    | refine Keeps.snd (by assumption) ?_
    | split

theorem State.homeNoline_keeps {s : State} {m : Msg} (hs : Keeps ini s) :
    Keeps ini (State.homeNoline s m) := by
  unfold State.homeNoline
  repeat' first
    | with_reducible assumption
    | with_reducible apply State.markBlot_keeps
    | with_reducible apply State.updDir_keeps
    | with_reducible apply State.putTxn_keeps
    | with_reducible apply State.homeGo_keeps
    | simp only [Keeps.mk_iff]
    | with_reducible apply Keeps.other
    | with_reducible apply Keeps.ite
    | refine Keeps.fst (by assumption) ?_
    | refine Keeps.snd (by assumption) ?_
    | split

theorem State.acksDone_keeps {s : State} {x : Txn} (hs : Keeps ini s) :
    Keeps ini (State.acksDone s x) := by
  unfold State.acksDone
  repeat' first
    | with_reducible assumption
    | with_reducible apply State.orcPut_keeps
    | with_reducible apply State.updDir_keeps
    | with_reducible apply State.putTxn_keeps
    | with_reducible apply State.homeGo_keeps
    | simp only [Keeps.mk_iff]
    | with_reducible apply Keeps.other
    | with_reducible apply Keeps.ite
    | refine Keeps.fst (by assumption) ?_
    | refine Keeps.snd (by assumption) ?_
    | split

theorem State.homeAck_keeps {s : State} {m : Msg} (hs : Keeps ini s) :
    Keeps ini (State.homeAck s m) := by
  unfold State.homeAck
  repeat' first
    | with_reducible assumption
    | with_reducible apply State.updSlice_keeps
    | with_reducible apply State.acksDone_keeps
    | with_reducible apply State.putTxn_keeps
    | simp only [Keeps.mk_iff]
    | with_reducible apply Keeps.other
    | with_reducible apply Keeps.ite
    | refine Keeps.fst (by assumption) ?_
    | refine Keeps.snd (by assumption) ?_
    | split

theorem State.homeFill_keeps {s : State} {line : Nat} {d : Line} {blot : Bool} (hs : Keeps ini s) :
    Keeps ini (State.homeFill s line d blot) := by
  unfold State.homeFill
  repeat' first
    | with_reducible assumption
    | with_reducible apply State.updDir_keeps
    | with_reducible apply State.fillOrc_keeps
    | with_reducible apply State.putTxn_keeps
    | with_reducible apply State.homeGo_keeps
    | simp only [Keeps.mk_iff]
    | with_reducible apply Keeps.other
    | with_reducible apply Keeps.ite
    | refine Keeps.fst (by assumption) ?_
    | refine Keeps.snd (by assumption) ?_
    | split

theorem State.dropClean_keeps {s : State} {line t : Nat} (hs : Keeps ini s) :
    Keeps ini (State.dropClean s line t) := by
  unfold State.dropClean
  repeat' first
    | with_reducible assumption
    | with_reducible apply State.updDir_keeps

theorem State.homeVictim_keeps {s : State} {m : Msg} (hs : Keeps ini s) :
    Keeps ini (State.homeVictim s m) := by
  unfold State.homeVictim
  repeat' first
    | with_reducible assumption
    | with_reducible apply State.send_keeps
    | with_reducible apply State.updSlice_keeps
    | with_reducible apply State.markBlot_keeps
    | with_reducible apply State.orcPut_keeps
    | with_reducible apply State.dropClean_keeps
    | simp only [Keeps.mk_iff]
    | with_reducible apply Keeps.other
    | with_reducible apply Keeps.ite
    | refine Keeps.fst (by assumption) ?_
    | refine Keeps.snd (by assumption) ?_
    | split

theorem State.drainSink_keeps {s : State} {line t : Nat} (hs : Keeps ini s) :
    Keeps ini (State.drainSink s line t) := by
  unfold State.drainSink
  repeat' first
    | intro _ _ _
    | with_reducible assumption
    | with_reducible apply State.updSlice_keeps
    | with_reducible apply State.send_keeps
    | simp only [Keeps.mk_iff]
    | with_reducible apply Keeps.other
    | with_reducible apply Keeps.ite
    | (with_reducible apply Keeps.foldl)

end Sys2Proof.Machine
end

