-- ==== Sys2Proof/Laws/L1Keeps.lean ====
section
/-! SUPPORT. The operations of Machine/L1.lean keep what Keeps names. -/

namespace Sys2Proof.Machine

variable {ini : State}

theorem State.evictL1_keeps {s : State} {t : Nat} {l : DLine} (hs : Keeps ini s) :
    Keeps ini (State.evictL1 s t l) := by
  unfold State.evictL1
  repeat' first
    | with_reducible assumption
    | with_reducible apply State.updL1_keeps
    | with_reducible apply State.send_keeps
    | simp only [Keeps.mk_iff]
    | with_reducible apply Keeps.other
    | with_reducible apply Keeps.ite

theorem State.fillL1_keeps {s : State} {t line : Nat} {st : LState} {d : Line} {out : State} (e : State.fillL1 s t
    line st d = some out) (hs : Keeps ini s) :
    Keeps ini out := by
  unfold State.fillL1 at e
  repeat' first
    | with_reducible assumption
    | cases e
    | split at e
    | dsimp only at e
    | with_reducible apply State.updL1_keeps
    | with_reducible apply State.evictL1_keeps

theorem State.postReq_keeps {s : State} {t line : Nat} {kind : MKind} {prefetch : Bool} (hs : Keeps ini s) :
    Keeps ini (State.postReq s t line kind prefetch) := by
  unfold State.postReq
  repeat' first
    | with_reducible assumption
    | with_reducible apply State.updL1_keeps
    | with_reducible apply State.send_keeps

theorem State.demand_keeps {s : State} {t line : Nat} {kind : MKind} (hs : Keeps ini s) :
    Keeps ini (State.demand s t line kind) := by
  unfold State.demand
  repeat' first
    | with_reducible assumption
    | with_reducible apply State.updL1_keeps
    | with_reducible apply State.postReq_keeps
    | simp only [Keeps.mk_iff]
    | with_reducible apply Keeps.other
    | with_reducible apply Keeps.ite

theorem State.sendData_keeps {s : State} {t : Nat} {m : Msg} {d : Line} {dirty : Bool} (hs : Keeps ini s) :
    Keeps ini (State.sendData s t m d dirty) := by
  unfold State.sendData
  repeat' first
    | with_reducible assumption
    | with_reducible apply State.answer_keeps
    | with_reducible apply State.send_keeps
    | with_reducible apply Keeps.ite

theorem State.answerFwd_keeps {s : State} {t : Nat} {m : Msg} (hs : Keeps ini s) :
    Keeps ini (State.answerFwd s t m) := by
  unfold State.answerFwd
  repeat' first
    | with_reducible assumption
    | with_reducible apply State.updL1_keeps
    | with_reducible apply State.send_keeps
    | with_reducible apply State.sendData_keeps
    | simp only [Keeps.mk_iff]
    | with_reducible apply Keeps.other
    | with_reducible apply Keeps.ite
    | refine Keeps.fst (by assumption) ?_
    | refine Keeps.snd (by assumption) ?_
    | split

theorem State.wbNow_keeps {s : State} {t : Nat} {l : DLine} {k : MKind} {blot : Bool} {data : Option Line} (hs :
    Keeps ini s) :
    Keeps ini (State.wbNow s t l k blot data) := by
  unfold State.wbNow
  repeat' first
    | with_reducible assumption
    | with_reducible apply State.updL1_keeps
    | with_reducible apply State.send_keeps
    | with_reducible apply State.homeVictim_keeps
    | simp only [Keeps.mk_iff]
    | with_reducible apply Keeps.other
    | with_reducible apply Keeps.ite

theorem State.cleanKeep_keeps {s : State} {t : Nat} {l : DLine} (hs : Keeps ini s) :
    Keeps ini (State.cleanKeep s t l) := by
  unfold State.cleanKeep
  repeat' first
    | with_reducible assumption
    | with_reducible apply State.orcPut_keeps
    | with_reducible apply State.updL1_keeps
    | simp only [Keeps.mk_iff]
    | with_reducible apply Keeps.other
    | with_reducible apply Keeps.ite

theorem State.lineOp_keeps {s : State} {t : Nat} {op : Nat} {incl : Bool} {line : Nat} (hs : Keeps ini s) :
    Keeps ini (State.lineOp s t op incl line) := by
  unfold State.lineOp
  repeat' first
    | with_reducible assumption
    | with_reducible apply State.updL1_keeps
    | with_reducible apply State.cleanKeep_keeps
    | with_reducible apply State.wbNow_keeps
    | simp only [Keeps.mk_iff]
    | with_reducible apply Keeps.other
    | with_reducible apply Keeps.ite
    | refine Keeps.fst (by assumption) ?_
    | refine Keeps.snd (by assumption) ?_
    | split

theorem State.rangeOp_keeps {s : State} {t : Nat} (hs : Keeps ini s) :
    Keeps ini (State.rangeOp s t) := by
  unfold State.rangeOp
  repeat' first
    | intro _ _ _
    | with_reducible assumption
    | with_reducible apply State.updL1_keeps
    | with_reducible apply State.lineOp_keeps
    | with_reducible apply Keeps.ite
    | (with_reducible apply Keeps.foldl)

theorem State.flushL1D_keeps {s : State} {t : Nat} (hs : Keeps ini s) :
    Keeps ini (State.flushL1D s t) := by
  unfold State.flushL1D
  repeat' first
    | intro _ _ _
    | with_reducible assumption
    | with_reducible apply State.updL1_keeps
    | with_reducible apply State.wbNow_keeps
    | simp only [Keeps.mk_iff]
    | with_reducible apply Keeps.other
    | with_reducible apply Keeps.ite
    | (with_reducible apply Keeps.foldl)

theorem State.setDis_keeps {s : State} {t : Nat} {on : Bool} (hs : Keeps ini s) :
    Keeps ini (State.setDis s t on) := by
  unfold State.setDis
  repeat' first
    | with_reducible assumption
    | with_reducible apply State.flushL1D_keeps
    | with_reducible apply State.updL1_keeps

theorem State.setIdis_keeps {s : State} {t : Nat} {on : Bool} (hs : Keeps ini s) :
    Keeps ini (State.setIdis s t on) := by
  unfold State.setIdis
  repeat' first
    | with_reducible assumption
    | with_reducible apply State.updL1_keeps

theorem State.writeL1ctl_keeps {s : State} {t : Nat} {v : BitVec 32} (hs : Keeps ini s) :
    Keeps ini (State.writeL1ctl s t v) := by
  unfold State.writeL1ctl
  repeat' first
    | with_reducible assumption
    | with_reducible apply State.updL1_keeps
    | with_reducible apply State.setDis_keeps
    | with_reducible apply State.setIdis_keeps
    | with_reducible apply State.rangeOp_keeps
    | simp only [Keeps.mk_iff]
    | with_reducible apply Keeps.other
    | with_reducible apply Keeps.ite

end Sys2Proof.Machine
end

