-- ==== Sys2Proof/Laws/ReadyKeeps.lean ====
section
/-! SUPPORT. The operations of Machine/Ready.lean keep what Keeps names. -/

namespace Sys2Proof.Machine

variable {ini : State}

theorem State.updDisp_keeps {s : State} {f : Nat} {g : Disp → Disp} (hs : Keeps ini s) :
    Keeps ini (State.updDisp s f g) := by
  unfold State.updDisp
  repeat' first
    | with_reducible assumption
    | with_reducible apply State.updTenant_keeps

theorem State.updQuery_keeps {s : State} {f q : Nat} {g : Query → Query} (hs : Keeps ini s) :
    Keeps ini (State.updQuery s f q g) := by
  unfold State.updQuery
  repeat' first
    | with_reducible assumption
    | with_reducible apply State.updTenant_keeps

theorem State.putTask_keeps {s : State} {f i : Nat} {k : Task} (hs : Keeps ini s) :
    Keeps ini (State.putTask s f i k) := by
  unfold State.putTask
  repeat' first
    | with_reducible assumption
    | with_reducible apply State.updDisp_keeps
    | with_reducible apply State.writeBytes_keeps

theorem State.spillSync_keeps {s : State} {f p : Nat} {at_ : Option (Nat × SpillEnt)} (hs : Keeps ini s) :
    Keeps ini (State.spillSync s f p at_) := by
  unfold State.spillSync
  repeat' first
    | with_reducible assumption
    | with_reducible apply State.writeBytes_keeps
    | refine Keeps.fst (by assumption) ?_
    | refine Keeps.snd (by assumption) ?_
    | split

theorem State.spillTail_keeps {s : State} {f p : Nat} {e : SpillEnt} (hs : Keeps ini s) :
    Keeps ini (State.spillTail s f p e) := by
  unfold State.spillTail
  repeat' first
    | with_reducible assumption
    | with_reducible apply State.updDisp_keeps
    | with_reducible apply State.spillSync_keeps

theorem State.spillHead_keeps {s : State} {f p : Nat} {e : SpillEnt} (hs : Keeps ini s) :
    Keeps ini (State.spillHead s f p e) := by
  unfold State.spillHead
  repeat' first
    | with_reducible assumption
    | with_reducible apply State.updDisp_keeps
    | with_reducible apply State.spillSync_keeps

theorem State.setAt_keeps {s : State} {f i : Nat} {a : TStage} (hs : Keeps ini s) :
    Keeps ini (State.setAt s f i a) := by
  unfold State.setAt
  repeat' first
    | with_reducible assumption
    | with_reducible apply State.updDisp_keeps

theorem State.readyPut_keeps {s : State} {f i : Nat} (hs : Keeps ini s) :
    Keeps ini (State.readyPut s f i) := by
  unfold State.readyPut
  repeat' first
    | with_reducible assumption
    | with_reducible apply State.updDisp_keeps
    | with_reducible apply State.setAt_keeps
    | with_reducible apply State.spillTail_keeps
    | with_reducible apply State.spillHead_keeps
    | simp only [Keeps.mk_iff]
    | with_reducible apply Keeps.other
    | with_reducible apply Keeps.ite
    | refine Keeps.fst (by assumption) ?_
    | refine Keeps.snd (by assumption) ?_
    | split

theorem State.tryFire_keeps {s : State} {f i : Nat} (hs : Keeps ini s) :
    Keeps ini (State.tryFire s f i) := by
  unfold State.tryFire
  repeat' first
    | with_reducible assumption
    | with_reducible apply State.updDisp_keeps
    | with_reducible apply State.putTask_keeps
    | with_reducible apply State.readyPut_keeps
    | simp only [Keeps.mk_iff]
    | with_reducible apply Keeps.other
    | with_reducible apply Keeps.ite
    | refine Keeps.fst (by assumption) ?_
    | refine Keeps.snd (by assumption) ?_
    | split

theorem State.setFlags_keeps {s : State} {f : Nat} {mask : Word} (hs : Keeps ini s) :
    Keeps ini (State.setFlags s f mask) := by
  unfold State.setFlags
  repeat' first
    | intro _ _ _
    | with_reducible assumption
    | with_reducible apply State.updDisp_keeps
    | with_reducible apply State.tryFire_keeps
    | simp only [Keeps.mk_iff]
    | with_reducible apply Keeps.other
    | (with_reducible apply Keeps.foldl)

theorem State.pulseFlag_keeps {s : State} {f flag : Nat} {epoch : BitVec 8} (hs : Keeps ini s) :
    Keeps ini (State.pulseFlag s f flag epoch) := by
  unfold State.pulseFlag
  repeat' first
    | with_reducible assumption
    | with_reducible apply State.setFlags_keeps
    | with_reducible apply State.updDisp_keeps
    | simp only [Keeps.mk_iff]
    | with_reducible apply Keeps.other
    | with_reducible apply Keeps.ite

theorem State.allocFlag_keeps {s : State} {f : Nat} (hs : Keeps ini s) :
    Keeps ini (State.allocFlag s f).2 := by
  unfold State.allocFlag
  repeat' first
    | with_reducible assumption
    | with_reducible apply State.updDisp_keeps
    | simp only [Keeps.mk_iff]
    | with_reducible apply Keeps.other
    | refine Keeps.fst (by assumption) ?_
    | refine Keeps.snd (by assumption) ?_
    | split

theorem State.freeTask_keeps {s : State} {f i : Nat} (hs : Keeps ini s) :
    Keeps ini (State.freeTask s f i) := by
  unfold State.freeTask
  repeat' first
    | with_reducible assumption
    | with_reducible apply State.updDisp_keeps

theorem State.dropTasks_keeps {s : State} {f q : Nat} {sel : Task → Bool} (hs : Keeps ini s) :
    Keeps ini (State.dropTasks s f q sel) := by
  unfold State.dropTasks
  repeat' first
    | intro _ _ _
    | with_reducible assumption
    | with_reducible apply State.updDisp_keeps

theorem State.refillGo_keeps {s : State} {f : Nat} {a1 : Nat} (hs : Keeps ini s) :
    Keeps ini (State.refillGo s f a1) := by
  induction a1 generalizing s f with
  | zero =>
    unfold State.refillGo
    repeat' first
      | with_reducible assumption
  | succ k ih =>
    unfold State.refillGo
    repeat' first
      | with_reducible assumption
      | with_reducible apply ih
      | with_reducible apply State.updDisp_keeps
      | with_reducible apply State.spillSync_keeps
      | with_reducible apply State.setAt_keeps
      | with_reducible apply State.freeTask_keeps
      | simp only [Keeps.mk_iff]
      | with_reducible apply Keeps.other
      | with_reducible apply Keeps.ite
      | refine Keeps.fst (by assumption) ?_
      | refine Keeps.snd (by assumption) ?_
      | split

theorem State.refill_keeps {s : State} {f : Nat} (hs : Keeps ini s) :
    Keeps ini (State.refill s f) := by
  unfold State.refill
  repeat' first
    | with_reducible assumption
    | with_reducible apply State.refillGo_keeps
    | with_reducible apply Keeps.ite

theorem execRefill_keeps {f : Nat} {s : State} {out : State} (e : execRefill f s = .next out) (hs : Keeps ini s) :
    Keeps ini out := by
  unfold execRefill at e
  obtain rfl := Host.Outcome.next.inj e
  repeat' first
    | with_reducible assumption
    | with_reducible apply State.refill_keeps

end Sys2Proof.Machine
end

