-- ==== Sys2Proof/Laws/TasksKeeps.lean ====
section
/-! SUPPORT. The operations of Machine/Tasks.lean keep what Keeps names. -/

namespace Sys2Proof.Machine

variable {ini : State}

theorem State.actEnd_keeps {s : State} {e : Nat} {a : Action} {outcome : Nat} (hs : Keeps ini s) :
    Keeps ini (State.actEnd s e a outcome) := by
  unfold State.actEnd
  repeat' first
    | with_reducible assumption
    | with_reducible apply State.writeBytes_keeps
    | with_reducible apply State.setFlags_keeps
    | simp only [Keeps.mk_iff]
    | with_reducible apply Keeps.other
    | with_reducible apply Keeps.ite

theorem State.disarmAll_keeps {s : State} {sel : Action → Bool} (hs : Keeps ini s) :
    Keeps ini (State.disarmAll s sel) := by
  unfold State.disarmAll
  repeat' first
    | intro _ _ _
    | with_reducible assumption
    | with_reducible apply State.actEnd_keeps
    | with_reducible apply Keeps.foldl_fst
    | with_reducible apply Keeps.foldl_snd
    | (with_reducible apply Keeps.foldl)

theorem State.cancelCores_keeps {s : State} {f q : Nat} {sel : Task → Bool} (hs : Keeps ini s) :
    Keeps ini (State.cancelCores s f q sel) := by
  unfold State.cancelCores
  repeat' first
    | intro _ _ _
    | with_reducible assumption
    | with_reducible apply State.updCore_keeps
    | simp only [Keeps.mk_iff]
    | with_reducible apply Keeps.other
    | refine Keeps.foldl_bind (by assumption) ?_ ?_
    | with_reducible apply Keeps.ite
    | (with_reducible apply Keeps.foldl)
    | refine Keeps.fst (by assumption) ?_
    | refine Keeps.snd (by assumption) ?_
    | split

theorem State.endEngines_keeps {s : State} {f q : Nat} (hs : Keeps ini s) :
    Keeps ini (State.endEngines s f q) := by
  unfold State.endEngines
  repeat' first
    | intro _ _ _
    | with_reducible assumption
    | with_reducible apply State.updTile_keeps
    | with_reducible apply State.dmaEndAll_keeps
    | with_reducible apply State.dgsEndAll_keeps
    | with_reducible apply State.disarmAll_keeps
    | simp only [Keeps.mk_iff]
    | with_reducible apply Keeps.other
    | (with_reducible apply Keeps.foldl)

theorem State.retireQuery_keeps {s : State} {f q : Nat} {x : Query} {status : Nat} (hs : Keeps ini s) :
    Keeps ini (State.retireQuery s f q x status) := by
  unfold State.retireQuery
  repeat' first
    | intro _ _ _
    | with_reducible assumption
    | with_reducible apply State.unplace_keeps
    | with_reducible apply State.updTenant_keeps
    | with_reducible apply State.workDone_keeps
    | simp only [Keeps.mk_iff]
    | with_reducible apply Keeps.other
    | (with_reducible apply Keeps.foldl)

theorem State.finishFailed_keeps {s : State} {f q : Nat} (hs : Keeps ini s) :
    Keeps ini (State.finishFailed s f q) := by
  unfold State.finishFailed
  repeat' first
    | with_reducible assumption
    | with_reducible apply State.retireQuery_keeps
    | with_reducible apply Keeps.ite
    | refine Keeps.fst (by assumption) ?_
    | refine Keeps.snd (by assumption) ?_
    | split

theorem State.failQuery_keeps {s : State} {f q status : Nat} (hs : Keeps ini s) :
    Keeps ini (State.failQuery s f q status) := by
  unfold State.failQuery
  repeat' first
    | with_reducible assumption
    | with_reducible apply State.updQuery_keeps
    | with_reducible apply State.dropTasks_keeps
    | with_reducible apply State.cancelCores_keeps
    | with_reducible apply State.endEngines_keeps
    | with_reducible apply State.closeXchgs_keeps
    | with_reducible apply State.finishFailed_keeps
    | simp only [Keeps.mk_iff]
    | with_reducible apply Keeps.other
    | with_reducible apply Keeps.ite
    | refine Keeps.fst (by assumption) ?_
    | refine Keeps.snd (by assumption) ?_
    | split

theorem State.failTask_keeps {s : State} {t status : Nat} (hs : Keeps ini s) :
    Keeps ini (State.failTask s t status) := by
  unfold State.failTask
  repeat' first
    | with_reducible assumption
    | with_reducible apply State.failQuery_keeps
    | refine Keeps.fst (by assumption) ?_
    | refine Keeps.snd (by assumption) ?_
    | split

theorem State.loseTask_keeps {s : State} {t : Nat} (hs : Keeps ini s) :
    Keeps ini (State.loseTask s t) := by
  unfold State.loseTask
  repeat' first
    | with_reducible assumption
    | with_reducible apply State.updTile_keeps
    | with_reducible apply State.freeTask_keeps
    | with_reducible apply State.releaseHold_keeps
    | with_reducible apply State.finishFailed_keeps
    | simp only [Keeps.mk_iff]
    | with_reducible apply Keeps.other
    | refine Keeps.fst (by assumption) ?_
    | refine Keeps.snd (by assumption) ?_
    | split

theorem State.resetTile_keeps {s : State} {t : Nat} (hs : Keeps ini s) :
    Keeps ini (State.resetTile s t) := by
  unfold State.resetTile
  repeat' first
    | with_reducible assumption
    | with_reducible apply State.updTile_keeps
    | with_reducible apply State.loseTask_keeps

end Sys2Proof.Machine
end

