-- ==== Sys2Proof/Laws/SegmentKeeps.lean ====
section
/-! SUPPORT. The operations of Machine/Segment.lean keep what Keeps names. -/

namespace Sys2Proof.Machine

variable {ini : State}

theorem State.logSegment_keeps {s : State} {owner ukind unit obj seg code : Nat} (hs : Keeps ini s) :
    Keeps ini (State.logSegment s owner ukind unit obj seg code) := by
  unfold State.logSegment
  repeat' first
    | with_reducible assumption
    | with_reducible apply State.log_keeps

end Sys2Proof.Machine
end

