-- ==== Sys2Proof/Laws/ColumnsKeeps.lean ====
section
/-! SUPPORT. The operations of Machine/Columns.lean keep what Keeps names. -/

namespace Sys2Proof.Machine

variable {ini : State}

theorem State.putObj_keeps {s : State} {f : Nat} {d : ObjDesc} (hs : Keeps ini s) :
    Keeps ini (State.putObj s f d) := by
  unfold State.putObj
  repeat' first
    | with_reducible assumption
    | with_reducible apply State.writeBytes_keeps

theorem State.openSeg_keeps {s : State} {f ukind unit : Nat} {d : ObjDesc} {seg : Nat} (hs : Keeps ini s) :
    Keeps ini (State.openSeg s f ukind unit d seg).1 := by
  unfold State.openSeg
  repeat' first
    | with_reducible assumption
    | with_reducible apply State.logSegment_keeps
    | with_reducible apply Keeps.ite
    | refine Keeps.fst (by assumption) ?_
    | refine Keeps.snd (by assumption) ?_
    | split
    | dsimp only

theorem State.publish_keeps {s : State} {f : Nat} {d : ObjDesc} {seg : Nat} {old : Option Nat} {ext : List Byte} (hs
    : Keeps ini s) :
    Keeps ini (State.publish s f d seg old ext).1 := by
  unfold State.publish
  repeat' first
    | with_reducible assumption
    | with_reducible refine State.place_keeps (by assumption) ?_
    | with_reducible apply State.writeBytes_keeps
    | with_reducible apply State.retire_keeps
    | with_reducible apply Keeps.ite
    | refine Keeps.fst (by assumption) ?_
    | refine Keeps.snd (by assumption) ?_
    | split
    | dsimp only

theorem State.writeAll_keeps {s : State} {f : Nat} {l : List (Nat × List Byte)} (hs : Keeps ini s) :
    Keeps ini (State.writeAll s f l) := by
  unfold State.writeAll
  repeat' first
    | intro _ _ _
    | with_reducible assumption
    | with_reducible apply State.writeBytes_keeps
    | (with_reducible apply Keeps.foldl)

theorem State.segChange_keeps {s : State} {f : Nat} {d : ObjDesc} {seg : Nat} {g : Seg} {append : Bool} {lo : Nat}
    {vals : List (Option Nat)} (hs : Keeps ini s) :
    Keeps ini (State.segChange s f d seg g append lo vals).1 := by
  unfold State.segChange
  repeat' first
    | intro _ _ _
    | with_reducible assumption
    | with_reducible apply State.publish_keeps
    | with_reducible refine State.take_keeps (by assumption) ?_
    | with_reducible apply State.writeAll_keeps
    | with_reducible apply State.writeBytes_keeps
    | simp only [Keeps.mk_iff]
    | with_reducible apply Keeps.other
    | with_reducible apply Keeps.foldl_fst
    | with_reducible apply Keeps.foldl_snd
    | with_reducible apply Keeps.ite
    | (with_reducible apply Keeps.foldl)
    | refine Keeps.fst (by assumption) ?_
    | refine Keeps.snd (by assumption) ?_
    | split

theorem State.appendChunk_keeps {s : State} {f ukind unit : Nat} {d : ObjDesc} {vals : List (Option Nat)}
    {creating : Bool} (hs : Keeps ini s) :
    Keeps ini (State.appendChunk s f ukind unit d vals creating).1 := by
  unfold State.appendChunk
  repeat' first
    | with_reducible assumption
    | with_reducible refine State.take_keeps (by assumption) ?_
    | with_reducible apply State.publish_keeps
    | with_reducible apply State.openSeg_keeps
    | with_reducible apply State.segChange_keeps
    | with_reducible apply State.putObj_keeps
    | simp only [Keeps.mk_iff]
    | with_reducible apply Keeps.other
    | with_reducible apply Keeps.ite
    | refine Keeps.fst (by assumption) ?_
    | refine Keeps.snd (by assumption) ?_
    | split

theorem State.writeChunk_keeps {s : State} {f ukind unit : Nat} {d : ObjDesc} {row : Nat} {vals : List (Option Nat)}
    (hs : Keeps ini s) :
    Keeps ini (State.writeChunk s f ukind unit d row vals).1 := by
  unfold State.writeChunk
  repeat' first
    | with_reducible assumption
    | with_reducible refine State.take_keeps (by assumption) ?_
    | with_reducible apply State.openSeg_keeps
    | with_reducible apply State.segChange_keeps
    | with_reducible apply Keeps.ite
    | refine Keeps.fst (by assumption) ?_
    | refine Keeps.snd (by assumption) ?_
    | split
    | dsimp only

theorem State.dropObj_keeps {s : State} {f k : Nat} (hs : Keeps ini s) :
    Keeps ini (State.dropObj s f k) := by
  unfold State.dropObj
  repeat' first
    | intro _ _ _
    | with_reducible assumption
    | with_reducible apply State.retire_keeps
    | with_reducible apply State.writeBytes_keeps
    | (with_reducible apply Keeps.foldl)
    | refine Keeps.fst (by assumption) ?_
    | refine Keeps.snd (by assumption) ?_
    | split

end Sys2Proof.Machine
end

