-- ==== Sys2Proof/Laws/BrambleKeeps.lean ====
section
/-! SUPPORT. The operations of Machine/Bramble.lean keep what Keeps names. -/

namespace Sys2Proof.Machine

variable {ini : State}

theorem State.updBrm_keeps {s : State} {a : Nat} {g : Bram → Bram} (hs : Keeps ini s) :
    Keeps ini (State.updBrm s a g) := by
  unfold State.updBrm
  repeat' first
    | with_reducible assumption
    | simp only [Keeps.mk_iff]
    | with_reducible apply Keeps.other

theorem State.brmCount_keeps {s : State} {a n : Nat} (hs : Keeps ini s) :
    Keeps ini (State.brmCount s a n) := by
  unfold State.brmCount
  repeat' first
    | with_reducible assumption
    | with_reducible apply State.updBrm_keeps

theorem State.brmCountTile_keeps {s : State} {t a : Nat} (hs : Keeps ini s) :
    Keeps ini (State.brmCountTile s t a) := by
  unfold State.brmCountTile
  repeat' first
    | with_reducible assumption
    | with_reducible apply State.updCore_keeps
    | with_reducible apply State.brmCount_keeps
    | simp only [Keeps.mk_iff]
    | with_reducible apply Keeps.other
    | with_reducible apply Keeps.ite

theorem State.brmFindRead_keeps {s : State} {t a : Nat} (hs : Keeps ini s) :
    Keeps ini (State.brmFindRead s t a).2 := by
  unfold State.brmFindRead
  repeat' first
    | with_reducible assumption
    | with_reducible apply State.brmCountTile_keeps
    | with_reducible apply Keeps.ite
    | refine Keeps.fst (by assumption) ?_
    | refine Keeps.snd (by assumption) ?_
    | split

theorem State.brmVecRead_keeps {s : State} {t a w : Nat} (hs : Keeps ini s) :
    Keeps ini (State.brmVecRead s t a w).2 := by
  unfold State.brmVecRead
  repeat' first
    | with_reducible assumption
    | with_reducible apply State.brmCountTile_keeps
    | with_reducible apply Keeps.ite
    | refine Keeps.fst (by assumption) ?_
    | refine Keeps.snd (by assumption) ?_
    | split

theorem execBrmFind_keeps {t a : Nat} {rd : BitVec 5} {s : State} {out : State} (e : execBrmFind t a rd s = .next
    out) (hs : Keeps ini s) :
    Keeps ini out := by
  unfold execBrmFind at e
  obtain rfl := Host.Outcome.next.inj e
  repeat' first
    | with_reducible assumption
    | with_reducible apply State.brmFindRead_keeps
    | with_reducible apply State.updCore_keeps

theorem execBrmVec_keeps {t a w : Nat} {rd : BitVec 5} {s : State} {out : State} (e : execBrmVec t a w rd s = .next
    out) (hs : Keeps ini s) :
    Keeps ini out := by
  unfold execBrmVec at e
  obtain rfl := Host.Outcome.next.inj e
  repeat' first
    | with_reducible assumption
    | with_reducible apply State.brmVecRead_keeps
    | with_reducible apply State.updCore_keeps

theorem State.brmFinish_keeps {s : State} {a : Nat} {j : BrmJob} {code done hits : Nat} (hs : Keeps ini s) :
    Keeps ini (State.brmFinish s a j code done hits) := by
  unfold State.brmFinish
  repeat' first
    | with_reducible assumption
    | with_reducible apply State.writeBytes_keeps
    | with_reducible apply State.pulse_keeps
    | with_reducible apply State.updBrm_keeps
    | simp only [Keeps.mk_iff]
    | with_reducible apply Keeps.other
    | with_reducible apply Keeps.ite

theorem State.brmRun_keeps {s : State} {a : Nat} {j : BrmJob} {early : Option Nat} (hs : Keeps ini s) :
    Keeps ini (State.brmRun s a j early) := by
  unfold State.brmRun
  repeat' first
    | with_reducible assumption
    | with_reducible apply State.freeUpTo_keeps
    | with_reducible apply State.writeBytes_keeps
    | with_reducible apply State.brmCount_keeps
    | with_reducible apply State.brmFinish_keeps
    | with_reducible apply Keeps.ite
    | refine Keeps.fst (by assumption) ?_
    | refine Keeps.snd (by assumption) ?_
    | split

theorem execBrmSubmit_keeps {t : Nat} {v : BitVec 64} {s : State} {out : State} (e : execBrmSubmit t v s = .next out)
    (hs : Keeps ini s) :
    Keeps ini out := by
  unfold execBrmSubmit at e
  obtain rfl := Host.Outcome.next.inj e
  repeat' first
    | with_reducible assumption
    | with_reducible apply State.updTile_keeps
    | with_reducible apply State.brmFinish_keeps
    | with_reducible apply State.updBrm_keeps
    | simp only [Keeps.mk_iff]
    | with_reducible apply Keeps.other
    | with_reducible apply Keeps.ite
    | refine Keeps.fst (by assumption) ?_
    | refine Keeps.snd (by assumption) ?_
    | split

theorem execBrmJobStart_keeps {a : Nat} {s : State} {out : State} (e : execBrmJobStart a s = .next out) (hs : Keeps
    ini s) :
    Keeps ini out := by
  unfold execBrmJobStart at e
  obtain rfl := Host.Outcome.next.inj e
  repeat' first
    | with_reducible assumption
    | with_reducible apply State.updBrm_keeps
    | with_reducible apply State.brmFinish_keeps
    | simp only [Keeps.mk_iff]
    | with_reducible apply Keeps.other
    | with_reducible apply Keeps.ite
    | refine Keeps.fst (by assumption) ?_
    | refine Keeps.snd (by assumption) ?_
    | split

theorem execBrmJobEnd_keeps {a : Nat} {s : State} {out : State} (e : execBrmJobEnd a s = .next out) (hs : Keeps ini
    s) :
    Keeps ini out := by
  unfold execBrmJobEnd at e
  obtain rfl := Host.Outcome.next.inj e
  repeat' first
    | with_reducible assumption
    | with_reducible apply State.brmRun_keeps
    | refine Keeps.fst (by assumption) ?_
    | refine Keeps.snd (by assumption) ?_
    | split

theorem State.brmDropFunc_keeps {s : State} {f : Nat} (hs : Keeps ini s) :
    Keeps ini (State.brmDropFunc s f) := by
  unfold State.brmDropFunc
  repeat' first
    | intro _ _ _
    | with_reducible assumption
    | with_reducible apply State.pulse_keeps
    | with_reducible apply State.updBrm_keeps
    | simp only [Keeps.mk_iff]
    | with_reducible apply Keeps.other
    | refine Keeps.foldl_bind (by assumption) ?_ ?_
    | with_reducible apply Keeps.ite
    | (with_reducible apply Keeps.foldl)

theorem State.brmEndAll_keeps {s : State} {code : Nat} (hs : Keeps ini s) :
    Keeps ini (State.brmEndAll s code) := by
  unfold State.brmEndAll
  repeat' first
    | intro _ _ _
    | with_reducible assumption
    | with_reducible apply State.brmRun_keeps
    | with_reducible apply State.brmFinish_keeps
    | with_reducible apply State.updBrm_keeps
    | simp only [Keeps.mk_iff]
    | with_reducible apply Keeps.other
    | (with_reducible apply Keeps.foldl)
    | refine Keeps.fst (by assumption) ?_
    | refine Keeps.snd (by assumption) ?_
    | split

theorem State.brmLoad_keeps {s : State} {a : Nat} {ops : List BrmOp} (hs : Keeps ini s) :
    Keeps ini (State.brmLoad s a ops) := by
  unfold State.brmLoad
  repeat' first
    | with_reducible assumption
    | with_reducible apply State.updBrm_keeps

theorem State.brmClear_keeps {s : State} {f : Nat} (hs : Keeps ini s) :
    Keeps ini (State.brmClear s f) := by
  unfold State.brmClear
  repeat' first
    | with_reducible assumption
    | simp only [Keeps.mk_iff]
    | with_reducible apply Keeps.other

theorem execBramblePowerEval_keeps {a : Nat} {s : State} {out : State} (e : execBramblePowerEval a s = .next out) (hs
    : Keeps ini s) :
    Keeps ini out := by
  unfold execBramblePowerEval at e
  obtain rfl := Host.Outcome.next.inj e
  repeat' first
    | with_reducible assumption
    | with_reducible apply State.updBrm_keeps

end Sys2Proof.Machine
end

