-- ==== Sys2Proof/Laws/CompressionKeeps.lean ====
section
/-! SUPPORT. The operations of Machine/Compression.lean keep what Keeps names. -/

namespace Sys2Proof.Machine

variable {ini : State}

theorem State.updCmp_keeps {s : State} {c : Nat} {g : CmpChan → CmpChan} (hs : Keeps ini s) :
    Keeps ini (State.updCmp s c g) := by
  unfold State.updCmp
  repeat' first
    | with_reducible assumption
    | simp only [Keeps.mk_iff]
    | with_reducible apply Keeps.other

theorem State.chainWrite_keeps {s : State} {f : Nat} {a1 : List (Nat × Nat × Bool)} {a2 : Nat} {a3 : List Byte} (hs :
    Keeps ini s) :
    Keeps ini (State.chainWrite s f a1 a2 a3) := by
  induction a1 generalizing s f a2 a3 with
  | nil =>
    unfold State.chainWrite
    repeat' first
      | with_reducible assumption
  | cons x r ih =>
    unfold State.chainWrite
    repeat' first
      | with_reducible assumption
      | with_reducible apply ih
      | with_reducible apply State.writeBytes_keeps

theorem State.cmpFinish_keeps {s : State} {c : Nat} {j : CmpJob} {d : CmpDesc} {r : CmpResult}
    {idx consumed ucrc : Nat} (hs : Keeps ini s) :
    Keeps ini (State.cmpFinish s c j d r idx consumed ucrc) := by
  unfold State.cmpFinish
  repeat' first
    | with_reducible assumption
    | with_reducible apply State.writeBytes_keeps
    | with_reducible apply State.pulse_keeps
    | with_reducible apply State.updCmp_keeps
    | with_reducible apply State.workDone_keeps
    | simp only [Keeps.mk_iff]
    | with_reducible apply Keeps.other
    | with_reducible apply Keeps.ite
    | refine Keeps.fst (by assumption) ?_
    | refine Keeps.snd (by assumption) ?_
    | split

theorem State.cmpExecute_keeps {s : State} {j : CmpJob} {early : Option (Nat × Nat)} (hs : Keeps ini s) :
    Keeps ini (State.cmpExecute s j early).1 := by
  unfold State.cmpExecute
  repeat' first
    | intro _ _ _
    | with_reducible assumption
    | with_reducible apply State.resume_keeps
    | with_reducible apply State.freeBytes_keeps
    | with_reducible apply State.writeBytes_keeps
    | with_reducible apply State.chainWrite_keeps
    | with_reducible apply State.freeUpTo_keeps
    | simp only [Keeps.mk_iff]
    | with_reducible apply Keeps.other
    | with_reducible apply Keeps.ite
    | (with_reducible apply Keeps.foldl)
    | refine Keeps.fst (by assumption) ?_
    | refine Keeps.snd (by assumption) ?_
    | split

theorem State.cmpEnd_keeps {s : State} {c : Nat} {j : CmpJob} {early : Option (Nat × Nat)} (hs : Keeps ini s) :
    Keeps ini (State.cmpEnd s c j early).1 := by
  unfold State.cmpEnd
  repeat' first
    | with_reducible assumption
    | with_reducible apply State.cmpExecute_keeps
    | with_reducible apply State.cmpFinish_keeps

theorem State.cmpRefuse_keeps {s : State} {c : Nat} {j : CmpJob} {code : Nat} (hs : Keeps ini s) :
    Keeps ini (State.cmpRefuse s c j code) := by
  unfold State.cmpRefuse
  repeat' first
    | with_reducible assumption
    | with_reducible apply State.cmpFinish_keeps

theorem State.cmpPush_keeps {s : State} {c : Nat} {j : CmpJob} (hs : Keeps ini s) :
    Keeps ini (State.cmpPush s c j).1 := by
  unfold State.cmpPush
  repeat' first
    | with_reducible assumption
    | with_reducible apply State.cmpRefuse_keeps
    | with_reducible apply State.updCmp_keeps
    | simp only [Keeps.mk_iff]
    | with_reducible apply Keeps.other
    | with_reducible apply Keeps.ite
    | split

theorem State.cmpDropFunc_keeps {s : State} {f : Nat} (hs : Keeps ini s) :
    Keeps ini (State.cmpDropFunc s f) := by
  unfold State.cmpDropFunc
  repeat' first
    | intro _ _ _
    | with_reducible assumption
    | with_reducible apply State.pulse_keeps
    | with_reducible apply State.updCmp_keeps
    | simp only [Keeps.mk_iff]
    | with_reducible apply Keeps.other
    | refine Keeps.foldl_bind (by assumption) ?_ ?_
    | with_reducible apply Keeps.ite
    | (with_reducible apply Keeps.foldl)

theorem State.cmpEndAll_keeps {s : State} {code : Nat} {sel : CmpJob → Bool} (hs : Keeps ini s) :
    Keeps ini (State.cmpEndAll s code sel) := by
  unfold State.cmpEndAll
  repeat' first
    | intro _ _ _
    | with_reducible assumption
    | with_reducible apply State.freeUpTo_keeps
    | with_reducible apply State.cmpEnd_keeps
    | with_reducible apply State.updCmp_keeps
    | with_reducible apply State.cmpRefuse_keeps
    | simp only [Keeps.mk_iff]
    | with_reducible apply Keeps.other
    | with_reducible apply Keeps.ite
    | (with_reducible apply Keeps.foldl)
    | refine Keeps.fst (by assumption) ?_
    | refine Keeps.snd (by assumption) ?_
    | split

theorem execCmpSubmit_keeps {t : Nat} {v : BitVec 64} {s : State} {out : State} (e : execCmpSubmit t v s = .next out)
    (hs : Keeps ini s) :
    Keeps ini out := by
  unfold execCmpSubmit at e
  obtain rfl := Host.Outcome.next.inj e
  repeat' first
    | with_reducible assumption
    | with_reducible apply State.cmpPush_keeps
    | with_reducible apply State.updTile_keeps
    | simp only [Keeps.mk_iff]
    | with_reducible apply Keeps.other
    | refine Keeps.fst (by assumption) ?_
    | refine Keeps.snd (by assumption) ?_
    | split

theorem State.cmpAbortQueued_keeps {s : State} {c : Nat} {j : CmpJob} {run : Option CmpJob} (hs : Keeps ini s) :
    Keeps ini (State.cmpAbortQueued s c j run) := by
  unfold State.cmpAbortQueued
  repeat' first
    | with_reducible assumption
    | with_reducible apply State.cmpRefuse_keeps
    | with_reducible apply State.updCmp_keeps

theorem execCmpAbort_keeps {t : Nat} {v : BitVec 64} {s : State} {out : State} (e : execCmpAbort t v s = .next out)
    (hs : Keeps ini s) :
    Keeps ini out := by
  unfold execCmpAbort at e
  obtain rfl := Host.Outcome.next.inj e
  repeat' first
    | with_reducible assumption
    | with_reducible apply State.freeUpTo_keeps
    | with_reducible apply State.cmpEnd_keeps
    | with_reducible apply State.updCmp_keeps
    | with_reducible apply State.cmpAbortQueued_keeps
    | simp only [Keeps.mk_iff]
    | with_reducible apply Keeps.other
    | with_reducible apply Keeps.ite
    | refine Keeps.fst (by assumption) ?_
    | refine Keeps.snd (by assumption) ?_
    | split

theorem execCmpJobStart_keeps {c : Nat} {s : State} {out : State} (e : execCmpJobStart c s = .next out) (hs : Keeps
    ini s) :
    Keeps ini out := by
  unfold execCmpJobStart at e
  obtain rfl := Host.Outcome.next.inj e
  repeat' first
    | with_reducible assumption
    | with_reducible apply State.updCmp_keeps
    | with_reducible apply State.cmpRefuse_keeps
    | simp only [Keeps.mk_iff]
    | with_reducible apply Keeps.other
    | with_reducible apply Keeps.ite
    | refine Keeps.fst (by assumption) ?_
    | refine Keeps.snd (by assumption) ?_
    | split

theorem execCmpJobEnd_keeps {c : Nat} {s : State} {out : State} (e : execCmpJobEnd c s = .next out) (hs : Keeps ini
    s) :
    Keeps ini out := by
  unfold execCmpJobEnd at e
  obtain rfl := Host.Outcome.next.inj e
  repeat' first
    | with_reducible assumption
    | with_reducible apply State.cmpEnd_keeps
    | refine Keeps.fst (by assumption) ?_
    | refine Keeps.snd (by assumption) ?_
    | split

theorem execCmpAssign_keeps {c : Nat} {v : BitVec 64} {s : State} {out : State} (e : execCmpAssign c v s = .next out)
    (hs : Keeps ini s) :
    Keeps ini out := by
  unfold execCmpAssign at e
  obtain rfl := Host.Outcome.next.inj e
  repeat' first
    | with_reducible assumption
    | with_reducible apply State.updCmp_keeps

end Sys2Proof.Machine
end

