-- ==== Sys2Proof/Laws/ParityKeeps.lean ====
section
/-! SUPPORT. The operations of Machine/Parity.lean keep what Keeps names. -/

namespace Sys2Proof.Machine

variable {ini : State}

theorem State.parityClean_keeps {s : State} {t k : Nat} {l : DLine} (hs : Keeps ini s) :
    Keeps ini (State.parityClean s t k l) := by
  unfold State.parityClean
  repeat' first
    | with_reducible assumption
    | with_reducible apply State.updL1_keeps
    | with_reducible apply State.wbNow_keeps
    | simp only [Keeps.mk_iff]
    | with_reducible apply Keeps.other
    | with_reducible apply Keeps.ite

theorem State.blotHeld_keeps {s : State} {t : Nat} (hs : Keeps ini s) :
    Keeps ini (State.blotHeld s t) := by
  unfold State.blotHeld
  repeat' first
    | intro _ _ _
    | with_reducible assumption
    | with_reducible apply State.markBlot_keeps
    | with_reducible apply State.updDir_keeps
    | simp only [Keeps.mk_iff]
    | with_reducible apply Keeps.other
    | with_reducible apply Keeps.foldl_fst
    | with_reducible apply Keeps.foldl_snd
    | with_reducible apply Keeps.ite
    | (with_reducible apply Keeps.foldl)

theorem State.parityFatal_keeps {s : State} {t k : Nat} {l : DLine} (hs : Keeps ini s) :
    Keeps ini (State.parityFatal s t k l) := by
  unfold State.parityFatal
  repeat' first
    | intro _ _ _
    | with_reducible assumption
    | with_reducible apply State.failTask_keeps
    | with_reducible apply State.updL1_keeps
    | with_reducible apply State.wbNow_keeps
    | with_reducible apply State.resetTile_keeps
    | with_reducible apply State.log_keeps
    | with_reducible apply State.blotHeld_keeps
    | simp only [Keeps.mk_iff]
    | with_reducible apply Keeps.other
    | with_reducible apply Keeps.foldl_fst
    | with_reducible apply Keeps.foldl_snd
    | with_reducible apply Keeps.ite
    | (with_reducible apply Keeps.foldl)

theorem State.parityScan_keeps {s : State} {t : Nat} {sel : Nat → DLine → Option (BitVec 8)} (hs : Keeps ini s) :
    Keeps ini (State.parityScan s t sel).1 := by
  unfold State.parityScan
  repeat' first
    | intro _ _ _
    | with_reducible assumption
    | with_reducible apply State.parityFatal_keeps
    | with_reducible apply State.parityClean_keeps
    | with_reducible apply Keeps.foldl_fst
    | with_reducible apply Keeps.foldl_snd
    | (with_reducible apply Keeps.foldl)
    | refine Keeps.fst (by assumption) ?_
    | refine Keeps.snd (by assumption) ?_
    | split
    | dsimp only

theorem State.parityWalkI_keeps {s : State} {t : Nat} (hs : Keeps ini s) :
    Keeps ini (State.parityWalkI s t) := by
  unfold State.parityWalkI
  repeat' first
    | with_reducible assumption
    | with_reducible apply State.updL1_keeps

theorem State.writeL1ctlChecked_keeps {s : State} {t : Nat} {v : BitVec 32} (hs : Keeps ini s) :
    Keeps ini (State.writeL1ctlChecked s t v).1 := by
  unfold State.writeL1ctlChecked
  repeat' first
    | with_reducible assumption
    | with_reducible apply State.parityScan_keeps
    | with_reducible apply State.parityWalkI_keeps
    | with_reducible apply State.writeL1ctl_keeps
    | with_reducible apply Keeps.ite
    | split
    | dsimp only

end Sys2Proof.Machine
end

