-- ==== Sys2Proof/Laws/QuillKeeps.lean ====
section
/-! SUPPORT. The operations of Machine/Quill.lean keep what Keeps names. -/

namespace Sys2Proof.Machine

variable {ini : State}

theorem State.heldFault_keeps {s : State} {t : Nat} {e : Exc} {f : HeldFault} (hs : Keeps ini s) :
    Keeps ini (State.heldFault s t e f) := by
  unfold State.heldFault
  repeat' first
    | with_reducible assumption
    | with_reducible apply State.updTile_keeps
    | with_reducible apply State.failTask_keeps
    | simp only [Keeps.mk_iff]
    | with_reducible apply Keeps.other
    | with_reducible apply Keeps.ite
    | refine Keeps.fst (by assumption) ?_
    | refine Keeps.snd (by assumption) ?_
    | split

theorem State.raise_keeps {s : State} {t : Nat} {e : Exc} {addr : Word} {acc : Access} {vec : Bool}
    {elem : Option Nat} {svc : BitVec 12} (hs : Keeps ini s) :
    Keeps ini (State.raise s t e addr acc vec elem svc) := by
  unfold State.raise
  repeat' first
    | with_reducible assumption
    | with_reducible apply State.failTask_keeps
    | with_reducible apply State.resetTile_keeps
    | with_reducible apply State.log_keeps
    | with_reducible apply State.heldFault_keeps
    | with_reducible apply State.updCore_keeps
    | simp only [Keeps.mk_iff]
    | with_reducible apply Keeps.other
    | with_reducible apply Keeps.ite

theorem State.fetch_keeps {s : State} {t : Nat} (hs : Keeps ini s) :
    Keeps ini (State.fetch s t).2 := by
  unfold State.fetch
  repeat' first
    | with_reducible assumption
    | with_reducible apply State.updL1_keeps
    | simp only [Keeps.mk_iff]
    | with_reducible apply Keeps.other
    | with_reducible apply Keeps.ite
    | refine Keeps.fst (by assumption) ?_
    | refine Keeps.snd (by assumption) ?_
    | split

/-- The state that an instruction's effect starts from. -/
def Eff.state : Eff → State
  | .done s => s
  | .branch s _ _ _ => s
  | .exc s _ _ _ _ => s
  | .call s _ => s
  | .block s => s
  | .goto s => s

theorem Eff.done_keeps {s : State} (h : Keeps ini s) : Keeps ini (Eff.done s).state := h

theorem Eff.branch_keeps {s : State} {taken annul : Bool} {target : Word} (h : Keeps ini s) :
    Keeps ini (Eff.branch s taken annul target).state := h

theorem Eff.exc_keeps {s : State} {e : Exc} {addr : Word} {acc : Access} {elem : Option Nat} (h : Keeps ini s) :
    Keeps ini (Eff.exc s e addr acc elem).state := h

theorem Eff.call_keeps {s : State} {svc : BitVec 12} (h : Keeps ini s) : Keeps ini (Eff.call s svc).state := h

theorem Eff.block_keeps {s : State} (h : Keeps ini s) : Keeps ini (Eff.block s).state := h

theorem Eff.goto_keeps {s : State} (h : Keeps ini s) : Keeps ini (Eff.goto s).state := h

theorem finishInstr_keeps {t : Nat} {vec : Bool} {e : Eff} (hs : Keeps ini e.state) : Keeps ini (finishInstr t vec e) := by
  cases e <;> unfold finishInstr <;> repeat' first
    | with_reducible assumption
    | with_reducible apply State.updCore_keeps
    | with_reducible apply State.raise_keeps
    | exact hs

theorem State.runInstr_keeps {s : State} {t : Nat} {wellFormed ctl vec : Bool} {body : Core → State → Eff} (hs : Keeps ini s)
    (hb : ∀ c s1, Keeps ini s1 → Keeps ini (body c s1).state) : Keeps ini (State.runInstr s t wellFormed ctl vec body) := by
  have hf : Keeps ini (s.fetch t).2 := State.fetch_keeps hs
  unfold State.runInstr
  repeat' first
    | with_reducible assumption
    | with_reducible apply State.raise_keeps
    | with_reducible apply finishInstr_keeps
    | with_reducible apply hb
    | refine Keeps.snd (by assumption) ?_
    | split

theorem State.alu_keeps {s : State} {t : Nat} {wellFormed : Bool} {rd : Reg} {v : Core → Word} (hs : Keeps ini s) :
    Keeps ini (State.alu s t wellFormed rd v) := by
  unfold State.alu
  repeat' first
    | intro _ _ _
    | with_reducible assumption
    | with_reducible apply State.runInstr_keeps
    | with_reducible apply State.updCore_keeps
    | with_reducible with_reducible apply Eff.done_keeps

theorem State.clearPred_keeps {s : State} {t : Nat} (hs : Keeps ini s) :
    Keeps ini (State.clearPred s t) := by
  unfold State.clearPred
  repeat' first
    | with_reducible assumption
    | with_reducible apply State.updCore_keeps

theorem State.crRead_keeps {s : State} {t n : Nat} {out : State} {r} (e : State.crRead s t n = some (r, out)) (hs :
    Keeps ini s) :
    Keeps ini out := by
  unfold State.crRead at e
  repeat' first
    | with_reducible assumption
    | cases e
    | split at e
    | dsimp only at e
    | with_reducible apply State.free_keeps
    | with_reducible apply State.updCore_keeps
    | simp only [Keeps.mk_iff]
    | with_reducible apply Keeps.other
    | with_reducible apply Keeps.ite
    | refine Keeps.fst (by assumption) ?_
    | refine Keeps.snd (by assumption) ?_
    | split
    | with_reducible apply Kept.draw

theorem State.crWrite_keeps {s : State} {t n : Nat} {v : Word} (hs : Keeps ini s) :
    Keeps ini (State.crWrite s t n v) := by
  unfold State.crWrite
  repeat' first
    | with_reducible assumption
    | with_reducible apply State.updCore_keeps
    | with_reducible apply State.updL1_keeps
    | with_reducible apply State.clearPred_keeps
    | with_reducible apply State.writeL1ctlChecked_keeps
    | simp only [Keeps.mk_iff]
    | with_reducible apply Keeps.other
    | with_reducible apply Keeps.ite
    | refine Keeps.fst (by assumption) ?_
    | refine Keeps.snd (by assumption) ?_
    | split

theorem State.mfcr_keeps {s : State} {t : Nat} {c : Core} {rd : Reg} {n : Nat} (hs : Keeps ini s) :
    Keeps ini (State.mfcr s t c rd n).state := by
  unfold State.mfcr
  repeat' first
    | with_reducible assumption
    | with_reducible apply State.fetch_keeps
    | with_reducible refine State.crRead_keeps (by assumption) ?_
    | with_reducible apply State.updCore_keeps
    | with_reducible with_reducible apply Eff.done_keeps
    | with_reducible with_reducible apply Eff.exc_keeps
    | with_reducible apply Keeps.ite
    | refine Keeps.fst (by assumption) ?_
    | refine Keeps.snd (by assumption) ?_
    | split

theorem State.crModify_keeps {s : State} {t : Nat} {c : Core} {rd : Option Reg} {n : Nat} {f : Word → Word} (hs :
    Keeps ini s) :
    Keeps ini (State.crModify s t c rd n f).state := by
  unfold State.crModify
  repeat' first
    | with_reducible assumption
    | with_reducible apply State.fetch_keeps
    | with_reducible refine State.crRead_keeps (by assumption) ?_
    | with_reducible apply State.writeL1ctlChecked_keeps
    | with_reducible apply State.crWrite_keeps
    | with_reducible apply State.updCore_keeps
    | with_reducible with_reducible apply Eff.done_keeps
    | with_reducible with_reducible apply Eff.exc_keeps
    | with_reducible with_reducible apply Eff.block_keeps
    | with_reducible apply Keeps.ite
    | refine Keeps.fst (by assumption) ?_
    | refine Keeps.snd (by assumption) ?_
    | split

end Sys2Proof.Machine
end

