-- ==== Sys2Proof/Laws/QuillWordKeeps.lean ====
section
/-! SUPPORT. The operations of Machine/QuillWord.lean keep what Keeps names. -/

namespace Sys2Proof.Machine

variable {ini : State}

theorem execIllegal_keeps {t : Nat} {w : BitVec 32} {s : State} {out : State} (e : execIllegal t w s = .next out) (hs
    : Keeps ini s) :
    Keeps ini out := by
  unfold execIllegal at e
  obtain rfl := Host.Outcome.next.inj e
  repeat' first
    | intro _ _ _
    | with_reducible assumption
    | with_reducible apply State.runInstr_keeps
    | with_reducible with_reducible apply Eff.done_keeps
    | with_reducible apply Keeps.ite

end Sys2Proof.Machine
end

