-- ==== Sys2Proof/Laws/PlanKeeps.lean ====
section
/-! SUPPORT. The operations of Machine/Plan.lean keep what Keeps names. -/

namespace Sys2Proof.Machine

variable {ini : State}

theorem State.placeFor_keeps {s : State} {f q n k : Nat} {out : State} {r} (e : State.placeFor s f q n k = some (r,
    out)) (hs : Keeps ini s) :
    Keeps ini out := by
  unfold State.placeFor at e
  repeat' first
    | with_reducible assumption
    | simp only [Option.map_eq_some_iff] at e
    | (obtain ⟨_, _, e⟩ := e)
    | cases e
    | split at e
    | dsimp only at e
    | with_reducible refine State.place_keeps (by assumption) ?_
    | with_reducible apply State.updQuery_keeps

theorem State.unplaceFor_keeps {s : State} {f q a : Nat} (hs : Keeps ini s) :
    Keeps ini (State.unplaceFor s f q a) := by
  unfold State.unplaceFor
  repeat' first
    | with_reducible assumption
    | with_reducible apply State.unplace_keeps
    | with_reducible apply State.updQuery_keeps

theorem State.updBrk_keeps {s : State} {f q i : Nat} {g : Breaker → Breaker} (hs : Keeps ini s) :
    Keeps ini (State.updBrk s f q i g) := by
  unfold State.updBrk
  repeat' first
    | with_reducible assumption
    | with_reducible apply State.updQuery_keeps

theorem solidVals_drawn {k : Nat} {v : List (Option Word)} : k ≤ (solidVals k v).2 := by
  induction v generalizing k with
  | nil => exact le_rfl
  | cons x r ih =>
    cases x with
    | none => exact (Nat.le_succ k).trans ih
    | some w => exact ih (k := k)

theorem State.solid_keeps {s : State} {l : List (List (Option Word))} (hs : Keeps ini s) : Keeps ini (State.solid s l).2 := by
  induction l generalizing s with
  | nil => exact hs
  | cons x r ih => exact ih (hs.setDrawn solidVals_drawn)

end Sys2Proof.Machine
end

