-- ==== Sys2Proof/Laws/ExchangeKeeps.lean ====
section
/-! SUPPORT. The operations of Machine/Exchange.lean keep what Keeps names. -/

namespace Sys2Proof.Machine

variable {ini : State}

theorem State.openXchg_keeps {s : State} {f q p op : Nat} {out : State} (e : State.openXchg s f q p op = .inr out)
    (hs : Keeps ini s) :
    Keeps ini out := by
  unfold State.openXchg at e
  repeat' first
    | with_reducible assumption
    | simp only [Option.map_eq_some_iff] at e
    | (obtain ⟨_, _, e⟩ := e)
    | cases e
    | split at e
    | dsimp only at e
    | simp only [Keeps.mk_iff]
    | with_reducible apply Keeps.other

theorem State.updXchg_keeps {s : State} {id : Nat} {g : Xchg → Xchg} (hs : Keeps ini s) :
    Keeps ini (State.updXchg s id g) := by
  unfold State.updXchg
  repeat' first
    | with_reducible assumption
    | simp only [Keeps.mk_iff]
    | with_reducible apply Keeps.other

theorem State.updRound_keeps {s : State} {id r : Nat} {g : Round → Round} (hs : Keeps ini s) :
    Keeps ini (State.updRound s id r g) := by
  unfold State.updRound
  repeat' first
    | with_reducible assumption
    | with_reducible apply State.updXchg_keeps

theorem State.sliceDir_keeps {s : State} {x : Xchg} {r src at_ len rows : Nat} (hs : Keeps ini s) :
    Keeps ini (State.sliceDir s x r src at_ len rows) := by
  unfold State.sliceDir
  repeat' first
    | with_reducible assumption
    | with_reducible apply State.writeBytes_keeps

theorem State.sendPip_keeps {s : State} {f : Nat} {desc : Option Nat} {port : Nat} {value : Word} (hs : Keeps ini s)
    :
    Keeps ini (State.sendPip s f desc port value) := by
  unfold State.sendPip
  repeat' first
    | with_reducible assumption
    | simp only [Keeps.mk_iff]
    | with_reducible apply Keeps.other
    | refine Keeps.fst (by assumption) ?_
    | refine Keeps.snd (by assumption) ?_
    | split

theorem State.roundCheck_keeps {s : State} {id r : Nat} (hs : Keeps ini s) :
    Keeps ini (State.roundCheck s id r) := by
  unfold State.roundCheck
  repeat' first
    | with_reducible assumption
    | with_reducible apply State.updRound_keeps
    | with_reducible apply State.sendPip_keeps
    | simp only [Keeps.mk_iff]
    | with_reducible apply Keeps.other
    | with_reducible apply Keeps.ite
    | refine Keeps.fst (by assumption) ?_
    | refine Keeps.snd (by assumption) ?_
    | split

theorem State.ownSlice_keeps {s : State} {id : Nat} {x : Xchg} {r : Nat} {b : List Byte} {out : State} (e :
    State.ownSlice s id x r b = some out) (hs : Keeps ini s) :
    Keeps ini out := by
  unfold State.ownSlice at e
  repeat' first
    | with_reducible assumption
    | simp only [Option.map_eq_some_iff] at e
    | (obtain ⟨_, _, e⟩ := e)
    | cases e
    | split at e
    | dsimp only at e
    | with_reducible apply State.writeBytes_keeps
    | with_reducible apply State.sliceDir_keeps
    | with_reducible apply State.updRound_keeps

theorem State.roundTry_keeps {s : State} {id r : Nat} (hs : Keeps ini s) :
    Keeps ini (State.roundTry s id r) := by
  unfold State.roundTry
  repeat' first
    | intro _ _ _
    | with_reducible assumption
    | with_reducible apply State.updXchg_keeps
    | with_reducible refine State.ownSlice_keeps (by assumption) ?_
    | with_reducible apply State.failQuery_keeps
    | with_reducible apply State.forward_keeps
    | with_reducible apply State.roundCheck_keeps
    | simp only [Keeps.mk_iff]
    | with_reducible apply Keeps.other
    | with_reducible apply Keeps.ite
    | (with_reducible apply Keeps.foldl)
    | refine Keeps.fst (by assumption) ?_
    | refine Keeps.snd (by assumption) ?_
    | split

theorem State.launchRound_keeps {s : State} {id r : Nat} (hs : Keeps ini s) :
    Keeps ini (State.launchRound s id r) := by
  unfold State.launchRound
  repeat' first
    | with_reducible assumption
    | with_reducible apply State.updRound_keeps
    | with_reducible apply State.roundTry_keeps

theorem State.roundsTry_keeps {s : State} {id : Nat} (hs : Keeps ini s) :
    Keeps ini (State.roundsTry s id) := by
  unfold State.roundsTry
  repeat' first
    | intro _ _ _
    | with_reducible assumption
    | with_reducible apply State.roundTry_keeps
    | (with_reducible apply Keeps.foldl)
    | refine Keeps.fst (by assumption) ?_
    | refine Keeps.snd (by assumption) ?_
    | split

end Sys2Proof.Machine
end

