-- ==== Sys2Proof/Laws/QuillIntKeeps.lean ====
section
/-! SUPPORT. The operations of Machine/QuillInt.lean keep what Keeps names. -/

namespace Sys2Proof.Machine

variable {ini : State}

theorem State.divide_keeps {s : State} {t : Nat} {rd ra rb : Reg} {f : Word → Word → Word} (hs : Keeps ini s) :
    Keeps ini (State.divide s t rd ra rb f) := by
  unfold State.divide
  repeat' first
    | intro _ _ _
    | with_reducible assumption
    | with_reducible apply State.runInstr_keeps
    | with_reducible apply State.fetch_keeps
    | with_reducible apply State.updCore_keeps
    | with_reducible with_reducible apply Eff.done_keeps
    | with_reducible with_reducible apply Eff.exc_keeps
    | with_reducible apply Keeps.ite
    | split

theorem State.condBranch_keeps {s : State} {t : Nat} {annul : Bool} {ra : Reg} {disp : BitVec 20} {p : Word → Bool}
    (hs : Keeps ini s) :
    Keeps ini (State.condBranch s t annul ra disp p) := by
  unfold State.condBranch
  repeat' first
    | intro _ _ _
    | with_reducible assumption
    | with_reducible apply State.runInstr_keeps
    | with_reducible with_reducible apply Eff.branch_keeps

theorem execAdd_keeps {t : Nat} {rd ra rb : Reg} {s : State} {out : State} (e : execAdd t rd ra rb s = .next out) (hs
    : Keeps ini s) :
    Keeps ini out := by
  unfold execAdd at e
  obtain rfl := Host.Outcome.next.inj e
  repeat' first
    | with_reducible assumption
    | with_reducible apply State.alu_keeps

theorem execSub_keeps {t : Nat} {rd ra rb : Reg} {s : State} {out : State} (e : execSub t rd ra rb s = .next out) (hs
    : Keeps ini s) :
    Keeps ini out := by
  unfold execSub at e
  obtain rfl := Host.Outcome.next.inj e
  repeat' first
    | with_reducible assumption
    | with_reducible apply State.alu_keeps

theorem execAnd_keeps {t : Nat} {rd ra rb : Reg} {s : State} {out : State} (e : execAnd t rd ra rb s = .next out) (hs
    : Keeps ini s) :
    Keeps ini out := by
  unfold execAnd at e
  obtain rfl := Host.Outcome.next.inj e
  repeat' first
    | with_reducible assumption
    | with_reducible apply State.alu_keeps

theorem execOr_keeps {t : Nat} {rd ra rb : Reg} {s : State} {out : State} (e : execOr t rd ra rb s = .next out) (hs :
    Keeps ini s) :
    Keeps ini out := by
  unfold execOr at e
  obtain rfl := Host.Outcome.next.inj e
  repeat' first
    | with_reducible assumption
    | with_reducible apply State.alu_keeps

theorem execXor_keeps {t : Nat} {rd ra rb : Reg} {s : State} {out : State} (e : execXor t rd ra rb s = .next out) (hs
    : Keeps ini s) :
    Keeps ini out := by
  unfold execXor at e
  obtain rfl := Host.Outcome.next.inj e
  repeat' first
    | with_reducible assumption
    | with_reducible apply State.alu_keeps

theorem execSll_keeps {t : Nat} {rd ra rb : Reg} {s : State} {out : State} (e : execSll t rd ra rb s = .next out) (hs
    : Keeps ini s) :
    Keeps ini out := by
  unfold execSll at e
  obtain rfl := Host.Outcome.next.inj e
  repeat' first
    | with_reducible assumption
    | with_reducible apply State.alu_keeps

theorem execSrl_keeps {t : Nat} {rd ra rb : Reg} {s : State} {out : State} (e : execSrl t rd ra rb s = .next out) (hs
    : Keeps ini s) :
    Keeps ini out := by
  unfold execSrl at e
  obtain rfl := Host.Outcome.next.inj e
  repeat' first
    | with_reducible assumption
    | with_reducible apply State.alu_keeps

theorem execSra_keeps {t : Nat} {rd ra rb : Reg} {s : State} {out : State} (e : execSra t rd ra rb s = .next out) (hs
    : Keeps ini s) :
    Keeps ini out := by
  unfold execSra at e
  obtain rfl := Host.Outcome.next.inj e
  repeat' first
    | with_reducible assumption
    | with_reducible apply State.alu_keeps

theorem execSlt_keeps {t : Nat} {rd ra rb : Reg} {s : State} {out : State} (e : execSlt t rd ra rb s = .next out) (hs
    : Keeps ini s) :
    Keeps ini out := by
  unfold execSlt at e
  obtain rfl := Host.Outcome.next.inj e
  repeat' first
    | with_reducible assumption
    | with_reducible apply State.alu_keeps

theorem execSltu_keeps {t : Nat} {rd ra rb : Reg} {s : State} {out : State} (e : execSltu t rd ra rb s = .next out)
    (hs : Keeps ini s) :
    Keeps ini out := by
  unfold execSltu at e
  obtain rfl := Host.Outcome.next.inj e
  repeat' first
    | with_reducible assumption
    | with_reducible apply State.alu_keeps

theorem execMin_keeps {t : Nat} {rd ra rb : Reg} {s : State} {out : State} (e : execMin t rd ra rb s = .next out) (hs
    : Keeps ini s) :
    Keeps ini out := by
  unfold execMin at e
  obtain rfl := Host.Outcome.next.inj e
  repeat' first
    | with_reducible assumption
    | with_reducible apply State.alu_keeps

theorem execMax_keeps {t : Nat} {rd ra rb : Reg} {s : State} {out : State} (e : execMax t rd ra rb s = .next out) (hs
    : Keeps ini s) :
    Keeps ini out := by
  unfold execMax at e
  obtain rfl := Host.Outcome.next.inj e
  repeat' first
    | with_reducible assumption
    | with_reducible apply State.alu_keeps

theorem execMinu_keeps {t : Nat} {rd ra rb : Reg} {s : State} {out : State} (e : execMinu t rd ra rb s = .next out)
    (hs : Keeps ini s) :
    Keeps ini out := by
  unfold execMinu at e
  obtain rfl := Host.Outcome.next.inj e
  repeat' first
    | with_reducible assumption
    | with_reducible apply State.alu_keeps

theorem execMaxu_keeps {t : Nat} {rd ra rb : Reg} {s : State} {out : State} (e : execMaxu t rd ra rb s = .next out)
    (hs : Keeps ini s) :
    Keeps ini out := by
  unfold execMaxu at e
  obtain rfl := Host.Outcome.next.inj e
  repeat' first
    | with_reducible assumption
    | with_reducible apply State.alu_keeps

theorem execAddw_keeps {t : Nat} {rd ra rb : Reg} {s : State} {out : State} (e : execAddw t rd ra rb s = .next out)
    (hs : Keeps ini s) :
    Keeps ini out := by
  unfold execAddw at e
  obtain rfl := Host.Outcome.next.inj e
  repeat' first
    | with_reducible assumption
    | with_reducible apply State.alu_keeps

theorem execSubw_keeps {t : Nat} {rd ra rb : Reg} {s : State} {out : State} (e : execSubw t rd ra rb s = .next out)
    (hs : Keeps ini s) :
    Keeps ini out := by
  unfold execSubw at e
  obtain rfl := Host.Outcome.next.inj e
  repeat' first
    | with_reducible assumption
    | with_reducible apply State.alu_keeps

theorem execNibget_keeps {t : Nat} {rd ra rb : Reg} {s : State} {out : State} (e : execNibget t rd ra rb s = .next
    out) (hs : Keeps ini s) :
    Keeps ini out := by
  unfold execNibget at e
  obtain rfl := Host.Outcome.next.inj e
  repeat' first
    | with_reducible assumption
    | with_reducible apply State.alu_keeps

theorem execMul_keeps {t : Nat} {rd ra rb : Reg} {s : State} {out : State} (e : execMul t rd ra rb s = .next out) (hs
    : Keeps ini s) :
    Keeps ini out := by
  unfold execMul at e
  obtain rfl := Host.Outcome.next.inj e
  repeat' first
    | with_reducible assumption
    | with_reducible apply State.alu_keeps

theorem execMulh_keeps {t : Nat} {rd ra rb : Reg} {s : State} {out : State} (e : execMulh t rd ra rb s = .next out)
    (hs : Keeps ini s) :
    Keeps ini out := by
  unfold execMulh at e
  obtain rfl := Host.Outcome.next.inj e
  repeat' first
    | with_reducible assumption
    | with_reducible apply State.alu_keeps

theorem execMulhu_keeps {t : Nat} {rd ra rb : Reg} {s : State} {out : State} (e : execMulhu t rd ra rb s = .next out)
    (hs : Keeps ini s) :
    Keeps ini out := by
  unfold execMulhu at e
  obtain rfl := Host.Outcome.next.inj e
  repeat' first
    | with_reducible assumption
    | with_reducible apply State.alu_keeps

theorem execClz_keeps {t : Nat} {rd ra : Reg} {s : State} {out : State} (e : execClz t rd ra s = .next out) (hs :
    Keeps ini s) :
    Keeps ini out := by
  unfold execClz at e
  obtain rfl := Host.Outcome.next.inj e
  repeat' first
    | with_reducible assumption
    | with_reducible apply State.alu_keeps

theorem execCtz_keeps {t : Nat} {rd ra : Reg} {s : State} {out : State} (e : execCtz t rd ra s = .next out) (hs :
    Keeps ini s) :
    Keeps ini out := by
  unfold execCtz at e
  obtain rfl := Host.Outcome.next.inj e
  repeat' first
    | with_reducible assumption
    | with_reducible apply State.alu_keeps

theorem execPopc_keeps {t : Nat} {rd ra : Reg} {s : State} {out : State} (e : execPopc t rd ra s = .next out) (hs :
    Keeps ini s) :
    Keeps ini out := by
  unfold execPopc at e
  obtain rfl := Host.Outcome.next.inj e
  repeat' first
    | with_reducible assumption
    | with_reducible apply State.alu_keeps

theorem execJr_keeps {t : Nat} {ra : Reg} {s : State} {out : State} (e : execJr t ra s = .next out) (hs : Keeps ini
    s) :
    Keeps ini out := by
  unfold execJr at e
  obtain rfl := Host.Outcome.next.inj e
  repeat' first
    | intro _ _ _
    | with_reducible assumption
    | with_reducible apply State.runInstr_keeps
    | with_reducible with_reducible apply Eff.branch_keeps

theorem execJalr_keeps {t : Nat} {rd ra : Reg} {s : State} {out : State} (e : execJalr t rd ra s = .next out) (hs :
    Keeps ini s) :
    Keeps ini out := by
  unfold execJalr at e
  obtain rfl := Host.Outcome.next.inj e
  repeat' first
    | intro _ _ _
    | with_reducible assumption
    | with_reducible apply State.runInstr_keeps
    | with_reducible apply State.updCore_keeps
    | with_reducible with_reducible apply Eff.branch_keeps

theorem execDiv_keeps {t : Nat} {rd ra rb : Reg} {s : State} {out : State} (e : execDiv t rd ra rb s = .next out) (hs
    : Keeps ini s) :
    Keeps ini out := by
  unfold execDiv at e
  obtain rfl := Host.Outcome.next.inj e
  repeat' first
    | with_reducible assumption
    | with_reducible apply State.divide_keeps

theorem execDivu_keeps {t : Nat} {rd ra rb : Reg} {s : State} {out : State} (e : execDivu t rd ra rb s = .next out)
    (hs : Keeps ini s) :
    Keeps ini out := by
  unfold execDivu at e
  obtain rfl := Host.Outcome.next.inj e
  repeat' first
    | with_reducible assumption
    | with_reducible apply State.divide_keeps

theorem execRem_keeps {t : Nat} {rd ra rb : Reg} {s : State} {out : State} (e : execRem t rd ra rb s = .next out) (hs
    : Keeps ini s) :
    Keeps ini out := by
  unfold execRem at e
  obtain rfl := Host.Outcome.next.inj e
  repeat' first
    | with_reducible assumption
    | with_reducible apply State.divide_keeps

theorem execRemu_keeps {t : Nat} {rd ra rb : Reg} {s : State} {out : State} (e : execRemu t rd ra rb s = .next out)
    (hs : Keeps ini s) :
    Keeps ini out := by
  unfold execRemu at e
  obtain rfl := Host.Outcome.next.inj e
  repeat' first
    | with_reducible assumption
    | with_reducible apply State.divide_keeps

theorem execAddi_keeps {t : Nat} {rd ra : Reg} {imm : BitVec 16} {s : State} {out : State} (e : execAddi t rd ra imm
    s = .next out) (hs : Keeps ini s) :
    Keeps ini out := by
  unfold execAddi at e
  obtain rfl := Host.Outcome.next.inj e
  repeat' first
    | with_reducible assumption
    | with_reducible apply State.alu_keeps

theorem execAndi_keeps {t : Nat} {rd ra : Reg} {imm : BitVec 16} {s : State} {out : State} (e : execAndi t rd ra imm
    s = .next out) (hs : Keeps ini s) :
    Keeps ini out := by
  unfold execAndi at e
  obtain rfl := Host.Outcome.next.inj e
  repeat' first
    | with_reducible assumption
    | with_reducible apply State.alu_keeps

theorem execOri_keeps {t : Nat} {rd ra : Reg} {imm : BitVec 16} {s : State} {out : State} (e : execOri t rd ra imm s
    = .next out) (hs : Keeps ini s) :
    Keeps ini out := by
  unfold execOri at e
  obtain rfl := Host.Outcome.next.inj e
  repeat' first
    | with_reducible assumption
    | with_reducible apply State.alu_keeps

theorem execXori_keeps {t : Nat} {rd ra : Reg} {imm : BitVec 16} {s : State} {out : State} (e : execXori t rd ra imm
    s = .next out) (hs : Keeps ini s) :
    Keeps ini out := by
  unfold execXori at e
  obtain rfl := Host.Outcome.next.inj e
  repeat' first
    | with_reducible assumption
    | with_reducible apply State.alu_keeps

theorem execSlti_keeps {t : Nat} {rd ra : Reg} {imm : BitVec 16} {s : State} {out : State} (e : execSlti t rd ra imm
    s = .next out) (hs : Keeps ini s) :
    Keeps ini out := by
  unfold execSlti at e
  obtain rfl := Host.Outcome.next.inj e
  repeat' first
    | with_reducible assumption
    | with_reducible apply State.alu_keeps

theorem execSltiu_keeps {t : Nat} {rd ra : Reg} {imm : BitVec 16} {s : State} {out : State} (e : execSltiu t rd ra
    imm s = .next out) (hs : Keeps ini s) :
    Keeps ini out := by
  unfold execSltiu at e
  obtain rfl := Host.Outcome.next.inj e
  repeat' first
    | with_reducible assumption
    | with_reducible apply State.alu_keeps

theorem execLui_keeps {t : Nat} {rd : Reg} {imm : BitVec 16} {s : State} {out : State} (e : execLui t rd imm s =
    .next out) (hs : Keeps ini s) :
    Keeps ini out := by
  unfold execLui at e
  obtain rfl := Host.Outcome.next.inj e
  repeat' first
    | with_reducible assumption
    | with_reducible apply State.alu_keeps

theorem execSlli_keeps {t : Nat} {rd ra : Reg} {imm : BitVec 16} {s : State} {out : State} (e : execSlli t rd ra imm
    s = .next out) (hs : Keeps ini s) :
    Keeps ini out := by
  unfold execSlli at e
  obtain rfl := Host.Outcome.next.inj e
  repeat' first
    | with_reducible assumption
    | with_reducible apply State.alu_keeps

theorem execSrli_keeps {t : Nat} {rd ra : Reg} {imm : BitVec 16} {s : State} {out : State} (e : execSrli t rd ra imm
    s = .next out) (hs : Keeps ini s) :
    Keeps ini out := by
  unfold execSrli at e
  obtain rfl := Host.Outcome.next.inj e
  repeat' first
    | with_reducible assumption
    | with_reducible apply State.alu_keeps

theorem execSrai_keeps {t : Nat} {rd ra : Reg} {imm : BitVec 16} {s : State} {out : State} (e : execSrai t rd ra imm
    s = .next out) (hs : Keeps ini s) :
    Keeps ini out := by
  unfold execSrai at e
  obtain rfl := Host.Outcome.next.inj e
  repeat' first
    | with_reducible assumption
    | with_reducible apply State.alu_keeps

theorem execBr_keeps {t : Nat} {disp : BitVec 20} {s : State} {out : State} (e : execBr t disp s = .next out) (hs :
    Keeps ini s) :
    Keeps ini out := by
  unfold execBr at e
  obtain rfl := Host.Outcome.next.inj e
  repeat' first
    | intro _ _ _
    | with_reducible assumption
    | with_reducible apply State.runInstr_keeps
    | with_reducible with_reducible apply Eff.branch_keeps

theorem execCall_keeps {t : Nat} {disp : BitVec 20} {s : State} {out : State} (e : execCall t disp s = .next out) (hs
    : Keeps ini s) :
    Keeps ini out := by
  unfold execCall at e
  obtain rfl := Host.Outcome.next.inj e
  repeat' first
    | intro _ _ _
    | with_reducible assumption
    | with_reducible apply State.runInstr_keeps
    | with_reducible apply State.updCore_keeps
    | with_reducible with_reducible apply Eff.branch_keeps

theorem execBeqz_keeps {t : Nat} {annul : Bool} {ra : Reg} {disp : BitVec 20} {s : State} {out : State} (e : execBeqz
    t annul ra disp s = .next out) (hs : Keeps ini s) :
    Keeps ini out := by
  unfold execBeqz at e
  obtain rfl := Host.Outcome.next.inj e
  repeat' first
    | with_reducible assumption
    | with_reducible apply State.condBranch_keeps

theorem execBnez_keeps {t : Nat} {annul : Bool} {ra : Reg} {disp : BitVec 20} {s : State} {out : State} (e : execBnez
    t annul ra disp s = .next out) (hs : Keeps ini s) :
    Keeps ini out := by
  unfold execBnez at e
  obtain rfl := Host.Outcome.next.inj e
  repeat' first
    | with_reducible assumption
    | with_reducible apply State.condBranch_keeps

theorem execBltz_keeps {t : Nat} {annul : Bool} {ra : Reg} {disp : BitVec 20} {s : State} {out : State} (e : execBltz
    t annul ra disp s = .next out) (hs : Keeps ini s) :
    Keeps ini out := by
  unfold execBltz at e
  obtain rfl := Host.Outcome.next.inj e
  repeat' first
    | with_reducible assumption
    | with_reducible apply State.condBranch_keeps

theorem execBgez_keeps {t : Nat} {annul : Bool} {ra : Reg} {disp : BitVec 20} {s : State} {out : State} (e : execBgez
    t annul ra disp s = .next out) (hs : Keeps ini s) :
    Keeps ini out := by
  unfold execBgez at e
  obtain rfl := Host.Outcome.next.inj e
  repeat' first
    | with_reducible assumption
    | with_reducible apply State.condBranch_keeps

theorem execBgtz_keeps {t : Nat} {annul : Bool} {ra : Reg} {disp : BitVec 20} {s : State} {out : State} (e : execBgtz
    t annul ra disp s = .next out) (hs : Keeps ini s) :
    Keeps ini out := by
  unfold execBgtz at e
  obtain rfl := Host.Outcome.next.inj e
  repeat' first
    | with_reducible assumption
    | with_reducible apply State.condBranch_keeps

theorem execBlez_keeps {t : Nat} {annul : Bool} {ra : Reg} {disp : BitVec 20} {s : State} {out : State} (e : execBlez
    t annul ra disp s = .next out) (hs : Keeps ini s) :
    Keeps ini out := by
  unfold execBlez at e
  obtain rfl := Host.Outcome.next.inj e
  repeat' first
    | with_reducible assumption
    | with_reducible apply State.condBranch_keeps

theorem execMfcr_keeps {t : Nat} {rd : Reg} {cr : BitVec 12} {s : State} {out : State} (e : execMfcr t rd cr s =
    .next out) (hs : Keeps ini s) :
    Keeps ini out := by
  unfold execMfcr at e
  obtain rfl := Host.Outcome.next.inj e
  repeat' first
    | intro _ _ _
    | with_reducible assumption
    | with_reducible apply State.runInstr_keeps
    | with_reducible apply State.mfcr_keeps

theorem execMtcr_keeps {t : Nat} {ra : Reg} {cr : BitVec 12} {s : State} {out : State} (e : execMtcr t ra cr s =
    .next out) (hs : Keeps ini s) :
    Keeps ini out := by
  unfold execMtcr at e
  obtain rfl := Host.Outcome.next.inj e
  repeat' first
    | intro _ _ _
    | with_reducible assumption
    | with_reducible apply State.runInstr_keeps
    | with_reducible apply State.crModify_keeps

theorem execSetcr_keeps {t : Nat} {rd ra : Reg} {cr : BitVec 12} {s : State} {out : State} (e : execSetcr t rd ra cr
    s = .next out) (hs : Keeps ini s) :
    Keeps ini out := by
  unfold execSetcr at e
  obtain rfl := Host.Outcome.next.inj e
  repeat' first
    | intro _ _ _
    | with_reducible assumption
    | with_reducible apply State.runInstr_keeps
    | with_reducible apply State.crModify_keeps

theorem execClrcr_keeps {t : Nat} {rd ra : Reg} {cr : BitVec 12} {s : State} {out : State} (e : execClrcr t rd ra cr
    s = .next out) (hs : Keeps ini s) :
    Keeps ini out := by
  unfold execClrcr at e
  obtain rfl := Host.Outcome.next.inj e
  repeat' first
    | intro _ _ _
    | with_reducible assumption
    | with_reducible apply State.runInstr_keeps
    | with_reducible apply State.crModify_keeps

theorem execSyscall_keeps {t : Nat} {svc : BitVec 12} {s : State} {out : State} (e : execSyscall t svc s = .next out)
    (hs : Keeps ini s) :
    Keeps ini out := by
  unfold execSyscall at e
  obtain rfl := Host.Outcome.next.inj e
  repeat' first
    | intro _ _ _
    | with_reducible assumption
    | with_reducible apply State.runInstr_keeps
    | with_reducible apply State.fetch_keeps
    | with_reducible with_reducible apply Eff.exc_keeps
    | with_reducible with_reducible apply Eff.call_keeps
    | with_reducible apply Keeps.ite
    | split

theorem execRfe_keeps {t : Nat} {s : State} {out : State} (e : execRfe t s = .next out) (hs : Keeps ini s) :
    Keeps ini out := by
  unfold execRfe at e
  obtain rfl := Host.Outcome.next.inj e
  repeat' first
    | intro _ _ _
    | with_reducible assumption
    | with_reducible apply State.runInstr_keeps
    | with_reducible apply State.fetch_keeps
    | with_reducible apply State.updCore_keeps
    | with_reducible with_reducible apply Eff.exc_keeps
    | with_reducible with_reducible apply Eff.goto_keeps
    | simp only [Keeps.mk_iff]
    | with_reducible apply Keeps.other
    | with_reducible apply Keeps.ite
    | split

theorem execFence_keeps {t : Nat} {n : BitVec 12} {s : State} {out : State} (e : execFence t n s = .next out) (hs :
    Keeps ini s) :
    Keeps ini out := by
  unfold execFence at e
  obtain rfl := Host.Outcome.next.inj e
  repeat' first
    | intro _ _ _
    | with_reducible assumption
    | with_reducible apply State.runInstr_keeps
    | with_reducible with_reducible apply Eff.done_keeps
    | with_reducible with_reducible apply Eff.block_keeps
    | with_reducible apply Keeps.ite
    | split

theorem execIsync_keeps {t : Nat} {s : State} {out : State} (e : execIsync t s = .next out) (hs : Keeps ini s) :
    Keeps ini out := by
  unfold execIsync at e
  obtain rfl := Host.Outcome.next.inj e
  repeat' first
    | intro _ _ _
    | with_reducible assumption
    | with_reducible apply State.runInstr_keeps
    | with_reducible apply State.updCore_keeps
    | with_reducible with_reducible apply Eff.done_keeps

theorem State.takeInterrupt_keeps {s : State} {t : Nat} (hs : Keeps ini s) :
    Keeps ini (State.takeInterrupt s t) := by
  unfold State.takeInterrupt
  repeat' first
    | with_reducible assumption
    | with_reducible apply State.updCore_keeps
    | with_reducible apply State.updTile_keeps
    | with_reducible apply State.raise_keeps
    | with_reducible apply State.fetch_keeps
    | simp only [Keeps.mk_iff]
    | with_reducible apply Keeps.other
    | with_reducible apply Keeps.ite
    | refine Keeps.fst (by assumption) ?_
    | refine Keeps.snd (by assumption) ?_
    | split

theorem execInterrupt_keeps {t : Nat} {s : State} {out : State} (e : execInterrupt t s = .next out) (hs : Keeps ini
    s) :
    Keeps ini out := by
  unfold execInterrupt at e
  obtain rfl := Host.Outcome.next.inj e
  repeat' first
    | with_reducible assumption
    | with_reducible apply State.takeInterrupt_keeps

theorem execBpclr_keeps {t : Nat} {s : State} {out : State} (e : execBpclr t s = .next out) (hs : Keeps ini s) :
    Keeps ini out := by
  unfold execBpclr at e
  obtain rfl := Host.Outcome.next.inj e
  repeat' first
    | with_reducible assumption
    | with_reducible apply State.clearPred_keeps

theorem execRangeGo_keeps {t : Nat} {s : State} {out : State} (e : execRangeGo t s = .next out) (hs : Keeps ini s) :
    Keeps ini out := by
  unfold execRangeGo at e
  obtain rfl := Host.Outcome.next.inj e
  repeat' first
    | with_reducible assumption
    | with_reducible apply State.parityWalkI_keeps
    | with_reducible apply State.rangeOp_keeps
    | with_reducible apply State.parityScan_keeps
    | with_reducible apply Keeps.ite

theorem execDis_keeps {t : Nat} {on : Bool} {s : State} {out : State} (e : execDis t on s = .next out) (hs : Keeps
    ini s) :
    Keeps ini out := by
  unfold execDis at e
  obtain rfl := Host.Outcome.next.inj e
  repeat' first
    | with_reducible assumption
    | with_reducible apply State.parityScan_keeps
    | with_reducible apply State.setDis_keeps
    | with_reducible apply Keeps.ite

theorem execIdis_keeps {t : Nat} {on : Bool} {s : State} {out : State} (e : execIdis t on s = .next out) (hs : Keeps
    ini s) :
    Keeps ini out := by
  unfold execIdis at e
  obtain rfl := Host.Outcome.next.inj e
  repeat' first
    | with_reducible assumption
    | with_reducible apply State.parityWalkI_keeps
    | with_reducible apply State.setIdis_keeps

end Sys2Proof.Machine
end

