-- ==== Sys2Proof/Laws/DispatcherKeeps.lean ====
section
/-! SUPPORT. The operations of Machine/Dispatcher.lean keep what Keeps names. -/

namespace Sys2Proof.Machine

variable {ini : State}

theorem State.morselsOf_keeps {s : State} {f q p : Nat} (hs : Keeps ini s) :
    Keeps ini (State.morselsOf s f q p).1 := by
  unfold State.morselsOf
  repeat' first
    | with_reducible assumption
    | with_reducible apply State.logSegment_keeps
    | with_reducible apply Keeps.ite
    | refine Keeps.fst (by assumption) ?_
    | refine Keeps.snd (by assumption) ?_
    | split
    | dsimp only

theorem State.createTask_keeps {s : State} {f : Nat} {k : Task} (hs : Keeps ini s) :
    Keeps ini (State.createTask s f k) := by
  unfold State.createTask
  repeat' first
    | with_reducible assumption
    | with_reducible apply State.putTask_keeps
    | with_reducible apply State.readyPut_keeps
    | with_reducible apply State.tryFire_keeps
    | simp only [Keeps.mk_iff]
    | with_reducible apply Keeps.other
    | with_reducible apply Keeps.ite
    | refine Keeps.fst (by assumption) ?_
    | refine Keeps.snd (by assumption) ?_
    | split

theorem State.expandGroup_keeps {s : State} {f q p : Nat} (hs : Keeps ini s) :
    Keeps ini (State.expandGroup s f q p) := by
  unfold State.expandGroup
  repeat' first
    | intro _ _ _
    | with_reducible assumption
    | with_reducible apply State.createTask_keeps
    | with_reducible apply State.updQuery_keeps
    | simp only [Keeps.mk_iff]
    | with_reducible apply Keeps.other
    | (with_reducible apply Keeps.foldl)

theorem State.expandGo_keeps {s : State} {f q p : Nat} {a1 : Nat} (hs : Keeps ini s) :
    Keeps ini (State.expandGo s f q p a1) := by
  induction a1 generalizing s f q p with
  | zero =>
    unfold State.expandGo
    repeat' first
      | with_reducible assumption
  | succ k ih =>
    unfold State.expandGo
    repeat' first
      | with_reducible assumption
      | with_reducible apply ih
      | with_reducible apply State.expandGroup_keeps
      | with_reducible apply Keeps.ite

theorem State.placeBreakers_keeps {s : State} {f q p : Nat} {out : State} (e : State.placeBreakers s f q p = some out)
    (hs : Keeps ini s) : Keeps ini out := by
  refine Keeps.foldl_bind e hs fun i s out e hs => ?_
  dsimp only at e
  generalize (if (imgOp _ i).opcode = 5 then _ else _) = n at e
  split at e
  · cases e; exact hs
  · simp only [Option.map_eq_some_iff] at e
    obtain ⟨r, hr, e⟩ := e
    cases e
    exact State.writeBytes_keeps (State.updBrk_keeps (State.placeFor_keeps (r := r.1) hr hs))

theorem openXchgs_keeps {f q p : Nat} {l : List Nat} {s out : State}
    (e : l.foldl (fun (a : Nat ⊕ State) i => match a with | .inr s => s.openXchg f q p i | .inl c => .inl c) (.inr s) = .inr out)
    (hs : Keeps ini s) : Keeps ini out := by
  induction l generalizing s with
  | nil => cases e; exact hs
  | cons x r ih =>
    simp only [List.foldl_cons] at e
    cases hx : s.openXchg f q p x with
    | inl c =>
      rw [hx] at e
      have : ∀ l : List Nat,
          l.foldl (fun (a : Nat ⊕ State) i => match a with | .inr s => s.openXchg f q p i | .inl c => .inl c) (.inl c) = .inl c := by
        intro l
        induction l with
        | nil => rfl
        | cons y k iq => exact iq
      rw [this r] at e
      cases e
    | inr s1 =>
      rw [hx] at e
      exact ih e (State.openXchg_keeps hx hs)

theorem State.beginPipe_keeps {s : State} {f q p : Nat} (hs : Keeps ini s) : Keeps ini (State.beginPipe s f q p) := by
  have hm : Keeps ini (s.morselsOf f q p).1 := State.morselsOf_keeps hs
  unfold State.beginPipe
  dsimp only
  split
  · rename_i e
    rw [e] at hm
    exact State.failQuery_keeps hm
  · rename_i s1 m e
    rw [e] at hm
    split
    · exact hm
    · split
      · exact State.failQuery_keeps hm
      · rename_i s2 e2
        have h2 : Keeps ini s2 := openXchgs_keeps e2 hm
        split
        · exact State.failQuery_keeps h2
        · split
          · exact State.failQuery_keeps h2
          · rename_i s3 e3
            refine State.expandGo_keeps (Keeps.foldl (State.updQuery_keeps (State.placeBreakers_keeps e3 h2)) fun s kr hs => ?_)
            exact State.createTask_keeps hs

theorem State.updPipe_keeps {s : State} {f q p : Nat} {g : PipeSt → PipeSt} (hs : Keeps ini s) :
    Keeps ini (State.updPipe s f q p g) := by
  unfold State.updPipe
  repeat' first
    | with_reducible assumption
    | with_reducible apply State.updQuery_keeps

theorem State.joinDir_keeps {s : State} {f q i : Nat} {parts : List Nat} (hs : Keeps ini s) :
    Keeps ini (State.joinDir s f q i parts) := by
  unfold State.joinDir
  repeat' first
    | intro _ _ _
    | with_reducible assumption
    | with_reducible apply State.writeBytes_keeps
    | (with_reducible apply Keeps.foldl)

theorem State.probesDone_keeps {s : State} {f q : Nat} {ops : List Nat} (hs : Keeps ini s) :
    Keeps ini (State.probesDone s f q ops) := by
  unfold State.probesDone
  repeat' first
    | intro _ _ _
    | with_reducible assumption
    | with_reducible apply State.updBrk_keeps
    | with_reducible apply State.joinDir_keeps
    | simp only [Keeps.mk_iff]
    | with_reducible apply Keeps.other
    | with_reducible apply Keeps.ite
    | (with_reducible apply Keeps.foldl)

theorem State.digestEnd_keeps {s : State} {f q : Nat} {ops : List Nat} (hs : Keeps ini s) :
    Keeps ini (State.digestEnd s f q ops) := by
  unfold State.digestEnd
  repeat' first
    | intro _ _ _
    | with_reducible assumption
    | with_reducible apply State.updQuery_keeps
    | with_reducible apply State.writeBytes_keeps
    | simp only [Keeps.mk_iff]
    | with_reducible apply Keeps.other
    | with_reducible apply Keeps.ite
    | (with_reducible apply Keeps.foldl)
    | refine Keeps.fst (by assumption) ?_
    | refine Keeps.snd (by assumption) ?_
    | split

theorem State.addSpecial_keeps {s : State} {f q p k kind : Nat} {l : List Nat} (hs : Keeps ini s) :
    Keeps ini (State.addSpecial s f q p k kind l) := by
  unfold State.addSpecial
  repeat' first
    | intro _ _ _
    | with_reducible assumption
    | with_reducible apply State.createTask_keeps
    | with_reducible apply State.updPipe_keeps
    | simp only [Keeps.mk_iff]
    | with_reducible apply Keeps.other
    | with_reducible apply Keeps.ite
    | (with_reducible apply Keeps.foldl)

theorem State.stageStep_keeps {s : State} {f q p : Nat} {value : Word} {k : Nat} (hs : Keeps ini s) :
    Keeps ini (State.stageStep s f q p value k) := by
  unfold State.stageStep
  repeat' first
    | with_reducible assumption
    | with_reducible apply State.updPipe_keeps
    | with_reducible apply State.addSpecial_keeps
    | with_reducible apply State.probesDone_keeps
    | with_reducible apply State.digestEnd_keeps
    | with_reducible apply State.failQuery_keeps
    | with_reducible apply State.sendPip_keeps
    | simp only [Keeps.mk_iff]
    | with_reducible apply Keeps.other
    | with_reducible apply Keeps.ite
    | refine Keeps.fst (by assumption) ?_
    | refine Keeps.snd (by assumption) ?_
    | split

theorem State.pipePass_keeps {s : State} {f q : Nat} {value : Word} {p : Nat} (hs : Keeps ini s) :
    Keeps ini (State.pipePass s f q value p) := by
  unfold State.pipePass
  repeat' first
    | intro _ _ _
    | with_reducible assumption
    | with_reducible apply State.beginPipe_keeps
    | with_reducible apply State.stageStep_keeps
    | with_reducible apply State.updPipe_keeps
    | simp only [Keeps.mk_iff]
    | with_reducible apply Keeps.other
    | with_reducible apply Keeps.ite
    | (with_reducible apply Keeps.foldl)

theorem State.queryPass_keeps {s : State} {f q : Nat} {value : Word} (hs : Keeps ini s) :
    Keeps ini (State.queryPass s f q value) := by
  unfold State.queryPass
  repeat' first
    | intro _ _ _
    | with_reducible assumption
    | with_reducible apply State.pipePass_keeps
    | with_reducible apply State.closeXchgs_keeps
    | with_reducible apply State.disarmAll_keeps
    | with_reducible apply State.retireQuery_keeps
    | with_reducible apply State.finishFailed_keeps
    | with_reducible apply Keeps.ite
    | (with_reducible apply Keeps.foldl)
    | refine Keeps.fst (by assumption) ?_
    | refine Keeps.snd (by assumption) ?_
    | split
    | dsimp only

theorem execPipelineExpand_keeps {f qid p : Nat} {s : State} {out : State} (e : execPipelineExpand f qid p s = .next
    out) (hs : Keeps ini s) :
    Keeps ini out := by
  unfold execPipelineExpand at e
  obtain rfl := Host.Outcome.next.inj e
  repeat' first
    | with_reducible assumption
    | with_reducible apply State.queryPass_keeps
    | with_reducible apply Keeps.ite

theorem execExpansionResume_keeps {f qid p : Nat} {s : State} {out : State} (e : execExpansionResume f qid p s =
    .next out) (hs : Keeps ini s) :
    Keeps ini out := by
  unfold execExpansionResume at e
  obtain rfl := Host.Outcome.next.inj e
  repeat' first
    | with_reducible assumption
    | with_reducible apply State.expandGo_keeps
    | with_reducible apply State.queryPass_keeps
    | with_reducible apply Keeps.ite

theorem State.endTask_keeps {s : State} {t : Nat} {r : TaskRun} (hs : Keeps ini s) :
    Keeps ini (State.endTask s t r) := by
  unfold State.endTask
  repeat' first
    | intro _ _ _
    | with_reducible assumption
    | with_reducible apply State.unplaceFor_keeps
    | with_reducible apply State.freeTask_keeps
    | with_reducible apply State.releaseHold_keeps
    | with_reducible apply State.updTile_keeps
    | simp only [Keeps.mk_iff]
    | with_reducible apply Keeps.other
    | refine Keeps.foldl_bind (by assumption) ?_ ?_
    | with_reducible apply Keeps.ite
    | (with_reducible apply Keeps.foldl)
    | refine Keeps.fst (by assumption) ?_
    | refine Keeps.snd (by assumption) ?_
    | split

theorem State.handOver_keeps {s : State} {f : Nat} {k : Task} {bs : List Batch} (hs : Keeps ini s) :
    Keeps ini (State.handOver s f k bs) := by
  unfold State.handOver
  repeat' first
    | with_reducible assumption
    | with_reducible apply State.updQuery_keeps

theorem State.donePips_keeps {s : State} {f : Nat} {k : Task} {value : Word} (hs : Keeps ini s) :
    Keeps ini (State.donePips s f k value) := by
  unfold State.donePips
  repeat' first
    | with_reducible assumption
    | with_reducible apply State.sendPip_keeps
    | with_reducible apply Keeps.ite

theorem State.doneRounds_keeps {s : State} {f : Nat} {k : Task} (hs : Keeps ini s) :
    Keeps ini (State.doneRounds s f k) := by
  unfold State.doneRounds
  repeat' first
    | intro _ _ _
    | with_reducible assumption
    | with_reducible apply State.updRound_keeps
    | with_reducible apply State.roundsTry_keeps
    | simp only [Keeps.mk_iff]
    | with_reducible apply Keeps.other
    | with_reducible apply Keeps.foldl_fst
    | with_reducible apply Keeps.foldl_snd
    | with_reducible apply Keeps.ite
    | (with_reducible apply Keeps.foldl)
    | refine Keeps.fst (by assumption) ?_
    | refine Keeps.snd (by assumption) ?_
    | split

theorem State.passSpilled_keeps {s : State} {f : Nat} {k : Task} {bs : List Batch} (hs : Keeps ini s) :
    Keeps ini (State.passSpilled s f k bs) := by
  unfold State.passSpilled
  repeat' first
    | with_reducible assumption
    | with_reducible apply State.createTask_keeps
    | with_reducible apply State.updPipe_keeps
    | simp only [Keeps.mk_iff]
    | with_reducible apply Keeps.other
    | with_reducible apply Keeps.ite

theorem State.taskDone_keeps {s : State} {t : Nat} {d : Word} (hs : Keeps ini s) :
    Keeps ini (State.taskDone s t d) := by
  unfold State.taskDone
  repeat' first
    | with_reducible assumption
    | with_reducible apply State.endTask_keeps
    | with_reducible apply State.finishFailed_keeps
    | with_reducible apply State.handOver_keeps
    | with_reducible apply State.donePips_keeps
    | with_reducible apply State.passSpilled_keeps
    | with_reducible apply State.updPipe_keeps
    | with_reducible apply State.doneRounds_keeps
    | with_reducible apply State.queryPass_keeps
    | simp only [Keeps.mk_iff]
    | with_reducible apply Keeps.other
    | with_reducible apply Keeps.ite
    | refine Keeps.fst (by assumption) ?_
    | refine Keeps.snd (by assumption) ?_
    | split

theorem execDispDone_keeps {t : Nat} {d : BitVec 64} {s : State} {out : State} (e : execDispDone t d s = .next out)
    (hs : Keeps ini s) :
    Keeps ini out := by
  unfold execDispDone at e
  obtain rfl := Host.Outcome.next.inj e
  repeat' first
    | with_reducible assumption
    | with_reducible apply State.taskDone_keeps

theorem State.taskFailed_keeps {s : State} {t : Nat} {d : Word} (hs : Keeps ini s) :
    Keeps ini (State.taskFailed s t d) := by
  unfold State.taskFailed
  repeat' first
    | with_reducible assumption
    | with_reducible apply State.failQuery_keeps
    | with_reducible apply State.endTask_keeps
    | with_reducible apply State.finishFailed_keeps
    | refine Keeps.fst (by assumption) ?_
    | refine Keeps.snd (by assumption) ?_
    | split

theorem execDispFailed_keeps {t : Nat} {d : BitVec 64} {s : State} {out : State} (e : execDispFailed t d s = .next
    out) (hs : Keeps ini s) :
    Keeps ini out := by
  unfold execDispFailed at e
  obtain rfl := Host.Outcome.next.inj e
  repeat' first
    | with_reducible assumption
    | with_reducible apply State.taskFailed_keeps

theorem State.taskCancelled_keeps {s : State} {t : Nat} {d : Word} (hs : Keeps ini s) :
    Keeps ini (State.taskCancelled s t d) := by
  unfold State.taskCancelled
  repeat' first
    | with_reducible assumption
    | with_reducible apply State.endTask_keeps
    | with_reducible apply State.updPipe_keeps
    | with_reducible apply State.doneRounds_keeps
    | with_reducible apply State.queryPass_keeps
    | with_reducible apply State.finishFailed_keeps
    | simp only [Keeps.mk_iff]
    | with_reducible apply Keeps.other
    | with_reducible apply Keeps.ite
    | refine Keeps.fst (by assumption) ?_
    | refine Keeps.snd (by assumption) ?_
    | split

theorem execDispCancelled_keeps {t : Nat} {d : BitVec 64} {s : State} {out : State} (e : execDispCancelled t d s =
    .next out) (hs : Keeps ini s) :
    Keeps ini out := by
  unfold execDispCancelled at e
  obtain rfl := Host.Outcome.next.inj e
  repeat' first
    | with_reducible assumption
    | with_reducible apply State.taskCancelled_keeps

theorem State.taskYield_keeps {s : State} {t : Nat} {d : Word} (hs : Keeps ini s) :
    Keeps ini (State.taskYield s t d) := by
  unfold State.taskYield
  repeat' first
    | with_reducible assumption
    | with_reducible apply State.taskCancelled_keeps
    | with_reducible apply State.endTask_keeps
    | with_reducible apply State.putTask_keeps
    | with_reducible apply State.readyPut_keeps
    | simp only [Keeps.mk_iff]
    | with_reducible apply Keeps.other
    | with_reducible apply Keeps.ite
    | refine Keeps.fst (by assumption) ?_
    | refine Keeps.snd (by assumption) ?_
    | split

theorem execDispYield_keeps {t : Nat} {d : BitVec 64} {s : State} {out : State} (e : execDispYield t d s = .next out)
    (hs : Keeps ini s) :
    Keeps ini out := by
  unfold execDispYield at e
  obtain rfl := Host.Outcome.next.inj e
  repeat' first
    | with_reducible assumption
    | with_reducible apply State.taskYield_keeps

theorem execWaittask_keeps {t : Nat} {rd ra : BitVec 5} {s : State} {out : State} (e : execWaittask t rd ra s = .next
    out) (hs : Keeps ini s) :
    Keeps ini out := by
  unfold execWaittask at e
  obtain rfl := Host.Outcome.next.inj e
  repeat' first
    | intro _ _ _
    | with_reducible assumption
    | with_reducible apply State.runInstr_keeps
    | with_reducible apply State.fetch_keeps
    | with_reducible apply State.updTile_keeps
    | with_reducible with_reducible apply Eff.exc_keeps
    | with_reducible with_reducible apply Eff.block_keeps
    | simp only [Keeps.mk_iff]
    | with_reducible apply Keeps.other
    | with_reducible apply Keeps.ite
    | split

theorem State.endWait_keeps {s : State} {t : Nat} {value : Word} {why : Nat} (hs : Keeps ini s) :
    Keeps ini (State.endWait s t value why) := by
  unfold State.endWait
  repeat' first
    | with_reducible assumption
    | with_reducible apply State.updTile_keeps
    | simp only [Keeps.mk_iff]
    | with_reducible apply Keeps.other
    | refine Keeps.fst (by assumption) ?_
    | refine Keeps.snd (by assumption) ?_
    | split

theorem execWaittaskTimeout_keeps {t : Nat} {s : State} {out : State} (e : execWaittaskTimeout t s = .next out) (hs :
    Keeps ini s) :
    Keeps ini out := by
  unfold execWaittaskTimeout at e
  obtain rfl := Host.Outcome.next.inj e
  repeat' first
    | with_reducible assumption
    | with_reducible apply State.endWait_keeps
    | with_reducible apply Keeps.ite
    | refine Keeps.fst (by assumption) ?_
    | refine Keeps.snd (by assumption) ?_
    | split

theorem State.opFail_keeps {s : State} {t status : Nat} (hs : Keeps ini s) :
    Keeps ini (State.opFail s t status) := by
  unfold State.opFail
  repeat' first
    | with_reducible assumption
    | with_reducible apply State.updTile_keeps
    | with_reducible apply State.failTask_keeps

theorem State.assign_keeps {s : State} {t : Nat} (hs : Keeps ini s) :
    Keeps ini (State.assign s t) := by
  unfold State.assign
  repeat' first
    | with_reducible assumption
    | with_reducible apply State.updDisp_keeps
    | with_reducible apply State.setAt_keeps
    | with_reducible apply State.endWait_keeps
    | with_reducible apply State.updTile_keeps
    | with_reducible apply State.opFail_keeps
    | simp only [Keeps.mk_iff]
    | with_reducible apply Keeps.other
    | with_reducible apply Keeps.ite
    | refine Keeps.fst (by assumption) ?_
    | refine Keeps.snd (by assumption) ?_
    | split

theorem execTaskAssign_keeps {t : Nat} {s : State} {out : State} (e : execTaskAssign t s = .next out) (hs : Keeps ini
    s) :
    Keeps ini out := by
  unfold execTaskAssign at e
  obtain rfl := Host.Outcome.next.inj e
  repeat' first
    | with_reducible assumption
    | with_reducible apply State.assign_keeps

theorem State.pipIn_keeps {s : State} {x : Pip} (hs : Keeps ini s) :
    Keeps ini (State.pipIn s x) := by
  unfold State.pipIn
  repeat' first
    | with_reducible assumption
    | with_reducible apply State.updDisp_keeps
    | with_reducible apply State.failQuery_keeps
    | with_reducible apply State.putTask_keeps
    | with_reducible apply State.tryFire_keeps
    | simp only [Keeps.mk_iff]
    | with_reducible apply Keeps.other
    | with_reducible apply Keeps.ite
    | refine Keeps.fst (by assumption) ?_
    | refine Keeps.snd (by assumption) ?_
    | split

theorem execPipArrive_keeps {f i : Nat} {s : State} {out : State} (e : execPipArrive f i s = .next out) (hs : Keeps
    ini s) :
    Keeps ini out := by
  unfold execPipArrive at e
  obtain rfl := Host.Outcome.next.inj e
  repeat' first
    | with_reducible assumption
    | with_reducible apply State.pipIn_keeps
    | simp only [Keeps.mk_iff]
    | with_reducible apply Keeps.other
    | refine Keeps.fst (by assumption) ?_
    | refine Keeps.snd (by assumption) ?_
    | split

theorem execEventPulse_keeps {f flag : Nat} {s : State} {out : State} (e : execEventPulse f flag s = .next out) (hs :
    Keeps ini s) :
    Keeps ini out := by
  unfold execEventPulse at e
  obtain rfl := Host.Outcome.next.inj e
  repeat' first
    | with_reducible assumption
    | with_reducible apply State.pulseFlag_keeps
    | simp only [Keeps.mk_iff]
    | with_reducible apply Keeps.other
    | refine Keeps.fst (by assumption) ?_
    | refine Keeps.snd (by assumption) ?_
    | split

theorem State.flagAllocRead_keeps {s : State} {t : Nat} (hs : Keeps ini s) :
    Keeps ini (State.flagAllocRead s t).2 := by
  unfold State.flagAllocRead
  repeat' first
    | with_reducible assumption
    | with_reducible apply State.allocFlag_keeps
    | refine Keeps.fst (by assumption) ?_
    | refine Keeps.snd (by assumption) ?_
    | split

theorem execDspFlagalloc_keeps {t : Nat} {rd : BitVec 5} {s : State} {out : State} (e : execDspFlagalloc t rd s =
    .next out) (hs : Keeps ini s) :
    Keeps ini out := by
  unfold execDspFlagalloc at e
  obtain rfl := Host.Outcome.next.inj e
  repeat' first
    | with_reducible assumption
    | with_reducible apply State.flagAllocRead_keeps
    | with_reducible apply State.updCore_keeps

theorem State.flagSetWrite_keeps {s : State} {t : Nat} {mask : Word} (hs : Keeps ini s) :
    Keeps ini (State.flagSetWrite s t mask) := by
  unfold State.flagSetWrite
  repeat' first
    | with_reducible assumption
    | with_reducible apply State.setFlags_keeps
    | refine Keeps.fst (by assumption) ?_
    | refine Keeps.snd (by assumption) ?_
    | split

theorem execDspFlagset_keeps {t : Nat} {mask : BitVec 64} {s : State} {out : State} (e : execDspFlagset t mask s =
    .next out) (hs : Keeps ini s) :
    Keeps ini out := by
  unfold execDspFlagset at e
  obtain rfl := Host.Outcome.next.inj e
  repeat' first
    | with_reducible assumption
    | with_reducible apply State.flagSetWrite_keeps

theorem State.startRebind_keeps {s : State} {t : Nat} {goal : Option Nat} {lent : Option Nat} (hs : Keeps ini s) :
    Keeps ini (State.startRebind s t goal lent) := by
  unfold State.startRebind
  repeat' first
    | with_reducible assumption
    | with_reducible apply State.updTile_keeps

theorem execTileRebind_keeps {t f : Nat} {s : State} {out : State} (e : execTileRebind t f s = .next out) (hs : Keeps
    ini s) :
    Keeps ini out := by
  unfold execTileRebind at e
  obtain rfl := Host.Outcome.next.inj e
  repeat' first
    | with_reducible assumption
    | with_reducible apply State.startRebind_keeps
    | simp only [Keeps.mk_iff]
    | with_reducible apply Keeps.other
    | with_reducible apply Keeps.ite

theorem execTileLend_keeps {t f : Nat} {s : State} {out : State} (e : execTileLend t f s = .next out) (hs : Keeps ini
    s) :
    Keeps ini out := by
  unfold execTileLend at e
  obtain rfl := Host.Outcome.next.inj e
  repeat' first
    | with_reducible assumption
    | with_reducible apply State.startRebind_keeps
    | simp only [Keeps.mk_iff]
    | with_reducible apply Keeps.other
    | with_reducible apply Keeps.ite
    | refine Keeps.fst (by assumption) ?_
    | refine Keeps.snd (by assumption) ?_
    | split

theorem execTileReclaim_keeps {t : Nat} {s : State} {out : State} (e : execTileReclaim t s = .next out) (hs : Keeps
    ini s) :
    Keeps ini out := by
  unfold execTileReclaim at e
  obtain rfl := Host.Outcome.next.inj e
  repeat' first
    | with_reducible assumption
    | with_reducible apply State.updTile_keeps
    | with_reducible apply State.startRebind_keeps
    | simp only [Keeps.mk_iff]
    | with_reducible apply Keeps.other
    | with_reducible apply Keeps.ite
    | refine Keeps.fst (by assumption) ?_
    | refine Keeps.snd (by assumption) ?_
    | split

theorem State.bindAck_keeps {s : State} {t : Nat} (hs : Keeps ini s) :
    Keeps ini (State.bindAck s t) := by
  unfold State.bindAck
  repeat' first
    | with_reducible assumption
    | with_reducible apply State.updTile_keeps
    | simp only [Keeps.mk_iff]
    | with_reducible apply Keeps.other
    | with_reducible apply Keeps.ite
    | refine Keeps.fst (by assumption) ?_
    | refine Keeps.snd (by assumption) ?_
    | split

theorem execBindAck_keeps {t : Nat} {s : State} {out : State} (e : execBindAck t s = .next out) (hs : Keeps ini s) :
    Keeps ini out := by
  unfold execBindAck at e
  obtain rfl := Host.Outcome.next.inj e
  repeat' first
    | with_reducible assumption
    | with_reducible apply State.bindAck_keeps

end Sys2Proof.Machine
end

