-- ==== Sys2Proof/Laws/StrokeKeeps.lean ====
section
/-! SUPPORT. The operations of Machine/Stroke.lean keep what Keeps names. -/

namespace Sys2Proof.Machine

variable {ini : State}

theorem State.updStroke_keeps {s : State} {t : Nat} {f : Stroke → Stroke} (hs : Keeps ini s) :
    Keeps ini (State.updStroke s t f) := by
  unfold State.updStroke
  repeat' first
    | with_reducible assumption
    | with_reducible apply State.updTile_keeps

theorem State.endRun_keeps {s : State} {t err : Nat} (hs : Keeps ini s) :
    Keeps ini (State.endRun s t err) := by
  unfold State.endRun
  repeat' first
    | with_reducible assumption
    | with_reducible apply State.updStroke_keeps

theorem State.countLines_keeps {s : State} {t n : Nat} (hs : Keeps ini s) :
    Keeps ini (State.countLines s t n) := by
  unfold State.countLines
  repeat' first
    | with_reducible assumption
    | with_reducible apply State.updStroke_keeps

theorem State.runError_keeps {s : State} {t err status : Nat} (hs : Keeps ini s) :
    Keeps ini (State.runError s t err status) := by
  unfold State.runError
  repeat' first
    | with_reducible assumption
    | with_reducible apply State.endRun_keeps
    | with_reducible apply State.failTask_keeps

theorem State.strokeStart_keeps {s : State} {t : Nat} (hs : Keeps ini s) :
    Keeps ini (State.strokeStart s t) := by
  unfold State.strokeStart
  repeat' first
    | intro _ _ _
    | with_reducible assumption
    | with_reducible apply State.updStroke_keeps
    | with_reducible apply State.endRun_keeps
    | with_reducible apply State.countLines_keeps
    | with_reducible apply State.runError_keeps
    | with_reducible apply State.logSegment_keeps
    | simp only [Keeps.mk_iff]
    | with_reducible apply Keeps.other
    | with_reducible apply Keeps.ite
    | (with_reducible apply Keeps.foldl)
    | refine Keeps.fst (by assumption) ?_
    | refine Keeps.snd (by assumption) ?_
    | split

theorem State.strokePass_keeps {s : State} {t : Nat} (hs : Keeps ini s) :
    Keeps ini (State.strokePass s t) := by
  unfold State.strokePass
  repeat' first
    | intro _ _ _
    | with_reducible assumption
    | with_reducible apply State.countLines_keeps
    | with_reducible apply State.updStroke_keeps
    | with_reducible apply State.runError_keeps
    | with_reducible apply State.forward_keeps
    | simp only [Keeps.mk_iff]
    | with_reducible apply Keeps.other
    | with_reducible apply Keeps.ite
    | (with_reducible apply Keeps.foldl)
    | refine Keeps.fst (by assumption) ?_
    | refine Keeps.snd (by assumption) ?_
    | split

theorem State.strokeEnd_keeps {s : State} {t : Nat} (hs : Keeps ini s) :
    Keeps ini (State.strokeEnd s t) := by
  unfold State.strokeEnd
  repeat' first
    | intro _ _ _
    | with_reducible assumption
    | with_reducible apply State.countLines_keeps
    | with_reducible apply State.runError_keeps
    | with_reducible apply State.updStroke_keeps
    | with_reducible apply State.writeBytes_keeps
    | with_reducible apply State.endRun_keeps
    | simp only [Keeps.mk_iff]
    | with_reducible apply Keeps.other
    | with_reducible apply Keeps.ite
    | (with_reducible apply Keeps.foldl)
    | refine Keeps.fst (by assumption) ?_
    | refine Keeps.snd (by assumption) ?_
    | split

theorem execStart_keeps {t : Nat} {s : State} {out : State} (e : execStart t s = .next out) (hs : Keeps ini s) :
    Keeps ini out := by
  unfold execStart at e
  obtain rfl := Host.Outcome.next.inj e
  repeat' first
    | with_reducible assumption
    | with_reducible apply State.strokeStart_keeps

theorem execStrokePass_keeps {t : Nat} {s : State} {out : State} (e : execStrokePass t s = .next out) (hs : Keeps ini
    s) :
    Keeps ini out := by
  unfold execStrokePass at e
  obtain rfl := Host.Outcome.next.inj e
  repeat' first
    | with_reducible assumption
    | with_reducible apply State.strokePass_keeps

theorem execRunEnd_keeps {t : Nat} {s : State} {out : State} (e : execRunEnd t s = .next out) (hs : Keeps ini s) :
    Keeps ini out := by
  unfold execRunEnd at e
  obtain rfl := Host.Outcome.next.inj e
  repeat' first
    | with_reducible assumption
    | with_reducible apply State.strokeEnd_keeps

theorem State.strokeAbort_keeps {s : State} {t : Nat} (hs : Keeps ini s) :
    Keeps ini (State.strokeAbort s t) := by
  unfold State.strokeAbort
  repeat' first
    | with_reducible assumption
    | with_reducible apply State.endRun_keeps
    | with_reducible apply Keeps.ite

theorem execStkAbort_keeps {t : Nat} {s : State} {out : State} (e : execStkAbort t s = .next out) (hs : Keeps ini s)
    :
    Keeps ini out := by
  unfold execStkAbort at e
  obtain rfl := Host.Outcome.next.inj e
  repeat' first
    | with_reducible assumption
    | with_reducible apply State.strokeAbort_keeps

theorem State.strokeResetEst_keeps {s : State} {t : Nat} (hs : Keeps ini s) :
    Keeps ini (State.strokeResetEst s t) := by
  unfold State.strokeResetEst
  repeat' first
    | with_reducible assumption
    | with_reducible apply State.updStroke_keeps

theorem execResetEst_keeps {t : Nat} {s : State} {out : State} (e : execResetEst t s = .next out) (hs : Keeps ini s)
    :
    Keeps ini out := by
  unfold execResetEst at e
  obtain rfl := Host.Outcome.next.inj e
  repeat' first
    | with_reducible assumption
    | with_reducible apply State.strokeResetEst_keeps

theorem State.blotRelease_keeps {s : State} {t : Nat} (hs : Keeps ini s) :
    Keeps ini (State.blotRelease s t) := by
  unfold State.blotRelease
  repeat' first
    | intro _ _ _
    | with_reducible assumption
    | with_reducible apply State.updStroke_keeps
    | with_reducible apply State.updCore_keeps
    | with_reducible apply State.failTask_keeps
    | simp only [Keeps.mk_iff]
    | with_reducible apply Keeps.other
    | with_reducible apply Keeps.ite
    | (with_reducible apply Keeps.foldl)
    | refine Keeps.fst (by assumption) ?_
    | refine Keeps.snd (by assumption) ?_
    | split

theorem execBlotterRelease_keeps {t : Nat} {s : State} {out : State} (e : execBlotterRelease t s = .next out) (hs :
    Keeps ini s) :
    Keeps ini out := by
  unfold execBlotterRelease at e
  obtain rfl := Host.Outcome.next.inj e
  repeat' first
    | with_reducible assumption
    | with_reducible apply State.blotRelease_keeps

theorem State.strokeWrite_keeps {s : State} {t off : Nat} {v : Word} (hs : Keeps ini s) :
    Keeps ini (State.strokeWrite s t off v) := by
  unfold State.strokeWrite
  repeat' first
    | with_reducible assumption
    | with_reducible apply State.updStroke_keeps
    | with_reducible apply State.strokeAbort_keeps
    | with_reducible apply State.strokeStart_keeps
    | with_reducible apply State.strokeResetEst_keeps
    | simp only [Keeps.mk_iff]
    | with_reducible apply Keeps.other
    | with_reducible apply Keeps.ite
    | refine Keeps.fst (by assumption) ?_
    | refine Keeps.snd (by assumption) ?_
    | split

end Sys2Proof.Machine
end

