-- ==== Sys2Proof/Laws/ScanKeeps.lean ====
section
/-! SUPPORT. The operations of Machine/Scan.lean keep what Keeps names. -/

namespace Sys2Proof.Machine

variable {ini : State}

theorem State.opDone_keeps {s : State} {t : Nat} {bs : List Batch} (hs : Keeps ini s) :
    Keeps ini (State.opDone s t bs) := by
  unfold State.opDone
  repeat' first
    | with_reducible assumption
    | with_reducible apply State.updTile_keeps

theorem State.taskObj_keeps {s : State} {t f obj : Nat} {drive : Option Nat} (hs : Keeps ini s) :
    Keeps ini (State.taskObj s t f obj drive).1 := by
  unfold State.taskObj
  repeat' first
    | with_reducible assumption
    | with_reducible apply State.logSegment_keeps
    | with_reducible apply Keeps.ite
    | refine Keeps.fst (by assumption) ?_
    | refine Keeps.snd (by assumption) ?_
    | split

theorem State.taskSeg_keeps {s : State} {t f obj m : Nat} {drive : Option Nat} (hs : Keeps ini s) :
    Keeps ini (State.taskSeg s t f obj m drive).1 := by
  unfold State.taskSeg
  repeat' first
    | with_reducible assumption
    | with_reducible apply State.taskObj_keeps
    | with_reducible apply State.openSeg_keeps
    | with_reducible apply Keeps.ite
    | refine Keeps.fst (by assumption) ?_
    | refine Keeps.snd (by assumption) ?_
    | split

theorem State.loadField_keeps {s : State} {t f obj m : Nat} {drive : Option Nat} {x : FieldD} {rows : List Nat} (hs :
    Keeps ini s) :
    Keeps ini (State.loadField s t f obj m drive x rows).1 := by
  unfold State.loadField
  repeat' first
    | with_reducible assumption
    | with_reducible apply State.taskSeg_keeps
    | with_reducible apply Keeps.ite
    | refine Keeps.fst (by assumption) ?_
    | refine Keeps.snd (by assumption) ?_
    | split

theorem State.loadFields_keeps {s : State} {t f m : Nat} {drive : Option Nat} {rows : List Nat}
    {a1 : List (Nat × FieldD)} (hs : Keeps ini s) :
    Keeps ini (State.loadFields s t f m drive rows a1).1 := by
  induction a1 generalizing s t f m drive rows with
  | nil =>
    unfold State.loadFields
    repeat' first
      | with_reducible assumption
  | cons x r ih =>
    unfold State.loadFields
    repeat' first
      | with_reducible assumption
      | with_reducible apply ih
      | with_reducible apply State.loadField_keeps
      | refine Keeps.fst (by assumption) ?_
      | refine Keeps.snd (by assumption) ?_
      | split

theorem State.strokeRun_keeps {s : State} {t addr : Nat} {ctl : BitVec 32} {pred : BitVec 32} {consts : List Word}
    (hs : Keeps ini s) :
    Keeps ini (State.strokeRun s t addr ctl pred consts).1 := by
  unfold State.strokeRun
  repeat' first
    | intro _ _ _
    | with_reducible assumption
    | with_reducible apply State.updStroke_keeps
    | with_reducible apply State.strokeStart_keeps
    | with_reducible apply State.strokePass_keeps
    | with_reducible apply State.strokeEnd_keeps
    | simp only [Keeps.mk_iff]
    | with_reducible apply Keeps.other
    | with_reducible apply Keeps.ite
    | (with_reducible apply Keeps.foldl)

theorem State.runEnt_keeps {s : State} {t f m : Nat} {drive : Option Nat} {zone first : Bool} {e : ScanEnt} (hs :
    Keeps ini s) :
    Keeps ini (State.runEnt s t f m drive zone first e).1 := by
  unfold State.runEnt
  repeat' first
    | with_reducible assumption
    | with_reducible apply State.taskSeg_keeps
    | with_reducible apply State.strokeRun_keeps
    | with_reducible apply Keeps.ite
    | refine Keeps.fst (by assumption) ?_
    | refine Keeps.snd (by assumption) ?_
    | split

theorem State.runEnts_keeps {s : State} {t f m : Nat} {drive : Option Nat} {zone first : Bool} {a1 : List ScanEnt}
    (hs : Keeps ini s) :
    Keeps ini (State.runEnts s t f m drive zone first a1).1 := by
  induction a1 generalizing s t f m drive zone first with
  | nil =>
    unfold State.runEnts
    repeat' first
      | with_reducible assumption
  | cons x r ih =>
    unfold State.runEnts
    repeat' first
      | with_reducible assumption
      | with_reducible apply ih
      | with_reducible apply State.runEnt_keeps
      | refine Keeps.fst (by assumption) ?_
      | refine Keeps.snd (by assumption) ?_
      | split

theorem State.checkObjs_keeps {s : State} {t f : Nat} {drive : Option Nat} {a1 : List Nat} (hs : Keeps ini s) :
    Keeps ini (State.checkObjs s t f drive a1).1 := by
  induction a1 generalizing s t f drive with
  | nil =>
    unfold State.checkObjs
    repeat' first
      | with_reducible assumption
  | cons x r ih =>
    unfold State.checkObjs
    repeat' first
      | with_reducible assumption
      | with_reducible apply ih
      | with_reducible apply State.taskObj_keeps
      | refine Keeps.fst (by assumption) ?_
      | refine Keeps.snd (by assumption) ?_
      | split

theorem State.topkRun_keeps {s : State} {t : Nat} {c : OpCtx} {m : Nat} {zone first : Bool} {es : List ScanEnt} (hs :
    Keeps ini s) :
    Keeps ini (State.topkRun s t c m zone first es).1 := by
  unfold State.topkRun
  repeat' first
    | with_reducible assumption
    | with_reducible apply State.taskSeg_keeps
    | with_reducible apply State.strokeRun_keeps
    | with_reducible apply Keeps.ite
    | refine Keeps.fst (by assumption) ?_
    | refine Keeps.snd (by assumption) ?_
    | split
    | dsimp only

theorem State.scanObjects_keeps {s : State} {t : Nat} {c : OpCtx} (hs : Keeps ini s) :
    Keeps ini (State.scanObjects s t c) := by
  unfold State.scanObjects
  repeat' first
    | with_reducible assumption
    | with_reducible apply State.updStroke_keeps
    | with_reducible apply State.checkObjs_keeps
    | with_reducible apply State.runEnts_keeps
    | with_reducible apply State.topkRun_keeps
    | with_reducible apply State.taskSeg_keeps
    | with_reducible apply State.opFail_keeps
    | with_reducible apply State.loadFields_keeps
    | with_reducible apply State.opDone_keeps
    | simp only [Keeps.mk_iff]
    | with_reducible apply Keeps.other
    | with_reducible apply Keeps.ite
    | refine Keeps.fst (by assumption) ?_
    | refine Keeps.snd (by assumption) ?_
    | split

theorem State.scanTable_keeps {s : State} {t : Nat} {c : OpCtx} (hs : Keeps ini s) :
    Keeps ini (State.scanTable s t c) := by
  unfold State.scanTable
  repeat' first
    | with_reducible assumption
    | with_reducible apply State.opFail_keeps
    | with_reducible refine State.take_keeps (by assumption) ?_
    | with_reducible apply State.opDone_keeps
    | with_reducible apply Keeps.ite

theorem State.scanArrow_keeps {s : State} {t : Nat} {c : OpCtx} (hs : Keeps ini s) :
    Keeps ini (State.scanArrow s t c) := by
  unfold State.scanArrow
  repeat' first
    | with_reducible assumption
    | with_reducible apply State.opFail_keeps
    | with_reducible apply State.opDone_keeps
    | simp only [Keeps.mk_iff]
    | with_reducible apply Keeps.other
    | refine Keeps.fst (by assumption) ?_
    | refine Keeps.snd (by assumption) ?_
    | split

theorem execScan_keeps {t : Nat} {s : State} {out : State} (e : execScan t s = .next out) (hs : Keeps ini s) :
    Keeps ini out := by
  unfold execScan at e
  obtain rfl := Host.Outcome.next.inj e
  repeat' first
    | with_reducible assumption
    | with_reducible apply State.scanTable_keeps
    | with_reducible apply State.scanArrow_keeps
    | with_reducible apply State.opFail_keeps
    | with_reducible apply State.scanObjects_keeps
    | with_reducible apply Keeps.ite
    | refine Keeps.fst (by assumption) ?_
    | refine Keeps.snd (by assumption) ?_
    | split

theorem State.filterRows_keeps {s : State} {t : Nat} {c : OpCtx} (hs : Keeps ini s) :
    Keeps ini (State.filterRows s t c) := by
  unfold State.filterRows
  repeat' first
    | with_reducible assumption
    | with_reducible apply State.opFail_keeps
    | with_reducible apply State.opDone_keeps
    | simp only [Keeps.mk_iff]
    | with_reducible apply Keeps.other
    | with_reducible apply Keeps.ite

theorem State.filterRun_keeps {s : State} {t : Nat} {c : OpCtx} {e : ScanEnt} {b : Batch} (hs : Keeps ini s) :
    Keeps ini (State.filterRun s t c e b).1 := by
  unfold State.filterRun
  repeat' first
    | with_reducible assumption
    | with_reducible apply State.taskSeg_keeps
    | with_reducible apply State.updStroke_keeps
    | with_reducible apply State.strokeRun_keeps
    | simp only [Keeps.mk_iff]
    | with_reducible apply Keeps.other
    | with_reducible apply Keeps.ite
    | refine Keeps.fst (by assumption) ?_
    | refine Keeps.snd (by assumption) ?_
    | split

theorem State.filterRuns_keeps {s : State} {t : Nat} {c : OpCtx} {e : ScanEnt} {a1 : List Batch} {a2 : List Batch}
    (hs : Keeps ini s) :
    Keeps ini (State.filterRuns s t c e a1 a2) := by
  induction a1 generalizing s t c e a2 with
  | nil =>
    unfold State.filterRuns
    repeat' first
      | with_reducible assumption
      | with_reducible apply State.opDone_keeps
  | cons x r ih =>
    unfold State.filterRuns
    repeat' first
      | with_reducible assumption
      | with_reducible apply ih
      | with_reducible apply State.opDone_keeps
      | with_reducible apply State.filterRun_keeps
      | with_reducible apply State.opFail_keeps
      | refine Keeps.fst (by assumption) ?_
      | refine Keeps.snd (by assumption) ?_
      | split

theorem execFilter_keeps {t : Nat} {s : State} {out : State} (e : execFilter t s = .next out) (hs : Keeps ini s) :
    Keeps ini out := by
  unfold execFilter at e
  obtain rfl := Host.Outcome.next.inj e
  repeat' first
    | with_reducible assumption
    | with_reducible apply State.filterRows_keeps
    | with_reducible apply State.opFail_keeps
    | with_reducible apply State.filterRuns_keeps
    | with_reducible apply Keeps.ite
    | refine Keeps.fst (by assumption) ?_
    | refine Keeps.snd (by assumption) ?_
    | split

theorem State.projectBatch_keeps {s : State} {t : Nat} {c : OpCtx} {b : Batch} (hs : Keeps ini s) :
    Keeps ini (State.projectBatch s t c b).1 := by
  unfold State.projectBatch
  repeat' first
    | with_reducible assumption
    | with_reducible apply State.loadFields_keeps
    | simp only [Keeps.mk_iff]
    | with_reducible apply Keeps.other
    | with_reducible apply Keeps.ite
    | refine Keeps.fst (by assumption) ?_
    | refine Keeps.snd (by assumption) ?_
    | split

theorem State.projectAll_keeps {s : State} {t : Nat} {c : OpCtx} {a1 : List Batch} {a2 : List Batch} (hs : Keeps ini
    s) :
    Keeps ini (State.projectAll s t c a1 a2) := by
  induction a1 generalizing s t c a2 with
  | nil =>
    unfold State.projectAll
    repeat' first
      | with_reducible assumption
      | with_reducible apply State.opDone_keeps
  | cons x r ih =>
    unfold State.projectAll
    repeat' first
      | with_reducible assumption
      | with_reducible apply ih
      | with_reducible apply State.opDone_keeps
      | with_reducible apply State.projectBatch_keeps
      | with_reducible apply State.opFail_keeps
      | refine Keeps.fst (by assumption) ?_
      | refine Keeps.snd (by assumption) ?_
      | split

theorem execProject_keeps {t : Nat} {s : State} {out : State} (e : execProject t s = .next out) (hs : Keeps ini s) :
    Keeps ini out := by
  unfold execProject at e
  obtain rfl := Host.Outcome.next.inj e
  repeat' first
    | with_reducible assumption
    | with_reducible apply State.projectAll_keeps
    | refine Keeps.fst (by assumption) ?_
    | refine Keeps.snd (by assumption) ?_
    | split

end Sys2Proof.Machine
end

