-- ==== Sys2Proof/Laws/KernelKeeps.lean ====
section
/-! SUPPORT. The operations of Machine/Kernel.lean keep what Keeps names. -/

namespace Sys2Proof.Machine

variable {ini : State}

theorem State.placeAll_keeps {s : State} {f q : Nat} {l : List (List Byte)} {r : List Nat} {out : State}
    (e : State.placeAll s f q l = some (r, out)) (hs : Keeps ini s) : Keeps ini out := by
  induction l generalizing s r with
  | nil => cases e; exact hs
  | cons b rest ih =>
    unfold State.placeAll at e
    split at e
    · simp only [Option.map_eq_some_iff] at e
      obtain ⟨w, hw, e⟩ := e
      cases e
      exact ih (r := w.1) hw hs
    · simp only [Option.bind_eq_some_iff, Option.map_eq_some_iff] at e
      obtain ⟨p, hp, w, hw, e⟩ := e
      cases e
      exact ih (r := w.1) hw (State.writeBytes_keeps (State.placeFor_keeps (r := p.1) hp hs))

theorem State.enterKernel_keeps {s : State} {t : Nat} {c : OpCtx} {b : Batch} {todo done : List Batch} (hs : Keeps ini s) :
    Keeps ini (State.enterKernel s t c b todo done) := by
  unfold State.enterKernel
  extract_lets +onlyGivenNames n ids sol inF inN outF outN placed withDesc
  have hsol : Keeps ini sol.2 := State.solid_keeps hs
  clear_value sol
  cases e : withDesc with
  | none => exact State.opFail_keeps hs
  | some r =>
    obtain ⟨addr, di, dout, extra, s1⟩ := r
    have h1 : Keeps ini s1 := by
      simp only [withDesc, Option.bind_eq_some_iff] at e
      obtain ⟨r, hr, e⟩ := e
      have h0 : Keeps ini r.2 := State.placeAll_keeps (r := r.1) hr hsol
      split at e
      · cases e; exact h0
      · simp only [Option.map_eq_some_iff] at e
        obtain ⟨w, hw, e⟩ := e
        cases e
        exact State.placeFor_keeps (r := w.1) hw h0
    exact State.updTile_keeps (State.writeBytes_keeps (State.writeBytes_keeps h1))

theorem State.leaveKernel_keeps {s : State} {t : Nat} {c : OpCtx} {k : Kernel} (hs : Keeps ini s) :
    Keeps ini (State.leaveKernel s t c k) := by
  unfold State.leaveKernel
  repeat' first
    | intro _ _ _
    | with_reducible assumption
    | with_reducible apply State.unplaceFor_keeps
    | with_reducible apply State.updTile_keeps
    | simp only [Keeps.mk_iff]
    | with_reducible apply Keeps.other
    | (with_reducible apply Keeps.foldl)

theorem State.computeStep_keeps {s : State} {t : Nat} (hs : Keeps ini s) :
    Keeps ini (State.computeStep s t) := by
  unfold State.computeStep
  repeat' first
    | with_reducible assumption
    | with_reducible apply State.opDone_keeps
    | with_reducible apply State.enterKernel_keeps
    | with_reducible apply State.updTile_keeps
    | with_reducible apply State.leaveKernel_keeps
    | with_reducible apply State.opFail_keeps
    | simp only [Keeps.mk_iff]
    | with_reducible apply Keeps.other
    | with_reducible apply Keeps.ite
    | refine Keeps.fst (by assumption) ?_
    | refine Keeps.snd (by assumption) ?_
    | split

theorem execCompute_keeps {t : Nat} {s : State} {out : State} (e : execCompute t s = .next out) (hs : Keeps ini s) :
    Keeps ini out := by
  unfold execCompute at e
  obtain rfl := Host.Outcome.next.inj e
  repeat' first
    | with_reducible assumption
    | with_reducible apply State.computeStep_keeps

end Sys2Proof.Machine
end

