-- ==== Sys2Proof/Laws/JoinKeeps.lean ====
section
/-! SUPPORT. The operations of Machine/Join.lean keep what Keeps names. -/

namespace Sys2Proof.Machine

variable {ini : State}

theorem State.spillOne_keeps {s : State} {f q k size : Nat} {out : State} (e : State.spillOne s f q k size = some
    out) (hs : Keeps ini s) :
    Keeps ini out := by
  unfold State.spillOne at e
  repeat' first
    | with_reducible assumption
    | cases e
    | split at e
    | dsimp only at e
    | with_reducible apply State.updQuery_keeps

theorem State.spillRows_keeps {s : State} {f q lg size : Nat} {had l : List JRow} {out : State}
    (e : State.spillRows s f q lg size had l = some out) (hs : Keeps ini s) : Keeps ini out := by
  induction l generalizing s had with
  | nil => cases e; exact hs
  | cons r rest ih =>
    simp only [State.spillRows, Option.bind_eq_some_iff] at e
    obtain ⟨s1, h1, e⟩ := e
    exact ih e (State.spillOne_keeps h1 hs)

theorem State.putRow_keeps {s : State} {f q i p size j : Nat} {b : List Byte} {out : State} (e : State.putRow s f q i
    p size j b = some out) (hs : Keeps ini s) :
    Keeps ini out := by
  unfold State.putRow at e
  repeat' first
    | with_reducible assumption
    | simp only [Option.map_eq_some_iff] at e
    | (obtain ⟨_, _, e⟩ := e)
    | cases e
    | split at e
    | dsimp only at e
    | with_reducible apply State.writeBytes_keeps
    | with_reducible refine State.placeFor_keeps (by assumption) ?_
    | with_reducible apply State.updBrk_keeps
    | simp only [Keeps.mk_iff]
    | with_reducible apply Keeps.other
    | with_reducible apply Keeps.ite
    | refine Keeps.fst (by assumption) ?_
    | refine Keeps.snd (by assumption) ?_
    | split

theorem State.buildRow_keeps {s : State} {c : OpCtx} {payD : List FieldD} {r : Row} {out : State} (e : State.buildRow
    s c payD r = some out) (hs : Keeps ini s) :
    Keeps ini out := by
  unfold State.buildRow at e
  repeat' first
    | intro _ _ _
    | simp only [Option.map_eq_some_iff] at e
    | (obtain ⟨_, _, e⟩ := e)
    | cases e
    | split at e
    | dsimp only at e
    | with_reducible assumption
    | with_reducible apply State.updBrk_keeps
    | with_reducible refine State.spillRows_keeps (by assumption) ?_
    | with_reducible apply State.unplaceFor_keeps
    | with_reducible refine State.putRow_keeps (by assumption) ?_
    | simp only [Keeps.mk_iff]
    | with_reducible apply Keeps.other
    | with_reducible apply Keeps.ite
    | (with_reducible apply Keeps.foldl)

theorem execHashBuild_keeps {t : Nat} {s out : State} (e : execHashBuild t s = .next out) (hs : Keeps ini s) : Keeps ini out := by
  unfold execHashBuild at e
  obtain rfl := Host.Outcome.next.inj e
  clear e
  split
  · exact hs
  · dsimp only
    split
    · exact State.opFail_keeps hs
    · rename_i s1 e1
      exact State.opDone_keeps (State.joinDir_keeps (Keeps.foldl_bind e1 hs fun r s out e hs => State.buildRow_keeps e hs))

theorem State.putChain_keeps {s : State} {f q n a : Nat} {l : List (Nat × Nat)} {out : State}
    (e : State.putChain s f q n a l = some out) (hs : Keeps ini s) : Keeps ini out := by
  induction n generalizing s a l with
  | zero => cases e; exact hs
  | succ k ih =>
    unfold State.putChain at e
    split at e
    · cases e; exact State.writeBytes_keeps hs
    · simp only [Option.bind_eq_some_iff] at e
      obtain ⟨r, hr, e⟩ := e
      exact ih e (State.writeBytes_keeps (State.placeFor_keeps (r := r.1) hr hs))

theorem State.indexPart_keeps {s : State} {c : OpCtx} {p : Nat} {out : State} (e : State.indexPart s c p = some out)
    (hs : Keeps ini s) : Keeps ini out := by
  unfold State.indexPart at e
  dsimp only at e
  simp only [Option.bind_eq_some_iff, Option.map_eq_some_iff] at e
  obtain ⟨r, hr, s2, h2, e⟩ := e
  subst e
  refine State.joinDir_keeps (Keeps.foldl_bind h2 ?_ fun x s out e hs => State.putChain_keeps e hs)
  exact State.updBrk_keeps (State.writeBytes_keeps (State.placeFor_keeps (r := r.1) hr hs))

theorem execIndexTask_keeps {t : Nat} {s : State} {out : State} (e : execIndexTask t s = .next out) (hs : Keeps ini
    s) :
    Keeps ini out := by
  unfold execIndexTask at e
  obtain rfl := Host.Outcome.next.inj e
  repeat' first
    | with_reducible assumption
    | with_reducible refine State.indexPart_keeps (by assumption) ?_
    | with_reducible apply State.opFail_keeps
    | with_reducible apply State.opDone_keeps
    | refine Keeps.fst (by assumption) ?_
    | refine Keeps.snd (by assumption) ?_
    | split

theorem State.deferProbe_keeps {s : State} {c : OpCtx} {p : Nat} {jr : JRow} {r : Row} {out : State} (e :
    State.deferProbe s c p jr r = some out) (hs : Keeps ini s) :
    Keeps ini out := by
  unfold State.deferProbe at e
  repeat' first
    | with_reducible assumption
    | simp only [Option.map_eq_some_iff] at e
    | (obtain ⟨_, _, e⟩ := e)
    | cases e
    | split at e
    | dsimp only at e
    | with_reducible refine State.spillOne_keeps (by assumption) ?_
    | with_reducible apply State.updBrk_keeps

theorem State.probeRow_keeps {s : State} {c : OpCtx} {r : Row} {y : List Row} {out : State}
    (e : State.probeRow s c r = some (out, y)) (hs : Keeps ini s) : Keeps ini out := by
  unfold State.probeRow at e
  dsimp only at e
  split at e
  · simp only [Option.map_eq_some_iff] at e
    obtain ⟨s1, h1, e⟩ := e
    cases e
    exact State.deferProbe_keeps h1 hs
  · cases e; exact hs

theorem State.probeBatch_keeps {s : State} {c : OpCtx} {b : Batch} {r : List Batch} {out : State}
    (e : State.probeBatch s c b = some (out, r)) (hs : Keeps ini s) : Keeps ini out := by
  simp only [State.probeBatch, Option.map_eq_some_iff] at e
  obtain ⟨w, hw, e⟩ := e
  cases e
  refine Keeps.foldl_bind_fst (b := w.2) hw hs fun x p q e hs => ?_
  simp only [Option.map_eq_some_iff] at e
  obtain ⟨z, hz, e⟩ := e
  cases e
  exact State.probeRow_keeps (y := z.2) hz hs

theorem execHashProbe_keeps {t : Nat} {s out : State} (e : execHashProbe t s = .next out) (hs : Keeps ini s) : Keeps ini out := by
  unfold execHashProbe at e
  obtain rfl := Host.Outcome.next.inj e
  clear e
  split
  · exact hs
  · split
    · exact State.opFail_keeps hs
    · split
      · exact State.opFail_keeps hs
      · rename_i e1
        refine State.opDone_keeps (Keeps.foldl_bind_fst e1 hs fun x p q e hs => ?_)
        simp only [Option.map_eq_some_iff] at e
        obtain ⟨z, hz, e⟩ := e
        cases e
        exact State.probeBatch_keeps (r := z.2) hz hs

theorem State.subJoin_keeps {s : State} {c : OpCtx} {p k : Nat} {r : List Row} {out : State}
    (e : State.subJoin s c p k = some (out, r)) (hs : Keeps ini s) : Keeps ini out := by
  unfold State.subJoin at e
  extract_lets at e
  split at e
  · obtain ⟨rfl, -⟩ := Prod.mk.inj (Option.some.inj e)
    exact State.updBrk_keeps (State.updQuery_keeps hs)
  · split at e
    · cases e
    · obtain ⟨rfl, -⟩ := Prod.mk.inj (Option.some.inj e)
      exact State.updBrk_keeps (State.updBrk_keeps (State.updQuery_keeps hs))

theorem execSpillSubpartition_keeps {t : Nat} {s : State} {out : State} (e : execSpillSubpartition t s = .next out)
    (hs : Keeps ini s) :
    Keeps ini out := by
  unfold execSpillSubpartition at e
  obtain rfl := Host.Outcome.next.inj e
  repeat' first
    | with_reducible assumption
    | with_reducible refine State.subJoin_keeps (by assumption) ?_
    | with_reducible apply State.opFail_keeps
    | with_reducible apply State.joinDir_keeps
    | with_reducible apply State.opDone_keeps
    | refine Keeps.fst (by assumption) ?_
    | refine Keeps.snd (by assumption) ?_
    | split
    | dsimp only

end Sys2Proof.Machine
end

