-- ==== Sys2Proof/Laws/AggregateKeeps.lean ====
section
/-! SUPPORT. The operations of Machine/Aggregate.lean keep what Keeps names. -/

namespace Sys2Proof.Machine

variable {ini : State}

theorem State.groupChain_keeps {s : State} {f q n a : Nat} {l : List (Nat × Nat)} {ov : List Nat} {r : List Nat × List Nat} {out : State}
    (e : State.groupChain s f q n a l ov = some (out, r)) (hs : Keeps ini s) : Keeps ini out := by
  induction n generalizing s a l ov r with
  | zero => cases e; exact hs
  | succ k ih =>
    unfold State.groupChain at e
    split at e
    · cases e; exact State.writeBytes_keeps hs
    · simp only [Option.bind_eq_some_iff, Option.map_eq_some_iff] at e
      obtain ⟨g, hg, w, hw, e⟩ := e
      cases e
      refine ih (r := w.2) hw (State.writeBytes_keeps ?_)
      split at hg
      · cases hg; exact hs
      · simp only [Option.map_eq_some_iff] at hg
        obtain ⟨x, hx, hg⟩ := hg
        cases hg
        exact State.placeFor_keeps (r := x.1) hx hs

theorem State.syncGroups_keeps {s : State} {c : OpCtx} {p : Nat} {out : State} (e : State.syncGroups s c p = some out)
    (hs : Keeps ini s) : Keeps ini out := by
  unfold State.syncGroups at e
  extract_lets +onlyGivenNames x bb k area placed at e
  simp only [Option.bind_eq_some_iff, Option.map_eq_some_iff] at e
  obtain ⟨r, hr, z, hz, e⟩ := e
  subst e
  have h1 : Keeps ini r.2 := by
    simp only [placed] at hr
    split at hr
    · cases hr; exact hs
    · simp only [Option.map_eq_some_iff] at hr
      obtain ⟨w, hw, hr⟩ := hr
      cases hr
      exact State.writeBytes_keeps (State.placeFor_keeps (r := w.1) hw hs)
  refine State.updBrk_keeps (Keeps.foldl_bind_fst (b := z.2) hz (State.writeBytes_keeps h1) fun y p q e hs => ?_)
  simp only [Option.map_eq_some_iff] at e
  obtain ⟨w, hw, e⟩ := e
  cases e
  exact State.groupChain_keeps (r := w.2) hw hs

theorem State.updAPart_keeps {s : State} {c : OpCtx} {p : Nat} {g : APart → APart} (hs : Keeps ini s) :
    Keeps ini (State.updAPart s c p g) := by
  unfold State.updAPart
  repeat' first
    | with_reducible assumption
    | with_reducible apply State.updBrk_keeps

theorem State.aggRow_keeps {s : State} {c : OpCtx} {r : Row} {out : State} (e : State.aggRow s c r = some out) (hs :
    Keeps ini s) :
    Keeps ini out := by
  unfold State.aggRow at e
  repeat' first
    | with_reducible assumption
    | simp only [Option.map_eq_some_iff] at e
    | (obtain ⟨_, _, e⟩ := e)
    | cases e
    | split at e
    | dsimp only at e
    | with_reducible apply State.updAPart_keeps
    | with_reducible refine State.take_keeps (by assumption) ?_
    | with_reducible refine State.spillOne_keeps (by assumption) ?_

theorem State.aggPartial_keeps {s : State} {c : OpCtx} {g : Group} {out : State} (e : State.aggPartial s c g = some
    out) (hs : Keeps ini s) :
    Keeps ini out := by
  unfold State.aggPartial at e
  repeat' first
    | with_reducible assumption
    | simp only [Option.map_eq_some_iff] at e
    | (obtain ⟨_, _, e⟩ := e)
    | cases e
    | split at e
    | dsimp only at e
    | with_reducible apply State.updAPart_keeps
    | with_reducible refine State.spillOne_keeps (by assumption) ?_

theorem State.aggBatch_keeps {s : State} {c : OpCtx} {b : Batch} {out : State} (e : State.aggBatch s c b = some out)
    (hs : Keeps ini s) : Keeps ini out :=
  Keeps.foldl_bind e hs fun _ _ _ e hs => State.aggPartial_keeps e hs

theorem execAggHash_keeps {t : Nat} {s out : State} (e : execAggHash t s = .next out) (hs : Keeps ini s) : Keeps ini out := by
  unfold execAggHash at e
  obtain rfl := Host.Outcome.next.inj e
  clear e
  split
  · exact hs
  · split
    · exact State.opFail_keeps hs
    · extract_lets +onlyGivenNames res touched
      split
      · exact State.opFail_keeps hs
      · rename_i s2 e
        simp only [Option.bind_eq_some_iff] at e
        obtain ⟨s1, h1, e⟩ := e
        refine State.opDone_keeps (Keeps.foldl_bind e ?_ fun _ _ _ e hs => State.syncGroups_keeps e hs)
        refine Keeps.foldl_bind h1 hs fun b s o e hs => ?_
        split at e
        · exact State.aggBatch_keeps e hs
        · exact Keeps.foldl_bind e hs fun _ _ _ e hs => State.aggRow_keeps e hs

theorem State.finalPart_keeps {s : State} {c : OpCtx} {p : Nat} {out : State} (e : State.finalPart s c p = .inr out)
    (hs : Keeps ini s) :
    Keeps ini out := by
  unfold State.finalPart at e
  repeat' first
    | with_reducible assumption
    | simp only [Option.map_eq_some_iff] at e
    | (obtain ⟨_, _, e⟩ := e)
    | cases e
    | split at e
    | dsimp only at e
    | with_reducible apply State.updAPart_keeps

theorem execFinalisationTask_keeps {t : Nat} {s : State} {out : State} (e : execFinalisationTask t s = .next out) (hs
    : Keeps ini s) :
    Keeps ini out := by
  unfold execFinalisationTask at e
  obtain rfl := Host.Outcome.next.inj e
  repeat' first
    | with_reducible assumption
    | with_reducible refine State.finalPart_keeps (by assumption) ?_
    | with_reducible apply State.opFail_keeps
    | with_reducible apply State.opDone_keeps
    | refine Keeps.fst (by assumption) ?_
    | refine Keeps.snd (by assumption) ?_
    | split

theorem State.planeBatch_keeps {s : State} {t : Nat} {c : OpCtx} {b : Batch} (hs : Keeps ini s) :
    Keeps ini (State.planeBatch s t c b).1 := by
  unfold State.planeBatch
  repeat' first
    | with_reducible assumption
    | with_reducible apply State.taskSeg_keeps
    | with_reducible apply State.updStroke_keeps
    | with_reducible apply State.strokeRun_keeps
    | with_reducible apply State.updBrk_keeps
    | with_reducible apply State.writeBytes_keeps
    | simp only [Keeps.mk_iff]
    | with_reducible apply Keeps.other
    | with_reducible apply Keeps.ite
    | refine Keeps.fst (by assumption) ?_
    | refine Keeps.snd (by assumption) ?_
    | split

theorem State.planeAll_keeps {s : State} {t : Nat} {c : OpCtx} {a1 : List Batch} (hs : Keeps ini s) :
    Keeps ini (State.planeAll s t c a1) := by
  induction a1 generalizing s t c with
  | nil =>
    unfold State.planeAll
    repeat' first
      | with_reducible assumption
      | with_reducible apply State.opDone_keeps
  | cons x r ih =>
    unfold State.planeAll
    repeat' first
      | with_reducible assumption
      | with_reducible apply ih
      | with_reducible apply State.opDone_keeps
      | with_reducible apply State.planeBatch_keeps
      | with_reducible apply State.opFail_keeps
      | refine Keeps.fst (by assumption) ?_
      | refine Keeps.snd (by assumption) ?_
      | split

theorem execAggPlane_keeps {t : Nat} {s : State} {out : State} (e : execAggPlane t s = .next out) (hs : Keeps ini s)
    :
    Keeps ini out := by
  unfold execAggPlane at e
  obtain rfl := Host.Outcome.next.inj e
  repeat' first
    | with_reducible assumption
    | with_reducible apply State.planeAll_keeps
    | with_reducible apply Keeps.ite
    | refine Keeps.fst (by assumption) ?_
    | refine Keeps.snd (by assumption) ?_
    | split

end Sys2Proof.Machine
end

