-- ==== Sys2Proof/Laws/KRecvKeeps.lean ====
section
/-! SUPPORT. The operations of Machine/KRecv.lean keep what Keeps names. -/

namespace Sys2Proof.Machine

variable {ini : State}

theorem State.sendLink_keeps {s : State} {p op : Nat} {body : List Byte} (hs : Keeps ini s) :
    Keeps ini (State.sendLink s p op body) := by
  unfold State.sendLink
  repeat' first
    | with_reducible assumption
    | with_reducible apply State.updPort_keeps

theorem State.sendNak_keeps {s : State} {p : Nat} (hs : Keeps ini s) :
    Keeps ini (State.sendNak s p) := by
  unfold State.sendNak
  repeat' first
    | with_reducible assumption
    | with_reducible apply State.sendLink_keeps

theorem State.giveCredit_keeps {s : State} {p vc : Nat} (hs : Keeps ini s) :
    Keeps ini (State.giveCredit s p vc) := by
  unfold State.giveCredit
  repeat' first
    | with_reducible assumption
    | with_reducible apply State.updPort_keeps
    | with_reducible apply State.sendLink_keeps
    | simp only [Keeps.mk_iff]
    | with_reducible apply Keeps.other
    | with_reducible apply Keeps.ite

theorem State.resend_keeps {s : State} {p : Nat} (hs : Keeps ini s) :
    Keeps ini (State.resend s p) := by
  unfold State.resend
  repeat' first
    | with_reducible assumption
    | with_reducible apply State.updPort_keeps

theorem State.linkFields_keeps {s : State} {p : Nat} {x : Flit} (hs : Keeps ini s) :
    Keeps ini (State.linkFields s p x) := by
  unfold State.linkFields
  repeat' first
    | with_reducible assumption
    | with_reducible apply State.updPort_keeps
    | with_reducible apply State.pump_keeps
    | with_reducible apply State.sendLink_keeps
    | simp only [Keeps.mk_iff]
    | with_reducible apply Keeps.other
    | with_reducible apply Keeps.ite

/-- The state that a flit's arrival leaves. -/
def Arrived.state : Arrived → State
  | .done s => s
  | .flit s _ => s

theorem Arrived.done_keeps {x : Arrived} {out : State} (e : x = .done out) (h : Keeps ini x.state) : Keeps ini out := by
  subst e; exact h

theorem Arrived.flit_keeps {x : Arrived} {out : State} {y : Flit} (e : x = .flit out y) (h : Keeps ini x.state) : Keeps ini out := by
  subst e; exact h

theorem State.arrive_keeps {s : State} {p type : Nat} {w : BitVec 2048} (hs : Keeps ini s) : Keeps ini (State.arrive s p type w).state := by
  have hl : Keeps ini (s.linkFields p (parseFlit (flitBytes w))) := State.linkFields_keeps hs
  unfold State.arrive
  extract_lets +onlyGivenNames b x s1
  split
  · exact hs
  · split
    · exact State.sendNak_keeps (State.updPort_keeps hs)
    · split
      · exact hs
      · split
        · exact hl
        · extract_lets +onlyGivenNames k
          split
          · exact hl
          · split
            · exact State.updPort_keeps hl
            · split
              · exact State.sendNak_keeps hl
              · exact hl

end Sys2Proof.Machine
end

