-- ==== Sys2Proof/Laws/CadenceKeeps.lean ====
section
/-! SUPPORT. The operations of Machine/Cadence.lean keep what Keeps names. -/

namespace Sys2Proof.Machine

variable {ini : State}

theorem State.updCad_keeps {s : State} {g : Cadence → Cadence} (hs : Keeps ini s) :
    Keeps ini (State.updCad s g) := by
  unfold State.updCad
  repeat' first
    | with_reducible assumption
    | simp only [Keeps.mk_iff]
    | with_reducible apply Keeps.other

theorem State.updCadPort_keeps {s : State} {p : Nat} {g : CadPort → CadPort} (hs : Keeps ini s) :
    Keeps ini (State.updCadPort s p g) := by
  unfold State.updCadPort
  repeat' first
    | with_reducible assumption
    | with_reducible apply State.updCad_keeps

theorem State.setTime_keeps {s : State} {v : Nat} (hs : Keeps ini s) :
    Keeps ini (State.setTime s v) := by
  unfold State.setTime
  repeat' first
    | with_reducible assumption
    | simp only [Keeps.mk_iff]
    | with_reducible apply Keeps.other

theorem execCadenceClock_keeps {s : State} {out : State} (e : execCadenceClock s = .next out) (hs : Keeps ini s) :
    Keeps ini out := by
  unfold execCadenceClock at e
  obtain rfl := Host.Outcome.next.inj e
  repeat' first
    | with_reducible assumption
    | with_reducible apply State.setTime_keeps
    | with_reducible apply State.updCad_keeps
    | simp only [Keeps.mk_iff]
    | with_reducible apply Keeps.other

theorem State.electMaster_keeps {s : State} (hs : Keeps ini s) :
    Keeps ini (State.electMaster s) := by
  unfold State.electMaster
  repeat' first
    | intro _ _ _
    | with_reducible assumption
    | with_reducible apply State.updCad_keeps
    | simp only [Keeps.mk_iff]
    | with_reducible apply Keeps.other
    | with_reducible apply Keeps.ite

theorem State.sendFlit_keeps {s : State} {p : Nat} {x : Flit} (hs : Keeps ini s) :
    Keeps ini (State.sendFlit s p x) := by
  unfold State.sendFlit
  repeat' first
    | with_reducible assumption
    | with_reducible apply State.updPort_keeps

theorem execSyncExchange_keeps {p : Nat} {s : State} {out : State} (e : execSyncExchange p s = .next out) (hs : Keeps
    ini s) :
    Keeps ini out := by
  unfold execSyncExchange at e
  obtain rfl := Host.Outcome.next.inj e
  repeat' first
    | with_reducible assumption
    | with_reducible apply State.updCadPort_keeps
    | with_reducible apply State.sendFlit_keeps
    | simp only [Keeps.mk_iff]
    | with_reducible apply Keeps.other
    | with_reducible apply Keeps.ite

theorem execSyncReq_keeps {p : Nat} {w : BitVec 2048} {s : State} {out : State} (e : execSyncReq p w s = .next out)
    (hs : Keeps ini s) :
    Keeps ini out := by
  unfold execSyncReq at e
  obtain rfl := Host.Outcome.next.inj e
  repeat' first
    | with_reducible assumption
    | with_reducible apply State.arrive_keeps
    | with_reducible apply State.sendFlit_keeps
    | with_reducible refine Arrived.done_keeps (by assumption) ?_
    | with_reducible refine Arrived.flit_keeps (by assumption) ?_
    | with_reducible apply Keeps.ite
    | refine Keeps.fst (by assumption) ?_
    | refine Keeps.snd (by assumption) ?_
    | split

theorem execSyncRsp_keeps {p : Nat} {w : BitVec 2048} {s : State} {out : State} (e : execSyncRsp p w s = .next out)
    (hs : Keeps ini s) :
    Keeps ini out := by
  unfold execSyncRsp at e
  obtain rfl := Host.Outcome.next.inj e
  repeat' first
    | with_reducible assumption
    | with_reducible apply State.arrive_keeps
    | with_reducible apply State.updCadPort_keeps
    | with_reducible apply State.electMaster_keeps
    | with_reducible refine Arrived.done_keeps (by assumption) ?_
    | with_reducible refine Arrived.flit_keeps (by assumption) ?_
    | simp only [Keeps.mk_iff]
    | with_reducible apply Keeps.other
    | with_reducible apply Keeps.ite
    | refine Keeps.fst (by assumption) ?_
    | refine Keeps.snd (by assumption) ?_
    | split

theorem State.stepCounter_keeps {s : State} {num : Int} {den : Nat} (hs : Keeps ini s) :
    Keeps ini (State.stepCounter s num den) := by
  unfold State.stepCounter
  repeat' first
    | with_reducible assumption
    | with_reducible apply State.setTime_keeps
    | with_reducible apply State.updCad_keeps
    | with_reducible apply State.log_keeps

theorem State.steerBy_keeps {s : State} {up : List Nat} (hs : Keeps ini s) :
    Keeps ini (State.steerBy s up) := by
  unfold State.steerBy
  repeat' first
    | with_reducible assumption
    | with_reducible apply State.updCad_keeps
    | with_reducible apply State.log_keeps
    | with_reducible apply State.stepCounter_keeps
    | simp only [Keeps.mk_iff]
    | with_reducible apply Keeps.other
    | with_reducible apply Keeps.ite

theorem execCadenceSteer_keeps {s : State} {out : State} (e : execCadenceSteer s = .next out) (hs : Keeps ini s) :
    Keeps ini out := by
  unfold execCadenceSteer at e
  obtain rfl := Host.Outcome.next.inj e
  repeat' first
    | with_reducible assumption
    | with_reducible apply State.electMaster_keeps
    | with_reducible apply State.updCad_keeps
    | with_reducible apply State.steerBy_keeps
    | simp only [Keeps.mk_iff]
    | with_reducible apply Keeps.other
    | with_reducible apply Keeps.ite

theorem execPtmDialogue_keeps {h : BitVec 64} {s : State} {out : State} (e : execPtmDialogue h s = .next out) (hs :
    Keeps ini s) :
    Keeps ini out := by
  unfold execPtmDialogue at e
  obtain rfl := Host.Outcome.next.inj e
  repeat' first
    | with_reducible assumption
    | with_reducible apply State.updCad_keeps
    | simp only [Keeps.mk_iff]
    | with_reducible apply Keeps.other
    | with_reducible apply Keeps.ite

theorem State.takePulse_keeps {s : State} {f k : Nat} {out : State} {r} (e : State.takePulse s f k = some (r, out))
    (hs : Keeps ini s) :
    Keeps ini out := by
  unfold State.takePulse at e
  repeat' first
    | with_reducible assumption
    | cases e
    | split at e
    | dsimp only at e
    | with_reducible apply State.updCad_keeps

theorem execCadArm_keeps {t : Nat} {v : BitVec 64} {s out : State} (e : execCadArm t v s = .next out) (hs : Keeps ini s) :
    Keeps ini out := by
  unfold execCadArm at e
  obtain rfl := Host.Outcome.next.inj e
  clear e
  split
  · exact hs
  · rename_i f hf
    extract_lets +onlyGivenNames a r b answer
    have ha : ∀ s h code, Keeps ini s → Keeps ini (answer s h code) := fun s h code hs => State.updTile_keeps hs
    split
    · exact ha _ _ _ hs
    · split
      · exact ha _ _ _ hs
      · split
        · exact ha _ _ _ hs
        · extract_lets +onlyGivenNames after trig taken s1 tick waits late e
          refine ha _ _ _ (State.updCad_keeps ?_)
          have ht : ∀ p, taken = some p → Keeps ini p.2 := by
            intro p hp
            simp only [taken] at hp
            split at hp
            · exact State.takePulse_keeps (r := p.1) hp hs
            · cases hp
          cases hp : taken with
          | none => simp only [s1, hp]; exact hs
          | some p => simp only [s1, hp]; exact ht p hp

theorem execCadDisarm_keeps {t : Nat} {v : BitVec 64} {s : State} {out : State} (e : execCadDisarm t v s = .next out)
    (hs : Keeps ini s) :
    Keeps ini out := by
  unfold execCadDisarm at e
  obtain rfl := Host.Outcome.next.inj e
  repeat' first
    | with_reducible assumption
    | with_reducible apply State.actEnd_keeps
    | with_reducible apply Keeps.ite
    | refine Keeps.fst (by assumption) ?_
    | refine Keeps.snd (by assumption) ?_
    | split

theorem State.actDeliver_keeps {s : State} {a : Action} (hs : Keeps ini s) :
    Keeps ini (State.actDeliver s a) := by
  unfold State.actDeliver
  repeat' first
    | with_reducible assumption
    | with_reducible apply State.updDma_keeps
    | with_reducible apply State.launchRound_keeps
    | with_reducible apply State.updCore_keeps
    | simp only [Keeps.mk_iff]
    | with_reducible apply Keeps.other
    | refine Keeps.fst (by assumption) ?_
    | refine Keeps.snd (by assumption) ?_
    | split

theorem State.actLaunch_keeps {s : State} {e : Nat} {a : Action} (hs : Keeps ini s) :
    Keeps ini (State.actLaunch s e a) := by
  unfold State.actLaunch
  repeat' first
    | with_reducible assumption
    | with_reducible apply State.actEnd_keeps
    | with_reducible apply State.updCad_keeps
    | with_reducible apply State.actDeliver_keeps

theorem State.actDrop_keeps {s : State} {e : Nat} {a : Action} {outcome : Nat} (hs : Keeps ini s) :
    Keeps ini (State.actDrop s e a outcome) := by
  unfold State.actDrop
  repeat' first
    | with_reducible assumption
    | with_reducible apply State.actEnd_keeps
    | with_reducible apply State.updCad_keeps
    | with_reducible apply State.failQuery_keeps
    | simp only [Keeps.mk_iff]
    | with_reducible apply Keeps.other
    | with_reducible apply Keeps.ite
    | refine Keeps.fst (by assumption) ?_
    | refine Keeps.snd (by assumption) ?_
    | split

theorem execActionDue_keeps {e : Nat} {s : State} {out : State} (e : execActionDue e s = .next out) (hs : Keeps ini
    s) :
    Keeps ini out := by
  unfold execActionDue at e
  obtain rfl := Host.Outcome.next.inj e
  repeat' first
    | with_reducible assumption
    | with_reducible apply State.actDrop_keeps
    | with_reducible apply State.actLaunch_keeps
    | with_reducible apply Keeps.ite
    | refine Keeps.fst (by assumption) ?_
    | refine Keeps.snd (by assumption) ?_
    | split

theorem execActionReady_keeps {e : Nat} {s : State} {out : State} (e : execActionReady e s = .next out) (hs : Keeps
    ini s) :
    Keeps ini out := by
  unfold execActionReady at e
  obtain rfl := Host.Outcome.next.inj e
  repeat' first
    | with_reducible assumption
    | with_reducible apply State.actLaunch_keeps
    | with_reducible apply Keeps.ite
    | refine Keeps.fst (by assumption) ?_
    | refine Keeps.snd (by assumption) ?_
    | split

theorem execActionTimeout_keeps {e : Nat} {s : State} {out : State} (e : execActionTimeout e s = .next out) (hs :
    Keeps ini s) :
    Keeps ini out := by
  unfold execActionTimeout at e
  obtain rfl := Host.Outcome.next.inj e
  repeat' first
    | with_reducible assumption
    | with_reducible apply State.actDrop_keeps
    | with_reducible apply Keeps.ite
    | refine Keeps.fst (by assumption) ?_
    | refine Keeps.snd (by assumption) ?_
    | split

theorem execTriggerPulse_keeps {f k : Nat} {s : State} {out : State} (e : execTriggerPulse f k s = .next out) (hs :
    Keeps ini s) :
    Keeps ini out := by
  unfold execTriggerPulse at e
  obtain rfl := Host.Outcome.next.inj e
  repeat' first
    | intro _ _ _
    | with_reducible assumption
    | with_reducible apply State.updCad_keeps
    | simp only [Keeps.mk_iff]
    | with_reducible apply Keeps.other
    | with_reducible apply Keeps.foldl_fst
    | with_reducible apply Keeps.foldl_snd
    | with_reducible apply Keeps.ite
    | (with_reducible apply Keeps.foldl)
    | refine Keeps.fst (by assumption) ?_
    | refine Keeps.snd (by assumption) ?_
    | split

end Sys2Proof.Machine
end

