-- ==== Sys2Proof/Laws/KrelorKeeps.lean ====
section
/-! SUPPORT. The operations of Machine/Krelor.lean keep what Keeps names. -/

namespace Sys2Proof.Machine

variable {ini : State}

theorem State.krlDiscard_keeps {s : State} {p : Nat} (hs : Keeps ini s) :
    Keeps ini (State.krlDiscard s p) := by
  unfold State.krlDiscard
  repeat' first
    | with_reducible assumption
    | with_reducible apply State.updPort_keeps

theorem State.rbufLeave_keeps {s : State} {p i : Nat} (hs : Keeps ini s) :
    Keeps ini (State.rbufLeave s p i) := by
  unfold State.rbufLeave
  repeat' first
    | with_reducible assumption
    | with_reducible apply State.updPort_keeps
    | with_reducible apply State.giveCredit_keeps
    | simp only [Keeps.mk_iff]
    | with_reducible apply Keeps.other
    | refine Keeps.fst (by assumption) ?_
    | refine Keeps.snd (by assumption) ?_
    | split

theorem State.updSlice'_keeps {s : State} {id r src : Nat} {g : KSlice → KSlice} (hs : Keeps ini s) :
    Keeps ini (State.updSlice' s id r src g) := by
  unfold State.updSlice'
  repeat' first
    | with_reducible assumption
    | with_reducible apply State.updRound_keeps

theorem State.sliceWhole_keeps {s : State} {id r src : Nat} {x : Xchg} (hs : Keeps ini s) :
    Keeps ini (State.sliceWhole s id r src x) := by
  unfold State.sliceWhole
  repeat' first
    | with_reducible assumption
    | with_reducible apply State.updSlice'_keeps
    | with_reducible apply State.forward_keeps
    | with_reducible apply State.roundCheck_keeps

theorem State.flitWritten_keeps {s : State} {p i : Nat} {y : Flit} (hs : Keeps ini s) :
    Keeps ini (State.flitWritten s p i y) := by
  unfold State.flitWritten
  repeat' first
    | with_reducible assumption
    | with_reducible apply State.rbufLeave_keeps
    | with_reducible apply State.updSlice'_keeps
    | with_reducible refine State.take_keeps (by assumption) ?_
    | with_reducible apply State.sliceWhole_keeps
    | simp only [Keeps.mk_iff]
    | with_reducible apply Keeps.other
    | with_reducible apply Keeps.ite
    | refine Keeps.fst (by assumption) ?_
    | refine Keeps.snd (by assumption) ?_
    | split

theorem State.krlOrdered_keeps {s : State} {p line : Nat} (hs : Keeps ini s) :
    Keeps ini (State.krlOrdered s p line) := by
  unfold State.krlOrdered
  repeat' first
    | with_reducible assumption
    | with_reducible apply State.flitWritten_keeps
    | with_reducible apply State.updPort_keeps
    | simp only [Keeps.mk_iff]
    | with_reducible apply Keeps.other
    | with_reducible apply Keeps.ite
    | refine Keeps.fst (by assumption) ?_
    | refine Keeps.snd (by assumption) ?_
    | split

theorem State.postPayload_keeps {s : State} {agent owner : Nat} {a1 : Nat} {a2 : Nat} {a3 : List Byte} (hs : Keeps
    ini s) :
    Keeps ini (State.postPayload s agent owner a1 a2 a3).1 := by
  induction a1 generalizing s agent owner a2 a3 with
  | zero =>
    unfold State.postPayload
    repeat' first
      | with_reducible assumption
  | succ k ih =>
    unfold State.postPayload
    repeat' first
      | with_reducible assumption
      | with_reducible apply ih
      | with_reducible refine State.take_keeps (by assumption) ?_
      | simp only [Keeps.mk_iff]
      | with_reducible apply Keeps.other
      | with_reducible apply Keeps.ite
      | split

theorem State.takeData_keeps {s : State} {p : Nat} {y : Flit} {id : Nat} {x : Xchg} (hs : Keeps ini s) :
    Keeps ini (State.takeData s p y id x) := by
  unfold State.takeData
  split
  · exact State.krlDiscard_keeps hs
  · rename_i src hsrc
    extract_lets +onlyGivenNames rd
    split
    · exact State.krlDiscard_keeps hs
    · extract_lets +onlyGivenNames have_ len placed
      clear_value have_
      have hp : ∀ w, (placed : Option (Option State)) = some (some w) → Keeps ini w := by
        intro w h
        simp only [placed] at h
        split at h
        · obtain rfl := Option.some.inj (Option.some.inj h)
          exact hs
        · split at h
          · cases h
          · simp only [Option.some.injEq, Option.map_eq_some_iff] at h
            obtain ⟨at_, -, h⟩ := h
            subst h
            exact State.updRound_keeps (State.sliceDir_keeps hs)
      generalize placed = pl at hp ⊢
      cases pl with
      | none => exact State.krlDiscard_keeps hs
      | some o =>
        cases o with
        | none => exact State.failQuery_keeps hs
        | some s1 =>
          have h1 := hp s1 rfl
          dsimp only
          split
          · exact h1
          · split
            · exact State.krlDiscard_keeps h1
            · split
              · exact State.failQuery_keeps h1
              · split
                · exact State.giveCredit_keeps (State.updPort_keeps (State.postPayload_keeps h1))
                · exact State.updPort_keeps (State.postPayload_keeps h1)

theorem State.transit_keeps {s : State} {p : Nat} {y : Flit} (hs : Keeps ini s) :
    Keeps ini (State.transit s p y) := by
  unfold State.transit
  repeat' first
    | with_reducible assumption
    | with_reducible apply State.giveCredit_keeps
    | with_reducible apply State.forward_keeps

theorem execDataFlit_keeps {p : Nat} {w : BitVec 2048} {s : State} {out : State} (e : execDataFlit p w s = .next out)
    (hs : Keeps ini s) :
    Keeps ini out := by
  unfold execDataFlit at e
  obtain rfl := Host.Outcome.next.inj e
  repeat' first
    | with_reducible assumption
    | with_reducible apply State.arrive_keeps
    | with_reducible apply State.transit_keeps
    | with_reducible apply State.takeData_keeps
    | with_reducible apply State.giveCredit_keeps
    | with_reducible apply State.krlDiscard_keeps
    | with_reducible refine Arrived.done_keeps (by assumption) ?_
    | with_reducible refine Arrived.flit_keeps (by assumption) ?_
    | with_reducible apply Keeps.ite
    | refine Keeps.fst (by assumption) ?_
    | refine Keeps.snd (by assumption) ?_
    | split

theorem execSack_keeps {p : Nat} {w : BitVec 2048} {s : State} {out : State} (e : execSack p w s = .next out) (hs :
    Keeps ini s) :
    Keeps ini out := by
  unfold execSack at e
  obtain rfl := Host.Outcome.next.inj e
  repeat' first
    | with_reducible assumption
    | with_reducible apply State.arrive_keeps
    | with_reducible apply State.transit_keeps
    | with_reducible apply State.giveCredit_keeps
    | with_reducible apply State.krlDiscard_keeps
    | with_reducible apply State.updRound_keeps
    | with_reducible apply State.roundCheck_keeps
    | with_reducible refine Arrived.done_keeps (by assumption) ?_
    | with_reducible refine Arrived.flit_keeps (by assumption) ?_
    | simp only [Keeps.mk_iff]
    | with_reducible apply Keeps.other
    | with_reducible apply Keeps.ite
    | refine Keeps.fst (by assumption) ?_
    | refine Keeps.snd (by assumption) ?_
    | split

theorem execAbort_keeps {p : Nat} {w : BitVec 2048} {s : State} {out : State} (e : execAbort p w s = .next out) (hs :
    Keeps ini s) :
    Keeps ini out := by
  unfold execAbort at e
  obtain rfl := Host.Outcome.next.inj e
  repeat' first
    | with_reducible assumption
    | with_reducible apply State.arrive_keeps
    | with_reducible apply State.transit_keeps
    | with_reducible apply State.giveCredit_keeps
    | with_reducible apply State.failQuery_keeps
    | with_reducible apply State.krlDiscard_keeps
    | with_reducible refine State.take_keeps (by assumption) ?_
    | with_reducible refine Arrived.done_keeps (by assumption) ?_
    | with_reducible refine Arrived.flit_keeps (by assumption) ?_
    | simp only [Keeps.mk_iff]
    | with_reducible apply Keeps.other
    | with_reducible apply Keeps.ite
    | refine Keeps.fst (by assumption) ?_
    | refine Keeps.snd (by assumption) ?_
    | split

theorem execIdle_keeps {p : Nat} {w : BitVec 2048} {s : State} {out : State} (e : execIdle p w s = .next out) (hs :
    Keeps ini s) :
    Keeps ini out := by
  unfold execIdle at e
  obtain rfl := Host.Outcome.next.inj e
  repeat' first
    | with_reducible assumption
    | with_reducible apply State.arrive_keeps
    | with_reducible refine Arrived.done_keeps (by assumption) ?_
    | with_reducible refine Arrived.flit_keeps (by assumption) ?_
    | refine Keeps.fst (by assumption) ?_
    | refine Keeps.snd (by assumption) ?_
    | split

theorem State.arriveLink_keeps {s : State} {p op : Nat} {w : BitVec 2048} (hs : Keeps ini s) :
    Keeps ini (State.arriveLink s p op w).state := by
  unfold State.arriveLink
  repeat' first
    | with_reducible assumption
    | with_reducible apply State.arrive_keeps
    | with_reducible refine Arrived.done_keeps (by assumption) ?_
    | with_reducible refine Arrived.flit_keeps (by assumption) ?_
    | with_reducible apply Keeps.ite
    | split
    | simp only [Arrived.state]

theorem execLinkAck_keeps {p : Nat} {w : BitVec 2048} {s : State} {out : State} (e : execLinkAck p w s = .next out)
    (hs : Keeps ini s) :
    Keeps ini out := by
  unfold execLinkAck at e
  obtain rfl := Host.Outcome.next.inj e
  repeat' first
    | with_reducible assumption
    | with_reducible apply State.arriveLink_keeps
    | with_reducible refine Arrived.done_keeps (by assumption) ?_
    | with_reducible refine Arrived.flit_keeps (by assumption) ?_
    | refine Keeps.fst (by assumption) ?_
    | refine Keeps.snd (by assumption) ?_
    | split

theorem execNak_keeps {p : Nat} {w : BitVec 2048} {s out : State} (e : execNak p w s = .next out) (hs : Keeps ini s) :
    Keeps ini out := by
  have ha : Keeps ini (s.arriveLink p 1 w).state := State.arriveLink_keeps hs
  unfold execNak at e
  obtain rfl := Host.Outcome.next.inj e
  clear e
  split
  · rename_i e
    rw [e] at ha
    exact ha
  · rename_i s1 y e
    rw [e] at ha
    extract_lets +onlyGivenNames k e
    split
    · exact State.resend_keeps (State.updPort_keeps ha)
    · split
      · exact State.pump_keeps (State.updPort_keeps ha)
      · exact ha

theorem State.calibrate_keeps {s : State} {p : Nat} (hs : Keeps ini s) :
    Keeps ini (State.calibrate s p) := by
  unfold State.calibrate
  repeat' first
    | with_reducible assumption
    | with_reducible apply State.free_keeps
    | with_reducible apply State.updPort_keeps
    | with_reducible apply State.updCadPort_keeps
    | simp only [Keeps.mk_iff]
    | with_reducible apply Keeps.other
    | with_reducible apply Keeps.ite

theorem State.takeOver_keeps {s : State} {r last : Nat} (hs : Keeps ini s) :
    Keeps ini (State.takeOver s r last) := by
  unfold State.takeOver
  repeat' first
    | with_reducible assumption
    | with_reducible apply State.updPort_keeps
    | with_reducible apply State.pump_keeps

theorem execHello_keeps {p : Nat} {w : BitVec 2048} {s : State} {out : State} (e : execHello p w s = .next out) (hs :
    Keeps ini s) :
    Keeps ini out := by
  unfold execHello at e
  obtain rfl := Host.Outcome.next.inj e
  repeat' first
    | with_reducible assumption
    | with_reducible apply State.arriveLink_keeps
    | with_reducible apply State.updPort_keeps
    | with_reducible apply State.calibrate_keeps
    | with_reducible apply State.pump_keeps
    | with_reducible apply State.log_keeps
    | with_reducible apply State.takeOver_keeps
    | with_reducible apply State.resend_keeps
    | with_reducible refine Arrived.done_keeps (by assumption) ?_
    | with_reducible refine Arrived.flit_keeps (by assumption) ?_
    | simp only [Keeps.mk_iff]
    | with_reducible apply Keeps.other
    | with_reducible apply Keeps.ite
    | refine Keeps.fst (by assumption) ?_
    | refine Keeps.snd (by assumption) ?_
    | split

theorem execReplayTimeout_keeps {p : Nat} {s : State} {out : State} (e : execReplayTimeout p s = .next out) (hs :
    Keeps ini s) :
    Keeps ini out := by
  unfold execReplayTimeout at e
  obtain rfl := Host.Outcome.next.inj e
  repeat' first
    | with_reducible assumption
    | with_reducible apply State.resend_keeps
    | with_reducible apply Keeps.ite

theorem State.downPort_keeps {s : State} {p : Nat} (hs : Keeps ini s) :
    Keeps ini (State.downPort s p) := by
  unfold State.downPort
  repeat' first
    | with_reducible assumption
    | with_reducible apply State.updPort_keeps
    | with_reducible apply State.log_keeps
    | with_reducible apply State.sendLink_keeps
    | simp only [Keeps.mk_iff]
    | with_reducible apply Keeps.other
    | with_reducible apply Keeps.ite
    | refine Keeps.fst (by assumption) ?_
    | refine Keeps.snd (by assumption) ?_
    | split

theorem execLaneFail_keeps {p l : Nat} {s : State} {out : State} (e : execLaneFail p l s = .next out) (hs : Keeps ini
    s) :
    Keeps ini out := by
  unfold execLaneFail at e
  obtain rfl := Host.Outcome.next.inj e
  repeat' first
    | with_reducible assumption
    | with_reducible apply State.downPort_keeps
    | with_reducible apply State.updPort_keeps
    | with_reducible apply State.log_keeps
    | simp only [Keeps.mk_iff]
    | with_reducible apply Keeps.other
    | with_reducible apply Keeps.ite

theorem execLaneRetrainComplete_keeps {p : Nat} {ok : Bool} {s : State} {out : State} (e : execLaneRetrainComplete p
    ok s = .next out) (hs : Keeps ini s) :
    Keeps ini out := by
  unfold execLaneRetrainComplete at e
  obtain rfl := Host.Outcome.next.inj e
  repeat' first
    | with_reducible assumption
    | with_reducible apply State.downPort_keeps
    | with_reducible apply State.updPort_keeps
    | with_reducible apply State.sendLink_keeps
    | with_reducible apply State.calibrate_keeps
    | with_reducible apply State.resend_keeps
    | with_reducible apply State.pump_keeps
    | simp only [Keeps.mk_iff]
    | with_reducible apply Keeps.other
    | with_reducible apply Keeps.ite

theorem execPortDown_keeps {p : Nat} {s : State} {out : State} (e : execPortDown p s = .next out) (hs : Keeps ini s)
    :
    Keeps ini out := by
  unfold execPortDown at e
  obtain rfl := Host.Outcome.next.inj e
  repeat' first
    | with_reducible assumption
    | with_reducible apply State.downPort_keeps
    | with_reducible apply Keeps.ite

theorem State.krlRetrain_keeps {s : State} {p : Nat} (hs : Keeps ini s) :
    Keeps ini (State.krlRetrain s p) := by
  unfold State.krlRetrain
  repeat' first
    | with_reducible assumption
    | with_reducible apply State.updPort_keeps
    | simp only [Keeps.mk_iff]
    | with_reducible apply Keeps.other
    | with_reducible apply Keeps.ite

theorem execRetrain_keeps {p : Nat} {s : State} {out : State} (e : execRetrain p s = .next out) (hs : Keeps ini s) :
    Keeps ini out := by
  unfold execRetrain at e
  obtain rfl := Host.Outcome.next.inj e
  repeat' first
    | with_reducible assumption
    | with_reducible apply State.krlRetrain_keeps

theorem execCablePresent_keeps {p : Nat} {present : Bool} {s : State} {out : State} (e : execCablePresent p present s
    = .next out) (hs : Keeps ini s) :
    Keeps ini out := by
  unfold execCablePresent at e
  obtain rfl := Host.Outcome.next.inj e
  repeat' first
    | with_reducible assumption
    | with_reducible apply State.updPort_keeps
    | with_reducible apply State.downPort_keeps
    | simp only [Keeps.mk_iff]
    | with_reducible apply Keeps.other
    | with_reducible apply Keeps.ite

theorem execCmisRead_keeps {p : Nat} {answers : Bool} {rev : Nat} {app : Bool} {len : Nat}
    {skew : Option (BitVec 128)} {s : State} {out : State} (e : execCmisRead p answers rev app len skew s = .next
    out) (hs : Keeps ini s) :
    Keeps ini out := by
  unfold execCmisRead at e
  obtain rfl := Host.Outcome.next.inj e
  repeat' first
    | with_reducible assumption
    | with_reducible apply State.updPort_keeps
    | with_reducible apply State.log_keeps
    | simp only [Keeps.mk_iff]
    | with_reducible apply Keeps.other
    | with_reducible apply Keeps.ite

theorem execTrainComplete_keeps {p : Nat} {ok : Bool} {s : State} {out : State} (e : execTrainComplete p ok s = .next
    out) (hs : Keeps ini s) :
    Keeps ini out := by
  unfold execTrainComplete at e
  obtain rfl := Host.Outcome.next.inj e
  repeat' first
    | with_reducible assumption
    | with_reducible apply State.updPort_keeps
    | with_reducible apply State.sendLink_keeps
    | simp only [Keeps.mk_iff]
    | with_reducible apply Keeps.other
    | with_reducible apply Keeps.ite

theorem execRoundDeadline_keeps {x : Nat} {s : State} {out : State} (e : execRoundDeadline x s = .next out) (hs :
    Keeps ini s) :
    Keeps ini out := by
  unfold execRoundDeadline at e
  obtain rfl := Host.Outcome.next.inj e
  repeat' first
    | with_reducible assumption
    | with_reducible apply State.failQuery_keeps
    | with_reducible apply Keeps.ite
    | refine Keeps.fst (by assumption) ?_
    | refine Keeps.snd (by assumption) ?_
    | split

end Sys2Proof.Machine
end

