-- ==== Sys2Proof/Laws/EntryKeeps.lean ====
section
/-! SUPPORT. The operations of Machine/Entry.lean keep what Keeps names. -/

namespace Sys2Proof.Machine

variable {ini : State}

theorem State.countDisp_keeps {s : State} {f d : Nat} (hs : Keeps ini s) :
    Keeps ini (State.countDisp s f d) := by
  unfold State.countDisp
  repeat' first
    | with_reducible assumption
    | with_reducible apply State.updTenant_keeps

end Sys2Proof.Machine
end

