-- ==== Sys2Proof/Laws/RingsKeeps.lean ====
section
/-! SUPPORT. The operations of Machine/Rings.lean keep what Keeps names. -/

namespace Sys2Proof.Machine

variable {ini : State}

theorem State.leaveActive_keeps {s : State} {f q : Nat} {st : QState} (hs : Keeps ini s) :
    Keeps ini (State.leaveActive s f q st) := by
  unfold State.leaveActive
  repeat' first
    | with_reducible assumption
    | with_reducible apply State.updPair_keeps
    | with_reducible apply State.closeBatch_keeps

theorem State.attn_keeps {s : State} {f : Nat} (hs : Keeps ini s) :
    Keeps ini (State.attn s f) := by
  unfold State.attn
  repeat' first
    | with_reducible assumption
    | with_reducible apply State.signal_keeps
    | simp only [Keeps.mk_iff]
    | with_reducible apply Keeps.other

theorem State.pairError_keeps {s : State} {f q : Nat} {st : QState} (hs : Keeps ini s) :
    Keeps ini (State.pairError s f q st) := by
  unfold State.pairError
  repeat' first
    | with_reducible assumption
    | with_reducible apply State.leaveActive_keeps
    | with_reducible apply State.attn_keeps

theorem execDoorbell_keeps {f q : Nat} {p : BitVec 32} {s : State} {out : State} (e : execDoorbell f q p s = .next
    out) (hs : Keeps ini s) :
    Keeps ini out := by
  unfold execDoorbell at e
  obtain rfl := Host.Outcome.next.inj e
  repeat' first
    | with_reducible assumption
    | with_reducible apply State.updTenant_keeps
    | with_reducible apply State.drainCompletions_keeps
    | with_reducible apply State.pairError_keeps
    | with_reducible apply State.updPair_keeps
    | simp only [Keeps.mk_iff]
    | with_reducible apply Keeps.other
    | with_reducible apply Keeps.ite
    | refine Keeps.fst (by assumption) ?_
    | refine Keeps.snd (by assumption) ?_
    | split

theorem State.joinBatch_keeps {s : State} {f q w : Nat} {x : Work} (hs : Keeps ini s) :
    Keeps ini (State.joinBatch s f q w x) := by
  unfold State.joinBatch
  repeat' first
    | with_reducible assumption
    | with_reducible apply State.updPair_keeps
    | with_reducible apply State.closeBatch_keeps
    | simp only [Keeps.mk_iff]
    | with_reducible apply Keeps.other
    | with_reducible apply Keeps.ite

theorem State.takeEntry_keeps {s : State} {f q : Nat} {x : QPair} {raw : List Byte} (hs : Keeps ini s) :
    Keeps ini (State.takeEntry s f q x raw) := by
  unfold State.takeEntry
  repeat' first
    | intro _ _ _
    | with_reducible assumption
    | with_reducible apply State.writeBytes_keeps
    | with_reducible apply State.updPair_keeps
    | with_reducible apply State.updTenant_keeps
    | with_reducible apply State.joinBatch_keeps
    | with_reducible apply State.countDisp_keeps
    | with_reducible apply State.workDone_keeps
    | simp only [Keeps.mk_iff]
    | with_reducible apply Keeps.other
    | with_reducible apply Keeps.ite
    | (with_reducible apply Keeps.foldl)
    | refine Keeps.fst (by assumption) ?_
    | refine Keeps.snd (by assumption) ?_
    | split

theorem execSubmissionFetch_keeps {f q : Nat} {s : State} {out : State} (e : execSubmissionFetch f q s = .next out)
    (hs : Keeps ini s) :
    Keeps ini out := by
  unfold execSubmissionFetch at e
  obtain rfl := Host.Outcome.next.inj e
  repeat' first
    | with_reducible assumption
    | with_reducible apply State.updPair_keeps
    | with_reducible apply State.takeEntry_keeps
    | simp only [Keeps.mk_iff]
    | with_reducible apply Keeps.other
    | with_reducible apply Keeps.ite
    | refine Keeps.fst (by assumption) ?_
    | refine Keeps.snd (by assumption) ?_
    | split

theorem execOwnRecheck_keeps {f q : Nat} {s : State} {out : State} (e : execOwnRecheck f q s = .next out) (hs : Keeps
    ini s) :
    Keeps ini out := by
  unfold execOwnRecheck at e
  obtain rfl := Host.Outcome.next.inj e
  repeat' first
    | with_reducible assumption
    | with_reducible apply State.pairError_keeps
    | with_reducible apply State.takeEntry_keeps
    | with_reducible apply Keeps.ite
    | refine Keeps.fst (by assumption) ?_
    | refine Keeps.snd (by assumption) ?_
    | split

theorem State.onWork_keeps {s : State} {id op : Nat} {g : Work → State} (hs : Keeps ini s) (hg : ∀ w, Keeps ini (g w)) :
    Keeps ini (State.onWork s id op g) := by
  unfold State.onWork
  split
  · exact hs
  · exact Keeps.ite (hg _) hs

theorem State.runWork_keeps {s : State} {id : Nat} (hs : Keeps ini s) :
    Keeps ini (State.runWork s id) := by
  unfold State.runWork
  repeat' first
    | with_reducible assumption
    | with_reducible apply State.updWork_keeps

theorem execDelayedStart_keeps {f : Nat} {s : State} {out : State} (e : execDelayedStart f s = .next out) (hs : Keeps
    ini s) :
    Keeps ini out := by
  unfold execDelayedStart at e
  obtain rfl := Host.Outcome.next.inj e
  repeat' first
    | with_reducible assumption
    | with_reducible apply State.updWork_keeps
    | simp only [Keeps.mk_iff]
    | with_reducible apply Keeps.other
    | with_reducible apply Keeps.ite
    | refine Keeps.fst (by assumption) ?_
    | refine Keeps.snd (by assumption) ?_
    | split

theorem execDelayTimeout_keeps {f : Nat} {s : State} {out : State} (e : execDelayTimeout f s = .next out) (hs : Keeps
    ini s) :
    Keeps ini out := by
  unfold execDelayTimeout at e
  obtain rfl := Host.Outcome.next.inj e
  repeat' first
    | with_reducible assumption
    | with_reducible apply State.updWork_keeps
    | with_reducible apply State.countDisp_keeps
    | with_reducible apply State.workDone_keeps
    | simp only [Keeps.mk_iff]
    | with_reducible apply Keeps.other
    | refine Keeps.fst (by assumption) ?_
    | refine Keeps.snd (by assumption) ?_
    | split

theorem execCompletionWrite_keeps {f q : Nat} {s : State} {out : State} (e : execCompletionWrite f q s = .next out)
    (hs : Keeps ini s) :
    Keeps ini out := by
  unfold execCompletionWrite at e
  obtain rfl := Host.Outcome.next.inj e
  repeat' first
    | with_reducible assumption
    | with_reducible apply State.writeCompletion_keeps

theorem execCompletionRecheck_keeps {f q : Nat} {s : State} {out : State} (e : execCompletionRecheck f q s = .next
    out) (hs : Keeps ini s) :
    Keeps ini out := by
  unfold execCompletionRecheck at e
  obtain rfl := Host.Outcome.next.inj e
  repeat' first
    | with_reducible assumption
    | with_reducible apply State.drainCompletions_keeps

theorem execCoalesceExpiry_keeps {f q : Nat} {s : State} {out : State} (e : execCoalesceExpiry f q s = .next out) (hs
    : Keeps ini s) :
    Keeps ini out := by
  unfold execCoalesceExpiry at e
  obtain rfl := Host.Outcome.next.inj e
  repeat' first
    | with_reducible assumption
    | with_reducible apply State.updPair_keeps
    | with_reducible apply State.signal_keeps
    | simp only [Keeps.mk_iff]
    | with_reducible apply Keeps.other
    | with_reducible apply Keeps.ite
    | refine Keeps.fst (by assumption) ?_
    | refine Keeps.snd (by assumption) ?_
    | split

theorem State.sendUnmasked_keeps {s : State} {f : Nat} (hs : Keeps ini s) :
    Keeps ini (State.sendUnmasked s f) := by
  unfold State.sendUnmasked
  repeat' first
    | with_reducible assumption
    | simp only [Keeps.mk_iff]
    | with_reducible apply Keeps.other

theorem execMsixUnmask_keeps {f v : Nat} {s : State} {out : State} (e : execMsixUnmask f v s = .next out) (hs : Keeps
    ini s) :
    Keeps ini out := by
  unfold execMsixUnmask at e
  obtain rfl := Host.Outcome.next.inj e
  repeat' first
    | with_reducible assumption
    | with_reducible apply State.sendUnmasked_keeps
    | simp only [Keeps.mk_iff]
    | with_reducible apply Keeps.other
    | with_reducible apply Keeps.ite

end Sys2Proof.Machine
end

