-- ==== Sys2Proof/Laws/RingCmdsKeeps.lean ====
section
/-! SUPPORT. The operations of Machine/RingCmds.lean keep what Keeps names. -/

namespace Sys2Proof.Machine

variable {ini : State}

theorem execNop_keeps {w : Nat} {s : State} {out : State} (e : execNop w s = .next out) (hs : Keeps ini s) :
    Keeps ini out := by
  unfold execNop at e
  obtain rfl := Host.Outcome.next.inj e
  repeat' first
    | intro _ _
    | intro _
    | with_reducible assumption
    | with_reducible apply State.onWork_keeps
    | with_reducible apply State.workDone_keeps

theorem execFlush_keeps {w : Nat} {s : State} {out : State} (e : execFlush w s = .next out) (hs : Keeps ini s) :
    Keeps ini out := by
  unfold execFlush at e
  obtain rfl := Host.Outcome.next.inj e
  repeat' first
    | intro _ _
    | intro _
    | with_reducible assumption
    | with_reducible apply State.onWork_keeps
    | with_reducible apply State.workDone_keeps

theorem State.startQuery_keeps {s : State} {id : Nat} {w : Work} (hs : Keeps ini s) : Keeps ini (State.startQuery s id w) := by
  unfold State.startQuery
  extract_lets +onlyGivenNames f
  split
  · exact hs
  · extract_lets +onlyGivenNames s0 x raw n
    have h0 : Keeps ini s0 := State.runWork_keeps hs
    split
    · exact State.workDone_keeps h0
    · rename_i pa s1 e
      have h1 : Keeps ini s1 := by
        split at e
        · cases e; exact h0
        · exact State.place_keeps e h0
      split
      · exact State.workDone_keeps (Keeps.ite h1 (State.unplace_keeps h1))
      · rename_i qa s2 e2
        exact State.queryPass_keeps (State.updTenant_keeps (State.writeBytes_keeps (State.place_keeps e2 h1)))

theorem execQueryRun_keeps {w : Nat} {s : State} {out : State} (e : execQueryRun w s = .next out) (hs : Keeps ini s)
    :
    Keeps ini out := by
  unfold execQueryRun at e
  obtain rfl := Host.Outcome.next.inj e
  repeat' first
    | intro _ _
    | intro _
    | with_reducible assumption
    | with_reducible apply State.onWork_keeps
    | with_reducible apply State.startQuery_keeps
    | with_reducible apply Keeps.ite

theorem State.cancelQuery_keeps {s : State} {id : Nat} {w : Work} (hs : Keeps ini s) :
    Keeps ini (State.cancelQuery s id w) := by
  unfold State.cancelQuery
  repeat' first
    | with_reducible assumption
    | with_reducible apply State.failQuery_keeps
    | with_reducible apply State.updWork_keeps
    | with_reducible apply State.workDone_keeps
    | simp only [Keeps.mk_iff]
    | with_reducible apply Keeps.other
    | with_reducible apply Keeps.ite
    | refine Keeps.fst (by assumption) ?_
    | refine Keeps.snd (by assumption) ?_
    | split

theorem execQueryCancel_keeps {w : Nat} {s : State} {out : State} (e : execQueryCancel w s = .next out) (hs : Keeps
    ini s) :
    Keeps ini out := by
  unfold execQueryCancel at e
  obtain rfl := Host.Outcome.next.inj e
  repeat' first
    | intro _ _
    | intro _
    | intro _ _ _
    | with_reducible assumption
    | with_reducible apply State.onWork_keeps
    | with_reducible apply State.runWork_keeps
    | with_reducible apply State.updWork_keeps
    | with_reducible apply State.cancelQuery_keeps
    | with_reducible apply State.settleCancels_keeps
    | simp only [Keeps.mk_iff]
    | with_reducible apply Keeps.other
    | with_reducible apply Keeps.ite
    | (with_reducible apply Keeps.foldl)

theorem State.colOpen_keeps {s : State} {w : Work} (hs : Keeps ini s) :
    Keeps ini (State.colOpen s w).1 := by
  unfold State.colOpen
  repeat' first
    | with_reducible assumption
    | with_reducible refine State.place_keeps (by assumption) ?_
    | with_reducible apply State.writeBytes_keeps
    | with_reducible apply State.putObj_keeps
    | simp only [Keeps.mk_iff]
    | with_reducible apply Keeps.other
    | with_reducible apply Keeps.ite
    | refine Keeps.fst (by assumption) ?_
    | refine Keeps.snd (by assumption) ?_
    | split

theorem State.scatter_keeps {s : State} {f : Nat} {l : List (Nat × Nat)} {o : Nat} {b : List Byte} (hs : Keeps ini s) :
    Keeps ini (State.scatter s f l o b) :=
  Keeps.foldl_fst (p := (s, b)) hs fun _ _ h => State.writeBytes_keeps h

theorem State.colEnd_keeps {s : State} {id status info rows : Nat} (hs : Keeps ini s) :
    Keeps ini (State.colEnd s id status info rows) := by
  unfold State.colEnd
  repeat' first
    | with_reducible assumption
    | with_reducible apply State.workDone_keeps

theorem State.ingestStep_keeps {s : State} {id : Nat} {w : Work} (hs : Keeps ini s) :
    Keeps ini (State.ingestStep s id w) := by
  unfold State.ingestStep
  repeat' first
    | with_reducible assumption
    | with_reducible apply State.colOpen_keeps
    | with_reducible apply State.colEnd_keeps
    | with_reducible apply State.writeChunk_keeps
    | with_reducible apply State.appendChunk_keeps
    | with_reducible apply State.updWork_keeps
    | simp only [Keeps.mk_iff]
    | with_reducible apply Keeps.other
    | with_reducible apply Keeps.ite
    | refine Keeps.fst (by assumption) ?_
    | refine Keeps.snd (by assumption) ?_
    | split

theorem State.readStep_keeps {s : State} {id : Nat} {w : Work} (hs : Keeps ini s) : Keeps ini (State.readStep s id w) := by
  unfold State.readStep
  split
  · rename_i d hd
    extract_lets +onlyGivenNames row n
    have ho : Keeps ini (s.openSeg w.f 5 0 d (row / 65536)).1 := State.openSeg_keeps hs
    split
    · rename_i e
      rw [e] at ho
      exact State.colEnd_keeps ho
    · rename_i s1 g e
      rw [e] at ho
      extract_lets +onlyGivenNames lo
      split
      · exact State.colEnd_keeps ho
      · split
        · exact State.colEnd_keeps ho
        · extract_lets +onlyGivenNames eb nat filled s2 s3 a k pad last bits s4
          have h2 : Keeps ini s2 := ho.setDrawn solidVals_drawn
          have h3 : Keeps ini s3 := State.scatter_keeps h2
          have h4 : Keeps ini s4 := Keeps.ite h3 (State.writeBytes_keeps (State.free_keeps h3))
          exact Keeps.ite (State.colEnd_keeps h4) (State.updWork_keeps h4)
  · exact State.colEnd_keeps hs
  · exact State.colEnd_keeps hs
  · exact State.colEnd_keeps hs

theorem State.colStart_keeps {s : State} {id : Nat} {w : Work} {g : State → State} (hs : Keeps ini s)
    (hg : ∀ s, Keeps ini s → Keeps ini (g s)) : Keeps ini (State.colStart s id w g) := by
  unfold State.colStart
  split
  · exact hg _ hs
  · split
    · refine State.workDone_keeps (State.updWork_keeps ?_)
      split
      · exact State.logSegment_keeps hs
      · exact hs
    · exact hg _ (State.runWork_keeps hs)

theorem execColumnWrite_keeps {w : Nat} {s : State} {out : State} (e : execColumnWrite w s = .next out) (hs : Keeps
    ini s) :
    Keeps ini out := by
  unfold execColumnWrite at e
  obtain rfl := Host.Outcome.next.inj e
  repeat' first
    | intro _ _
    | intro _
    | with_reducible assumption
    | with_reducible apply State.onWork_keeps
    | with_reducible apply State.colStart_keeps
    | with_reducible apply State.dropObj_keeps
    | with_reducible apply State.colEnd_keeps
    | with_reducible apply State.ingestStep_keeps
    | with_reducible apply Keeps.ite

theorem execColumnAppend_keeps {w : Nat} {s : State} {out : State} (e : execColumnAppend w s = .next out) (hs : Keeps
    ini s) :
    Keeps ini out := by
  unfold execColumnAppend at e
  obtain rfl := Host.Outcome.next.inj e
  repeat' first
    | intro _ _
    | intro _
    | with_reducible assumption
    | with_reducible apply State.onWork_keeps
    | with_reducible apply State.colStart_keeps
    | with_reducible apply State.ingestStep_keeps
    | with_reducible apply Keeps.ite

theorem execColumnRead_keeps {w : Nat} {s : State} {out : State} (e : execColumnRead w s = .next out) (hs : Keeps ini
    s) :
    Keeps ini out := by
  unfold execColumnRead at e
  obtain rfl := Host.Outcome.next.inj e
  repeat' first
    | intro _ _
    | intro _
    | with_reducible assumption
    | with_reducible apply State.onWork_keeps
    | with_reducible apply State.colStart_keeps
    | with_reducible apply State.readStep_keeps

theorem State.takeSlot_keeps {s : State} {id : Nat} {w : Work} {out : State} {a b : Nat} (e : State.takeSlot s id w =
    some (a, b, out)) (hs : Keeps ini s) :
    Keeps ini out := by
  unfold State.takeSlot at e
  repeat' first
    | with_reducible assumption
    | cases e
    | split at e
    | dsimp only at e
    | with_reducible apply State.allocFlag_keeps
    | with_reducible apply State.updPair_keeps
    | with_reducible apply State.runWork_keeps
    | with_reducible apply State.updWork_keeps

theorem State.giveXfer_keeps {s : State} {x : Xfer} {out : State} (e : State.giveXfer s x = some out) (hs : Keeps ini
    s) :
    Keeps ini out := by
  unfold State.giveXfer at e
  repeat' first
    | with_reducible assumption
    | simp only [Option.map_eq_some_iff] at e
    | (obtain ⟨_, _, e⟩ := e)
    | cases e
    | split at e
    | dsimp only at e
    | with_reducible apply State.updDma_keeps

theorem execDmaCopy_keeps {w : Nat} {s out : State} (e : execDmaCopy w s = .next out) (hs : Keeps ini s) : Keeps ini out := by
  unfold execDmaCopy at e
  obtain rfl := Host.Outcome.next.inj e
  clear e
  refine State.onWork_keeps hs fun x => ?_
  split
  · exact hs
  · split
    · exact hs
    · rename_i a fl s1 e
      have h1 : Keeps ini s1 := State.takeSlot_keeps e hs
      extract_lets +onlyGivenNames given t
      cases hx : s1.giveXfer t with
      | none => exact hs
      | some s2 => exact State.giveXfer_keeps hx h1

theorem State.submitCmp_keeps {s : State} {id : Nat} {w : Work} (hs : Keeps ini s) :
    Keeps ini (State.submitCmp s id w) := by
  unfold State.submitCmp
  repeat' first
    | with_reducible assumption
    | with_reducible apply State.workDone_keeps
    | with_reducible refine State.takeSlot_keeps (by assumption) ?_
    | with_reducible apply State.cmpPush_keeps
    | simp only [Keeps.mk_iff]
    | with_reducible apply Keeps.other
    | with_reducible apply Keeps.ite
    | refine Keeps.fst (by assumption) ?_
    | refine Keeps.snd (by assumption) ?_
    | split

theorem execCompress_keeps {w : Nat} {s : State} {out : State} (e : execCompress w s = .next out) (hs : Keeps ini s)
    :
    Keeps ini out := by
  unfold execCompress at e
  obtain rfl := Host.Outcome.next.inj e
  repeat' first
    | intro _ _
    | intro _
    | with_reducible assumption
    | with_reducible apply State.onWork_keeps
    | with_reducible apply State.submitCmp_keeps

theorem execDecompress_keeps {w : Nat} {s : State} {out : State} (e : execDecompress w s = .next out) (hs : Keeps ini
    s) :
    Keeps ini out := by
  unfold execDecompress at e
  obtain rfl := Host.Outcome.next.inj e
  repeat' first
    | intro _ _
    | intro _
    | with_reducible assumption
    | with_reducible apply State.onWork_keeps
    | with_reducible apply State.submitCmp_keeps

theorem execDigest_keeps {w : Nat} {s out : State} (e : execDigest w s = .next out) (hs : Keeps ini s) : Keeps ini out := by
  unfold execDigest at e
  obtain rfl := Host.Outcome.next.inj e
  clear e
  refine State.onWork_keeps hs fun x => ?_
  extract_lets +onlyGivenNames f mode derive
  refine Keeps.ite hs (Keeps.ite (State.workDone_keeps hs) ?_)
  split
  · rename_i k a fl s1 hk e
    have h1 : Keeps ini s1 := State.takeSlot_keeps e hs
    extract_lets +onlyGivenNames m t
    cases hx : (s1.updDgs k (fun y => { y with msgs := y.msgs.set f m })).giveXfer t with
    | none => exact hs
    | some s2 => exact State.giveXfer_keeps hx (State.updDgs_keeps h1)
  · exact hs

end Sys2Proof.Machine
end

