-- ==== Sys2Proof/Laws/TenancyKeeps.lean ====
section
/-! SUPPORT. The operations of Machine/Tenancy.lean keep what Keeps names. -/

namespace Sys2Proof.Machine

variable {ini : State}

theorem State.remap_keeps {s : State} (hs : Keeps ini s) :
    Keeps ini (State.remap s) := by
  unfold State.remap
  repeat' first
    | with_reducible assumption
    | simp only [Keeps.mk_iff]
    | with_reducible apply Keeps.other

theorem State.pageChanged_keeps {s : State} (hs : Keeps ini s) :
    Keeps ini (State.pageChanged s) := by
  unfold State.pageChanged
  repeat' first
    | intro _ _ _
    | with_reducible assumption
    | with_reducible apply State.attn_keeps
    | simp only [Keeps.mk_iff]
    | with_reducible apply Keeps.other
    | (with_reducible apply Keeps.foldl)

theorem State.setTState_keeps {s : State} {f : Nat} {st : TState} {tell : List Nat} (hs : Keeps ini s) :
    Keeps ini (State.setTState s f st tell) := by
  unfold State.setTState
  repeat' first
    | intro _ _ _
    | with_reducible assumption
    | with_reducible apply State.attn_keeps
    | with_reducible apply State.updTenant_keeps
    | simp only [Keeps.mk_iff]
    | with_reducible apply Keeps.other
    | (with_reducible apply Keeps.foldl)

theorem State.cancelWork_keeps {s : State} {id : Nat} {w : Work} (hs : Keeps ini s) :
    Keeps ini (State.cancelWork s id w) := by
  unfold State.cancelWork
  repeat' first
    | with_reducible assumption
    | with_reducible apply State.cancelQuery_keeps
    | with_reducible apply State.workDone_keeps
    | with_reducible apply State.dmaEndAll_keeps
    | with_reducible apply State.dgsEndAll_keeps
    | with_reducible apply State.updWork_keeps
    | with_reducible apply State.cmpEndAll_keeps
    | simp only [Keeps.mk_iff]
    | with_reducible apply Keeps.other
    | with_reducible apply Keeps.ite

theorem State.cancelAll_keeps {s : State} {f : Nat} (hs : Keeps ini s) :
    Keeps ini (State.cancelAll s f) := by
  unfold State.cancelAll
  repeat' first
    | intro _ _ _
    | with_reducible assumption
    | with_reducible apply State.cancelWork_keeps
    | (with_reducible apply Keeps.foldl)
    | refine Keeps.fst (by assumption) ?_
    | refine Keeps.snd (by assumption) ?_
    | split

theorem State.haltPairs_keeps {s : State} {f : Nat} (hs : Keeps ini s) :
    Keeps ini (State.haltPairs s f) := by
  unfold State.haltPairs
  repeat' first
    | intro _ _ _
    | with_reducible assumption
    | with_reducible apply State.leaveActive_keeps
    | with_reducible apply Keeps.ite
    | (with_reducible apply Keeps.foldl)

theorem State.wakePairs_keeps {s : State} {f : Nat} (hs : Keeps ini s) :
    Keeps ini (State.wakePairs s f) := by
  unfold State.wakePairs
  repeat' first
    | with_reducible assumption
    | with_reducible apply State.updTenant_keeps

theorem State.resetDisp_keeps {s : State} {f : Nat} (hs : Keeps ini s) :
    Keeps ini (State.resetDisp s f) := by
  unfold State.resetDisp
  repeat' first
    | with_reducible assumption
    | with_reducible apply State.updDisp_keeps
    | with_reducible apply State.writeBytes_keeps

theorem State.unbindTiles_keeps {s : State} {f : Nat} (hs : Keeps ini s) :
    Keeps ini (State.unbindTiles s f) := by
  unfold State.unbindTiles
  repeat' first
    | intro _ _ _
    | with_reducible assumption
    | with_reducible apply State.updCore_keeps
    | with_reducible apply State.startRebind_keeps
    | simp only [Keeps.mk_iff]
    | with_reducible apply Keeps.other
    | refine Keeps.foldl_bind (by assumption) ?_ ?_
    | with_reducible apply Keeps.ite
    | (with_reducible apply Keeps.foldl)

theorem State.newGeneration_keeps {s : State} {f : Nat} (hs : Keeps ini s) :
    Keeps ini (State.newGeneration s f) := by
  unfold State.newGeneration
  repeat' first
    | with_reducible assumption
    | with_reducible apply State.updTenant_keeps
    | with_reducible apply State.log_keeps
    | with_reducible apply State.unwaitFor_keeps

theorem State.silence_keeps {s : State} {f : Nat} (hs : Keeps ini s) :
    Keeps ini (State.silence s f) := by
  unfold State.silence
  repeat' first
    | with_reducible assumption
    | simp only [Keeps.mk_iff]
    | with_reducible apply Keeps.other

theorem State.dropPairs_keeps {s : State} {f : Nat} (hs : Keeps ini s) :
    Keeps ini (State.dropPairs s f) := by
  unfold State.dropPairs
  repeat' first
    | with_reducible assumption
    | with_reducible apply State.updTenant_keeps
    | simp only [Keeps.mk_iff]
    | with_reducible apply Keeps.other

theorem State.dropEngines_keeps {s : State} {f : Nat} (hs : Keeps ini s) :
    Keeps ini (State.dropEngines s f) := by
  unfold State.dropEngines
  repeat' first
    | with_reducible assumption
    | with_reducible apply State.cmpDropFunc_keeps
    | with_reducible apply State.dmaDropFunc_keeps
    | with_reducible apply State.dgsDropFunc_keeps
    | with_reducible apply State.brmDropFunc_keeps
    | with_reducible apply State.brmClear_keeps
    | with_reducible apply State.closeXchgs_keeps
    | simp only [Keeps.mk_iff]
    | with_reducible apply Keeps.other

theorem State.resetTenant_keeps {s : State} {f : Nat} {destroy : Bool} {tell : List Nat} (hs : Keeps ini s) :
    Keeps ini (State.resetTenant s f destroy tell) := by
  unfold State.resetTenant
  repeat' first
    | with_reducible assumption
    | with_reducible apply State.newGeneration_keeps
    | with_reducible apply State.silence_keeps
    | with_reducible apply State.haltPairs_keeps
    | with_reducible apply State.cancelAll_keeps
    | with_reducible apply State.updTenant_keeps
    | with_reducible apply State.resetDisp_keeps
    | with_reducible apply State.unbindTiles_keeps
    | with_reducible apply State.dropEngines_keeps
    | with_reducible apply State.dropPairs_keeps
    | with_reducible apply State.setTState_keeps
    | simp only [Keeps.mk_iff]
    | with_reducible apply Keeps.other
    | with_reducible apply Keeps.ite

theorem State.flrTenant_keeps {s : State} {f : Nat} (hs : Keeps ini s) :
    Keeps ini (State.flrTenant s f) := by
  unfold State.flrTenant
  repeat' first
    | with_reducible assumption
    | with_reducible apply State.resetTenant_keeps
    | refine Keeps.fst (by assumption) ?_
    | refine Keeps.snd (by assumption) ?_
    | split

theorem State.zeroRange_keeps {s : State} {a n : Nat} (hs : Keeps ini s) :
    Keeps ini (State.zeroRange s a n) := by
  unfold State.zeroRange
  repeat' first
    | with_reducible assumption
    | simp only [Keeps.mk_iff]
    | with_reducible apply Keeps.other
    | with_reducible apply Kept.memFilter

theorem State.dropL1Range_keeps {s : State} {a n : Nat} (hs : Keeps ini s) :
    Keeps ini (State.dropL1Range s a n) := by
  unfold State.dropL1Range
  repeat' first
    | with_reducible assumption
    | simp only [Keeps.mk_iff]
    | with_reducible apply Keeps.other

theorem State.dropOwned_keeps {s : State} {f : Nat} (hs : Keeps ini s) :
    Keeps ini (State.dropOwned s f) := by
  unfold State.dropOwned
  repeat' first
    | with_reducible assumption
    | simp only [Keeps.mk_iff]
    | with_reducible apply Keeps.other

theorem State.eraseKeys_keeps {s : State} {f : Nat} (hs : Keeps ini s) :
    Keeps ini (State.eraseKeys s f) := by
  unfold State.eraseKeys
  repeat' first
    | with_reducible assumption
    | with_reducible apply State.updTenant_keeps
    | simp only [Keeps.mk_iff]
    | with_reducible apply Keeps.other

theorem State.drawCtxKey_keeps {s : State} {f : Nat} (hs : Keeps ini s) :
    Keeps ini (State.drawCtxKey s f) := by
  unfold State.drawCtxKey
  repeat' first
    | with_reducible assumption
    | with_reducible apply State.freeBytes_keeps
    | with_reducible apply State.updTenant_keeps

theorem State.wipeTenant_keeps {s : State} {f : Nat} (hs : Keeps ini s) :
    Keeps ini (State.wipeTenant s f) := by
  unfold State.wipeTenant
  repeat' first
    | intro _ _ _
    | with_reducible assumption
    | with_reducible apply State.dropL1Range_keeps
    | with_reducible apply State.zeroRange_keeps
    | with_reducible apply State.dropOwned_keeps
    | with_reducible apply State.eraseKeys_keeps
    | with_reducible apply State.updTenant_keeps
    | simp only [Keeps.mk_iff]
    | with_reducible apply Keeps.other
    | (with_reducible apply Keeps.foldl)

theorem State.freeGrants_keeps {s : State} {f : Nat} (hs : Keeps ini s) : Keeps ini (State.freeGrants s f) := by
  unfold State.freeGrants
  extract_lets +onlyGivenNames s1 s2
  have h1 : Keeps ini s1 := State.updTenant_keeps hs
  have h2 : Keeps ini s2 := Keeps.mk_iff.mpr h1.other
  exact State.pageChanged_keeps (State.remap_keeps h2)

theorem execWipeEnd_keeps {f : Nat} {s : State} {out : State} (e : execWipeEnd f s = .next out) (hs : Keeps ini s) :
    Keeps ini out := by
  unfold execWipeEnd at e
  obtain rfl := Host.Outcome.next.inj e
  repeat' first
    | with_reducible assumption
    | with_reducible apply State.wipeTenant_keeps
    | with_reducible apply State.drawCtxKey_keeps
    | with_reducible apply State.wakePairs_keeps
    | with_reducible apply State.setTState_keeps
    | with_reducible apply State.freeGrants_keeps
    | with_reducible apply Keeps.ite
    | refine Keeps.fst (by assumption) ?_
    | refine Keeps.snd (by assumption) ?_
    | split

theorem execQuiesceBound_keeps {f : Nat} {s : State} {out : State} (e : execQuiesceBound f s = .next out) (hs : Keeps
    ini s) :
    Keeps ini out := by
  unfold execQuiesceBound at e
  obtain rfl := Host.Outcome.next.inj e
  repeat' first
    | with_reducible assumption
    | with_reducible apply State.updTenant_keeps
    | with_reducible apply State.cancelAll_keeps
    | simp only [Keeps.mk_iff]
    | with_reducible apply Keeps.other
    | refine Keeps.fst (by assumption) ?_
    | refine Keeps.snd (by assumption) ?_
    | split

theorem execQuiesceComplete_keeps {f : Nat} {s : State} {out : State} (e : execQuiesceComplete f s = .next out) (hs :
    Keeps ini s) :
    Keeps ini out := by
  unfold execQuiesceComplete at e
  obtain rfl := Host.Outcome.next.inj e
  repeat' first
    | with_reducible assumption
    | with_reducible apply State.updTenant_keeps
    | with_reducible apply State.setTState_keeps
    | simp only [Keeps.mk_iff]
    | with_reducible apply Keeps.other
    | with_reducible apply Keeps.ite

end Sys2Proof.Machine
end

