-- ==== Sys2Proof/Laws/MailboxKeeps.lean ====
section
/-! SUPPORT. The operations of Machine/Mailbox.lean keep what Keeps names. -/

namespace Sys2Proof.Machine

variable {ini : State}

theorem State.updMbox_keeps {s : State} {f : Nat} {g : Mailbox → Mailbox} (hs : Keeps ini s) :
    Keeps ini (State.updMbox s f g) := by
  unfold State.updMbox
  repeat' first
    | with_reducible assumption
    | simp only [Keeps.mk_iff]
    | with_reducible apply Keeps.other

theorem execMbDoorbell_keeps {f : Nat} {v : BitVec 32} {s : State} {out : State} (e : execMbDoorbell f v s = .next
    out) (hs : Keeps ini s) :
    Keeps ini out := by
  unfold execMbDoorbell at e
  obtain rfl := Host.Outcome.next.inj e
  repeat' first
    | with_reducible assumption
    | with_reducible apply State.updMbox_keeps

theorem State.mbReplyAt_keeps {s d : State} {f tstate status detail : Nat} {payload : List Byte} (hs : Keeps ini s) :
    Keeps ini (State.mbReplyAt s d f tstate status detail payload) := by
  unfold State.mbReplyAt
  repeat' first
    | with_reducible assumption
    | with_reducible apply State.flrTenant_keeps
    | with_reducible apply State.updMbox_keeps
    | with_reducible apply State.signal_keeps
    | simp only [Keeps.mk_iff]
    | with_reducible apply Keeps.other
    | with_reducible apply Keeps.ite

theorem State.mbReply_keeps {s d : State} {f status detail : Nat} {payload : List Byte} (hs : Keeps ini s) :
    Keeps ini (State.mbReply s d f status detail payload) := by
  unfold State.mbReply
  repeat' first
    | with_reducible assumption
    | with_reducible apply State.mbReplyAt_keeps

theorem execMailboxTake_keeps {s : State} {out : State} (e : execMailboxTake s = .next out) (hs : Keeps ini s) :
    Keeps ini out := by
  unfold execMailboxTake at e
  obtain rfl := Host.Outcome.next.inj e
  repeat' first
    | with_reducible assumption
    | with_reducible apply State.mbReply_keeps
    | simp only [Keeps.mk_iff]
    | with_reducible apply Keeps.other
    | with_reducible apply Keeps.ite
    | refine Keeps.fst (by assumption) ?_
    | refine Keeps.snd (by assumption) ?_
    | split

theorem State.mbRun_keeps {s : State} {f op : Nat} {g : State → State} (hs : Keeps ini s)
    (hg : ∀ s, Keeps ini s → Keeps ini (g s)) : Keeps ini (State.mbRun s f op g) := by
  unfold State.mbRun
  refine Keeps.ite (Keeps.ite (hg _ hs) ?_) hs
  split
  · exact State.mbReply_keeps hs
  · exact hg _ hs

theorem execDevInfo_keeps {f : Nat} {s : State} {out : State} (e : execDevInfo f s = .next out) (hs : Keeps ini s) :
    Keeps ini out := by
  unfold execDevInfo at e
  obtain rfl := Host.Outcome.next.inj e
  repeat' first
    | intro _ _
    | intro _
    | with_reducible assumption
    | with_reducible apply State.mbRun_keeps
    | with_reducible apply State.mbReply_keeps

theorem execCapQueryPage_keeps {f : Nat} {s : State} {out : State} (e : execCapQueryPage f s = .next out) (hs : Keeps
    ini s) :
    Keeps ini out := by
  unfold execCapQueryPage at e
  obtain rfl := Host.Outcome.next.inj e
  repeat' first
    | intro _ _
    | intro _
    | with_reducible assumption
    | with_reducible apply State.mbRun_keeps
    | with_reducible apply State.mbReply_keeps
    | with_reducible apply Keeps.ite

theorem execCapQueryEntitlement_keeps {f : Nat} {s : State} {out : State} (e : execCapQueryEntitlement f s = .next
    out) (hs : Keeps ini s) :
    Keeps ini out := by
  unfold execCapQueryEntitlement at e
  obtain rfl := Host.Outcome.next.inj e
  repeat' first
    | intro _ _
    | intro _
    | with_reducible assumption
    | with_reducible apply State.mbRun_keeps
    | with_reducible apply State.mbReply_keeps
    | with_reducible apply Keeps.ite

theorem execHealthReport_keeps {f : Nat} {s : State} {out : State} (e : execHealthReport f s = .next out) (hs : Keeps
    ini s) :
    Keeps ini out := by
  unfold execHealthReport at e
  obtain rfl := Host.Outcome.next.inj e
  repeat' first
    | intro _ _
    | intro _
    | with_reducible assumption
    | with_reducible apply State.mbRun_keeps
    | with_reducible apply State.mbReply_keeps

theorem execErrlogRead_keeps {f : Nat} {s : State} {out : State} (e : execErrlogRead f s = .next out) (hs : Keeps ini
    s) :
    Keeps ini out := by
  unfold execErrlogRead at e
  obtain rfl := Host.Outcome.next.inj e
  repeat' first
    | intro _ _
    | intro _
    | with_reducible assumption
    | with_reducible apply State.mbRun_keeps
    | with_reducible apply State.mbReply_keeps
    | with_reducible refine State.take_keeps (by assumption) ?_
    | with_reducible apply State.writeBytes_keeps
    | with_reducible apply Keeps.ite

theorem execQueueCreate_keeps {f : Nat} {s : State} {out : State} (e : execQueueCreate f s = .next out) (hs : Keeps
    ini s) :
    Keeps ini out := by
  unfold execQueueCreate at e
  obtain rfl := Host.Outcome.next.inj e
  repeat' first
    | intro _ _
    | intro _
    | with_reducible assumption
    | with_reducible apply State.mbRun_keeps
    | with_reducible apply State.mbReply_keeps
    | with_reducible refine State.place_keeps (by assumption) ?_
    | with_reducible apply State.updTenant_keeps
    | simp only [Keeps.mk_iff]
    | with_reducible apply Keeps.other
    | with_reducible apply Keeps.ite
    | refine Keeps.fst (by assumption) ?_
    | refine Keeps.snd (by assumption) ?_
    | split

theorem State.beginDelete_keeps {s : State} {f q : Nat} (hs : Keeps ini s) :
    Keeps ini (State.beginDelete s f q) := by
  unfold State.beginDelete
  repeat' first
    | intro _ _ _
    | with_reducible assumption
    | with_reducible apply State.updPair_keeps
    | with_reducible apply State.closeBatch_keeps
    | with_reducible apply State.cancelQuery_keeps
    | simp only [Keeps.mk_iff]
    | with_reducible apply Keeps.other
    | (with_reducible apply Keeps.foldl)

theorem State.endDelete_keeps {s : State} {f q : Nat} (hs : Keeps ini s) :
    Keeps ini (State.endDelete s f q) := by
  unfold State.endDelete
  repeat' first
    | with_reducible assumption
    | with_reducible apply State.drainCompletions_keeps
    | with_reducible apply State.mbReplyAt_keeps
    | with_reducible apply State.unwaitFor_keeps
    | with_reducible apply State.settleCancels_keeps
    | with_reducible apply State.unplace_keeps
    | with_reducible apply State.updTenant_keeps
    | simp only [Keeps.mk_iff]
    | with_reducible apply Keeps.other
    | with_reducible apply Keeps.ite
    | refine Keeps.fst (by assumption) ?_
    | refine Keeps.snd (by assumption) ?_
    | split

theorem execQueueDelete_keeps {f : Nat} {s : State} {out : State} (e : execQueueDelete f s = .next out) (hs : Keeps
    ini s) :
    Keeps ini out := by
  unfold execQueueDelete at e
  obtain rfl := Host.Outcome.next.inj e
  repeat' first
    | intro _ _
    | intro _
    | with_reducible assumption
    | with_reducible apply State.mbRun_keeps
    | with_reducible apply State.endDelete_keeps
    | with_reducible apply State.beginDelete_keeps
    | simp only [Keeps.mk_iff]
    | with_reducible apply Keeps.other
    | with_reducible apply Keeps.ite

theorem State.replyQuiet_keeps {s d : State} {f : Nat} {payload : List Byte} (hs : Keeps ini s) :
    Keeps ini (State.replyQuiet s d f payload) := by
  unfold State.replyQuiet
  repeat' first
    | with_reducible assumption
    | with_reducible apply State.mbReply_keeps
    | with_reducible apply Keeps.ite

theorem State.loadImage_keeps {s : State} {f : Nat} {b : List Byte} (hs : Keeps ini s) : Keeps ini (State.loadImage s f b) := by
  unfold State.loadImage
  extract_lets +onlyGivenNames x scr
  split
  · exact State.mbReply_keeps hs
  · rename_i a s1 e
    have h1 : Keeps ini s1 := State.place_keeps e hs
    split
    · exact State.mbReply_keeps hs
    · rename_i sc s2 e2
      have h2 : Keeps ini s2 := by
        split at e2
        · cases e2; exact h1
        · exact State.place_keeps e2 h1
      split
      · exact State.mbReply_keeps hs
      · extract_lets +onlyGivenNames h im s3 s4 s5
        have h3 : Keeps ini s3 := State.updTenant_keeps (State.writeBytes_keeps h2)
        have h4 : Keeps ini s4 := Keeps.foldl h3 fun s l hs => State.brmLoad_keeps hs
        exact State.replyQuiet_keeps (Keeps.mk_iff.mpr h4.other)

theorem execPipeLoad_keeps {f : Nat} {s : State} {out : State} (e : execPipeLoad f s = .next out) (hs : Keeps ini s)
    :
    Keeps ini out := by
  unfold execPipeLoad at e
  obtain rfl := Host.Outcome.next.inj e
  repeat' first
    | intro _ _
    | intro _
    | with_reducible assumption
    | with_reducible apply State.mbRun_keeps
    | with_reducible apply State.replyQuiet_keeps
    | with_reducible apply State.mbReply_keeps
    | with_reducible apply State.loadImage_keeps
    | with_reducible apply Keeps.ite
    | refine Keeps.fst (by assumption) ?_
    | refine Keeps.snd (by assumption) ?_
    | split

theorem execPipeUnload_keeps {f : Nat} {s : State} {out : State} (e : execPipeUnload f s = .next out) (hs : Keeps ini
    s) :
    Keeps ini out := by
  unfold execPipeUnload at e
  obtain rfl := Host.Outcome.next.inj e
  repeat' first
    | intro _ _
    | intro _
    | intro _ _ _
    | with_reducible assumption
    | with_reducible apply State.mbRun_keeps
    | with_reducible apply State.replyQuiet_keeps
    | with_reducible apply State.mbReply_keeps
    | with_reducible apply State.unplace_keeps
    | with_reducible apply State.updTenant_keeps
    | with_reducible apply State.brmLoad_keeps
    | simp only [Keeps.mk_iff]
    | with_reducible apply Keeps.other
    | with_reducible apply Keeps.ite
    | (with_reducible apply Keeps.foldl)
    | refine Keeps.fst (by assumption) ?_
    | refine Keeps.snd (by assumption) ?_
    | split

theorem execBrambleLoad_keeps {f : Nat} {s : State} {out : State} (e : execBrambleLoad f s = .next out) (hs : Keeps
    ini s) :
    Keeps ini out := by
  unfold execBrambleLoad at e
  obtain rfl := Host.Outcome.next.inj e
  repeat' first
    | intro _ _
    | intro _
    | with_reducible assumption
    | with_reducible apply State.mbRun_keeps
    | with_reducible apply State.replyQuiet_keeps
    | with_reducible apply State.mbReply_keeps
    | with_reducible apply State.brmLoad_keeps
    | simp only [Keeps.mk_iff]
    | with_reducible apply Keeps.other
    | with_reducible apply Keeps.ite
    | refine Keeps.fst (by assumption) ?_
    | refine Keeps.snd (by assumption) ?_
    | split

theorem execBrambleUpdateStep_keeps {a : Nat} {s : State} {out : State} (e : execBrambleUpdateStep a s = .next out)
    (hs : Keeps ini s) :
    Keeps ini out := by
  unfold execBrambleUpdateStep at e
  obtain rfl := Host.Outcome.next.inj e
  repeat' first
    | with_reducible assumption
    | with_reducible apply State.updBrm_keeps
    | with_reducible apply Keeps.ite

theorem State.giveWindows_keeps {s : State} {t : Nat} {e : Entitle} (hs : Keeps ini s) :
    Keeps ini (State.giveWindows s t e) := by
  unfold State.giveWindows
  repeat' first
    | intro _ _ _
    | with_reducible assumption
    | with_reducible apply State.updBrm_keeps
    | simp only [Keeps.mk_iff]
    | with_reducible apply Keeps.other
    | with_reducible apply Keeps.ite
    | (with_reducible apply Keeps.foldl)
    | refine Keeps.fst (by assumption) ?_
    | refine Keeps.snd (by assumption) ?_
    | split

theorem State.giveChannels_keeps {s : State} {t : Nat} {e : Entitle} (hs : Keeps ini s) :
    Keeps ini (State.giveChannels s t e) := by
  unfold State.giveChannels
  repeat' first
    | intro _ _ _
    | with_reducible assumption
    | with_reducible refine State.take_keeps (by assumption) ?_
    | with_reducible apply State.free_keeps
    | simp only [Keeps.mk_iff]
    | with_reducible apply Keeps.other
    | with_reducible apply Keeps.ite
    | (with_reducible apply Keeps.foldl)

theorem execTenantCreate_keeps {f : Nat} {s out : State} (e : execTenantCreate f s = .next out) (hs : Keeps ini s) :
    Keeps ini out := by
  unfold execTenantCreate at e
  obtain rfl := Host.Outcome.next.inj e
  clear e
  refine State.mbRun_keeps hs fun s hs => ?_
  refine Keeps.ite (State.mbReply_keeps hs) ?_
  split
  · exact State.mbReply_keeps hs
  · refine State.mbReply_keeps (State.pageChanged_keeps (State.setTState_keeps (State.remap_keeps (State.drawCtxKey_keeps ?_))))
    refine State.giveChannels_keeps (State.giveWindows_keeps (State.updTenant_keeps ?_))
    exact hs.setDrawn (Nat.le_succ _)

theorem State.reScratch_keeps {s : State} {t burst : Nat} {out : State} (e : State.reScratch s t burst = some out)
    (hs : Keeps ini s) : Keeps ini out := by
  refine Keeps.foldl_bind e hs fun p s out e hs => ?_
  dsimp only at e
  split at e
  · cases e; exact hs
  · simp only [Option.map_eq_some_iff] at e
    obtain ⟨r, hr, e⟩ := e
    subst e
    exact State.retire_keeps (State.updTenant_keeps (State.place_keeps (r := r.1) hr hs))

theorem execQosSet_keeps {f : Nat} {s : State} {out : State} (e : execQosSet f s = .next out) (hs : Keeps ini s) :
    Keeps ini out := by
  unfold execQosSet at e
  obtain rfl := Host.Outcome.next.inj e
  repeat' first
    | intro _ _
    | intro _
    | with_reducible assumption
    | with_reducible apply State.mbRun_keeps
    | with_reducible apply State.mbReply_keeps
    | with_reducible refine State.reScratch_keeps (by assumption) ?_
    | with_reducible apply State.giveWindows_keeps
    | with_reducible apply State.giveChannels_keeps
    | with_reducible apply State.updTenant_keeps
    | simp only [Keeps.mk_iff]
    | with_reducible apply Keeps.other
    | with_reducible apply Keeps.ite
    | refine Keeps.fst (by assumption) ?_
    | refine Keeps.snd (by assumption) ?_
    | split

theorem State.beginQuiesce_keeps {s : State} {f t : Nat} {bound : Option Nat} (hs : Keeps ini s) :
    Keeps ini (State.beginQuiesce s f t bound) := by
  unfold State.beginQuiesce
  repeat' first
    | with_reducible assumption
    | with_reducible apply State.haltPairs_keeps
    | with_reducible apply State.updTenant_keeps
    | with_reducible apply State.setTState_keeps

theorem execQuiesceDrain_keeps {f : Nat} {s : State} {out : State} (e : execQuiesceDrain f s = .next out) (hs : Keeps
    ini s) :
    Keeps ini out := by
  unfold execQuiesceDrain at e
  obtain rfl := Host.Outcome.next.inj e
  repeat' first
    | intro _ _
    | intro _
    | with_reducible assumption
    | with_reducible apply State.mbRun_keeps
    | with_reducible apply State.beginQuiesce_keeps
    | with_reducible apply State.mbReply_keeps
    | with_reducible apply Keeps.ite

theorem execQuiesceCancel_keeps {f : Nat} {s : State} {out : State} (e : execQuiesceCancel f s = .next out) (hs :
    Keeps ini s) :
    Keeps ini out := by
  unfold execQuiesceCancel at e
  obtain rfl := Host.Outcome.next.inj e
  repeat' first
    | intro _ _
    | intro _
    | with_reducible assumption
    | with_reducible apply State.mbRun_keeps
    | with_reducible apply State.beginQuiesce_keeps
    | with_reducible apply State.cancelAll_keeps
    | with_reducible apply State.mbReply_keeps
    | with_reducible apply Keeps.ite

theorem execQuiesceResume_keeps {f : Nat} {s : State} {out : State} (e : execQuiesceResume f s = .next out) (hs :
    Keeps ini s) :
    Keeps ini out := by
  unfold execQuiesceResume at e
  obtain rfl := Host.Outcome.next.inj e
  repeat' first
    | intro _ _
    | intro _
    | with_reducible assumption
    | with_reducible apply State.mbRun_keeps
    | with_reducible apply State.updTenant_keeps
    | with_reducible apply State.wakePairs_keeps
    | with_reducible apply State.setTState_keeps
    | with_reducible apply State.mbReply_keeps
    | simp only [Keeps.mk_iff]
    | with_reducible apply Keeps.other
    | with_reducible apply Keeps.ite

theorem execTenantReset_keeps {f : Nat} {s : State} {out : State} (e : execTenantReset f s = .next out) (hs : Keeps
    ini s) :
    Keeps ini out := by
  unfold execTenantReset at e
  obtain rfl := Host.Outcome.next.inj e
  repeat' first
    | intro _ _
    | intro _
    | with_reducible assumption
    | with_reducible apply State.mbRun_keeps
    | with_reducible apply State.resetTenant_keeps
    | with_reducible apply State.mbReply_keeps

theorem execTenantDestroy_keeps {f : Nat} {s : State} {out : State} (e : execTenantDestroy f s = .next out) (hs :
    Keeps ini s) :
    Keeps ini out := by
  unfold execTenantDestroy at e
  obtain rfl := Host.Outcome.next.inj e
  repeat' first
    | intro _ _
    | intro _
    | with_reducible assumption
    | with_reducible apply State.mbRun_keeps
    | with_reducible apply State.resetTenant_keeps
    | with_reducible apply State.mbReply_keeps

theorem execMigrateLogStart_keeps {f : Nat} {s : State} {out : State} (e : execMigrateLogStart f s = .next out) (hs :
    Keeps ini s) :
    Keeps ini out := by
  unfold execMigrateLogStart at e
  obtain rfl := Host.Outcome.next.inj e
  repeat' first
    | intro _ _
    | intro _
    | with_reducible assumption
    | with_reducible apply State.mbRun_keeps
    | with_reducible apply State.mbReply_keeps
    | with_reducible apply State.updTenant_keeps
    | simp only [Keeps.mk_iff]
    | with_reducible apply Keeps.other
    | with_reducible apply Keeps.ite

theorem execMigrateLogStop_keeps {f : Nat} {s : State} {out : State} (e : execMigrateLogStop f s = .next out) (hs :
    Keeps ini s) :
    Keeps ini out := by
  unfold execMigrateLogStop at e
  obtain rfl := Host.Outcome.next.inj e
  repeat' first
    | intro _ _
    | intro _
    | with_reducible assumption
    | with_reducible apply State.mbRun_keeps
    | with_reducible apply State.updTenant_keeps
    | with_reducible apply State.mbReply_keeps
    | simp only [Keeps.mk_iff]
    | with_reducible apply Keeps.other
    | refine Keeps.fst (by assumption) ?_
    | refine Keeps.snd (by assumption) ?_
    | split

theorem State.timeAlign_keeps {s : State} {f op : Nat} {g : State → State} (hs : Keeps ini s)
    (hg : ∀ s, Keeps ini s → Keeps ini (g s)) : Keeps ini (State.timeAlign s f op g) := by
  unfold State.timeAlign
  exact State.mbRun_keeps hs fun s h => Keeps.ite (State.mbReply_keeps (hg s h)) h

theorem execTimeAlignRead_keeps {f : Nat} {s out : State} (e : execTimeAlignRead f s = .next out) (hs : Keeps ini s) : Keeps ini out := by
  obtain rfl := Host.Outcome.next.inj e
  exact State.timeAlign_keeps hs fun _ h => h

theorem execTimeAlignPriority_keeps {f : Nat} {s : State} {out : State} (e : execTimeAlignPriority f s = .next out)
    (hs : Keeps ini s) :
    Keeps ini out := by
  unfold execTimeAlignPriority at e
  obtain rfl := Host.Outcome.next.inj e
  repeat' first
    | intro _ _
    | intro _
    | with_reducible assumption
    | with_reducible apply State.timeAlign_keeps
    | with_reducible apply State.updCad_keeps

theorem execHostSteeringOn_keeps {f : Nat} {s : State} {out : State} (e : execHostSteeringOn f s = .next out) (hs :
    Keeps ini s) :
    Keeps ini out := by
  unfold execHostSteeringOn at e
  obtain rfl := Host.Outcome.next.inj e
  repeat' first
    | intro _ _
    | intro _
    | with_reducible assumption
    | with_reducible apply State.timeAlign_keeps
    | with_reducible apply State.updCad_keeps

theorem execHostSteeringOff_keeps {f : Nat} {s : State} {out : State} (e : execHostSteeringOff f s = .next out) (hs :
    Keeps ini s) :
    Keeps ini out := by
  unfold execHostSteeringOff at e
  obtain rfl := Host.Outcome.next.inj e
  repeat' first
    | intro _ _
    | intro _
    | with_reducible assumption
    | with_reducible apply State.timeAlign_keeps
    | with_reducible apply State.updCad_keeps

theorem execKrelorSet_keeps {f : Nat} {s out : State} (e : execKrelorSet f s = .next out) (hs : Keeps ini s) : Keeps ini out := by
  unfold execKrelorSet at e
  obtain rfl := Host.Outcome.next.inj e
  clear e
  refine State.mbRun_keeps hs fun s hs => State.mbReply_keeps ?_
  exact Keeps.mk_iff.mpr (hs.other.nvSame (.same rfl rfl rfl rfl rfl))

end Sys2Proof.Machine
end

