-- ==== Sys2Proof/Laws/BootKeeps.lean ====
section
/-! SUPPORT. The operations of Machine/Boot.lean keep what Keeps names. -/

namespace Sys2Proof.Machine

variable {ini : State}

theorem State.writeBack_keeps {s : State} (hs : Keeps ini s) :
    Keeps ini (State.writeBack s) := by
  unfold State.writeBack
  repeat' first
    | intro _ _ _
    | with_reducible assumption
    | with_reducible apply State.putBelow_keeps
    | with_reducible apply Keeps.ite
    | (with_reducible apply Keeps.foldl)

theorem State.emptyCaches_keeps {s : State} (hs : Keeps ini s) :
    Keeps ini (State.emptyCaches s) := by
  unfold State.emptyCaches
  repeat' first
    | with_reducible assumption
    | simp only [Keeps.mk_iff]
    | with_reducible apply Keeps.other

theorem NonVol.writeDir_keeps {n : NonVol} {g : FlashDir → FlashDir} : NvKeeps n (n.writeDir g) := by
  unfold NonVol.writeDir
  dsimp only
  split <;> exact .same rfl rfl rfl rfl rfl

theorem NonVol.boot_keeps {n : NonVol} {img : BitVec 2} : NvKeeps n (n.boot img).1 := by
  unfold NonVol.boot
  dsimp only
  split
  · dsimp only
    split
    · exact NonVol.writeDir_keeps
    · exact .refl _
  · dsimp only
    split
    · exact NonVol.writeDir_keeps
    · exact .refl _

theorem State.bootUp_keeps {s : State} {img : BitVec 2} (hs : Keeps ini s) : Keeps ini (State.bootUp s img) := by
  unfold State.bootUp
  exact Keeps.mk_iff.mpr (hs.other.nvSame NonVol.boot_keeps)

theorem State.startTiles_keeps {s : State} (hs : Keeps ini s) :
    Keeps ini (State.startTiles s) := by
  unfold State.startTiles
  repeat' first
    | with_reducible assumption
    | simp only [Keeps.mk_iff]
    | with_reducible apply Keeps.other

theorem State.startMemory_keeps {s : State} {mods : List Nat} (hs : Keeps ini s) : Keeps ini (State.startMemory s mods) := by
  unfold State.startMemory
  extract_lets +onlyGivenNames ms up chans s1 s2
  have h1 : Keeps ini s1 := Keeps.mk_iff.mpr hs.other.draw.memEmpty
  exact State.remap_keeps (Keeps.foldl h1 fun s p h => State.log_keeps h)

theorem State.startKrelor_keeps {s : State} (hs : Keeps ini s) :
    Keeps ini (State.startKrelor s) := by
  unfold State.startKrelor
  repeat' first
    | with_reducible assumption
    | with_reducible apply State.updPort_keeps
    | simp only [Keeps.mk_iff]
    | with_reducible apply Keeps.other
    | with_reducible apply Keeps.ite

theorem State.eraseSlots_keeps {s : State} {l : List Nat} (hs : Keeps ini s) : Keeps ini (State.eraseSlots s l) := by
  unfold State.eraseSlots
  refine Keeps.mk_iff.mpr (hs.other.nvSame ⟨le_rfl, fun h => ?_, le_rfl, fun _ => rfl, id, id, le_rfl⟩)
  exact (Bool.and_eq_true _ _ ▸ h).1

theorem State.endWipe_keeps {s : State} (hs : Keeps ini s) : Keeps ini (State.endWipe s) := by
  unfold State.endWipe
  split
  · extract_lets +onlyGivenNames s1
    have h1 : Keeps ini s1 := State.eraseSlots_keeps hs
    exact Keeps.mk_iff.mpr (h1.other.nvSame (.same rfl rfl rfl rfl rfl))
  · exact hs

theorem State.afterReset_keeps {s : State} (hs : Keeps ini s) : Keeps ini (State.afterReset s) :=
  ⟨hs.pending, hs.part, hs.drawn, fun _ => Memory.wf_nil, hs.host, hs.nv, fun _ => ⟨Nat.zero_le _, Nat.zero_le _⟩,
    fun _ => ⟨le_rfl, Nat.zero_le _⟩⟩

/-- L_min rises to 2 at most (23 R685). -/
theorem State.minLevel_le {s : State} {k : Nat} (h : s.pw.lmin ≤ 2) : s.minLevel k ≤ 2 := by
  induction k generalizing s with
  | zero => exact h
  | succ n ih =>
    unfold State.minLevel
    extract_lets +onlyGivenNames p s1
    split
    · rename_i c
      exact ih (s := s1) (by simp only [s1]; omega)
    · exact h

theorem State.coldStart_keeps {s : State} {cause : Nat} {mods : List Nat} {straps : BitVec 5} {img : BitVec 2} (hs : Keeps ini s) :
    Keeps ini (State.coldStart s cause mods straps img) := by
  unfold State.coldStart
  extract_lets +onlyGivenNames p0 s1 s2 l p1 s3 p2 s4
  have h0 := State.afterReset_keeps hs
  have h1 : Keeps ini s1 :=
    ⟨h0.pending, h0.part, h0.drawn, h0.mem, h0.host, h0.nv, fun b => ⟨Nat.zero_le _, (hs.errlog b).2⟩, fun _ => ⟨le_rfl, Nat.zero_le _⟩⟩
  have k1 : Keeps s1 s2 := State.bootUp_keeps (State.startKrelor_keeps (State.startMemory_keeps (State.endWipe_keeps (.refl s1))))
  have h2 : Keeps ini s2 := h1.trans k1
  have hl : l ≤ 2 := State.minLevel_le (by have := k1.pw ⟨le_rfl, Nat.zero_le _⟩; exact this.1.trans this.2)
  have h3 : Keeps ini s3 := h2.setPw fun _ => ⟨le_rfl, hl⟩
  have h4 : Keeps ini s4 := Keeps.mk_iff.mpr h3.other
  exact State.startTiles_keeps h4

theorem State.warmStart_keeps {s : State} {cause : Nat} {mods : List Nat} {img : BitVec 2} (hs : Keeps ini s) :
    Keeps ini (State.warmStart s cause mods img) := by
  unfold State.warmStart
  extract_lets +onlyGivenNames p0 p1 p2 p3 p4 p5 s1 s2
  have h0 := State.afterReset_keeps hs
  have h1 : Keeps ini s1 := ⟨h0.pending, h0.part, h0.drawn, h0.mem, h0.host, h0.nv, hs.errlog, hs.pw⟩
  exact State.startTiles_keeps (State.bootUp_keeps (State.startKrelor_keeps (State.startMemory_keeps (State.endWipe_keeps h1))))

theorem execModuleColdReset_keeps {mods : List Nat} {straps : BitVec 5} {img : BitVec 2} {s : State} {out : State} (e
    : execModuleColdReset mods straps img s = .next out) (hs : Keeps ini s) :
    Keeps ini out := by
  unfold execModuleColdReset at e
  obtain rfl := Host.Outcome.next.inj e
  repeat' first
    | with_reducible assumption
    | with_reducible apply State.supply_keeps
    | with_reducible apply State.coldStart_keeps
    | refine Keeps.fst (by assumption) ?_
    | refine Keeps.snd (by assumption) ?_
    | split

theorem execModuleWarmReset_keeps {mods : List Nat} {img : BitVec 2} {s : State} {out : State} (e :
    execModuleWarmReset mods img s = .next out) (hs : Keeps ini s) :
    Keeps ini out := by
  unfold execModuleWarmReset at e
  obtain rfl := Host.Outcome.next.inj e
  repeat' first
    | with_reducible assumption
    | with_reducible apply State.supply_keeps
    | with_reducible apply State.warmStart_keeps
    | with_reducible apply Keeps.ite

theorem execPwrRstWarm_keeps {mods : List Nat} {img : BitVec 2} {s : State} {out : State} (e : execPwrRstWarm mods
    img s = .next out) (hs : Keeps ini s) :
    Keeps ini out := by
  unfold execPwrRstWarm at e
  obtain rfl := Host.Outcome.next.inj e
  repeat' first
    | with_reducible assumption
    | with_reducible apply State.supply_keeps
    | with_reducible apply State.warmStart_keeps
    | with_reducible apply Keeps.ite

theorem State.abandonUpdate_keeps {s : State} {step : Nat} (hs : Keeps ini s) :
    Keeps ini (State.abandonUpdate s step) := by
  unfold State.abandonUpdate
  repeat' first
    | with_reducible assumption
    | with_reducible apply State.log_keeps
    | simp only [Keeps.mk_iff]
    | with_reducible apply Keeps.other
    | with_reducible apply Keeps.ite

theorem State.resetFunction_keeps {s : State} {f : Nat} (hs : Keeps ini s) :
    Keeps ini (State.resetFunction s f) := by
  unfold State.resetFunction
  repeat' first
    | with_reducible assumption
    | with_reducible apply State.updMbox_keeps
    | with_reducible apply State.flrTenant_keeps
    | simp only [Keeps.mk_iff]
    | with_reducible apply Keeps.other
    | with_reducible apply Keeps.ite

theorem State.dropHostLines_keeps {s : State} (hs : Keeps ini s) :
    Keeps ini (State.dropHostLines s) := by
  unfold State.dropHostLines
  repeat' first
    | with_reducible assumption
    | with_reducible apply State.prefetch_keeps
    | simp only [Keeps.mk_iff]
    | with_reducible apply Keeps.other

theorem State.resetHost_keeps {s : State} (hs : Keeps ini s) :
    Keeps ini (State.resetHost s) := by
  unfold State.resetHost
  repeat' first
    | intro _ _ _
    | with_reducible assumption
    | with_reducible apply State.dropHostLines_keeps
    | with_reducible apply State.abandonUpdate_keeps
    | with_reducible apply State.resetFunction_keeps
    | simp only [Keeps.mk_iff]
    | with_reducible apply Keeps.other
    | (with_reducible apply Keeps.foldl)

theorem State.linkLost_keeps {s : State} (hs : Keeps ini s) :
    Keeps ini (State.linkLost s) := by
  unfold State.linkLost
  repeat' first
    | with_reducible assumption
    | simp only [Keeps.mk_iff]
    | with_reducible apply Keeps.other

theorem execPerst_keeps {s out : State} (e : execPerst s = .next out) (hs : Keeps ini s) : Keeps ini out := by
  obtain rfl := Host.Outcome.next.inj e
  exact State.linkLost_keeps (State.resetHost_keeps hs)

theorem execHotReset_keeps {s : State} {out : State} (e : execHotReset s = .next out) (hs : Keeps ini s) :
    Keeps ini out := by
  unfold execHotReset at e
  obtain rfl := Host.Outcome.next.inj e
  repeat' first
    | with_reducible assumption
    | with_reducible apply State.resetHost_keeps

theorem execLinkDown_keeps {s out : State} (e : execLinkDown s = .next out) (hs : Keeps ini s) : Keeps ini out := by
  obtain rfl := Host.Outcome.next.inj e
  exact State.linkLost_keeps (State.resetHost_keeps hs)

theorem execPfFlr_keeps {s : State} {out : State} (e : execPfFlr s = .next out) (hs : Keeps ini s) :
    Keeps ini out := by
  unfold execPfFlr at e
  obtain rfl := Host.Outcome.next.inj e
  repeat' first
    | with_reducible assumption
    | with_reducible apply State.resetHost_keeps

theorem execVfFlr_keeps {f : Nat} {s : State} {out : State} (e : execVfFlr f s = .next out) (hs : Keeps ini s) :
    Keeps ini out := by
  unfold execVfFlr at e
  obtain rfl := Host.Outcome.next.inj e
  repeat' first
    | with_reducible assumption
    | with_reducible apply State.resetFunction_keeps
    | with_reducible apply Keeps.ite

theorem execVfEnableClear_keeps {s : State} {out : State} (e : execVfEnableClear s = .next out) (hs : Keeps ini s) :
    Keeps ini out := by
  unfold execVfEnableClear at e
  obtain rfl := Host.Outcome.next.inj e
  repeat' first
    | intro _ _ _
    | with_reducible assumption
    | with_reducible apply State.resetFunction_keeps
    | simp only [Keeps.mk_iff]
    | with_reducible apply Keeps.other
    | (with_reducible apply Keeps.foldl)

theorem execLinkUp_keeps {rate width : Nat} {cxl ptm : Bool} {s : State} {out : State} (e : execLinkUp rate width cxl
    ptm s = .next out) (hs : Keeps ini s) :
    Keeps ini out := by
  unfold execLinkUp at e
  obtain rfl := Host.Outcome.next.inj e
  repeat' first
    | with_reducible assumption
    | with_reducible apply State.updCad_keeps
    | simp only [Keeps.mk_iff]
    | with_reducible apply Keeps.other

end Sys2Proof.Machine
end

