-- ==== Sys2Proof/Laws/QuillVecKeeps.lean ====
section
/-! SUPPORT. The operations of Machine/QuillVec.lean keep what Keeps names. -/

namespace Sys2Proof.Machine

variable {ini : State}

theorem State.vecMap_keeps {s : State} {t : Nat} {m x : Bool} {vd va vb : Reg} {f : Nat → Nat → Nat → Nat} (hs :
    Keeps ini s) :
    Keeps ini (State.vecMap s t m x vd va vb f) := by
  unfold State.vecMap
  repeat' first
    | intro _ _ _
    | with_reducible assumption
    | with_reducible apply State.runInstr_keeps
    | with_reducible apply State.updCore_keeps
    | with_reducible with_reducible apply Eff.done_keeps

theorem State.vecCmp_keeps {s : State} {t : Nat} {m x : Bool} {vd va vb : Reg} {f : Nat → Nat → Nat → Bool} (hs :
    Keeps ini s) :
    Keeps ini (State.vecCmp s t m x vd va vb f) := by
  unfold State.vecCmp
  repeat' first
    | intro _ _ _
    | with_reducible assumption
    | with_reducible apply State.runInstr_keeps
    | with_reducible apply State.updCore_keeps
    | with_reducible with_reducible apply Eff.done_keeps

theorem State.vecWide_keeps {s : State} {t : Nat} {ok m : Bool} {vd : Reg} {f : Core → Nat → Nat → Nat → Nat} (hs :
    Keeps ini s) :
    Keeps ini (State.vecWide s t ok m vd f) := by
  unfold State.vecWide
  repeat' first
    | intro _ _ _
    | with_reducible assumption
    | with_reducible apply State.runInstr_keeps
    | with_reducible apply State.fetch_keeps
    | with_reducible apply State.updCore_keeps
    | with_reducible with_reducible apply Eff.done_keeps
    | with_reducible with_reducible apply Eff.exc_keeps
    | with_reducible apply Keeps.ite
    | split

theorem State.vecDot_keeps {s : State} {t : Nat} {m : Bool} {sg : BitVec 2} {acc : Bool} {vd va vb : Reg} {w : Nat}
    (hs : Keeps ini s) :
    Keeps ini (State.vecDot s t m sg acc vd va vb w) := by
  unfold State.vecDot
  repeat' first
    | intro _ _ _
    | with_reducible assumption
    | with_reducible apply State.runInstr_keeps
    | with_reducible apply State.fetch_keeps
    | with_reducible apply State.updCore_keeps
    | with_reducible with_reducible apply Eff.done_keeps
    | with_reducible with_reducible apply Eff.exc_keeps
    | with_reducible apply Keeps.ite
    | split

theorem State.vecReduce_keeps {s : State} {t : Nat} {m : Bool} {rd va : Reg} {f : Nat → List Nat → Word} (hs : Keeps
    ini s) :
    Keeps ini (State.vecReduce s t m rd va f) := by
  unfold State.vecReduce
  repeat' first
    | intro _ _ _
    | with_reducible assumption
    | with_reducible apply State.runInstr_keeps
    | with_reducible apply State.updCore_keeps
    | with_reducible with_reducible apply Eff.done_keeps

theorem execSetvl_keeps {t : Nat} {rd ra : Reg} {ew : BitVec 3} {s : State} {out : State} (e : execSetvl t rd ra ew s
    = .next out) (hs : Keeps ini s) :
    Keeps ini out := by
  unfold execSetvl at e
  obtain rfl := Host.Outcome.next.inj e
  repeat' first
    | intro _ _ _
    | with_reducible assumption
    | with_reducible apply State.runInstr_keeps
    | with_reducible apply State.updCore_keeps
    | with_reducible with_reducible apply Eff.done_keeps

theorem execVadd_keeps {t : Nat} {m x : Bool} {vd va vb : Reg} {s : State} {out : State} (e : execVadd t m x vd va vb
    s = .next out) (hs : Keeps ini s) :
    Keeps ini out := by
  unfold execVadd at e
  obtain rfl := Host.Outcome.next.inj e
  repeat' first
    | with_reducible assumption
    | with_reducible apply State.vecMap_keeps

theorem execVsub_keeps {t : Nat} {m x : Bool} {vd va vb : Reg} {s : State} {out : State} (e : execVsub t m x vd va vb
    s = .next out) (hs : Keeps ini s) :
    Keeps ini out := by
  unfold execVsub at e
  obtain rfl := Host.Outcome.next.inj e
  repeat' first
    | with_reducible assumption
    | with_reducible apply State.vecMap_keeps

theorem execVand_keeps {t : Nat} {m x : Bool} {vd va vb : Reg} {s : State} {out : State} (e : execVand t m x vd va vb
    s = .next out) (hs : Keeps ini s) :
    Keeps ini out := by
  unfold execVand at e
  obtain rfl := Host.Outcome.next.inj e
  repeat' first
    | with_reducible assumption
    | with_reducible apply State.vecMap_keeps

theorem execVor_keeps {t : Nat} {m x : Bool} {vd va vb : Reg} {s : State} {out : State} (e : execVor t m x vd va vb s
    = .next out) (hs : Keeps ini s) :
    Keeps ini out := by
  unfold execVor at e
  obtain rfl := Host.Outcome.next.inj e
  repeat' first
    | with_reducible assumption
    | with_reducible apply State.vecMap_keeps

theorem execVxor_keeps {t : Nat} {m x : Bool} {vd va vb : Reg} {s : State} {out : State} (e : execVxor t m x vd va vb
    s = .next out) (hs : Keeps ini s) :
    Keeps ini out := by
  unfold execVxor at e
  obtain rfl := Host.Outcome.next.inj e
  repeat' first
    | with_reducible assumption
    | with_reducible apply State.vecMap_keeps

theorem execVsll_keeps {t : Nat} {m x : Bool} {vd va vb : Reg} {s : State} {out : State} (e : execVsll t m x vd va vb
    s = .next out) (hs : Keeps ini s) :
    Keeps ini out := by
  unfold execVsll at e
  obtain rfl := Host.Outcome.next.inj e
  repeat' first
    | with_reducible assumption
    | with_reducible apply State.vecMap_keeps

theorem execVsrl_keeps {t : Nat} {m x : Bool} {vd va vb : Reg} {s : State} {out : State} (e : execVsrl t m x vd va vb
    s = .next out) (hs : Keeps ini s) :
    Keeps ini out := by
  unfold execVsrl at e
  obtain rfl := Host.Outcome.next.inj e
  repeat' first
    | with_reducible assumption
    | with_reducible apply State.vecMap_keeps

theorem execVsra_keeps {t : Nat} {m x : Bool} {vd va vb : Reg} {s : State} {out : State} (e : execVsra t m x vd va vb
    s = .next out) (hs : Keeps ini s) :
    Keeps ini out := by
  unfold execVsra at e
  obtain rfl := Host.Outcome.next.inj e
  repeat' first
    | with_reducible assumption
    | with_reducible apply State.vecMap_keeps

theorem execVmin_keeps {t : Nat} {m x : Bool} {vd va vb : Reg} {s : State} {out : State} (e : execVmin t m x vd va vb
    s = .next out) (hs : Keeps ini s) :
    Keeps ini out := by
  unfold execVmin at e
  obtain rfl := Host.Outcome.next.inj e
  repeat' first
    | with_reducible assumption
    | with_reducible apply State.vecMap_keeps

theorem execVmax_keeps {t : Nat} {m x : Bool} {vd va vb : Reg} {s : State} {out : State} (e : execVmax t m x vd va vb
    s = .next out) (hs : Keeps ini s) :
    Keeps ini out := by
  unfold execVmax at e
  obtain rfl := Host.Outcome.next.inj e
  repeat' first
    | with_reducible assumption
    | with_reducible apply State.vecMap_keeps

theorem execVminu_keeps {t : Nat} {m x : Bool} {vd va vb : Reg} {s : State} {out : State} (e : execVminu t m x vd va
    vb s = .next out) (hs : Keeps ini s) :
    Keeps ini out := by
  unfold execVminu at e
  obtain rfl := Host.Outcome.next.inj e
  repeat' first
    | with_reducible assumption
    | with_reducible apply State.vecMap_keeps

theorem execVmaxu_keeps {t : Nat} {m x : Bool} {vd va vb : Reg} {s : State} {out : State} (e : execVmaxu t m x vd va
    vb s = .next out) (hs : Keeps ini s) :
    Keeps ini out := by
  unfold execVmaxu at e
  obtain rfl := Host.Outcome.next.inj e
  repeat' first
    | with_reducible assumption
    | with_reducible apply State.vecMap_keeps

theorem execVmul_keeps {t : Nat} {m x : Bool} {vd va vb : Reg} {s : State} {out : State} (e : execVmul t m x vd va vb
    s = .next out) (hs : Keeps ini s) :
    Keeps ini out := by
  unfold execVmul at e
  obtain rfl := Host.Outcome.next.inj e
  repeat' first
    | with_reducible assumption
    | with_reducible apply State.vecMap_keeps

theorem execVmulh_keeps {t : Nat} {m x : Bool} {vd va vb : Reg} {s : State} {out : State} (e : execVmulh t m x vd va
    vb s = .next out) (hs : Keeps ini s) :
    Keeps ini out := by
  unfold execVmulh at e
  obtain rfl := Host.Outcome.next.inj e
  repeat' first
    | with_reducible assumption
    | with_reducible apply State.vecMap_keeps

theorem execVmulhu_keeps {t : Nat} {m x : Bool} {vd va vb : Reg} {s : State} {out : State} (e : execVmulhu t m x vd
    va vb s = .next out) (hs : Keeps ini s) :
    Keeps ini out := by
  unfold execVmulhu at e
  obtain rfl := Host.Outcome.next.inj e
  repeat' first
    | with_reducible assumption
    | with_reducible apply State.vecMap_keeps

theorem execVmv_keeps {t : Nat} {m x : Bool} {vd vb : Reg} {s : State} {out : State} (e : execVmv t m x vd vb s =
    .next out) (hs : Keeps ini s) :
    Keeps ini out := by
  unfold execVmv at e
  obtain rfl := Host.Outcome.next.inj e
  repeat' first
    | with_reducible assumption
    | with_reducible apply State.vecMap_keeps

theorem execVcmpeq_keeps {t : Nat} {m x : Bool} {vd va vb : Reg} {s : State} {out : State} (e : execVcmpeq t m x vd
    va vb s = .next out) (hs : Keeps ini s) :
    Keeps ini out := by
  unfold execVcmpeq at e
  obtain rfl := Host.Outcome.next.inj e
  repeat' first
    | with_reducible assumption
    | with_reducible apply State.vecCmp_keeps

theorem execVcmpne_keeps {t : Nat} {m x : Bool} {vd va vb : Reg} {s : State} {out : State} (e : execVcmpne t m x vd
    va vb s = .next out) (hs : Keeps ini s) :
    Keeps ini out := by
  unfold execVcmpne at e
  obtain rfl := Host.Outcome.next.inj e
  repeat' first
    | with_reducible assumption
    | with_reducible apply State.vecCmp_keeps

theorem execVcmplt_keeps {t : Nat} {m x : Bool} {vd va vb : Reg} {s : State} {out : State} (e : execVcmplt t m x vd
    va vb s = .next out) (hs : Keeps ini s) :
    Keeps ini out := by
  unfold execVcmplt at e
  obtain rfl := Host.Outcome.next.inj e
  repeat' first
    | with_reducible assumption
    | with_reducible apply State.vecCmp_keeps

theorem execVcmpltu_keeps {t : Nat} {m x : Bool} {vd va vb : Reg} {s : State} {out : State} (e : execVcmpltu t m x vd
    va vb s = .next out) (hs : Keeps ini s) :
    Keeps ini out := by
  unfold execVcmpltu at e
  obtain rfl := Host.Outcome.next.inj e
  repeat' first
    | with_reducible assumption
    | with_reducible apply State.vecCmp_keeps

theorem execVcmple_keeps {t : Nat} {m x : Bool} {vd va vb : Reg} {s : State} {out : State} (e : execVcmple t m x vd
    va vb s = .next out) (hs : Keeps ini s) :
    Keeps ini out := by
  unfold execVcmple at e
  obtain rfl := Host.Outcome.next.inj e
  repeat' first
    | with_reducible assumption
    | with_reducible apply State.vecCmp_keeps

theorem execVcmpleu_keeps {t : Nat} {m x : Bool} {vd va vb : Reg} {s : State} {out : State} (e : execVcmpleu t m x vd
    va vb s = .next out) (hs : Keeps ini s) :
    Keeps ini out := by
  unfold execVcmpleu at e
  obtain rfl := Host.Outcome.next.inj e
  repeat' first
    | with_reducible assumption
    | with_reducible apply State.vecCmp_keeps

theorem execVcmpgt_keeps {t : Nat} {m x : Bool} {vd va vb : Reg} {s : State} {out : State} (e : execVcmpgt t m x vd
    va vb s = .next out) (hs : Keeps ini s) :
    Keeps ini out := by
  unfold execVcmpgt at e
  obtain rfl := Host.Outcome.next.inj e
  repeat' first
    | with_reducible assumption
    | with_reducible apply State.vecCmp_keeps

theorem execVcmpgtu_keeps {t : Nat} {m x : Bool} {vd va vb : Reg} {s : State} {out : State} (e : execVcmpgtu t m x vd
    va vb s = .next out) (hs : Keeps ini s) :
    Keeps ini out := by
  unfold execVcmpgtu at e
  obtain rfl := Host.Outcome.next.inj e
  repeat' first
    | with_reducible assumption
    | with_reducible apply State.vecCmp_keeps

theorem execVcmpge_keeps {t : Nat} {m x : Bool} {vd va vb : Reg} {s : State} {out : State} (e : execVcmpge t m x vd
    va vb s = .next out) (hs : Keeps ini s) :
    Keeps ini out := by
  unfold execVcmpge at e
  obtain rfl := Host.Outcome.next.inj e
  repeat' first
    | with_reducible assumption
    | with_reducible apply State.vecCmp_keeps

theorem execVcmpgeu_keeps {t : Nat} {m x : Bool} {vd va vb : Reg} {s : State} {out : State} (e : execVcmpgeu t m x vd
    va vb s = .next out) (hs : Keeps ini s) :
    Keeps ini out := by
  unfold execVcmpgeu at e
  obtain rfl := Host.Outcome.next.inj e
  repeat' first
    | with_reducible assumption
    | with_reducible apply State.vecCmp_keeps

theorem execVwmul_keeps {t : Nat} {m : Bool} {sg : BitVec 2} {a : Bool} {vd va vb : Reg} {s : State} {out : State} (e
    : execVwmul t m sg a vd va vb s = .next out) (hs : Keeps ini s) :
    Keeps ini out := by
  unfold execVwmul at e
  obtain rfl := Host.Outcome.next.inj e
  repeat' first
    | with_reducible assumption
    | with_reducible apply State.vecWide_keeps

theorem execVwcvt_keeps {t : Nat} {m : Bool} {sg : BitVec 2} {vd va : Reg} {s : State} {out : State} (e : execVwcvt t
    m sg vd va s = .next out) (hs : Keeps ini s) :
    Keeps ini out := by
  unfold execVwcvt at e
  obtain rfl := Host.Outcome.next.inj e
  repeat' first
    | with_reducible assumption
    | with_reducible apply State.vecWide_keeps

theorem execNdot_keeps {t : Nat} {m : Bool} {sg : BitVec 2} {a : Bool} {vd va vb : Reg} {s : State} {out : State} (e
    : execNdot t m sg a vd va vb s = .next out) (hs : Keeps ini s) :
    Keeps ini out := by
  unfold execNdot at e
  obtain rfl := Host.Outcome.next.inj e
  repeat' first
    | with_reducible assumption
    | with_reducible apply State.vecDot_keeps

theorem execBdot_keeps {t : Nat} {m : Bool} {sg : BitVec 2} {a : Bool} {vd va vb : Reg} {s : State} {out : State} (e
    : execBdot t m sg a vd va vb s = .next out) (hs : Keeps ini s) :
    Keeps ini out := by
  unfold execBdot at e
  obtain rfl := Host.Outcome.next.inj e
  repeat' first
    | with_reducible assumption
    | with_reducible apply State.vecDot_keeps

theorem execVext_keeps {t : Nat} {m : Bool} {rd va rb : Reg} {s : State} {out : State} (e : execVext t m rd va rb s =
    .next out) (hs : Keeps ini s) :
    Keeps ini out := by
  unfold execVext at e
  obtain rfl := Host.Outcome.next.inj e
  repeat' first
    | intro _ _ _
    | with_reducible assumption
    | with_reducible apply State.runInstr_keeps
    | with_reducible apply State.updCore_keeps
    | with_reducible with_reducible apply Eff.done_keeps

theorem execVextu_keeps {t : Nat} {m : Bool} {rd va rb : Reg} {s : State} {out : State} (e : execVextu t m rd va rb s
    = .next out) (hs : Keeps ini s) :
    Keeps ini out := by
  unfold execVextu at e
  obtain rfl := Host.Outcome.next.inj e
  repeat' first
    | intro _ _ _
    | with_reducible assumption
    | with_reducible apply State.runInstr_keeps
    | with_reducible apply State.updCore_keeps
    | with_reducible with_reducible apply Eff.done_keeps

theorem execVins_keeps {t : Nat} {m : Bool} {vd ra rb : Reg} {s : State} {out : State} (e : execVins t m vd ra rb s =
    .next out) (hs : Keeps ini s) :
    Keeps ini out := by
  unfold execVins at e
  obtain rfl := Host.Outcome.next.inj e
  repeat' first
    | intro _ _ _
    | with_reducible assumption
    | with_reducible apply State.runInstr_keeps
    | with_reducible apply State.updCore_keeps
    | with_reducible with_reducible apply Eff.done_keeps

theorem execVcompress_keeps {t : Nat} {m : Bool} {vd va : Reg} {s : State} {out : State} (e : execVcompress t m vd va
    s = .next out) (hs : Keeps ini s) :
    Keeps ini out := by
  unfold execVcompress at e
  obtain rfl := Host.Outcome.next.inj e
  repeat' first
    | intro _ _ _
    | with_reducible assumption
    | with_reducible apply State.runInstr_keeps
    | with_reducible apply State.updCore_keeps
    | with_reducible with_reducible apply Eff.done_keeps

theorem execVpopm_keeps {t : Nat} {_m : Bool} {rd va : Reg} {s : State} {out : State} (e : execVpopm t _m rd va s =
    .next out) (hs : Keeps ini s) :
    Keeps ini out := by
  unfold execVpopm at e
  obtain rfl := Host.Outcome.next.inj e
  repeat' first
    | intro _ _ _
    | with_reducible assumption
    | with_reducible apply State.runInstr_keeps
    | with_reducible apply State.updCore_keeps
    | with_reducible with_reducible apply Eff.done_keeps

theorem execVfirstm_keeps {t : Nat} {_m : Bool} {rd va : Reg} {s : State} {out : State} (e : execVfirstm t _m rd va s
    = .next out) (hs : Keeps ini s) :
    Keeps ini out := by
  unfold execVfirstm at e
  obtain rfl := Host.Outcome.next.inj e
  repeat' first
    | intro _ _ _
    | with_reducible assumption
    | with_reducible apply State.runInstr_keeps
    | with_reducible apply State.updCore_keeps
    | with_reducible with_reducible apply Eff.done_keeps

theorem execVredsum_keeps {t : Nat} {m : Bool} {rd va : Reg} {s : State} {out : State} (e : execVredsum t m rd va s =
    .next out) (hs : Keeps ini s) :
    Keeps ini out := by
  unfold execVredsum at e
  obtain rfl := Host.Outcome.next.inj e
  repeat' first
    | with_reducible assumption
    | with_reducible apply State.vecReduce_keeps

theorem execVredsumu_keeps {t : Nat} {m : Bool} {rd va : Reg} {s : State} {out : State} (e : execVredsumu t m rd va s
    = .next out) (hs : Keeps ini s) :
    Keeps ini out := by
  unfold execVredsumu at e
  obtain rfl := Host.Outcome.next.inj e
  repeat' first
    | with_reducible assumption
    | with_reducible apply State.vecReduce_keeps

theorem execVredmin_keeps {t : Nat} {m : Bool} {rd va : Reg} {s : State} {out : State} (e : execVredmin t m rd va s =
    .next out) (hs : Keeps ini s) :
    Keeps ini out := by
  unfold execVredmin at e
  obtain rfl := Host.Outcome.next.inj e
  repeat' first
    | with_reducible assumption
    | with_reducible apply State.vecReduce_keeps

theorem execVredmax_keeps {t : Nat} {m : Bool} {rd va : Reg} {s : State} {out : State} (e : execVredmax t m rd va s =
    .next out) (hs : Keeps ini s) :
    Keeps ini out := by
  unfold execVredmax at e
  obtain rfl := Host.Outcome.next.inj e
  repeat' first
    | with_reducible assumption
    | with_reducible apply State.vecReduce_keeps

theorem execVredminu_keeps {t : Nat} {m : Bool} {rd va : Reg} {s : State} {out : State} (e : execVredminu t m rd va s
    = .next out) (hs : Keeps ini s) :
    Keeps ini out := by
  unfold execVredminu at e
  obtain rfl := Host.Outcome.next.inj e
  repeat' first
    | with_reducible assumption
    | with_reducible apply State.vecReduce_keeps

theorem execVredmaxu_keeps {t : Nat} {m : Bool} {rd va : Reg} {s : State} {out : State} (e : execVredmaxu t m rd va s
    = .next out) (hs : Keeps ini s) :
    Keeps ini out := by
  unfold execVredmaxu at e
  obtain rfl := Host.Outcome.next.inj e
  repeat' first
    | with_reducible assumption
    | with_reducible apply State.vecReduce_keeps

end Sys2Proof.Machine
end

