-- ==== Sys2Proof/Laws/WindowKeeps.lean ====
section
/-! SUPPORT. The operations of Machine/Window.lean keep what Keeps names. -/

namespace Sys2Proof.Machine

variable {ini : State}

theorem nextOr_keeps {s : State} {o : Host.Outcome State Fault Refusal} (hs : Keeps ini s) (ho : ∀ out, o = .next out → Keeps ini out) :
    Keeps ini (nextOr s o) := by
  cases o with
  | next s' => exact ho s' rfl
  | fault r => exact hs
  | refused r => exact hs

theorem State.winRead_keeps {s : State} {t : Nat} {b : WinBlock} {o : Nat} (hs : Keeps ini s) :
    Keeps ini (State.winRead s t b o).2 := by
  unfold State.winRead
  repeat' first
    | intro _ _ _
    | with_reducible assumption
    | with_reducible apply State.flagAllocRead_keeps
    | with_reducible apply State.brmVecRead_keeps
    | with_reducible apply State.brmFindRead_keeps
    | with_reducible apply Keeps.foldl_fst
    | with_reducible apply Keeps.foldl_snd
    | with_reducible apply Keeps.ite
    | (with_reducible apply Keeps.foldl)
    | refine Keeps.fst (by assumption) ?_
    | refine Keeps.snd (by assumption) ?_
    | split
    | dsimp only

theorem State.winWrite_keeps {s : State} {t : Nat} {b : WinBlock} {o : Nat} {v : Word} (hs : Keeps ini s) :
    Keeps ini (State.winWrite s t b o v) := by
  unfold State.winWrite
  repeat' first
    | intro _ _
    | intro _
    | with_reducible assumption
    | with_reducible apply State.strokeWrite_keeps
    | with_reducible apply State.taskDone_keeps
    | with_reducible apply State.taskFailed_keeps
    | with_reducible apply State.taskCancelled_keeps
    | with_reducible apply State.taskYield_keeps
    | with_reducible apply State.updTile_keeps
    | with_reducible apply State.flagSetWrite_keeps
    | with_reducible apply State.bindAck_keeps
    | with_reducible apply nextOr_keeps
    | with_reducible refine execCmpSubmit_keeps (by assumption) ?_
    | with_reducible refine execCmpAbort_keeps (by assumption) ?_
    | with_reducible refine execBrmSubmit_keeps (by assumption) ?_
    | with_reducible refine execCadArm_keeps (by assumption) ?_
    | with_reducible refine execCadDisarm_keeps (by assumption) ?_
    | with_reducible refine execDmaLoad_keeps (by assumption) ?_
    | with_reducible refine execDmaAbort_keeps (by assumption) ?_
    | with_reducible refine execDgsOpen_keeps (by assumption) ?_
    | with_reducible refine execDgsClose_keeps (by assumption) ?_
    | with_reducible refine execDgsSuspend_keeps (by assumption) ?_
    | simp only [Keeps.mk_iff]
    | with_reducible apply Keeps.other
    | with_reducible apply Keeps.ite
    | refine Keeps.fst (by assumption) ?_
    | refine Keeps.snd (by assumption) ?_
    | split

theorem State.winLoad_keeps {s : State} {t a n : Nat} (hs : Keeps ini s) :
    Keeps ini (State.winLoad s t a n).2 := by
  unfold State.winLoad
  repeat' first
    | with_reducible assumption
    | with_reducible apply State.winRead_keeps
    | with_reducible apply Keeps.ite
    | refine Keeps.fst (by assumption) ?_
    | refine Keeps.snd (by assumption) ?_
    | split
    | dsimp only

theorem State.winStore_keeps {s : State} {t a n : Nat} {v : Word} (hs : Keeps ini s) :
    Keeps ini (State.winStore s t a n v) := by
  unfold State.winStore
  repeat' first
    | with_reducible assumption
    | with_reducible apply State.winWrite_keeps
    | with_reducible apply State.winRead_keeps
    | with_reducible apply Keeps.ite
    | refine Keeps.fst (by assumption) ?_
    | refine Keeps.snd (by assumption) ?_
    | split

theorem State.blotStore_keeps {s : State} {t : Nat} {d : Line} {mask : BitVec 64} (hs : Keeps ini s) :
    Keeps ini (State.blotStore s t d mask) := by
  unfold State.blotStore
  repeat' first
    | with_reducible assumption
    | with_reducible apply State.updStroke_keeps

end Sys2Proof.Machine
end

