-- ==== Sys2Proof/Laws/QuillMemKeeps.lean ====
section
/-! SUPPORT. The operations of Machine/QuillMem.lean keep what Keeps names. -/

namespace Sys2Proof.Machine

variable {ini : State}

theorem State.lookup_keeps {s : State} {t line : Nat} {words : BitVec 8} {own : Bool} (hs : Keeps ini s) :
    Keeps ini (State.lookup s t line words own).2 := by
  unfold State.lookup
  repeat' first
    | with_reducible assumption
    | with_reducible apply State.parityScan_keeps
    | with_reducible apply Keeps.ite
    | refine Keeps.fst (by assumption) ?_
    | refine Keeps.snd (by assumption) ?_
    | split
    | dsimp only

theorem State.blockOn_keeps {s : State} {t line : Nat} {own : Bool} {i : Instr} (hs : Keeps ini s) :
    Keeps ini (State.blockOn s t line own i) := by
  unfold State.blockOn
  repeat' first
    | with_reducible assumption
    | with_reducible apply State.demand_keeps
    | with_reducible apply State.updCore_keeps

theorem State.storeLine_keeps {s : State} {t line : Nat} {d : Line} {mask : BitVec 64} (hs : Keeps ini s) :
    Keeps ini (State.storeLine s t line d mask) := by
  unfold State.storeLine
  repeat' first
    | with_reducible assumption
    | with_reducible apply State.updL1_keeps
    | with_reducible apply State.cohWrite_keeps
    | simp only [Keeps.mk_iff]
    | with_reducible apply Keeps.other
    | with_reducible apply Keeps.ite
    | refine Keeps.fst (by assumption) ?_
    | refine Keeps.snd (by assumption) ?_
    | split

theorem State.accessEnd_keeps {s : State} {t : Nat} (hs : Keeps ini s) :
    Keeps ini (State.accessEnd s t) := by
  unfold State.accessEnd
  repeat' first
    | with_reducible assumption
    | with_reducible apply State.updL1_keeps

theorem State.onLine_keeps {s : State} {t : Nat} {a : Word} {n : Nat} {acc : Access} {i : Instr} {k : Line → State → Eff}
    (hs : Keeps ini s) (hk : ∀ d s1, Keeps ini s1 → Keeps ini (k d s1).state) : Keeps ini (State.onLine s t a n acc i k).state := by
  unfold State.onLine
  extract_lets line own r
  have hr : Keeps ini r.2 := State.lookup_keeps hs
  split
  · exact Eff.block_keeps (State.blockOn_keeps hr)
  · exact Eff.block_keeps hr
  · split
    · exact Eff.exc_keeps (State.accessEnd_keeps hr)
    · exact hk _ _ hr

theorem State.load_keeps {s : State} {t : Nat} {z : BitVec 2} {u : Bool} {rd ra : Reg} {off : BitVec 12} (hs : Keeps
    ini s) :
    Keeps ini (State.load s t z u rd ra off) := by
  unfold State.load
  repeat' first
    | intro _ _ _
    | with_reducible assumption
    | with_reducible apply State.runInstr_keeps
    | with_reducible apply State.accessEnd_keeps
    | with_reducible apply State.updCore_keeps
    | with_reducible apply State.winLoad_keeps
    | with_reducible apply State.onLine_keeps
    | with_reducible with_reducible apply Eff.done_keeps
    | with_reducible with_reducible apply Eff.exc_keeps
    | with_reducible apply Keeps.ite
    | refine Keeps.fst (by assumption) ?_
    | refine Keeps.snd (by assumption) ?_
    | split
    | dsimp only

theorem State.store_keeps {s : State} {t : Nat} {z : BitVec 2} {rd ra : Reg} {off : BitVec 12} (hs : Keeps ini s) :
    Keeps ini (State.store s t z rd ra off) := by
  unfold State.store
  repeat' first
    | intro _ _ _
    | with_reducible assumption
    | with_reducible apply State.runInstr_keeps
    | with_reducible apply State.accessEnd_keeps
    | with_reducible apply State.winStore_keeps
    | with_reducible apply State.blotStore_keeps
    | with_reducible apply State.onLine_keeps
    | with_reducible apply State.storeLine_keeps
    | with_reducible with_reducible apply Eff.done_keeps
    | with_reducible with_reducible apply Eff.exc_keeps
    | with_reducible apply Keeps.ite
    | refine Keeps.fst (by assumption) ?_
    | refine Keeps.snd (by assumption) ?_
    | split
    | dsimp only

theorem State.atomic_keeps {s : State} {t : Nat} {rd ra rb : Reg} {i : Instr} {f : Word → Word → Word → Word} (hs :
    Keeps ini s) :
    Keeps ini (State.atomic s t rd ra rb i f) := by
  unfold State.atomic
  repeat' first
    | intro _ _ _
    | with_reducible assumption
    | with_reducible apply State.runInstr_keeps
    | with_reducible apply State.accessEnd_keeps
    | with_reducible apply State.onLine_keeps
    | with_reducible apply State.storeLine_keeps
    | with_reducible apply State.updCore_keeps
    | with_reducible with_reducible apply Eff.done_keeps
    | with_reducible with_reducible apply Eff.exc_keeps
    | refine Keeps.fst (by assumption) ?_
    | refine Keeps.snd (by assumption) ?_
    | split
    | dsimp only

theorem State.prefetch_keeps {s : State} {t : Nat} {ra : Reg} {off : BitVec 12} (hs : Keeps ini s) :
    Keeps ini (State.prefetch s t ra off) := by
  unfold State.prefetch
  repeat' first
    | intro _ _ _
    | with_reducible assumption
    | with_reducible apply State.runInstr_keeps
    | with_reducible apply State.updCore_keeps
    | with_reducible apply State.postReq_keeps
    | with_reducible with_reducible apply Eff.done_keeps
    | with_reducible with_reducible apply Eff.block_keeps
    | simp only [Keeps.mk_iff]
    | with_reducible apply Keeps.other
    | with_reducible apply Keeps.ite
    | split

theorem State.cacheOp_keeps {s : State} {t : Nat} {ra : Reg} {off : BitVec 12} {op : Nat} (hs : Keeps ini s) :
    Keeps ini (State.cacheOp s t ra off op) := by
  unfold State.cacheOp
  repeat' first
    | intro _ _ _
    | with_reducible assumption
    | with_reducible apply State.runInstr_keeps
    | with_reducible apply State.fetch_keeps
    | with_reducible apply State.load_keeps
    | with_reducible apply State.parityScan_keeps
    | with_reducible apply State.lineOp_keeps
    | with_reducible with_reducible apply Eff.done_keeps
    | with_reducible with_reducible apply Eff.exc_keeps
    | with_reducible with_reducible apply Eff.block_keeps
    | with_reducible apply Keeps.ite
    | split
    | dsimp only

theorem State.vread_keeps {s : State} {t n : Nat} {a1 : List VAcc} (hs : Keeps ini s) :
    Keeps ini (State.vread s t n a1).2 := by
  induction a1 generalizing s t n with
  | nil =>
    unfold State.vread
    repeat' first
      | with_reducible assumption
  | cons x r ih =>
    unfold State.vread
    repeat' first
      | with_reducible assumption
      | with_reducible apply ih
      | with_reducible apply State.winLoad_keeps
      | with_reducible apply State.lookup_keeps
      | with_reducible apply Keeps.ite
      | refine Keeps.fst (by assumption) ?_
      | refine Keeps.snd (by assumption) ?_
      | split
      | dsimp only

theorem State.vown_keeps {s : State} {t n : Nat} {a1 : List VAcc} (hs : Keeps ini s) :
    Keeps ini (State.vown s t n a1).2 := by
  induction a1 generalizing s t n with
  | nil =>
    unfold State.vown
    repeat' first
      | with_reducible assumption
  | cons x r ih =>
    unfold State.vown
    repeat' first
      | with_reducible assumption
      | with_reducible apply ih
      | with_reducible apply State.lookup_keeps
      | with_reducible apply Keeps.ite
      | refine Keeps.fst (by assumption) ?_
      | refine Keeps.snd (by assumption) ?_
      | split
      | dsimp only

theorem State.vput_keeps {s : State} {t w : Nat} {x : VAcc} {v : Nat} (hs : Keeps ini s) :
    Keeps ini (State.vput s t w x v) := by
  unfold State.vput
  repeat' first
    | with_reducible assumption
    | with_reducible apply State.winLoad_keeps
    | with_reducible apply State.winStore_keeps
    | with_reducible apply State.blotStore_keeps
    | with_reducible apply State.storeLine_keeps
    | with_reducible apply Keeps.ite

theorem State.vload_keeps {s : State} {t : Nat} {m : Bool} {mode nf : BitVec 2} {vd va vb : Reg} (hs : Keeps ini s) :
    Keeps ini (State.vload s t m mode nf vd va vb) := by
  unfold State.vload
  repeat' first
    | intro _ _ _
    | with_reducible assumption
    | with_reducible apply State.runInstr_keeps
    | with_reducible apply State.accessEnd_keeps
    | with_reducible apply State.fetch_keeps
    | with_reducible apply State.load_keeps
    | with_reducible apply State.vread_keeps
    | with_reducible apply State.blockOn_keeps
    | with_reducible apply State.updCore_keeps
    | with_reducible with_reducible apply Eff.done_keeps
    | with_reducible with_reducible apply Eff.exc_keeps
    | with_reducible with_reducible apply Eff.block_keeps
    | with_reducible apply Keeps.foldl_fst
    | with_reducible apply Keeps.foldl_snd
    | with_reducible apply Keeps.ite
    | (with_reducible apply Keeps.foldl)
    | refine Keeps.fst (by assumption) ?_
    | refine Keeps.snd (by assumption) ?_
    | split
    | dsimp only

theorem State.vstore_keeps {s : State} {t : Nat} {m : Bool} {mode nf : BitVec 2} {vd va vb : Reg} (hs : Keeps ini s)
    :
    Keeps ini (State.vstore s t m mode nf vd va vb) := by
  unfold State.vstore
  repeat' first
    | intro _ _ _
    | with_reducible assumption
    | with_reducible apply State.runInstr_keeps
    | with_reducible apply State.accessEnd_keeps
    | with_reducible apply State.fetch_keeps
    | with_reducible apply State.store_keeps
    | with_reducible apply State.vown_keeps
    | with_reducible apply State.blockOn_keeps
    | with_reducible apply State.vput_keeps
    | with_reducible with_reducible apply Eff.done_keeps
    | with_reducible with_reducible apply Eff.exc_keeps
    | with_reducible with_reducible apply Eff.block_keeps
    | with_reducible apply Keeps.ite
    | (with_reducible apply Keeps.foldl)
    | refine Keeps.fst (by assumption) ?_
    | refine Keeps.snd (by assumption) ?_
    | split
    | dsimp only

theorem State.memInstr_keeps {s : State} {a1 : Instr} (hs : Keeps ini s) :
    Keeps ini (State.memInstr s a1) := by
  unfold State.memInstr
  repeat' first
    | with_reducible assumption
    | with_reducible apply State.load_keeps
    | with_reducible apply State.store_keeps
    | with_reducible apply State.atomic_keeps
    | with_reducible apply State.prefetch_keeps
    | with_reducible apply State.vload_keeps
    | with_reducible apply State.vstore_keeps
    | with_reducible apply Keeps.ite
    | split

theorem State.resume_keeps {s : State} {t : Nat} (hs : Keeps ini s) :
    Keeps ini (State.resume s t) := by
  unfold State.resume
  repeat' first
    | with_reducible assumption
    | with_reducible apply State.updCore_keeps
    | with_reducible apply State.memInstr_keeps
    | with_reducible apply State.accessEnd_keeps
    | simp only [Keeps.mk_iff]
    | with_reducible apply Keeps.other
    | with_reducible apply Keeps.ite
    | refine Keeps.fst (by assumption) ?_
    | refine Keeps.snd (by assumption) ?_
    | split

theorem execLd_keeps {t : Nat} {size : BitVec 2} {u : Bool} {rd ra : Reg} {off : BitVec 12} {s : State} {out : State}
    (e : execLd t size u rd ra off s = .next out) (hs : Keeps ini s) :
    Keeps ini out := by
  unfold execLd at e
  obtain rfl := Host.Outcome.next.inj e
  repeat' first
    | with_reducible assumption
    | with_reducible apply State.memInstr_keeps

theorem execSt_keeps {t : Nat} {size : BitVec 2} {rd ra : Reg} {off : BitVec 12} {s : State} {out : State} (e :
    execSt t size rd ra off s = .next out) (hs : Keeps ini s) :
    Keeps ini out := by
  unfold execSt at e
  obtain rfl := Host.Outcome.next.inj e
  repeat' first
    | with_reducible assumption
    | with_reducible apply State.memInstr_keeps

theorem execFadd_keeps {t : Nat} {rd ra rb : Reg} {s : State} {out : State} (e : execFadd t rd ra rb s = .next out)
    (hs : Keeps ini s) :
    Keeps ini out := by
  unfold execFadd at e
  obtain rfl := Host.Outcome.next.inj e
  repeat' first
    | with_reducible assumption
    | with_reducible apply State.memInstr_keeps

theorem execUmin_keeps {t : Nat} {rd ra rb : Reg} {s : State} {out : State} (e : execUmin t rd ra rb s = .next out)
    (hs : Keeps ini s) :
    Keeps ini out := by
  unfold execUmin at e
  obtain rfl := Host.Outcome.next.inj e
  repeat' first
    | with_reducible assumption
    | with_reducible apply State.memInstr_keeps

theorem execUmax_keeps {t : Nat} {rd ra rb : Reg} {s : State} {out : State} (e : execUmax t rd ra rb s = .next out)
    (hs : Keeps ini s) :
    Keeps ini out := by
  unfold execUmax at e
  obtain rfl := Host.Outcome.next.inj e
  repeat' first
    | with_reducible assumption
    | with_reducible apply State.memInstr_keeps

theorem execNadd_keeps {t : Nat} {rd ra rb : Reg} {s : State} {out : State} (e : execNadd t rd ra rb s = .next out)
    (hs : Keeps ini s) :
    Keeps ini out := by
  unfold execNadd at e
  obtain rfl := Host.Outcome.next.inj e
  repeat' first
    | with_reducible assumption
    | with_reducible apply State.memInstr_keeps

theorem execCas_keeps {t : Nat} {rd ra rb : Reg} {s : State} {out : State} (e : execCas t rd ra rb s = .next out) (hs
    : Keeps ini s) :
    Keeps ini out := by
  unfold execCas at e
  obtain rfl := Host.Outcome.next.inj e
  repeat' first
    | with_reducible assumption
    | with_reducible apply State.memInstr_keeps

theorem execCachePf_keeps {t : Nat} {ra : Reg} {off : BitVec 12} {s : State} {out : State} (e : execCachePf t ra off
    s = .next out) (hs : Keeps ini s) :
    Keeps ini out := by
  unfold execCachePf at e
  obtain rfl := Host.Outcome.next.inj e
  repeat' first
    | with_reducible assumption
    | with_reducible apply State.memInstr_keeps

theorem execCacheClean_keeps {t : Nat} {ra : Reg} {off : BitVec 12} {s : State} {out : State} (e : execCacheClean t
    ra off s = .next out) (hs : Keeps ini s) :
    Keeps ini out := by
  unfold execCacheClean at e
  obtain rfl := Host.Outcome.next.inj e
  repeat' first
    | with_reducible assumption
    | with_reducible apply State.cacheOp_keeps

theorem execCacheCleaninv_keeps {t : Nat} {ra : Reg} {off : BitVec 12} {s : State} {out : State} (e :
    execCacheCleaninv t ra off s = .next out) (hs : Keeps ini s) :
    Keeps ini out := by
  unfold execCacheCleaninv at e
  obtain rfl := Host.Outcome.next.inj e
  repeat' first
    | with_reducible assumption
    | with_reducible apply State.cacheOp_keeps

theorem execCacheInv_keeps {t : Nat} {ra : Reg} {off : BitVec 12} {s : State} {out : State} (e : execCacheInv t ra
    off s = .next out) (hs : Keeps ini s) :
    Keeps ini out := by
  unfold execCacheInv at e
  obtain rfl := Host.Outcome.next.inj e
  repeat' first
    | with_reducible assumption
    | with_reducible apply State.cacheOp_keeps

theorem execVld_keeps {t : Nat} {m : Bool} {mode nf : BitVec 2} {vd va vb : Reg} {s : State} {out : State} (e :
    execVld t m mode nf vd va vb s = .next out) (hs : Keeps ini s) :
    Keeps ini out := by
  unfold execVld at e
  obtain rfl := Host.Outcome.next.inj e
  repeat' first
    | with_reducible assumption
    | with_reducible apply State.memInstr_keeps

theorem execVst_keeps {t : Nat} {m : Bool} {mode nf : BitVec 2} {vd va vb : Reg} {s : State} {out : State} (e :
    execVst t m mode nf vd va vb s = .next out) (hs : Keeps ini s) :
    Keeps ini out := by
  unfold execVst at e
  obtain rfl := Host.Outcome.next.inj e
  repeat' first
    | with_reducible assumption
    | with_reducible apply State.memInstr_keeps

end Sys2Proof.Machine
end

