-- ==== Sys2Proof/Laws/CoherenceKeeps.lean ====
section
/-! SUPPORT. The operations of Machine/Coherence.lean keep what Keeps names. -/

namespace Sys2Proof.Machine

variable {ini : State}

theorem State.coreReq_keeps {s : State} {t line : Nat} {kind : MKind} (hs : Keeps ini s) :
    Keeps ini (State.coreReq s t line kind) := by
  unfold State.coreReq
  repeat' first
    | with_reducible assumption
    | with_reducible refine State.take_keeps (by assumption) ?_
    | with_reducible apply State.homeArrive_keeps
    | with_reducible apply State.postReq_keeps
    | with_reducible apply Keeps.ite
    | refine Keeps.fst (by assumption) ?_
    | refine Keeps.snd (by assumption) ?_
    | split
    | dsimp only

theorem execRdS_keeps {src line : Nat} {s : State} {out : State} (e : execRdS src line s = .next out) (hs : Keeps ini
    s) :
    Keeps ini out := by
  unfold execRdS at e
  obtain rfl := Host.Outcome.next.inj e
  repeat' first
    | with_reducible assumption
    | with_reducible apply State.coreReq_keeps

theorem execRdH_keeps {src line : Nat} {s : State} {out : State} (e : execRdH src line s = .next out) (hs : Keeps ini
    s) :
    Keeps ini out := by
  unfold execRdH at e
  obtain rfl := Host.Outcome.next.inj e
  repeat' first
    | with_reducible assumption
    | with_reducible apply State.coreReq_keeps

theorem execRdX_keeps {src line : Nat} {s : State} {out : State} (e : execRdX src line s = .next out) (hs : Keeps ini
    s) :
    Keeps ini out := by
  unfold execRdX at e
  obtain rfl := Host.Outcome.next.inj e
  repeat' first
    | with_reducible assumption
    | with_reducible apply State.coreReq_keeps

theorem execUpg_keeps {src line : Nat} {s : State} {out : State} (e : execUpg src line s = .next out) (hs : Keeps ini
    s) :
    Keeps ini out := by
  unfold execUpg at e
  obtain rfl := Host.Outcome.next.inj e
  repeat' first
    | with_reducible assumption
    | with_reducible apply State.coreReq_keeps

theorem execRdOnce_keeps {src line : Nat} {s : State} {out : State} (e : execRdOnce src line s = .next out) (hs :
    Keeps ini s) :
    Keeps ini out := by
  unfold execRdOnce at e
  obtain rfl := Host.Outcome.next.inj e
  repeat' first
    | with_reducible assumption
    | with_reducible apply State.coreReq_keeps

theorem State.updIo_keeps {s : State} {a line : Nat} {f : IoReq → IoReq} (hs : Keeps ini s) :
    Keeps ini (State.updIo s a line f) := by
  unfold State.updIo
  repeat' first
    | with_reducible assumption
    | simp only [Keeps.mk_iff]
    | with_reducible apply Keeps.other
    | refine Keeps.fst (by assumption) ?_
    | refine Keeps.snd (by assumption) ?_
    | split

theorem State.ioArrive_keeps {s : State} {a line : Nat} {write : Bool} (hs : Keeps ini s) :
    Keeps ini (State.ioArrive s a line write) := by
  unfold State.ioArrive
  repeat' first
    | with_reducible assumption
    | with_reducible apply State.updIo_keeps
    | with_reducible apply State.homeArrive_keeps
    | simp only [Keeps.mk_iff]
    | with_reducible apply Keeps.other
    | with_reducible apply Keeps.ite
    | refine Keeps.fst (by assumption) ?_
    | refine Keeps.snd (by assumption) ?_
    | split

theorem execIoRd_keeps {src line : Nat} {s : State} {out : State} (e : execIoRd src line s = .next out) (hs : Keeps
    ini s) :
    Keeps ini out := by
  unfold execIoRd at e
  obtain rfl := Host.Outcome.next.inj e
  repeat' first
    | with_reducible assumption
    | with_reducible apply State.ioArrive_keeps
    | simp only [Keeps.mk_iff]
    | with_reducible apply Keeps.other
    | with_reducible apply Keeps.ite

theorem execIoWr_keeps {src line : Nat} {s : State} {out : State} (e : execIoWr src line s = .next out) (hs : Keeps
    ini s) :
    Keeps ini out := by
  unfold execIoWr at e
  obtain rfl := Host.Outcome.next.inj e
  repeat' first
    | with_reducible assumption
    | with_reducible apply State.ioArrive_keeps

theorem execHomeQueueStart_keeps {h : Nat} {s : State} {out : State} (e : execHomeQueueStart h s = .next out) (hs :
    Keeps ini s) :
    Keeps ini out := by
  unfold execHomeQueueStart at e
  obtain rfl := Host.Outcome.next.inj e
  repeat' first
    | with_reducible assumption
    | with_reducible apply State.homeDequeue_keeps

theorem execNack_keeps {src line : Nat} {s : State} {out : State} (e : execNack src line s = .next out) (hs : Keeps
    ini s) :
    Keeps ini out := by
  unfold execNack at e
  obtain rfl := Host.Outcome.next.inj e
  repeat' first
    | with_reducible assumption
    | with_reducible refine State.take_keeps (by assumption) ?_
    | with_reducible apply State.updIo_keeps
    | simp only [Keeps.mk_iff]
    | with_reducible apply Keeps.other
    | with_reducible apply Keeps.ite
    | refine Keeps.fst (by assumption) ?_
    | refine Keeps.snd (by assumption) ?_
    | split

theorem execNackRetry_keeps {src line : Nat} {s : State} {out : State} (e : execNackRetry src line s = .next out) (hs
    : Keeps ini s) :
    Keeps ini out := by
  unfold execNackRetry at e
  obtain rfl := Host.Outcome.next.inj e
  repeat' first
    | with_reducible assumption
    | with_reducible apply State.updIo_keeps
    | simp only [Keeps.mk_iff]
    | with_reducible apply Keeps.other
    | with_reducible apply Keeps.ite
    | refine Keeps.fst (by assumption) ?_
    | refine Keeps.snd (by assumption) ?_
    | split

theorem State.ioEnd_keeps {s : State} {a line : Nat} (hs : Keeps ini s) :
    Keeps ini (State.ioEnd s a line) := by
  unfold State.ioEnd
  repeat' first
    | with_reducible assumption
    | simp only [Keeps.mk_iff]
    | with_reducible apply Keeps.other
    | refine Keeps.fst (by assumption) ?_
    | refine Keeps.snd (by assumption) ?_
    | split

theorem execIodone_keeps {src line : Nat} {s : State} {out : State} (e : execIodone src line s = .next out) (hs :
    Keeps ini s) :
    Keeps ini out := by
  unfold execIodone at e
  obtain rfl := Host.Outcome.next.inj e
  repeat' first
    | with_reducible assumption
    | with_reducible refine State.take_keeps (by assumption) ?_
    | with_reducible apply State.ioEnd_keeps
    | with_reducible apply State.answer_keeps
    | with_reducible apply State.krlOrdered_keeps
    | with_reducible apply Keeps.ite
    | refine Keeps.fst (by assumption) ?_
    | refine Keeps.snd (by assumption) ?_
    | split

theorem State.fwdArrive_keeps {s : State} {t line : Nat} {kind : MKind} (hs : Keeps ini s) :
    Keeps ini (State.fwdArrive s t line kind) := by
  unfold State.fwdArrive
  repeat' first
    | with_reducible assumption
    | with_reducible refine State.take_keeps (by assumption) ?_
    | with_reducible apply State.parityScan_keeps
    | with_reducible apply State.answerFwd_keeps
    | refine Keeps.fst (by assumption) ?_
    | refine Keeps.snd (by assumption) ?_
    | split

theorem execFwdS_keeps {t line : Nat} {s : State} {out : State} (e : execFwdS t line s = .next out) (hs : Keeps ini
    s) :
    Keeps ini out := by
  unfold execFwdS at e
  obtain rfl := Host.Outcome.next.inj e
  repeat' first
    | with_reducible assumption
    | with_reducible apply State.fwdArrive_keeps

theorem execFwdX_keeps {t line : Nat} {s : State} {out : State} (e : execFwdX t line s = .next out) (hs : Keeps ini
    s) :
    Keeps ini out := by
  unfold execFwdX at e
  obtain rfl := Host.Outcome.next.inj e
  repeat' first
    | with_reducible assumption
    | with_reducible apply State.fwdArrive_keeps

theorem execFwdOnce_keeps {t line : Nat} {s : State} {out : State} (e : execFwdOnce t line s = .next out) (hs : Keeps
    ini s) :
    Keeps ini out := by
  unfold execFwdOnce at e
  obtain rfl := Host.Outcome.next.inj e
  repeat' first
    | with_reducible assumption
    | with_reducible apply State.fwdArrive_keeps

theorem execInv_keeps {t line : Nat} {s : State} {out : State} (e : execInv t line s = .next out) (hs : Keeps ini s)
    :
    Keeps ini out := by
  unfold execInv at e
  obtain rfl := Host.Outcome.next.inj e
  repeat' first
    | with_reducible assumption
    | with_reducible apply State.fwdArrive_keeps

theorem State.mshrDone_keeps {s : State} {t : Nat} {q : Mshr} {d : Line} {blot : Bool} (hs : Keeps ini s) :
    Keeps ini (State.mshrDone s t q d blot) := by
  unfold State.mshrDone
  repeat' first
    | with_reducible assumption
    | with_reducible apply State.updL1_keeps
    | with_reducible apply State.prefetch_keeps
    | with_reducible apply State.send_keeps

theorem State.install_keeps {s : State} {t : Nat} {q : Mshr} (hs : Keeps ini s) :
    Keeps ini (State.install s t q) := by
  unfold State.install
  repeat' first
    | with_reducible assumption
    | with_reducible apply State.grant_keeps
    | with_reducible apply State.mshrDone_keeps
    | with_reducible apply State.updL1_keeps
    | with_reducible apply State.parityScan_keeps
    | with_reducible apply State.send_keeps
    | with_reducible refine State.fillL1_keeps (by assumption) ?_
    | simp only [Keeps.mk_iff]
    | with_reducible apply Keeps.other
    | with_reducible apply Keeps.ite
    | refine Keeps.fst (by assumption) ?_
    | refine Keeps.snd (by assumption) ?_
    | split

theorem State.installAll_keeps {s : State} {t : Nat} (hs : Keeps ini s) :
    Keeps ini (State.installAll s t) := by
  unfold State.installAll
  repeat' first
    | intro _ _ _
    | with_reducible assumption
    | with_reducible apply State.install_keeps
    | with_reducible apply State.resume_keeps
    | with_reducible apply Keeps.ite
    | (with_reducible apply Keeps.foldl)

theorem State.rspArrive_keeps {s : State} {t line : Nat} {kind : MKind} {f : Msg → Mshr → Mshr} (hs : Keeps ini s) :
    Keeps ini (State.rspArrive s t line kind f) := by
  unfold State.rspArrive
  repeat' first
    | with_reducible assumption
    | with_reducible refine State.take_keeps (by assumption) ?_
    | with_reducible apply State.updL1_keeps
    | with_reducible apply State.installAll_keeps
    | with_reducible apply State.send_keeps
    | simp only [Keeps.mk_iff]
    | with_reducible apply Keeps.other
    | with_reducible apply Keeps.ite
    | refine Keeps.fst (by assumption) ?_
    | refine Keeps.snd (by assumption) ?_
    | split

theorem execGnt_keeps {t line : Nat} {s : State} {out : State} (e : execGnt t line s = .next out) (hs : Keeps ini s)
    :
    Keeps ini out := by
  unfold execGnt at e
  obtain rfl := Host.Outcome.next.inj e
  repeat' first
    | with_reducible assumption
    | with_reducible apply State.rspArrive_keeps

theorem execData_keeps {t line : Nat} {s : State} {out : State} (e : execData t line s = .next out) (hs : Keeps ini
    s) :
    Keeps ini out := by
  unfold execData at e
  obtain rfl := Host.Outcome.next.inj e
  repeat' first
    | with_reducible assumption
    | with_reducible apply State.rspArrive_keeps
    | with_reducible refine State.take_keeps (by assumption) ?_
    | with_reducible apply State.ioEnd_keeps
    | with_reducible apply State.answer_keeps
    | simp only [Keeps.mk_iff]
    | with_reducible apply Keeps.other
    | with_reducible apply Keeps.ite
    | refine Keeps.fst (by assumption) ?_
    | refine Keeps.snd (by assumption) ?_
    | split

theorem State.ansArrive_keeps {s : State} {t line : Nat} {kind : MKind} {f : State → Msg → State} (hs : Keeps ini s)
    (hf : ∀ s m, Keeps ini s → Keeps ini (f s m)) : Keeps ini (State.ansArrive s t line kind f) := by
  unfold State.ansArrive
  split
  · exact hs
  · rename_i r e
    exact State.drainSink_keeps (hf _ _ (State.take_keeps (r := r.1) e hs))

theorem execFack_keeps {t line : Nat} {s : State} {out : State} (e : execFack t line s = .next out) (hs : Keeps ini
    s) :
    Keeps ini out := by
  unfold execFack at e
  obtain rfl := Host.Outcome.next.inj e
  repeat' first
    | intro _ _ _
    | with_reducible assumption
    | with_reducible apply State.ansArrive_keeps
    | with_reducible apply State.homeFack_keeps

theorem execNoline_keeps {t line : Nat} {s : State} {out : State} (e : execNoline t line s = .next out) (hs : Keeps
    ini s) :
    Keeps ini out := by
  unfold execNoline at e
  obtain rfl := Host.Outcome.next.inj e
  repeat' first
    | intro _ _ _
    | with_reducible assumption
    | with_reducible apply State.ansArrive_keeps
    | with_reducible apply State.homeNoline_keeps

theorem execInvack_keeps {t line : Nat} {s : State} {out : State} (e : execInvack t line s = .next out) (hs : Keeps
    ini s) :
    Keeps ini out := by
  unfold execInvack at e
  obtain rfl := Host.Outcome.next.inj e
  repeat' first
    | intro _ _ _
    | with_reducible assumption
    | with_reducible apply State.ansArrive_keeps
    | with_reducible apply State.homeAck_keeps

theorem execWbdata_keeps {t line : Nat} {s : State} {out : State} (e : execWbdata t line s = .next out) (hs : Keeps
    ini s) :
    Keeps ini out := by
  unfold execWbdata at e
  obtain rfl := Host.Outcome.next.inj e
  repeat' first
    | intro _ _ _
    | with_reducible assumption
    | with_reducible apply State.ansArrive_keeps
    | with_reducible apply State.homeAck_keeps

theorem execCmpAck_keeps {t line : Nat} {s : State} {out : State} (e : execCmpAck t line s = .next out) (hs : Keeps
    ini s) :
    Keeps ini out := by
  unfold execCmpAck at e
  obtain rfl := Host.Outcome.next.inj e
  repeat' first
    | intro _ _ _
    | with_reducible assumption
    | with_reducible apply State.ansArrive_keeps
    | with_reducible apply State.closeTxn_keeps
    | with_reducible apply Keeps.ite
    | refine Keeps.fst (by assumption) ?_
    | refine Keeps.snd (by assumption) ?_
    | split

theorem State.victimAck_keeps {s : State} {t line : Nat} {kind : MKind} (hs : Keeps ini s) :
    Keeps ini (State.victimAck s t line kind) := by
  unfold State.victimAck
  repeat' first
    | with_reducible assumption
    | with_reducible refine State.take_keeps (by assumption) ?_
    | with_reducible apply State.updL1_keeps
    | with_reducible apply State.installAll_keeps
    | simp only [Keeps.mk_iff]
    | with_reducible apply Keeps.other
    | refine Keeps.fst (by assumption) ?_
    | refine Keeps.snd (by assumption) ?_
    | split

theorem execWback_keeps {t line : Nat} {s : State} {out : State} (e : execWback t line s = .next out) (hs : Keeps ini
    s) :
    Keeps ini out := by
  unfold execWback at e
  obtain rfl := Host.Outcome.next.inj e
  repeat' first
    | with_reducible assumption
    | with_reducible apply State.victimAck_keeps

theorem execDecline_keeps {t line : Nat} {s : State} {out : State} (e : execDecline t line s = .next out) (hs : Keeps
    ini s) :
    Keeps ini out := by
  unfold execDecline at e
  obtain rfl := Host.Outcome.next.inj e
  repeat' first
    | with_reducible assumption
    | with_reducible apply State.victimAck_keeps

theorem State.victimArrive_keeps {s : State} {t line : Nat} {kind : MKind} (hs : Keeps ini s) :
    Keeps ini (State.victimArrive s t line kind) := by
  unfold State.victimArrive
  repeat' first
    | with_reducible assumption
    | with_reducible refine State.take_keeps (by assumption) ?_
    | with_reducible apply State.homeVictim_keeps
    | refine Keeps.fst (by assumption) ?_
    | refine Keeps.snd (by assumption) ?_
    | split

theorem execWbDirty_keeps {t line : Nat} {s : State} {out : State} (e : execWbDirty t line s = .next out) (hs : Keeps
    ini s) :
    Keeps ini out := by
  unfold execWbDirty at e
  obtain rfl := Host.Outcome.next.inj e
  repeat' first
    | with_reducible assumption
    | with_reducible apply State.victimArrive_keeps

theorem execVictClean_keeps {t line : Nat} {s : State} {out : State} (e : execVictClean t line s = .next out) (hs :
    Keeps ini s) :
    Keeps ini out := by
  unfold execVictClean at e
  obtain rfl := Host.Outcome.next.inj e
  repeat' first
    | with_reducible assumption
    | with_reducible apply State.victimArrive_keeps

theorem execVictDrop_keeps {t line : Nat} {s : State} {out : State} (e : execVictDrop t line s = .next out) (hs :
    Keeps ini s) :
    Keeps ini out := by
  unfold execVictDrop at e
  obtain rfl := Host.Outcome.next.inj e
  repeat' first
    | with_reducible assumption
    | with_reducible apply State.victimArrive_keeps

theorem State.fenceTile_keeps {s : State} {t : Nat} (hs : Keeps ini s) :
    Keeps ini (State.fenceTile s t) := by
  unfold State.fenceTile
  repeat' first
    | intro _ _ _
    | with_reducible assumption
    | with_reducible apply State.log_keeps
    | simp only [Keeps.mk_iff]
    | with_reducible apply Keeps.other
    | with_reducible apply Keeps.ite

theorem execFenceTimeout_keeps {t line : Nat} {s : State} {out : State} (e : execFenceTimeout t line s = .next out)
    (hs : Keeps ini s) :
    Keeps ini out := by
  unfold execFenceTimeout at e
  obtain rfl := Host.Outcome.next.inj e
  repeat' first
    | with_reducible assumption
    | with_reducible apply State.fenceTile_keeps
    | with_reducible apply Keeps.ite

theorem execBindAckTimeout_keeps {t : Nat} {s : State} {out : State} (e : execBindAckTimeout t s = .next out) (hs :
    Keeps ini s) :
    Keeps ini out := by
  unfold execBindAckTimeout at e
  obtain rfl := Host.Outcome.next.inj e
  repeat' first
    | with_reducible assumption
    | with_reducible apply State.fenceTile_keeps
    | with_reducible apply Keeps.ite

theorem State.routerAnswers_keeps {s : State} {t : Nat} (hs : Keeps ini s) :
    Keeps ini (State.routerAnswers s t) := by
  unfold State.routerAnswers
  repeat' first
    | with_reducible assumption
    | simp only [Keeps.mk_iff]
    | with_reducible apply Keeps.other

theorem State.homeFence_keeps {s : State} {h t : Nat} (hs : Keeps ini s) :
    Keeps ini (State.homeFence s h t) := by
  unfold State.homeFence
  repeat' first
    | intro _ _ _
    | with_reducible assumption
    | with_reducible apply State.updSlice_keeps
    | with_reducible apply State.closeFenced_keeps
    | with_reducible apply State.routerAnswers_keeps
    | simp only [Keeps.mk_iff]
    | with_reducible apply Keeps.other
    | (with_reducible apply Keeps.foldl)

theorem State.dspFence_keeps {s : State} {t : Nat} (hs : Keeps ini s) :
    Keeps ini (State.dspFence s t) := by
  unfold State.dspFence
  repeat' first
    | with_reducible assumption
    | with_reducible apply State.failTask_keeps
    | with_reducible apply State.endWait_keeps
    | with_reducible apply State.loseTask_keeps

theorem execFenceMessage_keeps {h t : Nat} {s : State} {out : State} (e : execFenceMessage h t s = .next out) (hs :
    Keeps ini s) :
    Keeps ini out := by
  unfold execFenceMessage at e
  obtain rfl := Host.Outcome.next.inj e
  repeat' first
    | with_reducible assumption
    | with_reducible refine State.take_keeps (by assumption) ?_
    | with_reducible apply State.homeFence_keeps
    | with_reducible apply State.dspFence_keeps
    | with_reducible apply Keeps.ite
    | refine Keeps.fst (by assumption) ?_
    | refine Keeps.snd (by assumption) ?_
    | split

theorem execFenceScan_keeps {h : Nat} {s : State} {out : State} (e : execFenceScan h s = .next out) (hs : Keeps ini
    s) :
    Keeps ini out := by
  unfold execFenceScan at e
  obtain rfl := Host.Outcome.next.inj e
  repeat' first
    | intro _ _ _
    | with_reducible assumption
    | with_reducible apply State.fenceEntry_keeps
    | with_reducible apply State.updSlice_keeps
    | simp only [Keeps.mk_iff]
    | with_reducible apply Keeps.other
    | with_reducible apply Keeps.ite
    | (with_reducible apply Keeps.foldl)
    | refine Keeps.fst (by assumption) ?_
    | refine Keeps.snd (by assumption) ?_
    | split

theorem State.snoop_keeps {s : State} {line : Nat} {kind : MKind} (hs : Keeps ini s) :
    Keeps ini (State.snoop s line kind) := by
  unfold State.snoop
  repeat' first
    | with_reducible assumption
    | with_reducible apply State.answer_keeps
    | with_reducible apply State.updSlice_keeps
    | with_reducible apply State.homeStart_keeps
    | simp only [Keeps.mk_iff]
    | with_reducible apply Keeps.other
    | with_reducible apply Keeps.ite
    | refine Keeps.fst (by assumption) ?_
    | refine Keeps.snd (by assumption) ?_
    | split

theorem execSnpData_keeps {line : Nat} {s : State} {out : State} (e : execSnpData line s = .next out) (hs : Keeps ini
    s) :
    Keeps ini out := by
  unfold execSnpData at e
  obtain rfl := Host.Outcome.next.inj e
  repeat' first
    | with_reducible assumption
    | with_reducible apply State.snoop_keeps

theorem execSnpInv_keeps {line : Nat} {s : State} {out : State} (e : execSnpInv line s = .next out) (hs : Keeps ini
    s) :
    Keeps ini out := by
  unfold execSnpInv at e
  obtain rfl := Host.Outcome.next.inj e
  repeat' first
    | with_reducible assumption
    | with_reducible apply State.snoop_keeps

theorem execSnpCur_keeps {line : Nat} {s : State} {out : State} (e : execSnpCur line s = .next out) (hs : Keeps ini
    s) :
    Keeps ini out := by
  unfold execSnpCur at e
  obtain rfl := Host.Outcome.next.inj e
  repeat' first
    | with_reducible assumption
    | with_reducible apply State.snoop_keeps

theorem execGo_keeps {line : Nat} {s : State} {out : State} (e : execGo line s = .next out) (hs : Keeps ini s) :
    Keeps ini out := by
  unfold execGo at e
  obtain rfl := Host.Outcome.next.inj e
  repeat' first
    | with_reducible assumption
    | simp only [Keeps.mk_iff]
    | with_reducible apply Keeps.other

theorem execHostResponse_keeps {line : Nat} {d : BitVec 512} {poison : Bool} {s : State} {out : State} (e :
    execHostResponse line d poison s = .next out) (hs : Keeps ini s) :
    Keeps ini out := by
  unfold execHostResponse at e
  obtain rfl := Host.Outcome.next.inj e
  repeat' first
    | with_reducible assumption
    | with_reducible apply State.homeFill_keeps
    | simp only [Keeps.mk_iff]
    | with_reducible apply Keeps.other
    | with_reducible apply Kept.memWriteLine
    | with_reducible apply Kept.hostWriteLine
    | with_reducible apply Keeps.ite

theorem execBisnpResponse_keeps {line : Nat} {s : State} {out : State} (e : execBisnpResponse line s = .next out) (hs
    : Keeps ini s) :
    Keeps ini out := by
  unfold execBisnpResponse at e
  obtain rfl := Host.Outcome.next.inj e
  repeat' first
    | with_reducible assumption
    | with_reducible apply State.updDir_keeps
    | with_reducible apply State.putTxn_keeps
    | with_reducible apply State.homeGo_keeps
    | simp only [Keeps.mk_iff]
    | with_reducible apply Keeps.other
    | with_reducible apply Keeps.ite
    | refine Keeps.fst (by assumption) ?_
    | refine Keeps.snd (by assumption) ?_
    | split

theorem State.hostReq_keeps {s : State} {m : Msg} (hs : Keeps ini s) :
    Keeps ini (State.hostReq s m) := by
  unfold State.hostReq
  repeat' first
    | with_reducible assumption
    | with_reducible apply State.homeArrive_keeps
    | simp only [Keeps.mk_iff]
    | with_reducible apply Keeps.other
    | with_reducible apply Keeps.ite

theorem execMemRd_keeps {line : Nat} {s : State} {out : State} (e : execMemRd line s = .next out) (hs : Keeps ini s)
    :
    Keeps ini out := by
  unfold execMemRd at e
  obtain rfl := Host.Outcome.next.inj e
  repeat' first
    | with_reducible assumption
    | with_reducible apply State.hostReq_keeps

theorem execMemRdData_keeps {line : Nat} {s : State} {out : State} (e : execMemRdData line s = .next out) (hs : Keeps
    ini s) :
    Keeps ini out := by
  unfold execMemRdData at e
  obtain rfl := Host.Outcome.next.inj e
  repeat' first
    | with_reducible assumption
    | with_reducible apply State.hostReq_keeps

theorem execMemWr_keeps {line : Nat} {d : BitVec 512} {poison : Bool} {s : State} {out : State} (e : execMemWr line d
    poison s = .next out) (hs : Keeps ini s) :
    Keeps ini out := by
  unfold execMemWr at e
  obtain rfl := Host.Outcome.next.inj e
  repeat' first
    | with_reducible assumption
    | with_reducible apply State.hostReq_keeps

theorem execMemWrPtl_keeps {line : Nat} {d : BitVec 512} {mask : BitVec 64} {s : State} {out : State} (e :
    execMemWrPtl line d mask s = .next out) (hs : Keeps ini s) :
    Keeps ini out := by
  unfold execMemWrPtl at e
  obtain rfl := Host.Outcome.next.inj e
  repeat' first
    | with_reducible assumption
    | with_reducible apply State.hostReq_keeps

theorem State.answerUr_keeps {s : State} {line : Nat} (hs : Keeps ini s) :
    Keeps ini (State.answerUr s line) := by
  unfold State.answerUr
  repeat' first
    | with_reducible assumption
    | simp only [Keeps.mk_iff]
    | with_reducible apply Keeps.other

theorem execBar2Access_keeps {f off len : Nat} {wr : Option (BitVec 512)} {s : State} {out : State} (e :
    execBar2Access f off len wr s = .next out) (hs : Keeps ini s) :
    Keeps ini out := by
  unfold execBar2Access at e
  obtain rfl := Host.Outcome.next.inj e
  repeat' first
    | intro _ _ _
    | with_reducible assumption
    | with_reducible apply State.hostReq_keeps
    | with_reducible apply State.answerUr_keeps
    | with_reducible apply Keeps.ite
    | (with_reducible apply Keeps.foldl)
    | refine Keeps.fst (by assumption) ?_
    | refine Keeps.snd (by assumption) ?_
    | split

theorem execBar0InvalidAccess_keeps {_f off len : Nat} {_wr : Bool} {s : State} {out : State} (e :
    execBar0InvalidAccess _f off len _wr s = .next out) (hs : Keeps ini s) :
    Keeps ini out := by
  unfold execBar0InvalidAccess at e
  obtain rfl := Host.Outcome.next.inj e
  repeat' first
    | with_reducible assumption
    | with_reducible apply State.answerUr_keeps
    | with_reducible apply Keeps.ite

end Sys2Proof.Machine
end

