-- ==== Sys2Proof/Laws/Lines.lean ====
section
/-! SUPPORT. The copy of a line in L1D before and after an access that hits, and the bytes of a merged line. -/

namespace Sys2Proof.Machine

theorem L1.SameData.dWay {a b : L1} (h : a.SameData b) (k : Nat) : b.dWay k = a.dWay k := by
  unfold L1.dWay
  rw [h.d]

theorem L1.SameData.dLine {a b : L1} (h : a.SameData b) (k : Nat) : b.dLine k = a.dLine k := by
  unfold L1.dLine
  rw [h.dWay, h.d, h.dbuf]

theorem State.FetchOnly.dLine {s u : State} {t : Nat} (h : s.FetchOnly t u) (k : Nat) : (u.tile t).l1.dLine k = (s.tile t).l1.dLine k :=
  h.data.dLine k

theorem State.FetchOnly.sound {s u : State} {t : Nat} (h : s.FetchOnly t u) (hs : s.soundL1 t) : u.soundL1 t := by
  unfold State.soundL1
  rw [h.data.given, h.data.d]
  exact hs

theorem Tab.find?_mapKey {α : Type} (t : Tab α) (k j : Nat) (f : α → α) :
    Tab.find? (t.map (fun p => if p.1 = k then (p.1, f p.2) else p)) j = if j = k then (t.find? j).map f else t.find? j := by
  induction t with
  | nil => simp [Tab.find?]
  | cons p r ih =>
    obtain ⟨a, b⟩ := p
    by_cases h1 : a = k <;> by_cases h2 : a = j <;> simp_all [Tab.find?]

/-- A lookup in a sound L1D that has no line on hand finds what L1D holds. -/
theorem State.lookup_sound {s : State} {t : Nat} (h : s.soundL1 t) (line : Nat) (w : BitVec 8) (own : Bool) :
    s.lookup t line w own = (match (s.tile t).l1.dLine line with
      | some l => if !own || l.st == .e || l.st == .d then (.line l.data false, s) else (.miss, s)
      | none => (.miss, s)) := by
  unfold State.lookup
  rw [h.1]
  simp only [List.find?_nil]
  rw [State.parityScan_sound _ h]
  simp only [Bool.false_eq_true, if_false] <;> cases (s.tile t).l1.dLine line <;> rfl

theorem L1.dWay_spec {c : L1} {line k : Nat} (h : c.dWay line = some k) :
    k / 8 = line % 128 ∧ ∃ l, c.d.find? k = some l ∧ l.line = line ∧ l.st ≠ .i := by
  unfold L1.dWay at h
  have h1 := List.find?_some h
  have h2 := List.mem_of_find?_eq_some h
  simp only [List.mem_map, List.mem_range] at h2
  obtain ⟨w, hw, rfl⟩ := h2
  refine ⟨by omega, ?_⟩
  split at h1
  · rename_i l hl
    simp only [Bool.and_eq_true, beq_iff_eq, bne_iff_ne] at h1
    exact ⟨l, hl, h1⟩
  · cases h1

/-- The copies of the lines after one copy that L1D holds has changed, its line number kept and not made invalid. -/
theorem L1.dLine_updLine {c : L1} {line : Nat} {f : DLine → DLine} {l : DLine} (h : c.dLine line = some l)
    (hf : ∀ x, (f x).line = x.line ∧ (f x).st ≠ .i) (k : Nat) :
    (c.updLine line f).dLine k = if k = line then some (f l) else c.dLine k := by
  unfold L1.updLine
  cases hw : c.dWay line with
  | none =>
    simp only
    unfold L1.dLine at h ⊢
    rw [hw] at h
    simp only at h ⊢
    have hd : ∀ j, ({ c with dbuf := c.dbuf.map (fun b => if b.line = line then f b else b) } : L1).dWay j = c.dWay j := fun _ => rfl
    rw [hd]
    by_cases hk : k = line
    · subst hk
      rw [hw]
      simp only [if_true]
      cases hb : c.dbuf with
      | none => rw [hb] at h; cases h
      | some b =>
        rw [hb] at h
        simp only [Option.bind_some] at h
        split at h
        · rename_i hl
          cases h
          simp only [Option.map_some, Option.bind_some, hl.1, if_true]
          rw [if_pos ⟨(hf l).1.trans hl.1, (hf l).2⟩]
        · cases h
    · rw [if_neg hk]
      cases hw2 : c.dWay k with
      | some j => rfl
      | none =>
        simp only
        cases hb : c.dbuf with
        | none => rfl
        | some b =>
          simp only [Option.map_some, Option.bind_some]
          by_cases hl : b.line = line
          · rw [if_pos hl, if_neg (by rw [(hf b).1, hl]; exact fun e => hk e.1.symm), if_neg (by rw [hl]; exact fun e => hk e.1.symm)]
          · rw [if_neg hl]
  | some w =>
    simp only
    obtain ⟨hs, l', h1, h2, h3⟩ := L1.dWay_spec hw
    have hl : l' = l := by
      unfold L1.dLine at h
      rw [hw] at h
      simp only at h
      rw [h1] at h
      exact Option.some.inj h
    subst hl
    have hway : ∀ j, ({ c with d := c.d.map (fun p => if p.1 = w then (p.1, f p.2) else p) } : L1).dWay j = c.dWay j := by
      intro j
      unfold L1.dWay
      extract_lets set
      congr 1
      funext x
      simp only
      rw [Tab.find?_mapKey]
      by_cases hx : x = w
      · subst hx
        rw [if_pos rfl, h1]
        have e1 : ((f l').st != .i) = true := by rw [bne_iff_ne]; exact (hf l').2
        have e2 : (l'.st != .i) = true := by rw [bne_iff_ne]; exact h3
        simp only [Option.map_some, (hf l').1, e1, e2]
      · rw [if_neg hx]
    unfold L1.dLine
    rw [hway]
    by_cases hk : k = line
    · subst hk
      rw [hw, if_pos rfl]
      simp only
      rw [Tab.find?_mapKey, if_pos rfl, h1]
      rfl
    · rw [if_neg hk]
      cases hw2 : c.dWay k with
      | none => rfl
      | some j =>
        simp only
        rw [Tab.find?_mapKey, if_neg]
        rintro rfl
        obtain ⟨-, l2, g1, g2, g3⟩ := L1.dWay_spec hw2
        rw [h1] at g1
        cases g1
        exact hk (g2.symm.trans h2)

theorem getLsbD_maskBits (m : BitVec 64) (n i : Nat) (hi : i < 512) :
    (maskBits m n).getLsbD i = (decide (i / 8 < n) && m.getLsbD (i / 8)) := by
  induction n with
  | zero => simp [maskBits]
  | succ n ih =>
    unfold maskBits
    rw [BitVec.getLsbD_or, ih]
    have hb : ((if m.getLsbD n then (0xFF : BitVec 512) <<< (8 * n) else 0) : BitVec 512).getLsbD i = (m.getLsbD n && decide (i / 8 = n)) := by
      cases m.getLsbD n
      · simp
      · simp only [if_true, BitVec.getLsbD_shiftLeft, hi, decide_true, Bool.true_and]
        by_cases h : i < 8 * n
        · simp [h]; omega
        · rw [show (0xFF : BitVec 512) = BitVec.ofNat 512 (2 ^ 8 - 1) from rfl, BitVec.getLsbD_ofNat, Nat.testBit_two_pow_sub_one]
          simp only [h, decide_false, Bool.not_false, Bool.true_and]
          by_cases h2 : i - 8 * n < 8 <;> by_cases h3 : i / 8 = n <;> simp [h2, h3] <;> omega
    rw [hb]
    by_cases h : i / 8 = n
    · subst h
      simp
    · by_cases h2 : i / 8 < n
      · simp [h, h2, Nat.lt_succ_of_lt h2]
      · simp [h, h2, show ¬i / 8 < n + 1 by omega]

/-- A bit of a merged line: from the new data where the mask selects its byte. -/
theorem getLsbD_mergeLine (d e : Line) (m : BitVec 64) (i : Nat) (hi : i < 512) :
    (mergeLine d e m).getLsbD i = if m.getLsbD (i / 8) then e.getLsbD i else d.getLsbD i := by
  unfold mergeLine
  split
  · rename_i h
    rw [h, BitVec.getLsbD_allOnes, if_pos (by simp; omega)]
  · rw [BitVec.getLsbD_or, BitVec.getLsbD_and, BitVec.getLsbD_and, BitVec.getLsbD_not, getLsbD_maskBits _ _ _ hi]
    have : i / 8 < 64 := by omega
    cases m.getLsbD (i / 8) <;> simp [hi, this]

theorem getLsbD_byteMask (o n j : Nat) (hj : j < 64) : (byteMask o n).getLsbD j = decide (o ≤ j ∧ j < o + n) := by
  unfold byteMask
  rw [BitVec.getLsbD_ofNat, Nat.testBit_mul_two_pow, Nat.testBit_two_pow_sub_one]
  by_cases h1 : o ≤ j <;> by_cases h2 : j < o + n <;> simp [h1, h2, hj] <;> omega

/-- A bit of n bytes of a line at an offset. -/
theorem testBit_lineGet (l : Line) (o n i : Nat) : (lineGet l o n).testBit i = (decide (i < 8 * n) && l.getLsbD (8 * o + i)) := by
  unfold lineGet
  rw [show (256 : Nat) = 2 ^ 8 from rfl, ← Nat.pow_mul, ← Nat.pow_mul, Nat.testBit_mod_two_pow, Nat.testBit_div_two_pow]
  rw [Nat.add_comm i]
  rfl

end Sys2Proof.Machine
end

