-- ==== Sys2Proof/Laws/MemCtlKeeps.lean ====
section
/-! SUPPORT. The operations of Machine/MemCtl.lean keep what Keeps names. -/

namespace Sys2Proof.Machine

variable {ini : State}

theorem State.setReqs_keeps {s : State} {l : List MemReq} (hs : Keeps ini s) :
    Keeps ini (State.setReqs s l) := by
  unfold State.setReqs
  repeat' first
    | with_reducible assumption
    | simp only [Keeps.mk_iff]
    | with_reducible apply Keeps.other

theorem State.selfRefDue_keeps {s : State} {c : Nat} (hs : Keeps ini s) :
    Keeps ini (State.selfRefDue s c) := by
  unfold State.selfRefDue
  repeat' first
    | with_reducible assumption
    | with_reducible apply State.updChan_keeps
    | with_reducible apply Keeps.ite

theorem State.readDone_keeps {s : State} {r : MemReq} {d : Line} {blot : Bool} (hs : Keeps ini s) :
    Keeps ini (State.readDone s r d blot) := by
  unfold State.readDone
  repeat' first
    | with_reducible assumption
    | with_reducible apply State.homeFill_keeps

theorem State.failModule_keeps {s : State} {m c cause : Nat} (hs : Keeps ini s) :
    Keeps ini (State.failModule s m c cause) := by
  unfold State.failModule
  repeat' first
    | intro _ _ _
    | with_reducible assumption
    | with_reducible apply State.readDone_keeps
    | with_reducible apply State.log_keeps
    | with_reducible apply State.pageChanged_keeps
    | simp only [Keeps.mk_iff]
    | with_reducible apply Keeps.other
    | with_reducible apply Keeps.ite
    | (with_reducible apply Keeps.foldl)

theorem State.burstUe_keeps {s : State} {c owner line : Nat} {g : Geo} {sub synd : Nat} (hs : Keeps ini s) :
    Keeps ini (State.burstUe s c owner line g sub synd) := by
  unfold State.burstUe
  repeat' first
    | with_reducible assumption
    | with_reducible apply State.updChan_keeps
    | with_reducible apply State.log_keeps
    | simp only [Keeps.mk_iff]
    | with_reducible apply Keeps.other
    | with_reducible apply Keeps.ite

theorem State.burstCe_keeps {s : State} {c owner line : Nat} {g : Geo} {sub synd : Nat} (hs : Keeps ini s) :
    Keeps ini (State.burstCe s c owner line g sub synd) := by
  unfold State.burstCe
  repeat' first
    | with_reducible assumption
    | with_reducible apply State.updChan_keeps
    | with_reducible apply State.log_keeps
    | simp only [Keeps.mk_iff]
    | with_reducible apply Keeps.other
    | with_reducible apply Keeps.ite

theorem execMemRequestArrive_keeps {c : Nat} {s : State} {out : State} (e : execMemRequestArrive c s = .next out) (hs
    : Keeps ini s) :
    Keeps ini out := by
  unfold execMemRequestArrive at e
  obtain rfl := Host.Outcome.next.inj e
  repeat' first
    | with_reducible assumption
    | with_reducible apply State.setReqs_keeps
    | with_reducible apply State.readDone_keeps
    | with_reducible apply State.log_keeps
    | simp only [Keeps.mk_iff]
    | with_reducible apply Keeps.other
    | with_reducible apply Keeps.ite
    | refine Keeps.fst (by assumption) ?_
    | refine Keeps.snd (by assumption) ?_
    | split

theorem State.setLock_keeps {s : State} {r : MemReq} {on : Bool} (hs : Keeps ini s) :
    Keeps ini (State.setLock s r on) := by
  unfold State.setLock
  repeat' first
    | with_reducible assumption
    | simp only [Keeps.mk_iff]
    | with_reducible apply Keeps.other
    | with_reducible apply Keeps.ite
    | refine Keeps.fst (by assumption) ?_
    | refine Keeps.snd (by assumption) ?_
    | split

theorem State.actDraw_keeps {s : State} {c row : Nat} (hs : Keeps ini s) :
    Keeps ini (State.actDraw s c row) := by
  unfold State.actDraw
  repeat' first
    | with_reducible assumption
    | with_reducible apply State.free_keeps
    | with_reducible apply State.updChan_keeps

theorem State.serveBank_keeps {s : State} {c : Nat} {r : MemReq} (hs : Keeps ini s) :
    Keeps ini (State.serveBank s c r) := by
  unfold State.serveBank
  repeat' first
    | with_reducible assumption
    | with_reducible apply State.actDraw_keeps
    | with_reducible apply State.updChan_keeps
    | simp only [Keeps.mk_iff]
    | with_reducible apply Keeps.other
    | with_reducible apply Keeps.ite

theorem State.countServed_keeps {s : State} {c owner : Nat} (hs : Keeps ini s) :
    Keeps ini (State.countServed s c owner) := by
  unfold State.countServed
  repeat' first
    | intro _ _ _
    | with_reducible assumption
    | with_reducible apply State.updChan_keeps
    | with_reducible apply State.updTenant_keeps
    | simp only [Keeps.mk_iff]
    | with_reducible apply Keeps.other
    | with_reducible apply Keeps.ite

theorem execDramIssue_keeps {c : Nat} {s : State} {out : State} (e : execDramIssue c s = .next out) (hs : Keeps ini
    s) :
    Keeps ini out := by
  unfold execDramIssue at e
  obtain rfl := Host.Outcome.next.inj e
  repeat' first
    | with_reducible assumption
    | with_reducible apply State.selfRefDue_keeps
    | with_reducible apply State.serveBank_keeps
    | with_reducible apply State.countServed_keeps
    | with_reducible apply State.setReqs_keeps
    | with_reducible apply State.memWrite_keeps
    | with_reducible apply State.updChan_keeps
    | with_reducible apply State.setLock_keeps
    | simp only [Keeps.mk_iff]
    | with_reducible apply Keeps.other
    | with_reducible apply Keeps.ite
    | refine Keeps.fst (by assumption) ?_
    | refine Keeps.snd (by assumption) ?_
    | split

theorem State.countBurst_keeps {s : State} {c owner line : Nat} {g : Geo} {sub : Nat} {dead : Bool} {tag : BitVec 2}
    {e : BitVec 288} (hs : Keeps ini s) :
    Keeps ini (State.countBurst s c owner line g sub dead tag e) := by
  unfold State.countBurst
  repeat' first
    | with_reducible assumption
    | with_reducible apply State.burstUe_keeps
    | with_reducible apply State.burstCe_keeps
    | with_reducible apply Keeps.ite
    | refine Keeps.fst (by assumption) ?_
    | refine Keeps.snd (by assumption) ?_
    | split

theorem execMemReadComplete_keeps {c : Nat} {e0 e1 : BitVec 288} {s : State} {out : State} (e : execMemReadComplete c
    e0 e1 s = .next out) (hs : Keeps ini s) :
    Keeps ini out := by
  unfold execMemReadComplete at e
  obtain rfl := Host.Outcome.next.inj e
  repeat' first
    | with_reducible assumption
    | with_reducible apply State.selfRefDue_keeps
    | with_reducible apply State.setReqs_keeps
    | with_reducible apply State.readDone_keeps
    | with_reducible apply State.countBurst_keeps
    | with_reducible apply State.setLock_keeps
    | simp only [Keeps.mk_iff]
    | with_reducible apply Keeps.other
    | with_reducible apply Keeps.ite
    | refine Keeps.fst (by assumption) ?_
    | refine Keeps.snd (by assumption) ?_
    | split

theorem execGuardWrite_keeps {c : Nat} {s : State} {out : State} (e : execGuardWrite c s = .next out) (hs : Keeps ini
    s) :
    Keeps ini out := by
  unfold execGuardWrite at e
  obtain rfl := Host.Outcome.next.inj e
  repeat' first
    | with_reducible assumption
    | with_reducible apply State.selfRefDue_keeps
    | with_reducible apply State.setReqs_keeps
    | with_reducible apply State.memWrite_keeps
    | with_reducible apply State.setLock_keeps
    | with_reducible apply State.updChan_keeps
    | simp only [Keeps.mk_iff]
    | with_reducible apply Keeps.other
    | refine Keeps.fst (by assumption) ?_
    | refine Keeps.snd (by assumption) ?_
    | split

theorem execGuardRebuild_keeps {c : Nat} {second : Bool} {s : State} {out : State} (e : execGuardRebuild c second s =
    .next out) (hs : Keeps ini s) :
    Keeps ini out := by
  unfold execGuardRebuild at e
  obtain rfl := Host.Outcome.next.inj e
  repeat' first
    | with_reducible assumption
    | with_reducible apply State.selfRefDue_keeps
    | with_reducible apply State.setReqs_keeps
    | with_reducible apply State.setLock_keeps
    | with_reducible apply State.readDone_keeps
    | with_reducible apply State.updChan_keeps
    | with_reducible apply State.log_keeps
    | simp only [Keeps.mk_iff]
    | with_reducible apply Keeps.other
    | with_reducible apply Keeps.ite
    | refine Keeps.fst (by assumption) ?_
    | refine Keeps.snd (by assumption) ?_
    | split

theorem execDramWriteError_keeps {c : Nat} {wr : Bool} {s : State} {out : State} (e : execDramWriteError c wr s =
    .next out) (hs : Keeps ini s) :
    Keeps ini out := by
  unfold execDramWriteError at e
  obtain rfl := Host.Outcome.next.inj e
  repeat' first
    | with_reducible assumption
    | with_reducible apply State.selfRefDue_keeps
    | with_reducible apply State.updChan_keeps
    | with_reducible apply State.failModule_keeps
    | with_reducible apply State.log_keeps
    | with_reducible apply State.setReqs_keeps
    | with_reducible apply State.readDone_keeps
    | with_reducible apply State.burstUe_keeps
    | with_reducible apply State.setLock_keeps
    | simp only [Keeps.mk_iff]
    | with_reducible apply Keeps.other
    | with_reducible apply Keeps.ite
    | refine Keeps.fst (by assumption) ?_
    | refine Keeps.snd (by assumption) ?_
    | split

theorem execRefresh_keeps {c b : Nat} {s : State} {out : State} (e : execRefresh c b s = .next out) (hs : Keeps ini
    s) :
    Keeps ini out := by
  unfold execRefresh at e
  obtain rfl := Host.Outcome.next.inj e
  repeat' first
    | with_reducible assumption
    | with_reducible apply State.updChan_keeps
    | simp only [Keeps.mk_iff]
    | with_reducible apply Keeps.other
    | with_reducible apply Keeps.ite

theorem execIdlePrecharge_keeps {c b : Nat} {s : State} {out : State} (e : execIdlePrecharge c b s = .next out) (hs :
    Keeps ini s) :
    Keeps ini out := by
  unfold execIdlePrecharge at e
  obtain rfl := Host.Outcome.next.inj e
  repeat' first
    | with_reducible assumption
    | with_reducible apply State.updChan_keeps
    | simp only [Keeps.mk_iff]
    | with_reducible apply Keeps.other
    | with_reducible apply Keeps.ite

theorem execScrub_keeps {c : Nat} {e0 e1 : BitVec 288} {s : State} {out : State} (e : execScrub c e0 e1 s = .next
    out) (hs : Keeps ini s) :
    Keeps ini out := by
  unfold execScrub at e
  obtain rfl := Host.Outcome.next.inj e
  repeat' first
    | with_reducible assumption
    | with_reducible apply State.countBurst_keeps
    | with_reducible apply State.updChan_keeps
    | simp only [Keeps.mk_iff]
    | with_reducible apply Keeps.other
    | with_reducible apply Keeps.ite

theorem execRetrainStep_keeps {c eye : Nat} {ok : Bool} {s : State} {out : State} (e : execRetrainStep c eye ok s =
    .next out) (hs : Keeps ini s) :
    Keeps ini out := by
  unfold execRetrainStep at e
  obtain rfl := Host.Outcome.next.inj e
  repeat' first
    | with_reducible assumption
    | with_reducible apply State.log_keeps
    | with_reducible apply State.updChan_keeps
    | with_reducible apply State.failModule_keeps
    | simp only [Keeps.mk_iff]
    | with_reducible apply Keeps.other
    | with_reducible apply Keeps.ite

theorem execPanicChange_keeps {p : Bool} {s : State} {out : State} (e : execPanicChange p s = .next out) (hs : Keeps
    ini s) :
    Keeps ini out := by
  unfold execPanicChange at e
  obtain rfl := Host.Outcome.next.inj e
  repeat' first
    | with_reducible assumption
    | simp only [Keeps.mk_iff]
    | with_reducible apply Keeps.other

end Sys2Proof.Machine
end

