-- ==== Sys2Proof/Laws/SortKeeps.lean ====
section
/-! SUPPORT. The operations of Machine/Sort.lean keep what Keeps names. -/

namespace Sys2Proof.Machine

variable {ini : State}

theorem State.sortRun_keeps {s : State} {c : OpCtx} {b : Batch} {out : State} (e : State.sortRun s c b = some out)
    (hs : Keeps ini s) :
    Keeps ini out := by
  unfold State.sortRun at e
  repeat' first
    | with_reducible assumption
    | simp only [Option.map_eq_some_iff] at e
    | (obtain ⟨_, _, e⟩ := e)
    | cases e
    | split at e
    | dsimp only at e
    | with_reducible apply State.solid_keeps
    | with_reducible refine State.placeAll_keeps (by assumption) ?_
    | with_reducible apply State.writeBytes_keeps
    | with_reducible apply State.updBrk_keeps

theorem execSortRadix_keeps {t : Nat} {s out : State} (e : execSortRadix t s = .next out) (hs : Keeps ini s) : Keeps ini out := by
  unfold execSortRadix at e
  obtain rfl := Host.Outcome.next.inj e
  clear e
  split
  · exact hs
  · split
    · exact State.opFail_keeps hs
    · rename_i e
      exact State.opDone_keeps (Keeps.foldl_bind e hs fun _ _ _ e hs => State.sortRun_keeps e hs)

theorem execMerge_keeps {t : Nat} {s : State} {out : State} (e : execMerge t s = .next out) (hs : Keeps ini s) :
    Keeps ini out := by
  unfold execMerge at e
  obtain rfl := Host.Outcome.next.inj e
  repeat' first
    | with_reducible assumption
    | with_reducible apply State.opFail_keeps
    | with_reducible refine State.take_keeps (by assumption) ?_
    | with_reducible apply State.opDone_keeps
    | simp only [Keeps.mk_iff]
    | with_reducible apply Keeps.other
    | with_reducible apply Keeps.ite
    | refine Keeps.fst (by assumption) ?_
    | refine Keeps.snd (by assumption) ?_
    | split

theorem execTopk_keeps {t : Nat} {s : State} {out : State} (e : execTopk t s = .next out) (hs : Keeps ini s) :
    Keeps ini out := by
  unfold execTopk at e
  obtain rfl := Host.Outcome.next.inj e
  repeat' first
    | intro _ _ _
    | with_reducible assumption
    | with_reducible apply State.updQuery_keeps
    | with_reducible apply State.opDone_keeps
    | simp only [Keeps.mk_iff]
    | with_reducible apply Keeps.other
    | with_reducible apply Keeps.foldl_fst
    | with_reducible apply Keeps.foldl_snd
    | (with_reducible apply Keeps.foldl)
    | refine Keeps.fst (by assumption) ?_
    | refine Keeps.snd (by assumption) ?_
    | split

theorem State.limitCut_keeps {s : State} {f q p m : Nat} (hs : Keeps ini s) :
    Keeps ini (State.limitCut s f q p m) := by
  unfold State.limitCut
  repeat' first
    | with_reducible assumption
    | with_reducible apply State.updPipe_keeps
    | with_reducible apply State.dropTasks_keeps
    | with_reducible apply State.cancelCores_keeps

theorem execLimit_keeps {t : Nat} {s : State} {out : State} (e : execLimit t s = .next out) (hs : Keeps ini s) :
    Keeps ini out := by
  unfold execLimit at e
  obtain rfl := Host.Outcome.next.inj e
  repeat' first
    | with_reducible assumption
    | with_reducible apply State.updQuery_keeps
    | with_reducible apply State.limitCut_keeps
    | with_reducible apply State.opDone_keeps
    | simp only [Keeps.mk_iff]
    | with_reducible apply Keeps.other
    | with_reducible apply Keeps.ite
    | refine Keeps.fst (by assumption) ?_
    | refine Keeps.snd (by assumption) ?_
    | split

end Sys2Proof.Machine
end

