-- ==== Sys2Proof/Laws/OutputKeeps.lean ====
section
/-! SUPPORT. The operations of Machine/Output.lean keep what Keeps names. -/

namespace Sys2Proof.Machine

variable {ini : State}

theorem execExchange_keeps {t : Nat} {s : State} {out : State} (e : execExchange t s = .next out) (hs : Keeps ini s)
    :
    Keeps ini out := by
  unfold execExchange at e
  obtain rfl := Host.Outcome.next.inj e
  repeat' first
    | intro _ _ _
    | with_reducible assumption
    | with_reducible apply State.opFail_keeps
    | with_reducible apply State.updXchg_keeps
    | with_reducible apply State.opDone_keeps
    | with_reducible apply Keeps.ite
    | (with_reducible apply Keeps.foldl)
    | refine Keeps.fst (by assumption) ?_
    | refine Keeps.snd (by assumption) ?_
    | split

theorem State.emitPieces_keeps {s : State} {c : OpCtx} {a1 : List Batch} (hs : Keeps ini s) :
    Keeps ini (State.emitPieces s c a1).2 := by
  induction a1 generalizing s c with
  | nil =>
    unfold State.emitPieces
    repeat' first
      | with_reducible assumption
  | cons x r ih =>
    unfold State.emitPieces
    repeat' first
      | with_reducible assumption
      | with_reducible apply ih
      | with_reducible apply State.solid_keeps

theorem State.emitBuffer_keeps {s : State} {t : Nat} {c : OpCtx} {before : Nat} (hs : Keeps ini s) :
    Keeps ini (State.emitBuffer s t c before) := by
  unfold State.emitBuffer
  repeat' first
    | with_reducible assumption
    | with_reducible apply State.emitPieces_keeps
    | with_reducible apply State.opFail_keeps
    | with_reducible apply State.writeBytes_keeps
    | with_reducible apply State.updQuery_keeps
    | with_reducible apply State.opDone_keeps
    | simp only [Keeps.mk_iff]
    | with_reducible apply Keeps.other
    | with_reducible apply Keeps.ite

theorem State.emitColumn_keeps {s : State} {t : Nat} {f obj ty : Nat} {a1 : Nat} {a2 : List (Option Word)} (hs :
    Keeps ini s) :
    Keeps ini (State.emitColumn s t f obj ty a1 a2).1 := by
  induction a1 generalizing s t f obj ty a2 with
  | zero =>
    unfold State.emitColumn
    repeat' first
      | with_reducible assumption
  | succ k ih =>
    unfold State.emitColumn
    repeat' first
      | with_reducible assumption
      | with_reducible apply ih
      | with_reducible refine State.take_keeps (by assumption) ?_
      | with_reducible apply State.appendChunk_keeps
      | with_reducible apply State.logSegment_keeps
      | with_reducible apply Kept.nvSame
      | with_reducible apply Keeps.ite
      | refine Keeps.fst (by assumption) ?_
      | refine Keeps.snd (by assumption) ?_
      | split
      | dsimp only

theorem State.emitCheck_keeps {s : State} {t f obj : Nat} {d : FieldD} (hs : Keeps ini s) :
    Keeps ini (State.emitCheck s t f obj d).1 := by
  unfold State.emitCheck
  repeat' first
    | with_reducible assumption
    | with_reducible apply State.logSegment_keeps
    | with_reducible apply Keeps.ite
    | refine Keeps.fst (by assumption) ?_
    | refine Keeps.snd (by assumption) ?_
    | split

theorem State.emitObjects_keeps {s : State} {t : Nat} {c : OpCtx} (hs : Keeps ini s) : Keeps ini (State.emitObjects s t c) := by
  unfold State.emitObjects
  extract_lets objs chk rows done
  have h1 : Keeps ini chk.1 := Keeps.foldl_fst (p := (s, 0)) hs fun p x h => Keeps.ite_fst (State.emitCheck_keeps h) h
  have h2 : Keeps ini done.1 := Keeps.foldl_fst (p := (chk.1, 0)) h1 fun p x h => Keeps.ite_fst (State.emitColumn_keeps h) h
  exact Keeps.ite (State.opFail_keeps h1) (Keeps.ite (State.opFail_keeps h2) (State.opDone_keeps (State.updQuery_keeps h2)))

theorem execEmit_keeps {t : Nat} {s : State} {out : State} (e : execEmit t s = .next out) (hs : Keeps ini s) :
    Keeps ini out := by
  unfold execEmit at e
  obtain rfl := Host.Outcome.next.inj e
  repeat' first
    | with_reducible assumption
    | with_reducible apply State.emitObjects_keeps
    | with_reducible apply State.emitBuffer_keeps
    | with_reducible apply Keeps.ite
    | refine Keeps.fst (by assumption) ?_
    | refine Keeps.snd (by assumption) ?_
    | split

theorem State.compressBatch_keeps {s : State} {c : OpCtx} {b : Batch} (hs : Keeps ini s) :
    Keeps ini (State.compressBatch s c b).2 := by
  unfold State.compressBatch
  repeat' first
    | with_reducible assumption
    | with_reducible apply State.solid_keeps

theorem execOpCompress_keeps {t : Nat} {s out : State} (e : execOpCompress t s = .next out) (hs : Keeps ini s) : Keeps ini out := by
  unfold execOpCompress at e
  obtain rfl := Host.Outcome.next.inj e
  clear e
  split
  · exact hs
  · rename_i c hc
    extract_lets +onlyGivenNames r
    have hr : Keeps ini r.2 := Keeps.foldl_snd (p := ([], s)) hs fun p b h => State.compressBatch_keeps h
    refine Keeps.ite (State.opFail_keeps hr) ?_
    exact Keeps.ite (State.opDone_keeps (State.updQuery_keeps (State.writeBytes_keeps hr)))
      (State.opFail_keeps (State.updQuery_keeps (State.writeBytes_keeps hr)))

theorem State.decompressSource_keeps {s : State} {t : Nat} {c : OpCtx} (hs : Keeps ini s) :
    Keeps ini (State.decompressSource s t c) := by
  unfold State.decompressSource
  repeat' first
    | with_reducible assumption
    | with_reducible apply State.opFail_keeps
    | with_reducible apply State.opDone_keeps
    | with_reducible apply Keeps.ite

theorem execOpDecompress_keeps {t : Nat} {s : State} {out : State} (e : execOpDecompress t s = .next out) (hs : Keeps
    ini s) :
    Keeps ini out := by
  unfold execOpDecompress at e
  obtain rfl := Host.Outcome.next.inj e
  repeat' first
    | with_reducible assumption
    | with_reducible apply State.decompressSource_keeps
    | with_reducible apply State.opFail_keeps
    | with_reducible apply State.opDone_keeps
    | with_reducible apply Keeps.ite
    | refine Keeps.fst (by assumption) ?_
    | refine Keeps.snd (by assumption) ?_
    | split
    | dsimp only

theorem State.digestBytes_keeps {s : State} {c : OpCtx} {b : Batch} (hs : Keeps ini s) :
    Keeps ini (State.digestBytes s c b).2 := by
  unfold State.digestBytes
  repeat' first
    | with_reducible assumption
    | with_reducible apply State.solid_keeps

theorem execOpDigest_keeps {t : Nat} {s out : State} (e : execOpDigest t s = .next out) (hs : Keeps ini s) : Keeps ini out := by
  unfold execOpDigest at e
  obtain rfl := Host.Outcome.next.inj e
  clear e
  split
  · exact hs
  · refine Keeps.ite (State.opFail_keeps hs) (Keeps.ite (State.opFail_keeps hs) ?_)
    exact State.opDone_keeps (State.updQuery_keeps (Keeps.foldl_snd (p := ([], s)) hs fun p b h => State.digestBytes_keeps h))

theorem execLookupBramble_keeps {t : Nat} {s : State} {out : State} (e : execLookupBramble t s = .next out) (hs :
    Keeps ini s) :
    Keeps ini out := by
  unfold execLookupBramble at e
  obtain rfl := Host.Outcome.next.inj e
  repeat' first
    | with_reducible assumption
    | with_reducible apply State.brmCount_keeps
    | with_reducible apply State.opDone_keeps
    | refine Keeps.fst (by assumption) ?_
    | refine Keeps.snd (by assumption) ?_
    | split

end Sys2Proof.Machine
end

