-- ==== Sys2Proof/Laws/PowerKeeps.lean ====
section
/-! SUPPORT. The operations of Machine/Power.lean keep what Keeps names. -/

namespace Sys2Proof.Machine

variable {ini : State}

theorem State.updPw_keeps {s : State} {g : Power → Power} (hs : Keeps ini s) (hg : s.pw.levelOk → (g s.pw).levelOk) :
    Keeps ini (State.updPw s g) := hs.setPw hg

theorem State.shutdown_keeps {s : State} {cause : Nat} (hs : Keeps ini s) : Keeps ini (State.shutdown s cause) := by
  unfold State.shutdown
  extract_lets s1
  have h1 : Keeps ini s1 := State.log_keeps hs
  have h0 := State.afterReset_keeps h1
  exact ⟨h0.pending, h0.part, h0.drawn, h0.mem, h0.host, h0.nv, fun b => ⟨Nat.zero_le _, (h1.errlog b).2⟩, fun _ => ⟨le_rfl, Nat.zero_le _⟩⟩

theorem State.shutdownIfUp_keeps {s : State} {on : Bool} {cause : Nat} (hs : Keeps ini s) :
    Keeps ini (State.shutdownIfUp s on cause) := by
  unfold State.shutdownIfUp
  repeat' first
    | with_reducible assumption
    | with_reducible apply State.supply_keeps
    | with_reducible apply State.shutdown_keeps
    | with_reducible apply Keeps.ite

theorem execPowerGood_keeps {vin : Nat} {s : State} {out : State} (e : execPowerGood vin s = .next out) (hs : Keeps
    ini s) :
    Keeps ini out := by
  unfold execPowerGood at e
  obtain rfl := Host.Outcome.next.inj e
  repeat' first
    | exact id
    | with_reducible assumption
    | with_reducible apply State.updPw_keeps
    | with_reducible apply State.supply_keeps
    | simp only [Keeps.mk_iff]
    | with_reducible apply Keeps.other
    | with_reducible apply Keeps.ite

theorem execRailRampTimeout_keeps {_r : Nat} {s : State} {out : State} (e : execRailRampTimeout _r s = .next out) (hs
    : Keeps ini s) :
    Keeps ini out := by
  unfold execRailRampTimeout at e
  obtain rfl := Host.Outcome.next.inj e
  repeat' first
    | exact id
    | with_reducible assumption
    | with_reducible apply State.updPw_keeps

theorem execRampRetry_keeps {s : State} {out : State} (e : execRampRetry s = .next out) (hs : Keeps ini s) :
    Keeps ini out := by
  unfold execRampRetry at e
  obtain rfl := Host.Outcome.next.inj e
  repeat' first
    | exact id
    | with_reducible assumption
    | with_reducible apply State.updPw_keeps

theorem execOverVoltage_keeps {vin : Nat} {s : State} {out : State} (e : execOverVoltage vin s = .next out) (hs :
    Keeps ini s) :
    Keeps ini out := by
  unfold execOverVoltage at e
  obtain rfl := Host.Outcome.next.inj e
  repeat' first
    | exact id
    | with_reducible assumption
    | with_reducible apply State.updPw_keeps
    | with_reducible apply State.shutdownIfUp_keeps
    | simp only [Keeps.mk_iff]
    | with_reducible apply Keeps.other
    | with_reducible apply Keeps.ite

theorem execUnderVoltage_keeps {vin : Nat} {s : State} {out : State} (e : execUnderVoltage vin s = .next out) (hs :
    Keeps ini s) :
    Keeps ini out := by
  unfold execUnderVoltage at e
  obtain rfl := Host.Outcome.next.inj e
  repeat' first
    | exact id
    | with_reducible assumption
    | with_reducible apply State.updPw_keeps
    | with_reducible apply State.shutdownIfUp_keeps
    | simp only [Keeps.mk_iff]
    | with_reducible apply Keeps.other
    | with_reducible apply Keeps.ite

theorem execPwrgdLow_keeps {s : State} {out : State} (e : execPwrgdLow s = .next out) (hs : Keeps ini s) :
    Keeps ini out := by
  unfold execPwrgdLow at e
  obtain rfl := Host.Outcome.next.inj e
  repeat' first
    | exact id
    | with_reducible assumption
    | with_reducible apply State.updPw_keeps
    | with_reducible apply State.supply_keeps
    | with_reducible apply State.shutdown_keeps
    | simp only [Keeps.mk_iff]
    | with_reducible apply Keeps.other
    | refine Keeps.fst (by assumption) ?_
    | refine Keeps.snd (by assumption) ?_
    | split

theorem execThermalTrip_keeps {t : Nat} {temp : Int} {s : State} {out : State} (e : execThermalTrip t temp s = .next
    out) (hs : Keeps ini s) :
    Keeps ini out := by
  unfold execThermalTrip at e
  obtain rfl := Host.Outcome.next.inj e
  repeat' first
    | with_reducible assumption
    | with_reducible apply State.shutdownIfUp_keeps
    | simp only [Keeps.mk_iff]
    | with_reducible apply Keeps.other
    | with_reducible apply Keeps.ite

theorem execShutdownRestart_keeps {vin : Nat} {tmax : Int} {mods : List Nat} {straps : BitVec 5} {img : BitVec 2}
    {s : State} {out : State} (e : execShutdownRestart vin tmax mods straps img s = .next out) (hs : Keeps ini s) :
    Keeps ini out := by
  unfold execShutdownRestart at e
  obtain rfl := Host.Outcome.next.inj e
  repeat' first
    | exact id
    | with_reducible assumption
    | with_reducible apply State.supply_keeps
    | with_reducible apply State.updPw_keeps
    | with_reducible apply State.coldStart_keeps
    | simp only [Keeps.mk_iff]
    | with_reducible apply Keeps.other
    | with_reducible apply Keeps.ite

theorem execPowerSample_keeps {pin vin : BitVec 16} {s : State} {out : State} (e : execPowerSample pin vin s = .next
    out) (hs : Keeps ini s) :
    Keeps ini out := by
  unfold execPowerSample at e
  obtain rfl := Host.Outcome.next.inj e
  repeat' first
    | exact id
    | with_reducible assumption
    | with_reducible apply State.supply_keeps
    | with_reducible apply State.updPw_keeps
    | simp only [Keeps.mk_iff]
    | with_reducible apply Keeps.other
    | with_reducible apply Kept.nvSame
    | with_reducible apply Keeps.ite

theorem State.judgeSensor_keeps {s : State} {t : Nat} (hs : Keeps ini s) :
    Keeps ini (State.judgeSensor s t) := by
  unfold State.judgeSensor
  repeat' first
    | with_reducible assumption
    | with_reducible apply State.log_keeps
    | simp only [Keeps.mk_iff]
    | with_reducible apply Keeps.other
    | with_reducible apply Keeps.ite

theorem execThermalEval_keeps {temps : List Int} {s : State} {out : State} (e : execThermalEval temps s = .next out)
    (hs : Keeps ini s) :
    Keeps ini out := by
  unfold execThermalEval at e
  obtain rfl := Host.Outcome.next.inj e
  repeat' first
    | exact id
    | intro _ _ _
    | with_reducible assumption
    | with_reducible apply State.supply_keeps
    | with_reducible apply State.judgeSensor_keeps
    | with_reducible apply State.updPw_keeps
    | simp only [Keeps.mk_iff]
    | with_reducible apply Keeps.other
    | with_reducible apply Keeps.ite
    | (with_reducible apply Keeps.foldl)

theorem execSagFire_keeps {core : Bool} {s out : State} (e : execSagFire core s = .next out) (hs : Keeps ini s) : Keeps ini out := by
  obtain rfl := Host.Outcome.next.inj e
  refine Keeps.ite hs (State.updPw_keeps hs fun h => ?_)
  have h1 := h.1
  have h2 := h.2
  exact ⟨show s.pw.lmin ≤ min 2 (s.pw.level + 1) by omega, Nat.min_le_left _ _⟩

theorem execSagRecovery_keeps {s out : State} (e : execSagRecovery s = .next out) (hs : Keeps ini s) : Keeps ini out := by
  obtain rfl := Host.Outcome.next.inj e
  refine Keeps.ite hs (State.updPw_keeps hs fun h => ?_)
  have h1 := h.1
  have h2 := h.2
  exact ⟨le_max_left _ _, show max s.pw.lmin (s.pw.level - 1) ≤ 2 by omega⟩

theorem execRefLoss_keeps {s : State} {out : State} (e : execRefLoss s = .next out) (hs : Keeps ini s) :
    Keeps ini out := by
  unfold execRefLoss at e
  obtain rfl := Host.Outcome.next.inj e
  repeat' first
    | exact id
    | with_reducible assumption
    | with_reducible apply State.supply_keeps
    | with_reducible apply State.updPw_keeps
    | with_reducible apply State.log_keeps
    | simp only [Keeps.mk_iff]
    | with_reducible apply Keeps.other
    | with_reducible apply Keeps.ite

theorem execRefReturn_keeps {s : State} {out : State} (e : execRefReturn s = .next out) (hs : Keeps ini s) :
    Keeps ini out := by
  unfold execRefReturn at e
  obtain rfl := Host.Outcome.next.inj e
  repeat' first
    | exact id
    | with_reducible assumption
    | with_reducible apply State.updPw_keeps

theorem execRefTimeout_keeps {s : State} {out : State} (e : execRefTimeout s = .next out) (hs : Keeps ini s) :
    Keeps ini out := by
  unfold execRefTimeout at e
  obtain rfl := Host.Outcome.next.inj e
  repeat' first
    | with_reducible assumption
    | with_reducible apply State.shutdownIfUp_keeps

theorem execA1Entry_keeps {s : State} {out : State} (e : execA1Entry s = .next out) (hs : Keeps ini s) :
    Keeps ini out := by
  unfold execA1Entry at e
  obtain rfl := Host.Outcome.next.inj e
  repeat' first
    | exact id
    | with_reducible assumption
    | with_reducible apply State.supply_keeps
    | with_reducible apply State.updPw_keeps
    | simp only [Keeps.mk_iff]
    | with_reducible apply Keeps.other
    | with_reducible apply Keeps.ite

theorem execA2Entry_keeps {s : State} {out : State} (e : execA2Entry s = .next out) (hs : Keeps ini s) :
    Keeps ini out := by
  unfold execA2Entry at e
  obtain rfl := Host.Outcome.next.inj e
  repeat' first
    | exact id
    | intro _ _ _
    | with_reducible assumption
    | with_reducible apply State.supply_keeps
    | with_reducible apply State.flushL1D_keeps
    | with_reducible apply State.updTile_keeps
    | with_reducible apply State.updPw_keeps
    | simp only [Keeps.mk_iff]
    | with_reducible apply Keeps.other
    | with_reducible apply Keeps.ite
    | (with_reducible apply Keeps.foldl)

theorem execA3Entry_keeps {s : State} {out : State} (e : execA3Entry s = .next out) (hs : Keeps ini s) :
    Keeps ini out := by
  unfold execA3Entry at e
  obtain rfl := Host.Outcome.next.inj e
  repeat' first
    | exact id
    | with_reducible assumption
    | with_reducible apply State.supply_keeps
    | with_reducible apply State.updPw_keeps
    | simp only [Keeps.mk_iff]
    | with_reducible apply Keeps.other
    | with_reducible apply Keeps.ite

theorem State.toA0_keeps {s : State} (hs : Keeps ini s) :
    Keeps ini (State.toA0 s) := by
  unfold State.toA0
  repeat' first
    | exact id
    | with_reducible assumption
    | with_reducible apply State.startTiles_keeps
    | with_reducible apply State.updPw_keeps
    | simp only [Keeps.mk_iff]
    | with_reducible apply Keeps.other
    | with_reducible apply Keeps.ite

theorem execPowerStateExit_keeps {wake : Bool} {s : State} {out : State} (e : execPowerStateExit wake s = .next out)
    (hs : Keeps ini s) :
    Keeps ini out := by
  unfold execPowerStateExit at e
  obtain rfl := Host.Outcome.next.inj e
  repeat' first
    | with_reducible assumption
    | with_reducible apply State.toA0_keeps
    | with_reducible apply Keeps.ite

theorem execI3cRead_keeps {s : State} {out : State} (e : execI3cRead s = .next out) (hs : Keeps ini s) :
    Keeps ini out := by
  unfold execI3cRead at e
  obtain rfl := Host.Outcome.next.inj e
  repeat' first
    | exact id
    | with_reducible assumption
    | with_reducible apply State.updPw_keeps

end Sys2Proof.Machine
end

