-- ==== Sys2Proof/Laws/ReliaKeeps.lean ====
section
/-! SUPPORT. The operations of Machine/Relia.lean keep what Keeps names. -/

namespace Sys2Proof.Machine

variable {ini : State}

theorem State.updRel_keeps {s : State} {g : Relia → Relia} (hs : Keeps ini s) :
    Keeps ini (State.updRel s g) := by
  unfold State.updRel
  repeat' first
    | with_reducible assumption
    | simp only [Keeps.mk_iff]
    | with_reducible apply Keeps.other

theorem State.lowerGuar_keeps {s : State} {a1 : Nat} (hs : Keeps ini s) :
    Keeps ini (State.lowerGuar s a1) := by
  induction a1 generalizing s with
  | zero =>
    unfold State.lowerGuar
    repeat' first
      | intro _ _ _
      | with_reducible assumption
  | succ k ih =>
    unfold State.lowerGuar
    repeat' first
      | intro _ _ _
      | with_reducible apply ih
      | with_reducible assumption
      | with_reducible apply State.updTenant_keeps
      | simp only [Keeps.mk_iff]
      | with_reducible apply Keeps.other
      | with_reducible apply Keeps.ite
      | (with_reducible apply Keeps.foldl)
      | refine Keeps.fst (by assumption) ?_
      | refine Keeps.snd (by assumption) ?_
      | split

theorem State.disableTile_keeps {s : State} {t cause : Nat} (hs : Keeps ini s) :
    Keeps ini (State.disableTile s t cause) := by
  unfold State.disableTile
  repeat' first
    | with_reducible assumption
    | with_reducible apply State.loseTask_keeps
    | with_reducible apply State.updTile_keeps
    | with_reducible apply State.log_keeps
    | with_reducible apply State.lowerGuar_keeps
    | with_reducible apply State.pageChanged_keeps
    | simp only [Keeps.mk_iff]
    | with_reducible apply Keeps.other
    | with_reducible apply Keeps.ite

theorem execTileReturn_keeps {t : Nat} {pass : Bool} {s : State} {out : State} (e : execTileReturn t pass s = .next
    out) (hs : Keeps ini s) :
    Keeps ini out := by
  unfold execTileReturn at e
  obtain rfl := Host.Outcome.next.inj e
  repeat' first
    | with_reducible assumption
    | with_reducible apply State.resetTile_keeps
    | with_reducible apply State.updTile_keeps
    | with_reducible apply State.updRel_keeps
    | with_reducible apply State.disableTile_keeps
    | simp only [Keeps.mk_iff]
    | with_reducible apply Keeps.other
    | with_reducible apply Keeps.ite

theorem State.retireTile_keeps {s : State} {t cause : Nat} (hs : Keeps ini s) :
    Keeps ini (State.retireTile s t cause) := by
  unfold State.retireTile
  repeat' first
    | with_reducible assumption
    | with_reducible apply State.failTask_keeps
    | with_reducible apply State.flushL1D_keeps
    | with_reducible apply State.disableTile_keeps
    | with_reducible apply Keeps.ite

theorem State.condemn_keeps {s : State} {h cause : Nat} (hs : Keeps ini s) :
    Keeps ini (State.condemn s h cause) := by
  unfold State.condemn
  repeat' first
    | with_reducible assumption
    | with_reducible apply State.log_keeps
    | with_reducible apply State.updRel_keeps
    | simp only [Keeps.mk_iff]
    | with_reducible apply Keeps.other
    | with_reducible apply Keeps.ite
    | refine Keeps.fst (by assumption) ?_
    | refine Keeps.snd (by assumption) ?_
    | split

theorem execSliceFault_keeps {h cause line : Nat} {s : State} {out : State} (e : execSliceFault h cause line s =
    .next out) (hs : Keeps ini s) :
    Keeps ini out := by
  unfold execSliceFault at e
  obtain rfl := Host.Outcome.next.inj e
  repeat' first
    | with_reducible assumption
    | with_reducible apply State.condemn_keeps
    | with_reducible apply State.updSlice_keeps
    | with_reducible apply State.updRel_keeps
    | with_reducible apply State.log_keeps
    | with_reducible apply State.freeDir_keeps
    | with_reducible apply State.markBlot_keeps
    | simp only [Keeps.mk_iff]
    | with_reducible apply Keeps.other
    | with_reducible apply Keeps.ite
    | refine Keeps.fst (by assumption) ?_
    | refine Keeps.snd (by assumption) ?_
    | split

theorem execSliceRemoval_keeps {h : Nat} {s : State} {out : State} (e : execSliceRemoval h s = .next out) (hs : Keeps
    ini s) :
    Keeps ini out := by
  unfold execSliceRemoval at e
  obtain rfl := Host.Outcome.next.inj e
  repeat' first
    | with_reducible assumption
    | with_reducible apply State.updRel_keeps
    | simp only [Keeps.mk_iff]
    | with_reducible apply Keeps.other
    | with_reducible apply Keeps.ite
    | refine Keeps.fst (by assumption) ?_
    | refine Keeps.snd (by assumption) ?_
    | split

theorem State.rehome_keeps {s : State} (hs : Keeps ini s) :
    Keeps ini (State.rehome s) := by
  unfold State.rehome
  repeat' first
    | intro _ _ _
    | with_reducible assumption
    | with_reducible apply State.updSlice_keeps
    | simp only [Keeps.mk_iff]
    | with_reducible apply Keeps.other
    | with_reducible apply Keeps.ite
    | (with_reducible apply Keeps.foldl)

theorem execSliceFlush_keeps {s out : State} (e : execSliceFlush s = .next out) (hs : Keeps ini s) : Keeps ini out := by
  unfold execSliceFlush at e
  obtain rfl := Host.Outcome.next.inj e
  clear e
  split
  · exact hs
  · refine Keeps.ite hs (State.pageChanged_keeps (State.updRel_keeps (State.rehome_keeps ?_)))
    exact Keeps.mk_iff.mpr (State.emptyCaches_keeps (State.writeBack_keeps hs)).other

theorem execModuleLoss_keeps {m : Nat} {s : State} {out : State} (e : execModuleLoss m s = .next out) (hs : Keeps ini
    s) :
    Keeps ini out := by
  unfold execModuleLoss at e
  obtain rfl := Host.Outcome.next.inj e
  repeat' first
    | with_reducible assumption
    | with_reducible apply State.supply_keeps
    | with_reducible apply State.failModule_keeps
    | with_reducible apply Keeps.ite

theorem execPhaseShed_keeps {r phase : Nat} {s : State} {out : State} (e : execPhaseShed r phase s = .next out) (hs :
    Keeps ini s) :
    Keeps ini out := by
  unfold execPhaseShed at e
  obtain rfl := Host.Outcome.next.inj e
  repeat' first
    | intro _ _ _
    | with_reducible assumption
    | with_reducible apply State.supply_keeps
    | with_reducible apply State.updRel_keeps
    | with_reducible apply State.log_keeps
    | with_reducible apply State.retireTile_keeps
    | simp only [Keeps.mk_iff]
    | with_reducible apply Keeps.other
    | with_reducible apply Keeps.ite
    | (with_reducible apply Keeps.foldl)

theorem execWatchdogExpiry_keeps {img : BitVec 2} {s : State} {out : State} (e : execWatchdogExpiry img s = .next
    out) (hs : Keeps ini s) :
    Keeps ini out := by
  unfold execWatchdogExpiry at e
  obtain rfl := Host.Outcome.next.inj e
  repeat' first
    | with_reducible assumption
    | with_reducible apply State.supply_keeps
    | with_reducible apply State.updRel_keeps
    | with_reducible apply State.log_keeps
    | with_reducible apply State.mbReply_keeps
    | simp only [Keeps.mk_iff]
    | with_reducible apply Keeps.other
    | with_reducible apply Keeps.ite
    | refine Keeps.fst (by assumption) ?_
    | refine Keeps.snd (by assumption) ?_
    | split

theorem execHubSensorRead_keeps {m : Nat} {temp : Option Int} {s : State} {out : State} (e : execHubSensorRead m temp
    s = .next out) (hs : Keeps ini s) :
    Keeps ini out := by
  unfold execHubSensorRead at e
  obtain rfl := Host.Outcome.next.inj e
  repeat' first
    | with_reducible assumption
    | with_reducible apply State.supply_keeps
    | with_reducible apply State.log_keeps
    | simp only [Keeps.mk_iff]
    | with_reducible apply Keeps.other
    | with_reducible apply Keeps.ite
    | refine Keeps.fst (by assumption) ?_
    | refine Keeps.snd (by assumption) ?_
    | split

theorem execAgeingMeasure_keeps {drift : List Nat} {s out : State} (e : execAgeingMeasure drift s = .next out) (hs : Keeps ini s) :
    Keeps ini out := by
  unfold execAgeingMeasure at e
  obtain rfl := Host.Outcome.next.inj e
  clear e
  refine Keeps.ite hs (State.updRel_keeps ?_)
  exact hs.setNv ⟨le_rfl, id, le_rfl, fun _ => rfl, id, id, Nat.le_succ _⟩

theorem State.newEyeGoals_keeps {s : State} (hs : Keeps ini s) :
    Keeps ini (State.newEyeGoals s) := by
  unfold State.newEyeGoals
  repeat' first
    | intro _ _ _
    | with_reducible assumption
    | with_reducible apply State.free_keeps
    | with_reducible apply State.updRel_keeps
    | simp only [Keeps.mk_iff]
    | with_reducible apply Keeps.other
    | (with_reducible apply Keeps.foldl)

theorem State.replan_keeps {s : State} {cause : Nat} (hs : Keeps ini s) : Keeps ini (State.replan s cause) := by
  unfold State.replan
  extract_lets l s1 bad s2 s3 d s4
  have h1 : Keeps ini s1 := by
    refine State.updRel_keeps (State.updPw_keeps hs fun h => ⟨le_max_right _ _, ?_⟩)
    have hl : l ≤ 2 := State.minLevel_le (h.1.trans h.2)
    have h2 := h.2
    exact show max s.pw.level l ≤ 2 by omega
  have h2 : Keeps ini s2 := Keeps.foldl h1 fun _ _ h => State.retireTile_keeps h
  have h3 : Keeps ini s3 := State.updRel_keeps h2
  have h4 : Keeps ini s4 := State.log_keeps (State.newEyeGoals_keeps h3)
  exact Keeps.ite (State.log_keeps h4) h4

theorem execMarginReplan_keeps {s : State} {out : State} (e : execMarginReplan s = .next out) (hs : Keeps ini s) :
    Keeps ini out := by
  unfold execMarginReplan at e
  obtain rfl := Host.Outcome.next.inj e
  repeat' first
    | with_reducible assumption
    | with_reducible apply State.supply_keeps
    | with_reducible apply State.replan_keeps
    | with_reducible apply Keeps.ite

theorem execPwrMarginReplan_keeps {s : State} {out : State} (e : execPwrMarginReplan s = .next out) (hs : Keeps ini
    s) :
    Keeps ini out := by
  unfold execPwrMarginReplan at e
  obtain rfl := Host.Outcome.next.inj e
  repeat' first
    | with_reducible assumption
    | with_reducible apply State.supply_keeps
    | with_reducible apply State.replan_keeps
    | with_reducible apply Keeps.ite

theorem execMarginReport_keeps {f : Nat} {s : State} {out : State} (e : execMarginReport f s = .next out) (hs : Keeps
    ini s) :
    Keeps ini out := by
  unfold execMarginReport at e
  obtain rfl := Host.Outcome.next.inj e
  repeat' first
    | intro _ _
    | intro _
    | with_reducible assumption
    | with_reducible apply State.mbRun_keeps
    | with_reducible apply State.mbReply_keeps

end Sys2Proof.Machine
end

