-- ==== Sys2Proof/Laws/UpdateKeeps.lean ====
section
/-! SUPPORT. The operations of Machine/Update.lean keep what Keeps names. -/

namespace Sys2Proof.Machine

variable {ini : State}

theorem execFwUpdateBegin_keeps {f : Nat} {s : State} {out : State} (e : execFwUpdateBegin f s = .next out) (hs :
    Keeps ini s) :
    Keeps ini out := by
  unfold execFwUpdateBegin at e
  obtain rfl := Host.Outcome.next.inj e
  repeat' first
    | intro _ _
    | intro _
    | with_reducible assumption
    | with_reducible apply State.mbRun_keeps
    | with_reducible apply State.mbReply_keeps
    | with_reducible refine State.take_keeps (by assumption) ?_
    | simp only [Keeps.mk_iff]
    | with_reducible apply Keeps.other
    | with_reducible apply Keeps.ite

theorem execFwUpdateChunk_keeps {f : Nat} {s : State} {out : State} (e : execFwUpdateChunk f s = .next out) (hs :
    Keeps ini s) :
    Keeps ini out := by
  unfold execFwUpdateChunk at e
  obtain rfl := Host.Outcome.next.inj e
  repeat' first
    | intro _ _
    | intro _
    | with_reducible assumption
    | with_reducible apply State.mbRun_keeps
    | with_reducible apply State.mbReply_keeps
    | simp only [Keeps.mk_iff]
    | with_reducible apply Keeps.other
    | with_reducible apply Keeps.ite

theorem State.abortMailbox_keeps {s : State} {f : Nat} (hs : Keeps ini s) :
    Keeps ini (State.abortMailbox s f) := by
  unfold State.abortMailbox
  repeat' first
    | with_reducible assumption
    | with_reducible apply State.updMbox_keeps
    | with_reducible apply State.mbReply_keeps
    | simp only [Keeps.mk_iff]
    | with_reducible apply Keeps.other
    | with_reducible apply Keeps.ite

theorem State.abortMailboxes_keeps {s : State} (hs : Keeps ini s) :
    Keeps ini (State.abortMailboxes s) := by
  unfold State.abortMailboxes
  repeat' first
    | intro _ _ _
    | with_reducible assumption
    | with_reducible apply State.abortMailbox_keeps
    | (with_reducible apply Keeps.foldl)

theorem State.abortWork_keeps {s : State} {id : Nat} (hs : Keeps ini s) :
    Keeps ini (State.abortWork s id) := by
  unfold State.abortWork
  repeat' first
    | with_reducible assumption
    | with_reducible apply State.failQuery_keeps
    | with_reducible apply State.workDone_keeps
    | simp only [Keeps.mk_iff]
    | with_reducible apply Keeps.other
    | with_reducible apply Keeps.ite
    | refine Keeps.fst (by assumption) ?_
    | refine Keeps.snd (by assumption) ?_
    | split

theorem State.abortAll_keeps {s : State} (hs : Keeps ini s) :
    Keeps ini (State.abortAll s) := by
  unfold State.abortAll
  repeat' first
    | intro _ _ _
    | with_reducible assumption
    | with_reducible apply State.abortMailboxes_keeps
    | with_reducible apply State.haltPairs_keeps
    | with_reducible apply State.cmpEndAll_keeps
    | with_reducible apply State.dmaEndAll_keeps
    | with_reducible apply State.dgsEndAll_keeps
    | with_reducible apply State.brmEndAll_keeps
    | with_reducible apply State.abortWork_keeps
    | with_reducible apply State.closeXchgs_keeps
    | with_reducible apply State.disarmAll_keeps
    | simp only [Keeps.mk_iff]
    | with_reducible apply Keeps.other
    | (with_reducible apply Keeps.foldl)

theorem State.programSlot_keeps {s : State} {plain : List Byte} (hs : Keeps ini s) : Keeps ini (State.programSlot s plain) := by
  unfold State.programSlot
  extract_lets +onlyGivenNames h n1 n2 n3
  have h1 : NvKeeps s.nv n1 := NonVol.writeDir_keeps
  have h2 : NvKeeps n1 n2 := .same rfl rfl rfl rfl rfl
  have h3 : NvKeeps n2 n3 := NonVol.writeDir_keeps
  exact Keeps.mk_iff.mpr (hs.other.nvSame ((h1.trans h2).trans h3))

theorem execFwUpdateCommit_keeps {f : Nat} {s : State} {out : State} (e : execFwUpdateCommit f s = .next out) (hs :
    Keeps ini s) :
    Keeps ini out := by
  unfold execFwUpdateCommit at e
  obtain rfl := Host.Outcome.next.inj e
  repeat' first
    | intro _ _
    | intro _
    | with_reducible assumption
    | with_reducible apply State.mbRun_keeps
    | with_reducible apply State.mbReply_keeps
    | with_reducible apply State.abandonUpdate_keeps
    | with_reducible apply State.abortAll_keeps
    | with_reducible apply State.programSlot_keeps
    | with_reducible apply Keeps.ite
    | refine Keeps.fst (by assumption) ?_
    | refine Keeps.snd (by assumption) ?_
    | split

theorem execUpdateTimeout_keeps {s : State} {out : State} (e : execUpdateTimeout s = .next out) (hs : Keeps ini s) :
    Keeps ini out := by
  unfold execUpdateTimeout at e
  obtain rfl := Host.Outcome.next.inj e
  repeat' first
    | with_reducible assumption
    | with_reducible apply State.abandonUpdate_keeps

theorem State.dropCores_keeps {s : State} (hs : Keeps ini s) :
    Keeps ini (State.dropCores s) := by
  unfold State.dropCores
  repeat' first
    | intro _ _ _
    | with_reducible assumption
    | with_reducible apply State.closeTxn_keeps
    | simp only [Keeps.mk_iff]
    | with_reducible apply Keeps.other
    | with_reducible apply Keeps.ite
    | (with_reducible apply Keeps.foldl)

theorem State.dropOldImages_keeps {s : State} (hs : Keeps ini s) :
    Keeps ini (State.dropOldImages s) := by
  unfold State.dropOldImages
  repeat' first
    | intro _ _ _
    | with_reducible assumption
    | with_reducible apply State.updTenant_keeps
    | simp only [Keeps.mk_iff]
    | with_reducible apply Keeps.other
    | with_reducible apply Keeps.ite
    | (with_reducible apply Keeps.foldl)

theorem State.wakeHalted_keeps {s : State} (hs : Keeps ini s) :
    Keeps ini (State.wakeHalted s) := by
  unfold State.wakeHalted
  repeat' first
    | intro _ _ _
    | with_reducible assumption
    | with_reducible apply State.updPair_keeps
    | simp only [Keeps.mk_iff]
    | with_reducible apply Keeps.other
    | with_reducible apply Keeps.ite
    | (with_reducible apply Keeps.foldl)

theorem State.restartPorts_keeps {s : State} (hs : Keeps ini s) :
    Keeps ini (State.restartPorts s) := by
  unfold State.restartPorts
  repeat' first
    | with_reducible assumption
    | simp only [Keeps.mk_iff]
    | with_reducible apply Keeps.other

theorem State.updateReboot_keeps {s : State} {img : BitVec 2} (hs : Keeps ini s) : Keeps ini (State.updateReboot s img) := by
  unfold State.updateReboot
  extract_lets +onlyGivenNames s1 s2
  have h1 : Keeps ini s1 := Keeps.foldl (State.writeBack_keeps hs) fun _ _ h => State.resetTile_keeps h
  have h2 : Keeps ini s2 := State.restartPorts_keeps (State.dropCores_keeps h1)
  refine State.pageChanged_keeps (State.wakeHalted_keeps (State.startTiles_keeps ?_))
  refine Keeps.foldl (State.dropOldImages_keeps (State.bootUp_keeps ?_)) fun _ _ h => State.drawCtxKey_keeps h
  exact ⟨h2.pending, h2.part, h2.drawn, h2.mem, h2.host, h2.nv, h2.errlog, h2.pw⟩

theorem execUpdateReboot_keeps {img : BitVec 2} {s : State} {out : State} (e : execUpdateReboot img s = .next out)
    (hs : Keeps ini s) :
    Keeps ini out := by
  unfold execUpdateReboot at e
  obtain rfl := Host.Outcome.next.inj e
  repeat' first
    | with_reducible assumption
    | with_reducible apply State.updateReboot_keeps
    | with_reducible apply Keeps.ite

theorem execHealthConfirm_keeps {f : Nat} {s out : State} (e : execHealthConfirm f s = .next out) (hs : Keeps ini s) :
    Keeps ini out := by
  unfold execHealthConfirm at e
  obtain rfl := Host.Outcome.next.inj e
  clear e
  refine State.mbRun_keeps hs fun s hs => ?_
  split
  · exact State.mbReply_keeps hs
  · refine State.mbReply_keeps (Keeps.mk_iff.mpr (hs.other.nvSame ?_))
    exact NonVol.writeDir_keeps.trans ⟨le_max_left _ _, id, le_rfl, fun _ => rfl, id, id, le_rfl⟩
  · exact State.mbReply_keeps hs

theorem execConfirmTimeout_keeps {img : BitVec 2} {s out : State} (e : execConfirmTimeout img s = .next out) (hs : Keeps ini s) :
    Keeps ini out := by
  unfold execConfirmTimeout at e
  obtain rfl := Host.Outcome.next.inj e
  clear e
  refine Keeps.ite hs (State.updateReboot_keeps (State.abortAll_keeps ?_))
  exact Keeps.mk_iff.mpr (hs.other.nvSame NonVol.writeDir_keeps)

end Sys2Proof.Machine
end

