-- ==== Sys2Proof/Laws/SecurityKeeps.lean ====
section
/-! SUPPORT. The operations of Machine/Security.lean keep what Keeps names. -/

namespace Sys2Proof.Machine

variable {ini : State}

theorem State.kstDone_keeps {s : State} {v : BitVec 64} {err : Nat} (hs : Keeps ini s) :
    Keeps ini (State.kstDone s v err) := by
  unfold State.kstDone
  repeat' first
    | with_reducible assumption
    | simp only [Keeps.mk_iff]
    | with_reducible apply Keeps.other

theorem execKeyWrite_keeps {v : BitVec 64} {s : State} {out : State} (e : execKeyWrite v s = .next out) (hs : Keeps
    ini s) :
    Keeps ini out := by
  unfold execKeyWrite at e
  obtain rfl := Host.Outcome.next.inj e
  repeat' first
    | with_reducible assumption
    | with_reducible refine State.take_keeps (by assumption) ?_
    | with_reducible apply State.kstDone_keeps
    | simp only [Keeps.mk_iff]
    | with_reducible apply Keeps.other
    | with_reducible apply Keeps.ite

theorem execKeyErase_keeps {v : BitVec 64} {s : State} {out : State} (e : execKeyErase v s = .next out) (hs : Keeps
    ini s) :
    Keeps ini out := by
  unfold execKeyErase at e
  obtain rfl := Host.Outcome.next.inj e
  repeat' first
    | with_reducible assumption
    | with_reducible apply State.kstDone_keeps
    | simp only [Keeps.mk_iff]
    | with_reducible apply Keeps.other
    | with_reducible apply Keeps.ite

/-- The transitions that exist never lead to MANUFACTURE and never leave DECOMMISSIONED (21 R622). -/
theorem lifecycleKeys_sound {a b : Nat} (h : lifecycleKeys a b ≠ []) : a ≠ 4 ∧ b ≠ 0 := by
  unfold lifecycleKeys at h
  split at h
  · omega
  · split at h
    · omega
    · split at h
      · omega
      · split at h
        · omega
        · split at h
          · omega
          · exact absurd rfl h

theorem State.lifecycleCheck_sound {s : State} {goal : Nat} {b : List Byte} (h : s.lifecycleCheck goal b = 0) :
    lifecycleKeys s.nv.lifecycle goal ≠ [] := by
  intro e
  unfold State.lifecycleCheck at h
  rw [e] at h
  dsimp only at h
  split at h
  · cases h
  · split at h
    · cases h
    · simp at h

theorem execLifecycleSet_keeps {f : Nat} {s out : State} (e : execLifecycleSet f s = .next out) (hs : Keeps ini s) :
    Keeps ini out := by
  unfold execLifecycleSet at e
  obtain rfl := Host.Outcome.next.inj e
  clear e
  refine State.mbRun_keeps hs fun s hs => ?_
  extract_lets +onlyGivenNames goal c
  split
  · exact State.mbReply_keeps hs
  · rename_i hc
    extract_lets +onlyGivenNames s1 u s2 live s3
    have hk := lifecycleKeys_sound (State.lifecycleCheck_sound (not_not.mp hc))
    have h1 : Keeps s s1 := State.mbReply_keeps (.refl s)
    have h2 : Keeps s s2 := Keeps.mk_iff.mpr h1.other
    have h3 : Keeps s s3 := Keeps.foldl h2 fun _ _ h => State.resetTenant_keeps (State.silence_keeps h)
    have hn : NvKeeps s.nv { s3.nv with lifecycle := goal, count := s3.nv.count + 1, wiping := true } :=
      ⟨h3.nv.svn, h3.nv.identity, h3.nv.count.trans (Nat.le_succ _),
        fun h => absurd h (by have := h3.nv.count; simp only; omega), fun h => absurd h hk.1, fun h => absurd h hk.2, h3.nv.hours⟩
    exact hs.trans ⟨h3.pending, h3.part, h3.drawn, h3.mem, h3.host, hn, h3.errlog, h3.pw⟩

theorem State.wipeAll_keeps {s : State} (hs : Keeps ini s) :
    Keeps ini (State.wipeAll s) := by
  unfold State.wipeAll
  repeat' first
    | with_reducible assumption
    | simp only [Keeps.mk_iff]
    | with_reducible apply Keeps.other
    | with_reducible apply Kept.memEmpty

theorem execLifecycleWipeEnd_keeps {s out : State} (e : execLifecycleWipeEnd s = .next out) (hs : Keeps ini s) :
    Keeps ini out := by
  unfold execLifecycleWipeEnd at e
  obtain rfl := Host.Outcome.next.inj e
  clear e
  refine Keeps.ite hs ?_
  extract_lets +onlyGivenNames s1 live s2 s3
  have h1 : Keeps ini s1 := Keeps.foldl hs fun _ _ h => State.updTile_keeps (State.loseTask_keeps h)
  have h2 : Keeps ini s2 := Keeps.foldl h1 fun _ _ h =>
    State.setTState_keeps (State.freeGrants_keeps (State.updTenant_keeps (State.eraseKeys_keeps h)))
  have h3 : Keeps ini s3 := State.eraseSlots_keeps (State.wipeAll_keeps h2)
  refine State.attn_keeps (h3.trans ?_)
  exact ⟨rfl, rfl, le_rfl, id, id, .same rfl rfl rfl rfl rfl, id, id⟩

theorem execDebugPortOpen_keeps {s : State} {out : State} (e : execDebugPortOpen s = .next out) (hs : Keeps ini s) :
    Keeps ini out := by
  unfold execDebugPortOpen at e
  obtain rfl := Host.Outcome.next.inj e
  repeat' first
    | with_reducible assumption
    | with_reducible apply State.supply_keeps
    | simp only [Keeps.mk_iff]
    | with_reducible apply Keeps.other
    | with_reducible apply Keeps.ite

theorem State.spdmAnswer_keeps {s : State} {code param : Nat} {b : List Byte} (hs : Keeps ini s) :
    Keeps ini (State.spdmAnswer s code param b) := by
  unfold State.spdmAnswer
  repeat' first
    | with_reducible assumption
    | simp only [Keeps.mk_iff]
    | with_reducible apply Keeps.other

theorem State.spdmFree_keeps {s : State} {code param words : Nat} (hs : Keeps ini s) :
    Keeps ini (State.spdmFree s code param words) := by
  unfold State.spdmFree
  repeat' first
    | with_reducible assumption
    | with_reducible apply State.freeBytes_keeps
    | with_reducible apply State.spdmAnswer_keeps

theorem State.spdmError_keeps {s : State} {e : Nat} (hs : Keeps ini s) :
    Keeps ini (State.spdmError s e) := by
  unfold State.spdmError
  repeat' first
    | with_reducible assumption
    | with_reducible apply State.spdmAnswer_keeps

theorem State.spdmServe_keeps {s : State} {code p1 p2 : Nat} (hs : Keeps ini s) :
    Keeps ini (State.spdmServe s code p1 p2) := by
  unfold State.spdmServe
  repeat' first
    | with_reducible assumption
    | with_reducible apply State.spdmError_keeps
    | with_reducible apply State.spdmFree_keeps
    | with_reducible apply State.spdmAnswer_keeps
    | simp only [Keeps.mk_iff]
    | with_reducible apply Keeps.other
    | with_reducible apply Keeps.ite
    | refine Keeps.fst (by assumption) ?_
    | refine Keeps.snd (by assumption) ?_
    | split

theorem execSpdmRequest_keeps {other : Bool} {req : List (BitVec 8)} {s : State} {out : State} (e : execSpdmRequest
    other req s = .next out) (hs : Keeps ini s) :
    Keeps ini out := by
  unfold execSpdmRequest at e
  obtain rfl := Host.Outcome.next.inj e
  repeat' first
    | with_reducible assumption
    | with_reducible apply State.supply_keeps
    | with_reducible apply State.spdmError_keeps
    | with_reducible apply State.spdmAnswer_keeps
    | with_reducible apply State.spdmServe_keeps
    | simp only [Keeps.mk_iff]
    | with_reducible apply Keeps.other
    | with_reducible apply Keeps.ite

end Sys2Proof.Machine
end

