-- ==== Sys2Proof/Laws/RegWriteKeeps.lean ====
section
/-! SUPPORT. The operations of Machine/RegWrite.lean keep what Keeps names. -/

namespace Sys2Proof.Machine

variable {ini : State}

theorem State.mbAreaWrite_keeps {s : State} {f o : Nat} {v m : Word} (hs : Keeps ini s) :
    Keeps ini (State.mbAreaWrite s f o v m) := by
  unfold State.mbAreaWrite
  repeat' first
    | with_reducible assumption
    | with_reducible apply State.updMbox_keeps

theorem State.mbStatusWrite_keeps {s : State} {f : Nat} {v m : Word} (hs : Keeps ini s) :
    Keeps ini (State.mbStatusWrite s f v m) := by
  unfold State.mbStatusWrite
  repeat' first
    | with_reducible assumption
    | with_reducible apply State.updMbox_keeps

theorem State.msixWrite_keeps {s : State} {f vec word : Nat} {v m : Word} (hs : Keeps ini s) :
    Keeps ini (State.msixWrite s f vec word v m) := by
  unfold State.msixWrite
  repeat' first
    | intro _ _
    | intro _
    | with_reducible assumption
    | with_reducible apply nextOr_keeps
    | with_reducible refine execMsixUnmask_keeps (by assumption) ?_
    | simp only [Keeps.mk_iff]
    | with_reducible apply Keeps.other
    | with_reducible apply Keeps.ite

theorem State.bar0Common_keeps {s : State} {f o : Nat} {v m : Word} (hs : Keeps ini s) :
    Keeps ini (State.bar0Common s f o v m) := by
  unfold State.bar0Common
  repeat' first
    | intro _ _
    | intro _
    | with_reducible assumption
    | with_reducible apply State.mbAreaWrite_keeps
    | with_reducible apply nextOr_keeps
    | with_reducible refine execMbDoorbell_keeps (by assumption) ?_
    | with_reducible apply State.mbStatusWrite_keeps
    | with_reducible refine execDoorbell_keeps (by assumption) ?_
    | with_reducible apply Keeps.ite

theorem State.hrgnWrite_keeps {s : State} {f n : Nat} {hi : Bool} {v m : Word} (hs : Keeps ini s) :
    Keeps ini (State.hrgnWrite s f n hi v m) := by
  unfold State.hrgnWrite
  repeat' first
    | with_reducible assumption
    | with_reducible apply State.updTenant_keeps
    | simp only [Keeps.mk_iff]
    | with_reducible apply Keeps.other
    | with_reducible apply Keeps.ite

theorem State.tntWrite_keeps {s : State} {f o : Nat} {v m : Word} (hs : Keeps ini s) :
    Keeps ini (State.tntWrite s f o v m) := by
  unfold State.tntWrite
  repeat' first
    | with_reducible assumption
    | with_reducible apply State.hrgnWrite_keeps
    | with_reducible apply State.updTenant_keeps
    | simp only [Keeps.mk_iff]
    | with_reducible apply Keeps.other
    | with_reducible apply Keeps.ite

theorem State.kstWrite_keeps {s : State} {o : Nat} {v m : Word} (hs : Keeps ini s) :
    Keeps ini (State.kstWrite s o v m) := by
  unfold State.kstWrite
  repeat' first
    | intro _ _
    | intro _
    | with_reducible assumption
    | with_reducible apply nextOr_keeps
    | with_reducible refine execKeyErase_keeps (by assumption) ?_
    | with_reducible refine execKeyWrite_keeps (by assumption) ?_
    | simp only [Keeps.mk_iff]
    | with_reducible apply Keeps.other
    | with_reducible apply Keeps.ite

theorem State.pwrWrite_keeps {s : State} {o : Nat} {v m : Word} (hs : Keeps ini s) :
    Keeps ini (State.pwrWrite s o v m) := by
  unfold State.pwrWrite
  repeat' first
    | exact id
    | intro _ _
    | intro _
    | with_reducible assumption
    | with_reducible apply State.updPw_keeps
    | with_reducible apply nextOr_keeps
    | with_reducible refine execPwrMarginReplan_keeps (by assumption) ?_
    | simp only [Keeps.mk_iff]
    | with_reducible apply Keeps.other
    | with_reducible apply Keeps.ite
    | refine Keeps.fst (by assumption) ?_
    | refine Keeps.snd (by assumption) ?_
    | split

theorem State.bar0Write_keeps {s : State} {f o : Nat} {v m : Word} (hs : Keeps ini s) :
    Keeps ini (State.bar0Write s f o v m) := by
  unfold State.bar0Write
  repeat' first
    | with_reducible assumption
    | with_reducible apply State.msixWrite_keeps
    | with_reducible apply State.bar0Common_keeps
    | with_reducible apply State.tntWrite_keeps
    | with_reducible apply State.kstWrite_keeps
    | with_reducible apply State.pwrWrite_keeps
    | with_reducible apply Keeps.ite

theorem State.configWrite_keeps {s : State} {f o : Nat} {v m : Word} (hs : Keeps ini s) :
    Keeps ini (State.configWrite s f o v m) := by
  unfold State.configWrite
  repeat' first
    | intro _ _
    | intro _
    | with_reducible assumption
    | with_reducible apply nextOr_keeps
    | with_reducible refine execVfEnableClear_keeps (by assumption) ?_
    | with_reducible refine execMsixUnmask_keeps (by assumption) ?_
    | simp only [Keeps.mk_iff]
    | with_reducible apply Keeps.other
    | with_reducible apply Keeps.ite

theorem State.orcWrite_keeps {s : State} {h o : Nat} {v m : Word} (hs : Keeps ini s) :
    Keeps ini (State.orcWrite s h o v m) := by
  unfold State.orcWrite
  repeat' first
    | with_reducible assumption
    | with_reducible apply State.updSlice_keeps
    | simp only [Keeps.mk_iff]
    | with_reducible apply Keeps.other
    | with_reducible apply Keeps.ite
    | refine Keeps.fst (by assumption) ?_
    | refine Keeps.snd (by assumption) ?_
    | split

theorem State.chanWrite_keeps {s : State} {c o : Nat} {v m : Word} (hs : Keeps ini s) :
    Keeps ini (State.chanWrite s c o v m) := by
  unfold State.chanWrite
  repeat' first
    | with_reducible assumption
    | with_reducible apply State.updChan_keeps
    | with_reducible apply State.selfRefDue_keeps
    | simp only [Keeps.mk_iff]
    | with_reducible apply Keeps.other
    | refine Keeps.fst (by assumption) ?_
    | refine Keeps.snd (by assumption) ?_
    | split

theorem State.memRegWrite_keeps {s : State} {o : Nat} {v m : Word} (hs : Keeps ini s) :
    Keeps ini (State.memRegWrite s o v m) := by
  unfold State.memRegWrite
  repeat' first
    | with_reducible assumption
    | with_reducible apply State.chanWrite_keeps
    | simp only [Keeps.mk_iff]
    | with_reducible apply Keeps.other
    | with_reducible apply Keeps.ite

theorem State.cmpRegWrite_keeps {s : State} {o : Nat} {v m : Word} (hs : Keeps ini s) :
    Keeps ini (State.cmpRegWrite s o v m) := by
  unfold State.cmpRegWrite
  repeat' first
    | with_reducible assumption
    | with_reducible apply State.updCmp_keeps
    | simp only [Keeps.mk_iff]
    | with_reducible apply Keeps.other
    | with_reducible apply Keeps.ite

theorem State.brmRegWrite_keeps {s : State} {o : Nat} {v m : Word} (hs : Keeps ini s) :
    Keeps ini (State.brmRegWrite s o v m) := by
  unfold State.brmRegWrite
  repeat' first
    | with_reducible assumption
    | with_reducible apply State.updBrm_keeps
    | simp only [Keeps.mk_iff]
    | with_reducible apply Keeps.other
    | with_reducible apply Keeps.ite

theorem State.cadRegWrite_keeps {s : State} {o : Nat} {v m : Word} (hs : Keeps ini s) :
    Keeps ini (State.cadRegWrite s o v m) := by
  unfold State.cadRegWrite
  repeat' first
    | with_reducible assumption
    | with_reducible apply State.updCad_keeps
    | simp only [Keeps.mk_iff]
    | with_reducible apply Keeps.other
    | with_reducible apply Keeps.ite

theorem State.portCtlWrite_keeps {s : State} {p : Nat} {v m : Word} (hs : Keeps ini s) :
    Keeps ini (State.portCtlWrite s p v m) := by
  unfold State.portCtlWrite
  repeat' first
    | with_reducible assumption
    | with_reducible apply State.updPort_keeps
    | with_reducible apply State.downPort_keeps
    | with_reducible apply State.krlRetrain_keeps
    | simp only [Keeps.mk_iff]
    | with_reducible apply Keeps.other
    | with_reducible apply Keeps.ite

theorem State.krlRegWrite_keeps {s : State} {o : Nat} {v m : Word} (hs : Keeps ini s) :
    Keeps ini (State.krlRegWrite s o v m) := by
  unfold State.krlRegWrite
  repeat' first
    | with_reducible assumption
    | with_reducible apply State.portCtlWrite_keeps
    | with_reducible apply State.updPort_keeps
    | simp only [Keeps.mk_iff]
    | with_reducible apply Keeps.other
    | with_reducible apply Keeps.ite

theorem State.dmaRegWrite_keeps {s : State} {o : Nat} {v m : Word} (hs : Keeps ini s) :
    Keeps ini (State.dmaRegWrite s o v m) := by
  unfold State.dmaRegWrite
  repeat' first
    | with_reducible assumption
    | with_reducible apply State.updDma_keeps
    | simp only [Keeps.mk_iff]
    | with_reducible apply Keeps.other
    | with_reducible apply Keeps.ite

theorem State.euntoWrite_keeps {s : State} {b : DevBlock} {o : Nat} {v m : Word} (hs : Keeps ini s) :
    Keeps ini (State.euntoWrite s b o v m) := by
  unfold State.euntoWrite
  repeat' first
    | with_reducible assumption
    | with_reducible apply State.memRegWrite_keeps
    | with_reducible apply State.cmpRegWrite_keeps
    | with_reducible apply State.brmRegWrite_keeps
    | with_reducible apply State.cadRegWrite_keeps
    | with_reducible apply State.krlRegWrite_keeps
    | with_reducible apply State.dmaRegWrite_keeps
    | refine Keeps.fst (by assumption) ?_
    | refine Keeps.snd (by assumption) ?_
    | split

theorem execRegisterWrite_keeps {port : RegPort} {off bytes : Nat} {val : BitVec 64} {s : State} {out : State} (e :
    execRegisterWrite port off bytes val s = .next out) (hs : Keeps ini s) :
    Keeps ini out := by
  unfold execRegisterWrite at e
  obtain rfl := Host.Outcome.next.inj e
  repeat' first
    | with_reducible assumption
    | with_reducible apply State.bar0Write_keeps
    | with_reducible apply State.configWrite_keeps
    | with_reducible apply State.winStore_keeps
    | with_reducible apply State.orcWrite_keeps
    | with_reducible apply State.euntoWrite_keeps
    | with_reducible apply Keeps.ite
    | refine Keeps.fst (by assumption) ?_
    | refine Keeps.snd (by assumption) ?_
    | split

end Sys2Proof.Machine
end

