-- ==== Sys2Proof/Tests/Slice0.lean ====
section
/-! SUPPORT. Small tests: ill-formed commands are refused, what a few commands do on small states by the spec's own numbers, and states
that meet the hypotheses of the obligations. -/

namespace Sys2Proof.Tests
set_option Elab.async false
open Sys2Proof Sys2Proof.Machine

/-- The state that a command answers. -/
def after (i : Instr) (s : State) : State := nextOr s (exec i s)

/-! ### Well-formed commands -/

theorem test_ill_formed_units :
    (Instr.add 96 1 2 3).wellFormed = false ∧ (Instr.doorbell 64 0 0).wellFormed = false ∧ (Instr.doorbell 0 16 0).wellFormed = false ∧
    (Instr.msixUnmask 0 65).wellFormed = false ∧ (Instr.pipelineExpand 0 32 0).wellFormed = false ∧ (Instr.pipelineExpand 0 0 16).wellFormed = false ∧
    (Instr.eventPulse 0 64).wellFormed = false ∧ (Instr.triggerPulse 0 8).wellFormed = false ∧ (Instr.laneFail 8 0).wellFormed = false ∧
    (Instr.laneFail 0 4).wellFormed = false ∧ (Instr.refresh 32 0).wellFormed = false ∧ (Instr.refresh 0 32).wellFormed = false ∧
    (Instr.cmpJobStart 16).wellFormed = false ∧ (Instr.brmJobStart 4).wellFormed = false ∧ (Instr.brmVec 0 0 128 1).wellFormed = false ∧
    (Instr.actionDue 1024).wellFormed = false ∧ (Instr.suspendSave 4).wellFormed = false ∧ (Instr.sliceRemoval 96).wellFormed = false ∧
    (Instr.fenceMessage 97 0).wellFormed = false ∧ (Instr.moduleLoss 4).wellFormed = false ∧ (Instr.phaseShed 8 0).wellFormed = false ∧
    (Instr.phaseShed 0 6).wellFormed = false := by decide +kernel

theorem test_ill_formed_values :
    (Instr.rdS 256 0).wellFormed = false ∧ (Instr.rdS 0 (2 ^ 58)).wellFormed = false ∧ (Instr.snpInv (2 ^ 50)).wellFormed = true ∧
    (Instr.data 128 0).wellFormed = false ∧ (Instr.bar2Access 0 0 65 none).wellFormed = false ∧ (Instr.bar2Access 0 0 0 none).wellFormed = false ∧
    (Instr.thermalTrip 0 104).wellFormed = false ∧ (Instr.overVoltage 18500).wellFormed = false ∧ (Instr.underVoltage 4500).wellFormed = false ∧
    (Instr.powerGood 20001).wellFormed = false ∧ (Instr.moduleWarmReset [0, 0, 0, 0, 0] 0).wellFormed = false ∧
    (Instr.sliceFault 0 0 0).wellFormed = false ∧ (Instr.sliceFault 0 4 0).wellFormed = false ∧ (Instr.registerWrite (.bar0 0) 0 3 0).wellFormed = false ∧
    (Instr.linkUp 8 16 true true).wellFormed = false ∧ (Instr.linkUp 64 2 true true).wellFormed = false ∧ (Instr.spdmRequest false [0]).wellFormed = false := by decide +kernel

theorem test_well_formed_bounds :
    (Instr.add 95 1 2 3).wellFormed = true ∧ (Instr.doorbell 63 15 0).wellFormed = true ∧ (Instr.msixUnmask 63 64).wellFormed = true ∧
    (Instr.rdS 255 (2 ^ 58 - 1)).wellFormed = true ∧ (Instr.bar2Access 63 0 64 none).wellFormed = true ∧ (Instr.data 127 0).wellFormed = true := by decide +kernel

/-! ### The machine -/

theorem test_step_front : step { State.reset with pending := [.refReturn, .refLoss] } = exec .refReturn { State.reset with pending := [.refLoss] } := rfl

theorem test_step_idle : step State.reset = .next State.reset := rfl

theorem test_no_word_spells_a_command : decodeTableWord 32 0 = none ∧ State.reset.withFetchWord 32 0 = State.reset := ⟨rfl, rfl⟩

/-! ### Quill -/

/-- A core that may execute anywhere below 256 MiB. -/
def core0 : Core := { released := true, rgnLo := [(0, 0xF)], rgnHi := [(0, 0xFFFF000)] }

/-- The same in task mode. -/
def coreT : Core := { core0 with qstat := 0 }

/-- A device with one tile whose core is c; L1I holds its first line, L1D line 4 in E. -/
def quill (c : Core) : State :=
  { tiles := [(0, { core := c, l1 := { i := [(0, { line := 0, data := 0 })], d := [(32, { line := 4, st := .e, data := 0x8877665544332211 })] } })],
    dstate := .ready, pw := { supply := .up } }

theorem runs_runtime : Runs (quill core0) 0 := by constructor <;> decide
theorem runs_task : Runs (quill coreT) 0 := by constructor <;> decide
theorem outside_slot_and_handler : ¬(quill core0).inSlot 0 ∧ ((quill core0).core 0).exl = false ∧ ((quill core0).core 0).held = false ∧
    ((quill core0).core 0).runtime = true ∧ ((quill coreT).core 0).runtime = false := by
  unfold State.inSlot
  decide

theorem test_add_wraps :
    ((after (.add 0 3 1 2) (quill { core0 with g := [(1, 0xFFFFFFFFFFFFFFFF), (2, 2)] })).core 0).readG 3 = 1 := by decide +kernel

theorem test_g0_discards : ((after (.addi 0 0 0 5) (quill core0)).core 0).readG 0 = 0 ∧ ((after (.addi 0 0 0 5) (quill core0)).core 0).pc = 4 := by decide +kernel

theorem test_div_min : ((after (.div 0 3 1 2) (quill { core0 with g := [(1, 0x8000000000000000), (2, 0xFFFFFFFFFFFFFFFF)] })).core 0).readG 3
    = 0x8000000000000000 := by decide +kernel

theorem test_div_zero : ((after (.div 0 3 1 2) (quill { core0 with g := [(1, 7)], qvbase := 0x100 })).core 0).pc = 0x100 := by decide +kernel

/-- A task-mode write of a control register is not allowed, and 0x0FF names none. -/
theorem hyps_control_registers : crAssigned 0x0FF = false ∧ crAssigned 0x002 = true ∧ crTaskReadable 0x002 = false ∧
    ((quill coreT).core 0).held = false := by decide +kernel

/-- An interrupt that is enabled and pending. -/
def interrupted : State := quill { core0 with qctl := 0x21, qipend := 2 }
theorem hyps_interrupt_entry : interrupted.tileOn 0 = true ∧ (interrupted.core 0).released = true ∧ interrupted.pw.pstate = 0 ∧ interrupted.isolated 0 = false ∧
    (interrupted.core 0).stall = none ∧ (interrupted.core 0).intrReady = true := by decide +kernel

theorem test_interrupt : ((after (.interrupt 0) interrupted).core 0).qcause.toNat % 256 = 8 ∧ ((after (.interrupt 0) interrupted).core 0).exl = true := by decide +kernel

theorem hyps_fence : State.goPend (quill core0) = [] ∧ ({ quill core0 with goPend := [2 ^ 50] } : State).goPend ≠ [] := by decide +kernel

theorem hyps_sound_l1 : (quill core0).soundL1 0 ∧ ((quill core0).tile 0).l1.ctl.getLsbD 9 = false := by
  unfold State.soundL1
  decide

/-! ### Loads, stores, atomics -/

theorem hyps_access_hits : (core0.dataExc 0x100 8 8 .load = none ∧ core0.dataExc 0x107 1 1 .store = none ∧ core0.dataExc 0x100 8 8 .atomic = none) ∧
    space 0x100 ≤ 1 ∧ lineOf 0x100 = 4 ∧ (((quill core0).tile 0).l1.dLine 4).map (·.st) = some .e := by decide +kernel

theorem test_load_signed : ((after (.ld 0 0 false 3 0 0x107) (quill core0)).core 0).readG 3 = 0xFFFFFFFFFFFFFF88 := by decide +kernel

theorem test_store_byte : (((after (.st 0 0 3 0 0x101) (quill { core0 with g := [(3, 0xFF)] })).tile 0).l1.dLine 4).map (fun l => (l.st, l.data)) =
    some (.d, 0x887766554433FF11) := by decide +kernel

theorem test_nadd_saturates : (((after (.nadd 0 4 2 3) (quill { core0 with g := [(2, 0x100), (3, 0xFF01)] })).tile 0).l1.dLine 4).map (·.data)
    = some 0x887766554433FF12 := by decide +kernel

/-- What the checks of an access refuse: the control window, a misaligned address, an address that no entry covers. -/
theorem hyps_access_traps : space 0xFF00000000000000 = 0xFF ∧ (0x101 : Word).toNat % 8 ≠ 0 ∧ space 0x101 ≠ 0xFF ∧
    (∀ p ∈ coreT.rgnLo, regionHit p.2 (coreT.rgnHi.getD p.1 0) 0x20000000 8 1 = false) ∧ coreT.exl = false ∧ coreT.held = false := by decide +kernel

/-- Line 5 is not held. -/
theorem hyps_miss : ((quill core0).tile 0).l1.dLine 5 = none ∧ core0.dataExc 0x140 8 8 .load = none ∧ core0.dataExc 0x140 8 8 .store = none ∧
    core0.dataExc 0x140 8 8 .atomic = none := by decide +kernel

theorem test_miss_blocks : ((after (.ld 0 3 false 3 0 0x140) (quill core0)).core 0).stall = some (.ld 0 3 false 3 0 0x140) := by decide +kernel

theorem hyps_cache_operations : ((quill core0).tile 0).l1.reqs = [] ∧ ((quill core0).tile 0).l1.vbuf = [] ∧ ((quill core0).tile 0).l1.pfCount < 4 ∧
    core0.regionOk 0x140 1 1 = true ∧ core0.regionOk 0x20000000 1 1 = false := by decide +kernel

/-! ### Vectors -/

/-- VL 16 at EW 8; V1 and V2 hold values. -/
def coreV : Core := { core0 with vl := 16, ew := 1, v := [(1, 0xFF), (2, 0x02)] }

theorem test_vadd_wraps_in_its_element : ((after (.vadd 0 false false 3 1 2) (quill coreV)).core 0).readV 3 = 1 := by decide +kernel
theorem test_vcmpltu : ((after (.vcmpltu 0 false false 3 2 1) (quill coreV)).core 0).readV 3 = 1 := by decide +kernel
theorem hyps_widths : ewBits coreV.ew = 8 ∧ ewBits ({ coreV with ew := 3 } : Core).ew = 32 ∧ (4 : Reg).toNat % 2 = 0 ∧ (5 : BitVec 3).toNat ≥ 5 := by decide +kernel
theorem test_setvl : ((after (.setvl 0 3 4 2) (quill { core0 with g := [(4, 100)] })).core 0).vl = 8 := by decide +kernel

/-- A vector load and store of one element of line 4. -/
theorem hyps_vector_memory : let c : Core := { coreV with vl := 1, g := [(4, 0x100)] }
    c.vmemRuns 0 0 3 = true ∧ vmemOk false 0 0 3 0 true = true ∧ vmemOk false 0 0 3 0 false = true ∧
    (∀ x ∈ c.vaccs false 0 0 4 0, space x.addr ≤ 1 ∧ lineOf x.addr.toNat = 4) ∧ c.vfault 1 1 .load (c.vaccs false 0 0 4 0) = none ∧
    c.vfault 1 1 .store (c.vaccs false 0 0 4 0) = none ∧ (c.vaccs false 0 0 4 0).length = 1 := by decide +kernel

/-! ### Rings -/

/-- Bytes of a submission entry with OWN set, of an opcode. -/
def entryOf (op : Nat) : List Byte := [BitVec.ofNat 8 op, 0, 0, 0x80] ++ zeros 60

/-- Pair 0 of function 1: rings of 16 at host addresses 0 and 0x1000, one entry announced. -/
def pair0 : QPair := { vector := 1, coalesce := 0, sqBase := 2 ^ 56, sqN := 16, cqBase := 2 ^ 56 + 0x1000, cqN := 16, p := 1 }

/-- A device with that pair, whose submission slot 0 and completion slot 0 belong to the device; cell values may be 0. -/
def ringsOf (x : QPair) (own : Bool) : State :=
  { hostMem := if own then [(3, 0x80), (0x1005, 0x80)] else [], tenants := [(1, { tstate := .active, pairs := [(0, x)] })], dstate := .ready,
    pw := { supply := .up } }

theorem hyps_doorbell_and_fetch :
    ((ringsOf pair0 true).pair 1 0).isSome = true ∧ (ringsOf pair0 true).pair 1 1 = none ∧ pair0.fetches = true ∧ pair0.deleting = none ∧
    ((16 : BitVec 32).truncate 16 - pair0.c).toNat ≤ pair0.sqN ∧ pair0.sqN < ((17 : BitVec 32).truncate 16 - pair0.c).toNat ∧
    128 ≤ getLE ((ringsOf pair0 true).readBytes pair0.slotAddr 64).1 3 1 ∧ getLE ((ringsOf pair0 false).readBytes pair0.slotAddr 64).1 3 1 < 128 := by
  decide +kernel

theorem test_doorbell_too_far : (((after (.doorbell 1 0 17) (ringsOf pair0 true)).pair 1 0).map (·.state)) = some .errorDoorbell := by decide +kernel
theorem test_own_clear_twice : (((after (.ownRecheck 1 0) (after (.submissionFetch 1 0) (ringsOf pair0 false))).pair 1 0).map (·.state))
    = some .errorOwn := by decide +kernel

/-- A ring command of function 1 on pair 0, fetched and ready or running. -/
def workOf (op : Nat) (st : WStage) : Work := { f := 1, q := 0, raw := entryOf op, tick := 0, stage := st }
def withWork (op : Nat) (st : WStage) : State := { ringsOf pair0 true with works := [(0, workOf op st)] }

theorem hyps_ring_commands_begin : (∀ op ∈ [0, 1, 2, 3, 4, 5, 6, 7, 8, 9, 0x0A], (workOf op .ready).opcode = op ∧
    (withWork op .ready).mayStart 0 (workOf op .ready) = true) ∧ (withWork 1 .ready).freeQslot 1 = some 0 ∧ (workOf 1 .ready).param = [] ∧
    (withWork 4 .ready).colBad (workOf 4 .ready) ≠ some (0, 0) ∧ (workOf 3 .running).stage = .running ∧ (withWork 8 .ready).cmpPick 1 0 = none := by
  decide +kernel

theorem test_nop_completes : ((after (.nop 0) (withWork 0 .ready)).pair 1 0).map (fun x => (x.t, x.waiting.length)) = some (0, 1) := by decide +kernel

theorem hyps_delayed : ((withWork 1 .delayed).delayedOf 1).map (·.1) = [0] ∧ ((withWork 1 .delayed).tenant 1).underGuar = false ∧
    ({ withWork 1 .delayed with now := 1000, tiles := [(0, { core := { core0 with wait := some { rd := 1, start := 0, timeout := 0 } }, bind := { idleSince := some 0 } })] } : State).deviceIdle = true := by
  decide +kernel

/-- A completion that waits, and a message held back. -/
def cpl0 : Cpl := { tag := 0, status := 0, disp := 0, cflags := 0, count := 1, qtime := 0, info := 0, noirq := false }
def waiting0 : QPair := { pair0 with waiting := [cpl0], msgHeld := true }
theorem hyps_completions : 128 ≤ getLE ((ringsOf waiting0 true).readBytes (waiting0.cqBase + 5) 1).1 0 1 ∧ waiting0.waiting = [cpl0] ∧ pair0.waiting = [] ∧
    (((ringsOf waiting0 true).writeCompletion 1 0).pair 1 0).map (fun y => y.t) = some (waiting0.t + 1) ∧ waiting0.msgHeld = true := by decide +kernel

theorem test_unmask_sends : ((after (.msixUnmask 1 2) ({ host := { pba := [66], fnUnmasked := [1] } } : State)).host.sent) = [66] := by decide +kernel

theorem hyps_ended_command : (withWork 0 .ready).works.find? 0 = some (workOf 0 .ready) ∧ (workOf 0 .ready).result = none ∧ (workOf 0 .ready).silent = false ∧
    (workOf 0 .ready).stopped = false ∧ pair0.batch = [] ∧ pair0.batches = [] := by decide +kernel

/-! ### Images and tasks -/

/-- An operator record: opcode, flags, input, output fields, object, parameter length, OPT, COUNT; its parameters stand at 0x80 of the pool and its
schema at 0. -/
def opRec (code flags in0 nout obj plen opt count : Nat) : List Byte :=
  leBytes 1 code ++ leBytes 1 flags ++ leBytes 2 in0 ++ leBytes 2 0 ++ leBytes 1 0 ++ leBytes 1 nout ++ leBytes 4 0 ++ leBytes 4 obj ++ leBytes 4 0x80
    ++ leBytes 4 plen ++ leBytes 4 0 ++ leBytes 4 1 ++ leBytes 8 opt ++ leBytes 8 count ++ zeros 16

/-- A section-table entry. -/
def sectRec (type off len : Nat) : List Byte := leBytes 2 type ++ leBytes 2 0 ++ leBytes 4 off ++ leBytes 4 len ++ leBytes 4 0

/-- An image of one pipeline with these operators. The pool holds a schema of two 8-bit fields and, at 0x80, the parameters. -/
def imgWith (ops : List (List Byte)) (params : List Byte) : List Byte :=
  padTo 0x40 (zeros 12 ++ leBytes 2 3 ++ leBytes 1 1) ++ sectRec 1 0x70 8 ++ sectRec 2 0x78 (64 * ops.length)
    ++ sectRec 4 (0x78 + 64 * ops.length) (0x80 + params.length)
    ++ leBytes 2 0 ++ leBytes 1 ops.length ++ zeros 5 ++ ops.flatten ++ padTo 0x80 ([8, 0, 0, 0, 0, 0, 0, 0, 8, 0, 0, 0, 0, 0, 0, 0]) ++ params

/-- A batch of two rows of two fields. -/
def batch0 : Batch := { rows := [{ morsel := 0, row := 0, vals := [some 5, some 7] }, { morsel := 0, row := 1, vals := [some 9, none] }] }

/-- Tile 0 of tenant 1 runs a task over the image's operators, and stands at operator i with these batches. -/
def taskAt (raw : List Byte) (last i : Nat) (bs : List Batch) : State :=
  { tiles := [(0, { core := core0, bound := some 1, task := some { f := 1, desc := 0, op := i, batches := bs } })], dstate := .ready, pw := { supply := .up },
    tenants := [(1, {
      tstate := .active, alloc := [{ base := 0x1000000, len := 0x1000000 }], images := [(0, { addr := 0x1400000, scratch := 0x1500000, raw })],
      ent := { memBytes := 0x1000000, tileGuar := 1, tileBurst := 2, queries := 1 },
      queries := [(0, { qseq := 0, image := 0, prio := 0, work := 0 })],
      disp := { tasks := [(0, {
        qslot := 0, qseq := 0, image := 0, pipe := 0, opFirst := 0, opLast := last, morsel := 0, prio := 0, once := false, spec := false, stage := 0, pips := 0,
        at_ := .running })] } })],
    works := [(0, workOf 1 .running)] }

/-- Two operators: a LIMIT of one row and an EMIT. -/
def img0 : List Byte := imgWith [opRec 0x0C 4 0xFFFF 2 0 0 0 1, opRec 0x12 0 0 2 0 16 0 0] (zeros 16)

theorem hyps_expansion : ((taskAt img0 1 0 []).tenant 1).queries.find? 0 ≠ none ∧ (imgPipes ((taskAt img0 1 0 []).rawOf 1 0)).length = 1 ∧
    ((taskAt img0 1 0 []).query 1 0).failed = none ∧ ((((taskAt img0 1 0 []).query 1 0).pipes).getD 0 {}).begun = false := by decide +kernel

/-- A tenant with one entry in spill ring 0, and one with none. -/
theorem hyps_refill : (∃ k < 8, ({ spill := [(0, [{ desc := 3, qslot := 0, epoch := 0 }])] } : Disp).ring k ≠ []) ∧ ({} : Disp).onchipUsed + 64 ≤ 128 ∧
    (∀ k < 8, ({} : Disp).ring k = []) := by decide +kernel

/-- A core that waits in WAITTASK on a tile of tenant 1, whose ready list 0 holds task 0. -/
def waitingTile : State :=
  { quill core0 with
    tiles := [(0, { core := { core0 with wait := some { rd := 3, start := 0, timeout := 5 } }, bound := some 1, bind := { idleSince := some 0 } })]
    tenants := [(1, {
      tstate := .active, ent := { tileGuar := 1, tileBurst := 2 },
      disp := { areaBase := 0x2000000, onchip := [(0, [0])], tasks := [(0, {
        qslot := 0, qseq := 0, image := 0, pipe := 0, opFirst := 0, opLast := 0, morsel := 0, prio := 0, once := false, spec := false, stage := 0, pips := 0,
        at_ := .ready })] } })] }

theorem hyps_waiting_cores : (waitingTile.tile 0).bound = some 1 ∧ (waitingTile.core 0).wait.isSome = true ∧ (waitingTile.tile 0).bind.next = none ∧
    (waitingTile.tile 0).task = none ∧ waitingTile.tileOn 0 = true ∧ 0 ∉ waitingTile.rel.fenced ∧ (waitingTile.disp 1).nextPrio = some 0 ∧
    (waitingTile.disp 1).onchip.getD 0 [] = [0] ∧ ((waitingTile.taskOf 1 0).map (·.once)) = some false := by decide +kernel

theorem test_task_assign : ((after (.taskAssign 0) waitingTile).core 0).readG 3 = 0x2001000 ∧ ((after (.taskAssign 0) waitingTile).tile 0).dsp.wstat = 1 := by
  decide +kernel

theorem test_waittask_timeout : ((after (.waittaskTimeout 0) waitingTile).core 0).wait = none ∧ ((after (.waittaskTimeout 0) waitingTile).tile 0).dsp.wstat = 3 := by
  decide +kernel

/-- The task of the tile has run its two operators. -/
theorem hyps_task_ends : ((taskAt img0 1 2 []).runOf 0 0x1000).isSome = true ∧ (taskAt img0 1 2 []).runOf 0 0x1040 = none ∧
    ((taskAt img0 1 2 []).query 1 0).failed = none ∧ (((taskAt img0 1 2 []).taskOf 1 0).map (fun k => (taskAt img0 1 2 []).pastCut 1 k)) = some false := by decide +kernel

/-- A Pip in flight to a waiting task, an event pulse, and an allocated flag. -/
def arriving : State :=
  { waitingTile with
    pips := [{ f := 1, desc := 0, port := 2, epoch := 0, value := 9 }], pulses := [{ f := 1, trig := false, idx := 3, epoch := 0 }]
    tenants := waitingTile.tenants.map (fun p => (p.1, { p.2 with disp := { p.2.disp with
      allocd := 8, onchip := [], tasks := p.2.disp.tasks.map (fun k => (k.1, { k.2 with at_ := .waiting, pips := 4 })) } })) }

theorem hyps_pips_and_flags : ((arriving.pips.filter (fun x => x.f == 1))[0]?).isSome = true ∧ (arriving.taskOf 1 0).map (fun k => (k.at_, k.present)) = some (.waiting, 0) ∧
    arriving.taskOf 1 1 = none ∧ (pickFirst (fun (p : Pulse) => p.f == 1 && !p.trig && p.idx == 3) arriving.pulses).isSome = true ∧
    (arriving.disp 1).allocd.getLsbD 3 = true ∧ (arriving.disp 1).allocd.getLsbD 0 = false ∧ (∀ p ∈ (arriving.disp 1).tasks, p.2.fmask = 0) ∧
    (arriving.query 1 0).cancelled = false := by decide +kernel

theorem test_pip : ((after (.pipArrive 1 0) arriving).taskOf 1 0).map (fun k => k.present) = some 4 := by decide +kernel
theorem test_flag_alloc : ((after (.dspFlagalloc 0 5) arriving).core 0).readG 5 = 0 := by decide +kernel

/-- Tile 1 is free, tile 0 idles within the guarantee of tenant 2; tenant 1 has ready tasks. -/
def bindings : State :=
  { waitingTile with tiles := [(0, { core := { core0 with wait := some { rd := 3, start := 0, timeout := 0 } }, bound := some 2 })]
                     tenants := (2, { tstate := .active, ent := { tileGuar := 1, tileBurst := 1 } }) :: waitingTile.tenants }
theorem hyps_tile_binding : bindings.tileOn 1 = true ∧ bindings.tileFree 1 = true ∧ bindings.taker (bindings.tile 1).bound = some 1 ∧
    (bindings.tile 0).bound = some 2 ∧ bindings.held 2 ≤ (bindings.tenant 2).ent.tileGuar ∧ bindings.taker (some 2) = some 1 ∧ 0 ∉ bindings.rel.fenced := by decide +kernel

/-- A tile lent from tenant 1, which has ready tasks and holds no tile; and one that is being rebound. -/
def lent : State := { waitingTile with tiles := [(0, { core := core0, bound := some 2, bind := { lentBy := some 1 } }), (1, { bind := { next := some (some 2) } })] }
theorem hyps_reclaim_and_ack : (lent.tile 0).bind.lentBy = some 1 ∧ lent.hasReady 1 = true ∧ lent.held 1 < (lent.tenant 1).ent.tileGuar ∧
    (lent.tile 1).bind.next = some (some 2) ∧ (lent.tile 1).stroke.blot = [] := by decide +kernel

/-! ### Stroke -/

/-- Host memory with these bytes from an offset. -/
def hostBytes (o : Nat) (l : List Byte) : List Host.Cell := (l.zipIdx.map (fun x => (o + x.2, x.1))).filter (fun x => x.2 != 0)

/-- A header of one plane of 4 rows whose Nibs are all 5; no nulls. -/
def hdrBody : List Byte :=
  leBytes 4 0x31464353 ++ [1, 1, 0, 0] ++ leBytes 4 4 ++ leBytes 4 0 ++ leBytes 4 1 ++ leBytes 4 0 ++ leBytes 8 5 ++ leBytes 8 0 ++ leBytes 8 15
    ++ leBytes 8 0 ++ leBytes 4 0
def hdrImage : List Byte := hdrBody ++ leBytes 4 (crc32c (hdrBody ++ zeros 4))

/-- A tile whose Stroke unit names that segment, in compare mode, kind 0 against a constant. -/
def strokeOf (ctl : BitVec 32) (c : Word) (run : Option Run) (blot : Tab BlotEnt) : State :=
  { hostMem := hostBytes 0 hdrImage, tiles := [(0, { core := coreT, bound := some 1, stroke := {
      ctl, pred := 2, seg := 0x100000000000000, consts := [(0, c)], run, blot, stat := if run.isSome then 1 else 0 } })], dstate := .ready, pw := { supply := .up } }

theorem hyps_stroke_run_begins :
    let s := strokeOf 0 5 none []
    let k := s.stroke 0
    k.busy = false ∧ (s.readBytes k.addr 64).2 = false ∧ (s.readBytes (k.addr + 0x40) 128).2 = false ∧
    hdrCheck (s.readBytes k.addr 64).1 (s.readBytes (k.addr + 0x40) 128).1 = none ∧ k.mode = 0 ∧ (∀ x ∈ (List.range k.slots).map k.kind, x ≤ 5) ∧
    k.ctl.getLsbD 3 = false ∧ ((strokeOf 0xA0 5 none []).stroke 0).mode = 5 ∧
    ((strokeOf 0x20 5 none []).stroke 0).mode = 1 ∧ (parseHdr (s.readBytes k.addr 64).1).xform = 0 ∧ (parseHdr (s.readBytes k.addr 64).1).nulls = 0 := by
  decide +kernel

/-- Rows of the value 5 against the constant 5: one pass decides them as equal (R58), and no other order of Nibs does. -/
def run0 : Run := { hdr := parseHdr hdrImage, rows := [{}, {}] }

theorem test_start_and_pass :
    (((after (.start 0) (strokeOf 0 5 none [])).stroke 0).run.map (fun r => (r.plane, r.rows.length))) = some (0, 4) ∧
    (((after (.strokePass 0) (strokeOf 0 5 (some run0) [])).stroke 0).run.map (fun r => r.rows.map (fun x => x.slot 0))) = some [3, 3] ∧
    (((after (.strokePass 0) (strokeOf 0 6 (some run0) [])).stroke 0).run.map (fun r => r.rows.map (fun x => x.slot 0))) = some [1, 1] := by decide +kernel

theorem hyps_stroke_pass_and_end :
    let k := (strokeOf 0 5 (some run0) []).stroke 0
    k.passDue run0 = true ∧ k.passDue { run0 with plane := 1 } = false ∧ run0.hdr.nulls = 0 ∧ k.selAddr.getLsbD 0 = false ∧ k.ctl.getLsbD 4 = false ∧
    ((strokeOf 0 5 (some run0) []).planeNibs k.addr run0.hdr 0 (k.live run0)).2 = (false, 0) ∧
    ((strokeOf 0x20 5 none []).stroke 0).passDue { run0 with cand := [0] } = true ∧ ((strokeOf 0x40 5 none []).stroke 0).mode = 2 ∧
    ((strokeOf 0x80 5 none []).stroke 0).passDue run0 = false := by decide +kernel

/-- A column of one stored plane: MIN has a pass due while two candidates are left. -/
theorem hyps_stroke_min : ((strokeOf 0x40 5 none []).stroke 0).passDue { hdr := { run0.hdr with presence := 2 }, rows := [], cand := [0, 1] } = true ∧
    ((strokeOf 0x60 5 none []).stroke 0).passDue { hdr := { run0.hdr with presence := 2 }, rows := [], cand := [0, 1] } = true ∧
    ((strokeOf 0x40 5 none []).planeNibs ((strokeOf 0x40 5 none []).stroke 0).addr { run0.hdr with presence := 2 } 0 [0]).2 = (false, 4) := by decide +kernel

theorem test_abort : field ((after (.stkAbort 0) (strokeOf 0 5 (some run0) [])).stroke 0).stat 8 8 = 5 ∧
    ((after (.stkAbort 0) (strokeOf 0 5 (some run0) [(0, { row := 1, tag := 0 })])).stroke 0).blot = [] := by decide +kernel

theorem hyps_blotter_release : ((strokeOf 0 5 none [(0, { row := 1, tag := 0, st := .confirmed })]).stroke 0).busy = false ∧
    ((strokeOf 0 5 none []).core 0).held = false ∧
    (∀ e ∈ ((strokeOf 0 5 none [(0, { row := 1, tag := 0, st := .confirmed })]).stroke 0).blot, e.2.st = .confirmed ∧ e.2.fault = none) := by decide +kernel

/-! ### Operators -/

/-- Object 1 of tenant 1: a column of four rows, all 5, in the segment of `hdrImage`. -/
def colMem : List Host.Cell :=
  hostBytes 0x1000040 ({ objId := 1, nplanes := 1, xform := 0, scale := 0, flags := 0, rows := 4, segTable := 0x1000100, segCap := 1, segCount := 1, dictId := 0 } : ObjDesc).bytes ++ hostBytes 0x1000100 (leBytes 8 0x1000200) ++ hostBytes 0x1000200 hdrImage

/-- One module of 32 GiB whose first GiB is mapped at device address 0, with these bytes. -/
def memOf (c : List Host.Cell) : Mem := { cells := c, modules := [(0, { present := true, usable := true, gib := 32 })], mapLo := [(0, 0x40001)] }

/-- The task of tile 0 stands at an operator, its first, with a parameter block, OPT and COUNT, and these batches. -/
def opAt (code nout opt count : Nat) (params : List Byte) (bs : List Batch) : State :=
  let s := taskAt (imgWith [opRec code 0 0xFFFF nout 1 params.length opt count] params) 0 0 bs
  { s with mem := memOf colMem, tiles := s.tiles.map (fun p => (p.1, { p.2 with task := p.2.task.map (fun r => { r with drive := some 4 }) })) }

/-- The same at its second operator, after one of another opcode, of which its input comes. -/
def opAfter (first code nout opt count : Nat) (params : List Byte) (bs : List Batch) : State :=
  let s := taskAt (imgWith [opRec first 0 0xFFFF 2 0 0 1 1, opRec code 0 0 nout 1 params.length opt count] params) 1 1 bs
  { s with mem := memOf colMem, tiles := s.tiles.map (fun p => (p.1, { p.2 with task := p.2.task.map (fun r => { r with drive := some 4 }) })) }

/-- The state of a task made later, of a kind and a word. -/
def special (k w : Nat) (s : State) : State :=
  { s with tenants := s.tenants.map (fun p => (p.1, { p.2 with disp := { p.2.disp with tasks := p.2.disp.tasks.map (fun q => (q.1, { q.2 with special := some (k, w) })) } })) }

/-- A test of the context in which tile 0 runs an operator. -/
def ctxIs (s : State) (code : Nat) (kind : Option Nat) (p : OpCtx → Bool) : Bool := match s.opCtx 0 code kind with | some c => p c | none => false

/-- A step brings the task of tile 0 to its next operator with no failure, and what batches it then has. -/
def stepped (i : Instr) (s : State) : Option (Nat × Option Nat × List Batch) :=
  ((after i s).tile 0).task.map (fun r => (r.op, r.fail, r.batches))

/-- A scan entry that projects object 1 to field 0, with a predicate: equal to a constant. -/
def scanRec (fl field c : Nat) : List Byte := leBytes 4 1 ++ leBytes 1 fl ++ leBytes 1 field ++ leBytes 2 2 ++ leBytes 2 0 ++ zeros 6 ++ leBytes 8 c ++ zeros 24


theorem hyps_scan_objects :
    let s := opAt 1 1 0 0 (scanRec 3 0 5) []
    ctxIs s 1 none (fun c => c.o.optAt 1 1 == 0 && c.o.optAt 2 1 == 0 && (s.stroke 0).busy == false && c.run.drive.isSome) = true ∧
    stepped (.scan 0) s = some (1, none, [{ morsel := 0, rows := (List.range 4).map (fun i => { morsel := 0, row := i, vals := [some 5] }) }]) ∧
    stepped (.scan 0) (opAt 1 1 0 0 (scanRec 3 0 6) []) = some (1, none, [{ morsel := 0, rows := [] }]) := by decide +kernel

/-- The other forms of SCAN: an Arrow array of two rows in device memory, and the result of a sort. -/
def arrowBlk : List Byte := leBytes 8 2 ++ leBytes 8 0 ++ zeros 8 ++ leBytes 8 0x1000200 ++ leBytes 8 0

theorem hyps_scan_others :
    let s := opAt 1 1 4 0 arrowBlk []
    ctxIs s 1 none (fun c => c.o.optAt 1 1 == 0 && c.o.optAt 2 1 == 1 && (s.arrowField c.f (cut c.blk 16 24) (c.out.getD 0 noField) 0 2).isRight) = true ∧
    stepped (.scan 0) s = some (1, none, [{ morsel := 0, rows := [{ morsel := 0, row := 0, vals := [some 0x53] }, { morsel := 0, row := 1, vals := [some 0x43] }] }]) ∧
    ctxIs (taskAt (imgWith [opRec 5 0 1 2 0 0 0x20001 1, opRec 1 0 0xFFFF 2 0 0 2 0] []) 1 1 []) 1 none (fun c => c.o.optAt 1 1 == 1 &&
      ((taskAt (imgWith [opRec 5 0 1 2 0 0 0x20001 1, opRec 1 0 0xFFFF 2 0 0 2 0] []) 1 1 []).brkSchema c.f c.q c.o.obj).map (fun x => (x.width, x.xform, x.scale, x.dict)) ==
        c.out.map (fun x => (x.width, x.xform, x.scale, x.dict))) = true := by decide +kernel

/-- FILTER, PROJECT, TOPK and LIMIT on two rows (5, 7) and (9, null). -/
theorem test_filter : stepped (.filter 0) (opAfter 1 2 2 0 0 (scanRec 2 0 5) [batch0]) = some (2, none, [{ batch0 with rows := batch0.rows.take 1 }]) := by decide +kernel

theorem test_project : stepped (.project 0) (opAfter 1 3 2 0 0 ([1, 0] ++ zeros 14) [batch0]) =
    some (2, none, [{ batch0 with rows := [{ morsel := 0, row := 0, vals := [some 7, some 5] }, { morsel := 0, row := 1, vals := [none, some 9] }] }]) := by decide +kernel

theorem test_topk : stepped (.topk 0) (opAfter 1 0x0B 2 0 1 [] [batch0]) = some (2, none, [{ batch0 with rows := batch0.rows.take 1 }]) := by decide +kernel

theorem hyps_rows :
    ctxIs (opAfter 1 2 2 0 0 (scanRec 2 0 5) [batch0]) 2 none (fun c => c.o.optAt 0 1 == 0 && (scanEnts c.blk).all (fun e => decide (e.field < c.inp.length))) = true ∧
    ctxIs (opAfter 1 2 2 1 0 (scanRec 2 0 5) [batch0]) 2 none (fun c => c.o.optAt 0 1 == 1 && (scanEnts c.blk).length == 1 && c.run.batches == [batch0] &&
      ((opAfter 1 2 2 1 0 (scanRec 2 0 5) [batch0]).filterRun 0 c ((scanEnts c.blk).headD (parseScan [])) batch0).2.isRight) = true ∧
    ctxIs (opAfter 1 3 2 0 0 ([1, 0] ++ zeros 14) [batch0]) 3 none (fun c => ((opAfter 1 3 2 0 0 ([1, 0] ++ zeros 14) [batch0]).projectBatch 0 c batch0).2.isRight) = true ∧
    ctxIs (opAfter 1 8 1 1 0 [] [batch0]) 8 none (fun c => ((opAfter 1 8 1 1 0 [] [batch0]).planeBatch 0 c batch0).2 == 0) = true := by decide +kernel

theorem hyps_rows2 :
    ctxIs (opAfter 9 0x0A 2 0 0 [] []) 0x0A none (fun c => decide ((opAfter 9 0x0A 2 0 0 [] []).preBytes c ≤ (opAfter 9 0x0A 2 0 0 [] []).budgetOf c.f c.q c.i)) = true ∧
    ctxIs (opAfter 1 0x0B 2 0 1 [] [batch0]) 0x0B none (fun c => c.run.batches == [batch0]) = true ∧
    ctxIs (taskAt img0 1 0 [batch0]) 0x0C none (fun c => c.task.seq == 0) = true ∧
    ctxIs (opAfter 1 0x11 3 0 1 [] [batch0]) 0x11 none (fun _ => true) = true ∧
    ctxIs (opAt 0x12 0 2 0 [] []) 0x12 none (fun c => c.o.optAt 0 2 == 2 && c.run.batches == [] && c.inp == [] && ((opAt 0x12 0 2 0 [] []).emitBefore c).isSome) = true := by
  decide +kernel

theorem hyps_emit :
    let s := opAfter 1 0x12 0 1 0 (leBytes 8 0x1010000 ++ leBytes 8 256) [batch0]
    ctxIs s 0x12 none (fun c => c.o.optAt 0 2 == 1 && s.emitBefore c == some 0 &&
      (piecesIn 256 (s.emitPieces c c.run.batches).1).2 && (s.emitPieces c c.run.batches).2.rangeOk c.f 0x1010000 (piecesIn 256 (s.emitPieces c c.run.batches).1).1.length 2) = true := by
  decide +kernel

/-- COMPUTE begins a kernel on its batch, and takes its output when it comes back by SYSCALL 0. -/
theorem hyps_compute :
    ctxIs (opAfter 1 4 2 0 0 [] [batch0]) 4 none (fun c => c.run.batches == [batch0]) = true ∧
    ((opAfter 1 4 2 0 0 [] []).core 0).wait = none ∧ ((opAfter 1 4 2 0 0 [] []).core 0).stall = none := by decide +kernel

/-- The kernel of COMPUTE came back with no row. -/
def kernelBack : State :=
  let s := opAfter 1 4 2 0 0 [] []
  { s with tiles := s.tiles.map (fun p => (p.1, { p.2 with core := { p.2.core with qcause := 7 },
                                                           task := p.2.task.map (fun r => { r with kernel := some { out := 0x1008000, rows := 2, mem := [], todo := [], done := [] } }) })) }

theorem hyps_compute_done :
    (kernelBack.core 0).runtime = true ∧ field (kernelBack.core 0).qcause 0 8 = 7 ∧ field (kernelBack.core 0).qcause 16 12 = 0 ∧ ((kernelBack.core 0).readG 1).toNat ≤ 2 ∧
    ctxIs (kernelBack.updTile 0 (fun x => { x with task := x.task.map (fun r => { r with kernel := none }) })) 4 none (fun c =>
      (kernelBack.kernelOut c { out := 0x1008000, rows := 2, mem := [], todo := [], done := [] } 0).isSome) = true := by decide +kernel

/-- A place is found wherever the free choice falls, if the first place of the second unit of an extent is free. -/
theorem place_found (s : State) (f n k : Nat) (h : (s.tenant f).alloc.any (fun e => (s.tenant f).freeRange (roundUp (e.base + 0x400000) k) n) = true) :
    (s.place f n k).isSome = true := by
  obtain ⟨e, he, hr⟩ := List.any_eq_true.mp h
  have hs : ∀ l : List Nat, roundUp (e.base + 0x400000) k ∈ l → (l.find? (fun a => (s.tenant f).freeRange a n)).isSome = true :=
    fun l hl => List.find?_isSome.mpr ⟨_, hl, hr⟩
  have hm : roundUp (e.base + 0x400000) k ∈ (s.tenant f).alloc.map (fun e => roundUp (e.base + 0x400000) k) := List.mem_map.mpr ⟨e, he, rfl⟩
  unfold State.place
  simp only
  split
  · rename_i hn
    exact absurd (hn ▸ hs _ (by simp only [List.mem_append]; exact .inl (.inr hm))) (by simp)
  · rfl

/-- The index task of a partition with no row. -/
def indexState : State := special 0 0 (opAfter 1 5 2 0x20001 1 [] [])
theorem hyps_index : ctxIs indexState 5 (some 0) (fun _ => true) = true ∧ ∀ c ∈ indexState.opCtx 0 5 (some 0), (indexState.indexPart c 0).isSome = true := by
  refine ⟨by decide +kernel, fun c hc => ?_⟩
  have h1 : (indexState.opCtx 0 5 (some 0)).map (fun c => (c.f, c.q, c.i)) = some (1, 0, 1) := by decide +kernel
  rw [Option.mem_def.mp hc] at h1
  obtain ⟨hf, hq, hi⟩ : c.f = 1 ∧ c.q = 0 ∧ c.i = 1 := by simpa using h1
  have h2 : (indexState.brkOf 1 0 1).join.getD 0 {} = {} := by decide +kernel
  have h3 : (indexState.place 1 (64 * 2 ^ bucketBits 0) 64).isSome = true := place_found _ _ _ _ (by decide +kernel)
  unfold State.indexPart State.placeFor
  rw [hf, hq, hi, h2]
  obtain ⟨r, hr⟩ := Option.isSome_iff_exists.mp h3
  simp only [List.length_nil] at *
  rw [hr]
  rfl

theorem hyps_join :
    ctxIs (opAfter 1 5 2 0x20001 1 [] []) 5 none (fun _ => true) = true ∧
    ctxIs (opAfter 5 6 2 0x10000 1 [] [batch0]) 6 none (fun c => (opAfter 5 6 2 0x10000 1 [] [batch0]).probeDicts c == false &&
      ((opAfter 5 6 2 0x10000 1 [] [batch0]).probeBatch c batch0).isSome) = true ∧
    ctxIs (special 2 65536 (opAfter 5 6 2 0x10000 1 [] [])) 6 (some 2) (fun c => ((special 2 65536 (opAfter 5 6 2 0x10000 1 [] [])).subJoin c 0 0).isSome) = true := by decide +kernel

/-- Rows (5, 7) and (9, null) make one group of each key; the tables stand already. -/
def aggState : State := (opAfter 1 7 2 1 64 ([1, 0] ++ zeros 6) [batch0]).updBrk 1 0 1 (fun y => { y with agg := (List.range 64).map (fun k => (k, { addr := 0x1008000 + 0x2000 * k })) })
theorem hyps_aggregate :
    ctxIs aggState 7 none (fun c => c.aggs.all (fun a => decide (a.field < c.inp.length) && aggTakes a.fn a.d) && c.o.det == false) = true ∧
    ctxIs (special 1 0 (opAfter 1 7 2 1 64 ([1, 0] ++ zeros 6) [])) 7 (some 1) (fun c => ((special 1 0 (opAfter 1 7 2 1 64 ([1, 0] ++ zeros 6) [])).finalPart c 0).isRight) = true := by
  decide +kernel

theorem test_agg_hash : stepped (.aggHash 0) aggState = some (2, none, []) ∧
    (((after (.aggHash 0) aggState).brkOf 1 0 1).agg.map (fun y => y.2.groups.map (fun g => g.accs.map (·.val)))).filter (fun l => !l.isEmpty) = [[[5]], [[9]]] := by decide +kernel

/-- A batch without nulls. -/
def batch1 : Batch := { rows := [{ morsel := 0, row := 0, vals := [some 5, some 7] }, { morsel := 0, row := 1, vals := [some 9, some 1] }] }

theorem hyps_sort_digest_frames :
    ctxIs (opAfter 1 9 2 0 1 [] []) 9 none (fun c => c.run.batches == []) = true ∧
    stepped (.opDecompress 0) (opAfter 0x0E 0x0F 2 0 0 [] []) = some (2, none, []) ∧
    ctxIs (opAt 0x0F 2 0 0 (zeros 16) []) 0x0F none (fun c => c.o.in0 == 0xFFFF) = true ∧
    ctxIs (opAfter 1 0x10 2 0 0 (leBytes 8 0x1010000) [batch1]) 0x10 none (fun c => c.o.optAt 0 1 == 0 && c.o.optAt 1 1 == 0 &&
      (opAfter 1 0x10 2 0 0 (leBytes 8 0x1010000) [batch1]).rangeOk c.f (getLE c.blk 0 8) 32 2) = true := by decide +kernel

theorem hyps_compress :
    let s := opAfter 1 0x0E 2 1 0 (leBytes 8 0x1010000 ++ leBytes 8 4096) [batch1]
    ctxIs s 0x0E none (fun c =>
      let y := s.compressBatch c batch1
      let l := piecesIn 4096 (y.1.frames.map (·.bytes))
      l.2 && y.2.rangeOk c.f 0x1010000 l.1.length 2) = true := by decide +kernel

theorem hyps_exchange :
    let s := { opAfter 1 0x0D 2 0 0 (zeros 64) [batch0] with krl := { xchgs := [(5, {
      f := 1, qslot := 0, pipe := 0, op := 1, rounds := 1, n := 1, self := 0, window := 1, t0 := 0, period := 1, mbase := 0, mtotal := 1, nodes := [0], recv := 0x1010000,
      cap := 4096, slot := 0 })] } }
    ctxIs s 0x0D none (fun c => match s.xchgOf c.f c.q c.i with
      | some y => decide ((c.run.batches.foldl (stageBatch c c.task) y.2).used ≤ s.budgetOf c.f c.q c.i)
      | none => false) = true := by decide +kernel

/-! ### Homes, tiles, host and memory -/

/-- A device with one message in the mesh and the slice of the message's home. -/
def netOf (m : Msg) (sl : Slice) : State :=
  let s0 : State := {}
  { s0 with net := [m], slices := [(s0.homeOf m.line, sl)], dstate := .ready, pw := { supply := .up } }

/-- A message about line 4 between tile 0 and its home. -/
def msg0 (k : MKind) (src dst : Nat) : Msg := { kind := k, src, dst, line := 4 }
def home4 : Nat := 128 + ({} : State).homeOf 4

/-- A read of line 4 that IO agent 96 has sent, and the entry that makes its line busy. -/
def ioState (q : IoReq) (txns : List Txn) : State := { netOf (msg0 .nack 127 96) { txns } with io := [q] }
def ioRead0 : IoReq := { agent := 96, line := 4, owner := 1, wr := none }
def busy4 : Txn := { msg := msg0 .rdS 1 home4, phase := .cmp, way := 64 }

theorem hyps_requests :
    (∀ k ∈ [MKind.rdS, .rdH, .rdX, .upg, .rdOnce], ((netOf (msg0 k 0 home4) {}).take (fun m => m.kind == k && m.src == 0 && m.line == 4)).isSome = true) ∧
    ((netOf (msg0 .rdS 0 home4) {}).slice (({} : State).homeOf 4)).queueRoom = true ∧ (netOf (msg0 .rdS 0 home4) {}).lineBusy 4 = false ∧
    (netOf (msg0 .rdS 0 home4) {}).setFull 4 = false ∧ (netOf (msg0 .rdS 0 home4) { txns := [busy4] }).lineBusy 4 = true ∧
    (ioState ioRead0 []).ioReq 96 4 = some ioRead0 ∧ (ioState ioRead0 [busy4]).lineBusy 4 = true ∧
    ((ioState { ioRead0 with wr := some (0, 0, false) } []).ioReq 96 4).map (fun q => q.wr.isSome) = some true ∧
    ((ioState ioRead0 []).take (fun m => m.kind == .nack && m.dst == 96 && m.line == 4)).isSome = true ∧
    ((ioState { ioRead0 with waiting := true } []).ioReq 96 4).map (·.waiting) = some true ∧
    ((netOf (msg0 .iodone home4 110) {}).take (fun m => m.kind == .iodone && m.dst == 110 && m.line == 4)).isSome = true ∧
    ((netOf (msg0 .nack 127 96) {}).nextQueued [msg0 .rdS 0 home4] []).isSome = true := by decide +kernel

theorem test_rd_s_grants_nothing_yet : (after (.rdS 0 4) (netOf (msg0 .rdS 0 home4) {})).lineBusy 4 = true := by decide +kernel
theorem test_nack_delay : ((after (.nack 96 4) (ioState { ioRead0 with nacks := 7 } [])).ioReq 96 4).map (fun q => (q.delay, q.starve)) = some (1024, true) := by
  decide +kernel

/-- A transaction of tile 0 on line 4 whose entry is in a given state. -/
def txn4 (k : MKind) : Txn := { msg := msg0 k 0 home4, phase := .cmp, way := 64, fill := some (7, false) }
def entry4 (st : DState) (ptrs : List Nat) : Slice := { dir := [(64, { line := 4, owner := 1, state := st, ptrs, busy := true })], txns := [txn4 .rdS] }
def table4 (st : DState) (ptrs : List Nat) : State := netOf (msg0 .nack 127 96) (entry4 st ptrs)

theorem hyps_home_table :
    isHostLine 4 = false ∧ ((table4 .n []).slice ((table4 .n []).homeOf 4)).dirWay 4 = some 64 ∧
    (∀ k ∈ [MKind.rdS, .rdX, .upg, .rdH], (txn4 k).msg.isCore = true ∧ (table4 .n []).txnData (txn4 k) = some (7, false)) ∧
    ((table4 .n []).slice ((table4 .n []).homeOf 4)).fenced.getLsbD 0 = false ∧ (table4 .n []).isolated 0 = false ∧
    (table4 .n []).txnData { txn4 .rdS with fill := none } = none ∧
    (((table4 .ex [3]).slice ((table4 .ex [3]).homeOf 4)).dir.find? 64).map (fun e => (e.state, e.ptrs.headD 0, e.h)) = some (.ex, 3, false) ∧
    (table4 .sh [3]).invTargets { line := 4, owner := 1, state := .sh, ptrs := [3] } (some 0) = [3] := by decide +kernel

theorem test_grant : ((table4 .n []).homeGo (txn4 .rdS)).net.getLast?.map (fun m => (m.kind, m.dst, m.st, m.data)) = some (.gnt, 0, some .e, some 7) := by decide +kernel
theorem test_forward : ((table4 .ex [3]).homeGo (txn4 .rdX)).net.getLast?.map (fun m => (m.kind, m.dst, m.req)) = some (.fwdX, 3, 0) := by decide +kernel

/-- Tile 0 holds line 4 in a state; a forward of its home is on its way to it. -/
def holder (st : LState) (m : Msg) : State :=
  { netOf m {} with tiles := [(0, { core := core0, l1 := { d := [(32, { line := 4, st, data := 9 })], reqs := [{ line := 5, kind := .rdS }], vbuf := [] } })] }

theorem hyps_tile_answers :
    (∀ k ∈ [MKind.fwdS, .fwdX, .fwdOnce, .inv, .wback, .decline], ((holder .d (msg0 k home4 0)).take (fun m => m.kind == k && m.dst == 0 && m.line == 4)).isSome = true) ∧
    ((holder .d (msg0 .inv home4 0)).tile 0).l1.copy 4 = some (.d, 9, false) ∧ ((holder .e (msg0 .inv home4 0)).tile 0).l1.copy 4 = some (.e, 9, false) ∧
    ((holder .e (msg0 .inv home4 0)).tile 0).l1.copy 6 = none ∧ (holder .e (msg0 .inv home4 0)).isolated 0 = false ∧
    ((holder .e { msg0 .gnt home4 0 with line := 5 }).take (fun m => m.kind == .gnt && m.dst == 0 && m.line == 5)).isSome = true ∧
    ((holder .e { msg0 .data home4 0 with line := 5 }).take (fun m => m.kind == .data && m.dst == 0 && m.line == 5)).isSome = true ∧
    (∃ q ∈ ((holder .e (msg0 .inv home4 0)).tile 0).l1.reqs, q.line = 5) ∧
    ((netOf (msg0 .data home4 110) {}).take (fun m => m.kind == .data && m.dst == 110 && m.line == 4)).isSome = true := by decide +kernel

theorem sound_holder : (holder .d (msg0 .inv home4 0)).soundL1 0 := by
  unfold State.soundL1
  decide

theorem test_inv_dirty : (after (.inv 0 4) (holder .d (msg0 .inv home4 0))).net.map (fun m => (m.kind, m.data)) = [(.wbdata, some 9)] ∧
    ((after (.inv 0 4) (holder .d (msg0 .inv home4 0))).tile 0).l1.copy 4 = none := by decide +kernel

theorem hyps_answers_at_home :
    (∀ k ∈ [MKind.fack, .noline, .invack, .wbdata, .cmpAck, .wbDirty, .victClean, .victDrop],
      ((netOf (msg0 k 0 home4) {}).take (fun m => m.kind == k && m.src == 0 && m.line == 4)).isSome = true) ∧
    (∀ y ∈ (netOf (msg0 .cmpAck 0 home4) (entry4 .ex [0])).take (fun m => m.kind == .cmpAck && m.src == 0 && m.line == 4),
      (y.2.txn 4).map (fun x => (x.msg.src, x.phase)) = some (0, .cmp)) ∧
    (let s := netOf (msg0 .wbDirty 0 home4) { dir := [(64, { line := 4, owner := 1, state := .ex, ptrs := [0] })] }
     s.fwdOutstanding 4 0 = false ∧ s.records 4 0 = true ∧ s.isEx 4 = true ∧ (s.slice (s.homeOf 4)).fenced.getLsbD 0 = false) ∧
    (netOf (msg0 .nack 127 96) { txns := [{ txn4 .rdS with phase := .inv, acks := [3] }] }).fwdOutstanding 4 3 = true ∧
    ((netOf { msg0 .fence 127 128 with req := 3 } {}).take (fun m => m.kind == .fence && m.dst == 128 + 0 && m.req == 3)).isSome = true ∧
    ((netOf { msg0 .fence 127 224 with req := 3 } {}).take (fun m => m.kind == .fence && m.dst == 128 + 96 && m.req == 3)).isSome = true ∧
    ((netOf (msg0 .nack 127 96) { scan := some (3, 0) }).slice (({} : State).homeOf 4)).scan = some (3, 0) := by decide +kernel

/-- A host line, host line 0, that the device has asked for or back-invalidates. -/
def hl : Nat := 2 ^ 50
def hostState : State := { d2h := [hl], bisnp := [4], slices := [(({} : State).homeOf 4, { dir := [(64, { line := 4, owner := 1, h := true })], txns := [{ txn4 .rdS with phase := .back }] })],
                           tenants := [(1, { tstate := .active, alloc := [{ base := 0x1000000, len := 0x1000000 }] })], host := { bar2 := 30 } }
theorem hyps_host :
    isHostLine hl = true ∧ hostState.txn hl = none ∧ hostState.setFull hl = false ∧ hl ∈ hostState.d2h ∧ 4 ∈ hostState.bisnp ∧
    ((({ hostState with bisnp := hostState.bisnp.erase 4 } : State).updDir 4 (fun e => { e with h := false })).txn 4).map (·.phase) = some .back ∧
    (hostState.slice (hostState.homeOf 4)).queueRoom = true ∧ (∀ j < 8, hostState.bar2Addr 1 (0 + j) = some (0x1000000 + j)) ∧
    (hostState.slice (hostState.homeOf (0x1000000 / 64))).queueRoom = true ∧ hostState.bar2Addr 1 (2 ^ 30 + 8 - 1) = none := by decide +kernel

theorem test_bar2_beyond : (after (.bar2Access 1 (2 ^ 30) 8 none) hostState).answers.map (·.ur) = [true] := by decide +kernel

/-- A controller of channel 0 with one request, for device line 0 of an unguarded window. -/
def chan0 : Chan := { trained := true, ctl := 0x9201 }
def req0 (st : MemStage) (w : Option (Line × BitVec 64 × Bool)) (guard : Bool) : MemReq :=
  { chan := 0, line := 0, phys := some 0, guard, wr := w, cls := .core, home := 0, owner := 1, stage := st }
def memState (k : Chan) (l : List MemReq) (lo : Word) : State :=
  { mem := { memOf [] with chans := [(0, k)], reqs := l, mapLo := [(0, lo)] }, dstate := .ready, pw := { supply := .up } }

theorem hyps_memory :
    (memState chan0 [req0 .inbound none false] 0x40001).mem.reqs.find? (fun r => r.chan == 0 && r.stage == .inbound) = some (req0 .inbound none false) ∧
    chan0.runs = true ∧ chan0.failed = false ∧ chan0.selfRef = false ∧ chan0.ctl.getLsbD 1 = false ∧ chan0.ctl.getLsbD 9 = true ∧
    (memState chan0 [req0 .queued none false] 0x40001).nextReq 0 = some (req0 .queued none false) ∧
    (memState chan0 [req0 .queued (some (1, 1, false)) false] 0x40001).nextReq 0 = some (req0 .queued (some (1, 1, false)) false) ∧
    (∀ y ∈ (memState chan0 [req0 .issued none false] 0x40001).reqGeo (req0 .issued none false),
      (memState chan0 [] 0x40001).deadBursts y.1 = 0 ∧ ((memState chan0 [] 0x40001).rawLine y.1).2.toNat < 2) ∧
    ((memState chan0 [] 0x40001).reqGeo (req0 .issued none false)).isSome = true ∧
    (∀ y ∈ (memState chan0 [] 0x40005).reqGeo (req0 .rebuild none true), ((memState chan0 [] 0x40005).rebuildLine y.1 (byteMask 0 32)).isSome = true) ∧
    ((memState chan0 [] 0x40005).reqGeo (req0 .rebuild none true)).isSome = true := by decide +kernel

theorem hyps_memory2 :
    (memState chan0 [req0 .issued (some (1, 1, false)) true] 0x40005).mem.reqs.find? (fun r => r.chan == 0 && r.stage == .issued && r.guard && r.wr.isSome)
      = some (req0 .issued (some (1, 1, false)) true) ∧
    (memState chan0 [{ req0 .rebuild none true with bad := 1 }] 0x40005).mem.reqs.find? (fun r => r.chan == 0 && r.stage == .rebuild)
      = some { req0 .rebuild none true with bad := 1 } ∧
    ((memState { chan0 with lastWr := some (req0 .issued (some (1, 1, false)) false, 0) } [] 0x40001).chan 0).lastWr = some (req0 .issued (some (1, 1, false)) false, 0) ∧
    (memState chan0 [] 0x40001).rel.eyeGoal.getD 0 0 ≤ 5 := by decide +kernel

theorem test_write_error_third : ((after (.dramWriteError 0 true)
    (memState { chan0 with lastWr := some ({ req0 .issued (some (1, 1, false)) false with tries := 2 }, 77) } [] 0x40001)).chan 0).badLines = [77] := by decide +kernel

/-- The line code corrects a symbol (R321): a value of the first check symbol and of the first message symbol. -/
theorem test_code : decodeBurst (setField (0 : BitVec 288) 258 10 5) = .corrected 0 ∧ decodeBurst (setField (0 : BitVec 288) 0 10 0x3FF) = .corrected 0 := by decide +kernel

/-! ### Engines -/

/-- Tile 0 of tenant 1 with these bytes at device address 0x1000400. -/
def engState (b : List Byte) : State :=
  { tiles := [(0, { core := coreT, bound := some 1 })], mem := memOf (hostBytes 0x1000400 b), dstate := .ready, pw := { supply := .up },
    tenants := [(1, { tstate := .active, alloc := [{ base := 0x1000000, len := 0x1000000 }], ent := { memBytes := 0x1000000, tileGuar := 1, tileBurst := 2 } })] }

/-- A compression job: 16 bytes compressed at level 1 into one piece of 4,096, and its status record. -/
def cmpDesc0 : List Byte :=
  [0, 0, 1, 0, 0, 0, 0, 0] ++ leBytes 8 0x1000800 ++ leBytes 8 16 ++ leBytes 8 0 ++ leBytes 8 0x1000440 ++ leBytes 8 1 ++ leBytes 8 0x1000480 ++ leBytes 8 0
    ++ leBytes 8 0x1001000 ++ leBytes 4 4096 ++ leBytes 4 0
def cmpJob0 : CmpJob := { f := 1, desc := 0x1000400, epoch := 0 }
def cmpState (x : CmpChan) : State := { engState cmpDesc0 with cmp := [(0, { x with funcs := 2 })] }

/-- A batch of 8 keys for a Bramble array. -/
def brmDesc0 : List Byte :=
  [0, 0, 0, 0, 0, 0, 0, 0] ++ leBytes 8 0x1000800 ++ leBytes 8 0 ++ leBytes 4 8 ++ leBytes 4 0 ++ leBytes 8 0x1001000 ++ leBytes 8 0x1000480 ++ zeros 16
def brmJob0 : BrmJob := { f := 1, desc := 0x1000400, epoch := 0 }
def brmState (x : Bram) : State := { engState brmDesc0 with brm := [(0, x)] }
/-- Window 0 of function 1, whose entry 0 matches every key. -/
def bram0 : Bram := { range := [(1, 1 <<< 8)], ents := [(0, { attr := 3 })] }

theorem hyps_compression_and_bramble :
    ((cmpState {}).tile 0).bound = some 1 ∧ (cmpState {}).cmpOn 0 = true ∧ ((cmpState {}).cmpChan 0).funcs.getLsbD 1 = true ∧
    (pickFirst (fun (j : CmpJob) => j.f == 1 && j.desc == field (0x1000400 : Word) 6 58 * 64 && j.work.isNone) ((cmpState { queue := [cmpJob0] }).cmpChan 0).queue).isSome = true ∧
    nextFunc 0 (fun g => ((cmpState { queue := [cmpJob0] }).cmpChan 0).queue.any (fun j => j.f == g)) = some 1 ∧
    ((cmpState { queue := [cmpJob0] }).updCmp 0 (fun x => { x with queue := [], func := 1, run := some cmpJob0 })).cmpCheck 0 cmpJob0 = none ∧
    ((cmpState { run := some cmpJob0 }).cmpChan 0).run = some cmpJob0 ∧
    (brmState {}).brmOn 0 = true ∧ (brmState {}).brmFirst 0 1 0 = none ∧
    nextFunc 0 (fun g => ((brmState { queue := [brmJob0] }).bram 0).queue.any (fun j => j.f == g)) = some 1 ∧
    ((brmState { queue := [brmJob0] }).updBrm 0 (fun b => { b with queue := [], func := 1, run := some brmJob0 })).brmCheck brmJob0 = none := by decide +kernel

theorem hyps_bramble_hit : (brmState bram0).brmFirst 0 1 ((brmState bram0).brmKey 0) = some 0 := by decide +kernel

theorem test_brm_find : ((after (.brmFind 0 0 5) (brmState bram0)).core 0).readG 5 = 0x8000000000000000 := by decide +kernel

/-- A transfer block for DMA, with its one descriptor of 64 bytes, and a transfer that stands at it. -/
def dmaBlock : List Byte := leBytes 8 0x1000420 ++ leBytes 8 0x1000800 ++ [1, 0] ++ leBytes 2 0xFFFF ++ zeros 12
  ++ leBytes 8 0x1001000 ++ leBytes 8 0x1002000 ++ leBytes 4 64 ++ [0, 1, 0, 0] ++ leBytes 8 0
def xfer0 : Xfer := { f := 1, block := 0x1000400, status := 0x1000800, epoch := 0, next := 0x1000420 }
def dmaState (x : DmaChan) : State := { engState dmaBlock with dma := [(1, x)] }

theorem hyps_dma :
    field (0x1000401 : Word) 0 5 = 1 ∧ (dmaState {}).dmaOn 1 = true ∧ ((dmaState {}).dmaFuncs 1).getLsbD 1 = true ∧ ((dmaState {}).dmaChan 1).sh = none ∧
    (dmaState {}).rangeOk 1 0x1000400 32 1 = true ∧ xferBlockOk ((dmaState {}).readBytes 0x1000400 32).1 = true ∧
    (dmaState {}).rangeOk 1 (getLE ((dmaState {}).readBytes 0x1000400 32).1 8 8) 32 2 = true ∧
    ((dmaState { cur := some xfer0 }).dmaNextDesc xfer0).isSome = true ∧ (dmaState {}).dmaNextDesc { xfer0 with next := 0x40 } = none ∧
    (∀ d ∈ (dmaState { cur := some xfer0 }).dmaNextDesc xfer0, (dmaState { cur := some xfer0 }).dmaBad 1 xfer0 d = none ∧ d.dkind = 0 ∧ d.len = 64) ∧
    xfer0.cadence = false ∧ xfer0.ended = false ∧ xfer0.inner = false ∧ xfer0.block = field (0x1000401 : Word) 5 59 * 32 := by decide +kernel

theorem test_dma_copies : ((after (.dmaDescriptor 1) { dmaState { cur := some xfer0 } with mem := memOf (hostBytes 0x1000400 dmaBlock ++ [(0x1001000, 7)]) }).readBytes
    0x1002000 1).1 = [7] := by decide +kernel

/-- A message block for a digest engine: 64 bytes, result and status. -/
def msgBlock : List Byte := [0, 2, 0, 0, 0, 0] ++ leBytes 2 0xFFFF ++ leBytes 8 64 ++ leBytes 8 0x1000800 ++ leBytes 8 0x1000820 ++ leBytes 8 0x1001000 ++ zeros 24
def dgs0 (c : CtxAt) : DgsMsg := { mode := 0, declLen := 64, result := 0x1000800, status := 0x1000820, save := 0x1001000, epoch := 0, start := { h := shaInit }, ctx := c, suspend := true }
def dgsState (e : DgsEng) : State := { engState msgBlock with dgs := [(0, e)] }

theorem hyps_digest :
    (dgsState {}).dgsOn 0 = true ∧ (dgsState {}).rangeOk 1 0x1000400 64 1 = true ∧ (dgsState {}).dgsOpenCheck 0 1 ((dgsState {}).readBytes 0x1000400 64).1 = 0 ∧
    getLE ((dgsState {}).readBytes 0x1000400 64).1 1 1 / 8 % 2 = 0 ∧
    (dgsState { msgs := [(1, dgs0 .fresh)] }).dgsMsg 0 1 = some (dgs0 .fresh) ∧
    List.find? (fun (p : Nat × DgsMsg) => p.2.suspend) ((dgsState { msgs := [(1, dgs0 (.reg { h := shaInit }))] }).dgsEng 0).msgs = some (1, dgs0 (.reg { h := shaInit })) := by
  decide +kernel

theorem hyps_quantum : ∃ m : DgsMsg, nextFunc 0 (fun g => ((dgsState { msgs := [(1, { m with fed := 0 })] }).dgsEng 0).msgs.any
    (fun p => p.1 == g && p.2.waiting && ((dgsState { msgs := [(1, { m with fed := 0 })] }).dgsEng 0).active != some g)) = some 1 :=
  ⟨{ dgs0 .saved with waiting := true }, by decide +kernel⟩

/-! ### Images, the mailbox, Cadence and Krelor -/

/-- An operator record of an image that loads. -/
def opLoad (code in0 nout poff plen opt : Nat) : List Byte :=
  leBytes 1 code ++ leBytes 1 0 ++ leBytes 2 in0 ++ leBytes 2 0xFFFF ++ leBytes 1 0xFF ++ leBytes 1 nout ++ leBytes 4 0 ++ leBytes 4 0 ++ leBytes 4 poff
    ++ leBytes 4 plen ++ leBytes 4 0 ++ leBytes 4 0 ++ leBytes 8 opt ++ leBytes 8 0 ++ zeros 16

/-- A pipeline of a SCAN of an Arrow array and an EMIT, with a pool that holds one schema field and the two parameter blocks. -/
def pipePart : List Byte := leBytes 2 0 ++ [2] ++ zeros 5
def opsPart : List Byte := opLoad 1 0xFFFF 1 8 40 4 ++ opLoad 0x12 0 0 48 16 1
def poolPart : List Byte := [8, 0, 0, 0, 0, 0, 0, 0] ++ zeros 40 ++ leBytes 8 0x1010000 ++ leBytes 8 4096
def sectLoad (type off : Nat) (b : List Byte) : List Byte := leBytes 2 type ++ leBytes 2 0 ++ leBytes 4 off ++ leBytes 4 b.length ++ leBytes 4 (crc32c b)
def headLoad : List Byte :=
  leBytes 4 0x31504B4F ++ leBytes 2 1 ++ leBytes 2 0 ++ leBytes 4 0x180 ++ leBytes 2 3 ++ [1, 0] ++ zeros 44
def imgLoad : List Byte :=
  headLoad ++ leBytes 4 (crc32c (headLoad ++ zeros 4))
    ++ padTo 64 (sectLoad 1 0x80 pipePart ++ sectLoad 2 0xC0 opsPart ++ sectLoad 4 0x140 poolPart) ++ padTo 64 pipePart ++ opsPart ++ poolPart

/-- Eunto has taken a command of function f for a target, with a payload; the device stands in a state. -/
def mbOf (ds : DevState) (f op target : Nat) (pl : List Byte) (s : State) : State :=
  { s with dstate := ds, eunto := some f, euntoReq := leBytes 2 op ++ leBytes 2 0 ++ leBytes 2 pl.length ++ leBytes 1 target ++ zeros 9 ++ pl }

/-- The command is due there. -/
def due (s : State) (f op : Nat) : Bool := decide (s.eunto = some f ∧ s.mbOp = op ∧ s.euntoArg = none ∧ s.mbCheck f = none)

theorem due_is_due (s : State) (f op : Nat) (h : due s f op = true) : s.mbDue f op := by simpa [due, State.mbDue] using h

/-- Tenant 1 with a host region of 1 MiB at host address 0, and an image's bytes in its memory. -/
def mbBase : State :=
  { engState imgLoad with tenants := (engState []).tenants.map (fun p => (p.1, { p.2 with hrgnLo := [(0, 0xB)], hrgnHi := [(0, 0xFF000)] })) }

theorem hyps_mailbox_plain :
    due (mbOf .ready 1 0x01 1 [] mbBase) 1 0x01 = true ∧ due (mbOf .ready 1 0x02 1 (zeros 8) mbBase) 1 0x02 = true ∧
    due (mbOf .ready 1 0x02 1 ([1] ++ zeros 7) mbBase) 1 0x02 = true ∧ due (mbOf .ready 0 0x60 0 [] mbBase) 0 0x60 = true ∧
    due (mbOf .ready 0 0x61 0 [] mbBase) 0 0x61 = true ∧ due (mbOf .ready 1 0x62 1 (leBytes 8 0x1010000 ++ leBytes 4 64 ++ zeros 12) mbBase) 1 0x62 = true ∧
    due (mbOf .ready 0 0x40 0 (zeros 16) mbBase) 0 0x40 = true ∧ due (mbOf .ready 0 0x40 0 ([1, 7] ++ zeros 14) mbBase) 0 0x40 = true ∧
    due (mbOf .ready 0 0x40 0 ([2] ++ zeros 15) { mbBase with cad := { ptm := true } }) 0 0x40 = true ∧
    due (mbOf .ready 0 0x40 0 ([3] ++ zeros 15) mbBase) 0 0x40 = true ∧ due (mbOf .ready 0 0x41 0 (zeros 16) mbBase) 0 0x41 = true ∧
    (mbOf .ready 1 0x01 2 [] mbBase).mbCheck 1 = some (0x0104, 0) := by decide +kernel

def qcreate : List Byte := [1, 1, 0, 0] ++ leBytes 4 0 ++ leBytes 8 (2 ^ 56) ++ leBytes 4 16 ++ leBytes 4 16 ++ leBytes 8 (2 ^ 56 + 0x1000)
theorem hyps_mailbox_queues :
    due (mbOf .ready 1 0x10 1 qcreate mbBase) 1 0x10 = true ∧
    (mbOf .ready 1 0x10 1 qcreate mbBase).rangeOk 1 ((mbOf .ready 1 0x10 1 qcreate mbBase).mbPay 8 8) (64 * 16) 3 = true ∧
    (mbOf .ready 1 0x10 1 qcreate mbBase).rangeOk 1 ((mbOf .ready 1 0x10 1 qcreate mbBase).mbPay 0x18 8) (16 * 16) 3 = true ∧
    due (mbOf .ready 1 0x11 1 (zeros 8) { ringsOf pair0 true with tiles := [] }) 1 0x11 = true ∧ (withWork 0 .running).pairBusy 1 0 = true ∧
    (mbOf .ready 1 0x11 1 (zeros 8) { ringsOf pair0 true with tiles := [] }).euntoMute = false := by decide +kernel

theorem hyps_place : ((mbOf .ready 1 0x10 1 qcreate mbBase).place 1 65536 64).isSome = true := place_found _ _ _ _ (by decide +kernel)

theorem hyps_pipe_load :
    let s := mbOf .ready 1 0x20 1 (leBytes 8 0x1000400 ++ leBytes 4 0x180 ++ zeros 4) mbBase
    due s 1 0x20 = true ∧ s.rangeOk 1 (s.mbPay 0 8) (s.mbPay 8 4) 1 = true ∧ (s.readBytes (s.mbPay 0 8) (s.mbPay 8 4)).2 = false ∧
    s.loadCheck 1 (s.mbPay 8 4) (s.readBytes (s.mbPay 0 8) (s.mbPay 8 4)).1 = none ∧ s.loadCheck 1 0x40 [] = some (1, 0x0106) := by decide +kernel

theorem hyps_unload_and_bramble :
    (due (mbOf .ready 1 0x21 1 (zeros 8) { taskAt img0 1 0 [] with works := [] }) 1 0x21 = true) ∧
    ((taskAt img0 1 0 []).tenant 1).images.find? 0 ≠ none ∧
    (let b : List Byte := leBytes 4 0x314C5242 ++ zeros 4 ++ leBytes 4 1 ++ zeros 4 ++ [2] ++ zeros 47
     (brlOf b).isSome = true ∧ brlIndices ((brlOf b).map (·.2) |>.getD []) = [0] ∧ (brmState bram0).brmHolds 1 0 0 = true ∧
     due (mbOf .ready 1 0x22 1 (leBytes 8 0x1000400 ++ leBytes 4 64 ++ zeros 4) { engState b with brm := [(0, bram0)] }) 1 0x22 = true) := by decide +kernel

theorem hyps_mailbox_take :
    nextFunc mbBase.euntoLast (fun f => (({ mbBase with mboxes := [(1, { busy := true })] } : State).mbox f).busy) = some 1 ∧
    (({ mbBase with eunto := some 1, euntoReq := [], euntoSeq := 0 } : State).mbCheck 1) = some (0x0101, 0) ∧ mbBase.upd.reboot = false := by decide +kernel

/-- A port that is UP, calibrated, with its four lanes. -/
def port0 : KPort := { state := 4, calib := true, lanes := 0xF }
def linkState (k : KPort) : State := { engState [] with krl := { ports := [(0, k)] }, cad := { ctl := 0x10000, ports := [(0, { t1 := some 5, key := 3, heard := true })] } }
def wireOf (x : Flit) : BitVec 2048 := BitVec.ofNat 2048 (leNat x.bytes)

/-- A flit of the type arrives. -/
def arrives (s : State) (ty : Nat) (w : BitVec 2048) (p : State → Flit → Bool) : Bool := match s.arrive 0 ty w with | .flit s1 x => p s1 x | .done _ => false
def arrivesLink (s : State) (op : Nat) (w : BitVec 2048) (p : State → Flit → Bool) : Bool := match s.arriveLink 0 op w with | .flit s1 x => p s1 x | .done _ => false

def act0 : Action := { f := 1, tick := 0, action := 0, drop := false, flag := 0xFF, wait := none, target := 0, qslot := 0xFFFF, arg := 0, status := 0, seq := 0, late := false }
def actState (a : Action) : State := { engState [] with cad := { acts := [(0, a)], rate := 5 }, now := 1 }

theorem hyps_cadence :
    (actState act0).cad.acts.find? 0 = some act0 ∧ act0.due = none ∧ act0.wait = none ∧ (∀ q ∈ (actState act0).syncedPorts, (actState act0).ownKey ≤ ((actState act0).cad.port q).key) ∧
    (linkState port0).syncedPorts = [0] ∧ ¬((linkState port0).ownKey ≤ ((linkState port0).cad.port 0).key) ∧ (linkState port0).cad.syncEn 0 = true ∧
    arrives (linkState port0) 4 (wireOf { type := 4 }) (fun s1 _ => !(s1.kport 0).hold) = true ∧
    arrives (linkState port0) 5 (wireOf { type := 5 }) (fun s1 _ => (s1.cad.port 0).t1.isSome && (s1.kport 0).calib) = true := by decide +kernel

theorem hyps_cadence_arm :
    let s := { engState (zeros 9 ++ [0, 0xFF, 0, 0, 0] ++ leBytes 2 0xFFFF ++ zeros 16) with cad := {} }
    s.cad.freeHandle = some 0 ∧ s.rangeOk 1 0x1000400 32 1 = true ∧ (s.readBytes 0x1000400 32).2 = false ∧ s.armOk 1 (s.readBytes 0x1000400 32).1 = true ∧
    (engState (zeros 8 ++ [9])).armOk 1 ((engState (zeros 8 ++ [9])).readBytes 0x1000400 32).1 = false := by
  decide +kernel

theorem hyps_cadence_due :
    (actState { act0 with due := some 1 }).actReady { act0 with due := some 1 } = true ∧ (actState { act0 with due := some 1 }).actBehind 0 { act0 with due := some 1 } = false ∧
    (actState { act0 with due := some 1 }).cad.launched < 4 ∧ (actState { act0 with action := 1, due := some 1 }).actReady { act0 with action := 1, due := some 1 } = false ∧
    (actState { act0 with action := 3, target := 5, due := some 1 }).actReady { act0 with action := 3, target := 5, due := some 1 } = false ∧
    (pickFirst (fun (x : Pulse) => x.f == 1 && x.trig && x.idx == 2) [{ f := 1, trig := true, idx := 2, epoch := 0 }]).isSome = true ∧
    ((engState []).epochOf 1) = 0 := by decide +kernel

theorem test_cadence_clock : (after .cadenceClock (actState act0)).now = 2 ∧ (after .cadenceClock (actState act0)).cad.frac = 5 ∧
    ((after .cadenceClock (actState act0)).cad.acts.find? 0).map (·.due) = some (some 2) := by decide +kernel
theorem test_launch : (after (.actionDue 0) (actState { act0 with due := some 1 })).cad.launched = 1 := by decide +kernel

/-- An open exchange of tenant 1, and a flit of it. -/
def xchg0 : Xchg := { f := 1, qslot := 0, pipe := 0, op := 1, rounds := 1, n := 1, self := 0, window := 1, t0 := 0, period := 1, mbase := 0, mtotal := 1, nodes := [0],
                      recv := 0x1010000, cap := 4096, slot := 0 }
def openState : State := { linkState port0 with krl := { ports := [(0, port0)], xchgs := [(5, xchg0)] }, now := 100000000 }

theorem hyps_krelor_flits :
    flitOk (flitBytes 0) = false ∧ port0.linked = true ∧
    arrives (linkState port0) 0 (wireOf { type := 0 }) (fun _ _ => true) = true ∧ arrivesLink (linkState port0) 0 (wireOf { type := 6 }) (fun _ _ => true) = true ∧
    arrives (linkState port0) 1 (wireOf { type := 1, seq := 1, dst := 7 }) (fun s1 y => y.dst != s1.nodeId) = true ∧
    arrives openState 1 (wireOf { type := 1, seq := 1, xchg := 5 }) (fun s1 y => y.dst == s1.nodeId && (s1.xchg y.xchg).isSome) = true ∧
    arrives openState 2 (wireOf { type := 2, seq := 1, xchg := 5 }) (fun s1 y => ((s1.giveCredit 0 y.vc).xchg y.xchg).isSome) = true ∧
    arrives openState 3 (wireOf { type := 3, seq := 1, xchg := 6 }) (fun s1 y => ((s1.giveCredit 0 y.vc).xchg y.xchg).isNone) = true ∧
    arrivesLink (linkState { port0 with replay := [{ flit := { type := 1, seq := 4 }, tick := 0 }] }) 1 (wireOf { type := 6, payload := leBytes 2 1 ++ leBytes 2 4 })
      (fun s1 y => ((s1.kport 0).replay.findIdx? (fun r => r.flit.seq == getLE y.payload 2 2)).isSome) = true := by decide +kernel

theorem hyps_krelor_hello :
    arrivesLink (linkState { port0 with state := 3 }) 2 (wireOf { type := 6, payload := leBytes 2 2 ++ zeros 6 ++ [1, 0, 0, 0] }) (fun s1 y => s1.helloOk 0 y.payload && (s1.kport 0).state == 3) = true ∧
    arrivesLink (linkState { port0 with state := 3 }) 2 (wireOf { type := 6, payload := leBytes 2 2 ++ zeros 6 ++ [2, 0, 0, 0] }) (fun s1 y => !s1.helloOk 0 y.payload) = true := by
  decide +kernel

theorem hyps_krelor_ports :
    ((linkState port0).kport 0).lanes.getLsbD 2 = true ∧ ((linkState port0).krl.xchgs = []) ∧ (linkState port0).kport 0 = port0 ∧
    (let s := { linkState port0 with krl := { ports := [(0, port0), (6, { port0 with ctl := 0x201 })] } };
      [6, 7].find? (fun r => (s.kport r).mode == 2 && (s.kport r).pair == 0 && (s.kport r).state == 4 && !(s.kport r).backing) = some 6) ∧
    ((openState.xchg 5) = some xchg0) ∧ (xchg0.rnd 0).complete = false ∧ xchg0.deadline 0 < openState.ticks := by decide +kernel

theorem test_lane_fail : ((after (.laneFail 0 2) (linkState port0)).kport 0).lanes = 0xB ∧ ((after (.laneFail 0 2) (linkState { port0 with lanes := 0xB })).kport 0).state = 4 ∧
    ((after (.laneFail 0 0) (linkState { port0 with lanes := 0xB })).kport 0).state = 0 := by decide +kernel

/-! ### Tenants, firmware and lifecycle -/

/-- An entitlement record: shares, one query, 16 MiB of memory, 4 MiB for the dispatcher. -/
def entRec (guar : Nat) : List Byte := leBytes 1 guar ++ [2, 0, 0, 1, 0, 0, 0] ++ leBytes 8 0x1000000 ++ leBytes 8 0 ++ leBytes 4 4 ++ zeros 36

/-- The PF's command 0x30 to 0x39 for tenant 1, which stands in a state. -/
def tenantCmd (op : Nat) (st : TState) (pl : List Byte) : State :=
  mbOf .ready 0 op 1 pl { mbBase with tenants := mbBase.tenants.map (fun p => (p.1, { p.2 with tstate := st, ent := entitleOf (entRec 1), mig := if op = 0x39 then some { hostBase := 0, hostLen := 0x8000, hostBmp := 0, devBmp := 0 } else none })) }

theorem hyps_tenant_create :
    (let s := mbOf .ready 0 0x30 2 (entRec 1) mbBase
     due s 0 0x30 = true ∧ s.grantsFit 2 (entitleOf (s.euntoReq.drop 16)) = true ∧ s.euntoMute = false) ∧
    (let s := mbOf .ready 0 0x30 2 (entRec 2) { mbBase with tenants := mbBase.tenants.map (fun p => (p.1, { p.2 with ent := { tileGuar := 95 } })) }
     due s 0 0x30 = true ∧ s.grantsFit 2 (entitleOf (s.euntoReq.drop 16)) = false) := by decide +kernel

/-- With one run of free memory units the free choice of placement has one outcome. -/
def freeMem : State := mbOf .ready 0 0x30 1 (entRec 1) { mbBase with tenants := [] }
theorem hyps_find_memory : due freeMem 0 0x30 = true ∧ freeMem.grantsFit 1 (entitleOf (freeMem.euntoReq.drop 16)) = true ∧ (freeMem.findMemory 1 0 1).isSome = true := by
  refine ⟨by decide +kernel, by decide +kernel, ?_⟩
  have h : unitRuns (freeMem.setBase 1 / 2 ^ 24) ((List.range freeMem.memUnits).filter freeMem.unitFree) = [(0, 2048)] := by decide +kernel
  unfold State.findMemory
  simp only [h, List.length_singleton, Nat.max_self, Nat.mod_one]
  decide +kernel

theorem hyps_tenant_commands :
    (let s := tenantCmd 0x31 .active (entRec 2)
     due s 0 0x31 = true ∧ s.takesAway 1 (entitleOf (s.euntoReq.drop 16)) = none ∧ s.grantsFit 1 (entitleOf (s.euntoReq.drop 16)) = true ∧
     (s.reScratch 1 (entitleOf (s.euntoReq.drop 16)).tileBurst).isSome = true) ∧
    due (tenantCmd 0x32 .active ([0, 0, 0, 0] ++ leBytes 4 100)) 0 0x32 = true ∧ due (tenantCmd 0x32 .active ([1, 0, 0, 0] ++ leBytes 4 100)) 0 0x32 = true ∧
    due (tenantCmd 0x32 .quiesced ([2] ++ zeros 7)) 0 0x32 = true ∧ due (tenantCmd 0x33 .quiesced []) 0 0x33 = true ∧ due (tenantCmd 0x34 .quiesced []) 0 0x34 = true ∧
    due (tenantCmd 0x39 .active []) 0 0x39 = true := by decide +kernel

theorem hyps_migrate :
    let s := { tenantCmd 0x38 .active (leBytes 8 (2 ^ 56) ++ leBytes 8 0 ++ leBytes 8 0x8000 ++ leBytes 8 (2 ^ 56 + 0x1000)) with
      tenants := (0, { tstate := .active, hrgnLo := [(0, 0xB)], hrgnHi := [(0, 0xFF000)] }) :: (tenantCmd 0x38 .active []).tenants }
    due s 0 0x38 = true ∧ s.rangeOk 0 (s.mbPay 0 8) (s.mbPay 0x10 8 / 32768) 3 = true ∧
    s.rangeOk 0 (s.mbPay 0x18 8) (((allocLen (s.tenant 1).alloc + 65535) / 65536 + 7) / 8) 3 = true := by decide +kernel

theorem hyps_tenant_ends :
    ((tenantCmd 0x33 .quiescing []).hasWork 1 = false) ∧ ({ tenantCmd 0x33 .resetting [] with tiles := [] } : State).unbound 1 = true := by decide +kernel

/-- An update image's header signed under the private key 1, whose public key is the base point: a body of 16 bytes, no component. -/
def fwBase : List Byte :=
  leBytes 4 0x31574641 ++ leBytes 2 1 ++ zeros 2 ++ leBytes 4 7 ++ zeros 8 ++ leBytes 4 16 ++ leBytes 4 0 ++ leBytes 4 0xFFFFFFFF ++ zeros 32
    ++ (List.range 6).flatMap (fun _ => zeros 12 ++ leBytes 4 0xFFFFFFFF) ++ zeros 12 ++ [1, 2, 0, 0] ++ zeros 16
def fwHdr : List Byte :=
  fwBase ++ (leBytes 32 0x7CF27B188D034F7E8A52380304B51AC3C08969E277F21B35A60B48FC47669978).reverse
    ++ (leBytes 32 0x5992E66301901034B1643BB202B048E0C578A5603A10B33211AA1D3B394BB29F).reverse
def keysOf : Tab KeySlot :=
  [(1, { kind := 3, len := 32, owner := 0x7F, data := zeros 32 }), (2, { kind := 1, len := 64, owner := 0x7F, data := (leBytes 32 p256Gx).reverse ++ (leBytes 32 p256Gy).reverse })]

/-- The PF's region 0x1000000 holds the header. -/
def fwState (ds : DevState) (op : Nat) (pl : List Byte) : State :=
  mbOf ds 0 op 0 pl { engState fwHdr with keys := keysOf, tenants := [(0, { tstate := .active, alloc := [{ base := 0x1000000, len := 0x1000000 }] })] }

theorem test_signature : p256Verify p256Gx p256Gy (sha256 fwBase) 0x7CF27B188D034F7E8A52380304B51AC3C08969E277F21B35A60B48FC47669978
    0x5992E66301901034B1643BB202B048E0C578A5603A10B33211AA1D3B394BB29F = true := by decide +kernel

theorem hyps_fw_begin :
    let s := fwState .ready 0x50 (leBytes 8 0x1000400)
    due s 0 0x50 = true ∧ s.rangeOk 0 (s.mbPay 0 8) 256 1 = true ∧ (s.readBytes (s.mbPay 0 8) 256).1 = fwHdr ∧ fwHeaderOk fwHdr = true ∧ getLE fwHdr 0xAC 1 = 1 ∧
    getLE fwHdr 0xAD 1 = 2 ∧ (s.keySlot 1).kind = 3 ∧ (s.keySlot 2).kind = 1 ∧ s.slotVerify 2 (fwHdr.take 0xC0) (cut fwHdr 0xC0 32) (cut fwHdr 0xE0 32) = true ∧
    s.fwCompatible fwHdr = true := by decide +kernel

theorem test_fw_begin : (after (.fwUpdateBegin 0) (fwState .ready 0x50 (leBytes 8 0x1000400))).dstate = .update := by decide +kernel

/-- A staged body that decrypts to what its header names, under a key of zeros. -/
def fwBody : List Byte := gcmCrypt (zeros 32) (zeros 12) (zeros 16)
def fwPart : List Byte := fwBase.take 0x20 ++ sha256 (zeros 16) ++ (fwBase.drop 0x40).take 0x70
def staged : State :=
  let s := fwState .update 0x52 []
  { s with upd := { s.upd with hdr := fwPart ++ gcmTag (zeros 32) (zeros 12) fwPart fwBody, body := fwBody } }

theorem hyps_fw_rest :
    (let s := { fwState .update 0x51 (leBytes 8 0x1000400 ++ leBytes 4 16 ++ leBytes 4 0) with upd := { hdr := fwHdr } }
     due s 0 0x51 = true ∧ s.rangeOk 0 (s.mbPay 0 8) (s.mbPay 8 4) 1 = true ∧ s.mbPay 12 4 + s.mbPay 8 4 ≤ fwBodyLen s.upd.hdr ∧ s.mbPay 12 4 = s.upd.body.length) ∧
    due staged 0 0x52 = true ∧ staged.upd.body.length = fwBodyLen staged.upd.hdr ∧ staged.fwPlain = some (zeros 16) ∧ ({ staged with upd := { staged.upd with body := zeros 16 } } : State).fwPlain = none ∧
    due (fwState .confirm 0x53 []) 0 0x53 = true ∧ due (fwState .ready 0x53 []) 0 0x53 = true := by decide +kernel

/-- A lifecycle block of an unknown serial number fails its first check; no witness can be given of one that is authorised, since it must be signed for the
serial number of the device, which is a free value. -/
theorem hyps_lifecycle : due (fwState .ready 0x54 ([2] ++ zeros 135)) 0 0x54 = true ∧ (fwState .ready 0x54 ([2] ++ zeros 135)).lifecycleCheck 2 (zeros 128) = 0x0101 := by decide +kernel

/-! ### Power and reliability -/

theorem reset_inv_decides : State.reset.pw.lmin ≤ State.reset.pw.level ∧ State.reset.pw.level ≤ 2 ∧ State.reset.errlog.recs = [] ∧ State.reset.mem.cells = [] := by decide

/-- A device whose power unit is as given. -/
def powered (p : Power) : State := { engState [] with pw := p }

theorem hyps_power :
    (powered { pwrgd := false }).pw.pwrgd = false ∧ State.reset.pw.supply = .ramping ∧ (powered { supply := .up }).pw.supply = .up ∧
    (powered { supply := .up, holdover := true }).pw.holdover = true ∧ (powered { supply := .up }).pw.ctl.getLsbD 0 = true ∧ (powered { supply := .up }).quietA1 = true ∧
    (powered { supply := .up, pstate := 1 }).quietA2 = true ∧ (powered { supply := .up }).pw.ctl.getLsbD 1 = true ∧
    (powered { supply := .up, pstate := 2, ctl := 7 }).quietA3 = true ∧ (powered { supply := .up, pstate := 2, ctl := 7 }).pw.ctl.getLsbD 2 = true ∧
    ({ taskAt img0 1 0 [] with pw := { supply := .up, pstate := 1 } } : State).quietA1 = false ∧ (powered { supply := .down, shut := 5 }).pw.shut ≠ 6 ∧
    (powered { supply := .up, under := 9 }).pw.under = 9 := by decide +kernel

theorem test_sample_above : (after (.powerSample 16001 12000) (powered { supply := .up })).pw.dcap = 15 ∧ (after (.powerSample 16001 12000) (powered { supply := .up, dcap := 4 })).pw.dcap = 4 := by
  decide +kernel
theorem test_sag : (after (.sagFire true) (powered { supply := .up, level := 1 })).pw.level = 2 ∧ (after (.sagFire true) (powered { supply := .up, level := 2 })).pw.level = 2 ∧
    (after .sagRecovery (powered { supply := .up, level := 1, lmin := 1 })).pw.level = 1 := by decide +kernel
theorem test_shutdown : (after .pwrgdLow (powered { supply := .up })).pw.shut = 8 ∧ (after .pwrgdLow (powered { supply := .up })).tiles = [] := by decide +kernel

/-- Tile 3 is fenced, and slice 5 is being removed. -/
def faulty : State := { engState [] with rel := { fenced := [3], removing := some (5, 1), draining := true } }

theorem hyps_reliability :
    faulty.rel.fenced.contains 3 = true ∧ ((faulty.rel.fences.getD 3 []).filter (fun k => decide (faulty.ticks < k + 24 * 3600 * 100000000))).length < 3 ∧
    (engState []).sliceOn 5 = true ∧ (engState []).rel.removing = none ∧ faulty.rel.removing = some (5, 1) ∧ (∀ p ∈ faulty.slices, p.2.txns = []) ∧
    (((netOf (msg0 .nack 127 96) { dir := [(64, { line := 4, owner := 1 })] }).slice (({} : State).homeOf 4)).dirWay 4) = some 64 ∧
    ((engState []).module 0).failed = false ∧ ((engState []).module 0).usable = true ∧ (engState []).mem.reqs = [] ∧ (engState []).rel.phases.getD 0 0 < 6 ∧
    (engState []).dstate ≠ .init ∧ (engState []).eunto = none ∧ ({ engState [] with nv := { hours := 720 } } : State).rel.planHours + 720 ≤ 720 ∧
    ({ mem := { modules := [(0, { usable := true, badReads := 2 })] } } : State).module 0 = { usable := true, badReads := 2 } := by decide +kernel

theorem hyps_slice_data : (({ slices := [(5, { data := [(0, { line := 0, owner := 1, dirty := false, blot := false, data := 0 })] })] } : State).slice 5).dataWay 0 = some 0 := by
  decide +kernel

theorem hyps_drift : ({ engState [] with rel := { drift := [(0, 100000)] } } : State).driftMoved = true ∧ (engState []).nv.hours < (engState []).rel.planHours + 720 := by decide +kernel

theorem hyps_margins : ∀ k, k < ({ engState [] with tilesOff := List.range 96 } : State).part.tiles → ({ engState [] with tilesOff := List.range 96 } : State).tileOn k = false := by decide +kernel

/-- KST_CMD for an HMAC key of 32 bytes of function 1 in slot 8. -/
def kstWord : Word := 0x8000000000000000 ||| (32 <<< 48) ||| (1 <<< 31) ||| (4 <<< 24) ||| 8
theorem hyps_keys :
    kstWord.getLsbD 63 = true ∧ kstWord.getLsbD 8 = false ∧ (engState []).kstErr1 (field kstWord 0 6) = false ∧ (engState []).kstErr3 kstWord = false ∧
    kstErr2 kstWord ((List.range 8).flatMap (fun n => leBytes 8 ((engState []).kstData.getD n 0).toNat)) = false ∧ (engState []).kstErr1 3 = true ∧
    (kstWord ||| 0x100).getLsbD 8 = true := by decide +kernel

theorem test_key_write : ((after (.keyWrite kstWord) (engState [])).keySlot 8).owner = 1 ∧ ((after (.keyWrite kstWord) (engState [])).keySlot 8).kind = 4 := by decide +kernel

theorem hyps_rest :
    quillWordOk 0xFFFFFFFF = false ∧ (engState []).eunto ≠ some 1 ∧ ((engState []).tenant 1).tstate = .active ∧ ((engState []).tenant 2).tstate = .none ∧
    ({ engState [] with nv := { lifecycle := 3 } } : State).nv.wiping = false ∧ getLE ([0x10, 0x84] : List Byte) 1 1 = 0x84 ∧ (engState []).spdm.session = none ∧
    ({ engState [] with spdm := { session := some true } } : State).spdm.session.isSome = true := by decide +kernel

theorem test_power_cap_out_of_range : field (after (.registerWrite (.bar0 0) 0x4C0018 8 100) (powered { supply := .up })).pw.cap 0 11 = 1600 := by decide +kernel

end Sys2Proof.Tests
end

section
/-! PROOFS. Obligations O1 (a step runs the front command) and O19 (a store merges exactly the bytes it names). -/

namespace Sys2Proof.Machine

/-- With a command at the front of the queue, a step runs it on the state with the queue's rest. -/
theorem step_of_pending_cons {s : State} {c : Instr} {r : List Instr} (h : s.pending = c :: r) :
    step s = exec c { s with pending := r } := by
  simp only [step, h]

/-- With nothing queued, a step changes nothing. -/
theorem step_of_pending_nil {s : State} (h : s.pending = []) : step s = .next s := by
  simp only [step, h]

/-- A bit of a value placed at a byte offset of a line: the value's bit, moved up by that many bytes. -/
theorem getLsbD_placeAt (v : Word) (o i : Nat) (hi : i < 512) :
    (placeAt v o).getLsbD i = (decide (8 * o ≤ i) && v.getLsbD (i - 8 * o)) := by
  rw [Bool.eq_iff_iff]
  simp [placeAt, hi]

/-- A bit of a line after the store of n bytes at an offset: from the value inside the named bytes, from the old line elsewhere. -/
theorem getLsbD_mergeLine_placeAt (d : Line) (v : Word) (o n i : Nat) (hi : i < 512) :
    (mergeLine d (placeAt v o) (byteMask o n)).getLsbD i =
      if o ≤ i / 8 ∧ i / 8 < o + n then v.getLsbD (i - 8 * o) else d.getLsbD i := by
  rw [getLsbD_mergeLine _ _ _ _ hi, getLsbD_byteMask _ _ _ (by omega)]
  by_cases hin : o ≤ i / 8 ∧ i / 8 < o + n
  · have hle : 8 * o ≤ i := by omega
    simp [hin, hle, getLsbD_placeAt _ _ _ hi]
  · simp [hin]

/-- The stored bytes read back as the value's low bytes. -/
theorem lineGet_mergeLine_placeAt (d : Line) (v : Word) {o n : Nat} (hon : o + n ≤ 64) :
    lineGet (mergeLine d (placeAt v o) (byteMask o n)) o n = v.toNat % 256 ^ n := by
  apply Nat.eq_of_testBit_eq
  intro i
  rw [testBit_lineGet, show 256 ^ n = 2 ^ (8 * n) from (Nat.pow_mul 2 8 n).symm, Nat.testBit_mod_two_pow,
    BitVec.testBit_toNat]
  by_cases hi : i < 8 * n
  · have hin : o ≤ (8 * o + i) / 8 ∧ (8 * o + i) / 8 < o + n := by omega
    rw [getLsbD_mergeLine_placeAt _ _ _ _ _ (by omega), if_pos hin, Nat.add_sub_cancel_left]
  · simp [hi]

/-- A byte of the line outside the stored ones reads as before. -/
theorem lineGet_mergeLine_placeAt_outside (d : Line) (v : Word) {o n j : Nat} (hj : j < 64) (hout : j < o ∨ o + n ≤ j) :
    lineGet (mergeLine d (placeAt v o) (byteMask o n)) j 1 = lineGet d j 1 := by
  apply Nat.eq_of_testBit_eq
  intro i
  rw [testBit_lineGet, testBit_lineGet]
  by_cases hi : i < 8 * 1
  · have hnot : ¬(o ≤ (8 * j + i) / 8 ∧ (8 * j + i) / 8 < o + n) := by omega
    rw [getLsbD_mergeLine_placeAt _ _ _ _ _ (by omega), if_neg hnot]
  · simp [hi]

/-- Settles O1, by the two cases of the queue that a step looks at. -/
theorem stepRunsFrontCommand : Obligations.StepRunsFrontCommand :=
  ⟨fun _ _ _ h => step_of_pending_cons h, fun _ h => step_of_pending_nil h⟩

/-- Settles O19, bit by bit: each bit of the merged line comes from the value exactly when its byte is one of the n stored. -/
theorem storeMergesExactBytes : Obligations.StoreMergesExactBytes := by
  intro d v o n _ hon
  exact ⟨lineGet_mergeLine_placeAt d v hon, fun j hj hout => lineGet_mergeLine_placeAt_outside d v hj hout⟩

end Sys2Proof.Machine
end

section
/-! PROOFS. Obligation O30 (the events of the ring engine): delayed commands, completion writes, unmasking, returned extents. -/

namespace Sys2Proof.Machine

variable {s : State} {f q : Nat}

/-! ### Delayed commands (20 R588) -/

theorem execDelayedStart_of_cons {id : Nat} {w : Work} {r : Tab Work} (h : s.delayedOf f = (id, w) :: r)
    (hgo : (s.tenant f).underGuar = true ∨ s.deviceIdle = true) :
    execDelayedStart f s = .next (s.updWork id (fun y => { y with stage := .ready, qtime := s.ticks - y.tick })) := by
  simp only [execDelayedStart, h, Bool.or_eq_true, if_pos hgo]

theorem execDelayTimeout_of_cons {id : Nat} {w : Work} {r : Tab Work} (h : s.delayedOf f = (id, w) :: r) :
    execDelayTimeout f s =
      .next (((s.updWork id (fun y => { y with disp := 3, qtime := 0 })).countDisp f 3).workDone id { status := 0x0202 }) := by
  simp only [execDelayTimeout, h]

/-! ### Completions (17 R494, R495) -/

theorem State.writeCompletion_of_waiting {x : QPair} {k : Cpl} {rest : List Cpl} (hx : s.pair f q = some x)
    (hw : x.waiting = k :: rest) (hown : 128 ≤ getLE (s.readBytes (x.cqBase + 16 * (x.t % x.cqN) + 5) 1).1 0 1) :
    s.writeCompletion f q =
      let s1 := (s.writeBytes f (x.cqBase + 16 * (x.t % x.cqN)) k.bytes).updPair f q (fun x => { x with t := x.t + 1, waiting := rest })
      let s2 := if k.noirq then s1 else s1.pairMessage f q
      (s2.unwaitFor k.covers).settleCancels s2.works.length := by
  simp only [State.writeCompletion, hx, hw, if_neg (Nat.not_lt.mpr hown)]

theorem State.writeCompletion_of_nil {x : QPair} (hx : s.pair f q = some x) (hw : x.waiting = []) : s.writeCompletion f q = s := by
  simp only [State.writeCompletion, hx, hw]

/-- A drain stops at a write that did not move the pair's count of written completions. -/
theorem State.drainCompletions_succ_of_same {n : Nat}
    (h : ((s.writeCompletion f q).pair f q).map (·.t) = (s.pair f q).map (·.t)) : s.drainCompletions f q (n + 1) = s := by
  simp only [State.drainCompletions, if_pos h]

/-- A drain goes on after a write that moved the pair's count of written completions. -/
theorem State.drainCompletions_succ_of_moved {n : Nat}
    (h : ((s.writeCompletion f q).pair f q).map (·.t) ≠ (s.pair f q).map (·.t)) :
    s.drainCompletions f q (n + 1) = (s.writeCompletion f q).drainCompletions f q n := by
  simp only [State.drainCompletions, if_neg h]

theorem execCompletionRecheck_of_nil {x : QPair} (hx : s.pair f q = some x) (hw : x.waiting = []) :
    execCompletionRecheck f q s = .next s := by
  have hsame : ((s.writeCompletion f q).pair f q).map (·.t) = (s.pair f q).map (·.t) := by
    rw [State.writeCompletion_of_nil hx hw]
  rw [execCompletionRecheck, State.drainCompletions_succ_of_same (n := 255) hsame]

theorem execCompletionRecheck_of_written {x : QPair} (hx : s.pair f q = some x)
    (ht : ((s.writeCompletion f q).pair f q).map (·.t) = some (x.t + 1)) :
    execCompletionRecheck f q s = .next ((s.writeCompletion f q).drainCompletions f q 255) := by
  have hmoved : ((s.writeCompletion f q).pair f q).map (·.t) ≠ (s.pair f q).map (·.t) := by
    simp [ht, hx]
  rw [execCompletionRecheck, State.drainCompletions_succ_of_moved (n := 255) hmoved]

theorem execCoalesceExpiry_of_held {x : QPair} (hx : s.pair f q = some x) (hh : x.msgHeld = true) :
    execCoalesceExpiry f q s =
      .next ((s.updPair f q (fun x => { x with msgHeld := false, lastMsg := some s.ticks })).signal f x.vector) := by
  simp only [execCoalesceExpiry, hx, if_pos hh]

/-! ### Unmasking (16 R483) -/

theorem State.mem_pba_sendUnmasked {k : Nat} :
    k ∈ (s.sendUnmasked f).host.pba ↔ k ∈ s.host.pba ∧ ¬(k / 64 = f ∧ k ∈ s.host.unmasked ∧ f ∈ s.host.fnUnmasked) := by
  simp only [State.sendUnmasked, List.mem_filter, List.contains_eq_mem, Bool.not_eq_true', decide_eq_false_iff_not,
    Bool.and_eq_true, decide_eq_true_eq, beq_iff_eq]
  tauto

theorem State.mem_sent_sendUnmasked {k : Nat} :
    k ∈ (s.sendUnmasked f).host.sent ↔
      (k ∈ s.host.pba ∧ k / 64 = f ∧ k ∈ s.host.unmasked ∧ f ∈ s.host.fnUnmasked) ∨ k ∈ s.host.sent := by
  simp [State.sendUnmasked, and_assoc]

/-- No message of the function stays pending that nothing masks any more. -/
theorem State.sendUnmasked_pba_masked {k : Nat} (hk : k ∈ (s.sendUnmasked f).host.pba) (hf : k / 64 = f) :
    ¬(k ∈ (s.sendUnmasked f).host.unmasked ∧ f ∈ (s.sendUnmasked f).host.fnUnmasked) :=
  fun hfree => (State.mem_pba_sendUnmasked.mp hk).2 ⟨hf, hfree⟩

/-- No pending message is lost: it stays pending or is sent. -/
theorem State.mem_pba_or_sent_sendUnmasked {k : Nat} (hk : k ∈ s.host.pba) :
    k ∈ (s.sendUnmasked f).host.pba ∨ k ∈ (s.sendUnmasked f).host.sent := by
  by_cases hdue : k / 64 = f ∧ k ∈ s.host.unmasked ∧ f ∈ s.host.fnUnmasked
  · exact .inr (State.mem_sent_sendUnmasked.mpr (.inl ⟨hk, hdue⟩))
  · exact .inl (State.mem_pba_sendUnmasked.mpr ⟨hk, hdue⟩)

/-- A sending leaves no message of the function pending that nothing masks, and loses none. -/
theorem State.sendUnmasked_delivers (s : State) (f : Nat) :
    (∀ k ∈ (s.sendUnmasked f).host.pba, k / 64 = f →
      ¬(k ∈ (s.sendUnmasked f).host.unmasked ∧ f ∈ (s.sendUnmasked f).host.fnUnmasked)) ∧
    (∀ k ∈ s.host.pba, k ∈ (s.sendUnmasked f).host.pba ∨ k ∈ (s.sendUnmasked f).host.sent) :=
  ⟨fun _ => State.sendUnmasked_pba_masked, fun _ => State.mem_pba_or_sent_sendUnmasked⟩

/-- The list with a number in it, put at the front where it was not there: how the masks record an unmasking. -/
def withNum (l : List Nat) (k : Nat) : List Nat := if l.contains k then l else k :: l

theorem mem_withNum_self (l : List Nat) (k : Nat) : k ∈ withNum l k := by
  unfold withNum
  split
  · next hin => exact List.contains_iff_mem.mp hin
  · exact List.mem_cons_self

theorem execMsixUnmask_vector {v : Nat} (hv : v < 64) :
    execMsixUnmask f v s =
      .next (State.sendUnmasked { s with host := { s.host with unmasked := withNum s.host.unmasked (f * 64 + v) } } f) := by
  simp only [execMsixUnmask, if_pos hv, withNum]

theorem execMsixUnmask_function {v : Nat} (hv : 64 ≤ v) :
    execMsixUnmask f v s =
      .next (State.sendUnmasked { s with host := { s.host with fnUnmasked := withNum s.host.fnUnmasked f } } f) := by
  simp only [execMsixUnmask, if_neg (Nat.not_lt.mpr hv), withNum]

/-! ### Returned extents (02 R45) -/

/-- EXTENT_RETURN keeps exactly the retired extents that a task holds back, and frees the places of the others alone. -/
theorem execExtentReturn_retired (s : State) (f : Nat) : ∃ u, execExtentReturn f s = .next u ∧
    (∀ p, p ∈ (u.tenant f).retired ↔ p ∈ (s.tenant f).retired ∧ p.2 ≠ []) ∧
    (∀ a, a ∈ (u.tenant f).used ↔ a ∈ (s.tenant f).used ∧ ∀ p ∈ (s.tenant f).retired, p.2 = [] → p.1 ≠ a) := by
  refine ⟨_, rfl, fun p => ?_, fun a => ?_⟩ <;> rw [State.tenant_updTenant]
  · simp
  · have hdue : a ∈ ((s.tenant f).retired.filter (fun p => p.2.isEmpty)).map (·.1) ↔
        ∃ p ∈ (s.tenant f).retired, p.2 = [] ∧ p.1 = a := by
      simp only [List.mem_map, List.mem_filter, List.isEmpty_iff, and_assoc]
    simp only [List.mem_filter, List.contains_eq_mem, Bool.not_eq_true', decide_eq_false_iff_not, hdue, not_exists, not_and, ne_eq]

/-- Settles O30, clause by clause: the rules above for the delayed commands, the completions, the masks and the retired extents. -/
theorem ringEngineEvents : Obligations.RingEngineEvents := by
  intro s f q v
  refine ⟨fun id w r h => ⟨execDelayedStart_of_cons h, execDelayTimeout_of_cons h⟩,
    fun x k rest hx hw hown => congrArg _ (State.writeCompletion_of_waiting hx hw hown),
    fun x hx hw => execCompletionRecheck_of_nil hx hw,
    fun x k hx _ _ ht => execCompletionRecheck_of_written hx ht,
    fun x hx hh => execCoalesceExpiry_of_held hx hh,
    fun hv => ⟨_, execMsixUnmask_vector hv, mem_withNum_self _ _, State.sendUnmasked_delivers _ _⟩,
    fun hv => ⟨_, execMsixUnmask_function hv, mem_withNum_self _ _, State.sendUnmasked_delivers _ _⟩, ?_⟩
  obtain ⟨u, hu, hretired, hused⟩ := execExtentReturn_retired s f
  exact ⟨u, hu, fun p hp => ((hretired p).mp hp).2, fun p hp he hin => ((hused p.1).mp hin).2 p hp he rfl,
    fun p hp hne => (hretired p).mpr ⟨hp, hne⟩⟩

end Sys2Proof.Machine
end

section
/-! PROOFS. Rules of the Stroke unit that its obligations share: a field after a field is written, the slots of a row, what a change of
one Stroke unit leaves, and how a run ends. -/

namespace Sys2Proof.Machine

/-! ### Fields -/

theorem testBit_field {w : Nat} (r : BitVec w) (lo n j : Nat) :
    (field r lo n).testBit j = (decide (j < n) && r.getLsbD (lo + j)) := by
  rw [field, Nat.testBit_mod_two_pow, Nat.testBit_div_two_pow, Nat.add_comm, BitVec.testBit_toNat]

/-- A field takes the value written to it, cut to its width. -/
theorem field_setField_self {w : Nat} (r : BitVec w) {lo n : Nat} (v : Nat) (h : lo + n ≤ w) :
    field (setField r lo n v) lo n = v % 2 ^ n := by
  apply Nat.eq_of_testBit_eq
  intro j
  rw [testBit_field, Nat.testBit_mod_two_pow]
  by_cases hj : j < n
  · rw [getLsbD_setField _ _ _ _ _ (by omega), if_pos (by omega), Nat.add_sub_cancel_left]
  · simp [hj]

/-- A field keeps its value when another one is written. -/
theorem field_setField_disjoint {w : Nat} (r : BitVec w) {lo n lo' n' : Nat} (v : Nat) (h : lo' + n' ≤ w)
    (hd : lo + n ≤ lo' ∨ lo' + n' ≤ lo) : field (setField r lo n v) lo' n' = field r lo' n' := by
  apply Nat.eq_of_testBit_eq
  intro j
  rw [testBit_field, testBit_field]
  by_cases hj : j < n'
  · rw [getLsbD_setField _ _ _ _ _ (by omega), if_neg (by omega)]
  · simp [hj]

/-! ### The slots of a row (03 R56) -/

theorem Stroke.slots_le_four (k : Stroke) : k.slots ≤ 4 := by
  have : field k.pred 28 2 < 2 ^ 2 := Nat.mod_lt _ (by decide)
  unfold Stroke.slots
  omega

theorem RowSt.slot_setSlot (r : RowSt) {i j : Nat} (v : Nat) (hj : j < 4) :
    (r.setSlot i v).slot j = if j = i then v % 4 else r.slot j := by
  unfold RowSt.setSlot RowSt.slot
  split
  · next h => subst h; exact field_setField_self _ _ (by omega)
  · next h => exact field_setField_disjoint _ _ (by omega) (by omega)

/-- Steps that each change one slot by g, made for the slots below n in turn, change each of these slots once. -/
theorem RowSt.slot_foldl_range {f : RowSt → Nat → RowSt} {g : Nat → Nat → Nat}
    (hf : ∀ r i j, j < 4 → (f r i).slot j = if j = i then g i (r.slot i) else r.slot j) (r : RowSt) (n : Nat) {j : Nat} (hj : j < 4) :
    ((List.range n).foldl f r).slot j = if j < n then g j (r.slot j) else r.slot j := by
  induction n with
  | zero => rfl
  | succ n ih =>
    rw [List.range_succ, List.foldl_append, List.foldl_cons, List.foldl_nil, hf _ _ _ hj]
    by_cases hjn : j = n
    · subst hjn
      rw [if_pos rfl, if_pos (Nat.lt_succ_self j), ih, if_neg (Nat.lt_irrefl j)]
    · rw [if_neg hjn, ih]
      exact ite_congr (propext ⟨fun h => by omega, fun h => by omega⟩) (fun _ => rfl) (fun _ => rfl)

/-! ### Changes of one Stroke unit -/

variable {s : State} {t : Nat}

@[simp] theorem State.stroke_updStroke (f : Stroke → Stroke) : (s.updStroke t f).stroke t = f (s.stroke t) :=
  congrArg Tile.stroke (s.tile_updTile t _)

@[simp] theorem State.core_updStroke (f : Stroke → Stroke) : (s.updStroke t f).core t = s.core t :=
  s.core_updTile t _

@[simp] theorem State.stroke_updCore (f : Core → Core) : (s.updCore t f).stroke t = s.stroke t := by
  rw [State.stroke, State.tile_updCore, State.stroke]

@[simp] theorem State.stroke_countLines (n : Nat) :
    (s.countLines t n).stroke t = { s.stroke t with lines := (s.stroke t).lines + BitVec.ofNat 64 n } :=
  s.stroke_updStroke _

theorem State.onlyTile_updStroke (s : State) (t : Nat) (f : Stroke → Stroke) : s.onlyTile t (s.updStroke t f) :=
  ⟨rfl, fun _ hk => s.tile_updTile_ne _ hk.symm, congrArg (fun x => x.l1.d) (s.tile_updStroke t f)⟩

/-! ### The end of a run (03 R66, R81, R82) -/

/-- A Stroke unit whose run has ended with ERR: no run, ERR as given, DONE set and BUSY clear. -/
def Stroke.endedWith (k : Stroke) (err : Nat) : Prop :=
  k.run = none ∧ field k.stat 8 8 = err ∧ k.stat.getLsbD 1 = true ∧ k.stat.getLsbD 0 = false

/-- STK_STAT as a run's end leaves it: ERR in bits 15 to 8, DONE in bit 1, BUSY in bit 0. -/
theorem endStat_fields (r : BitVec 32) {err : Nat} (h : err < 256) :
    let r' := (setField r 8 8 err &&& 0xFFFFFFFE) ||| 2
    field r' 8 8 = err ∧ r'.getLsbD 1 = true ∧ r'.getLsbD 0 = false := by
  intro r'
  have hlow (j : Nat) (hj : j < 8) : (0xFFFFFFFE : BitVec 32).getLsbD (8 + j) = true ∧ (2 : BitVec 32).getLsbD (8 + j) = false := by
    interval_cases j <;> decide
  refine ⟨?_, by simp [r'], by simp [r']⟩
  calc field r' 8 8 = field (setField r 8 8 err) 8 8 := by
        apply Nat.eq_of_testBit_eq
        intro j
        rw [testBit_field, testBit_field]
        by_cases hj : j < 8
        · simp only [r', BitVec.getLsbD_or, BitVec.getLsbD_and, hlow j hj, Bool.and_true, Bool.or_false]
        · simp [hj]
    _ = err := by rw [field_setField_self _ _ (by decide)]; exact Nat.mod_eq_of_lt h

theorem State.endRun_ended (s : State) (t : Nat) {err : Nat} (h : err < 256) : ((s.endRun t err).stroke t).endedWith err := by
  rw [State.endRun, State.stroke_updStroke]
  exact ⟨rfl, endStat_fields _ h⟩

theorem State.endRun_sel (err : Nat) : ((s.endRun t err).stroke t).sel = (s.stroke t).sel := by
  rw [State.endRun, State.stroke_updStroke]

theorem State.endRun_count (err : Nat) : ((s.endRun t err).stroke t).count = (s.stroke t).count := by
  rw [State.endRun, State.stroke_updStroke]

theorem State.endRun_blot {err : Nat} (h : err ≠ 0) :
    ((s.endRun t err).stroke t).blot = (s.stroke t).blot.filter (fun p => p.2.st != .held) := by
  rw [State.endRun, State.stroke_updStroke]
  exact if_neg h

end Sys2Proof.Machine
end

section
/-! PROOFS. Obligation O38: what one pass does to the comparison states of a row. -/

namespace Sys2Proof.Machine

/-- The state of a slot after the pass over a plane, of its state, the row's Nib and the constant's (03 R58). -/
def passState (last : Prop) [Decidable last] (n c st : Nat) : Nat :=
  if st ≠ 0 then st else if n < c then 1 else if c < n then 2 else if last then 3 else 0

/-- A pass takes every slot in use to its next state. -/
theorem Stroke.slot_stepRow (k : Stroke) (h : SegHdr) (p n : Nat) (r : RowSt) {i : Nat} (hi : i < k.slots) :
    (k.stepRow h p n r).slot i = passState (p + 1 = h.nplanes) n (k.constNib h i p) (r.slot i) := by
  have hslots := k.slots_le_four
  rw [Stroke.stepRow, RowSt.slot_foldl_range (g := fun i => passState (p + 1 = h.nplanes) n (k.constNib h i p)) _ r _ (by omega), if_pos hi]
  intro r i j hj
  simp only [apply_ite (fun r => RowSt.slot r j), RowSt.slot_setSlot _ _ hj]
  by_cases hji : j = i
  · subst hji
    by_cases hU : r.slot j = 0 <;> simp [passState, hU]
  · simp [hji]

theorem passState_last_ne_zero {last : Prop} [Decidable last] (h : last) (n c st : Nat) : passState last n c st ≠ 0 := by
  unfold passState
  by_cases hU : st = 0
  · rw [if_neg (not_not.mpr hU), if_pos h]
    split_ifs <;> decide
  · rwa [if_pos hU]

/-- Settles O38: the pass takes each slot to its next state, which is never U when no plane follows. -/
theorem planePassStates : Obligations.PlanePassStates := by
  intro k h p n i r hi
  rw [Stroke.slot_stepRow k h p n r hi]
  exact ⟨rfl, fun hlast => passState_last_ne_zero hlast _ _ _⟩

end Sys2Proof.Machine
end

section
/-! PROOFS. Obligation O39: how a run begins. -/

namespace Sys2Proof.Machine

variable {s : State} {t : Nat}

/-- START has cleared STK_STAT's low half and STK_COUNT (03 R54, R81). -/
def State.strokeCleared (s : State) (t : Nat) : State := s.updStroke t (fun k => { k with stat := k.stat &&& 0xFFFF0000, count := 0 })

/-- A row whose slots stand where the constants and the segment's range settle them (03 R57, R61). -/
def Stroke.startRow (k : Stroke) (h : SegHdr) : RowSt := (List.range k.slots).foldl (fun r i => r.setSlot i (k.startState h i)) {}

/-- The rows of a compare run before its first pass, with the input selection combined (03 R65). -/
def Stroke.startRows (k : Stroke) (h : SegHdr) : List RowSt :=
  (List.range h.rows).map (fun r => { k.startRow h with forced := if h.nulls = h.rows then some false else k.combine r })

/-- The rows that an aggregate run over a column without nulls takes (03 R67). -/
def Stroke.startCand (k : Stroke) (h : SegHdr) : List Nat :=
  (List.range h.rows).filter (fun r => (k.selBuf (field k.ctl 12 2)).getLsbD r && decide (h.nulls < h.rows))

theorem Stroke.startState_lt (k : Stroke) (h : SegHdr) (i : Nat) : k.startState h i < 4 := by
  unfold Stroke.startState settle
  dsimp only
  split_ifs <;> decide

theorem Stroke.slot_startRow (k : Stroke) (h : SegHdr) {i : Nat} (hi : i < k.slots) : (k.startRow h).slot i = k.startState h i := by
  have hslots := k.slots_le_four
  rw [Stroke.startRow, RowSt.slot_foldl_range (g := fun i _ => k.startState h i % 4) (fun r i j hj => RowSt.slot_setSlot r _ hj) _ _ (by omega),
    if_pos hi, Nat.mod_eq_of_lt (k.startState_lt h i)]

theorem Stroke.getElem?_startRows {k : Stroke} {h : SegHdr} {i : Nat} {x : RowSt} (hx : (k.startRows h)[i]? = some x) :
    x = { k.startRow h with forced := if h.nulls = h.rows then some false else k.combine i } := by
  obtain ⟨hi, rfl⟩ := List.getElem?_eq_some_iff.mp hx
  simp [Stroke.startRows]

/-- The header and the directory at STK_SEG are read without Blot and pass the checks of R42, and the header is h. -/
structure State.SegmentOk (s : State) (t : Nat) (h : SegHdr) : Prop where
  header : (s.readBytes (s.stroke t).addr 64).2 = false
  directory : (s.readBytes ((s.stroke t).addr + 0x40) 128).2 = false
  check : hdrCheck (s.readBytes (s.stroke t).addr 64).1 (s.readBytes ((s.stroke t).addr + 0x40) 128).1 = none
  parsed : parseHdr (s.readBytes (s.stroke t).addr 64).1 = h

/-- STK_CTL or STK_PRED has an encoding that START refuses (03 R81, R84). -/
abbrev Stroke.Reserved (k : Stroke) : Prop :=
  4 < k.mode ∨ (k.mode = 0 ∧ ((List.range k.slots).map k.kind).any (fun x => decide (5 < x)))

/-- The mode, or a kind of it, that a segment's transform does not allow (03 R57, R68, R69). -/
abbrev Stroke.Unsuited (k : Stroke) (h : SegHdr) : Prop :=
  (k.mode = 0 ∧ h.xform = 4 ∧ ((List.range k.slots).map k.kind).any (fun x => decide (2 ≤ x))) ∨
    (k.mode = 1 ∧ (h.xform = 2 ∨ 4 ≤ h.xform)) ∨ ((k.mode = 2 ∨ k.mode = 3) ∧ h.xform = 4)

/-- START with a reserved encoding ends the run before anything is read. -/
theorem State.strokeStart_of_reserved (hidle : (s.stroke t).busy = false) (hres : (s.stroke t).Reserved) :
    s.strokeStart t = (s.strokeCleared t).endRun t 4 := by
  simp only [State.strokeStart, hidle, Bool.false_eq_true, if_false, if_pos hres, State.strokeCleared]

/-- A compare run without zone pruning begins with its start rows. -/
theorem State.strokeStart_of_compare {h : SegHdr} (hidle : (s.stroke t).busy = false) (hres : ¬(s.stroke t).Reserved)
    (hseg : s.SegmentOk t h) (hsuit : ¬(s.stroke t).Unsuited h) (hmode : (s.stroke t).mode = 0)
    (hzone : (s.stroke t).ctl.getLsbD 3 = false) :
    s.strokeStart t = ((s.strokeCleared t).countLines t 1).updStroke t
      (fun k => { k with run := some { hdr := h, rows := (s.stroke t).startRows h }, stat := k.stat ||| 1 }) := by
  obtain ⟨hhdr, hdir, hcheck, rfl⟩ := hseg
  simp only [State.strokeStart, hidle, if_neg hres, hhdr, hdir, hcheck, if_neg hsuit, if_pos hmode, hzone, Bool.false_eq_true, if_false,
    Bool.or_self, Bool.false_and, State.strokeCleared, Stroke.startRows, Stroke.startRow]

/-- An aggregate run over a column without nulls begins with its selected rows. -/
theorem State.strokeStart_of_aggregate {h : SegHdr} (hidle : (s.stroke t).busy = false) (hres : ¬(s.stroke t).Reserved)
    (hseg : s.SegmentOk t h) (hsuit : ¬(s.stroke t).Unsuited h) (hmode : (s.stroke t).mode ≠ 0) (hnulls : h.nulls = 0) :
    s.strokeStart t = ((s.strokeCleared t).countLines t 1).updStroke t (fun k => { k with
      run := some { hdr := h, rows := [], cand := (s.stroke t).startCand h }, stat := k.stat ||| 1,
      count := BitVec.ofNat 32 ((s.stroke t).startCand h).length, accLo := 0, accHi := 0 }) := by
  obtain ⟨hhdr, hdir, hcheck, rfl⟩ := hseg
  simp only [State.strokeStart, hidle, if_neg hres, hhdr, hdir, hcheck, if_neg hsuit, if_neg hmode, hnulls, Bool.false_eq_true, if_false,
    Bool.or_self, true_or, if_true, State.strokeCleared, Stroke.startCand]

theorem Stroke.reserved_of_exists {k : Stroke}
    (h : 4 < k.mode ∨ (k.mode = 0 ∧ ∃ x ∈ (List.range k.slots).map k.kind, 5 < x)) : k.Reserved := by
  simpa only [Stroke.Reserved, List.any_eq_true, decide_eq_true_eq] using h

theorem Stroke.not_reserved_of_compare {k : Stroke} (hmode : k.mode = 0) (hkinds : ∀ x ∈ (List.range k.slots).map k.kind, x ≤ 5) :
    ¬k.Reserved := by
  simp only [Stroke.Reserved, List.any_eq_true, decide_eq_true_eq, hmode]
  rintro (h | ⟨-, x, hx, h5⟩)
  · exact absurd h (by decide)
  · exact absurd (hkinds x hx) (by omega)

theorem Stroke.not_unsuited_of_compare {k : Stroke} {h : SegHdr} (hmode : k.mode = 0)
    (hdict : h.xform = 4 → ∀ x ∈ (List.range k.slots).map k.kind, x ≤ 1) : ¬k.Unsuited h := by
  simp only [Stroke.Unsuited, List.any_eq_true, decide_eq_true_eq, hmode]
  rintro (⟨-, h4, x, hx, h2⟩ | ⟨h1, -⟩ | ⟨h23, -⟩)
  · exact absurd (hdict h4 x hx) (by omega)
  · exact absurd h1 (by decide)
  · exact absurd h23 (by decide)

/-- STK_STAT.BUSY is set in a register to which bit 0 is added. -/
theorem getLsbD_zero_or_one (r : BitVec 32) : (r ||| 1).getLsbD 0 = true := by simp

/-- Settles O39: the refused encodings end the run with ERR 4; a compare run begins with its start rows, an aggregate run with its
selected rows. -/
theorem strokeRunBegins : Obligations.StrokeRunBegins := by
  intro s t hidle
  refine ⟨fun hres => ?_, fun hhdr hdir hcheck => ?_⟩
  · have hstart : exec (.start t) s = .next ((s.strokeCleared t).endRun t 4) :=
      congrArg _ (State.strokeStart_of_reserved hidle (Stroke.reserved_of_exists hres))
    obtain ⟨hrun, herr, hdone, _⟩ := (s.strokeCleared t).endRun_ended t (err := 4) (by decide)
    exact ⟨_, hstart, hrun, herr, hdone⟩
  intro h
  have hseg : s.SegmentOk t h := ⟨hhdr, hdir, hcheck, rfl⟩
  refine ⟨fun hmode hkinds hdict hzone => ?_, fun hmodes hnulls => ?_⟩
  · have hstart := State.strokeStart_of_compare hidle (Stroke.not_reserved_of_compare hmode hkinds) hseg
      (Stroke.not_unsuited_of_compare hmode hdict) hmode hzone
    refine ⟨_, rfl, ?_⟩
    simp only [hstart, State.stroke_updStroke, State.stroke_countLines, State.strokeCleared]
    refine ⟨getLsbD_zero_or_one _, rfl, _, rfl, rfl, rfl, by simp [Stroke.startRows], fun i x hx => ?_⟩
    obtain rfl := Stroke.getElem?_startRows hx
    exact ⟨rfl, fun j hj => Stroke.slot_startRow _ _ hj⟩
  · have hres : ¬(s.stroke t).Reserved := by unfold Stroke.Reserved; omega
    have hsuit : ¬(s.stroke t).Unsuited h := by unfold Stroke.Unsuited; omega
    have hstart := State.strokeStart_of_aggregate hidle hres hseg hsuit (by omega) hnulls
    refine ⟨_, rfl, ?_⟩
    rw [hstart, State.stroke_updStroke]
    exact ⟨getLsbD_zero_or_one _, rfl, rfl, _, rfl, rfl, rfl, rfl, rfl⟩

end Sys2Proof.Machine
end

section
/-! PROOFS. Obligation O40: a pass over the next plane, and the end of a run. -/

namespace Sys2Proof.Machine

variable {s : State} {t : Nat} {r : Run}

theorem Stroke.resolve_of_blot_nil {k : Stroke} (h : k.blot = []) (valid : Nat → Bool) (rows : List RowSt) : k.resolve valid rows = k := by
  simp only [Stroke.resolve, h, List.filter_nil, List.foldl_nil]

/-! ### Passes (03 R58, R63, R64, R68, R69) -/

/-- The smallest Nib where the mode is MIN, else the largest; 0 of none (03 R69). -/
def bestNib (mode : Nat) : List Nat → Nat
  | [] => 0
  | v :: rest => rest.foldl (fun a b => if mode = 2 then Nat.min a b else Nat.max a b) v

theorem bestNib_cons (mode v : Nat) (rest : List Nat) :
    bestNib mode (v :: rest) = if mode = 2 then rest.foldl min v else rest.foldl max v := by
  unfold bestNib
  by_cases h : mode = 2 <;> simp only [h, if_true, if_false]

/-- A Nib of the list is the best one exactly when no Nib of the list is better. -/
theorem eq_bestNib_iff {mode v : Nat} {vals : List Nat} (hv : v ∈ vals) :
    v = bestNib mode vals ↔ ∀ w ∈ vals, if mode = 2 then v ≤ w else w ≤ v := by
  cases vals with
  | nil => exact absurd hv (List.not_mem_nil)
  | cons x rest =>
    rw [bestNib_cons]
    split
    · have hmin := List.min?_eq_some_iff (xs := x :: rest) (a := v)
      rw [List.min?_cons', Option.some.injEq] at hmin
      rw [eq_comm, hmin, and_iff_right hv]
    · have hmax := List.max?_eq_some_iff (xs := x :: rest) (a := v)
      rw [List.max?_cons', Option.some.injEq] at hmax
      rw [eq_comm, hmax, and_iff_right hv]

/-- A pass has fetched n lines of plane p: STK_STAT names the plane (03 R64, R82, R90). -/
def Stroke.fetched (k : Stroke) (n p : Nat) : Stroke := { k with lines := k.lines + BitVec.ofNat 64 n, stat := setField k.stat 4 4 p }

section
variable {nib : Nat → Nat} {n : Nat} (hrun : (s.stroke t).run = some r) (hdue : (s.stroke t).passDue r = true)
  (hnibs : s.planeNibs (s.stroke t).addr r.hdr r.plane ((s.stroke t).live r) = (nib, false, n))
include hrun hdue hnibs

/-- The pass of a compare run with an empty Blotter that forwards nothing. -/
theorem State.strokePass_of_compare (hmode : (s.stroke t).mode = 0) (hblot : (s.stroke t).blot = [])
    (hfwd : (s.stroke t).ctl.getLsbD 4 = false) :
    (s.strokePass t).stroke t = { (s.stroke t).fetched n r.plane with run := some { r with
      plane := r.plane + 1
      rows := (List.range r.rows.length).zipWith
        (fun i (x : RowSt) => if ((s.stroke t).decided x).isSome then x else (s.stroke t).stepRow r.hdr r.plane (nib i) x) r.rows } } := by
  simp only [State.strokePass, hrun, hdue, hnibs, hmode, hblot, hfwd, Bool.not_true, Bool.false_eq_true, if_false, if_true,
    List.any_nil, Bool.false_and, State.stroke_updStroke, State.stroke_countLines, Stroke.resolve_of_blot_nil, Stroke.fetched]

/-- The pass of a SUM run. -/
theorem State.strokePass_of_sum (hmode : (s.stroke t).mode = 1) :
    (s.strokePass t).stroke t = { (s.stroke t).fetched n r.plane with run := some { r with
      plane := r.plane + 1, acc := r.acc + (r.cand.map nib).sum * 16 ^ (r.hdr.nplanes - 1 - r.plane) } } := by
  simp only [State.strokePass, hrun, hdue, hnibs, hmode, Bool.not_true, Bool.false_eq_true, if_false, if_true,
    State.stroke_updStroke, State.stroke_countLines, Stroke.fetched, Nat.one_ne_zero]

/-- The pass of a MIN or MAX run. -/
theorem State.strokePass_of_extremum (hmode : (s.stroke t).mode = 2 ∨ (s.stroke t).mode = 3) :
    (s.strokePass t).stroke t = { (s.stroke t).fetched n r.plane with run := some { r with
      plane := r.plane + 1
      cand := r.cand.filter (fun i => nib i == bestNib (s.stroke t).mode (r.cand.map nib))
      code := r.code * 16 + bestNib (s.stroke t).mode (r.cand.map nib) } } := by
  have h0 : (s.stroke t).mode ≠ 0 := by omega
  have h1 : (s.stroke t).mode ≠ 1 := by omega
  simp only [State.strokePass, hrun, hdue, hnibs, if_neg h0, if_neg h1, Bool.not_true, Bool.false_eq_true, if_false,
    State.stroke_updStroke, State.stroke_countLines, Stroke.fetched]
  rfl

end

/-- The candidates that are left are those with the best Nib. -/
theorem mem_filter_bestNib {mode i : Nat} {cand : List Nat} {nib : Nat → Nat} :
    i ∈ cand.filter (fun i => nib i == bestNib mode (cand.map nib)) ↔
      i ∈ cand ∧ ∀ j ∈ cand, if mode = 2 then nib i ≤ nib j else nib j ≤ nib i := by
  rw [List.mem_filter, beq_iff_eq]
  refine and_congr_right fun hi => ?_
  rw [eq_bestNib_iff (List.mem_map_of_mem hi), List.forall_mem_map]

/-! ### The end of a run (03 R66 to R69) -/

/-- The result of a row at the end of a compare run: every slot still in U counts as EQ (03 R64, R66). -/
def Stroke.finalResult (k : Stroke) (x : RowSt) : Bool :=
  (k.decided ((List.range k.slots).foldl (fun x i => if x.slot i = 0 then x.setSlot i 3 else x) x)).getD false

/-- The rows of a run whose result is 1. -/
def Stroke.selectedRows (k : Stroke) (rows : List RowSt) : List Nat :=
  (((List.range rows.length).zip rows).filter (fun x => k.finalResult x.2)).map (·.1)

theorem mem_zip_range {α : Type} {l : List α} {i : Nat} {x : α} : (i, x) ∈ (List.range l.length).zip l ↔ l[i]? = some x := by
  simp only [List.mem_iff_getElem?, List.getElem?_zip_eq_some]
  constructor
  · rintro ⟨j, hj, hx⟩
    obtain rfl : j = i := by simpa using (List.getElem?_eq_some_iff.mp hj).2
    exact hx
  · intro hx
    exact ⟨i, by simp [(List.getElem?_eq_some_iff.mp hx).1], hx⟩

theorem Stroke.mem_selectedRows {k : Stroke} {rows : List RowSt} {i : Nat} (hi : i < rows.length) :
    i ∈ k.selectedRows rows ↔ k.finalResult rows[i] = true := by
  simp only [Stroke.selectedRows, List.mem_map, List.mem_filter, Prod.exists, exists_and_right, exists_eq_right, mem_zip_range,
    List.getElem?_eq_getElem hi, Option.some.injEq]
  exact exists_eq_left'

/-- A bitmap has the bits of the numbers below n that meet its test. -/
theorem getLsbD_bitmapOf (p : Nat → Bool) (n : Nat) {i : Nat} (hi : i < 65536) : (bitmapOf p n).getLsbD i = (decide (i < n) && p i) := by
  have hbits (l : List Nat) : (l.foldr (fun i a => if p i then a ||| 2 ^ i else a) 0).testBit i = (decide (i ∈ l) && p i) := by
    induction l with
    | nil => simp
    | cons j l ih =>
      rw [List.foldr_cons]
      by_cases hji : i = j
      · subst hji
        by_cases hp : p i = true <;> simp [hp, ih]
      · by_cases hp : p j = true <;> simp [hp, ih, hji, Nat.testBit_two_pow_of_ne (Ne.symm hji)]
  rw [bitmapOf, BitVec.getLsbD_ofNat, hbits]
  simp [hi]

theorem State.updStroke_congr {f g : Stroke → Stroke} (h : f (s.stroke t) = g (s.stroke t)) : s.updStroke t f = s.updStroke t g := by
  have h' : f (s.tiles.getD t {}).stroke = g (s.tiles.getD t {}).stroke := h
  simp only [State.updStroke, State.updTile, Tab.upd, h']

/-- A compare run over a column without nulls, with an empty Blotter and no copy of its result to memory, ends with its selected rows in
the output buffer and their number in STK_COUNT. -/
theorem State.strokeEnd_of_compare (hrun : (s.stroke t).run = some r) (hdone : (s.stroke t).passDue r = false)
    (hmode : (s.stroke t).mode = 0) (hnulls : r.hdr.nulls = 0) (hwr : (s.stroke t).selAddr.getLsbD 0 = false)
    (hblot : (s.stroke t).blot = []) :
    s.strokeEnd t = ((s.countLines t 0).updStroke t (fun k => { k with
      sel := k.sel.set (field (s.stroke t).ctl 8 2) (bitmapOf (fun i => ((s.stroke t).selectedRows r.rows).contains i) r.hdr.rows)
      count := BitVec.ofNat 32 ((s.stroke t).selectedRows r.rows).length })).endRun t 0 := by
  simp only [State.strokeEnd, hrun, hdone, if_pos hmode, hnulls, hwr, Bool.false_eq_true, if_false, ne_eq, not_true_eq_false, decide_false,
    Bool.false_and, List.any_nil, List.length_nil, beq_self_eq_true, Bool.true_or, List.filter_true]
  refine congrArg (State.endRun · t 0) (State.updStroke_congr ?_)
  rw [Stroke.resolve_of_blot_nil (by rw [State.stroke_countLines]; exact hblot)]
  simp only [Stroke.selectedRows, Stroke.finalResult, State.stroke_countLines]

/-- A COUNT run ends with its count as it is. -/
theorem State.strokeEnd_of_count (hrun : (s.stroke t).run = some r) (hdone : (s.stroke t).passDue r = false) (hmode : (s.stroke t).mode = 4) :
    s.strokeEnd t = (s.updStroke t (fun k => { k with
      stat := if (s.stroke t).count.toNat = 0 then k.stat ||| 4 else k.stat &&& 0xFFFFFFFB })).endRun t 0 := by
  simp only [State.strokeEnd, hrun, hdone, hmode, Bool.false_eq_true, if_false, or_true, if_true, OfNat.ofNat_ne_zero]

/-- Settles O40: the passes of compare, SUM, MIN and MAX runs, and the ends of compare and COUNT runs. -/
theorem strokePassAndEnd : Obligations.StrokePassAndEnd := by
  intro s t r hrun
  refine ⟨fun hdue nib n hnibs => ⟨fun hmode hblot hfwd => ⟨_, rfl, ?_⟩, fun hmode => ⟨_, rfl, ?_⟩, fun hmode => ?_⟩,
    fun hdone => ⟨fun hmode hnulls hwr hblot => ⟨_, rfl, ?_⟩, fun hmode => ⟨_, rfl, ?_⟩⟩⟩
  · rw [State.strokePass_of_compare hrun hdue hnibs hmode hblot hfwd]
    exact ⟨rfl, rfl⟩
  · rw [State.strokePass_of_sum hrun hdue hnibs hmode]
  · have hpass := State.strokePass_of_extremum hrun hdue hnibs hmode
    exact ⟨_, _, rfl, congrArg Stroke.run hpass, rfl, fun i => mem_filter_bestNib⟩
  · rw [State.strokeEnd_of_compare hrun hdone hmode hnulls hwr hblot]
    refine ⟨State.endRun_ended _ t (by decide), ?_⟩
    simp only [Stroke.selBuf, State.endRun_sel, State.stroke_updStroke, State.stroke_countLines, Tab.getD_set_self]
    refine ⟨fun i hi hrows hsel => ?_, fun j hj => Tab.getD_set_ne _ _ _ hj.symm⟩
    rw [getLsbD_bitmapOf _ _ hsel, List.getElem?_eq_getElem hi, Bool.eq_iff_iff]
    simp only [hrows, decide_true, Bool.true_and, List.contains_iff_mem, Stroke.mem_selectedRows hi]
    rfl
  · rw [State.strokeEnd_of_count hrun hdone hmode, State.endRun_count, State.stroke_updStroke]
    exact ⟨State.endRun_ended _ t (by decide), rfl⟩

end Sys2Proof.Machine
end

section
/-! PROOFS. Obligation O41: abort, the estimator, and the release of confirmed rows. -/

namespace Sys2Proof.Machine

variable {α : Type} {le : α → α → Bool}

/-! ### Sorting -/

theorem insertBy_perm (x : α) (l : List α) : (insertBy le x l).Perm (x :: l) := by
  induction l with
  | nil => exact .refl _
  | cons y r ih =>
    unfold insertBy
    split
    · exact (ih.cons y).trans (.swap x y r)
    · exact .refl _

theorem insertBy_pairwise (htotal : ∀ a b, le a b = true ∨ le b a = true) (htrans : ∀ a b c, le a b = true → le b c = true → le a c = true)
    (x : α) {l : List α} (hl : l.Pairwise (fun a b => le a b = true)) : (insertBy le x l).Pairwise (fun a b => le a b = true) := by
  induction l with
  | nil => exact List.pairwise_singleton _ _
  | cons y r ih =>
    obtain ⟨hy, hr⟩ := List.pairwise_cons.mp hl
    unfold insertBy
    split
    · next hyx =>
      refine List.pairwise_cons.mpr ⟨fun z hz => ?_, ih hr⟩
      rcases List.mem_cons.mp ((insertBy_perm x r).mem_iff.mp hz) with rfl | hzr
      · exact hyx
      · exact hy z hzr
    · next hyx =>
      have hxy : le x y = true := (htotal x y).resolve_right hyx
      refine List.pairwise_cons.mpr ⟨fun z hz => ?_, hl⟩
      rcases List.mem_cons.mp hz with rfl | hzr
      · exact hxy
      · exact htrans _ _ _ hxy (hy z hzr)

theorem mem_sortBy {x : α} {l : List α} : x ∈ sortBy le l ↔ x ∈ l := by
  have hacc (a : List α) : x ∈ l.foldl (fun a y => insertBy le y a) a ↔ x ∈ l ∨ x ∈ a := by
    induction l generalizing a with
    | nil => simp
    | cons y r ih =>
      rw [List.foldl_cons, ih, (insertBy_perm y a).mem_iff, List.mem_cons, List.mem_cons]
      tauto
  simpa [sortBy] using hacc []

theorem sortBy_pairwise (htotal : ∀ a b, le a b = true ∨ le b a = true) (htrans : ∀ a b c, le a b = true → le b c = true → le a c = true)
    (l : List α) : (sortBy le l).Pairwise (fun a b => le a b = true) :=
  List.foldlRecOn l _ List.Pairwise.nil (fun _ ha x _ => insertBy_pairwise htotal htrans x ha)

/-! ### Release (03 R72, R77, R78) -/

/-- The entries of a Blotter in the order of their rows. -/
def Stroke.entsByRow (k : Stroke) : List BlotEnt := sortBy (fun a b => decide (a.row ≤ b.row)) (k.blot.map (·.2))

theorem Stroke.mem_entsByRow {k : Stroke} {e : BlotEnt} : e ∈ k.entsByRow ↔ ∃ p ∈ k.blot, p.2 = e := by
  rw [Stroke.entsByRow, mem_sortBy, List.mem_map]

theorem Stroke.entsByRow_pairwise (k : Stroke) : k.entsByRow.Pairwise (fun a b => a.row ≤ b.row) :=
  (sortBy_pairwise (fun a b => by simpa using Nat.le_total a.row b.row) (fun a b c => by simpa using Nat.le_trans) _).imp of_decide_eq_true

/-- The outputs that a release passes on, in row order. -/
def Stroke.outputs (k : Stroke) : List (Nat × Line) := k.entsByRow.map (fun e => (e.row, e.out))

theorem Stroke.outputs_pairwise (k : Stroke) : k.outputs.Pairwise (fun a b => a.1 ≤ b.1) :=
  List.pairwise_map.mpr k.entsByRow_pairwise

theorem Stroke.mem_outputs {k : Stroke} {x : Nat × Line} : x ∈ k.outputs ↔ ∃ e ∈ k.blot, x = (e.2.row, e.2.out) := by
  simp only [Stroke.outputs, List.mem_map, Stroke.mem_entsByRow, exists_exists_and_eq_and, eq_comm (a := x)]

/-- With no run, held execution over and every entry confirmed without a fault, a release empties the Blotter, passes its outputs on
and adds the counter delta. -/
theorem State.blotRelease_of_confirmed {s : State} {t : Nat} (hidle : (s.stroke t).busy = false) (hheld : (s.core t).held = false)
    (hok : ∀ e ∈ (s.stroke t).blot, e.2.st = .confirmed ∧ e.2.fault = none) :
    (s.blotRelease t).stroke t = { s.stroke t with blot := [], released := (s.stroke t).outputs.reverse ++ (s.stroke t).released } ∧
    (s.blotRelease t).core t =
      { s.core t with qinstret := (s.core t).qinstret + (s.core t).heldInstret, heldInstret := 0, heldSearch := [] } := by
  have hnone : (s.stroke t).blot.any (fun e => e.2.st == .held) = false :=
    List.any_eq_false.mpr fun e he => by simp [(hok e he).1]
  have hclean : (s.stroke t).entsByRow.findSome? (·.fault) = none := by
    refine List.findSome?_eq_none_iff.mpr fun e he => ?_
    obtain ⟨p, hp, rfl⟩ := Stroke.mem_entsByRow.mp he
    exact (hok p hp).2
  unfold Stroke.entsByRow at hclean
  simp only [State.blotRelease, hidle, hheld, hnone, hclean, Bool.or_self, Bool.false_eq_true, if_false, State.stroke_updCore,
    State.stroke_updStroke, State.core_updCore, State.core_updStroke]
  exact ⟨rfl, rfl⟩

/-- Settles O41, by the end of a run with ERR 5, the reload of E, and the release of a Blotter of confirmed entries. -/
theorem strokeAbortAndRelease : Obligations.StrokeAbortAndRelease := by
  intro s t
  refine ⟨fun hbusy => ?_, ⟨_, rfl, ?_⟩, fun hidle hheld hok => ?_⟩
  · have habort : exec (.stkAbort t) s = .next (s.endRun t 5) := congrArg _ (if_pos hbusy)
    obtain ⟨hrun, herr, hdone, _⟩ := s.endRun_ended t (err := 5) (by decide)
    exact ⟨_, habort, hrun, herr, hdone, State.endRun_blot (by decide), State.core_updStroke _, s.onlyTile_updStroke t _⟩
  · rw [State.strokeResetEst, State.stroke_updStroke]
    exact ⟨rfl, rfl, rfl, State.core_updStroke _, s.onlyTile_updStroke t _⟩
  · obtain ⟨hstroke, hcore⟩ := State.blotRelease_of_confirmed hidle hheld hok
    refine ⟨_, rfl, ?_⟩
    rw [hstroke, hcore]
    exact ⟨rfl, rfl, rfl, _, rfl, Stroke.outputs_pairwise _, fun _ => Stroke.mem_outputs⟩

end Sys2Proof.Machine
end

section
/-! PROOFS. Obligation O44: the order of rows, what TOPK and LIMIT pass on, and what the end of an operator leaves. -/

namespace Sys2Proof.Machine

/-! ### Sorting keeps the rows -/

theorem sortBy_perm {α : Type} (le : α → α → Bool) (l : List α) : (sortBy le l).Perm l := by
  have hacc (a : List α) : (l.foldl (fun a x => insertBy le x a) a).Perm (l ++ a) := by
    induction l generalizing a with
    | nil => exact .refl _
    | cons y r ih => exact (ih _).trans (((insertBy_perm y a).append_left r).trans List.perm_middle)
  simpa [sortBy] using hacc []

/-! ### Lineage and key order (05 R150) -/

theorem lineageLe_iff {m1 r1 m2 r2 : Nat} : lineageLe m1 r1 m2 r2 = true ↔ m1 < m2 ∨ m1 = m2 ∧ r1 ≤ r2 := by
  simp [lineageLe]

theorem lineageLe_total (m1 r1 m2 r2 : Nat) : lineageLe m1 r1 m2 r2 = true ∨ lineageLe m2 r2 m1 r1 = true := by
  simp only [lineageLe_iff]
  omega

theorem lineageLe_trans {m1 r1 m2 r2 m3 r3 : Nat} (h12 : lineageLe m1 r1 m2 r2 = true) (h23 : lineageLe m2 r2 m3 r3 = true) :
    lineageLe m1 r1 m3 r3 = true := by
  rw [lineageLe_iff] at *
  omega

/-- Two rows with keys stand in order of their keys, and of their lineage where the keys are equal. -/
theorem keyLe_some {x y : Nat} {a b : Row} :
    keyLe (some x, a) (some y, b) = true ↔ x < y ∨ x = y ∧ lineageLe a.morsel a.row b.morsel b.row = true := by
  simp [keyLe]

theorem keyLe_some_none {x : Nat} {a b : Row} : keyLe (some x, a) (none, b) = true := rfl

theorem keyLe_none_some {y : Nat} {a b : Row} : ¬keyLe (none, a) (some y, b) = true := Bool.false_ne_true

theorem keyLe_none {a b : Row} : keyLe (none, a) (none, b) = lineageLe a.morsel a.row b.morsel b.row := rfl

theorem keyLe_total (a b : Option Nat × Row) : keyLe a b = true ∨ keyLe b a = true := by
  obtain ⟨_ | x, a⟩ := a <;> obtain ⟨_ | y, b⟩ := b
  · exact lineageLe_total _ _ _ _
  · exact .inr keyLe_some_none
  · exact .inl keyLe_some_none
  · rw [keyLe_some, keyLe_some]
    have hlin := lineageLe_total a.morsel a.row b.morsel b.row
    rcases Nat.lt_trichotomy x y with h | h | h
    · exact .inl (.inl h)
    · exact hlin.imp (fun hl => .inr ⟨h, hl⟩) (fun hl => .inr ⟨h.symm, hl⟩)
    · exact .inr (.inl h)

theorem keyLe_trans (a b c : Option Nat × Row) (hab : keyLe a b = true) (hbc : keyLe b c = true) : keyLe a c = true := by
  obtain ⟨_ | x, a⟩ := a <;> obtain ⟨_ | y, b⟩ := b <;> obtain ⟨_ | z, c⟩ := c
  · exact lineageLe_trans hab hbc
  · exact absurd hbc keyLe_none_some
  · exact absurd hab keyLe_none_some
  · exact absurd hab keyLe_none_some
  · exact keyLe_some_none
  · exact absurd hbc keyLe_none_some
  · exact keyLe_some_none
  · rw [keyLe_some] at *
    rcases hab with hxy | ⟨rfl, hlab⟩ <;> rcases hbc with hyz | ⟨rfl, hlbc⟩
    · exact .inl (hxy.trans hyz)
    · exact .inl hxy
    · exact .inl hyz
    · exact .inr ⟨rfl, lineageLe_trans hlab hlbc⟩

/-! ### TOPK (05 R151) -/

/-- TOPK passes at most K rows on: those with keys first, and nulls in the places that these leave. -/
theorem topkBatch_length_le (k th : Nat) (l : List (Option Nat × Row)) : (topkBatch k th l).1.length ≤ k := by
  simp only [topkBatch, List.length_map, List.length_append, List.length_take]
  omega

theorem topkBatch_threshold_le (k th : Nat) (l : List (Option Nat × Row)) : (topkBatch k th l).2 ≤ th := by
  unfold topkBatch
  dsimp only
  split
  · exact Nat.min_le_left _ _
  · exact Nat.le_refl _

/-- A row that TOPK passes on comes from the batch, with a key, if it has one, at or below the threshold. -/
theorem exists_of_mem_topkBatch {k th : Nat} {l : List (Option Nat × Row)} {r : Row} (hr : r ∈ (topkBatch k th l).1) :
    ∃ x ∈ l, x.2 = r ∧ ∀ v, x.1 = some v → v ≤ th := by
  obtain ⟨x, hx, rfl⟩ := List.mem_map.mp hr
  rcases List.mem_append.mp hx with hval | hnull
  · obtain ⟨hin, hle⟩ := List.mem_filter.mp (List.mem_of_mem_take hval)
    refine ⟨x, mem_sortBy.mp hin, rfl, fun v hv => ?_⟩
    simpa [hv] using hle
  · obtain ⟨hin, hnone⟩ := List.mem_filter.mp (List.mem_of_mem_take hnull)
    refine ⟨x, mem_sortBy.mp hin, rfl, fun v hv => ?_⟩
    simp [hv] at hnone

/-! ### LIMIT (04 R111) -/

theorem exists_batch_of_mem_firstRows {n : Nat} {bs : List Batch} {r : Row} (hr : r ∈ firstRows n bs) : ∃ b ∈ bs, r ∈ b.rows :=
  List.mem_flatMap.mp (mem_sortBy.mp (List.mem_of_mem_take hr))

theorem firstRows_pairwise (n : Nat) (bs : List Batch) :
    (firstRows n bs).Pairwise (fun a b => lineageLe a.morsel a.row b.morsel b.row = true) :=
  (sortBy_pairwise (fun (a b : Row) => lineageLe_total a.morsel a.row b.morsel b.row) (fun _ _ _ => lineageLe_trans) _).take

/-! ### The end of an operator -/

theorem State.task_opDone (s : State) (t : Nat) (bs : List Batch) :
    ((s.opDone t bs).tile t).task = (s.tile t).task.map (fun r => { r with op := r.op + 1, batches := bs }) :=
  congrArg Tile.task (s.tile_updTile t _)

theorem State.core_opDone (s : State) (t : Nat) (bs : List Batch) : (s.opDone t bs).core t = s.core t :=
  s.core_updTile t _

theorem State.onlyTile_opDone (s : State) (t : Nat) (bs : List Batch) : s.onlyTile t (s.opDone t bs) :=
  ⟨rfl, fun _ hk => s.tile_updTile_ne _ hk.symm, congrArg (fun x => x.l1.d) (s.tile_updTile t _)⟩

/-- Settles O44: R150's order is total and transitive, so the sort applies; TOPK and LIMIT take from the front of sorted rows; the end of an
operator writes one tile's task. -/
theorem rowOrderAndLimits : Obligations.RowOrderAndLimits :=
  ⟨fun l => ⟨sortBy_perm keyLe l, sortBy_pairwise keyLe_total keyLe_trans l⟩,
    fun k th l => ⟨topkBatch_length_le k th l, topkBatch_threshold_le k th l, fun _ => exists_of_mem_topkBatch⟩,
    fun n bs => ⟨List.length_take_le _ _, fun _ => exists_batch_of_mem_firstRows, firstRows_pairwise n bs⟩,
    fun s t bs => ⟨s.task_opDone t bs, s.core_opDone t bs, s.onlyTile_opDone t bs⟩⟩

end Sys2Proof.Machine
end

section
/-! PROOFS. Obligation O35: what a write of DSP_DONE does to the task of its tile. -/

namespace Sys2Proof.Machine

variable {s : State} {t : Nat} {d : Word}

/-! ### What the four commands run -/

theorem exec_dispDone (s : State) (t : Nat) (d : Word) : exec (.dispDone t d) s = .next (s.taskDone t d) := rfl

theorem exec_dispFailed (s : State) (t : Nat) (d : Word) : exec (.dispFailed t d) s = .next (s.taskFailed t d) := rfl

theorem exec_dispCancelled (s : State) (t : Nat) (d : Word) : exec (.dispCancelled t d) s = .next (s.taskCancelled t d) := rfl

theorem exec_dispYield (s : State) (t : Nat) (d : Word) : exec (.dispYield t d) s = .next (s.taskYield t d) := rfl

/-! ### A write that names no task of the tile -/

theorem State.taskDone_of_none (h : s.runOf t d = none) : s.taskDone t d = s := by
  simp only [State.taskDone, h]

theorem State.taskFailed_of_none (h : s.runOf t d = none) : s.taskFailed t d = s := by
  simp only [State.taskFailed, h]

theorem State.taskCancelled_of_none (h : s.runOf t d = none) : s.taskCancelled t d = s := by
  simp only [State.taskCancelled, h]

theorem State.taskYield_of_none (h : s.runOf t d = none) : s.taskYield t d = s := by
  simp only [State.taskYield, h]

/-! ### A write that names the task of the tile (08 R232) -/

theorem State.task_endTask (s : State) (t : Nat) (r : TaskRun) : ((s.endTask t r).tile t).task = none :=
  congrArg Tile.task (State.tile_updTile _ t _)

section
variable {r : TaskRun} {k : Task} (hrun : s.runOf t d = some (r, k))
include hrun

/-- DONE after the last operator, of a live query and not past a LIMIT's cut: the output goes on, and the stage counts one task less. -/
theorem State.taskDone_of_live (hlive : (s.query r.f k.qslot).failed = none) (hlast : k.opLast < r.op) (hcut : s.pastCut r.f k = false) :
    s.taskDone t d = ((((((((s.endTask t r).handOver r.f k r.batches).donePips r.f k (s.tile t).dsp.out).passSpilled
      r.f k r.batches).updPipe r.f k.qslot k.pipe (fun ps => { ps with left := ps.left.upd k.stage 0 (fun n => n - 1) })).doneRounds
      r.f k)).queryPass r.f k.qslot (s.tile t).dsp.out) := by
  simp only [State.taskDone, hrun, hlive, Option.isSome_none, Bool.false_eq_true, if_false, if_neg (Nat.not_le.mpr hlast), hcut]

theorem State.taskFailed_of_run :
    s.taskFailed t d =
      ((s.failQuery r.f k.qslot (field (s.tile t).dsp.status 0 16)).endTask t r).finishFailed r.f k.qslot := by
  simp only [State.taskFailed, hrun]

theorem State.taskCancelled_of_uncut (hcut : s.pastCut r.f k = false) :
    s.taskCancelled t d = (s.endTask t r).finishFailed r.f k.qslot := by
  simp only [State.taskCancelled, hrun, hcut, Bool.false_eq_true, if_false]

theorem State.taskYield_of_live (hlive : (s.query r.f k.qslot).failed = none) (hcut : s.pastCut r.f k = false) :
    s.taskYield t d = ((s.endTask t r).putTask r.f r.desc { k with at_ := .ready }).readyPut r.f r.desc := by
  simp only [State.taskYield, hrun, hlive, hcut, Option.isSome_none, Bool.or_self, Bool.false_eq_true, if_false]

end

/-- Settles O35, one disposition at a time, with the rules above. -/
theorem taskEnds : Obligations.TaskEnds := by
  intro s t d
  refine ⟨fun hnone i hi => ?_, fun r k hrun => ⟨fun hlive hlast hcut => ?_, ?_, fun hcut => ?_, fun hcut hlive => ?_, s.task_endTask t r⟩⟩
  · simp only [List.mem_cons, List.not_mem_nil, or_false] at hi
    rcases hi with rfl | rfl | rfl | rfl
    · rw [exec_dispDone, State.taskDone_of_none hnone]
    · rw [exec_dispFailed, State.taskFailed_of_none hnone]
    · rw [exec_dispCancelled, State.taskCancelled_of_none hnone]
    · rw [exec_dispYield, State.taskYield_of_none hnone]
  · rw [exec_dispDone, State.taskDone_of_live hrun hlive hlast hcut]
  · rw [exec_dispFailed, State.taskFailed_of_run hrun]
  · rw [exec_dispCancelled, State.taskCancelled_of_uncut hrun hcut]
  · rw [exec_dispYield, State.taskYield_of_live hrun hlive hcut]

end Sys2Proof.Machine
end

section
/-! PROOFS. Obligation O42: what each operator that passes rows on does when nothing fails. -/

namespace Sys2Proof.Machine

variable {s : State} {t : Nat} {c : OpCtx}

/-! ### What the commands run -/

theorem exec_scan (s : State) (t : Nat) : exec (.scan t) s = execScan t s := rfl

theorem exec_filter (s : State) (t : Nat) : exec (.filter t) s = execFilter t s := rfl

theorem exec_project (s : State) (t : Nat) : exec (.project t) s = execProject t s := rfl

theorem exec_compute (s : State) (t : Nat) : exec (.compute t) s = .next (s.computeStep t) := rfl

theorem exec_aggPlane (s : State) (t : Nat) : exec (.aggPlane t) s = execAggPlane t s := rfl

theorem exec_merge (s : State) (t : Nat) : exec (.merge t) s = execMerge t s := rfl

theorem exec_topk (s : State) (t : Nat) : exec (.topk t) s = execTopk t s := rfl

theorem exec_limit (s : State) (t : Nat) : exec (.limit t) s = execLimit t s := rfl

theorem exec_lookupBramble (s : State) (t : Nat) : exec (.lookupBramble t) s = execLookupBramble t s := rfl

theorem exec_emit (s : State) (t : Nat) : exec (.emit t) s = execEmit t s := rfl

/-! ### SCAN of a breaker's result (04 R103, R115) -/

/-- What the fields of two schemas must agree in for rows to pass from one to the other (log 25). -/
def FieldD.form (x : FieldD) : Nat × Nat × Nat × Nat := (x.width, x.xform, x.scale, x.dict)

/-- Schemas of the same forms pass the test of a scan in TABLE_SRC mode. -/
theorem suits_of_map_form_eq {src out : List FieldD} (h : src.map FieldD.form = out.map FieldD.form) :
    ¬(src.length ≠ out.length ∨
      (List.zip src out).any (fun p => p.1.width != p.2.width || p.1.xform != p.2.xform || p.1.scale != p.2.scale || p.1.dict != p.2.dict)) := by
  have hsame : List.Forall₂ (· = ·) (src.map FieldD.form) (out.map FieldD.form) := List.forall₂_eq_eq_eq ▸ h
  rw [List.forall₂_map_left_iff, List.forall₂_map_right_iff] at hsame
  obtain ⟨hlen, hzip⟩ := List.forall₂_iff_zip.mp hsame
  refine not_or.mpr ⟨not_not.mpr hlen, fun hany => ?_⟩
  obtain ⟨⟨x, y⟩, hxy, hdiff⟩ := List.any_eq_true.mp hany
  obtain ⟨hwidth, hxform, hscale, hdict⟩ : x.width = y.width ∧ x.xform = y.xform ∧ x.scale = y.scale ∧ x.dict = y.dict := by
    simpa [FieldD.form] using hzip hxy
  simp [hwidth, hxform, hscale, hdict] at hdiff

theorem execScan_of_table (hctx : s.opCtx t 1 none = some c) (hmode : c.o.optAt 1 1 = 1)
    (hsuit : (s.brkSchema c.f c.q c.o.obj).map FieldD.form = c.out.map FieldD.form) :
    execScan t s =
      let l := s.brkRows c.f c.q c.o.obj
      let a := (tableMorsels l).getD c.task.morsel (0, 0)
      .next (s.opDone t [{ morsel := c.task.morsel, rows := (((l.getD a.1 []).drop a.2).take 65536).mapIdx (fun i v => {
          morsel := c.task.morsel, row := i,
          vals := List.zipWith (fun (y : Option Word) (d : FieldD) => y.map (fun w => BitVec.ofNat 64 (w.toNat % 2 ^ d.width))) v c.out }) }]) := by
  simp only [execScan, hctx, if_pos hmode, State.scanTable, if_neg (suits_of_map_form_eq hsuit)]

/-! ### SCAN of an Arrow array (04 R107; 02 R50 to R52) -/

theorem execScan_of_arrow (hctx : s.opCtx t 1 none = some c) (htable : c.o.optAt 1 1 = 0) (hmode : c.o.optAt 2 1 = 1)
    {cols : List (List (Option Word))}
    (hcols : c.out.mapIdx (fun k x => s.arrowField c.f (cut c.blk (16 + 24 * k) 24) x (getLE c.blk 8 8 + 65536 * c.task.morsel)
      (min 65536 (getLE c.blk 0 8 - 65536 * c.task.morsel))) = cols.map .inr) :
    execScan t s = .next (s.opDone t [{
      morsel := c.task.morsel
      rows := rowsOf c.task.morsel (List.range (min 65536 (getLE c.blk 0 8 - 65536 * c.task.morsel))) cols }]) := by
  have hok : cols.findSome? (fun _ => (none : Option Nat)) = none := List.findSome?_eq_none_iff.mpr fun _ _ => rfl
  simp only [execScan, hctx, htable, Nat.zero_ne_one, if_false, if_pos hmode, State.scanArrow, hcols, List.findSome?_map, List.map_map,
    Function.comp_def, hok, List.map_id']

/-! ### SCAN of column objects (04 R109) -/

/-- A scan whose objects are there, whose predicate runs and threshold run end well, and whose columns load, gives the rows
that the runs leave selected: all rows where none was made. -/
theorem State.scanObjects_of_loaded {s1 s2 s3 s4 s5 : State} {pruned : Bool} {d : ObjDesc} {g : Seg} {cols : List (List (Option Word))}
    (hobjs : (s.updStroke t (fun k => { k with spec := BitVec.ofNat 32 (c.o.optAt 8 20) })).checkObjs t c.f c.run.drive
      ((scanEnts c.blk).map (·.obj)) = (s1, 0))
    (hpreds : s1.runEnts t c.f c.task.morsel c.run.drive (c.o.optAt 0 1 == 1) true ((scanEnts c.blk).filter (·.pred)) = (s2, 0))
    (htopk : s2.topkRun t c c.task.morsel (c.o.optAt 0 1 == 1) ((scanEnts c.blk).filter (·.pred)).isEmpty (scanEnts c.blk) = (s3, 0, pruned))
    (hseg : s3.taskSeg t c.f (((scanEnts c.blk).map (·.obj)).headD 0) c.task.morsel c.run.drive = (s4, .inr (d, g))) :
    let idx := if ((scanEnts c.blk).filter (·.pred)).isEmpty && !pruned then List.range g.hdr.rows else (s4.stroke t).selRows g.hdr.rows
    s4.loadFields t c.f c.task.morsel c.run.drive idx (c.out.mapIdx (fun k x =>
      ((((scanEnts c.blk).find? (fun e => e.project && e.field == k)).map (·.obj)).getD 0, x))) = (s5, .inr cols) →
    s.scanObjects t c = s5.opDone t [{ morsel := c.task.morsel, rows := rowsOf c.task.morsel idx cols }] := by
  intro idx hload
  have hidx : idx = if (!((scanEnts c.blk).filter (·.pred)).isEmpty || pruned) = true then (s4.stroke t).selRows g.hdr.rows
      else List.range g.hdr.rows := by
    cases hnone : ((scanEnts c.blk).filter (·.pred)).isEmpty <;> cases pruned <;> simp [idx, hnone]
  rw [hidx] at hload ⊢
  simp only [State.scanObjects, hobjs, hpreds, htopk, hseg, hload]

theorem execScan_of_objects (hctx : s.opCtx t 1 none = some c) (htable : c.o.optAt 1 1 = 0) (harrow : c.o.optAt 2 1 = 0)
    (hidle : (s.stroke t).busy = false) (hdrive : c.run.drive.isSome = true) : execScan t s = .next (s.scanObjects t c) := by
  have hdrive : c.run.drive.isNone = false := by simpa using hdrive
  simp only [execScan, hctx, htable, harrow, Nat.zero_ne_one, hidle, hdrive, Bool.false_eq_true, if_false]

/-! ### FILTER (04 R108) -/

theorem execFilter_of_rows (hctx : s.opCtx t 2 none = some c) (hmode : c.o.optAt 0 1 = 0)
    (hsuit : ∀ e ∈ scanEnts c.blk, e.field < c.inp.length ∧ ((c.inp.getD e.field noField).xform = 4 → e.ranged = false)) :
    execFilter t s = .next (s.opDone t (c.run.batches.map (fun b => { b with
      rows := b.rows.filter (fun r => (scanEnts c.blk).all (fun e => e.holds (c.inp.getD e.field noField) (r.vals.getD e.field none))) }))) := by
  have hok : (scanEnts c.blk).any (fun e => decide (c.inp.length ≤ e.field) ||
      ((c.inp.getD e.field noField).xform == 4 && e.ranged)) = false := by
    refine List.any_eq_false.mpr fun e he => ?_
    obtain ⟨hfield, hrange⟩ := hsuit e he
    simpa [hfield] using hrange
  simp only [execFilter, hctx, if_pos hmode, State.filterRows, hok, Bool.false_eq_true, if_false]

theorem execFilter_of_run {e : ScanEnt} {l : List ScanEnt} {b x : Batch} {s1 : State} (hctx : s.opCtx t 2 none = some c)
    (hmode : c.o.optAt 0 1 = 1) (hidle : (s.stroke t).busy = false) (hent : scanEnts c.blk = e :: l) (hbatch : c.run.batches = [b])
    (hrun : s.filterRun t c e b = (s1, .inr x)) : execFilter t s = .next (s1.opDone t [x]) := by
  simp only [execFilter, hctx, hmode, Nat.one_ne_zero, hidle, Bool.false_eq_true, if_false, hent, List.head?_cons, hbatch,
    State.filterRuns, hrun, List.nil_append]

/-! ### PROJECT (04 R108) -/

theorem execProject_of_batch {b x : Batch} {s1 : State} (hctx : s.opCtx t 3 none = some c) (hbatch : c.run.batches = [b])
    (hproj : s.projectBatch t c b = (s1, .inr x)) : execProject t s = .next (s1.opDone t [x]) := by
  simp only [execProject, hctx, hbatch, State.projectAll, hproj, List.nil_append]

/-! ### COMPUTE (04 R110) -/

theorem State.computeStep_of_nil (hctx : s.opCtx t 4 none = some c) (hbatch : c.run.batches = []) : s.computeStep t = s.opDone t [] := by
  simp only [State.computeStep, hctx, hbatch]

theorem State.computeStep_of_cons {b : Batch} {rest : List Batch} (hctx : s.opCtx t 4 none = some c) (hbatch : c.run.batches = b :: rest)
    (hwait : (s.core t).wait = none) (hstall : (s.core t).stall = none) : s.computeStep t = s.enterKernel t c b rest [] := by
  simp only [State.computeStep, hctx, hbatch, hwait, hstall, Option.isSome_none, Bool.or_self, Bool.false_eq_true, if_false]

/-- A task inside a kernel stands at no operator. -/
theorem State.opCtx_of_kernel {r : TaskRun} {k : Kernel} (htask : (s.tile t).task = some r) (hkernel : r.kernel = some k) (code : Nat)
    (kind : Option Nat) : s.opCtx t code kind = none := by
  simp [State.opCtx, htask, hkernel]

/-- SYSCALL 0 is the return of a kernel, and no fault of it. -/
theorem kernelFault_syscall_zero {cause : Word} (hcode : field cause 0 8 = 7) (hnum : field cause 16 12 = 0) : kernelFault cause = none := by
  simp only [kernelFault, hcode, hnum, if_true]

/-- A kernel that has come back from its last batch with rows that can be read: its output joins the others, and the task goes on. -/
theorem State.computeStep_of_returned {r : TaskRun} {k : Kernel} {o : Batch} (htask : (s.tile t).task = some r) (hkernel : r.kernel = some k)
    (hctx : (s.updTile t (fun x => { x with task := x.task.map (fun r => { r with kernel := none }) })).opCtx t 4 none = some c)
    (hruntime : (s.core t).runtime = true) (hcode : field (s.core t).qcause 0 8 = 7) (hnum : field (s.core t).qcause 16 12 = 0)
    (hrows : ((s.core t).readG 1).toNat ≤ k.rows) (hout : s.kernelOut c k ((s.core t).readG 1).toNat = some o) (htodo : k.todo = []) :
    s.computeStep t = (s.leaveKernel t c k).opDone t (k.done ++ [o]) := by
  simp only [State.computeStep, State.opCtx_of_kernel htask hkernel, htask, hkernel, hctx, hruntime, kernelFault_syscall_zero hcode hnum, hcode,
    if_neg (Nat.not_lt.mpr hrows), hout, htodo, Bool.not_true, Bool.false_eq_true, if_false, ne_eq, not_true_eq_false]

/-! ### AGG_PLANE (05 R139) -/

theorem execAggPlane_of_nil (hctx : s.opCtx t 8 none = some c) (hidle : (s.stroke t).busy = false) (hbatch : c.run.batches = []) :
    execAggPlane t s = .next (s.opDone t []) := by
  simp only [execAggPlane, hctx, hidle, Bool.false_eq_true, if_false, hbatch, State.planeAll]

theorem execAggPlane_of_batch {b : Batch} {s1 : State} (hctx : s.opCtx t 8 none = some c) (hidle : (s.stroke t).busy = false)
    (hbatch : c.run.batches = [b]) (hplane : s.planeBatch t c b = (s1, 0)) : execAggPlane t s = .next (s1.opDone t []) := by
  simp only [execAggPlane, hctx, hidle, Bool.false_eq_true, if_false, hbatch, State.planeAll, hplane]

/-! ### MERGE, TOPK and LIMIT (04 R111; 05 R150, R151) -/

theorem execMerge_of_budget (hctx : s.opCtx t 0x0A none = some c) (hfit : s.preBytes c ≤ s.budgetOf c.f c.q c.i) :
    execMerge t s = .next (s.opDone t [{ morsel := c.task.morsel, rows := (((sortBy keyLe ((s.brkOf c.f c.q c.o.obj).runs.flatMap (·.rows))).drop
      (65536 * c.task.morsel)).take 65536).mapIdx (fun i x => { x.2 with morsel := c.task.morsel, row := i }) }]) := by
  simp only [execMerge, hctx, if_neg (Nat.not_lt.mpr hfit)]

theorem execTopk_of_batch {b : Batch} (hctx : s.opCtx t 0x0B none = some c) (hbatch : c.run.batches = [b]) :
    execTopk t s =
      let y := topkBatch c.o.count ((s.query c.f c.q).thetas.getD c.i (2 ^ 64 - 1)) (c.keyed b.rows)
      .next ((s.updQuery c.f c.q (fun x => { x with thetas := x.thetas.set c.i y.2 })).opDone t [{ b with rows := y.1 }]) := by
  simp only [execTopk, hctx, hbatch, List.foldl_cons, List.foldl_nil, List.nil_append]

/-- A ONCE task lies past no cut. -/
theorem State.pastCut_of_once {f : Nat} {k : Task} (honce : k.once = true) : s.pastCut f k = false := by
  simp only [State.pastCut, honce, Bool.not_true, Bool.false_and]

/-- No task comes before the first. -/
theorem LimitSt.below_zero (l : LimitSt) : l.below 0 = some 0 := rfl

theorem execLimit_of_once (hctx : s.opCtx t 0x0C none = some c) (honce : c.task.once = true) (hseq : c.task.seq = 0) :
    execLimit t s =
      let n := (c.run.batches.map (fun b => b.rows.length)).sum
      let l : LimitSt := (s.query c.f c.q).limits.getD c.i {}
      .next ((s.updQuery c.f c.q (fun x => { x with limits := x.limits.set c.i { l with counts := l.counts.set 0 n } })).opDone t
        (batchRows (firstRows c.o.count c.run.batches))) := by
  simp only [execLimit, hctx, honce, hseq, Bool.or_true, Bool.true_or, if_true, State.pastCut_of_once honce, Bool.false_eq_true, if_false,
    LimitSt.below_zero, Nat.sub_zero]

/-! ### LOOKUP_BRAMBLE (04 R107; 13 R383) -/

theorem execLookupBramble_of_ctx (hctx : s.opCtx t 0x11 none = some c) : execLookupBramble t s =
    .next ((s.brmCount c.o.obj (c.run.batches.map (fun b => b.rows.length)).sum).opDone t (c.run.batches.map (s.lookupBatch c))) := by
  simp only [execLookupBramble, hctx]

/-! ### EMIT (04 R114) -/

/-- A task with no field and no batch appends nothing to column objects. -/
theorem execEmit_of_objects_nil {n : Nat} (hctx : s.opCtx t 0x12 none = some c) (hbefore : s.emitBefore c = some n)
    (hmode : c.o.optAt 0 2 = 2) (hbatch : c.run.batches = []) (hinp : c.inp = []) :
    execEmit t s =
      .next ((s.updQuery c.f c.q (fun x => { x with emits := x.emits.upd c.i [] (fun e => e.set c.task.seq (0, 0)) })).opDone t []) := by
  simp only [execEmit, hctx, hbefore, if_pos hmode, State.emitObjects, hbatch, hinp, List.mapIdx_nil, List.foldl_nil, ne_eq, not_true_eq_false,
    if_false, List.flatMap_nil, List.length_nil]

/-- Pieces that all fit, in a range that can be written, are written after those of the tasks before. -/
theorem execEmit_of_buffer {n : Nat} {l : List Byte} (hctx : s.opCtx t 0x12 none = some c) (hbefore : s.emitBefore c = some n)
    (hmode : c.o.optAt 0 2 ≠ 2) :
    let base := (if c.o.optAt 0 2 = 0 then 2 ^ 56 + getLE c.blk 0 8 % 2 ^ 56 else getLE c.blk 0 8) + n
    let ps := s.emitPieces c c.run.batches
    piecesIn (getLE c.blk 8 8 - n) ps.1 = (l, true) → ps.2.rangeOk c.f base l.length 2 = true →
    execEmit t s = .next (((ps.2.writeBytes c.f base l).updQuery c.f c.q (fun x => { x with
      emitted := x.emitted + l.length
      emits := x.emits.upd c.i [] (fun e => e.set c.task.seq (ps.1.length, l.length)) })).opDone t []) := by
  intro base ps hfit hrange
  simp only [execEmit, hctx, hbefore, if_neg hmode, State.emitBuffer, ps, base] at hfit hrange ⊢
  simp only [hfit, hrange, Bool.not_true, Bool.false_eq_true, if_false, if_true]

/-- Settles O42, operator by operator, with the rules above. -/
theorem rowOperators : Obligations.RowOperators := by
  intro s t
  refine ⟨fun c hctx => ⟨fun hmode hsuit => ?_, fun htable hmode cols hcols => ?_,
      fun htable harrow hidle hdrive s1 s2 s3 s4 s5 pruned d g cols hobjs hpreds htopk hseg hload => ?_⟩,
    fun c hctx => ⟨fun hmode hsuit => ?_, fun hmode hidle e l b s1 x hent hbatch hrun => ?_⟩, fun c b s1 x hctx hbatch hproj => ?_,
    fun c hctx => ⟨fun hbatch => ?_, fun b rest hbatch hwait hstall => ?_⟩,
    fun r k c o htask hkernel hctx hruntime hcode hnum hrows hout htodo => ?_,
    fun c hctx hidle => ⟨fun hbatch => ?_, fun b s1 hbatch hplane => ?_⟩, fun c hctx hfit => ?_, fun c b hctx hbatch => ?_,
    fun c n hctx honce hseq hn l hl => ?_, fun c hctx => ?_,
    fun c n hctx hbefore => ⟨fun hmode hbatch hinp => ?_, fun hmode l hfit hrange => ?_⟩⟩
  · rw [exec_scan, execScan_of_table hctx hmode hsuit]
  · rw [exec_scan, execScan_of_arrow hctx htable hmode hcols]
  · rw [exec_scan, execScan_of_objects hctx htable harrow hidle hdrive, State.scanObjects_of_loaded hobjs hpreds htopk hseg hload]
  · rw [exec_filter, execFilter_of_rows hctx hmode hsuit]
  · rw [exec_filter, execFilter_of_run hctx hmode hidle hent hbatch hrun]
  · rw [exec_project, execProject_of_batch hctx hbatch hproj]
  · rw [exec_compute, State.computeStep_of_nil hctx hbatch]
  · rw [exec_compute, State.computeStep_of_cons hctx hbatch hwait hstall]
  · rw [exec_compute, State.computeStep_of_returned htask hkernel hctx hruntime hcode hnum hrows hout htodo]
  · rw [exec_aggPlane, execAggPlane_of_nil hctx hidle hbatch]
  · rw [exec_aggPlane, execAggPlane_of_batch hctx hidle hbatch hplane]
  · rw [exec_merge, execMerge_of_budget hctx hfit]
  · rw [exec_topk, execTopk_of_batch hctx hbatch]
  · rw [exec_limit, execLimit_of_once hctx honce hseq, hn, hl]
  · rw [exec_lookupBramble, execLookupBramble_of_ctx hctx]
  · rw [exec_emit, execEmit_of_objects_nil hctx hbefore hmode hbatch hinp]
  · rw [exec_emit, execEmit_of_buffer hctx hbefore hmode hfit hrange]

end Sys2Proof.Machine
end

section
/-! PROOFS. Obligation O20 (atomics on a line that L1D holds in E or D): the access that hits, the store into the line, the lanes of NADD. -/

namespace Sys2Proof.Machine

/-! ### NADD (05 R132) -/

/-- Each of the first n lanes of a NADD holds the sum of the operands' lanes, at most 15. -/
theorem field_naddWord (m x : Word) {n k : Nat} (hn : n ≤ 16) (hk : k < n) :
    field (naddWord m x n) (4 * k) 4 = min 15 (field m (4 * k) 4 + field x (4 * k) 4) := by
  induction n with
  | zero => omega
  | succ n ih =>
    rw [naddWord]
    by_cases hkn : k = n
    · subst hkn
      rw [field_setField_self _ _ (by omega), Nat.mod_eq_of_lt (by omega)]
    · rw [field_setField_disjoint _ _ (by omega) (by omega), ih (by omega) (by omega)]

/-! ### An access that hits (09 R249; 10 R279) -/

section Hit

variable {s : State} {t : Nat} {l : DLine}

/-- A lookup for a load, or for a line in E or D, hands on the data that a sound L1D holds. -/
theorem State.lookup_of_dLine (hsound : s.soundL1 t) {line : Nat} (hl : (s.tile t).l1.dLine line = some l) (w : BitVec 8) {own : Bool}
    (hown : own = true → l.st = .e ∨ l.st = .d) : s.lookup t line w own = (.line l.data false, s) := by
  have hgrant : (!own || l.st == .e || l.st == .d) = true := by
    cases own with
    | false => rfl
    | true => simpa using hown rfl
  rw [State.lookup_sound hsound, hl]
  exact if_pos hgrant

/-- An access to a line that a sound L1D holds, in E or D unless it is a load, goes on with its data. -/
theorem State.onLine_of_dLine (hsound : s.soundL1 t) {a : Word} (hl : (s.tile t).l1.dLine (lineOf a.toNat) = some l) {acc : Access}
    (hown : acc ≠ .load → l.st = .e ∨ l.st = .d) (n : Nat) (i : Instr) (k : Line → State → Eff) :
    s.onLine t a n acc i k = k l.data s := by
  rw [State.onLine, State.lookup_of_dLine hsound hl _ (fun h => hown (by simpa using h))]
  rfl

/-- A copy after a store under a mask: dirty, with the selected bytes from the new data. -/
def DLine.stored (d : Line) (mask : BitVec 64) (x : DLine) : DLine := { x with st := .d, st2 := .d, data := mergeLine x.data d mask }

/-- A store into a line held in E or D changes the copy alone. -/
theorem State.storeLine_of_dLine {line : Nat} (hl : (s.tile t).l1.dLine line = some l) (hst : l.st = .e ∨ l.st = .d) (d : Line)
    (mask : BitVec 64) : s.storeLine t line d mask = s.updL1 t (fun c => c.updLine line (DLine.stored d mask)) := by
  simp only [State.storeLine, hl, if_pos hst]
  rfl

/-- The lines of L1D once bytes have been stored into one that it holds. -/
theorem L1.dLine_updLine_stored {c : L1} {line : Nat} (hl : c.dLine line = some l) (d : Line) (mask : BitVec 64) (k : Nat) :
    (c.updLine line (DLine.stored d mask)).dLine k = if k = line then some (l.stored d mask) else c.dLine k :=
  L1.dLine_updLine (f := DLine.stored d mask) hl (fun _ => ⟨rfl, nofun⟩) k

end Hit

/-! ### Atomics that hit (05 R133; 06 R170) -/

/-- The tile after an atomic has stored a value at an address: nothing is kept for the access any more, rd holds the old word, and the
core goes on. -/
def Tile.atomicDone (x : Tile) (rd : Reg) (a old new : Word) : Tile :=
  { x with
    l1 := { x.l1.updLine (lineOf a.toNat) (DLine.stored (placeAt new (a.toNat % 64)) (byteMask (a.toNat % 64) 8)) with given := [] }
    core := (x.core.writeG rd old).countInstr.advance }

section Atomic

variable {s : State} {t : Nat} {l : DLine} {ra : Reg} (hrun : Runs s t) (hsound : s.soundL1 t)
  (hexc : (s.core t).dataExc ((s.core t).readG ra) 8 8 .atomic = none)
  (hl : (s.tile t).l1.dLine (lineOf ((s.core t).readG ra).toNat) = some l) (hst : l.st = .e ∨ l.st = .d)

include hrun hsound hexc hl hst

/-- An atomic that executes on a line held in E or D, with no check failing, is one update of its tile. -/
theorem State.atomic_of_dLine (rd rb : Reg) (i : Instr) (f : Word → Word → Word → Word) :
    let a := (s.core t).readG ra
    let m : Word := BitVec.ofNat 64 (lineGet l.data (a.toNat % 64) 8)
    s.atomic t rd ra rb i f =
      (s.fetched t).updTile t (fun x => x.atomicDone rd a m (f m ((s.core t).readG rb) ((s.core t).readG rd))) := by
  intro a m
  have hf := s.fetch_only t
  have hl' : ((s.fetched t).tile t).l1.dLine (lineOf ((s.core t).readG ra).toNat) = some l := (hf.dLine _).trans hl
  rw [State.atomic, State.runInstr_runs hrun true false false _ rfl nofun]
  simp only [hexc, State.onLine_of_dLine (hf.sound hsound) hl' (fun _ => hst), State.storeLine_of_dLine hl' hst, finishInstr, State.accessEnd,
    State.updL1, State.updCore, State.updTile_updTile]
  rfl

/-- What an atomic on a line held in E or D leaves: the old word in rd, the new one in the line, now D, and all else as it was. -/
theorem State.atomic_hits (rd rb : Reg) (i : Instr) (f : Word → Word → Word → Word) :
    let a := (s.core t).readG ra
    let m : Word := BitVec.ofNat 64 (lineGet l.data (a.toNat % 64) 8)
    let v := f m ((s.core t).readG rb) ((s.core t).readG rd)
    let u := s.atomic t rd ra rb i f
    u.core t = ((s.core t).writeG rd m).countInstr.advance ∧
      (u.tile t).l1.dLine (lineOf a.toNat) = some (l.stored (placeAt v (a.toNat % 64)) (byteMask (a.toNat % 64) 8)) ∧
      (∀ k, k ≠ lineOf a.toNat → (u.tile t).l1.dLine k = (s.tile t).l1.dLine k) ∧
      (∀ k, k ≠ t → u.tile k = s.tile k) ∧ u = { s with tiles := u.tiles } := by
  intro a m v u
  have hf := s.fetch_only t
  have hu : u = (s.fetched t).updTile t (fun x => x.atomicDone rd a m v) := State.atomic_of_dLine hrun hsound hexc hl hst rd rb i f
  have hlines (k : Nat) : (u.tile t).l1.dLine k =
      if k = lineOf a.toNat then some (l.stored (placeAt v (a.toNat % 64)) (byteMask (a.toNat % 64) 8)) else (s.tile t).l1.dLine k := by
    rw [hu, State.tile_updTile, ← hf.dLine k]
    exact L1.dLine_updLine_stored ((hf.dLine _).trans hl) _ _ k
  refine ⟨?_, ?_, fun k hk => ?_, fun k hk => ?_, ?_⟩
  · rw [hu, State.core_updTile, ← hf.core t]
    rfl
  · rw [hlines, if_pos rfl]
  · rw [hlines, if_neg hk]
  · rw [hu, State.tile_updTile_ne _ _ hk.symm, hf.other k hk.symm]
  · rw [hu, State.updTile, hf.rest]

end Atomic

theorem exec_fadd (s : State) (t : Nat) (rd ra rb : Reg) :
    exec (.fadd t rd ra rb) s = .next (s.atomic t rd ra rb (.fadd t rd ra rb) (fun m x _ => m + x)) := rfl

theorem exec_umin (s : State) (t : Nat) (rd ra rb : Reg) :
    exec (.umin t rd ra rb) s = .next (s.atomic t rd ra rb (.umin t rd ra rb) (fun m x _ => if x.toNat < m.toNat then x else m)) := rfl

theorem exec_umax (s : State) (t : Nat) (rd ra rb : Reg) :
    exec (.umax t rd ra rb) s = .next (s.atomic t rd ra rb (.umax t rd ra rb) (fun m x _ => if m.toNat < x.toNat then x else m)) := rfl

theorem exec_nadd (s : State) (t : Nat) (rd ra rb : Reg) :
    exec (.nadd t rd ra rb) s = .next (s.atomic t rd ra rb (.nadd t rd ra rb) (fun m x _ => naddWord m x 16)) := rfl

theorem exec_cas (s : State) (t : Nat) (rd ra rb : Reg) :
    exec (.cas t rd ra rb) s = .next (s.atomic t rd ra rb (.cas t rd ra rb) (fun m x e => if m = e then x else m)) := rfl

/-- Settles O20: each of the five is an atomic that hits, with its own new word; the lanes of NADD's are summed one by one. -/
theorem atomicsHitL1D : Obligations.AtomicsHitL1D := by
  intro s t rd ra rb hrun hsound a x hexc l hl hst m does
  have hits := State.atomic_hits hrun hsound hexc hl hst rd rb
  exact ⟨⟨_, exec_fadd s t rd ra rb, hits _ _⟩, ⟨_, exec_umin s t rd ra rb, hits _ _⟩, ⟨_, exec_umax s t rd ra rb, hits _ _⟩,
    ⟨naddWord m x 16, ⟨_, exec_nadd s t rd ra rb, hits _ _⟩, fun k hk => field_naddWord m x le_rfl hk⟩,
    ⟨_, exec_cas s t rd ra rb, hits _ _⟩⟩

end Sys2Proof.Machine
end

section
/-! PROOFS. What an instruction that executes does, by its effect: it completes, transfers control or traps; and the register writes of
a core. Shared by the obligations about the Quill core. -/

namespace Sys2Proof.Machine

variable {s u : State} {t : Nat} {wf ctl vec : Bool} {body : Core → State → Eff}

/-! ### The effects of an instruction that executes (06 R176, R182, R193) -/

theorem State.updCore_updCore (s : State) (t : Nat) (f g : Core → Core) : (s.updCore t f).updCore t g = s.updCore t (fun c => g (f c)) :=
  s.updTile_updTile t _ _

theorem State.FetchOnly.now {s u : State} {t : Nat} (h : s.FetchOnly t u) : u.now = s.now := by rw [h.rest]

theorem State.FetchOnly.goPend {s u : State} {t : Nat} (h : s.FetchOnly t u) : u.goPend = s.goPend := by rw [h.rest]

/-- An instruction that completes is counted, and its core goes on after it. -/
theorem State.runInstr_done (hrun : Runs s t) (hwf : wf = true) (hctl : ctl = true → ¬s.inSlot t)
    (hbody : body (s.core t) (s.fetched t) = .done u) :
    s.runInstr t wf ctl vec body = u.updCore t (fun c => c.countInstr.advance) := by
  rw [State.runInstr_runs hrun wf ctl vec body hwf hctl, hbody, finishInstr]

/-- State u is s with the core of tile t changed by f, as a further change of that core shows. -/
def State.ChangesCore (s : State) (t : Nat) (f : Core → Core) (u : State) : Prop :=
  ∀ g, u.updCore t g = s.updCore t (fun c => g (f c))

theorem State.changesCore_updCore (s : State) (t : Nat) (f : Core → Core) : s.ChangesCore t f (s.updCore t f) := s.updCore_updCore t f

theorem State.changesCore_refl (s : State) (t : Nat) : s.ChangesCore t (fun c => c) s := fun _ => rfl

theorem State.ChangesCore.updCore {s u : State} {t : Nat} {f : Core → Core} (h : s.ChangesCore t f u) (g : Core → Core) :
    s.ChangesCore t (fun c => g (f c)) (u.updCore t g) := fun k => by rw [State.updCore_updCore, h]

/-- An instruction that completes with a change of its core alone. -/
theorem State.runInstr_ran {f : Core → Core} (hrun : Runs s t) (hwf : wf = true) (hctl : ctl = true → ¬s.inSlot t)
    (hbody : body (s.core t) (s.fetched t) = .done u) (hu : (s.fetched t).ChangesCore t f u) :
    s.runInstr t wf ctl vec body = s.ran t f := by
  rw [State.runInstr_done hrun hwf hctl hbody, hu, State.ran]

/-- An instruction that raises an exception outside a handler, SPEC_STORE and SYSCALL apart, traps with its code. -/
theorem Traps.of_exc {i : Instr} {e : Exc} {addr : Word} {acc : Access} {elem : Option Nat}
    (hexec : exec i s = .next (s.runInstr t wf ctl vec body)) (hrun : Runs s t) (hwf : wf = true) (hctl : ctl = true → ¬s.inSlot t)
    (hexl : (s.core t).exl = false) (hbody : body (s.core t) (s.fetched t) = .exc u e addr acc elem)
    (hcore : ∀ k, u.core k = s.core k) (hspec : e ≠ .specStore) (hsys : e ≠ .syscall) : Traps i s t (excCode e) := by
  refine Traps.of_raise s hexl hcore e hspec hsys addr acc vec elem ?_
  rw [hexec, State.runInstr_runs hrun wf ctl vec body hwf hctl, hbody, finishInstr]

/-! ### The core that an instruction leaves -/

/-- What is counted, and nothing else of the core, changes as an instruction is counted (06 R193). -/
theorem Core.countInstr_eq (c : Core) :
    c.countInstr = { c with qinstret := c.countInstr.qinstret, heldInstret := c.countInstr.heldInstret } := by
  unfold Core.countInstr
  split_ifs <;> rfl

@[simp] theorem Core.advance_readG (c : Core) (r : Reg) : c.advance.readG r = c.readG r := by
  unfold Core.advance
  split <;> rfl

@[simp] theorem Core.countInstr_readG (c : Core) (r : Reg) : c.countInstr.readG r = c.readG r := by
  rw [Core.countInstr_eq]
  rfl

@[simp] theorem Core.readG_zero (c : Core) : c.readG 0 = 0 := rfl

@[simp] theorem Core.advance_slot (c : Core) : c.advance.slot = none := by
  unfold Core.advance
  split
  · rfl
  · assumption

/-- Where the core goes on: after the instruction, or out of a delay slot at the transfer's target (06 R176). -/
def Core.nextPc (c : Core) : Word :=
  match c.slot with
  | some sl => sl.target
  | none => c.pc + 4

theorem Core.advance_pc (c : Core) : c.advance.pc = c.nextPc := by
  cases hslot : c.slot <;> simp only [Core.advance, Core.nextPc, hslot]

@[simp] theorem Core.countInstr_pc (c : Core) : c.countInstr.pc = c.pc := by
  rw [Core.countInstr_eq]

@[simp] theorem Core.countInstr_slot (c : Core) : c.countInstr.slot = c.slot := by
  rw [Core.countInstr_eq]

theorem Core.writeG_eq (c : Core) (r : Reg) (v : Word) : c.writeG r v = { c with g := (c.writeG r v).g } := by
  unfold Core.writeG
  split_ifs <;> rfl

@[simp] theorem Core.writeG_pc (c : Core) (r : Reg) (v : Word) : (c.writeG r v).pc = c.pc := by
  rw [Core.writeG_eq]

@[simp] theorem Core.writeG_slot (c : Core) (r : Reg) (v : Word) : (c.writeG r v).slot = c.slot := by
  rw [Core.writeG_eq]

@[simp] theorem State.core_ran (s : State) (t : Nat) (f : Core → Core) : (s.ran t f).core t = (f (s.core t)).countInstr.advance := by
  rw [State.ran, State.core_updCore, State.fetched_core]

/-- A change of a tile that keeps the lines of its L1D leaves all else as it was. -/
theorem State.onlyTile_updTile (s : State) (t : Nat) {f : Tile → Tile} (hf : (f (s.tile t)).l1.d = (s.tile t).l1.d) :
    s.onlyTile t (s.updTile t f) :=
  ⟨rfl, fun _ hk => s.tile_updTile_ne _ hk.symm, (congrArg (fun x => x.l1.d) (s.tile_updTile t f)).trans hf⟩

theorem State.onlyTile_updCore (s : State) (t : Nat) (f : Core → Core) : s.onlyTile t (s.updCore t f) := s.onlyTile_updTile t rfl

@[simp] theorem State.core_updL1 (s : State) (t : Nat) (f : L1 → L1) : (s.updL1 t f).core t = s.core t := s.core_updTile t _

theorem State.FetchOnly.onlyTile {s u : State} {t : Nat} (h : s.FetchOnly t u) : s.onlyTile t u :=
  ⟨h.rest, fun k hk => h.other k hk.symm, h.data.d⟩

theorem State.onlyTile.trans {s u v : State} {t : Nat} (h : s.onlyTile t u) (k : u.onlyTile t v) : s.onlyTile t v := by
  obtain ⟨hrest, hother, hlines⟩ := h
  obtain ⟨krest, kother, klines⟩ := k
  refine ⟨?_, fun j hj => (kother j hj).trans (hother j hj), klines.trans hlines⟩
  rw [krest, hrest]

/-- An instruction that changes its core alone leaves all but its tile as it was, and its tile's L1D. -/
theorem State.onlyTile_ran (s : State) (t : Nat) (f : Core → Core) : s.onlyTile t (s.ran t f) :=
  (s.fetch_only t).onlyTile.trans (State.onlyTile_updCore _ t _)

end Sys2Proof.Machine
end

section
/-! PROOFS. Obligations O7 to O10 (the scalar ALU): results, counts, products, quotients, divisions by zero, and what stays as it was. -/

namespace Sys2Proof.Machine

/-! ### Operands and results as numbers (06 R166, R168) -/

theorem boolWord_slt (a b : Word) : boolWord (a.slt b) = if a.toInt < b.toInt then 1 else 0 := by
  simp [boolWord, BitVec.slt]

theorem boolWord_ult (a b : Word) : boolWord (a.ult b) = if a.toNat < b.toNat then 1 else 0 := by
  simp [boolWord, BitVec.ult]

theorem ite_slt {α : Type} (a b : Word) (x y : α) : (if a.slt b then x else y) = if a.toInt < b.toInt then x else y := by
  simp [BitVec.slt]

theorem ite_ult {α : Type} (a b : Word) (x y : α) : (if a.ult b then x else y) = if a.toNat < b.toNat then x else y := by
  simp [BitVec.ult]

/-- The low bits of a register, as a number. -/
theorem field_zero {w : Nat} (r : BitVec w) (n : Nat) : field r 0 n = r.toNat % 2 ^ n := by
  rw [field, Nat.pow_zero, Nat.div_one]

/-- The Nib that NIBGET reads. -/
theorem ofNat_field_eq_shift_and (a : Word) (k : Nat) : BitVec.ofNat 64 (field a (4 * k) 4) = a >>> (4 * k) &&& 15 := by
  apply BitVec.eq_of_toNat_eq
  rw [BitVec.toNat_and, BitVec.toNat_ushiftRight, Nat.shiftRight_eq_div_pow, field, BitVec.toNat_ofNat,
    show (15 : Word).toNat = 2 ^ 4 - 1 from rfl, Nat.and_two_pow_sub_one_eq_mod, Nat.mod_eq_of_lt]
  exact (Nat.mod_lt _ (by decide)).trans (by decide)

theorem toInt_sextImm (i : BitVec 16) : (sextImm i).toInt = i.toInt := BitVec.toInt_signExtend_of_le (by decide)

/-- A shift by immediate below 64 meets its encoding's field rule (06 R168). -/
theorem shiftImm_wellFormed {imm : BitVec 16} (h : imm.toNat < 64) : (field imm 6 10 == 0) = true := by
  rw [beq_iff_eq, field, show imm.toNat / 2 ^ 6 = 0 from Nat.div_eq_of_lt h, Nat.zero_mod]

theorem field_shiftImm {imm : BitVec 16} (h : imm.toNat < 64) : field imm 0 6 = imm.toNat :=
  (field_zero imm 6).trans (Nat.mod_eq_of_lt h)

section Run

variable {s : State} {t : Nat} {i : Instr} {wf : Bool} {rd : Reg} {f : Core → Word}

/-- A command that is an ALU instruction writes its result to rd when it executes. -/
theorem exec_of_alu (hrun : Runs s t) (hexec : exec i s = .next (s.alu t wf rd f)) (hwf : wf = true) {v : Word} (hv : f (s.core t) = v) :
    exec i s = .next (s.ran t (fun c => c.writeG rd v)) := by
  rw [hexec, State.alu_runs hrun wf rd f hwf, hv]

end Run

/-- Settles O7: each instruction is an ALU instruction with the result as stated, once operands and immediates are read as numbers. -/
theorem scalarAluResults : Obligations.ScalarAluResults := by
  intro s t rd ra rb imm hrun a b put
  have alu {i : Instr} {f : Core → Word} {v : Word} (hexec : exec i s = .next (s.alu t true rd f)) (hv : f (s.core t) = v) :
      exec i s = put v := exec_of_alu hrun hexec rfl hv
  have hshift : field b 0 6 = b.toNat % 64 := field_zero b 6
  have hnib : field b 0 4 = b.toNat % 16 := field_zero b 4
  have shiftImm {i : Instr} {f : Core → Word} {v : Word} (himm : imm.toNat < 64)
      (hexec : exec i s = .next (s.alu t (field imm 6 10 == 0) rd f)) (hv : f (s.core t) = v) : exec i s = put v :=
    exec_of_alu hrun hexec (shiftImm_wellFormed himm) hv
  refine ⟨alu rfl rfl, alu rfl rfl, alu rfl rfl, alu rfl rfl, alu rfl rfl, alu rfl ?sll, alu rfl ?srl, alu rfl ?sra,
    alu rfl (boolWord_slt a b), alu rfl (boolWord_ult a b), alu rfl (ite_slt b a _ _), alu rfl (ite_slt a b _ _),
    alu rfl (ite_ult b a _ _), alu rfl (ite_ult a b _ _), alu rfl rfl, alu rfl rfl, alu rfl ?nibget,
    alu rfl rfl, alu rfl rfl, alu rfl rfl, alu rfl rfl, alu rfl ?slti, alu rfl (boolWord_ult a _), alu rfl rfl,
    fun himm => ⟨shiftImm himm rfl ?slli, shiftImm himm rfl ?srli, shiftImm himm rfl ?srai⟩⟩
  case sll => exact congrArg (a <<< ·) hshift
  case srl => exact congrArg (a >>> ·) hshift
  case sra => exact congrArg a.sshiftRight hshift
  case nibget => exact hnib ▸ ofNat_field_eq_shift_and a (field b 0 4)
  case slti => exact toInt_sextImm imm ▸ boolWord_slt a (sextImm imm)
  case slli => exact congrArg (a <<< ·) (field_shiftImm himm)
  case srli => exact congrArg (a >>> ·) (field_shiftImm himm)
  case srai => exact congrArg a.sshiftRight (field_shiftImm himm)

/-! ### Counts (06 R166) -/

/-- The leading zeros of the low n bits: the zeros above the first one. -/
theorem clzFrom_spec (v : Word) (n : Nat) : clzFrom v n ≤ n ∧ (∀ i < clzFrom v n, v.getLsbD (n - 1 - i) = false) ∧
    (clzFrom v n < n → v.getLsbD (n - 1 - clzFrom v n) = true) := by
  induction n with
  | zero => exact ⟨le_rfl, nofun, nofun⟩
  | succ n ih =>
    obtain ⟨hle, hzero, hone⟩ := ih
    rw [clzFrom]
    cases hbit : v.getLsbD n with
    | true => exact ⟨Nat.zero_le _, nofun, fun _ => hbit⟩
    | false =>
      refine ⟨Nat.succ_le_succ hle, fun i hi => ?_, fun hlt => ?_⟩
      · cases i with
        | zero => exact hbit
        | succ i => exact (show n + 1 - 1 - (i + 1) = n - 1 - i by omega) ▸ hzero i (Nat.lt_of_succ_lt_succ hi)
      · exact (show n + 1 - 1 - (clzFrom v n + 1) = n - 1 - clzFrom v n by omega) ▸ hone (Nat.lt_of_succ_lt_succ hlt)

/-- The trailing zeros of the bits from 64 − n upward: the zeros below the first one. -/
theorem ctzFrom_spec (v : Word) {n : Nat} (hn : n ≤ 64) : ctzFrom v n ≤ n ∧ (∀ i < ctzFrom v n, v.getLsbD (64 - n + i) = false) ∧
    (ctzFrom v n < n → v.getLsbD (64 - n + ctzFrom v n) = true) := by
  induction n with
  | zero => exact ⟨le_rfl, nofun, nofun⟩
  | succ n ih =>
    obtain ⟨hle, hzero, hone⟩ := ih (by omega)
    have hfirst : 64 - (n + 1) = 63 - n := by omega
    have hnext (k : Nat) : 63 - n + (k + 1) = 64 - n + k := by omega
    rw [ctzFrom, hfirst]
    cases hbit : v.getLsbD (63 - n) with
    | true => exact ⟨Nat.zero_le _, nofun, fun _ => hbit⟩
    | false =>
      refine ⟨Nat.succ_le_succ hle, fun i hi => ?_, fun hlt => ?_⟩
      · cases i with
        | zero => exact hbit
        | succ i => exact hnext i ▸ hzero i (Nat.lt_of_succ_lt_succ hi)
      · exact hnext _ ▸ hone (Nat.lt_of_succ_lt_succ hlt)

/-- POPC counts the places of the ones. -/
theorem popFrom_eq_length (v : Word) (n : Nat) : popFrom v n = ((List.range n).filter (fun i => v.getLsbD i)).length := by
  induction n with
  | zero => rfl
  | succ n ih =>
    rw [popFrom, ih, List.range_succ, List.filter_append, List.length_append, Nat.add_comm]
    cases hbit : v.getLsbD n <;> simp [hbit]

/-! ### Products (06 R167) -/

/-- The high half of a signed product fits its register. -/
theorem toInt_mulhS (a b : Word) : (mulhS a b).toInt = a.toInt * b.toInt / 2 ^ 64 := by
  have hlo : -2 ^ 126 ≤ a.toInt * b.toInt := BitVec.le_toInt_mul_toInt
  have hhi : a.toInt * b.toInt ≤ 2 ^ 126 := BitVec.toInt_mul_toInt_le
  rw [mulhS, BitVec.toInt_ofInt, Int.bmod_eq_of_le] <;> omega

theorem toNat_mulhU (a b : Word) : (mulhU a b).toNat = a.toNat * b.toNat / 2 ^ 64 := by
  rw [mulhU, BitVec.toNat_ofNat, Nat.mod_eq_of_lt]
  exact Nat.div_lt_of_lt_mul (Nat.mul_lt_mul'' a.isLt b.isLt)

/-- A division by a divisor that is not 0 writes its result to rd (06 R167). -/
theorem State.divide_of_ne_zero {s : State} {t : Nat} {rd ra rb : Reg} (hrun : Runs s t) (hb : (s.core t).readG rb ≠ 0)
    (f : Word → Word → Word) :
    s.divide t rd ra rb f = s.ran t (fun c => c.writeG rd (f ((s.core t).readG ra) ((s.core t).readG rb))) :=
  State.runInstr_ran hrun rfl nofun (if_neg hb) (State.changesCore_updCore _ t _)

/-- Settles O8: each instruction is an ALU instruction, or a division by a divisor that is not 0, with the count, product, quotient or
remainder of its operands as numbers. -/
theorem countsProductsQuotients : Obligations.CountsProductsQuotients := by
  intro s t rd ra rb hrun a b put
  have alu {i : Instr} {f : Core → Word} {v : Word} (hexec : exec i s = .next (s.alu t true rd f)) (hv : f (s.core t) = v) :
      exec i s = put v := exec_of_alu hrun hexec rfl hv
  obtain ⟨hclz, hclzZero, hclzOne⟩ := clzFrom_spec a 64
  obtain ⟨hctz, hctzZero, hctzOne⟩ := ctzFrom_spec a le_rfl
  simp only [Nat.sub_self, Nat.zero_add] at hctzZero hctzOne
  refine ⟨⟨_, hclz, alu rfl rfl, hclzZero, hclzOne⟩, ⟨_, hctz, alu rfl rfl, hctzZero, hctzOne⟩,
    alu rfl (congrArg _ (popFrom_eq_length a 64)), alu rfl rfl, ⟨_, alu rfl rfl, toInt_mulhS a b⟩, ⟨_, alu rfl rfl, toNat_mulhU a b⟩,
    fun hb => ?_⟩
  have div {i : Instr} {f : Word → Word → Word} (hexec : exec i s = .next (s.divide t rd ra rb f)) : exec i s = put (f a b) := by
    rw [hexec, State.divide_of_ne_zero hrun hb]
  refine ⟨⟨_, div rfl, fun h => ?_, fun h => ?_⟩, ⟨_, div rfl, BitVec.toInt_srem a b⟩, ⟨_, div rfl, BitVec.toNat_udiv⟩,
    ⟨_, div rfl, BitVec.toNat_umod⟩⟩
  · exact BitVec.toInt_sdiv_of_ne_or_ne a b
      (h.imp (fun ha hmin => ha (congrArg BitVec.toInt hmin)) (fun hb hone => hb (congrArg BitVec.toInt hone)))
  · rw [show a = BitVec.intMin 64 from BitVec.toInt_inj.mp h.1, show b = -1#64 from BitVec.toInt_inj.mp h.2, BitVec.intMin_sdiv_neg_one]
    rfl

/-! ### The frame (06 R154, R176, R193) -/

/-- An instruction that writes a general register changes of its core that register, the program counter, the slot and the counts. -/
theorem Core.writeG_ran_eq (c : Core) (rd : Reg) (v : Word) :
    let d := (c.writeG rd v).countInstr.advance
    d = { c with g := d.g, pc := d.pc, slot := d.slot, qinstret := d.qinstret, heldInstret := d.heldInstret } := by
  unfold Core.advance Core.countInstr Core.writeG
  split <;> split_ifs <;> rfl

/-- The same instruction leaves every register but rd, and goes on after itself or at the target of its slot's transfer. -/
theorem State.ran_writeG_frame (s : State) (t : Nat) (rd : Reg) (v : Word) :
    let u := s.ran t (fun c => c.writeG rd v)
    (∀ k, k ≠ rd → (u.core t).readG k = (s.core t).readG k) ∧ (u.core t).readG 0 = 0 ∧
      (u.core t).pc = (s.core t).nextPc ∧ (u.core t).slot = none ∧
      u.core t = { s.core t with
        g := (u.core t).g, pc := (u.core t).pc, slot := (u.core t).slot, qinstret := (u.core t).qinstret,
        heldInstret := (u.core t).heldInstret } := by
  intro u
  have hcore : u.core t = ((s.core t).writeG rd v).countInstr.advance := s.core_ran t _
  refine ⟨fun k hk => ?_, rfl, ?_, ?_, ?_⟩
  · rw [hcore, Core.advance_readG, Core.countInstr_readG, Core.readG_writeG, if_neg (fun h => hk h.1)]
  · rw [hcore, Core.advance_pc, Core.nextPc, Core.countInstr_slot, Core.countInstr_pc, Core.writeG_slot, Core.writeG_pc, Core.nextPc]
  · rw [hcore, Core.advance_slot]
  · rw [hcore]
    exact Core.writeG_ran_eq _ rd v

/-- The command is an ALU instruction with destination rd whose field rules are met. -/
def IsAlu (s : State) (t : Nat) (rd : Reg) (i : Instr) : Prop := ∃ wf f, wf = true ∧ exec i s = .next (s.alu t wf rd f)

theorem IsAlu.of_alu {s : State} {t : Nat} {rd : Reg} {i : Instr} {f : Core → Word} (hexec : exec i s = .next (s.alu t true rd f)) :
    IsAlu s t rd i := ⟨true, f, rfl, hexec⟩

theorem IsAlu.of_shiftImm {s : State} {t : Nat} {rd : Reg} {i : Instr} {f : Core → Word} {imm : BitVec 16} (himm : imm.toNat < 64)
    (hexec : exec i s = .next (s.alu t (field imm 6 10 == 0) rd f)) : IsAlu s t rd i := ⟨_, f, shiftImm_wellFormed himm, hexec⟩

/-- Settles O10: each instruction is an ALU instruction, so it leaves what a write of rd leaves. -/
theorem scalarAluFrame : Obligations.ScalarAluFrame := by
  intro s t rd ra rb imm hrun himm i hi u hu
  have halu : IsAlu s t rd i := by
    clear hu
    revert i
    simp only [List.forall_mem_cons, List.not_mem_nil, false_implies, implies_true, and_true]
    exact ⟨.of_alu rfl, .of_alu rfl, .of_alu rfl, .of_alu rfl, .of_alu rfl, .of_alu rfl, .of_alu rfl, .of_alu rfl, .of_alu rfl,
      .of_alu rfl, .of_alu rfl, .of_alu rfl, .of_alu rfl, .of_alu rfl, .of_alu rfl, .of_alu rfl, .of_alu rfl, .of_alu rfl, .of_alu rfl,
      .of_alu rfl, .of_alu rfl, .of_alu rfl, .of_alu rfl, .of_alu rfl, .of_alu rfl, .of_alu rfl, .of_alu rfl, .of_alu rfl, .of_alu rfl,
      .of_alu rfl, .of_shiftImm himm rfl, .of_shiftImm himm rfl, .of_shiftImm himm rfl⟩
  obtain ⟨wf, f, hwf, hexec⟩ := halu
  rw [exec_of_alu hrun hexec hwf rfl] at hu
  cases hu
  obtain ⟨hothers, hzero, hpc, hslot, hcore⟩ := s.ran_writeG_frame t rd (f (s.core t))
  obtain ⟨hrest, hother, hlines⟩ := s.onlyTile_ran t (fun c => c.writeG rd (f (s.core t)))
  exact ⟨hothers, hzero, hpc, hslot, hcore, hlines, hother, hrest⟩

/-- A division by zero raises DIVZERO (06 R167). -/
theorem Traps.of_divide {s : State} {t : Nat} {rd ra rb : Reg} {f : Word → Word → Word} {i : Instr} (hrun : Runs s t)
    (hexl : (s.core t).exl = false) (hb : (s.core t).readG rb = 0) (hexec : exec i s = .next (s.divide t rd ra rb f)) : Traps i s t 5 :=
  Traps.of_exc hexec hrun rfl nofun hexl (if_pos hb) (s.fetched_core t) nofun nofun

/-- Settles O9: each of the four is a division. -/
theorem divideByZeroTraps : Obligations.DivideByZeroTraps := by
  intro s t rd ra rb hrun hexl hb
  simp only [List.forall_mem_cons, List.not_mem_nil, false_implies, implies_true, and_true]
  exact ⟨.of_divide hrun hexl hb rfl, .of_divide hrun hexl hb rfl, .of_divide hrun hexl hb rfl, .of_divide hrun hexl hb rfl⟩

end Sys2Proof.Machine
end

section
/-! PROOFS. Obligation O11 (control transfers): conditions, links, delay slots, annulment. -/

namespace Sys2Proof.Machine

variable {s u : State} {t : Nat} {annul : Bool} {target : Word}

/-- A control transfer that executes is counted and commits (06 R176). -/
theorem State.runInstr_branch {wf ctl vec taken : Bool} {body : Core → State → Eff} (hrun : Runs s t) (hwf : wf = true)
    (hctl : ctl = true → ¬s.inSlot t) (hbody : body (s.core t) (s.fetched t) = .branch u taken annul target) :
    s.runInstr t wf ctl vec body = u.updCore t (fun c => c.countInstr.transfer taken annul target) := by
  rw [State.runInstr_runs hrun wf ctl vec body hwf hctl, hbody, finishInstr]

/-! ### What a transfer makes of the core (06 R176 to R178) -/

theorem Core.transfer_taken (c : Core) (annul : Bool) (target : Word) :
    c.transfer true annul target = { c.train true target with pc := c.pc + 4, slot := some { branch := c.pc, target := target } } := rfl

theorem Core.transfer_untaken (c : Core) (annul : Bool) (target : Word) :
    c.transfer false annul target = if annul then { c.train false target with pc := c.pc + 8 }
      else { c.train false target with pc := c.pc + 4, slot := some { branch := c.pc, target := c.pc + 8 } } := by
  cases annul <;> rfl

theorem branchTarget_eq (pc : Word) (disp : BitVec 20) : branchTarget pc disp = pc + disp.signExtend 64 * 4 :=
  congrArg (pc + ·) (BitVec.shiftLeft_eq_mul_twoPow _ 2)

/-- The core after a taken transfer that has changed it by f before. -/
def Core.afterTaken (f : Core → Core) (target : Word) (c : Core) : Core :=
  { ((f c).countInstr.train true target) with pc := c.pc + 4, slot := some { branch := c.pc, target := target } }

/-- The core after a transfer not taken. -/
def Core.afterUntaken (annul : Bool) (target : Word) (c : Core) : Core :=
  if annul then { (c.countInstr.train false target) with pc := c.pc + 8 }
  else { (c.countInstr.train false target) with pc := c.pc + 4, slot := some { branch := c.pc, target := c.pc + 8 } }

/-- A jump whose core has been changed by f, which keeps the program counter, is taken. -/
theorem State.runInstr_taken {wf : Bool} {body : Core → State → Eff} {f : Core → Core} (hrun : Runs s t) (hslot : ¬s.inSlot t)
    (hwf : wf = true) (hbody : body (s.core t) (s.fetched t) = .branch u true annul target)
    (hu : (s.fetched t).ChangesCore t f u) (hpc : ∀ c, (f c).pc = c.pc) :
    s.runInstr t wf true false body = (s.fetched t).updCore t (Core.afterTaken f target) := by
  rw [State.runInstr_branch hrun hwf (fun _ => hslot) hbody, hu]
  refine congrArg _ (funext fun c => ?_)
  rw [Core.transfer_taken, Core.countInstr_pc, hpc, Core.afterTaken]

/-- A conditional branch is taken or not as its condition says. -/
theorem State.condBranch_runs (hrun : Runs s t) (hslot : ¬s.inSlot t) (ra : Reg) (disp : BitVec 20) (p : Word → Bool) :
    s.condBranch t annul ra disp p = if p ((s.core t).readG ra)
      then (s.fetched t).updCore t (Core.afterTaken (fun c => c) ((s.core t).pc + disp.signExtend 64 * 4))
      else (s.fetched t).updCore t (Core.afterUntaken annul ((s.core t).pc + disp.signExtend 64 * 4)) := by
  rw [State.condBranch, State.runInstr_branch hrun rfl (fun _ => hslot) rfl, ← branchTarget_eq]
  cases p ((s.core t).readG ra) with
  | true =>
    refine congrArg _ (funext fun c => ?_)
    rw [Core.transfer_taken, Core.countInstr_pc, Core.afterTaken]
  | false =>
    refine congrArg _ (funext fun c => ?_)
    rw [Core.transfer_untaken, Core.countInstr_pc, Core.afterUntaken]

/-! ### The conditions (06 R172) -/

theorem slt_zero_eq (a : Word) : a.slt 0 = decide (a.toInt < 0) := rfl

theorem zero_slt_eq (a : Word) : (0 : Word).slt a = decide (0 < a.toInt) := rfl

theorem not_slt_zero_eq (a : Word) : (!a.slt 0) = decide (0 ≤ a.toInt) := by
  rw [slt_zero_eq, ← decide_not, decide_eq_decide, not_lt]

theorem not_zero_slt_eq (a : Word) : (!(0 : Word).slt a) = decide (a.toInt ≤ 0) := by
  rw [zero_slt_eq, ← decide_not, decide_eq_decide, not_lt]

/-- Settles O11: jumps are taken with their link written, and each branch as its condition on ra says. -/
theorem controlTransfers : Obligations.ControlTransfers := by
  intro s t rd ra disp annul hrun hslot c a target taken cond
  have branch {i : Instr} {p : Word → Bool} {q : Bool} (hexec : exec i s = .next (s.condBranch t annul ra disp p)) (hp : p a = q) :
      exec i s = cond q := by
    rw [hexec, State.condBranch_runs hrun hslot, hp]
    cases q <;> rfl
  have jump {i : Instr} {wf : Bool} {body : Core → State → Eff} {dst : Word} (hexec : exec i s = .next (s.runInstr t wf true false body))
      (hwf : wf = true) (hbody : body (s.core t) (s.fetched t) = .branch (s.fetched t) true false dst) :
      exec i s = taken (fun c => c) dst :=
    hexec.trans (congrArg _ (State.runInstr_taken hrun hslot hwf hbody (State.changesCore_refl _ t) (fun _ => rfl)))
  have link {i : Instr} {wf : Bool} {body : Core → State → Eff} {r : Reg} {dst : Word}
      (hexec : exec i s = .next (s.runInstr t wf true false body)) (hwf : wf = true)
      (hbody : body (s.core t) (s.fetched t) = .branch ((s.fetched t).updCore t (fun x => x.writeG r (c.pc + 8))) true false dst) :
      exec i s = taken (fun x => x.writeG r (c.pc + 8)) dst :=
    hexec.trans (congrArg _ (State.runInstr_taken hrun hslot hwf hbody (State.changesCore_updCore _ t _) (fun x => x.writeG_pc r _)))
  have htarget : branchTarget c.pc disp = target := branchTarget_eq c.pc disp
  refine ⟨jump rfl rfl rfl, fun hrd => link rfl (by simpa using hrd) rfl, htarget ▸ jump rfl rfl rfl, htarget ▸ link rfl rfl rfl,
    branch rfl rfl, branch rfl decide_not.symm, branch rfl (slt_zero_eq a), branch rfl (not_slt_zero_eq a), branch rfl (zero_slt_eq a),
    branch rfl (not_zero_slt_eq a)⟩

end Sys2Proof.Machine
end

section
/-! PROOFS. Obligations O12 and O13 (control registers): which numbers are assigned, what a read gives, what a write leaves, and who may do
either. -/

namespace Sys2Proof.Machine

variable {s : State} {t : Nat}

/-! ### Reads (06 R155, R173, R185) -/

theorem State.crRead_region (s : State) (t : Nat) {n : Nat} (hn : 0x100 ≤ n ∧ n < 0x180) : s.crRead t n =
    some (if n % 2 = 0 then (s.core t).rgnLo.getD ((n - 0x100) / 2) 0 else (s.core t).rgnHi.getD ((n - 0x100) / 2) 0, s) := if_pos hn

theorem State.crRead_rgnLo (s : State) (t : Nat) {k : Nat} (hk : k < 64) :
    s.crRead t (0x100 + 2 * k) = some ((s.core t).rgnLo.getD k 0, s) := by
  rw [s.crRead_region t (by omega), if_pos (by omega), Nat.add_sub_cancel_left, Nat.mul_div_cancel_left k two_pos]

theorem State.crRead_rgnHi (s : State) (t : Nat) {k : Nat} (hk : k < 64) :
    s.crRead t (0x101 + 2 * k) = some ((s.core t).rgnHi.getD k 0, s) := by
  rw [s.crRead_region t (by omega), if_neg (by omega), show (0x101 + 2 * k - 0x100) / 2 = k by omega]

/-- A number that is not assigned reads nothing. -/
theorem State.crRead_of_unassigned {n : Nat} (h : crAssigned n = false) : s.crRead t n = none := by
  obtain ⟨hregions, hlist⟩ := Bool.or_eq_false_iff.mp h
  have hregions := of_decide_eq_false hregions
  rw [State.crRead.eq_def, if_neg (by omega), if_neg (by omega)]
  split
  case h_26 => rfl
  all_goals exact absurd hlist (by decide)

/-- An assigned number that task mode may read, or any in runtime mode, passes the check of R155. -/
theorem State.mfcr_of_allowed {c : Core} {rd : Reg} {n : Nat} {v : Word} {u : State}
    (hallowed : c.runtime = true ∨ crTaskReadable n = true) (hread : s.crRead t n = some (v, u)) :
    s.mfcr t c rd n = .done (u.updCore t (fun x => x.writeG rd v)) := by
  have hpriv : (!c.runtime && crAssigned n && !crTaskReadable n) = false := by
    rcases hallowed with h | h <;> simp [h]
  rw [State.mfcr, hpriv, hread]
  rfl

theorem State.mfcr_of_unassigned {c : Core} {rd : Reg} {n : Nat} (h : crAssigned n = false) :
    s.mfcr t c rd n = .exc s .illegal 0 .fetch none := by
  rw [State.mfcr, h, State.crRead_of_unassigned h, Bool.and_false, Bool.false_and]
  rfl

theorem State.mfcr_of_forbidden {c : Core} {rd : Reg} {n : Nat} (hmode : c.runtime = false) (hassigned : crAssigned n = true)
    (hread : crTaskReadable n = false) : s.mfcr t c rd n = .exc s .priv 0 .fetch none := by
  rw [State.mfcr, hmode, hassigned, hread]
  rfl

theorem exec_mfcr (s : State) (t : Nat) (rd : Reg) (n : BitVec 12) :
    exec (.mfcr t rd n) s = .next (s.runInstr t true false false (fun c s1 => s1.mfcr t c rd n.toNat)) := rfl

/-- A read that changes nothing gives rd the register's value. -/
theorem exec_mfcr_of_crRead {rd : Reg} {n : BitVec 12} {v : Word} (hrun : Runs s t)
    (hallowed : (s.core t).runtime = true ∨ crTaskReadable n.toNat = true)
    (hread : (s.fetched t).crRead t n.toNat = some (v, s.fetched t)) :
    exec (.mfcr t rd n) s = .next (s.ran t (fun c => c.writeG rd v)) := by
  rw [exec_mfcr, State.runInstr_ran hrun rfl Bool.noConfusion (State.mfcr_of_allowed hallowed hread) (State.changesCore_updCore _ t _)]

/-- A read of QCYCLE advances it by a free value first (log 9), and gives what it then holds. -/
theorem exec_mfcr_qcycle (hrun : Runs s t) (rd : Reg) :
    let x := (s.fetched t).free.1
    exec (.mfcr t rd 0x012) s = .next ((((s.fetched t).free.2.updCore t (fun c => { c with qcycle := (s.core t).qcycle + x })).updCore t
      (fun c => c.writeG rd ((s.core t).qcycle + x))).updCore t (fun c => c.countInstr.advance)) := by
  intro x
  have hread : (s.fetched t).crRead t 0x012 = some ((s.core t).qcycle + x,
      (s.fetched t).free.2.updCore t (fun c => { c with qcycle := (s.core t).qcycle + x })) := by
    rw [← s.fetched_core t t]
    rfl
  rw [exec_mfcr, State.runInstr_done hrun rfl Bool.noConfusion (State.mfcr_of_allowed (.inr rfl) hread)]

/-- Settles O12: each number reads its register, one of the six in either mode, the others in runtime mode alone. -/
theorem controlRegisterReads : Obligations.ControlRegisterReads := by
  intro s t rd hrun c gives
  have hcore : (s.fetched t).core t = c := s.fetched_core t t
  have allowed {n : BitVec 12} (hn : c.runtime = true ∨ crTaskReadable n.toNat = true) (f : Core → Word)
      (hread : (s.fetched t).crRead t n.toNat = some (f ((s.fetched t).core t), s.fetched t)) : gives n (f c) :=
    exec_mfcr_of_crRead hrun hn (hcore ▸ hread)
  have runtime {n : BitVec 12} (hmode : c.runtime = true) := allowed (n := n) (.inl hmode)
  have task {n : BitVec 12} (htask : crTaskReadable n.toNat = true) := allowed (n := n) (.inr htask)
  refine ⟨fun hmode => ⟨runtime hmode Core.qcause rfl, runtime hmode Core.qepc rfl, runtime hmode Core.qfaultPc rfl,
      runtime hmode Core.qfaultAddr rfl, runtime hmode (fun c => c.qfaultElem.zeroExtend 64) rfl, runtime hmode Core.qvbase rfl,
      runtime hmode (fun c => c.qipend.zeroExtend 64) rfl, runtime hmode (fun c => c.qblotwin.zeroExtend 64) rfl,
      runtime hmode (fun c => c.bpkey.zeroExtend 64) rfl, runtime hmode Core.specFill rfl, fun k hk => ⟨?rgnLo, ?rgnHi⟩⟩,
    task rfl Core.qinstret rfl, task rfl (fun c => c.vl.zeroExtend 64) rfl, task rfl (fun _ => s.now) ?now,
    task rfl (fun c => c.qstatWord.zeroExtend 64) rfl, ?qcycle, fun hexl n => ⟨fun hn => ?illegal, fun hmode hn htask => ?priv⟩⟩
  case rgnLo =>
    refine runtime hmode (fun c => c.rgnLo.getD k 0) ?_
    rw [BitVec.toNat_ofNat, Nat.mod_eq_of_lt (by omega), State.crRead_rgnLo _ t hk]
  case rgnHi =>
    refine runtime hmode (fun c => c.rgnHi.getD k 0) ?_
    rw [BitVec.toNat_ofNat, Nat.mod_eq_of_lt (by omega), State.crRead_rgnHi _ t hk]
  case now => exact congrArg (fun x => some (x, s.fetched t)) (s.fetch_only t).now
  case qcycle =>
    refine ⟨(s.fetched t).free.1, _, exec_mfcr_qcycle hrun rd, fun hrd => ?_, ?_⟩
    · rw [State.core_updCore, State.core_updCore, State.core_updCore, Core.advance_readG, Core.countInstr_readG, Core.readG_writeG,
        if_pos ⟨rfl, hrd⟩]
    · rw [State.core_updCore, State.core_updCore, State.core_updCore]
      exact congrArg Core.qcycle (Core.writeG_ran_eq _ rd _)
  case illegal => exact Traps.of_exc (exec_mfcr s t rd n) hrun rfl nofun hexl (State.mfcr_of_unassigned hn) (s.fetched_core t) nofun nofun
  case priv =>
    exact Traps.of_exc (exec_mfcr s t rd n) hrun rfl nofun hexl (State.mfcr_of_forbidden hmode hn htask) (s.fetched_core t) nofun nofun

/-! ### Writes (06 R155, R162, R173, R182) -/

section Modify

variable {c : Core} {n : Nat} {f : Word → Word} {v : Word}

/-- A write access in runtime mode, but to L1CTL, writes what it computes from the old value. -/
theorem State.crModify_none (hmode : c.runtime = true) (hassigned : crAssigned n = true) (hctl : n ≠ 0x030)
    (hread : s.crRead t n = some (v, s)) : s.crModify t c none n f = .done (s.crWrite t n (f v)) := by
  simp only [State.crModify, hmode, hassigned, hread, hctl, decide_false, Bool.not_true, Bool.false_and, Bool.false_eq_true, if_false]

/-- Where the form has a destination, it takes the old value. -/
theorem State.crModify_some (hmode : c.runtime = true) (hassigned : crAssigned n = true) (hctl : n ≠ 0x030)
    (hread : s.crRead t n = some (v, s)) (rd : Reg) :
    s.crModify t c (some rd) n f = .done ((s.crWrite t n (f v)).updCore t (fun x => x.writeG rd v)) := by
  simp only [State.crModify, hmode, hassigned, hread, hctl, decide_false, Bool.not_true, Bool.false_and, Bool.false_eq_true, if_false]

theorem State.crModify_of_unassigned (rd : Option Reg) (h : crAssigned n = false) :
    s.crModify t c rd n f = .exc s .illegal 0 .fetch none := by
  rw [State.crModify, h]
  rfl

theorem State.crModify_of_task (rd : Option Reg) (hmode : c.runtime = false) (hheld : c.held = false) (hassigned : crAssigned n = true) :
    s.crModify t c rd n f = .exc s .priv 0 .fetch none := by
  rw [State.crModify, hmode, hheld, hassigned]
  rfl

end Modify

theorem exec_mtcr (s : State) (t : Nat) (ra : Reg) (n : BitVec 12) : exec (.mtcr t ra n) s =
    .next (s.runInstr t true false false (fun c s1 => s1.crModify t c none n.toNat (fun _ => c.readG ra))) := rfl

theorem exec_setcr (s : State) (t : Nat) (rd ra : Reg) (n : BitVec 12) : exec (.setcr t rd ra n) s =
    .next (s.runInstr t true false false (fun c s1 => s1.crModify t c (some rd) n.toNat (fun v => v ||| c.readG ra))) := rfl

theorem exec_clrcr (s : State) (t : Nat) (rd ra : Reg) (n : BitVec 12) : exec (.clrcr t rd ra n) s =
    .next (s.runInstr t true false false (fun c s1 => s1.crModify t c (some rd) n.toNat (fun v => v &&& ~~~(c.readG ra)))) := rfl

/-- An MTCR in runtime mode to a register of the core changes the core as the write does. -/
theorem exec_mtcr_of_crWrite {ra : Reg} {n : BitVec 12} {f : Core → Core} {v : Word} (hrun : Runs s t) (hmode : (s.core t).runtime = true)
    (hassigned : crAssigned n.toNat = true) (hctl : n.toNat ≠ 0x030) (hread : (s.fetched t).crRead t n.toNat = some (v, s.fetched t))
    (hwrite : (s.fetched t).ChangesCore t f ((s.fetched t).crWrite t n.toNat ((s.core t).readG ra))) :
    exec (.mtcr t ra n) s = .next (s.ran t f) := by
  rw [exec_mtcr, State.runInstr_ran hrun rfl Bool.noConfusion (State.crModify_none hmode hassigned hctl hread) hwrite]

/-- A write access to QEPC in runtime mode that has a destination writes QEPC, and the old value there. -/
theorem exec_of_crModify_qepc {i : Instr} {rd : Reg} {f : Core → Word → Word} (hrun : Runs s t) (hmode : (s.core t).runtime = true)
    (hexec : exec i s = .next (s.runInstr t true false false (fun c s1 => s1.crModify t c (some rd) (0x003 : BitVec 12).toNat (f c)))) :
    exec i s = .next (s.ran t (fun x => ({ x with qepc := f (s.core t) (s.core t).qepc }).writeG rd (s.core t).qepc)) := by
  have hread : (s.fetched t).crRead t 0x003 = some ((s.core t).qepc, s.fetched t) := by
    rw [← s.fetched_core t t]
    rfl
  have hwrite : (s.fetched t).crWrite t 0x003 (f (s.core t) (s.core t).qepc) =
      (s.fetched t).updCore t (fun x => { x with qepc := f (s.core t) (s.core t).qepc }) := rfl
  rw [hexec, State.runInstr_ran hrun rfl Bool.noConfusion (State.crModify_some hmode rfl (by decide) hread rd)
    ((hwrite ▸ State.changesCore_updCore _ t _).updCore _)]

/-- A command that is a write access traps for a number not assigned, and in task mode for any other. -/
theorem Traps.of_crModify {i : Instr} {n : Nat} {rd : Option Reg} {f : Core → Word → Word} (hrun : Runs s t)
    (hexl : (s.core t).exl = false)
    (hexec : exec i s = .next (s.runInstr t true false false (fun c s1 => s1.crModify t c rd n (f c)))) :
    (crAssigned n = false → Traps i s t 1) ∧
      ((s.core t).runtime = false → (s.core t).held = false → crAssigned n = true → Traps i s t 2) :=
  ⟨fun hn => .of_exc hexec hrun rfl Bool.noConfusion hexl (State.crModify_of_unassigned rd hn) (s.fetched_core t) nofun nofun,
    fun hmode hheld hn => .of_exc hexec hrun rfl Bool.noConfusion hexl (State.crModify_of_task rd hmode hheld hn) (s.fetched_core t)
      nofun nofun⟩

/-- Settles O13: each number's write changes the core by its field types, and a write access that may not be traps. -/
theorem controlRegisterWrites : Obligations.ControlRegisterWrites := by
  intro s t rd ra hrun c a
  refine ⟨fun hmode => ?_, fun hexl n => ?_⟩
  · have mtcr {n : BitVec 12} {v : Word} {f : Core → Core} (hassigned : crAssigned n.toNat = true) (hctl : n.toNat ≠ 0x030)
        (hread : (s.fetched t).crRead t n.toNat = some (v, s.fetched t))
        (hwrite : (s.fetched t).crWrite t n.toNat a = (s.fetched t).updCore t f) : exec (.mtcr t ra n) s = .next (s.ran t f) :=
      exec_mtcr_of_crWrite hrun hmode hassigned hctl hread (hwrite ▸ State.changesCore_updCore _ t f)
    have readOnly {n : BitVec 12} {v : Word} (hassigned : crAssigned n.toNat = true) (hctl : n.toNat ≠ 0x030)
        (hread : (s.fetched t).crRead t n.toNat = some (v, s.fetched t))
        (hwrite : (s.fetched t).crWrite t n.toNat a = s.fetched t) : exec (.mtcr t ra n) s = .next (s.ran t (fun c => c)) :=
      exec_mtcr_of_crWrite hrun hmode hassigned hctl hread (hwrite.symm ▸ State.changesCore_refl _ t)
    refine ⟨mtcr rfl (by decide) rfl rfl, mtcr rfl (by decide) rfl rfl, mtcr rfl (by decide) rfl rfl, mtcr rfl (by decide) rfl rfl,
      mtcr rfl (by decide) rfl rfl, ?_, ?_, ?_⟩
    · simp only [List.forall_mem_cons, List.not_mem_nil, false_implies, implies_true, and_true]
      exact ⟨readOnly rfl (by decide) rfl rfl, readOnly rfl (by decide) rfl rfl, readOnly rfl (by decide) rfl rfl,
        readOnly rfl (by decide) rfl rfl, readOnly rfl (by decide) rfl rfl, readOnly rfl (by decide) rfl rfl,
        readOnly rfl (by decide) rfl rfl⟩
    · exact exec_of_crModify_qepc (f := fun c v => v ||| c.readG ra) hrun hmode (exec_setcr s t rd ra 0x003)
    · exact exec_of_crModify_qepc (f := fun c v => v &&& ~~~(c.readG ra)) hrun hmode (exec_clrcr s t rd ra 0x003)
  · simp only [List.forall_mem_cons, List.not_mem_nil, false_implies, implies_true, and_true]
    exact ⟨Traps.of_crModify hrun hexl (exec_mtcr s t ra n), Traps.of_crModify hrun hexl (exec_setcr s t rd ra n),
      Traps.of_crModify hrun hexl (exec_clrcr s t rd ra n)⟩

end Sys2Proof.Machine
end

section
/-! PROOFS. Obligations O14 and O15 (system instructions and interrupts): the entry of a handler, the return from it, fences. -/

namespace Sys2Proof.Machine

variable {s : State} {t : Nat}

/-! ### The entry of a handler (06 R182) -/

/-- CODE and SVC of a cause that is put together from its fields (06 R188). -/
theorem field_cause {code acc svc : Nat} (hcode : code < 16) (hacc : acc < 4) (hsvc : svc < 2 ^ 12) (bd vec held : Prop) [Decidable bd]
    [Decidable vec] [Decidable held] :
    let cause := BitVec.ofNat 64 (code + (if bd then 2 ^ 8 else 0) + acc * 2 ^ 10 + (if vec then 2 ^ 12 else 0) +
      (if held then 2 ^ 13 else 0) + svc * 2 ^ 16)
    field cause 0 8 = code ∧ field cause 16 12 = svc := by
  intro cause
  simp only [cause, field, BitVec.toNat_ofNat]
  split_ifs <;> omega

/-- The core after an exception outside a handler, but SPEC_STORE: in runtime mode at QVBASE with EXL 1 and IE 0, the former mode and IE
kept, the code in QCAUSE, registers and wait as they were. -/
theorem State.raise_enters (hexl : (s.core t).exl = false) {e : Exc} (hspec : e ≠ .specStore) (addr : Word) (acc : Access) (vec : Bool)
    (elem : Option Nat) (svc : BitVec 12) :
    let c := (s.raise t e addr acc vec elem svc).core t
    c.pc = (s.core t).qvbase ∧ c.runtime = true ∧ c.exl = true ∧ c.ie = false ∧ c.pmode = (s.core t).runtime ∧ c.pie = (s.core t).ie ∧
      field c.qcause 0 8 = excCode e ∧ (e = .syscall → field c.qcause 16 12 = svc.toNat) ∧ c.wait = (s.core t).wait ∧
      ∀ r, c.readG r = (s.core t).readG r := by
  have hcode : excCode e < 16 := by cases e <;> decide
  have hacc : accessCode acc < 4 := by cases acc <;> decide
  have hsvc : (if e = .syscall then svc.toNat else field (s.core t).qcause 16 12) < 2 ^ 12 := by
    split_ifs
    · exact svc.isLt
    · exact Nat.mod_lt _ (by decide)
  obtain ⟨hcause, hnum⟩ := field_cause hcode hacc hsvc ((s.core t).slot.isSome = true) (vec = true) ((s.core t).held = true)
  rw [s.raise_core hexl e hspec]
  refine ⟨rfl, ?_, ?_, ?_, ?_, ?_, hcause, fun he => hnum.trans (if_pos he), rfl, fun _ => rfl⟩ <;>
    simp (disch := decide) [Core.runtime, Core.exl, Core.ie, Core.pmode, Core.pie, getLsbD_putBit, -BitVec.getLsbD_eq_getElem]

/-- QEPC outside a delay slot: the instruction's address, or the next one after SYSCALL. -/
theorem State.raise_qepc (hexl : (s.core t).exl = false) (hslot : (s.core t).slot = none) {e : Exc} (hspec : e ≠ .specStore) (addr : Word)
    (acc : Access) (vec : Bool) (elem : Option Nat) (svc : BitVec 12) :
    ((s.raise t e addr acc vec elem svc).core t).qepc = if e = .syscall then (s.core t).pc + 4 else (s.core t).pc := by
  rw [s.raise_core hexl e hspec, hslot]

theorem State.slot_eq_none (h : ¬s.inSlot t) : (s.core t).slot = none := Option.not_isSome_iff_eq_none.mp h

/-! ### SYSCALL, RFE and FENCE (06 R162, R174, R192) -/

/-- SYSCALL, in held execution of task mode with SVC 0 alone, raises its exception. -/
theorem exec_syscall {svc : BitVec 12} (hrun : Runs s t) (hslot : ¬s.inSlot t)
    (hheld : (s.core t).held = false ∨ (s.core t).runtime = true ∨ svc = 0) :
    exec (.syscall t svc) s = .next ((s.fetched t).raise t .syscall 0 .fetch false none svc) := by
  have hcall : (!(s.core t).runtime && (s.core t).held && svc != 0) = false := by
    rcases hheld with h | h | h <;> simp [h]
  have hexec : exec (.syscall t svc) s = .next (s.runInstr t true true false (fun c s1 =>
    if !c.runtime && c.held && svc != 0 then .exc s1 .specStore 0 .fetch none else .call s1 svc)) := rfl
  rw [hexec, State.runInstr_runs hrun true true false _ rfl (fun _ => hslot), hcall, if_neg Bool.false_ne_true, finishInstr]

/-- The core that RFE leaves, before the RFE is counted. -/
def Core.returned (c : Core) : Core :=
  { c with pc := c.qepc, qstat := putBit (putBit c.qstat 0 c.pmode) 1 false, qctl := putBit c.qctl 0 c.pie, bpkeyEff := c.bpkey }

theorem exec_rfe (s : State) (t : Nat) : exec (.rfe t) s = .next (s.runInstr t true true false (fun c s1 =>
    if !c.runtime then .exc s1 .priv 0 .fetch none else .goto (s1.updCore t Core.returned))) := rfl

theorem exec_rfe_of_runtime (hrun : Runs s t) (hslot : ¬s.inSlot t) (hmode : (s.core t).runtime = true) :
    exec (.rfe t) s = .next ((s.fetched t).updCore t (fun c => c.returned.countInstr)) := by
  rw [exec_rfe, State.runInstr_runs hrun true true false _ rfl (fun _ => hslot), hmode, Bool.not_true, if_neg Bool.false_ne_true,
    finishInstr, State.updCore_updCore]

theorem Core.returned_countInstr (c : Core) : (c.returned.countInstr).pc = c.qepc ∧ c.returned.countInstr.runtime = c.pmode ∧
    c.returned.countInstr.ie = c.pie ∧ c.returned.countInstr.exl = false ∧ c.returned.countInstr.bpkeyEff = c.bpkey ∧
    ∀ r, c.returned.countInstr.readG r = c.readG r := by
  rw [Core.countInstr_eq]
  refine ⟨rfl, ?_, ?_, ?_, rfl, fun _ => rfl⟩ <;>
    simp (disch := decide) [Core.returned, Core.runtime, Core.ie, Core.exl, Core.pmode, Core.pie, getLsbD_putBit,
      -BitVec.getLsbD_eq_getElem]

theorem exec_fence (s : State) (t : Nat) (n : BitVec 12) : exec (.fence t n) s = .next (s.runInstr t (field n 3 9 == 0) false false
    (fun _ s1 => if n.getLsbD 2 && !s1.goPend.isEmpty then .block s1 else .done s1)) := rfl

theorem exec_isync (s : State) (t : Nat) : exec (.isync t) s = .next (s.runInstr t true false false
    (fun _ s1 => .done (s1.updCore t (fun c => { c with bpkeyEff := c.bpkey })))) := rfl

/-- The field rule of FENCE, and its bit G. -/
theorem fence_fields {n : BitVec 12} (hn : n.toNat < 8) : (field n 3 9 == 0) = true ∧ n.getLsbD 2 = decide (4 ≤ n.toNat) := by
  constructor
  · rw [beq_iff_eq, field, show n.toNat / 2 ^ 3 = 0 from Nat.div_eq_of_lt hn, Nat.zero_mod]
  · rw [BitVec.getLsbD, Nat.testBit_eq_decide_div_mod_eq, decide_eq_decide]
    omega

/-- Settles O14, instruction by instruction, with the rules above. -/
theorem systemInstructions : Obligations.SystemInstructions := by
  intro s t hrun c
  have hcore : (s.fetched t).core t = c := s.fetched_core t t
  refine ⟨fun svc hslot hexl hheld => ?syscall, fun hslot hmode => ?rfe, fun hslot hmode hexl => ?priv, fun n hn => ?fence, ?isync⟩
  case syscall =>
    have hexl' : ((s.fetched t).core t).exl = false := hcore ▸ hexl
    obtain ⟨hpc, hruntime, hexl1, hie, hpmode, hpie, hcode, hsvc, -, -⟩ :=
      State.raise_enters hexl' (e := .syscall) nofun 0 .fetch false none svc
    have hqepc := State.raise_qepc hexl' (hcore ▸ State.slot_eq_none hslot) (e := .syscall) nofun 0 .fetch false none svc
    rw [hcore] at hpc hpmode hpie hqepc
    exact ⟨_, exec_syscall hrun hslot hheld, hpc, hqepc, hcode, hsvc rfl, hruntime, hexl1, hie, hpmode, hpie⟩
  case rfe =>
    obtain ⟨hpc, hmode', hie, hexl, hkey, hregs⟩ := c.returned_countInstr
    refine ⟨_, exec_rfe_of_runtime hrun hslot hmode, ?_⟩
    rw [State.core_updCore, hcore]
    exact ⟨hpc, hmode', hie, hexl, hkey, hregs, (s.fetch_only t).onlyTile.trans (State.onlyTile_updCore _ t _)⟩
  case priv =>
    exact Traps.of_exc (exec_rfe s t) hrun rfl (fun _ => hslot) hexl (if_pos (by rw [hmode]; rfl)) (s.fetched_core t) nofun nofun
  case fence =>
    obtain ⟨hwf, hbit⟩ := fence_fields hn
    have hgo : (s.fetched t).goPend = s.goPend := (s.fetch_only t).goPend
    refine ⟨fun hgoes => ?_, fun hwaits => ?_⟩
    · have hfree : ¬(n.getLsbD 2 && !(s.fetched t).goPend.isEmpty) = true := by
        rw [hbit, hgo]
        rcases hgoes with h | h <;> simp [h]
      rw [exec_fence, State.runInstr_ran hrun hwf Bool.noConfusion (if_neg hfree) (State.changesCore_refl _ t)]
    · have hbusy : (n.getLsbD 2 && !(s.fetched t).goPend.isEmpty) = true := by
        rw [hbit, hgo]
        simpa using hwaits
      rw [exec_fence, State.runInstr_runs hrun _ false false _ hwf Bool.noConfusion, if_pos hbusy, finishInstr]
  case isync =>
    rw [exec_isync, State.runInstr_ran hrun rfl Bool.noConfusion rfl (State.changesCore_updCore _ t _)]

/-! ### INTERRUPT (06 R184; 08 R233) -/

/-- A core that takes an interrupt, its WAITTASK, if it is in one, ended with rd 0. -/
def Core.leavingWait (c : Core) : Core :=
  match c.wait with
  | some w => { (c.writeG w.rd 0) with wait := none, pc := c.pc + 4 }
  | none => c

theorem Core.leavingWait_of_none {c : Core} (h : c.wait = none) : c.leavingWait = c := by
  rw [Core.leavingWait, h]

theorem Core.leavingWait_of_some {c : Core} {w : Wait} (h : c.wait = some w) :
    c.leavingWait = { (c.writeG w.rd 0) with wait := none, pc := c.pc + 4 } := by
  rw [Core.leavingWait, h]

theorem Core.leavingWait_eq (c : Core) : c.leavingWait = { c with
    g := c.leavingWait.g, wait := none, pc := if c.wait.isSome then c.pc + 4 else c.pc } := by
  cases hwait : c.wait with
  | none =>
    have hsame : { c with wait := none } = c := by rw [← hwait]
    rw [Core.leavingWait_of_none hwait]
    exact hsame.symm
  | some w =>
    rw [Core.leavingWait_of_some hwait, Core.writeG_eq]
    rfl

/-- The registers once a wait has ended: rd of the WAITTASK reads 0. -/
theorem Core.leavingWait_readG (c : Core) (r : Reg) :
    c.leavingWait.readG r = if c.wait.map (fun w => w.rd) = some r then 0 else c.readG r := by
  cases hwait : c.wait with
  | none => rw [Core.leavingWait_of_none hwait, Option.map_none, if_neg nofun]
  | some w =>
    simp only [Core.leavingWait_of_some hwait, Option.map_some, Option.some_inj]
    refine (c.readG_writeG w.rd r 0).trans ?_
    by_cases hr : w.rd = r
    · subst hr
      by_cases hzero : w.rd = 0
      · rw [if_neg (fun h => h.2 hzero), if_pos rfl, hzero, Core.readG_zero]
      · rw [if_pos ⟨rfl, hzero⟩, if_pos rfl]
    · rw [if_neg (fun h => hr h.1.symm), if_neg hr]

/-- What a core that may take an interrupt is like: IE 1, EXL 0, no delay slot. -/
theorem Core.intrReady_flags {c : Core} (h : c.intrReady = true) : c.ie = true ∧ c.exl = false ∧ c.slot = none := by
  simp only [Core.intrReady, Bool.and_eq_true, Bool.not_eq_true', Option.isNone_iff_eq_none] at h
  obtain ⟨⟨⟨hie, hexl⟩, hslot⟩, -⟩ := h
  exact ⟨hie, hexl, hslot⟩

/-- A core that is free to take a ready interrupt enters the handler after its wait has been ended. -/
theorem exec_interrupt (hon : s.tileOn t = true) (hreleased : (s.core t).released = true) (hclock : s.pw.pstate = 0)
    (hisolated : s.isolated t = false) (hstall : (s.core t).stall = none) (hready : (s.core t).intrReady = true) :
    ∃ s1 : State, s1.core t = (s.core t).leavingWait ∧
      exec (.interrupt t) s = .next (s1.raise t .interrupt 0 .fetch false none 0) := by
  have hexec : exec (.interrupt t) s = .next (s.takeInterrupt t) := rfl
  have hfree : (s.tileOn t && (s.core t).released && s.pw.pstate == 0 && !s.isolated t && (s.core t).stall.isNone && (s.core t).intrReady) =
      true := by
    simp [hon, hreleased, hclock, hisolated, hstall, hready]
  rw [hexec, State.takeInterrupt]
  simp only [hfree, if_true]
  cases hwait : (s.core t).wait with
  | none => exact ⟨s, by rw [Core.leavingWait, hwait], rfl⟩
  | some w => 
    refine ⟨_, ?_, rfl⟩
    rw [State.core_updTile, Core.leavingWait, hwait]
    exact s.core_updCore t _

/-- Settles O15: the interrupt is an exception of the core whose wait has ended. -/
theorem interruptEntry : Obligations.InterruptEntry := by
  intro s t hon hreleased hclock hisolated hstall hready
  obtain ⟨hie, hexl, hslot⟩ := Core.intrReady_flags hready
  obtain ⟨s1, hcore, hexec⟩ := exec_interrupt hon hreleased hclock hisolated hstall hready
  have hleave := (s.core t).leavingWait_eq
  have hexl1 : (s1.core t).exl = false := by
    rw [hcore, hleave]
    exact hexl
  have hslot1 : (s1.core t).slot = none := by
    rw [hcore, hleave]
    exact hslot
  obtain ⟨hpc, hruntime, hexl', hie', hpmode, hpie, hcode, -, hwait, hregs⟩ :=
    State.raise_enters hexl1 (e := .interrupt) nofun 0 .fetch false none 0
  have hqepc := State.raise_qepc hexl1 hslot1 (e := .interrupt) nofun 0 .fetch false none 0
  rw [hcore] at hpc hpmode hpie hqepc hwait
  refine ⟨_, hexec, hcode, ?_, ?_, ?_, hruntime, hexl', hie', ?_, ?_, fun w hw hrd => ?_, fun r hr => ?_⟩
  · rw [hpc, hleave]
  · rw [hqepc, hleave]
    rfl
  · rw [hwait, hleave]
  · rw [hpie, hleave]
    exact hie
  · rw [hpmode, hleave]
    rfl
  · rw [hregs, hcore, Core.leavingWait_readG, hw]
    exact if_pos rfl
  · rw [hregs, hcore, Core.leavingWait_readG, if_neg hr]

end Sys2Proof.Machine
end

section
/-! PROOFS. Obligations O16 (commands on a core's predictor and first-level caches) and O34 (WAITTASK, task assignment, timeout). -/

namespace Sys2Proof.Machine

variable {s : State} {t : Nat}

/-! ### Commands on a core (06 R178; 09 R262, R263) -/

theorem exec_bpclr (s : State) (t : Nat) : exec (.bpclr t) s = .next (s.updCore t (fun c => { c with pred := [] })) := rfl

theorem exec_rangeGo_of_sound (hsound : s.soundL1 t) (hd : (s.tile t).l1.ctl.getLsbD 9 = false) :
    exec (.rangeGo t) s = .next (s.rangeOp t) := by
  have hexec : exec (.rangeGo t) s = execRangeGo t s := rfl
  rw [hexec, execRangeGo, hd, if_neg Bool.false_ne_true, s.parityScan_sound hsound]
  rfl

theorem exec_dis_of_sound (hsound : s.soundL1 t) (on : Bool) : exec (.dis t on) s = .next (s.setDis t on) := by
  have hexec : exec (.dis t on) s = execDis t on s := rfl
  rw [hexec, execDis, s.parityScan_sound hsound]
  rfl

/-- L1CTL.DIS reads as it was written. -/
theorem State.setDis_ctl (s : State) (t : Nat) (on : Bool) : ((s.setDis t on).tile t).l1.ctl.getLsbD 0 = on := by
  rw [State.setDis, State.tile_updL1]
  exact getLsbD_putBit _ 0 0 on (by decide)

theorem exec_idis (s : State) (t : Nat) (on : Bool) : exec (.idis t on) s = .next ((s.parityWalkI t).setIdis t on) := rfl

/-- Settles O16: BPCLR and IDIS write one tile; a check of a sound L1D finds no error, so RANGE_GO and DIS act. -/
theorem coreControlCommands : Obligations.CoreControlCommands := by
  intro s t
  refine ⟨⟨_, exec_bpclr s t, fun k => ?_, s.onlyTile_updCore t _, s.core_updCore t _⟩, exec_rangeGo_of_sound,
    fun hsound on => ⟨exec_dis_of_sound hsound on, s.setDis_ctl t on⟩, fun on => ⟨_, exec_idis s t on, ?_⟩⟩
  · rw [State.core_updCore]
    rfl
  · have hwalk := s.parityWalkI_only t
    rw [State.setIdis, State.core_updL1, State.tile_updL1]
    exact ⟨rfl, rfl, getLsbD_putBit _ 1 1 on (by decide), hwalk.core t, hwalk.onlyTile.trans (State.onlyTile_updTile _ t rfl)⟩

/-! ### WAITTASK (06 R155, R174; 08 R233) -/

/-- A tile whose core waits in a WAITTASK from a tick on. -/
def Tile.waiting (w : Wait) (x : Tile) : Tile :=
  { x with core := { x.core with wait := some w }, bind := { x.bind with idleSince := some w.start } }

theorem exec_waittask (s : State) (t : Nat) (rd ra : Reg) : exec (.waittask t rd ra) s = .next (s.runInstr t true true false (fun c s1 =>
    if !c.runtime then .exc s1 .priv 0 .fetch none
    else .block (s1.updTile t (Tile.waiting { rd, start := s1.ticks, timeout := c.readG ra })))) := rfl

theorem exec_waittask_of_runtime {rd ra : Reg} (hrun : Runs s t) (hslot : ¬s.inSlot t) (hmode : (s.core t).runtime = true) :
    exec (.waittask t rd ra) s =
      .next ((s.fetched t).updTile t (Tile.waiting { rd, start := s.ticks, timeout := (s.core t).readG ra })) := by
  have hticks : (s.fetched t).ticks = s.ticks := congrArg BitVec.toNat (s.fetch_only t).now
  rw [exec_waittask, State.runInstr_runs hrun true true false _ rfl (fun _ => hslot), hmode, Bool.not_true, if_neg Bool.false_ne_true,
    finishInstr, hticks]

theorem Traps.of_waittask {rd ra : Reg} (hrun : Runs s t) (hslot : ¬s.inSlot t) (hmode : (s.core t).runtime = false)
    (hexl : (s.core t).exl = false) : Traps (.waittask t rd ra) s t 2 :=
  .of_exc (exec_waittask s t rd ra) hrun rfl (fun _ => hslot) hexl (if_pos (by rw [hmode]; rfl)) (s.fetched_core t) nofun nofun

/-! ### The end of a wait (08 R232, R233) -/

/-- The tile after a wait has ended: rd and DSP_WSTAT written, the core on after the WAITTASK. -/
def Tile.afterWait (w : Wait) (value : Word) (why : Nat) (x : Tile) : Tile := { x with
  core := { (x.core.writeG w.rd value) with wait := none, pc := x.core.pc + 4 },
  dsp := { x.dsp with wstat := BitVec.ofNat 32 why }, bind := { x.bind with idleSince := none } }

theorem State.endWait_of_some {w : Wait} (hwait : (s.core t).wait = some w) (value : Word) (why : Nat) :
    s.endWait t value why = s.updTile t (Tile.afterWait w value why) := by
  rw [State.endWait, hwait]
  rfl

theorem exec_waittaskTimeout {w : Wait} (hwait : (s.core t).wait = some w) (htimeout : w.timeout ≠ 0) :
    exec (.waittaskTimeout t) s = .next (s.updTile t (Tile.afterWait w 0 3)) := by
  have hexec : exec (.waittaskTimeout t) s = execWaittaskTimeout t s := rfl
  rw [hexec, execWaittaskTimeout, hwait]
  dsimp only
  rw [if_neg htimeout, State.endWait_of_some hwait]

/-! ### Assignment (08 R232) -/

theorem State.startRun_names (s : State) (f d : Nat) (k : Task) : ((s.startRun f d k).f, (s.startRun f d k).desc) = (f, d) := by
  unfold State.startRun
  extract_lets
  split
  · rfl
  · rfl
  · rfl
  split_ifs
  · rfl
  · rfl
  · split <;> rfl
  · rfl

/-- The tile that has been given a task whose first operator is op: no row selected, the estimator loaded for another operator. -/
def Tile.running (run : TaskRun) (op : Nat × Nat × Nat) (x : Tile) : Tile := { x with
  task := some run, lastOp := some op,
  stroke := { x.stroke with sel := [], est := if x.lastOp = some op then x.stroke.est else BitVec.ofNat 8 (field x.stroke.spec 12 8) } }

/-- The state once the head d of the ready list of priority p has left it to run. -/
def State.dispatched (s : State) (f p d : Nat) (rest : List Nat) : State :=
  (s.updDisp f (fun dd => { (dd.passOver p) with onchip := dd.onchip.set p rest })).setAt f d .running

/-- The dispatcher hands the head of the chosen list to the waiting core of a tile that can take it. -/
theorem State.assign_of_ready {f d p : Nat} {w : Wait} {rest : List Nat} {k : Task} (hbound : (s.tile t).bound = some f)
    (hwait : (s.core t).wait = some w) (hnext : (s.tile t).bind.next = none) (htask : (s.tile t).task = none) (hon : s.tileOn t = true)
    (hfenced : t ∉ s.rel.fenced) (hprio : (s.disp f).nextPrio = some p) (hhead : (s.disp f).onchip.getD p [] = d :: rest)
    (hk : s.taskOf f d = some k) (honce : k.once = false) :
    s.assign t = ((s.dispatched f p d rest).updTile t (Tile.afterWait w (BitVec.ofNat 64 ((s.disp f).descAddr d)) 1)).updTile t
      (Tile.running { s.startRun f d k with drive := s.driveRows f k, block := s.scratchBlock f k.image } (f, k.image, k.opFirst)) := by
  have hwait' : (s.tile t).core.wait = some w := hwait
  have hfenced' : s.rel.fenced.contains t = false := by simpa using hfenced
  have hend : (s.dispatched f p d rest).endWait t (BitVec.ofNat 64 ((s.disp f).descAddr d)) 1 = _ :=
    State.endWait_of_some (s := s.dispatched f p d rest) hwait _ 1
  rw [← hend]
  simp only [State.assign, hbound, hwait', hnext, htask, hon, hprio, hhead, hk, honce, hfenced', Option.isSome_none, Bool.not_true,
    Bool.or_self, Bool.false_and, Bool.false_eq_true, if_false]
  rfl

/-- A task that runs. -/
def Task.started (k : Task) : Task := { k with at_ := .running }

theorem State.taskOf_dispatched {f p d : Nat} {rest : List Nat} {k : Task} (hk : s.taskOf f d = some k) :
    (s.dispatched f p d rest).taskOf f d = some k.started := by
  have htasks : (s.dispatched f p d rest).taskOf f d =
      Tab.find? ((s.disp f).tasks.map (fun q => if q.1 = d then (q.1, q.2.started) else q)) d := by
    rw [State.dispatched, State.setAt, State.taskOf, ← State.disp, State.disp_updDisp, State.disp_updDisp]
    rfl
  rw [htasks, Tab.find?_mapKey _ d d Task.started, if_pos rfl]
  exact congrArg (Option.map Task.started) hk

theorem State.onchip_dispatched (s : State) (f p d : Nat) (rest : List Nat) :
    ((s.dispatched f p d rest).disp f).onchip.getD p [] = rest := by
  rw [State.dispatched, State.setAt, State.disp_updDisp, State.disp_updDisp]
  exact Tab.getD_set_self _ p rest []

/-- What the end of a wait writes into the tile's core. -/
theorem Tile.afterWait_core (w : Wait) (value : Word) (why : Nat) (x : Tile) : (x.afterWait w value why).core.wait = none ∧
    (x.afterWait w value why).core.pc = x.core.pc + 4 ∧ (w.rd ≠ 0 → (x.afterWait w value why).core.readG w.rd = value) :=
  ⟨rfl, rfl, fun hrd => (x.core.readG_writeG w.rd w.rd value).trans (if_pos ⟨rfl, hrd⟩)⟩

/-- Settles O34: WAITTASK blocks or traps by its mode, and each end of the wait writes the tile as stated. -/
theorem waitingCores : Obligations.WaitingCores := by
  intro s t rd ra
  refine ⟨fun hrun hslot hmode => ?waits, fun hrun hslot hmode hexl => .of_waittask hrun hslot hmode hexl,
    fun f w d rest k p hbound hwait hnext htask hon hfenced hprio hhead hk honce => ?assigned, fun w hwait htimeout => ?timeout⟩
  case waits =>
    have hpc := congrArg Core.pc (s.fetched_core t t)
    have hregs (r : Reg) := congrArg (fun c => c.readG r) (s.fetched_core t t)
    refine ⟨_, exec_waittask_of_runtime hrun hslot hmode, ?_⟩
    rw [State.core_updTile, State.tile_updTile]
    exact ⟨rfl, hpc, hregs, rfl,
      (s.fetch_only t).onlyTile.trans (State.onlyTile_updTile _ t rfl)⟩
  case assigned =>
    have hexec : exec (.taskAssign t) s = .next (s.assign t) := rfl
    rw [State.assign_of_ready hbound hwait hnext htask hon hfenced hprio hhead hk honce, State.updTile_updTile] at hexec
    obtain ⟨hfree, hpc, hrd⟩ := (s.tile t).afterWait_core w (BitVec.ofNat 64 ((s.disp f).descAddr d)) 1
    refine ⟨_, hexec, ?_⟩
    rw [State.tile_updTile, State.core_updTile]
    exact ⟨congrArg some (s.startRun_names f d k), hfree, hpc, hrd, rfl, rfl, s.onchip_dispatched f p d rest,
      congrArg (Option.map _) (State.taskOf_dispatched hk)⟩
  case timeout =>
    obtain ⟨hfree, hpc, hrd⟩ := (s.tile t).afterWait_core w 0 3
    refine ⟨_, exec_waittaskTimeout hwait htimeout, ?_⟩
    rw [State.tile_updTile, State.core_updTile]
    exact ⟨hfree, hpc, hrd, rfl, s.onlyTile_updTile t rfl⟩

end Sys2Proof.Machine
end

section
/-! PROOFS. Obligations O17, O18 and O21 (loads and stores): the access that hits L1D, and the checks that trap. -/

namespace Sys2Proof.Machine

/-! ### Scalar accesses that hit (06 R169; 09 R249; 10 R279) -/

/-- Sign extension of the low w bits of a number. -/
theorem ofInt_sintOf (w v : Nat) : BitVec.ofInt 64 (sintOf w v) = (BitVec.ofNat w v).signExtend 64 := by
  rw [BitVec.signExtend]
  congr 1
  cases w with
  | zero => simp [sintOf, BitVec.toInt_zero_length]
  | succ w =>
    rw [sintOf, BitVec.toInt_eq_toNat_cond, BitVec.toNat_ofNat]
    have hhalf : v % 2 ^ (w + 1) < 2 ^ (w + 1 - 1) ↔ 2 * (v % 2 ^ (w + 1)) < 2 ^ (w + 1) := by
      rw [Nat.add_sub_cancel, Nat.pow_succ]
      omega
    simp only [Nat.succ_ne_zero, if_false, hhalf]

/-- A load but an unsigned one of 8 bytes meets its encoding's field rule (06 R169). -/
theorem ld_wellFormed {size : BitVec 2} {uns : Bool} (h : ¬(uns = true ∧ size = 3)) : (!(uns && size == 3)) = true := by
  cases uns with
  | false => rfl
  | true => simpa using h

section Hit

variable {s : State} {t : Nat} {l : DLine}

/-- A load that executes on a line that L1D holds writes rd and ends. -/
theorem State.load_of_dLine (hrun : Runs s t) (hsound : s.soundL1 t) {size : BitVec 2} {uns : Bool} (hform : ¬(uns = true ∧ size = 3))
    (rd : Reg) {ra : Reg} {off : BitVec 12} :
    let a := (s.core t).ea ra off
    (s.core t).dataExc a (sizeOf size) (sizeOf size) .load = none → space a ≤ 1 → (s.tile t).l1.dLine (lineOf a.toNat) = some l →
    s.load t size uns rd ra off = (((s.fetched t).accessEnd t).updCore t (fun c =>
      c.writeG rd (extendTo (sizeOf size) (lineGet l.data (a.toNat % 64) (sizeOf size)) uns))).updCore t
        (fun c => c.countInstr.advance) := by
  intro a hexc hspace hl
  have hf := s.fetch_only t
  refine State.runInstr_done hrun (ld_wellFormed hform) Bool.noConfusion ?_
  simp only [a] at hexc hspace hl
  have hwin : ¬space ((s.core t).ea ra off) = 0xFF := by omega
  have hblot : ¬space ((s.core t).ea ra off) = 0xFE := by omega
  simp only [hexc, if_neg hwin, if_neg hblot]
  exact State.onLine_of_dLine (hf.sound hsound) ((hf.dLine _).trans hl) (fun h => absurd rfl h) _ _ _

/-- The tile after a store of n bytes of a value at an address: the line dirty with them, the core on. -/
def Tile.storeDone (x : Tile) (a v : Word) (n : Nat) : Tile :=
  { x with
    l1 := { x.l1.updLine (lineOf a.toNat) (DLine.stored (placeAt v (a.toNat % 64)) (byteMask (a.toNat % 64) n)) with given := [] }
    core := x.core.countInstr.advance }

/-- A store that executes on a line held in E or D is one update of its tile. -/
theorem State.store_of_dLine (hrun : Runs s t) (hsound : s.soundL1 t) {size : BitVec 2} {rd ra : Reg} {off : BitVec 12} :
    let a := (s.core t).ea ra off
    (s.core t).dataExc a (sizeOf size) (sizeOf size) .store = none → space a ≤ 1 → (s.tile t).l1.dLine (lineOf a.toNat) = some l →
    (l.st = .e ∨ l.st = .d) →
    s.store t size rd ra off = (s.fetched t).updTile t (fun x => x.storeDone a ((s.core t).readG rd) (sizeOf size)) := by
  intro a hexc hspace hl hst
  have hf := s.fetch_only t
  have hl' : ((s.fetched t).tile t).l1.dLine (lineOf a.toNat) = some l := (hf.dLine _).trans hl
  have hwin : ¬space a = 0xFF := by omega
  have hblot : ¬space a = 0xFE := by omega
  rw [State.store, State.runInstr_runs hrun true false false _ rfl nofun]
  simp only [show (s.core t).ea ra off = a from rfl, hexc, if_neg hwin, if_neg hblot,
    State.onLine_of_dLine (hf.sound hsound) hl' (fun _ => hst), State.storeLine_of_dLine hl' hst, finishInstr, State.accessEnd,
    State.updL1, State.updCore, State.updTile_updTile]
  rfl

end Hit

theorem exec_ld (s : State) (t : Nat) (size : BitVec 2) (uns : Bool) (rd ra : Reg) (off : BitVec 12) :
    exec (.ld t size uns rd ra off) s = .next (s.load t size uns rd ra off) := rfl

theorem exec_st (s : State) (t : Nat) (size : BitVec 2) (rd ra : Reg) (off : BitVec 12) :
    exec (.st t size rd ra off) s = .next (s.store t size rd ra off) := rfl

@[simp] theorem State.core_accessEnd (s : State) (t k : Nat) : (s.accessEnd t).core k = s.core k := by
  by_cases hk : t = k
  · subst hk
    exact s.core_updL1 t _
  · exact congrArg Tile.core (s.tile_updTile_ne _ hk)

/-- Settles O17: the load is a change of its core alone, once its access has ended. -/
theorem loadHitsL1D : Obligations.LoadHitsL1D := by
  intro s t size uns rd ra off hrun hsound hform a n hexc hspace l hl v
  have hload := State.load_of_dLine hrun hsound hform rd hexc hspace hl
  refine ⟨_, (exec_ld s t size uns rd ra off).trans (congrArg _ hload), ?_, ?_⟩
  · rw [State.core_updCore, State.core_updCore, State.core_accessEnd, State.fetched_core, extendTo, ofInt_sintOf]
    rfl
  · exact (((s.fetch_only t).onlyTile.trans (State.onlyTile_updTile _ t rfl)).trans (State.onlyTile_updCore _ t _)).trans
      (State.onlyTile_updCore _ t _)

/-- Settles O18: the store is an update of its tile, whose L1D then holds the stored line. -/
theorem storeHitsL1D : Obligations.StoreHitsL1D := by
  intro s t size rd ra off hrun hsound a n hexc hspace l hl hst
  have hf := s.fetch_only t
  have hstore := State.store_of_dLine hrun hsound (rd := rd) hexc hspace hl hst
  have hlines (k : Nat) : (((s.fetched t).updTile t (fun x => x.storeDone a ((s.core t).readG rd) n)).tile t).l1.dLine k =
      if k = lineOf a.toNat then some (l.stored (placeAt ((s.core t).readG rd) (a.toNat % 64)) (byteMask (a.toNat % 64) n))
      else (s.tile t).l1.dLine k := by
    rw [State.tile_updTile, ← hf.dLine k]
    exact L1.dLine_updLine_stored ((hf.dLine _).trans hl) _ _ k
  refine ⟨_, (exec_st s t size rd ra off).trans (congrArg _ hstore), ?_, ?_, fun k hk => ?_, fun k hk => ?_, ?_⟩
  · rw [State.core_updTile, ← hf.core t]
    rfl
  · exact (hlines _).trans (if_pos rfl)
  · exact (hlines k).trans (if_neg hk)
  · rw [State.tile_updTile_ne _ _ hk.symm, hf.other k hk.symm]
  · rw [State.updTile, hf.rest]

/-! ### The checks of an access (06 R155, R158 to R160, R182) -/

section Checks

variable {c : Core} {a : Word} {n align : Nat} {acc : Access}

theorem Core.dataExc_priv (hmode : c.runtime = false) (hheld : c.held = false) (hspace : space a = 0xFF) :
    c.dataExc a n align acc = some .priv := by
  simp [Core.dataExc, hmode, hheld, hspace]

theorem Core.dataExc_misalign (hheld : c.held = false) (hspace : space a ≠ 0xFF) (halign : a.toNat % align ≠ 0) :
    c.dataExc a n align acc = some .misalign := by
  simp [Core.dataExc, hheld, hspace, halign]

theorem Core.dataExc_region (hheld : c.held = false) (hspace : space a ≤ 1) (halign : a.toNat % align = 0)
    (hregion : c.regionOk a n (needOf acc) = false) : c.dataExc a n align acc = some .region := by
  have hwin : ¬space a = 0xFF := by omega
  have hblot : ¬space a = 0xFE := by omega
  simp [Core.dataExc, hheld, halign, hwin, hblot, hregion]

/-- In task mode an access that no entry of the tenant's table grants is refused. -/
theorem Core.regionOk_of_none {need : Nat} (hmode : c.runtime = false)
    (hnone : ∀ p ∈ c.rgnLo, regionHit p.2 (c.rgnHi.getD p.1 0) a.toNat n need = false) : c.regionOk a n need = false := by
  rw [Core.regionOk, hmode, Bool.false_and, Bool.or_false, List.any_eq_false]
  exact fun p hp => by rw [hnone p hp]; exact Bool.false_ne_true

end Checks

/-- The three ways in which a checked access of task mode traps. -/
theorem Traps.of_access {s : State} {t : Nat} {i : Instr} {wf : Bool} {body : Core → State → Eff} {a : Word} {n : Nat} {acc : Access}
    (hrun : Runs s t) (hexl : (s.core t).exl = false) (hmode : (s.core t).runtime = false) (hheld : (s.core t).held = false)
    (hexec : exec i s = .next (s.runInstr t wf false false body)) (hwf : wf = true)
    (hbody : ∀ e, (s.core t).dataExc a n n acc = some e → body (s.core t) (s.fetched t) = .exc ((s.fetched t).accessEnd t) e a acc none) :
    (space a = 0xFF → Traps i s t 2) ∧ (space a ≠ 0xFF → a.toNat % n ≠ 0 → Traps i s t 3) ∧
      (space a ≤ 1 → a.toNat % n = 0 →
        (∀ p ∈ (s.core t).rgnLo, regionHit p.2 ((s.core t).rgnHi.getD p.1 0) a.toNat n (needOf acc) = false) → Traps i s t 4) := by
  have trap {e : Exc} (he : (s.core t).dataExc a n n acc = some e) (hspec : e ≠ .specStore) (hsys : e ≠ .syscall) :
      Traps i s t (excCode e) :=
    .of_exc hexec hrun hwf Bool.noConfusion hexl (hbody e he)
      (fun k => by rw [State.core_accessEnd, State.fetched_core]) hspec hsys
  exact ⟨fun hspace => trap (Core.dataExc_priv hmode hheld hspace) nofun nofun,
    fun hspace halign => trap (Core.dataExc_misalign hheld hspace halign) nofun nofun,
    fun hspace halign hnone => trap (Core.dataExc_region hheld hspace halign (Core.regionOk_of_none hmode hnone)) nofun nofun⟩

/-- Settles O21: loads, stores and atomics are checked accesses that raise what the check answers. -/
theorem accessChecksTrap : Obligations.AccessChecksTrap := by
  intro s t size uns rd ra rb off hrun hexl hmode hheld hform ea a check
  refine ⟨Traps.of_access hrun hexl hmode hheld (acc := .load) (exec_ld s t size uns rd ra off) (ld_wellFormed hform) (fun e he => ?ld),
    Traps.of_access hrun hexl hmode hheld (acc := .store) (exec_st s t size rd ra off) rfl (fun e he => ?st), ?atomics⟩
  case ld =>
    simp only [show (s.core t).dataExc ((s.core t).ea ra off) (sizeOf size) (sizeOf size) .load = some e from he]
    rfl
  case st =>
    simp only [show (s.core t).dataExc ((s.core t).ea ra off) (sizeOf size) (sizeOf size) .store = some e from he]
    rfl
  case atomics =>
    have atomic {i j : Instr} {f : Word → Word → Word → Word} (hexec : exec i s = .next (s.atomic t rd ra rb j f)) : check i a 8 3 := by
      refine Traps.of_access hrun hexl hmode hheld (acc := .atomic) hexec rfl (fun e he => ?_)
      simp only [show (s.core t).dataExc ((s.core t).readG ra) 8 8 .atomic = some e from he]
      rfl
    simp only [List.forall_mem_cons, List.not_mem_nil, false_implies, implies_true, and_true]
    exact ⟨atomic (exec_fadd s t rd ra rb), atomic (exec_umin s t rd ra rb), atomic (exec_umax s t rd ra rb),
      atomic (exec_nadd s t rd ra rb), atomic (exec_cas s t rd ra rb)⟩

end Sys2Proof.Machine
end

section
/-! PROOFS. Obligations O23 (cache operations and prefetch) and O2 (what reset leaves). -/

namespace Sys2Proof.Machine

variable {s : State} {t : Nat} {ra : Reg} {off : BitVec 12}

/-! ### Operations on one line (06 R171; 09 R261) -/

theorem memSpace_of_le {a : Word} (h : space a ≤ 1) : memSpace a = true := by
  rw [memSpace, decide_eq_true_eq]
  omega

/-- An operation that the mode permits, on a line of a memory space and a sound L1D, is the operation on that line. -/
theorem State.cacheOp_runs {op : Nat} (hrun : Runs s t) (hsound : s.soundL1 t) (hspace : space ((s.core t).ea ra off) ≤ 1)
    (hmode : op = 2 → (s.core t).runtime = true) :
    s.cacheOp t ra off op = ((s.fetched t).lineOp t op ((s.tile t).l1.ctl.getLsbD 10) (lineOf ((s.core t).ea ra off).toNat)).updCore t
      (fun c => c.countInstr.advance) := by
  have hf := s.fetch_only t
  have hpriv : (decide (op = 2) && !(s.core t).runtime) = false := by
    simpa using hmode
  have hwin : ¬space ((s.core t).ea ra off) = 0xFF := by omega
  refine State.runInstr_done hrun rfl Bool.noConfusion ?_
  simp only [hpriv, hwin, memSpace_of_le hspace, State.parityScan_sound _ (hf.sound hsound), hf.data.ctl, decide_false, Bool.false_and,
    Bool.not_true, Bool.false_eq_true, if_false]

theorem exec_cacheClean (s : State) (t : Nat) (ra : Reg) (off : BitVec 12) :
    exec (.cacheClean t ra off) s = .next (s.cacheOp t ra off 0) := rfl

theorem exec_cacheCleaninv (s : State) (t : Nat) (ra : Reg) (off : BitVec 12) :
    exec (.cacheCleaninv t ra off) s = .next (s.cacheOp t ra off 1) := rfl

theorem exec_cacheInv (s : State) (t : Nat) (ra : Reg) (off : BitVec 12) : exec (.cacheInv t ra off) s = .next (s.cacheOp t ra off 2) := rfl

/-- An operation on a line that L1D does not hold does nothing. -/
theorem State.lineOp_of_none {line : Nat} (h : (s.tile t).l1.dLine line = none) (op : Nat) (incl : Bool) : s.lineOp t op incl line = s := by
  rw [State.lineOp, h]

/-! ### Prefetch (06 R171; 09 R250) -/

theorem exec_cachePf (s : State) (t : Nat) (ra : Reg) (off : BitVec 12) : exec (.cachePf t ra off) s = .next (s.prefetch t ra off) := rfl

/-- A prefetch that no region grants does nothing. -/
theorem State.prefetch_of_refused (hrun : Runs s t) (hregion : (s.core t).regionOk ((s.core t).ea ra off) 1 1 = false) :
    s.prefetch t ra off = s.ran t (fun c => c) := by
  refine State.runInstr_ran hrun rfl Bool.noConfusion ?_ (State.changesCore_refl _ t)
  simp only [hregion, Bool.not_false, Bool.or_true, if_true]

/-- A prefetch that is granted, of a line not on hand nor requested, with room among the four, posts its request. -/
theorem State.prefetch_of_granted (hrun : Runs s t) (hspace : space ((s.core t).ea ra off) ≤ 1)
    (hregion : (s.core t).regionOk ((s.core t).ea ra off) 1 1 = true) :
    let line := lineOf ((s.core t).ea ra off).toNat
    (s.tile t).l1.dLine line = none → (∀ q ∈ (s.tile t).l1.reqs, q.line ≠ line) → (∀ v ∈ (s.tile t).l1.vbuf, v.line ≠ line) →
    (s.tile t).l1.pfCount < 4 → s.prefetch t ra off =
      ((s.fetched t).postReq t line ((s.fetched t).missKind t line false) true).updCore t (fun c => c.countInstr.advance) := by
  intro line hnone hreqs hvbuf hroom
  have hf := s.fetch_only t
  have hnone' : ((s.fetched t).tile t).l1.dLine line = none := (hf.dLine _).trans hnone
  have hreqs' : ((s.fetched t).tile t).l1.reqs.any (fun q => q.line == line) = false := by
    rw [hf.data.reqs]
    simpa using hreqs
  have hvbuf' : ((s.fetched t).tile t).l1.vbuf.any (fun v => v.line == line) = false := by
    rw [hf.data.vbuf]
    simpa using hvbuf
  have hroom' : ¬4 ≤ ((s.fetched t).tile t).l1.pfCount := by
    rw [L1.pfCount, hf.data.reqs, not_le]
    exact hroom
  refine State.runInstr_done hrun rfl Bool.noConfusion ?_
  simp only [line] at hnone' hreqs' hvbuf'
  simp only [memSpace_of_le hspace, hregion, hnone', hreqs', hvbuf', hroom', Bool.not_true, Bool.or_false, Option.isSome_none,
    Bool.false_eq_true, if_false]
  rfl

/-- A message that is sent changes no tile. -/
theorem State.tile_send (s : State) (m : Msg) (t : Nat) : (s.send m).tile t = s.tile t := by
  unfold State.send
  split_ifs <;> rfl

/-- A request posted to a line's home joins the tile's requests and leaves its core. -/
theorem State.tile_postReq (s : State) (t line : Nat) (kind : MKind) (prefetch : Bool) : (s.postReq t line kind prefetch).tile t =
    { s.tile t with l1 := { (s.tile t).l1 with
      reqs := (s.tile t).l1.reqs ++ [{ line := line, kind := kind, prefetch := prefetch }] } } := by
  rw [State.postReq, State.tile_send, State.tile_updL1]

/-- Settles O23, operation by operation, with the rules above. -/
theorem cacheOperations : Obligations.CacheOperations := by
  intro s t ra off hrun hsound c a line after hspace
  have hf := s.fetch_only t
  have op {i : Instr} {k : Nat} (hexec : exec i s = .next (s.cacheOp t ra off k)) (hmode : k = 2 → c.runtime = true) :
      exec i s = after k := by
    rw [hexec, State.cacheOp_runs hrun hsound hspace hmode]
    rfl
  refine ⟨op (exec_cacheClean s t ra off) nofun, op (exec_cacheCleaninv s t ra off) nofun,
    fun hmode => op (exec_cacheInv s t ra off) (fun _ => hmode), fun hmode hexl => ?inv, fun hnone k => ?absent, fun hregion => ?refused,
    fun hregion hnone hreqs hvbuf hroom => ?granted⟩
  case inv =>
    have hpriv : (decide (2 = 2) && !(s.core t).runtime) = true := by
      rw [show (s.core t).runtime = false from hmode]
      rfl
    exact Traps.of_exc (exec_cacheInv s t ra off) hrun rfl Bool.noConfusion hexl (if_pos hpriv) (s.fetched_core t) nofun nofun
  case absent =>
    have hnone' : ((s.fetched t).tile t).l1.dLine line = none := (hf.dLine line).trans hnone
    simp only [after, State.lineOp_of_none hnone', State.ran]
  case refused => exact (exec_cachePf s t ra off).trans (congrArg _ (State.prefetch_of_refused hrun hregion))
  case granted =>
    refine ⟨_, { line := line, kind := (s.fetched t).missKind t line false, prefetch := true }, (exec_cachePf s t ra off).trans
      (congrArg _ (State.prefetch_of_granted hrun hspace hregion hnone hreqs hvbuf hroom)), ?_, rfl, rfl, ?_⟩
    · rw [State.core_updCore, State.core, State.tile_postReq]
      exact congrArg (fun c => c.countInstr.advance) (s.fetched_core t t)
    · rw [State.tile_updCore, State.tile_postReq]
      exact congrArg (· ++ _) hf.data.reqs

/-! ### Reset (06 R154, R186, R187; 09 R266; 22 R526) -/

/-- Right after reset no tile is listed, so each is the default one. -/
theorem State.tile_reset (t : Nat) : State.reset.tile t = {} := rfl

theorem State.core_reset (t : Nat) : State.reset.core t = {} := rfl

theorem Core.readG_default (r : Reg) : ({} : Core).readG r = 0 := by
  rw [Core.readG, Tab.getD_nil, ite_self]

/-- Settles O2: every table of the reset state is empty, so each tile, core and tenant is the default one. -/
theorem resetLeaves : Obligations.ResetLeaves := by
  refine ⟨rfl, rfl, rfl, rfl, rfl, rfl, rfl, fun t => ?_, fun f => rfl⟩
  rw [State.core_reset, State.tile_reset]
  exact ⟨rfl, rfl, rfl, rfl, rfl, Core.readG_default, fun r => rfl, rfl, rfl, rfl⟩

end Sys2Proof.Machine
end

section
/-! PROOFS. Obligations O24 and O25 (element-wise vector arithmetic and compares): an element of the result, a bit of the mask. -/

namespace Sys2Proof.Machine

/-! ### Elements and operands (07 R194, R197, R200) -/

theorem elem_lt (w : Nat) (v : BitVec 128) (i : Nat) : elem w v i < 2 ^ w := Nat.mod_lt _ (Nat.two_pow_pos w)

theorem Core.operandB_lt (c : Core) (w : Nat) (x : Bool) (vb : Reg) (i : Nat) : c.operandB w x vb i < 2 ^ w := by
  cases x with
  | false => exact elem_lt w _ i
  | true => exact Nat.mod_lt _ (Nat.two_pow_pos w)

theorem wrapInt_lt (w : Nat) (v : Int) : wrapInt w v < 2 ^ w := by
  have hpos : (0 : Int) < (2 ^ w : Nat) := Int.natCast_pos.mpr (Nat.two_pow_pos w)
  exact (Int.toNat_lt (Int.emod_nonneg v hpos.ne')).mpr (Int.emod_lt_of_pos v hpos)

theorem Core.vlen_lt (c : Core) : c.vlen < 64 := Nat.mod_lt _ (by decide)

/-- Active elements lie below VL (07 R197). -/
theorem Core.lt_vlen_and_active_iff (c : Core) (m : Bool) (i : Nat) : (i < c.vlen ∧ c.active m i = true) ↔ c.active m i = true :=
  and_iff_right_of_imp (fun h => of_decide_eq_true (Bool.and_eq_true_iff.mp h).1)

/-- A destination that is not V0 under a mask meets the field rule (07 R197). -/
theorem maskOk_of {m : Bool} {vd : Reg} (h : m = false ∨ vd ≠ 0) : maskOk m vd = true := by
  simpa [maskOk] using h

section Run

variable {s : State} {t : Nat} {i : Instr} {m x : Bool} {vd va vb : Reg}

/-- A command whose effect is a change of its core alone. -/
theorem exec_of_done {wf vec : Bool} {body : Core → State → Eff} {f : Core → Core} (hrun : Runs s t)
    (hexec : exec i s = .next (s.runInstr t wf false vec body)) (hwf : wf = true)
    (hbody : body (s.core t) (s.fetched t) = .done ((s.fetched t).updCore t f)) : exec i s = .next (s.ran t f) :=
  hexec.trans (congrArg _ (State.runInstr_ran hrun hwf nofun hbody (State.changesCore_updCore _ t f)))

/-! ### Element-wise arithmetic (07 R202) -/

/-- A command that is an element-wise instruction writes its function's value, cut to the width, in each active element. -/
theorem exec_of_vecMap {f : Nat → Nat → Nat → Nat} {g : Nat → Nat} (hrun : Runs s t) (hdst : m = false ∨ vd ≠ 0)
    (hexec : exec i s = .next (s.vecMap t m x vd va vb f)) :
    let c := s.core t
    let w := ewBits c.ew
    (∀ k, f w (elem w (c.readV va) k) (c.operandB w x vb k) % 2 ^ w = g k) →
      ∃ r, exec i s = .next (s.ran t (fun y => y.writeV vd r)) ∧
        ∀ k, w * (k + 1) ≤ 128 → elem w r k = if c.active m k then g k else elem w (c.readV vd) k := by
  intro c w hval
  refine ⟨mapActive w (c.active m) (fun k => f w (elem w (c.readV va) k) (c.operandB w x vb k)) c.vlen (c.readV vd), ?_, fun k hk => ?_⟩
  · exact exec_of_done hrun hexec (maskOk_of hdst) rfl
  · simp only [elem_mapActive _ _ _ _ _ _ hk, Core.lt_vlen_and_active_iff, hval]

/-! ### Compares (07 R203) -/

theorem getLsbD_maskOf (act p : Nat → Bool) {n : Nat} (hn : n ≤ 128) (k : Nat) :
    (maskOf act p n).getLsbD k = (decide (k < n) && act k && p k) := by
  induction n with
  | zero => simp [maskOf]
  | succ n ih =>
    have hbit (b : Bool) : (if b then (1 : BitVec 128) <<< n else 0).getLsbD k = (b && decide (k = n)) := by
      cases b with
      | false => simp
      | true =>
        rw [if_pos rfl, show (1 : BitVec 128) <<< n = BitVec.twoPow 128 n from rfl, BitVec.getLsbD_twoPow]
        simp [show n < 128 by omega, eq_comm]
    rw [maskOf, BitVec.getLsbD_or, ih (by omega), hbit]
    by_cases hk : k = n
    · subst hk
      simp
    · have hlt : k < n + 1 ↔ k < n := by omega
      simp [hk, hlt]

/-- A command that is a compare writes a one where the element is active and the comparison holds, and zeros elsewhere. -/
theorem exec_of_vecCmp {f : Nat → Nat → Nat → Bool} {p : Nat → Prop} (hrun : Runs s t)
    (hexec : exec i s = .next (s.vecCmp t m x vd va vb f)) :
    let c := s.core t
    let w := ewBits c.ew
    (∀ k, f w (elem w (c.readV va) k) (c.operandB w x vb k) = true ↔ p k) →
      ∃ r, exec i s = .next (s.ran t (fun y => y.writeV vd r)) ∧ ∀ k < 128, r.getLsbD k = true ↔ c.active m k = true ∧ p k := by
  intro c w hp
  refine ⟨maskOf (c.active m) (fun k => f w (elem w (c.readV va) k) (c.operandB w x vb k)) c.vlen, ?_, fun k _ => ?_⟩
  · exact exec_of_done hrun hexec rfl rfl
  · have hvlen := c.vlen_lt
    rw [getLsbD_maskOf _ _ (by omega), Bool.and_eq_true_iff, Bool.and_eq_true_iff, decide_eq_true_eq, hp, Core.lt_vlen_and_active_iff]

end Run

/-- Settles O24: each instruction is an element-wise one, and its function's value, cut to the width, is the one stated. -/
theorem vectorElementwise : Obligations.VectorElementwise := by
  intro s t m x vd va vb hrun hdst c w a b does
  have ha (k : Nat) : a k < 2 ^ w := elem_lt w _ k
  have hb (k : Nat) : b k < 2 ^ w := c.operandB_lt w x vb k
  have map {i : Instr} {v : Reg} {f : Nat → Nat → Nat → Nat} {g : Nat → Nat} (hexec : exec i s = .next (s.vecMap t m x vd v vb f))
      (hval : ∀ k, f w (elem w (c.readV v) k) (b k) % 2 ^ w = g k) : does i g := exec_of_vecMap hrun hdst hexec hval
  have fits {n : Nat} (h : n < 2 ^ w) : n % 2 ^ w = n := Nat.mod_eq_of_lt h
  have either (p : Prop) [Decidable p] (k : Nat) : (if p then b k else a k) < 2 ^ w := by
    split_ifs
    exacts [hb k, ha k]
  exact ⟨map rfl (fun k => Nat.mod_mod _ _), map rfl (fun k => Nat.mod_mod _ _), map rfl (fun k => rfl), map rfl (fun k => rfl),
    map rfl (fun k => rfl), map rfl (fun k => Nat.mod_mod _ _), map rfl (fun k => rfl), map rfl (fun k => fits (wrapInt_lt w _)),
    map rfl (fun k => fits (either _ k)), map rfl (fun k => fits (either _ k)), map rfl (fun k => fits (min_lt_of_left_lt (ha k))),
    map rfl (fun k => fits (max_lt (ha k) (hb k))), map rfl (fun k => Nat.mod_mod _ _), map rfl (fun k => fits (wrapInt_lt w _)),
    map rfl (fun k => fits (Nat.div_lt_of_lt_mul (Nat.mul_lt_mul'' (ha k) (hb k)))), map rfl (fun k => fits (hb k))⟩

/-- Settles O25: each instruction is a compare with the test stated. -/
theorem vectorCompares : Obligations.VectorCompares := by
  intro s t m x vd va vb hrun c w a b does
  have cmp {i : Instr} {f : Nat → Nat → Nat → Bool} {p : Nat → Prop} (hexec : exec i s = .next (s.vecCmp t m x vd va vb f))
      (hp : ∀ k, f w (a k) (b k) = true ↔ p k) : does i p := exec_of_vecCmp hrun hexec hp
  exact ⟨cmp rfl (fun _ => beq_iff_eq), cmp rfl (fun _ => bne_iff_ne), cmp rfl (fun _ => decide_eq_true_iff),
    cmp rfl (fun _ => decide_eq_true_iff), cmp rfl (fun _ => decide_eq_true_iff), cmp rfl (fun _ => decide_eq_true_iff),
    cmp rfl (fun _ => decide_eq_true_iff), cmp rfl (fun _ => decide_eq_true_iff), cmp rfl (fun _ => decide_eq_true_iff),
    cmp rfl (fun _ => decide_eq_true_iff)⟩

end Sys2Proof.Machine
end

section
/-! PROOFS. Obligation O26 (SETVL, widening, dot products, moves and mask scans). -/

namespace Sys2Proof.Machine

/-! ### Integers of elements, sums of digits, the first one of a mask (07 R205, R206) -/

/-- The integer that an element spells, signed or not. -/
theorem dotInt_elem (w : Nat) (v : BitVec 128) (i : Nat) (signed : Bool) :
    dotInt w (elem w v i) signed = if signed then sintOf w (elem w v i) else (elem w v i : Int) := by
  rw [dotInt, Nat.mod_eq_of_lt (elem_lt w v i)]

theorem dotSum_eq_sum (w : Nat) (sa sb : Bool) (a b n : Nat) : dotSum w sa sb a b n =
    ((List.range n).map (fun j => dotInt w (a / 2 ^ (w * j)) sa * dotInt w (b / 2 ^ (w * j)) sb)).sum := by
  induction n with
  | zero => rfl
  | succ n ih => simp [dotSum, ih, List.range_succ]

/-- VWCVT extends with zeros or with the sign (07 R205). -/
theorem vwcvt_wellFormed : ∀ {sg : BitVec 2}, sg.toNat < 2 → (sg == 0 || sg == 1) = true := by decide

/-- The first number below n that satisfies a test, or n. -/
theorem find?_range_spec (p : Nat → Bool) (n : Nat) :
    let k := ((List.range n).find? p).getD n
    k ≤ n ∧ (∀ i < k, p i = false) ∧ (k < n → p k = true) := by
  cases h : (List.range n).find? p with
  | none => exact ⟨le_rfl, fun i hi => by simpa using List.find?_range_eq_none.mp h i hi, fun hlt => absurd hlt (lt_irrefl n)⟩
  | some k =>
    obtain ⟨hk, hmem, hbefore⟩ := List.find?_range_eq_some.mp h
    exact ⟨(List.mem_range.mp hmem).le, fun i hi => by simpa using hbefore i hi, fun _ => hk⟩

section Run

variable {s : State} {t : Nat} {i : Instr} {m ok acc : Bool} {sg : BitVec 2} {vd va vb : Reg}

/-! ### Encodings that break a field rule, and widths (06 R164; 07 R201, R204, R205) -/

/-- An instruction whose encoding breaks a field rule raises ILLEGAL (06 R164). -/
theorem State.runInstr_malformed (hrun : Runs s t) (ctl vec : Bool) (body : Core → State → Eff) :
    s.runInstr t false ctl vec body = (s.fetched t).raise t .illegal 0 .fetch vec none 0 := by
  obtain ⟨hissue, hfetch⟩ := hrun
  unfold State.runInstr State.fetched
  rw [if_pos hissue]
  generalize s.fetch t = p at hfetch
  obtain ⟨e, u⟩ := p
  cases hfetch
  rfl

theorem Traps.of_malformed {wf ctl vec : Bool} {body : Core → State → Eff} (hrun : Runs s t) (hexl : (s.core t).exl = false)
    (hexec : exec i s = .next (s.runInstr t wf ctl vec body)) (hwf : wf = false) : Traps i s t 1 := by
  subst hwf
  exact .of_raise s hexl (s.fetched_core t) .illegal nofun nofun 0 .fetch vec none
    (hexec.trans (congrArg _ (State.runInstr_malformed hrun ctl vec body)))

theorem State.fetched_vlmax (s : State) (t : Nat) (ew : BitVec 3) : (s.fetched t).vlmax ew = s.part.vbits / ewBits ew := by
  rw [State.vlmax, (s.fetch_only t).rest]

/-- A command that is a widening instruction writes the results over its pair of registers (07 R204). -/
theorem exec_of_vecWide {f : Core → Nat → Nat → Nat → Nat} {g : Nat → Nat → Nat} (hrun : Runs s t)
    (hexec : exec i s = .next (s.vecWide t ok m vd f)) (hok : ok = true) :
    let c := s.core t
    let w := ewBits c.ew
    w ≤ 32 → vd.toNat % 2 = 0 → (m = false ∨ vd ≠ 0) → (∀ k old, f c w k old = g k old) →
      exec i s = .next (s.ran t (fun y => putWide y (c.active m) (s.part.vbits / w / 2) (2 * w) vd g c.vlen)) := by
  intro c w hw heven hdst hval
  refine exec_of_done hrun hexec (by simp [hok, maskOk_of hdst, heven]) ?_
  have hfg : f c w = g := funext fun k => funext fun old => hval k old
  simp only [State.fetched_vlmax, hfg.symm]
  exact if_neg hw.not_gt

/-- A command that is a dot product writes the sum of the products of digits, with the old lane if it adds, in each active lane. -/
theorem exec_of_vecDot {n : Nat} (hrun : Runs s t) (hexec : exec i s = .next (s.vecDot t m sg acc vd va vb n)) :
    let c := s.core t
    let w := ewBits c.ew
    w = 32 → sg ≠ 3 → (m = false ∨ vd ≠ 0) →
      ∃ r, exec i s = .next (s.ran t (fun y => y.writeV vd r)) ∧ ∀ k < 4, elem 32 r k =
        if c.active m k then wrapInt 32 (((List.range (32 / n)).map (fun j => dotInt n (elem w (c.readV va) k / 2 ^ (n * j)) (sg != 0) *
          dotInt n (elem w (c.readV vb) k / 2 ^ (n * j)) (sg == 1))).sum + (if acc then (elem 32 (c.readV vd) k : Int) else 0))
        else elem 32 (c.readV vd) k := by
  intro c w hw hsg hdst
  refine ⟨_, exec_of_done hrun hexec (by rw [maskOk_of hdst, bne_iff_ne.mpr hsg]; rfl) (if_neg (not_not_intro hw)), fun k hk => ?_⟩
  rw [hw]
  simp only [elem_mapActive _ _ _ _ _ _ (show 32 * (k + 1) ≤ 128 by omega), c, Core.lt_vlen_and_active_iff,
    Nat.mod_eq_of_lt (wrapInt_lt 32 _), dotSum_eq_sum]

end Run

/-- Settles O26, instruction by instruction. -/
theorem vectorWidthAndMoves : Obligations.VectorWidthAndMoves := by
  intro s t m acc sg ew vd va vb rd ra hrun c w a b int k
  obtain ⟨hfirst, hbelow, hat⟩ := find?_range_spec (fun i => (c.readV va).getLsbD i) c.vlen
  refine ⟨fun hew => ?setvl, fun hew hexl => ?illegal, fun hw heven hdst => ⟨fun hsg => ?vwmul, fun hsg => ?vwcvt⟩,
    fun hw hsg hdst => ?dot, exec_of_done hrun rfl rfl rfl, exec_of_done hrun rfl rfl rfl,
    fun hdst => exec_of_done hrun rfl (maskOk_of hdst) rfl, fun h0 hva => exec_of_done hrun rfl ?vcompress rfl,
    exec_of_done hrun rfl rfl rfl, _, hfirst, exec_of_done hrun rfl rfl rfl, hbelow, hat⟩
  case setvl =>
    refine exec_of_done hrun rfl (decide_eq_true hew) ?_
    simp only [State.fetched_vlmax]
    rfl
  case illegal => exact Traps.of_malformed hrun hexl rfl (decide_eq_false (by omega))
  case vwmul => exact exec_of_vecWide hrun rfl (bne_iff_ne.mpr hsg) hw heven hdst (fun k old => by simp only [dotInt_elem]; rfl)
  case vwcvt => exact exec_of_vecWide hrun rfl (vwcvt_wellFormed hsg) hw heven hdst (fun k old => by simp only [dotInt_elem]; rfl)
  case dot =>
    simp only [List.forall_mem_cons, List.not_mem_nil, false_implies, implies_true, and_true]
    exact ⟨exec_of_vecDot hrun rfl hw hsg hdst, exec_of_vecDot hrun rfl hw hsg hdst⟩
  case vcompress => rw [bne_iff_ne.mpr h0, bne_iff_ne.mpr hva]; rfl

end Sys2Proof.Machine
end

section
/-! PROOFS. Obligation O27 (vector reductions). -/

namespace Sys2Proof.Machine

/-! ### Extrema of lists (07 R206) -/

theorem minInt_eq (e : Int) (l : List Int) : minInt e l = l.min?.getD e := by
  cases l with
  | nil => rfl
  | cons a r =>
    have hmin : (fun x y : Int => if y < x then y else x) = min := funext fun x => funext fun y => by rw [min_def]; split_ifs <;> omega
    rw [minInt, hmin, List.min?_cons', Option.getD_some]

theorem maxInt_eq (e : Int) (l : List Int) : maxInt e l = l.max?.getD e := by
  cases l with
  | nil => rfl
  | cons a r =>
    have hmax : (fun x y : Int => if x < y then y else x) = max := funext fun x => funext fun y => by rw [max_def]; split_ifs <;> omega
    rw [maxInt, hmax, List.max?_cons', Option.getD_some]

theorem minInt_spec (e : Int) (l : List Int) : (l = [] ∧ minInt e l = e) ∨ (minInt e l ∈ l ∧ ∀ y ∈ l, minInt e l ≤ y) := by
  rw [minInt_eq]
  cases h : l.min? with
  | none => exact .inl ⟨List.min?_eq_none_iff.mp h, rfl⟩
  | some v => exact .inr (List.min?_eq_some_iff.mp h)

theorem maxInt_spec (e : Int) (l : List Int) : (l = [] ∧ maxInt e l = e) ∨ (maxInt e l ∈ l ∧ ∀ y ∈ l, y ≤ maxInt e l) := by
  rw [maxInt_eq]
  cases h : l.max? with
  | none => exact .inl ⟨List.max?_eq_none_iff.mp h, rfl⟩
  | some v => exact .inr (List.max?_eq_some_iff.mp h)

theorem ofNat_sum (l : List Nat) : BitVec.ofNat 64 l.sum = BitVec.ofInt 64 (l.map (Nat.cast : Nat → Int)).sum := by
  rw [← BitVec.ofInt_natCast, Nat.cast_list_sum]

/-- A command that is a reduction writes its function of the active elements to rd. -/
theorem exec_of_vecReduce {s : State} {t : Nat} {i : Instr} {m : Bool} {rd va : Reg} {f : Nat → List Nat → Word} {v : Int}
    (hrun : Runs s t) (hexec : exec i s = .next (s.vecReduce t m rd va f)) :
    let c := s.core t
    let w := ewBits c.ew
    f w (((List.range c.vlen).filter (c.active m)).map (fun i => elem w (c.readV va) i)) = BitVec.ofInt 64 v →
      exec i s = .next (s.ran t (fun y => y.writeG rd (BitVec.ofInt 64 v))) := by
  intro c w hval
  refine exec_of_done hrun hexec rfl ?_
  rw [← hval]
  rfl

/-- Settles O27: each instruction is a reduction by a sum or by an extremum. -/
theorem vectorReductions : Obligations.VectorReductions := by
  intro s t m rd va hrun c w u i z gives
  have reduce {x : Instr} {f : Nat → List Nat → Word} {v : Int} {p : Int → Prop} (hexec : exec x s = .next (s.vecReduce t m rd va f))
      (hval : f w u = BitVec.ofInt 64 v) (hp : p v) : gives x p := ⟨v, exec_of_vecReduce hrun hexec hval, hp⟩
  -- the statement's list of integers is the coercion of a list of numbers, element by element
  have hz : z = u.map Nat.cast := (List.map_id' _).trans List.map_eq_flatMap.symm
  rw [hz]
  exact ⟨reduce rfl rfl rfl, reduce rfl (ofNat_sum u) rfl, reduce rfl rfl (minInt_spec _ i), reduce rfl rfl (maxInt_spec _ i),
    reduce rfl rfl (minInt_spec _ _), reduce rfl rfl (maxInt_spec _ _)⟩

end Sys2Proof.Machine
end

section
/-! PROOFS. Obligation O28 (vector loads and stores whose lines L1D holds): the element loops of a load and of a store. -/

namespace Sys2Proof.Machine

variable {s : State} {t n : Nat} {m : Bool} {mode nf : BitVec 2} {vd va vb : Reg} {l : List VAcc}

/-! ### The element loops (07 R209, R210, R212; 09 R249) -/

/-- Elements of memory spaces whose lines a sound L1D holds are read from those lines, and nothing changes. -/
theorem State.vread_of_dLine {get : VAcc → DLine} (hsound : s.soundL1 t) (hspace : ∀ x ∈ l, space x.addr ≤ 1)
    (hlines : ∀ x ∈ l, (s.tile t).l1.dLine (lineOf x.addr.toNat) = some (get x)) :
    s.vread t n l = (.vals (l.map (fun x => (x, lineGet (get x).data (x.addr.toNat % 64) n))), s) := by
  induction l with
  | nil => rfl
  | cons x r ih =>
    obtain ⟨hx, hr⟩ := List.forall_mem_cons.mp hspace
    obtain ⟨hl, hlr⟩ := List.forall_mem_cons.mp hlines
    have hwin : ¬space x.addr = 0xFF := by omega
    have hblot : ¬space x.addr = 0xFE := by omega
    simp only [State.vread, if_neg hwin, if_neg hblot, State.lookup_of_dLine hsound hl _ (own := false) nofun, ih hr hlr, List.map_cons,
      Bool.false_eq_true, if_false]

/-- Elements of memory spaces whose lines a sound L1D holds in E or D are ready to be written, and nothing changes. -/
theorem State.vown_of_dLine (hsound : s.soundL1 t) (hspace : ∀ x ∈ l, space x.addr ≤ 1)
    (hlines : ∀ x ∈ l, ∃ d, (s.tile t).l1.dLine (lineOf x.addr.toNat) = some d ∧ (d.st = .e ∨ d.st = .d)) :
    s.vown t n l = (.vals [], s) := by
  induction l with
  | nil => rfl
  | cons x r ih =>
    obtain ⟨hx, hr⟩ := List.forall_mem_cons.mp hspace
    obtain ⟨⟨d, hl, hst⟩, hlr⟩ := List.forall_mem_cons.mp hlines
    simp only [State.vown, memSpace_of_le hx, State.lookup_of_dLine hsound hl _ (fun _ => hst), ih hr hlr, Bool.not_true,
      Bool.false_eq_true, if_false]

/-! ### Vector loads and stores that hit -/

/-- Puts a loaded value into its element: at EW 4 the Nib that the element means (07 R208). -/
def Core.putLoaded (w : Nat) (vd : Reg) (c : Core) (x : VAcc) (v : Nat) : Core :=
  let r : Reg := vd + BitVec.ofNat 5 x.reg
  c.writeV r (setElem w (c.readV r) x.i (if w = 4 then (if x.hi then v / 16 else v % 16) else v))

/-- A vector load that executes on lines that L1D holds puts each element into its register and ends. -/
theorem State.vload_of_dLine {get : VAcc → DLine} (hrun : Runs s t) (hsound : s.soundL1 t) :
    let c := s.core t
    let w := ewBits c.ew
    let n := max 1 (w / 8)
    let l := c.vaccs m mode nf va vb
    vmemOk m mode nf vd vb true = true → c.vmemRuns mode nf vd = true → c.vfault n n .load l = none → (∀ x ∈ l, space x.addr ≤ 1) →
    (∀ x ∈ l, (s.tile t).l1.dLine (lineOf x.addr.toNat) = some (get x)) →
    s.vload t m mode nf vd va vb = (((s.fetched t).accessEnd t).updCore t (fun y =>
      l.foldl (fun y x => y.putLoaded w vd x (lineGet (get x).data (x.addr.toNat % 64) n)) y)).updCore t
        (fun c => c.countInstr.advance) := by
  intro c w n l hform hruns hfault hspace hlines
  have hf := s.fetch_only t
  have hlines' : ∀ x ∈ l, ((s.fetched t).tile t).l1.dLine (lineOf x.addr.toNat) = some (get x) :=
    fun x hx => (hf.dLine _).trans (hlines x hx)
  refine State.runInstr_done hrun hform nofun ?_
  simp only [c, w, n, l] at hruns hfault hspace hlines' ⊢
  simp only [hruns, hfault, State.vread_of_dLine (hf.sound hsound) hspace hlines', List.foldl_map, Bool.not_true, Bool.false_eq_true,
    if_false]
  rfl

/-- A vector store that executes on lines held in E or D writes its elements one by one and ends. -/
theorem State.vstore_of_dLine (hrun : Runs s t) (hsound : s.soundL1 t) :
    let c := s.core t
    let w := ewBits c.ew
    let n := max 1 (w / 8)
    let l := c.vaccs m mode nf va vb
    vmemOk m mode nf vd vb false = true → c.vmemRuns mode nf vd = true → c.vfault n n .store l = none → (∀ x ∈ l, space x.addr ≤ 1) →
    (∀ x ∈ l, ∃ d, (s.tile t).l1.dLine (lineOf x.addr.toNat) = some d ∧ (d.st = .e ∨ d.st = .d)) →
    s.vstore t m mode nf vd va vb = ((l.foldl (fun y x => y.vput t w x (elem w (c.readV (vd + BitVec.ofNat 5 x.reg)) x.i))
      (s.fetched t)).accessEnd t).updCore t (fun c => c.countInstr.advance) := by
  intro c w n l hform hruns hfault hspace hlines
  have hf := s.fetch_only t
  have hlines' : ∀ x ∈ l, ∃ d, ((s.fetched t).tile t).l1.dLine (lineOf x.addr.toNat) = some d ∧ (d.st = .e ∨ d.st = .d) := by
    simpa only [hf.dLine] using hlines
  refine State.runInstr_done hrun hform nofun ?_
  simp only [c, w, n, l] at hruns hfault hspace hlines' ⊢
  simp only [hruns, hfault, State.vown_of_dLine (hf.sound hsound) hspace hlines', Bool.not_true, Bool.false_eq_true, if_false]

theorem exec_vld (s : State) (t : Nat) (m : Bool) (mode nf : BitVec 2) (vd va vb : Reg) :
    exec (.vld t m mode nf vd va vb) s = .next (s.vload t m mode nf vd va vb) := rfl

theorem exec_vst (s : State) (t : Nat) (m : Bool) (mode nf : BitVec 2) (vd va vb : Reg) :
    exec (.vst t m mode nf vd va vb) s = .next (s.vstore t m mode nf vd va vb) := rfl

/-- Settles O28: the load is a change of its core alone, once its accesses have ended; the store is as stated. -/
theorem vectorMemoryHits : Obligations.VectorMemoryHits := by
  intro s t m mode nf vd va vb hrun hsound c w n l hruns hspace
  refine ⟨fun get hform hfault hlines => ?load, fun hform hfault hlines => ?store⟩
  case load =>
    refine ⟨_, (exec_vld s t m mode nf vd va vb).trans
      (congrArg _ (State.vload_of_dLine hrun hsound hform hruns hfault hspace hlines)), ?_, ?_⟩
    · exact (((s.fetch_only t).onlyTile.trans (State.onlyTile_updTile _ t rfl)).trans (State.onlyTile_updCore _ t _)).trans
        (State.onlyTile_updCore _ t _)
    · rw [State.core_updCore, State.core_updCore, State.core_accessEnd, State.fetched_core]
      rfl
  case store =>
    exact (exec_vst s t m mode nf vd va vb).trans (congrArg _ (State.vstore_of_dLine hrun hsound hform hruns hfault hspace hlines))

end Sys2Proof.Machine
end

section
/-! PROOFS. Obligation O36: Pips, event pulses and flags. -/

namespace Sys2Proof.Machine

variable {s : State} {f n t : Nat}

/-! ### Pips (08 R223, R225) -/

/-- The i-th Pip on its way of a tenant is a Pip of that tenant. -/
theorem State.f_of_pip {x : Pip} (hx : (s.pips.filter (fun x => x.f == f))[n]? = some x) : x.f = f := by
  simpa using (List.mem_filter.mp (List.mem_of_getElem? hx)).2

theorem exec_pipArrive {x : Pip} (hx : (s.pips.filter (fun x => x.f == f))[n]? = some x) :
    exec (.pipArrive f n) s = .next (({ s with pips := s.pips.erase x } : State).pipIn x) := by
  have hexec : exec (.pipArrive f n) s = execPipArrive f n s := rfl
  rw [hexec, execPipArrive, hx]

/-- A Pip of the current epoch to an empty port of a waiting task of a live query is stored, and the task fires if it can. -/
theorem State.pipIn_of_waiting {x : Pip} {k : Task} (hk : s.taskOf x.f x.desc = some k) (hwait : k.at_ = .waiting)
    (hepoch : x.epoch = s.epochOf x.f) (hlive : (s.query x.f k.qslot).cancelled = false) (hport : k.present.getLsbD x.port = false) :
    s.pipIn x = (s.putTask x.f x.desc { k with
      present := k.present ||| ((1 : BitVec 4) <<< x.port), opnd := k.opnd.set x.port x.value }).tryFire x.f x.desc := by
  simp only [State.pipIn, hk, hwait, hepoch, hlive, hport, bne_self_eq_false, Bool.or_self, Bool.false_eq_true, if_false]

theorem State.pipIn_of_noTask {x : Pip} (hk : s.taskOf x.f x.desc = none) :
    s.pipIn x = s.updDisp x.f (fun d => { d with strayPip := d.strayPip + 1 }) := by
  simp only [State.pipIn, hk]

/-! ### Pulses (08 R227) -/

theorem exec_eventPulse {p : Pulse} {r : List Pulse}
    (hp : pickFirst (fun (p : Pulse) => p.f == f && !p.trig && p.idx == n) s.pulses = some (p, r)) :
    exec (.eventPulse f n) s = .next (({ s with pulses := r } : State).pulseFlag f n p.epoch) := by
  have hexec : exec (.eventPulse f n) s = execEventPulse f n s := rfl
  rw [hexec, execEventPulse, hp]

theorem State.pulseFlag_of_allocated {e : BitVec 8} (halloc : (s.disp f).allocd.getLsbD n = true) (hepoch : e = s.epochOf f) :
    s.pulseFlag f n e = s.setFlags f ((1 : Word) <<< n) := by
  rw [State.pulseFlag, halloc, hepoch, beq_self_eq_true, Bool.and_self, if_pos rfl]

theorem State.pulseFlag_of_stray {e : BitVec 8} (hstray : (s.disp f).allocd.getLsbD n = false ∨ e ≠ s.epochOf f) :
    s.pulseFlag f n e = s.updDisp f (fun d => { d with strayFlag := d.strayFlag + 1 }) := by
  refine if_neg fun hboth => ?_
  obtain ⟨halloc, hepoch⟩ := Bool.and_eq_true_iff.mp hboth
  rcases hstray with hfree | hne
  · exact Bool.false_ne_true (hfree.symm.trans halloc)
  · exact hne (eq_of_beq hepoch)

/-! ### Flags (08 R227, R228) -/

/-- The dispatcher's state of a tenant once flag i has been given out: allocated, clear, and awaited by no task. -/
def Disp.giveFlag (d : Disp) (i : Nat) : Disp := { d with
  allocd := d.allocd ||| ((1 : Word) <<< i), flags := d.flags &&& ~~~((1 : Word) <<< i), waiters := d.waiters.set i 0 }

/-- A flag that is given out is clear. -/
theorem Disp.flags_giveFlag (d : Disp) {i : Nat} (hi : i < 64) : (d.giveFlag i).flags.getLsbD i = false := by
  simp [Disp.giveFlag, hi]

/-- The lowest free flag is the one given out. -/
theorem State.allocFlag_of_lowest {i : Nat} (hi : i < 64) (hfree : (s.disp f).allocd.getLsbD i = false)
    (hbelow : ∀ j < i, (s.disp f).allocd.getLsbD j = true) : s.allocFlag f = (i, s.updDisp f (fun d => d.giveFlag i)) := by
  have hfind : (List.range 64).find? (fun i => !(s.disp f).allocd.getLsbD i) = some i := by
    refine List.find?_range_eq_some.mpr ⟨?_, List.mem_range.mpr hi, fun j hj => ?_⟩
    · rw [hfree, Bool.not_false]
    · rw [hbelow j hj, Bool.not_true, Bool.not_false]
  rw [State.allocFlag, hfind]
  rfl

theorem State.allocFlag_of_full (hfull : ∀ i < 64, (s.disp f).allocd.getLsbD i = true) : s.allocFlag f = (0xFF, s) := by
  have hfind : (List.range 64).find? (fun i => !(s.disp f).allocd.getLsbD i) = none :=
    List.find?_range_eq_none.mpr fun i hi => by rw [hfull i hi, Bool.not_true, Bool.not_false]
  rw [State.allocFlag, hfind]

theorem exec_dspFlagalloc {rd : Reg} (hbound : (s.tile t).bound = some f) :
    exec (.dspFlagalloc t rd) s =
      .next ((s.allocFlag f).2.updCore t (fun c => c.writeG rd (BitVec.ofNat 64 (s.allocFlag f).1))) := by
  have hexec : exec (.dspFlagalloc t rd) s = execDspFlagalloc t rd s := rfl
  rw [hexec, execDspFlagalloc, State.flagAllocRead, hbound]

/-- What the core reads in rd after a write of it, for every rd but G0. -/
theorem State.readG_updCore_writeG (s : State) (t : Nat) {rd : Reg} (v : Word) (hrd : rd ≠ 0) :
    ((s.updCore t (fun c => c.writeG rd v)).core t).readG rd = v := by
  rw [State.core_updCore, Core.readG_writeG, if_pos ⟨rfl, hrd⟩]

theorem exec_dspFlagset (mask : Word) (hbound : (s.tile t).bound = some f) :
    exec (.dspFlagset t mask) s = .next (s.setFlags f mask) := by
  have hexec : exec (.dspFlagset t mask) s = .next (s.flagSetWrite t mask) := rfl
  rw [hexec, State.flagSetWrite, hbound]

/-- Where no task waits for a flag, a setting of flags sets the allocated flags of its mask and fires nothing. -/
theorem State.setFlags_of_noWaiter (mask : Word) (hnone : ∀ p ∈ (s.disp f).tasks, p.2.fmask = 0) :
    s.setFlags f mask = s.updDisp f (fun d => { d with flags := d.flags ||| (mask &&& d.allocd) }) := by
  have hfilter : (s.disp f).tasks.filter (fun p => p.2.fmask != 0) = [] :=
    List.filter_eq_nil_iff.mpr fun p hp => by simp [hnone p hp]
  simp only [State.setFlags, State.disp_updDisp, hfilter, List.foldl_nil]

/-- Settles O36: what the four commands run, and the rules above for each outcome. -/
theorem pipsAndFlags : Obligations.PipsAndFlags := by
  intro s f n t rd mask
  refine ⟨fun x hx => ?pips, fun p r hp => ⟨fun halloc hepoch => ?set, fun hstray => ?stray⟩,
    fun hbound => ⟨fun i hi hfree hbelow => ?lowest, fun hfull hrd => ?full, exec_dspFlagset mask hbound, fun hnone => ?allocated⟩⟩
  case pips =>
    obtain rfl := State.f_of_pip hx
    let s1 : State := { s with pips := s.pips.erase x }
    refine ⟨fun k hk hwait hepoch hlive hport => ?_, fun hk => ⟨_, exec_pipArrive hx, ?_⟩⟩
    · exact (exec_pipArrive hx).trans (congrArg Host.Outcome.next (State.pipIn_of_waiting (s := s1) hk hwait hepoch hlive hport))
    · rw [State.pipIn_of_noTask (s := s1) hk, State.disp_updDisp]
      exact ⟨rfl, rfl⟩
  case set =>
    exact (exec_eventPulse hp).trans
      (congrArg Host.Outcome.next (State.pulseFlag_of_allocated (s := { s with pulses := r }) halloc hepoch))
  case stray =>
    refine ⟨_, exec_eventPulse hp, ?_⟩
    rw [State.pulseFlag_of_stray (s := { s with pulses := r }) hstray, State.disp_updDisp]
    exact ⟨rfl, rfl⟩
  case lowest =>
    refine ⟨_, exec_dspFlagalloc hbound, ?_⟩
    rw [State.allocFlag_of_lowest hi hfree hbelow]
    have hdisp : ((s.updDisp f (fun d => d.giveFlag i)).updCore t (fun c => c.writeG rd (BitVec.ofNat 64 i))).disp f =
        (s.disp f).giveFlag i := s.disp_updDisp f (fun d => d.giveFlag i)
    rw [hdisp]
    exact ⟨State.readG_updCore_writeG _ t _, rfl, Disp.flags_giveFlag _ hi⟩
  case full =>
    refine ⟨_, exec_dspFlagalloc hbound, ?_⟩
    rw [State.allocFlag_of_full hfull]
    exact State.readG_updCore_writeG _ t _ hrd
  case allocated => rw [State.setFlags_of_noWaiter mask hnone, State.disp_updDisp]

end Sys2Proof.Machine
end

section
/-! PROOFS. Obligation O37: rebinding, lending and reclaiming of tiles, and the acknowledgement. -/

namespace Sys2Proof.Machine

variable {s : State} {t f h : Nat}

/-! ### The beginning of a rebinding (08 R234, R235) -/

/-- A rebinding that begins marks the new binding and raises REBIND, and leaves the binding itself. -/
theorem State.startRebind_begins (s : State) (t : Nat) (goal lent : Option Nat) :
    let u := s.startRebind t goal lent
    (u.tile t).bind.next = some goal ∧ (u.tile t).bind.lentBy = lent ∧ (u.core t).qipend = (s.core t).qipend ||| 2 ∧
      (u.tile t).bound = (s.tile t).bound := by
  intro u
  have htile : u.tile t = _ := s.tile_updTile t _
  rw [State.core, htile]
  exact ⟨rfl, rfl, rfl, rfl⟩

theorem exec_tileRebind (hon : s.tileOn t = true) (hfree : s.tileFree t = true) (htaker : s.taker (s.tile t).bound = some f) :
    exec (.tileRebind t f) s = .next { (s.startRebind t (some f) none) with bindLast := f } := by
  have hexec : exec (.tileRebind t f) s = execTileRebind t f s := rfl
  rw [hexec, execTileRebind, hon, hfree, htaker, beq_self_eq_true, Bool.and_self, Bool.and_self, if_pos rfl]

theorem exec_tileLend (hbound : (s.tile t).bound = some h) (hon : s.tileOn t = true) (htask : (s.tile t).task = none)
    (hnext : (s.tile t).bind.next = none) (hwait : (s.core t).wait.isSome = true) (hheld : s.held h ≤ (s.tenant h).ent.tileGuar)
    (htaker : s.taker (some h) = some f) :
    exec (.tileLend t f) s = .next { (s.startRebind t (some f) (some h)) with bindLast := f } := by
  have hexec : exec (.tileLend t f) s = execTileLend t f s := rfl
  have hwait' : (s.tile t).core.wait.isSome = true := hwait
  simp only [hexec, execTileLend, hbound, hon, htask, hnext, hwait', decide_eq_true hheld, htaker, beq_self_eq_true,
    Option.isNone_none, Bool.and_self, if_true]

theorem exec_tileReclaim (hlent : (s.tile t).bind.lentBy = some h) (hready : s.hasReady h = true)
    (hheld : s.held h < (s.tenant h).ent.tileGuar) (htask : (s.tile t).task = none)
    (hlow : ∀ p ∈ s.tiles, p.2.bind.lentBy = some h → p.2.bind.reclaim = false → t ≤ p.1) :
    exec (.tileReclaim t) s = .next (s.startRebind t (some h) none) := by
  have hexec : exec (.tileReclaim t) s = execTileReclaim t s := rfl
  have hlowest : ((s.tiles.filter (fun p => p.2.bind.lentBy == some h && !p.2.bind.reclaim)).all (fun p => decide (t ≤ p.1))) = true := by
    simp only [List.all_eq_true, List.mem_filter, Bool.and_eq_true, beq_iff_eq, Bool.not_eq_true', decide_eq_true_eq]
    exact fun p ⟨hp, hby, hkept⟩ => hlow p hp hby hkept
  simp only [hexec, execTileReclaim, hlent, hready, decide_eq_true hheld, hlowest, htask, Option.isSome_none, Bool.and_self,
    Bool.not_true, Bool.false_eq_true, if_false]

/-! ### The acknowledgement (08 R235) -/

theorem exec_bindAck {goal : Option Nat} (hnext : (s.tile t).bind.next = some goal) (htask : (s.tile t).task = none)
    (hblot : (s.tile t).stroke.blot = []) :
    exec (.bindAck t) s = .next (s.updTile t (fun x => { x with bound := goal, bind := { x.bind with next := none } })) := by
  have hexec : exec (.bindAck t) s = .next (s.bindAck t) := rfl
  simp only [hexec, State.bindAck, hnext, htask, hblot, Option.isSome_none, List.isEmpty_nil, Bool.not_true, Bool.or_self,
    Bool.false_eq_true, if_false]

/-! ### A fence (10 R296; 23 R673, R679) -/

theorem State.signal_only (s : State) (f v : Nat) : ∃ ho, s.signal f v = { s with host := ho } := by
  unfold State.signal
  extract_lets k
  split_ifs
  · exact ⟨_, rfl⟩
  · exact ⟨s.host, rfl⟩
  · exact ⟨_, rfl⟩

theorem State.logNew_only (s : State) (r : ErrRec) : ∃ e ho, s.logNew r = { s with errlog := e, host := ho } := by
  unfold State.logNew
  extract_lets l s1 due s2
  split_ifs
  · obtain ⟨ho, hs2⟩ : ∃ ho, s2 = { s1 with host := ho } := s1.signal_only 0 1
    exact ⟨_, ho, by rw [hs2]⟩
  · exact ⟨_, s.host, rfl⟩

/-- An entry in the error log changes the log and the messages to the host, and nothing else. -/
theorem State.log_only (s : State) (event cls func ukind unit status addr detail : Nat) :
    ∃ e ho, s.log event cls func ukind unit status addr detail = { s with errlog := e, host := ho } := by
  unfold State.log
  extract_lets q
  split
  · split_ifs
    · exact ⟨_, s.host, rfl⟩
    · exact s.logNew_only q
  · exact s.logNew_only q

/-- The message that fences a tile at a destination. -/
def fenceMsg (t d : Nat) : Msg := { kind := .fence, src := 225, dst := d, line := 0, req := t }

/-- A tile that is not fenced yet is fenced: recorded and counted, and FENCE goes to every home and to the dispatcher. -/
theorem State.fenceTile_of_unfenced (hfenced : t ∉ s.rel.fenced) :
    (s.fenceTile t).rel.fenced = t :: s.rel.fenced ∧ (s.fenceTile t).rel.fenceCount = s.rel.fenceCount + 1 ∧
      (s.fenceTile t).net = s.net ++ (s.slicesOn.map (128 + ·) ++ [224]).map (fenceMsg t) := by
  have hcontains : ¬s.rel.fenced.contains t = true := by simpa using hfenced
  rw [State.fenceTile, if_neg hcontains]
  extract_lets held msgs
  obtain ⟨e, ho, hlog⟩ := State.log_only ({ s with
    net := s.net ++ msgs
    rel := { s.rel with
      fenced := t :: s.rel.fenced, fences := s.rel.fences.upd t [] (s.ticks :: ·), fenceCount := s.rel.fenceCount + 1 } } : State)
    0x0002 1 (((s.tile t).bound).getD 0xFF) 0 t 0x0306 0 held
  rw [hlog]
  exact ⟨rfl, rfl, rfl⟩

theorem exec_bindAckTimeout (hnext : (s.tile t).bind.next.isSome = true) :
    exec (.bindAckTimeout t) s = .next (s.fenceTile t) := by
  have hexec : exec (.bindAckTimeout t) s = execBindAckTimeout t s := rfl
  rw [hexec, execBindAckTimeout, if_pos hnext]

/-- Settles O37: the three ways a rebinding begins, its acknowledgement, and the fence when none comes. -/
theorem tileBinding : Obligations.TileBinding := by
  intro s t f begun
  refine ⟨fun hon hfree htaker => ⟨_, exec_tileRebind hon hfree htaker, s.startRebind_begins t (some f) none, rfl⟩,
    fun h hbound hon htask hnext hwait hheld htaker =>
      ⟨_, exec_tileLend hbound hon htask hnext hwait hheld htaker, s.startRebind_begins t (some f) (some h), rfl⟩,
    fun h hlent hready hheld htask hlow =>
      ⟨_, exec_tileReclaim hlent hready hheld htask hlow, s.startRebind_begins t (some h) none⟩,
    fun goal hnext htask hblot => ⟨_, exec_bindAck hnext htask hblot, ?acknowledged⟩,
    fun hnext hfenced => ⟨_, exec_bindAckTimeout hnext, ?fenced⟩⟩
  case acknowledged =>
    rw [State.core_updTile, State.tile_updTile]
    exact ⟨rfl, rfl, rfl, s.onlyTile_updTile t rfl⟩
  case fenced =>
    obtain ⟨hlist, hcount, hnet⟩ := State.fenceTile_of_unfenced hfenced
    refine ⟨hlist, hcount, fun h hh => ⟨fenceMsg t (128 + h), ?_, rfl, rfl, rfl⟩⟩
    rw [hnet]
    exact List.mem_append_right _ (List.mem_map_of_mem (List.mem_append_left _ (List.mem_map_of_mem hh)))

end Sys2Proof.Machine
end

section
/-! PROOFS. Obligations O22 (an access that misses) and O48 (what a tile does with the messages that reach it). -/

namespace Sys2Proof.Machine

/-! ### An access that misses (09 R249, R250, R254) -/

/-- A line for which a request is in flight, or which has not left the victim buffer. -/
def L1.Awaits (c : L1) (line : Nat) : Prop := (∃ q ∈ c.reqs, q.line = line) ∨ ∃ v ∈ c.vbuf, v.line = line

/-- The tile's core is blocked at an instruction, all else of it as it was, and the tile awaits a line. -/
def BlocksAt (i : Instr) (s : State) (t line : Nat) : Prop :=
  ∃ u, exec i s = .next u ∧ u.core t = { s.core t with stall := some i } ∧ (u.tile t).l1.Awaits line

section Miss

variable {s : State} {t : Nat}

/-- An access to a line that a sound L1D does not hold blocks the core on that line. -/
theorem State.onLine_of_absent (hsound : s.soundL1 t) {a : Word} (hnone : (s.tile t).l1.dLine (lineOf a.toNat) = none) (n : Nat) (acc : Access)
    (i : Instr) (k : Line → State → Eff) : s.onLine t a n acc i k = .block (s.blockOn t (lineOf a.toNat) (acc != .load) i) := by
  rw [State.onLine, State.lookup_sound hsound, hnone]

theorem State.core_postReq (s : State) (t line : Nat) (kind : MKind) (prefetch : Bool) : (s.postReq t line kind prefetch).core t = s.core t := by
  rw [State.core, State.tile_postReq]
  rfl

/-- After a demand access its request is in flight, its own or one it has merged with, or the line is still leaving; the core is
untouched. -/
theorem State.demand_awaits (s : State) (t line : Nat) (kind : MKind) :
    (s.demand t line kind).core t = s.core t ∧ ((s.demand t line kind).tile t).l1.Awaits line := by
  rw [State.demand]
  split_ifs with hreq hvictim
  · obtain ⟨q, hq, hline⟩ := List.any_eq_true.mp hreq
    rw [State.core_updL1, State.tile_updL1]
    refine ⟨rfl, .inl ⟨_, List.mem_map_of_mem hq, ?_⟩⟩
    split_ifs <;> exact eq_of_beq hline
  · obtain ⟨v, hv, hline⟩ := List.any_eq_true.mp hvictim
    exact ⟨rfl, .inr ⟨v, hv, eq_of_beq hline⟩⟩
  · rw [State.core_postReq, State.tile_postReq]
    exact ⟨rfl, .inl ⟨_, List.mem_append_right _ (List.mem_singleton_self _), rfl⟩⟩

/-- An instruction whose access misses blocks the core at it. -/
theorem BlocksAt.of_onLine (hrun : Runs s t) (hsound : s.soundL1 t) {a : Word} (hnone : (s.tile t).l1.dLine (lineOf a.toNat) = none)
    {i : Instr} {wf : Bool} {body : Core → State → Eff} {n : Nat} {acc : Access} {k : Line → State → Eff}
    (hexec : exec i s = .next (s.runInstr t wf false false body)) (hwf : wf = true)
    (hbody : body (s.core t) (s.fetched t) = (s.fetched t).onLine t a n acc i k) : BlocksAt i s t (lineOf a.toNat) := by
  have hf := s.fetch_only t
  rw [State.runInstr_runs hrun wf false false body hwf Bool.noConfusion, hbody,
    State.onLine_of_absent (hf.sound hsound) ((hf.dLine _).trans hnone), finishInstr, State.blockOn] at hexec
  obtain ⟨hcore, hawaits⟩ := (s.fetched t).demand_awaits t (lineOf a.toNat) ((s.fetched t).missKind t (lineOf a.toNat) (acc != .load))
  refine ⟨_, hexec, ?_, ?_⟩
  · rw [State.core_updCore, hcore, State.fetched_core]
  · rw [State.tile_updCore]
    exact hawaits

end Miss

/-- An address of a memory space lies neither in the control window nor in the Blotter window. -/
theorem not_window_of_memory {a : Word} (hspace : space a ≤ 1) : ¬space a = 0xFF ∧ ¬space a = 0xFE := by omega

/-- Settles O22: each access goes to a line that L1D does not hold once its checks have passed. -/
theorem missBlocksCore : Obligations.MissBlocksCore := by
  intro s t size uns rd ra rb off hrun hsound hform ea n a blocks
  refine ⟨fun hspace hexc hnone => ?ld, fun hspace hexc hnone => ?st, fun hexc => ?atomics⟩
  case ld =>
    obtain ⟨hwin, hblot⟩ := not_window_of_memory (a := (s.core t).ea ra off) hspace
    apply BlocksAt.of_onLine hrun hsound hnone (exec_ld s t size uns rd ra off) (ld_wellFormed hform)
    simp only [show (s.core t).dataExc ((s.core t).ea ra off) (sizeOf size) (sizeOf size) .load = none from hexc, if_neg hwin, if_neg hblot]
    rfl
  case st =>
    obtain ⟨hwin, hblot⟩ := not_window_of_memory (a := (s.core t).ea ra off) hspace
    apply BlocksAt.of_onLine hrun hsound hnone (exec_st s t size rd ra off) rfl
    simp only [show (s.core t).dataExc ((s.core t).ea ra off) (sizeOf size) (sizeOf size) .store = none from hexc, if_neg hwin, if_neg hblot]
    rfl
  case atomics =>
    have atomic {i : Instr} {f : Word → Word → Word → Word} (hexec : exec i s = .next (s.atomic t rd ra rb i f)) : blocks i a := by
      intro hnone
      apply BlocksAt.of_onLine hrun hsound hnone hexec rfl
      simp only [show (s.core t).dataExc ((s.core t).readG ra) 8 8 .atomic = none from hexc]
      rfl
    simp only [List.forall_mem_cons, List.not_mem_nil, false_implies, implies_true, and_true]
    exact ⟨atomic (exec_fadd s t rd ra rb), atomic (exec_umin s t rd ra rb), atomic (exec_umax s t rd ra rb),
      atomic (exec_nadd s t rd ra rb), atomic (exec_cas s t rd ra rb)⟩

/-! ### Forwards (09 R254; 10 R285) -/

section Forward

variable {s : State} {t : Nat} {m : Msg}

/-- A message between ports that no fence isolates enters the mesh behind those already there. -/
theorem State.send_of_reachable (hsrc : s.isolated m.src = false) (hdst : s.isolated m.dst = false) :
    s.send m = { s with net := s.net ++ [m] } := by
  rw [State.send, hsrc, hdst]
  rfl

/-- The answer of a tile to the home that sent it a forward or INV. -/
def Msg.reply (m : Msg) (t : Nat) (k : MKind) (d : Option Line) (dirty : Bool) : Msg :=
  { kind := k, src := t, dst := m.src, line := m.line, req := m.req, data := d, dirty := dirty }

/-- The line as a tile gives it to the requester for whom a forward was sent. -/
def Msg.give (m : Msg) (t : Nat) (d : Line) (dirty : Bool) : Msg :=
  { kind := .data, src := t, dst := m.req, line := m.line, data := some d, dirty := dirty }

/-- A tile without a copy says so. -/
theorem State.answerFwd_of_none (hcopy : (s.tile t).l1.copy m.line = none) :
    s.answerFwd t m = s.send (m.reply t (if m.kind = .inv then .invack else .noline) none false) := by
  rw [State.answerFwd]
  simp only [hcopy]
  cases hk : m.kind <;> rfl

variable {st : LState} {d : Line} {vb : Bool} (hcopy : (s.tile t).l1.copy m.line = some (st, d, vb))

include hcopy

theorem State.answerFwd_inv (hkind : m.kind = .inv) : s.answerFwd t m = (s.updL1 t (fun c => c.moveCopy m.line .i vb)).send
    (if st = .d then m.reply t .wbdata (some d) true else m.reply t .invack none false) := by
  simp only [State.answerFwd, hkind, hcopy]
  split_ifs <;> rfl

theorem State.answerFwd_fwdS (hkind : m.kind = .fwdS) (hst : st = .e ∨ st = .d) : s.answerFwd t m =
    ((s.updL1 t (fun c => c.moveCopy m.line .l vb)).sendData t m d false).send
      (m.reply t .fack (if st = .d then some d else none) (st == .d)) := by
  have hshared : ¬st = .s := by rcases hst with rfl | rfl <;> nofun
  simp only [State.answerFwd, hkind, hcopy, if_neg hshared]
  rfl

theorem State.answerFwd_fwdX (hkind : m.kind = .fwdX) (hst : st = .e ∨ st = .d) : s.answerFwd t m =
    ((s.updL1 t (fun c => c.moveCopy m.line .i vb)).sendData t m d (st == .d)).send (m.reply t .fack none (st == .d)) := by
  simp only [State.answerFwd, hkind, hcopy, if_pos hst]
  rfl

theorem State.answerFwd_fwdOnce (hkind : m.kind = .fwdOnce) (hst : st = .e ∨ st = .d) :
    s.answerFwd t m = (s.sendData t m d false).send (m.reply t .fack none false) := by
  have hshared : ¬st = .s := by rcases hst with rfl | rfl <;> nofun
  simp only [State.answerFwd, hkind, hcopy, if_neg hshared]
  rfl

end Forward

section Reachable

variable {s : State} {t : Nat} {m : Msg} (hown : s.isolated t = false) (hreq : s.isolated m.req = false)
  (hhome : s.isolated m.src = false) (hhost : m.req ≠ hostAgent)

include hown hhome

theorem State.send_reply (k : MKind) (x : Option Line) (b : Bool) :
    s.send (m.reply t k x b) = { s with net := s.net ++ [m.reply t k x b] } :=
  State.send_of_reachable (m := m.reply t k x b) hown hhome

include hreq hhost

/-- A copy that is handed over enters the mesh for the requester, then the answer for the home. -/
theorem State.send_give_reply (d : Line) (dirty : Bool) (k : MKind) (x : Option Line) (b : Bool) :
    (s.sendData t m d dirty).send (m.reply t k x b) = { s with net := s.net ++ [m.give t d dirty, m.reply t k x b] } := by
  have hgive : s.sendData t m d dirty = { s with net := s.net ++ [m.give t d dirty] } := by
    rw [State.sendData, if_neg hhost]
    exact State.send_of_reachable (m := m.give t d dirty) hown hreq
  have happend : s.net ++ [m.give t d dirty, m.reply t k x b] = (s.net ++ [m.give t d dirty]) ++ [m.reply t k x b] := by
    rw [List.append_assoc]
    rfl
  rw [hgive, happend]
  exact State.send_reply (s := { s with net := s.net ++ [m.give t d dirty] }) hown hhome k x b

end Reachable

/-! ### Messages that reach a tile (09 R253; 10 R285, R286) -/

section Arrival

variable {s u : State} {t line : Nat} {kind : MKind} {m : Msg}
  (htake : s.take (fun m => m.kind == kind && m.dst == t && m.line == line) = some (m, u))

/-- Taking a message out of the mesh changes no tile. -/
theorem State.tile_take {p : Msg → Bool} (htake : s.take p = some (m, u)) (k : Nat) : u.tile k = s.tile k := by
  obtain ⟨r, -, hr⟩ := Option.map_eq_some_iff.mp htake
  obtain ⟨-, rfl⟩ := Prod.mk.inj hr
  rfl

include htake

/-- A forward that reaches a sound L1D is answered: the check of its copy finds no error. -/
theorem State.fwdArrive_of_sound (hsound : s.soundL1 t) : s.fwdArrive t line kind = u.answerFwd t m := by
  have hsound' : u.soundL1 t := by
    rw [State.soundL1, State.tile_take htake]
    exact hsound
  simp only [State.fwdArrive, htake, u.parityScan_sound hsound']

/-- What a request in flight waits for is recorded in it, and the requests that are complete are installed. -/
theorem State.rspArrive_of_awaited (hown : s.isolated t = false) (hreq : ∃ q ∈ (s.tile t).l1.reqs, q.line = line) (f : Msg → Mshr → Mshr) :
    s.rspArrive t line kind f =
      (u.updL1 t (fun c => { c with reqs := c.reqs.map (fun q => if q.line = line then f m q else q) })).installAll t := by
  have hany : ((u.tile t).l1.reqs.any (fun q => q.line == line)) = true := by
    rw [State.tile_take htake]
    simpa using hreq
  simp only [State.rspArrive, htake, hown, hany, Bool.false_eq_true, if_false, if_true]

theorem State.victimAck_of_take : s.victimAck t line kind =
    (u.updL1 t (fun c => { c with vbuf := c.vbuf.filter (fun v => v.line != line) })).installAll t := by
  simp only [State.victimAck, htake]

end Arrival

theorem exec_data_of_edge {s u : State} {t line : Nat} {m : Msg} (hedge : 96 ≤ t)
    (htake : s.take (fun m => m.kind == .data && m.dst == t && m.line == line) = some (m, u)) :
    exec (.data t line) s = .next ((u.ioEnd t line).answer t line m.data m.blot) := by
  have hexec : exec (.data t line) s = execData t line s := rfl
  simp only [hexec, execData, if_neg (Nat.not_lt.mpr hedge), htake]

theorem exec_data_of_tile {s : State} {t line : Nat} (htile : t < 96) : exec (.data t line) s = .next (s.rspArrive t line .data
    (fun m q => { q with data := m.data, dirty := m.dirty, blot := q.blot || m.blot })) := by
  have hexec : exec (.data t line) s = execData t line s := rfl
  rw [hexec, execData, if_pos htile]

theorem exec_gnt (s : State) (t line : Nat) : exec (.gnt t line) s = execGnt t line s := rfl

/-- Settles O48, message by message, with the rules above. -/
theorem tileAnswers : Obligations.TileAnswers := by
  intro s u t line m
  refine ⟨fun hsound => ?arrives, fun hline hown hreq hhome hhost => ?answers, fun hown hawaited => ⟨fun htake => ?gnt, fun htile htake => ?data⟩,
    exec_data_of_edge, ?victims⟩
  case arrives =>
    have arrives {i : Instr} {kind : MKind} (hexec : exec i s = .next (s.fwdArrive t line kind))
        (htake : s.take (fun m => m.kind == kind && m.dst == t && m.line == line) = some (m, u)) : exec i s = .next (u.answerFwd t m) := by
      rw [hexec, State.fwdArrive_of_sound htake hsound]
    simp only [List.forall_mem_cons, List.not_mem_nil, false_implies, implies_true, and_true]
    exact ⟨arrives rfl, arrives rfl, arrives rfl, arrives rfl⟩
  case answers =>
    subst hline
    intro back give
    refine ⟨fun st d vb hcopy hst => ⟨fun hkind => ?fwdS, fun hkind => ?fwdX, fun hkind => ?fwdOnce⟩, fun st d vb hcopy hkind => ?inv,
      fun hcopy _ => ?none⟩
    case fwdS =>
      rw [State.answerFwd_fwdS hcopy hkind hst, State.send_give_reply (s := s.updL1 t _) hown hreq hhome hhost]
      exact ⟨rfl, congrArg Tile.l1 (s.tile_updL1 t (fun c => c.moveCopy m.line _ vb))⟩
    case fwdX =>
      rw [State.answerFwd_fwdX hcopy hkind hst, State.send_give_reply (s := s.updL1 t _) hown hreq hhome hhost]
      exact ⟨rfl, congrArg Tile.l1 (s.tile_updL1 t (fun c => c.moveCopy m.line _ vb))⟩
    case fwdOnce =>
      rw [State.answerFwd_fwdOnce hcopy hkind hst, State.send_give_reply hown hreq hhome hhost]
      exact ⟨rfl, rfl⟩
    case inv =>
      rw [State.answerFwd_inv hcopy hkind, State.tile_send]
      refine ⟨?_, congrArg Tile.l1 (s.tile_updL1 t _)⟩
      split_ifs
      · rw [State.send_reply (s := s.updL1 t _) hown hhome]
        rfl
      · rw [State.send_reply (s := s.updL1 t _) hown hhome]
        rfl
    case none => exact (State.answerFwd_of_none hcopy).trans (State.send_reply hown hhome _ _ _)
  case gnt => exact (exec_gnt s t line).trans (congrArg _ (State.rspArrive_of_awaited htake hown hawaited _))
  case data => exact (exec_data_of_tile htile).trans (congrArg _ (State.rspArrive_of_awaited htake hown hawaited _))
  case victims =>
    have empties {i : Instr} {kind : MKind} (hexec : exec i s = .next (s.victimAck t line kind))
        (htake : s.take (fun m => m.kind == kind && m.dst == t && m.line == line) = some (m, u)) : exec i s =
          .next ((u.updL1 t (fun c => { c with vbuf := c.vbuf.filter (fun v => v.line != line) })).installAll t) := by
      rw [hexec, State.victimAck_of_take htake]
    simp only [List.forall_mem_cons, List.not_mem_nil, false_implies, implies_true, and_true]
    exact ⟨empties rfl, empties rfl⟩

end Sys2Proof.Machine
end

section
/-! PROOFS. Obligations O45 (the home of a line) and O46 (requests, refusals and retries at a home). -/

namespace Sys2Proof.Machine

/-! ### The home of a line (10 R275, R276) -/

theorem lineA_add_space (a : BitVec 50) (host : Bool) : lineA (a.toNat + (if host then 2 ^ 50 else 0)) = a.toNat := by
  have := a.isLt
  cases host <;> simp [lineA] <;> omega

/-- The fold of a line number that the home hash starts from, as a number. -/
theorem toNat_foldedLine (a : BitVec 50) : ((a ^^^ (a >>> 25)).truncate 32).toNat = (a.toNat ^^^ (a.toNat / 2 ^ 25)) % 2 ^ 32 := by
  rw [BitVec.truncate_eq_setWidth, BitVec.toNat_setWidth, BitVec.toNat_xor, BitVec.toNat_ushiftRight, Nat.shiftRight_eq_div_pow]

theorem toNat_hashedLine (x : BitVec 32) : ((x * 0x9E3779B1#32) >>> 16).toNat = x.toNat * 0x9E3779B1 % 2 ^ 32 / 2 ^ 16 := by
  rw [BitVec.toNat_ushiftRight, BitVec.toNat_mul, Nat.shiftRight_eq_div_pow, BitVec.toNat_ofNat]

theorem homeIndex_lt (y : BitVec 32) : (y >>> 16).toNat * 768 / 2 ^ 16 < 768 := by
  have := y.isLt
  simp only [BitVec.toNat_ushiftRight, Nat.shiftRight_eq_div_pow]
  omega

theorem State.homeOf_line (s : State) (a : BitVec 50) (host : Bool) : s.homeOf (a.toNat + (if host then 2 ^ 50 else 0)) =
    s.homeEntry ((((a ^^^ (a >>> 25)).truncate 32 * 0x9E3779B1#32) >>> 16).toNat * 768 / 2 ^ 16) := by
  rw [State.homeOf, lineA_add_space, toNat_hashedLine, toNat_foldedLine]

/-- With no entry of the home map changed and every slice of an AQ-680 enabled, entry j is slice j mod 96. -/
theorem State.homeEntry_default {s : State} (hmap : s.homeMap = []) (hpart : s.part = .aq680) (hon : s.slicesOff = []) (j : Nat) :
    s.homeEntry j = j % 96 := by
  have hslices : s.slicesOn = List.range 96 := by simp [State.slicesOn, hpart, hon, Part.tiles]
  have : j % 96 < 96 := Nat.mod_lt _ (by omega)
  simp [State.homeEntry, hmap, hslices, this]

/-- Settles O45: the hash of a line is the same arithmetic on words as on numbers, and the example's line is evaluated. -/
theorem homeOfLine : Obligations.HomeOfLine := by
  refine ⟨fun s a host => ⟨homeIndex_lt _, s.homeOf_line a host⟩, fun s => ?_⟩
  have hentry : s.homeOf 0x12008D = s.homeEntry 537 := rfl
  exact ⟨hentry, fun hmap hpart hon => hentry.trans (State.homeEntry_default hmap hpart hon 537)⟩

/-! ### The mesh and the tables of a slice -/

theorem takeMsg_satisfies {p : Msg → Bool} {m : Msg} {r : List Msg} {net : List Msg} :
    ∀ {pre : List Msg}, takeMsg p pre net = some (m, r) → p m = true := by
  induction net with
  | nil => nofun
  | cons m' net ih =>
    intro pre h
    rw [takeMsg] at h
    by_cases hp : p m' = true
    · rw [if_pos hp] at h
      split at h
      · cases h
      · cases h
        exact hp
    · rw [if_neg hp] at h
      exact ih h

/-- A message taken out of the mesh satisfies the test, and the mesh alone has changed. -/
theorem State.take_eq_some {s u : State} {p : Msg → Bool} {m : Msg} (htake : s.take p = some (m, u)) :
    p m = true ∧ u = { s with net := u.net } := by
  obtain ⟨r, hr, hmap⟩ := Option.map_eq_some_iff.mp htake
  obtain ⟨rfl, rfl⟩ := Prod.mk.inj hmap
  exact ⟨takeMsg_satisfies hr, rfl⟩

/-- No fence isolates the port of a slice, an edge agent or the host (10 R297). -/
theorem State.isolated_of_edge {s : State} {t : Nat} (hedge : 96 ≤ t) : s.isolated t = false := by
  simp only [State.isolated, decide_eq_false (Nat.not_lt.mpr hedge), Bool.false_and]

theorem State.slice_setNet (s : State) (net : List Msg) (h : Nat) : ({ s with net := net } : State).slice h = s.slice h := rfl

/-! ### Requests at a home (10 R282, R287, R297) -/

section Arrive

variable {s : State} {m : Msg}

theorem State.homeArrive_of_free (hfence : (m.isCore && (s.slice (s.homeOf m.line)).fenced.getLsbD m.src) = false)
    (hdrain : s.rel.draining = false) (hbusy : s.lineBusy m.line = false) (hset : s.setFull m.line = false)
    (hqueue : (s.slice (s.homeOf m.line)).queue = []) : s.homeArrive m = s.homeStart m := by
  simp only [State.homeArrive, hfence, hdrain, hbusy, hset, hqueue, List.any_nil, Bool.or_false, Bool.not_false, Bool.false_eq_true, if_true,
    if_false]

variable (hbusy : s.lineBusy m.line = true)

include hbusy

/-- A request of a tile or the host that finds its line open waits behind those already queued. -/
theorem State.homeArrive_of_busy (hfence : (m.isCore && (s.slice (s.homeOf m.line)).fenced.getLsbD m.src) = false) (hio : m.isIo = false) :
    s.homeArrive m = s.updSlice (s.homeOf m.line) (fun sl => { sl with queue := sl.queue ++ [m] }) := by
  simp only [State.homeArrive, hfence, hbusy, hio, Bool.or_true, Bool.true_or, Bool.not_true, Bool.false_eq_true, if_false]

/-- A request of the IO class that finds its line open and has not set STARVE is counted and refused. -/
theorem State.homeArrive_io_of_busy (hedge : 96 ≤ m.src) (hagent : m.src ≠ hostAgent) (hstarve : m.starve = false) :
    ((s.homeArrive m).slice (s.homeOf m.line)).nack = (s.slice (s.homeOf m.line)).nack + 1 ∧
      ∃ k ∈ (s.homeArrive m).net, k.kind = .nack ∧ k.dst = m.src ∧ k.line = m.line := by
  have hcore : m.isCore = false := decide_eq_false (Nat.not_lt.mpr hedge)
  have hio : m.isIo = true := by simp [Msg.isIo, hedge, hagent]
  have hnack : s.homeArrive m = s.homeNack m := by
    simp only [State.homeArrive, hcore, hbusy, hio, hstarve, Bool.or_true, Bool.true_or, Bool.not_true, Bool.false_and, Bool.false_eq_true,
      if_false, if_true]
  rw [hnack, State.homeNack, State.send_of_reachable (State.isolated_of_edge (Nat.le_add_right_of_le (by omega))) (State.isolated_of_edge hedge),
    State.slice_setNet, State.slice_updSlice]
  exact ⟨rfl, _, List.mem_append_right _ (List.mem_singleton_self _), rfl, rfl, rfl⟩

end Arrive

theorem State.coreReq_of_take {s u : State} {a line : Nat} {kind : MKind} {m : Msg} (hroom : (s.slice (s.homeOf line)).queueRoom = true)
    (htake : s.take (fun m => m.kind == kind && m.src == a && m.line == line) = some (m, u)) : s.coreReq a line kind = u.homeArrive m := by
  simp only [State.coreReq, hroom, htake, Bool.not_true, Bool.false_eq_true, if_false]

/-- What a tile's request meets at its home, by the state of its line. -/
theorem State.homeArrive_of_taken {s u : State} {a line : Nat} {kind : MKind} {m : Msg}
    (htake : s.take (fun m => m.kind == kind && m.src == a && m.line == line) = some (m, u))
    (hfence : (u.slice (u.homeOf line)).fenced.getLsbD a = false) (htile : a < 96) :
    (u.rel.draining = false → u.lineBusy line = false → u.setFull line = false → (u.slice (u.homeOf line)).queue = [] →
      u.homeArrive m = u.homeStart m) ∧
    (u.lineBusy line = true → ((u.homeArrive m).slice (u.homeOf line)).queue = (u.slice (u.homeOf line)).queue ++ [m]) := by
  have hm := (State.take_eq_some htake).1
  simp only [Bool.and_eq_true, beq_iff_eq] at hm
  obtain ⟨⟨-, rfl⟩, rfl⟩ := hm
  have hunfenced : (m.isCore && (u.slice (u.homeOf m.line)).fenced.getLsbD m.src) = false := by rw [hfence, Bool.and_false]
  have hio : m.isIo = false := by simp [Msg.isIo, htile]
  refine ⟨fun hdrain hbusy hset hqueue => State.homeArrive_of_free hunfenced hdrain hbusy hset hqueue, fun hbusy => ?_⟩
  rw [State.homeArrive_of_busy hbusy hunfenced hio, State.slice_updSlice]

/-! ### Requests of the edge agents (10 R283, R287) -/

/-- A change of the first element that passes a test which the change does not affect changes what the test finds. -/
theorem find?_modify_of_findIdx? {α : Type} {p : α → Bool} {f : α → α} (hf : ∀ x, p (f x) = p x) {l : List α} :
    ∀ {i : Nat}, l.findIdx? p = some i → (l.modify i f).find? p = (l.find? p).map f := by
  induction l with
  | nil => nofun
  | cons x l ih =>
    intro i hi
    rw [List.findIdx?_cons] at hi
    by_cases hx : p x = true
    · rw [if_pos hx] at hi
      cases hi
      simp [hf, hx]
    · rw [if_neg hx] at hi
      obtain ⟨j, hj, rfl⟩ := Option.map_eq_some_iff.mp hi
      simp [hx, ih hj]

theorem State.updIo_eq (s : State) (a line : Nat) (f : IoReq → IoReq) : s.updIo a line f = { s with io := (s.updIo a line f).io } := by
  unfold State.updIo
  split <;> rfl

/-- A change that keeps a request's agent and line is what the request then is. -/
theorem State.ioReq_updIo {s : State} {a line : Nat} {q : IoReq} (hreq : s.ioReq a line = some q) {f : IoReq → IoReq}
    (hf : ∀ q, (f q).agent = q.agent ∧ (f q).line = q.line) : (s.updIo a line f).ioReq a line = some (f q) := by
  have hsome : ((s.io.findIdx? (fun q => q.agent == a && q.line == line)).isSome) = true := by
    rw [List.findIdx?_isSome]
    exact List.any_eq_true.mpr ⟨q, List.mem_of_find?_eq_some hreq, List.find?_some (p := fun q : IoReq => q.agent == a && q.line == line) hreq⟩
  obtain ⟨i, hi⟩ := Option.isSome_iff_exists.mp hsome
  have hfind := find?_modify_of_findIdx? (p := fun q : IoReq => q.agent == a && q.line == line) (f := f)
    (fun q => by rw [(hf q).1, (hf q).2]) hi
  rw [State.ioReq] at hreq
  simp only [State.updIo, hi, State.ioReq, hfind, hreq, Option.map_some]

theorem exec_nack_of_take {s u : State} {a line : Nat} {m : Msg}
    (htake : s.take (fun m => m.kind == .nack && m.dst == a && m.line == line) = some (m, u)) :
    exec (.nack a line) s = .next (u.updIo a line (fun q => { q with
      nacks := q.nacks + 1, waiting := true,
      delay := if q.starve then 1024 else min 1024 (8 * 2 ^ q.nacks),
      starve := q.starve || decide (8 ≤ q.nacks + 1) })) := by
  have hexec : exec (.nack a line) s = execNack a line s := rfl
  simp only [hexec, execNack, htake]

theorem exec_nackRetry_of_waiting {s : State} {a line : Nat} {q : IoReq} (hreq : s.ioReq a line = some q) (hwait : q.waiting = true) :
    exec (.nackRetry a line) s = .next (s.updIo a line (fun q => { q with waiting := false, atHome := false })) := by
  have hexec : exec (.nackRetry a line) s = execNackRetry a line s := rfl
  simp only [hexec, execNackRetry, hreq, hwait, if_true]

theorem exec_iodone_of_take {s u : State} {a line : Nat} {m : Msg}
    (htake : s.take (fun m => m.kind == .iodone && m.dst == a && m.line == line) = some (m, u)) (hport : ¬(96 ≤ a ∧ a < 104)) :
    exec (.iodone a line) s = .next ((u.ioEnd a line).answer a line none false) := by
  have hexec : exec (.iodone a line) s = execIodone a line s := rfl
  simp only [hexec, execIodone, htake, if_neg hport]

theorem exec_homeQueueStart_of_next {s : State} {h : Nat} {m : Msg} (hdrain : s.rel.draining = false)
    (hnext : s.nextQueued (s.slice h).queue [] = some m) : exec (.homeQueueStart h) s =
      .next ((s.updSlice h (fun sl => { sl with queue := eraseFirst m sl.queue })).homeStart m) := by
  have hexec : exec (.homeQueueStart h) s = .next (s.homeDequeue h) := rfl
  simp only [hexec, State.homeDequeue, hdrain, hnext, Bool.false_eq_true, if_false]

section Sent

variable {s : State} {a line : Nat} {q : IoReq} (hreq : s.ioReq a line = some q) (hwait : q.waiting = false) (hhome : q.atHome = false)

include hreq hwait hhome

theorem exec_ioRd_of_sent (hwr : q.wr = none) : exec (.ioRd a line) s = .next ((s.updIo a line (fun q => { q with atHome := true })).homeArrive {
    kind := .ioRd, src := a, dst := 128 + s.homeOf line, line, owner := q.owner, starve := q.starve }) := by
  have hexec : exec (.ioRd a line) s = execIoRd a line s := rfl
  rw [hexec, execIoRd, if_pos (Option.isSome_of_eq_some hreq)]
  simp [State.ioArrive, hreq, hwait, hhome, hwr]

theorem exec_ioWr_of_sent {w : Line × BitVec 64 × Bool} (hwr : q.wr = some w) :
    exec (.ioWr a line) s = .next ((s.updIo a line (fun q => { q with atHome := true })).homeArrive {
      kind := .ioWr, src := a, dst := 128 + s.homeOf line, line, owner := q.owner, data := some w.1, mask := w.2.1, blot := w.2.2,
      starve := q.starve }) := by
  have hexec : exec (.ioWr a line) s = .next (s.ioArrive a line true) := rfl
  simp [hexec, State.ioArrive, hreq, hwait, hhome, hwr]

/-- A read of an edge agent that finds its line open is counted and refused. -/
theorem exec_ioRd_of_busy (hedge : 96 ≤ a) (hagent : a < 127) (hwr : q.wr = none) (hstarve : q.starve = false) (hbusy : s.lineBusy line = true) :
    ∃ u, exec (.ioRd a line) s = .next u ∧ (u.slice (s.homeOf line)).nack = (s.slice (s.homeOf line)).nack + 1 ∧
      ∃ m ∈ u.net, m.kind = .nack ∧ m.dst = a ∧ m.line = line := by
  refine ⟨_, exec_ioRd_of_sent hreq hwait hhome hwr, ?_⟩
  rw [State.updIo_eq]
  exact State.homeArrive_io_of_busy (s := { s with io := _ }) (by exact hbusy) hedge (Nat.ne_of_lt hagent) hstarve

end Sent

/-- Settles O46, command by command, with the rules above. -/
theorem requestsAtHome : Obligations.RequestsAtHome := by
  intro s a line
  refine ⟨?core, fun q hreq hwait hhome hedge hagent => ⟨exec_ioRd_of_sent hreq hwait hhome, fun w => exec_ioWr_of_sent hreq hwait hhome,
      exec_ioRd_of_busy hreq hwait hhome hedge hagent⟩, fun m u q htake hreq => ?nack, fun q hreq hwait => ?retry,
    fun m u => exec_iodone_of_take, fun h m => exec_homeQueueStart_of_next⟩
  case core =>
    have request {i : Instr} {kind : MKind} (hexec : exec i s = .next (s.coreReq a line kind))
        (hroom : (s.slice (s.homeOf line)).queueRoom = true) (m : Msg) (u : State)
        (htake : s.take (fun m => m.kind == kind && m.src == a && m.line == line) = some (m, u)) :=
      And.intro (hexec.trans (congrArg _ (State.coreReq_of_take hroom htake))) (State.homeArrive_of_taken htake)
    simp only [List.forall_mem_cons, List.not_mem_nil, false_implies, implies_true, and_true]
    exact ⟨request rfl, request rfl, request rfl, request rfl, request rfl⟩
  case nack =>
    have hu : u.ioReq a line = some q := by
      rw [(State.take_eq_some htake).2]
      exact hreq
    exact ⟨_, exec_nack_of_take htake, State.ioReq_updIo hu fun _ => ⟨rfl, rfl⟩⟩
  case retry => exact ⟨_, exec_nackRetry_of_waiting hreq hwait, State.ioReq_updIo hreq fun _ => ⟨rfl, rfl⟩⟩

end Sys2Proof.Machine
end

section
/-! PROOFS. Obligation O47 (what a home does with a request, by the state of the line's entry). -/

namespace Sys2Proof.Machine

/-! ### What updates of a slice and of a tenant leave -/

theorem Tab.getD_of_find? {α : Type} {t : Tab α} {k : Nat} {v : α} (h : t.find? k = some v) (d : α) : t.getD k d = v := by
  rw [Tab.getD, h]

/-- A property of a table's entries that the default lacks and a changed entry keeps. -/
theorem Tab.any_upd {α : Type} (p : α → Bool) (k : Nat) (d : α) (f : α → α) (hd : p d = false) :
    ∀ t : Tab α, p (f (t.getD k d)) = p (t.getD k d) → (t.upd k d f).any (fun e => p e.2) = t.any (fun e => p e.2) := by
  intro t
  rw [Tab.upd]
  generalize f (t.getD k d) = v
  induction t with
  | nil => simp [Tab.set, hd]
  | cons e t ih =>
    obtain ⟨j, w⟩ := e
    by_cases hj : j = k
    · simp +contextual [Tab.set, Tab.getD, Tab.find?, hj]
    · intro hv
      have hrest : p v = p (Tab.getD t k d) := by rw [hv, Tab.getD, Tab.getD, Tab.find?, if_neg hj]
      simp [Tab.set, hj, ih hrest]

theorem State.isolated_updSlice {s : State} {h : Nat} {f : Slice → Slice} (hf : ∀ sl, (f sl).fenced = sl.fenced) (t : Nat) :
    (s.updSlice h f).isolated t = s.isolated t :=
  congrArg (decide (t < 96) && ·)
    (Tab.any_upd (fun sl : Slice => sl.fenced.getLsbD t) h {} f (by simp) s.slices (by rw [hf]))

theorem State.isolated_putTxn (s : State) (x : Txn) (t : Nat) : (s.putTxn x).isolated t = s.isolated t :=
  State.isolated_updSlice (fun _ => by rfl) t

theorem State.dir_putTxn (s : State) (x : Txn) : ((s.putTxn x).slice (s.homeOf x.msg.line)).dir = (s.slice (s.homeOf x.msg.line)).dir := by
  rw [State.putTxn, State.slice_updSlice]

theorem State.isolated_putDir (s : State) (h k : Nat) (e : DirEntry) (t : Nat) : (s.putDir h k e).isolated t = s.isolated t :=
  State.isolated_updSlice (fun _ => by rfl) t

theorem State.isolated_countLookup (s : State) (line : Nat) (hit : Bool) (t : Nat) : (s.countLookup line hit).isolated t = s.isolated t :=
  State.isolated_updSlice (fun _ => by cases hit <;> rfl) t

/-- Logging a write for migration changes host memory and the tenant's counts alone (20 R590, R591). -/
theorem State.migLog_eq (s : State) (owner line : Nat) :
    s.migLog owner line = { s with hostMem := (s.migLog owner line).hostMem, tenants := (s.migLog owner line).tenants } := by
  unfold State.migLog
  dsimp only
  split
  · rfl
  · split
    · split <;> rfl
    · split <;> rfl

@[simp] theorem State.migLog_slice (s : State) (owner line h : Nat) : (s.migLog owner line).slice h = s.slice h := by
  rw [State.migLog_eq]
  rfl

@[simp] theorem State.migLog_homeOf (s : State) (owner line k : Nat) : (s.migLog owner line).homeOf k = s.homeOf k := by
  rw [State.migLog_eq]
  rfl

@[simp] theorem State.migLog_net (s : State) (owner line : Nat) : (s.migLog owner line).net = s.net := by
  rw [State.migLog_eq]

@[simp] theorem State.migLog_isolated (s : State) (owner line t : Nat) : (s.migLog owner line).isolated t = s.isolated t := by
  rw [State.migLog_eq]
  rfl

theorem DirEntry.addSharer_state (e : DirEntry) (t : Nat) (leader : Bool) : (e.addSharer t leader).state = .sh := by
  unfold DirEntry.addSharer
  dsimp only
  split_ifs <;> rfl

/-- A change that leaves holders in a line's entry is stored at the entry's way. -/
theorem State.updDir_of_held {s : State} {line k : Nat} {e : DirEntry} {f : DirEntry → DirEntry}
    (hway : (s.slice (s.homeOf line)).dirWay line = some k) (hdir : (s.slice (s.homeOf line)).dir.find? k = some e) (hheld : (f e).state ≠ .n) :
    s.updDir line f = s.putDir (s.homeOf line) k (f e) := by
  simp [State.updDir, hway, hdir, hheld]

/-! ### Grants (10 R283, R286) -/

/-- The grant that a transaction's requester gets from a home. -/
def Txn.gnt (x : Txn) (h : Nat) (st : Option LState) (d : Option Line) (blot : Bool) : Msg :=
  { kind := .gnt, src := 128 + h, dst := x.msg.src, line := x.msg.line, st, data := d, blot }

theorem State.isolated_home (s : State) (h : Nat) : s.isolated (128 + h) = false :=
  State.isolated_of_edge (Nat.le_add_right_of_le (by omega))

/-- A grant to a tile that no fence isolates enters the mesh, and the directory stays as it is. -/
theorem State.grant_of_reachable {s : State} {x : Txn} (hfenced : (s.slice (s.homeOf x.msg.line)).fenced.getLsbD x.msg.src = false)
    (hreach : s.isolated x.msg.src = false) (st : Option LState) (d : Option Line) (blot : Bool) :
    (s.grant x st d blot).net = s.net ++ [x.gnt (s.homeOf x.msg.line) st d blot] ∧
      ((s.grant x st d blot).slice (s.homeOf x.msg.line)).dir = (s.slice (s.homeOf x.msg.line)).dir := by
  have hgrant : s.grant x st d blot = (s.putTxn { x with phase := .cmp }).send (x.gnt (s.homeOf x.msg.line) st d blot) := by
    rw [State.grant, hfenced, if_neg Bool.false_ne_true]
    rfl
  rw [hgrant, State.send_of_reachable (State.isolated_home _ _) ((State.isolated_putTxn _ _ _).trans hreach), State.slice_setNet]
  exact ⟨rfl, s.dir_putTxn { x with phase := .cmp }⟩

/-- What an entry records of a requester that is granted a state: its only holder in E or D, else one sharer more. -/
def DirEntry.grantedTo (e : DirEntry) (x : Txn) (st : LState) : DirEntry :=
  if st == .e || st == .d then { e with state := .ex, ptrs := [x.msg.src], lv := false, ovf := false, owner := x.msg.owner }
  else e.addSharer x.msg.src (st == .l)

theorem DirEntry.grantedTo_held (e : DirEntry) (x : Txn) (st : LState) : (e.grantedTo x st).state ≠ .n := by
  unfold DirEntry.grantedTo
  split_ifs
  · nofun
  · rw [DirEntry.addSharer_state]
    nofun

theorem State.grantN_eq (s : State) (x : Txn) (st : LState) (d : Line) : s.grantN x st d false =
    (if st == .e || st == .d then (s.updDir x.msg.line (fun e => e.grantedTo x st)).migLog x.msg.owner x.msg.line
      else s.updDir x.msg.line (fun e => e.grantedTo x st)).grant x (some st) (some d) false := rfl

section Grant

variable {s : State} {x : Txn} {e : DirEntry} (hway : (s.slice (s.homeOf x.msg.line)).dirWay x.msg.line = some x.way)
  (hdir : (s.slice (s.homeOf x.msg.line)).dir.find? x.way = some e)
  (hfenced : (s.slice (s.homeOf x.msg.line)).fenced.getLsbD x.msg.src = false) (hreach : s.isolated x.msg.src = false)

include hway hdir hfenced hreach

/-- Data and a state are sent to the requester, and the line's entry records it. -/
theorem State.grantN_of_reachable (st : LState) (d : Line) :
    (s.grantN x st d false).net = s.net ++ [x.gnt (s.homeOf x.msg.line) (some st) (some d) false] ∧
    ((s.grantN x st d false).slice (s.homeOf x.msg.line)).dir.find? x.way = some (e.grantedTo x st) := by
  have hrecord : s.updDir x.msg.line (fun e => e.grantedTo x st) = s.putDir (s.homeOf x.msg.line) x.way (e.grantedTo x st) :=
    State.updDir_of_held hway hdir (e.grantedTo_held x st)
  have hslice : (s.putDir (s.homeOf x.msg.line) x.way (e.grantedTo x st)).slice (s.homeOf x.msg.line) =
      { s.slice (s.homeOf x.msg.line) with dir := (s.slice (s.homeOf x.msg.line)).dir.set x.way (e.grantedTo x st) } := s.slice_updSlice _ _
  have grants (v : State) (hhome : v.homeOf x.msg.line = s.homeOf x.msg.line) (hnet : v.net = s.net) (hiso : v.isolated x.msg.src = false)
      (hv : v.slice (s.homeOf x.msg.line) = (s.putDir (s.homeOf x.msg.line) x.way (e.grantedTo x st)).slice (s.homeOf x.msg.line)) :
      (v.grant x (some st) (some d) false).net = s.net ++ [x.gnt (s.homeOf x.msg.line) (some st) (some d) false] ∧
        ((v.grant x (some st) (some d) false).slice (s.homeOf x.msg.line)).dir.find? x.way = some (e.grantedTo x st) := by
    obtain ⟨hgnt, hkept⟩ := State.grant_of_reachable (s := v) (x := x) (by rw [hhome, hv, hslice, hfenced]) hiso (some st) (some d) false
    rw [hhome] at hgnt hkept
    rw [hgnt, hkept, hv, hslice, hnet]
    exact ⟨rfl, Tab.find?_set_self _ _ _⟩
  have hreach' : (s.putDir (s.homeOf x.msg.line) x.way (e.grantedTo x st)).isolated x.msg.src = false :=
    (State.isolated_putDir _ _ _ _ _).trans hreach
  rw [State.grantN_eq, hrecord]
  split
  · exact grants _ (State.migLog_homeOf _ _ _ _) (State.migLog_net _ _ _) ((State.migLog_isolated _ _ _ _).trans hreach') (State.migLog_slice _ _ _ _)
  · exact grants _ rfl rfl hreach' rfl

end Grant

/-! ### The table of R283 for a device line whose entry the host holds no copy of -/

section Table

variable {s : State} {x : Txn} {e : DirEntry} (hline : isHostLine x.msg.line = false)
  (hdir : (s.slice (s.homeOf x.msg.line)).dir.find? x.way = some e) (hhost : e.h = false)

include hline hdir hhost

theorem State.homeGo_n_own (hst : e.state = .n) (hkind : x.msg.kind = .rdS ∨ x.msg.kind = .rdX ∨ x.msg.kind = .upg) {d : Line} {b : Bool}
    (hdata : s.txnData x = some (d, b)) : s.homeGo x = (s.countLookup x.msg.line x.fill.isNone).grantN x .e d b := by
  rcases hkind with hkind | hkind | hkind <;>
    simp only [State.homeGo, Tab.getD_of_find? hdir, hline, hhost, hst, hkind, hdata, Bool.and_false, Bool.false_and, Bool.false_eq_true, if_false]

theorem State.homeGo_n_rdH (hst : e.state = .n) (hkind : x.msg.kind = .rdH) {d : Line} {b : Bool}
    (hdata : s.txnData x = some (d, b)) : s.homeGo x = (s.countLookup x.msg.line x.fill.isNone).grantN x .l d b := by
  simp only [State.homeGo, Tab.getD_of_find? hdir, hline, hhost, hst, hkind, hdata, Bool.and_false, Bool.false_and, Bool.false_eq_true, if_false]

theorem State.homeGo_n_ask (hst : e.state = .n) (hkind : x.msg.kind = .rdS ∨ x.msg.kind = .rdX ∨ x.msg.kind = .upg ∨ x.msg.kind = .rdH)
    (hdata : s.txnData x = none) : s.homeGo x = s.askData x := by
  rcases hkind with hkind | hkind | hkind | hkind <;>
    simp only [State.homeGo, Tab.getD_of_find? hdir, hline, hhost, hst, hkind, hdata, Bool.and_false, Bool.false_and, Bool.false_eq_true, if_false]

theorem State.homeGo_ex (hst : e.state = .ex) {k : MKind}
    (hkind : (x.msg.kind, k) ∈ [(MKind.rdS, MKind.fwdS), (.rdH, .fwdS), (.rdX, .fwdX), (.upg, .fwdX), (.rdOnce, .fwdOnce), (.ioRd, .fwdOnce)]) :
    s.homeGo x = (s.putTxn { x with phase := .fwd }).send
      { kind := k, src := 128 + s.homeOf x.msg.line, dst := e.ptrs.headD 0, line := x.msg.line, req := x.msg.src } := by
  simp only [List.mem_cons, Prod.mk.injEq, List.not_mem_nil, or_false] at hkind
  rcases hkind with ⟨hkind, rfl⟩ | ⟨hkind, rfl⟩ | ⟨hkind, rfl⟩ | ⟨hkind, rfl⟩ | ⟨hkind, rfl⟩ | ⟨hkind, rfl⟩ <;>
    simp only [State.homeGo, Tab.getD_of_find? hdir, hline, hhost, hst, hkind, Bool.and_false, Bool.false_and, Bool.not_false, Bool.false_eq_true,
      if_false]

theorem State.homeGo_sh_rdX (hst : e.state = .sh) (hkind : x.msg.kind = .rdX) (hsharers : s.invTargets e (some x.msg.src) ≠ []) :
    s.homeGo x = (s.putTxn { x with phase := .inv, acks := s.invTargets e (some x.msg.src) }).sendInvs x.msg.line
      (s.invTargets e (some x.msg.src)) := by
  simp only [State.homeGo, Tab.getD_of_find? hdir, hline, hhost, hst, hkind, List.isEmpty_eq_false_iff.mpr hsharers, Bool.and_false,
    Bool.false_and, Bool.false_eq_true, if_false]

theorem State.homeGo_held_ioWr (hst : e.state ≠ .n) (hkind : x.msg.kind = .ioWr) :
    s.homeGo x = (s.putTxn { x with phase := .inv, acks := s.invTargets e none }).sendInvs x.msg.line (s.invTargets e none) := by
  cases hst' : e.state with
  | n => exact absurd hst' hst
  | sh | ex => simp only [State.homeGo, Tab.getD_of_find? hdir, hline, hhost, hst', hkind, Bool.and_false, Bool.false_and, Bool.false_eq_true, if_false]

end Table

/-- Counting a lookup leaves the home, the directory and the fences, so the grant that follows is the one of R283. -/
theorem State.countLookup_grantN {s : State} {x : Txn} {e : DirEntry} (hway : (s.slice (s.homeOf x.msg.line)).dirWay x.msg.line = some x.way)
    (hdir : (s.slice (s.homeOf x.msg.line)).dir.find? x.way = some e)
    (hfenced : (s.slice (s.homeOf x.msg.line)).fenced.getLsbD x.msg.src = false) (hreach : s.isolated x.msg.src = false)
    (hit : Bool) (st : LState) (d : Line) :
    (∃ m ∈ ((s.countLookup x.msg.line hit).grantN x st d false).net, m.kind = .gnt ∧ m.dst = x.msg.src ∧ m.line = x.msg.line ∧
      m.st = some st ∧ m.data = some d ∧ m.blot = false) ∧
    (((s.countLookup x.msg.line hit).grantN x st d false).slice (s.homeOf x.msg.line)).dir.find? x.way = some (e.grantedTo x st) := by
  have hslice : (s.countLookup x.msg.line hit).slice (s.homeOf x.msg.line) = _ := s.slice_updSlice (s.homeOf x.msg.line) _
  obtain ⟨hgnt, hentry⟩ := State.grantN_of_reachable (s := s.countLookup x.msg.line hit) (x := x) (e := e)
    (by cases hit <;> exact hslice ▸ hway) (by cases hit <;> exact hslice ▸ hdir) (by cases hit <;> exact hslice ▸ hfenced)
    ((State.isolated_countLookup _ _ _ _).trans hreach) st d
  rw [hgnt]
  exact ⟨⟨_, List.mem_append_right _ (List.mem_singleton_self _), rfl, rfl, rfl, rfl, rfl, rfl⟩, hentry⟩

/-- Settles O47, by the state of the line's entry. -/
theorem homeTable : Obligations.HomeTable := by
  intro s x e hline line h t hway hdir hhost
  refine ⟨fun d hst hdata _ hfenced hreach => ⟨fun hkind => ?own, fun hkind => ?held⟩, fun hst hdata hkind => ?ask,
    fun hst hholder k f hkind hf => ?forward, fun hst hkind hsharers => ?invalidate, fun hst hkind => ?write⟩
  case own =>
    rw [State.homeGo_n_own hline hdir hhost hst hkind hdata]
    exact State.countLookup_grantN hway hdir hfenced hreach _ .e d
  case held =>
    rw [State.homeGo_n_rdH hline hdir hhost hst hkind hdata]
    exact State.countLookup_grantN hway hdir hfenced hreach _ .l d
  case ask => exact State.homeGo_n_ask hline hdir hhost hst hkind hdata
  case forward =>
    subst hf
    rw [State.homeGo_ex hline hdir hhost hst hkind, State.send_of_reachable (State.isolated_home _ _) ((State.isolated_putTxn _ _ _).trans hholder)]
    exact ⟨rfl, s.dir_putTxn { x with phase := .fwd }⟩
  case invalidate => exact State.homeGo_sh_rdX hline hdir hhost hst hkind hsharers
  case write => exact State.homeGo_held_ioWr hline hdir hhost hst hkind

end Sys2Proof.Machine
end

section
/-! PROOFS. Obligation O50 (the host's snoops, responses, memory requests and BAR accesses). -/

namespace Sys2Proof.Machine

/-! ### Snoops and responses (10 R299, R300; 16 R468) -/

theorem State.snoop_of_free {s : State} {line : Nat} (hline : isHostLine line = true) (htxn : s.txn line = none) (hset : s.setFull line = false)
    (kind : MKind) : s.snoop line kind =
      s.homeStart { kind := kind, src := 127, dst := 128 + s.homeOf line, line, owner := s.ownerOf line } := by
  simp only [State.snoop, hline, htxn, hset, Bool.not_true, Bool.false_eq_true, if_false]
  rfl

/-- GO removes one waiting write of its line and none of another. -/
theorem exec_go (s : State) (line : Nat) : ∃ u, exec (.go line) s = .next u ∧ u = { s with goPend := u.goPend } ∧
    u.goPend.count line = s.goPend.count line - 1 ∧ ∀ k, k ≠ line → u.goPend.count k = s.goPend.count k := by
  refine ⟨{ s with goPend := (s.goPend.reverse.erase line).reverse }, rfl, rfl, ?_, fun k hk => ?_⟩
  · dsimp only
    rw [List.count_reverse, List.count_erase_self, List.count_reverse]
  · dsimp only
    rw [List.count_reverse, List.count_erase_of_ne hk, List.count_reverse]

theorem exec_hostResponse_of_asked {s : State} {line : Nat} (hline : isHostLine line = true) (hasked : line ∈ s.d2h) (d : Line) (poison : Bool) :
    exec (.hostResponse line d poison) s = .next (({ s with
      hostMem := Memory.writeLine s.hostMem (lineA line) d
      hostPoison := if poison then lineA line :: s.hostPoison.filter (fun x => x != lineA line) else s.hostPoison.filter (fun x => x != lineA line)
      d2h := s.d2h.erase line } : State).homeFill line d poison) := by
  have hexec : exec (.hostResponse line d poison) s = execHostResponse line d poison s := rfl
  simp only [hexec, execHostResponse, hline, List.contains_iff_mem.mpr hasked, Bool.not_true, Bool.false_eq_true, if_false, if_true]

theorem exec_bisnpResponse_of_waiting {s s1 : State} {line : Nat} {x : Txn} (hline : line ∈ s.bisnp)
    (hs1 : s1 = ({ s with bisnp := s.bisnp.erase line } : State).updDir line (fun e => { e with h := false })) (htxn : s1.txn line = some x)
    (hphase : x.phase = .back) :
    exec (.bisnpResponse line) s = .next ((s1.putTxn { x with phase := .cmp }).homeGo { x with phase := .cmp }) := by
  have hexec : exec (.bisnpResponse line) s = execBisnpResponse line s := rfl
  simp only [hexec, execBisnpResponse, List.contains_iff_mem.mpr hline, if_true, ← hs1, htxn, hphase]

/-! ### CXL.mem requests (16 R469) and BAR accesses (16 R476, R478, R480) -/

theorem State.hostReq_of_room {s : State} {m : Msg} (hroom : (s.slice (s.homeOf m.line)).queueRoom = true) :
    s.hostReq m = s.homeArrive { m with src := 127, dst := 128 + s.homeOf m.line } := by
  rw [State.hostReq, if_pos hroom]
  rfl

/-- The request that a BAR2 access within one line makes, before its home is known. -/
def bar2Msg (owner a len : Nat) : Option (BitVec 512) → Msg
  | some d => { kind := .ioWr, src := 127, dst := 0, line := a / 64, owner, data := some (d <<< (8 * (a % 64))), mask := byteMask (a % 64) len }
  | none => { kind := .rdOnce, src := 127, dst := 0, line := a / 64, owner }

section Bar2

variable {s : State} {f off len a : Nat} (hlen : 0 < len) (hin : a % 64 + len ≤ 64) (haddr : ∀ j < len, s.bar2Addr f (off + j) = some (a + j))

include hlen hin haddr

theorem State.bar2Msgs_of_line (w : Option (BitVec 512)) :
    s.bar2Msgs f w 3 off 0 len = some [bar2Msg (if f = 0 then s.lineOwner (a / 64) else f) a len w] := by
  obtain ⟨n, rfl⟩ := Nat.exists_eq_succ_of_ne_zero hlen.ne'
  have hmin : min (n + 1) (64 - a % 64) = n + 1 := by omega
  have hfirst : s.bar2Addr f off = some a := haddr 0 hlen
  cases w <;> simp [State.bar2Msgs, hfirst, hmin, bar2Msg, hostAgent]

theorem exec_bar2Access_of_line (hroom : (s.slice (s.homeOf (a / 64))).queueRoom = true) (w : Option (BitVec 512)) :
    exec (.bar2Access f off len w) s =
      .next (s.homeArrive { bar2Msg (if f = 0 then s.lineOwner (a / 64) else f) a len w with dst := 128 + s.homeOf (a / 64) }) := by
  have hexec : exec (.bar2Access f off len w) s = execBar2Access f off len w s := rfl
  have hlast : s.bar2Addr f (off + len - 1) = some (a + (len - 1)) := by
    rw [Nat.add_sub_assoc hlen]
    exact haddr _ (by omega)
  cases w <;>
    simp [hexec, execBar2Access, hlast, State.bar2Msgs_of_line hlen hin haddr, bar2Msg, hroom, State.hostReq_of_room]

end Bar2

theorem exec_bar2Access_beyond {s : State} {f off len : Nat} (hbeyond : s.bar2Addr f (off + len - 1) = none) (w : Option (BitVec 512)) :
    exec (.bar2Access f off len w) s = .next (s.answerUr (off / 64)) := by
  have hexec : exec (.bar2Access f off len w) s = execBar2Access f off len w s := rfl
  simp only [hexec, execBar2Access, hbeyond]

theorem exec_bar0InvalidAccess_refused {s : State} {off len : Nat} (hform : ¬(len = 4 ∨ len = 8) ∨ off % len ≠ 0) (f : Nat) (w : Bool) :
    exec (.bar0InvalidAccess f off len w) s = .next (s.answerUr (off / 64)) := by
  have hexec : exec (.bar0InvalidAccess f off len w) s = .next (if bar0Ok off len then s else s.answerUr (off / 64)) := rfl
  have hbad : ¬bar0Ok off len = true := by
    simp only [bar0Ok, Bool.and_eq_true, Bool.or_eq_true, beq_iff_eq]
    exact fun h => hform.elim (fun hsize => hsize h.1) (fun halign => halign h.2)
  rw [hexec, if_neg hbad]

/-- Settles O50, command by command, with the rules above. -/
theorem hostCommands : Obligations.HostCommands := by
  intro s line f off len d mask poison refused home
  refine ⟨fun hline htxn hset => ?snoops, exec_go s line, fun hline hasked => exec_hostResponse_of_asked hline hasked d poison,
    fun hline s1 x hs1 htxn => exec_bisnpResponse_of_waiting hline hs1 htxn, fun hroom => ?cxl,
    fun a hlen hin haddr hroom => ?bar2, fun hbeyond => exec_bar2Access_beyond hbeyond, fun w hform => exec_bar0InvalidAccess_refused hform f w⟩
  case snoops =>
    simp only [List.forall_mem_cons, List.not_mem_nil, false_implies, implies_true, and_true]
    have snoops (kind : MKind) := State.snoop_of_free hline htxn hset kind
    exact ⟨congrArg _ (snoops .fwdS), congrArg _ (snoops .inv), congrArg _ (snoops .fwdOnce)⟩
  case cxl =>
    have hrd : exec (.memRd line) s = execMemRd line s := rfl
    have hrdData : exec (.memRdData line) s = execMemRdData line s := rfl
    have hwr : exec (.memWr line d poison) s = execMemWr line d poison s := rfl
    have hwrPtl : exec (.memWrPtl line d mask) s = execMemWrPtl line d mask s := rfl
    simp [hrd, hrdData, hwr, hwrPtl, execMemRd, execMemRdData, execMemWr, execMemWrPtl, State.hostReq_of_room, hroom, home]
  case bar2 => exact ⟨exec_bar2Access_of_line hlen hin haddr hroom none, exec_bar2Access_of_line hlen hin haddr hroom (some d)⟩

end Sys2Proof.Machine
end

section
/-! PROOFS. Obligation O52: a burst as it was written decodes as clean, and one wrong symbol is found and corrected. -/

namespace Sys2Proof.Machine

/-! ### Multiplication by powers of α (11 R319) -/

theorem gfStep_xor (a b : BitVec 10) : gfStep (a ^^^ b) = gfStep a ^^^ gfStep b := by
  have hcarry : ∀ x y : Bool, (if x ^^ y then 0x009 else 0 : BitVec 10) = (if x then 0x009 else 0) ^^^ (if y then 0x009 else 0) := by decide
  rw [gfStep, gfStep, gfStep, BitVec.shiftLeft_xor_distrib, BitVec.getLsbD_xor, hcarry]
  ac_rfl

theorem gfShift_eq_iterate (a : BitVec 10) (n : Nat) : gfShift a n = gfStep^[n] a := by
  induction n with
  | zero => rfl
  | succ n ih => rw [gfShift, ih, Function.iterate_succ_apply']

theorem gfShift_zero (n : Nat) : gfShift 0 n = 0 := by
  rw [gfShift_eq_iterate]
  exact Function.iterate_fixed (by decide) n

theorem gfShift_xor (a b : BitVec 10) (n : Nat) : gfShift (a ^^^ b) n = gfShift a n ^^^ gfShift b n := by
  induction n with
  | zero => rfl
  | succ n ih => rw [gfShift, ih, gfStep_xor, gfShift, gfShift]

theorem gfShift_gfShift (a : BitVec 10) (m n : Nat) : gfShift (gfShift a m) n = gfShift (gfShift a n) m := by
  simp only [gfShift_eq_iterate, ← Function.iterate_add_apply, Nat.add_comm]

/-! ### Products (11 R319) -/

theorem gfMulGo_gfShift (a b : BitVec 10) (m n : Nat) : gfMulGo (gfShift a m) b n = gfShift (gfMulGo a b n) m := by
  induction n with
  | zero => exact (gfShift_zero m).symm
  | succ n ih => cases hb : b.getLsbD n <;> simp [gfMulGo, hb, ih, gfShift_xor, gfShift_gfShift a m n]

theorem gfMulGo_xor (a a' b : BitVec 10) (n : Nat) : gfMulGo (a ^^^ a') b n = gfMulGo a b n ^^^ gfMulGo a' b n := by
  induction n with
  | zero => exact (BitVec.xor_self (x := 0)).symm
  | succ n ih =>
    cases hb : b.getLsbD n
    · simp [gfMulGo, hb, ih]
    · simp only [gfMulGo, hb, ih, gfShift_xor, if_true]
      ac_rfl

theorem getLsbD_gfMulGo_one (b : BitVec 10) {n : Nat} (hn : n ≤ 10) (i : Nat) :
    (gfMulGo 1 b n).getLsbD i = (decide (i < n) && b.getLsbD i) := by
  have hpow : ∀ n < 10, gfShift 1 n = BitVec.twoPow 10 n := by decide
  induction n with
  | zero => simp [gfMulGo]
  | succ n ih =>
    rw [gfMulGo, BitVec.getLsbD_xor, ih (by omega), hpow n hn]
    by_cases hin : i = n
    · subst hin
      cases b.getLsbD i <;> simp
      omega
    · have hlt : i < n + 1 ↔ i < n := by omega
      cases b.getLsbD n <;> simp [hlt, Ne.symm hin]

theorem gfMul_one_left (b : BitVec 10) : gfMul 1 b = b := by
  ext i hi
  rw [← BitVec.getLsbD_eq_getElem, gfMul, getLsbD_gfMulGo_one b le_rfl, decide_eq_true hi, Bool.true_and, BitVec.getLsbD_eq_getElem]

/-! ### The order of α -/

/-- α^1023 is 1, so as many steps lead back to every element. -/
theorem gfStep_iterate_order (v : BitVec 10) : gfStep^[1023] v = v := by
  have hone : gfShift 1 1023 = 1 := by decide +kernel
  calc gfStep^[1023] v = gfShift (gfMul 1 v) 1023 := by rw [gfMul_one_left, gfShift_eq_iterate]
    _ = gfMul (gfShift 1 1023) v := (gfMulGo_gfShift 1 v 1023 10).symm
    _ = v := by rw [hone, gfMul_one_left]

theorem gfStep_injective : Function.Injective gfStep :=
  Function.LeftInverse.injective (g := gfStep^[1022]) fun v => (Function.iterate_succ_apply gfStep 1022 v).symm.trans (gfStep_iterate_order v)

/-- No power of α between 1 and 28 fixes an element but 0: the period of such an element divides 1023 and is below 29, so it divides 33; but
α^33 + 1 has an inverse. -/
theorem eq_zero_of_gfStep_iterate_fixed {v : BitVec 10} {d : Nat} (hpos : 0 < d) (hlt : d < 29) (hfix : gfStep^[d] v = v) : v = 0 := by
  have hperiod : Function.minimalPeriod gfStep v ∣ 33 := by
    have hsmall : ∀ k < 29, k ∣ 1023 → k ∣ 33 := by decide
    have hle : Function.minimalPeriod gfStep v ≤ d := Function.IsPeriodicPt.minimalPeriod_le hpos hfix
    exact hsmall _ (by omega) (Function.IsPeriodicPt.minimalPeriod_dvd (gfStep_iterate_order v))
  have hfix33 : gfShift v 33 = v := (gfShift_eq_iterate v 33).trans (Function.isPeriodicPt_iff_minimalPeriod_dvd.mpr hperiod)
  have hunit : gfShift 855 33 ^^^ 855 = 1 := by decide
  have hsurj : Function.Surjective (fun x => gfShift x 33 ^^^ x) := by
    intro y
    refine ⟨gfMul 855 y, ?_⟩
    calc gfShift (gfMul 855 y) 33 ^^^ gfMul 855 y = gfMul (gfShift 855 33 ^^^ 855) y := by
          rw [gfMul, gfMul, gfMulGo_xor, gfMulGo_gfShift]
      _ = y := by rw [hunit, gfMul_one_left]
  apply Finite.injective_iff_surjective.mpr hsurj
  calc gfShift v 33 ^^^ v = 0 := by rw [hfix33]; exact BitVec.xor_self
    _ = gfShift 0 33 ^^^ 0 := by rw [gfShift_zero]; exact BitVec.xor_self.symm

/-- The 29 symbols of a code word have different powers of α as their locators. -/
theorem gfShift_ne_of_lt {v : BitVec 10} (hv : v ≠ 0) {p q : Nat} (hlt : q < p) (hp : p < 29) : gfShift v q ≠ gfShift v p := by
  intro h
  rw [gfShift_eq_iterate, gfShift_eq_iterate] at h
  have hfix : gfStep^[p - q] v = v := Function.iterate_cancel gfStep_injective h.symm
  exact hv (eq_zero_of_gfStep_iterate_fixed (Nat.sub_pos_of_lt hlt) (by omega) hfix)

/-! ### Bursts with one wrong symbol (11 R319; log 40) -/

/-- The lowest bit of a check or whole message symbol in a burst. -/
def symbolBit (p : Nat) : Nat := if p < 3 then 258 + 10 * p else 10 * (p - 3)

/-- The pattern of a burst in which symbol p alone came wrong, by v. -/
def symbolError (p : Nat) (v : BitVec 10) : BitVec 288 := setField 0 (symbolBit p) 10 v.toNat

theorem symbolBit_add_le {p : Nat} (hp : p < 28) : symbolBit p + 10 ≤ 288 := by
  unfold symbolBit
  split_ifs <;> omega

theorem symbolBit_disjoint {p q : Nat} (hp : p < 28) (hq : q < 28) (hne : q ≠ p) :
    symbolBit p + 10 ≤ symbolBit q ∨ symbolBit q + 10 ≤ symbolBit p := by
  unfold symbolBit
  split_ifs <;> omega

theorem burstSym_of_lt (e : BitVec 288) {q : Nat} (hq : q < 28) : burstSym e q = BitVec.ofNat 10 (field e (symbolBit q) 10) := by
  unfold burstSym symbolBit
  split_ifs <;> rfl

theorem setField_zero_setField {w : Nat} (lo n v : Nat) : setField (setField (0 : BitVec w) lo n v) lo n 0 = 0 := by
  ext j hj
  rw [← BitVec.getLsbD_eq_getElem, getLsbD_setField _ _ _ _ _ hj, getLsbD_setField _ _ _ _ _ hj]
  split_ifs <;> simp

theorem field_of_zero {w : Nat} (lo n : Nat) : field (0 : BitVec w) lo n = 0 := by
  simp [field]

theorem burstSym_zero (q : Nat) : burstSym 0 q = 0 := by
  simp only [burstSym, field_of_zero, ite_self]
  rfl

theorem burstSym_symbolError {p q : Nat} (hp : p < 28) (hq : q < 29) (v : BitVec 10) :
    burstSym (symbolError p v) q = if q = p then v else 0 := by
  rcases Nat.lt_or_eq_of_le (Nat.le_of_lt_succ hq) with hlt | rfl
  · rw [burstSym_of_lt _ hlt, symbolError]
    split_ifs with heq
    · subst heq
      rw [field_setField_self _ _ (symbolBit_add_le hp), Nat.mod_eq_of_lt v.isLt, BitVec.ofNat_toNat, BitVec.setWidth_eq]
    · rw [field_setField_disjoint _ _ (symbolBit_add_le hlt) (symbolBit_disjoint hp hlt heq), ← burstSym_of_lt _ hlt, burstSym_zero]
  · have hfield : field (symbolError p v) 250 8 = field (0 : BitVec 288) 250 8 := by
      apply field_setField_disjoint _ _ (by omega)
      unfold symbolBit
      split_ifs <;> omega
    calc burstSym (symbolError p v) 28 = burstSym 0 28 := congrArg (BitVec.ofNat 10) hfield
      _ = if 28 = p then v else 0 := by rw [burstSym_zero, if_neg hp.ne']

/-! ### Syndromes (11 R319) -/

/-- A sum over the symbols of which one alone is not zero. -/
theorem foldl_xor_range_single (p : Nat) (v : BitVec 10) (n : Nat) :
    (List.range n).foldl (fun a q => a ^^^ if q = p then v else 0) 0 = if p < n then v else 0 := by
  induction n with
  | zero => rfl
  | succ n ih =>
    rw [List.range_succ, List.foldl_append, ih, List.foldl_cons, List.foldl_nil]
    by_cases heq : n = p
    · simp [heq]
    · have hlt : p < n + 1 ↔ p < n := by omega
      simp [heq, hlt]

theorem syndrome_symbolError {p : Nat} (hp : p < 28) (v : BitVec 10) (r : Nat) : syndrome (symbolError p v) r = gfShift v (r * p) := by
  have hterm : ∀ q ∈ List.range 29, ∀ a : BitVec 10,
      a ^^^ gfShift (burstSym (symbolError p v) q) (r * q) = a ^^^ if q = p then gfShift v (r * p) else 0 := by
    intro q hq a
    rw [burstSym_symbolError hp (List.mem_range.mp hq)]
    split_ifs with heq
    · rw [heq]
    · rw [gfShift_zero]
  rw [syndrome, List.foldl_ext _ _ _ fun a q hq => hterm q hq a, foldl_xor_range_single, if_pos (by omega)]

/-! ### The decoder (11 R321) -/

theorem decodeBurst_zero : decodeBurst 0 = .clean 0 := by
  have hsynd (r : Nat) : syndrome 0 r = 0 := by
    simp only [syndrome, burstSym_zero, gfShift_zero]
    rfl
  simp only [decodeBurst, hsynd, and_self, if_true]

theorem find?_locator {v : BitVec 10} (hv : v ≠ 0) {p : Nat} (hp : p < 29) :
    (List.range 29).find? (fun q => gfShift v q == gfShift v p && gfShift v (2 * q) == gfShift v (2 * p)) = some p := by
  rw [List.find?_range_eq_some]
  refine ⟨by simp, List.mem_range.mpr hp, fun q hq => ?_⟩
  simp [gfShift_ne_of_lt hv hq hp]

/-- The first syndrome is the pattern of the wrong symbol and the other two locate it. -/
theorem decodeBurst_symbolError {p : Nat} (hp : p < 28) {v : BitVec 10} (hv : v ≠ 0) : decodeBurst (symbolError p v) = .corrected 0 := by
  have hs0 : syndrome (symbolError p v) 0 = v := by
    rw [syndrome_symbolError hp, Nat.zero_mul]
    rfl
  have hs1 : syndrome (symbolError p v) 1 = gfShift v p := by rw [syndrome_symbolError hp, Nat.one_mul]
  have hs2 : syndrome (symbolError p v) 2 = gfShift v (2 * p) := syndrome_symbolError hp v 2
  have hsym : burstSym (symbolError p v) p ^^^ v = 0 := by
    rw [burstSym_symbolError hp (by omega), if_pos rfl]
    exact BitVec.xor_self
  have hleft : setField (symbolError p v) (symbolBit p) 10 0 = 0 := setField_zero_setField _ _ _
  unfold symbolBit at hleft
  simp only [decodeBurst, hs0, hs1, hs2, hv, find?_locator hv (show p < 29 by omega), hsym, hp, false_and, if_false, if_true]
  split_ifs at hleft ⊢ <;> exact congrArg Decoded.corrected hleft

/-- Settles O52: a clean burst has no syndrome, and the locators of single symbols differ. -/
theorem singleSymbolCorrected : Obligations.SingleSymbolCorrected :=
  ⟨decodeBurst_zero, fun _ _ hp hv => decodeBurst_symbolError hp hv⟩

end Sys2Proof.Machine
end

section
/-! PROOFS. Obligation O51: requests, reads, guarded accesses and maintenance at the memory controllers. -/

namespace Sys2Proof.Machine

variable {s : State} {c b : Nat} {r : MemReq}

/-! ### What logging and self-refresh leave -/

theorem State.chan_log (s : State) (event cls func ukind unit status addr detail c : Nat) :
    (s.log event cls func ukind unit status addr detail).chan c = s.chan c := by
  obtain ⟨e, ho, hlog⟩ := s.log_only event cls func ukind unit status addr detail
  rw [hlog]
  rfl

/-- A channel that may have entered self-refresh keeps what Chan.sleep keeps (11 R329). -/
theorem State.chan_selfRefDue {α : Type} {get : Chan → α} (hsleep : ∀ k : Chan, get k.sleep = get k) (s : State) (c : Nat) :
    get ((s.selfRefDue c).chan c) = get (s.chan c) := by
  unfold State.selfRefDue
  split_ifs
  · rw [State.chan_updChan, hsleep]
  · rfl

/-! ### Arrival and choice (11 R312, R313) -/

theorem exec_memRequestArrive_of_room (hfirst : s.mem.reqs.find? (fun r => r.chan == c && r.stage == .inbound) = some r)
    (hphys : r.phys.isSome = true) (hfailed : (s.chan c).failed = false) (hself : (s.chan c).selfRef = false)
    (hreq : (s.chan c).ctl.getLsbD 1 = false) (hroom : (s.mem.reqs.filter (fun r => r.chan == c && r.stage != .inbound)).length < 128) :
    exec (.memRequestArrive c) s =
      .next (s.setReqs (updFirst (fun r => r.chan == c && r.stage == .inbound) (fun r => { r with stage := .queued }) s.mem.reqs)) := by
  have hexec : exec (.memRequestArrive c) s = execMemRequestArrive c s := rfl
  have hmapped : r.phys.isNone = false := by rw [← Option.not_isSome, hphys]; rfl
  simp only [hexec, execMemRequestArrive, hfirst, hmapped, hfailed, hself, hreq, decide_eq_false (Nat.not_le.mpr hroom), Bool.or_self,
    Bool.false_eq_true, if_false]

section Issue

variable (hruns : (s.chan c).runs = true) (hnext : s.nextReq c = some r)

include hruns hnext

theorem exec_dramIssue_write {w : Line × BitVec 64 × Bool} (hwr : r.wr = some w) (hguard : r.guard = false) :
    exec (.dramIssue c) s =
      let s1 := (s.serveBank c r).countServed c r.owner
      .next ((((s1.setReqs (dropFirst (fun q => q == r) s1.mem.reqs)).memWrite r.line w.1 w.2.1 w.2.2).updChan c
        (fun k => { k with lastWr := some ({ r with tries := 0 }, r.phys.getD 0) })).selfRefDue c) := by
  have hexec : exec (.dramIssue c) s = execDramIssue c s := rfl
  simp only [hexec, execDramIssue, hruns, hnext, hwr, hguard, Bool.not_true, Bool.false_eq_true, if_false]

theorem exec_dramIssue_read (hwr : r.wr = none) (hguard : r.guard = false) :
    exec (.dramIssue c) s =
      let s1 := (s.serveBank c r).countServed c r.owner
      .next ((s1.setReqs (updFirst (fun q => q == r) (fun q => { q with stage := .issued }) s1.mem.reqs)).selfRefDue c) := by
  have hexec : exec (.dramIssue c) s = execDramIssue c s := rfl
  simp only [hexec, execDramIssue, hruns, hnext, hwr, hguard, Bool.false_and, Bool.not_true, Bool.false_eq_true, if_false]

end Issue

/-! ### Clean bursts (11 R320, R321) -/

/-- A burst that comes as it was written, with TAG 0b00 or 0b01, is used as it is. -/
theorem burstResult_clean {tag : BitVec 2} (htag : tag.toNat < 2) : burstResult false tag 0 = some (0, tag) := by
  have hvalid : ¬(tag = 2 ∨ tag = 3) := by
    rintro (rfl | rfl) <;> exact absurd htag (by decide)
  have hkept : tag ^^^ (0 : BitVec 288).extractLsb' 256 2 = tag := by simp
  have hdata : (0 : BitVec 288).truncate 256 = 0 := by simp
  simp only [burstResult, decodeBurst_zero, hkept, hdata, hvalid, Bool.false_eq_true, if_false]

/-- Nothing is counted for a clean burst. -/
theorem State.countBurst_clean (s : State) (c owner line : Nat) (g : Geo) (sub : Nat) {tag : BitVec 2} (htag : tag.toNat < 2) :
    s.countBurst c owner line g sub false tag 0 = s := by
  simp only [State.countBurst, burstResult_clean htag, decodeBurst_zero, Option.isNone_some, Bool.false_eq_true, if_false]

/-! ### Reads and guarded accesses (11 R320, R321, R325) -/

theorem exec_memReadComplete_clean {l : Loc} {g : Geo}
    (hfirst : s.mem.reqs.find? (fun r => r.chan == c && r.stage == .issued && r.wr.isNone) = some r) (hgeo : s.reqGeo r = some (l, g))
    (hdead : s.deadBursts l = 0) (hbad : s.physOf l ∉ (s.chan c).badLines) (htag : (s.rawLine l).2.toNat < 2) :
    exec (.memReadComplete c 0 0) s =
      .next (((s.setReqs (dropFirst (fun r => r.chan == c && r.stage == .issued && r.wr.isNone) s.mem.reqs)).readDone r (s.rawLine l).1
        ((s.rawLine l).2 == 1)).selfRefDue c) := by
  have hexec : exec (.memReadComplete c 0 0) s = execMemReadComplete c 0 0 s := rfl
  have hlive : (0 : BitVec 2).getLsbD 0 = false ∧ (0 : BitVec 2).getLsbD 1 = false := by decide
  have hlisted : (s.chan c).badLines.contains (s.physOf l) = false := by simpa using hbad
  have hdata : (s.rawLine l).1 ^^^ ((0 : BitVec 256).zeroExtend 512 ||| (0 : BitVec 256).zeroExtend 512 <<< 256) = (s.rawLine l).1 := by simp
  simp only [hexec, execMemReadComplete, hfirst, hgeo, hdead, hlive, hlisted, burstResult_clean htag, State.countBurst_clean _ _ _ _ _ _ htag,
    hdata, Bool.or_self, Bool.false_eq_true, if_false]

theorem exec_guardWrite_of_locked {w : Line × BitVec 64 × Bool}
    (hfirst : s.mem.reqs.find? (fun r => r.chan == c && r.stage == .issued && r.guard && r.wr.isSome) = some r) (hwr : r.wr = some w) :
    exec (.guardWrite c) s =
      .next (((((s.setReqs (dropFirst (fun r => r.chan == c && r.stage == .issued && r.guard && r.wr.isSome) s.mem.reqs)).memWrite
        r.line w.1 w.2.1 w.2.2).setLock r false).updChan c
          (fun k => { k with lastWr := some ({ r with tries := 0 }, r.phys.getD 0) })).selfRefDue c) := by
  have hexec : exec (.guardWrite c) s = execGuardWrite c s := rfl
  simp only [hexec, execGuardWrite, hfirst, hwr]

/-- The half of sub-channel 0 is rebuilt where its burst alone came uncorrectable. -/
theorem exec_guardRebuild_of_read {l : Loc} {g : Geo} {x : Line × BitVec 2}
    (hfirst : s.mem.reqs.find? (fun r => r.chan == c && r.stage == .rebuild) = some r) (hgeo : s.reqGeo r = some (l, g)) (hhalf : r.bad = 1)
    (hrebuilt : s.rebuildLine l (byteMask 0 32) = some x) :
    exec (.guardRebuild c false) s =
      .next ((((((s.setReqs (dropFirst (fun r => r.chan == c && r.stage == .rebuild) s.mem.reqs)).setLock r false).updChan c
        (fun k => { k with rebuilds := k.rebuilds + 1 })).log 0x24 0 r.owner 2 c 0 (64 * r.line) (memDetail c g 0 0)).readDone r
          (mergeLine r.got x.1 (byteMask 0 32)) (x.2 == 1)).selfRefDue c) := by
  have hexec : exec (.guardRebuild c false) s = execGuardRebuild c false s := rfl
  have hbits : (1 : BitVec 2).getLsbD 0 = true ∧ (1 : BitVec 2).getLsbD 1 = false := by decide
  have hmask : byteMask 0 32 ||| 0 = byteMask 0 32 := BitVec.or_zero
  simp only [hexec, execGuardRebuild, hfirst, hgeo, hhalf, hbits, hmask, hrebuilt, Bool.false_eq_true, if_false, if_true]

/-! ### Maintenance (11 R314, R317, R323, R327, R328) -/

section Idle

/-- No request is queued for bank b of channel c. -/
def State.bankFree (s : State) (c b : Nat) : Prop := ∀ q ∈ s.mem.reqs, ¬(q.chan = c ∧ q.stage = .queued ∧ (s.reqRow q).1 = b)

theorem State.any_queued_of_bankFree (hfree : s.bankFree c b) :
    s.mem.reqs.any (fun q => q.chan == c && q.stage == .queued && (s.reqRow q).1 == b) = false := by
  simpa [State.bankFree, List.any_eq_false] using hfree

variable (hfree : s.bankFree c b)

include hfree

theorem exec_refresh_of_bankFree (hruns : (s.chan c).runs = true) : ∃ u, exec (.refresh c b) s = .next u ∧
    ((u.chan c).banks.getD b {}).openRow = none ∧ ((u.chan c).banks.getD b {}).postponed = 0 := by
  have hexec : exec (.refresh c b) s = .next (s.updChan c (fun x => { x with
      banks := x.banks.set b { (s.chan c).banks.getD b {} with openRow := none, streak := 0, postponed := 0 } })) := by
    have hrefresh : exec (.refresh c b) s = execRefresh c b s := rfl
    simp only [hrefresh, execRefresh, hruns, State.any_queued_of_bankFree hfree, Bool.not_true, Bool.false_and, Bool.false_eq_true, if_false]
  refine ⟨_, hexec, ?_⟩
  rw [State.chan_updChan, Tab.getD_set_self]
  exact ⟨rfl, rfl⟩

theorem exec_idlePrecharge_of_bankFree : ∃ u, exec (.idlePrecharge c b) s = .next u ∧ ((u.chan c).banks.getD b {}).openRow = none := by
  have hexec : exec (.idlePrecharge c b) s = .next (s.updChan c (fun x => { x with
      banks := x.banks.upd b {} (fun k => { k with openRow := none, streak := 0 }) })) := by
    have hprecharge : exec (.idlePrecharge c b) s = execIdlePrecharge c b s := rfl
    simp only [hprecharge, execIdlePrecharge, State.any_queued_of_bankFree hfree, Bool.false_eq_true, if_false]
  refine ⟨_, hexec, ?_⟩
  rw [State.chan_updChan, Tab.getD_upd_self]

end Idle

/-- A clean read of the scrubber moves it on and counts no error. -/
theorem exec_scrub_clean (hruns : (s.chan c).runs = true) (hscrub : (s.chan c).ctl.getLsbD 9 = true) (hdie : (s.chan c).dieFail = 0) :
    ∃ u, exec (.scrub c 0 0) s = .next u ∧
      (u.chan c).scrubAt = (if (s.module (c / 8)).gib * 2 ^ 21 ≤ (s.chan c).scrubAt + 1 then 0 else (s.chan c).scrubAt + 1) ∧
      (u.chan c).ce = (s.chan c).ce ∧ (u.chan c).ue = (s.chan c).ue := by
  have hlive (i : Nat) : (0 : BitVec 4).getLsbD i = false := BitVec.getLsbD_zero
  have hclean (sub : Nat) (g : Geo) : s.countBurst c 0x7F 0 g sub false 0 0 = s := s.countBurst_clean c 0x7F 0 g sub (by decide)
  have hexec : ∃ f : Chan → Chan, exec (.scrub c 0 0) s = .next (s.updChan c f) ∧
      (f (s.chan c)).scrubAt = (if (s.module (c / 8)).gib * 2 ^ 21 ≤ (s.chan c).scrubAt + 1 then 0 else (s.chan c).scrubAt + 1) ∧
      (f (s.chan c)).ce = (s.chan c).ce ∧ (f (s.chan c)).ue = (s.chan c).ue := by
    have hscr : exec (.scrub c 0 0) s = execScrub c 0 0 s := rfl
    simp only [hscr, execScrub, hruns, hscrub, hdie, hlive, hclean, Bool.not_true, Bool.or_self, Bool.false_eq_true, if_false, decide_eq_true_eq]
    exact ⟨_, rfl, rfl, rfl, rfl⟩
  obtain ⟨f, hf, hfields⟩ := hexec
  exact ⟨_, hf, by rwa [State.chan_updChan]⟩

theorem exec_retrainStep_of_goal {eye : Nat} (ok : Bool) (hruns : (s.chan c).runs = true) (hgoal : s.rel.eyeGoal.getD c 0 ≤ eye) :
    exec (.retrainStep c eye ok) s = .next { s with rel := { s.rel with eye := s.rel.eye.set c eye } } := by
  have hexec : exec (.retrainStep c eye ok) s = execRetrainStep c eye ok s := rfl
  simp only [hexec, execRetrainStep, hruns, hgoal, Bool.not_true, Bool.false_eq_true, if_false, if_true]

/-! ### Writes reported failed (11 R322) -/

section WriteError

variable {p : Nat} (hlast : (s.chan c).lastWr = some (r, p))

include hlast

theorem exec_dramWriteError_repeats (htries : r.tries < 2) : exec (.dramWriteError c true) s =
    .next ((s.updChan c (fun k => { k with lastWr := some ({ r with tries := r.tries + 1 }, p) })).selfRefDue c) := by
  have hexec : exec (.dramWriteError c true) s = execDramWriteError c true s := rfl
  simp only [hexec, execDramWriteError, hlast, htries, if_true]

theorem exec_dramWriteError_lists (htries : 2 ≤ r.tries) (hnew : p ∉ (s.chan c).badLines) (hroom : (s.chan c).badLines.length < 64) :
    ∃ u, exec (.dramWriteError c true) s = .next u ∧ (u.chan c).badLines = p :: (s.chan c).badLines ∧ (u.chan c).lastWr = none := by
  have hcontains : (s.chan c).badLines.contains p = false := by simpa using hnew
  have hexec : ∃ det, exec (.dramWriteError c true) s =
      .next ((((s.updChan c (fun k => { k with lastWr := none })).updChan c (fun k => { k with badLines := p :: k.badLines })).log
        0x23 2 r.owner 2 c 0 (64 * r.line) det).selfRefDue c) := by
    have herr : exec (.dramWriteError c true) s = execDramWriteError c true s := rfl
    simp only [herr, execDramWriteError, hlast, Nat.not_lt.mpr htries, hcontains, Nat.not_le.mpr hroom, Bool.false_eq_true, if_false, if_true]
    exact ⟨_, rfl⟩
  obtain ⟨det, hexec⟩ := hexec
  refine ⟨_, hexec, ?_, ?_⟩
  · rw [State.chan_selfRefDue (get := Chan.badLines) fun _ => rfl, State.chan_log, State.chan_updChan, State.chan_updChan]
  · rw [State.chan_selfRefDue (get := Chan.lastWr) fun _ => rfl, State.chan_log, State.chan_updChan, State.chan_updChan]

end WriteError

/-- Settles O51, command by command, with the rules above. -/
theorem memoryCommands : Obligations.MemoryCommands := by
  intro s c b r first arriving reading guarded rebuilding free
  exact ⟨exec_memRequestArrive_of_room,
    fun hruns hnext => ⟨fun w => exec_dramIssue_write hruns hnext, exec_dramIssue_read hruns hnext⟩,
    fun l g => exec_memReadComplete_clean,
    fun w => exec_guardWrite_of_locked,
    fun l g x => exec_guardRebuild_of_read,
    exec_refresh_of_bankFree,
    exec_idlePrecharge_of_bankFree,
    exec_scrub_clean,
    fun eye ok hruns hgoal => ⟨_, exec_retrainStep_of_goal ok hruns hgoal, Tab.getD_set_self _ _ _ _, rfl⟩,
    fun p => rfl,
    fun p hlast => ⟨exec_dramWriteError_repeats hlast, exec_dramWriteError_lists hlast⟩⟩

end Sys2Proof.Machine
end

section
/-! PROOFS. Obligations O3 to O6: what holds of the device through every command. -/

namespace Sys2Proof.Machine

/-- Every command keeps what Keeps names, one law for the meaning of each. -/
theorem exec_keeps {ini s out : State} {i : Instr} (e : exec i s = .next out) (hs : Keeps ini s) : Keeps ini out := by
  unfold exec at e
  cases i with
  | doorbell => exact execDoorbell_keeps e hs
  | submissionFetch => exact execSubmissionFetch_keeps e hs
  | ownRecheck => exact execOwnRecheck_keeps e hs
  | delayedStart => exact execDelayedStart_keeps e hs
  | delayTimeout => exact execDelayTimeout_keeps e hs
  | nop => exact execNop_keeps e hs
  | queryRun => exact execQueryRun_keeps e hs
  | queryCancel => exact execQueryCancel_keeps e hs
  | columnWrite => exact execColumnWrite_keeps e hs
  | columnAppend => exact execColumnAppend_keeps e hs
  | columnRead => exact execColumnRead_keeps e hs
  | flush => exact execFlush_keeps e hs
  | dmaCopy => exact execDmaCopy_keeps e hs
  | compress => exact execCompress_keeps e hs
  | decompress => exact execDecompress_keeps e hs
  | digest => exact execDigest_keeps e hs
  | extentReturn => exact execExtentReturn_keeps e hs
  | completionWrite => exact execCompletionWrite_keeps e hs
  | completionRecheck => exact execCompletionRecheck_keeps e hs
  | coalesceExpiry => exact execCoalesceExpiry_keeps e hs
  | msixUnmask => exact execMsixUnmask_keeps e hs
  | pipelineExpand => exact execPipelineExpand_keeps e hs
  | expansionResume => exact execExpansionResume_keeps e hs
  | refill => exact execRefill_keeps e hs
  | waittask => exact execWaittask_keeps e hs
  | taskAssign => exact execTaskAssign_keeps e hs
  | waittaskTimeout => exact execWaittaskTimeout_keeps e hs
  | dispDone => exact execDispDone_keeps e hs
  | dispFailed => exact execDispFailed_keeps e hs
  | dispCancelled => exact execDispCancelled_keeps e hs
  | dispYield => exact execDispYield_keeps e hs
  | pipArrive => exact execPipArrive_keeps e hs
  | eventPulse => exact execEventPulse_keeps e hs
  | dspFlagalloc => exact execDspFlagalloc_keeps e hs
  | dspFlagset => exact execDspFlagset_keeps e hs
  | tileRebind => exact execTileRebind_keeps e hs
  | tileLend => exact execTileLend_keeps e hs
  | tileReclaim => exact execTileReclaim_keeps e hs
  | bindAck => exact execBindAck_keeps e hs
  | bindAckTimeout => exact execBindAckTimeout_keeps e hs
  | start => exact execStart_keeps e hs
  | strokePass => exact execStrokePass_keeps e hs
  | runEnd => exact execRunEnd_keeps e hs
  | stkAbort => exact execStkAbort_keeps e hs
  | resetEst => exact execResetEst_keeps e hs
  | blotterRelease => exact execBlotterRelease_keeps e hs
  | scan => exact execScan_keeps e hs
  | filter => exact execFilter_keeps e hs
  | project => exact execProject_keeps e hs
  | compute => exact execCompute_keeps e hs
  | hashBuild => exact execHashBuild_keeps e hs
  | hashProbe => exact execHashProbe_keeps e hs
  | aggHash => exact execAggHash_keeps e hs
  | aggPlane => exact execAggPlane_keeps e hs
  | sortRadix => exact execSortRadix_keeps e hs
  | merge => exact execMerge_keeps e hs
  | topk => exact execTopk_keeps e hs
  | limit => exact execLimit_keeps e hs
  | exchange => exact execExchange_keeps e hs
  | opCompress => exact execOpCompress_keeps e hs
  | opDecompress => exact execOpDecompress_keeps e hs
  | opDigest => exact execOpDigest_keeps e hs
  | lookupBramble => exact execLookupBramble_keeps e hs
  | emit => exact execEmit_keeps e hs
  | indexTask => exact execIndexTask_keeps e hs
  | finalisationTask => exact execFinalisationTask_keeps e hs
  | spillSubpartition => exact execSpillSubpartition_keeps e hs
  | add => exact execAdd_keeps e hs
  | sub => exact execSub_keeps e hs
  | and => exact execAnd_keeps e hs
  | or => exact execOr_keeps e hs
  | xor => exact execXor_keeps e hs
  | sll => exact execSll_keeps e hs
  | srl => exact execSrl_keeps e hs
  | sra => exact execSra_keeps e hs
  | slt => exact execSlt_keeps e hs
  | sltu => exact execSltu_keeps e hs
  | min => exact execMin_keeps e hs
  | max => exact execMax_keeps e hs
  | minu => exact execMinu_keeps e hs
  | maxu => exact execMaxu_keeps e hs
  | clz => exact execClz_keeps e hs
  | ctz => exact execCtz_keeps e hs
  | popc => exact execPopc_keeps e hs
  | addw => exact execAddw_keeps e hs
  | subw => exact execSubw_keeps e hs
  | nibget => exact execNibget_keeps e hs
  | jr => exact execJr_keeps e hs
  | jalr => exact execJalr_keeps e hs
  | mul => exact execMul_keeps e hs
  | mulh => exact execMulh_keeps e hs
  | mulhu => exact execMulhu_keeps e hs
  | div => exact execDiv_keeps e hs
  | divu => exact execDivu_keeps e hs
  | rem => exact execRem_keeps e hs
  | remu => exact execRemu_keeps e hs
  | addi => exact execAddi_keeps e hs
  | andi => exact execAndi_keeps e hs
  | ori => exact execOri_keeps e hs
  | xori => exact execXori_keeps e hs
  | slti => exact execSlti_keeps e hs
  | sltiu => exact execSltiu_keeps e hs
  | lui => exact execLui_keeps e hs
  | slli => exact execSlli_keeps e hs
  | srli => exact execSrli_keeps e hs
  | srai => exact execSrai_keeps e hs
  | ld => exact execLd_keeps e hs
  | st => exact execSt_keeps e hs
  | fadd => exact execFadd_keeps e hs
  | umin => exact execUmin_keeps e hs
  | umax => exact execUmax_keeps e hs
  | nadd => exact execNadd_keeps e hs
  | cas => exact execCas_keeps e hs
  | cachePf => exact execCachePf_keeps e hs
  | cacheClean => exact execCacheClean_keeps e hs
  | cacheCleaninv => exact execCacheCleaninv_keeps e hs
  | cacheInv => exact execCacheInv_keeps e hs
  | br => exact execBr_keeps e hs
  | call => exact execCall_keeps e hs
  | beqz => exact execBeqz_keeps e hs
  | bnez => exact execBnez_keeps e hs
  | bltz => exact execBltz_keeps e hs
  | bgez => exact execBgez_keeps e hs
  | bgtz => exact execBgtz_keeps e hs
  | blez => exact execBlez_keeps e hs
  | mfcr => exact execMfcr_keeps e hs
  | mtcr => exact execMtcr_keeps e hs
  | setcr => exact execSetcr_keeps e hs
  | clrcr => exact execClrcr_keeps e hs
  | syscall => exact execSyscall_keeps e hs
  | rfe => exact execRfe_keeps e hs
  | fence => exact execFence_keeps e hs
  | isync => exact execIsync_keeps e hs
  | interrupt => exact execInterrupt_keeps e hs
  | setvl => exact execSetvl_keeps e hs
  | vadd => exact execVadd_keeps e hs
  | vsub => exact execVsub_keeps e hs
  | vand => exact execVand_keeps e hs
  | vor => exact execVor_keeps e hs
  | vxor => exact execVxor_keeps e hs
  | vsll => exact execVsll_keeps e hs
  | vsrl => exact execVsrl_keeps e hs
  | vsra => exact execVsra_keeps e hs
  | vmin => exact execVmin_keeps e hs
  | vmax => exact execVmax_keeps e hs
  | vminu => exact execVminu_keeps e hs
  | vmaxu => exact execVmaxu_keeps e hs
  | vmul => exact execVmul_keeps e hs
  | vmulh => exact execVmulh_keeps e hs
  | vmulhu => exact execVmulhu_keeps e hs
  | vmv => exact execVmv_keeps e hs
  | vcmpeq => exact execVcmpeq_keeps e hs
  | vcmpne => exact execVcmpne_keeps e hs
  | vcmplt => exact execVcmplt_keeps e hs
  | vcmpltu => exact execVcmpltu_keeps e hs
  | vcmple => exact execVcmple_keeps e hs
  | vcmpleu => exact execVcmpleu_keeps e hs
  | vcmpgt => exact execVcmpgt_keeps e hs
  | vcmpgtu => exact execVcmpgtu_keeps e hs
  | vcmpge => exact execVcmpge_keeps e hs
  | vcmpgeu => exact execVcmpgeu_keeps e hs
  | vwmul => exact execVwmul_keeps e hs
  | vwcvt => exact execVwcvt_keeps e hs
  | ndot => exact execNdot_keeps e hs
  | bdot => exact execBdot_keeps e hs
  | vext => exact execVext_keeps e hs
  | vextu => exact execVextu_keeps e hs
  | vins => exact execVins_keeps e hs
  | vcompress => exact execVcompress_keeps e hs
  | vpopm => exact execVpopm_keeps e hs
  | vfirstm => exact execVfirstm_keeps e hs
  | vredsum => exact execVredsum_keeps e hs
  | vredsumu => exact execVredsumu_keeps e hs
  | vredmin => exact execVredmin_keeps e hs
  | vredmax => exact execVredmax_keeps e hs
  | vredminu => exact execVredminu_keeps e hs
  | vredmaxu => exact execVredmaxu_keeps e hs
  | vld => exact execVld_keeps e hs
  | vst => exact execVst_keeps e hs
  | bpclr => exact execBpclr_keeps e hs
  | rangeGo => exact execRangeGo_keeps e hs
  | dis => exact execDis_keeps e hs
  | idis => exact execIdis_keeps e hs
  | rdS => exact execRdS_keeps e hs
  | rdH => exact execRdH_keeps e hs
  | rdX => exact execRdX_keeps e hs
  | upg => exact execUpg_keeps e hs
  | rdOnce => exact execRdOnce_keeps e hs
  | ioRd => exact execIoRd_keeps e hs
  | ioWr => exact execIoWr_keeps e hs
  | homeQueueStart => exact execHomeQueueStart_keeps e hs
  | fwdS => exact execFwdS_keeps e hs
  | fwdX => exact execFwdX_keeps e hs
  | fwdOnce => exact execFwdOnce_keeps e hs
  | inv => exact execInv_keeps e hs
  | gnt => exact execGnt_keeps e hs
  | data => exact execData_keeps e hs
  | fack => exact execFack_keeps e hs
  | noline => exact execNoline_keeps e hs
  | invack => exact execInvack_keeps e hs
  | wbdata => exact execWbdata_keeps e hs
  | cmpAck => exact execCmpAck_keeps e hs
  | wback => exact execWback_keeps e hs
  | decline => exact execDecline_keeps e hs
  | nack => exact execNack_keeps e hs
  | nackRetry => exact execNackRetry_keeps e hs
  | iodone => exact execIodone_keeps e hs
  | wbDirty => exact execWbDirty_keeps e hs
  | victClean => exact execVictClean_keeps e hs
  | victDrop => exact execVictDrop_keeps e hs
  | fenceTimeout => exact execFenceTimeout_keeps e hs
  | fenceMessage => exact execFenceMessage_keeps e hs
  | fenceScan => exact execFenceScan_keeps e hs
  | snpData => exact execSnpData_keeps e hs
  | snpInv => exact execSnpInv_keeps e hs
  | snpCur => exact execSnpCur_keeps e hs
  | go => exact execGo_keeps e hs
  | hostResponse => exact execHostResponse_keeps e hs
  | bisnpResponse => exact execBisnpResponse_keeps e hs
  | memRd => exact execMemRd_keeps e hs
  | memRdData => exact execMemRdData_keeps e hs
  | memWr => exact execMemWr_keeps e hs
  | memWrPtl => exact execMemWrPtl_keeps e hs
  | bar2Access => exact execBar2Access_keeps e hs
  | bar0InvalidAccess => exact execBar0InvalidAccess_keeps e hs
  | memRequestArrive => exact execMemRequestArrive_keeps e hs
  | dramIssue => exact execDramIssue_keeps e hs
  | memReadComplete => exact execMemReadComplete_keeps e hs
  | guardWrite => exact execGuardWrite_keeps e hs
  | guardRebuild => exact execGuardRebuild_keeps e hs
  | refresh => exact execRefresh_keeps e hs
  | idlePrecharge => exact execIdlePrecharge_keeps e hs
  | scrub => exact execScrub_keeps e hs
  | retrainStep => exact execRetrainStep_keeps e hs
  | panicChange => exact execPanicChange_keeps e hs
  | cmpSubmit => exact execCmpSubmit_keeps e hs
  | cmpAbort => exact execCmpAbort_keeps e hs
  | cmpJobStart => exact execCmpJobStart_keeps e hs
  | cmpJobEnd => exact execCmpJobEnd_keeps e hs
  | cmpAssign => exact execCmpAssign_keeps e hs
  | brmFind => exact execBrmFind_keeps e hs
  | brmVec => exact execBrmVec_keeps e hs
  | brmSubmit => exact execBrmSubmit_keeps e hs
  | brmJobStart => exact execBrmJobStart_keeps e hs
  | brmJobEnd => exact execBrmJobEnd_keeps e hs
  | brambleUpdateStep => exact execBrambleUpdateStep_keeps e hs
  | bramblePowerEval => exact execBramblePowerEval_keeps e hs
  | cadenceClock => exact execCadenceClock_keeps e hs
  | syncExchange => exact execSyncExchange_keeps e hs
  | syncReq => exact execSyncReq_keeps e hs
  | syncRsp => exact execSyncRsp_keeps e hs
  | cadenceSteer => exact execCadenceSteer_keeps e hs
  | ptmDialogue => exact execPtmDialogue_keeps e hs
  | cadArm => exact execCadArm_keeps e hs
  | cadDisarm => exact execCadDisarm_keeps e hs
  | actionDue => exact execActionDue_keeps e hs
  | actionReady => exact execActionReady_keeps e hs
  | actionTimeout => exact execActionTimeout_keeps e hs
  | triggerPulse => exact execTriggerPulse_keeps e hs
  | idle => exact execIdle_keeps e hs
  | dataFlit => exact execDataFlit_keeps e hs
  | sack => exact execSack_keeps e hs
  | abort => exact execAbort_keeps e hs
  | linkAck => exact execLinkAck_keeps e hs
  | nak => exact execNak_keeps e hs
  | hello => exact execHello_keeps e hs
  | replayTimeout => exact execReplayTimeout_keeps e hs
  | laneFail => exact execLaneFail_keeps e hs
  | laneRetrainComplete => exact execLaneRetrainComplete_keeps e hs
  | portDown => exact execPortDown_keeps e hs
  | retrain => exact execRetrain_keeps e hs
  | cablePresent => exact execCablePresent_keeps e hs
  | cmisRead => exact execCmisRead_keeps e hs
  | trainComplete => exact execTrainComplete_keeps e hs
  | roundDeadline => exact execRoundDeadline_keeps e hs
  | perst => exact execPerst_keeps e hs
  | hotReset => exact execHotReset_keeps e hs
  | linkDown => exact execLinkDown_keeps e hs
  | pfFlr => exact execPfFlr_keeps e hs
  | vfFlr => exact execVfFlr_keeps e hs
  | vfEnableClear => exact execVfEnableClear_keeps e hs
  | mbDoorbell => exact execMbDoorbell_keeps e hs
  | mailboxTake => exact execMailboxTake_keeps e hs
  | devInfo => exact execDevInfo_keeps e hs
  | capQueryPage => exact execCapQueryPage_keeps e hs
  | capQueryEntitlement => exact execCapQueryEntitlement_keeps e hs
  | queueCreate => exact execQueueCreate_keeps e hs
  | queueDelete => exact execQueueDelete_keeps e hs
  | pipeLoad => exact execPipeLoad_keeps e hs
  | pipeUnload => exact execPipeUnload_keeps e hs
  | brambleLoad => exact execBrambleLoad_keeps e hs
  | tenantCreate => exact execTenantCreate_keeps e hs
  | qosSet => exact execQosSet_keeps e hs
  | quiesceDrain => exact execQuiesceDrain_keeps e hs
  | quiesceCancel => exact execQuiesceCancel_keeps e hs
  | quiesceResume => exact execQuiesceResume_keeps e hs
  | quiesceBound => exact execQuiesceBound_keeps e hs
  | quiesceComplete => exact execQuiesceComplete_keeps e hs
  | tenantReset => exact execTenantReset_keeps e hs
  | tenantDestroy => exact execTenantDestroy_keeps e hs
  | wipeEnd => exact execWipeEnd_keeps e hs
  | migrateLogStart => exact execMigrateLogStart_keeps e hs
  | migrateLogStop => exact execMigrateLogStop_keeps e hs
  | timeAlignRead => exact execTimeAlignRead_keeps e hs
  | timeAlignPriority => exact execTimeAlignPriority_keeps e hs
  | hostSteeringOn => exact execHostSteeringOn_keeps e hs
  | hostSteeringOff => exact execHostSteeringOff_keeps e hs
  | krelorSet => exact execKrelorSet_keeps e hs
  | fwUpdateBegin => exact execFwUpdateBegin_keeps e hs
  | fwUpdateChunk => exact execFwUpdateChunk_keeps e hs
  | fwUpdateCommit => exact execFwUpdateCommit_keeps e hs
  | updateReboot => exact execUpdateReboot_keeps e hs
  | healthConfirm => exact execHealthConfirm_keeps e hs
  | confirmTimeout => exact execConfirmTimeout_keeps e hs
  | updateTimeout => exact execUpdateTimeout_keeps e hs
  | lifecycleSet => exact execLifecycleSet_keeps e hs
  | lifecycleWipeEnd => exact execLifecycleWipeEnd_keeps e hs
  | healthReport => exact execHealthReport_keeps e hs
  | marginReport => exact execMarginReport_keeps e hs
  | errlogRead => exact execErrlogRead_keeps e hs
  | dmaLoad => exact execDmaLoad_keeps e hs
  | dmaAbort => exact execDmaAbort_keeps e hs
  | shadowCurrent => exact execShadowCurrent_keeps e hs
  | dmaDescriptor => exact execDmaDescriptor_keeps e hs
  | busError => exact execBusError_keeps e hs
  | transferEnd => exact execTransferEnd_keeps e hs
  | dgsOpen => exact execDgsOpen_keeps e hs
  | dgsClose => exact execDgsClose_keeps e hs
  | dgsSuspend => exact execDgsSuspend_keeps e hs
  | suspendSave => exact execSuspendSave_keeps e hs
  | contextQuantum => exact execContextQuantum_keeps e hs
  | keyWrite => exact execKeyWrite_keeps e hs
  | keyErase => exact execKeyErase_keeps e hs
  | powerGood => exact execPowerGood_keeps e hs
  | railRampTimeout => exact execRailRampTimeout_keeps e hs
  | rampRetry => exact execRampRetry_keeps e hs
  | overVoltage => exact execOverVoltage_keeps e hs
  | underVoltage => exact execUnderVoltage_keeps e hs
  | pwrgdLow => exact execPwrgdLow_keeps e hs
  | thermalTrip => exact execThermalTrip_keeps e hs
  | powerSample => exact execPowerSample_keeps e hs
  | thermalEval => exact execThermalEval_keeps e hs
  | sagFire => exact execSagFire_keeps e hs
  | sagRecovery => exact execSagRecovery_keeps e hs
  | refLoss => exact execRefLoss_keeps e hs
  | refReturn => exact execRefReturn_keeps e hs
  | refTimeout => exact execRefTimeout_keeps e hs
  | a1Entry => exact execA1Entry_keeps e hs
  | a2Entry => exact execA2Entry_keeps e hs
  | a3Entry => exact execA3Entry_keeps e hs
  | powerStateExit => exact execPowerStateExit_keeps e hs
  | moduleColdReset => exact execModuleColdReset_keeps e hs
  | moduleWarmReset => exact execModuleWarmReset_keeps e hs
  | pwrRstWarm => exact execPwrRstWarm_keeps e hs
  | tileReturn => exact execTileReturn_keeps e hs
  | sliceFault => exact execSliceFault_keeps e hs
  | sliceRemoval => exact execSliceRemoval_keeps e hs
  | sliceFlush => exact execSliceFlush_keeps e hs
  | moduleLoss => exact execModuleLoss_keeps e hs
  | phaseShed => exact execPhaseShed_keeps e hs
  | watchdogExpiry => exact execWatchdogExpiry_keeps e hs
  | ageingMeasure => exact execAgeingMeasure_keeps e hs
  | marginReplan => exact execMarginReplan_keeps e hs
  | pwrMarginReplan => exact execPwrMarginReplan_keeps e hs
  | hubSensorRead => exact execHubSensorRead_keeps e hs
  | i3cRead => exact execI3cRead_keeps e hs
  | registerWrite => exact execRegisterWrite_keeps e hs
  | illegal => exact execIllegal_keeps e hs
  | spdmRequest => exact execSpdmRequest_keeps e hs
  | linkUp => exact execLinkUp_keeps e hs
  | dramWriteError => exact execDramWriteError_keeps e hs
  | debugPortOpen => exact execDebugPortOpen_keeps e hs
  | shutdownRestart => exact execShutdownRestart_keeps e hs
/-- Every command's meaning is a next state: none stops the machine. -/
theorem exec_completes (i : Instr) (s : State) : Completes (exec i s) := by
  cases i <;> exact ⟨_, rfl⟩

/-- A step keeps what its command keeps, beside the queue from which it takes that command. -/
theorem step_keeps {s t : State} (h : step s = .next t) : Keeps { s with pending := s.pending.tail } t := by
  cases hp : s.pending with
  | nil =>
    obtain rfl := Host.Outcome.next.inj ((step_of_pending_nil hp).symm.trans h)
    rw [List.tail_nil, ← hp]
    exact Keeps.refl _
  | cons c r => exact exec_keeps ((step_of_pending_cons hp).symm.trans h) (Keeps.refl _)

/-- What a command leaves from a state that meets the invariant meets it. -/
theorem State.Inv.of_keeps {s t : State} (hi : s.Inv) (h : Keeps s t) : t.Inv :=
  ⟨h.mem hi.mem, h.host hi.host, h.errlog hi.errlog, h.pw hi.level⟩

/-- The queue is no part of the invariant. -/
theorem State.Inv.setPending {s : State} (hi : s.Inv) (r : List Instr) : State.Inv { s with pending := r } :=
  ⟨hi.mem, hi.host, hi.errlog, hi.level⟩

/-- Settles O3: memory, host memory and the log are empty at reset, and the sag level is L_min. -/
theorem invariantAtReset : Obligations.InvariantAtReset :=
  ⟨Memory.wf_nil, Memory.wf_nil, ⟨Nat.zero_le _, Nat.zero_le _⟩, le_rfl, Nat.zero_le _⟩

/-- Settles O4: the step keeps each part of the invariant. -/
theorem stepKeepsInvariant : Obligations.StepKeepsInvariant :=
  fun _ _ hi h => (hi.setPending _).of_keeps (step_keeps h)

/-- Settles O5: what a step keeps of flash and fuses. -/
theorem fusesOnlyMoveForward : Obligations.FusesOnlyMoveForward :=
  fun _ _ h => (step_keeps h).nv

/-- Settles O6: a command completes, and keeps the queue, the part and the draws. -/
theorem commandsCompleteAndKeepQueueAndPart : Obligations.CommandsCompleteAndKeepQueueAndPart := by
  intro i s
  obtain ⟨t, h⟩ := exec_completes i s
  have hk : Keeps s t := exec_keeps h (Keeps.refl s)
  exact ⟨t, h, hk.pending, hk.part, hk.drawn⟩

end Sys2Proof.Machine
end

section
/-! PROOFS. Obligations O29 (doorbells and fetches) and O31 (a command that ends outside a batch). -/

namespace Sys2Proof.Machine

variable {s : State} {f q : Nat} {x : QPair}

/-! ### Queue pairs -/

theorem State.pair_updPair (h : s.pair f q = some x) (g : QPair → QPair) : (s.updPair f q g).pair f q = some (g x) := by
  have hx : (s.tenant f).pairs.find? q = some x := h
  rw [State.updPair, State.pair, State.tenant_updTenant, Tab.find?_mapKey, if_pos rfl, hx, Option.map_some]

@[simp] theorem State.pair_updWork (s : State) (f q w : Nat) (g : Work → Work) : (s.updWork w g).pair f q = s.pair f q := rfl

/-- A change of the tenant that leaves its pairs leaves each. -/
theorem State.pair_updTenant_of_pairs (s : State) (f q : Nat) {g : Tenant → Tenant} (hg : ∀ t, (g t).pairs = t.pairs) :
    (s.updTenant f g).pair f q = s.pair f q := by
  rw [State.pair, State.tenant_updTenant, hg, State.pair]

@[simp] theorem State.signal_mboxes (s : State) (f v : Nat) : (s.signal f v).mboxes = s.mboxes := by
  unfold State.signal
  extract_lets k
  split
  · rfl
  · split <;> rfl

theorem State.attn_mbox_attn (s : State) (f : Nat) : ((s.attn f).mbox f).attn = true := by
  simp [State.attn, State.mbox]

/-- A pair without waiting completions has none to write. -/
theorem State.drainCompletions_of_nil (hx : s.pair f q = some x) (hw : x.waiting = []) (n : Nat) : s.drainCompletions f q n = s := by
  cases n with
  | zero => rfl
  | succ n => exact State.drainCompletions_succ_of_same (by rw [State.writeCompletion_of_nil hx hw])

/-! ### Doorbell (17 R486, R490) -/

theorem execDoorbell_of_none {p : BitVec 32} (h : s.pair f q = none) :
    execDoorbell f q p s = .next (s.updTenant f (fun x => { x with doorIgnored := x.doorIgnored + 1 })) := by
  simp only [execDoorbell, h]

/-- A doorbell of an ACTIVE pair that is not being deleted and has nothing to write looks at the entries it announces alone. -/
theorem execDoorbell_of_active {p : BitVec 32} (hx : s.pair f q = some x) (hact : x.state = .active) (hdel : x.deleting = none)
    (hwait : x.waiting = []) :
    execDoorbell f q p s = .next (if x.sqN < (p.truncate 16 - x.c).toNat then s.pairError f q .errorDoorbell
      else s.updPair f q (fun y => { y with p := p.truncate 16 })) := by
  simp [execDoorbell, hx, State.drainCompletions_of_nil hx hwait, hact, hdel]

/-! ### Fetch (17 R490) -/

theorem execSubmissionFetch_of_fetches (hx : s.pair f q = some x) (hf : x.fetches = true) (hr : x.recheck = false) :
    execSubmissionFetch f q s = .next (if getLE (s.readBytes x.slotAddr 64).1 3 1 < 128 then s.updPair f q (fun y => { y with recheck := true })
      else s.takeEntry f q x (s.readBytes x.slotAddr 64).1) := by
  simp [execSubmissionFetch, hx, hf, hr]

theorem execOwnRecheck_of_recheck (hx : s.pair f q = some x) (hact : x.state = .active) (hr : x.recheck = true) :
    execOwnRecheck f q s = .next (if getLE (s.readBytes x.slotAddr 64).1 3 1 < 128 then s.pairError f q .errorOwn
      else s.takeEntry f q x (s.readBytes x.slotAddr 64).1) := by
  simp [execOwnRecheck, hx, hact, hr]

/-- Settles O29: what a doorbell announces against N, and the OWN bit of the slot at the consumer count. -/
theorem doorbellAndFetch : Obligations.DoorbellAndFetch := by
  intro s f q p
  refine ⟨fun hnone => ⟨_, execDoorbell_of_none hnone, ?count, ?pairs⟩, fun x hx hact =>
    ⟨fun hdel hwait hfew => ⟨?announced, State.pair_updPair hx _⟩, fun hdel hwait hmany => ⟨?tooMany, State.attn_mbox_attn _ f⟩,
      fun hf hr hown => ?fetched, fun hf hr hown => ⟨s.updPair f q (fun y => { y with recheck := true }), ?marked, State.pair_updPair hx _⟩, fun hr hown => ?rechecked,
      fun hr hown => ⟨?stopped, State.attn_mbox_attn _ f⟩⟩⟩
  case count | pairs => rw [State.tenant_updTenant]
  case announced => exact (execDoorbell_of_active hx hact hdel hwait).trans (by rw [if_neg (Nat.not_lt.mpr hfew)])
  case tooMany => exact (execDoorbell_of_active hx hact hdel hwait).trans (by rw [if_pos hmany])
  case fetched => exact (execSubmissionFetch_of_fetches hx hf hr).trans (by rw [if_neg (Nat.not_lt.mpr hown)])
  case marked => exact (execSubmissionFetch_of_fetches hx hf hr).trans (by rw [if_pos hown])
  case rechecked => exact (execOwnRecheck_of_recheck hx hact hr).trans (by rw [if_neg (Nat.not_lt.mpr hown)])
  case stopped => exact (execOwnRecheck_of_recheck hx hact hr).trans (by rw [if_pos hown])

/-! ### The end of a command (17 R493, R496) -/

theorem State.find?_updWork {w : Nat} {y : Work} (h : s.works.find? w = some y) (g : Work → Work) :
    (s.updWork w g).works.find? w = some (g y) := by
  rw [State.updWork, Tab.find?_mapKey, if_pos rfl, h, Option.map_some]

/-- A key that a filter takes out is found no more. -/
theorem Tab.find?_filter_of_false {α : Type} {c : Nat → Bool} {k : Nat} (hk : c k = false) (t : Tab α) :
    Tab.find? (t.filter (fun p => c p.1)) k = none := by
  induction t with
  | nil => rfl
  | cons p r ih =>
    obtain ⟨a, v⟩ := p
    by_cases ha : a = k
    · simpa [ha, hk] using ih
    · cases hc : c a <;> simpa [hc, Tab.find?, ha] using ih

/-- A command that ends alone leaves the fetched commands, and its completion stands last on its pair. -/
theorem State.formCpl_of_alone {w : Nat} {y : Work} {k : Cpl} (hw : s.works.find? w = some y) (hs : y.silent = false)
    (hx : s.pair f q = some x) (hd : x.deleting = none) :
    (s.formCpl f q [w] (some k)).works.find? w = none ∧
      (s.formCpl f q [w] (some k)).pair f q =
        some { x with waiting := x.waiting ++ [{ k with covers := [w], runs := ([y].filter Work.isRun).map Work.imageOf }] } := by
  have hgone : Tab.find? (s.works.filter (fun p => !(List.contains [w] p.1))) w = none :=
    Tab.find?_filter_of_false (c := fun j => !(List.contains [w] j)) (by simp) _
  simp only [State.formCpl, hx, List.filterMap_cons, hw, List.filterMap_nil, List.any_cons, hs, List.any_nil, Bool.or_false,
    Bool.false_eq_true, if_false, hd]
  have hx1 : State.pair { s with works := s.works.filter (fun p => !(List.contains [w] p.1)) } f q = some x := hx
  exact ⟨hgone, by simp only [State.pair_updPair hx1, hd]⟩

/-- The state in which an ended command's completion is formed: its result recorded, its work-area slot and its flag freed. -/
def State.recordEnd (s : State) (w : Nat) (x : Work) (r : WorkResult) : State :=
  let m : Word := match x.flag with | some i => (1 : Word) <<< i | none => 0
  ((s.updPair x.f x.q (fun q => { q with slots := q.slots.filter (fun k => k.2 != w) })).updTenant x.f
    (fun t => { t with disp := { t.disp with allocd := t.disp.allocd &&& ~~~m, flags := t.disp.flags &&& ~~~m } })).updWork w
      (fun x => { x with stage := .ended, result := some r, flag := none })

theorem State.find?_recordEnd {w : Nat} {y : Work} {r : WorkResult} (hw : s.works.find? w = some y) :
    (s.recordEnd w y r).works.find? w = some { y with stage := .ended, result := some r, flag := none } := by
  rw [State.recordEnd, State.find?_updWork (by exact hw)]

theorem State.pair_recordEnd {w : Nat} {y : Work} {r : WorkResult} (hp : s.pair y.f y.q = some x) :
    (s.recordEnd w y r).pair y.f y.q = some { x with slots := x.slots.filter (fun k => k.2 != w) } := by
  rw [State.recordEnd, State.pair_updWork, State.pair_updTenant_of_pairs, State.pair_updPair hp]
  exact fun _ => rfl

/-- A command that ends in no batch, and that nothing has stopped, has its completion formed alone. -/
theorem State.endOne_of_alone {w : Nat} {y : Work} {r : WorkResult} (hw : s.works.find? w = some y) (hres : y.result = none)
    (hstop : y.stopped = false) (hp : s.pair y.f y.q = some x) (hopen : w ∉ x.batch) (hclosed : ∀ b ∈ x.batches, w ∉ b) :
    s.endOne w r = (s.recordEnd w y r).formCpl y.f y.q [w] (some (y.completion r)) := by
  have hpair := State.pair_recordEnd (w := w) (r := r) hp
  have hnone : (x.batch.contains w || x.batches.any (fun b => b.contains w)) = false := by
    simpa using ⟨hopen, hclosed⟩
  simp only [State.endOne, hw, hres, hstop, Option.isSome_none, Bool.false_and, Bool.false_eq_true, if_false]
  change (if (match (s.recordEnd w y r).pair y.f y.q with
    | some p => p.batch.contains w || p.batches.any (fun b => b.contains w)
    | none => false) = true then _ else _) = _
  rw [hpair]
  exact if_neg (Bool.not_eq_true _ ▸ hnone)

/-- Settles O31: the command is in no batch when its result has been recorded, so its completion is formed alone. -/
theorem endedCommandCompletes : Obligations.EndedCommandCompletes := by
  intro s w x p r hw hres hsil hstop hp hdel hopen hclosed
  have hend : s.endOne w r = (s.recordEnd w x r).formCpl x.f x.q [w] (some (x.completion r)) :=
    State.endOne_of_alone hw hres hstop hp hopen hclosed
  obtain ⟨hgone, hpair⟩ := State.formCpl_of_alone (k := x.completion r) (State.find?_recordEnd hw) hsil (State.pair_recordEnd hp) hdel
  rw [hend]
  exact ⟨hgone, _, _, hpair, rfl, rfl, rfl, rfl, rfl, rfl, rfl⟩

end Sys2Proof.Machine
end

section
/-! PROOFS. Obligation O53 (compression channels and Bramble arrays): submissions, aborts, the order of jobs, searches, updates, power. -/

namespace Sys2Proof.Machine

variable {s : State} {t f a c : Nat} {v : BitVec 64} {rd : Reg}

@[simp] theorem State.cmpChan_updTile (s : State) (t c : Nat) (g : Tile → Tile) : (s.updTile t g).cmpChan c = s.cmpChan c := rfl

@[simp] theorem State.bram_updTile (s : State) (t a : Nat) (g : Tile → Tile) : (s.updTile t g).bram a = s.bram a := rfl

/-! ### Compression channels (12 R339, R343 to R346) -/

/-- A submission to a present channel that serves the function and has room joins the queue (12 R339, R344). -/
theorem State.cmpPush_of_room {j : CmpJob} (hon : s.cmpOn c = true) (hserves : (s.cmpChan c).funcs.getLsbD j.f = true)
    (hlen : (s.cmpChan c).queue.length < 32) (hmine : (s.cmpChan c).queuedOf j.f < 8) :
    s.cmpPush c j = (s.updCmp c (fun x => { x with queue := x.queue ++ [j] }), 0) := by
  have hroom : ¬(32 ≤ (s.cmpChan c).queue.length ∨ 8 ≤ (s.cmpChan c).queuedOf j.f) := by omega
  simp only [State.cmpPush, hon, hserves, Bool.not_true, Bool.false_eq_true, if_false, hroom]

theorem execCmpSubmit_of_room (hb : (s.tile t).bound = some f) (hon : s.cmpOn (field v 0 4) = true)
    (hserves : (s.cmpChan (field v 0 4)).funcs.getLsbD f = true) (hlen : (s.cmpChan (field v 0 4)).queue.length < 32)
    (hmine : (s.cmpChan (field v 0 4)).queuedOf f < 8) :
    execCmpSubmit t v s = .next ((s.updCmp (field v 0 4) (fun x => { x with
      queue := x.queue ++ [{ f, desc := field v 6 58 * 64, epoch := s.epochOf f }] })).updTile t
        (fun x => { x with eng := { x.eng with cmpSubst := 0 } })) := by
  rw [execCmpSubmit, hb]
  dsimp only
  rw [State.cmpPush_of_room hon hserves hlen hmine]
  rfl

theorem execCmpAbort_of_queued {q : CmpJob} {r : List CmpJob} (hb : (s.tile t).bound = some f)
    (hrun : (s.cmpChan (field v 0 4)).run = none)
    (hq : pickFirst (fun (j : CmpJob) => j.f == f && j.desc == field v 6 58 * 64 && j.work.isNone) (s.cmpChan (field v 0 4)).queue =
      some (q, r)) :
    execCmpAbort t v s =
      .next ((s.updCmp (field v 0 4) (fun x => { x with queue := r })).cmpAbortQueued (field v 0 4) q none) := by
  simp only [execCmpAbort, hb, hrun, hq]

theorem execCmpJobStart_of_passes {j : CmpJob} {r : List CmpJob} (hrun : (s.cmpChan c).run = none)
    (hnext : nextFunc (s.cmpChan c).func (fun g => (s.cmpChan c).queue.any (fun j => j.f == g)) = some f)
    (hpick : pickFirst (fun j => j.f == f) (s.cmpChan c).queue = some (j, r))
    (hcheck : (s.updCmp c (fun x => { x with queue := r, func := f, run := some j })).cmpCheck c j = none) :
    execCmpJobStart c s = .next (s.updCmp c (fun x => { x with queue := r, func := f, run := some j })) := by
  simp only [execCmpJobStart, hrun, hnext, hpick, hcheck, Option.isSome_none, Bool.false_eq_true, if_false]

theorem execCmpJobEnd_of_run {j : CmpJob} (hrun : (s.cmpChan c).run = some j) :
    execCmpJobEnd c s = .next (s.cmpEnd c j none).1 := by
  simp only [execCmpJobEnd, hrun]

/-! ### Searches (13 R377) -/

theorem State.brmFindRead_of_on (hb : (s.tile t).bound = some f) (hon : s.brmOn a = true) :
    s.brmFindRead t a = (match s.brmFirst a f (s.brmKey t) with
      | some i => (0x8000000000000000 : Word) ||| BitVec.ofNat 64 (((s.bram a).ent (64 * (s.bram a).base f + i)).user * 2 ^ 40 + i)
      | none => 0, s.brmCountTile t a) := by
  simp only [State.brmFindRead, hb, hon, Bool.not_true, Bool.false_eq_true, if_false] <;> rfl

theorem State.brmVecRead_of_on {w : Nat} (hb : (s.tile t).bound = some f) (hon : s.brmOn a = true) :
    s.brmVecRead t a w = (s.brmVector a f w (s.brmKey t), s.brmCountTile t a) := by
  simp only [State.brmVecRead, hb, hon, Bool.not_true, Bool.false_eq_true, if_false]

theorem State.brmFirst_eq_some {k : BitVec 128} {i : Nat} (h : s.brmFirst a f k = some i) :
    s.brmHit a f i k = true ∧ ∀ j < i, s.brmHit a f j k = false := by
  obtain ⟨hi, _, hbefore⟩ := List.find?_range_eq_some.mp h
  exact ⟨hi, fun j hj => by simpa using hbefore j hj⟩

theorem State.brmFirst_eq_none {k : BitVec 128} (h : s.brmFirst a f k = none) :
    ∀ i < 64 * (s.bram a).nwin f, s.brmHit a f i k = false :=
  fun i hi => by simpa using List.find?_range_eq_none.mp h i hi

/-- Bits that a test selects, set one after another, stand where the test holds. -/
theorem getLsbD_foldl_setBit (p : Nat → Bool) (n i : Nat) (hi : i < 64) :
    ((List.range n).foldl (fun (v : BitVec 64) j => if p j then v ||| ((1 : BitVec 64) <<< j) else v) 0).getLsbD i =
      (decide (i < n) && p i) := by
  induction n with
  | zero => simp
  | succ n ih =>
    rw [List.range_succ, List.foldl_append, List.foldl_cons, List.foldl_nil]
    have hbit : ((1 : BitVec 64) <<< n).getLsbD i = decide (i = n) := by
      have hone : (1 : BitVec 64) = 1#64 := rfl
      rw [BitVec.getLsbD_shiftLeft, hone, BitVec.getLsbD_one]
      simp only [hi, decide_true, Bool.true_and, ← decide_not, ← Bool.decide_and]
      exact decide_eq_decide.mpr (by omega)
    have hlt : decide (i < n + 1) = (decide (i < n) || decide (i = n)) := by
      rw [← Bool.decide_or]
      exact decide_eq_decide.mpr Nat.lt_succ_iff_lt_or_eq
    by_cases hp : p n = true
    · rw [if_pos hp, BitVec.getLsbD_or, ih, hbit, hlt]
      by_cases hin : i = n <;> simp [hin, hp]
    · rw [if_neg hp, ih, hlt]
      by_cases hin : i = n <;> simp [hin, hp]

theorem State.getLsbD_brmVector (s : State) (a f w : Nat) (k : BitVec 128) {i : Nat} (hi : i < 64) :
    (s.brmVector a f w k).getLsbD i = s.brmHit a f (64 * w + i) k := by
  rw [State.brmVector, getLsbD_foldl_setBit (fun j => s.brmHit a f (64 * w + j) k) 64 i hi, decide_eq_true hi, Bool.true_and]

/-! ### Batch jobs (13 R381, R382) -/

theorem execBrmSubmit_of_room (hb : (s.tile t).bound = some f) (hon : s.brmOn (field v 0 2) = true)
    (hlen : (s.bram (field v 0 2)).queue.length < 16)
    (hmine : ((s.bram (field v 0 2)).queue.filter (fun q => q.f == f)).length < 4) :
    execBrmSubmit t v s = .next ((s.updBrm (field v 0 2) (fun b => { b with
      queue := b.queue ++ [{ f, desc := field v 6 58 * 64, epoch := s.epochOf f }] })).updTile t
        (fun x => { x with eng := { x.eng with brmSubst := 0 } })) := by
  simp only [execBrmSubmit, hb, hon, Nat.not_le.mpr hlen, Nat.not_le.mpr hmine, decide_false, Bool.or_false, Bool.not_true,
    Bool.false_eq_true, if_false, BitVec.ofNat_eq_ofNat]

theorem execBrmJobStart_of_passes {j : BrmJob} {r : List BrmJob} (hrun : (s.bram a).run = none)
    (hnext : nextFunc (s.bram a).func (fun g => (s.bram a).queue.any (fun j => j.f == g)) = some f)
    (hpick : pickFirst (fun (j : BrmJob) => j.f == f) (s.bram a).queue = some (j, r))
    (hcheck : (s.updBrm a (fun b => { b with queue := r, func := f, run := some j })).brmCheck j = none) :
    execBrmJobStart a s = .next (s.updBrm a (fun b => { b with queue := r, func := f, run := some j })) := by
  simp only [execBrmJobStart, hrun, hnext, hpick, hcheck, Option.isSome_none, Bool.false_eq_true, if_false]

theorem execBrmJobEnd_of_run {j : BrmJob} (hrun : (s.bram a).run = some j) : execBrmJobEnd a s = .next (s.brmRun a j none) := by
  simp only [execBrmJobEnd, hrun]

theorem execBrambleUpdateStep_of_on (hon : s.brmOn a = true) : execBrambleUpdateStep a s = .next (s.updBrm a Bram.step) := by
  rw [execBrambleUpdateStep, if_pos hon]

/-- Settles O53, command by command, with the rules above. -/
theorem compressionAndBramble : Obligations.CompressionAndBramble := by
  intro s t f a v rd
  refine ⟨fun hb hon hserves hlen hmine => ⟨_, execCmpSubmit_of_room hb hon hserves hlen hmine, ?cmpQueued, ?cmpAnswer⟩,
    fun hb hrun q r hq => execCmpAbort_of_queued hb hrun hq,
    fun hrun j r hnext hpick hcheck => execCmpJobStart_of_passes hrun hnext hpick hcheck,
    fun j hrun => execCmpJobEnd_of_run hrun, ⟨_, rfl, ?assigned, ?assignQueue⟩,
    fun hb hon => ⟨fun i hi => ⟨_, rfl, fun hrd => ?found⟩, fun hnone hrd => ⟨_, rfl, ?notFound⟩,
      fun w => ⟨_, rfl, fun hrd => ?vector⟩⟩,
    fun k => ⟨fun i => State.brmFirst_eq_some, State.brmFirst_eq_none, fun w i => s.getLsbD_brmVector a f w k⟩,
    fun hb hon hlen hmine => ⟨_, execBrmSubmit_of_room hb hon hlen hmine, ?brmQueued, ?brmAnswer⟩,
    fun hrun j r hnext hpick hcheck => execBrmJobStart_of_passes hrun hnext hpick hcheck,
    fun j hrun => execBrmJobEnd_of_run hrun, execBrambleUpdateStep_of_on, ⟨_, rfl, ?row, ?ents⟩⟩
  case cmpQueued => rw [State.cmpChan_updTile, State.cmpChan_updCmp]
  case cmpAnswer | brmAnswer => rw [State.tile_updTile]
  case assigned | assignQueue => rw [State.cmpChan_updCmp]
  case found => rw [State.readG_updCore_writeG _ _ _ hrd, State.brmFindRead_of_on hb hon, hi]
  case notFound => rw [State.readG_updCore_writeG _ _ _ hrd, State.brmFindRead_of_on hb hon, hnone]
  case vector => rw [State.readG_updCore_writeG _ _ _ hrd, State.brmVecRead_of_on hb hon]
  case brmQueued => rw [State.bram_updTile, State.bram_updBrm]
  case row | ents => simp only [State.bram_updBrm]

end Sys2Proof.Machine
end

section
/-! PROOFS. Obligation O54 (DMA transfers and digest messages). -/

namespace Sys2Proof.Machine

variable {s : State} {t f c e : Nat} {v : BitVec 64} {x : Xfer} {d : DmaDesc}

@[simp] theorem State.dmaChan_updTile (s : State) (t c : Nat) (g : Tile → Tile) : (s.updTile t g).dmaChan c = s.dmaChan c := rfl

@[simp] theorem State.tile_updDma (s : State) (t c : Nat) (g : DmaChan → DmaChan) : (s.updDma c g).tile t = s.tile t := rfl

@[simp] theorem State.tile_updDgs (s : State) (t e : Nat) (g : DgsEng → DgsEng) : (s.updDgs e g).tile t = s.tile t := rfl

@[simp] theorem State.dgsEng_updDgs (s : State) (e : Nat) (g : DgsEng → DgsEng) : (s.updDgs e g).dgsEng e = g (s.dgsEng e) :=
  Tab.getD_upd_self _ _ _ _

/-! ### The shadow set (19 R552, R553) -/

/-- The transfer that a block describes, as the shadow set takes it (19 R545, R552). -/
def Xfer.ofBlock (f a : Nat) (b : List Byte) (epoch : BitVec 8) : Xfer :=
  { f, block := a, status := getLE b 8 8, trig := getLE b 0x10 1 / 2 % 2 == 1, event := getLE b 0x11 1, qslot := getLE b 0x12 2,
    cadence := getLE b 0x10 1 / 4 % 2 == 1, epoch, next := getLE b 0 8 }

theorem execDmaLoad_of_passes {ch a : Nat} {b : List Byte} (hch : field v 0 5 = ch) (ha : field v 5 59 * 32 = a)
    (hblock : (s.readBytes a 32).1 = b) (hb : (s.tile t).bound = some f) (hon : s.dmaOn ch = true)
    (hserves : (s.dmaFuncs ch).getLsbD f = true) (hfree : (s.dmaChan ch).sh = none) (hread : s.rangeOk f a 32 1 = true)
    (hfields : xferBlockOk b = true) (hwrite : s.rangeOk f (getLE b 8 8) 32 2 = true) :
    execDmaLoad t v s = .next ((s.updTile t (fun x => { x with eng := { x.eng with dmaLdst := 0 } })).updDma ch
      (fun k => { k with sh := some (Xfer.ofBlock f a b (s.epochOf f)) })) := by
  subst hch ha hblock
  simp [execDmaLoad, hb, hon, hserves, hfree, hread, hfields, hwrite, Xfer.ofBlock]

theorem execShadowCurrent_of_shadow (hcur : (s.dmaChan c).cur = none) (hsh : (s.dmaChan c).sh = some x) (hcad : x.cadence = false) :
    execShadowCurrent c s = .next (s.updDma c (fun k => { k with cur := some x, sh := none })) := by
  simp only [execShadowCurrent, hcur, hsh, hcad, Bool.false_eq_true, if_false]

/-! ### Descriptors (19 R546 to R548) -/

theorem execDmaDescriptor_of_read (hcur : (s.dmaChan c).cur = some x) (hend : x.ended = false) (hd : s.dmaNextDesc x = some d) :
    execDmaDescriptor c s = .next (s.dmaStep c x d) := by
  simp only [execDmaDescriptor, hcur, hend, hd, Bool.false_eq_true, if_false]

theorem execDmaDescriptor_of_unreadable (hcur : (s.dmaChan c).cur = some x) (hend : x.ended = false) (hd : s.dmaNextDesc x = none) :
    execDmaDescriptor c s = .next (s.dmaSetCur c { (x.bad 0x0105) with ended := true } 0 1) := by
  simp only [execDmaDescriptor, hcur, hend, hd, Bool.false_eq_true, if_false]

theorem State.dmaSetCur_cur (s : State) (c : Nat) (x : Xfer) (moved bad : Nat) : ((s.dmaSetCur c x moved bad).dmaChan c).cur = some x := by
  rw [State.dmaSetCur, State.dmaChan_updDma]

/-- No more bytes are covered than are asked for. -/
theorem State.dmaCovered_le (s : State) (k dst n : Nat) : s.dmaCovered k dst n ≤ n := by
  induction k generalizing dst n with
  | zero => exact le_rfl
  | succ k ih =>
    rw [State.dmaCovered]
    split
    · omega
    · split
      · omega
      · have := ih (dst + min n (64 - dst % 64)) (n - min n (64 - dst % 64))
        dsimp only
        omega

/-- A free number of at most k is at most k. -/
theorem State.freeUpTo_le (s : State) (k : Nat) : (s.freeUpTo k).1 ≤ k := Nat.lt_succ_iff.mp (Nat.mod_lt _ (Nat.succ_pos k))

theorem execBusError_of_copy (hcur : (s.dmaChan c).cur = some x) (hend : x.ended = false) (hd : s.dmaNextDesc x = some d)
    (hok : s.dmaBad c x d = none) (hkind : d.dkind = 0) :
    execBusError c s =
      .next (let k := s.freeUpTo (s.dmaCovered (d.len / 64 + 2) d.dst d.len)
        let r := k.2.dmaCopy x.f (k.1 / 64 + 2) d.src d.dst k.1
        ((r.1.dmaBusError c x).putDstat x 2).dmaSetCur c
          (({ x with bytes := x.bytes + k.1, poisoned := x.poisoned || r.2 }.bad 0x0405).advance d) k.1 1) := by
  simp only [execBusError, hcur, hend, hd, hok, hkind, Bool.false_eq_true, if_false, Option.isSome_none, zero_ne_one]

theorem execTransferEnd_of_ended (hcur : (s.dmaChan c).cur = some x) (hend : x.ended = true) :
    execTransferEnd c s = .next ((s.updDma c (fun k => { k with cur := none })).xferDone c x none none 0) := by
  simp only [execTransferEnd, hcur, hend, if_true]

theorem execDmaAbort_of_current (hb : (s.tile t).bound = some f) (hcur : (s.dmaChan (field v 0 5)).cur = some x) (hf : x.f = f)
    (hblock : x.block = field v 5 59 * 32) (hinner : x.inner = false) (hend : x.ended = false) :
    execDmaAbort t v s = .next (((s.dmaStopCur (field v 0 5) x 0x0302).updDma (field v 0 5)
      (fun k => { k with istat := k.istat ||| 1 })).signal 0 1) := by
  simp [execDmaAbort, hb, hcur, hf, hblock, hinner, hend]

/-! ### Digest messages (19 R559, R566, R568) -/

/-- The message that a block without RESTORE opens (19 R557, R559). -/
def DgsMsg.ofBlock (b : List Byte) (epoch : BitVec 8) (start : DgsCtx) : DgsMsg :=
  { mode := getLE b 0 1, derive := getLE b 1 1 % 2 == 1, trig := getLE b 1 1 / 4 % 2 == 1, event := getLE b 2 1, keySlot := getLE b 3 1,
    dstSlot := getLE b 4 1, qslot := getLE b 6 2, declLen := getLE b 8 8, result := getLE b 0x10 8, status := getLE b 0x18 8,
    save := getLE b 0x20 8, epoch, start }

theorem execDgsOpen_of_passes {a : Nat} {b : List Byte} (he : field v 0 2 = e) (ha : field v 6 58 * 64 = a) (hblock : (s.readBytes a 64).1 = b)
    (hb : (s.tile t).bound = some f) (hon : s.dgsOn e = true) (hread : s.rangeOk f a 64 1 = true) (hcheck : s.dgsOpenCheck e f b = 0)
    (hnew : getLE b 1 1 / 8 % 2 = 0) :
    execDgsOpen t v s = .next ((s.updTile t (fun x => { x with eng := { x.eng with dgsOpst := 0 } })).updDgs e (fun x => { x with
      msgs := x.msgs.set f (DgsMsg.ofBlock b (s.epochOf f) (s.dgsStart (getLE b 0 1) (getLE b 3 1))) })) := by
  subst he ha hblock
  simp [execDgsOpen, hb, hon, hread, hcheck, hnew, DgsMsg.ofBlock]

theorem execDgsClose_of_bound (hb : (s.tile t).bound = some f) : execDgsClose t v s = .next (s.dgsEnd (field v 0 2) f 0x0302 false false) := by
  simp only [execDgsClose, hb]

theorem execDgsSuspend_of_bound (hb : (s.tile t).bound = some f) :
    execDgsSuspend t v s = .next (s.updMsg (field v 0 2) f (fun m => { m with suspend := true })) := by
  simp only [execDgsSuspend, hb]

theorem State.dgsMsg_updMsg {m : DgsMsg} (hm : s.dgsMsg e f = some m) (g : DgsMsg → DgsMsg) : (s.updMsg e f g).dgsMsg e f = some (g m) := by
  have hfind : (s.dgsEng e).msgs.find? f = some m := hm
  rw [State.dgsMsg, State.updMsg, State.dgsEng_updDgs, Tab.find?_mapKey, if_pos rfl, hfind, Option.map_some]

theorem execSuspendSave_of_context {m : DgsMsg} {k : DgsCtx} (hfirst : List.find? (fun (p : Nat × DgsMsg) => p.2.suspend) (s.dgsEng e).msgs = some (f, m))
    (hctx : m.ctx = .reg k) : execSuspendSave e s = .next ((s.dgsSave e f).dgsEnd e f 0 false true) := by
  simp only [execSuspendSave, hfirst, hctx]

theorem execContextQuantum_of_next
    (hnext : nextFunc (s.dgsEng e).served (fun g => (s.dgsEng e).msgs.any (fun p => p.1 == g && p.2.waiting && (s.dgsEng e).active != some g)) =
      some f) : execContextQuantum e s = .next (s.dgsActivate e f) := by
  simp only [execContextQuantum, hnext]

/-- Settles O54, command by command, with the rules above. -/
theorem dmaAndDigest : Obligations.DmaAndDigest := by
  intro s t f c e v
  refine ⟨fun hb hon hserves hfree hread hfields hwrite =>
      ⟨_, Xfer.ofBlock f _ (s.readBytes _ 32).1 (s.epochOf f), execDmaLoad_of_passes rfl rfl rfl hb hon hserves hfree hread hfields hwrite, ?shadow, ?loadAnswer, rfl, rfl, rfl, rfl, rfl, rfl, rfl,
        ?current⟩,
    fun x hcur hsh hcad => ⟨_, execShadowCurrent_of_shadow hcur hsh hcad, ?nowCurrent, ?nowFree⟩,
    fun x hcur hend => ⟨fun d hd => execDmaDescriptor_of_read hcur hend hd,
      fun hd => ⟨_, _, execDmaDescriptor_of_unreadable hcur hend hd, State.dmaSetCur_cur .., rfl⟩,
      fun d hd hok hkind => ⟨execBusError_of_copy hcur hend hd hok hkind, ?moved⟩⟩,
    fun x hcur hend => execTransferEnd_of_ended hcur hend,
    fun x hb hcur hf hblock hinner hend => execDmaAbort_of_current hb hcur hf hblock hinner hend,
    fun hb => ⟨fun hon hread hcheck hnew => ⟨_, DgsMsg.ofBlock (s.readBytes (field v 6 58 * 64) 64).1 (s.epochOf f) (s.dgsStart _ _),
      execDgsOpen_of_passes rfl rfl rfl hb hon hread hcheck hnew, ?opened, ?openAnswer, rfl, rfl, rfl, rfl, rfl⟩,
      execDgsClose_of_bound hb, fun m hm => ⟨_, execDgsSuspend_of_bound hb, State.dgsMsg_updMsg hm _⟩⟩,
    fun m x hfirst hctx => execSuspendSave_of_context hfirst hctx, execContextQuantum_of_next⟩
  case shadow => rw [State.dmaChan_updDma]
  case loadAnswer => rw [State.tile_updDma, State.tile_updTile]
  case current => rw [State.dmaChan_updDma, State.dmaChan_updTile]
  case nowCurrent | nowFree => rw [State.dmaChan_updDma]
  case moved => exact (s.freeUpTo_le _).trans (s.dmaCovered_le _ _ _)
  case opened => rw [State.dgsMsg, State.dgsEng_updDgs, Tab.find?_set_self]
  case openAnswer => rw [State.tile_updDgs, State.tile_updTile]

end Sys2Proof.Machine
end

section
/-! PROOFS. Obligation O55 (Cadence): the counter, the master, steering, exchanges, the action table, trigger pulses. -/

namespace Sys2Proof.Machine

/-! ### What a log record and a message to the host leave -/

section

variable (s : State) (event cls func ukind unit status addr detail : Nat)

@[simp] theorem State.signal_tiles (v : Nat) : (s.signal func v).tiles = s.tiles := by
  obtain ⟨ho, h⟩ := s.signal_only func v
  rw [h]

@[simp] theorem State.signal_mem (v : Nat) : (s.signal func v).mem = s.mem := by
  obtain ⟨ho, h⟩ := s.signal_only func v
  rw [h]

@[simp] theorem State.signal_tenants (v : Nat) : (s.signal func v).tenants = s.tenants := by
  obtain ⟨ho, h⟩ := s.signal_only func v
  rw [h]

@[simp] theorem State.signal_eunto (v : Nat) : (s.signal func v).eunto = s.eunto := by
  obtain ⟨ho, h⟩ := s.signal_only func v
  rw [h]

@[simp] theorem State.signal_euntoArg (v : Nat) : (s.signal func v).euntoArg = s.euntoArg := by
  obtain ⟨ho, h⟩ := s.signal_only func v
  rw [h]

@[simp] theorem State.signal_krl (v : Nat) : (s.signal func v).krl = s.krl := by
  obtain ⟨ho, h⟩ := s.signal_only func v
  rw [h]

@[simp] theorem State.signal_nv (v : Nat) : (s.signal func v).nv = s.nv := by
  obtain ⟨ho, h⟩ := s.signal_only func v
  rw [h]

@[simp] theorem State.log_pending : (s.log event cls func ukind unit status addr detail).pending = s.pending := by
  obtain ⟨l, ho, h⟩ := s.log_only event cls func ukind unit status addr detail
  rw [h]

@[simp] theorem State.log_tiles : (s.log event cls func ukind unit status addr detail).tiles = s.tiles := by
  obtain ⟨l, ho, h⟩ := s.log_only event cls func ukind unit status addr detail
  rw [h]

@[simp] theorem State.log_slices : (s.log event cls func ukind unit status addr detail).slices = s.slices := by
  obtain ⟨l, ho, h⟩ := s.log_only event cls func ukind unit status addr detail
  rw [h]

@[simp] theorem State.log_mem : (s.log event cls func ukind unit status addr detail).mem = s.mem := by
  obtain ⟨l, ho, h⟩ := s.log_only event cls func ukind unit status addr detail
  rw [h]

@[simp] theorem State.log_hostMem : (s.log event cls func ukind unit status addr detail).hostMem = s.hostMem := by
  obtain ⟨l, ho, h⟩ := s.log_only event cls func ukind unit status addr detail
  rw [h]

@[simp] theorem State.log_eunto : (s.log event cls func ukind unit status addr detail).eunto = s.eunto := by
  obtain ⟨l, ho, h⟩ := s.log_only event cls func ukind unit status addr detail
  rw [h]

@[simp] theorem State.log_dstate : (s.log event cls func ukind unit status addr detail).dstate = s.dstate := by
  obtain ⟨l, ho, h⟩ := s.log_only event cls func ukind unit status addr detail
  rw [h]

@[simp] theorem State.log_cad : (s.log event cls func ukind unit status addr detail).cad = s.cad := by
  obtain ⟨l, ho, h⟩ := s.log_only event cls func ukind unit status addr detail
  rw [h]

@[simp] theorem State.log_krl : (s.log event cls func ukind unit status addr detail).krl = s.krl := by
  obtain ⟨l, ho, h⟩ := s.log_only event cls func ukind unit status addr detail
  rw [h]

@[simp] theorem State.log_nv : (s.log event cls func ukind unit status addr detail).nv = s.nv := by
  obtain ⟨l, ho, h⟩ := s.log_only event cls func ukind unit status addr detail
  rw [h]

@[simp] theorem State.log_upd : (s.log event cls func ukind unit status addr detail).upd = s.upd := by
  obtain ⟨l, ho, h⟩ := s.log_only event cls func ukind unit status addr detail
  rw [h]

@[simp] theorem State.log_pw : (s.log event cls func ukind unit status addr detail).pw = s.pw := by
  obtain ⟨l, ho, h⟩ := s.log_only event cls func ukind unit status addr detail
  rw [h]

@[simp] theorem State.log_rel : (s.log event cls func ukind unit status addr detail).rel = s.rel := by
  obtain ⟨l, ho, h⟩ := s.log_only event cls func ukind unit status addr detail
  rw [h]

@[simp] theorem State.log_tilesOff : (s.log event cls func ukind unit status addr detail).tilesOff = s.tilesOff := by
  obtain ⟨l, ho, h⟩ := s.log_only event cls func ukind unit status addr detail
  rw [h]

end

variable {s : State} {t f e p k : Nat} {v : BitVec 64} {w : BitVec 2048} {a : Action}

@[simp] theorem State.cadPort_updCadPort (s : State) (p : Nat) (g : CadPort → CadPort) :
    (s.updCadPort p g).cad.port p = g (s.cad.port p) := Tab.getD_upd_self _ _ _ _

@[simp] theorem State.sendFlit_cad (s : State) (p : Nat) (x : Flit) : (s.sendFlit p x).cad = s.cad := rfl

/-- A flit that a port sends itself stands first among those that left it, with the port's acknowledgement and credit. -/
theorem State.sendFlit_sent (s : State) (p : Nat) (x : Flit) :
    ∃ ack cred, ((s.sendFlit p x).kport p).sent = { x with ack, cred } :: (s.kport p).sent := by
  refine ⟨((s.kport p).rxSeq + 0xFFFF) % 0x10000, (s.kport p).creditDue.2 + 16 * (s.kport p).creditDue.1, ?_⟩
  rw [State.sendFlit, State.kport_updPort]

/-- An entry after every value of the table has been changed. -/
theorem Tab.find?_mapVal {α : Type} (t : Tab α) (g : α → α) (k : Nat) :
    Tab.find? (t.map (fun p => (p.1, g p.2))) k = (t.find? k).map g := by
  induction t with
  | nil => rfl
  | cons p r ih =>
    obtain ⟨a, b⟩ := p
    by_cases h : a = k <;> simp [Tab.find?, h, ih]

/-! ### The counter (14 R402, R415) -/

theorem Cadence.find?_markDue {c : Cadence} (now : Nat) (ha : c.acts.find? e = some a) (hdue : a.due = none) (hwait : a.wait = none) :
    (c.markDue now).acts.find? e = some { a with due := if a.tick ≤ now then some now else none } := by
  have hmap := Tab.find?_mapVal c.acts
    (fun x => if x.wait.isNone && x.due.isNone && decide (x.tick ≤ now) then { x with due := some now } else x) e
  refine hmap.trans ?_
  have hcond : (a.wait.isNone && a.due.isNone && decide (a.tick ≤ now)) = decide (a.tick ≤ now) := by simp [hdue, hwait]
  rw [ha, Option.map_some, hcond]
  by_cases hnow : a.tick ≤ now
  · simp only [hnow, decide_true, if_true]
  · simp only [hnow, decide_false, Bool.false_eq_true, if_false, ← hdue]

/-! ### The master (14 R407) -/

/-- A running minimum is its start exactly when nothing lies below it. -/
theorem foldl_min_eq_iff {α : Type} (g : α → Nat) (l : List α) (m : Nat) : l.foldl (fun a x => min a (g x)) m = m ↔ ∀ x ∈ l, m ≤ g x := by
  have hle : ∀ (l : List α) (m : Nat), l.foldl (fun a x => min a (g x)) m ≤ m := by
    intro l
    induction l with
    | nil => exact fun _ => le_rfl
    | cons x r ih => exact fun m => (ih _).trans (min_le_left _ _)
  induction l generalizing m with
  | nil => simp
  | cons x r ih =>
    rw [List.foldl_cons, List.forall_mem_cons]
    by_cases hx : m ≤ g x
    · rw [min_eq_left hx]
      exact (ih m).trans (and_iff_right hx).symm
    · have hlt : r.foldl (fun a x => min a (g x)) (min m (g x)) < m := (hle r _).trans_lt (by omega)
      exact ⟨fun h => absurd h hlt.ne, fun h => absurd h.1 hx⟩

/-- No neighbour heard of names a lower key than the device's own. -/
def State.lowestKey (s : State) : Prop := ∀ q ∈ s.syncedPorts, s.ownKey ≤ (s.cad.port q).key

/-- A device that knows no lower key than its own becomes master. -/
theorem State.electMaster_of_lowest (h : s.lowestKey) :
    s.electMaster = s.updCad (fun c => { c with
      master := true, hops := 0, key := s.ownKey, state := 2, rate := if c.master then c.rate else 0, host := c.epoch.isSome, fresh := false }) := by
  have hbest := (foldl_min_eq_iff (fun p => (s.cad.port p).key) s.syncedPorts s.ownKey).mpr h
  simp only [State.electMaster, hbest, if_true]

theorem State.electMaster_master_of_not_lowest (h : ¬s.lowestKey) : s.electMaster.cad.master = false := by
  have hbest := mt (foldl_min_eq_iff (fun p => (s.cad.port p).key) s.syncedPorts s.ownKey).mp h
  simp only [State.electMaster, if_neg hbest, State.updCad_cad]

theorem State.electMaster_master_iff (s : State) : s.electMaster.cad.master = true ↔ s.lowestKey := by
  by_cases h : s.lowestKey
  · simp [State.electMaster_of_lowest h, h]
  · simp [State.electMaster_master_of_not_lowest h, h]

/-- An election leaves the ports' exchanges. -/
theorem State.electMaster_port (s : State) (p : Nat) : s.electMaster.cad.port p = s.cad.port p := by
  unfold State.electMaster
  extract_lets ps best c
  split <;> rfl

/-! ### Steering (14 R402, R403, R408, R411) -/

/-- A rate lies within the bounds of R402. -/
def rateOk (r : Int) : Prop := -1099511 ≤ r ∧ r ≤ 1099511

theorem rateOk_clampRate (r : Int) : rateOk (clampRate r) := by
  unfold rateOk clampRate
  omega

theorem rateOk_zero : rateOk 0 := by
  unfold rateOk
  omega

theorem State.electMaster_rateOk (h : rateOk s.cad.rate) : rateOk s.electMaster.cad.rate := by
  unfold State.electMaster
  extract_lets ps best c
  split
  · rw [State.updCad_cad]
    dsimp only
    split
    · exact h
    · exact rateOk_zero
  · exact h

/-- A step of the counter changes no rate. -/
theorem State.stepCounter_rate (s : State) (num : Int) (den : Nat) : (s.stepCounter num den).cad.rate = s.cad.rate := by
  unfold State.stepCounter
  rw [State.log_cad]
  rfl

theorem State.steerBy_rateOk (up : List Nat) (h : rateOk s.cad.rate) : rateOk (s.steerBy up).cad.rate := by
  unfold State.steerBy
  extract_lets k den
  obtain ⟨mean, lo, hi⟩ := s.steerTarget up s.syncedPorts
  dsimp -zeta only
  extract_lets s1 target c0 big st small s2 s3
  have h1 : s1.cad.rate = s.cad.rate := by
    unfold s1
    split
    · rfl
    · split
      · rfl
      · rw [State.log_cad]
        rfl
  split
  · rw [State.stepCounter_rate]
    exact h1 ▸ h
  · split <;> exact rateOk_clampRate _

theorem execCadenceSteer_rateOk {u : State} (hu : execCadenceSteer s = .next u) (h : rateOk s.cad.rate) : rateOk u.cad.rate := by
  obtain rfl := Host.Outcome.next.inj hu
  have h1 := State.electMaster_rateOk h
  dsimp only
  split
  · split
    · exact h1
    · exact rateOk_zero
  · split
    · exact rateOk_clampRate _
    · exact State.steerBy_rateOk _ h1

/-- A master without host steering runs at rate 0 (14 R403). -/
theorem execCadenceSteer_of_lowest (h : s.lowestKey) (hhost : s.cad.epoch = none) :
    execCadenceSteer s = .next (s.electMaster.updCad (fun c => { c with rate := 0 })) := by
  have hm := (State.electMaster_master_iff s).mpr h
  have hh : s.electMaster.cad.host = false := by
    rw [State.electMaster_of_lowest h, State.updCad_cad]
    simp [hhost]
  simp only [execCadenceSteer, hm, hh, if_true, Bool.false_eq_true, if_false]

/-- The host's time less the device's, over 10 × 2^32 (14 R411). -/
def State.hostOffset (s : State) (v : BitVec 64) : Int := ((v.toNat : Int) - s.cad.epoch.getD 0) * 2 ^ 32 - 10 * s.timeValue

theorem execPtmDialogue_of_master (hptm : s.cad.ptm = true) (hm : s.cad.master = true) (he : s.cad.epoch.isSome = true) :
    execPtmDialogue v s = .next (s.updCad (fun c => { (c.steer (s.hostOffset v) (10 * 2 ^ 32)) with host := true })) := by
  simp [execPtmDialogue, hptm, hm, he, State.hostOffset]

theorem execPtmDialogue_of_other (hptm : s.cad.ptm = true) (hm : s.cad.master = false) :
    execPtmDialogue v s = .next (s.updCad (fun c => { c with hostOfs := s.hostOffset v * 65536 / ((10 * 2 ^ 32 : Nat) : Int) })) := by
  simp [execPtmDialogue, hptm, hm, State.hostOffset]

/-! ### Exchanges (14 R405, R406) -/

theorem execSyncExchange_of_up (hp : p < s.part.ports) (hup : (s.kport p).state = 4) (hhold : (s.kport p).hold = false)
    (hen : s.cad.syncEn p = true) :
    execSyncExchange p s = .next (((s.updCadPort p (fun x => { x with age := x.age + 1, heard := x.heard && decide (x.age + 1 < 4) })).updCadPort p
      (fun x => { x with t1 := some s.stamp })).sendFlit p { type := 4, src := s.nodeId }) := by
  simp [execSyncExchange, hp, hup, hhold, hen]

/-- The bytes that answer a request: both time stamps, the state, the hop count, the best key known (14 R405). -/
def State.syncAnswer (s : State) : List Byte :=
  stampBytes s.stamp ++ stampBytes s.stamp ++ leBytes 1 s.cad.state ++ leBytes 1 s.cad.hops ++ leBytes 2 0 ++
    leBytes 4 (min s.cad.key s.ownKey)

theorem execSyncReq_of_arrive {s1 : State} {x : Flit} (h : s.arrive p 4 w = .flit s1 x) (hhold : (s1.kport p).hold = false) :
    execSyncReq p w s = .next (s1.sendFlit p { type := 5, src := s1.nodeId, payload := s1.syncAnswer }) := by
  simp only [execSyncReq, h, hhold, Bool.false_eq_true, if_false, State.syncAnswer]

/-- What a port keeps of a response to a request that left at t1 (14 R405, R406). -/
def CadPort.afterResponse (y : CadPort) (t1 t4 : Nat) (b : List Byte) : CadPort :=
  { y with t1 := none, theta := (((stampOf b : Int) - t1) - ((t4 : Int) - stampOf (b.drop 10))) / 2 - y.asym, heard := true, age := 0,
           state := getLE b 0x14 1, hops := getLE b 0x15 1, key := getLE b 0x18 4 % 2 ^ 26 }

theorem execSyncRsp_of_arrive {s1 : State} {x : Flit} {t1 : Nat} (h : s.arrive p 5 w = .flit s1 x) (ht1 : (s1.cad.port p).t1 = some t1)
    (hcal : (s1.kport p).calib = true) :
    ∃ u : State, execSyncRsp p w s = .next u.electMaster ∧ u.cad.port p = (s1.cad.port p).afterResponse t1 s1.stamp x.payload := by
  refine ⟨_, by simp only [execSyncRsp, h, ht1, hcal, Bool.not_true, Bool.false_eq_true, if_false]; rfl, ?_⟩
  rw [State.cadPort_updCadPort]
  rfl

/-! ### Arming and disarming (14 R413, R414, R418, R419) -/

/-- CAD_ARMST takes a handle and a result. -/
def State.armAnswer (s : State) (t h code : Nat) : State :=
  s.updTile t (fun x => { x with eng := { x.eng with cadArmst := BitVec.ofNat 32 (h + code * 2 ^ 16) } })

theorem State.armAnswer_cadArmst (s : State) (t h code : Nat) : ((s.armAnswer t h code).tile t).eng.cadArmst = BitVec.ofNat 32 (h + code * 2 ^ 16) := by
  rw [State.armAnswer, State.tile_updTile]

theorem exec_cadArm (s : State) (t : Nat) (v : BitVec 64) : exec (.cadArm t v) s = execCadArm t v s := rfl

theorem execCadArm_of_noHandle (hb : (s.tile t).bound = some f) (hh : s.cad.freeHandle = none) :
    execCadArm t v s = .next (s.armAnswer t 0 1) := by
  simp only [execCadArm, hb, hh, State.armAnswer]

theorem execCadArm_of_many {h : Nat} (hb : (s.tile t).bound = some f) (hh : s.cad.freeHandle = some h)
    (hmany : 64 ≤ (s.cad.acts.filter (fun p => p.2.f == f)).length) : execCadArm t v s = .next (s.armAnswer t 0 1) := by
  simp only [execCadArm, hb, hh, if_pos hmany, State.armAnswer]

/-- An entry image that cannot be read, or whose fields break R413 or name what is another's, is refused with code 2 (14 R414). -/
theorem execCadArm_of_bad {h : Nat} (hb : (s.tile t).bound = some f) (hh : s.cad.freeHandle = some h)
    (hfew : (s.cad.acts.filter (fun p => p.2.f == f)).length < 64)
    (hbad : s.rangeOk f (field v 5 59 * 32) 32 1 = false ∨ (s.readBytes (field v 5 59 * 32) 32).2 = true ∨
      s.armOk f (s.readBytes (field v 5 59 * 32) 32).1 = false) : execCadArm t v s = .next (s.armAnswer t 0 2) := by
  have hcond : (!s.rangeOk f (field v 5 59 * 32) 32 1 || (s.readBytes (field v 5 59 * 32) 32).2 ||
      !s.armOk f (s.readBytes (field v 5 59 * 32) 32).1) = true := by
    rcases hbad with h | h | h <;> simp [h]
  simp only [execCadArm, hb, hh, if_neg (Nat.not_le.mpr hfew), hcond, if_true, State.armAnswer]

/-- The entry that an image arms, with the tick of the queued pulse that an AFTER entry consumes (14 R413, R415, R418). -/
def State.armedEntry (s : State) (f : Nat) (b : List Byte) (pulse : Option Nat) : Action :=
  let after := getLE b 9 1 / 2 % 2 == 1
  let tick := match pulse with | some k => k + getLE b 0 8 | none => getLE b 0 8
  let waits := after && pulse.isNone
  let late := !waits && decide (tick ≤ s.ticks)
  { f, tick, action := getLE b 8 1, drop := getLE b 9 1 % 2 == 1, flag := getLE b 0x0A 1, wait := if waits then some (getLE b 0x0B 1) else none,
    target := getLE b 0x0C 2, qslot := getLE b 0x0E 2, arg := getLE b 0x10 8, status := getLE b 0x18 8, seq := s.cad.nextSeq, late,
    due := if late then some s.ticks else none }

/-- The queued pulse that an AFTER entry consumes as it is armed (14 R418). -/
def State.armPulse (s : State) (f : Nat) (b : List Byte) : Option (Nat × State) :=
  if getLE b 9 1 / 2 % 2 == 1 then s.takePulse f (getLE b 0x0B 1) else none

theorem execCadArm_of_passes {h : Nat} {b : List Byte} (hblock : (s.readBytes (field v 5 59 * 32) 32).1 = b)
    (hb : (s.tile t).bound = some f) (hh : s.cad.freeHandle = some h) (hfew : (s.cad.acts.filter (fun p => p.2.f == f)).length < 64)
    (hread : s.rangeOk f (field v 5 59 * 32) 32 1 = true) (hclean : (s.readBytes (field v 5 59 * 32) 32).2 = false)
    (hok : s.armOk f b = true) :
    execCadArm t v s = .next (((((s.armPulse f b).map (·.2)).getD s).updCad (fun c => { c with
      acts := c.acts.set h (s.armedEntry f b ((s.armPulse f b).map (·.1))), nextSeq := c.nextSeq + 1 })).armAnswer t h 0) := by
  subst hblock
  simp only [execCadArm, hb, hh, if_neg (Nat.not_le.mpr hfew), hread, hclean, hok, Bool.not_true, Bool.or_false, Bool.false_eq_true, if_false]
  cases hp : s.armPulse f (s.readBytes (field v 5 59 * 32) 32).1 <;> simp only [State.armPulse] at hp <;> rw [hp] <;> rfl

theorem State.armedEntry_of_absolute {b : List Byte} (h : getLE b 9 1 / 2 % 2 = 0) :
    (s.armedEntry f b none).tick = getLE b 0 8 ∧ (s.armedEntry f b none).wait = none ∧
      (s.armedEntry f b none).due = if getLE b 0 8 ≤ s.ticks then some s.ticks else none := by
  simp [State.armedEntry, h]

theorem State.armedEntry_of_waiting {b : List Byte} (h : getLE b 9 1 / 2 % 2 = 1) :
    (s.armedEntry f b none).wait = some (getLE b 0x0B 1) ∧ (s.armedEntry f b none).due = none := by
  simp [State.armedEntry, h]

theorem State.armPulse_of_absolute {b : List Byte} (h : getLE b 9 1 / 2 % 2 = 0) : s.armPulse f b = none := by
  simp [State.armPulse, h]

theorem State.armPulse_of_empty {b : List Byte} (h : s.cad.trig.getD (f * 8 + getLE b 0x0B 1) [] = []) : s.armPulse f b = none := by
  simp [State.armPulse, State.takePulse, h]

theorem execCadDisarm_of_own (hb : (s.tile t).bound = some f) (ha : s.cad.acts.find? (field v 0 10) = some a) (hf : a.f = f) :
    execCadDisarm t v s = .next (s.actEnd (field v 0 10) a 6) := by
  simp only [execCadDisarm, hb, ha, hf, if_true]

/-- An entry that ends is free. -/
theorem State.actEnd_frees (s : State) (e : Nat) (a : Action) (o : Nat) : (s.actEnd e a o).cad.acts.find? e = none :=
  Tab.find?_filter_of_false (c := fun j => j != e) (by simp) _

/-! ### Due entries (14 R415, R416) -/

section Due

variable (ha : s.cad.acts.find? e = some a) (hdue : a.due.isSome = true)
include ha hdue

/-- A due entry in its turn acts by its kind, by how late it is and by whether its target is ready (14 R415, R416). -/
theorem execActionDue_of_turn (hfew : s.cad.launched < 4) (hturn : s.actBehind e a = false) :
    execActionDue e s = .next (
      let spent := a.late || decide (s.cad.slack < lateness s a.due)
      let ready := s.actReady a
      if a.drop then
        if spent then s.actDrop e a (if a.action = 3 ∧ !ready then 4 else 3)
        else if ready then s.actLaunch e a
        else if s.cad.slack ≤ lateness s a.due then s.actDrop e a (if a.action = 3 then 4 else 3)
        else s
      else if ready then s.actLaunch e a
      else if a.action = 3 then s.actDrop e a 4
      else s) := by
  have hgo : ¬(a.due.isNone = true ∨ 4 ≤ s.cad.launched ∨ s.actBehind e a = true) := by
    simp [hturn, Option.isNone_eq_false_iff.mpr hdue]
    omega
  simp only [execActionDue, ha, if_neg hgo]

theorem execActionDue_of_ready (hfew : s.cad.launched < 4) (hturn : s.actBehind e a = false) (hready : s.actReady a = true)
    (hfresh : a.drop = true → a.late = false ∧ lateness s a.due ≤ s.cad.slack) : execActionDue e s = .next (s.actLaunch e a) := by
  rw [execActionDue_of_turn ha hdue hfew hturn]
  by_cases hdrop : a.drop = true
  · obtain ⟨hlate, hslack⟩ := hfresh hdrop
    simp [hdrop, hready, hlate, Nat.not_lt.mpr hslack]
  · simp [hdrop, hready]

theorem execActionDue_of_spent (hfew : s.cad.launched < 4) (hturn : s.actBehind e a = false) (hdrop : a.drop = true) (hact : a.action ≠ 3)
    (hspent : a.late = true ∨ s.cad.slack < lateness s a.due) : execActionDue e s = .next (s.actDrop e a 3) := by
  have hs : (a.late || decide (s.cad.slack < lateness s a.due)) = true := by simpa using hspent
  simp only [execActionDue_of_turn ha hdue hfew hturn, hdrop, hs, if_true, hact, false_and, if_false]

theorem execActionDue_of_lost (hfew : s.cad.launched < 4) (hturn : s.actBehind e a = false) (hact : a.action = 3)
    (hready : s.actReady a = false) (hdrop : a.drop = false) : execActionDue e s = .next (s.actDrop e a 4) := by
  simp only [execActionDue_of_turn ha hdue hfew hturn, hdrop, hready, hact, Bool.false_eq_true, if_false, if_true]

theorem execActionReady_of_ready (hdrop : a.drop = false) (hready : s.actReady a = true) (hfew : s.cad.launched < 4) :
    execActionReady e s = .next (s.actLaunch e a) := by
  simp [execActionReady, ha, Option.isNone_eq_false_iff.mpr hdue, hdrop, hready, Nat.not_le.mpr hfew]

theorem execActionTimeout_of_notReady (hdrop : a.drop = false) (hready : s.actReady a = false) :
    execActionTimeout e s = .next (s.actDrop e a 5) := by
  simp [execActionTimeout, ha, Option.isNone_eq_false_iff.mpr hdue, hdrop, hready]

end Due

/-! ### Trigger pulses (14 R418, R419) -/

/-- The earlier armed of the entry found so far and the next one. -/
def Action.firstArmed (o : Option (Nat × Action)) (y : Nat × Action) : Option (Nat × Action) :=
  match o with
  | none => some y
  | some z => if y.2.seq < z.2.seq then some y else some z

/-- An entry armed before every other of a list is the first armed of it. -/
theorem Action.foldl_firstArmed {l : List (Nat × Action)} {z : Nat × Action} (hz : ∀ y ∈ l, y ≠ z → z.2.seq < y.2.seq)
    {o : Option (Nat × Action)} (ho : o = some z ∨ z ∈ l ∧ ∀ y, o = some y → z.2.seq < y.2.seq) :
    l.foldl Action.firstArmed o = some z := by
  induction l generalizing o with
  | nil => exact ho.resolve_right fun h => nomatch h.1
  | cons x r ih =>
    have hr : ∀ y ∈ r, y ≠ z → z.2.seq < y.2.seq := fun y hy => hz y (List.mem_cons_of_mem _ hy)
    refine ih hr ?_
    by_cases hx : x = z
    · subst hx
      left
      rcases ho with rfl | ⟨_, hlt⟩
      · simp [Action.firstArmed]
      · cases o with
        | none => rfl
        | some y => simp [Action.firstArmed, hlt y rfl]
    · have hlt := hz x List.mem_cons_self hx
      rcases ho with rfl | ⟨hmem, hbefore⟩
      · left
        simp [Action.firstArmed, Nat.not_lt.mpr hlt.le]
      · right
        refine ⟨(List.mem_cons.mp hmem).resolve_left (Ne.symm hx), fun y hy => ?_⟩
        cases o with
        | none => exact (Option.some.inj hy) ▸ hlt
        | some y' =>
          simp only [Action.firstArmed] at hy
          split at hy
          · exact (Option.some.inj hy) ▸ hlt
          · exact (Option.some.inj hy) ▸ hbefore y' rfl

/-- The entries of a function that wait on an input. -/
def State.waitingOn (s : State) (f k : Nat) : List (Nat × Action) := s.cad.acts.filter (fun y => y.2.f == f && y.2.wait == some k)

theorem State.mem_waitingOn {y : Nat × Action} : y ∈ s.waitingOn f k ↔ y ∈ s.cad.acts ∧ y.2.f = f ∧ y.2.wait = some k := by
  simp [State.waitingOn]

/-- A pulse of the current epoch goes to the oldest entry that waits on its input, else to the input's queue (14 R418, R419). -/
theorem execTriggerPulse_of_current {x : Pulse} {r : List Pulse}
    (hp : pickFirst (fun (x : Pulse) => x.f == f && x.trig && x.idx == k) s.pulses = some (x, r)) (hepoch : x.epoch = s.epochOf f) (hk : k < 8) :
    execTriggerPulse f k s = .next (
      let s1 : State := { s with pulses := r }
      match (s.waitingOn f k).foldl Action.firstArmed none with
      | some (e, a) => s1.updCad (fun c => { c with acts := c.acts.set e { a with
          tick := s.ticks + a.tick, wait := none, due := if s.ticks + a.tick ≤ s.ticks then some s.ticks else none } })
      | none =>
        if (s.cad.trig.getD (f * 8 + k) []).length < 4 then s1.updCad (fun c => { c with trig := c.trig.upd (f * 8 + k) [] (fun l => l ++ [s.ticks]) })
        else s1.updCad (fun c => { c with ovf := c.ovf.upd (f * 8 + k) 0 (· + 1) })) := by
  have hcur : ¬((x.epoch != s.epochOf f) = true ∨ 8 ≤ k) := by simp [hepoch, hk]
  simp only [execTriggerPulse, hp]
  exact congrArg Host.Outcome.next (if_neg hcur)

/-- A pulse that an entry waits on is consumed by the entry armed first. -/
theorem execTriggerPulse_of_waiting {x : Pulse} {r : List Pulse}
    (hp : pickFirst (fun (x : Pulse) => x.f == f && x.trig && x.idx == k) s.pulses = some (x, r)) (hepoch : x.epoch = s.epochOf f) (hk : k < 8)
    (hmem : (e, a) ∈ s.waitingOn f k) (hfirst : ∀ y ∈ s.waitingOn f k, y ≠ (e, a) → a.seq < y.2.seq) :
    execTriggerPulse f k s = .next (State.updCad { s with pulses := r } (fun c => { c with acts := c.acts.set e { a with
      tick := s.ticks + a.tick, wait := none, due := if s.ticks + a.tick ≤ s.ticks then some s.ticks else none } })) := by
  rw [execTriggerPulse_of_current hp hepoch hk, Action.foldl_firstArmed (o := none) hfirst (.inr ⟨hmem, nofun⟩)]

/-- A pulse that no entry waits on is queued, a fifth one counted. -/
theorem execTriggerPulse_of_unwaited {x : Pulse} {r : List Pulse}
    (hp : pickFirst (fun (x : Pulse) => x.f == f && x.trig && x.idx == k) s.pulses = some (x, r)) (hepoch : x.epoch = s.epochOf f) (hk : k < 8)
    (hnone : s.waitingOn f k = []) :
    execTriggerPulse f k s = .next (
      if (s.cad.trig.getD (f * 8 + k) []).length < 4 then
        State.updCad { s with pulses := r } (fun c => { c with trig := c.trig.upd (f * 8 + k) [] (fun l => l ++ [s.ticks]) })
      else State.updCad { s with pulses := r } (fun c => { c with ovf := c.ovf.upd (f * 8 + k) 0 (· + 1) })) := by
  rw [execTriggerPulse_of_current hp hepoch hk, hnone]
  rfl

theorem State.waitingOn_eq_nil (h : ∀ y ∈ s.cad.acts, y.2.f = f → y.2.wait ≠ some k) : s.waitingOn f k = [] :=
  List.eq_nil_iff_forall_not_mem.mpr fun y hy => by
    obtain ⟨hmem, hf, hwait⟩ := State.mem_waitingOn.mp hy
    exact h y hmem hf hwait

/-- Settles O55, command by command, with the rules above. -/
theorem cadenceCommands : Obligations.CadenceCommands := by
  intro s t f e p k v w
  refine ⟨⟨_, rfl, rfl, rfl, rfl, rfl, rfl, rfl, fun a ha hdue hwait => ?clock⟩, s.electMaster_master_iff,
    fun u hu hlo hhi => execCadenceSteer_rateOk hu ⟨hlo, hhi⟩, fun hlow hhost => ⟨_, execCadenceSteer_of_lowest hlow hhost, rfl, ?masterState, ?hops, ?key⟩,
    fun hptm => ⟨fun hm he => ⟨_, execPtmDialogue_of_master hptm hm he, rfl, rfl, rfl⟩, fun hm => ⟨_, execPtmDialogue_of_other hptm hm, rfl, rfl⟩⟩,
    fun hp hup hhold hen => ?exchange, fun s1 x harr hhold => ?request, fun s1 x t1 harr ht1 hcal => ?response, fun hb => ?arm,
    fun a hb ha hf => execCadDisarm_of_own hb ha hf, s.actEnd_frees e, fun a ha hdue => ?due, fun x r hp hepoch hk => ?pulse⟩
  case clock => exact Cadence.find?_markDue _ ha hdue hwait
  case masterState | hops | key => rw [State.electMaster_of_lowest hlow]; rfl
  case exchange =>
    obtain ⟨ack, cred, hsent⟩ := State.sendFlit_sent ((s.updCadPort p (fun x => { x with
      age := x.age + 1, heard := x.heard && decide (x.age + 1 < 4) })).updCadPort p (fun x => { x with t1 := some s.stamp })) p { type := 4, src := s.nodeId }
    exact ⟨_, _, execSyncExchange_of_up hp hup hhold hen, by rw [State.sendFlit_cad, State.cadPort_updCadPort], hsent, rfl⟩
  case request =>
    obtain ⟨ack, cred, hsent⟩ := State.sendFlit_sent s1 p { type := 5, src := s1.nodeId, payload := s1.syncAnswer }
    exact ⟨_, _, execSyncReq_of_arrive harr hhold, hsent, rfl, rfl⟩
  case response =>
    obtain ⟨u, hu, hport⟩ := execSyncRsp_of_arrive harr ht1 hcal
    refine ⟨_, hu, ?_⟩
    rw [State.electMaster_port, hport]
    exact ⟨rfl, rfl, rfl⟩
  case arm =>
    dsimp only
    rw [exec_cadArm]
    refine ⟨fun hh => ⟨_, execCadArm_of_noHandle hb hh, s.armAnswer_cadArmst t 0 1, rfl⟩, fun hh hmany => ?many,
      fun h hh hfew => ⟨fun hbad => ⟨_, execCadArm_of_bad hb hh hfew hbad, s.armAnswer_cadArmst t 0 2, rfl⟩, fun hread hclean hok => ?armed⟩⟩
    case many =>
      obtain ⟨h, hh⟩ := Option.ne_none_iff_exists'.mp hh
      exact ⟨_, execCadArm_of_many hb hh hmany, s.armAnswer_cadArmst t 0 1, rfl⟩
    case armed =>
      refine ⟨_, _, execCadArm_of_passes rfl hb hh hfew hread hclean hok, ?code, Tab.find?_set_self _ _ _, rfl, rfl, rfl, rfl, rfl,
        fun habs => ?absolute, fun hafter hempty => ?waiting⟩
      case code => exact (State.armAnswer_cadArmst _ _ _ _).trans (by rw [Nat.zero_mul, Nat.add_zero])
      case absolute =>
        rw [State.armPulse_of_absolute habs]
        exact State.armedEntry_of_absolute habs
      case waiting =>
        rw [State.armPulse_of_empty hempty]
        exact State.armedEntry_of_waiting hafter
  case due =>
    exact ⟨fun hfew hturn => ⟨execActionDue_of_ready ha hdue hfew hturn, execActionDue_of_spent ha hdue hfew hturn,
        execActionDue_of_lost ha hdue hfew hturn⟩,
      fun hdrop => ⟨execActionReady_of_ready ha hdue hdrop, execActionTimeout_of_notReady ha hdue hdrop⟩⟩
  case pulse =>
    have hu := execTriggerPulse_of_current hp hepoch hk
    refine ⟨_, hu, ?rest, fun a hmem hf hwait hfirst => ?consumed, fun hnone => ?unwaited⟩
    case rest =>
      dsimp only
      split
      · rfl
      · split <;> rfl
    case consumed =>
      have hmem' : (e, a) ∈ s.waitingOn f k := State.mem_waitingOn.mpr ⟨hmem, hf, hwait⟩
      have hfirst' : ∀ y ∈ s.waitingOn f k, y ≠ (e, a) → a.seq < y.2.seq := fun y hy hne =>
        have ⟨hy, hyf, hyw⟩ := State.mem_waitingOn.mp hy
        hfirst y hy hyf hyw hne
      rw [Host.Outcome.next.inj (hu.symm.trans (execTriggerPulse_of_waiting hp hepoch hk hmem' hfirst'))]
      exact Tab.find?_set_self _ _ _
    case unwaited =>
      rw [Host.Outcome.next.inj (hu.symm.trans (execTriggerPulse_of_unwaited hp hepoch hk (State.waitingOn_eq_nil hnone)))]
      refine ⟨?acts, fun hroom => ?queued, fun hfull => ?counted⟩
      case acts => split <;> rfl
      case queued => rw [if_pos hroom, State.updCad_cad, Tab.getD_upd_self]
      case counted => rw [if_neg (Nat.not_lt.mpr hfull), State.updCad_cad, Tab.getD_upd_self]

end Sys2Proof.Machine
end

section
/-! PROOFS. Obligation O56 (Krelor links): arrival, replay, lanes, bring-up, deadlines. -/

namespace Sys2Proof.Machine

variable {s s1 : State} {p l r x rev len : Nat} {w : BitVec 2048} {y : Flit} {skew : Option (BitVec 128)}

/-! ### Ports -/

theorem State.kport_updPort_ne (s : State) (g : KPort → KPort) (h : p ≠ r) : (s.updPort p g).kport r = s.kport r := Tab.getD_upd_ne _ _ _ h

@[simp] theorem State.kport_log (s : State) (event cls func ukind unit status addr detail : Nat) :
    (s.log event cls func ukind unit status addr detail).kport p = s.kport p := by
  simp only [State.kport, State.log_krl]

/-- A LINK flit stands first among what its port sent; beside it the port's count of unacknowledged flits and its credits change. -/
theorem State.kport_sendLink (s : State) (p op : Nat) (body : List Byte) :
    ∃ y owed, (s.sendLink p op body).kport p = { s.kport p with sent := y :: (s.kport p).sent, unacked := 0, owed } ∧ y.type = 6 ∧
      y.payload = padTo 224 (leBytes 2 op ++ body) := by
  refine ⟨{ type := 6, ack := ((s.kport p).rxSeq + 0xFFFF) % 0x10000, cred := (s.kport p).creditDue.2 + 16 * (s.kport p).creditDue.1,
            payload := padTo 224 (leBytes 2 op ++ body) },
    (s.kport p).owed.mapIdx (fun j v => if j = (s.kport p).creditDue.1 then v - (s.kport p).creditDue.2 else v), ?_, rfl, rfl⟩
  rw [State.sendLink, State.kport_updPort]

theorem State.kport_sendLink_ne (s : State) (op : Nat) (body : List Byte) (h : p ≠ r) : (s.sendLink p op body).kport r = s.kport r :=
  State.kport_updPort_ne _ _ h

/-! ### Arrival (15 R432 to R434) -/

theorem State.arrive_of_badCrc (ty : Nat) (hlink : (s.kport p).linked = true) (hbad : flitOk (flitBytes w) = false) :
    s.arrive p ty w = .done ((s.updPort p (fun k => { k with crcErr := k.crcErr + 1 })).sendNak p) := by
  simp [State.arrive, hlink, hbad]

/-- The answer to a flit that fails its CRC is a NAK of the sequence number expected. -/
theorem State.arrive_badCrc_nak (ty : Nat) (hlink : (s.kport p).linked = true) (hbad : flitOk (flitBytes w) = false) :
    ∃ s1 y, s.arrive p ty w = .done s1 ∧ (s1.kport p).crcErr = (s.kport p).crcErr + 1 ∧ (s1.kport p).rxSeq = (s.kport p).rxSeq ∧
      (s1.kport p).sent = y :: (s.kport p).sent ∧ y.type = 6 ∧ y.payload = padTo 224 (leBytes 2 1 ++ leBytes 2 (s.kport p).rxSeq) ∧
      s1.tiles = s.tiles ∧ s1.mem = s.mem := by
  obtain ⟨y, owed, hsent, hy, hpay⟩ := State.kport_sendLink (s.updPort p (fun k => { k with crcErr := k.crcErr + 1 })) p 1
    (leBytes 2 ((s.updPort p (fun k => { k with crcErr := k.crcErr + 1 })).kport p).rxSeq)
  rw [State.kport_updPort] at hsent hpay
  refine ⟨_, y, State.arrive_of_badCrc ty hlink hbad, ?_, ?_, ?_, hy, hpay, rfl, rfl⟩ <;>
    rw [State.sendNak, State.kport_updPort, hsent]

/-- What a flit that goes on to its command has passed (15 R433, R434). -/
theorem State.arrive_eq_flit {ty : Nat} (h : s.arrive p ty w = .flit s1 y) :
    (s.kport p).linked = true ∧ flitOk (flitBytes w) = true ∧ y = parseFlit (flitBytes w) ∧ y.type = ty ∧
      (y.sequenced = true → (s1.kport p).state = 4 ∧ (s1.kport p).rxSeq = (y.seq + 1) % 0x10000) := by
  by_cases hlink : (s.kport p).linked = true
  swap
  · simp [State.arrive, hlink] at h
  by_cases hok : flitOk (flitBytes w) = true
  swap
  · simp [State.arrive, hlink, hok] at h
  by_cases hty : (parseFlit (flitBytes w)).type = ty
  swap
  · simp [State.arrive, hlink, hok, hty] at h
  simp only [State.arrive, hlink, hok, hty, Bool.not_true, Bool.false_eq_true, if_false, ne_eq, not_true_eq_false] at h
  by_cases hseq : (parseFlit (flitBytes w)).sequenced = true
  · simp only [hseq, Bool.not_true, Bool.false_eq_true, if_false] at h
    split at h
    · cases h
    · next hup =>
      split at h
      · next hnext =>
        obtain ⟨rfl, rfl⟩ := Arrived.flit.inj h
        refine ⟨hlink, hok, rfl, hty, fun _ => ?_⟩
        rw [State.kport_updPort, hnext]
        exact ⟨not_not.mp hup, rfl⟩
      · split at h <;> cases h
  · simp only [hseq, Bool.not_false, if_true] at h
    obtain ⟨rfl, rfl⟩ := Arrived.flit.inj h
    exact ⟨hlink, hok, rfl, hty, fun hs => absurd hs hseq⟩

/-! ### Exchange flits (15 R442, R455, R456) -/

theorem execIdle_of_arrive (h : s.arrive p 0 w = .flit s1 y) : execIdle p w s = .next s1 := by
  simp only [execIdle, h]

theorem execLinkAck_of_arrive (h : s.arriveLink p 0 w = .flit s1 y) : execLinkAck p w s = .next s1 := by
  simp only [execLinkAck, h]

section Data

variable (h : s.arrive p 1 w = .flit s1 y)
include h

theorem execDataFlit_of_other (hdst : y.dst ≠ s1.nodeId) :
    execDataFlit p w s = .next ((s1.giveCredit p y.vc).forward y (some (s1.logicalPort p))) := by
  simp only [execDataFlit, h, if_pos hdst, State.transit]

theorem execDataFlit_of_open {z : Xchg} (hdst : y.dst = s1.nodeId) (hz : s1.xchg y.xchg = some z) :
    execDataFlit p w s = .next (s1.takeData p y y.xchg z) := by
  simp only [execDataFlit, h, if_neg (not_not.mpr hdst), hz]

theorem execDataFlit_of_unopened (hdst : y.dst = s1.nodeId) (hz : s1.xchg y.xchg = none) :
    execDataFlit p w s = .next ((s1.giveCredit p y.vc).krlDiscard p) := by
  simp only [execDataFlit, h, if_neg (not_not.mpr hdst), hz]

end Data

theorem State.krlDiscard_discard (s : State) (p : Nat) : ((s.krlDiscard p).kport p).discard = (s.kport p).discard + 1 := by
  rw [State.krlDiscard, State.kport_updPort]

theorem execSack_of_open {z : Xchg} (h : s.arrive p 2 w = .flit s1 y) (hdst : y.dst = s1.nodeId)
    (hz : (s1.giveCredit p y.vc).xchg y.xchg = some z) (hround : y.round < z.rounds) :
    execSack p w s = .next (((s1.giveCredit p y.vc).updRound y.xchg y.round (fun r => { r with sacks := (y.offset :: r.sacks).eraseDups })).roundCheck
      y.xchg y.round) := by
  simp only [execSack, h, if_neg (not_not.mpr hdst), hz, if_neg (Nat.not_le.mpr hround)]

section Abort

variable (h : s.arrive p 3 w = .flit s1 y) (hdst : y.dst = s1.nodeId)
include h hdst

theorem execAbort_of_open {z : Xchg} (hz : (s1.giveCredit p y.vc).xchg y.xchg = some z) :
    execAbort p w s = .next ((s1.giveCredit p y.vc).failQuery z.f z.qslot 0x0602) := by
  simp only [execAbort, h, if_neg (not_not.mpr hdst), hz]

/-- An ABORT of an exchange that has not been open is remembered, sixteen of them at most (15 R455). -/
theorem execAbort_of_unopened (hz : (s1.giveCredit p y.vc).xchg y.xchg = none)
    (hnew : (s1.giveCredit p y.vc).krl.closed.contains y.xchg = false) :
    ∃ u, execAbort p w s = .next u ∧
      u.krl.aborts = ((y.xchg, (s1.giveCredit p y.vc).ticks) :: (s1.giveCredit p y.vc).krl.aborts).take 16 := by
  refine ⟨{ s1.giveCredit p y.vc with krl := { (s1.giveCredit p y.vc).krl with
    aborts := ((y.xchg, (s1.giveCredit p y.vc).ticks) :: (s1.giveCredit p y.vc).krl.aborts).take 16 } }, ?_, rfl⟩
  simp only [execAbort, h, if_neg (not_not.mpr hdst), hz, hnew, Bool.false_eq_true, if_false]

end Abort

/-! ### Replay (15 R434) -/

/-- A resend keeps the buffer's flits with the time noted, in their order, and sends each of them once. -/
theorem State.kport_resend (s : State) (p : Nat) : (s.resend p).kport p = { s.kport p with
    replay := (s.kport p).replay.map (fun r => { r with tick := s.ticks, resent := r.resent + 1 }),
    sent := ((s.kport p).replay.map (fun r => { r.flit with ack := ((s.kport p).rxSeq + 0xFFFF) % 0x10000, cred := 0 })).reverse ++ (s.kport p).sent,
    replayed := (s.kport p).replayed + BitVec.ofNat 64 (s.kport p).replay.length } := by
  rw [State.resend, State.kport_updPort]

theorem State.resend_replay_flits (s : State) (p : Nat) :
    ((s.resend p).kport p).replay.map (fun r => r.flit) = (s.kport p).replay.map (fun r => r.flit) := by
  rw [State.kport_resend, List.map_map]
  rfl

theorem State.resend_replay_tick (s : State) (p : Nat) : ∀ r ∈ ((s.resend p).kport p).replay, r.tick = s.ticks := by
  rw [State.kport_resend]
  simp

theorem State.resend_sent_seq (s : State) (p : Nat) : ((s.resend p).kport p).sent.map (fun y => y.seq) =
    ((s.kport p).replay.map (fun r => r.flit.seq)).reverse ++ (s.kport p).sent.map (fun y => y.seq) := by
  rw [State.kport_resend, List.map_append, List.map_reverse, List.map_map]
  rfl

theorem execNak_of_held {i : Nat} (h : s.arriveLink p 1 w = .flit s1 y)
    (hi : (s1.kport p).replay.findIdx? (fun r => r.flit.seq == getLE y.payload 2 2) = some i) :
    execNak p w s = .next ((s1.updPort p (fun k => { k with replay := k.replay.drop i })).resend p) := by
  simp only [execNak, h, hi]

theorem execReplayTimeout_of_held (hup : (s.kport p).state = 4) (hhold : (s.kport p).hold = false) (hrep : (s.kport p).replay ≠ []) :
    execReplayTimeout p s = .next (s.resend p) := by
  simp [execReplayTimeout, hup, hhold, hrep]

/-! ### Bring-up (15 R438, R440) -/

section Hello

variable (h : s.arriveLink p 2 w = .flit s1 y) (hid : (s1.kport p).state = 3)
include h hid

theorem execHello_of_expected (hok : s1.helloOk p y.payload = true) :
    execHello p w s = .next (((s1.updPort p (fun k => { k with
      state := 4, peer := getLE y.payload 4 4 % 2 ^ 18, fails := 0, hold := false })).calibrate p).pump p 256) := by
  simp only [execHello, h, hid, hok, if_true]

theorem execHello_of_other (hbad : s1.helloOk p y.payload = false) :
    execHello p w s = .next ((s1.updPort p (fun k => { k with state := 5, peer := getLE y.payload 4 4 % 2 ^ 18 })).log 0x33 0 0x7F 4 p 0 0
      (getLE y.payload 4 4 % 2 ^ 18 * 2 ^ 32)) := by
  simp only [execHello, h, hid, hbad, if_true, Bool.false_eq_true, if_false]

end Hello

theorem execCablePresent_of_present (hp : p < s.part.ports) : execCablePresent p true s = .next (s.updPort p (fun k => { k with
      cable := true, state := if k.enabled ∧ (k.state = 0 ∨ k.state = 6) then 1 else k.state, fails := 0 })) := by
  simp only [execCablePresent, if_neg (Nat.not_le.mpr hp), if_true]

theorem execCablePresent_of_gone (hp : p < s.part.ports) :
    execCablePresent p false s = .next ((if (s.kport p).state = 4 then s.downPort p else s.updPort p (fun k => { k with state := 0 })).updPort p
      (fun k => { k with cable := false, skew := none })) := by
  simp only [execCablePresent, if_neg (Nat.not_le.mpr hp), Bool.false_eq_true, if_false]

section Cmis

variable (hcmis : (s.kport p).state = 1)
include hcmis

theorem execCmisRead_of_good (hrev : 40 ≤ rev) (hlen : len ≤ 30) :
    execCmisRead p true rev true len skew s = .next (s.updPort p (fun k => { k with state := 2, skew := skew.map skewsOf, fails := 0 })) := by
  simp [execCmisRead, hcmis, hrev, hlen]

theorem execCmisRead_of_refused {ans app : Bool} (hbad : ans = false ∨ rev < 40 ∨ app = false ∨ 30 < len) :
    execCmisRead p ans rev app len skew s = .next ((s.updPort p (fun k => { k with state := 6 })).log 0x32 0 0x7F 4 p 0 0 0) := by
  have hcond : (ans && decide (40 ≤ rev) && app && decide (len ≤ 30)) = false := by
    rcases hbad with h | h | h | h
    · simp [h]
    · simp [Nat.not_le.mpr h]
    · simp [h]
    · simp [Nat.not_le.mpr h]
  simp [execCmisRead, hcmis, hcond]

end Cmis

/-! ### Lanes, and a port that goes down (15 R436, R437) -/

/-- A link's failure leaves its port in state 0 without lanes, whether or not a redundant port takes over. -/
theorem State.kport_downPort (s : State) (p : Nat) : ((s.downPort p).kport p).state = 0 ∧ ((s.downPort p).kport p).lanes = 0 := by
  unfold State.downPort
  extract_lets k s1 pair
  have hs1 : (s1.kport p).state = 0 ∧ (s1.kport p).lanes = 0 := by
    rw [State.kport_log, State.kport_updPort]
    exact ⟨rfl, rfl⟩
  obtain ⟨hstate, hlanes⟩ := hs1
  rcases hpair : pair with _ | r
  · dsimp only
    rw [State.kport_updPort]
    exact ⟨hstate, hlanes⟩
  · have hne : r ≠ p := by
      rintro rfl
      by_cases hk : k.state = 4 ∧ r < 6
      · simp only [pair, if_pos hk] at hpair
        have hmem := List.mem_of_find?_eq_some hpair
        simp only [List.mem_cons, List.not_mem_nil, or_false] at hmem
        omega
      · simp only [pair, if_neg hk] at hpair
        cases hpair
    dsimp only
    rw [State.kport_sendLink_ne _ _ _ hne, State.kport_updPort_ne _ _ hne]
    exact ⟨hstate, hlanes⟩

/-- A redundant port that takes over holds and backs, and what its pair had not got through stays in the replay buffer (15 R437). -/
theorem State.downPort_of_redundant (hup : (s.kport p).state = 4) (hp : p < 6)
    (hr : [6, 7].find? (fun r => (s.kport r).mode == 2 && (s.kport r).pair == p && (s.kport r).state == 4 && !(s.kport r).backing) = some r) :
    ((s.downPort p).kport r).backing = true ∧ ((s.downPort p).kport r).hold = true ∧ ((s.downPort p).kport p).replay = (s.kport p).replay := by
  have hmem := List.mem_of_find?_eq_some hr
  simp only [List.mem_cons, List.not_mem_nil, or_false] at hmem
  have hne : r ≠ p := by omega
  simp only [State.downPort, if_pos (And.intro hup hp), hr]
  refine ⟨?_, ?_, ?_⟩
  · obtain ⟨y, owed, hsent, -, -⟩ := State.kport_sendLink (((s.updPort p (fun k => { k with
      state := 0, lanes := 0, calib := false, hold := false, backing := false })).log 0x31 0 0x7F 4 p 0 0
      ((s.kport p).lanes.toNat + (s.kport p).peer * 2 ^ 32)).updPort r (fun q => { q with backing := true, hold := true })) r 2
      (s.helloBody r (((s.kport p).rxSeq + 0xFFFF) % 0x10000))
    rw [hsent, State.kport_updPort]
  · obtain ⟨y, owed, hsent, -, -⟩ := State.kport_sendLink (((s.updPort p (fun k => { k with
      state := 0, lanes := 0, calib := false, hold := false, backing := false })).log 0x31 0 0x7F 4 p 0 0
      ((s.kport p).lanes.toNat + (s.kport p).peer * 2 ^ 32)).updPort r (fun q => { q with backing := true, hold := true })) r 2
      (s.helloBody r (((s.kport p).rxSeq + 0xFFFF) % 0x10000))
    rw [hsent, State.kport_updPort]
  · rw [State.kport_sendLink_ne _ _ _ hne, State.kport_updPort_ne _ _ hne, State.kport_log, State.kport_updPort]

section LaneFail

variable (hup : (s.kport p).state = 4) (hl : l < 4) (hlane : (s.kport p).lanes.getLsbD l = true)
include hup hl hlane

theorem execLaneFail_of_first (hall : (s.kport p).lanes = 0xF) : execLaneFail p l s = .next ((s.updPort p (fun k => { k with
      lanes := k.lanes &&& ~~~((1 : BitVec 4) <<< l), hold := true, degrade := k.degrade + 1, calib := false })).log 0x30 0 0x7F 4 p 0 0
        (((s.kport p).lanes &&& ~~~((1 : BitVec 4) <<< l)).toNat + (s.kport p).peer * 2 ^ 32)) := by
  have hcond : ¬ ((s.kport p).state ≠ 4 ∨ 4 ≤ l ∨ (!(s.kport p).lanes.getLsbD l) = true) := by simp [hup, hl, hlane]
  simp only [execLaneFail, if_neg hcond, if_neg (not_not.mpr hall)]

theorem execLaneFail_of_second (hsome : (s.kport p).lanes ≠ 0xF) : execLaneFail p l s = .next (s.downPort p) := by
  have hcond : ¬ ((s.kport p).state ≠ 4 ∨ 4 ≤ l ∨ (!(s.kport p).lanes.getLsbD l) = true) := by simp [hup, hl, hlane]
  simp only [execLaneFail, if_neg hcond, if_pos hsome]

end LaneFail

section LaneRetrain

variable (hup : (s.kport p).state = 4) (hhold : (s.kport p).hold = true) (hback : (s.kport p).backing = false)
include hup hhold hback

theorem execLaneRetrainComplete_of_ok : execLaneRetrainComplete p true s = .next
    ((((((s.updPort p (fun k => { k with hold := false, fails := 0 })).sendLink p 2
      (s.helloBody p (((s.kport p).rxSeq + 0xFFFF) % 0x10000))).calibrate p).resend p).pump p 256)) := by
  simp [execLaneRetrainComplete, hup, hhold, hback]

theorem execLaneRetrainComplete_of_third (hfails : 2 ≤ (s.kport p).fails) :
    execLaneRetrainComplete p false s = .next (s.downPort p) := by
  simp [execLaneRetrainComplete, hup, hhold, hback, hfails]

end LaneRetrain

theorem execRetrain_of_idle (hup : (s.kport p).state = 4) (hhold : (s.kport p).hold = false) (hlanes : (s.kport p).lanes ≠ 0xF)
    (hidle : s.krl.xchgs = []) :
    execRetrain p s = .next (s.updPort p (fun k => { k with lanes := 0xF, hold := true, calib := false })) := by
  have hcond : ¬ ((s.kport p).state ≠ 4 ∨ (s.kport p).hold = true ∨ (s.kport p).lanes = 0xF ∨ (!s.krl.xchgs.isEmpty) = true) := by
    rintro (h | h | h | h)
    · exact h hup
    · simp [hhold] at h
    · exact hlanes h
    · simp [hidle] at h
  simp only [execRetrain, State.krlRetrain, if_neg hcond]

section Training

variable (htrain : (s.kport p).state = 2)
include htrain

theorem execTrainComplete_of_ok : execTrainComplete p true s = .next ((s.updPort p (fun k => { k with
        state := 3, lanes := 0xF, txSeq := 1, rxSeq := 1, unacked := 0, replay := [], credits := [64, 64, 64, 64], owed := [0, 0, 0, 0],
        hold := false })).sendLink p 2 (s.helloBody p 0)) := by
  simp [execTrainComplete, htrain]

/-- The third failure in a row takes the port down (15 R438). -/
theorem execTrainComplete_of_failed :
    ∃ u, execTrainComplete p false s = .next u ∧ (u.kport p).state = if 2 ≤ (s.kport p).fails then 0 else 2 := by
  by_cases hf : 2 ≤ (s.kport p).fails
  · refine ⟨s.updPort p (fun k => { k with state := 0, fails := 0 }), by simp [execTrainComplete, htrain, hf], ?_⟩
    rw [State.kport_updPort, if_pos hf]
  · refine ⟨s.updPort p (fun k => { k with fails := k.fails + 1 }), by simp [execTrainComplete, htrain, hf], ?_⟩
    rw [State.kport_updPort, if_neg hf, htrain]

end Training

/-! ### The deadline of a round (15 R454) -/

theorem execRoundDeadline_of_late {y : Xchg} (hx : s.xchg x = some y) (hr : r < y.rounds) (hopen : (y.rnd r).complete = false)
    (hlate : y.deadline r < s.ticks) : execRoundDeadline x s = .next (s.failQuery y.f y.qslot 0x0602) := by
  have hany : (List.range y.rounds).any (fun r => !(y.rnd r).complete && decide (y.deadline r < s.ticks)) = true :=
    List.any_eq_true.mpr ⟨r, List.mem_range.mpr hr, by simp [hopen, hlate]⟩
  simp only [execRoundDeadline, hx, hany, if_true]

/-- Settles O56. -/
theorem krelorCommands : Obligations.KrelorCommands := by
  unfold Obligations.KrelorCommands
  intro s p l x rev len w skew
  refine ⟨?_, ?_, ?_, ?_, ?_, ?_, ?_, ?_, ?_, ?_, ?_, ?_, ?_, ?_, ?_, ?_, ?_, ?_, ?_, ?_, ?_, ?_⟩
  · exact fun ty hlink hbad => State.arrive_badCrc_nak ty hlink hbad
  · exact fun ty s1 y h => State.arrive_eq_flit h
  · exact fun s1 y h => execIdle_of_arrive h
  · intro s1 y h
    rw [exec]
    exact execLinkAck_of_arrive h
  · exact fun s1 y h => ⟨fun hdst => execDataFlit_of_other h hdst, fun z hdst hz => execDataFlit_of_open h hdst hz,
      fun hdst hz => ⟨_, execDataFlit_of_unopened h hdst hz, State.krlDiscard_discard _ _⟩⟩
  · exact fun s1 y h hdst z hz hround => execSack_of_open h hdst hz hround
  · refine fun s1 y h hdst => ⟨fun z hz => execAbort_of_open h hdst hz, fun hz hnew => ?_⟩
    obtain ⟨u, hu, habort⟩ := execAbort_of_unopened h hdst hz hnew
    refine ⟨u, hu, ?_, ?_⟩
    · rw [habort, List.take_succ_cons]
      exact List.mem_cons_self
    · rw [habort]
      exact List.length_take_le _ _
  · intro s1 y i h hi
    rw [exec]
    refine ⟨_, execNak_of_held h hi, ?_, ?_⟩
    · rw [State.resend_replay_flits, State.kport_updPort]
    · rw [State.kport_resend, State.kport_updPort]
      simp only [List.length_drop]
  · intro s1 y h hid
    rw [exec]
    refine ⟨execHello_of_expected h hid, fun hbad => ⟨_, execHello_of_other h hid hbad, ?_, ?_⟩⟩
    · rw [State.kport_log, State.kport_updPort]
    · rw [State.kport_log, State.kport_updPort]
  · refine fun hup hhold hrep => ⟨_, execReplayTimeout_of_held hup hhold hrep, State.resend_replay_flits s p, State.resend_replay_tick s p,
      State.resend_sent_seq s p, ?_, rfl, rfl⟩
    rw [State.kport_resend]
  · refine fun hup hl hlane => ⟨fun hall => ⟨_, execLaneFail_of_first hup hl hlane hall, ?_⟩, execLaneFail_of_second hup hl hlane⟩
    rw [State.kport_log, State.kport_updPort, hall]
    exact ⟨rfl, rfl, rfl, hup, rfl, rfl⟩
  · exact fun hup hhold hback => ⟨execLaneRetrainComplete_of_ok hup hhold hback, execLaneRetrainComplete_of_third hup hhold hback⟩
  · exact fun hup => by rw [exec, execPortDown, if_pos hup]
  · exact (State.kport_downPort s p).1
  · exact (State.kport_downPort s p).2
  · exact fun r hup hp hr => State.downPort_of_redundant hup hp hr
  · refine fun hup hhold hlanes hidle => ⟨_, execRetrain_of_idle hup hhold hlanes hidle, ?_⟩
    rw [State.kport_updPort]
    exact ⟨rfl, rfl, rfl, hup⟩
  · refine fun hp hen hdown => ⟨_, execCablePresent_of_present hp, ?_⟩
    rw [State.kport_updPort]
    exact ⟨if_pos ⟨hen, hdown⟩, rfl⟩
  · refine fun hp => ⟨_, execCablePresent_of_gone hp, ?_⟩
    rw [State.kport_updPort]
    refine ⟨?_, rfl, rfl⟩
    split
    · exact (State.kport_downPort s p).1
    · rw [State.kport_updPort]
  · refine fun hcmis ans app => ⟨?_, fun hbad => ⟨_, execCmisRead_of_refused hcmis hbad, ?_⟩⟩
    · rintro rfl hrev rfl hlen
      refine ⟨_, execCmisRead_of_good hcmis hrev hlen, ?_⟩
      rw [State.kport_updPort]
      exact ⟨rfl, rfl⟩
    · rw [State.kport_log, State.kport_updPort]
  · refine fun htrain => ⟨⟨_, execTrainComplete_of_ok htrain, ?_⟩, execTrainComplete_of_failed htrain⟩
    obtain ⟨y, owed, hsent, -, -⟩ := State.kport_sendLink (s.updPort p (fun k => { k with
      state := 3, lanes := 0xF, txSeq := 1, rxSeq := 1, unacked := 0, replay := [], credits := [64, 64, 64, 64], owed := [0, 0, 0, 0],
      hold := false })) p 2 (s.helloBody p 0)
    rw [hsent, State.kport_updPort]
    exact ⟨rfl, rfl, rfl, rfl, rfl, rfl⟩
  · exact fun y r hx hr hopen hlate => execRoundDeadline_of_late hx hr hopen hlate

end Sys2Proof.Machine
end

section
/-! PROOFS. Obligation O57 (the mailbox): doorbell, order, refusal, reply, and the commands for information, queues, images, time and mesh. -/

namespace Sys2Proof.Machine

variable {s : State} {f op : Nat}

/-! ### The doorbell and the taking of a request (18 R516, R520, R523) -/

theorem State.mbox_updMbox_ne {k : Nat} (s : State) (g : Mailbox → Mailbox) (h : f ≠ k) : (s.updMbox f g).mbox k = s.mbox k :=
  Tab.getD_upd_ne _ _ _ h

theorem execMbDoorbell_mbox_of_free (v : BitVec 32) (hfree : (s.mbox f).busy = false) (hinit : s.dstate ≠ .init) :
    ∃ u, execMbDoorbell f v s = .next u ∧ u.mbox f = { s.mbox f with busy := true, done := false, seq := field v 0 16, req := (s.mbox f).area } := by
  refine ⟨_, rfl, ?_⟩
  rw [State.mbox_updMbox]
  simp [hfree, hinit]

theorem execMbDoorbell_mbox_of_busy (v : BitVec 32) (hbusy : (s.mbox f).busy = true) :
    ∃ u, execMbDoorbell f v s = .next u ∧ u.mbox f = { s.mbox f with overrun := true } := by
  refine ⟨_, rfl, ?_⟩
  rw [State.mbox_updMbox]
  simp [hbusy]

/-- The state in which Eunto has taken a function's request. -/
def State.taken (s : State) (f : Nat) : State := { s with eunto := some f, euntoLast := f, euntoReq := (s.mbox f).req, euntoSeq := (s.mbox f).seq }

section Take

variable (hfree : s.eunto = none) (hreboot : s.upd.reboot = false) (hnext : nextFunc s.euntoLast (fun f => (s.mbox f).busy) = some f)
include hfree hreboot hnext

theorem execMailboxTake_of_passes (hok : (s.taken f).mbCheck f = none) : execMailboxTake s = .next (s.taken f) := by
  unfold State.taken at hok ⊢
  simp [execMailboxTake, hfree, hreboot, hnext, hok]

theorem execMailboxTake_of_fails {c e : Nat} (hbad : (s.taken f).mbCheck f = some (c, e)) :
    execMailboxTake s = .next ((s.taken f).mbReply (s.taken f) f c e []) := by
  unfold State.taken at hbad ⊢
  simp [execMailboxTake, hfree, hreboot, hnext, hbad]

end Take

/-! ### The reply (18 R520, R521) -/

/-- A reply to a function that has not been reset meanwhile is a change of its mailbox and a signal; Eunto is free. -/
theorem State.mbReplyAt_of_heard (s d : State) (f ts st dt : Nat) (pl : List Byte) (hmute : s.euntoMute = false) :
    s.mbReplyAt d f ts st dt pl = (({ s with eunto := none, euntoArg := none, euntoMute := false } : State).updMbox f (fun m => { m with
      area := d.replyBytes ts st dt (if st = 0 then pl else []), busy := false, done := true })).signal f 0 := by
  simp only [State.mbReplyAt, hmute, Bool.false_eq_true, if_false]

/-- What a reply leaves as it was, and what it does to its function's mailbox. -/
theorem State.mbReplyAt_frame (s d : State) (f ts st dt : Nat) (pl : List Byte) (hmute : s.euntoMute = false) :
    let u := s.mbReplyAt d f ts st dt pl
    u.eunto = none ∧ u.euntoArg = none ∧
      u.mbox f = { s.mbox f with area := d.replyBytes ts st dt (if st = 0 then pl else []), busy := false, done := true } ∧
      (∀ k, k ≠ f → u.mbox k = s.mbox k) ∧ u.tiles = s.tiles ∧ u.mem = s.mem ∧ u.tenants = s.tenants ∧ u.krl = s.krl ∧ u.nv = s.nv := by
  dsimp only
  have hmbox : ∀ (u : State) k, (u.signal f 0).mbox k = u.mbox k := fun u k => by rw [State.mbox, State.mbox, State.signal_mboxes]
  rw [State.mbReplyAt_of_heard s d f ts st dt pl hmute]
  refine ⟨State.signal_eunto .., State.signal_euntoArg .., ?_, fun k hk => ?_, State.signal_tiles .., State.signal_mem .., State.signal_tenants ..,
    State.signal_krl .., State.signal_nv ..⟩
  · rw [hmbox, State.mbox_updMbox]
    rfl
  · rw [hmbox, State.mbox_updMbox_ne _ _ (Ne.symm hk)]
    rfl

/-! ### A command that has been taken (18 R523, R530) -/

theorem State.mbRun_of_fails {c e : Nat} (g : State → State) (htaken : s.eunto = some f) (hop : s.mbOp = op) (harg : s.euntoArg = none)
    (hbad : s.mbCheck f = some (c, e)) : s.mbRun f op g = s.mbReply s f c e [] := by
  simp only [State.mbRun, htaken, hop, harg, hbad, and_self, if_true, Option.isSome_none, Bool.false_eq_true, if_false]

theorem State.mbRun_of_due (g : State → State) (h : s.mbDue f op) : s.mbRun f op g = g s := by
  obtain ⟨htaken, hop, harg, hok⟩ := h
  simp only [State.mbRun, htaken, hop, harg, hok, and_self, if_true, Option.isSome_none, Bool.false_eq_true, if_false]

theorem State.mbDue.arg (h : s.mbDue f op) : s.euntoArg = none := h.2.2.1

/-! ### Information (18 R533, R534, R540; 23 R682, R691, R692) -/

theorem execDevInfo_of_due (h : s.mbDue f 0x01) : execDevInfo f s = .next (s.mbReply s f 0 0 (s.devInfo f)) := by
  rw [execDevInfo, State.mbRun_of_due _ h]

theorem execCapQueryPage_of_due (h : s.mbDue f 0x02) (hpage : s.mbPay 0 1 = 0) :
    execCapQueryPage f s = .next (s.mbReply s f 0 0 (s.capPage s.mbTarget)) := by
  rw [execCapQueryPage, State.mbRun_of_due _ h, if_pos hpage]

theorem execCapQueryEntitlement_of_due (h : s.mbDue f 0x02) (hpage : s.mbPay 0 1 = 1) :
    execCapQueryEntitlement f s = .next (s.mbReply s f 0 0 (s.tenant s.mbTarget).ent.bytes) := by
  rw [execCapQueryEntitlement, State.mbRun_of_due _ h, if_pos hpage]

theorem execHealthReport_of_due (h : s.mbDue f 0x60) : execHealthReport f s = .next (s.mbReply s f 0 0 s.healthBytes) := by
  rw [execHealthReport, State.mbRun_of_due _ h]

theorem execMarginReport_of_due (h : s.mbDue f 0x61) : execMarginReport f s = .next (s.mbReply s f 0 0 s.marginBytes) := by
  rw [execMarginReport, State.mbRun_of_due _ h]

/-- The records of the error log, oldest first, that a function sees from the sequence number asked for on. -/
def State.logSeen (s : State) (f : Nat) : List ErrRec :=
  s.errlog.recs.reverse.filter (fun r => decide (s.mbPay 0x10 8 ≤ r.seq) && (f == 0 || r.func == f))

/-- The sequence number of the first record of a list, or the next one to be given. -/
def State.seqOr (s : State) (l : List ErrRec) : Nat := ((l.head?).map (·.seq)).getD s.errlog.nextSeq

theorem State.mem_logSeen {r : ErrRec} (h : r ∈ s.logSeen f) : r ∈ s.errlog.recs ∧ s.mbPay 0x10 8 ≤ r.seq ∧ (f ≠ 0 → r.func = f) := by
  obtain ⟨hrec, htest⟩ := List.mem_filter.mp h
  simp only [Bool.and_eq_true, decide_eq_true_eq, Bool.or_eq_true, beq_iff_eq] at htest
  obtain ⟨hseq, hfunc⟩ := htest
  exact ⟨List.mem_reverse.mp hrec, hseq, fun hf => hfunc.resolve_left hf⟩

theorem State.logSeen_of_empty (h : s.errlog.recs = []) : s.logSeen f = [] := by
  rw [State.logSeen, h, List.reverse_nil, List.filter_nil]

theorem execErrlogRead_of_due (h : s.mbDue f 0x62) (hbuf : s.rangeOk f (s.mbPay 0 8) (s.mbPay 8 4) 2 = true) :
    execErrlogRead f s = .next ((s.writeBytes f (s.mbPay 0 8) (((s.logSeen f).take (s.mbPay 8 4 / 64)).flatMap ErrRec.bytes)).mbReply s f 0 0
      (leBytes 4 ((s.logSeen f).take (s.mbPay 8 4 / 64)).length ++ zeros 4 ++ leBytes 8 (s.seqOr ((s.logSeen f).drop (s.mbPay 8 4 / 64)))
        ++ leBytes 8 (s.seqOr s.errlog.recs.reverse))) := by
  rw [execErrlogRead, State.mbRun_of_due _ h]
  simp only [hbuf, Bool.not_true, Bool.false_eq_true, if_false]
  rfl

/-! ### Queues (18 R539) -/

section QueueCreate

variable (h : s.mbDue f 0x10) (hsq : s.rangeOk f (s.mbPay 8 8) (64 * s.mbPay 0x10 4) 3 = true)
  (hcq : s.rangeOk f (s.mbPay 0x18 8) (16 * s.mbPay 0x14 4) 3 = true)
include h hsq hcq

theorem execQueueCreate_of_room {a : Nat} {s1 : State} (hroom : s.place f 65536 64 = some (a, s1)) :
    execQueueCreate f s = .next ((s1.updTenant f (fun t => { t with pairs := t.pairs ++ [(s.mbPay 0 1, {
      vector := s.mbPay 1 1, coalesce := s.mbPay 4 4, sqBase := s.mbPay 8 8, sqN := s.mbPay 0x10 4, cqBase := s.mbPay 0x18 8, cqN := s.mbPay 0x14 4,
      area := a })] })).mbReply s f 0 0 []) := by
  rw [execQueueCreate, State.mbRun_of_due _ h]
  simp only [hsq, hcq, hroom, Bool.not_true, Bool.or_false, Bool.false_eq_true, if_false]

theorem execQueueCreate_of_full (hfull : s.place f 65536 64 = none) : execQueueCreate f s = .next (s.mbReply s f 0x0307 0 []) := by
  rw [execQueueCreate, State.mbRun_of_due _ h]
  simp only [hsq, hcq, hfull, Bool.not_true, Bool.or_false, Bool.false_eq_true, if_false]

end QueueCreate

theorem execQueueDelete_of_due (h : s.mbDue f 0x11) : execQueueDelete f s =
    .next ((({ s with euntoArg := some (s.tstateByte f) }).beginDelete f (s.mbPay 0 1)).endDelete f (s.mbPay 0 1)) := by
  rw [execQueueDelete, State.mbRun_of_due _ h]
  simp only [h.arg, Option.isSome_none, Bool.false_eq_true, if_false]

theorem State.endDelete_of_busy {q : Nat} (h : s.pairBusy f q = true) : s.endDelete f q = s := by
  rw [State.endDelete, if_pos h]

/-! ### Images and Bramble lists (04 R118, R119; 13 R388) -/

section PipeLoad

variable (h : s.mbDue f 0x20) (hbuf : s.rangeOk f (s.mbPay 0 8) (s.mbPay 8 4) 1 = true) (hsize : s.mbPay 8 4 ≤ 64 * 2 ^ 20)
  (hread : (s.readBytes (s.mbPay 0 8) (s.mbPay 8 4)).2 = false)
include h hbuf hsize hread

theorem execPipeLoad_of_good (hok : s.loadCheck f (s.mbPay 8 4) (s.readBytes (s.mbPay 0 8) (s.mbPay 8 4)).1 = none) :
    execPipeLoad f s = .next (s.loadImage f (s.readBytes (s.mbPay 0 8) (s.mbPay 8 4)).1) := by
  rw [execPipeLoad, State.mbRun_of_due _ h]
  simp only [h.arg, hbuf, hread, hok, if_neg (Nat.not_lt.mpr hsize), Bool.not_true, Bool.false_eq_true, if_false]

theorem execPipeLoad_of_bad {step c : Nat} (hbad : s.loadCheck f (s.mbPay 8 4) (s.readBytes (s.mbPay 0 8) (s.mbPay 8 4)).1 = some (step, c)) :
    execPipeLoad f s = .next (s.mbReply s f c step []) := by
  rw [execPipeLoad, State.mbRun_of_due _ h]
  simp only [h.arg, hbuf, hread, hbad, if_neg (Nat.not_lt.mpr hsize), Bool.not_true, Bool.false_eq_true, if_false]

end PipeLoad

theorem State.replyQuiet_frame (s d : State) (f : Nat) (pl : List Byte) (hmute : s.euntoMute = false) :
    (s.replyQuiet d f pl).tenants = s.tenants ∧ (s.replyQuiet d f pl).tiles = s.tiles := by
  unfold State.replyQuiet
  split
  · obtain ⟨-, -, -, -, htiles, -, hten, -, -⟩ := State.mbReplyAt_frame s d f (d.tstateByte (if d.mbTarget < d.part.funcs then d.mbTarget else f)) 0 0 pl hmute
    exact ⟨hten, htiles⟩
  · exact ⟨rfl, rfl⟩

/-- The load lists that free an image's entries change Bramble arrays alone. -/
theorem State.foldl_brmLoad_frame (ops : State → Nat × Nat → List BrmOp) (l : List (Nat × Nat)) (s : State) :
    (l.foldl (fun (s : State) c => s.brmLoad c.1 (ops s c)) s).tenants = s.tenants ∧
      (l.foldl (fun (s : State) c => s.brmLoad c.1 (ops s c)) s).tiles = s.tiles ∧
      (l.foldl (fun (s : State) c => s.brmLoad c.1 (ops s c)) s).euntoMute = s.euntoMute := by
  induction l generalizing s with
  | nil => exact ⟨rfl, rfl, rfl⟩
  | cons c l ih =>
    rw [List.foldl_cons]
    exact ih (s.brmLoad c.1 (ops s c))

theorem execPipeUnload_of_loaded {im : Image} (h : s.mbDue f 0x21) (hmute : s.euntoMute = false)
    (him : (s.tenant f).images.find? (s.mbPay 0 1) = some im) :
    ∃ u, execPipeUnload f s = .next u ∧ (u.tenant f).images = (s.tenant f).images.erase (s.mbPay 0 1) ∧ u.tiles = s.tiles := by
  rw [execPipeUnload, State.mbRun_of_due _ h]
  simp only [h.arg, Option.isSome_none, Bool.false_eq_true, if_false, him]
  refine ⟨_, rfl, ?_⟩
  set s2 := ((s.unplace f im.addr).unplace f im.scratch).updTenant f (fun t => { t with images := t.images.erase (s.mbPay 0 1) }) with hs2
  obtain ⟨hten, htiles, hm⟩ := State.foldl_brmLoad_frame (fun s c => [.inval (64 * (s.bram c.1).base f + c.2)]) im.claims s2
  set s3 := im.claims.foldl (fun (s : State) c => s.brmLoad c.1 [.inval (64 * (s.bram c.1).base f + c.2)]) s2
  obtain ⟨hten', htiles'⟩ := State.replyQuiet_frame { s3 with euntoArg := some 0 } s3 f [] (hm.trans hmute)
  refine ⟨?_, htiles'.trans htiles⟩
  rw [State.tenant, hten', hten, ← State.tenant, hs2, State.tenant_updTenant, State.unplace, State.tenant_updTenant, State.unplace, State.tenant_updTenant]

theorem execBrambleLoad_of_good {arr : Nat} {ops : List BrlOp} (h : s.mbDue f 0x22) (hbuf : s.rangeOk f (s.mbPay 0 8) (s.mbPay 8 4) 1 = true)
    (hread : (s.readBytes (s.mbPay 0 8) (s.mbPay 8 4)).2 = false)
    (hsize : s.mbPay 8 4 = 16 + 48 * getLE (s.readBytes (s.mbPay 0 8) (s.mbPay 8 4)).1 8 4)
    (hlist : brlOf (s.readBytes (s.mbPay 0 8) (s.mbPay 8 4)).1 = some (arr, ops)) (hon : s.brmOn arr = true)
    (hown : ∀ i ∈ brlIndices ops, s.brmHolds f arr i = true ∧ (s.tenant f).claims.contains (arr, i) = false) :
    execBrambleLoad f s = .next ((({ s.brmLoad arr ((s.bram arr).opsOf f ops) with euntoArg := some ops.length } : State).replyQuiet
      { s.brmLoad arr ((s.bram arr).opsOf f ops) with euntoArg := some ops.length } f (leBytes 4 ops.length))) := by
  have hholds : (brlIndices ops).any (fun i => !s.brmHolds f arr i) = false := by
    rw [List.any_eq_false]
    exact fun i hi => by simp [(hown i hi).1]
  have hclaims : (brlIndices ops).find? (fun i => (s.tenant f).claims.contains (arr, i)) = none :=
    List.find?_eq_none.mpr (fun i hi => by rw [(hown i hi).2]; exact Bool.false_ne_true)
  have hlen : ¬ (s.mbPay 8 4 ≠ 16 + 48 * getLE (s.readBytes (s.mbPay 0 8) (s.mbPay 8 4)).1 8 4 ∨ s.mbPay 8 4 < 16) := by omega
  rw [execBrambleLoad, State.mbRun_of_due _ h]
  simp only [h.arg, hbuf, hread, if_neg hlen, hlist, hon, hholds, hclaims, Bool.not_true, Bool.false_eq_true, if_false]

/-! ### Time and the mesh (14 R407, R411; 15 R441; 18 R540) -/

theorem State.timeAlign_of_due (g : State → State) (h : s.mbDue f 0x40) (hop : s.mbPay 0 1 = op) :
    s.timeAlign f op g = (g s).mbReply s f 0 0 (g s).timeReply := by
  rw [State.timeAlign, State.mbRun_of_due _ h, if_pos hop]

theorem execKrelorSet_of_due (h : s.mbDue f 0x41) (hmute : s.euntoMute = false) : ∃ u, execKrelorSet f s = .next u ∧
    u.nv = { s.nv with
      node := BitVec.ofNat 18 (s.mbPay 0 4), dims := [s.mbPay 4 1, s.mbPay 5 1, s.mbPay 6 1], port6 := BitVec.ofNat 32 (s.mbPay 8 4), port7 := BitVec.ofNat 32 (s.mbPay 12 4) } ∧ u.krl = s.krl ∧ (u.mbox f).busy = false := by
  rw [execKrelorSet, State.mbRun_of_due _ h]
  refine ⟨_, rfl, ?_⟩
  obtain ⟨-, -, hbox, -, -, -, -, hkrl, hnv⟩ := State.mbReplyAt_frame ({ s with nv := { s.nv with
    node := BitVec.ofNat 18 (s.mbPay 0 4), dims := [s.mbPay 4 1, s.mbPay 5 1, s.mbPay 6 1],
    port6 := BitVec.ofNat 32 (s.mbPay 8 4), port7 := BitVec.ofNat 32 (s.mbPay 12 4) } }) s f
    (s.tstateByte (if s.mbTarget < s.part.funcs then s.mbTarget else f)) 0 0 [] hmute
  exact ⟨hnv, hkrl, congrArg Mailbox.busy hbox⟩

/-- Settles O57. -/
theorem mailboxCommands : Obligations.MailboxCommands := by
  unfold Obligations.MailboxCommands
  intro s d f op ts st dt v pl g
  refine ⟨?_, ?_, ?_, ?_, ?_, ?_, ?_, ?_, ?_, ?_, ?_, ?_, ?_, ?_, ?_, ?_, ?_, ?_, ?_⟩
  · exact fun hfree hinit => execMbDoorbell_mbox_of_free v hfree hinit
  · exact fun hbusy => execMbDoorbell_mbox_of_busy v hbusy
  · exact fun hfree hreboot hnext => ⟨execMailboxTake_of_passes hfree hreboot hnext, fun c e => execMailboxTake_of_fails hfree hreboot hnext⟩
  · intro hmute u
    obtain ⟨hfree, harg, hbox, hother, htiles, hmem, hten, -, -⟩ := State.mbReplyAt_frame s d f ts st dt pl hmute
    refine ⟨hfree, harg, ?_, ?_, ?_, ?_, htiles, hmem, hten, hother⟩ <;> rw [hbox]
  · exact fun htaken hop harg c e hbad => State.mbRun_of_fails g htaken hop harg hbad
  · exact fun h => execDevInfo_of_due h
  · exact fun h hpage => execCapQueryPage_of_due h hpage
  · exact fun h hpage => execCapQueryEntitlement_of_due h hpage
  · exact fun h => execHealthReport_of_due h
  · exact fun h => execMarginReport_of_due h
  · refine fun h hbuf => ⟨_, _, _, execErrlogRead_of_due h hbuf, List.length_take_le _ _, fun r hr => State.mem_logSeen (List.mem_of_mem_take hr), fun hnil => ?_⟩
    rw [State.logSeen_of_empty hnil, hnil, List.take_nil, List.drop_nil]
    exact ⟨rfl, rfl, rfl⟩
  · intro h
    refine ⟨fun hop => ?_, fun hop => ?_, fun hop => ?_, fun hop => ?_⟩
    · rw [exec, execTimeAlignRead, State.timeAlign_of_due _ h hop, id]
    · rw [exec, execTimeAlignPriority, State.timeAlign_of_due _ h hop]
      rfl
    · rw [exec, execHostSteeringOn, State.timeAlign_of_due _ h hop]
      rfl
    · rw [exec, execHostSteeringOff, State.timeAlign_of_due _ h hop]
      rfl
  · intro h hmute
    obtain ⟨u, hu, hnv, hkrl, hbusy⟩ := execKrelorSet_of_due h hmute
    exact ⟨u, hu, by rw [hnv], by rw [hnv], by rw [hnv], by rw [hnv], hkrl, hbusy⟩
  · exact fun h hsq hcq => ⟨fun a s1 hroom => execQueueCreate_of_room h hsq hcq hroom, execQueueCreate_of_full h hsq hcq⟩
  · exact fun h => execQueueDelete_of_due h
  · exact fun hbusy => State.endDelete_of_busy hbusy
  · exact fun h hbuf hsize hread => ⟨execPipeLoad_of_good h hbuf hsize hread, fun step c => execPipeLoad_of_bad h hbuf hsize hread⟩
  · exact fun im h hmute him => execPipeUnload_of_loaded h hmute him
  · exact fun arr ops h hbuf hread hsize hlist hon hown => execBrambleLoad_of_good h hbuf hread hsize hlist hon hown

end Sys2Proof.Machine
end

section
/-! PROOFS. Obligation O58 (tenants, the wipe, firmware update and lifecycle). -/

namespace Sys2Proof.Machine

variable {s s1 : State} {f t : Nat}

/-- A fold whose steps keep what a projection shows keeps it. -/
theorem foldl_proj {α β γ : Type} (P : α → γ) {g : α → β → α} (h : ∀ a b, P (g a b) = P a) (l : List β) (a : α) : P (l.foldl g a) = P a := by
  induction l generalizing a with
  | nil => rfl
  | cons b l ih => rw [List.foldl_cons, ih, h]

/-! ### Telling functions (18 R520 to R522) -/

theorem State.attn_only (s : State) (f : Nat) : ∃ mb ho, s.attn f = { s with mboxes := mb, host := ho } := by
  obtain ⟨ho, h⟩ := ({ s with mboxes := s.mboxes.upd f {} (fun m => { m with attn := true }) } : State).signal_only f 0
  exact ⟨_, ho, h⟩

@[simp] theorem State.signal_mbox (s : State) (f v k : Nat) : (s.signal f v).mbox k = s.mbox k := by
  rw [State.mbox, State.mbox, State.signal_mboxes]

@[simp] theorem State.attn_mem (s : State) (f : Nat) : (s.attn f).mem = s.mem := by
  obtain ⟨mb, ho, h⟩ := s.attn_only f
  rw [h]

@[simp] theorem State.attn_nv (s : State) (f : Nat) : (s.attn f).nv = s.nv := by
  obtain ⟨mb, ho, h⟩ := s.attn_only f
  rw [h]

@[simp] theorem State.attn_upd (s : State) (f : Nat) : (s.attn f).upd = s.upd := by
  obtain ⟨mb, ho, h⟩ := s.attn_only f
  rw [h]

@[simp] theorem State.attn_net (s : State) (f : Nat) : (s.attn f).net = s.net := by
  obtain ⟨mb, ho, h⟩ := s.attn_only f
  rw [h]

/-- The ATTN of a function does not clear that of another. -/
theorem State.attn_mbox_mono (s : State) (f k : Nat) (h : (s.mbox k).attn = true) : ((s.attn f).mbox k).attn = true := by
  by_cases hk : f = k
  · rw [← hk]
    exact State.attn_mbox_attn s f
  · rw [show s.attn f = (s.updMbox f (fun m => { m with attn := true })).signal f 0 from rfl, State.signal_mbox, State.mbox_updMbox_ne _ _ hk]
    exact h

theorem State.foldl_attn_only (l : List Nat) (s : State) : ∃ mb ho, l.foldl (fun (s : State) g => s.attn g) s = { s with mboxes := mb, host := ho } := by
  induction l generalizing s with
  | nil => exact ⟨s.mboxes, s.host, rfl⟩
  | cons g l ih =>
    obtain ⟨mb, ho, h⟩ := s.attn_only g
    obtain ⟨mb', ho', h'⟩ := ih (s.attn g)
    exact ⟨mb', ho', by rw [List.foldl_cons, h', h]⟩

/-- A tenant's new state changes that tenant, and otherwise only what its functions are told. -/
theorem State.setTState_only (s : State) (f : Nat) (st : TState) (tell : List Nat) :
    ∃ mb ho, s.setTState f st tell = { s.updTenant f (fun x => { x with tstate := st }) with mboxes := mb, host := ho } :=
  State.foldl_attn_only tell _

theorem State.pageChanged_only (s : State) : ∃ mb ho, s.pageChanged = { s with mboxes := mb, host := ho } := by
  obtain ⟨mb, ho, h⟩ := State.foldl_attn_only (List.range s.part.funcs) { s with host := { s.host with cgen := s.host.cgen + 2 } }
  exact ⟨mb, ho, h⟩

/-- A mailbox that holds the reply to a command decided in a state. -/
def State.replyBox (d : State) (f st dt : Nat) (pl : List Byte) (m : Mailbox) : Mailbox := { m with
  area := d.replyBytes (d.tstateByte (if d.mbTarget < d.part.funcs then d.mbTarget else f)) st dt (if st = 0 then pl else []),
  busy := false, done := true }

/-- A reply that is heard changes Eunto's place, mailboxes and messages to the host alone; its mailbox is done. -/
theorem State.mbReply_only (s d : State) (f st dt : Nat) (pl : List Byte) (hmute : s.euntoMute = false) :
    ∃ mb ho, s.mbReply d f st dt pl = { s with eunto := none, euntoArg := none, euntoMute := false, mboxes := mb, host := ho } ∧
      mb.getD f {} = d.replyBox f st dt pl (s.mbox f) := by
  obtain ⟨ho, h⟩ := (({ s with eunto := none, euntoArg := none, euntoMute := false } : State).updMbox f (d.replyBox f st dt pl)).signal_only f 0
  refine ⟨s.mboxes.upd f {} (d.replyBox f st dt pl), ho, ?_, Tab.getD_upd_self _ _ _ _⟩
  rw [State.mbReply, State.mbReplyAt_of_heard s d f _ st dt pl hmute]
  exact h

@[simp] theorem State.setTState_tenant (s : State) (f : Nat) (st : TState) (tell : List Nat) :
    (s.setTState f st tell).tenant f = { s.tenant f with tstate := st } := by
  obtain ⟨mb, ho, h⟩ := s.setTState_only f st tell
  rw [h]
  exact State.tenant_updTenant s f (fun x => { x with tstate := st })

@[simp] theorem State.setTState_mem (s : State) (f : Nat) (st : TState) (tell : List Nat) : (s.setTState f st tell).mem = s.mem := by
  obtain ⟨mb, ho, h⟩ := s.setTState_only f st tell
  rw [h]
  rfl

@[simp] theorem State.setTState_euntoMute (s : State) (f : Nat) (st : TState) (tell : List Nat) : (s.setTState f st tell).euntoMute = s.euntoMute := by
  obtain ⟨mb, ho, h⟩ := s.setTState_only f st tell
  rw [h]
  rfl

@[simp] theorem State.pageChanged_tenant (s : State) (f : Nat) : s.pageChanged.tenant f = s.tenant f := by
  obtain ⟨mb, ho, h⟩ := s.pageChanged_only
  rw [h]
  rfl

@[simp] theorem State.pageChanged_mem (s : State) : s.pageChanged.mem = s.mem := by
  obtain ⟨mb, ho, h⟩ := s.pageChanged_only
  rw [h]

@[simp] theorem State.pageChanged_euntoMute (s : State) : s.pageChanged.euntoMute = s.euntoMute := by
  obtain ⟨mb, ho, h⟩ := s.pageChanged_only
  rw [h]

theorem State.mbReply_tenant (s d : State) (f st dt g : Nat) (pl : List Byte) (hmute : s.euntoMute = false) :
    (s.mbReply d f st dt pl).tenant g = s.tenant g := by
  obtain ⟨mb, ho, h, -⟩ := s.mbReply_only d f st dt pl hmute
  rw [h]
  rfl

theorem State.mbReply_mem (s d : State) (f st dt : Nat) (pl : List Byte) (hmute : s.euntoMute = false) :
    (s.mbReply d f st dt pl).mem = s.mem := by
  obtain ⟨mb, ho, h, -⟩ := s.mbReply_only d f st dt pl hmute
  rw [h]

theorem State.mbReply_mbox (s d : State) (f st dt : Nat) (pl : List Byte) (hmute : s.euntoMute = false) :
    (s.mbReply d f st dt pl).mbox f = d.replyBox f st dt pl (s.mbox f) := by
  obtain ⟨mb, ho, h, hbox⟩ := s.mbReply_only d f st dt pl hmute
  rw [h]
  exact hbox

/-! ### Grants (20 R579 to R583) -/

/-- Windows are a matter of the Bramble arrays alone. -/
theorem State.giveWindows_frame (s : State) (t : Nat) (e : Entitle) (g : Nat) :
    (s.giveWindows t e).tenant g = s.tenant g ∧ (s.giveWindows t e).euntoMute = s.euntoMute := by
  unfold State.giveWindows
  refine Prod.mk.inj (foldl_proj (fun u : State => (u.tenant g, u.euntoMute)) (fun u a => ?_) _ s)
  extract_lets b n
  split
  · rfl
  · split <;> rfl

/-- Channels are a matter of the compression channels and of a free place alone. -/
theorem State.giveChannels_frame (s : State) (t : Nat) (e : Entitle) (g : Nat) :
    (s.giveChannels t e).tenant g = s.tenant g ∧ (s.giveChannels t e).euntoMute = s.euntoMute := by
  unfold State.giveChannels
  extract_lets ord has r k rest mine
  refine Prod.mk.inj ((foldl_proj (fun u : State => (u.tenant g, u.euntoMute)) (fun u c => ?_) _ r.2).trans rfl)
  extract_lets fs fs'
  split <;> rfl

/-- A tenant with its allocation and record, and nothing else. -/
def State.allocated (s : State) (t : Nat) (e : Entitle) (ex : List Extent) (d : Nat) : State :=
  ({ s with freeCtr := s.freeCtr + 1 }).updTenant t (fun x => { x with
    alloc := ex, used := [], retired := [], ent := e, gen := 0, usage := {}, images := [], queries := [], pairs := [], mig := none, quiesce := none,
    disp := { x.disp with areaBase := d, areaLen := e.dispatchMib * 2 ^ 20, tasks := [], onchip := [], spill := [], heads := [] } })

/-- An allocated tenant with its windows, channels and context key, and the capacity map written for it. -/
def State.granted (s : State) (t : Nat) (e : Entitle) (ex : List Extent) (d : Nat) : State :=
  ((((s.allocated t e ex d).giveWindows t e).giveChannels t e).drawCtxKey t).remap

@[simp] theorem State.remap_tenant (s : State) (g : Nat) : s.remap.tenant g = s.tenant g := rfl

@[simp] theorem State.remap_euntoMute (s : State) : s.remap.euntoMute = s.euntoMute := rfl

theorem State.drawCtxKey_tenant (s : State) (t : Nat) : (s.drawCtxKey t).tenant t = { s.tenant t with ctxKey := (s.freeBytes 4).1 } :=
  State.tenant_updTenant _ t (fun x => { x with ctxKey := (s.freeBytes 4).1 })

@[simp] theorem State.drawCtxKey_euntoMute (s : State) (t : Nat) : (s.drawCtxKey t).euntoMute = s.euntoMute := rfl

theorem State.granted_euntoMute (s : State) (t : Nat) (e : Entitle) (ex : List Extent) (d : Nat) : (s.granted t e ex d).euntoMute = s.euntoMute := by
  rw [State.granted, State.remap_euntoMute, State.drawCtxKey_euntoMute, (State.giveChannels_frame _ t e t).2, (State.giveWindows_frame _ t e t).2,
    State.allocated, State.updTenant_euntoMute]

/-- A granted tenant is as allocated, but for its key. -/
theorem State.granted_tenant (s : State) (t : Nat) (e : Entitle) (ex : List Extent) (d : Nat) :
    ∃ key, (s.granted t e ex d).tenant t = { (s.allocated t e ex d).tenant t with ctxKey := key } := by
  refine ⟨((((s.allocated t e ex d).giveWindows t e).giveChannels t e).freeBytes 4).1, ?_⟩
  rw [State.granted, State.remap_tenant, State.drawCtxKey_tenant, (State.giveChannels_frame _ t e t).1, (State.giveWindows_frame _ t e t).1]

section TenantCreate

variable (h : s.mbDue f 0x30)
include h

theorem execTenantCreate_of_room {ex : List Extent} {d : Nat} (hfit : s.grantsFit s.mbTarget (entitleOf (s.euntoReq.drop 16)) = true)
    (hroom : s.findMemory (((entitleOf (s.euntoReq.drop 16)).memBytes - (entitleOf (s.euntoReq.drop 16)).guarded) / 2 ^ 24)
      ((entitleOf (s.euntoReq.drop 16)).guarded / (14 * 2 ^ 20)) (((entitleOf (s.euntoReq.drop 16)).dispatchMib + 15) / 16) = some (ex, d)) :
    execTenantCreate f s = .next ((((s.granted s.mbTarget (entitleOf (s.euntoReq.drop 16)) ex d).setTState s.mbTarget .active
      (tellOf f s.mbTarget)).pageChanged).mbReply s f 0 0 (leBytes 8 (allocLen ex) ++ leBytes 8 d)) := by
  rw [execTenantCreate, State.mbRun_of_due _ h]
  simp only [hfit, hroom, Bool.not_true, Bool.false_eq_true, if_false]
  rfl

theorem execTenantCreate_of_unfit (hfit : s.grantsFit s.mbTarget (entitleOf (s.euntoReq.drop 16)) = false) :
    execTenantCreate f s = .next (s.mbReply s f 0x0108 0 []) := by
  rw [execTenantCreate, State.mbRun_of_due _ h]
  simp only [hfit, Bool.not_false, if_true]

end TenantCreate

/-- A place in an allocation is a matter of its tenant and of a free number alone. -/
theorem State.place_euntoMute {n k a : Nat} (h : s.place f n k = some (a, s1)) : s1.euntoMute = s.euntoMute := by
  unfold State.place at h
  extract_lets x r pick spots at h
  split at h
  · cases h
  · obtain ⟨-, rfl⟩ := Prod.mk.inj (Option.some.inj h)
    rfl

theorem State.reScratch_euntoMute {burst : Nat} (h : s.reScratch t burst = some s1) : s1.euntoMute = s.euntoMute := by
  have hfold : ∀ (l : List (Nat × Image)) (o : Option State), (∀ u ∈ o, u.euntoMute = s.euntoMute) → ∀ u ∈ l.foldl (fun (o : Option State) p => o.bind (fun s =>
      if imgScratch p.2.raw = 0 ∨ burst ≤ (s.tenant t).ent.tileBurst then some s
      else (s.place t (imgScratch p.2.raw * burst) 64).map (fun r =>
        (r.2.updTenant t (fun x => { x with images := x.images.upd p.1 p.2 (fun im => { im with scratch := r.1 }) })).retire t p.2.scratch))) o,
      u.euntoMute = s.euntoMute := by
    intro l
    induction l with
    | nil => exact fun o ho => ho
    | cons p l ih =>
      refine fun o ho => ih _ (fun u hu => ?_)
      obtain ⟨v, hv, hstep⟩ := Option.bind_eq_some_iff.mp hu
      split at hstep
      · cases hstep
        exact ho _ hv
      · obtain ⟨⟨a, w⟩, hplace, rfl⟩ := Option.map_eq_some_iff.mp hstep
        exact (State.place_euntoMute hplace).trans (ho _ hv)
  exact hfold _ _ (fun u hu => by cases hu; rfl) s1 h

theorem execQosSet_of_fits (h : s.mbDue f 0x31)
    (hsame : ¬ ((entitleOf (s.euntoReq.drop 16)).memBytes ≠ (s.tenant s.mbTarget).ent.memBytes ∨
      (entitleOf (s.euntoReq.drop 16)).guarded ≠ (s.tenant s.mbTarget).ent.guarded ∨
      (entitleOf (s.euntoReq.drop 16)).dispatchMib ≠ (s.tenant s.mbTarget).ent.dispatchMib ∨
      (entitleOf (s.euntoReq.drop 16)).compat ≠ (s.tenant s.mbTarget).ent.compat))
    (htake : s.takesAway s.mbTarget (entitleOf (s.euntoReq.drop 16)) = none)
    (hfit : s.grantsFit s.mbTarget (entitleOf (s.euntoReq.drop 16)) = true)
    (hscr : s.reScratch s.mbTarget (entitleOf (s.euntoReq.drop 16)).tileBurst = some s1) :
    execQosSet f s = .next ((((s1.giveWindows s.mbTarget (entitleOf (s.euntoReq.drop 16))).giveChannels s.mbTarget
      (entitleOf (s.euntoReq.drop 16))).updTenant s.mbTarget (fun x => { x with ent := entitleOf (s.euntoReq.drop 16) })).mbReply s f 0 0 []) := by
  rw [execQosSet, State.mbRun_of_due _ h]
  simp only [if_neg hsame, htake, hfit, hscr, Bool.not_true, Bool.false_eq_true, if_false]

/-! ### Quiesce (20 R593 to R596) -/

theorem State.formCpl_euntoMute (s : State) (f q : Nat) (ids : List Nat) (k : Option Cpl) : (s.formCpl f q ids k).euntoMute = s.euntoMute := by
  unfold State.formCpl
  extract_lets ws u
  split
  · split
    · rfl
    · split <;> rfl
  · rfl

theorem State.closeBatch_euntoMute (s : State) (f q : Nat) : (s.closeBatch f q).euntoMute = s.euntoMute := by
  unfold State.closeBatch
  split
  · rfl
  · split
    · rfl
    · unfold State.formBatches
      split
      · rfl
      · exact foldl_proj State.euntoMute (fun u ms => State.formCpl_euntoMute u f q ms _) _ _

theorem State.haltPairs_euntoMute (s : State) (f : Nat) : (s.haltPairs f).euntoMute = s.euntoMute := by
  unfold State.haltPairs
  refine foldl_proj State.euntoMute (fun u p => ?_) _ s
  split
  · exact State.closeBatch_euntoMute _ f p.1
  · rfl

theorem State.beginQuiesce_euntoMute (s : State) (f t : Nat) (bound : Option Nat) : (s.beginQuiesce f t bound).euntoMute = s.euntoMute := by
  rw [State.beginQuiesce, State.setTState_euntoMute, State.updTenant_euntoMute, State.haltPairs_euntoMute]

theorem State.beginQuiesce_tenant (s : State) (f t : Nat) (bound : Option Nat) : ((s.beginQuiesce f t bound).tenant t).tstate = .quiescing ∧
    ((s.beginQuiesce f t bound).tenant t).quiesce = some bound := by
  rw [State.beginQuiesce, State.setTState_tenant, State.tenant_updTenant]
  exact ⟨rfl, rfl⟩

theorem State.wakePairs_tenant (s : State) (f : Nat) : (s.wakePairs f).tenant f = { s.tenant f with
    pairs := (s.tenant f).pairs.map (fun p => (p.1, if p.2.state = .halted then { p.2 with state := .active, p := p.2.c } else p.2)) } :=
  State.tenant_updTenant ..

theorem State.wakePairs_pairs_state (s : State) (f : Nat) : ∀ p ∈ ((s.wakePairs f).tenant f).pairs, p.2.state ≠ .halted := by
  rw [State.wakePairs_tenant]
  intro p hp
  obtain ⟨y, -, rfl⟩ := List.mem_map.mp hp
  by_cases hy : y.2.state = .halted
  · simp [hy]
  · simp [hy]

section Quiesce

variable (h : s.mbDue f 0x32)
include h

theorem execQuiesceDrain_of_due (hmode : s.mbPay 0 1 = 0) : execQuiesceDrain f s =
    .next ((s.beginQuiesce f s.mbTarget (some (s.ticks + s.mbPay 4 4))).mbReply s f 0 0 []) := by
  rw [execQuiesceDrain, State.mbRun_of_due _ h, if_pos hmode]

theorem execQuiesceCancel_of_due (hmode : s.mbPay 0 1 = 1) : execQuiesceCancel f s =
    .next (((s.beginQuiesce f s.mbTarget none).cancelAll s.mbTarget).mbReply s f 0 0 []) := by
  rw [execQuiesceCancel, State.mbRun_of_due _ h, if_pos hmode]

theorem execQuiesceResume_of_due (hmode : s.mbPay 0 1 = 2) : execQuiesceResume f s =
    .next ((((s.updTenant s.mbTarget (fun x => { x with quiesce := none })).wakePairs s.mbTarget).setTState s.mbTarget .active
      (tellOf f s.mbTarget)).mbReply s f 0 0 []) := by
  rw [execQuiesceResume, State.mbRun_of_due _ h, if_pos hmode]

end Quiesce

theorem execQuiesceBound_of_bounded {k : Nat} (hq : (s.tenant f).tstate = .quiescing) (hk : (s.tenant f).quiesce = some (some k)) :
    execQuiesceBound f s = .next ((s.updTenant f (fun x => { x with quiesce := some none })).cancelAll f) := by
  simp only [execQuiesceBound, hq, hk]

theorem execQuiesceComplete_of_done (hq : (s.tenant f).tstate = .quiescing) (hdone : s.hasWork f = false) :
    execQuiesceComplete f s = .next ((s.updTenant f (fun x => { x with quiesce := none })).setTState f .quiesced (if f = 0 then [0] else [f, 0])) := by
  simp only [execQuiesceComplete, hq, hdone, Bool.not_false, and_self, if_true]

/-- A function that hears of its tenant's new state first, and then the PF, has ATTN set. -/
theorem State.setTState_mbox_attn (s : State) (f : Nat) (st : TState) : ((s.setTState f st (if f = 0 then [0] else [f, 0])).mbox f).attn = true := by
  unfold State.setTState
  split
  · next hf =>
    subst hf
    exact State.attn_mbox_attn _ 0
  · exact State.attn_mbox_mono _ 0 f (State.attn_mbox_attn _ f)

/-! ### Reset, destruction and the wipe (20 R597 to R600) -/

theorem State.resetTenant_tenant (s : State) (f : Nat) (b : Bool) (l : List Nat) :
    ((s.resetTenant f b l).tenant f).tstate = (if b then .destroying else .resetting) ∧ ((s.resetTenant f b l).tenant f).images = [] := by
  unfold State.resetTenant
  dsimp only
  rw [State.setTState_tenant, State.tenant_updTenant]
  exact ⟨rfl, rfl⟩

/-- The cells left when the extents of a list have been wiped: cells as they were, none in an extent. -/
theorem State.mem_cells_of_wiped (es : List Extent) (s : State) {c : Host.Cell}
    (hc : c ∈ (es.foldl (fun (s : State) e => (s.dropL1Range e.base e.span).zeroRange e.base e.span) s).mem.cells) :
    c ∈ s.mem.cells ∧ ∀ e ∈ es, ¬ (e.base ≤ c.1 ∧ c.1 < e.base + e.span) := by
  induction es generalizing s with
  | nil => exact ⟨hc, fun e he => absurd he List.not_mem_nil⟩
  | cons e es ih =>
    rw [List.foldl_cons] at hc
    obtain ⟨hmem, hrest⟩ := ih _ hc
    obtain ⟨hcell, hout⟩ := List.mem_filter.mp hmem
    refine ⟨hcell, fun x hx => ?_⟩
    obtain rfl | hx := List.mem_cons.mp hx
    · exact of_decide_eq_false (by simpa only [Bool.not_eq_true'] using hout)
    · exact hrest x hx

theorem State.wipeTenant_cells (s : State) (f : Nat) : ∀ x ∈ (s.tenant f).alloc ++ (s.tenant f).dispExt, ∀ c ∈ (s.wipeTenant f).mem.cells,
    ¬ (x.base ≤ c.1 ∧ c.1 < x.base + x.span) :=
  fun x hx _ hc => (State.mem_cells_of_wiped _ (s.dropOwned f) hc).2 x hx

theorem State.eraseKeys_tenant (s : State) (f : Nat) : (s.eraseKeys f).tenant f = { s.tenant f with ctxKey := [] } :=
  State.tenant_updTenant _ f (fun x => { x with ctxKey := [] })

theorem State.wipeTenant_alloc (s : State) (f : Nat) : ((s.wipeTenant f).tenant f).alloc = (s.tenant f).alloc := by
  have hwiped : ∀ es : List Extent,
      (es.foldl (fun (s : State) e => (s.dropL1Range e.base e.span).zeroRange e.base e.span) (s.dropOwned f)).tenants = s.tenants :=
    fun es => foldl_proj State.tenants (g := fun (s : State) (e : Extent) => (s.dropL1Range e.base e.span).zeroRange e.base e.span)
      (fun v e => rfl) es (s.dropOwned f)
  rw [State.wipeTenant, State.tenant_updTenant]
  dsimp only
  rw [State.eraseKeys_tenant]
  dsimp only
  rw [State.tenant, hwiped, State.tenant]

section WipeEnd

variable (hfree : s.unbound f = true)
include hfree

theorem execWipeEnd_of_resetting (ht : (s.tenant f).tstate = .resetting) : execWipeEnd f s =
    .next ((((s.wipeTenant f).drawCtxKey f).wakePairs f).setTState f .active (if f = 0 then [0] else [f, 0])) := by
  simp only [execWipeEnd, hfree, ht, Bool.not_true, Bool.false_eq_true, if_false]

theorem execWipeEnd_of_destroying (ht : (s.tenant f).tstate = .destroying) : execWipeEnd f s =
    .next (((s.wipeTenant f).freeGrants f).setTState f .none (if f = 0 then [0] else [f, 0])) := by
  simp only [execWipeEnd, hfree, ht, Bool.not_true, Bool.false_eq_true, if_false]

end WipeEnd

theorem State.freeGrants_alloc (s : State) (f : Nat) : ((s.freeGrants f).tenant f).alloc = [] := by
  rw [State.freeGrants, State.pageChanged_tenant, State.remap_tenant]
  exact congrArg Tenant.alloc (State.tenant_updTenant s f (fun x => { x with
    alloc := [], used := [], ent := {}, pairs := [], gen := 0, hrgnLo := [], hrgnHi := [], disp := { x.disp with areaBase := 0, areaLen := 0 } }))

theorem State.freeGrants_cells (s : State) (f : Nat) : (s.freeGrants f).mem.cells = s.mem.cells := by
  rw [State.freeGrants, State.pageChanged_mem]
  rfl

/-! ### Migration logging (20 R590 to R592) -/

theorem execMigrateLogStart_of_ok (h : s.mbDue f 0x38) (hbmp : s.rangeOk f (s.mbPay 0 8) (s.mbPay 0x10 8 / 32768) 3 = true)
    (hhost : s.mbPay 0 8 / 2 ^ 56 = 1)
    (hdev : s.rangeOk f (s.mbPay 0x18 8) (((allocLen (s.tenant s.mbTarget).alloc + 65535) / 65536 + 7) / 8) 3 = true) (hdevHost : s.mbPay 0x18 8 / 2 ^ 56 = 1) :
    execMigrateLogStart f s = .next ((s.updTenant s.mbTarget (fun x => { x with
      mig := some { hostBase := s.mbPay 8 8, hostLen := s.mbPay 0x10 8, hostBmp := s.mbPay 0 8, devBmp := s.mbPay 0x18 8 } })).mbReply s f 0 0 []) := by
  rw [execMigrateLogStart, State.mbRun_of_due _ h]
  simp only [hbmp, hhost, hdev, hdevHost, bne_self_eq_false, Bool.not_true, Bool.or_self, Bool.false_eq_true, if_false]

theorem execMigrateLogStop_of_logging {m : MigLog} (h : s.mbDue f 0x39) (hm : (s.tenant s.mbTarget).mig = some m) :
    execMigrateLogStop f s = .next ((s.updTenant s.mbTarget (fun x => { x with mig := none })).mbReply s f 0 0
      (leBytes 8 m.hostSet ++ leBytes 8 m.devSet)) := by
  rw [execMigrateLogStop, State.mbRun_of_due _ h]
  simp only [hm]

/-! ### Firmware update (21 R631 to R637) -/

theorem execFwUpdateBegin_of_ok (h : s.mbDue f 0x50) (hbuf : s.rangeOk f (s.mbPay 0 8) 256 1 = true)
    (hhdr : fwHeaderOk (s.readBytes (s.mbPay 0 8) 256).1 = true) (hdec : getLE (s.readBytes (s.mbPay 0 8) 256).1 0xAC 1 = 1)
    (hsig : getLE (s.readBytes (s.mbPay 0 8) 256).1 0xAD 1 = 2) (hkey1 : (s.keySlot 1).kind = 3) (hkey2 : (s.keySlot 2).kind = 1)
    (hver : s.slotVerify 2 ((s.readBytes (s.mbPay 0 8) 256).1.take 0xC0) (cut (s.readBytes (s.mbPay 0 8) 256).1 0xC0 32)
      (cut (s.readBytes (s.mbPay 0 8) 256).1 0xE0 32) = true)
    (hcompat : s.fwCompatible (s.readBytes (s.mbPay 0 8) 256).1 = true) :
    execFwUpdateBegin f s = .next (({ s with dstate := .update, upd := { s.upd with
      hdr := (s.readBytes (s.mbPay 0 8) 256).1, body := [], fromRecovery := s.dstate == .recovery } } : State).mbReply s f 0 0 []) := by
  rw [execFwUpdateBegin, State.mbRun_of_due _ h]
  simp only [hbuf, hhdr, hdec, hsig, hkey1, hkey2, hver, hcompat, ne_eq, not_true_eq_false, or_self, Bool.not_true, Bool.false_eq_true, if_false]

theorem execFwUpdateChunk_of_next (h : s.mbDue f 0x51) (hbuf : s.rangeOk f (s.mbPay 0 8) (s.mbPay 8 4) 1 = true)
    (hlen : s.mbPay 12 4 + s.mbPay 8 4 ≤ fwBodyLen s.upd.hdr) (hnext : s.mbPay 12 4 = s.upd.body.length) :
    ∃ pl, execFwUpdateChunk f s = .next (({ s with upd := { s.upd with body := s.upd.body ++ (s.readBytes (s.mbPay 0 8) (s.mbPay 8 4)).1 } } : State).mbReply s f 0 0 pl) := by
  rw [execFwUpdateChunk, State.mbRun_of_due _ h]
  simp only [hbuf, if_neg (Nat.not_lt.mpr hlen), if_pos hnext, Bool.not_true, Bool.false_eq_true, if_false]
  exact ⟨_, rfl⟩

section Commit

variable (h : s.mbDue f 0x52) (hlen : s.upd.body.length = fwBodyLen s.upd.hdr)
include h hlen

theorem execFwUpdateCommit_of_good {p : List Byte} (hp : s.fwPlain = some p) :
    execFwUpdateCommit f s = .next (((s.mbReply s f 0 0 []).abortAll).programSlot p) := by
  rw [execFwUpdateCommit, State.mbRun_of_due _ h, if_neg (not_not.mpr hlen), hp]

theorem execFwUpdateCommit_of_bad (hp : s.fwPlain = none) : execFwUpdateCommit f s = .next ((s.abandonUpdate 3).mbReply s f 0x0502 0 []) := by
  rw [execFwUpdateCommit, State.mbRun_of_due _ h, if_neg (not_not.mpr hlen), hp]

end Commit

theorem State.programSlot_chans (s : State) (p : List Byte) : ∀ q ∈ (s.programSlot p).mem.chans, q.2.selfRef = true := by
  intro q hq
  obtain ⟨y, -, rfl⟩ := List.mem_map.mp hq
  rfl

/-- A directory record leaves the security version and the rest of the flash. -/
theorem NonVol.writeDir_svn (n : NonVol) (g : FlashDir → FlashDir) : (n.writeDir g).svn = n.svn := by
  unfold NonVol.writeDir
  dsimp only
  split <;> rfl

section HealthConfirm

variable (h : s.mbDue f 0x53)
include h

theorem execHealthConfirm_of_confirm (hd : s.dstate = .confirm) : execHealthConfirm f s = .next (({ s with
    nv := { s.nv.writeDir (fun d => { d with slotState := 3 }) with
      svn := max (s.nv.writeDir (fun d => { d with slotState := 3 })).svn (s.nv.writeDir (fun d => { d with slotState := 3 })).dir.svn },
    dstate := .ready } : State).mbReply s f 0 0 []) := by
  rw [execHealthConfirm, State.mbRun_of_due _ h]
  simp only [hd]

theorem execHealthConfirm_of_ready (hd : s.dstate = .ready) : execHealthConfirm f s = .next (s.mbReply s f 0 0 []) := by
  rw [execHealthConfirm, State.mbRun_of_due _ h]
  simp only [hd]

end HealthConfirm

theorem execConfirmTimeout_of_confirm (img : BitVec 2) (hd : s.dstate = .confirm) (hfree : s.eunto = none) : execConfirmTimeout img s =
    .next (({ s with nv := s.nv.writeDir (fun d => { d with slotState := 4 }) }).abortAll.updateReboot img) := by
  simp only [execConfirmTimeout, hd, hfree, ne_eq, not_true_eq_false, Option.isSome_none, Bool.false_eq_true, false_and, or_self, if_false]

theorem State.abandonUpdate_of_update (step : Nat) (hd : s.dstate = .update) (hreboot : s.upd.reboot = false) :
    s.abandonUpdate step = ({ s with dstate := if s.upd.fromRecovery then .recovery else .ready, upd := { s.upd with hdr := [], body := [] } } : State).log
      0x51 0 0x7F 7 0 0 0 step := by
  simp only [State.abandonUpdate, hd, hreboot, Bool.not_false, and_self, if_true]

/-! ### Lifecycle (21 R622 to R625) -/

/-- The state in which a transition has been answered and the wipe begins. -/
def State.wipingFrom (s : State) (f : Nat) : State :=
  { s.mbReply s f 0 0 [] with dstate := .wiping, upd := { (s.mbReply s f 0 0 []).upd with wipeFrom := s.dstate } }

/-- That state when every tenant is on its way out. -/
def State.allDestroyed (s : State) (f : Nat) : State :=
  (((s.wipingFrom f).tenants.filter (fun p => p.2.tstate != .none)).map (·.1)).foldl
    (fun (s : State) t => (s.silence t).resetTenant t true (tellOf f t)) (s.wipingFrom f)

section LifecycleSet

variable (h : s.mbDue f 0x54)
include h

theorem execLifecycleSet_of_authorised (hok : s.lifecycleCheck (s.mbPay 0 1) (cut s.euntoReq 24 128) = 0) : execLifecycleSet f s =
    .next { s.allDestroyed f with nv := { (s.allDestroyed f).nv with lifecycle := s.mbPay 0 1, count := (s.allDestroyed f).nv.count + 1, wiping := true } } := by
  rw [execLifecycleSet, State.mbRun_of_due _ h]
  simp only [hok, ne_eq, not_true_eq_false, if_false]
  rfl

theorem execLifecycleSet_of_refused {c : Nat} (hc : c ≠ 0) (hbad : s.lifecycleCheck (s.mbPay 0 1) (cut s.euntoReq 24 128) = c) :
    execLifecycleSet f s = .next (s.mbReply s f c 0 []) := by
  rw [execLifecycleSet, State.mbRun_of_due _ h]
  simp only [hbad, if_pos hc]

end LifecycleSet

theorem State.allDestroyed_keeps (s : State) (f : Nat) : Keeps s (s.allDestroyed f) := by
  have hreply : Keeps s (s.mbReply s f 0 0 []) := State.mbReply_keeps (.refl s)
  have hwiping : Keeps s (s.wipingFrom f) := hreply
  exact Keeps.foldl hwiping (fun u t hu => State.resetTenant_keeps (State.silence_keeps hu))

theorem execLifecycleWipeEnd_of_wiping (hd : s.dstate = .wiping) :
    ∃ u, execLifecycleWipeEnd s = .next u ∧ u.mem.cells = [] ∧ u.nv.wiping = false ∧ u.upd.debug = false ∧ u.net = [] := by
  simp only [execLifecycleWipeEnd, hd, ne_eq, not_true_eq_false, if_false]
  refine ⟨_, rfl, ?_⟩
  rw [State.attn_mem, State.attn_nv, State.attn_upd, State.attn_net]
  exact ⟨rfl, rfl, rfl, rfl⟩

/-- Settles O58. -/
theorem tenantsUpdateAndLifecycle : Obligations.TenantsUpdateAndLifecycle := by
  unfold Obligations.TenantsUpdateAndLifecycle
  intro s f img t e
  refine ⟨fun hmute => ⟨?_, ?_, ?_, ?_, ?_, ?_, ?_, ?_, ?_, ?_, ?_, ?_, ?_, ?_⟩, ?_, ?_, ?_, ?_, ?_, ?_, ?_⟩
  · intro ex d h hfit hroom
    have hm : ((s.granted t e ex d).setTState t .active (tellOf f t)).pageChanged.euntoMute = false := by
      rw [State.pageChanged_euntoMute, State.setTState_euntoMute, State.granted_euntoMute, hmute]
    refine ⟨_, execTenantCreate_of_room h hfit hroom, ?_⟩
    obtain ⟨key, hkey⟩ := s.granted_tenant t e ex d
    rw [State.mbReply_tenant _ _ _ _ _ _ _ hm, State.mbReply_mbox _ _ _ _ _ _ hm, State.pageChanged_tenant, State.setTState_tenant, hkey,
      State.allocated, State.tenant_updTenant]
    exact ⟨rfl, rfl, rfl, rfl, rfl, rfl, rfl, rfl⟩
  · exact fun h hfit => execTenantCreate_of_unfit h hfit
  · intro s1 h hbytes hguard hdisp hcompat htake hfit hscr
    have hsame : ¬ (e.memBytes ≠ (s.tenant t).ent.memBytes ∨ e.guarded ≠ (s.tenant t).ent.guarded ∨
        e.dispatchMib ≠ (s.tenant t).ent.dispatchMib ∨ e.compat ≠ (s.tenant t).ent.compat) := by
      simp [hbytes, hguard, hdisp, hcompat]
    have hm : (((s1.giveWindows t e).giveChannels t e).updTenant t (fun x => { x with ent := e })).euntoMute = false := by
      rw [State.updTenant_euntoMute, (State.giveChannels_frame _ t e t).2, (State.giveWindows_frame _ t e t).2, State.reScratch_euntoMute hscr, hmute]
    refine ⟨_, execQosSet_of_fits h hsame htake hfit hscr, ?_⟩
    rw [State.mbReply_tenant _ _ _ _ _ _ _ hm, State.mbReply_mbox _ _ _ _ _ _ hm, State.tenant_updTenant]
    exact ⟨rfl, rfl⟩
  · intro h
    refine ⟨fun hmode => ⟨_, execQuiesceDrain_of_due h hmode, ?_⟩, execQuiesceCancel_of_due h, fun hmode => ⟨_, execQuiesceResume_of_due h hmode, ?_⟩⟩
    · rw [State.mbReply_tenant _ _ _ _ _ _ _ ((State.beginQuiesce_euntoMute s f t _).trans hmute)]
      exact State.beginQuiesce_tenant s f t _
    · have hm : (((s.updTenant t (fun x => { x with quiesce := none })).wakePairs t).setTState t .active (tellOf f t)).euntoMute = false := by
        rw [State.setTState_euntoMute, State.wakePairs, State.updTenant_euntoMute, State.updTenant_euntoMute, hmute]
      rw [State.mbReply_tenant _ _ _ _ _ _ _ hm, State.mbReply_mem _ _ _ _ _ _ hm, State.setTState_tenant, State.setTState_mem]
      refine ⟨rfl, ?_, State.wakePairs_pairs_state _ t, rfl⟩
      rw [State.wakePairs_tenant, State.tenant_updTenant]
  · exact fun h => by rw [exec, execTenantReset, State.mbRun_of_due _ h]
  · exact fun h => by rw [exec, execTenantDestroy, State.mbRun_of_due _ h]
  · intro h n hbmp hhost hdev hdevHost
    refine ⟨_, execMigrateLogStart_of_ok h hbmp hhost hdev hdevHost, ?_⟩
    rw [State.mbReply_tenant _ _ _ _ _ _ _ ((State.updTenant_euntoMute _ t _).trans hmute), State.tenant_updTenant]
    exact ⟨rfl, rfl⟩
  · intro m h hm
    refine ⟨_, execMigrateLogStop_of_logging h hm, ?_⟩
    have hm' : (s.updTenant t (fun x => { x with mig := none })).euntoMute = false := hmute
    rw [State.mbReply_tenant _ _ _ _ _ _ _ hm', State.mbReply_mbox _ _ _ _ _ _ hm', State.tenant_updTenant]
    exact ⟨rfl, rfl⟩
  · intro h hd hbuf hhdr hdec hsig hkey1 hkey2 hver hcompat
    refine ⟨_, execFwUpdateBegin_of_ok h hbuf hhdr hdec hsig hkey1 hkey2 hver hcompat, ?_⟩
    obtain ⟨mb, ho, hreply, -⟩ := State.mbReply_only ({ s with dstate := .update, upd := { s.upd with
      hdr := (s.readBytes (s.mbPay 0 8) 256).1, body := [], fromRecovery := s.dstate == .recovery } }) s f 0 0 [] hmute
    rw [hreply]
    exact ⟨rfl, rfl, rfl, rfl⟩
  · intro h hbuf hlen hnext
    obtain ⟨pl, hexec⟩ := execFwUpdateChunk_of_next h hbuf hlen hnext
    refine ⟨_, hexec, ?_⟩
    obtain ⟨mb, ho, hreply, -⟩ := State.mbReply_only ({ s with upd := { s.upd with
      body := s.upd.body ++ (s.readBytes (s.mbPay 0 8) (s.mbPay 8 4)).1 } }) s f 0 0 pl hmute
    rw [hreply]
    exact ⟨rfl, rfl, rfl⟩
  · exact fun h hlen => ⟨fun p hp => ⟨_, execFwUpdateCommit_of_good h hlen hp, rfl, rfl, rfl, State.programSlot_chans _ p⟩,
      execFwUpdateCommit_of_bad h hlen⟩
  · refine fun h => ⟨fun hd => ⟨_, execHealthConfirm_of_confirm h hd, ?_⟩, execHealthConfirm_of_ready h⟩
    obtain ⟨mb, ho, hreply, -⟩ := State.mbReply_only ({ s with
      nv := { s.nv.writeDir (fun d => { d with slotState := 3 }) with
        svn := max (s.nv.writeDir (fun d => { d with slotState := 3 })).svn (s.nv.writeDir (fun d => { d with slotState := 3 })).dir.svn },
      dstate := .ready }) s f 0 0 [] hmute
    rw [hreply]
    exact ⟨rfl, (NonVol.writeDir_svn s.nv _).symm.trans_le (le_max_left _ _)⟩
  · exact fun h hok => ⟨_, execLifecycleSet_of_authorised h hok, rfl, Nat.lt_succ_of_le (State.allDestroyed_keeps s f).nv.count, rfl⟩
  · exact fun c hc h hbad => execLifecycleSet_of_refused h hc hbad
  · exact fun b l => State.resetTenant_tenant s f b l
  · refine fun hq => ⟨fun k hk => execQuiesceBound_of_bounded hq hk, fun hdone => ⟨_, execQuiesceComplete_of_done hq hdone, ?_, State.setTState_mbox_attn _ f _⟩⟩
    rw [State.setTState_tenant]
  · intro hfree
    refine ⟨fun ht => ⟨_, execWipeEnd_of_resetting hfree ht, ?_, ?_, ?_⟩, fun ht => ⟨_, execWipeEnd_of_destroying hfree ht, ?_, ?_, ?_⟩⟩
    · rw [State.setTState_tenant]
    · rw [State.setTState_tenant, State.wakePairs_tenant, State.drawCtxKey_tenant]
      exact State.wipeTenant_alloc s f
    · rw [State.setTState_mem]
      exact State.wipeTenant_cells s f
    · rw [State.setTState_tenant]
    · rw [State.setTState_tenant]
      exact State.freeGrants_alloc _ f
    · rw [State.setTState_mem, State.freeGrants_cells]
      exact State.wipeTenant_cells s f
  · exact fun hreboot => by rw [exec, execUpdateReboot, if_pos hreboot]
  · exact fun hd hfree => execConfirmTimeout_of_confirm img hd hfree
  · intro hd hreboot
    refine ⟨_, congrArg Host.Outcome.next (State.abandonUpdate_of_update 1 hd hreboot), ?_⟩
    rw [State.log_dstate, State.log_upd, State.log_nv, State.log_mem]
    exact ⟨rfl, rfl, rfl, rfl⟩
  · exact fun hd => execLifecycleWipeEnd_of_wiping hd

end Sys2Proof.Machine
end

section
/-! PROOFS. Obligation O59 (supply, shutdown, power cap, temperature, sag levels, the reference, power states, module resets). -/

namespace Sys2Proof.Machine

variable {s s1 : State} {vin t : Nat} {temp tmax : Int} {mods : List Nat} {straps : BitVec 5} {img : BitVec 2}

/-- A table made from a list of keys. -/
theorem Tab.getD_map_key {α : Type} (l : List Nat) (g : Nat → α) (k : Nat) (d : α) :
    Tab.getD (l.map (fun t => (t, g t))) k d = if k ∈ l then g k else d := by
  have hfind : Tab.find? (l.map (fun t => (t, g t))) k = if k ∈ l then some (g k) else none := by
    induction l with
    | nil => rfl
    | cons a l ih =>
      by_cases h : a = k
      · simp [Tab.find?, h]
      · simp [Tab.find?, h, ih, Ne.symm h]
  rw [Tab.getD, hfind]
  split_ifs <;> rfl

/-! ### Orderly shutdown (22 R655) -/

theorem State.logNew_spill (s : State) (r : ErrRec) (hcls : 3 ≤ r.cls) : (s.logNew r).errlog.spill = (r :: s.errlog.spill).take 64512 := by
  have hform : ∃ e ho, s.logNew r = { s with errlog := e, host := ho } ∧ e.spill = (r :: s.errlog.spill).take 64512 := by
    unfold State.logNew
    extract_lets l s1 due s2
    split_ifs
    · obtain ⟨ho, hs2⟩ : ∃ ho, s2 = { s1 with host := ho } := s1.signal_only 0 1
      have hlog : s2.errlog = s1.errlog := by rw [hs2]
      refine ⟨_, ho, by rw [hs2], ?_⟩
      exact (congrArg ErrLog.spill hlog).trans (if_pos hcls)
    · exact ⟨s1.errlog, s.host, rfl, if_pos hcls⟩
  obtain ⟨e, ho, h, hspill⟩ := hform
  rw [h]
  exact hspill

/-- A log record that does not merge into the one before joins the flash spill when its class is 3 or 4. -/
theorem State.log_spill {event cls func ukind unit status addr detail : Nat} (hcls : 3 ≤ cls)
    (hnew : ∀ x, s.errlog.recs.head? = some x → x.event ≠ event) :
    ∃ x, (s.log event cls func ukind unit status addr detail).errlog.spill = (x :: s.errlog.spill).take 64512 ∧ x.event = event ∧ x.cls = cls := by
  have hlog : s.log event cls func ukind unit status addr detail = s.logNew
      { seq := s.errlog.nextSeq, tick := s.ticks, event, cls, func, ukind, unit, status, count := 1, addr, detail } := by
    unfold State.log
    split
    · next r rest hrecs =>
      have hev : r.event ≠ event := hnew r (by rw [hrecs]; rfl)
      simp [ErrRec.merges, hev]
    · rfl
  rw [hlog]
  exact ⟨_, State.logNew_spill s _ hcls, rfl, rfl⟩

/-- What an orderly shutdown loses and keeps. -/
structure State.Lost (s u : State) (cause : Nat) : Prop where
  supply : u.pw.supply = .down
  shut : u.pw.shut = cause
  cells : u.mem.cells = []
  tenants : u.tenants = []
  tiles : u.tiles = []
  slices : u.slices = []
  dstate : u.dstate = .init
  nv : u.nv = s.nv
  pending : u.pending = s.pending
  hostMem : u.hostMem = s.hostMem
  recs : u.errlog.recs = []
  spill : (∀ x, s.errlog.recs.head? = some x → x.event ≠ 0x62) → ∃ x, u.errlog.spill = (x :: s.errlog.spill).take 64512 ∧ x.event = 0x62 ∧ x.cls = 4

theorem State.shutdown_lost (s : State) (cause : Nat) : s.Lost (s.shutdown cause) cause := by
  refine ⟨rfl, rfl, rfl, rfl, rfl, rfl, rfl, State.log_nv .., State.log_pending .., State.log_hostMem .., rfl, fun hnew => ?_⟩
  exact State.log_spill (by decide) hnew

theorem State.shutdown_pwrgd (s : State) (cause : Nat) : (s.shutdown cause).pw.pwrgd = s.pw.pwrgd := by
  have hpw := State.log_pw s 0x62 4 0x7F 7 0 0 0 (cause + 2 ^ 32 * s.pw.vin.toNat + 2 ^ 64 * wrapInt 32 s.tmax)
  rw [← hpw, State.shutdown]

/-- What is lost does not hang on what the cause leaves in the power state or the sensors. -/
theorem State.Lost.of_frame {u : State} {cause : Nat} (h : s1.Lost u cause) (hnv : s1.nv = s.nv) (hpending : s1.pending = s.pending)
    (hhost : s1.hostMem = s.hostMem) (hlog : s1.errlog = s.errlog) : s.Lost u cause :=
  ⟨h.supply, h.shut, h.cells, h.tenants, h.tiles, h.slices, h.dstate, h.nv.trans hnv, h.pending.trans hpending, h.hostMem.trans hhost, h.recs,
    by rw [← hlog]; exact h.spill⟩

/-! ### Supply (22 R642; 24 R706, R707) -/

section Up

variable (hup : s.pw.supply = .up)
include hup

theorem State.shutdownIfUp_of_up (cause : Nat) : s.shutdownIfUp true cause = s.shutdown cause := by
  simp [State.shutdownIfUp, hup]

theorem execOverVoltage_of_over (hv : 18500 < vin) : execOverVoltage vin s =
    .next ((s.updPw (fun p => { p with vin := BitVec.ofNat 16 vin })).shutdown 5) := by
  rw [execOverVoltage, if_pos hv, State.shutdownIfUp_of_up (s := s.updPw (fun p => { p with vin := BitVec.ofNat 16 vin })) hup]

theorem execUnderVoltage_of_under (hv : vin < 4500) : execUnderVoltage vin s =
    .next ((s.updPw (fun p => { p with vin := BitVec.ofNat 16 vin })).shutdown 5) := by
  rw [execUnderVoltage, if_pos hv, State.shutdownIfUp_of_up (s := s.updPw (fun p => { p with vin := BitVec.ofNat 16 vin })) hup]

theorem execPwrgdLow_of_up : execPwrgdLow s = .next ((s.updPw (fun p => { p with pwrgd := false })).shutdown 8) := by
  simp only [execPwrgdLow, hup]

theorem execThermalTrip_of_hot (htemp : 105 ≤ temp) (ht : t < s.part.tiles) : execThermalTrip t temp s =
    .next (({ s with tileTemp := s.tileTemp.set t temp } : State).shutdown 6) := by
  rw [execThermalTrip, if_pos ⟨htemp, ht⟩, State.shutdownIfUp_of_up (s := { s with tileTemp := s.tileTemp.set t temp }) hup]

theorem execRefTimeout_of_holdover (hh : s.pw.holdover = true) : execRefTimeout s = .next (s.shutdown 7) := by
  rw [execRefTimeout, hh, State.shutdownIfUp_of_up hup]

theorem execRefLoss_of_locked (hh : s.pw.holdover = false) :
    execRefLoss s = .next ((s.updPw (fun p => { p with holdover := true })).log 0x39 0 0x7F 7 0 0 0 0) := by
  simp only [execRefLoss, hup, hh, Bool.not_false, and_self, if_true]

/-! ### The power cap (22 R646) -/

/-- The power state after a sample, for the P_env in force. -/
def Power.sampled (w : Power) (env : Nat) (pin vin : BitVec 16) (throttled : Bool) : Power := { w with
  pin, vin, throt := if throttled then w.throt + 1 else w.throt,
  dcap := if env < pin.toNat * 100 then max 4 (w.dcap - 1)
    else if pin.toNat * 100 * 100 < 95 * env ∧ w.under + 1 = 10 then min 16 (w.dcap + 1) else w.dcap,
  under := if pin.toNat * 100 * 100 < 95 * env ∧ w.under + 1 < 10 then w.under + 1 else 0 }

theorem execPowerSample_of_up (pin v : BitVec 16) : execPowerSample pin v s =
    .next (s.updPw (fun w => w.sampled (s.penv v.toNat) pin v (decide (s.dutyMin < 16)))) := by
  rw [execPowerSample, if_neg (not_not.mpr hup)]
  refine congrArg Host.Outcome.next ?_
  simp only [State.updPw, Power.sampled, decide_eq_true_eq]

/-! ### Sag response (22 R648 to R651) -/

theorem execSagFire_of_up (core : Bool) : execSagFire core s = .next (s.updPw (fun p => { p with
    level := min 2 (p.level + 1), sagIn := if core then p.sagIn else p.sagIn + 1, sagCore := if core then p.sagCore + 1 else p.sagCore })) := by
  rw [execSagFire, if_neg (not_not.mpr hup)]

theorem execSagRecovery_of_up : execSagRecovery s = .next (s.updPw (fun p => { p with level := max p.lmin (p.level - 1) })) := by
  rw [execSagRecovery, if_neg (not_not.mpr hup)]

/-! ### Power states (22 R653, R654) -/

theorem execA1Entry_of_quiet (hp : s.pw.pstate = 0) (hctl : s.pw.ctl.getLsbD 0 = true) (hq : s.quietA1 = true) :
    execA1Entry s = .next (s.updPw (fun p => { p with pstate := 1 })) := by
  rw [execA1Entry, if_pos ⟨hup, hp, hctl, hq⟩]

theorem execA2Entry_of_quiet (hp : s.pw.pstate = 1) (hctl : s.pw.ctl.getLsbD 1 = true) (hq : s.quietA2 = true) :
    execA2Entry s = .next ((((List.range s.part.tiles).filter s.tileOn).foldl (fun (s : State) t => s.updTile t (fun _ => {}))
      (((List.range s.part.tiles).filter s.tileOn).foldl (fun (s : State) t => s.flushL1D t) s)).updPw (fun p => { p with pstate := 2 })) := by
  rw [execA2Entry, if_pos ⟨hup, hp, hctl, hq⟩]

theorem execA3Entry_of_quiet (hp : s.pw.pstate = 2) (hctl : s.pw.ctl.getLsbD 2 = true) (hq : s.quietA3 = true) (hreqs : s.mem.reqs = []) :
    ∃ u, execA3Entry s = .next u ∧ u.pw.pstate = 3 ∧ u.mem.cells = s.mem.cells ∧ u.mem.chans = s.mem.chans.map (fun p => (p.1, p.2.sleep)) := by
  have hidle : s.mem.reqs.isEmpty = true := by rw [hreqs]; rfl
  rw [execA3Entry, if_pos ⟨hup, hp, hctl, hq, hidle⟩]
  exact ⟨_, rfl, rfl, rfl, rfl⟩

end Up

/-- Tiles that have been cleared one after another are at their reset values. -/
theorem State.tile_foldl_clear (l : List Nat) (s : State) (k : Nat) (h : k ∈ l ∨ s.tile k = {}) :
    (l.foldl (fun (s : State) t => s.updTile t (fun _ => {})) s).tile k = {} := by
  induction l generalizing s with
  | nil => exact h.resolve_left List.not_mem_nil
  | cons t l ih =>
    rw [List.foldl_cons]
    refine ih _ ?_
    by_cases hk : t = k
    · exact .inr (by rw [hk, State.tile_updTile])
    · refine h.imp (fun hmem => (List.mem_cons.mp hmem).resolve_left (Ne.symm hk)) (fun hclear => ?_)
      exact (Tab.getD_upd_ne s.tiles {} (fun _ => {}) hk).trans hclear

theorem execPowerStateExit_of_stale (hp : s.pw.pstate = 1) (hq : s.quietA1 = false) :
    ∃ u, execPowerStateExit false s = .next u ∧ u.pw.pstate = 0 ∧ u.tiles = s.tiles ∧ u.mem = s.mem := by
  refine ⟨_, rfl, ?_⟩
  simp [hp, hq, State.toA0]

theorem execPowerStateExit_of_woken (hp : s.pw.pstate = 3) :
    ∃ u, execPowerStateExit true s = .next u ∧ u.pw.pstate = 0 ∧ u.mem.cells = s.mem.cells := by
  refine ⟨_, rfl, ?_⟩
  simp [hp, State.toA0, State.startTiles]

/-! ### Temperature (22 R647) -/

/-- A judgement of a sensor changes what is known of it and the log, and nothing that a reading rests on. -/
theorem State.judgeSensor_frame (s : State) (t : Nat) : (s.judgeSensor t).tiles = s.tiles ∧ (s.judgeSensor t).tileTemp = s.tileTemp ∧
    (s.judgeSensor t).pw = s.pw := by
  unfold State.judgeSensor
  extract_lets n rel s1
  split
  · obtain ⟨e, ho, h⟩ := ({ s1 with unreliable := t :: s1.unreliable } : State).log_only 0x72 0 0x7F 0 t 0 0 (t + 2 ^ 32 * wrapInt 32 (s.tempOf t))
    rw [h]
    exact ⟨rfl, rfl, rfl⟩
  · exact ⟨rfl, rfl, rfl⟩

/-- The state in which readings have been taken and every sensor judged. -/
def State.judged (s : State) (temps : List Int) : State :=
  (List.range s.part.tiles).foldl (fun (s : State) t => s.judgeSensor t)
    { s with tileTemp := (List.range s.part.tiles).map (fun t => (t, temps.getD t (s.tempOf t))) }

theorem State.judged_frame (s : State) (temps : List Int) : (s.judged temps).tiles = s.tiles ∧
    (s.judged temps).tileTemp = (List.range s.part.tiles).map (fun t => (t, temps.getD t (s.tempOf t))) ∧ (s.judged temps).pw = s.pw := by
  obtain ⟨htiles, hrest⟩ := Prod.mk.inj (foldl_proj (fun u : State => (u.tiles, u.tileTemp, u.pw)) (g := fun (s : State) t => s.judgeSensor t) (fun u t => by
    obtain ⟨htiles, htemp, hpw⟩ := u.judgeSensor_frame t
    rw [htiles, htemp, hpw]) (List.range s.part.tiles) { s with tileTemp := (List.range s.part.tiles).map (fun t => (t, temps.getD t (s.tempOf t))) })
  obtain ⟨htemp, hpw⟩ := Prod.mk.inj hrest
  exact ⟨htiles, htemp, hpw⟩

theorem execThermalEval_of_up (temps : List Int) (hup : s.pw.supply = .up) : ∃ alert, execThermalEval temps s =
    .next ((s.judged temps).updPw (fun p => { p with
      dth := (List.range s.part.tiles).map (fun t => (t, 16 - 4 * thermRow ((16 - s.dthOf t) / 4) ((s.judged temps).tempUsed t))), alert })) := by
  rw [execThermalEval, if_neg (not_not.mpr hup)]
  exact ⟨if 100 ≤ ((List.range s.part.tiles).map (s.judged temps).tempUsed).foldl max (-128) then true
    else if ((List.range s.part.tiles).map (s.judged temps).tempUsed).foldl max (-128) < 98 then false else (s.judged temps).pw.alert, rfl⟩

/-! ### Start-up (22 R656 to R658) -/

theorem State.signal_linkUp (s : State) (f v : Nat) : (s.signal f v).host.linkUp = s.host.linkUp := by
  unfold State.signal
  extract_lets k
  split
  · rfl
  · split <;> rfl

theorem State.logNew_linkUp (s : State) (r : ErrRec) : (s.logNew r).host.linkUp = s.host.linkUp := by
  unfold State.logNew
  extract_lets l s1 due s2
  split
  · exact State.signal_linkUp s1 0 1
  · rfl

theorem State.log_linkUp (s : State) (event cls func ukind unit status addr detail : Nat) :
    (s.log event cls func ukind unit status addr detail).host.linkUp = s.host.linkUp := by
  unfold State.log
  extract_lets q
  split
  · split
    · rfl
    · exact State.logNew_linkUp s q
  · exact State.logNew_linkUp s q

theorem State.endWipe_only (s : State) : ∃ nv keys upd, s.endWipe = { s with nv, keys, upd } := by
  unfold State.endWipe
  split
  · exact ⟨_, _, _, rfl⟩
  · exact ⟨s.nv, s.keys, s.upd, rfl⟩

/-- The records of modules that were refused change the log and the messages to the host alone. -/
theorem State.foldl_log_only (l : List (Nat × Module)) (s : State) : ∃ e ho,
    l.foldl (fun (s : State) p => s.log 0x28 3 0x7F 3 p.1 0 0 p.2.refused) s = { s with errlog := e, host := ho } ∧ ho.linkUp = s.host.linkUp := by
  induction l generalizing s with
  | nil => exact ⟨s.errlog, s.host, rfl, rfl⟩
  | cons p l ih =>
    obtain ⟨e, ho, h⟩ := s.log_only 0x28 3 0x7F 3 p.1 0 0 p.2.refused
    have hlink := s.log_linkUp 0x28 3 0x7F 3 p.1 0 0 p.2.refused
    obtain ⟨e', ho', h', hlink'⟩ := ih (s.log 0x28 3 0x7F 3 p.1 0 0 p.2.refused)
    exact ⟨e', ho', by rw [List.foldl_cons, h', h], hlink'.trans hlink⟩

theorem State.remap_only (s : State) : ∃ mem, s.remap = { s with mem } ∧ mem.cells = s.mem.cells := ⟨_, rfl, rfl⟩

/-- Memory starts empty. -/
theorem State.startMemory_only (s : State) (mods : List Nat) : ∃ freeCtr mem errlog host, s.startMemory mods = { s with freeCtr, mem, errlog, host } ∧
    mem.cells = [] ∧ host.linkUp = s.host.linkUp := by
  unfold State.startMemory
  extract_lets ms up chans s1 s2
  obtain ⟨e, ho, h, hlink⟩ := State.foldl_log_only (ms.filter (fun p => p.2.refused != 0)) s1
  have hs2 : s2 = { s1 with errlog := e, host := ho } := h
  obtain ⟨mem, hmap, hcells⟩ := s2.remap_only
  rw [hs2] at hmap hcells ⊢
  exact ⟨s1.freeCtr, mem, e, ho, hmap, hcells, hlink⟩

theorem State.updPort_only (s : State) (p : Nat) (g : KPort → KPort) : ∃ krl, s.updPort p g = { s with krl } ∧ krl.xchgs = s.krl.xchgs :=
  ⟨_, rfl, rfl⟩

theorem State.updPort_updPort_only (s : State) (n a b : Word) : ∃ krl,
    (({ s with krl := { s.krl with node := n } } : State).updPort 6 (fun k => { k with ctl := a })).updPort 7 (fun k => { k with ctl := b }) =
      { s with krl } ∧ krl.xchgs = s.krl.xchgs := by
  obtain ⟨krl, h, hx⟩ := ({ s with krl := { s.krl with node := n } } : State).updPort_only 6 (fun k => { k with ctl := a })
  obtain ⟨krl', h', hx'⟩ := (({ s with krl := { s.krl with node := n } } : State).updPort 6 (fun k => { k with ctl := a })).updPort_only 7
    (fun k => { k with ctl := b })
  exact ⟨krl', by rw [h', h], by rw [hx', h, hx]⟩

theorem State.startKrelor_only (s : State) : ∃ krl, s.startKrelor = { s with krl } ∧ krl.xchgs = s.krl.xchgs := by
  unfold State.startKrelor
  split
  · exact ⟨s.krl, rfl, rfl⟩
  · exact s.updPort_updPort_only s.nv.nodeReg (portReg s.nv.port6) (portReg s.nv.port7)

theorem State.bootUp_only (s : State) (img : BitVec 2) : ∃ nv upd runtimeVer dstate, s.bootUp img = { s with nv, upd, runtimeVer, dstate } :=
  ⟨_, _, _, _, rfl⟩

/-- A start-up from a reset state: flash, keys, memory, the log, the mesh and the image that runs change; memory is empty, exchanges
and the host link are as they were. -/
theorem State.startUp_only (s : State) (mods : List Nat) (img : BitVec 2) : ∃ nv keys upd freeCtr mem errlog host krl runtimeVer dstate,
    ((s.endWipe.startMemory mods).startKrelor).bootUp img = { s with nv, keys, upd, freeCtr, mem, errlog, host, krl, runtimeVer, dstate } ∧
      mem.cells = [] ∧ krl.xchgs = s.krl.xchgs ∧ host.linkUp = s.host.linkUp := by
  obtain ⟨nv, keys, upd, hwipe⟩ := s.endWipe_only
  obtain ⟨fc, mem, e, ho, hmem, hcells, hlink⟩ := s.endWipe.startMemory_only mods
  obtain ⟨krl, hkrl, hx⟩ := (s.endWipe.startMemory mods).startKrelor_only
  obtain ⟨nv', upd', rv, ds, hboot⟩ := ((s.endWipe.startMemory mods).startKrelor).bootUp_only img
  refine ⟨nv', keys, upd', fc, mem, e, ho, krl, rv, ds, ?_, hcells, ?_, ?_⟩
  · rw [hboot, hkrl, hmem, hwipe]
  · rw [hx, hmem, hwipe]
  · rw [hlink, hwipe]

theorem State.startTiles_tile_bound (s : State) (k : Nat) : (s.startTiles.tile k).bound = none := by
  rw [State.tile, State.startTiles]
  dsimp only
  split
  · rfl
  · rw [Tab.getD_map_key]
    split <;> rfl

/-! ### Module resets (22 R656, R666) -/

/-- The reset state from which a cold reset starts up. -/
def State.coldFrom (s : State) (cause : Nat) (straps : BitVec 5) : State :=
  { s.afterReset with
    host := { bar2 := s.host.bar2Next, bar2Next := s.host.bar2Next }, errlog := { spill := s.errlog.spill },
    pw := { supply := .up, pwrgd := true, cause := BitVec.ofNat 8 cause, vin := s.pw.vin, pin := s.pw.pin, straps, i3c := s.pw.i3c },
    rel := { drift := s.rel.drift, planned := s.rel.planned, eye := s.rel.eye, eyeGoal := s.rel.eyeGoal },
    krl := { ports := s.krl.ports.map (fun p => (p.1, { cable := p.2.cable })) } }

/-- The reset state from which a warm reset starts up. -/
def State.warmFrom (s : State) (cause : Nat) : State :=
  { s.afterReset with
    now := s.now, cad := { s.cad with acts := [], trig := [], ovf := [], launched := 0 }, tilesOff := s.tilesOff, slicesOff := s.slicesOff,
    cmpOff := s.cmpOff, dmaOff := s.dmaOff, dgsOff := s.dgsOff, brmOff := s.brmOff, unreliable := s.unreliable,
    host := { s.host with cgen := s.host.cgen + 2 }, errlog := s.errlog, pw := { s.pw with cause := BitVec.ofNat 8 cause, pstate := 0, lanes := [] },
    rel := { s.rel with fenced := [], removing := none, draining := false }, krl := { s.krl with xchgs := [], aborts := [], closed := [] } }

/-- A cold reset starts up with nothing in memory, no tenant and no command, at the lowest sag level that it finds. -/
theorem State.coldStart_frame (s : State) (cause : Nat) (mods : List Nat) (straps : BitVec 5) (img : BitVec 2) :
    let u := s.coldStart cause mods straps img
    u.pw.supply = .up ∧ u.pw.cause = BitVec.ofNat 8 cause ∧ u.pw.straps = straps ∧ u.mem.cells = [] ∧ u.tenants = [] ∧ u.works = [] ∧
      u.pending = s.pending ∧ u.pw.level = u.pw.lmin ∧ ∀ k, (u.tile k).bound = none := by
  obtain ⟨nv, keys, upd, fc, mem, e, ho, krl, rv, ds, hstart, hcells, -, -⟩ := (s.coldFrom cause straps).startUp_only mods img
  unfold State.coldFrom at hstart
  dsimp only
  rw [State.coldStart, hstart]
  exact ⟨rfl, rfl, rfl, hcells, rfl, rfl, rfl, rfl, State.startTiles_tile_bound _⟩

/-- A warm reset starts up with nothing in memory, no tenant and no command; the time, the sag level and the host link go on. -/
theorem State.warmStart_frame (s : State) (cause : Nat) (mods : List Nat) (img : BitVec 2) :
    let u := s.warmStart cause mods img
    u.pw.cause = BitVec.ofNat 8 cause ∧ u.now = s.now ∧ u.pw.level = s.pw.level ∧ u.mem.cells = [] ∧ u.tenants = [] ∧ u.works = [] ∧
      u.cad.acts = [] ∧ u.krl.xchgs = [] ∧ u.host.linkUp = s.host.linkUp := by
  obtain ⟨nv, keys, upd, fc, mem, e, ho, krl, rv, ds, hstart, hcells, hx, hlink⟩ := (s.warmFrom cause).startUp_only mods img
  unfold State.warmFrom at hstart
  dsimp only
  rw [State.warmStart, hstart]
  exact ⟨rfl, rfl, rfl, hcells, rfl, rfl, rfl, hx, hlink⟩

theorem execShutdownRestart_of_clear (hdown : s.pw.supply = .down) (hgood : s.pw.pwrgd = true) (href : s.pw.holdover = false) (hlo : 4750 ≤ vin)
    (hhi : vin ≤ 18000) (hcool : s.pw.shut ≠ 6 ∨ tmax < 95) : execShutdownRestart vin tmax mods straps img s =
    .next ((s.updPw (fun p => { p with vin := BitVec.ofNat 16 vin })).coldStart s.pw.shut mods straps img) := by
  have hclear : (!s.pw.holdover) = true := by rw [href]; rfl
  rw [execShutdownRestart, if_pos ⟨hdown, hgood, hclear, hlo, hhi, hcool⟩]

theorem execModuleColdReset_of_power (h : s.pw.supply = .ramping ∨ s.pw.supply = .up) : execModuleColdReset mods straps img s =
    .next (s.coldStart (if s.pw.supply = .up then 3 else 1) mods straps img) := by
  obtain h | h := h <;> simp [execModuleColdReset, h]

/-- Settles O59. -/
theorem powerAndResets : Obligations.PowerAndResets := by
  unfold Obligations.PowerAndResets
  intro s vin r t temp tmax temps pin v mods straps img lost
  have hlost : ∀ {s1 : State} (cause : Nat), s1.nv = s.nv → s1.pending = s.pending → s1.hostMem = s.hostMem → s1.errlog = s.errlog →
      lost (s1.shutdown cause) cause := fun {s1} cause hnv hpending hhost hlog => by
    obtain ⟨h1, h2, h3, h4, h5, h6, h7, h8, h9, h10, h11, h12⟩ := (s1.shutdown_lost cause).of_frame hnv hpending hhost hlog
    exact ⟨h1, h2, h3, h4, h5, h6, h7, h8, h9, h10, h11, h12⟩
  refine ⟨?_, ?_, ?_, ?_, fun hup => ⟨?_, ?_, ?_, ?_, ?_, ?_, ?_, ?_, ?_, ?_, ?_, ?_, ?_, ?_⟩, ?_, ?_, ?_, ?_, ?_, ?_, ?_⟩
  · intro hlow hmin hmax
    have hcond : ¬ (s.pw.pwrgd = true ∨ vin < 4500 ∨ 18500 < vin) := by simp [hlow]; omega
    exact ⟨_, by rw [exec, execPowerGood, if_neg hcond], rfl, rfl, rfl⟩
  · exact fun h => ⟨_, rfl, by simp [h]⟩
  · exact fun h => ⟨_, rfl, by simp [h]⟩
  · exact fun h => ⟨_, rfl, if_pos h⟩
  · exact fun hv => ⟨_, execOverVoltage_of_over hup hv, hlost 5 rfl rfl rfl rfl⟩
  · exact fun hv => ⟨_, execUnderVoltage_of_under hup hv, hlost 5 rfl rfl rfl rfl⟩
  · exact ⟨_, execPwrgdLow_of_up hup, hlost 8 rfl rfl rfl rfl, State.shutdown_pwrgd _ 8⟩
  · exact fun htemp ht => ⟨_, execThermalTrip_of_hot hup htemp ht, hlost 6 rfl rfl rfl rfl⟩
  · exact fun hh => ⟨_, execRefTimeout_of_holdover hup hh, hlost 7 rfl rfl rfl rfl⟩
  · intro hh
    refine ⟨_, execRefLoss_of_locked hup hh, ?_⟩
    rw [State.log_pw, State.log_tiles, State.log_mem]
    exact ⟨rfl, rfl, rfl⟩
  · intro env
    refine ⟨_, execPowerSample_of_up hup pin v, rfl, rfl, rfl, rfl, ?_, ?_, ?_⟩
    · intro hover
      have hunder : (pin.toNat * 100 * 100 < 95 * env ∧ s.pw.under + 1 < 10) ↔ (pin.toNat * 10000 < 95 * env ∧ s.pw.under < 9) := by omega
      exact ⟨if_pos hover, if_congr hunder rfl rfl⟩
    · intro hlow hcap
      refine ⟨fun hnine => ?_, fun hless => ?_⟩
      · exact ⟨(if_neg (Nat.not_lt.mpr hcap)).trans (if_pos ⟨by omega, by omega⟩), if_neg (by omega)⟩
      · exact ⟨(if_neg (Nat.not_lt.mpr hcap)).trans (if_neg (by omega)), if_pos ⟨by omega, by omega⟩⟩
    · exact fun hhigh => if_neg (by omega)
  · obtain ⟨alert, hexec⟩ := execThermalEval_of_up temps hup
    obtain ⟨htiles, htemp, hpw⟩ := s.judged_frame temps
    refine ⟨_, hexec, htiles, fun k hk => ⟨?_, ?_⟩⟩
    · exact (congrArg (fun l => Tab.getD l k 40) htemp).trans ((Tab.getD_map_key ..).trans (if_pos (List.mem_range.mpr hk)))
    · exact (Tab.getD_map_key ..).trans (if_pos (List.mem_range.mpr hk))
  · exact ⟨_, execSagFire_of_up hup true, rfl, rfl, rfl⟩
  · exact ⟨_, execSagFire_of_up hup false, rfl, rfl, rfl⟩
  · exact ⟨_, execSagRecovery_of_up hup, rfl⟩
  · exact fun hp hctl hq => ⟨_, execA1Entry_of_quiet hup hp hctl hq, rfl, rfl, rfl⟩
  · refine fun hp hctl hq => ⟨_, execA2Entry_of_quiet hup hp hctl hq, rfl, fun k hk hon => ?_⟩
    have hclear := State.tile_foldl_clear ((List.range s.part.tiles).filter s.tileOn)
      (((List.range s.part.tiles).filter s.tileOn).foldl (fun (s : State) t => s.flushL1D t) s) k
      (.inl (List.mem_filter.mpr ⟨List.mem_range.mpr hk, hon⟩))
    exact ⟨congrArg Tile.bound hclear, congrArg (fun x : Tile => x.l1.d) hclear⟩
  · exact fun hp hctl hq hreqs => execA3Entry_of_quiet hup hp hctl hq hreqs
  · exact ⟨_, rfl, rfl⟩
  · exact fun hp hq => execPowerStateExit_of_stale hp hq
  · exact fun hp => execPowerStateExit_of_woken hp
  · intro hdown hgood href hlo hhi hcool
    obtain ⟨hsupply, hcause, -⟩ := (s.updPw (fun p => { p with vin := BitVec.ofNat 16 vin })).coldStart_frame s.pw.shut mods straps img
    exact ⟨_, execShutdownRestart_of_clear hdown hgood href hlo hhi hcool, hsupply, hcause⟩
  · exact ⟨_, rfl, rfl⟩
  · intro h
    obtain ⟨hsupply, hcause, hstraps, hcells, hten, hworks, hpending, hlevel, hbound⟩ :=
      s.coldStart_frame (if s.pw.supply = .up then 3 else 1) mods straps img
    refine ⟨_, execModuleColdReset_of_power h, hsupply, ?_, hstraps, hcells, hten, hworks, hpending, hlevel, fun k _ => hbound k⟩
    rw [hcause]
    split <;> rfl
  · intro hup
    obtain ⟨hcause, hnow, hlevel, hcells, hten, hworks, hacts, hx, hlink⟩ := s.warmStart_frame 2 mods img
    obtain ⟨hcause', hnow', hlevel', hcells', hten', -⟩ := s.warmStart_frame 4 mods img
    exact ⟨⟨_, by rw [exec, execModuleWarmReset, if_pos hup], hcause, hnow, hlevel, hcells, hten, hworks, hacts, hx, hlink⟩,
      ⟨_, by rw [exec, execPwrRstWarm, if_pos hup], hcause', hnow', hlevel', hcells', hten'⟩⟩

end Sys2Proof.Machine
end

section
/-! PROOFS. Obligation O60 (faults of units, margins, host resets, key slots, register writes, SPDM, the debug port). -/

namespace Sys2Proof.Machine

variable {s s1 : State} {t h line m r ph f off bytes k : Nat} {v : BitVec 64} {other : Bool} {req : List (BitVec 8)}

/-! ### Tiles that leave service (20 R583; 23 R673) -/

theorem State.lowerGuar_frame (s : State) (n : Nat) : (s.lowerGuar n).part = s.part ∧ (s.lowerGuar n).tilesOff = s.tilesOff := by
  induction n generalizing s with
  | zero => exact ⟨rfl, rfl⟩
  | succ n ih =>
    unfold State.lowerGuar
    extract_lets sum
    split
    · exact ⟨rfl, rfl⟩
    · split
      · exact ⟨rfl, rfl⟩
      · exact ih _

theorem State.disableTile_tileOn (s : State) (t cause : Nat) : (s.disableTile t cause).tileOn t = false := by
  unfold State.disableTile
  by_cases hon : s.tileOn t = true
  · simp only [hon, Bool.not_true, Bool.false_eq_true, if_false]
    set s1 := (s.loseTask t).updTile t (fun _ => {})
    set s2 : State := { s1 with tilesOff := t :: s1.tilesOff } with hs2
    obtain ⟨mb, ho, hpage⟩ := ((s2.log 0x03 3 0x7F 0 t 0 0 cause).lowerGuar 96).pageChanged_only
    rw [hpage, State.tileOn]
    dsimp only
    rw [((s2.log 0x03 3 0x7F 0 t 0 0 cause).lowerGuar_frame 96).2, State.log_tilesOff, hs2]
    simp
  · simp only [hon, Bool.not_false, if_true]

theorem State.retireTile_tileOn (s : State) (t cause : Nat) : (s.retireTile t cause).tileOn t = false := by
  unfold State.retireTile
  by_cases hon : s.tileOn t = true
  · simp only [hon, Bool.not_true, Bool.false_eq_true, if_false]
    exact State.disableTile_tileOn _ t cause
  · simp only [hon, Bool.not_false, if_true]

section TileReturn

variable (hfenced : s.rel.fenced.contains t = true)
include hfenced

/-- A fenced tile that has been reset and whose fence has been taken from the list. -/
def State.unfenced (s : State) (t : Nat) : State :=
  ((s.resetTile t).updTile t (fun x => { core := { pc := s.entryPc, released := x.core.released } })).updRel (fun r => { r with
    fenced := r.fenced.erase t,
    fences := r.fences.set t ((s.rel.fences.getD t []).filter (fun k => decide (s.ticks < k + 24 * 3600 * 100000000))) })

omit hfenced in
theorem State.unfenced_tile (s : State) (t : Nat) :
    (s.unfenced t).tile t = { core := { pc := s.entryPc, released := ((s.resetTile t).tile t).core.released } } :=
  State.tile_updTile (s.resetTile t) t (fun x => { core := { pc := s.entryPc, released := x.core.released } })

theorem execTileReturn_of_pass
    (hfew : ((s.rel.fences.getD t []).filter (fun k => decide (s.ticks < k + 24 * 3600 * 100000000))).length < 3) :
    execTileReturn t true s = .next { s.unfenced t with
      slices := (s.unfenced t).slices.map (fun p => (p.1, { p.2 with fenced := p.2.fenced &&& ~~~((1 : BitVec 128) <<< t) })) } := by
  rw [execTileReturn]
  simp only [hfenced, if_neg (Nat.not_le.mpr hfew), Bool.not_true, Bool.false_eq_true, if_false]
  rfl

theorem execTileReturn_of_fail : execTileReturn t false s = .next ((s.unfenced t).disableTile t 2) := by
  rw [execTileReturn]
  simp only [hfenced, Bool.not_true, Bool.not_false, Bool.false_eq_true, if_false, if_true]
  rfl

end TileReturn

/-- A cleared bit of the fence mask. -/
theorem getLsbD_clearBit {x : BitVec 128} (ht : t < 128) : (x &&& ~~~((1 : BitVec 128) <<< t)).getLsbD t = false := by
  simp [ht]

/-! ### Orchard slices (23 R671, R674, R675) -/

theorem State.condemn_of_idle (s : State) (h cause : Nat) (hidle : s.rel.removing = none) :
    s.condemn h cause = (s.updRel (fun r => { r with removing := some (h, cause) })).log 0x12 3 0x7F 1 h 0 0 cause := by
  simp only [State.condemn, hidle]

theorem State.condemn_frame (s : State) (h cause : Nat) (hidle : s.rel.removing = none) :
    (s.condemn h cause).rel.removing = some (h, cause) ∧ (s.condemn h cause).slices = s.slices := by
  rw [s.condemn_of_idle h cause hidle, State.log_rel, State.log_slices]
  exact ⟨rfl, rfl⟩

theorem State.logBit_rel (s : State) (owner : Nat) (m : MigLog) (dev : Bool) (i : Nat) : (s.logBit owner m dev i).rel = s.rel := by
  rw [State.logBit, State.updTenant_rel, State.setHostBit]

theorem State.migLog_rel (s : State) (owner line : Nat) : (s.migLog owner line).rel = s.rel := by
  unfold State.migLog
  split
  · rfl
  · extract_lets a b
    split
    · split
      · rw [State.logBit_rel]
      · rfl
    · split
      · rw [State.logBit_rel]
      · rfl

theorem State.hostPut_rel (s : State) (line : Nat) (d : Line) (blot : Bool) : (s.hostPut line d blot).rel = s.rel := by
  rw [State.hostPut]

theorem State.postMem_rel (s : State) (h line owner : Nat) (cls : MemCls) (wr : Option (Line × BitVec 64 × Bool)) :
    (s.postMem h line owner cls wr).rel = s.rel := by
  rw [State.postMem]

theorem State.orcPut_rel (s : State) (line owner : Nat) (d : Line) (dirty blot : Bool) : (s.orcPut line owner d dirty blot).rel = s.rel := by
  have hevict : ∀ (h : Nat) (o : OLine), (s.evictData h o).rel = s.rel := by
    intro h o
    unfold State.evictData
    split
    · rfl
    · split
      · rw [State.hostPut_rel, State.migLog_rel]
      · rw [State.postMem_rel]
  unfold State.orcPut
  extract_lets h sl o k s1
  split
  · rfl
  · rw [State.updSlice_rel]
    unfold s1
    split
    · exact hevict h _
    · rfl

theorem State.markBlot_rel (s : State) (line owner : Nat) : (s.markBlot line owner).rel = s.rel := by
  rw [State.markBlot, State.updSlice_rel, State.orcPut_rel]

section SliceFault

variable (hon : s.sliceOn h = true) (hidle : s.rel.removing = none)
include hon

theorem execSliceFault_of_diverged : execSliceFault h 1 line s = .next (s.condemn h 1) := by
  simp only [execSliceFault, hon, Bool.not_true, Bool.false_eq_true, if_false, if_true]

include hidle

theorem execSliceFault_of_data (hway : (s.slice h).dataWay line = some k) : ∃ u, execSliceFault h 2 line s = .next u ∧
    u.rel.removing = (if 4 ≤ (s.lastSecond (s.rel.dataUe.getD h [])).length then some (h, 2) else none) ∧
    (u.slice h).data = (s.slice h).data.map (fun e => if e.1 = k then (e.1, { e.2 with blot := true }) else e) := by
  simp only [execSliceFault, hon, hway, Bool.not_true, Bool.false_eq_true, if_false, if_true, OfNat.ofNat_ne_one]
  refine ⟨_, rfl, ?_⟩
  set s1 := (s.updSlice h (fun sl => { sl with data := sl.data.map (fun e => if e.1 = k then (e.1, { e.2 with blot := true }) else e) })).updRel
    (fun r => { r with dataUe := r.dataUe.set h (s.lastSecond (s.rel.dataUe.getD h [])) }) with hs1
  set s2 := s1.log 0x11 2 ((((s.slice h).dataLine line).map (·.owner)).getD 0x7F) 1 h 0 (64 * lineA line) (k / 16 + 2 ^ 32 * (k % 16)) with hs2
  have hrel : s2.rel.removing = none := by rw [hs2, State.log_rel]; exact hidle
  have hdata : (s2.slice h).data = (s.slice h).data.map (fun e => if e.1 = k then (e.1, { e.2 with blot := true }) else e) := by
    rw [State.slice, hs2, State.log_slices]
    exact congrArg Slice.data (State.slice_updSlice s h (fun sl => { sl with
      data := sl.data.map (fun e => if e.1 = k then (e.1, { e.2 with blot := true }) else e) }))
  by_cases hmany : 4 ≤ (s.lastSecond (s.rel.dataUe.getD h [])).length
  · simp only [if_pos hmany]
    obtain ⟨hremoving, hslices⟩ := s2.condemn_frame h 2 hrel
    exact ⟨hremoving, by rw [State.slice, hslices]; exact hdata⟩
  · simp only [if_neg hmany]
    exact ⟨hrel, hdata⟩

theorem execSliceFault_of_directory {e : DirEntry} (hway : (s.slice h).dirWay line = some k) (he : (s.slice h).dir.find? k = some e)
    (hfree : e.busy = false) : ∃ u, execSliceFault h 3 line s = .next u ∧
      u.rel.removing = if 2 ≤ (s.lastSecond (s.rel.dirUe.getD h [])).length then some (h, 3) else none := by
  simp only [execSliceFault, hon, hway, he, hfree, Bool.not_true, Bool.false_eq_true, if_false, if_true, OfNat.ofNat_ne_one,
    show (3 : Nat) ≠ 2 by decide]
  refine ⟨_, rfl, ?_⟩
  set s1 : State := { s with tiles := s.tiles.map (fun p => (p.1, { p.2 with l1 := p.2.l1.invalidate line })) }
  set s2 := (((s1.freeDir h k).markBlot line e.owner).updRel (fun r => { r with
    dirUe := r.dirUe.set h (s.lastSecond (s.rel.dirUe.getD h [])) })).log 0x10 2 e.owner 1 h 0 (64 * lineA line) (k / 16 + 2 ^ 32 * (k % 16)) with hs2
  have hrel : s2.rel.removing = none := by
    rw [hs2, State.log_rel]
    exact (congrArg Relia.removing (State.markBlot_rel (s1.freeDir h k) line e.owner)).trans hidle
  by_cases hmany : 2 ≤ (s.lastSecond (s.rel.dirUe.getD h [])).length
  · simp only [if_pos hmany]
    exact (s2.condemn_frame h 3 hrel).1
  · simp only [if_neg hmany]
    exact hrel

end SliceFault

theorem execSliceRemoval_of_condemned {c : Nat} (hrem : s.rel.removing = some (h, c)) :
    execSliceRemoval h s = .next (s.updRel (fun r => { r with draining := true })) := by
  simp only [execSliceRemoval, hrem, if_true]

/-- Requests that go to the homes of another map change slices and the mesh alone. -/
theorem State.rehome_only (s : State) : ∃ slices net, s.rehome = { s with slices, net } := by
  have hfold : ∀ (l : List Msg) (u : State), ∃ slices, l.foldl (fun (s' : State) m => s'.updSlice (s'.homeOf m.line) (fun sl => { sl with
      queue := sl.queue ++ [{ m with dst := 128 + s.homeOf m.line }] })) u = { u with slices } := by
    intro l
    induction l with
    | nil => exact fun u => ⟨u.slices, rfl⟩
    | cons m l ih =>
      intro u
      obtain ⟨slices, h⟩ := ih (u.updSlice (u.homeOf m.line) (fun sl => { sl with queue := sl.queue ++ [{ m with dst := 128 + s.homeOf m.line }] }))
      exact ⟨slices, h⟩
  obtain ⟨slices, h⟩ := hfold (s.slices.flatMap (fun p => p.2.queue)) { s with
    slices := s.slices.map (fun p => (p.1, { p.2 with queue := [] })),
    net := s.net.map (fun m => if m.kind.cls = 0 then { m with dst := 128 + s.homeOf m.line } else m) }
  exact ⟨slices, _, h⟩

/-- A removal whose homes have drained: the slice leaves the map, and the first-level caches are empty (23 R675). -/
theorem execSliceFlush_of_drained {c : Nat} (hrem : s.rel.removing = some (h, c)) (hdrain : s.rel.draining = true)
    (hidle : ∀ p ∈ s.slices, p.2.txns = []) :
    ∃ u, execSliceFlush s = .next u ∧ u.sliceOn h = false ∧ u.rel.draining = false ∧ ∀ k, (u.tile k).l1.d = [] := by
  have hquiet : s.slices.any (fun p => !p.2.txns.isEmpty) = false := by
    rw [List.any_eq_false]
    exact fun p hp => by simp [hidle p hp]
  simp only [execSliceFlush, hrem, hdrain, hquiet, Bool.not_true, Bool.or_self, Bool.false_eq_true, if_false]
  refine ⟨_, rfl, ?_⟩
  set s1 := s.writeBack.emptyCaches with hs1
  set s2 : State := { s1 with
    tiles := s1.tiles.map (fun p => (p.1, { p.2 with core := { p.2.core with qipend := p.2.core.qipend ||| 8 } })),
    net := s1.net.filter (fun m => m.kind.cls != 3), slices := s1.slices.map (fun p => (p.1, { p.2 with sink := [] })),
    slicesOff := h :: s1.slicesOff, homeMap := [] } with hs2
  obtain ⟨slices, net, hre⟩ := s2.rehome_only
  obtain ⟨mb, ho, hpage⟩ := (s2.rehome.updRel (fun r => { r with
    removing := r.condemned.head?, condemned := r.condemned.drop 1, draining := false })).pageChanged_only
  rw [hpage, hre]
  refine ⟨?_, rfl, fun k => ?_⟩
  · simp [State.sliceOn, hs2]
  · have htile : Tab.find? s2.tiles k = (s.writeBack.tiles.find? k).map (fun x => { x with
        l1 := x.l1.emptied, core := { x.core with qipend := x.core.qipend ||| 8 } }) := by
      rw [hs2]
      refine (Tab.find?_mapVal s1.tiles (fun x => { x with core := { x.core with qipend := x.core.qipend ||| 8 } }) k).trans ?_
      rw [hs1, State.emptyCaches]
      refine (congrArg _ (Tab.find?_mapVal s.writeBack.tiles (fun x => { x with l1 := x.l1.emptied }) k)).trans ?_
      rw [Option.map_map]
      rfl
    show (Tab.getD s2.tiles k {}).l1.d = []
    rw [Tab.getD, htile]
    cases s.writeBack.tiles.find? k <;> rfl

/-! ### Modules, phases, Eunto (23 R676 to R678) -/

theorem State.failModule_failed (m c cause : Nat) (hup : (s.module m).failed = false) (huse : (s.module m).usable = true)
    (hidle : s.mem.reqs = []) : ((s.failModule m c cause).module m).failed = true := by
  simp only [State.failModule, hup, huse, hidle, Bool.not_true, Bool.or_self, Bool.false_eq_true, if_false, List.filter_nil, List.foldl_nil]
  rw [State.module, State.pageChanged_mem, State.log_mem]
  exact congrArg Module.failed (Tab.getD_upd_self s.mem.modules m {} (fun k => { k with failed := true, locks := [] }))

section Up

variable (hup : s.pw.supply = .up)
include hup

theorem execPhaseShed_of_up (hr : r < 8) (hn : s.rel.phases.getD r 0 < 6) : execPhaseShed r ph s =
    .next (let s1 := (s.updRel (fun x => { x with phases := x.phases.set r (s.rel.phases.getD r 0 + 1) })).log 0x60 3 0x7F 8 r 0 0 (r + 2 ^ 32 * ph)
      if s.rel.phases.getD r 0 = 0 then s1
      else ((List.range s1.part.tiles).filter (fun t => s1.rowOf t == r)).foldl (fun (s : State) t => s.retireTile t 3) s1) := by
  have hcond : ¬ (s.pw.supply ≠ .up ∨ 8 ≤ r ∨ 6 ≤ s.rel.phases.getD r 0) := by
    rintro (h | h | h)
    · exact h hup
    · omega
    · omega
  rw [execPhaseShed, if_neg hcond]

/-- A watchdog expiry that finds Eunto free: a second one within a powered hour, or a slot that reads back bad, is fatal. -/
theorem execWatchdogExpiry_of_free (img : BitVec 2) (hinit : s.dstate ≠ .init) (hfree : s.eunto = none) :
    ∃ u, execWatchdogExpiry img s = .next u ∧ u.rel.watchdog = some s.ticks ∧ u.tiles = s.tiles ∧ u.mem = s.mem ∧
      ((∃ k, s.rel.watchdog = some k ∧ s.ticks < k + 3600 * 100000000) ∨ img.getLsbD (if s.upd.keel then 1 else 0) = false → u.dstate = .fault) ∧
      (¬ ((∃ k, s.rel.watchdog = some k ∧ s.ticks < k + 3600 * 100000000) ∨ img.getLsbD (if s.upd.keel then 1 else 0) = false) →
        u.dstate = s.dstate) := by
  have hcond : ¬ (s.pw.supply ≠ .up ∨ s.dstate = .init) := by
    rintro (h | h)
    · exact h hup
    · exact hinit h
  have hslot : (if s.upd.keel then img.getLsbD 1 else img.getLsbD 0) = img.getLsbD (if s.upd.keel then 1 else 0) := by
    split <;> rfl
  rw [execWatchdogExpiry, if_neg hcond]
  simp only [State.log_eunto, State.updRel_eunto, hfree, hslot]
  cases hw : s.rel.watchdog with
  | none =>
    cases hread : img.getLsbD (if s.upd.keel then 1 else 0)
    · refine ⟨_, rfl, ?_⟩
      simp
    · refine ⟨_, rfl, ?_⟩
      simp
  | some k =>
    by_cases hsoon : s.ticks < k + 3600 * 100000000
    · refine ⟨_, rfl, ?_⟩
      simp [hsoon]
    · cases hread : img.getLsbD (if s.upd.keel then 1 else 0)
      · refine ⟨_, rfl, ?_⟩
        simp [hsoon]
      · refine ⟨_, rfl, ?_⟩
        simp [hsoon]

theorem execAgeingMeasure_of_up (drift : List Nat) : execAgeingMeasure drift s =
    .next (({ s with nv := { s.nv with hours := s.nv.hours + 1 } } : State).updRel (fun r => { r with
      drift := (List.range s.part.tiles).map (fun t => (t, drift.getD t (r.drift.getD t 0))) })) := by
  rw [execAgeingMeasure, if_neg (not_not.mpr hup)]

theorem execMarginReplan_of_interval (hdue : s.rel.planHours + 720 ≤ s.nv.hours) : execMarginReplan s = .next (s.replan 1) := by
  rw [execMarginReplan, if_neg (not_not.mpr hup), if_pos hdue]

theorem execMarginReplan_of_drift (hearly : s.nv.hours < s.rel.planHours + 720) (hmoved : s.driftMoved = true) :
    execMarginReplan s = .next (s.replan 2) := by
  rw [execMarginReplan, if_neg (not_not.mpr hup), if_neg (Nat.not_le.mpr hearly), if_pos hmoved]

section Hub

variable (huse : (s.module m).usable = true)
include huse

theorem execHubSensorRead_of_good {x : Int} (hlo : -20 ≤ x) (hhi : x ≤ 110) : ∃ u, execHubSensorRead m (some x) s = .next u ∧
    u.module m = { s.module m with hubTemp := x, badReads := 0 } := by
  have hcond : ¬ (s.pw.supply ≠ .up ∨ (!(s.module m).usable) = true) := by simp [hup, huse]
  rw [execHubSensorRead, if_neg hcond]
  simp only [if_pos (And.intro hlo hhi)]
  exact ⟨_, rfl, Tab.getD_upd_self s.mem.modules m {} (fun k => { k with hubTemp := x, badReads := 0 })⟩

/-- The third failed read in a row sets the highest refresh rate. -/
theorem execHubSensorRead_of_third (hbad : (s.module m).badReads = 2) : ∃ u, execHubSensorRead m none s = .next u ∧
    u.module m = { s.module m with badReads := 3, fastRef := true } := by
  have hcond : ¬ (s.pw.supply ≠ .up ∨ (!(s.module m).usable) = true) := by simp [hup, huse]
  rw [execHubSensorRead, if_neg hcond]
  simp only [if_pos hbad]
  refine ⟨_, rfl, ?_⟩
  rw [State.module, State.log_mem]
  exact Tab.getD_upd_self s.mem.modules m {} (fun k => { k with badReads := 3, fastRef := true })

end Hub

end Up

/-! ### Margins (23 R684 to R687) -/

/-- What a plan of the margins fixes, and the tiles in service. -/
def State.plan (s : State) : Power × Tab Tile × List Nat × Nat × Nat × Tab Nat :=
  (s.pw, s.tiles, s.tilesOff, s.rel.planHours, s.rel.planCause, s.rel.planned)

theorem State.newEyeGoals_plan (s : State) : s.newEyeGoals.plan = s.plan :=
  foldl_proj State.plan (g := fun (s : State) c => s.free.2.updRel (fun x => { x with eyeGoal := x.eyeGoal.set c (s.free.1.toNat % 65536) }))
    (fun _ _ => rfl) (List.range s.part.chans) s

theorem State.log_plan (s : State) (event cls func ukind unit status addr detail : Nat) :
    (s.log event cls func ukind unit status addr detail).plan = s.plan := by
  obtain ⟨e, ho, h⟩ := s.log_only event cls func ukind unit status addr detail
  rw [h]
  rfl

/-- A re-plan that no tile fails raises the levels and records the plan; no tile leaves service. -/
theorem State.replan_plan (c : Nat) (hgood : ∀ k, k < s.part.tiles → s.tileOn k = true → 0 ≤ s.margin k (s.minLevel 2)) :
    (s.replan c).plan = ({ s.pw with lmin := s.minLevel 2, level := max s.pw.level (s.minLevel 2) }, s.tiles, s.tilesOff, s.nv.hours, c, s.rel.drift) := by
  unfold State.replan
  extract_lets l s1 bad s2 s3 d s4
  have hbad : bad = [] := by
    refine List.filter_eq_nil_iff.mpr (fun k hk hfail => ?_)
    obtain ⟨hon, hneg⟩ := Bool.and_eq_true_iff.mp hfail
    exact absurd (hgood k (List.mem_range.mp hk) hon) (not_le.mpr (of_decide_eq_true hneg))
  have hs2 : s2 = s1 := congrArg (List.foldl (fun (s : State) t => s.retireTile t 4) s1) hbad
  have hs3 : s3.plan = s1.plan := by
    unfold s3
    rw [hs2]
    rfl
  have hs4 : s4.plan = s1.plan := (State.log_plan ..).trans (s3.newEyeGoals_plan.trans hs3)
  split
  · rw [State.log_plan, hs4]
    rfl
  · rw [hs4]
    rfl

/-! ### Host resets (16 R466, R471) -/

theorem State.resetFunction_active (hfree : s.eunto ≠ some f) (hact : (s.tenant f).tstate = .active) :
    ((s.resetFunction f).tenant f).tstate = .resetting := by
  unfold State.resetFunction
  extract_lets s1 mine host s2
  have hact' : (s2.tenant f).tstate = .active := hact
  rw [if_neg (show ¬ s2.eunto = some f from hfree), State.flrTenant, hact']
  exact (State.resetTenant_tenant s2 f false [f]).1

theorem State.resetFunction_none (hfree : s.eunto ≠ some f) (hnone : (s.tenant f).tstate = .none) :
    ((s.resetFunction f).mbox f).busy = false ∧ (∀ k ∈ (s.resetFunction f).host.unmasked, k / 64 ≠ f) ∧ (s.resetFunction f).tiles = s.tiles ∧
      (s.resetFunction f).mem = s.mem := by
  unfold State.resetFunction
  extract_lets s1 mine host s2
  have hnone' : (s2.tenant f).tstate = .none := hnone
  rw [if_neg (show ¬ s2.eunto = some f from hfree), State.flrTenant, hnone']
  refine ⟨?_, fun k hk => ?_, rfl, rfl⟩
  · exact congrArg Mailbox.busy (State.mbox_updMbox (s := s) f (fun m => { m with busy := false, done := false, overrun := false }))
  · have hmine := (List.mem_filter.mp hk).2
    simpa [mine] using hmine

/-- What a tile keeps when host-memory lines leave its first-level cache. -/
def Tile.withoutHost (x : Tile) : Tile := { x with
  core := if x.l1.reqs.any (fun q => !!isHostLine q.line && !q.prefetch) then { x.core with stall := none } else x.core,
  l1 := { x.l1 with
    d := x.l1.d.filter (fun k => !isHostLine k.2.line), vbuf := x.l1.vbuf.filter (fun v => !isHostLine v.line),
    i := x.l1.i.filter (fun k => !isHostLine k.2.line), dbuf := x.l1.dbuf.filter (fun b => !isHostLine b.line),
    ibuf := x.l1.ibuf.filter (fun b => !isHostLine b.line), reqs := x.l1.reqs.filter (fun q => !isHostLine q.line) } }

theorem State.dropHostLines_tiles (s : State) : s.dropHostLines.tiles = s.tiles.map (fun p => (p.1, p.2.withoutHost)) := rfl

theorem State.dropHostLines_l1d (s : State) (t : Nat) : ∀ p ∈ (s.dropHostLines.tile t).l1.d, isHostLine p.2.line = false := by
  intro p hp
  rw [State.tile, Tab.getD, State.dropHostLines_tiles, Tab.find?_mapVal] at hp
  cases hx : s.tiles.find? t with
  | none =>
    rw [hx] at hp
    exact absurd hp List.not_mem_nil
  | some x =>
    rw [hx] at hp
    simpa using (List.mem_filter.mp hp).2

/-! ### Key slots (21 R617, R640) -/

/-- KST_CMD holds the error of its last GO in bits 63 to 56. -/
theorem State.kstDone_err (s : State) (v : BitVec 64) {err : Nat} (herr : err < 256) : field (s.kstDone v err).kstCmd 56 8 = err := by
  have hlt : ∀ lo n, field v lo n < 2 ^ n := fun lo n => Nat.mod_lt _ (Nat.two_pow_pos n)
  have h0 := hlt 0 6
  have h1 := hlt 8 1
  have h2 := hlt 24 3
  have h3 := hlt 31 8
  have h4 := hlt 48 8
  simp only [State.kstDone]
  rw [field, BitVec.toNat_ofNat]
  omega

theorem State.keySlot_set_ne {key : KeySlot} {slot : Nat} (hk : k ≠ slot) :
    ({ s with keys := s.keys.set slot key } : State).keySlot k = s.keySlot k := Tab.getD_set_ne _ _ _ (Ne.symm hk)

theorem State.keySlot_set_self (key : KeySlot) (slot : Nat) : ({ s with keys := s.keys.set slot key } : State).keySlot slot = key :=
  Tab.getD_set_self _ _ _ _

/-- KST_DATA as the bytes of a key. -/
def State.kstBytes (s : State) : List Byte := (List.range 8).flatMap (fun n => leBytes 8 (s.kstData.getD n 0).toNat)

section KeyWrite

variable (hgo : v.getLsbD 63 = true) (hwrite : v.getLsbD 8 = false)
include hgo hwrite

theorem execKeyWrite_of_ok (h1 : s.kstErr1 (field v 0 6) = false) (h2 : kstErr2 v s.kstBytes = false) (h3 : s.kstErr3 v = false) :
    execKeyWrite v s = .next (({ s with keys := s.keys.set (field v 0 6) {
      kind := field v 24 3, len := field v 48 8, owner := field v 31 7, useAll := v.getLsbD 38, data := s.kstBytes.take (field v 48 8) } } : State).kstDone v 0) := by
  unfold State.kstBytes at h2 ⊢
  simp only [execKeyWrite, hgo, hwrite, h1, h2, h3, Bool.not_true, Bool.or_self, Bool.false_eq_true, if_false, if_true]

/-- The first check that a key write fails. -/
def State.kstErr (s : State) (v : BitVec 64) : Nat := if s.kstErr1 (field v 0 6) then 1 else if kstErr2 v s.kstBytes then 2 else 3

theorem execKeyWrite_of_bad (hbad : s.kstErr1 (field v 0 6) = true ∨ kstErr2 v s.kstBytes = true ∨ s.kstErr3 v = true) :
    execKeyWrite v s = .next (s.kstDone v (s.kstErr v)) := by
  have hbytes : (List.range 8).flatMap (fun n => leBytes 8 (s.kstData.getD n 0).toNat) = s.kstBytes := rfl
  simp only [execKeyWrite, hgo, hwrite, hbytes, State.kstErr, Bool.not_true, Bool.or_self, Bool.false_eq_true, if_false]
  by_cases h1 : s.kstErr1 (field v 0 6) = true
  · simp only [h1, if_true, one_ne_zero, if_false]
  · by_cases h2 : kstErr2 v s.kstBytes = true
    · simp only [h1, h2, if_true, if_false, OfNat.ofNat_ne_zero, Bool.false_eq_true]
    · have h3 : s.kstErr3 v = true := (hbad.resolve_left h1).resolve_left h2
      simp only [h1, h2, h3, if_true, if_false, OfNat.ofNat_ne_zero, Bool.false_eq_true]

end KeyWrite

theorem State.kstErr_lt (s : State) (v : BitVec 64) : s.kstErr v < 256 := by
  unfold State.kstErr
  split_ifs <;> decide

section KeyErase

variable (hgo : v.getLsbD 63 = true) (herase : v.getLsbD 8 = true)
include hgo herase

theorem execKeyErase_of_refused (h1 : s.kstErr1 (field v 0 6) = true) : execKeyErase v s = .next (s.kstDone v 1) := by
  simp only [execKeyErase, hgo, herase, h1, Bool.not_true, Bool.or_self, Bool.false_eq_true, if_false, if_true]

theorem execKeyErase_of_ok (h1 : s.kstErr1 (field v 0 6) = false) : execKeyErase v s =
    .next (({ s with keys := s.keys.set (field v 0 6) { s.keySlot (field v 0 6) with kind := 0, len := 0, useAll := false, data := [] } } : State).kstDone v 0) := by
  simp only [execKeyErase, hgo, herase, h1, Bool.not_true, Bool.or_self, Bool.false_eq_true, if_false]

end KeyErase

/-! ### Register writes (00 R5, R6; 16 R478) -/

/-- A write that is not of 4 or 8 bytes in place, or of a function that the part has not, does not reach a function's registers. -/
theorem execRegisterWrite_of_bad (hbad : bytes ≠ 4 ∧ bytes ≠ 8 ∨ off % bytes ≠ 0 ∨ s.part.funcs ≤ f) :
    execRegisterWrite (.bar0 f) off bytes v s = .next s ∧ execRegisterWrite (.config f) off bytes v s = .next s := by
  have hcond : ¬ (f < s.part.funcs ∧ ((bytes == 4 || bytes == 8) && off % bytes == 0) = true) := by
    rintro ⟨hf, hok⟩
    simp only [Bool.and_eq_true, Bool.or_eq_true, beq_iff_eq] at hok
    obtain ⟨hsize, halign⟩ := hok
    omega
  simp only [execRegisterWrite, if_neg hcond, and_self]

section RegisterWrite

variable (hsize : bytes = 4 ∨ bytes = 8) (halign : off % bytes = 0)
include hsize halign

theorem regOk_eq_true : ((bytes == 4 || bytes == 8) && off % bytes == 0) = true := by
  simp [hsize, halign]

theorem execRegisterWrite_bar0 (hf : f < s.part.funcs) : execRegisterWrite (.bar0 f) off bytes v s =
    .next (s.bar0Write f (off / 8 * 8) (regVal off bytes v) (regMask off bytes)) := by
  simp only [execRegisterWrite, regOk_eq_true hsize halign, hf, and_self, if_true]

theorem execRegisterWrite_config (hf : f < s.part.funcs) : execRegisterWrite (.config f) off bytes v s =
    .next (s.configWrite f (off / 8 * 8) (regVal off bytes v) (regMask off bytes)) := by
  simp only [execRegisterWrite, regOk_eq_true hsize halign, hf, and_self, if_true]

theorem execRegisterWrite_tile (hon : s.tileOn t = true) : execRegisterWrite (.tile t) off bytes v s = .next (s.winStore t off bytes v) := by
  have hwin : [1, 2, 4, 8].contains bytes = true := by obtain rfl | rfl := hsize <;> rfl
  simp only [execRegisterWrite, hon, hwin, halign, and_self, if_true]

theorem execRegisterWrite_orc : execRegisterWrite (.orc h) off bytes v s =
    .next (s.orcWrite h (off / 8 * 8) (regVal off bytes v) (regMask off bytes)) := by
  simp only [execRegisterWrite, regOk_eq_true hsize halign, if_true]

theorem execRegisterWrite_eunto (b : DevBlock) : execRegisterWrite (.eunto b) off bytes v s =
    .next (s.euntoWrite b (off / 8 * 8) (regVal off bytes v) (regMask off bytes)) := by
  simp only [execRegisterWrite, regOk_eq_true hsize halign, if_true]

end RegisterWrite

/-- A whole write of the low eleven bits of a 32-bit register puts them there. -/
theorem field_rw32_low (old : BitVec 32) (v : Word) : field (rw32 old v (BitVec.allOnes 64) 0x7FF) 0 11 = field v 0 11 := by
  apply Nat.eq_of_testBit_eq
  intro j
  rw [testBit_field, testBit_field]
  by_cases hj : j < 11
  · have hmask : (0x7FF : Nat).testBit j = true := by
      rw [show (0x7FF : Nat) = 2 ^ 11 - 1 from rfl, Nat.testBit_two_pow_sub_one]
      exact decide_eq_true hj
    have h32 : j < 32 := by omega
    have h64 : j < 64 := by omega
    simp only [rw32, rwBits, BitVec.getLsbD_setWidth, BitVec.getLsbD_or, BitVec.getLsbD_and, BitVec.getLsbD_not, BitVec.getLsbD_ofNat,
      BitVec.getLsbD_allOnes, Nat.zero_add, hj, h32, h64, hmask, decide_true, Bool.true_and, Bool.and_true, Bool.not_true, Bool.and_false, Bool.false_or]
  · simp [hj]

theorem keepField_of_ok {new : BitVec 32} (old : BitVec 32) {ok : Nat → Bool} (h : ok (field new 0 11) = true) : keepField old new 0 11 ok = new :=
  if_pos h

theorem field_keepField (old new : BitVec 32) (ok : Nat → Bool) : field (keepField old new 0 11 ok) 0 11 =
    if ok (field new 0 11) then field new 0 11 else field old 0 11 := by
  unfold keepField
  split
  · rfl
  · rw [field_setField_self _ _ (by decide)]
    exact Nat.mod_mod _ _

/-- A write of PWR_CAP takes a cap within 40 W to 160 W. -/
theorem execRegisterWrite_pwrCap (hf : 0 < s.part.funcs) : execRegisterWrite (.bar0 0) 0x4C0018 8 v s = .next (s.updPw (fun p => { p with
    cap := keepField p.cap (rw32 p.cap v (BitVec.allOnes 64) 0x7FF) 0 11 (fun x => decide (400 ≤ x ∧ x ≤ 1600)) })) := by
  rw [execRegisterWrite_bar0 (.inr rfl) rfl hf]
  rfl

/-! ### SPDM and the debug port (16 R473; 21 R626) -/

section Spdm

variable (hup : s.pw.supply = .up) (hinit : s.dstate ≠ .init)
include hup hinit

theorem execSpdmRequest_of_long (hlen : 4096 < req.length) : execSpdmRequest other req s = .next (s.spdmError 14) := by
  have hcond : ¬ (s.pw.supply ≠ .up ∨ s.dstate = .init) := fun h => h.elim (fun h => h hup) hinit
  simp only [execSpdmRequest, if_neg hcond, if_pos hlen]

theorem execSpdmRequest_of_version (hlen : req.length ≤ 4096) (hfree : other = false ∨ s.spdm.session = none) (hcode : getLE req 1 1 = 0x84) :
    execSpdmRequest other req s = .next (({ s with spdm := { s.spdm with stage := 1, session := none } } : State).spdmAnswer 0x04 0 [0x00, 0x12]) := by
  have hcond : ¬ (s.pw.supply ≠ .up ∨ s.dstate = .init) := fun h => h.elim (fun h => h hup) hinit
  have hmine : ¬ (other = true ∧ s.spdm.session.isSome = true) := by
    rintro ⟨ho, hs⟩
    obtain h | h := hfree
    · exact absurd (h.symm.trans ho) (by decide)
    · rw [h] at hs
      exact absurd hs (by decide)
  simp only [execSpdmRequest, if_neg hcond, if_neg (Nat.not_lt.mpr hlen), if_neg hmine, if_pos hcode]

theorem execSpdmRequest_of_other (hlen : req.length ≤ 4096) (ho : other = true) (hs : s.spdm.session.isSome = true) :
    execSpdmRequest other req s = .next (s.spdmError 3) := by
  have hcond : ¬ (s.pw.supply ≠ .up ∨ s.dstate = .init) := fun h => h.elim (fun h => h hup) hinit
  simp only [execSpdmRequest, if_neg hcond, if_neg (Nat.not_lt.mpr hlen), if_pos (And.intro ho hs)]

end Spdm

theorem execDebugPortOpen_of_open (hup : s.pw.supply = .up) (hlife : s.nv.lifecycle = 0 ∨ s.nv.lifecycle = 3 ∧ s.nv.wiping = false) :
    execDebugPortOpen s = .next { s with upd := { s.upd with debug := true } } := by
  have hcond : s.pw.supply = .up ∧ (s.nv.lifecycle = 0 ∨ s.nv.lifecycle = 3 ∧ (!s.nv.wiping) = true) := by simpa [hup] using hlife
  rw [execDebugPortOpen, if_pos hcond]

theorem execDebugPortOpen_of_shut (hlife : s.nv.lifecycle = 1 ∨ s.nv.lifecycle = 2 ∨ s.nv.lifecycle = 4) : execDebugPortOpen s = .next s := by
  have hcond : ¬ (s.pw.supply = .up ∧ (s.nv.lifecycle = 0 ∨ s.nv.lifecycle = 3 ∧ (!s.nv.wiping) = true)) := by
    rintro ⟨-, h | ⟨h, -⟩⟩ <;> omega
  rw [execDebugPortOpen, if_neg hcond]

/-- Settles O60. -/
theorem reliabilityHostAndSecurity : Obligations.ReliabilityHostAndSecurity := by
  unfold Obligations.ReliabilityHostAndSecurity
  intro s t h line m r ph f off bytes v img drift other req
  refine ⟨?_, ?_, ?_, fun hup => ⟨?_, ?_, ?_, ?_, ?_, ?_, ?_, ?_, ?_, ?_⟩, ?_, ?_, ?_, ?_, ?_, ?_, ?_, ?_, ?_, ?_, ?_, ?_, ?_, ?_, ?_, ?_, ?_, ?_, ?_⟩
  · intro hfenced ht
    refine ⟨fun hfew => ⟨_, execTileReturn_of_pass hfenced hfew, ?_⟩, _, execTileReturn_of_fail hfenced, State.disableTile_tileOn _ t 2⟩
    have htile := s.unfenced_tile t
    refine ⟨congrArg Tile.bound htile, congrArg (fun x : Tile => x.l1.d) htile, congrArg Tile.task htile, congrArg (fun x : Tile => x.core.pc) htile,
      fun p hp => ?_⟩
    obtain ⟨q, -, rfl⟩ := List.mem_map.mp hp
    exact getLsbD_clearBit ht
  · intro hon hidle
    exact ⟨⟨_, execSliceFault_of_diverged hon, (s.condemn_frame h 1 hidle).1⟩, fun k hway => execSliceFault_of_data hon hidle hway,
      fun k e hway he hfree => execSliceFault_of_directory hon hidle hway he hfree⟩
  · intro c hrem
    exact ⟨⟨_, execSliceRemoval_of_condemned hrem, rfl, rfl, rfl⟩,
      fun hdrain hidle => execSliceFlush_of_drained hrem hdrain hidle⟩
  · rw [exec, execModuleLoss, if_pos hup]
  · exact fun hfail huse hidle => State.failModule_failed m _ _ hfail huse hidle
  · exact fun hr hn => execPhaseShed_of_up hup hr hn
  · exact State.retireTile_tileOn s t 3
  · intro hinit hfree
    obtain ⟨u, hu, hdog, htiles, hmem, hfault, hkept⟩ := execWatchdogExpiry_of_free hup img hinit hfree
    refine ⟨u, hu, hdog, htiles, hmem, ?_⟩
    by_cases hagain : (∃ k, s.rel.watchdog = some k ∧ s.ticks < k + 3600 * 100000000) ∨ img.getLsbD (if s.upd.keel then 1 else 0) = false
    · exact (hfault hagain).trans (if_pos hagain).symm
    · exact (hkept hagain).trans (if_neg hagain).symm
  · exact ⟨_, execAgeingMeasure_of_up hup drift, rfl, fun k hk => (Tab.getD_map_key ..).trans (if_pos (List.mem_range.mpr hk))⟩
  · exact fun hdue => execMarginReplan_of_interval hup hdue
  · exact fun hearly hmoved => execMarginReplan_of_drift hup hearly hmoved
  · rw [exec, execPwrMarginReplan, if_pos hup]
  · refine fun huse => ⟨fun x hlo hhi => ?_, fun hbad => ?_⟩
    · obtain ⟨u, hu, hmod⟩ := execHubSensorRead_of_good hup huse hlo hhi
      exact ⟨u, hu, by rw [hmod], by rw [hmod]⟩
    · obtain ⟨u, hu, hmod⟩ := execHubSensorRead_of_third hup huse hbad
      exact ⟨u, hu, by rw [hmod]⟩
  · intro c hgood u
    have hplan : u.plan = _ := State.replan_plan c hgood
    simp only [State.plan, Prod.mk.injEq] at hplan
    obtain ⟨hpw, htiles, hoff, hhours, hcause, hplanned⟩ := hplan
    exact ⟨by rw [hpw], by rw [hpw], hhours, hcause, hplanned, htiles, hoff⟩
  · exact ⟨_, rfl, rfl, rfl, rfl⟩
  · exact ⟨_, rfl, rfl, rfl, rfl⟩
  · exact ⟨_, rfl, rfl, rfl⟩
  · rfl
  · exact fun hf => by rw [exec, execVfFlr, if_neg hf]
  · exact ⟨_, rfl, rfl⟩
  · exact fun hfree => ⟨State.resetFunction_active hfree, State.resetFunction_none hfree⟩
  · exact State.dropHostLines_l1d s t
  · intro hgo hwrite b
    refine ⟨fun h1 h2 h3 => ⟨_, execKeyWrite_of_ok hgo hwrite h1 h2 h3, rfl, State.kstDone_err _ v (by decide), ?_, fun k hk => ?_⟩,
      fun hbad => ⟨_, execKeyWrite_of_bad hgo hwrite hbad, rfl, rfl, State.kstDone_err s v (s.kstErr_lt v)⟩⟩
    · exact State.keySlot_set_self _ _
    · exact State.keySlot_set_ne hk
  · intro hgo herase
    by_cases h1 : s.kstErr1 (field v 0 6) = true
    · exact ⟨_, execKeyErase_of_refused hgo herase h1, rfl, fun _ => ⟨rfl, State.kstDone_err s v (by decide)⟩, fun h => absurd (h1.symm.trans h) (by decide)⟩
    · have h1' : s.kstErr1 (field v 0 6) = false := Bool.not_eq_true _ ▸ h1
      have hslot := State.keySlot_set_self (s := s) { s.keySlot (field v 0 6) with kind := 0, len := 0, useAll := false, data := [] } (field v 0 6)
      have howner := congrArg KeySlot.owner hslot
      exact ⟨_, execKeyErase_of_ok hgo herase h1', rfl, fun h => absurd h h1, fun _ => ⟨State.kstDone_err _ v (by decide),
        congrArg KeySlot.kind hslot, congrArg KeySlot.data hslot, howner, fun k hk => State.keySlot_set_ne hk⟩⟩
  · exact fun hbad => execRegisterWrite_of_bad hbad
  · exact fun hsize halign => ⟨fun hf => ⟨execRegisterWrite_bar0 hsize halign hf, execRegisterWrite_config hsize halign hf⟩,
      execRegisterWrite_tile hsize halign, execRegisterWrite_orc hsize halign, execRegisterWrite_eunto hsize halign⟩
  · refine fun hf => ⟨_, execRegisterWrite_pwrCap hf, ?_, ?_⟩
    · by_cases hcap : 400 ≤ field v 0 11 ∧ field v 0 11 ≤ 1600
      · rw [State.updPw, if_pos hcap, keepField_of_ok _ (by rw [field_rw32_low]; exact decide_eq_true hcap)]
      · rw [State.updPw, if_neg hcap]
    · refine (field_keepField _ _ _).trans ?_
      rw [field_rw32_low]
      simp only [decide_eq_true_eq]
  · intro w hw hrun hexl
    have hexec : exec (.illegal t w) s = .next (s.runInstr t false false (decide (0x30 ≤ field w 26 6 ∧ field w 26 6 ≤ 0x37)) (fun _ s1 => .done s1)) := by
      rw [exec, execIllegal, hw]
      rfl
    exact Traps.of_malformed hrun hexl hexec rfl
  · refine fun hup hinit => ⟨fun hlen => ⟨_, execSpdmRequest_of_long hup hinit hlen, rfl⟩,
      fun hlen hfree hcode => ⟨_, execSpdmRequest_of_version hup hinit hlen hfree hcode, rfl, rfl, rfl⟩,
      fun hlen ho hs => ⟨_, execSpdmRequest_of_other hup hinit hlen ho hs, rfl, rfl⟩⟩
  · exact fun rate width cxl ptm => ⟨_, rfl, rfl, rfl, rfl, rfl, rfl, rfl, rfl⟩
  · exact fun hup hlife => ⟨_, execDebugPortOpen_of_open hup hlife, rfl⟩
  · exact fun hlife => execDebugPortOpen_of_shut hlife

end Sys2Proof.Machine
end
